-- ==== Sys2Proof/Word.lean ====
section
/-! DEFINITION. Word.lean: the register word, the byte and the plainest arithmetic on bit fields. -/

namespace Sys2Proof

/-- A register: 32 bits, little-endian on the bus (00_scope.md, notation). -/
abbrev Word := BitVec 32

/-- A byte of a line structure, of a frame or of host memory. -/
abbrev Byte := BitVec 8

/-- Bits [hi:lo] of a number. -/
def bits (x hi lo : Nat) : Nat := (x >>> lo) % 2 ^ (hi + 1 - lo)

/-- One bit of a number. -/
def bitOf (x n : Nat) : Bool := x.testBit n

/-- A truth value as a bit. -/
def b2n (b : Bool) : Nat := if b then 1 else 0

/-- The number `x` read as a signed number of `w` bits. -/
def signed (w x : Nat) : Int :=
  let y := x % 2 ^ w
  if y < 2 ^ (w - 1) then (y : Int) else (y : Int) - (2 ^ w : Nat)

/-- A signed number as `w` bits. -/
def unsigned (w : Nat) (x : Int) : Nat := (x % ((2 ^ w : Nat) : Int)).toNat

end Sys2Proof
end

