-- ==== Sys2Proof/Syntax.lean ====
section
/-! DEFINITION. Syntax.lean: the commands of the block, one constructor per row of the operation table. -/

namespace Sys2Proof

/-- A received PAM4 symbol as the receiver decides it: −3, −1, +1 or +3 (R50). -/
inductive Pam4 where
  | neg3 | neg1 | pos1 | pos3
deriving DecidableEq, Repr

/-- What a command's work met (R282, R362): the bytes it read from host memory in the order in which the chapters name
the areas (for a load command its records), whether a read failed after them, whether a flash operation failed (R278), how
often a GCM request was suspended (R265), and, where the work has only come that far and goes on, the bytes of its phase or
the fuses that are done (R278, R281). -/
structure WorkIn where
  reads : List (List Byte) := []
  failed : Bool := false
  flashFail : Bool := false
  progress : Option Nat := none
  suspended : Nat := 0
deriving DecidableEq, Repr

/-- A frame as a MAC receives it (R307): bytes before the FCS, what the merge sublayer, the PCS and the FCS check found,
1/64 time-clock cycles since the first bit after its delimiter reached the pins (R155), and FEC codewords corrected and
uncorrectable since the last frame. -/
structure RxIn where
  data : List Byte := []
  mergeErr : Bool := false
  codeErr : Bool := false
  fcsOk : Bool := true
  back : Nat := 0
  fecCorr : Nat := 0
  fecUncorr : Nat := 0
deriving DecidableEq, Repr

/-- Blocks received on a Yonov lane from a YSTART on (R300, R302): the last 58 bits that arrived before them, the latest in
bit 0, and each block's sync header with the 64 bits behind it as they arrived, bit 0 first. -/
structure YonovIn where
  prior : Nat := 0
  blocks : List (Nat × Nat) := []
deriving DecidableEq, Repr

/-- What a descriptor read brings (R24, R345, R368): the 32 bytes as a little-endian number (none: the read failed) and,
for a CMD ring, what the command's preparation reads (none: a read of it fails) and whether validation misses the cut-off. -/
structure DescIn where
  word : Option Nat := none
  prep : Option (List Byte) := some []
  late : Bool := false
deriving DecidableEq, Repr

/-- What the reads of a Shuttle burst bring (R379, R381): the bytes of a source or destination side that lies in host
memory (none: the read failed), and the DRAM address of an uncorrectable error. -/
structure BurstIn where
  src : Option (List Byte) := some []
  dst : Option (List Byte) := some []
  memErr : Option Nat := none
deriving DecidableEq, Repr

/-- A fault that a unit finds (R438, R439): source, code, context word, root, and for an error in a Jacquard deck the entry
(deck B, TABLE, INDEX, R445). -/
structure FaultIn where
  source : Nat
  code : Nat
  ctx : Nat
  rootSource : Nat
  rootCode : Nat
  deckB : Bool := false
  table : Nat := 0
  index : Nat := 0
deriving DecidableEq, Repr

/-- What calibration found (R423, R424): failed steps as GLOBAL_CAL_STAT numbers them, its duration in ms, PLL locks and
references, and the junction temperature in 0.25 °C. -/
structure ReadyIn where
  fails : Nat := 0
  ms : Nat := 0
  corePll : Bool := true
  lanePll : Bool := true
  lineRef : Bool := true
  temp : Int := 0
deriving DecidableEq, Repr

/-- What the pick that ends brings to its commit point: its length in core clocks, the junction temperature now, its
highest value and its mean over the pick (0.25 °C), the count in the line's header where the generator is locked, and
whether MPD_IN exceeds its threshold (R19, R430, R456). -/
structure CommitIn where
  clocks : Nat := 125000
  temp : Int := 0
  tempMax : Int := 0
  tempMean : Int := 0
  lineCount : Option Nat := none
  mpd : Bool := false
deriving DecidableEq, Repr

/-- A command as its descriptor and its preparation give it: ring, index, the 32 bytes of the descriptor as a number,
and the bytes its preparation read from host memory (none: a read failed, R368). -/
structure CmdDesc where
  ring : Nat
  index : Nat
  word : Nat
  data : Option (List Byte)
deriving DecidableEq, Repr

/-- What the safety path sees as a channel declares (R450, R453): LASER_EN is high; how long MPD_IN has exceeded THRESH; the
instant in weft symbols on the time line of each pending map, newest first; the ratio of symbol clock and oscillator in
thousandths of nominal; how long the channels have disagreed; an uncorrectable error in the path's memory; a refresh of the
activation link is missing. -/
structure SafetySeen where
  en : Bool := false
  mpdNs : Nat := 0
  pos : List Int := []
  clock : Nat := 1000
  disagreeNs : Nat := 0
  memErr : Bool := false
  linkMissing : Bool := false
deriving DecidableEq, Repr

/-- What the host has written to the function's PCI Express configuration space beside Bus Master Enable (R335, R337): D3hot,
the two tag-width enables, Max Payload Size and Max Read Request Size (128 × 2^code bytes), MSI-X Enable and Function Mask,
ASPM L1, the Completion Timeout range and its disable, and the base addresses of BAR0 and BAR2. The defaults are the reset
values of PCI Express. -/
structure PcieCfg where
  d3hot : Bool := false
  tag10 : Bool := false
  tag14 : Bool := false
  mps : Nat := 0
  mrrs : Nat := 2
  msixEn : Bool := false
  msixMask : Bool := false
  aspmL1 : Bool := false
  ctoRange : Nat := 0
  ctoOff : Bool := false
  bar0 : Nat := 0
  bar2 : Nat := 0
deriving DecidableEq, Repr

/-- The commands of the block, one constructor per row of spec/opcode_table.json. Operands named `be` are the byte enables of
a host access and `v` the word written (R8); `d` is a command descriptor with what its preparation read (R359, R362);
`c`, `n`, `p`, `r` number the core or channel, the lane, the MAC or page, and the ring. -/
inductive Instr where
  /-- REG_WRITE (R22): A host write to a register that has no row of its own; the field is staged for the next commit
  point or takes effect at once if immediate. -/
  | regWrite (addr : Nat) (be : BitVec 4) (v : Word)
  /-- STRAY_WRITE (R337): A write to BAR2 outside the kick registers is discarded and raises a corrected event. -/
  | strayWrite (off : Nat) (be : BitVec 4 := 15)
  /-- COUNTER_LO_READ (R11): A read of the low word of a 64-bit counter returns bits [31:0], copies the high word to
  the holding register and clears the counter in one action. -/
  | counterLoRead (addr : Nat) (be : BitVec 4)
  /-- RC_READ (R9): A read of any other RC field returns its value and clears or restarts it in the same action. -/
  | rcRead (addr : Nat) (be : BitVec 4)
  /-- PICK_COUNT_LO_READ (R11): A read of PICK_COUNT_LO copies pick counter bits [47:32] into PICK_COUNT_HI. -/
  | pickCountLoRead (be : BitVec 4)
  /-- TIME_NOW_NS_READ (R145): A read of TIME_NOW_NS copies the seconds and fraction of the same cycle into the NOW
  registers. -/
  | timeNowNsRead (be : BitVec 4)
  /-- TIME_CAP_NS_READ (R163): A read of TIME_CAP_NS pops the oldest capture entry, or returns 0xFFFF_FFFF when the
  FIFO is empty. -/
  | timeCapNsRead (i : Nat) (be : BitVec 4)
  /-- YMGMT_RX_READ (R305): A read of LANE_YMGMT_RX_LO pops the oldest YMGMT entry and sets VALID in LANE_YMGMT_RX_HI.
  -/
  | ymgmtRxRead (n : Nat) (be : BitVec 4)
  /-- YMGMT_SEND (R305): A write of SEND queues a YMGMT block in the lane's transmit FIFO unless the FIFO is full. -/
  | ymgmtSend (n : Nat) (be : BitVec 4) (v : Word)
  /-- WARP_PM_SEL_WRITE (R83): A write of WARP_PM_SEL copies the selected PM interval into the PM flag, start and data
  registers. -/
  | warpPmSelWrite (be : BitVec 4) (v : Word)
  /-- SELVEDGE_HIST_SEL_WRITE (R441): A write of SELVEDGE_HIST_SEL copies the history entry of the selected age into
  SELVEDGE_HIST_DATA. -/
  | selvedgeHistSelWrite (be : BitVec 4) (v : Word)
  /-- LOCK_EN_CLEAR (R56): clearing PICK_CTRL.LOCK_EN while LOCKED moves the pick generator to FLYWHEEL at once. -/
  | lockEnClear (be : BitVec 4)
  /-- RX_EN_WRITE (R42): setting WARP_CTRL.RX_EN enables the receiver chain, or has no effect and raises an event
  while the core clock runs from the oscillator. -/
  | rxEnWrite (be : BitVec 4) (v : Word)
  /-- DG_LATCH_CLEAR (R112): host software clears WEFT_STAT.DG_LATCH; the write has no effect while PWR_FAIL_N is low.
  -/
  | dgLatchClear (be : BitVec 4) (pinLow : Bool)
  /-- ACT_HELD_SET (R119): host software sets ACT_HELD.HELD, which erases the session and holds the activation
  controller in HELD. -/
  | actHeldSet (be : BitVec 4)
  /-- TIME_LOAD (R148): A write of TIME_CTRL.LOAD loads the TIME_SET values into the time counter at the next commit
  point. -/
  | timeLoad (be : BitVec 4) (v : Word)
  /-- TIME_INC_ARM (R147): A write to TIME_INC_HI arms the staged INC to come into force at the next commit point. -/
  | timeIncArm (be : BitVec 4) (v : Word)
  /-- HOST_STEP (R152): A write to TIME_STEP_HI applies the host step to the time counter at the next commit point. -/
  | hostStep (be : BitVec 4) (v : Word)
  /-- MAC_ADDR_ARM (R308): A write to MAC_ADDR_HI arms both words of the selected address filter entry for the next
  commit point. -/
  | macAddrArm (be : BitVec 4) (v : Word)
  /-- REED_SWAP_REQUEST (R221): A write of REED_CTRL.SWAP requests a shaper set swap at the next commit point. -/
  | reedSwapRequest (be : BitVec 4) (v : Word)
  /-- ANCHOR_LOCK (R222): A write of REED_ANCHOR.LOCK locks shapers 0 to 31 against every further write. -/
  | anchorLock (be : BitVec 4)
  /-- DRAFT_SWAP_REQUEST (R333): A write of DRAFT_CTRL.SWAP requests a draft page swap. -/
  | draftSwapRequest (be : BitVec 4) (v : Word)
  /-- TRNG_RESTART (R269): A write of SEC_TRNG_CTRL.RESTART clears TRNG_FAIL and restarts health testing. -/
  | trngRestart (be : BitVec 4)
  /-- HEDDLE_ENT_WRITE (R187): the Heddle window WRITE operation writes the selected entry of the standby deck. -/
  | heddleEntWrite (be : BitVec 4)
  /-- HEDDLE_ENT_READ (R187): the Heddle window READ operation fills HEDDLE_ENT_DATA from the selected standby entry.
  -/
  | heddleEntRead (be : BitVec 4)
  /-- INVALIDATE (R187): the Heddle window INVALIDATE operation clears VALID of the selected standby entry. -/
  | invalidate (be : BitVec 4)
  /-- EM_INSERT (R177): the Heddle window EM_INSERT operation inserts an exact-match key into a candidate bucket and
  reports the chosen index. -/
  | emInsert (be : BitVec 4)
  /-- EM_DELETE (R187): the Heddle window EM_DELETE operation removes the exact-match entry that matches the key. -/
  | emDelete (be : BitVec 4)
  /-- CLEAR_ALL (R187): the Heddle window CLEAR_ALL operation invalidates every entry of the standby deck within 2
  picks. -/
  | clearAll (be : BitVec 4)
  /-- REED_ENT_WRITE (R236): the Reed window WRITE operation writes a queue, meter, shaper or gate record, staged or
  immediate as its table requires. -/
  | reedEntWrite (be : BitVec 4)
  /-- REED_ENT_READ (R236): the Reed window READ operation returns the staged, standby or current value of the
  selected record. -/
  | reedEntRead (be : BitVec 4)
  /-- DRAFT_ENT_WRITE (R331): the Draft window WRITE operation writes an entry of the standby page, or is refused. -/
  | draftEntWrite (be : BitVec 4)
  /-- DRAFT_ENT_READ (R329): the Draft window READ operation fills DRAFT_ENT_DATA from the standby page. -/
  | draftEntRead (be : BitVec 4)
  /-- FLOW_STORE_ENABLE (R204): setting HEDDLE_FLOW_CTRL.EN puts the flow store in VALID or INVALID according to
  HEDDLE_FLOW_KEEP. -/
  | flowStoreEnable (be : BitVec 4) (v : Word)
  /-- HOST_CMD_CFG_WRITE (R365): A write of HOST_CMD_CFG or HOST_CQ_CFG enables rings 0 and 1, or clears EN, which
  acts as RING_STOP. -/
  | hostCmdCfgWrite (cq : Bool) (be : BitVec 4) (v : Word)
  /-- HOST_KICK (R342): A write to a kick register asks the terminal to fetch the permitted doorbell blocks. -/
  | hostKick (p : Nat) (be : BitVec 4) (v : Word)
  /-- ABORT (R382): A write of SHUTTLE_CH_CTRL.ABORT ends the channel's descriptor in progress at its next burst
  boundary. -/
  | abort (c : Nat) (be : BitVec 4)
  /-- WIN_RESET (R378): A write of WIN_RESET discards both circular windows that the channel keeps. -/
  | winReset (c : Nat) (be : BitVec 4)
  /-- SKEIN_CORE_RESET (R387): A write of SKEIN_CORE_CTRL.RESET halts the core, clears its registers and clears FAULT.
  -/
  | skeinCoreReset (c : Nat) (be : BitVec 4) (v : Word)
  /-- SKEIN_WIN_DATA_ACCESS (R406): A host access to SKEIN_WIN_DATA reaches the selected core memory word, or is
  refused, and advances ADDR. -/
  | skeinWinDataAccess (write : Option Word) (be : BitVec 4)
  /-- MBOX_DOORBELL (R407): A write of SKEIN_MBOX_CTRL.DOORBELL makes the MBOX interrupt pending on core 3. -/
  | mboxDoorbell (be : BitVec 4) (v : Word)
  /-- CLOCK_SWITCH (R426): A write of GLOBAL_CLK_CTRL.SEL switches the core clock to the core PLL, or raises an event
  if the PLL is not locked. -/
  | clockSwitch (be : BitVec 4)
  /-- SELVEDGE_PEND_CLEAR (R444): host software clears a source's PEND bit, unless the source is recovering or parked
  or the safety latch stands, and FAULT_N may rise. -/
  | selvedgePendClear (hi : Bool) (be : BitVec 4) (v : Word)
  /-- SELVEDGE_RESTART (R446): A write of SELVEDGE_UNIT_CTRL.RESTART runs one recovery of a PARKED unit. -/
  | selvedgeRestart (be : BitVec 4)
  /-- SAFETY_CLR_WRITE (R456): A write to SAFETY_CLR advances or restarts the two-write clearing sequence of the
  safety latch. -/
  | safetyClrWrite (be : BitVec 4) (v : Word)
  /-- SAFETY_FORCE_LATCH (R453): A write of SAFETY_FORCE.LATCH sets the safety latch with reason HOST. -/
  | safetyForceLatch (be : BitVec 4)
  /-- SAFETY_MPD_CFG_WRITE (R453): A write to SAFETY_MPD_CFG takes effect at once, or is discarded whole if it would
  change LAG in ACTIVE. -/
  | safetyMpdCfgWrite (be : BitVec 4) (v : Word)
  /-- COMMIT_POINT (R26): at the first core clock of each pick the terminal applies staged writes, commands, swaps,
  the grant review and the pick counter advance in order. -/
  | commitPoint (i : CommitIn)
  /-- SWEEP_POINT (R32): at a pick count that is a multiple of INTERVAL the selected counters are sampled, or the
  point is skipped. -/
  | sweepPoint (line : Option Nat)
  /-- SWEEP_EXPORT_DONE (R34): the sweep record is written to its slot and a SWEEP completion is posted. -/
  | sweepExportDone
  /-- REPEAT_START (R21): at repeat position zero the tasks assigned to the repeat run. -/
  | repeatStart
  /-- PROOF_TEST (R458): the safety path's proof test ends with a pass, or a failure or overrun that latches with
  reason PROOF. -/
  | proofTest (step ticks : Nat) (overrun : Bool)
  /-- SHAPER_REFILL_TICK (R217): at each refill tick every shaper's buckets are refilled and clipped. -/
  | shaperRefillTick (k : Nat)
  /-- PER_PICK_OVERRUN (R30): A unit exceeds its per-pick budget, sets its PICK_OVERRUN bit, raises OVERRUN and
  applies its consequence. -/
  | perPickOverrun (bit clocks arg : Nat)
  /-- AMPLITUDE_INTERVAL (R75): at the end of each 1/64-pick interval the amplitude detector result may declare or
  clear LOS. -/
  | amplitudeInterval (amp : Nat)
  /-- CDR_LOCK (R48): the CDR achieves lock to the line rate. -/
  | cdrLock
  /-- CDR_LOCK_LOSS (R77): A fall of CDR_LOCK in HUNT or PRESYNC closes every candidate. -/
  | cdrLockLoss
  /-- PSYNC_WINDOW (R53): A 64-bit window at a tested position drives the alignment state machine: opening candidates,
  confirming SYNC, counting misses or declaring LOF. -/
  | psyncWindow (pos w : Nat) (hdr : List Byte) (bad : Bool)
  /-- CODEWORD_DECODE (R59): A downstream LDPC codeword is decoded and counted, or declared uncorrectable and its
  bytes poisoned. -/
  | codewordDecode (idx : Nat) (levels : List Pam4) (words : List Nat := [])
  /-- PICK_HEADER (R64): the pick header is checked; a failure discards the pick, and a TOD_REF pick records T_cap. -/
  | pickHeader (h : List Byte) (back : Nat)
  /-- PM_SECOND_END (R78): at the end of each PM second the terminal updates BER registers, SD, ES/SES/UAS bins and
  interval boundaries. -/
  | pmSecondEnd (line : Option Nat := none)
  /-- WEFT_MAP (R92): the weft map of a pick is parsed, matched grants are ordered and tested, and accepted grants
  form bursts. -/
  | weftMap (m : List Byte)
  /-- CLP_FRAME (R71): A downstream CLP frame is delineated, tested, decrypted by CIPHER_0 and passed to its
  destination. -/
  | clpFrame (data : List Byte) (cut : Option Nat)
  /-- REASM_TIMEOUT (R74): A reassembly context whose timeout expires before its last fragment is discarded and
  counted. -/
  | reasmTimeout (stream : Nat)
  /-- DISCOVER (R140): A DISCOVER arms the terminal and stages PRE_EQD and P. -/
  | discover (m : List Byte) (pos : Nat)
  /-- ASSIGN_TID (R116): an ASSIGN_TID stages the terminal ID and default container and queues an ACK. -/
  | assignTid (m : List Byte) (pos : Nat)
  /-- CHALLENGE (R133): A CHALLENGE starts a new key pair and attestation record, or resends the last record. -/
  | challenge (m : List Byte) (pos : Nat)
  /-- KEY_AGREE (R136): A KEY_AGREE part is stored, and when complete the signature and shared secret are checked. -/
  | keyAgree (m : List Byte) (pos : Nat)
  /-- SET_EQD (R141): A SET_EQD schedules EQD and P for EFFECTIVE and, in RANGING with ACT = 1, entry to WOVEN. -/
  | setEqd (m : List Byte) (pos : Nat)
  /-- ASSIGN_CONTAINER (R142): an ASSIGN_CONTAINER adds or removes a container of WEFT_CONT. -/
  | assignContainer (m : List Byte) (pos : Nat)
  /-- ASSIGN_STREAM (R143): an ASSIGN_STREAM adds, replaces or removes a stream in the active stream table. -/
  | assignStream (m : List Byte) (pos : Nat)
  /-- KEY_LOAD (R139): A KEY_LOAD unwraps a stream key under KEK and loads it into a key slot. -/
  | keyLoad (m : List Byte) (pos : Nat)
  /-- KEY_SWITCH (R262): A KEY_SWITCH makes an index the stream's weft index at EFFECTIVE. -/
  | keySwitch (m : List Byte) (pos : Nat)
  /-- TOD (R151): A TOD message is used to compute OFS and possibly step the time counter, or counted unused. -/
  | tod (m : List Byte) (pos : Nat)
  /-- DEACTIVATE (R116): A DEACTIVATE erases the session and returns the terminal to LISTENING. -/
  | deactivate (m : List Byte) (pos : Nat)
  /-- STOP (R116): A STOP erases the session and sets ACT_HELD.HELD. -/
  | stop (m : List Byte) (pos : Nat)
  /-- RELEASE (R116): A RELEASE clears ACT_HELD.HELD and returns the terminal to DARK. -/
  | release (m : List Byte) (pos : Nat)
  /-- DOZE_ACK (R415): A DOZE_ACK sets or clears DOZE_OK and, with ALLOW = 0 in DOZE, recalls the terminal. -/
  | dozeAck (m : List Byte) (pos : Nat)
  /-- EFFECTIVE_CHANGE (R132): accepted timed changes come into force at the commit point of their EFFECTIVE pick. -/
  | effectiveChange
  /-- T_ANNOUNCE_EXPIRY (R116): T_ANNOUNCE expires in ANNOUNCED: the session is erased and the back-off is drawn. -/
  | tAnnounceExpiry
  /-- T_KEY_EXPIRY (R116): T_KEY expires in ANNOUNCED: the session is erased and the back-off is drawn. -/
  | tKeyExpiry
  /-- T_RANGE_EXPIRY (R116): T_RANGE expires in RANGING: the session is erased and the back-off is drawn. -/
  | tRangeExpiry
  /-- T_LAPSE_EXPIRY (R116): T_LAPSE expires in LAPSED: the session is erased and the terminal goes DARK. -/
  | tLapseExpiry
  /-- ARM_EXPIRY (R128): the DISCOVER arming lapses after ARM_PICKS picks. -/
  | armExpiry
  /-- ATTEST_RECORD_READY (R133): the signed attestation record is ready and ATTEST parts 0 to 6 are queued. -/
  | attestRecordReady
  /-- KEY_DERIVATION_DONE (R137): HKDF derives TMK_D, TMK_U and KEK, zeroises Z and the private key, and queues an
  ACK. -/
  | keyDerivationDone
  /-- BURST_LATCH (R99): 1,000 ns before the first preamble symbol the burst header, message slots and container
  contents are latched. -/
  | burstLatch
  /-- SECTION_FILL (R230): reed fills the container sections of an accepted burst with frames, fragments and idle
  frames. -/
  | sectionFill (pieces : Nat := 1)
  /-- BURST_START (R107): LASER_EN rises and the burst starts and is counted. -/
  | burstStart
  /-- BURST_END (R107): the burst's last symbol leaves and LASER_EN falls after OFF_LAG. -/
  | burstEnd
  /-- PWR_FAIL_ASSERT (R428): PWR_FAIL_N low for 1 µs asserts dying gasp and stops grants, wakes and flash operations.
  -/
  | pwrFailAssert
  /-- PWR_FAIL_CLEAR (R428): PWR_FAIL_N high for 1 µs clears PWR_FAIL and paused operations continue. -/
  | pwrFailClear
  /-- HOLDOVER_ENTRY (R154): TIME_TOD_TIMEOUT picks without a used TOD clear SYNCED and set HOLDOVER. -/
  | holdoverEntry
  /-- PPS_PULSE (R162): PPS_OUT rises when the nanoseconds pass OFS_NS, or the pulse is suppressed. -/
  | ppsPulse
  /-- TS_CAP_EDGE (R163): an edge on TS_CAP_0 or TS_CAP_1 captures the time counter into its FIFO, or is lost. -/
  | tsCapEdge (i : Nat) (falling : Bool)
  /-- HEDDLE_PASS (R178): A pass classifies a frame and resolves one action from exceptions, ternary, flow store,
  exact match or default. -/
  | heddlePass (pipe1 same : Bool)
  /-- HEDDLE_REORDER_RELEASE (R167): A frame leaves Heddle once every earlier frame of its source has left. -/
  | heddleReorderRelease (source : Nat) (same : Bool)
  /-- FLOW_MISS_RESOLVE (R196): the DRAM read of a flow-cache miss returns and the waiting frames resolve. -/
  | flowMissResolve (position : Nat) (poison : Bool)
  /-- FLOW_PLACEMENT (R198): A queued entry is placed in the store by hopscotch moves, or counted in PLACE_FAIL. -/
  | flowPlacement
  /-- FLOW_AGE_OUT (R201): the aging scanner removes a non-static entry whose age has reached UNITS. -/
  | flowAgeOut (slot : Nat)
  /-- DECK_DRAIN_END (R192): FROZEN clears when no old-generation frame remains, or old frames are dropped at the
  second commit point. -/
  | deckDrainEnd
  /-- REED_SELECT (R224): when a destination can accept a frame, Reed selects one by level, band and WFQ and charges
  its shaper. -/
  | reedSelect (destType destId : Nat) (same : Bool := false)
  /-- SPOOL_FREE (R254): A unit frees a buffer, which is accepted into FREEING or rejected as a bad, double or foreign
  free. -/
  | spoolFree (handle owner : Nat)
  /-- SPOOL_LAYOUT_APPLY (R244): A staged pool layout comes into force at the first commit point with EN 0 and Spool
  idle. -/
  | spoolLayoutApply
  /-- GATE_LIST_START (R234): at start instant S the administrative gate list becomes operational. -/
  | gateListStart (p : Nat)
  /-- GATE_ENTRY_CHANGE (R233): the operational gate list advances to its next entry at the end of an interval. -/
  | gateEntryChange (p : Nat)
  /-- DECK_LOAD (R188): the DECK_LOAD command writes host records into the standby deck from its commit point. -/
  | deckLoad (d : CmdDesc)
  /-- DECK_LOAD_DONE (R189): the last DECK_LOAD record is written and the completion is posted. -/
  | deckLoadDone (records : List (List Byte)) (failed : Bool)
  /-- DECK_SWAP (R190): the DECK_SWAP command makes the standby deck active at step 4 and freezes the old deck. -/
  | deckSwap (d : CmdDesc)
  /-- RULE_WRITE (R191): the RULE_WRITE command applies one record to the active deck at step 3. -/
  | ruleWrite (d : CmdDesc)
  /-- FLOW_INSERT (R200): the FLOW_INSERT command places a host flow entry in the cache at its commit point. -/
  | flowInsert (d : CmdDesc)
  /-- FLOW_DELETE (R200): the FLOW_DELETE command deletes the flow with the image's key. -/
  | flowDelete (d : CmdDesc)
  /-- FLOW_READ (R200): the FLOW_READ command writes the flow entry back to host memory. -/
  | flowRead (d : CmdDesc)
  /-- FLOW_REHASH (R202): the FLOW_REHASH command starts migrating the store into the other region under a new seed.
  -/
  | flowRehash (d : CmdDesc)
  /-- FLOW_REHASH_DONE (R202): at the end of migration SEED, REGION and HEDDLE_FLOW_KEEP are updated and the command
  completes. -/
  | flowRehashDone
  /-- FLOW_CLEAR (R203): the FLOW_CLEAR command enters CLEARING and zeroes the active region. -/
  | flowClear (d : CmdDesc)
  /-- FLOW_CLEAR_DONE (R203): zeroing ends, the store enters VALID and HEDDLE_FLOW_KEEP is set. -/
  | flowClearDone
  /-- SHAPER_LOAD (R237): the SHAPER_LOAD command writes host records into the standby shaper set. -/
  | shaperLoad (d : CmdDesc)
  /-- SHAPER_SWAP (R221): the SHAPER_SWAP command brings the standby shaper set into force at step 6. -/
  | shaperSwap (d : CmdDesc)
  /-- GATE_LOAD (R237): the GATE_LOAD command replaces a port's administrative gate list. -/
  | gateLoad (d : CmdDesc)
  /-- GATE_START (R234): the GATE_START command computes start instant S and makes the list pending. -/
  | gateStart (d : CmdDesc)
  /-- QUEUE_FLUSH (R239): the QUEUE_FLUSH command discards every frame of a queue and returns their buffers. -/
  | queueFlush (d : CmdDesc)
  /-- IMAGE_INSTALL (R278): the IMAGE_INSTALL command checks and writes an image into the inactive slot in phases. -/
  | imageInstall (d : CmdDesc)
  /-- IMAGE_ACTIVATE (R280): the IMAGE_ACTIVATE command stages and swaps in the inactive slot's image and writes a
  boot record. -/
  | imageActivate (d : CmdDesc)
  /-- ARB_RAISE (R281): the ARB_RAISE command blows fuses until the OTP counter equals the running image's ARB. -/
  | arbRaise (d : CmdDesc)
  /-- ID_SIGN (R271): the ID_SIGN command signs a host message with the identity key under a host prefix. -/
  | idSign (d : CmdDesc)
  /-- SIG_VERIFY (R282): the SIG_VERIFY command verifies an Ed25519 signature. -/
  | sigVerify (d : CmdDesc)
  /-- HASH (R282): the HASH command writes a SHA-512 digest. -/
  | hash (d : CmdDesc)
  /-- RANDOM (R269): the RANDOM command writes TRNG output to host memory. -/
  | random (d : CmdDesc)
  /-- HOST_KEY (R282): the HOST_KEY command loads or zeroises a host key slot. -/
  | hostKey (d : CmdDesc)
  /-- GCM (R266): the GCM command runs an ENC, DEC, GMAC or ABORT segment on CIPHER_1. -/
  | gcm (d : CmdDesc)
  /-- OTP_CUST_KEY (R282): the OTP_CUST_KEY command writes the customer code key once. -/
  | otpCustKey (d : CmdDesc)
  /-- COMMAND_WORK_END (R282): A command whose work outlasts its pick ends and its completion is posted in ring order.
  -/
  | commandWorkEnd (ring index : Nat) (w : WorkIn)
  /-- RANDOM_ENTROPY_TIMEOUT (R269): A RANDOM command that receives nothing for one pick completes ERR_ENTROPY. -/
  | randomEntropyTimeout (ring index : Nat)
  /-- TRNG_BLOCK (R269): A conditioned TRNG block passes or fails health tests, and three consecutive failures stop
  output. -/
  | trngBlock (raw : BitVec 2048)
  /-- DRBG_RESEED (R267): after 65,536 requests a masking DRBG reseeds from the TRNG, or sets MASK_STALE. -/
  | drbgReseed (engine : Nat)
  /-- KEY_RETIRE (R263): A replaced weft key or superseded warp key is released and zeroised when its count expires.
  -/
  | keyRetire (stream : Nat) (weft : Bool) (index : Nat)
  /-- BOOT_IMAGE_CHOICE (R277): the boot ROM chooses and loads the preferred valid image, falls back, or sets
  NO_IMAGE. -/
  | bootImageChoice
  /-- LANE_ADAPTED (R294): A training lane's PLLs and equalisers adapt and the lane enters DOWN, seeking lock. -/
  | laneAdapted (n ctle : Nat)
  /-- LANE_LINK_UP (R294): A lane or MAC reaches PCS lock and link up, setting CHANGE and notifying. -/
  | laneLinkUp (mac : Bool) (n window : Nat) (speed : Nat := 0)
  /-- LANE_LINK_DOWN (R303): A lane or MAC link goes DOWN on loss of lock, RDY = 0 or missing idles. -/
  | laneLinkDown (mac : Bool) (n codeErrs : Nat) (localFault remoteFault : Bool)
  /-- PAIR_MARKER (R298): A pair marker arrives or is missed in paired 5G mode, locking or losing slot lock. -/
  | pairMarker (n : Nat) (a : Nat × Nat) (b : Nat × Nat := (0, 0))
  /-- YONOV_FRAME_RX (R302): A received Yonov frame is checked and passed to Heddle or discarded. -/
  | yonovFrameRx (n : Nat) (y : YonovIn)
  /-- YIDLE (R303): A received YIDLE updates PEER_RDY and may bring the Yonov link up or down. -/
  | yidle (n : Nat) (rdy : Bool)
  /-- YIDLE_TIMEOUT (R303): 4,096 blocks without a YIDLE take the Yonov link DOWN. -/
  | yidleTimeout (n : Nat)
  /-- YIDLE_SEND (R301): the transmitter sends a YIDLE when idle and at least every 1,024 blocks. -/
  | yidleSend (n : Nat)
  /-- YHOLD (R304): A received YHOLD holds or releases the lane for new frames. -/
  | yhold (n : Nat) (hold : Bool)
  /-- YHOLD_REPEAT (R304): while sending HOLD = 1 the terminal repeats the YHOLD every 1,024 blocks. -/
  | yholdRepeat (n : Nat)
  /-- YHOLD_TIMEOUT (R304): HOLD = 1 for 8,192 blocks without a further YHOLD releases the lane. -/
  | yholdTimeout (n : Nat)
  /-- YMGMT (R305): A received YMGMT enters the receive FIFO or is dropped. -/
  | ymgmt (n payload : Nat)
  /-- YONOV_FIFO_ERROR (R291): A Yonov receive FIFO overflow or underflow is counted and takes the lane DOWN. -/
  | yonovFifoError (n : Nat)
  /-- MAC_RX_FRAME (R307): A MAC received frame is tested, timestamped and passed to Heddle or discarded. -/
  | macRxFrame (p : Nat) (r : RxIn)
  /-- PAUSE_FRAME_RX (R312): A received PAUSE or PFC frame pauses or releases the levels it names. -/
  | pauseFrameRx (p : Nat) (data : List Byte)
  /-- PAUSE_EXPIRY (R312): the pause time of a paused level runs out and the level is released. -/
  | pauseExpiry (p t : Nat)
  /-- PAUSE_REPEAT (R313): while a count stays above XON the MAC repeats the pause frame every QUANTA/2. -/
  | pauseRepeat (p : Nat)
  /-- MAC_TX_END (R309): A frame finishes transmission, is counted, frees its buffer and yields any TX_TS completion.
  -/
  | macTxEnd (p back : Nat)
  /-- MERGE_VERIFY (R314): clause 99 verification succeeds and preemption becomes active. -/
  | mergeVerify (p : Nat)
  /-- UPSTREAM_EXCHANGE (R323): 1,000 ns after the commit point Draft builds one upstream circuit frame per valid
  circuit. -/
  | upstreamExchange (samples : List (Nat × Nat))
  /-- DRAFT_LOAD (R334): the DRAFT_LOAD command writes host records into the standby page. -/
  | draftLoad (d : CmdDesc)
  /-- DRAFT_SWAP (R333): the DRAFT_SWAP command requests a page swap, deferred until no load or window operation runs.
  -/
  | draftSwap (d : CmdDesc)
  /-- DOORBELL_FETCH_DONE (R343): A fetched doorbell block returns and each ring's INDEX is accepted or ignored. -/
  | doorbellFetchDone (block : Nat) (data : Option (List Byte))
  /-- DESCRIPTOR_READ_DONE (R345): A descriptor read returns and is dispatched if its PHASE matches. -/
  | descriptorReadDone (r : Nat) (d : DescIn)
  /-- DESCRIPTOR_REREAD (R345): 2 µs after a phase mismatch the descriptor is re-read, and the sixteenth mismatch
  stalls the ring. -/
  | descriptorReread (r : Nat)
  /-- TX_SEND (R347): A TX send is checked and its frames enter Heddle or Reed, then TX_DONE is posted. -/
  | txSend (r : Nat) (data : Option (List Byte))
  /-- NOP (R363): the NOP command completes DONE at its commit point. -/
  | nop (d : CmdDesc)
  /-- RING_SETUP (R363): the RING_SETUP command configures an OFF ring, which enters RUN. -/
  | ringSetup (d : CmdDesc)
  /-- RING_RESIZE (R364): the RING_RESIZE command moves an empty, idle ring to a new base and size. -/
  | ringResize (d : CmdDesc)
  /-- RING_STOP (R364): the RING_STOP command stops a ring, completes its outstanding work and takes it to OFF. -/
  | ringStop (d : CmdDesc)
  /-- CQ_MODERATE (R363): the CQ_MODERATE command changes the interrupt moderation of a CQ. -/
  | cqModerate (d : CmdDesc)
  /-- RING_QUERY (R478): the RING_QUERY command writes a ring's record as at the commit point. -/
  | ringQuery (d : CmdDesc)
  /-- RING_ENTERS_OFF (R364): A STOPPING ring posts its last completion and enters OFF, completing RING_STOP. -/
  | ringEntersOff (r : Nat)
  /-- MSIX_MOD_TIMER (R357): MOD_TIME after the oldest unsignalled entry, an armed CQ sends its MSI-X message. -/
  | msixModTimer (c : Nat)
  /-- HOST_FUNCTION_RESET (R370): FLR, hot reset or link down resets the host registers, rings, doorbell state and
  MSI-X. -/
  | hostFunctionReset (down : Bool)
  /-- COPY (R375): A Shuttle COPY descriptor starts copying LEN bytes from SRC to DST. -/
  | copy (c : Nat)
  /-- FILL (R375): A Shuttle FILL descriptor starts writing the 8-byte pattern over LEN bytes. -/
  | fill (c : Nat)
  /-- COMPARE (R375): A Shuttle COMPARE descriptor starts comparing LEN bytes at SRC and DST. -/
  | compare (c : Nat)
  /-- SHUTTLE_BURST (R379): at a burst boundary the arbiter gives the next burst to a ready channel. -/
  | shuttleBurst (b : BurstIn)
  /-- SHUTTLE_DESC_DONE (R384): A Shuttle descriptor ends and its SHUTTLE_DONE completion is posted. -/
  | shuttleDescDone (c : Nat)
  /-- MPY (R391): MACX with K = MPY loads the product into the accumulator, with optional loads. -/
  | mpy (c : Nat)
  /-- MAC (R391): MACX with K = MAC adds the product to the accumulator, with optional loads. -/
  | mac (c : Nat)
  /-- MSU (R391): MACX with K = MSU subtracts the product from the accumulator, with optional loads. -/
  | msu (c : Nat)
  /-- FTAP (R394): FTAP multiply-accumulates, loads both operands, moves the X word up one place and post-modifies. -/
  | ftap (c : Nat)
  /-- CLR (R395): AOP CLR clears an accumulator. -/
  | clr (c : Nat)
  /-- NEG (R395): AOP NEG negates an accumulator. -/
  | neg (c : Nat)
  /-- ABS (R395): AOP ABS takes the absolute value of an accumulator. -/
  | abs (c : Nat)
  /-- ADDA (R395): AOP ADDA sets an accumulator to A0 + A1. -/
  | adda (c : Nat)
  /-- SUBA (R395): AOP SUBA subtracts the other accumulator. -/
  | suba (c : Nat)
  /-- SHL_ACC (R395): AOP SHL shifts an accumulator left with saturation. -/
  | shlAcc (c : Nat)
  /-- SHR_ACC (R395): AOP SHR shifts an accumulator right arithmetically. -/
  | shrAcc (c : Nat)
  /-- MOVR (R392): MOVR writes a rounded, saturated copy of an accumulator into a data register. -/
  | movr (c : Nat)
  /-- MOVT (R392): MOVT writes a truncated, saturated copy of an accumulator into a data register. -/
  | movt (c : Nat)
  /-- LDA (R395): AOP LDA loads an accumulator from a data register shifted by 16. -/
  | lda (c : Nat)
  /-- SAT32 (R395): AOP SAT32 clips an accumulator to the 32-bit range. -/
  | sat32 (c : Nat)
  /-- MOV (R395): DOP MOV copies a data register. -/
  | mov (c : Nat)
  /-- ADD (R395): DOP ADD adds data registers modulo 2^16. -/
  | add (c : Nat)
  /-- SUB (R395): DOP SUB subtracts data registers modulo 2^16. -/
  | sub (c : Nat)
  /-- AND (R395): DOP AND forms the bitwise and of data registers. -/
  | and (c : Nat)
  /-- OR (R395): DOP OR forms the bitwise or of data registers. -/
  | or (c : Nat)
  /-- XOR (R395): DOP XOR forms the bitwise exclusive or of data registers. -/
  | xor (c : Nat)
  /-- SHL_DATA (R395): DOP SHL shifts a data register left. -/
  | shlData (c : Nat)
  /-- SHR_DATA (R395): DOP SHR shifts a data register right arithmetically. -/
  | shrData (c : Nat)
  /-- CMP (R395): DOP CMP sets SR.Z and SR.N from the difference of two data registers. -/
  | cmp (c : Nat)
  /-- SKEIN_NOP (R395): the core executes NOP. -/
  | skeinNop (c : Nat)
  /-- LD (R395): LD loads a data register from memory and post-modifies the address register. -/
  | ld (c : Nat)
  /-- ST (R395): ST stores a data register to memory and post-modifies the address register. -/
  | st (c : Nat)
  /-- LDI (R395): LDI loads a data register with an immediate. -/
  | ldi (c : Nat)
  /-- ADDX (R393): ADDX post-modifies an address register by a signed immediate under its mode. -/
  | addx (c : Nat)
  /-- LDX (R393): LDX loads an address register without applying its mode. -/
  | ldx (c : Nat)
  /-- LDM (R393): LDM loads an address-mode register. -/
  | ldm (c : Nat)
  /-- MVS (R399): MVS reads a special register into a data register. -/
  | mvs (c : Nat)
  /-- MSV (R399): MSV writes a special register, including HSIG, which signals host software. -/
  | msv (c : Nat)
  /-- TRD (R400): TRD reads a tap-bus word, stalling the core 4 clocks. -/
  | trd (c : Nat)
  /-- TWR (R400): TWR writes a tap-bus word from core 0, stalling the core. -/
  | twr (c : Nat)
  /-- BR (R396): BR branches on its condition after two delay slots. -/
  | br (c : Nat)
  /-- CALL (R396): CALL pushes a return address and transfers after two delay slots. -/
  | call (c : Nat)
  /-- RET (R396): RET pops the return stack and transfers after two delay slots. -/
  | ret (c : Nat)
  /-- RTI (R398): RTI restores SR and returns from an interrupt. -/
  | rti (c : Nat)
  /-- REP (R397): REP runs the following block of instructions a given number of times. -/
  | rep (c : Nat)
  /-- WAIT (R387): WAIT gates the core clock until an enabled interrupt is pending. -/
  | wait (c : Nat)
  /-- HALT (R387): HALT stops the core in HALTED. -/
  | halt (c : Nat)
  /-- INTERRUPT_TAKEN (R398): an eligible interrupt is taken: IPC and ISR are saved and the core jumps to the vector.
  -/
  | interruptTaken (c k : Nat)
  /-- EQ_SWAP (R45): A requested coefficient swap takes effect at a word boundary, or is rejected. -/
  | eqSwap
  /-- CORR_WINDOW_END (R401): A correlator window ends, latching correlators and EPOW and raising CORR. -/
  | corrWindowEnd (corr : List Int) (epow : Nat)
  /-- SKEIN_LOAD (R404): the SKEIN_LOAD command loads signed code into core 3. -/
  | skeinLoad (d : CmdDesc)
  /-- SKEIN_UNLOAD (R405): the SKEIN_UNLOAD command halts core 3 and zeroes its memories and digest. -/
  | skeinUnload (d : CmdDesc)
  /-- FIRMWARE_BANK_SWITCH (R403): A running core reaching its safe point after an image swap restarts in the new
  bank. -/
  | firmwareBankSwitch (c : Nat)
  /-- POWER_ON (R409): power-on resets every domain and the terminal enters CALIBRATE. -/
  | powerOn
  /-- RESET_ASSERT (R422): RESET_N low resets every domain except AON and SAFETY, keeping DRAM in self-refresh if
  requested. `low`: how long RESET_N has been low, in nanoseconds; a shorter pulse than 200 ns is ignored (R467). -/
  | resetAssert (low : Nat := 200)
  /-- SUPPLY_REMOVAL (R466): supplies stay below 0.1 V for 10 ms and the terminal is OFF. -/
  | supplyRemoval
  /-- READY (R423): calibration, memory initialisation and image choice complete, READY asserts and the mode becomes
  LISTEN or SAFE. -/
  | ready (i : ReadyIn)
  /-- DOZE_DRAIN_COMPLETE (R414): at the first commit point with Spool idle after a DOZE request, the forbidden
  domains go off. -/
  | dozeDrainComplete
  /-- DOMAIN_WAKE_ON (R421): A woken domain reports ON at the third commit point after admission and notifies
  DOMAIN_WOKE. -/
  | domainWakeOn (d : Nat)
  /-- DRAM_TRAINING_DONE (R472): DRAM training ends, READY or TRAIN_FAIL, leaving self-refresh if contents were kept.
  -/
  | dramTrainingDone (fail0 fail1 : Bool)
  /-- FAULT_REPORT (R439): selvedge takes a report, records or coalesces it, sets PEND and drives FAULT_N. -/
  | faultReport (f : Option FaultIn)
  /-- STORM_CLOSE (R443): at step 10 an open history entry 125,000 clocks old is closed and STORM posted. -/
  | stormClose
  /-- RECOVERY_END (R445): A recovering unit completes its action, returns to OK and RECOVERED is posted. -/
  | recoveryEnd (src : Nat)
  /-- SAFETY_LINK_UPDATE (R450): A link message from the activation controller updates the safety path's copies, or
  latches on error. -/
  | safetyLinkUpdate (crcOk : Bool) (seq channel : Nat)
  /-- SAFETY_DECLARE (R453): A channel declares a dangerous failure and the path cuts the laser and latches within 1
  µs. -/
  | safetyDeclare (reason channel : Nat) (seen : SafetySeen := {})
  /-- VDD_SAFE_RETURN (R455): VDD_SAFE returns and the safety path holds the cut until its first proof test passes. -/
  | vddSafeReturn (removed : Bool)
  /-- BUS_MASTER_ENABLE (R368): A PCIe configuration write that sets or clears Bus Master Enable lets the terminal
  issue requests again or stops all requests, so rings wait or resume. -/
  | busMasterEnable (en : Bool) (width speed : Nat) (cfg : PcieCfg := {})
  /-- RESERVED_OPCODE (R395): A Skein core executes a reserved opcode, reserved sub-op or encoding with a non-zero
  must-be-zero bit and stops in FAULT with cause ILLEGAL. -/
  | reservedOpcode (c : Nat)
  /-- TREADLE_MESSAGE_DISCARDED (R126): A downstream treadle message that is poisoned, fails its CRC or carries a
  reserved or upstream-only TYPE is discarded and counted. -/
  | treadleMessageDiscarded (m : List Byte) (pos : Nat)
  /-- DARK_REGISTER_READ (R14): A read of a register whose power domain is off returns 0xD0FF_D0FF and raises one
  DARK_ACCESS event. -/
  | darkRegisterRead (addr : Nat) (be : BitVec 4)
  /-- CORE_PLL_LOSS (R427): loss of core PLL lock after the switch is a fatal fault. -/
  | corePllLoss
  /-- CUT_INEFFECTIVE (R454): MPD_IN above THRESH after SAFE_CUT_N has been low 110 µs reports a fatal
  CUT_INEFFECTIVE. -/
  | cutIneffective
  /-- VDD_SAFE_LOSS (R455): VDD_SAFE falls below range and SAFE_CUT_N is held low. -/
  | vddSafeLoss
  /-- RESET_RELEASE (R423): the rising edge of RESET_N starts the core clock on the internal oscillator, starts PCIe
  link training and enters CALIBRATE. -/
  | resetRelease
deriving DecidableEq, Repr

end Sys2Proof
end

