-- ==== Sys2Proof/Config.lean ====
section
/-! DEFINITION. Config.lean: what the spec leaves free, and the published functions it names without repeating them, as
constants without a body: nothing can evaluate them, so a statement about the model holds whatever they are. -/

namespace Sys2Proof.Config

open Sys2Proof

/-- Free values, one for each draw: the TRNG's output (R268), and every value the spec does not state (log entry 10). -/
opaque freeValue : Nat → Nat

/-- Free bytes, one for each draw and position. -/
opaque freeByte : Nat → Nat → Byte

/-- AES-256-GCM encryption (R256, R266): key, IV, additional data, plaintext; ciphertext. -/
opaque gcmEncrypt : List Byte → List Byte → List Byte → List Byte → List Byte

/-- AES-256-GCM decryption without the tag test: key, IV, additional data, ciphertext; plaintext. -/
opaque gcmDecrypt : List Byte → List Byte → List Byte → List Byte → List Byte

/-- The GCM tag (16 bytes) over additional data and ciphertext: key, IV, additional data, ciphertext. -/
opaque gcmTag : List Byte → List Byte → List Byte → List Byte → List Byte

/-- Cutoffs of the repetition count test and of the adaptive proportion test (NIST SP 800-90B, R268): the false-positive rate
that they follow from is stated by no rule, so that only what SP 800-90B's formulas give at any rate is fixed: the first is
1 + ⌈-log₂ α / H⌉ ≥ 2, the second lies above half of the window (PRESUMED, log entry 80). -/
opaque rctMargin : Nat
opaque aptMargin : Nat
def rctCutoff : Nat := 2 + rctMargin
def aptCutoff : Nat := 513 + aptMargin

/-- SHA-512 (FIPS 180-4, R270). -/
opaque sha512 : List Byte → List Byte

/-- Ed25519 signature (RFC 8032, R270, R271): private key, message. -/
opaque ed25519Sign : List Byte → List Byte → List Byte

/-- Ed25519 verification: public key, message, signature. -/
opaque ed25519Verify : List Byte → List Byte → List Byte → Bool

/-- Ed25519 public key of a private key (R271). -/
opaque ed25519Public : List Byte → List Byte

/-- X25519 (RFC 7748, R133, R136): scalar, point. -/
opaque x25519 : List Byte → List Byte → List Byte

/-- HKDF-SHA-512 (RFC 5869, R137): salt, input key, info, length. -/
opaque hkdf : List Byte → List Byte → List Byte → Nat → List Byte

/-- The public key in the boot ROM that verifies Holtuega images (R272). -/
opaque imageKey : List Byte

/-- The word that a reserved key selector (20 to 30) picks: R175 states none. -/
opaque reservedSelector : Nat → Nat

/-- A byte of a window at an offset above 252 that lies beyond byte 255 of a frame (R173 reads no such byte). -/
opaque unreadByte : Nat → Nat

/-- The context word of the report of a pick-count jump, by the old and the new count (R19): its layout is stated by no rule
(log entry 64). -/
opaque jumpContext : Nat → Nat → Nat

end Sys2Proof.Config
end

