-- ==== Sys2Proof/Machine/RegTable.lean ====
section
/-! DEFINITION. Machine/RegTable.lean: every register of BAR0 as the register tables of the spec give it: offset, stride,
count, reset value, power domain, and each field's bits, access code (R9) and legal values (R10). -/

namespace Sys2Proof.Machine

open Sys2Proof

/-- How a write acts on a field: the access codes of R9, with RW split into staged and immediate (R22). `own` is a
W1C, W1S or data field whose write has a rule of its own (the command of its register applies it). -/
inductive Acc where
  | ro | staged | imm | wo | w1c | w1s | rc | own
deriving DecidableEq, Repr

/-- A field: bits [hi:lo], access, and the ranges of its legal values (none listed: every value is legal). -/
structure Fld where
  hi : Nat
  lo : Nat
  acc : Acc
  ok : List (Nat × Nat)
deriving DecidableEq, Repr

/-- The power domain of a register: fixed, that of lane n (0 to 7 LANES_0, 8 to 15 LANES_1), that of MAC p (0 to 15
MAC_0, 16 to 31 MAC_1), that of the selected lane or MAC, or SKEIN_c. -/
inductive DomRule where
  | fixed (d : Nat)
  | lane
  | mac
  | selLane
  | selMac
  | skein
deriving DecidableEq, Repr

/-- A register or an array of registers: first offset, stride, count, reset value, domain, fields (reserved bits left out). -/
structure RegRow where
  base : Nat
  stride : Nat
  count : Nat
  reset : Word
  dom : DomRule
  fields : List Fld
deriving DecidableEq, Repr

/-! ## Register offsets in BAR0 (R475) -/

namespace Reg

/-- GLOBAL_ID (15_power_startup.md). -/
abbrev globalId : Nat := 0x00000000
/-- GLOBAL_RESET_CAUSE (15_power_startup.md). -/
abbrev globalResetCause : Nat := 0x00000004
/-- GLOBAL_STAT (15_power_startup.md). -/
abbrev globalStat : Nat := 0x00000008
/-- GLOBAL_MODE_REQ (15_power_startup.md). -/
abbrev globalModeReq : Nat := 0x0000000C
/-- GLOBAL_CLK_CTRL (15_power_startup.md). -/
abbrev globalClkCtrl : Nat := 0x00000010
/-- GLOBAL_CLK_STAT (15_power_startup.md). -/
abbrev globalClkStat : Nat := 0x00000014
/-- GLOBAL_PD_CTRL (15_power_startup.md). -/
abbrev globalPdCtrl : Nat := 0x00000020
/-- GLOBAL_PD_STAT (15_power_startup.md). -/
abbrev globalPdStat : Nat := 0x00000024
/-- GLOBAL_PD_PEND (15_power_startup.md). -/
abbrev globalPdPend : Nat := 0x00000028
/-- GLOBAL_PD_WOKE (15_power_startup.md). -/
abbrev globalPdWoke : Nat := 0x0000002C
/-- GLOBAL_TEMP (15_power_startup.md). -/
abbrev globalTemp : Nat := 0x00000030
/-- GLOBAL_CAL_STAT (15_power_startup.md). -/
abbrev globalCalStat : Nat := 0x00000034
/-- GLOBAL_NOTIFY (15_power_startup.md). -/
abbrev globalNotify : Nat := 0x00000040
/-- PICK_CTRL (01_pick_timing.md). -/
abbrev pickCtrl : Nat := 0x00100000
/-- PICK_STAT (01_pick_timing.md). -/
abbrev pickStat : Nat := 0x00100004
/-- PICK_COUNT_LO (01_pick_timing.md). -/
abbrev pickCountLo : Nat := 0x00100008
/-- PICK_COUNT_HI (01_pick_timing.md). -/
abbrev pickCountHi : Nat := 0x0010000C
/-- PICK_REPEAT (01_pick_timing.md). -/
abbrev pickRepeat : Nat := 0x00100010
/-- PICK_LEN (01_pick_timing.md). -/
abbrev pickLen : Nat := 0x00100014
/-- PICK_LEN_RANGE (01_pick_timing.md). -/
abbrev pickLenRange : Nat := 0x00100018
/-- PICK_OVERRUN (01_pick_timing.md). -/
abbrev pickOverrun : Nat := 0x0010001C
/-- PICK_COMMIT_STAT (01_pick_timing.md). -/
abbrev pickCommitStat : Nat := 0x00100020
/-- PICK_SWEEP_CTRL (01_pick_timing.md). -/
abbrev pickSweepCtrl : Nat := 0x00100030
/-- PICK_SWEEP_GROUPS (01_pick_timing.md). -/
abbrev pickSweepGroups : Nat := 0x00100034
/-- PICK_SWEEP_BASE_LO (01_pick_timing.md). -/
abbrev pickSweepBaseLo : Nat := 0x00100038
/-- PICK_SWEEP_BASE_HI (01_pick_timing.md). -/
abbrev pickSweepBaseHi : Nat := 0x0010003C
/-- PICK_SWEEP_SLOTS (01_pick_timing.md). -/
abbrev pickSweepSlots : Nat := 0x00100040
/-- PICK_SWEEP_SLOT_BYTES (01_pick_timing.md). -/
abbrev pickSweepSlotBytes : Nat := 0x00100044
/-- PICK_SWEEP_SEQ (01_pick_timing.md). -/
abbrev pickSweepSeq : Nat := 0x00100048
/-- PICK_SWEEP_SKIP_LO (01_pick_timing.md). -/
abbrev pickSweepSkipLo : Nat := 0x00100050
/-- PICK_SWEEP_SKIP_HI (01_pick_timing.md). -/
abbrev pickSweepSkipHi : Nat := 0x00100054
/-- PICK_CNT_SAT (01_pick_timing.md). -/
abbrev pickCntSat : Nat := 0x00100058
/-- WARP_CTRL (02_warp_receiver.md). -/
abbrev warpCtrl : Nat := 0x00200000
/-- WARP_STAT (02_warp_receiver.md). -/
abbrev warpStat : Nat := 0x00200004
/-- WARP_DEFECT (02_warp_receiver.md). -/
abbrev warpDefect : Nat := 0x00200008
/-- WARP_AFE_CFG (02_warp_receiver.md). -/
abbrev warpAfeCfg : Nat := 0x00200010
/-- WARP_LOS_CFG (02_warp_receiver.md). -/
abbrev warpLosCfg : Nat := 0x00200014
/-- WARP_EQ_CFG (02_warp_receiver.md). -/
abbrev warpEqCfg : Nat := 0x00200018
/-- WARP_EQ_STAT (02_warp_receiver.md). -/
abbrev warpEqStat : Nat := 0x0020001C
/-- WARP_ALIGN_CFG (02_warp_receiver.md). -/
abbrev warpAlignCfg : Nat := 0x00200020
/-- WARP_ALIGN_STAT (02_warp_receiver.md). -/
abbrev warpAlignStat : Nat := 0x00200024
/-- WARP_FEC_CFG (02_warp_receiver.md). -/
abbrev warpFecCfg : Nat := 0x00200030
/-- WARP_SD_CFG (02_warp_receiver.md). -/
abbrev warpSdCfg : Nat := 0x00200034
/-- WARP_BER_BITS (02_warp_receiver.md). -/
abbrev warpBerBits : Nat := 0x00200038
/-- WARP_BER_CW (02_warp_receiver.md). -/
abbrev warpBerCw : Nat := 0x0020003C
/-- WARP_REASM_CFG (02_warp_receiver.md). -/
abbrev warpReasmCfg : Nat := 0x00200040
/-- WARP_PM_SEL (02_warp_receiver.md). -/
abbrev warpPmSel : Nat := 0x00200080
/-- WARP_PM_FLAGS (02_warp_receiver.md). -/
abbrev warpPmFlags : Nat := 0x00200084
/-- WARP_PM_START_LO (02_warp_receiver.md). -/
abbrev warpPmStartLo : Nat := 0x00200088
/-- WARP_PM_START_HI (02_warp_receiver.md). -/
abbrev warpPmStartHi : Nat := 0x0020008C
/-- WARP_PM_DATA[k] (02_warp_receiver.md). -/
abbrev warpPmData (i : Nat) : Nat := 0x00200090 + 0x4 * i
/-- WARP_EQ_TAP[n] (02_warp_receiver.md). -/
abbrev warpEqTap (i : Nat) : Nat := 0x00200100 + 0x4 * i
/-- WARP_CNT_LO[n] (02_warp_receiver.md). -/
abbrev warpCntLo (i : Nat) : Nat := 0x00200200 + 0x8 * i
/-- WARP_CNT_HI[n] (02_warp_receiver.md). -/
abbrev warpCntHi (i : Nat) : Nat := 0x00200204 + 0x8 * i
/-- WARP_CNT_SAT (02_warp_receiver.md). -/
abbrev warpCntSat : Nat := 0x00200280
/-- WEFT_CTRL (03_weft_bursts.md). -/
abbrev weftCtrl : Nat := 0x00300000
/-- WEFT_STAT (03_weft_bursts.md). -/
abbrev weftStat : Nat := 0x00300004
/-- WEFT_EQD (03_weft_bursts.md). -/
abbrev weftEqd : Nat := 0x00300008
/-- WEFT_PREAMBLE (03_weft_bursts.md). -/
abbrev weftPreamble : Nat := 0x0030000C
/-- WEFT_TID (03_weft_bursts.md). -/
abbrev weftTid : Nat := 0x00300010
/-- WEFT_REI (03_weft_bursts.md). -/
abbrev weftRei : Nat := 0x00300014
/-- WEFT_LAST_BURST (03_weft_bursts.md). -/
abbrev weftLastBurst : Nat := 0x00300018
/-- WEFT_LASER_CFG (03_weft_bursts.md). -/
abbrev weftLaserCfg : Nat := 0x00300040
/-- WEFT_PL_CFG[k] (03_weft_bursts.md). -/
abbrev weftPlCfg (i : Nat) : Nat := 0x00300050 + 0x4 * i
/-- WEFT_CONT[n] (03_weft_bursts.md). -/
abbrev weftCont (i : Nat) : Nat := 0x00300100 + 0x4 * i
/-- WEFT_CNT_LO[n] (03_weft_bursts.md). -/
abbrev weftCntLo (i : Nat) : Nat := 0x00300200 + 0x8 * i
/-- WEFT_CNT_HI[n] (03_weft_bursts.md). -/
abbrev weftCntHi (i : Nat) : Nat := 0x00300204 + 0x8 * i
/-- WEFT_CNT_SAT (03_weft_bursts.md). -/
abbrev weftCntSat : Nat := 0x00300300
/-- ACT_CTRL (04_activation.md). -/
abbrev actCtrl : Nat := 0x00400000
/-- ACT_STAT (04_activation.md). -/
abbrev actStat : Nat := 0x00400004
/-- ACT_HELD (04_activation.md). -/
abbrev actHeld : Nat := 0x00400008
/-- ACT_SERIAL_LO (04_activation.md). -/
abbrev actSerialLo : Nat := 0x00400010
/-- ACT_SERIAL_HI (04_activation.md). -/
abbrev actSerialHi : Nat := 0x00400014
/-- ACT_HE_ID (04_activation.md). -/
abbrev actHeId : Nat := 0x00400018
/-- ACT_TIMER_0 (04_activation.md). -/
abbrev actTimer0 : Nat := 0x00400020
/-- ACT_TIMER_1 (04_activation.md). -/
abbrev actTimer1 : Nat := 0x00400024
/-- ACT_HE_PUB[k] (04_activation.md). -/
abbrev actHePub (i : Nat) : Nat := 0x00400040 + 0x4 * i
/-- ACT_NOTIFY (04_activation.md). -/
abbrev actNotify : Nat := 0x00400060
/-- ACT_STREAM_SEL (04_activation.md). -/
abbrev actStreamSel : Nat := 0x00400070
/-- ACT_STREAM_DATA (04_activation.md). -/
abbrev actStreamData : Nat := 0x00400074
/-- ACT_PEND (04_activation.md). -/
abbrev actPend : Nat := 0x00400078
/-- ACT_CNT_LO[n] (04_activation.md). -/
abbrev actCntLo (i : Nat) : Nat := 0x00400200 + 0x8 * i
/-- ACT_CNT_HI[n] (04_activation.md). -/
abbrev actCntHi (i : Nat) : Nat := 0x00400204 + 0x8 * i
/-- ACT_CNT_SAT (04_activation.md). -/
abbrev actCntSat : Nat := 0x00400280
/-- TIME_CTRL (05_time.md). -/
abbrev timeCtrl : Nat := 0x00500000
/-- TIME_STAT (05_time.md). -/
abbrev timeStat : Nat := 0x00500004
/-- TIME_NOW_NS (05_time.md). -/
abbrev timeNowNs : Nat := 0x00500008
/-- TIME_NOW_SEC_LO (05_time.md). -/
abbrev timeNowSecLo : Nat := 0x0050000C
/-- TIME_NOW_SEC_HI (05_time.md). -/
abbrev timeNowSecHi : Nat := 0x00500010
/-- TIME_NOW_FRAC (05_time.md). -/
abbrev timeNowFrac : Nat := 0x00500014
/-- TIME_INC_LO (05_time.md). -/
abbrev timeIncLo : Nat := 0x00500018
/-- TIME_INC_HI (05_time.md). -/
abbrev timeIncHi : Nat := 0x0050001C
/-- TIME_SET_SEC_LO (05_time.md). -/
abbrev timeSetSecLo : Nat := 0x00500020
/-- TIME_SET_SEC_HI (05_time.md). -/
abbrev timeSetSecHi : Nat := 0x00500024
/-- TIME_SET_NS (05_time.md). -/
abbrev timeSetNs : Nat := 0x00500028
/-- TIME_EQD_ZERO (05_time.md). -/
abbrev timeEqdZero : Nat := 0x00500030
/-- TIME_ASYM (05_time.md). -/
abbrev timeAsym : Nat := 0x00500034
/-- TIME_DN_OFS (05_time.md). -/
abbrev timeDnOfs : Nat := 0x00500038
/-- TIME_STEP_THRESH (05_time.md). -/
abbrev timeStepThresh : Nat := 0x0050003C
/-- TIME_TOD_TIMEOUT (05_time.md). -/
abbrev timeTodTimeout : Nat := 0x00500040
/-- TIME_STEP_LO (05_time.md). -/
abbrev timeStepLo : Nat := 0x00500048
/-- TIME_STEP_HI (05_time.md). -/
abbrev timeStepHi : Nat := 0x0050004C
/-- TIME_OFS_LO (05_time.md). -/
abbrev timeOfsLo : Nat := 0x00500050
/-- TIME_OFS_HI (05_time.md). -/
abbrev timeOfsHi : Nat := 0x00500054
/-- TIME_OFS_PICK (05_time.md). -/
abbrev timeOfsPick : Nat := 0x00500058
/-- TIME_PPS_CFG (05_time.md). -/
abbrev timePpsCfg : Nat := 0x00500060
/-- TIME_PPS_OFS (05_time.md). -/
abbrev timePpsOfs : Nat := 0x00500064
/-- TIME_CAP_CFG (05_time.md). -/
abbrev timeCapCfg : Nat := 0x00500070
/-- TIME_CAP_STAT (05_time.md). -/
abbrev timeCapStat : Nat := 0x00500074
/-- TIME_CAP_NS[i] (05_time.md). -/
abbrev timeCapNs (i : Nat) : Nat := 0x00500080 + 0x10 * i
/-- TIME_CAP_SEC_LO[i] (05_time.md). -/
abbrev timeCapSecLo (i : Nat) : Nat := 0x00500084 + 0x10 * i
/-- TIME_CAP_SEC_HI[i] (05_time.md). -/
abbrev timeCapSecHi (i : Nat) : Nat := 0x00500088 + 0x10 * i
/-- TIME_CAP_FRAC[i] (05_time.md). -/
abbrev timeCapFrac (i : Nat) : Nat := 0x0050008C + 0x10 * i
/-- TIME_PORT_CFG[p] (05_time.md). -/
abbrev timePortCfg (i : Nat) : Nat := 0x00500100 + 0x4 * i
/-- TIME_PORT_LAT[p] (05_time.md). -/
abbrev timePortLat (i : Nat) : Nat := 0x00500180 + 0x4 * i
/-- TIME_PORT_ASYM[p] (05_time.md). -/
abbrev timePortAsym (i : Nat) : Nat := 0x00500200 + 0x4 * i
/-- TIME_CNT_LO[n] (05_time.md). -/
abbrev timeCntLo (i : Nat) : Nat := 0x00500400 + 0x8 * i
/-- TIME_CNT_HI[n] (05_time.md). -/
abbrev timeCntHi (i : Nat) : Nat := 0x00500404 + 0x8 * i
/-- TIME_CNT_SAT (05_time.md). -/
abbrev timeCntSat : Nat := 0x00500480
/-- HEDDLE_CTRL (06_heddle.md). -/
abbrev heddleCtrl : Nat := 0x00600000
/-- HEDDLE_STAT (06_heddle.md). -/
abbrev heddleStat : Nat := 0x00600004
/-- HEDDLE_TPID (06_heddle.md). -/
abbrev heddleTpid : Nat := 0x00600008
/-- HEDDLE_RING (06_heddle.md). -/
abbrev heddleRing : Nat := 0x0060000C
/-- HEDDLE_NOTIFY (06_heddle.md). -/
abbrev heddleNotify : Nat := 0x00600010
/-- HEDDLE_ENT_SEL (06_heddle.md). -/
abbrev heddleEntSel : Nat := 0x00600100
/-- HEDDLE_ENT_CMD (06_heddle.md). -/
abbrev heddleEntCmd : Nat := 0x00600104
/-- HEDDLE_ENT_DATA[k] (06_heddle.md). -/
abbrev heddleEntData (i : Nat) : Nat := 0x00600200 + 0x4 * i
/-- HEDDLE_CNT_LO[n] (06_heddle.md). -/
abbrev heddleCntLo (i : Nat) : Nat := 0x00600400 + 0x8 * i
/-- HEDDLE_CNT_HI[n] (06_heddle.md). -/
abbrev heddleCntHi (i : Nat) : Nat := 0x00600404 + 0x8 * i
/-- HEDDLE_CNT_SAT (06_heddle.md). -/
abbrev heddleCntSat : Nat := 0x00600500
/-- HEDDLE_FLOW_CTRL (06_heddle.md). -/
abbrev heddleFlowCtrl : Nat := 0x00601000
/-- HEDDLE_FLOW_BASE (06_heddle.md). -/
abbrev heddleFlowBase : Nat := 0x00601004
/-- HEDDLE_FLOW_SEED (06_heddle.md). -/
abbrev heddleFlowSeed : Nat := 0x00601008
/-- HEDDLE_FLOW_AGE (06_heddle.md). -/
abbrev heddleFlowAge : Nat := 0x0060100C
/-- HEDDLE_FLOW_LIMIT (06_heddle.md). -/
abbrev heddleFlowLimit : Nat := 0x00601010
/-- HEDDLE_FLOW_STAT (06_heddle.md). -/
abbrev heddleFlowStat : Nat := 0x00601014
/-- HEDDLE_FLOW_STASH (06_heddle.md). -/
abbrev heddleFlowStash : Nat := 0x00601018
/-- HEDDLE_FLOW_KEEP (06_heddle.md). -/
abbrev heddleFlowKeep : Nat := 0x00601020
/-- HEDDLE_FLOW_CNT_LO[n] (06_heddle.md). -/
abbrev heddleFlowCntLo (i : Nat) : Nat := 0x00601200 + 0x8 * i
/-- HEDDLE_FLOW_CNT_HI[n] (06_heddle.md). -/
abbrev heddleFlowCntHi (i : Nat) : Nat := 0x00601204 + 0x8 * i
/-- HEDDLE_FLOW_CNT_SAT (06_heddle.md). -/
abbrev heddleFlowCntSat : Nat := 0x00601300
/-- REED_CTRL (07_reed.md). -/
abbrev reedCtrl : Nat := 0x00800000
/-- REED_STAT (07_reed.md). -/
abbrev reedStat : Nat := 0x00800004
/-- REED_MAC_OVH (07_reed.md). -/
abbrev reedMacOvh : Nat := 0x00800008
/-- REED_ANCHOR (07_reed.md). -/
abbrev reedAnchor : Nat := 0x0080000C
/-- REED_ENT_SEL (07_reed.md). -/
abbrev reedEntSel : Nat := 0x00800100
/-- REED_ENT_CMD (07_reed.md). -/
abbrev reedEntCmd : Nat := 0x00800104
/-- REED_ENT_DATA[k] (07_reed.md). -/
abbrev reedEntData (i : Nat) : Nat := 0x00800200 + 0x4 * i
/-- REED_GATE_STAT[p] (07_reed.md). -/
abbrev reedGateStat (i : Nat) : Nat := 0x00800300 + 0x4 * i
/-- REED_CNT_SEL (07_reed.md). -/
abbrev reedCntSel : Nat := 0x00800400
/-- REED_CNT_LO[n] (07_reed.md). -/
abbrev reedCntLo (i : Nat) : Nat := 0x00800410 + 0x8 * i
/-- REED_CNT_HI[n] (07_reed.md). -/
abbrev reedCntHi (i : Nat) : Nat := 0x00800414 + 0x8 * i
/-- REED_CNT_ESAT (07_reed.md). -/
abbrev reedCntEsat : Nat := 0x00800450
/-- REED_GCNT_LO[n] (07_reed.md). -/
abbrev reedGcntLo (i : Nat) : Nat := 0x00800500 + 0x8 * i
/-- REED_GCNT_HI[n] (07_reed.md). -/
abbrev reedGcntHi (i : Nat) : Nat := 0x00800504 + 0x8 * i
/-- REED_CNT_SAT (07_reed.md). -/
abbrev reedCntSat : Nat := 0x00800580
/-- SPOOL_CTRL (08_spool.md). -/
abbrev spoolCtrl : Nat := 0x00A00000
/-- SPOOL_STAT (08_spool.md). -/
abbrev spoolStat : Nat := 0x00A00004
/-- SPOOL_POOL_CFG[k] (08_spool.md). -/
abbrev spoolPoolCfg (i : Nat) : Nat := 0x00A00020 + 0x8 * i
/-- SPOOL_POOL_COUNT[k] (08_spool.md). -/
abbrev spoolPoolCount (i : Nat) : Nat := 0x00A00024 + 0x8 * i
/-- SPOOL_POOL_FREE[k] (08_spool.md). -/
abbrev spoolPoolFree (i : Nat) : Nat := 0x00A00040 + 0x4 * i
/-- SPOOL_POOL_LOW[k] (08_spool.md). -/
abbrev spoolPoolLow (i : Nat) : Nat := 0x00A00050 + 0x4 * i
/-- SPOOL_POOL_OUTST[k] (08_spool.md). -/
abbrev spoolPoolOutst (i : Nat) : Nat := 0x00A00060 + 0x4 * i
/-- SPOOL_PORT_PRIO (08_spool.md). -/
abbrev spoolPortPrio : Nat := 0x00A00070
/-- SPOOL_SRC_OWNER[s] (08_spool.md). -/
abbrev spoolSrcOwner (i : Nat) : Nat := 0x00A00100 + 0x4 * i
/-- SPOOL_OWN_MAX[o] (08_spool.md). -/
abbrev spoolOwnMax (i : Nat) : Nat := 0x00A00200 + 0x4 * i
/-- SPOOL_OWN_USE[o] (08_spool.md). -/
abbrev spoolOwnUse (i : Nat) : Nat := 0x00A00300 + 0x4 * i
/-- SPOOL_OWN_MIN[i] (08_spool.md). -/
abbrev spoolOwnMin (i : Nat) : Nat := 0x00A00400 + 0x4 * i
/-- SPOOL_OWN_HELD[i] (08_spool.md). -/
abbrev spoolOwnHeld (i : Nat) : Nat := 0x00A00800 + 0x4 * i
/-- SPOOL_FREE_ERR (08_spool.md). -/
abbrev spoolFreeErr : Nat := 0x00A00C00
/-- SPOOL_FREE_OWN (08_spool.md). -/
abbrev spoolFreeOwn : Nat := 0x00A00C04
/-- SPOOL_CNT_LO[n] (08_spool.md). -/
abbrev spoolCntLo (i : Nat) : Nat := 0x00A01000 + 0x8 * i
/-- SPOOL_CNT_HI[n] (08_spool.md). -/
abbrev spoolCntHi (i : Nat) : Nat := 0x00A01004 + 0x8 * i
/-- SPOOL_CNT_SAT (08_spool.md). -/
abbrev spoolCntSat : Nat := 0x00A01100
/-- SEC_CTRL (09_security.md). -/
abbrev secCtrl : Nat := 0x00B00000
/-- SEC_STAT (09_security.md). -/
abbrev secStat : Nat := 0x00B00004
/-- SEC_KEY_CFG (09_security.md). -/
abbrev secKeyCfg : Nat := 0x00B00008
/-- SEC_KEY_STAT (09_security.md). -/
abbrev secKeyStat : Nat := 0x00B0000C
/-- SEC_BOOT (09_security.md). -/
abbrev secBoot : Nat := 0x00B00010
/-- SEC_IMG_VER (09_security.md). -/
abbrev secImgVer : Nat := 0x00B00014
/-- SEC_IMG_ARB (09_security.md). -/
abbrev secImgArb : Nat := 0x00B00018
/-- SEC_OTP_ARB (09_security.md). -/
abbrev secOtpArb : Nat := 0x00B0001C
/-- SEC_IMG_PROG (09_security.md). -/
abbrev secImgProg : Nat := 0x00B00020
/-- SEC_TRNG_CTRL (09_security.md). -/
abbrev secTrngCtrl : Nat := 0x00B00024
/-- SEC_ID_PUB[k] (09_security.md). -/
abbrev secIdPub (i : Nat) : Nat := 0x00B00040 + 0x4 * i
/-- SEC_CUST_PUB[k] (09_security.md). -/
abbrev secCustPub (i : Nat) : Nat := 0x00B00060 + 0x4 * i
/-- SEC_DIGEST_SEL (09_security.md). -/
abbrev secDigestSel : Nat := 0x00B00080
/-- SEC_DIGEST[k] (09_security.md). -/
abbrev secDigest (i : Nat) : Nat := 0x00B00084 + 0x4 * i
/-- SEC_CNT_LO[n] (09_security.md). -/
abbrev secCntLo (i : Nat) : Nat := 0x00B00200 + 0x8 * i
/-- SEC_CNT_HI[n] (09_security.md). -/
abbrev secCntHi (i : Nat) : Nat := 0x00B00204 + 0x8 * i
/-- SEC_CNT_SAT (09_security.md). -/
abbrev secCntSat : Nat := 0x00B00300
/-- MAC_CFG[p] (10_user_ports.md). -/
abbrev macCfg (i : Nat) : Nat := 0x00C00000 + 0x4 * i
/-- MAC_STAT[p] (10_user_ports.md). -/
abbrev macStat (i : Nat) : Nat := 0x00C00080 + 0x4 * i
/-- MAC_PAUSE_CFG[p] (10_user_ports.md). -/
abbrev macPauseCfg (i : Nat) : Nat := 0x00C00100 + 0x4 * i
/-- MAC_PAUSE_THR[p] (10_user_ports.md). -/
abbrev macPauseThr (i : Nat) : Nat := 0x00C00180 + 0x4 * i
/-- MAC_PREEMPT[p] (10_user_ports.md). -/
abbrev macPreempt (i : Nat) : Nat := 0x00C00200 + 0x4 * i
/-- MAC_ADDR_SEL (10_user_ports.md). -/
abbrev macAddrSel : Nat := 0x00C00300
/-- MAC_ADDR_LO (10_user_ports.md). -/
abbrev macAddrLo : Nat := 0x00C00304
/-- MAC_ADDR_HI (10_user_ports.md). -/
abbrev macAddrHi : Nat := 0x00C00308
/-- MAC_CNT_SEL (10_user_ports.md). -/
abbrev macCntSel : Nat := 0x00C00400
/-- MAC_CNT_LO[n] (10_user_ports.md). -/
abbrev macCntLo (i : Nat) : Nat := 0x00C00410 + 0x8 * i
/-- MAC_CNT_HI[n] (10_user_ports.md). -/
abbrev macCntHi (i : Nat) : Nat := 0x00C00414 + 0x8 * i
/-- MAC_CNT_SAT (10_user_ports.md). -/
abbrev macCntSat : Nat := 0x00C00490
/-- MAC_CNT_ANY (10_user_ports.md). -/
abbrev macCntAny : Nat := 0x00C00494
/-- LANE_GLOBAL (10_user_ports.md). -/
abbrev laneGlobal : Nat := 0x00D00000
/-- LANE_AGG (10_user_ports.md). -/
abbrev laneAgg : Nat := 0x00D00004
/-- LANE_NOTIFY (10_user_ports.md). -/
abbrev laneNotify : Nat := 0x00D00008
/-- LANE_CFG[n] (10_user_ports.md). -/
abbrev laneCfg (i : Nat) : Nat := 0x00D00100 + 0x4 * i
/-- LANE_TX_CFG[n] (10_user_ports.md). -/
abbrev laneTxCfg (i : Nat) : Nat := 0x00D00140 + 0x4 * i
/-- LANE_RX_CFG[n] (10_user_ports.md). -/
abbrev laneRxCfg (i : Nat) : Nat := 0x00D00180 + 0x4 * i
/-- LANE_STAT[n] (10_user_ports.md). -/
abbrev laneStat (i : Nat) : Nat := 0x00D001C0 + 0x4 * i
/-- LANE_YHOLD_THR[n] (10_user_ports.md). -/
abbrev laneYholdThr (i : Nat) : Nat := 0x00D00200 + 0x4 * i
/-- LANE_YMGMT_TX_LO[n] (10_user_ports.md). -/
abbrev laneYmgmtTxLo (i : Nat) : Nat := 0x00D00400 + 0x10 * i
/-- LANE_YMGMT_TX_HI[n] (10_user_ports.md). -/
abbrev laneYmgmtTxHi (i : Nat) : Nat := 0x00D00404 + 0x10 * i
/-- LANE_YMGMT_RX_LO[n] (10_user_ports.md). -/
abbrev laneYmgmtRxLo (i : Nat) : Nat := 0x00D00408 + 0x10 * i
/-- LANE_YMGMT_RX_HI[n] (10_user_ports.md). -/
abbrev laneYmgmtRxHi (i : Nat) : Nat := 0x00D0040C + 0x10 * i
/-- LANE_CNT_SEL (10_user_ports.md). -/
abbrev laneCntSel : Nat := 0x00D00600
/-- LANE_CNT_LO[c] (10_user_ports.md). -/
abbrev laneCntLo (i : Nat) : Nat := 0x00D00610 + 0x8 * i
/-- LANE_CNT_HI[c] (10_user_ports.md). -/
abbrev laneCntHi (i : Nat) : Nat := 0x00D00614 + 0x8 * i
/-- LANE_CNT_SAT (10_user_ports.md). -/
abbrev laneCntSat : Nat := 0x00D00680
/-- DRAFT_CTRL (11_draft_tdm.md). -/
abbrev draftCtrl : Nat := 0x00E00000
/-- DRAFT_STAT (11_draft_tdm.md). -/
abbrev draftStat : Nat := 0x00E00004
/-- DRAFT_CFG (11_draft_tdm.md). -/
abbrev draftCfg : Nat := 0x00E00008
/-- DRAFT_HWY_EN (11_draft_tdm.md). -/
abbrev draftHwyEn : Nat := 0x00E0000C
/-- DRAFT_ENT_SEL (11_draft_tdm.md). -/
abbrev draftEntSel : Nat := 0x00E00100
/-- DRAFT_ENT_CMD (11_draft_tdm.md). -/
abbrev draftEntCmd : Nat := 0x00E00104
/-- DRAFT_ENT_DATA[k] (11_draft_tdm.md). -/
abbrev draftEntData (i : Nat) : Nat := 0x00E00200 + 0x4 * i
/-- DRAFT_CNT_LO[n] (11_draft_tdm.md). -/
abbrev draftCntLo (i : Nat) : Nat := 0x00E00400 + 0x8 * i
/-- DRAFT_CNT_HI[n] (11_draft_tdm.md). -/
abbrev draftCntHi (i : Nat) : Nat := 0x00E00404 + 0x8 * i
/-- DRAFT_CNT_SAT (11_draft_tdm.md). -/
abbrev draftCntSat : Nat := 0x00E00480
/-- HOST_CTRL (12_host_rings.md). -/
abbrev hostCtrl : Nat := 0x00F00000
/-- HOST_STAT (12_host_rings.md). -/
abbrev hostStat : Nat := 0x00F00004
/-- HOST_DB_BASE_LO (12_host_rings.md). -/
abbrev hostDbBaseLo : Nat := 0x00F00008
/-- HOST_DB_BASE_HI (12_host_rings.md). -/
abbrev hostDbBaseHi : Nat := 0x00F0000C
/-- HOST_KICK_MAP[p] (12_host_rings.md). -/
abbrev hostKickMap (i : Nat) : Nat := 0x00F00010 + 0x4 * i
/-- HOST_EVENT (12_host_rings.md). -/
abbrev hostEvent : Nat := 0x00F00020
/-- HOST_MGMT (12_host_rings.md). -/
abbrev hostMgmt : Nat := 0x00F00024
/-- HOST_READ_QUOTA (12_host_rings.md). -/
abbrev hostReadQuota : Nat := 0x00F00028
/-- HOST_CMD_BASE_LO (12_host_rings.md). -/
abbrev hostCmdBaseLo : Nat := 0x00F00030
/-- HOST_CMD_BASE_HI (12_host_rings.md). -/
abbrev hostCmdBaseHi : Nat := 0x00F00034
/-- HOST_CMD_CFG (12_host_rings.md). -/
abbrev hostCmdCfg : Nat := 0x00F00038
/-- HOST_CQ_BASE_LO (12_host_rings.md). -/
abbrev hostCqBaseLo : Nat := 0x00F00040
/-- HOST_CQ_BASE_HI (12_host_rings.md). -/
abbrev hostCqBaseHi : Nat := 0x00F00044
/-- HOST_CQ_CFG (12_host_rings.md). -/
abbrev hostCqCfg : Nat := 0x00F00048
/-- HOST_CQ_MOD (12_host_rings.md). -/
abbrev hostCqMod : Nat := 0x00F0004C
/-- HOST_STALL (12_host_rings.md). -/
abbrev hostStall : Nat := 0x00F00060
/-- HOST_RING_SEL (12_host_rings.md). -/
abbrev hostRingSel : Nat := 0x00F00070
/-- HOST_RING_STAT (12_host_rings.md). -/
abbrev hostRingStat : Nat := 0x00F00074
/-- HOST_RING_IDX (12_host_rings.md). -/
abbrev hostRingIdx : Nat := 0x00F00078
/-- HOST_CNT_LO[n] (12_host_rings.md). -/
abbrev hostCntLo (i : Nat) : Nat := 0x00F00100 + 0x8 * i
/-- HOST_CNT_HI[n] (12_host_rings.md). -/
abbrev hostCntHi (i : Nat) : Nat := 0x00F00104 + 0x8 * i
/-- HOST_CNT_SAT (12_host_rings.md). -/
abbrev hostCntSat : Nat := 0x00F00200
/-- SHUTTLE_CTRL (13_shuttle.md). -/
abbrev shuttleCtrl : Nat := 0x01000000
/-- SHUTTLE_STAT (13_shuttle.md). -/
abbrev shuttleStat : Nat := 0x01000004
/-- SHUTTLE_CH_CFG[c] (13_shuttle.md). -/
abbrev shuttleChCfg (i : Nat) : Nat := 0x01000100 + 0x4 * i
/-- SHUTTLE_CH_CTRL[c] (13_shuttle.md). -/
abbrev shuttleChCtrl (i : Nat) : Nat := 0x01000140 + 0x4 * i
/-- SHUTTLE_CH_STAT[c] (13_shuttle.md). -/
abbrev shuttleChStat (i : Nat) : Nat := 0x01000180 + 0x4 * i
/-- SHUTTLE_CH_SPOS[c] (13_shuttle.md). -/
abbrev shuttleChSpos (i : Nat) : Nat := 0x010001C0 + 0x4 * i
/-- SHUTTLE_CH_DPOS[c] (13_shuttle.md). -/
abbrev shuttleChDpos (i : Nat) : Nat := 0x01000200 + 0x4 * i
/-- SHUTTLE_CNT_LO[n] (13_shuttle.md). -/
abbrev shuttleCntLo (i : Nat) : Nat := 0x01000400 + 0x8 * i
/-- SHUTTLE_CNT_HI[n] (13_shuttle.md). -/
abbrev shuttleCntHi (i : Nat) : Nat := 0x01000404 + 0x8 * i
/-- SHUTTLE_CNT_SAT (13_shuttle.md). -/
abbrev shuttleCntSat : Nat := 0x01000480
/-- SKEIN_CORE_CTRL[c] (14_skein.md). -/
abbrev skeinCoreCtrl (i : Nat) : Nat := 0x01100000 + 0x100 * i
/-- SKEIN_CORE_STAT[c] (14_skein.md). -/
abbrev skeinCoreStat (i : Nat) : Nat := 0x01100004 + 0x100 * i
/-- SKEIN_CORE_FAULT[c] (14_skein.md). -/
abbrev skeinCoreFault (i : Nat) : Nat := 0x01100008 + 0x100 * i
/-- SKEIN_WIN_SEL (14_skein.md). -/
abbrev skeinWinSel : Nat := 0x01101000
/-- SKEIN_WIN_DATA (14_skein.md). -/
abbrev skeinWinData : Nat := 0x01101004
/-- SKEIN_MBOX_CTRL (14_skein.md). -/
abbrev skeinMboxCtrl : Nat := 0x01101100
/-- SKEIN_MBOX_IN[k] (14_skein.md). -/
abbrev skeinMboxIn (i : Nat) : Nat := 0x01101110 + 0x4 * i
/-- SKEIN_MBOX_OUT[k] (14_skein.md). -/
abbrev skeinMboxOut (i : Nat) : Nat := 0x01101130 + 0x4 * i
/-- TENSION_CTRL (15_power_startup.md). -/
abbrev tensionCtrl : Nat := 0x01200000
/-- TENSION_BUDGET (15_power_startup.md). -/
abbrev tensionBudget : Nat := 0x01200004
/-- TENSION_SLEW (15_power_startup.md). -/
abbrev tensionSlew : Nat := 0x01200008
/-- TENSION_LEDGER (15_power_startup.md). -/
abbrev tensionLedger : Nat := 0x0120000C
/-- TENSION_LEDGER_2 (15_power_startup.md). -/
abbrev tensionLedger2 : Nat := 0x01200010
/-- TENSION_STAT (15_power_startup.md). -/
abbrev tensionStat : Nat := 0x01200014
/-- TENSION_REQ_CFG[r] (15_power_startup.md). -/
abbrev tensionReqCfg (i : Nat) : Nat := 0x01200100 + 0x4 * i
/-- TENSION_REQ_STAT[r] (15_power_startup.md). -/
abbrev tensionReqStat (i : Nat) : Nat := 0x01200200 + 0x4 * i
/-- TENSION_CNT_LO[n] (15_power_startup.md). -/
abbrev tensionCntLo (i : Nat) : Nat := 0x01200400 + 0x8 * i
/-- TENSION_CNT_HI[n] (15_power_startup.md). -/
abbrev tensionCntHi (i : Nat) : Nat := 0x01200404 + 0x8 * i
/-- TENSION_CNT_SAT (15_power_startup.md). -/
abbrev tensionCntSat : Nat := 0x01200480
/-- SELVEDGE_CTRL (16_selvedge_safety.md). -/
abbrev selvedgeCtrl : Nat := 0x01300000
/-- SELVEDGE_STAT (16_selvedge_safety.md). -/
abbrev selvedgeStat : Nat := 0x01300004
/-- SELVEDGE_PEND_LO (16_selvedge_safety.md). -/
abbrev selvedgePendLo : Nat := 0x01300008
/-- SELVEDGE_PEND_HI (16_selvedge_safety.md). -/
abbrev selvedgePendHi : Nat := 0x0130000C
/-- SELVEDGE_FATAL (16_selvedge_safety.md). -/
abbrev selvedgeFatal : Nat := 0x01300010
/-- SELVEDGE_FATAL_CTX (16_selvedge_safety.md). -/
abbrev selvedgeFatalCtx : Nat := 0x01300014
/-- SELVEDGE_FATAL_PICK (16_selvedge_safety.md). -/
abbrev selvedgeFatalPick : Nat := 0x01300018
/-- SELVEDGE_HIST_SEL (16_selvedge_safety.md). -/
abbrev selvedgeHistSel : Nat := 0x01300020
/-- SELVEDGE_HIST_SEQ (16_selvedge_safety.md). -/
abbrev selvedgeHistSeq : Nat := 0x01300024
/-- SELVEDGE_HIST_DATA[k] (16_selvedge_safety.md). -/
abbrev selvedgeHistData (i : Nat) : Nat := 0x01300040 + 0x4 * i
/-- SELVEDGE_UNIT_SEL (16_selvedge_safety.md). -/
abbrev selvedgeUnitSel : Nat := 0x01300060
/-- SELVEDGE_UNIT_STAT (16_selvedge_safety.md). -/
abbrev selvedgeUnitStat : Nat := 0x01300064
/-- SELVEDGE_UNIT_CTX (16_selvedge_safety.md). -/
abbrev selvedgeUnitCtx : Nat := 0x01300068
/-- SELVEDGE_UNIT_CTRL (16_selvedge_safety.md). -/
abbrev selvedgeUnitCtrl : Nat := 0x0130006C
/-- SELVEDGE_NOTIFY (16_selvedge_safety.md). -/
abbrev selvedgeNotify : Nat := 0x01300070
/-- SELVEDGE_CNT_LO[n] (16_selvedge_safety.md). -/
abbrev selvedgeCntLo (i : Nat) : Nat := 0x01300200 + 0x8 * i
/-- SELVEDGE_CNT_HI[n] (16_selvedge_safety.md). -/
abbrev selvedgeCntHi (i : Nat) : Nat := 0x01300204 + 0x8 * i
/-- SELVEDGE_CNT_SAT (16_selvedge_safety.md). -/
abbrev selvedgeCntSat : Nat := 0x01300280
/-- SAFETY_STAT (16_selvedge_safety.md). -/
abbrev safetyStat : Nat := 0x01400000
/-- SAFETY_LATCH_PICK (16_selvedge_safety.md). -/
abbrev safetyLatchPick : Nat := 0x01400004
/-- SAFETY_CLR (16_selvedge_safety.md). -/
abbrev safetyClr : Nat := 0x01400008
/-- SAFETY_FORCE (16_selvedge_safety.md). -/
abbrev safetyForce : Nat := 0x0140000C
/-- SAFETY_MPD_CFG (16_selvedge_safety.md). -/
abbrev safetyMpdCfg : Nat := 0x01400010
/-- SAFETY_PROOF (16_selvedge_safety.md). -/
abbrev safetyProof : Nat := 0x01400014
/-- DRAM_CTRL (17_package_electrical.md). -/
abbrev dramCtrl : Nat := 0x01500000
/-- DRAM_CFG (17_package_electrical.md). -/
abbrev dramCfg : Nat := 0x01500004
/-- DRAM_STAT (17_package_electrical.md). -/
abbrev dramStat : Nat := 0x01500008
/-- DRAM_KEEP (17_package_electrical.md). -/
abbrev dramKeep : Nat := 0x0150000C
/-- DRAM_ECC (17_package_electrical.md). -/
abbrev dramEcc : Nat := 0x01500010

end Reg

/-! ## The rows -/

/-- Registers of block GLOBAL, part 1. -/
def globalRegs : List RegRow :=
  [ /- GLOBAL_ID -/ ⟨0x00000000, 0x0, 1, 0x9640B100, .fixed 0, [⟨31, 16, .ro, []⟩, ⟨15, 8, .ro, []⟩]⟩
  , /- GLOBAL_RESET_CAUSE -/ ⟨0x00000004, 0x0, 1, 0x00000001, .fixed 0, [⟨1, 1, .w1c, []⟩, ⟨0, 0, .w1c, []⟩]⟩
  , /- GLOBAL_STAT -/ ⟨0x00000008, 0x0, 1, 0x20000000, .fixed 3, [⟨31, 29, .ro, []⟩, ⟨4, 4, .w1c, []⟩, ⟨3, 3, .ro, []⟩, ⟨2, 2, .w1c, []⟩, ⟨1, 1, .ro, []⟩, ⟨0, 0, .ro, []⟩]⟩
  , /- GLOBAL_MODE_REQ -/ ⟨0x0000000C, 0x0, 1, 0x00000001, .fixed 3, [⟨1, 0, .staged, [(1, 3)]⟩]⟩
  , /- GLOBAL_CLK_CTRL -/ ⟨0x00000010, 0x0, 1, 0x00000000, .fixed 3, [⟨0, 0, .own, []⟩]⟩
  , /- GLOBAL_CLK_STAT -/ ⟨0x00000014, 0x0, 1, 0x00000000, .fixed 3, [⟨2, 2, .ro, []⟩, ⟨1, 1, .ro, []⟩, ⟨0, 0, .ro, []⟩]⟩
  , /- GLOBAL_PD_CTRL -/ ⟨0x00000020, 0x0, 1, 0xFFFFFFFF, .fixed 3, [⟨31, 10, .staged, []⟩, ⟨9, 9, .ro, []⟩, ⟨8, 4, .staged, []⟩, ⟨3, 0, .ro, []⟩]⟩
  , /- GLOBAL_PD_STAT -/ ⟨0x00000024, 0x0, 1, 0xFFFFFFFF, .fixed 3, [⟨31, 0, .ro, []⟩]⟩
  , /- GLOBAL_PD_PEND -/ ⟨0x00000028, 0x0, 1, 0x00000000, .fixed 3, [⟨31, 0, .ro, []⟩]⟩
  , /- GLOBAL_PD_WOKE -/ ⟨0x0000002C, 0x0, 1, 0x00000000, .fixed 3, [⟨31, 0, .w1c, []⟩]⟩
  , /- GLOBAL_TEMP -/ ⟨0x00000030, 0x0, 1, 0x00000000, .fixed 3, [⟨31, 16, .rc, []⟩, ⟨15, 0, .ro, []⟩]⟩
  , /- GLOBAL_CAL_STAT -/ ⟨0x00000034, 0x0, 1, 0x00000000, .fixed 3, [⟨31, 24, .ro, []⟩, ⟨5, 5, .ro, []⟩, ⟨4, 4, .ro, []⟩, ⟨3, 3, .ro, []⟩, ⟨2, 2, .ro, []⟩, ⟨1, 1, .ro, []⟩, ⟨0, 0, .ro, []⟩]⟩
  , /- GLOBAL_NOTIFY -/ ⟨0x00000040, 0x0, 1, 0x00000000, .fixed 3, [⟨31, 31, .staged, []⟩, ⟨8, 0, .staged, []⟩]⟩ ]

/-- Registers of block PICK, part 1. -/
def pickRegs : List RegRow :=
  [ /- PICK_CTRL -/ ⟨0x00100000, 0x0, 1, 0x00000000, .fixed 3, [⟨0, 0, .imm, []⟩]⟩
  , /- PICK_STAT -/ ⟨0x00100004, 0x0, 1, 0x00000000, .fixed 3, [⟨4, 4, .w1c, []⟩, ⟨3, 3, .w1c, []⟩, ⟨2, 2, .w1c, []⟩, ⟨1, 0, .ro, []⟩]⟩
  , /- PICK_COUNT_LO -/ ⟨0x00100008, 0x0, 1, 0x00000000, .fixed 3, [⟨31, 0, .ro, []⟩]⟩
  , /- PICK_COUNT_HI -/ ⟨0x0010000C, 0x0, 1, 0x00000000, .fixed 3, [⟨15, 0, .ro, []⟩]⟩
  , /- PICK_REPEAT -/ ⟨0x00100010, 0x0, 1, 0x00000000, .fixed 3, [⟨12, 0, .ro, []⟩]⟩
  , /- PICK_LEN -/ ⟨0x00100014, 0x0, 1, 0x01E84800, .fixed 3, [⟨31, 8, .ro, []⟩, ⟨7, 0, .ro, []⟩]⟩
  , /- PICK_LEN_RANGE -/ ⟨0x00100018, 0x0, 1, 0x00000000, .fixed 3, [⟨31, 16, .rc, []⟩, ⟨15, 0, .rc, []⟩]⟩
  , /- PICK_OVERRUN -/ ⟨0x0010001C, 0x0, 1, 0x00000000, .fixed 3, [⟨13, 13, .w1c, []⟩, ⟨12, 12, .w1c, []⟩, ⟨11, 11, .w1c, []⟩, ⟨10, 10, .w1c, []⟩, ⟨9, 9, .w1c, []⟩, ⟨8, 8, .w1c, []⟩, ⟨7, 7, .w1c, []⟩, ⟨6, 6, .w1c, []⟩, ⟨5, 5, .w1c, []⟩, ⟨4, 4, .w1c, []⟩, ⟨3, 3, .w1c, []⟩, ⟨2, 2, .w1c, []⟩, ⟨1, 1, .w1c, []⟩, ⟨0, 0, .w1c, []⟩]⟩
  , /- PICK_COMMIT_STAT -/ ⟨0x00100020, 0x0, 1, 0x00000000, .fixed 3, [⟨24, 16, .ro, []⟩, ⟨8, 0, .ro, []⟩]⟩
  , /- PICK_SWEEP_CTRL -/ ⟨0x00100030, 0x0, 1, 0x00000000, .fixed 3, [⟨31, 31, .staged, []⟩, ⟨24, 16, .staged, []⟩, ⟨15, 0, .staged, []⟩]⟩
  , /- PICK_SWEEP_GROUPS -/ ⟨0x00100034, 0x0, 1, 0x00000000, .fixed 3, [⟨17, 0, .staged, []⟩]⟩
  , /- PICK_SWEEP_BASE_LO -/ ⟨0x00100038, 0x0, 1, 0x00000000, .fixed 3, [⟨31, 6, .staged, []⟩]⟩
  , /- PICK_SWEEP_BASE_HI -/ ⟨0x0010003C, 0x0, 1, 0x00000000, .fixed 3, [⟨31, 0, .staged, []⟩]⟩
  , /- PICK_SWEEP_SLOTS -/ ⟨0x00100040, 0x0, 1, 0x00000006, .fixed 3, [⟨4, 0, .staged, [(6, 16)]⟩]⟩
  , /- PICK_SWEEP_SLOT_BYTES -/ ⟨0x00100044, 0x0, 1, 0x00000040, .fixed 3, [⟨21, 6, .staged, []⟩]⟩
  , /- PICK_SWEEP_SEQ -/ ⟨0x00100048, 0x0, 1, 0x00000000, .fixed 3, [⟨31, 0, .ro, []⟩]⟩
  , /- PICK_SWEEP_SKIP_LO -/ ⟨0x00100050, 0x0, 1, 0x00000000, .fixed 3, [⟨31, 0, .rc, []⟩]⟩
  , /- PICK_SWEEP_SKIP_HI -/ ⟨0x00100054, 0x0, 1, 0x00000000, .fixed 3, [⟨31, 0, .ro, []⟩]⟩
  , /- PICK_CNT_SAT -/ ⟨0x00100058, 0x0, 1, 0x00000000, .fixed 3, [⟨0, 0, .w1c, []⟩]⟩ ]

/-- Registers of block WARP, part 1. -/
def warpRegs1 : List RegRow :=
  [ /- WARP_CTRL -/ ⟨0x00200000, 0x0, 1, 0x00000000, .fixed 6, [⟨3, 3, .staged, []⟩, ⟨2, 2, .staged, []⟩, ⟨1, 1, .staged, []⟩, ⟨0, 0, .imm, []⟩]⟩
  , /- WARP_STAT -/ ⟨0x00200004, 0x0, 1, 0x00000000, .fixed 6, [⟨11, 8, .ro, []⟩, ⟨7, 7, .ro, []⟩, ⟨6, 6, .ro, []⟩, ⟨5, 5, .ro, []⟩, ⟨4, 3, .ro, []⟩]⟩
  , /- WARP_DEFECT -/ ⟨0x00200008, 0x0, 1, 0x00000003, .fixed 6, [⟨18, 18, .w1c, []⟩, ⟨17, 17, .w1c, []⟩, ⟨16, 16, .w1c, []⟩, ⟨2, 2, .ro, []⟩, ⟨1, 1, .ro, []⟩, ⟨0, 0, .ro, []⟩]⟩
  , /- WARP_AFE_CFG -/ ⟨0x00200010, 0x0, 1, 0x00000610, .fixed 4, [⟨11, 8, .staged, []⟩, ⟨7, 7, .staged, []⟩, ⟨5, 0, .staged, []⟩]⟩
  , /- WARP_LOS_CFG -/ ⟨0x00200014, 0x0, 1, 0x00000414, .fixed 4, [⟨15, 8, .staged, []⟩, ⟨7, 0, .staged, []⟩]⟩
  , /- WARP_EQ_CFG -/ ⟨0x00200018, 0x0, 1, 0x00000027, .fixed 5, [⟨5, 5, .staged, []⟩, ⟨4, 0, .staged, [(3, 12)]⟩]⟩
  , /- WARP_EQ_STAT -/ ⟨0x0020001C, 0x0, 1, 0x00000000, .fixed 5, [⟨31, 16, .rc, []⟩, ⟨15, 8, .rc, []⟩]⟩
  , /- WARP_ALIGN_CFG -/ ⟨0x00200020, 0x0, 1, 0x00000006, .fixed 6, [⟨2, 0, .staged, []⟩]⟩
  , /- WARP_ALIGN_STAT -/ ⟨0x00200024, 0x0, 1, 0x00000000, .fixed 6, [⟨31, 16, .rc, []⟩, ⟨15, 8, .rc, []⟩, ⟨6, 0, .ro, []⟩]⟩
  , /- WARP_FEC_CFG -/ ⟨0x00200030, 0x0, 1, 0x0000000A, .fixed 6, [⟨3, 0, .staged, [(1, 10)]⟩]⟩
  , /- WARP_SD_CFG -/ ⟨0x00200034, 0x0, 1, 0x00000403, .fixed 6, [⟨11, 8, .staged, [(0, 10)]⟩, ⟨3, 0, .staged, [(2, 9)]⟩]⟩
  , /- WARP_BER_BITS -/ ⟨0x00200038, 0x0, 1, 0x00000000, .fixed 6, [⟨31, 0, .ro, []⟩]⟩
  , /- WARP_BER_CW -/ ⟨0x0020003C, 0x0, 1, 0x00000000, .fixed 6, [⟨21, 0, .ro, []⟩]⟩
  , /- WARP_REASM_CFG -/ ⟨0x00200040, 0x0, 1, 0x00000002, .fixed 6, [⟨3, 0, .staged, [(1, 15)]⟩]⟩
  , /- WARP_PM_SEL -/ ⟨0x00200080, 0x0, 1, 0x00000000, .fixed 6, [⟨4, 0, .imm, [(0, 18)]⟩]⟩
  , /- WARP_PM_FLAGS -/ ⟨0x00200084, 0x0, 1, 0x00000000, .fixed 6, [⟨31, 31, .ro, []⟩, ⟨30, 30, .ro, []⟩, ⟨29, 29, .ro, []⟩, ⟨8, 0, .ro, []⟩]⟩
  , /- WARP_PM_START_LO -/ ⟨0x00200088, 0x0, 1, 0x00000000, .fixed 6, [⟨31, 0, .ro, []⟩]⟩
  , /- WARP_PM_START_HI -/ ⟨0x0020008C, 0x0, 1, 0x00000000, .fixed 6, [⟨15, 0, .ro, []⟩]⟩
  , /- WARP_PM_DATA -/ ⟨0x00200090, 0x4, 9, 0x00000000, .fixed 6, [⟨31, 0, .ro, []⟩]⟩
  , /- WARP_EQ_TAP -/ ⟨0x00200100, 0x4, 34, 0x00000000, .fixed 5, [⟨9, 0, .ro, []⟩]⟩ ]

/-- Registers of block WARP, part 2. -/
def warpRegs2 : List RegRow :=
  [ /- WARP_CNT_LO -/ ⟨0x00200200, 0x8, 14, 0x00000000, .fixed 6, [⟨31, 0, .rc, []⟩]⟩
  , /- WARP_CNT_HI -/ ⟨0x00200204, 0x8, 14, 0x00000000, .fixed 6, [⟨31, 0, .ro, []⟩]⟩
  , /- WARP_CNT_SAT -/ ⟨0x00200280, 0x0, 1, 0x00000000, .fixed 6, [⟨13, 0, .w1c, []⟩]⟩ ]

/-- Every register of block WARP. -/
def warpRegs : List RegRow :=
  warpRegs1 ++ warpRegs2

/-- Registers of block WEFT, part 1. -/
def weftRegs : List RegRow :=
  [ /- WEFT_CTRL -/ ⟨0x00300000, 0x0, 1, 0x00000000, .fixed 8, [⟨2, 2, .staged, []⟩, ⟨1, 1, .staged, []⟩, ⟨0, 0, .staged, []⟩]⟩
  , /- WEFT_STAT -/ ⟨0x00300004, 0x0, 1, 0x00000001, .fixed 8, [⟨7, 7, .own, []⟩, ⟨6, 6, .ro, []⟩, ⟨5, 5, .ro, []⟩, ⟨4, 4, .ro, []⟩, ⟨3, 0, .ro, []⟩]⟩
  , /- WEFT_EQD -/ ⟨0x00300008, 0x0, 1, 0x00000000, .fixed 8, [⟨23, 0, .ro, []⟩]⟩
  , /- WEFT_PREAMBLE -/ ⟨0x0030000C, 0x0, 1, 0x00000020, .fixed 8, [⟨7, 0, .ro, []⟩]⟩
  , /- WEFT_TID -/ ⟨0x00300010, 0x0, 1, 0x000003FF, .fixed 8, [⟨31, 31, .ro, []⟩, ⟨9, 0, .ro, []⟩]⟩
  , /- WEFT_REI -/ ⟨0x00300014, 0x0, 1, 0x00000000, .fixed 8, [⟨7, 0, .ro, []⟩]⟩
  , /- WEFT_LAST_BURST -/ ⟨0x00300018, 0x0, 1, 0x00000000, .fixed 8, [⟨31, 16, .ro, []⟩, ⟨15, 0, .ro, []⟩]⟩
  , /- WEFT_LASER_CFG -/ ⟨0x00300040, 0x0, 1, 0x00001020, .fixed 7, [⟨15, 8, .staged, [(0, 48)]⟩, ⟨7, 0, .staged, [(0, 48)]⟩]⟩
  , /- WEFT_PL_CFG -/ ⟨0x00300050, 0x4, 4, 0x00000000, .fixed 7, [⟨9, 0, .staged, [(100, 450)]⟩]⟩
  , /- WEFT_CONT -/ ⟨0x00300100, 0x4, 64, 0x00000000, .fixed 8, [⟨31, 31, .ro, []⟩, ⟨13, 0, .ro, []⟩]⟩
  , /- WEFT_CNT_LO -/ ⟨0x00300200, 0x8, 17, 0x00000000, .fixed 8, [⟨31, 0, .rc, []⟩]⟩
  , /- WEFT_CNT_HI -/ ⟨0x00300204, 0x8, 17, 0x00000000, .fixed 8, [⟨31, 0, .ro, []⟩]⟩
  , /- WEFT_CNT_SAT -/ ⟨0x00300300, 0x0, 1, 0x00000000, .fixed 8, [⟨16, 0, .w1c, []⟩]⟩ ]

/-- Registers of block ACT, part 1. -/
def actRegs : List RegRow :=
  [ /- ACT_CTRL -/ ⟨0x00400000, 0x0, 1, 0x00000000, .fixed 3, [⟨1, 1, .staged, []⟩, ⟨0, 0, .staged, []⟩]⟩
  , /- ACT_STAT -/ ⟨0x00400004, 0x0, 1, 0x00000000, .fixed 3, [⟨15, 8, .ro, []⟩, ⟨5, 5, .ro, []⟩, ⟨4, 4, .ro, []⟩, ⟨3, 3, .ro, []⟩, ⟨2, 0, .ro, []⟩]⟩
  , /- ACT_HELD -/ ⟨0x00400008, 0x0, 1, 0x00000000, .fixed 0, [⟨1, 1, .ro, []⟩, ⟨0, 0, .own, []⟩]⟩
  , /- ACT_SERIAL_LO -/ ⟨0x00400010, 0x0, 1, 0x00000000, .fixed 3, [⟨31, 0, .ro, []⟩]⟩
  , /- ACT_SERIAL_HI -/ ⟨0x00400014, 0x0, 1, 0x00000000, .fixed 3, [⟨31, 0, .ro, []⟩]⟩
  , /- ACT_HE_ID -/ ⟨0x00400018, 0x0, 1, 0x00000000, .fixed 3, [⟨31, 0, .ro, []⟩]⟩
  , /- ACT_TIMER_0 -/ ⟨0x00400020, 0x0, 1, 0x5DC00320, .fixed 3, [⟨31, 16, .staged, [(1, 65535)]⟩, ⟨15, 0, .staged, [(1, 65535)]⟩]⟩
  , /- ACT_TIMER_1 -/ ⟨0x00400024, 0x0, 1, 0x3E801F40, .fixed 3, [⟨31, 16, .staged, [(1, 65535)]⟩, ⟨15, 0, .staged, [(1, 65535)]⟩]⟩
  , /- ACT_HE_PUB -/ ⟨0x00400040, 0x4, 8, 0x00000000, .fixed 3, [⟨31, 0, .staged, []⟩]⟩
  , /- ACT_NOTIFY -/ ⟨0x00400060, 0x0, 1, 0x00000000, .fixed 3, [⟨31, 31, .staged, []⟩, ⟨8, 0, .staged, []⟩]⟩
  , /- ACT_STREAM_SEL -/ ⟨0x00400070, 0x0, 1, 0x00000000, .fixed 3, [⟨16, 16, .imm, []⟩, ⟨15, 0, .imm, []⟩]⟩
  , /- ACT_STREAM_DATA -/ ⟨0x00400074, 0x0, 1, 0x00000000, .fixed 3, [⟨31, 31, .ro, []⟩, ⟨29, 28, .ro, []⟩, ⟨27, 26, .ro, []⟩, ⟨13, 0, .ro, []⟩]⟩
  , /- ACT_PEND -/ ⟨0x00400078, 0x0, 1, 0x00000000, .fixed 3, [⟨6, 0, .ro, []⟩]⟩
  , /- ACT_CNT_LO -/ ⟨0x00400200, 0x8, 12, 0x00000000, .fixed 3, [⟨31, 0, .rc, []⟩]⟩
  , /- ACT_CNT_HI -/ ⟨0x00400204, 0x8, 12, 0x00000000, .fixed 3, [⟨31, 0, .ro, []⟩]⟩
  , /- ACT_CNT_SAT -/ ⟨0x00400280, 0x0, 1, 0x00000000, .fixed 3, [⟨11, 0, .w1c, []⟩]⟩ ]

/-- Registers of block TIME, part 1. -/
def timeRegs1 : List RegRow :=
  [ /- TIME_CTRL -/ ⟨0x00500000, 0x0, 1, 0x00000000, .fixed 22, [⟨31, 31, .staged, []⟩, ⟨24, 16, .staged, []⟩, ⟨1, 1, .staged, []⟩, ⟨0, 0, .wo, []⟩]⟩
  , /- TIME_STAT -/ ⟨0x00500004, 0x0, 1, 0x00000000, .fixed 22, [⟨4, 4, .w1c, []⟩, ⟨3, 3, .w1c, []⟩, ⟨2, 2, .ro, []⟩, ⟨1, 1, .ro, []⟩, ⟨0, 0, .ro, []⟩]⟩
  , /- TIME_NOW_NS -/ ⟨0x00500008, 0x0, 1, 0x00000000, .fixed 22, [⟨31, 0, .ro, []⟩]⟩
  , /- TIME_NOW_SEC_LO -/ ⟨0x0050000C, 0x0, 1, 0x00000000, .fixed 22, [⟨31, 0, .ro, []⟩]⟩
  , /- TIME_NOW_SEC_HI -/ ⟨0x00500010, 0x0, 1, 0x00000000, .fixed 22, [⟨15, 0, .ro, []⟩]⟩
  , /- TIME_NOW_FRAC -/ ⟨0x00500014, 0x0, 1, 0x00000000, .fixed 22, [⟨31, 0, .ro, []⟩]⟩
  , /- TIME_INC_LO -/ ⟨0x00500018, 0x0, 1, 0x00000000, .fixed 22, [⟨31, 0, .staged, []⟩]⟩
  , /- TIME_INC_HI -/ ⟨0x0050001C, 0x0, 1, 0x00000100, .fixed 22, [⟨15, 0, .staged, []⟩]⟩
  , /- TIME_SET_SEC_LO -/ ⟨0x00500020, 0x0, 1, 0x00000000, .fixed 22, [⟨31, 0, .staged, []⟩]⟩
  , /- TIME_SET_SEC_HI -/ ⟨0x00500024, 0x0, 1, 0x00000000, .fixed 22, [⟨15, 0, .staged, []⟩]⟩
  , /- TIME_SET_NS -/ ⟨0x00500028, 0x0, 1, 0x00000000, .fixed 22, [⟨31, 0, .staged, [(0, 999999999)]⟩]⟩
  , /- TIME_EQD_ZERO -/ ⟨0x00500030, 0x0, 1, 0x00000000, .fixed 22, [⟨23, 0, .staged, []⟩]⟩
  , /- TIME_ASYM -/ ⟨0x00500034, 0x0, 1, 0x00000000, .fixed 22, [⟨31, 0, .staged, []⟩]⟩
  , /- TIME_DN_OFS -/ ⟨0x00500038, 0x0, 1, 0x00000000, .fixed 22, [⟨31, 0, .staged, []⟩]⟩
  , /- TIME_STEP_THRESH -/ ⟨0x0050003C, 0x0, 1, 0x00000064, .fixed 22, [⟨31, 0, .staged, []⟩]⟩
  , /- TIME_TOD_TIMEOUT -/ ⟨0x00500040, 0x0, 1, 0x00013880, .fixed 22, [⟨23, 0, .staged, [(1, 16777215)]⟩]⟩
  , /- TIME_STEP_LO -/ ⟨0x00500048, 0x0, 1, 0x00000000, .fixed 22, [⟨31, 0, .wo, []⟩]⟩
  , /- TIME_STEP_HI -/ ⟨0x0050004C, 0x0, 1, 0x00000000, .fixed 22, [⟨31, 0, .wo, []⟩]⟩
  , /- TIME_OFS_LO -/ ⟨0x00500050, 0x0, 1, 0x00000000, .fixed 22, [⟨31, 0, .ro, []⟩]⟩
  , /- TIME_OFS_HI -/ ⟨0x00500054, 0x0, 1, 0x00000000, .fixed 22, [⟨31, 0, .ro, []⟩]⟩ ]

/-- Registers of block TIME, part 2. -/
def timeRegs2 : List RegRow :=
  [ /- TIME_OFS_PICK -/ ⟨0x00500058, 0x0, 1, 0x00000000, .fixed 22, [⟨31, 0, .ro, []⟩]⟩
  , /- TIME_PPS_CFG -/ ⟨0x00500060, 0x0, 1, 0x00000000, .fixed 22, [⟨31, 31, .staged, []⟩, ⟨8, 0, .staged, []⟩]⟩
  , /- TIME_PPS_OFS -/ ⟨0x00500064, 0x0, 1, 0x00000000, .fixed 22, [⟨31, 0, .staged, [(0, 999999999)]⟩]⟩
  , /- TIME_CAP_CFG -/ ⟨0x00500070, 0x0, 1, 0x00000000, .fixed 22, [⟨3, 3, .staged, []⟩, ⟨2, 2, .staged, []⟩, ⟨1, 1, .staged, []⟩, ⟨0, 0, .staged, []⟩]⟩
  , /- TIME_CAP_STAT -/ ⟨0x00500074, 0x0, 1, 0x00000000, .fixed 22, [⟨7, 4, .ro, []⟩, ⟨3, 0, .ro, []⟩]⟩
  , /- TIME_CAP_NS -/ ⟨0x00500080, 0x10, 2, 0xFFFFFFFF, .fixed 22, [⟨31, 0, .rc, []⟩]⟩
  , /- TIME_CAP_SEC_LO -/ ⟨0x00500084, 0x10, 2, 0x00000000, .fixed 22, [⟨31, 0, .ro, []⟩]⟩
  , /- TIME_CAP_SEC_HI -/ ⟨0x00500088, 0x10, 2, 0x00000000, .fixed 22, [⟨15, 0, .ro, []⟩]⟩
  , /- TIME_CAP_FRAC -/ ⟨0x0050008C, 0x10, 2, 0x00000000, .fixed 22, [⟨31, 0, .ro, []⟩]⟩
  , /- TIME_PORT_CFG -/ ⟨0x00500100, 0x4, 32, 0x00000000, .fixed 22, [⟨2, 2, .staged, []⟩, ⟨1, 1, .staged, []⟩, ⟨0, 0, .staged, []⟩]⟩
  , /- TIME_PORT_LAT -/ ⟨0x00500180, 0x4, 32, 0x00000000, .fixed 22, [⟨31, 16, .staged, []⟩, ⟨15, 0, .staged, []⟩]⟩
  , /- TIME_PORT_ASYM -/ ⟨0x00500200, 0x4, 32, 0x00000000, .fixed 22, [⟨31, 0, .staged, []⟩]⟩
  , /- TIME_CNT_LO -/ ⟨0x00500400, 0x8, 13, 0x00000000, .fixed 22, [⟨31, 0, .rc, []⟩]⟩
  , /- TIME_CNT_HI -/ ⟨0x00500404, 0x8, 13, 0x00000000, .fixed 22, [⟨31, 0, .ro, []⟩]⟩
  , /- TIME_CNT_SAT -/ ⟨0x00500480, 0x0, 1, 0x00000000, .fixed 22, [⟨12, 0, .w1c, []⟩]⟩ ]

/-- Every register of block TIME. -/
def timeRegs : List RegRow :=
  timeRegs1 ++ timeRegs2

/-- Registers of block HEDDLE, part 1. -/
def heddleRegs1 : List RegRow :=
  [ /- HEDDLE_CTRL -/ ⟨0x00600000, 0x0, 1, 0x00000002, .fixed 10, [⟨1, 1, .staged, []⟩, ⟨0, 0, .staged, []⟩]⟩
  , /- HEDDLE_STAT -/ ⟨0x00600004, 0x0, 1, 0x00000000, .fixed 10, [⟨23, 16, .ro, []⟩, ⟨2, 2, .ro, []⟩, ⟨1, 1, .ro, []⟩, ⟨0, 0, .ro, []⟩]⟩
  , /- HEDDLE_TPID -/ ⟨0x00600008, 0x0, 1, 0x00009100, .fixed 10, [⟨16, 16, .staged, []⟩, ⟨15, 0, .staged, []⟩]⟩
  , /- HEDDLE_RING -/ ⟨0x0060000C, 0x0, 1, 0x00000000, .fixed 10, [⟨24, 16, .staged, []⟩, ⟨8, 0, .staged, []⟩]⟩
  , /- HEDDLE_NOTIFY -/ ⟨0x00600010, 0x0, 1, 0x00000000, .fixed 10, [⟨31, 31, .staged, []⟩, ⟨8, 0, .staged, []⟩]⟩
  , /- HEDDLE_ENT_SEL -/ ⟨0x00600100, 0x0, 1, 0x00000000, .fixed 10, [⟨26, 24, .imm, [(0, 5)]⟩, ⟨17, 0, .imm, []⟩]⟩
  , /- HEDDLE_ENT_CMD -/ ⟨0x00600104, 0x0, 1, 0x00000000, .fixed 10, [⟨31, 31, .ro, []⟩, ⟨26, 24, .ro, []⟩, ⟨2, 0, .wo, [(1, 6)]⟩]⟩
  , /- HEDDLE_ENT_DATA -/ ⟨0x00600200, 0x4, 48, 0x00000000, .fixed 10, [⟨31, 0, .imm, []⟩]⟩
  , /- HEDDLE_CNT_LO -/ ⟨0x00600400, 0x8, 19, 0x00000000, .fixed 10, [⟨31, 0, .rc, []⟩]⟩
  , /- HEDDLE_CNT_HI -/ ⟨0x00600404, 0x8, 19, 0x00000000, .fixed 10, [⟨31, 0, .ro, []⟩]⟩
  , /- HEDDLE_CNT_SAT -/ ⟨0x00600500, 0x0, 1, 0x00000000, .fixed 10, [⟨18, 0, .w1c, []⟩]⟩
  , /- HEDDLE_FLOW_CTRL -/ ⟨0x00601000, 0x0, 1, 0x00000000, .fixed 12, [⟨31, 31, .staged, []⟩, ⟨30, 30, .staged, []⟩, ⟨29, 29, .staged, []⟩]⟩
  , /- HEDDLE_FLOW_BASE -/ ⟨0x00601004, 0x0, 1, 0x00000010, .fixed 12, [⟨5, 4, .staged, []⟩, ⟨1, 0, .staged, []⟩]⟩
  , /- HEDDLE_FLOW_SEED -/ ⟨0x00601008, 0x0, 1, 0x00000000, .fixed 12, [⟨16, 16, .staged, []⟩, ⟨15, 0, .staged, []⟩]⟩
  , /- HEDDLE_FLOW_AGE -/ ⟨0x0060100C, 0x0, 1, 0x00000000, .fixed 12, [⟨15, 0, .staged, [(0, 32767)]⟩]⟩
  , /- HEDDLE_FLOW_LIMIT -/ ⟨0x00601010, 0x0, 1, 0x007A1200, .fixed 12, [⟨23, 0, .staged, [(0, 8388608)]⟩]⟩
  , /- HEDDLE_FLOW_STAT -/ ⟨0x00601014, 0x0, 1, 0x00000000, .fixed 12, [⟨31, 29, .ro, []⟩, ⟨23, 0, .ro, []⟩]⟩
  , /- HEDDLE_FLOW_STASH -/ ⟨0x00601018, 0x0, 1, 0x00000000, .fixed 12, [⟨10, 0, .ro, []⟩]⟩
  , /- HEDDLE_FLOW_KEEP -/ ⟨0x00601020, 0x0, 1, 0x00000000, .fixed 0, [⟨31, 31, .ro, []⟩, ⟨16, 16, .ro, []⟩, ⟨15, 0, .ro, []⟩]⟩
  , /- HEDDLE_FLOW_CNT_LO -/ ⟨0x00601200, 0x8, 15, 0x00000000, .fixed 12, [⟨31, 0, .rc, []⟩]⟩ ]

/-- Registers of block HEDDLE, part 2. -/
def heddleRegs2 : List RegRow :=
  [ /- HEDDLE_FLOW_CNT_HI -/ ⟨0x00601204, 0x8, 15, 0x00000000, .fixed 12, [⟨31, 0, .ro, []⟩]⟩
  , /- HEDDLE_FLOW_CNT_SAT -/ ⟨0x00601300, 0x0, 1, 0x00000000, .fixed 12, [⟨14, 0, .w1c, []⟩]⟩ ]

/-- Every register of block HEDDLE. -/
def heddleRegs : List RegRow :=
  heddleRegs1 ++ heddleRegs2

/-- Registers of block REED, part 1. -/
def reedRegs : List RegRow :=
  [ /- REED_CTRL -/ ⟨0x00800000, 0x0, 1, 0x00000000, .fixed 18, [⟨1, 1, .wo, []⟩, ⟨0, 0, .staged, []⟩]⟩
  , /- REED_STAT -/ ⟨0x00800004, 0x0, 1, 0x00000000, .fixed 18, [⟨31, 16, .rc, []⟩, ⟨0, 0, .ro, []⟩]⟩
  , /- REED_MAC_OVH -/ ⟨0x00800008, 0x0, 1, 0x00000014, .fixed 18, [⟨5, 0, .staged, []⟩]⟩
  , /- REED_ANCHOR -/ ⟨0x0080000C, 0x0, 1, 0x00000000, .fixed 18, [⟨0, 0, .own, []⟩]⟩
  , /- REED_ENT_SEL -/ ⟨0x00800100, 0x0, 1, 0x00000000, .fixed 18, [⟨18, 16, .imm, [(0, 6)]⟩, ⟨13, 0, .imm, []⟩]⟩
  , /- REED_ENT_CMD -/ ⟨0x00800104, 0x0, 1, 0x00000000, .fixed 18, [⟨31, 31, .ro, []⟩, ⟨26, 24, .ro, []⟩, ⟨2, 0, .wo, [(1, 2)]⟩]⟩
  , /- REED_ENT_DATA -/ ⟨0x00800200, 0x4, 8, 0x00000000, .fixed 18, [⟨31, 0, .imm, []⟩]⟩
  , /- REED_GATE_STAT -/ ⟨0x00800300, 0x4, 32, 0x00000000, .fixed 18, [⟨31, 31, .ro, []⟩, ⟨30, 30, .ro, []⟩, ⟨29, 29, .ro, []⟩, ⟨23, 16, .ro, []⟩, ⟨8, 0, .ro, []⟩]⟩
  , /- REED_CNT_SEL -/ ⟨0x00800400, 0x0, 1, 0x00000000, .fixed 18, [⟨17, 16, .imm, [(0, 2)]⟩, ⟨13, 0, .imm, []⟩]⟩
  , /- REED_CNT_LO -/ ⟨0x00800410, 0x8, 8, 0x00000000, .fixed 18, [⟨31, 0, .rc, []⟩]⟩
  , /- REED_CNT_HI -/ ⟨0x00800414, 0x8, 8, 0x00000000, .fixed 18, [⟨31, 0, .ro, []⟩]⟩
  , /- REED_CNT_ESAT -/ ⟨0x00800450, 0x0, 1, 0x00000000, .fixed 18, [⟨7, 0, .w1c, []⟩]⟩
  , /- REED_GCNT_LO -/ ⟨0x00800500, 0x8, 12, 0x00000000, .fixed 18, [⟨31, 0, .rc, []⟩]⟩
  , /- REED_GCNT_HI -/ ⟨0x00800504, 0x8, 12, 0x00000000, .fixed 18, [⟨31, 0, .ro, []⟩]⟩
  , /- REED_CNT_SAT -/ ⟨0x00800580, 0x0, 1, 0x00000000, .fixed 18, [⟨31, 31, .ro, []⟩, ⟨30, 30, .ro, []⟩, ⟨29, 29, .ro, []⟩, ⟨11, 0, .w1c, []⟩]⟩ ]

/-- Registers of block SPOOL, part 1. -/
def spoolRegs : List RegRow :=
  [ /- SPOOL_CTRL -/ ⟨0x00A00000, 0x0, 1, 0x00000000, .fixed 14, [⟨0, 0, .staged, []⟩]⟩
  , /- SPOOL_STAT -/ ⟨0x00A00004, 0x0, 1, 0x00000001, .fixed 14, [⟨6, 4, .ro, []⟩, ⟨3, 3, .ro, []⟩, ⟨2, 2, .w1c, []⟩, ⟨1, 1, .w1c, []⟩, ⟨0, 0, .ro, []⟩]⟩
  , /- SPOOL_POOL_CFG -/ ⟨0x00A00020, 0x8, 4, 0x00000000, .fixed 14, [⟨31, 31, .staged, []⟩, ⟨10, 0, .staged, []⟩]⟩
  , /- SPOOL_POOL_COUNT -/ ⟨0x00A00024, 0x8, 4, 0x00000000, .fixed 14, [⟨19, 0, .staged, []⟩]⟩
  , /- SPOOL_POOL_FREE -/ ⟨0x00A00040, 0x4, 4, 0x00000000, .fixed 14, [⟨19, 0, .ro, []⟩]⟩
  , /- SPOOL_POOL_LOW -/ ⟨0x00A00050, 0x4, 4, 0x00000000, .fixed 14, [⟨19, 0, .rc, []⟩]⟩
  , /- SPOOL_POOL_OUTST -/ ⟨0x00A00060, 0x4, 4, 0x00000000, .fixed 14, [⟨19, 0, .ro, []⟩]⟩
  , /- SPOOL_PORT_PRIO -/ ⟨0x00A00070, 0x0, 1, 0x00000111, .fixed 14, [⟨9, 8, .staged, []⟩, ⟨5, 4, .staged, []⟩, ⟨1, 0, .staged, []⟩]⟩
  , /- SPOOL_SRC_OWNER -/ ⟨0x00A00100, 0x4, 51, 0x00000000, .fixed 14, [⟨5, 0, .staged, []⟩]⟩
  , /- SPOOL_OWN_MAX -/ ⟨0x00A00200, 0x4, 64, 0x00300000, .fixed 14, [⟨21, 0, .staged, [(0, 3145728)]⟩]⟩
  , /- SPOOL_OWN_USE -/ ⟨0x00A00300, 0x4, 64, 0x00000000, .fixed 14, [⟨21, 0, .ro, []⟩]⟩
  , /- SPOOL_OWN_MIN -/ ⟨0x00A00400, 0x4, 256, 0x00000000, .fixed 14, [⟨19, 0, .staged, []⟩]⟩
  , /- SPOOL_OWN_HELD -/ ⟨0x00A00800, 0x4, 256, 0x00000000, .fixed 14, [⟨19, 0, .ro, []⟩]⟩
  , /- SPOOL_FREE_ERR -/ ⟨0x00A00C00, 0x0, 1, 0x00000000, .fixed 14, [⟨31, 31, .w1c, []⟩, ⟨21, 20, .ro, []⟩, ⟨19, 0, .ro, []⟩]⟩
  , /- SPOOL_FREE_OWN -/ ⟨0x00A00C04, 0x0, 1, 0x00000000, .fixed 14, [⟨15, 14, .ro, []⟩, ⟨13, 8, .ro, []⟩, ⟨5, 0, .ro, []⟩]⟩
  , /- SPOOL_CNT_LO -/ ⟨0x00A01000, 0x8, 19, 0x00000000, .fixed 14, [⟨31, 0, .rc, []⟩]⟩
  , /- SPOOL_CNT_HI -/ ⟨0x00A01004, 0x8, 19, 0x00000000, .fixed 14, [⟨31, 0, .ro, []⟩]⟩
  , /- SPOOL_CNT_SAT -/ ⟨0x00A01100, 0x0, 1, 0x00000000, .fixed 14, [⟨18, 0, .w1c, []⟩]⟩ ]

/-- Registers of block SEC, part 1. -/
def secRegs : List RegRow :=
  [ /- SEC_CTRL -/ ⟨0x00B00000, 0x0, 1, 0x00000000, .fixed 21, [⟨0, 0, .staged, []⟩]⟩
  , /- SEC_STAT -/ ⟨0x00B00004, 0x0, 1, 0x00000000, .fixed 21, [⟨3, 3, .ro, []⟩, ⟨2, 2, .ro, []⟩, ⟨1, 1, .ro, []⟩, ⟨0, 0, .ro, []⟩]⟩
  , /- SEC_KEY_CFG -/ ⟨0x00B00008, 0x0, 1, 0x00000040, .fixed 21, [⟨15, 0, .staged, [(1, 65535)]⟩]⟩
  , /- SEC_KEY_STAT -/ ⟨0x00B0000C, 0x0, 1, 0x00000000, .fixed 21, [⟨13, 0, .ro, []⟩]⟩
  , /- SEC_BOOT -/ ⟨0x00B00010, 0x0, 1, 0x00000000, .fixed 21, [⟨5, 5, .ro, []⟩, ⟨4, 4, .ro, []⟩, ⟨3, 3, .ro, []⟩, ⟨2, 2, .ro, []⟩, ⟨1, 1, .ro, []⟩, ⟨0, 0, .ro, []⟩]⟩
  , /- SEC_IMG_VER -/ ⟨0x00B00014, 0x0, 1, 0x00000000, .fixed 21, [⟨31, 0, .ro, []⟩]⟩
  , /- SEC_IMG_ARB -/ ⟨0x00B00018, 0x0, 1, 0x00000000, .fixed 21, [⟨6, 0, .ro, []⟩]⟩
  , /- SEC_OTP_ARB -/ ⟨0x00B0001C, 0x0, 1, 0x00000000, .fixed 21, [⟨6, 0, .ro, []⟩]⟩
  , /- SEC_IMG_PROG -/ ⟨0x00B00020, 0x0, 1, 0x00000000, .fixed 21, [⟨31, 28, .ro, []⟩, ⟨21, 0, .ro, []⟩]⟩
  , /- SEC_TRNG_CTRL -/ ⟨0x00B00024, 0x0, 1, 0x00000000, .fixed 21, [⟨0, 0, .wo, []⟩]⟩
  , /- SEC_ID_PUB -/ ⟨0x00B00040, 0x4, 8, 0x00000000, .fixed 21, [⟨31, 0, .ro, []⟩]⟩
  , /- SEC_CUST_PUB -/ ⟨0x00B00060, 0x4, 8, 0x00000000, .fixed 21, [⟨31, 0, .ro, []⟩]⟩
  , /- SEC_DIGEST_SEL -/ ⟨0x00B00080, 0x0, 1, 0x00000000, .fixed 21, [⟨1, 0, .imm, [(0, 2)]⟩]⟩
  , /- SEC_DIGEST -/ ⟨0x00B00084, 0x4, 16, 0x00000000, .fixed 21, [⟨31, 0, .ro, []⟩]⟩
  , /- SEC_CNT_LO -/ ⟨0x00B00200, 0x8, 14, 0x00000000, .fixed 21, [⟨31, 0, .rc, []⟩]⟩
  , /- SEC_CNT_HI -/ ⟨0x00B00204, 0x8, 14, 0x00000000, .fixed 21, [⟨31, 0, .ro, []⟩]⟩
  , /- SEC_CNT_SAT -/ ⟨0x00B00300, 0x0, 1, 0x00000000, .fixed 21, [⟨13, 0, .w1c, []⟩]⟩ ]

/-- Registers of block MAC, part 1. -/
def macRegs : List RegRow :=
  [ /- MAC_CFG -/ ⟨0x00C00000, 0x4, 32, 0x100005EE, .mac, [⟨31, 31, .staged, []⟩, ⟨30, 30, .staged, []⟩, ⟨29, 29, .staged, []⟩, ⟨28, 28, .staged, []⟩, ⟨27, 27, .staged, []⟩, ⟨13, 0, .staged, [(1514, 16383)]⟩]⟩
  , /- MAC_STAT -/ ⟨0x00C00080, 0x4, 32, 0x00000000, .mac, [⟨23, 16, .ro, []⟩, ⟨5, 5, .ro, []⟩, ⟨4, 4, .ro, []⟩, ⟨3, 3, .ro, []⟩, ⟨2, 2, .w1c, []⟩, ⟨1, 1, .ro, []⟩, ⟨0, 0, .ro, []⟩]⟩
  , /- MAC_PAUSE_CFG -/ ⟨0x00C00100, 0x4, 32, 0x0000FFFF, .mac, [⟨25, 24, .staged, [(0, 2)]⟩, ⟨23, 16, .staged, []⟩, ⟨15, 0, .staged, []⟩]⟩
  , /- MAC_PAUSE_THR -/ ⟨0x00C00180, 0x4, 32, 0x01000080, .mac, [⟨31, 16, .staged, []⟩, ⟨15, 0, .staged, []⟩]⟩
  , /- MAC_PREEMPT -/ ⟨0x00C00200, 0x4, 32, 0x00000080, .mac, [⟨31, 31, .staged, []⟩, ⟨30, 30, .staged, []⟩, ⟨25, 24, .staged, []⟩, ⟨7, 0, .staged, []⟩]⟩
  , /- MAC_ADDR_SEL -/ ⟨0x00C00300, 0x0, 1, 0x00000000, .fixed 25, [⟨9, 5, .imm, []⟩, ⟨4, 0, .imm, []⟩]⟩
  , /- MAC_ADDR_LO -/ ⟨0x00C00304, 0x0, 1, 0x00000000, .fixed 25, [⟨31, 0, .staged, []⟩]⟩
  , /- MAC_ADDR_HI -/ ⟨0x00C00308, 0x0, 1, 0x00000000, .fixed 25, [⟨31, 31, .staged, []⟩, ⟨15, 0, .staged, []⟩]⟩
  , /- MAC_CNT_SEL -/ ⟨0x00C00400, 0x0, 1, 0x00000000, .fixed 25, [⟨4, 0, .imm, []⟩]⟩
  , /- MAC_CNT_LO -/ ⟨0x00C00410, 0x8, 16, 0x00000000, .selMac, [⟨31, 0, .rc, []⟩]⟩
  , /- MAC_CNT_HI -/ ⟨0x00C00414, 0x8, 16, 0x00000000, .selMac, [⟨31, 0, .ro, []⟩]⟩
  , /- MAC_CNT_SAT -/ ⟨0x00C00490, 0x0, 1, 0x00000000, .fixed 25, [⟨15, 0, .w1c, []⟩]⟩
  , /- MAC_CNT_ANY -/ ⟨0x00C00494, 0x0, 1, 0x00000000, .fixed 25, [⟨31, 0, .ro, []⟩]⟩ ]

/-- Registers of block LANE, part 1. -/
def laneRegs : List RegRow :=
  [ /- LANE_GLOBAL -/ ⟨0x00D00000, 0x0, 1, 0x00000000, .fixed 3, [⟨31, 31, .staged, []⟩, ⟨1, 1, .w1c, []⟩, ⟨0, 0, .w1c, []⟩]⟩
  , /- LANE_AGG -/ ⟨0x00D00004, 0x0, 1, 0x00000000, .fixed 3, [⟨18, 0, .ro, []⟩]⟩
  , /- LANE_NOTIFY -/ ⟨0x00D00008, 0x0, 1, 0x00000000, .fixed 3, [⟨31, 31, .staged, []⟩, ⟨8, 0, .staged, []⟩]⟩
  , /- LANE_CFG -/ ⟨0x00D00100, 0x4, 16, 0x00000000, .lane, [⟨31, 31, .staged, []⟩, ⟨19, 16, .staged, [(0, 10)]⟩, ⟨13, 12, .staged, [(0, 2)]⟩, ⟨11, 10, .staged, [(0, 2)]⟩, ⟨9, 9, .staged, []⟩, ⟨3, 3, .staged, []⟩, ⟨2, 2, .staged, []⟩, ⟨1, 1, .staged, []⟩]⟩
  , /- LANE_TX_CFG -/ ⟨0x00D00140, 0x4, 16, 0x00040008, .lane, [⟨19, 16, .staged, []⟩, ⟨10, 8, .staged, []⟩, ⟨3, 0, .staged, []⟩]⟩
  , /- LANE_RX_CFG -/ ⟨0x00D00180, 0x4, 16, 0x00000100, .lane, [⟨31, 31, .staged, []⟩, ⟨8, 8, .staged, []⟩, ⟨3, 0, .staged, []⟩]⟩
  , /- LANE_STAT -/ ⟨0x00D001C0, 0x4, 16, 0x00000000, .lane, [⟨19, 16, .ro, []⟩, ⟨8, 8, .ro, []⟩, ⟨7, 7, .ro, []⟩, ⟨6, 6, .ro, []⟩, ⟨5, 5, .ro, []⟩, ⟨4, 4, .w1c, []⟩, ⟨2, 0, .ro, []⟩]⟩
  , /- LANE_YHOLD_THR -/ ⟨0x00D00200, 0x4, 16, 0x01000080, .lane, [⟨31, 16, .staged, []⟩, ⟨15, 0, .staged, []⟩]⟩
  , /- LANE_YMGMT_TX_LO -/ ⟨0x00D00400, 0x10, 16, 0x00000000, .lane, [⟨31, 0, .imm, []⟩]⟩
  , /- LANE_YMGMT_TX_HI -/ ⟨0x00D00404, 0x10, 16, 0x00000000, .lane, [⟨31, 31, .wo, []⟩, ⟨30, 30, .ro, []⟩, ⟨23, 0, .imm, []⟩]⟩
  , /- LANE_YMGMT_RX_LO -/ ⟨0x00D00408, 0x10, 16, 0x00000000, .lane, [⟨31, 0, .rc, []⟩]⟩
  , /- LANE_YMGMT_RX_HI -/ ⟨0x00D0040C, 0x10, 16, 0x00000000, .lane, [⟨31, 31, .ro, []⟩, ⟨23, 0, .ro, []⟩]⟩
  , /- LANE_CNT_SEL -/ ⟨0x00D00600, 0x0, 1, 0x00000000, .fixed 3, [⟨3, 0, .imm, []⟩]⟩
  , /- LANE_CNT_LO -/ ⟨0x00D00610, 0x8, 14, 0x00000000, .selLane, [⟨31, 0, .rc, []⟩]⟩
  , /- LANE_CNT_HI -/ ⟨0x00D00614, 0x8, 14, 0x00000000, .selLane, [⟨31, 0, .ro, []⟩]⟩
  , /- LANE_CNT_SAT -/ ⟨0x00D00680, 0x0, 1, 0x00000000, .fixed 3, [⟨31, 16, .ro, []⟩, ⟨13, 0, .w1c, []⟩]⟩ ]

/-- Registers of block DRAFT, part 1. -/
def draftRegs : List RegRow :=
  [ /- DRAFT_CTRL -/ ⟨0x00E00000, 0x0, 1, 0x00000000, .fixed 27, [⟨1, 1, .wo, []⟩, ⟨0, 0, .staged, []⟩]⟩
  , /- DRAFT_STAT -/ ⟨0x00E00004, 0x0, 1, 0x00000000, .fixed 27, [⟨3, 3, .ro, []⟩, ⟨2, 2, .ro, []⟩, ⟨1, 1, .ro, []⟩, ⟨0, 0, .ro, []⟩]⟩
  , /- DRAFT_CFG -/ ⟨0x00E00008, 0x0, 1, 0x0000FF00, .fixed 27, [⟨16, 16, .staged, []⟩, ⟨15, 8, .staged, []⟩, ⟨5, 0, .staged, []⟩]⟩
  , /- DRAFT_HWY_EN -/ ⟨0x00E0000C, 0x0, 1, 0x00000000, .fixed 27, [⟨31, 16, .staged, []⟩, ⟨15, 0, .staged, []⟩]⟩
  , /- DRAFT_ENT_SEL -/ ⟨0x00E00100, 0x0, 1, 0x00000000, .fixed 27, [⟨26, 24, .imm, [(0, 3)]⟩, ⟨12, 0, .imm, []⟩]⟩
  , /- DRAFT_ENT_CMD -/ ⟨0x00E00104, 0x0, 1, 0x00000000, .fixed 27, [⟨31, 31, .ro, []⟩, ⟨26, 24, .ro, []⟩, ⟨2, 0, .wo, [(1, 2)]⟩]⟩
  , /- DRAFT_ENT_DATA -/ ⟨0x00E00200, 0x4, 3, 0x00000000, .fixed 27, [⟨31, 0, .imm, []⟩]⟩
  , /- DRAFT_CNT_LO -/ ⟨0x00E00400, 0x8, 12, 0x00000000, .fixed 27, [⟨31, 0, .rc, []⟩]⟩
  , /- DRAFT_CNT_HI -/ ⟨0x00E00404, 0x8, 12, 0x00000000, .fixed 27, [⟨31, 0, .ro, []⟩]⟩
  , /- DRAFT_CNT_SAT -/ ⟨0x00E00480, 0x0, 1, 0x00000000, .fixed 27, [⟨11, 0, .w1c, []⟩]⟩ ]

/-- Registers of block HOST, part 1. -/
def hostRegs1 : List RegRow :=
  [ /- HOST_CTRL -/ ⟨0x00F00000, 0x0, 1, 0x00000000, .fixed 3, [⟨1, 1, .staged, []⟩, ⟨0, 0, .staged, []⟩]⟩
  , /- HOST_STAT -/ ⟨0x00F00004, 0x0, 1, 0x00000000, .fixed 3, [⟨11, 11, .w1c, []⟩, ⟨10, 10, .w1c, []⟩, ⟨9, 9, .w1c, []⟩, ⟨8, 8, .ro, []⟩, ⟨7, 7, .ro, []⟩, ⟨6, 4, .ro, []⟩, ⟨3, 0, .ro, []⟩]⟩
  , /- HOST_DB_BASE_LO -/ ⟨0x00F00008, 0x0, 1, 0x00000000, .fixed 3, [⟨31, 12, .staged, []⟩]⟩
  , /- HOST_DB_BASE_HI -/ ⟨0x00F0000C, 0x0, 1, 0x00000000, .fixed 3, [⟨31, 0, .staged, []⟩]⟩
  , /- HOST_KICK_MAP -/ ⟨0x00F00010, 0x4, 4, 0x00000000, .fixed 3, [⟨7, 0, .staged, []⟩]⟩
  , /- HOST_EVENT -/ ⟨0x00F00020, 0x0, 1, 0x00000000, .fixed 3, [⟨31, 31, .staged, []⟩, ⟨30, 30, .staged, []⟩, ⟨8, 0, .staged, []⟩]⟩
  , /- HOST_MGMT -/ ⟨0x00F00024, 0x0, 1, 0x00000000, .fixed 3, [⟨31, 31, .staged, []⟩, ⟨8, 0, .staged, []⟩]⟩
  , /- HOST_READ_QUOTA -/ ⟨0x00F00028, 0x0, 1, 0x00000400, .fixed 3, [⟨12, 0, .staged, [(0, 4096)]⟩]⟩
  , /- HOST_CMD_BASE_LO -/ ⟨0x00F00030, 0x0, 1, 0x00000000, .fixed 3, [⟨31, 12, .staged, []⟩]⟩
  , /- HOST_CMD_BASE_HI -/ ⟨0x00F00034, 0x0, 1, 0x00000000, .fixed 3, [⟨31, 0, .staged, []⟩]⟩
  , /- HOST_CMD_CFG -/ ⟨0x00F00038, 0x0, 1, 0x00060000, .fixed 3, [⟨31, 31, .staged, []⟩, ⟨20, 16, .staged, [(6, 16)]⟩]⟩
  , /- HOST_CQ_BASE_LO -/ ⟨0x00F00040, 0x0, 1, 0x00000000, .fixed 3, [⟨31, 12, .staged, []⟩]⟩
  , /- HOST_CQ_BASE_HI -/ ⟨0x00F00044, 0x0, 1, 0x00000000, .fixed 3, [⟨31, 0, .staged, []⟩]⟩
  , /- HOST_CQ_CFG -/ ⟨0x00F00048, 0x0, 1, 0x00060000, .fixed 3, [⟨31, 31, .staged, []⟩, ⟨30, 30, .staged, []⟩, ⟨20, 16, .staged, [(6, 16)]⟩, ⟨7, 0, .staged, []⟩]⟩
  , /- HOST_CQ_MOD -/ ⟨0x00F0004C, 0x0, 1, 0x00000001, .fixed 3, [⟨25, 16, .staged, []⟩, ⟨7, 0, .staged, [(1, 255)]⟩]⟩
  , /- HOST_STALL -/ ⟨0x00F00060, 0x0, 1, 0x00000000, .fixed 3, [⟨31, 31, .w1c, []⟩, ⟨24, 16, .ro, []⟩, ⟨15, 0, .ro, []⟩]⟩
  , /- HOST_RING_SEL -/ ⟨0x00F00070, 0x0, 1, 0x00000000, .fixed 3, [⟨8, 0, .imm, []⟩]⟩
  , /- HOST_RING_STAT -/ ⟨0x00F00074, 0x0, 1, 0x00000000, .fixed 3, [⟨31, 29, .ro, []⟩, ⟨28, 26, .ro, []⟩, ⟨20, 16, .ro, []⟩, ⟨8, 0, .ro, []⟩]⟩
  , /- HOST_RING_IDX -/ ⟨0x00F00078, 0x0, 1, 0x00000000, .fixed 3, [⟨31, 16, .ro, []⟩, ⟨15, 0, .ro, []⟩]⟩
  , /- HOST_CNT_LO -/ ⟨0x00F00100, 0x8, 19, 0x00000000, .fixed 3, [⟨31, 0, .rc, []⟩]⟩ ]

/-- Registers of block HOST, part 2. -/
def hostRegs2 : List RegRow :=
  [ /- HOST_CNT_HI -/ ⟨0x00F00104, 0x8, 19, 0x00000000, .fixed 3, [⟨31, 0, .ro, []⟩]⟩
  , /- HOST_CNT_SAT -/ ⟨0x00F00200, 0x0, 1, 0x00000000, .fixed 3, [⟨18, 0, .w1c, []⟩]⟩ ]

/-- Every register of block HOST. -/
def hostRegs : List RegRow :=
  hostRegs1 ++ hostRegs2

/-- Registers of block SHUTTLE, part 1. -/
def shuttleRegs : List RegRow :=
  [ /- SHUTTLE_CTRL -/ ⟨0x01000000, 0x0, 1, 0x00000000, .fixed 3, [⟨0, 0, .staged, []⟩]⟩
  , /- SHUTTLE_STAT -/ ⟨0x01000004, 0x0, 1, 0x00000000, .fixed 3, [⟨16, 16, .w1c, []⟩, ⟨15, 0, .ro, []⟩]⟩
  , /- SHUTTLE_CH_CFG -/ ⟨0x01000100, 0x4, 16, 0x00000000, .fixed 3, [⟨31, 31, .staged, []⟩, ⟨17, 16, .staged, []⟩, ⟨8, 0, .staged, []⟩]⟩
  , /- SHUTTLE_CH_CTRL -/ ⟨0x01000140, 0x4, 16, 0x00000000, .fixed 3, [⟨1, 1, .wo, []⟩, ⟨0, 0, .wo, []⟩]⟩
  , /- SHUTTLE_CH_STAT -/ ⟨0x01000180, 0x4, 16, 0x00000000, .fixed 3, [⟨31, 30, .ro, []⟩, ⟨15, 0, .ro, []⟩]⟩
  , /- SHUTTLE_CH_SPOS -/ ⟨0x010001C0, 0x4, 16, 0x00000000, .fixed 3, [⟨23, 0, .ro, []⟩]⟩
  , /- SHUTTLE_CH_DPOS -/ ⟨0x01000200, 0x4, 16, 0x00000000, .fixed 3, [⟨23, 0, .ro, []⟩]⟩
  , /- SHUTTLE_CNT_LO -/ ⟨0x01000400, 0x8, 12, 0x00000000, .fixed 3, [⟨31, 0, .rc, []⟩]⟩
  , /- SHUTTLE_CNT_HI -/ ⟨0x01000404, 0x8, 12, 0x00000000, .fixed 3, [⟨31, 0, .ro, []⟩]⟩
  , /- SHUTTLE_CNT_SAT -/ ⟨0x01000480, 0x0, 1, 0x00000000, .fixed 3, [⟨11, 0, .w1c, []⟩]⟩ ]

/-- Registers of block SKEIN, part 1. -/
def skeinRegs : List RegRow :=
  [ /- SKEIN_CORE_CTRL -/ ⟨0x01100000, 0x100, 4, 0x40000000, .skein, [⟨31, 31, .staged, []⟩, ⟨30, 30, .staged, []⟩, ⟨0, 0, .wo, []⟩]⟩
  , /- SKEIN_CORE_STAT -/ ⟨0x01100004, 0x100, 4, 0x00000000, .skein, [⟨31, 29, .ro, []⟩, ⟨28, 28, .ro, []⟩, ⟨27, 27, .ro, []⟩, ⟨26, 26, .ro, []⟩, ⟨25, 25, .ro, []⟩, ⟨24, 24, .ro, []⟩, ⟨13, 0, .ro, []⟩]⟩
  , /- SKEIN_CORE_FAULT -/ ⟨0x01100008, 0x100, 4, 0x00000000, .skein, [⟨31, 31, .w1c, []⟩, ⟨26, 24, .ro, []⟩, ⟨13, 0, .ro, []⟩]⟩
  , /- SKEIN_WIN_SEL -/ ⟨0x01101000, 0x0, 1, 0x00000000, .fixed 3, [⟨31, 30, .imm, []⟩, ⟨29, 29, .w1c, []⟩, ⟨17, 16, .imm, [(0, 2)]⟩, ⟨13, 0, .imm, []⟩]⟩
  , /- SKEIN_WIN_DATA -/ ⟨0x01101004, 0x0, 1, 0x00000000, .fixed 3, [⟨31, 0, .own, []⟩]⟩
  , /- SKEIN_MBOX_CTRL -/ ⟨0x01101100, 0x0, 1, 0x00000000, .fixed 31, [⟨31, 31, .wo, []⟩, ⟨30, 30, .imm, []⟩, ⟨29, 29, .w1c, []⟩, ⟨7, 0, .imm, []⟩]⟩
  , /- SKEIN_MBOX_IN -/ ⟨0x01101110, 0x4, 8, 0x00000000, .fixed 31, [⟨15, 0, .imm, []⟩]⟩
  , /- SKEIN_MBOX_OUT -/ ⟨0x01101130, 0x4, 8, 0x00000000, .fixed 31, [⟨15, 0, .ro, []⟩]⟩ ]

/-- Registers of block TENSION, part 1. -/
def tensionRegs : List RegRow :=
  [ /- TENSION_CTRL -/ ⟨0x01200000, 0x0, 1, 0x00000001, .fixed 3, [⟨0, 0, .staged, []⟩]⟩
  , /- TENSION_BUDGET -/ ⟨0x01200004, 0x0, 1, 0x000000B0, .fixed 3, [⟨7, 0, .staged, [(48, 224)]⟩]⟩
  , /- TENSION_SLEW -/ ⟨0x01200008, 0x0, 1, 0x00400040, .fixed 3, [⟨23, 16, .staged, [(8, 255)]⟩, ⟨7, 0, .staged, [(8, 255)]⟩]⟩
  , /- TENSION_LEDGER -/ ⟨0x0120000C, 0x0, 1, 0x00000000, .fixed 3, [⟨26, 16, .ro, []⟩, ⟨10, 0, .ro, []⟩]⟩
  , /- TENSION_LEDGER_2 -/ ⟨0x01200010, 0x0, 1, 0x00000000, .fixed 3, [⟨26, 16, .ro, []⟩, ⟨7, 0, .ro, []⟩]⟩
  , /- TENSION_STAT -/ ⟨0x01200014, 0x0, 1, 0x00000000, .fixed 3, [⟨1, 1, .w1c, []⟩, ⟨0, 0, .ro, []⟩]⟩
  , /- TENSION_REQ_CFG -/ ⟨0x01200100, 0x4, 64, 0x00000000, .fixed 3, [⟨4, 4, .staged, []⟩, ⟨1, 0, .staged, []⟩]⟩
  , /- TENSION_REQ_STAT -/ ⟨0x01200200, 0x4, 64, 0x00000000, .fixed 3, [⟨31, 30, .ro, []⟩, ⟨29, 29, .ro, []⟩, ⟨23, 16, .rc, []⟩, ⟨10, 0, .ro, []⟩]⟩
  , /- TENSION_CNT_LO -/ ⟨0x01200400, 0x8, 8, 0x00000000, .fixed 3, [⟨31, 0, .rc, []⟩]⟩
  , /- TENSION_CNT_HI -/ ⟨0x01200404, 0x8, 8, 0x00000000, .fixed 3, [⟨31, 0, .ro, []⟩]⟩
  , /- TENSION_CNT_SAT -/ ⟨0x01200480, 0x0, 1, 0x00000000, .fixed 3, [⟨7, 0, .w1c, []⟩]⟩ ]

/-- Registers of block SELVEDGE, part 1. -/
def selvedgeRegs : List RegRow :=
  [ /- SELVEDGE_CTRL -/ ⟨0x01300000, 0x0, 1, 0x00000001, .fixed 3, [⟨0, 0, .staged, []⟩]⟩
  , /- SELVEDGE_STAT -/ ⟨0x01300004, 0x0, 1, 0x00000000, .fixed 3, [⟨31, 31, .ro, []⟩, ⟨30, 30, .ro, []⟩, ⟨2, 2, .w1c, []⟩, ⟨1, 1, .w1c, []⟩, ⟨0, 0, .w1c, []⟩]⟩
  , /- SELVEDGE_PEND_LO -/ ⟨0x01300008, 0x0, 1, 0x00000000, .fixed 3, [⟨31, 0, .own, []⟩]⟩
  , /- SELVEDGE_PEND_HI -/ ⟨0x0130000C, 0x0, 1, 0x00000000, .fixed 3, [⟨8, 0, .own, []⟩]⟩
  , /- SELVEDGE_FATAL -/ ⟨0x01300010, 0x0, 1, 0x00000000, .fixed 0, [⟨31, 31, .ro, []⟩, ⟨27, 20, .ro, []⟩, ⟨11, 0, .ro, []⟩]⟩
  , /- SELVEDGE_FATAL_CTX -/ ⟨0x01300014, 0x0, 1, 0x00000000, .fixed 0, [⟨31, 0, .ro, []⟩]⟩
  , /- SELVEDGE_FATAL_PICK -/ ⟨0x01300018, 0x0, 1, 0x00000000, .fixed 0, [⟨31, 0, .ro, []⟩]⟩
  , /- SELVEDGE_HIST_SEL -/ ⟨0x01300020, 0x0, 1, 0x00000000, .fixed 3, [⟨4, 0, .imm, []⟩]⟩
  , /- SELVEDGE_HIST_SEQ -/ ⟨0x01300024, 0x0, 1, 0x00000000, .fixed 3, [⟨31, 0, .ro, []⟩]⟩
  , /- SELVEDGE_HIST_DATA -/ ⟨0x01300040, 0x4, 8, 0x00000000, .fixed 3, [⟨31, 0, .ro, []⟩]⟩
  , /- SELVEDGE_UNIT_SEL -/ ⟨0x01300060, 0x0, 1, 0x00000000, .fixed 3, [⟨7, 0, .imm, [(0, 40)]⟩]⟩
  , /- SELVEDGE_UNIT_STAT -/ ⟨0x01300064, 0x0, 1, 0x00000000, .fixed 3, [⟨31, 30, .ro, []⟩, ⟨26, 24, .ro, []⟩, ⟨11, 0, .ro, []⟩]⟩
  , /- SELVEDGE_UNIT_CTX -/ ⟨0x01300068, 0x0, 1, 0x00000000, .fixed 3, [⟨31, 0, .ro, []⟩]⟩
  , /- SELVEDGE_UNIT_CTRL -/ ⟨0x0130006C, 0x0, 1, 0x00000000, .fixed 3, [⟨0, 0, .wo, []⟩]⟩
  , /- SELVEDGE_NOTIFY -/ ⟨0x01300070, 0x0, 1, 0x00000000, .fixed 3, [⟨31, 31, .staged, []⟩, ⟨8, 0, .staged, []⟩]⟩
  , /- SELVEDGE_CNT_LO -/ ⟨0x01300200, 0x8, 12, 0x00000000, .fixed 3, [⟨31, 0, .rc, []⟩]⟩
  , /- SELVEDGE_CNT_HI -/ ⟨0x01300204, 0x8, 12, 0x00000000, .fixed 3, [⟨31, 0, .ro, []⟩]⟩
  , /- SELVEDGE_CNT_SAT -/ ⟨0x01300280, 0x0, 1, 0x00000000, .fixed 3, [⟨11, 0, .w1c, []⟩]⟩ ]

/-- Registers of block SAFETY, part 1. -/
def safetyRegs : List RegRow :=
  [ /- SAFETY_STAT -/ ⟨0x01400000, 0x0, 1, 0x20000000, .fixed 9, [⟨31, 31, .ro, []⟩, ⟨30, 30, .ro, []⟩, ⟨29, 29, .ro, []⟩, ⟨28, 28, .ro, []⟩, ⟨27, 27, .ro, []⟩, ⟨26, 26, .ro, []⟩, ⟨25, 25, .ro, []⟩, ⟨24, 24, .ro, []⟩, ⟨23, 23, .w1c, []⟩, ⟨17, 16, .ro, []⟩, ⟨15, 12, .ro, []⟩, ⟨1, 0, .ro, []⟩]⟩
  , /- SAFETY_LATCH_PICK -/ ⟨0x01400004, 0x0, 1, 0x00000000, .fixed 9, [⟨31, 0, .ro, []⟩]⟩
  , /- SAFETY_CLR -/ ⟨0x01400008, 0x0, 1, 0x00000000, .fixed 9, [⟨31, 0, .wo, []⟩]⟩
  , /- SAFETY_FORCE -/ ⟨0x0140000C, 0x0, 1, 0x00000000, .fixed 9, [⟨0, 0, .own, []⟩]⟩
  , /- SAFETY_MPD_CFG -/ ⟨0x01400010, 0x0, 1, 0x0019193F, .fixed 9, [⟨23, 16, .imm, [(1, 255)]⟩, ⟨15, 8, .imm, [(1, 255)]⟩, ⟨6, 0, .imm, []⟩]⟩
  , /- SAFETY_PROOF -/ ⟨0x01400014, 0x0, 1, 0x00000000, .fixed 9, [⟨31, 31, .ro, []⟩, ⟨19, 16, .ro, []⟩, ⟨15, 0, .ro, []⟩]⟩ ]

/-- Registers of block DRAM, part 1. -/
def dramRegs : List RegRow :=
  [ /- DRAM_CTRL -/ ⟨0x01500000, 0x0, 1, 0x00000000, .fixed 13, [⟨0, 0, .staged, []⟩]⟩
  , /- DRAM_CFG -/ ⟨0x01500004, 0x0, 1, 0x00000034, .fixed 13, [⟨5, 4, .staged, []⟩, ⟨2, 1, .staged, [(0, 2)]⟩, ⟨0, 0, .staged, []⟩]⟩
  , /- DRAM_STAT -/ ⟨0x01500008, 0x0, 1, 0x00000000, .fixed 13, [⟨31, 30, .ro, []⟩, ⟨26, 16, .ro, []⟩, ⟨2, 2, .ro, []⟩, ⟨1, 1, .ro, []⟩, ⟨0, 0, .ro, []⟩]⟩
  , /- DRAM_KEEP -/ ⟨0x0150000C, 0x0, 1, 0x00000000, .fixed 0, [⟨1, 1, .ro, []⟩, ⟨0, 0, .imm, []⟩]⟩
  , /- DRAM_ECC -/ ⟨0x01500010, 0x0, 1, 0x00000000, .fixed 13, [⟨31, 16, .rc, []⟩, ⟨15, 0, .rc, []⟩]⟩ ]

/-- The registers of the block whose base is `b × 1 MiB` (R477; address map of 17_package_electrical.md). -/
def blockRegs (b : Nat) : List RegRow :=
  match b with
  | 0x00 => globalRegs
  | 0x01 => pickRegs
  | 0x02 => warpRegs
  | 0x03 => weftRegs
  | 0x04 => actRegs
  | 0x05 => timeRegs
  | 0x06 => heddleRegs
  | 0x08 => reedRegs
  | 0x0A => spoolRegs
  | 0x0B => secRegs
  | 0x0C => macRegs
  | 0x0D => laneRegs
  | 0x0E => draftRegs
  | 0x0F => hostRegs
  | 0x10 => shuttleRegs
  | 0x11 => skeinRegs
  | 0x12 => tensionRegs
  | 0x13 => selvedgeRegs
  | 0x14 => safetyRegs
  | 0x15 => dramRegs
  | _ => []

end Sys2Proof.Machine
end

