-- ==== Sys2Proof/Machine/Sparse.lean ====
section
/-! DEFINITION. Machine/Sparse.lean: tables held as lists of (index, value) in one canonical form: indices strictly
rising, and no entry equal to what an unlisted index reads as. -/

namespace Sys2Proof.Machine

open Sys2Proof

/-- A table: (index, value) pairs, strictly rising, entries equal to the default left out. -/
abbrev Sparse (α : Type) := List (Nat × α)

/-- Read index `i`; `d` is what an unlisted index reads as. -/
def sget {α : Type} (d : α) : Sparse α → Nat → α
  | [], _ => d
  | (k, v) :: t, i => if k = i then v else if i < k then d else sget d t i

/-- Remove index `i`. -/
def sdel {α : Type} : Sparse α → Nat → Sparse α
  | [], _ => []
  | (k, v) :: t, i => if k = i then t else if i < k then (k, v) :: t else (k, v) :: sdel t i

/-- Put `v` at index `i` whatever `v` is. -/
def sins {α : Type} : Sparse α → Nat → α → Sparse α
  | [], i, v => [(i, v)]
  | (k, w) :: t, i, v =>
    if k = i then (i, v) :: t else if i < k then (i, v) :: (k, w) :: t else (k, w) :: sins t i v

/-- Write `v` at index `i`; writing the default removes the entry. -/
def sput {α : Type} [DecidableEq α] (d : α) (m : Sparse α) (i : Nat) (v : α) : Sparse α :=
  if v = d then sdel m i else sins m i v

/-- Read, change and write back index `i`. -/
def supd {α : Type} [DecidableEq α] (d : α) (m : Sparse α) (i : Nat) (f : α → α) : Sparse α :=
  sput d m i (f (sget d m i))

/-- Keep the entries whose index passes `p`. -/
def skeep {α : Type} (p : Nat → Bool) (m : Sparse α) : Sparse α := m.filter (fun e => p e.1)

/-- Indices strictly rising from above `lo`. -/
def srising {α : Type} : Nat → Sparse α → Bool
  | _, [] => true
  | lo, (k, _) :: t => decide (lo ≤ k) && srising (k + 1) t

/-- The canonical form: indices strictly rising, and no entry equal to the default of its index. -/
def swf {α : Type} [DecidableEq α] (d : Nat → α) (m : Sparse α) : Bool :=
  srising 0 m && m.all (fun e => decide (e.2 ≠ d e.1))

end Sys2Proof.Machine
end

