-- ==== Sys2Proof/Machine/State.lean ====
section
/-! DEFINITION. Machine/State.lean: the state of the block as plain data: every register (staged and in force), every
counter, FIFO, table, mode and pin the spec gives it, the queue of waiting commands, and the state after reset.
Each structure's field docstring cites the rule that gives the field; a default is the field's value at reset. -/

namespace Sys2Proof.Machine

open Sys2Proof

/-! ## What the block sends out -/

/-- A completion (R352): bytes 0 to 23 as a little-endian number, then the trailer's INDEX, RING, STATUS, TYPE and SUB.
PHASE and LOST are added when the entry is written. -/
structure Completion where
  body : Nat := 0
  index : Nat := 0
  ring : Nat := 0
  status : Nat := 0
  typ : Nat := 0
  sub : Nat := 0
deriving DecidableEq, Repr

/-- What leaves the block, in the order in which it leaves: requests to host memory, messages, frames, pins. -/
inductive Output where
  /-- A completion written to a CQ (R352): CQ, producer index, host address, PHASE, LOST, entry. -/
  | completion (cq index addr : Nat) (phase lost : Bool) (c : Completion)
  /-- Data written to host memory: address, bytes, Relaxed Ordering attribute (R352). -/
  | hostWrite (addr : Nat) (data : List Byte) (relaxed : Bool)
  /-- An MSI-X message (R357): vector, address, data. -/
  | msix (vector addr data : Nat)
  /-- A read request for a doorbell block (R342). -/
  | doorbellFetch (block addr : Nat)
  /-- A read request for a descriptor (R344): ring, index, address. -/
  | descriptorFetch (ring index addr : Nat)
  /-- A read request of host memory for a command, a send or a Shuttle burst. -/
  | hostRead (addr len : Nat)
  /-- A failed read of host memory is reported through Advanced Error Reporting (R368). -/
  | aerReport
  /-- A configuration request is answered with Request Retry Status (R336). -/
  | configRetry
  /-- A frame leaving on a MAC, with a valid or an invalid FCS (R309, R310). -/
  | frameOut (mac : Nat) (data : List Byte) (badFcs : Bool)
  /-- A fragment of a preempted frame leaving on a MAC; the final one ends with the frame's FCS (R314). -/
  | fragment (mac : Nat) (data : List Byte) (final : Bool)
  /-- A pause frame: MAC, opcode, class-enable vector, quanta by priority (R313). -/
  | pauseOut (mac opcode vector : Nat) (quanta : List Nat)
  /-- A 66-bit block sent on a lane: its sync header and the 64 bits behind it, bit 0 first, scrambled but for a pair marker
  (R298, R300). -/
  | lineBlock (lane sync bits : Nat)
  /-- An upstream burst: grant start, length, power level, bytes from the preamble on (R94 to R106). -/
  | burst (start length level : Nat) (data : List Byte)
  /-- One PCM highway frame: the polarity of HWY_FS (true: active low), and the samples driven, by 256 × highway + slot (R320,
  R323). -/
  | pcmOut (fsLow : Bool) (samples : Sparse Nat)
  /-- A pulse on PPS_OUT: its second and its width in microseconds (R162). -/
  | pps (sec width : Nat)
deriving DecidableEq, Repr

/-! ## Pick (01_pick_timing.md) -/

/-- Pick generator states (the state table above R17). -/
inductive PickGen where
  | free | locked | flywheel
deriving DecidableEq, Repr

/-- A sweep whose export is running (R34, R36). -/
structure SweepExport where
  pick : Nat
  seq : Nat
  groups : Nat
  skipped : Nat
  flywheel : Bool
  jump : Bool
  cells : List Nat
deriving DecidableEq, Repr

/-- The pick generator, the pick counter and the sweep machine. -/
structure Pick where
  /-- PICK_STAT.STATE. -/
  gen : PickGen := .free
  /-- The 48-bit pick counter (R19). -/
  count : Nat := 0
  /-- Pick count of the commit point last begun: what completions and notifications carry (R28, R358). -/
  point : Nat := 0
  /-- Commit points since power-on (the model's own count of picks, unaffected by R19 and by resets). -/
  commits : Nat := 0
  /-- PICK_LEN.CLOCKS. -/
  len : Nat := 125000
  /-- Lengths of the last 64 locked picks, newest first. -/
  lockedLens : List Nat := []
  /-- Flywheel: fraction of a clock carried, in 1/256. -/
  flyCarry : Nat := 0
  /-- A lock waits for the next line boundary (R18). -/
  lockPending : Bool := false
  /-- The core clock was switched in the pick in progress, which keeps its end (R426). -/
  switched : Bool := false
  /-- Smallest and largest pick length since the last read of PICK_LEN_RANGE. -/
  range : Option (Nat × Nat) := none
  /-- PICK_LEN_RANGE has been read since reset. -/
  rangeRead : Bool := false
  /-- The header count of the pick that is arriving (R19, R63). -/
  headerCount : Option Nat := none
  /-- PICK_COMMIT_STAT.APPLIED and CARRIED (R25). -/
  applied : Nat := 0
  carried : Nat := 0
  /-- Sweep: the export that is running, the next SEQ, points skipped and a jump seen since the last record (R34 to R36). -/
  exporting : Option SweepExport := none
  seq : Nat := 0
  skipped : Nat := 0
  jumped : Bool := false
  /-- An overrun of the export has the next sweep point skipped (R29). -/
  skipNext : Bool := false
  /-- Core clock of the last commit point. -/
  began : Nat := 0
  /-- At the last commit point the activation state was WOVEN and the generator LOCKED (R150). -/
  wovenHere : Bool := false
deriving DecidableEq, Repr

/-! ## Modes, domains and the Tension arbiter (15_power_startup.md) -/

/-- Operating modes (R5). -/
inductive Mode where
  | off | calibrate | listen | active | doze | safe
deriving DecidableEq, Repr

/-- Progress of a DOZE entry (R414). -/
inductive DozePhase where
  | none | draining | entering
deriving DecidableEq, Repr

/-- Modes, clocks, supplies and domains. -/
structure Power where
  mode : Mode := .calibrate
  ready : Bool := false
  /-- The core clock runs from the core PLL (R426). -/
  clkPll : Bool := false
  corePllLock : Bool := false
  lanePllLock : Bool := false
  lineRef : Bool := false
  pwrFail : Bool := false
  /-- RESET_N is low. -/
  inReset : Bool := false
  /-- GLOBAL_PD_STAT: domains that are ON. -/
  isOn : Nat := 0xFFFFFFFF
  /-- Admitted wakes: domain, commit points left until ON (R421). -/
  wakes : Sparse Nat := []
  /-- Allowances switched off at the last commit point; none: no domain went off there (R419). -/
  offUnits : Option Nat := none
  /-- Domains whose switch-off was deferred and counted (R419). -/
  offDeferred : List Nat := []
  dozePhase : DozePhase := .none
  /-- The drain's accepting commit point has passed (R414 step 5). -/
  dozeAged : Bool := false
  /-- The ledger has started (R429). -/
  ledgerOn : Bool := false
  /-- GLOBAL_TEMP.NOW and MAX, and the mean of the previous pick, in 0.25 degrees. -/
  temp : Int := 0
  tempMax : Int := 0
  tempMean : Int := 0
  /-- A DOZE_ACK with ALLOW = 0 came into force in DOZE: leave DOZE from the next commit point (R415). -/
  recallPend : Bool := false
  /-- SAFE ended at the last commit point: the rows of R409 evaluate TARGET from the next one (R416). -/
  rowsOff : Bool := false
deriving DecidableEq, Repr

/-- State of a request to the Tension arbiter. -/
inductive ReqState where
  | idle | pending | granted
deriving DecidableEq, Repr

/-- A request (R431, R432, R434). -/
structure Req where
  state : ReqState := .idle
  units : Nat := 0
  /-- Commit points (Pick.commits) when it became pending: lower is older (R432). -/
  age : Nat := 0
  refused : Bool := false
  deferred : Bool := false
  /-- The grant is in use (from the commit point after the review that granted it, R431). -/
  inUse : Bool := false
  /-- Revoked at the last review: the unit leaves its high-draw state at the next commit point (R433). -/
  revoked : Bool := false
deriving DecidableEq, Repr

/-- The Tension arbiter. -/
structure Tension where
  reqs : Sparse Req := []
  total : Nat := 0
  rest : Nat := 0
  granted : Nat := 0
  leak : Nat := 0
  overBudget : Bool := false
  /-- The next review overran or its unit recovers: no new grant (R29, R445). -/
  skipReview : Bool := false
deriving DecidableEq, Repr

/-! ## Selvedge and the safety path (16_selvedge_safety.md) -/

/-- A report to Selvedge (R439). Class: 1 corrected, 2 contained, 3 fatal (R436). -/
structure Report where
  cls : Nat
  source : Nat
  code : Nat
  ctx : Nat
  rootSource : Nat
  rootCode : Nat
deriving DecidableEq, Repr

/-- A history entry (R440), with the core clock of its first report. -/
structure HistEntry where
  pick : Nat
  count : Nat
  cls : Nat
  isOpen : Bool
  source : Nat
  code : Nat
  ctx : Nat
  sources : Nat
  rootSource : Nat
  rootCode : Nat
  seq : Nat
  first : Nat
  /-- The commit point (Pick.commits) at which the close of the entry overran its budget (R443). -/
  late : Option Nat := none
deriving DecidableEq, Repr

/-- Recovery state of a unit (R445, R446). -/
inductive UnitSt where
  | ok | recovering | parked
deriving DecidableEq, Repr

/-- What Selvedge holds for one source. -/
structure UnitInfo where
  st : UnitSt := .ok
  /-- Recoveries that reports asked for since the last commit point: at most one, but one for every report of a source
whose limit is 0. -/
  start : Nat := 0
  /-- Commit points since the unit entered RECOVERING. -/
  age : Nat := 0
  /-- Commit points (their number) at which recoveries started, newest first (R446). -/
  times : List Nat := []
  /-- Code and context of the first uncleared contained report. -/
  code : Nat := 0
  ctx : Nat := 0
deriving DecidableEq, Repr

/-- Selvedge. -/
structure Selvedge where
  /-- Reports that wait, in order of arrival; at most 8 of one source (R439). -/
  waiting : List Report := []
  /-- The source served last (round-robin). -/
  rr : Nat := 0x28
  /-- The history, newest first, at most 32 entries. -/
  hist : List HistEntry := []
  seq : Nat := 0
  /-- PEND bits, source s in bit s (R444). -/
  pend : Nat := 0
  fatal : Bool := false
  units : Sparse UnitInfo := []
deriving DecidableEq, Repr

/-- The emission safety path. -/
structure Safety where
  latch : Bool := false
  locked : Bool := false
  hold : Bool := true
  proofOk : Bool := false
  proofSince : Bool := false
  reason : Nat := 0
  channel : Nat := 0
  /-- Commit points at which latches were set, newest first (R457). -/
  latchTimes : List Nat := []
  /-- Core clock of the first write of the clearing sequence (R456). -/
  clrFirst : Option Nat := none
  /-- An accepted clearing sequence waits for step 2 of the next commit point. -/
  clrPending : Bool := false
  /-- The LASER_EN ball is high; MPD_IN exceeds THRESH. -/
  enNow : Bool := false
  mpdNow : Bool := false
  /-- Time (State.ns) at which SAFE_CUT_N went low; none while it is high. -/
  cutSince : Option Nat := some 0
  vddSafe : Bool := true
  /-- SAFE is held although its latch was lost with VDD_SAFE (R455). -/
  lostLatch : Bool := false
  /-- The first proof test after the hold passed: SAFE may end (R409). -/
  holdPassed : Bool := false
  /-- Copies fed by the activation link (R450): TID, P, EQD, containers by entry, sequence number. -/
  tid : Nat := 1023
  pre : Nat := 32
  eqd : Nat := 0
  conts : Sparse Nat := []
  linkSeq : Nat := 0
  /-- Granted windows of the pending maps: first and last weft symbol on the timeline of each map (R451). -/
  windows : List (List (Int × Int)) := []
deriving DecidableEq, Repr

/-! ## Host interface (12_host_rings.md) -/

/-- Ring kinds (R338). -/
inductive RingKind where
  | off | tx | rx | cmd | cq | shuttle
deriving DecidableEq, Repr

/-- HOST_RING_STAT.STATE. -/
inductive RingState where
  | off | run | stalled | stopping
deriving DecidableEq, Repr

/-- A completion that waits on its ring: the descriptors it covers (first and last index), or none for TX_TS. -/
structure RingWait where
  first : Nat
  last : Nat
  stamp : Bool
  entry : Completion
deriving DecidableEq, Repr

/-- A ring (R338 to R345, R357, R478). For a ring the host produces, `db` is the last accepted INDEX, `next` the next
index to fetch, `done` the oldest index not completed. For a CQ, `db` is the accepted consumer index and `done` the
terminal's producer index. -/
structure Ring where
  kind : RingKind := .off
  state : RingState := .off
  log2 : Nat := 0
  base : Nat := 0
  cq : Nat := 0
  db : Nat := 0
  next : Nat := 0
  done : Nat := 0
  /-- Parity of R345; for a CQ, of the terminal's own writes. -/
  parity : Bool := false
  retry : Nat := 0
  irqEn : Bool := false
  vector : Nat := 0
  modCount : Nat := 1
  modTime : Nat := 0
  armed : Bool := false
  unsignalled : Nat := 0
  /-- The next entry written carries LOST (R356). -/
  lost : Bool := false
  /-- Completions that wait for an earlier one or for a free CQ entry. -/
  waits : List RingWait := []
  /-- A wait for a full CQ has been counted (R355). -/
  fullCounted : Bool := false
  /-- RX: buffers posted and not used, in index order: index, address, size. -/
  posted : List (Nat × Nat × Nat) := []
  /-- TX and SHUTTLE: descriptors dispatched and not completed, oldest first: index and descriptor. -/
  chain : List (Nat × Nat) := []
  /-- Segments of the oldest send that have been presented (R318). -/
  sent : Nat := 0
  /-- The read of the descriptor at `next` is in flight; a mismatch waits for its re-read (R345). -/
  reading : Bool := false
  mism : Bool := false
  /-- TX: the data of the oldest send has been asked for; requests of it that have not returned (R346, R367). -/
  asked : Bool := false
  reqs : Nat := 0
  /-- TX: what those reads returned, while a segmented send has segments left (R318). -/
  data : Option (List Byte) := none
  /-- TX: sends done whose TX_TS has not come yet (R349). -/
  stamps : Nat := 0
  /-- A descriptor that arrived and waits for room in the ring's CQ (R355). -/
  arrived : Option DescIn := none
  /-- RING_STOP commands that wait for this ring to enter OFF: their ring and index. -/
  stops : List (Nat × Nat) := []
deriving DecidableEq, Repr

/-- A validated command that waits for its commit point (R24, R25); `late` when the cut-off was missed. -/
structure CmdItem where
  desc : CmdDesc
  late : Bool
deriving DecidableEq, Repr

/-- A command whose work goes on after its commit point (R28, R362): its completion so far. -/
structure CmdWork where
  ring : Nat
  index : Nat
  code : Nat
  pick : Nat
  /-- Its descriptor and what its preparation read. -/
  desc : CmdDesc := ⟨0, 0, 0, none⟩
  /-- Status if the work has been decided already (a domain switch-off, a flush ...). -/
  status : Option Nat := none
  detail : Nat := 0
deriving DecidableEq, Repr

/-- Rings, doorbells, commands, MSI-X and the PCIe link. -/
structure HostIf where
  rings : Sparse Ring := []
  /-- Doorbell blocks whose fetch is in flight, and those to fetch once more (R342). -/
  inFlight : List Nat := []
  again : List Nat := []
  /-- Validated commands in the order in which their validation completed. -/
  cmds : List CmdItem := []
  work : List CmdWork := []
  /-- MSI-X table words by word index, and pending bits. -/
  msixTable : Sparse Nat := []
  msixPending : List Nat := []
  bme : Bool := false
  linkUp : Bool := false
  width : Nat := 0
  speed : Nat := 0
  /-- The configuration space (R335, R337), and reads reported through AER since its reset (R368). -/
  pcie : PcieCfg := {}
  aer : Nat := 0
  /-- Resets of the function so far (the model's own count): frames handed on before the last one complete nothing (R370). -/
  epoch : Nat := 0
deriving DecidableEq, Repr

/-! ## Warp receiver (02_warp_receiver.md) -/

/-- WARP_STAT.ALIGN. -/
inductive Align where
  | hunt | presync | sync
deriving DecidableEq, Repr

/-- A candidate (R53, R54): symbol position and occurrences seen; older candidates stand first. -/
structure Cand where
  pos : Nat
  seen : Nat
deriving DecidableEq, Repr

/-- A PM interval (R81, R82): number (the model's own), start count, marks and the nine bins. -/
structure PmInterval where
  id : Nat := 0
  valid : Bool := false
  suspect : Bool := false
  start : Nat := 0
  sat : Nat := 0
  bins : List Nat := []
deriving DecidableEq, Repr

/-- A PM second whose ES, SES or UAS is not assigned yet (R80): errored, severely errored, its intervals. -/
structure PmSecond where
  es : Bool
  ses : Bool
  quarter : Nat
  day : Nat
deriving DecidableEq, Repr

/-- Performance monitoring (R78 to R83). -/
structure Pm where
  /-- Intervals: current, previous 16 (newest first), current day, previous day; the next interval's number. -/
  cur : PmInterval := { id := 1, valid := true, suspect := true }
  prev : List PmInterval := []
  day : PmInterval := { id := 2, valid := true, suspect := true }
  prevDay : PmInterval := {}
  nextId : Nat := 3
  /-- The running second: uncorrectable and correctable codewords, corrected bits, header failures, marks. -/
  ucw : Nat := 0
  cw : Nat := 0
  bits : Nat := 0
  hdr : Nat := 0
  los : Bool := false
  lof : Bool := false
  lost : Bool := false
  /-- Commit point (Pick.commits) at which the last second ended. -/
  ended : Nat := 0
  /-- Seconds not assigned yet, oldest first; in unavailable time. -/
  seconds : List PmSecond := []
  unavail : Bool := false
  /-- Corrected bits short of 65,536 that the CORR_64K bin carries. -/
  rest : Nat := 0
  /-- Consecutive seconds towards clearing SD (R75). -/
  sdRun : Nat := 0
  /-- The intervals as they stood at the last commit point, by WARP_PM_SEL (R83). -/
  shot : List PmInterval := []
deriving DecidableEq, Repr

/-- The pick that arrives: accepted header (R63), poisoned codewords (R61), the de-encapsulator's next header. -/
structure PickRx where
  /-- The header passed its check. -/
  ok : Bool := false
  count : Nat := 0
  mapLen : Nat := 0
  msgLen : Nat := 0
  todRef : Bool := false
  quiet : Bool := false
  poison : List Nat := []
  /-- Info-stream offset of the next CLP header (R71); none at the partition end. -/
  walk : Option Nat := none
  /-- The header has been checked; the weft map has been handed to the parser. -/
  checked : Bool := false
  mapped : Bool := false
  /-- The codeword that comes next (R51). -/
  next : Nat := 0
deriving DecidableEq, Repr

/-- A reassembly context (R74): plaintext so far and commit points since the pick of its first fragment began. -/
structure Reasm where
  data : List Byte
  age : Nat
deriving DecidableEq, Repr

/-- The warp receiver. -/
structure Warp where
  /-- Defects (R75). -/
  los : Bool := true
  lof : Bool := true
  sd : Bool := false
  /-- Amplitude intervals in a row below THRESH and above THRESH + HYST. -/
  below : Nat := 0
  above : Nat := 0
  /-- Commit points since the last one at which LOS or LOF was declared, up to 8,000 (R100). -/
  sinceDef : Nat := 8000
  cdrLock : Bool := false
  align : Align := .hunt
  cands : List Cand := []
  /-- In SYNC: the PSync position and the misses in a row. -/
  pos : Nat := 0
  misses : Nat := 0
  /-- Last accepted header count, and picks since the pick that carried it (R64). -/
  last : Option (Nat × Nat) := none
  /-- A count that failed the count check alone (R65). -/
  odd : Option Nat := none
  rx : PickRx := {}
  /-- Full equaliser length in use (R43). -/
  full : Bool := false
  /-- Shadow coefficients (R45), 10-bit codes; a swap is pending, done and rejected since the last read (R401). -/
  shadow : List Nat := (List.range 34).map (fun n => if n = 7 then 256 else 0)
  swapPend : Bool := false
  swapDone : Bool := false
  swapRej : Bool := false
  /-- Correlators and EPOW of the last completed window, window length, running and valid (R401). -/
  corr : List Int := []
  epow : Nat := 0
  cwin : Nat := 1024
  winRun : Bool := false
  winOk : Bool := false
  /-- Reassembly contexts by stream (R74). -/
  reasm : Sparse (Option Reasm) := []
  pm : Pm := {}
deriving DecidableEq, Repr

/-! ## Weft transmitter (03_weft_bursts.md) -/

/-- A grant (R66). -/
structure Grant where
  container : Nat
  bh : Bool
  ms : Bool
  start : Nat
  len : Nat
  pl : Nat
deriving DecidableEq, Repr

/-- A queued upstream treadle message (R129, R131): TYPE, PART and bytes 4 to 51. -/
structure OutMsg where
  typ : Nat
  part : Nat
  payload : List Byte
deriving DecidableEq, Repr

/-- A frame or fragment placed in a section (R230, R260): its header as placed, its key index, its plaintext. -/
structure Placed where
  stream : Nat
  last : Bool
  typ : Nat
  key : Option Nat
  payload : List Byte
deriving DecidableEq, Repr

/-- A burst of an accepted map that has not ended. -/
structure Burst where
  /-- Granting map's pick count, EQD and P in force for the map, TID, TMK_U (empty: none), activation state RANGING. -/
  pick : Nat
  eqd : Nat
  pre : Nat
  tid : Nat
  key : List Byte
  ranging : Bool
  /-- Discovery burst: its TOKEN (R122). -/
  token : Option (List Byte)
  /-- Accepted grants in START order. -/
  grants : List Grant
  /-- LASER_EN rise and fall in symbols from W(N) (R94). -/
  rise : Int
  fall : Int
  /-- What Reed has placed so far, by section (R229, R230). -/
  fill : List (List Placed) := []
  /-- Latched (R99): burst header, contents of the sections, messages taken, REI. -/
  latched : Bool := false
  header : List Byte := []
  sections : List (List Byte) := []
  taken : List OutMsg := []
  rei : Nat := 0
  /-- WEFT_PL_CFG of the burst's level at the latch (R109). -/
  swing : Nat := 0
  /-- LASER_EN has risen. -/
  started : Bool := false
deriving DecidableEq, Repr

/-- The weft transmitter. -/
structure Weft where
  /-- Bursts not ended, in time order. -/
  bursts : List Burst := []
  /-- Last accepted burst: map's pick, EQD in force, LASER_EN fall (R93). -/
  last : Option (Nat × Nat × Int) := none
  /-- Uncorrectable codewords pending for the next header (R99). -/
  rei : Nat := 0
  /-- Commit points since a safety latch was cleared, up to 8,192 (R100). -/
  sinceClear : Nat := 8192
deriving DecidableEq, Repr

/-! ## Streams and their keys (R143, R260, R261) -/

/-- A stream of the active table: TYPE, container, weft index in force (R143). -/
structure StreamRec where
  typ : Nat
  container : Nat
  weftIdx : Nat
deriving DecidableEq, Repr

/-- A key as its slot in IDENT holds it: XOR-masked with the slot's own random value (R264). -/
structure Masked where
  data : List Byte := List.replicate 32 0
  mask : List Byte := []
deriving DecidableEq, Repr

/-- A stream key slot (R261, R263). -/
structure KeySlot where
  stream : Nat
  weft : Bool
  index : Nat
  key : Masked
  /-- Order of loading: a later load has a greater number. -/
  order : Nat
  /-- The commit point (Pick.commits) at which the slot is due for release (R263). -/
  retire : Option Nat := none
deriving DecidableEq, Repr

/-! ## Activation (04_activation.md) -/

/-- Activation states (R114). -/
inductive ActSt where
  | dark | listening | announced | ranging | woven | lapsed | held
deriving DecidableEq, Repr

/-- Keys that one derivation gives (R137), in their slots (R264). -/
structure SessionKeys where
  tmkD : Masked
  tmkU : Masked
  kek : Masked
deriving DecidableEq, Repr

/-- A timed change (R132). -/
inductive ChangeKind where
  | eqd (eqd pre : Nat) (act : Bool)
  | container (add : Bool) (c : Nat)
  | stream (add dn up : Bool) (typ stream container : Nat)
  | keySwitch (stream index : Nat)
  | keys (k : SessionKeys)
deriving DecidableEq, Repr

/-- An accepted change that is not in force yet: the pick at whose commit point it comes into force. -/
structure Change where
  due : Nat
  kind : ChangeKind
deriving DecidableEq, Repr

/-- What a message stages for the next commit point (R115): DISCOVER's EQD and P, a terminal ID, a stream key. -/
inductive Staged where
  | discover (eqd pre arm : Nat)
  | tid (t : Nat)
  | key (stream : Nat) (weft : Bool) (index : Nat) (key : List Byte)
  | doze (allow : Bool)
deriving DecidableEq, Repr

/-- The CHALLENGE exchange of a session (R133, R136). -/
structure Exchange where
  nonce : List Byte
  /-- The exchange is open from the commit point after `accepted` (Pick.commits) until its key derivation ends. -/
  isOpen : Bool
  accepted : Nat
  /-- The record waits to be ready (R133). -/
  building : Bool
  /-- Private and public X25519 key, once drawn; the signed record. -/
  priv : List Byte := []
  pub : List Byte := []
  record : List Byte := []
  /-- Record bytes 8 to 15 and 48 to 239 as in force at the commit point at which the CHALLENGE took effect (R274). -/
  facts : Option (List Byte × List Byte) := none
  /-- KEY_AGREE parts received: HE_PUB and EFFECTIVE, SIG_A, SIG_B; carrying pick and position of the completing part. -/
  part0 : Option (List Byte × Nat) := none
  sigA : Option (List Byte) := none
  sigB : Option (List Byte) := none
  echo : Nat × Nat := (0, 0)
  /-- Complete and checked: the shared secret Z. -/
  z : Option (List Byte) := none
  /-- HE_PUB of the exchange completed for this CHALLENGE. -/
  donePub : Option (List Byte) := none
  /-- APPLIED of its ACK. -/
  doneAt : Nat := 0
deriving DecidableEq, Repr

/-- The activation controller. -/
structure Act where
  st : ActSt := .dark
  /-- ACT_HELD, in AON (R119). -/
  held : Bool := false
  heldByStop : Bool := false
  attempts : Nat := 0
  backoff : Nat := 0
  /-- The back-off draw waits for the TRNG's output (R118, R269). -/
  backoffDue : Bool := false
  /-- Armed: commit points left until the arming lapses (R128). -/
  armed : Option Nat := none
  /-- Running timers: commit points since they started (R116). -/
  tAnnounce : Option Nat := none
  tKey : Option Nat := none
  tRange : Option Nat := none
  tLapse : Option Nat := none
  /-- Terminal ID in force. -/
  tid : Option Nat := none
  keys : Option SessionKeys := none
  heId : Nat := 0
  dozeOk : Bool := false
  serial : Nat := 0
  exch : Option Exchange := none
  /-- Accepted timed changes, in order of acceptance, and what is staged for the next commit point. -/
  changes : List Change := []
  staged : List Staged := []
  /-- Events that wait for the next commit point (R116). -/
  evStop : Bool := false
  evRelease : Bool := false
  evDeact : Bool := false
  evAnnounced : Bool := false
  evKeyed : Option SessionKeys := none
  /-- Outbound queue in queue order: at most 32 entries, and a DYING_GASP beyond them (R129, R131). -/
  queue : List OutMsg := []
  /-- The active stream table by 65,536 × direction (1 weft) + stream (R143). -/
  streams : Sparse (Option StreamRec) := []
  /-- What a domain wake writes back into WEFT_ENC (R413): EQD, P, containers by entry. -/
  eqd : Nat := 0
  pre : Nat := 32
  conts : Sparse Nat := []
deriving DecidableEq, Repr

/-! ## Time (05_time.md) -/

/-- A record of R149: pick count, T_cap in 2^-40 ns, EQD in force, and whether the activation state was WOVEN and the
pick generator LOCKED at the pick's commit point (R150). -/
structure TodRec where
  pick : Nat
  tcap : Nat
  eqd : Nat
  usable : Bool
deriving DecidableEq, Repr

/-- Where the counter and its unstepped copy stood at a commit point, after its steps, and by how much each later time-clock
cycle advances them (0 while they hold; R153). -/
structure TimeMark where
  clock : Nat
  tod : Nat
  raw : Nat
  inc : Nat
deriving DecidableEq, Repr

/-- The time unit. Counter values are in 2^-40 ns: (seconds × 10^9 + nanoseconds) × 2^40 + fraction (R145). -/
structure TimeU where
  /-- The time counter, and the copy that takes no step or load (R158). -/
  tod : Nat := 0
  raw : Nat := 0
  /-- TIME_STAT.RUN (R148). -/
  run : Bool := false
  /-- A write to TIME_INC_HI armed the staged INC (R147). -/
  incArmed : Bool := false
  /-- A load, a host step and a step of R152 wait for the next commit point; steps in 2^-16 ns (R148, R152). -/
  loadPend : Bool := false
  hostStep : Option Int := none
  autoStep : Option Int := none
  /-- The last 8 records of R149, newest first. -/
  recs : List TodRec := []
  /-- Commit points since the last used TOD (R154). -/
  sinceTod : Nat := 0
  /-- The next used TOD is the first since reset, a load or holdover entry (R152). -/
  fresh : Bool := true
  /-- The last 8 commit points, newest first, for timestamps of earlier instants (R153). -/
  marks : List TimeMark := []
  /-- TOD messages used in the pick in progress: OFS and REF_PICK, for the next commit point (R115, R151). -/
  todPend : List (Int × Nat) := []
  /-- Capture FIFOs of TS_CAP_0 and TS_CAP_1, oldest first, at most 8 (R163). -/
  cap0 : List Nat := []
  cap1 : List Nat := []
  /-- Seconds of the last PPS pulse (R162). -/
  lastPps : Option Nat := none
deriving DecidableEq, Repr

/-! ## Frames -/

/-- A frame with the metadata that travels with it (R155, R164, R174, R246, R349, R354). -/
structure Frame where
  /-- Bytes from the destination address to the last payload byte (R164). -/
  data : List Byte := []
  /-- SRC_TYPE: 0 MAC, 1 lane, 2 warp, 3 host; and SRC_ID (R174). -/
  srcType : Nat := 0
  srcId : Nat := 0
  /-- Warp stream ID; 0 for other sources. -/
  stream : Nat := 0
  /-- Ingress timestamp, where one was taken (R155). -/
  tsValid : Bool := false
  tsNs : Nat := 0
  tsSec : Nat := 0
  /-- Ingress instant on the unstepped copy of the time counter, in 2^-40 ns (R158). -/
  rawIn : Nat := 0
  /-- Deck generation taken at admission (R184), and the deck it used (true: deck B). -/
  gen : Nat := 0
  deckB : Bool := false
  shape : Nat := 0
  ptp : Bool := false
  ptpEvent : Bool := false
  /-- The action's STREAM, or that of a DIRECT send (R179, R348). -/
  upStream : Nat := 0xFFFF
  /-- A circuit frame of Draft (R327). -/
  circuit : Bool := false
  /-- CLP TYPE 0b10 for a management send (R348). -/
  mgmt : Bool := false
  /-- Spool handle and owner (R246). -/
  handle : Nat := 0xFFFFF
  owner : Nat := 0
  /-- TX_TS asked for: ring and index (R349); ONESTEP asked for (R157). -/
  tsReq : Option (Nat × Nat) := none
  oneStep : Bool := false
  /-- A DIRECT send whose TX_DONE comes when it is handed to Reed: first and last index, bytes (R349). -/
  sendDone : Option (Nat × Nat × Nat) := none
  /-- The function resets that its TX ring had seen (R370). -/
  epoch : Nat := 0
  /-- The Reed queue of a DIRECT send (R348). -/
  direct : Option Nat := none
  /-- In cut-through (R310): its length is LEN of its CLP frame header (R206). -/
  cut : Bool := false
  clpLen : Nat := 0
deriving DecidableEq, Repr

/-! ## Heddle, the Jacquard decks and the flow store (06_heddle.md) -/

/-- A deck's tables (R183, R185): entry image words by key 2^20 × TABLE + INDEX; an unlisted entry is all zero. -/
abbrev Deck := Sparse (List Nat)

/-- The action that a frame's classification resolved (R178 to R182). -/
inductive Verdict where
  /-- Not resolved yet: waits for its second pass. -/
  | again
  /-- Waits for the DRAM read of its flow key's miss. -/
  | miss
  /-- Discarded; its counter has counted. -/
  | drop
  /-- QUEUE: queue, colour after metering (0 green, 1 yellow, 2 red). -/
  | queue (q colour : Nat)
  /-- Slow path with a REASON. -/
  | slow (reason : Nat)
deriving DecidableEq, Repr

/-- A frame inside Heddle, from its admission by the arbiter until it leaves (R167). -/
structure Flight where
  frame : Frame
  /-- Number of its admission (the model's own). -/
  seq : Nat
  /-- Passes begun. -/
  passes : Nat
  tag : Nat
  verdict : Verdict
  /-- Pipeline of the last pass. -/
  pipe : Nat
  /-- Counted in NOPROF (R173). -/
  noProf : Bool := false
  /-- The action resolved by the pass in progress has MIRROR = 1 and its copy is due (R181). -/
  mirror : Bool := false
  /-- While it waits for the flow store: flow key, ternary, exact-match and default results. -/
  key : Nat := 0
  tern : Option Nat := none
  exact : Option Nat := none
  dflt : Option Nat := none
deriving DecidableEq, Repr

/-- Heddle: decks, swap state, input FIFOs and the reorder stage. -/
structure Heddle where
  deckA : Deck := []
  deckB : Deck := []
  /-- HEDDLE_STAT.ACTIVE, GEN, FROZEN. -/
  activeB : Bool := false
  gen : Nat := 0
  frozen : Bool := false
  /-- Commit points since the swap. -/
  swapAge : Nat := 0
  /-- Core clock of the swap. -/
  swapClock : Nat := 0
  /-- A swap was requested at step 3 of the commit point in progress. -/
  swapAsked : Bool := false
  /-- A command of the commit point in progress will swap the decks (R191). -/
  swapDue : Bool := false
  /-- A RULE_WRITE has taken effect since the last commit point's commands (R191, log entry 14). -/
  ruled : Bool := false
  /-- A DECK_LOAD is running: ring and index of its command. -/
  loading : Option (Nat × Nat) := none
  /-- Result of the window's last operation. -/
  result : Nat := 0
  /-- Input FIFO of each source, oldest first; source key 512 × SRC_TYPE + SRC_ID; the host is one source, 1536. -/
  fifos : Sparse (List Frame) := []
  /-- Frames admitted and not yet out, oldest first. -/
  flights : List Flight := []
  /-- Frames admitted so far (the model's own number). -/
  admitted : Nat := 0
  /-- The source key served last by the arbiter. -/
  rr : Nat := 0
  /-- Core clock of the last host frame taken (R165). -/
  lastHost : Option Nat := none
deriving DecidableEq, Repr

/-- HEDDLE_FLOW_STAT.STATE. -/
inductive FlowSt where
  | off | invalid | clearing | valid | rehash
deriving DecidableEq, Repr

/-- A flow entry in the cache (R193, R195, R200). -/
structure FlowLine where
  /-- The 40-byte flow key as a big-endian number. -/
  key : Nat
  action : Nat
  static : Bool
  host : Bool
  pkts : Nat
  oct : Nat
  last : Nat
  /-- Not yet in the store: queued for placement. -/
  placing : Bool
  /-- Holds a stash line. -/
  stash : Bool
deriving DecidableEq, Repr

/-- The flow store. -/
structure FlowStore where
  st : FlowSt := .off
  /-- Cache lines, most recently used first. -/
  cache : List FlowLine := []
  /-- Keys queued for placement, oldest first (R197, R198, R200). -/
  placeQ : List Nat := []
  /-- Keys of pending misses, oldest first (R196). -/
  missQ : List Nat := []
  /-- HEDDLE_FLOW_STAT.OCCUPANCY. -/
  occ : Nat := 0
  /-- FLOW_INSERT commands whose completion waits for placement: key, ring, index, pick. -/
  inserts : List (Nat × Nat × Nat × Nat) := []
  /-- Rehash: new SEED, next slot of the old region, command ring, index and pick (R202). -/
  newSeed : Nat := 0
  scan : Nat := 0
  job : Option (Nat × Nat × Nat) := none
  /-- FULL and PLACE_FAIL counted since the repeat began (R199). -/
  fullRep : Nat := 0
  failRep : Nat := 0
deriving DecidableEq, Repr

/-! ## Reed (07_reed.md) -/

/-- A frame in a queue: enqueue time (R215) and the queue whose frames of its stream must leave first (R228). -/
structure QItem where
  frame : Frame
  enq : Nat
  /-- The enqueue time in nanoseconds (State.ns). -/
  enqNs : Nat
  barrier : Option Nat
  /-- Counted in GATE_HOLD (R233). -/
  gateHeld : Bool := false
deriving DecidableEq, Repr

/-- A queue's contents and tags (R225). -/
structure Queue where
  items : List QItem := []
  s : Nat := 0
  f : Nat := 0
  /-- Held out of selection by R223 since its tags were set. -/
  heldOut : Bool := false
deriving DecidableEq, Repr

/-- A container's frame that is partly sent (R230): its queue, the frame, CLP payload bytes already sent. -/
structure Continuation where
  queue : Nat
  item : QItem
  sent : Nat
deriving DecidableEq, Repr

/-- A meter's buckets in millionths of a byte and the time of their last update in ns (R211). -/
structure MeterBuckets where
  c : Nat := 0
  p : Nat := 0
  last : Nat := 0
deriving DecidableEq, Repr

/-- A port's gate list state (R233, R234): operational length, cycle and start; entry in force; pending start. -/
structure Gate where
  operLen : Nat := 0
  cycle : Nat := 0
  start : Nat := 0
  entry : Nat := 0
  /-- Pending: start instant S in ns of the time counter, cycle, list length. -/
  pending : Option (Nat × Nat × Nat) := none
  armed : Bool := false
deriving DecidableEq, Repr

/-- Reed. Records are lists of image words; an unlisted record is all zero. -/
structure Reed where
  /-- Queue records staged and in force, meter records staged and in force (R209, R236). -/
  qrecS : Sparse (List Nat) := []
  qrec : Sparse (List Nat) := []
  mrecS : Sparse (List Nat) := []
  mrec : Sparse (List Nat) := []
  /-- Meters whose record was written since the last commit point (R211). -/
  mDirty : List Nat := []
  meters : Sparse MeterBuckets := []
  /-- Shaper sets: standby and in force (R221). -/
  shStby : Sparse (List Nat) := []
  shIn : Sparse (List Nat) := []
  /-- C and P in 1/512 byte (R217). -/
  buckets : Sparse (Int × Int) := []
  /-- The buckets before the core clock of the last selection, and the destinations that selected on that clock (R220). -/
  clockBuckets : Sparse (Int × Int) := []
  clockDests : List Nat := []
  queues : Sparse Queue := []
  /-- Virtual time by 8 × destination + level; destination 16384 × DEST_TYPE + DEST_ID (R225). -/
  vt : Sparse Nat := []
  /-- Continuations by container ID. -/
  conts : Sparse (Option Continuation) := []
  /-- Gate entries by 256p + e: GATES and INTERVAL. -/
  gateAdmin : Sparse (Nat × Nat) := []
  gateOper : Sparse (Nat × Nat) := []
  gates : Sparse Gate := []
  /-- A SHAPER_LOAD runs: ring and index. -/
  loading : Option (Nat × Nat) := none
  /-- A swap waits for step 6. -/
  swapAsked : Bool := false
  /-- Refill ticks begun since the last commit point (R217). -/
  tick : Nat := 0
  /-- Result of the window's last operation. -/
  result : Nat := 0
deriving DecidableEq, Repr

/-! ## Spool (08_spool.md) -/

/-- State of a buffer (R246). -/
inductive BufSt where
  | free | held | freeing | quarantined
deriving DecidableEq, Repr

/-- A buffer: state, owner field, whether an uncorrectable error was found in it (R242), and what the receiving port
counts of its frame: source (R247), priority and bytes (R304, R313). -/
structure Buf where
  st : BufSt := .free
  owner : Nat := 0
  bad : Bool := false
  src : Nat := 0
  prio : Nat := 0
  bytes : Nat := 0
  /-- The bytes that the frame's unit wrote, from the buffer's SRAM address on (R245, R246). -/
  data : List Byte := []
  /-- Selvedge source of the bank whose uncorrectable error made it bad (R242). -/
  badBy : Nat := 0
deriving DecidableEq, Repr

/-- Spool. FREE, HELD, USE and OUTST are counted from the buffers' states. -/
structure Spool where
  /-- The layout in force: SIZE (16-byte units) and COUNT of each enabled pool, pool 0 first (R243, R244). -/
  pools : List (Nat × Nat) := []
  /-- Per-buffer state memory by handle (R246); unlisted buffers are FREE. -/
  bufs : Sparse Buf := []
  /-- SPOOL_POOL_LOW by pool. -/
  low : Sparse Nat := []
  /-- The state memory as it stood at the start of the core clock of the last request (R252). -/
  clockBufs : Sparse Buf := []
  /-- Ports served on that clock, in their order. -/
  clockPorts : List Nat := []
  /-- Round-robin pointer among ports of equal priority: the port served first next (R251). -/
  rr : Nat := 0
deriving DecidableEq, Repr

/-! ## Cipher engine, identity engine and images (09_security.md) -/

/-- A GCM context 0 to 14 that holds an open message (R266): key, IV, additional data, data in and data out so far. -/
structure GcmCtx where
  key : Masked
  iv : List Byte
  aad : List Byte
  inp : List Byte
  outp : List Byte
deriving DecidableEq, Repr

/-- The CTR_DRBG of an engine (R267): what it was seeded with last, and the requests served since. -/
structure Drbg where
  seed : List Byte := []
  requests : Nat := 0
deriving DecidableEq, Repr

/-- An image command that runs (R278, R280): none, IMAGE_INSTALL in phase 1 to 5 with the header that CHECK read, or
IMAGE_ACTIVATE before its load ends, loaded, and after its swap. -/
inductive ImgJob where
  | none
  | install (phase : Nat) (header : List Byte)
  | activate
  | loaded
  | swapped (pick : Nat)
deriving DecidableEq, Repr

/-- CIPHER_0, CIPHER_1, the identity engine, TRNG, OTP, flash and image in force. -/
structure Sec where
  /-- Stream key slots in use, at most 8,192 (R261). -/
  keys : List KeySlot := []
  /-- Order number of the next load. -/
  keyOrder : Nat := 0
  /-- Host key slots (R266, R282); an unlisted slot holds 32 zero bytes. -/
  hostKeys : Sparse Masked := []
  /-- Contexts 0 to 14; unlisted contexts are free (R266). Context 15 holds the request suspended last (R265). -/
  ctxs : Sparse (Option GcmCtx) := []
  /-- LINE and MSG jobs of CIPHER_1 since the last host GCM request began (R265). -/
  lineJobs : Nat := 0
  /-- The DRBG of each engine (R267), by engine number. -/
  drbg : Sparse Drbg := []
  /-- The raw bit seen last and how often it has come in a row (the repetition count test of R268); the last conditioned
  block. -/
  rct : Option (Bool × Nat) := none
  trngOut : List Byte := []
  /-- The host job that the identity engine performs now: ring and index (R270). -/
  idJob : Option (Nat × Nat) := none
  /-- Consecutive TRNG blocks that failed; output is stopped; a block has passed since reset or restart (R269). -/
  trngFails : Nat := 0
  trngStopped : Bool := false
  trngOk : Bool := false
  /-- Engines whose DRBG runs past its reseed limit (R267), bit by engine number. -/
  stale : Nat := 0
  /-- OTP (R272): identity key seed, customer code key, whether it has been written, fuses blown. -/
  idSeed : List Byte := List.replicate 32 0
  custKey : List Byte := List.replicate 32 0
  custWritten : Bool := false
  otpArb : Nat := 0
  /-- The counter that images are tested against: it follows `otpArb` at each commit point (R281). -/
  arbTest : Nat := 0
  /-- Flash (R275, R276): slots A and B, boot record copies 0 and 1; empty means erased. -/
  slotA : List Byte := []
  slotB : List Byte := []
  rec0 : List Byte := []
  rec1 : List Byte := []
  /-- Bytes of the image in force; empty with NO_IMAGE (R277, R280). -/
  image : List Byte := []
  /-- Microcode (TYPE 0x02) and default tables (TYPE 0x03): in force, and the standby copies (R280). -/
  ucode : List Byte := []
  ucodeStby : List Byte := []
  tables : List Byte := []
  tablesStby : List Byte := []
  /-- SEC_BOOT: RUNNING, PREFERRED, FALLBACK, NO_IMAGE, A_VALID, B_VALID; the boot ROM has chosen. -/
  running : Bool := false
  preferred : Bool := false
  fallback : Bool := false
  noImage : Bool := false
  aValid : Bool := false
  bValid : Bool := false
  chosen : Bool := false
  /-- The image command that runs, and SEC_IMG_PROG.PHASE. -/
  job : ImgJob := .none
  /-- SHA-512 over the code that Skein core 3 runs (R404); empty while it holds none. -/
  codeDigest : List Byte := []
deriving DecidableEq, Repr

/-! ## User ports (10_user_ports.md) -/

/-- LANE_STAT.STATE. -/
inductive LaneSt where
  | off | refused | pwrWait | train | down | up
deriving DecidableEq, Repr

/-- A serial lane. -/
structure Lane where
  st : LaneSt := .off
  /-- Sync, block lock or (mode 9) slot lock held. -/
  lock : Bool := false
  /-- Mode 9: block lock held, under which the slots are sought (R298). -/
  block : Bool := false
  /-- The last 58 bits that the transmit scrambler has put out, the latest in bit 0 (R300). -/
  scr : Nat := 0
  /-- Mode 9: the time (State.ns) of the last pair of markers sent, in fifths of a nanosecond; 524,288 of them are 16,384 blocks
  (R298). -/
  marks : Nat := 0
  /-- The Yonov frame in transmission (R287, R301). -/
  tx : Option Frame := none
  /-- Commit points before the pick in which the CTLE setting moved last (R290). -/
  stepped : Option Nat := none
  /-- The comma's code-group as far as the aligner's window holds it: its bits and how many (R296). -/
  comma : Nat × Nat := (0, 0)
  /-- Last YIDLE carried RDY = 1, and YIDLEs with RDY = 1 counted towards 128 (R303). -/
  peerRdy : Bool := false
  idles : Nat := 0
  /-- The partner holds the lane; the terminal is sending HOLD = 1 (R304). -/
  holdRx : Bool := false
  holdTx : Bool := false
  ctle : Nat := 0
  /-- Code-group boundary that the comma aligner set (R296). -/
  boundary : Option Nat := none
  /-- Pair markers seen in a row at one phase, and missed in a row (R298). -/
  markers : Nat := 0
  missed : Nat := 0
  /-- YMGMT FIFOs, oldest first, at most 16 payloads of 7 bytes (R305). -/
  txFifo : List Nat := []
  rxFifo : List Nat := []
deriving DecidableEq, Repr

/-- A frame in transmission on a MAC: its queue, level and the frame. -/
structure TxFrame where
  queue : Nat
  level : Nat
  frame : Frame
  /-- Bytes that have left in fragments (R314, R315). -/
  sent : Nat := 0
deriving DecidableEq, Repr

/-- A MAC. -/
structure MacU where
  link : Bool := false
  remoteFault : Bool := false
  localFault : Bool := false
  verified : Bool := false
  /-- Levels paused by the partner, each with the time (State.ns) at which its pause runs out (R312). -/
  paused : Sparse Nat := []
  /-- Counts for which an XOFF is in force: priorities, or 0 alone in mode 1 (R313). -/
  xoff : List Nat := []
  /-- Quanta by count of a pause frame that waits for the end of the frame in transmission (R313). -/
  pauseDue : List (Nat × Nat) := []
  /-- The frame in transmission, and a preempted one (R315). -/
  tx : Option TxFrame := none
  preempted : Option TxFrame := none
deriving DecidableEq, Repr

/-- Lanes, MACs and address filters. -/
structure Ports where
  lanes : Sparse Lane := []
  macs : Sparse MacU := []
  /-- Address filter entries by 32 × MAC + entry: VALID × 2^48 + address; staged, in force, and armed (R308). -/
  filtS : Sparse Nat := []
  filt : Sparse Nat := []
  armed : List Nat := []
deriving DecidableEq, Repr

/-! ## Draft (11_draft_tdm.md) -/

/-- Draft: pages A and B by 2^20 × TABLE + INDEX (R329), swap state, samples and held circuit frames. -/
structure Draft where
  pageA : Deck := []
  pageB : Deck := []
  /-- DRAFT_STAT.ACTIVE, FROZEN, SWAP_PEND; page of the coming upstream exchange (R332). -/
  activeB : Bool := false
  frozen : Bool := false
  swapPend : Bool := false
  upB : Bool := false
  /-- A DRAFT_LOAD is running: ring and index. -/
  loading : Option (Nat × Nat) := none
  /-- Result of the window's last operation. -/
  result : Nat := 0
  /-- Circuit frames that passed in this pick, and those of the pick before (by STREAM). -/
  held : Sparse (Option (List Byte)) := []
  before : Sparse (Option (List Byte)) := []
  /-- HWY_DO samples of the last exchange, and HWY_DI samples of the last complete frame (0xFF unlisted), by slot. -/
  outs : Sparse Nat := []
  ins : Sparse Nat := []
  /-- HWY_DO samples of the frame before, which a slot that is not exchanged in time repeats (R323). -/
  lastOuts : Sparse Nat := []
  /-- The frame that is being sent: HWY_FS is active low, and the slots with DRIVE = 1 (R320). -/
  sending : Option (Bool × List Nat) := none
  /-- DRAFT_HWY_EN in force during the pick in progress, and during the pick before. -/
  hwyEn : Nat := 0
  hwyEnWas : Nat := 0
  /-- The slots from this one on of the frame just complete are not exchanged upstream in time (R30, R323). -/
  lateUp : Option Nat := none
deriving DecidableEq, Repr

/-! ## Shuttle (13_shuttle.md) -/

/-- A circular window that a channel keeps (R378): base, size in force and pending size as powers of two, position. -/
structure ShWin where
  base : Nat
  log2 : Nat
  pend : Option Nat
  pos : Nat
deriving DecidableEq, Repr

/-- A descriptor in progress: ring, index, descriptor, bytes processed, first difference, status once it has ended. -/
structure ShJob where
  ring : Nat
  index : Nat
  word : Nat
  bytes : Nat := 0
  mism : Option Nat := none
  status : Option Nat := none
deriving DecidableEq, Repr

/-- A Shuttle channel. -/
structure ShChan where
  /-- The channel has started (R371). -/
  live : Bool := false
  job : Option ShJob := none
  src : Option ShWin := none
  dst : Option ShWin := none
  /-- WIN_RESET was written while a descriptor was in progress. -/
  winReset : Bool := false
  /-- Consecutive bursts for which the channel was ready and not served (R379). -/
  wait : Nat := 0
deriving DecidableEq, Repr

/-- Shuttle. -/
structure Shuttle where
  chans : Sparse ShChan := []
  /-- The channel served last. -/
  rr : Nat := 15
deriving DecidableEq, Repr

/-! ## Skein (14_skein.md) -/

/-- Core states (R387). -/
inductive SkSt where
  | halted | run | wait | fault | calibrate
deriving DecidableEq, Repr

/-- A Skein core: the programming model, loop and return stacks, delay slots, memories and banks. -/
structure SkCore where
  st : SkSt := .halted
  pc : Nat := 0
  d : Vector (BitVec 16) 16 := Vector.replicate 16 0
  a : Vector (BitVec 40) 2 := Vector.replicate 2 0
  x : Vector (BitVec 14) 8 := Vector.replicate 8 0
  m : Vector (BitVec 16) 8 := Vector.replicate 8 0
  /-- SR: Z, N, SAT, AOV, RHO, IE in bits 0 to 5 (R399). -/
  sr : BitVec 16 := 0x10
  /-- LC, LS, LE of the innermost loop, the saved outer loop, and loops open (R397). -/
  lc : Nat := 0
  ls : Nat := 0
  le : Nat := 0
  outer : Option (Nat × Nat × Nat) := none
  level : Nat := 0
  /-- The core stands between two iterations of its repeat block (R398). -/
  edge : Bool := false
  /-- Delay slots still to execute and the address that follows them (R396). -/
  slots : Nat := 0
  target : Option Nat := none
  /-- Return stack, newest first, at most 4. -/
  stack : List Nat := []
  ipc : Nat := 0
  isr : BitVec 16 := 0
  ien : BitVec 8 := 0
  ipend : BitVec 8 := 0
  imem : Sparse (BitVec 32) := []
  xmem : Sparse (BitVec 16) := []
  ymem : Sparse (BitVec 16) := []
  /-- Active bank (SKEIN_CORE_STAT.BANK), and the bank that the core runs: they differ until its safe point (R403). -/
  bank : Bool := false
  runBank : Bool := false
  staged : Bool := false
  noCode : Bool := false
  /-- The core clock is 1.0 GHz; it follows the grant at commit points (R386). -/
  full : Bool := false
  /-- RUN came into force as 0: the core halts at its next safe point. -/
  haltAsk : Bool := false
  /-- A RESET was written while RUN is 1: the core starts again at the next commit point. -/
  restart : Bool := false
deriving DecidableEq, Repr

/-! ## The whole state -/

/-- The state of the block. -/
structure State where
  /-- Commands that wait, first in, first out. -/
  pending : List Instr := []
  /-- Core clocks since power-on (the clock of R423 and R426). -/
  now : Nat := 0
  /-- Nanoseconds since power-on: a core clock is 1 ns on the core PLL and 5 ns on the oscillator (R423, R426). -/
  ns : Nat := 0
  /-- The DRAM behind the terminal's port: bytes by address; an unlisted byte reads 0 (R472 to R474). -/
  dram : List Host.Cell := []
  /-- What the last register read returned to the host. -/
  hostRead : Word := 0
  /-- Registers by BAR0 offset: the staged copy, which a read returns (R22). -/
  stg : Sparse Word := []
  /-- Registers by BAR0 offset: the copy in force. -/
  cur : Sparse Word := []
  /-- 64-bit counters by key (R31): sweep group times 2^20 plus position. -/
  cnt : Sparse Nat := []
  /-- Holding registers of the counters, by the offset of the low register whose read filled them (R11). -/
  hold : Sparse Nat := []
  /-- Saturation bits of the counters (R31). -/
  sat : Sparse Bool := []
  /-- Free values drawn so far: the index of the next draw from Config's free streams (the model's own field). -/
  draws : Nat := 0
  /-- What the block has sent out, oldest first. -/
  out : List Output := []
  pick : Pick := {}
  power : Power := {}
  tension : Tension := {}
  selvedge : Selvedge := {}
  safety : Safety := {}
  host : HostIf := {}
  spool : Spool := {}
  heddle : Heddle := {}
  flow : FlowStore := {}
  reed : Reed := {}
  sec : Sec := {}
  warp : Warp := {}
  weft : Weft := {}
  act : Act := {}
  draft : Draft := {}
  shuttle : Shuttle := {}
  /-- Skein cores 0 to 3. -/
  skein : Vector SkCore 4 := #v[{ st := .calibrate }, {}, {}, {}]
  time : TimeU := {}
  ports : Ports := {}
deriving DecidableEq, Repr

/-- Why the block stops. No command of the table stops: this reason is raised by no meaning (safe: it adds no
behaviour); the type is inhabited so that statements can say that it never occurs. -/
inductive Fault where
  /-- Raised by nothing. -/
  | none
deriving DecidableEq, Repr

/-- Why a command has no meaning. -/
inductive Refusal where
  /-- Raised only by an arm of Machine/Dispatch.lean whose command has no meaning yet (safe). -/
  | notModelled (mnemonic : String)
deriving DecidableEq, Repr

/-- The block right after reset (R422, R423): CALIBRATE on the 200 MHz oscillator, every domain on, every register at
the reset value of its table, every memory zero, no command waiting. -/
def State.reset : State := {}

end Sys2Proof.Machine
end

