-- ==== Sys2Proof/Machine/Ops.lean ====
section
/-! DEFINITION. Machine/Ops.lean: the operations every unit shares: registers and their copies, domains and sources,
counters, free values, byte lists, reports to Selvedge, the output log. -/

namespace Sys2Proof.Machine

open Sys2Proof

/-! ## Byte lists -/

/-- The number a little-endian byte list spells (R13). -/
def leNat : List Byte → Nat
  | [] => 0
  | b :: t => b.toNat + 256 * leNat t

/-- The number a big-endian byte list spells (R12). -/
def beNat (l : List Byte) : Nat := l.foldl (fun a b => a * 256 + b.toNat) 0

/-- `n` bytes of a number, little-endian. -/
def leBytes : Nat → Nat → List Byte
  | 0, _ => []
  | n + 1, x => BitVec.ofNat 8 x :: leBytes n (x / 256)

/-- `n` bytes of a number, big-endian. -/
def beBytes (n x : Nat) : List Byte := (leBytes n x).reverse

/-- `n` bytes from offset `o`; bytes beyond the end read 0. -/
def slice (l : List Byte) (o n : Nat) : List Byte :=
  let t := (l.drop o).take n
  t ++ List.replicate (n - t.length) 0

/-- Byte `o`; beyond the end 0. -/
def byteAt (l : List Byte) (o : Nat) : Nat := (l.getD o 0).toNat

/-- Big-endian number of `n` bytes at offset `o`. -/
def beAt (l : List Byte) (o n : Nat) : Nat := beNat (slice l o n)

/-- Little-endian number of `n` bytes at offset `o`. -/
def leAt (l : List Byte) (o n : Nat) : Nat := leNat (slice l o n)

/-- Replace the bytes from offset `o` by `d`. -/
def patch (l : List Byte) (o : Nat) (d : List Byte) : List Byte :=
  l.take o ++ d ++ l.drop (o + d.length)

/-! ## The register table -/

/-- Offset `a` is an instance of the row. -/
def rowHit (r : RegRow) (a : Nat) : Bool :=
  if r.stride = 0 then a == r.base
  else decide (r.base ≤ a) && (a - r.base) % r.stride == 0 && decide ((a - r.base) / r.stride < r.count)

/-- The row of the register at BAR0 offset `a` (R475). -/
def findRow (a : Nat) : Option RegRow := (blockRegs (a / 0x100000)).find? (fun r => rowHit r a)

/-- The instance number of offset `a` in its row. -/
def rowIndex (r : RegRow) (a : Nat) : Nat := if r.stride = 0 then 0 else (a - r.base) / r.stride

/-- Reset value of TENSION_REQ_CFG[r] (R431): PRIO in [1:0], REVOKE in [4]. -/
def reqCfgReset (r : Nat) : Nat :=
  if r ≤ 1 then 3
  else if r ≤ 17 then 1
  else if r ≤ 20 then 0x12
  else if r = 21 then 0x10
  else if r < 32 then 0
  else 2

/-- Reset value of the register at offset `a`: its table's, with the arrays whose reset depends on the instance. -/
def regReset (a : Nat) : Word :=
  if 0x01200100 ≤ a ∧ a < 0x01200200 then BitVec.ofNat 32 (reqCfgReset ((a - 0x01200100) / 4))
  else if a = Reg.warpEqTap 7 then 0x100
  else if a = Reg.weftPlCfg 0 then 0x15E
  else if a = Reg.weftPlCfg 1 then 0xFA
  else if a = Reg.weftPlCfg 2 then 0xAF
  else if a = Reg.weftPlCfg 3 then 0x7D
  else if Reg.spoolSrcOwner 0 ≤ a ∧ a ≤ Reg.spoolSrcOwner 50 then BitVec.ofNat 32 ((a - Reg.spoolSrcOwner 0) / 4)
  else if a = Reg.hostKickMap 0 then 0xFF
  else match findRow a with
    | some r => r.reset
    | none => 0

/-- The register's value in force. -/
def rd (s : State) (a : Nat) : Nat := (sget (regReset a) s.cur a).toNat

/-- The register's staged value, which a read returns (R22). -/
def rdS (s : State) (a : Nat) : Nat := (sget (regReset a) s.stg a).toNat

/-- Field [hi:lo] in force. -/
def fld (s : State) (a hi lo : Nat) : Nat := bits (rd s a) hi lo

/-- Field [hi:lo] as staged. -/
def fldS (s : State) (a hi lo : Nat) : Nat := bits (rdS s a) hi lo

/-- A one-bit field in force. -/
def flag (s : State) (a n : Nat) : Bool := (rd s a).testBit n

/-- Number `x` with bits [hi:lo] replaced by `v`. -/
def insBits (x hi lo v : Nat) : Nat :=
  x - bits x hi lo * 2 ^ lo + (v % 2 ^ (hi + 1 - lo)) * 2 ^ lo

/-- Write the staged copy. -/
def stage (s : State) (a v : Nat) : State :=
  { s with stg := sput (regReset a) s.stg a (BitVec.ofNat 32 v) }

/-- Write the copy in force. -/
def force (s : State) (a v : Nat) : State :=
  { s with cur := sput (regReset a) s.cur a (BitVec.ofNat 32 v) }

/-- Write both copies: an immediate field, or a value the terminal itself sets. -/
def setReg (s : State) (a v : Nat) : State := force (stage s a v) a v

/-- Write field [hi:lo] of both copies. -/
def setFld (s : State) (a hi lo v : Nat) : State :=
  force (stage s a (insBits (rdS s a) hi lo v)) a (insBits (rd s a) hi lo v)

/-- Set one bit of both copies. -/
def setBit (s : State) (a n : Nat) : State := setFld s a n n 1

/-- Clear one bit of both copies. -/
def clrBit (s : State) (a n : Nat) : State := setFld s a n n 0

/-! ## Domains and sources -/

/-- Domain `d` is ON (R417). -/
def domOn (s : State) (d : Nat) : Bool := s.power.isOn.testBit d

/-- The power domain that the register line names (R14, R417). SKEIN_WIN_DATA follows the selected core. -/
def regDomain (s : State) (a : Nat) : Nat :=
  if a = Reg.skeinWinData then 28 + fldS s Reg.skeinWinSel 31 30
  else match findRow a with
    | some r =>
      match r.dom with
      | .fixed d => d
      | .lane => 23 + rowIndex r a / 8
      | .mac => 25 + rowIndex r a / 16
      | .selLane => 23 + fldS s Reg.laneCntSel 3 0 / 8
      | .selMac => 25 + fldS s Reg.macCntSel 4 0 / 16
      | .skein => 28 + rowIndex r a
    | none => 3

/-- The source that a register access event names (R477). -/
def regSource (s : State) (a : Nat) : Nat :=
  match findRow a with
  | none => 0x1D
  | some _ =>
    let d := regDomain s a
    match a / 0x100000 with
    | 0x00 => 0x00
    | 0x01 => 0x01
    | 0x02 => if d = 4 then 0x02 else if d = 5 then 0x03 else 0x05
    | 0x03 => if d = 7 then 0x07 else 0x06
    | 0x04 => 0x08
    | 0x05 => 0x09
    | 0x06 => if d = 10 then 0x0A else 0x0D
    | 0x08 => 0x14
    | 0x0A => 0x0F
    | 0x0B => 0x17
    | 0x0C => if d = 26 then 0x19 else 0x18
    | 0x0D => if d = 24 then 0x1B else 0x1A
    | 0x0E => 0x1C
    | 0x0F => 0x1E
    | 0x10 => 0x1F
    | 0x11 => if a < 0x01101000 then 0x20 + (d - 28) else if a < 0x01101100 then 0x20 + fldS s Reg.skeinWinSel 31 30 else 0x23
    | 0x12 => 0x24
    | 0x13 => 0x27
    | 0x14 => 0x26
    | _ => 0x0E

/-! ## Counters (R11, R31) -/

/-- Key of the counter at position `n` of sweep group `g`. -/
def cntKey (g n : Nat) : Nat := g * 0x100000 + n

/-- The value at which a counter stops. -/
def cntMax : Nat := 0xFFFFFFFFFFFFFFFF

/-- Add `k` to the counter with key `key`: it stops at its maximum, and its saturation bit sets as it reaches it (R31, log entry
13). -/
def countKey (s : State) (key k : Nat) : State :=
  let v := sget 0 s.cnt key + k
  if v < cntMax then { s with cnt := sput 0 s.cnt key v }
  else { s with cnt := sput 0 s.cnt key cntMax, sat := sput false s.sat key true }

/-- Add `k` to counter `n` of group `g`. -/
def countBy (s : State) (g n k : Nat) : State := countKey s (cntKey g n) k

/-- Add 1 to counter `n` of group `g`. -/
def count (s : State) (g n : Nat) : State := countBy s g n 1

/-- The value of counter `n` of group `g`. -/
def cntVal (s : State) (g n : Nat) : Nat := sget 0 s.cnt (cntKey g n)

/-! ## Free values and the output log -/

/-- The next free value (Config), and the state that has drawn it. -/
def draw (s : State) : Nat × State := (Config.freeValue s.draws, { s with draws := s.draws + 1 })

/-- `n` bytes of the next free draw. -/
def drawBytes (s : State) (n : Nat) : List Byte × State :=
  ((List.range n).map (Config.freeByte s.draws), { s with draws := s.draws + 1 })

/-- Append to the output log. -/
def emit (s : State) (o : Output) : State := { s with out := s.out ++ [o] }

/-! ## Reports to Selvedge (R436 to R439) -/

/-- Class of a code (R438). An OVERRUN of source 0x26 is fatal. -/
def codeClass (source code : Nat) : Nat :=
  if code = 0x020 then (if source = 0x26 then 3 else 2)
  else if code = 0x011 ∨ code = 0x012 ∨ code = 0x040 ∨ code = 0x060 ∨ code = 0x070 ∨ code = 0x090 then 2
  else if 0x091 ≤ code ∧ code ≤ 0x0A3 then 3
  else 1

/-- Hand a report to Selvedge: each source holds at most 8 waiting reports; a further one is lost, counted in
REPORT_LOST, and sets SELVEDGE_STAT.LOST (R439). -/
def arrive (s : State) (r : Report) : State :=
  if (s.selvedge.waiting.filter (fun q => q.source == r.source)).length < 8 then
    { s with selvedge := { s.selvedge with waiting := s.selvedge.waiting ++ [r] } }
  else setBit (count s 17 7) Reg.selvedgeStat 1

/-- Report with a named root (R439). -/
def raiseRoot (s : State) (source code ctx rootSource rootCode : Nat) : State :=
  arrive s ⟨codeClass source code, source, code, ctx, rootSource, rootCode⟩

/-- Report that names itself as root (R439). -/
def raiseEv (s : State) (source code ctx : Nat) : State := raiseRoot s source code ctx source code

/-- Report whose context word no rule states: the word is a free value (log entry 10). -/
def raiseFree (s : State) (source code : Nat) : State :=
  let (x, s') := draw s
  raiseEv s' source code (x % 2 ^ 32)

/-- A refused write or command: PROG_ERR (R438). -/
def progErr (s : State) (source : Nat) : State := raiseFree s source 0x001

/-- A unit exceeded a per-pick budget: its PICK_OVERRUN bit and the OVERRUN event with the core clocks used (R30). -/
def overrunEv (s : State) (bit source clocks : Nat) : State :=
  raiseEv (setBit s Reg.pickOverrun bit) source 0x020 (clocks % 2 ^ 32)

/-! ## Lists of numbers -/

/-- The list 0, 1, ..., n - 1 folded over a state. -/
def forUpTo (n : Nat) (s : State) (f : Nat → State → State) : State :=
  (List.range n).foldl (fun t i => f i t) s

/-- Bits that are set in `x` among the first `n`, ascending. -/
def bitList (n x : Nat) : List Nat := (List.range n).filter (fun i => x.testBit i)

/-- Selvedge holds the unit in state OK (R445). -/
def unitOk (s : State) (src : Nat) : Bool := (sget ({} : UnitInfo) s.selvedge.units src).st == .ok

end Sys2Proof.Machine
end

