-- ==== Sys2Proof/Machine/Rings.lean ====
section
/-! DEFINITION. Machine/Rings.lean: completion rings: free entries, writing an entry, MSI-X moderation, notifications,
and the posting of descriptor completions in descriptor order (12_host_rings.md). -/

namespace Sys2Proof.Machine

open Sys2Proof

/-- Ring `r`. -/
def ringAt (s : State) (r : Nat) : Ring := sget {} s.host.rings r

/-- Write ring `r` back. -/
def setRing (s : State) (r : Nat) (x : Ring) : State :=
  { s with host := { s.host with rings := sput {} s.host.rings r x } }

/-- a − b on 16-bit indices (R339). -/
def idxSub (a b : Nat) : Nat := (a % 65536 + 65536 - b % 65536) % 65536

/-- The next 16-bit index. -/
def idxNext (a : Nat) : Nat := (a + 1) % 65536

/-- Ring `c` is a CQ in RUN. -/
def isCqRun (s : State) (c : Nat) : Bool := (ringAt s c).kind == .cq && (ringAt s c).state == .run

/-- Unconsumed entries of a CQ. -/
def cqUsed (x : Ring) : Nat := idxSub x.done x.db

/-- Free entries of CQ `c`: 2^n − 1 less the unconsumed ones (R355); none while Bus Master Enable is 0 (R368) or the function
is in D3hot (R335). -/
def cqFree (s : State) (c : Nat) : Nat :=
  if s.host.bme && !s.host.pcie.d3hot && isCqRun s c then 2 ^ (ringAt s c).log2 - 1 - cqUsed (ringAt s c) else 0

/-! ## Outstanding non-posted requests (R335, R367) -/

/-- The tags that the configuration grants: 14, 10 or 8 bits. -/
def tagLimit (s : State) : Nat := if s.host.pcie.tag14 then 4096 else if s.host.pcie.tag10 then 768 else 256

/-- A figure of R367 scaled to the tags. -/
def tagScale (s : State) (x : Nat) : Nat := x * tagLimit s / 4096

/-- Reserve of requester `k`: 0 doorbell and descriptor reads, 1 command reads, 2 TX frame data, 3 Shuttle. -/
def reqReserve (s : State) (k : Nat) : Nat := tagScale s ([256, 128, 512].getD k 0)

/-- Maximum of requester `k`. -/
def reqMax (s : State) (k : Nat) : Nat := tagScale s ([1024, 512, 4096].getD k (fld s Reg.hostReadQuota 12 0))

/-- Commands whose work reads host memory (R362). -/
def workReads (code : Nat) : Bool := [0x40, 0x50, 0x70, 0x60, 0x63, 0x64, 0x65, 0x68].contains code

/-- Outstanding requests of requester `k`. A Shuttle burst's read returns within its own step. -/
def reqUsed (s : State) (k : Nat) : Nat :=
  match k with
  | 0 => s.host.inFlight.length + (s.host.rings.filter (fun e => e.2.reading)).length
  | 1 => (s.host.work.filter (fun w => workReads w.code)).length
  | 2 => (s.host.rings.map (fun e => e.2.reqs)).foldl (· + ·) 0
  | _ => 0

/-- Requests that requester `k` may issue now: what is left of its reserve, and of the capacity that nobody reserves up to
its maximum (R367). -/
def reqRoom (s : State) (k : Nat) : Nat :=
  let past := fun j => reqUsed s j - reqReserve s j
  let left := tagLimit s - (reqReserve s 0 + reqReserve s 1 + reqReserve s 2) - (past 0 + past 1 + past 2 + past 3)
  min (reqReserve s k - reqUsed s k + left) (reqMax s k - reqUsed s k)

/-- The sizes of the read requests for `n` bytes: none exceeds Max Read Request Size (R335). -/
def readChunks (s : State) (n : Nat) : Nat := let m := 128 * 2 ^ s.host.pcie.mrrs; (n + m - 1) / m

/-- Issue the read requests for `n` bytes at `addr`. -/
def emitReads (s : State) (addr n : Nat) : State :=
  let m := 128 * 2 ^ s.host.pcie.mrrs
  (List.range (readChunks s n)).foldl (fun s i => emit s (.hostRead (addr + i * m) (min m (n - i * m)))) s

/-! ## MSI-X (R335, R337, R357) -/

/-- Reset value of an MSI-X table word: the vector control word resets with its mask bit set (the standard layout). -/
def msixReset (i : Nat) : Nat := if i % 4 = 3 then 1 else 0

/-- Word `i` of the MSI-X table. -/
def msixWord (s : State) (i : Nat) : Nat := sget (msixReset i) s.host.msixTable i

/-- Send the message of vector `v`, or set its pending bit while it or the function is masked or the function may issue no
request (R335, R368); with MSI-X not enabled it sends none (the standard rules, log entry 74). -/
def sendMsix (s : State) (v : Nat) : State :=
  if !s.host.pcie.msixEn then s
  else if !s.host.bme || s.host.pcie.d3hot || s.host.pcie.msixMask || (msixWord s (4 * v + 3)).testBit 0 then
    if s.host.msixPending.contains v then s
    else { s with host := { s.host with msixPending := s.host.msixPending ++ [v] } }
  else
    count (emit s (.msix v (msixWord s (4 * v) + msixWord s (4 * v + 1) * 2 ^ 32) (msixWord s (4 * v + 2)))) 14 18

/-- Send CQ `c`'s message where its count is reached, or at once with MOD_TIME = 0 (R357). -/
def signalCq (s : State) (c : Nat) : State :=
  let x := ringAt s c
  if x.irqEn && x.armed && decide (0 < x.unsignalled) && (decide (x.modCount ≤ x.unsignalled) || x.modTime == 0) then
    sendMsix (setRing s c { x with armed := false, unsignalled := 0 }) x.vector
  else s

/-! ## Writing an entry -/

/-- Write an entry into CQ `c` at its producer index (R340, R352, R356), then moderate. -/
def cqWrite (s : State) (c : Nat) (e : Completion) : State :=
  let x := ringAt s c
  let i := x.done
  let i' := idxNext i
  let x' := { x with done := i', lost := false, unsignalled := x.unsignalled + 1
                     parity := if i' % 2 ^ x.log2 = 0 then !x.parity else x.parity }
  signalCq (setRing (emit s (.completion c i (x.base + 32 * (i % 2 ^ x.log2)) (!x.parity) x.lost e)) c x') c

/-- A notification is lost: counted in NOTIFY_DROP, HOST_STAT.NOTIFY_LOST set; a CQ in RUN marks its next entry (R356). -/
def notifyDrop (s : State) (c : Nat) (mark : Bool) : State :=
  let s := setBit (count s 14 14) Reg.hostStat 9
  if mark && isCqRun s c then setRing s c { ringAt s c with lost := true } else s

/-- Ring `c` is the sweep ring of an enabled sweep (R34). -/
def sweepOwns (s : State) (c : Nat) : Bool :=
  flag s Reg.pickSweepCtrl 31 && fld s Reg.pickSweepCtrl 24 16 == c

/-- A NOTIFY entry: bytes 0 to 5 the pick count, bytes 8 to 23 the payload (R358). -/
def notifyEntry (s : State) (c sub payload : Nat) : Completion :=
  { body := s.pick.point + payload * 2 ^ 64, ring := c, typ := 7, sub := sub }

/-- Post a notification on ring `c`, or discard it (R34, R356). -/
def notify (s : State) (c sub payload : Nat) : State :=
  if sweepOwns s c then notifyDrop s c false
  else if 0 < cqFree s c then cqWrite s c (notifyEntry s c sub payload)
  else notifyDrop s c true

/-- Post a pair of notifications when two entries are free, or discard it as one (R358). -/
def notifyPair (s : State) (c : Nat) (sub1 pay1 : Nat) (e2 : Completion) : State :=
  if sweepOwns s c then notifyDrop s c false
  else if 1 < cqFree s c then cqWrite (cqWrite s c (notifyEntry s c sub1 pay1)) c e2
  else notifyDrop s c true

/-- Notifications of register `a` (ENABLE or NOTIFY in [31], RING at [lo+8:lo]). -/
def notifyReg (s : State) (a lo sub payload : Nat) : State :=
  if flag s a 31 then notify s (fld s a (lo + 8) lo) sub payload else s

/-! ## Descriptor completions in descriptor order (R366) -/

/-- The counters of a posted entry (counter table of 12_host_rings.md). -/
def countEntry (s : State) (e : Completion) : State :=
  let s := if e.status = 4 then count s 14 17 else s
  match e.typ with
  | 1 => if e.status = 0 then countBy (count s 14 7) 14 8 (bits e.body 18 0) else s
  | 3 => if e.status = 0 then countBy (count s 14 9) 14 10 (bits e.body 93 80) else s
  | 4 => count s 14 (if e.status = 0 then 11 else 12)
  | _ => s

/-- The completion may be posted now: its first descriptor is the oldest not completed; a TX_TS follows its TX_DONE. -/
def waitReady (x : Ring) (w : RingWait) : Bool :=
  if w.stamp then decide (idxSub x.done (idxNext w.last) < 0x8000) else w.first == x.done

/-- Post what may be posted on ring `r`, at most `n` entries. -/
def drainRing : Nat → State → Nat → State
  | 0, s, _ => s
  | n + 1, s, r =>
    let x := ringAt s r
    match x.waits.find? (waitReady x) with
    | none => s
    | some w =>
      if 0 < cqFree s x.cq then
        let x' := { x with waits := x.waits.erase w, fullCounted := false
                           done := if w.stamp then x.done else idxNext w.last }
        drainRing n (countEntry (cqWrite (setRing s r x') x.cq w.entry) w.entry) r
      else if !x.fullCounted && s.host.bme && isCqRun s x.cq then
        setRing (count s 14 13) r { x with fullCounted := true }
      else s

/-- Post on every ring that names CQ `c`, lower rings first. -/
def drainCq (s : State) (c : Nat) : State :=
  (s.host.rings.map (·.1)).foldl
    (fun t r => if (ringAt t r).cq = c ∧ (ringAt t r).kind ≠ .cq then drainRing ((ringAt t r).waits.length) t r else t) s

/-- Hand a completion to ring `r`: it is posted as soon as every earlier descriptor is completed and its CQ has room. -/
def post (s : State) (r : Nat) (w : RingWait) : State :=
  let x := ringAt s r
  if x.kind = .off then s
  else drainRing (x.waits.length + 1) (setRing s r { x with waits := x.waits ++ [w] }) r

/-- A CMD_DONE completion (R353): pick count, CODE, DETAIL. -/
def cmdEntry (r i code pick status detail : Nat) : Completion :=
  { body := pick + code * 2 ^ 48 + detail % 2 ^ 32 * 2 ^ 64, index := i, ring := r, status := status, typ := 4 }

/-- Complete command `i` of ring `r`. -/
def cmdPost (s : State) (r i code pick status detail : Nat) : State :=
  post s r ⟨i, i, false, cmdEntry r i code pick status detail⟩

end Sys2Proof.Machine
end

