-- ==== Sys2Proof/Machine/Time.lean ====
section
/-! DEFINITION. Machine/Time.lean: the time counter, time from the head end, PPS and captures (05_time.md). -/

namespace Sys2Proof.Machine

open Sys2Proof

/-- Replace the unit's state. -/
def setTime (s : State) (x : TimeU) : State := { s with time := x }

/-- One nanosecond, one second and the counter's modulus in 2^-40 ns (R145). -/
def nsUnit : Nat := 2 ^ 40
def secUnit : Nat := 10 ^ 9 * nsUnit
def todModulus : Nat := 2 ^ 48 * secUnit

/-- Seconds, nanoseconds and the upper 32 bits of the fraction. -/
def todSec (t : Nat) : Nat := t / secUnit % 2 ^ 48
def todNs (t : Nat) : Nat := t % secUnit / nsUnit
def todFrac (t : Nat) : Nat := t % nsUnit / 2 ^ 8

/-- Add a signed amount to the counter, modulo its range. -/
def todAdd (t : Nat) (d : Int) : Nat := (((t : Int) + d) % (todModulus : Int)).toNat

/-- INC in force, and staged (R146, R147). -/
def timeInc (s : State) : Nat := rd s Reg.timeIncHi * 2 ^ 32 + rd s Reg.timeIncLo
def timeIncStaged (s : State) : Nat := rdS s Reg.timeIncHi * 2 ^ 32 + rdS s Reg.timeIncLo

/-- INC lies within 0.9995 to 1.0005 (R146). -/
def incOk (i : Nat) : Bool := decide (9995 * nsUnit ≤ 10000 * i) && decide (10000 * i ≤ 10005 * nsUnit)

/-- The time unit is on and serves its neighbours (R445). -/
def timeOn (s : State) : Bool := domOn s 22 && unitOk s 0x09

/-- The counter runs over `n` core clocks (R145, R148). -/
def timeAdvance (n : Nat) (s : State) : State :=
  if s.power.clkPll && s.time.run && domOn s 22 then
    setTime s { s.time with tod := (s.time.tod + n * timeInc s) % todModulus, raw := (s.time.raw + n * timeInc s) % todModulus }
  else s

/-- Counter and unstepped copy as they read `back` 1/64 time-clock cycles ago. An instant on the cycle of a step or load
belongs to the stretch before it (R153). -/
def todAt (s : State) (back : Nat) : Nat × Nat :=
  let x := s.time
  let t := 64 * s.now - back
  match x.marks.find? (fun m => decide (64 * m.clock < t)), x.marks.getLast? with
  | some m, _ => ((m.tod + (t - 64 * m.clock) * m.inc / 64) % todModulus, (m.raw + (t - 64 * m.clock) * m.inc / 64) % todModulus)
  | none, some m => (m.tod, m.raw)
  | none, none =>
    let d : Int := if x.run then -((back * timeInc s / 64 : Nat) : Int) else 0
    (todAdd x.tod d, todAdd x.raw d)

/-- By how much the current time-clock cycle advanced the counter (R145, R148). -/
def cycleInc (s : State) : Nat :=
  match s.time.marks.find? (fun m => decide (m.clock < s.now)) with
  | some m => m.inc
  | none => if s.time.run then timeInc s else 0

/-- The notifications of R154. -/
def timeNotify (s : State) (sub payload : Nat) : State := notifyReg s Reg.timeCtrl 16 sub payload

/-! ## Step 2 of a commit point (R147, R148, R152, R153) -/

/-- Apply a step in 2^-16 ns. -/
def timeStep (s : State) (d : Int) : State :=
  let s := setTime s { s.time with tod := todAdd s.time.tod (d * 2 ^ 24) }
  timeNotify (count (setBit s Reg.timeStat 3) 3 4) 0x10 (unsigned 64 d)

/-- Apply a load: it discards every step (R153). -/
def timeLoad (s : State) : State :=
  let t := ((fld s Reg.timeSetSecHi 15 0 * 2 ^ 32 + rd s Reg.timeSetSecLo) * 10 ^ 9 + rd s Reg.timeSetNs) * nsUnit
  let s := setTime s { s.time with tod := t % todModulus, loadPend := false, hostStep := none, autoStep := none, fresh := true }
  timeNotify (clrBit (setBit s Reg.timeStat 4) Reg.timeStat 1) 0x11 0

/-- A TOD used in the pick that ends takes effect: OFS, SYNCED, the end of holdover, and whether the counter steps (R151,
R152, R154). -/
def todIn (s : State) (e : Int × Nat) : State :=
  let u := unsigned 64 e.1
  let s := setReg (setReg (setReg s Reg.timeOfsLo (u % 2 ^ 32)) Reg.timeOfsHi (u / 2 ^ 32)) Reg.timeOfsPick (e.2 % 2 ^ 32)
  let s := setBit s Reg.timeStat 1
  let s := if flag s Reg.timeStat 2 then timeNotify (clrBit s Reg.timeStat 2) 0x13 0 else s
  let step := flag s Reg.timeCtrl 1 && (s.time.fresh || decide (rd s Reg.timeStepThresh * 65536 ≤ e.1.natAbs))
  setTime s { s.time with sinceTod := 0, fresh := false, autoStep := if step then some e.1 else s.time.autoStep }

/-- An armed INC comes into force (R147); a reserved one, where TIME_INC_LO was written behind the write that armed it, is
refused here (R10, R146, log entry 81). -/
def incIn (s : State) : State :=
  if !s.time.incArmed then s
  else
    let s := setTime s { s.time with incArmed := false }
    if incOk (timeIncStaged s) then force (force s Reg.timeIncLo (rdS s Reg.timeIncLo)) Reg.timeIncHi (rdS s Reg.timeIncHi)
    else progErr s 0x09

/-- The time unit's part of step 2. -/
def timeCommit (s : State) : State :=
  if !domOn s 22 then s
  else
    let s := incIn s
    let s := setTime s { s.time with sinceTod := s.time.sinceTod + 1 }
    let pend := s.time.todPend
    let s := pend.foldl todIn (setTime s { s.time with todPend := [] })
    let s := if s.time.loadPend then timeLoad s
      else
        let a := s.time.autoStep
        let h := s.time.hostStep
        let s := setTime s { s.time with autoStep := none, hostStep := none }
        let s := match a with
          | some d => timeStep s d
          | none => s
        match h with
          | some d => timeStep s d
          | none => s
    let s := if s.power.clkPll && !s.time.run then setBit (setTime s { s.time with run := true }) Reg.timeStat 0 else s
    let m : TimeMark := ⟨s.now, s.time.tod, s.time.raw, if s.time.run && s.power.clkPll then timeInc s else 0⟩
    setTime s { s.time with marks := (m :: s.time.marks).take 8 }

/-! ## Time from the head end (R149 to R154) -/

/-- The record of R149 for a pick whose header passed with TOD_REF = 1. `back`: 1/64 time-clock cycles since the first
symbol of its PSync arrived at the pins. -/
def timeRecord (s : State) (pick eqd back : Nat) : State :=
  if timeOn s then
    let r : TodRec := ⟨pick, (todAt s back).1 / 2 ^ 34 * 2 ^ 34, eqd, s.pick.wovenHere⟩
    setTime s { s.time with recs := (r :: s.time.recs).take 8 }
  else s

/-- OFS in 2^-16 ns (R151): the listing's exact value lies in [fst, fst + 1); `snd` where it is exact. -/
def ofsOf (s : State) (eqdRef tcap sec ns frac : Nat) : Int × Bool :=
  let den : Int := 248832 * 2 ^ 32 * 2 ^ 24
  let rtt : Int := ((fld s Reg.timeEqdZero 23 0 : Nat) : Int) - eqdRef
  let down : Int := rtt * 655360000 * (2 ^ 31 + signed 32 (rd s Reg.timeAsym)) * 2 ^ 24
  let fixed : Int := signed 32 (rd s Reg.timeDnOfs) * den
  let the : Int := ((sec * 10 ^ 9 + ns) * 2 ^ 16 : Nat) * den + ((frac * 2 ^ 8 : Nat) : Int) * (248832 * 2 ^ 32)
  let cap : Int := (tcap : Int) * (248832 * 2 ^ 32)
  let n := down + fixed + the - cap
  (n / den, n % den == 0)

/-- A TOD message that the activation controller accepted (R150, R151): its offset takes effect at the next commit point
(R115). -/
def timeTod (s : State) (refPick sec ns frac : Nat) : State :=
  if !timeOn s then s
  else
    let s := count s 3 0
    match s.time.recs.find? (fun r => r.pick == refPick) with
    | none => count s 3 2
    | some r =>
      let z := fld s Reg.timeEqdZero 23 0
      if !r.usable || z == 0 || decide (z < r.eqd) then count s 3 3
      else
        let (lo, exact) := ofsOf s r.eqd r.tcap sec ns frac
        let (x, s) := draw s
        let ofs := if exact || x % 2 == 0 then lo else lo + 1
        let s := count s 3 1
        setTime s { s.time with todPend := s.time.todPend ++ [(ofs, refPick)] }

/-- HOLDOVER_ENTRY: TIME_TOD_TIMEOUT picks have passed without a used TOD (R154). -/
def execHoldoverEntry (s : State) : Host.Outcome State Fault Refusal :=
  .next (if domOn s 22 && !flag s Reg.timeStat 2 && decide (fld s Reg.timeTodTimeout 23 0 ≤ s.time.sinceTod) then
    let s := setTime (setBit (clrBit s Reg.timeStat 1) Reg.timeStat 2) { s.time with fresh := true }
    timeNotify s 0x12 0
  else s)

/-! ## PPS_OUT and the capture inputs (R162, R163) -/

/-- On this time-clock cycle the nanoseconds, advancing by INC, pass OFS_NS (R162): a step or load passes nothing. -/
def ppsPasses (s : State) : Bool :=
  let v := (todAt s 0).1
  let o := rd s Reg.timePpsOfs * nsUnit
  let turns := fun (x : Nat) => (x + secUnit - o) / secUnit
  decide (turns (v - cycleInc s) < turns v)

/-- PPS_PULSE: PPS_OUT rises as the nanoseconds pass OFS_NS; a pulse whose seconds are not greater than the last one's is
suppressed. -/
def execPpsPulse (s : State) : Host.Outcome State Fault Refusal :=
  .next (if timeOn s && s.time.run && flag s Reg.timePpsCfg 31 && ppsPasses s then
    let sec := todSec (todAt s 0).1
    if (match s.time.lastPps with | some l => decide (sec ≤ l) | none => false) then count s 3 12
    else setTime (emit s (.pps sec (fld s Reg.timePpsCfg 8 0))) { s.time with lastPps := some sec }
  else s)

/-- The capture FIFO of input `i`. -/
def capFifo (s : State) (i : Nat) : List Nat := if i = 0 then s.time.cap0 else s.time.cap1
def setCapFifo (s : State) (i : Nat) (l : List Nat) : State :=
  let s := setTime s (if i = 0 then { s.time with cap0 := l } else { s.time with cap1 := l })
  setFld s Reg.timeCapStat (4 * i + 3) (4 * i) l.length

/-- TS_CAP_EDGE: an edge on TS_CAP_0 or TS_CAP_1 (R163). -/
def execTsCapEdge (i : Nat) (falling : Bool) (s : State) : Host.Outcome State Fault Refusal :=
  .next (if timeOn s && decide (i < 2) && flag s Reg.timeCapCfg (2 * i) && flag s Reg.timeCapCfg (2 * i + 1) == falling then
    if (capFifo s i).length < 8 then count (setCapFifo s i (capFifo s i ++ [(todAt s 0).1])) 3 (9 + i) else count s 3 11
  else s)

/-- A read of TIME_NOW_NS (R145, R163). -/
def timeNowRead (s : State) : State :=
  let t := s.time.tod
  let s := setReg (setReg (setReg s Reg.timeNowSecLo (todSec t % 2 ^ 32)) Reg.timeNowSecHi (todSec t / 2 ^ 32)) Reg.timeNowFrac (todFrac t)
  { s with hostRead := BitVec.ofNat 32 (todNs t) }

/-- A read of TIME_CAP_NS[i] (R163). -/
def timeCapRead (i : Nat) (s : State) : State :=
  match capFifo s i with
  | [] => { s with hostRead := 0xFFFFFFFF }
  | t :: rest =>
    let s := setReg (setReg (setReg s (Reg.timeCapSecLo i) (todSec t % 2 ^ 32)) (Reg.timeCapSecHi i) (todSec t / 2 ^ 32)) (Reg.timeCapFrac i) (todFrac t)
    { setCapFifo s i rest with hostRead := BitVec.ofNat 32 (todNs t) }

/-! ## Timestamps (R155) -/

/-- MAC `p` takes timestamps. -/
def portStamps (s : State) (p : Nat) : Bool := timeOn s && flag s (Reg.timePortCfg p) 0

/-- Ingress and egress latency of port `p` in 2^-40 ns. -/
def portIng (s : State) (p : Nat) : Int := signed 16 (fld s (Reg.timePortLat p) 15 0) * 2 ^ 36
def portEgr (s : State) (p : Nat) : Int := signed 16 (fld s (Reg.timePortLat p) 31 16) * 2 ^ 36

/-- Ingress timestamp of a frame on MAC `p` whose timestamp point lies `back` 1/64 time-clock cycles back: counter and
unstepped copy (R155, R158). -/
def ingressStamp (s : State) (p back : Nat) : Nat × Nat := (todAdd (todAt s back).1 (-portIng s p), todAdd (todAt s back).2 (-portIng s p))

/-- Egress timestamp of a frame on MAC `p`. -/
def egressStamp (s : State) (p back : Nat) : Nat × Nat := (todAdd (todAt s back).1 (portEgr s p), todAdd (todAt s back).2 (portEgr s p))

/-- A difference of two instants, taken the short way round the counter's range: latencies may make it negative. -/
def todDiff (a b : Nat) : Int :=
  let d := ((a : Int) - b) % (todModulus : Int)
  if d < (todModulus : Int) / 2 then d else d - todModulus

end Sys2Proof.Machine
end

