-- ==== Sys2Proof/Machine/Crc.lean ====
section
/-! DEFINITION. Machine/Crc.lean: the cyclic redundancy checks of the line and of Heddle. -/

namespace Sys2Proof.Machine

open Sys2Proof

/-- One bit into a CRC register of `w` bits, most significant bit first. -/
def crcBit (w poly : Nat) (r : Nat) (b : Bool) : Nat :=
  let t := xor (r.testBit (w - 1)) b
  let r := r * 2 % 2 ^ w
  if t then r ^^^ poly else r

/-- One byte into a CRC register, bit 7 first, without reflection. -/
def crcByte (w poly : Nat) (r : Nat) (b : Byte) : Nat :=
  (List.range 8).foldl (fun r i => crcBit w poly r (b.getLsbD (7 - i))) r

/-- A CRC register over bytes. -/
def crcOf (w poly init : Nat) (l : List Byte) : Nat := l.foldl (crcByte w poly) init

/-- CRC-32 with polynomial 0x04C1_1DB7 in the bit order of R64, no final complement. -/
def crc32 (init : Nat) (l : List Byte) : Nat := crcOf 32 0x04C11DB7 init l

/-- The CRC-32 of R64: register starts at all ones, remainder complemented. -/
def crc32c (l : List Byte) : Nat := 0xFFFFFFFF - crc32 0xFFFFFFFF l

end Sys2Proof.Machine
end

