-- ==== Sys2Proof/Machine/LineCode.lean ====
section
/-! DEFINITION. Machine/LineCode.lean: line coding: the CLP header (R69, R70), the base matrix and the upstream LDPC code
(R58, R105), the scrambler (R52, R106), preamble and delimiter (R95, R96). -/

namespace Sys2Proof.Machine

open Sys2Proof

/-! ## CLP header -/

/-- The 13-bit header check over header bits [63:13] (R70). -/
def frameHec (h : Nat) : Nat := (List.range 51).foldl (fun r i => crcBit 13 0x1499 r (h.testBit (63 - i))) 0x1FFF

/-- Fields of a CLP header (R69). -/
def clpLen (h : Nat) : Nat := bits h 63 50
def clpStream (h : Nat) : Nat := bits h 49 34
def clpKey (h : Nat) : Nat := bits h 33 32
def clpLast (h : Nat) : Bool := h.testBit 31
def clpType (h : Nat) : Nat := bits h 30 29
def clpEnc (h : Nat) : Bool := h.testBit 28

/-- The header passes its HEC. -/
def clpOk (h : Nat) : Bool := bits h 12 0 == frameHec h

/-- The 8 bytes of a CLP header. -/
def clpHeader (len stream key : Nat) (last : Bool) (typ : Nat) (enc : Bool) : List Byte :=
  let h := len % 2 ^ 14 * 2 ^ 50 + stream % 2 ^ 16 * 2 ^ 34 + key % 4 * 2 ^ 32 + b2n last * 2 ^ 31 + typ % 4 * 2 ^ 29 + b2n enc * 2 ^ 28
  beBytes 8 (h + frameHec h)

/-! ## The quasi-cyclic code -/

/-- The base matrix, columns 0 to 22, rows across (R58). -/
def baseLow : List (List (Option Nat)) :=
  [[some 311, none, some 47, none, some 502, some 198, none],
   [none, some 96, none, some 430, none, some 12, some 367],
   [some 255, none, some 540, none, some 83, none, some 171],
   [some 409, some 26, none, some 318, none, some 461, none],
   [none, some 533, some 144, none, some 279, none, some 65],
   [some 158, none, some 392, some 7, none, some 244, none],
   [none, some 475, none, some 219, some 560, none, some 102],
   [some 63, none, some 287, none, some 134, some 415, none],
   [none, some 350, none, some 91, none, some 523, some 236],
   [some 488, none, some 173, none, some 329, none, some 54],
   [some 205, none, none, some 447, none, some 118, none],
   [none, some 267, none, none, some 31, none, some 506],
   [some 381, none, some 226, none, none, some 572, none],
   [none, some 142, none, some 364, none, none, some 19],
   [some 521, none, some 103, none, some 296, none, none],
   [none, some 74, none, some 538, none, some 183, none],
   [none, none, some 455, none, some 9, none, some 341],
   [some 167, none, none, some 263, none, some 497, none],
   [none, some 412, none, none, some 188, none, some 129],
   [some 36, none, some 319, none, none, some 271, none],
   [none, some 558, none, some 152, none, none, some 403],
   [some 294, none, some 481, none, some 61, none, none],
   [none, some 227, none, some 16, none, some 359, none]]

/-- Columns 23 to 44. -/
def baseHigh : List (List (Option Nat)) :=
  [[none, none, some 98, none, some 437, none, some 280],
   [some 443, none, none, some 321, none, some 88, none],
   [none, some 5, none, none, some 514, none, some 193],
   [some 137, none, some 246, none, none, some 426, none],
   [none, some 386, none, some 57, none, none, some 549],
   [some 272, none, some 415, none, some 163, none, none],
   [none, some 491, none, some 210, none, some 35, none],
   [none, none, some 333, none, some 571, none, some 24],
   [some 19, none, none, some 468, none, some 307, none],
   [none, some 176, none, none, some 352, none, some 445],
   [some 529, none, some 81, none, none, some 234, none],
   [none, some 302, none, some 127, none, none, some 395],
   [some 84, none, some 566, none, some 215, none, none],
   [none, some 438, none, some 289, none, some 150, none],
   [none, none, some 201, none, some 376, none, some 517],
   [some 1, none, none, some 0, none, none, some 1],
   [some 0, some 0, none, none, none, none, none],
   [none, some 0, some 0, none, none, none, none],
   [none, none, some 0, some 0, none, none, none],
   [none, none, none, some 0, some 0, none, none],
   [none, none, none, none, some 0, some 0, none],
   [none, none, none, none, none, some 0, some 0]]

/-- Entry at a row and column of the base matrix. -/
def baseEntry (row col : Nat) : Option Nat := (((baseLow ++ baseHigh).getD col []).getD row none)

/-- Bytes as bits in line order: bit 0 is bit 7 of the first byte (R12). -/
def lineBits (l : List Byte) : Nat :=
  (l.zipIdx).foldl (fun a e => (List.range 8).foldl (fun a i => if e.1.getLsbD (7 - i) then a + 2 ^ (8 * e.2 + i) else a) a) 0

/-- Bits in line order as `n` bytes. -/
def lineBytes (n x : Nat) : List Byte :=
  (List.range n).map (fun j => BitVec.ofNat 8 ((List.range 8).foldl (fun a i => 2 * a + b2n (x.testBit (8 * j + i))) 0))

/-- Block `j` of a codeword with lifting size `z`. -/
def codeBlock (z x j : Nat) : Nat := (x >>> (z * j)) % 2 ^ z

/-- A block multiplied by the identity matrix cyclically shifted by `k` (R57). -/
def rotBlock (z b k : Nat) : Nat := ((b >>> (k % z)) ||| (b <<< (z - k % z))) % 2 ^ z

/-- Row `r` of H over the first `n` blocks of `x` (R57). -/
def rowSum (z x r n : Nat) : Nat :=
  (List.range n).foldl (fun a j => match baseEntry r j with
    | some k => a ^^^ rotBlock z (codeBlock z x j) (k % z)
    | none => a) 0

/-- A codeword satisfies H · c = 0 (R57, R105). -/
def codeOk (z c : Nat) : Bool := (List.range 7).all (fun r => rowSum z c r 45 == 0)

/-- The seven parity blocks of 38 information blocks, by back-substitution (the remark under R58). -/
def parityBlocks (z x : Nat) : List Nat :=
  let l := fun r => rowSum z x r 38
  let p0 := (List.range 7).foldl (fun a r => a ^^^ l r) 0
  let p1 := l 0 ^^^ rotBlock z p0 1
  let p2 := l 1 ^^^ p1
  let p3 := l 2 ^^^ p2
  let p4 := l 3 ^^^ p0 ^^^ p3
  let p5 := l 4 ^^^ p4
  let p6 := l 5 ^^^ p5
  [p0, p1, p2, p3, p4, p5, p6]

/-- The 252 parity bytes of an upstream codeword; missing information bytes count as zero (R102, R105). -/
def weftParity (info : List Byte) : List Byte :=
  let ps := parityBlocks 288 (lineBits info)
  lineBytes 252 ((ps.zipIdx).foldl (fun a e => a + e.1 * 2 ^ (288 * e.2)) 0)

/-! ## Sections (R102, R103) -/

/-- Information bytes of a section of `sec` units, codeword by codeword. -/
def sectionCodewords (sec : Nat) : List Nat :=
  let n := 16 * sec
  List.replicate (n / 1620) 1368 ++ (if 260 ≤ n % 1620 then [n % 1620 - 252] else [])

/-- Length of a section's info stream: a multiple of 8. -/
def sectionInfo (sec : Nat) : Nat := (sectionCodewords sec).foldl (· + ·) 0 / 8 * 8

/-- The bytes of a section on the line before scrambling: codewords with parity, then filler. -/
def sectionLine (sec : Nat) (info : List Byte) : List Byte :=
  let r := (sectionCodewords sec).foldl (fun (a : List Byte × Nat) n =>
    let w := slice info a.2 n
    (a.1 ++ w ++ weftParity w, a.2 + n)) ([], 0)
  r.1 ++ List.replicate (16 * sec - r.1.length) 0

/-! ## Scrambler, preamble, delimiter -/

/-- Additive scrambler over bytes, bit 7 first: state of `w` bits, taps at its two upper positions `a` and `b`. -/
def scramble (w a b : Nat) : Nat → List Byte → List Byte
  | _, [] => []
  | s, x :: t =>
    let r := (List.range 8).foldl (fun (p : Nat × Nat) i =>
      let k := b2n (xor (p.2.testBit a) (p.2.testBit b))
      (2 * p.1 + b2n (xor (x.getLsbD (7 - i)) (k == 1)), (2 * p.2 + k) % 2 ^ w)) (0, s)
    BitVec.ofNat 8 r.1 :: scramble w a b r.2 t

/-- The scrambler of R52 and R106. -/
def lineScramble (seed : Nat) (l : List Byte) : List Byte := scramble 31 30 27 seed l

/-- PSync (R51). -/
def psync : Nat := 0xB3C497E15A2D6F08

/-- The two bits of a PAM4 symbol, the earlier one first: 00 is −3, 01 is −1, 11 is +1, 10 is +3 (R50). -/
def pam4Bits : Pam4 → Nat
  | .neg3 => 0
  | .neg1 => 2
  | .pos1 => 3
  | .pos3 => 1

/-- Received symbols as bits in line order: bit 0 of the number is the first bit (R50). -/
def symbolBits : List Pam4 → Nat
  | [] => 0
  | l :: t => pam4Bits l + 4 * symbolBits t

/-- One step of the scrambler of R52: its output bit and next state. -/
def keyStep (x : Nat) : Nat × Nat :=
  let k := b2n (xor (x.testBit 30) (x.testBit 27))
  (k, (2 * x + k) % 2 ^ 31)

/-- State of the scrambler after `n` bits. -/
def keySkip : Nat → Nat → Nat
  | 0, x => x
  | n + 1, x => keySkip n (keyStep x).2

/-- The next `n` scrambler bits in line order. -/
def keyBits : Nat → Nat → Nat
  | 0, _ => 0
  | n + 1, x => (keyStep x).1 + 2 * keyBits n (keyStep x).2

/-- Line byte of the pick at which info-stream byte `b` stands: codeword b / 2,736 begins at byte 3,240 times its number
with its information bytes, and its 504 parity bytes follow them (R51). -/
def linePos (b : Nat) : Nat := b / 2736 * 3240 + b % 2736

/-- Scrambler bits over codeword `idx` of a pick: the generator is loaded at the first bit after the 64 PSync bits (R52). -/
def warpKey (idx : Nat) : Nat :=
  let first := 8 * linePos (2736 * idx)
  if idx = 0 then 2 ^ 64 * keyBits (25920 - 64) 0x2B5C9E17 else keyBits 25920 (keySkip (first - 64) 0x2B5C9E17)

/-- The decoder treats the 64 PSync bits, the first of codeword 0, as known (R55, R59). -/
def fixSync (idx w : Nat) : Nat := if idx = 0 then w / 2 ^ 64 * 2 ^ 64 + lineBits (beBytes 8 psync) else w

/-- Preamble of P units (R95): +3 and −3 alternate; the last 64 bytes come from x^7 + x^6 + 1. -/
def preambleBytes (p : Nat) : List Byte :=
  List.replicate (8 * (p - 8)) 0x88 ++ scramble 7 6 5 0x7F (List.replicate 64 0)

/-- Delimiter (R96): a 1 is +3 (bits 10), a 0 is −3 (bits 00). -/
def delimiterBytes : List Byte :=
  beBytes 16 ((List.range 64).foldl (fun a i => 4 * a + 2 * b2n (Nat.testBit 0xE4B17C2A93D50F68 (63 - i))) 0)

end Sys2Proof.Machine
end

