-- ==== Sys2Proof/Machine/Blocks.lean ====
section
/-! DEFINITION. Machine/Blocks.lean: the 66-bit blocks of the lanes: the scrambler and the blocks of the Yonov link (R300,
R301), the pair markers of mode 9 (R298). A block's 64 bits are a number whose bit 0 is sent first; each byte goes bit 0
first, as in Clause 49. -/

namespace Sys2Proof.Machine

open Sys2Proof

/-- One bit through the scrambler x^58 + x^39 + 1: the bits put out so far, the latest in bit 0, and the bit put out. -/
def scrBit (st : Nat) (b : Bool) : Nat × Bool :=
  let o := xor b (xor (st.testBit 38) (st.testBit 57))
  ((2 * st + b2n o) % 2 ^ 58, o)

/-- The 64 bits of a block scrambled, and the scrambler behind them. -/
def scramble64 (st w : Nat) : Nat × Nat :=
  (List.range 64).foldl (fun a k => let r := scrBit a.1 (w.testBit k); (r.1, a.2 + b2n r.2 * 2 ^ k)) (st, 0)

/-- The descrambler is fed by the line itself. -/
def descramble64 (st w : Nat) : Nat × Nat :=
  (List.range 64).foldl (fun a k =>
    ((2 * a.1 + b2n (w.testBit k)) % 2 ^ 58, a.2 + b2n (xor (w.testBit k) (xor (a.1.testBit 38) (a.1.testBit 57))) * 2 ^ k)) (st, 0)

/-- The 64 bits of 8 bytes. -/
def blockWord (l : List Byte) : Nat := leAt l 0 8

/-- Blocks as they arrived, descrambled: sync header and 8 bytes each. -/
def descrambled : Nat → List (Nat × Nat) → List (Nat × List Byte)
  | _, [] => []
  | st, (h, w) :: t =>
    let r := descramble64 st w
    (h, leBytes 8 r.2) :: descrambled r.1 t

/-! ## Blocks of the Yonov link (R300) -/

/-- A control block of a type with bytes 1 to 7. -/
def controlBlock (typ : Nat) (l : List Byte) : List Byte := BitVec.ofNat 8 typ :: slice l 0 7

def yidleBlock (rdy : Bool) : List Byte := controlBlock 0x33 [BitVec.ofNat 8 (b2n rdy)]
def yholdBlock (hold : Bool) : List Byte := controlBlock 0x78 [BitVec.ofNat 8 (b2n hold)]
def ymgmtBlock (payload : Nat) : List Byte := controlBlock 0x4B (beBytes 7 payload)

/-- YSTART of a frame of `len` bytes. -/
def ystartBlock (len : Nat) : List Byte :=
  let b := beBytes 2 (len % 2 ^ 14) ++ List.replicate 4 0
  controlBlock 0x55 (b ++ [BitVec.ofNat 8 (crcOf 8 0x07 0xFF b)])

def yendBlock (crc : Nat) (abort : Bool) : List Byte := controlBlock 0x66 (beBytes 4 crc ++ [BitVec.ofNat 8 (b2n abort)])

/-- Data blocks of a frame, the last one padded with 0x00 (R301); `n` bounds how many. -/
def dataBlocks : Nat → List Byte → List (List Byte)
  | 0, _ => []
  | n + 1, d => if d.isEmpty then [] else slice d 0 8 :: dataBlocks n (d.drop 8)

/-- What stands between a YSTART and the end of its frame. -/
inductive YBody where
  /-- No end yet. -/
  | unfinished
  /-- A block that may not stand inside a frame. -/
  | broken
  /-- The bytes of the data blocks, and the YEND. -/
  | ended (data fin : List Byte)
deriving DecidableEq, Repr

/-- Walk the blocks behind a YSTART (R302 test 2): YHOLDs are removed, and the last of them says whether the partner holds the
lane. -/
def yWalk : List (Nat × List Byte) → List Byte → Option Bool → YBody × Option Bool
  | [], _, h => (.unfinished, h)
  | (sync, b) :: t, d, h =>
    if sync = 1 then yWalk t (d ++ b) h
    else if sync = 2 ∧ byteAt b 0 = 0x78 then yWalk t d (some ((byteAt b 1).testBit 0))
    else if sync = 2 ∧ byteAt b 0 = 0x66 then (.ended d b, h)
    else (.broken, h)

/-! ## Pair markers (R298) -/

/-- The pair marker of a slot (true: slot B), unscrambled: block type, three bytes, O-code. -/
def pairMark (b : Bool) : Nat × Nat := (2, blockWord [0x4B, 0x5A, 0x31, if b then 0xC1 else 0xC0, 0x0A, 0, 0, 0])

end Sys2Proof.Machine
end

