-- ==== Sys2Proof/Machine/Spool.lean ====
section
/-! DEFINITION. Machine/Spool.lean: buffer pools: layout, owners, granting and freeing (08_spool.md). -/

namespace Sys2Proof.Machine

open Sys2Proof

/-- First handle of pool `k` (R245). -/
def poolFirst : List (Nat × Nat) → Nat → Nat
  | [], _ => 0
  | _, 0 => 0
  | (_, c) :: t, k + 1 => c + poolFirst t k

/-- SIZE of pool `k` in 16-byte units. -/
def poolSize (sp : Spool) (k : Nat) : Nat := (sp.pools.getD k (0, 0)).1

/-- COUNT of pool `k`. -/
def poolCount (sp : Spool) (k : Nat) : Nat := (sp.pools.getD k (0, 0)).2

/-- Handles of the layout in force: a handle at or beyond is no buffer (R245). -/
def poolTotal (ps : List (Nat × Nat)) : Nat := (ps.map (·.2)).foldl (· + ·) 0

/-- The pool of handle `h`. -/
def poolOf (ps : List (Nat × Nat)) (h : Nat) : Nat :=
  match ps with
  | [] => 0
  | (_, c) :: t => if h < c then 0 else 1 + poolOf t (h - c)

/-- SRAM address at which the buffers of pool `k` begin (R245). -/
def poolAddr (ps : List (Nat × Nat)) (k : Nat) : Nat := sumList ((ps.take k).map (fun p => 16 * p.1 * p.2))
where
  /-- Sum of a list. -/
  sumList (l : List Nat) : Nat := l.foldl (· + ·) 0

/-- SRAM address of handle `h`'s buffer (R245). -/
def bufAddr (ps : List (Nat × Nat)) (h : Nat) : Nat :=
  let k := poolOf ps h
  poolAddr ps k + 16 * (ps.getD k (0, 0)).1 * (h - poolFirst ps k)

/-- The bank of an SRAM address: granules of 64 bytes, address bits [7:6] (R240). -/
def bankOf (a : Nat) : Nat := a / 64 % 4

/-- Bank `k` holds a byte of the frame in handle `h`'s buffer. -/
def bankHolds (sp : Spool) (k h : Nat) : Bool :=
  let a := bufAddr sp.pools h
  (List.range (sget {} sp.bufs h).data.length).any (fun i => bankOf (a + i) == k)

/-- Bank `k` has lost its contents (R241): the bytes that it held read as free values from then on. -/
def bankLose (s : State) (k : Nat) : State :=
  let ps := s.spool.pools
  let (x, s) := draw s
  let lost := fun (h : Nat) (b : Buf) =>
    { b with data := b.data.zipIdx.map (fun e => if bankOf (bufAddr ps h + e.2) = k then Config.freeByte x (65536 * h + e.2) else e.1) }
  { s with spool := { s.spool with bufs := s.spool.bufs.map (fun e => (e.1, lost e.1 e.2)) } }

/-- SPOOL_0 is lost: bank 0, and the state memory, which reads every buffer as FREE when it wakes (R241). What the other
banks hold stays. -/
def managerLose (s : State) : State :=
  let s := bankLose s 0
  let left := s.spool.bufs.filter (fun e => !e.2.data.isEmpty)
  { s with spool := { bufs := left.map (fun e => (e.1, { data := e.2.data })) } }

/-- The bytes of a frame as its reading unit finds them in the SRAM; a frame that has no buffer comes with its own. -/
def frameRead (s : State) (f : Frame) : List Byte :=
  let b := sget {} s.spool.bufs f.handle
  if f.handle = 0xFFFFF ∨ b.data.length ≠ f.data.length then f.data else b.data

/-- An uncorrectable error has been found in the frame's buffer (R242). -/
def framePoisoned (s : State) (f : Frame) : Bool := f.handle != 0xFFFFF && (sget {} s.spool.bufs f.handle).bad

/-- The reading unit `src` discards a poisoned frame and reports POISON_SEEN, which names the bank as root (R242, R438, R439). -/
def poisonSeen (s : State) (src : Nat) (f : Frame) : State :=
  let (x, s) := draw s
  raiseRoot s src 0x012 (x % 2 ^ 32) (sget {} s.spool.bufs f.handle).badBy 0x011

/-- FRAME_LEN as Heddle, Reed and Spool take it (R174, R206, R250): in cut-through LEN of the CLP frame header. -/
def frameLen (f : Frame) : Nat := if f.cut then f.clpLen else f.data.length

/-- Buffers of pool `k` that the state memory lists. -/
def poolBufs (sp : Spool) (bufs : Sparse Buf) (k : Nat) : Sparse Buf :=
  let h := poolFirst sp.pools k
  bufs.filter (fun e => decide (h ≤ e.1) && decide (e.1 < h + poolCount sp k))

/-- FREE_k: buffers of pool `k` in state FREE. -/
def poolFree (sp : Spool) (bufs : Sparse Buf) (k : Nat) : Nat :=
  poolCount sp k - ((poolBufs sp bufs k).filter (fun e => e.2.st != .free)).length

/-- HELD[o][k]. -/
def ownHeld (sp : Spool) (bufs : Sparse Buf) (o k : Nat) : Nat :=
  ((poolBufs sp bufs k).filter (fun e => e.2.st == .held && e.2.owner == o)).length

/-- USE[o] in 16-byte units (R248). -/
def ownUse (sp : Spool) (bufs : Sparse Buf) (o : Nat) : Nat :=
  ((List.range sp.pools.length).map (fun k => ownHeld sp bufs o k * poolSize sp k)).foldl (· + ·) 0

/-- MIN[o][k] in force. -/
def ownMin (s : State) (o k : Nat) : Nat := fld s (Reg.spoolOwnMin (4 * o + k)) 19 0

/-- OUTST_k, the outstanding reserve of pool `k` (R248). -/
def poolOutst (s : State) (bufs : Sparse Buf) (k : Nat) : Nat :=
  ((List.range 64).map (fun o => ownMin s o k - ownHeld s.spool bufs o k)).foldl (· + ·) 0

/-- No buffer is HELD or FREEING: SPOOL_STAT.IDLE. -/
def spoolIdle (s : State) : Bool := s.spool.bufs.all (fun e => e.2.st != .held && e.2.st != .freeing)

/-- Spool grants: EN in force, all four SPOOL domains on, the manager not in recovery (R241, R445). -/
def spoolGrants (s : State) : Bool :=
  flag s Reg.spoolCtrl 0 && domOn s 14 && domOn s 15 && domOn s 16 && domOn s 17 && unitOk s 0x0F

/-- Owner `o` may use a buffer of pool `k`, with the state memory as `bufs` (R250). -/
def poolUsable (s : State) (bufs : Sparse Buf) (o k : Nat) : Bool :=
  if ownHeld s.spool bufs o k < ownMin s o k then decide (1 ≤ poolFree s.spool bufs k)
  else decide (poolOutst s bufs k + 1 ≤ poolFree s.spool bufs k)

/-- The `r`-th free handle from `h` on, where `busy` lists the handles that are not free, ascending. -/
def nthFree : Nat → Sparse Buf → Nat
  | h, [] => h
  | h, (b, _) :: t => if b ≤ h then nthFree (h + 1) t else h

/-- Take a FREE buffer of pool `k` for the owner and the frame that `b` names. The rules do not say which one: it is chosen by a free value (log entry 10). -/
def popFree (s : State) (b : Buf) (k : Nat) : Nat × State :=
  let (x, s) := draw s
  let busy := (poolBufs s.spool s.spool.bufs k).filter (fun e => e.2.st != .free)
  let h := nthFree (poolFirst s.spool.pools k + x % poolFree s.spool s.spool.bufs k) busy
  let bufs := sput {} s.spool.bufs h { b with st := .held, bad := false }
  let sp := { s.spool with bufs := bufs }
  (h, { s with spool := { sp with low := sput 0 sp.low k (min (sget 0 sp.low k) (poolFree sp bufs k)) } })

/-- The pools from `k` on, `n` of them, tried in ascending size (R250, the listing). -/
def allocFrom : Nat → State → Buf → Nat → Nat → Option Nat × State
  | 0, s, _, len, _ =>
    (none, count s 9 (if 16 * poolSize s.spool (s.spool.pools.length - 1) < len then 3 else 2))
  | n + 1, s, b, len, k =>
    let o := b.owner
    if 16 * poolSize s.spool k < len then allocFrom n s b len (k + 1)
    else if fld s (Reg.spoolOwnMax o) 21 0 < ownUse s.spool s.spool.bufs o + poolSize s.spool k then
      (none, count s 9 4)
    else if poolUsable s s.spool.bufs o k then
      let (h, s') := popFree s b k
      (some h, count (count s' 9 0) 9 (11 + 2 * k))
    else
      let s := count s 9 (12 + 2 * k)
      let s := if poolUsable s s.spool.clockBufs o k then count s 9 5 else s
      allocFrom n s b len (k + 1)

/-- Priority of a port (SPOOL_PORT_PRIO). -/
def portPrio (s : State) (p : Nat) : Nat := fld s Reg.spoolPortPrio (4 * p + 1) (4 * p)

/-- Place of a port in the round-robin order. -/
def portTurn (s : State) (p : Nat) : Nat := (p + 3 - s.spool.rr) % 3

/-- Port `p` may be served on the clock on which the ports of `clockPorts` were: each port once, by descending priority, ports
of equal priority in the pointer's order (R251). -/
def portNext (s : State) (p : Nat) : Bool :=
  s.spool.clockPorts != [] && s.spool.clockPorts.all (fun q =>
    q != p && (decide (portPrio s p < portPrio s q) || (portPrio s p == portPrio s q && decide (portTurn s q < portTurn s p))))

/-- The pointer after a clock on which the ports of `clockPorts` requested: past the one served first among two or more of
equal priority (R251). -/
def rrNext (s : State) : Nat :=
  let ps := s.spool.clockPorts
  match ps.find? (fun p => ps.any (fun q => q != p && portPrio s q == portPrio s p)) with
  | some p => (p + 1) % 3
  | none => s.spool.rr

/-- Whether a Spool request that comes with no operand of its own falls on the core clock of the one before it: a free value
(R251, log entry 83). -/
def sharesClock (s : State) : Bool × State :=
  let (c, s) := draw s
  (c % 2 == 1, s)

/-- A request of `b`'s owner for `len` bytes on port `port` (0 ADMIT_0, 1 ADMIT_1, 2 COPY). `same`: it falls on the core
clock of the request before it, where the order of service lets it (R251, R252). -/
def spoolAlloc (s : State) (same : Bool) (port : Nat) (b : Buf) (len : Nat) : Option Nat × State :=
  let sp := s.spool
  let sp := if same && portNext s port then { sp with clockPorts := sp.clockPorts ++ [port] }
    else { sp with clockBufs := sp.bufs, clockPorts := [port], rr := rrNext s }
  let s := { s with spool := sp }
  if spoolGrants s && decide (0 < sp.pools.length) then allocFrom sp.pools.length s b len 0
  else (none, if domOn s 14 then count s 9 2 else s)

/-- Why a free is rejected (R254): 1 BAD_HANDLE, 2 DOUBLE_FREE, 3 NOT_OWNER; 0 accepted. -/
def freeKind (s : State) (h o : Nat) : Nat :=
  if h = 0xFFFFF ∨ poolTotal s.spool.pools ≤ h then 1
  else
    let b := sget {} s.spool.bufs h
    if b.st ≠ .held then 2 else if b.owner ≠ o then 3 else 0

/-- Code of a buffer state (R246). -/
def bufCode : BufSt → Nat
  | .free => 0
  | .held => 1
  | .freeing => 2
  | .quarantined => 3

/-- Set the state and owner of buffer `h`. -/
def setBuf (s : State) (h : Nat) (st : BufSt) (o : Nat) : State :=
  { s with spool := { s.spool with bufs := sput {} s.spool.bufs h { st := st, owner := o } } }

/-- A unit frees buffer `h`, presenting owner `o` (R254, R255, R242); with SPOOL_0 off there is no manager to free it. -/
def spoolFree (s : State) (h o : Nat) : State :=
  if !domOn s 14 then s
  else
  let k := freeKind s h o
  let b := sget {} s.spool.bufs h
  if k = 0 then
    let s := count s 9 1
    if b.bad then
      let (x, s) := draw (count s 9 9)
      setBuf s h (if x % 2 = 0 then .freeing else .quarantined) 0
    else setBuf s h .freeing 0
  else
    let s := count s 9 (if k = 1 then 8 else if k = 2 then 6 else 7)
    let s := raiseEv s 0x0F 0x040 (k * 2 ^ 20 + h % 2 ^ 20)
    if flag s Reg.spoolFreeErr 31 then s
    else
      let s := setReg s Reg.spoolFreeErr (2 ^ 31 + k * 2 ^ 20 + h % 2 ^ 20)
      setReg s Reg.spoolFreeOwn (if k = 1 then o % 64 else bufCode b.st * 2 ^ 14 + b.owner % 64 * 2 ^ 8 + o % 64)

/-- FREEING buffers join their free lists (R255: within 8 core clocks). -/
def spoolSettle (sp : Spool) : Spool :=
  { sp with bufs := sp.bufs.filter (fun e => e.2.st != .freeing) }

/-- The layout that a copy of the layout registers describes: the leading enabled pools. -/
def layoutOf (r : Nat → Nat) : List (Nat × Nat) :=
  ((List.range 4).map (fun k => (r (Reg.spoolPoolCfg k), r (Reg.spoolPoolCount k)))).takeWhile
      (fun p => p.1.testBit 31) |>.map (fun p => (bits p.1 10 0, bits p.2 19 0))

/-- Strictly rising. -/
def strictRise : List Nat → Bool
  | a :: b :: t => decide (a < b) && strictRise (b :: t)
  | _ => true

/-- A staged layout is valid (R243). -/
def layoutValid (s : State) : Bool :=
  let en := (List.range 4).map (fun k => (rdS s (Reg.spoolPoolCfg k)).testBit 31)
  let ps := layoutOf (rdS s)
  decide (1 ≤ ps.length) && en.drop ps.length == List.replicate (4 - ps.length) false
    && ps.all (fun p => decide (3 ≤ p.1) && decide (p.1 ≤ 1024) && decide (1 ≤ p.2))
    && strictRise (ps.map (·.1))
    && decide (poolTotal ps ≤ 1048575)
    && decide ((ps.map (fun p => 16 * p.1 * p.2)).foldl (· + ·) 0 ≤ 50331648)
    && (List.range ps.length).all (fun k =>
        decide (((List.range 64).map (fun o => fldS s (Reg.spoolOwnMin (4 * o + k)) 19 0)).foldl (· + ·) 0 ≤ (ps.getD k (0, 0)).2))

/-- Offset `a` is a layout register: it comes into force under R244 only. -/
def isLayoutReg (a : Nat) : Bool := decide (Reg.spoolPoolCfg 0 ≤ a) && decide (a ≤ Reg.spoolPoolCount 3)

/-- A staged layout waits: SPOOL_STAT.LAYOUT_WAIT. -/
def layoutWaits (s : State) : Bool :=
  (List.range 4).any (fun k => rdS s (Reg.spoolPoolCfg k) != rd s (Reg.spoolPoolCfg k)
    || rdS s (Reg.spoolPoolCount k) != rd s (Reg.spoolPoolCount k))

/-- The minima that the copy `r` of the registers gives for pool `k` sum above its COUNT (R249). -/
def minimaOver (s : State) (r : Nat → Nat) (k : Nat) : Bool :=
  decide (poolCount s.spool k < ((List.range 64).map (fun o => bits (r (Reg.spoolOwnMin (4 * o + k))) 19 0)).foldl (· + ·) 0)

/-- Minima are refused (R249): MIN_REFUSED, and a corrected event. -/
def minimaRefused (s : State) : State := progErr (setBit s Reg.spoolStat 2) 0x0F

/-- A waiting layout comes into force at a commit point: with EN at 0 and Spool idle (R244). -/
def layoutDue (s : State) (en : Bool) : Bool := domOn s 14 && !en && spoolIdle s && layoutWaits s

/-- The staged layout comes into force (R244); a quarantined buffer keeps its state (R242). -/
def layoutIn (s : State) : State :=
  let s := forUpTo 4 s (fun k s =>
    force (force s (Reg.spoolPoolCfg k) (rdS s (Reg.spoolPoolCfg k))) (Reg.spoolPoolCount k) (rdS s (Reg.spoolPoolCount k)))
  let ps := layoutOf (rd s)
  let sp := { s.spool with pools := ps, clockBufs := s.spool.bufs }
  { s with spool := { sp with low := (List.range ps.length).foldl (fun m k => sput 0 m k (poolFree sp sp.bufs k)) [] } }

/-- Step 2 of a commit point for the layout and the minima (R244, R249): a pool whose staged minima sum above the COUNT then
in force keeps every owner's previous minimum, the staged copy returning to it. -/
def spoolMinima (s : State) : State :=
  let fresh := layoutDue s ((rdS s Reg.spoolCtrl).testBit 0)
  let s := if fresh then layoutIn s else s
  forUpTo 4 s (fun k s =>
    let changed := (List.range 64).any (fun o => rdS s (Reg.spoolOwnMin (4 * o + k)) != rd s (Reg.spoolOwnMin (4 * o + k)))
    if (changed || fresh) && minimaOver s (rdS s) k then
      minimaRefused (forUpTo 64 s (fun o s => stage s (Reg.spoolOwnMin (4 * o + k)) (rd s (Reg.spoolOwnMin (4 * o + k)))))
    else s)

/-- SPOOL_LAYOUT_APPLY: at a commit point with EN 0 in force and Spool idle a waiting layout comes into force (R244); minima
in force that sum above a COUNT of it are told of (R249). A COMMIT_POINT does the same for a layout that is due at its step 2. -/
def execSpoolLayoutApply (s : State) : Host.Outcome State Fault Refusal :=
  .next (if layoutDue s (flag s Reg.spoolCtrl 0) then
    forUpTo 4 (layoutIn s) (fun k s => if minimaOver s (rd s) k then minimaRefused s else s)
  else s)

end Sys2Proof.Machine
end

