-- ==== Sys2Proof/Machine/Pause.lean ====
section
/-! DEFINITION. Machine/Pause.lean: lanes and MACs as state, their status registers, and the flow control that received
frames' buffers drive: pause frames (R313) and YHOLD (R304). -/

namespace Sys2Proof.Machine

open Sys2Proof

def setPorts (s : State) (p : Ports) : State := { s with ports := p }

/-! ## Lanes and MACs -/

def laneAt (s : State) (n : Nat) : Lane := sget {} s.ports.lanes n
def macAt (s : State) (p : Nat) : MacU := sget {} s.ports.macs p

/-- Code of LANE_STAT.STATE. -/
def laneCode : LaneSt → Nat
  | .off => 0
  | .refused => 1
  | .pwrWait => 2
  | .train => 3
  | .down => 4
  | .up => 5

/-- Write lane `n`; LANE_STAT[n] and FULL follow, CHANGE is kept. -/
def setLane (s : State) (n : Nat) (x : Lane) : State :=
  let s := setPorts s { s.ports with lanes := sput {} s.ports.lanes n x }
  let s := setFld s (Reg.laneYmgmtTxHi n) 30 30 (b2n (decide (16 ≤ x.txFifo.length)))
  setReg s (Reg.laneStat n) (x.ctle % 16 * 2 ^ 16 + b2n x.holdTx * 2 ^ 8 + b2n x.holdRx * 2 ^ 7 + b2n x.peerRdy * 2 ^ 6
    + b2n (x.lock || x.block) * 2 ^ 5 + fld s (Reg.laneStat n) 4 4 * 2 ^ 4 + laneCode x.st)

/-- Levels paused, as a bit per level. -/
def pausedBits (x : MacU) : Nat := sumList (x.paused.map (fun e => 2 ^ e.1))
where
  /-- Sum of a list. -/
  sumList (l : List Nat) : Nat := l.foldl (· + ·) 0

/-- Write MAC `p`; MAC_STAT[p] follows, CHANGE is kept. -/
def setMac (s : State) (p : Nat) (x : MacU) : State :=
  let s := setPorts s { s.ports with macs := sput {} s.ports.macs p x }
  setReg s (Reg.macStat p) (pausedBits x % 256 * 2 ^ 16 + b2n x.verified * 2 ^ 5 + b2n x.remoteFault * 2 ^ 4
    + b2n x.localFault * 2 ^ 3 + fld s (Reg.macStat p) 2 2 * 2 ^ 2 + b2n (!x.xoff.isEmpty) * 2 + b2n x.link)

/-- Mode of lane `n` in force, and its Yonov rate. -/
def laneMode (s : State) (n : Nat) : Nat := fld s (Reg.laneCfg n) 19 16
def laneYrate (s : State) (n : Nat) : Nat := fld s (Reg.laneCfg n) 11 10

/-- The lane whose mode binds MAC `p` (R284, R306). -/
def macLane (p : Nat) : Nat := p % 16

/-- MAC `p` is bound by a lane that is UP. -/
def macBound (s : State) (p : Nat) : Bool :=
  let n := macLane p
  let m := laneMode s n
  (laneAt s n).st == .up && (if p < 16 then decide (1 ≤ m) && decide (m ≤ 9) else m == 9)

/-- Rate of MAC `p` in Mb/s. -/
def macRate (s : State) (p : Nat) : Nat := [0, 1000, 1000, 2500, 5000, 10000, 25000, 50000, 100000, 5000].getD (laneMode s (macLane p)) 0

/-- Domain of MAC `p` and of lane `n`. -/
def macDom (p : Nat) : Nat := if p < 16 then 25 else 26
def laneDom (n : Nat) : Nat := if n < 8 then 23 else 24

/-- MAC `p` is enabled, powered and up (R311), and no drain for DOZE runs (R414). -/
def macUp (s : State) (p : Nat) : Bool :=
  domOn s (macDom p) && flag s (Reg.macCfg p) 31 && (macAt s p).link && s.power.dozePhase == .none

/-- Counter `n` of MAC `p`; counter `c` of lane `n`. -/
def macCount (s : State) (p n : Nat) : State := count s 11 (16 * p + n)
def laneCount (s : State) (n c : Nat) : State := count s 12 (14 * n + c)

/-! ## Blocks sent on a lane (R298, R300) -/

/-- Lane `n` sends a block, its 64 bits scrambled. -/
def sendBlock (s : State) (n sync : Nat) (l : List Byte) : State :=
  let r := scramble64 (laneAt s n).scr (blockWord l)
  emit (setLane s n { laneAt s n with scr := r.1 }) (.lineBlock n sync r.2)

/-- Lane `n` sends a pair of markers, which are not scrambled. -/
def sendMarkers (s : State) (n : Nat) : State :=
  emit (emit s (.lineBlock n (pairMark false).1 (pairMark false).2)) (.lineBlock n (pairMark true).1 (pairMark true).2)

/-- The pair markers that have fallen due on lane `n`: at 156.25 million blocks a second, five blocks in 32 ns, a pair every
16,384 of them (R298). -/
def pairSend (n : Nat) (s : State) : State :=
  let x := laneAt s n
  if laneMode s n = 9 ∧ 4 ≤ laneCode x.st ∧ domOn s (laneDom n) = true then
    let k := (5 * s.ns - x.marks) / 524288
    forUpTo k (setLane s n { x with marks := x.marks + 524288 * k }) (fun _ s => sendMarkers s n)
  else s

/-! ## Receive buffers and thresholds -/

/-- Preemption is active on MAC `p` (R314). -/
def preemptOn (s : State) (p : Nat) : Bool :=
  flag s (Reg.macPreempt p) 31 && (flag s (Reg.macPreempt p) 30 || (macAt s p).verified)

/-- LEVEL `t` is express on MAC `p`. -/
def isExpress (s : State) (p t : Nat) : Bool := flag s (Reg.macPreempt p) t

/-- Bytes of frames of Spool source `src` that hold a buffer; one priority, or all (R304, R313). -/
def heldBytes (s : State) (src : Nat) (prio : Option Nat) : Nat :=
  ((s.spool.bufs.filter (fun e => e.2.st == .held && e.2.src == src &&
    (match prio with | some t => e.2.prio == t | none => true))).map (fun e => e.2.bytes)).foldl (· + ·) 0

/-- A pause frame leaves MAC `p` for the counts in `due`: quanta by priority (mode 2), or one value (mode 1). -/
def emitPause (s : State) (p : Nat) (due : List (Nat × Nat)) : State :=
  if due.isEmpty then s
  else if fld s (Reg.macPauseCfg p) 25 24 = 1 then
    macCount (emit s (.pauseOut p 1 0 (due.map (·.2)))) p 12
  else
    let vec := (due.map (fun e => 2 ^ e.1)).foldl (· + ·) 0
    macCount (emit s (.pauseOut p 0x0101 vec ((List.range 8).map (fun t => sget 0 due t)))) p 12

/-- A pause frame may leave now: never inside a frame, but MAC control frames are express and preempt a preemptable frame
(R313, R314). -/
def pauseNow (s : State) (p : Nat) : Bool :=
  match (macAt s p).tx with
  | none => true
  | some t => preemptOn s p && !isExpress s p t.level

/-- Send a pause frame from MAC `p` for the counts in `due`, now or behind the frame in transmission; of two values that wait
for one count the later stands (R313). -/
def sendPause (s : State) (p : Nat) (due : List (Nat × Nat)) : State :=
  if pauseNow s p then emitPause s p due
  else
    let x := macAt s p
    let all := (List.range 8).filterMap (fun t => (due.find? (fun e => e.1 == t)).or (x.pauseDue.find? (fun e => e.1 == t)))
    setMac s p { x with pauseDue := all }

/-- The pause frame that waited leaves, ahead of the next queued frame. -/
def pauseFlush (s : State) (p : Nat) : State :=
  let x := macAt s p
  if x.pauseDue.isEmpty then s else emitPause (setMac s p { x with pauseDue := [] }) p x.pauseDue

/-- The counts that MAC `p` keeps in its mode, with their names. -/
def pauseCounts (s : State) (p : Nat) : List (Nat × Nat) :=
  match fld s (Reg.macPauseCfg p) 25 24 with
  | 1 => [(0, heldBytes s p none)]
  | 2 => (bitList 8 (fld s (Reg.macPauseCfg p) 23 16)).map (fun t => (t, heldBytes s p (some t)))
  | _ => []

/-- Thresholds crossed on MAC `p` (R313). -/
def macScan (s : State) (p : Nat) : State :=
  let x := macAt s p
  let on' := (pauseCounts s p).filter (fun e => decide (256 * fld s (Reg.macPauseThr p) 31 16 < e.2) && !x.xoff.contains e.1)
  let off := (pauseCounts s p).filter (fun e => decide (e.2 ≤ 256 * fld s (Reg.macPauseThr p) 15 0) && x.xoff.contains e.1)
  if on'.isEmpty && off.isEmpty then s
  else
    let q := fld s (Reg.macPauseCfg p) 15 0
    let due := sortPairs (on'.map (fun e => (e.1, q)) ++ off.map (fun e => (e.1, 0)))
    let s := setMac s p { x with xoff := x.xoff.filter (fun t => !(off.map (·.1)).contains t) ++ on'.map (·.1) }
    sendPause s p due
where
  /-- Ascending by name. -/
  sortPairs (l : List (Nat × Nat)) : List (Nat × Nat) := (List.range 8).filterMap (fun t => l.find? (fun e => e.1 == t))

/-- Thresholds crossed on Yonov lane `n` (R304). -/
def laneScan (s : State) (n : Nat) : State :=
  let x := laneAt s n
  let c := heldBytes s (32 + n) none
  if !x.holdTx && decide (256 * fld s (Reg.laneYholdThr n) 31 16 < c) then
    sendBlock (setLane s n { x with holdTx := true }) n 2 (yholdBlock true)
  else if x.holdTx && decide (c ≤ 256 * fld s (Reg.laneYholdThr n) 15 0) then
    sendBlock (setLane s n { x with holdTx := false }) n 2 (yholdBlock false)
  else s

/-- Flow control after buffers were taken or freed: every MAC that is up, every Yonov lane that is not OFF. -/
def pauseScan (s : State) : State :=
  let s := forUpTo 32 s (fun p s => if macUp s p then macScan s p else s)
  forUpTo 16 s (fun n s => if domOn s (laneDom n) && laneMode s n == 10 && decide (4 ≤ laneCode (laneAt s n).st) then laneScan s n else s)

/-- SPOOL_FREE: a unit frees a buffer (R254, R255). -/
def execSpoolFree (handle owner : Nat) (s : State) : Host.Outcome State Fault Refusal :=
  .next (if domOn s 14 then pauseScan (spoolFree s (handle % 2 ^ 20) (owner % 64)) else s)

end Sys2Proof.Machine
end

