-- ==== Sys2Proof/Machine/Cmd.lean ====
section
/-! DEFINITION. Machine/Cmd.lean: command descriptors (R359, R360), status codes (R361), the common course of a command
at its commit point (R28, R359, R368), and the delivery of a frame to an RX ring (R350, R354). -/

namespace Sys2Proof.Machine

open Sys2Proof

/-! ## Descriptor fields (R359) -/

def cmdCode (d : CmdDesc) : Nat := bits d.word 7 0
def cmdFlags (d : CmdDesc) : Nat := bits d.word 15 8
def cmdP0 (d : CmdDesc) : Nat := bits d.word 63 32
def cmdAddr (d : CmdDesc) : Nat := bits d.word 127 64
def cmdLen (d : CmdDesc) : Nat := bits d.word 159 128
def cmdP1 (d : CmdDesc) : Nat := bits d.word 191 160
def cmdP2 (d : CmdDesc) : Nat := bits d.word 223 192
def cmdP3 (d : CmdDesc) : Nat := bits d.word 254 224

/-- The bytes that preparation read; none where it needed none. -/
def cmdData (d : CmdDesc) : List Byte := d.data.getD []

/-- A mask of bits [hi:lo]. -/
def maskBits (hi lo : Nat) : Nat := (2 ^ (hi + 1 - lo) - 1) * 2 ^ lo

/-- CODE and PHASE, which every command uses. -/
def maskBase : Nat := maskBits 7 0 + maskBits 255 255

/-- Masks of the descriptor's fields: the low `w` bits of each. -/
def mFlags (w : Nat) : Nat := maskBits (7 + w) 8
def mP0 (hi lo : Nat) : Nat := maskBits (32 + hi) (32 + lo)
def mAddr : Nat := maskBits 127 64
def mLen : Nat := maskBits 159 128
def mP1 (hi lo : Nat) : Nat := maskBits (160 + hi) (160 + lo)
def mP2 (hi lo : Nat) : Nat := maskBits (192 + hi) (192 + lo)
def mP3 (hi lo : Nat) : Nat := maskBits (224 + hi) (224 + lo)

/-- Every bit that the command does not name is 0 (R359). -/
def cmdFieldsOk (d : CmdDesc) (mask : Nat) : Bool := d.word % 2 ^ 256 == (d.word % 2 ^ 256) &&& (maskBase ||| mask)

/-- The fields that each command names (R360, R363, R404, R405); none for a CODE that names no command. -/
def cmdMask (code : Nat) : Option Nat :=
  match code with
  | 0x00 | 0x41 | 0x4C | 0x51 | 0x61 | 0x62 | 0x71 | 0x79 => some 0
  | 0x01 => some (mP0 8 0 ||| mP0 18 16 ||| mP0 28 24 ||| mAddr ||| mP1 8 0 ||| mP2 25 0 ||| mP3 0 0)
  | 0x02 => some (mP0 8 0 ||| mP0 28 24 ||| mAddr)
  | 0x03 => some (mP0 8 0)
  | 0x04 => some (mP0 8 0 ||| mP2 25 0 ||| mP3 0 0)
  | 0x05 => some (mP0 8 0 ||| mAddr)
  | 0x40 | 0x50 | 0x60 | 0x66 | 0x70 | 0x78 => some (mAddr ||| mLen)
  | 0x42 | 0x49 | 0x4A | 0x64 | 0x69 => some mAddr
  | 0x48 => some (mFlags 1 ||| mAddr)
  | 0x4B => some (mP0 15 0)
  | 0x52 => some (mP0 4 0 ||| mAddr ||| mLen)
  | 0x53 => some (mP0 4 0 ||| mP0 24 16 ||| mLen ||| mP1 31 0 ||| mP2 15 0 ||| mP3 29 0)
  | 0x54 => some (mP0 10 0)
  | 0x63 | 0x65 => some (mAddr ||| mLen ||| mP1 31 0 ||| mP2 31 0)
  | 0x67 => some (mFlags 1 ||| mP0 5 0 ||| mAddr)
  | 0x68 => some (mFlags 2 ||| mP0 1 0 ||| mP0 13 8 ||| mP0 19 16 ||| mAddr)
  | _ => none

/-- The descriptor's own fields lie in the ranges that the command's rules give (R24, R189, R235, R237, R266, R278, R282, R334,
R364, R404). Rings 0 and 1 are named by no ring command. -/
def cmdRanges (d : CmdDesc) : Bool :=
  let ring := decide (2 ≤ bits (cmdP0 d) 8 0)
  let log2 := decide (6 ≤ bits (cmdP0 d) 28 24) && decide (bits (cmdP0 d) 28 24 ≤ 16)
  let base := cmdAddr d % 4096 == 0
  let kind := bits (cmdP0 d) 18 16
  let len := fun lo hi => decide (lo ≤ cmdLen d) && decide (cmdLen d ≤ hi)
  match cmdCode d with
  | 0x01 => ring && log2 && base && decide (1 ≤ kind) && decide (kind ≤ 5) && (kind != 4 || decide (0 < bits (cmdP2 d) 15 8))
  | 0x02 => ring && log2 && base
  | 0x03 | 0x05 => ring
  | 0x04 => ring && decide (0 < bits (cmdP2 d) 15 8)
  | 0x40 => len 1 65535
  | 0x50 => len 1 1024
  | 0x52 => len 1 256
  | 0x53 => decide (1 ≤ bits (cmdP0 d) 24 16) && decide (bits (cmdP0 d) 24 16 ≤ 256) && decide (1000 ≤ cmdP3 d % 2 ^ 30)
      && decide (cmdP3 d % 2 ^ 30 ≤ 1000000000) && decide (cmdLen d < 10 ^ 9)
  | 0x60 => len 576 2097152
  | 0x63 => len 0 4096
  | 0x66 => len 64 4096 && cmdLen d % 64 == 0
  | 0x68 => bits (cmdP0 d) 19 16 != 15 || (bits (cmdP0 d) 1 0 != 3 && (cmdFlags d).testBit 0 && (cmdFlags d).testBit 1)
  | 0x70 => len 1 8704
  | 0x78 => len 512 131584
  | _ => true

/-- The descriptor passes the check that begins its preparation: a known CODE, no bit beside its fields, every field in range
(R24). -/
def cmdOk (d : CmdDesc) : Bool :=
  match cmdMask (cmdCode d) with
  | some m => cmdFieldsOk d m && cmdRanges d
  | none => false

/-- Bytes at ADDR that preparation reads; none of them for a command that needs no preparation (R362). -/
def cmdPrepLen (d : CmdDesc) : Nat :=
  match cmdCode d with
  | 0x42 => 256
  | 0x48 | 0x49 | 0x4A | 0x68 => 64
  | 0x52 => 8 * cmdLen d
  | 0x64 | 0x69 => 32
  | 0x67 => if (cmdFlags d).testBit 0 then 0 else 32
  | 0x78 => cmdLen d
  | _ => 0

/-- A read of the command's preparation failed (R24, R368). -/
def prepFailed (d : CmdDesc) : Bool := cmdOk d && decide (0 < cmdPrepLen d) && d.data.isNone

/-- Host memory that the command's work reads: addresses and lengths (R362). -/
def cmdWorkReads (d : CmdDesc) : List (Nat × Nat) :=
  match cmdCode d with
  | 0x40 => [(cmdAddr d, 256 * cmdLen d)]
  | 0x50 => [(cmdAddr d, 32 * cmdLen d)]
  | 0x70 => [(cmdAddr d, 16 * cmdLen d)]
  | 0x60 | 0x63 | 0x65 => [(cmdAddr d, cmdLen d)]
  | 0x64 => [(leAt (cmdData d) 0 8, 32), (leAt (cmdData d) 8 8, leAt (cmdData d) 24 4), (leAt (cmdData d) 16 8, 64)]
  | 0x68 => [(leAt (cmdData d) 16 8, leAt (cmdData d) 48 4), (leAt (cmdData d) 24 8, leAt (cmdData d) 52 4)]
  | _ => []

/-! ## Statuses (R361) -/

namespace Status
abbrev done : Nat := 0x00
abbrev errField : Nat := 0x01
abbrev busy : Nat := 0x02
abbrev errDma : Nat := 0x03
abbrev droppedFault : Nat := 0x04
abbrev droppedStop : Nat := 0x05
abbrev dropped : Nat := 0x06
abbrev tableFull : Nat := 0x10
abbrev deckInvalid : Nat := 0x11
abbrev flowExists : Nat := 0x12
abbrev flowAbsent : Nat := 0x13
abbrev flowFull : Nat := 0x14
abbrev storeInvalid : Nat := 0x15
abbrev anchorLocked : Nat := 0x18
abbrev gateNoTime : Nat := 0x19
abbrev errSig : Nat := 0x20
abbrev errRollback : Nat := 0x21
abbrev errFlash : Nat := 0x22
abbrev errAuth : Nat := 0x23
abbrev errEntropy : Nat := 0x24
abbrev errOtp : Nat := 0x25
abbrev errSeg : Nat := 0x28
end Status

/-! ## The course of a command -/

/-- What a command's application comes to: it completes now with a status and a detail, or its work goes on. -/
inductive CmdRes where
  | fin (status detail : Nat) (s : State)
  | work (s : State)

/-- A command refused for its fields or for state raises PROG_ERR (R361, R438; DEDUCED: the statuses that say 'no effect',
log entry 4), from the command processor's source (R437). -/
def cmdRefused (st : Nat) (s : State) : State :=
  if st = Status.errField ∨ st = Status.busy then progErr s 0x1E else s

/-- Complete a command at its application with a status. -/
def cmdFinish (d : CmdDesc) (point st det : Nat) (s : State) : State :=
  cmdPost (cmdRefused st s) d.ring d.index (cmdCode d) point st det

/-- ID_SIGN, SIG_VERIFY and HASH are jobs of the identity engine (R270). -/
def isIdJob (w : CmdWork) : Bool := w.code == 0x63 || w.code == 0x64 || w.code == 0x65

/-- The TRNG delivers (R122, R268, R269). -/
def trngGives (s : State) : Bool := domOn s 21 && s.sec.trngOk && !s.sec.trngStopped && unitOk s 0x17

/-- A job of the activation controller that the identity engine can run now (R133, R136, R137). -/
def actJob (s : State) : Bool :=
  match s.act.exch with
  | some e => (e.building && trngGives s) || (e.z.isSome && e.part0.isSome)
  | none => false

/-- The identity engine, where it is free, takes its next job: one of the activation controller's, else the oldest of the
host's (R270). -/
def idNext (s : State) : State :=
  let mine := fun (w : CmdWork) => isIdJob w && s.sec.idJob == some (w.ring, w.index)
  if s.host.work.any mine then s
  else
    let next := if actJob s then none else (s.host.work.find? isIdJob).map (fun w => (w.ring, w.index))
    { s with sec := { s.sec with idJob := next } }

/-- The command's work goes on, and its reads of host memory are issued (R362). -/
def workBegin (d : CmdDesc) (point : Nat) (s : State) : State :=
  let s := (cmdWorkReads d).foldl (fun s r => emitReads s r.1 r.2) s
  idNext { s with host := { s.host with work := s.host.work ++ [{ ring := d.ring, index := d.index, code := cmdCode d, pick := point, desc := d }] } }

/-- Apply a command at its commit point: a descriptor that fails the check of R24 ends in ERR_FIELD, a failed read of its
preparation in ERR_DMA, both without effect (R28, R359, R368); otherwise its own effect. -/
def cmdApply (body : CmdDesc → State → CmdRes) (d : CmdDesc) (s : State) : State :=
  if !cmdOk d then cmdFinish d s.pick.point Status.errField 0 s
  else if prepFailed d then cmdFinish d s.pick.point Status.errDma 0 s
  else match body d s with
    | .fin st det s' => cmdFinish d s.pick.point st det s'
    | .work s' => workBegin d s.pick.point s'

/-- A read of host memory fails: counted, reported to Selvedge and through AER (R368). -/
def dmaErr (s : State) : State :=
  let s := emit { s with host := { s.host with aer := s.host.aer + 1 } } .aerReport
  raiseFree (count s 14 16) 0x1D 0x051

/-- The command at (ring, index) has been dispatched and waits for its commit point. -/
def isQueued (s : State) (d : CmdDesc) : Bool := s.host.cmds.any (fun c => c.desc.ring == d.ring && c.desc.index == d.index)

/-- Take the command at (ring, index) out of the list of validated commands. -/
def unqueue (s : State) (d : CmdDesc) : State :=
  { s with host := { s.host with cmds := s.host.cmds.filter (fun c => !(c.desc.ring == d.ring && c.desc.index == d.index)) } }

/-- The state in which a command row applies its command: one that a descriptor read has dispatched is taken out of the list
of validated commands, so that it is applied once; the failed read of one that comes with the row is reported now. The
command takes one of the commit point's 256 places (R25). -/
def rowTaken (d : CmdDesc) (s : State) : State :=
  let s := if isQueued s d then unqueue s d else if prepFailed d then dmaErr s else s
  { s with pick := { s.pick with applied := s.pick.applied + 1 } }

/-- A command row's application waits for the next commit point: 256 commands have completed at this one (R25), or it is a
DECK_SWAP behind a RULE_WRITE that has taken effect (R191, log entry 14). -/
def rowWaits (code : Nat) (s : State) : Bool := decide (256 ≤ s.pick.applied) || (code == 0x41 && s.heddle.ruled)

/-- A command row: the command of code `code` on a CMD ring that is not OFF reaches its commit point (log entry 4), or is
carried over to the next one. -/
def cmdRow (code : Nat) (body : CmdDesc → State → CmdRes) (d : CmdDesc) (s : State) : State :=
  if cmdCode d = code ∧ (ringAt s d.ring).kind = .cmd ∧ (ringAt s d.ring).state ≠ .off then
    if !rowWaits code s then cmdApply body d (rowTaken d s)
    else if isQueued s d then s
    else
      let s := if prepFailed d then dmaErr s else s
      { s with host := { s.host with cmds := s.host.cmds ++ [⟨d, false⟩] }, pick := { s.pick with carried := s.pick.carried + 1 } }
  else s

/-- The command's unit lies in domain `dom`; with the domain not ON the command completes BUSY (R420). -/
def needDomain (dom : Nat) (s : State) (k : State → CmdRes) : CmdRes :=
  if domOn s dom then k s else .fin Status.busy 0 s

/-- End the work of the command at (ring, index), if it is under way. -/
def workEnd (s : State) (ring index status detail : Nat) : State :=
  match s.host.work.find? (fun w => w.ring == ring && w.index == index) with
  | none => s
  | some w =>
    let s := idNext { s with host := { s.host with work := s.host.work.erase w } }
    cmdPost s ring index w.code w.pick (w.status.getD status) detail

/-- Data written to host memory, in write requests that do not exceed Max Payload Size, with the Relaxed Ordering attribute as
HOST_CTRL.RO_EN says (R335, R352). -/
def dmaWrite (s : State) (addr : Nat) (d : List Byte) : State :=
  let m := 128 * 2 ^ s.host.pcie.mps
  let ro := flag s Reg.hostCtrl 1
  (List.range ((d.length + m - 1) / m)).foldl (fun s i => emit s (.hostWrite (addr + i * m) ((d.drop (i * m)).take m) ro)) s

/-! ## RX delivery -/

/-- The posted buffers that hold `len` bytes, at most `n` of them; none if they do not. -/
def takeBuffers : Nat → Nat → List (Nat × Nat × Nat) → Option (List (Nat × Nat × Nat))
  | 0, _, _ => none
  | _, _, [] => none
  | n + 1, len, b :: t =>
    if len ≤ b.2.2 then some [b] else (takeBuffers n (len - b.2.2) t).map (b :: ·)

/-- RX ring `r` has a free entry for `len` bytes (R350): enough posted buffers and a free CQ entry. -/
def rxFree (s : State) (r len : Nat) : Bool :=
  let x := ringAt s r
  x.kind == .rx && (x.state == .run || x.state == .stalled) && (takeBuffers 64 len x.posted).isSome && decide (0 < cqFree s x.cq)

/-- Write a frame's bytes into its buffers, each completely before the next. -/
def rxFill (s : State) : List (Nat × Nat × Nat) → List Byte → State
  | [], _ => s
  | b :: t, d => rxFill (dmaWrite s b.2.1 (d.take b.2.2)) t (d.drop b.2.2)

/-- Flags of byte 13 of an RX_FRAME completion: slow path, mirror, management. -/
structure RxKind where
  slow : Bool := false
  mirror : Bool := false
  mgmt : Bool := false
  reason : Nat := 0

/-- The body of an RX_FRAME completion (R354). -/
def rxBody (f : Frame) (k : RxKind) (len bufs : Nat) : Nat :=
  f.tsNs % 2 ^ 32 + f.tsSec % 2 ^ 48 * 2 ^ 32 + len % 2 ^ 14 * 2 ^ 80 + bufs % 2 ^ 7 * 2 ^ 96
    + (b2n f.tsValid + 2 * b2n k.slow + 4 * b2n k.mirror + 8 * b2n k.mgmt + 16 * b2n f.ptpEvent) * 2 ^ 104
    + (f.srcId % 512 + f.srcType % 4 * 512) * 2 ^ 112 + f.stream % 2 ^ 16 * 2 ^ 128 + k.reason % 256 * 2 ^ 144
    + f.gen % 256 * 2 ^ 152 + f.shape % 64 * 2 ^ 160

/-- Deliver a frame to RX ring `r`; none where the ring has no free entry for it (R350). -/
def rxDeliver (s : State) (r : Nat) (f : Frame) (k : RxKind) : Option State :=
  let x := ringAt s r
  if rxFree s r f.data.length then
    match takeBuffers 64 f.data.length x.posted with
    | none => none
    | some bs =>
      let s := rxFill (setRing s r { x with posted := x.posted.drop bs.length }) bs f.data
      let first := (bs.head?.map (·.1)).getD 0
      let last := (bs.getLast?.map (·.1)).getD 0
      some (post s r ⟨first, last, false,
        { body := rxBody f k f.data.length bs.length, index := last, ring := r, typ := 3 }⟩)
  else none

end Sys2Proof.Machine
end

