-- ==== Sys2Proof/Machine/Sec.lean ====
section
/-! DEFINITION. Machine/Sec.lean: stream keys, CIPHER_0 and CIPHER_1, the TRNG, the identity engine, images, flash and
the SEC commands (09_security.md). -/

namespace Sys2Proof.Machine

open Sys2Proof

/-- Replace the unit's state. -/
def setSec (s : State) (x : Sec) : State := { s with sec := x }

/-! ## Keys in their slots (R264) -/

/-- XOR with a mask, byte for byte. -/
def xorMask (l mask : List Byte) : List Byte := l.zipIdx.map (fun e => e.1 ^^^ mask.getD e.2 0)

/-- The key that a slot holds. -/
def keyOf (m : Masked) : List Byte := xorMask m.data m.mask

/-- A key as its slot takes it, under a fresh random mask. -/
def maskKey (key : List Byte) (s : State) : Masked × State :=
  let (m, s) := drawBytes s 32
  (⟨xorMask key m, m⟩, s)

/-- Requests to the DRBG of an engine (0 CIPHER_0, 1 CIPHER_1, 2 X25519, 3 Ed25519): one for each block (R267). -/
def drbgUse (s : State) (engine n : Nat) : State :=
  setSec s { s.sec with drbg := supd {} s.sec.drbg engine (fun x => { x with requests := x.requests + n }) }

/-- 16-byte blocks of `n` bytes. -/
def blocks (n : Nat) : Nat := (n + 15) / 16

/-! ## Stream keys (R261 to R263) -/

/-- Replace the key slots; SEC_KEY_STAT.USED follows. -/
def setKeys (s : State) (ks : List KeySlot) : State :=
  setReg (setSec s { s.sec with keys := ks }) Reg.secKeyStat ks.length

/-- The slot that holds (STREAM, DIR, INDEX). -/
def keyFind (s : State) (stream : Nat) (weft : Bool) (index : Nat) : Option KeySlot :=
  s.sec.keys.find? (fun k => k.stream == stream && k.weft == weft && k.index == index)

/-- A key is loaded for (STREAM, DIR, INDEX). -/
def keyLoaded (s : State) (stream : Nat) (weft : Bool) (index : Nat) : Bool := (keyFind s stream weft index).isSome

/-- Load a key at step 5 of its commit point: in place, or into a free slot (R261), under a new mask (R264). -/
def loadKey (s : State) (stream : Nat) (weft : Bool) (index : Nat) (key : List Byte) : State :=
  let (m, s) := maskKey key s
  let k : KeySlot := { stream := stream, weft := weft, index := index, key := m, order := s.sec.keyOrder }
  let rest := s.sec.keys.filter (fun k => !(k.stream == stream && k.weft == weft && k.index == index))
  let s := setSec s { s.sec with keyOrder := s.sec.keyOrder + 1 }
  count (setKeys s (rest ++ [k])) 10 11

/-- Release the slots that `p` picks; each release is counted (R263). -/
def releaseKeys (s : State) (p : KeySlot → Bool) : State :=
  let gone := s.sec.keys.filter p
  if gone.isEmpty then s else countBy (setKeys s (s.sec.keys.filter (fun k => !p k))) 10 12 gone.length

/-- Set the release time of the slots that `p` picks. -/
def retireKeys (s : State) (p : KeySlot → Bool) (due : Option Nat) : State :=
  setSec s { s.sec with keys := s.sec.keys.map (fun k => if p k then { k with retire := due } else k) }

/-- KEY_SWITCH at EFFECTIVE: the old weft key is released at the eighth commit point after the switch (R262, R263). -/
def switchKey (s : State) (stream old new : Nat) : State :=
  let s := retireKeys s (fun k => k.stream == stream && k.weft && k.index == old && old != new) (some (s.pick.commits + 8))
  retireKeys s (fun k => k.stream == stream && k.weft && k.index == new) none

/-- A warp frame authenticated under `k`: keys loaded before it start their count, and a use restarts its own (R263). -/
def warpKeyUsed (s : State) (k : KeySlot) : State :=
  let due := s.pick.commits + fld s Reg.secKeyCfg 15 0
  let s := retireKeys s (fun o => o.stream == k.stream && !o.weft && decide (o.order < k.order) && o.retire.isNone) (some due)
  if k.retire.isSome then retireKeys s (fun o => o == k) (some due) else s

/-- KEY_RETIRE: a key whose count has expired is released and zeroised (R263). -/
def execKeyRetire (stream : Nat) (weft : Bool) (index : Nat) (s : State) : Host.Outcome State Fault Refusal :=
  .next (match keyFind s stream weft index with
  | none => s
  | some k =>
    match k.retire with
    | none => s
    | some due => if due ≤ s.pick.commits ∧ domOn s 21 = true then releaseKeys s (fun o => o == k) else s)

/-! ## Line encryption (R256 to R260) -/

/-- The 12-byte IV of a downstream stream frame (R257). -/
def ivWarp (pick offset stream : Nat) : List Byte := beBytes 1 3 ++ beBytes 6 pick ++ beBytes 3 offset ++ beBytes 2 stream

/-- The 12-byte IV of an upstream stream frame: granting pick, START, header position in units of 8 bytes (R257). -/
def ivWeft (pick start pos : Nat) : List Byte := beBytes 1 4 ++ beBytes 6 pick ++ beBytes 2 start ++ beBytes 3 pos

/-- Encryption of a whole message: ciphertext and tag. -/
def gcmSeal (key iv aad pt : List Byte) : List Byte :=
  let c := Config.gcmEncrypt key iv aad pt
  c ++ Config.gcmTag key iv aad c

/-- Decryption of ciphertext followed by its 16-byte tag: none where the tag fails. -/
def gcmOpen (key iv aad ct : List Byte) : Option (List Byte) :=
  let n := ct.length - 16
  let c := ct.take n
  if Config.gcmTag key iv aad c = ct.drop n then some (Config.gcmDecrypt key iv aad c) else none

/-- CIPHER_0 on a frame (R258): header bytes, STREAM, ENC, KEY, LEN bytes of payload, carrying pick, header offset.
The plaintext of a frame that passes; none where a test fails, with `true` where it was the tag test. -/
def cipher0 (s : State) (hdr : List Byte) (stream : Nat) (enc : Bool) (key : Nat) (payload : List Byte) (pick offset : Nat) :
    Option (List Byte) × Bool × State :=
  let pass (p : List Byte) (s : State) := (some p, false, countBy (count s 10 0) 10 1 p.length)
  if !enc then
    if flag s Reg.secCtrl 0 then pass payload s else (none, false, count s 10 4)
  else if payload.length < 16 then (none, false, count s 10 5)
  else match keyFind s stream false key with
    | none => (none, false, count s 10 3)
    | some k =>
      let s := drbgUse s 0 (blocks (payload.length - 16))
      match gcmOpen (keyOf k.key) (ivWarp pick offset stream) hdr payload with
      | none => (none, true, count s 10 2)
      | some p => pass p (warpKeyUsed s k)

/-! ## TRNG and DRBG (R267 to R269) -/

/-- SEC_STAT from the unit's state. -/
def secStatus (s : State) : State :=
  setReg s Reg.secStat (b2n (s.sec.job != .none) * 8 + b2n (s.sec.stale != 0) * 4 + b2n s.sec.trngStopped * 2 + b2n s.sec.trngOk)

/-- Change the unit's state and what SEC_STAT shows of it. -/
def updSec (s : State) (x : Sec) : State := secStatus (setSec s x)

/-- A raw bit behind the last one: how often it has come in a row. -/
def rctStep (x : Option (Bool × Nat)) (b : Bool) : Bool × Nat :=
  match x with
  | some (l, n) => if l == b then (b, n + 1) else (b, 1)
  | none => (b, 1)

/-- The repetition count test over raw bits: whether they pass, and what the test goes on with (R268). -/
def rctScan : List Bool → Option (Bool × Nat) → Bool × Option (Bool × Nat)
  | [], x => (true, x)
  | b :: t, x =>
    let y := rctStep x b
    let r := rctScan t (some y)
    (decide (y.2 < Config.rctCutoff) && r.1, r.2)

/-- The adaptive proportion test over a window of 1,024 raw bits (R268). -/
def aptOk (l : List Bool) : Bool := decide ((l.filter (· == l.headD false)).length < Config.aptCutoff)

/-- The 2,048 raw bits of a block, the first one first. -/
def rawBits (raw : BitVec 2048) : List Bool := (List.range 2048).map raw.getLsbD

/-- A block passes both health tests. -/
def blockOk (s : State) (raw : BitVec 2048) : Bool :=
  (rctScan (rawBits raw) s.sec.rct).1 && aptOk ((rawBits raw).take 1024) && aptOk ((rawBits raw).drop 1024)

/-- TRNG_BLOCK: 2,048 raw bits are tested and, where they pass, conditioned to 512 output bits (R268); the third consecutive
failure stops output (R269). -/
def execTrngBlock (raw : BitVec 2048) (s : State) : Host.Outcome State Fault Refusal :=
  .next (if domOn s 21 && !s.sec.trngStopped then
    let ok := blockOk s raw
    let s := setSec s { s.sec with rct := (rctScan (rawBits raw) s.sec.rct).2 }
    if ok then updSec s { s.sec with trngFails := 0, trngOk := true, trngOut := Config.sha512 (leBytes 256 raw.toNat) }
    else
      let s := count s 10 13
      if 2 ≤ s.sec.trngFails then
        raiseFree (updSec s { s.sec with trngFails := 0, trngStopped := true, trngOk := false }) 0x17 0x060
      else updSec s { s.sec with trngFails := s.sec.trngFails + 1 }
  else s)

/-- A write of 1 to SEC_TRNG_CTRL.RESTART (R269). -/
def trngRestart (s : State) : State := updSec s { s.sec with trngFails := 0, trngStopped := false, rct := none }

/-- The DRBG of an engine is due for a reseed (R267). -/
def drbgDue (s : State) (engine : Nat) : Bool := decide (65536 ≤ (sget {} s.sec.drbg engine).requests)

/-- DRBG_RESEED: after 65,536 requests the DRBG of an engine (0 CIPHER_0, 1 CIPHER_1, 2 X25519, 3 Ed25519) reseeds, or
runs on without entropy while the TRNG has failed (R267). -/
def execDrbgReseed (engine : Nat) (s : State) : Host.Outcome State Fault Refusal :=
  .next (if domOn s 21 && decide (engine < 4) && drbgDue s engine then
    let bit := 2 ^ engine
    let rest := s.sec.stale - b2n (s.sec.stale.testBit engine) * bit
    if s.sec.trngStopped then updSec s { s.sec with stale := rest + bit }
    else
      let (seed, s) := drawBytes s 48
      updSec s { s.sec with stale := rest, drbg := sput {} s.sec.drbg engine ⟨seed, 0⟩ }
  else s)

/-- Consumers that the TRNG serves before RANDOM wait: DRBG reseeds and key-slot masks (R268). -/
def trngAhead (s : State) : Bool := (List.range 4).any (drbgDue s) || s.host.work.any (fun w => w.code == 0x67)

/-! ## Images (R273, R274) -/

/-- An image's body. -/
def imgBody (img : List Byte) : List Byte := (img.drop 512).take (leAt img 20 4)

/-- Section `k`: TYPE, TARGET, OFFSET, LENGTH. -/
def imgSect (img : List Byte) (k : Nat) : Nat × Nat × Nat × Nat :=
  (byteAt img (96 + 16 * k), byteAt img (97 + 16 * k), leAt img (100 + 16 * k) 4, leAt img (104 + 16 * k) 4)

def imgVersion (img : List Byte) : Nat := leAt img 8 4
def imgArb (img : List Byte) : Nat := byteAt img 12

/-- LOAD of a section of Skein code: TYPE 0x01 inside one bank's share of the load space, TYPE 0x04 within one memory
(R388, R389). -/
def sectLoadOk (t load len : Nat) : Bool :=
  if t = 1 then decide (load + len ≤ 0x8000)
  else if t = 4 then
    decide (load + len ≤ 0x10000) || (decide (0x10000 ≤ load) && decide (load + len ≤ 0x18000))
      || (decide (0x18000 ≤ load) && decide (load + len ≤ 0x20000))
  else true

/-- The sections lie in the body, start at multiples of 64, do not overlap, and the entries beyond NSECT are 0. -/
def imgSectsOk (img : List Byte) (keyId : Nat) : Bool :=
  let n := byteAt img 15
  let ss := (List.range n).map (imgSect img)
  ss.all (fun (t, g, o, l) =>
      (if keyId = 0 then t == 2 || t == 3 || (t == 1 && decide (g < 3)) else decide (1 ≤ t) && decide (t ≤ 4))
        && o % 64 == 0 && decide (o + l ≤ leAt img 20 4))
    && (List.range n).all (fun i => sectLoadOk (byteAt img (96 + 16 * i)) (leAt img (108 + 16 * i) 4) (leAt img (104 + 16 * i) 4))
    && (List.range n).all (fun i => slice img (98 + 16 * i) 2 == [0, 0] && (List.range n).all (fun j =>
        let a := imgSect img i
        let b := imgSect img j
        i == j || decide (a.2.2.1 + a.2.2.2 ≤ b.2.2.1) || decide (b.2.2.1 + b.2.2.2 ≤ a.2.2.1)))
    && slice img (96 + 16 * n) (16 * (16 - n)) == List.replicate (16 * (16 - n)) 0

/-- Every header field holds a permitted value (R273). -/
def imgFieldsOk (img : List Byte) (keyId : Nat) : Bool :=
  decide (512 ≤ img.length) && leAt img 0 4 == 0x4F4E524B && leAt img 4 2 == 1 && leAt img 6 2 == 512
    && decide (imgArb img ≤ 64) && byteAt img 13 == keyId && byteAt img 14 == 0xB1
    && decide (1 ≤ byteAt img 15) && decide (byteAt img 15 ≤ 16) && leAt img 16 4 == 0x9640
    && leAt img 20 4 % 64 == 0 && decide (64 ≤ leAt img 20 4) && decide (leAt img 20 4 ≤ 2096640)
    && slice img 24 8 == List.replicate 8 0 && slice img 352 96 == List.replicate 96 0
    && imgSectsOk img keyId

/-- The 16 signed prefix bytes: "Karano image v1" and a zero byte (R274). -/
def imgPrefix : List Byte := [0x4B, 0x61, 0x72, 0x61, 0x6E, 0x6F, 0x20, 0x69, 0x6D, 0x61, 0x67, 0x65, 0x20, 0x76, 0x31, 0x00]

/-- The signature verifies and the digest matches. -/
def imgSigned (img pub : List Byte) : Bool :=
  Config.ed25519Verify pub (imgPrefix ++ img.take 448) (slice img 448 64)
    && decide (leAt img 20 4 + 512 ≤ img.length) && Config.sha512 (imgBody img) == slice img 32 64

/-- Test an image under R274 with KEY_ID 0 against an anti-rollback counter: 0, ERR_SIG or ERR_ROLLBACK. -/
def imgCheck (img : List Byte) (arb : Nat) : Nat :=
  if !(imgFieldsOk img 0 && imgSigned img Config.imageKey) then Status.errSig
  else if imgArb img < arb then Status.errRollback else 0

/-- The image digest and the adaptation firmware digest (R274). -/
def imgDigest (img : List Byte) : List Byte := Config.sha512 (img.take 512 ++ imgBody img)
def imgSectBytes (img : List Byte) (k : Nat) : List Byte :=
  let (_, _, o, l) := imgSect img k
  ((imgBody img).drop o).take l
def imgFwDigest (img : List Byte) : List Byte :=
  Config.sha512 ((((List.range (byteAt img 15)).filter (fun k => (imgSect img k).1 == 1)).map (imgSectBytes img)).flatten)

/-! ## Flash and boot (R275 to R277) -/

/-- Contents of a slot: false A, true B. -/
def flashSlot (s : State) (b : Bool) : List Byte := if b then s.sec.slotB else s.sec.slotA

def setFlashSlot (s : State) (b : Bool) (l : List Byte) : State :=
  setSec s (if b then { s.sec with slotB := l } else { s.sec with slotA := l })

/-- A_VALID or B_VALID after a test of the slot. -/
def setSlotValid (s : State) (b ok : Bool) : State :=
  setSec s (if b then { s.sec with bValid := ok } else { s.sec with aValid := ok })

/-- A boot record copy is valid; its SEQ and ACTIVE (R276). -/
def recValid (r : List Byte) : Bool :=
  r.length == 64 && leAt r 0 4 == 0x52425343 && beAt r 60 4 == crc32c (r.take 60)
def recSeq (r : List Byte) : Nat := leAt r 4 4
def recActive (r : List Byte) : Bool := byteAt r 8 == 1

/-- `a` is newer than `b` in serial arithmetic modulo 2^32. -/
def seqNewer (a b : Nat) : Bool := decide ((a + 2 ^ 32 - b) % 2 ^ 32 < 2 ^ 31) && a != b

/-- The newer valid copy: true copy 1. -/
def newerRec (s : State) : Option Bool :=
  match recValid s.sec.rec0, recValid s.sec.rec1 with
  | false, false => none
  | true, false => some false
  | false, true => some true
  | true, true => some (seqNewer (recSeq s.sec.rec1) (recSeq s.sec.rec0))

/-- A boot record (R276). -/
def mkRec (seq : Nat) (active : Bool) : List Byte :=
  let b := leBytes 4 0x52425343 ++ leBytes 4 seq ++ leBytes 1 (b2n active) ++ List.replicate 51 0
  b ++ beBytes 4 (crc32c b)

/-- Write a boot record naming `active` into the copy that is invalid or older (R276). -/
def writeRec (s : State) (active : Bool) : State :=
  match newerRec s with
  | none => setSec s { s.sec with rec0 := mkRec 1 active }
  | some true => setSec s { s.sec with rec0 := mkRec (recSeq s.sec.rec1 + 1) active }
  | some false => setSec s { s.sec with rec1 := mkRec (recSeq s.sec.rec0 + 1) active }

/-- The slot that the newer boot record names; A without one (R277). -/
def preferredSlot (s : State) : Bool :=
  match newerRec s with
  | none => false
  | some c => recActive (if c then s.sec.rec1 else s.sec.rec0)

/-- Test a slot and record the result in A_VALID or B_VALID. -/
def testSlot (s : State) (b : Bool) (arb : Nat) : Bool × State :=
  let ok := imgCheck (flashSlot s b) arb == 0
  (ok, setSlotValid s b ok)

/-- Every section of a TYPE, in section-table order. -/
def imgTyped (img : List Byte) (t : Nat) : List Byte :=
  (((List.range (byteAt img 15)).filter (fun k => (imgSect img k).1 == t)).map (imgSectBytes img)).flatten

/-- An image comes into force with its microcode and its default tables (R273, R277). -/
def bootTables (img : List Byte) (s : State) : State :=
  setSec s { s.sec with image := img, ucode := imgTyped img 2, tables := imgTyped img 3 }

/-- The boot ROM's choice (R277). -/
def bootChoice (s : State) : State :=
  let p := preferredSlot s
  let s := setSec s { s.sec with preferred := p, chosen := true }
  let (ok, s) := testSlot s p s.sec.otpArb
  if ok then bootTables (flashSlot s p) (setSec s { s.sec with running := p, fallback := false, noImage := false })
  else
    let (ok2, s) := testSlot s (!p) s.sec.otpArb
    if ok2 then bootTables (flashSlot s (!p)) (setSec s { s.sec with running := !p, fallback := true, noImage := false })
    else
      let (x, s) := draw s
      setSec s { s.sec with running := x % 2 == 1, fallback := false, noImage := true, image := [] }

/-- The slot that IMAGE_INSTALL writes and IMAGE_ACTIVATE brings into force (R278, R280, R283). -/
def targetSlot (s : State) : Bool := if s.sec.noImage then s.sec.preferred else !s.sec.running

/-- Step 3 of R280 at step 3 of a commit point: the loaded image comes into force with its microcode and tables, and the
command will complete with this pick count. -/
def imgSwap (s : State) : State :=
  let t := targetSlot s
  match s.sec.job with
  | .loaded =>
    let s := setSec s { s.sec with
      running := t, noImage := false, image := flashSlot s t, job := .swapped s.pick.point
      ucode := s.sec.ucodeStby, ucodeStby := s.sec.ucode, tables := s.sec.tablesStby, tablesStby := s.sec.tables }
    { s with host := { s.host with work := s.host.work.map (fun w => if w.code = 0x61 then { w with pick := s.pick.point } else w) } }
  | _ => s

/-! ## Registers composed from the unit's state -/

/-- The selected digest (SEC_DIGEST_SEL). -/
def selDigest (s : State) : List Byte :=
  match fldS s Reg.secDigestSel 1 0 with
  | 0 => if s.sec.image.isEmpty then [] else imgDigest s.sec.image
  | 1 => if s.sec.image.isEmpty then [] else imgFwDigest s.sec.image
  | _ => s.sec.codeDigest

/-- SEC registers that show the unit's state. -/
def secRo (s : State) (a : Nat) : Option Nat :=
  let x := s.sec
  if a = Reg.secBoot then
    some (b2n x.bValid * 32 + b2n x.aValid * 16 + b2n x.noImage * 8 + b2n x.fallback * 4 + b2n x.preferred * 2 + b2n x.running)
  else if a = Reg.secImgVer then some (if x.image.isEmpty then 0 else imgVersion x.image)
  else if a = Reg.secImgArb then some (if x.image.isEmpty then 0 else imgArb x.image)
  else if a = Reg.secOtpArb then some x.otpArb
  else if Reg.secIdPub 0 ≤ a ∧ a ≤ Reg.secIdPub 7 then some (leAt (Config.ed25519Public x.idSeed) (a - Reg.secIdPub 0) 4)
  else if Reg.secCustPub 0 ≤ a ∧ a ≤ Reg.secCustPub 7 then some (leAt x.custKey (a - Reg.secCustPub 0) 4)
  else if Reg.secDigest 0 ≤ a ∧ a ≤ Reg.secDigest 15 then some (leAt (selDigest s) (a - Reg.secDigest 0) 4)
  else none

/-! ## Commands: application at the commit point (R282, R283) -/

/-- SEC_IMG_PROG: the phase and the bytes completed in it. -/
def setPhase (s : State) (p n : Nat) : State := setReg s Reg.secImgProg (p * 2 ^ 28 + n % 2 ^ 22)

/-- An image command stops: IMG_BUSY and the phase clear. What it has written so far stays (R279). -/
def imgStop (s : State) : State :=
  if s.sec.job = .none then s else setPhase (updSec s { s.sec with job := .none }) 0 0

/-- IMAGE_INSTALL begins with CHECK (R278). -/
def cmdImageInstall (_ : CmdDesc) (s : State) : CmdRes :=
  needDomain 21 s fun s =>
    if s.sec.job != .none then .fin Status.busy 0 s
    else .work (setPhase (updSec s { s.sec with job := .install 1 [] }) 1 0)

/-- IMAGE_ACTIVATE begins to read the slot (R280). -/
def cmdImageActivate (_ : CmdDesc) (s : State) : CmdRes :=
  needDomain 21 s fun s =>
    if s.sec.job != .none then .fin Status.busy 0 s
    else .work (setPhase (updSec s { s.sec with job := .activate }) 6 0)

/-- ARB of the running image; 0 with NO_IMAGE. -/
def runArb (s : State) : Nat := if s.sec.image.isEmpty then 0 else imgArb s.sec.image

/-- ARB_RAISE (R281). -/
def cmdArbRaise (_ : CmdDesc) (s : State) : CmdRes :=
  needDomain 21 s fun s =>
    if s.sec.job != .none then .fin Status.busy 0 s
    else if runArb s ≤ s.sec.otpArb then .fin Status.done 0 s
    else .work s

/-- ID_SIGN (R271). -/
def cmdIdSign (_ : CmdDesc) (s : State) : CmdRes := needDomain 21 s .work

/-- SIG_VERIFY (R282): a message of up to 65,536 bytes. -/
def cmdSigVerify (d : CmdDesc) (s : State) : CmdRes :=
  if 65536 < leAt (cmdData d) 24 4 then .fin Status.errField 0 s else needDomain 21 s .work

/-- HASH (R282). -/
def cmdHash (_ : CmdDesc) (s : State) : CmdRes := needDomain 21 s .work

/-- RANDOM (R269, R282): 64 to 4,096 bytes in multiples of 64. -/
def cmdRandom (_ : CmdDesc) (s : State) : CmdRes := needDomain 21 s .work

/-- A host key goes into its slot under a new mask (R264). -/
def hostKeySet (d : CmdDesc) (s : State) : State :=
  let (m, s) := maskKey (slice (cmdData d) 0 32) s
  setSec s { s.sec with hostKeys := sput {} s.sec.hostKeys (cmdP0 d % 64) m }

/-- HOST_KEY (R282): it waits for the slot's mask where the TRNG delivers none (R268, R269). -/
def cmdHostKey (d : CmdDesc) (s : State) : CmdRes :=
  needDomain 21 s fun s =>
    if (cmdFlags d).testBit 0 then .fin Status.done 0 (setSec s { s.sec with hostKeys := sput {} s.sec.hostKeys (cmdP0 d % 64) {} })
    else if trngGives s then .fin Status.done 0 (hostKeySet d s)
    else .work s

/-- OTP_CUST_KEY (R272, R282). -/
def cmdOtpCustKey (d : CmdDesc) (s : State) : CmdRes :=
  needDomain 21 s fun s =>
    if s.sec.custWritten then .fin Status.errOtp 0 s
    else .fin Status.done 0 (setSec s { s.sec with custKey := slice (cmdData d) 0 32, custWritten := true })

/-- Fields of a GCM command. -/
def gcmOp (d : CmdDesc) : Nat := cmdP0 d % 4
def gcmSlot (d : CmdDesc) : Nat := bits (cmdP0 d) 13 8
def gcmCtx (d : CmdDesc) : Nat := bits (cmdP0 d) 19 16
def gcmFirst (d : CmdDesc) : Bool := (cmdFlags d).testBit 0
def gcmLast (d : CmdDesc) : Bool := (cmdFlags d).testBit 1
def gcmAadLen (d : CmdDesc) : Nat := leAt (cmdData d) 48 4
def gcmDataLen (d : CmdDesc) : Nat := leAt (cmdData d) 52 4

/-- The command names a context. -/
def gcmUsesCtx (d : CmdDesc) : Bool := gcmOp d == 3 || !(gcmFirst d && gcmLast d)

/-- Context `c`. -/
def gcmCtxAt (s : State) (c : Nat) : Option GcmCtx := sget none s.sec.ctxs c

def setGcmCtx (s : State) (c : Nat) (x : Option GcmCtx) : State :=
  setSec s { s.sec with ctxs := sput none s.sec.ctxs c x }

/-- The request breaks a rule of R266 or the layout of its parameter block. -/
def gcmBad (d : CmdDesc) (s : State) : Bool :=
  let opened := (gcmCtxAt s (gcmCtx d)).isSome
  slice (cmdData d) 12 4 != [0, 0, 0, 0] || slice (cmdData d) 56 8 != List.replicate 8 0
    || decide (65535 < gcmAadLen d) || decide (1048576 < gcmDataLen d)
    || (gcmOp d == 3 && !opened)
    || (gcmOp d != 3 && !gcmFirst d && decide (0 < gcmAadLen d))
    || (gcmOp d != 3 && !gcmLast d && gcmDataLen d % 16 != 0)
    || (gcmOp d != 3 && gcmFirst d && !gcmLast d && opened)
    || (gcmOp d != 3 && !gcmFirst d && !opened)

/-- A message as its FIRST segment opens it. -/
def gcmFresh (d : CmdDesc) (s : State) : GcmCtx :=
  { key := sget {} s.sec.hostKeys (gcmSlot d), iv := slice (cmdData d) 0 12, aad := [], inp := [], outp := [] }

/-- GCM (R266): checks, then ABORT at once or the segment's work. A FIRST segment takes its context now. -/
def cmdGcm (d : CmdDesc) (s : State) : CmdRes :=
  if gcmBad d s then .fin Status.errField 0 s
  else needDomain 20 s fun s => needDomain 21 s fun s =>
    if gcmOp d = 3 then .fin Status.done 0 (count (setGcmCtx s (gcmCtx d) none) 10 10)
    else
      let s := setSec s { s.sec with lineJobs := 0 }
      .work (if gcmFirst d && !gcmLast d then setGcmCtx s (gcmCtx d) (some (gcmFresh d s)) else s)

/-! ## Commands: the end of their work -/

/-- What a command's work met (Syntax.lean). -/
abbrev WorkData := WorkIn

/-- Suspensions of a host GCM request: LINE and MSG work that came while it ran suspended it at a block boundary and saved
its state in context 15, each time counted (R265). How often is told with the command, and never more often than such work
came. -/
def gcmSuspend (c : GcmCtx) (n : Nat) (s : State) : State :=
  let n := min n s.sec.lineJobs
  if n = 0 then s else countBy (setGcmCtx s 15 (some c)) 10 9 n

/-- The segment's work (R266): output, and the tag or its check. `c` is the message so far. -/
def gcmWork (d : CmdDesc) (w : WorkData) (s : State) : Nat × State :=
  let c := if gcmFirst d then gcmFresh d s else (gcmCtxAt s (gcmCtx d)).getD { key := {}, iv := [], aad := [], inp := [], outp := [] }
  let aad := c.aad ++ w.reads.getD 0 []
  let inp := c.inp ++ w.reads.getD 1 []
  let key := keyOf c.key
  let outp := match gcmOp d with
    | 0 => Config.gcmEncrypt key c.iv aad inp
    | 1 => Config.gcmDecrypt key c.iv aad inp
    | _ => []
  let s := drbgUse (gcmSuspend c w.suspended s) 1 (blocks (w.reads.getD 1 []).length)
  let part := outp.drop c.outp.length
  let s := if part.isEmpty then s else dmaWrite s (leAt (cmdData d) 32 8) part
  if w.failed then (Status.errDma, s)
  else
    let s := if gcmUsesCtx d then
        setGcmCtx s (gcmCtx d) (if gcmLast d then none else some { c with aad := aad, inp := inp, outp := outp })
      else s
    let tag := Config.gcmTag key c.iv aad (if gcmOp d = 0 then outp else inp)
    if !gcmLast d then (Status.done, s)
    else if gcmOp d = 1 then (if w.reads.getD 2 [] = tag then Status.done else Status.errAuth, s)
    else (Status.done, dmaWrite s (leAt (cmdData d) 40 8) tag)

/-- The prefix of ID_SIGN: "CLP3 host v1" and four zero bytes (R271). -/
def hostPrefix : List Byte := [0x43, 0x4C, 0x50, 0x33, 0x20, 0x68, 0x6F, 0x73, 0x74, 0x20, 0x76, 0x31, 0, 0, 0, 0]

/-- Address of a command's result: P1 and P2. -/
def resultAddr (d : CmdDesc) : Nat := cmdP1 d + cmdP2 d * 2 ^ 32

/-- What the end of a stretch of work comes to: the command completes with a status, or its work goes on. -/
inductive WorkRes where
  | fin (status : Nat) (s : State)
  | goes (s : State)

/-- An image command ends. -/
def imgEnd (st : Nat) (s : State) : WorkRes := .fin st (imgStop s)

/-- IMAGE_INSTALL goes on with phase `p`. -/
def imgPhase (p : Nat) (header : List Byte) (s : State) : WorkRes :=
  .goes (setPhase (updSec s { s.sec with job := .install p header }) p 0)

/-- A phase of IMAGE_INSTALL ends (R278, R279): CHECK and BODY bring what they read from host memory. No erase or program
operation starts while PWR_FAIL stands (R428). -/
def installWork (phase : Nat) (header : List Byte) (w : WorkData) (s : State) : WorkRes :=
  let t := targetSlot s
  let img := w.reads.getD 0 []
  let pause := s.power.pwrFail
  match phase with
  | 1 =>
    let st := imgCheck img s.sec.arbTest
    if w.reads.isEmpty || w.failed then imgEnd Status.errDma s
    else if st ≠ 0 then imgEnd st s
    else if pause then .goes s
    else imgPhase 2 (img.take 512) (setSlotValid (setFlashSlot s t []) t false)
  | 2 => if pause then .goes s else if w.flashFail then imgEnd Status.errFlash s else imgPhase 3 header s
  | 3 =>
    if w.reads.isEmpty || w.failed then imgEnd Status.errDma s
    else if pause then .goes s
    else if w.flashFail then imgEnd Status.errFlash s
    else imgPhase 4 header (setFlashSlot s t (List.replicate 512 0xFF ++ img.take (leAt header 20 4)))
  | 4 =>
    if w.flashFail ∨ Config.sha512 (((flashSlot s t).drop 512).take (leAt header 20 4)) ≠ slice header 32 64 then imgEnd Status.errFlash s
    else imgPhase 5 header s
  | _ =>
    let l := header ++ (flashSlot s t).drop 512
    if pause then .goes s
    else if w.flashFail || !imgSigned l Config.imageKey then imgEnd Status.errFlash s
    else imgEnd Status.done (setSlotValid (setFlashSlot s t l) t true)

/-- IMAGE_ACTIVATE: the slot it has read fails its test, or the swap has taken place and the boot record is written (R280). -/
def activateWork (w : WorkData) (s : State) : WorkRes :=
  match s.sec.job with
  | .swapped _ =>
    if s.power.pwrFail then .goes s
    else if w.flashFail then imgEnd Status.errFlash s
    else imgEnd Status.done (writeRec s s.sec.running)
  | .activate =>
    let (ok, s) := testSlot s (targetSlot s) s.sec.arbTest
    if ok then .goes s else imgEnd Status.errSig s
  | _ => .goes s

/-- The work of an image command has come as far as `n`: bytes of its phase, or fuses blown (R278, R281). -/
def imgProgress (code n : Nat) (s : State) : State :=
  match code, s.sec.job with
  | 0x60, .install p _ => setPhase s p n
  | 0x61, .activate => setPhase s 6 n
  | 0x62, _ => if s.power.pwrFail then s else setSec s { s.sec with otpArb := max s.sec.otpArb (min n (runArb s)) }
  | _, _ => s

/-- A stretch of a SEC command's work ends; it goes on while it cannot end yet (waiting for entropy, for the swap of R280,
paused under R428). -/
def secWork (c : CmdWork) (w : WorkData) (s : State) : WorkRes :=
  let d := c.desc
  let msg := w.reads.getD 0 []
  if w.progress.isSome then .goes (imgProgress c.code (w.progress.getD 0) s)
  else if isIdJob c && s.sec.idJob != some (c.ring, c.index) then .goes s
  else match c.code with
  | 0x60 => match s.sec.job with
    | .install p h => installWork p h w s
    | _ => .goes s
  | 0x61 => activateWork w s
  | 0x62 =>
    if s.power.pwrFail then .goes s
    else .fin Status.done (setSec s { s.sec with otpArb := max s.sec.otpArb (runArb s) })
  | 0x63 =>
    if w.failed then .fin Status.errDma s
    else .fin Status.done (dmaWrite (drbgUse s 3 1) (resultAddr d) (Config.ed25519Sign s.sec.idSeed (hostPrefix ++ msg)))
  | 0x64 =>
    if w.failed then .fin Status.errDma s
    else .fin (if Config.ed25519Verify msg (w.reads.getD 1 []) (w.reads.getD 2 []) then Status.done else Status.errSig) (drbgUse s 3 1)
  | 0x65 =>
    if w.failed then .fin Status.errDma s
    else .fin Status.done (dmaWrite s (resultAddr d) (Config.sha512 msg))
  | 0x66 =>
    if !trngGives s || trngAhead s then .goes s
    else
      let (b, s) := drawBytes s (cmdLen d)
      .fin Status.done (dmaWrite s (cmdAddr d) b)
  | 0x67 => if trngGives s then .fin Status.done (hostKeySet d s) else .goes s
  | 0x68 =>
    let (st, s) := gcmWork d w s
    .fin st (count s 10 10)
  | _ => .goes s

/-- RANDOM_ENTROPY_TIMEOUT: a RANDOM command that has received nothing for one pick completes ERR_ENTROPY (R269). -/
def execRandomEntropyTimeout (ring index : Nat) (s : State) : Host.Outcome State Fault Refusal :=
  .next (match s.host.work.find? (fun w => w.ring == ring && w.index == index) with
  | none => s
  | some w => if w.code = 0x66 ∧ trngGives s = false ∧ w.pick ≠ s.pick.point then workEnd s ring index Status.errEntropy 0 else s)

end Sys2Proof.Machine
end

