-- ==== Sys2Proof/Machine/Reed.lean ====
section
/-! DEFINITION. Machine/Reed.lean: queues, metering, admission, shapers, selection, the Reed window and the Reed commands
but for gates (07_reed.md). -/

namespace Sys2Proof.Machine

open Sys2Proof

/-- Replace the unit's state. -/
def setReed (s : State) (x : Reed) : State := { s with reed := x }

/-! ## Records (the table above R236) -/

/-- Word `k` of queue `q`'s record in force. -/
def qWord (s : State) (q k : Nat) : Nat := (sget [] s.reed.qrec q).getD k 0

def qEn (s : State) (q : Nat) : Bool := (qWord s q 0).testBit 31
def qType (s : State) (q : Nat) : Nat := bits (qWord s q 0) 30 29
def qLevel (s : State) (q : Nat) : Nat := bits (qWord s q 0) 28 26
def qDestId (s : State) (q : Nat) : Nat := bits (qWord s q 0) 13 0
def qShaper (s : State) (q : Nat) : Nat := bits (qWord s q 1) 26 16
def qWeight (s : State) (q : Nat) : Nat := bits (qWord s q 1) 15 0

/-- LIMIT, YEL_LIMIT or RED_LIMIT for colour 0 green, 1 yellow, 2 red (R214). -/
def qLimit (s : State) (q colour : Nat) : Nat := bits (qWord s q (2 + min colour 2)) 23 0
def qSoj (s : State) (q : Nat) : Nat := bits (qWord s q 5) 15 0

/-- A destination as one number: 16384 × DEST_TYPE + DEST_ID. -/
def destKey (t i : Nat) : Nat := 16384 * t + i
def qDest (s : State) (q : Nat) : Nat := destKey (qType s q) (qDestId s q)

/-- Shaper words in force: EN, ANCHOR_FILL, CIR, PIR, CBS, PBS. -/
def shWord (m : Sparse (List Nat)) (n k : Nat) : Nat := (sget [] m n).getD k 0
def shEn (m : Sparse (List Nat)) (n : Nat) : Bool := (shWord m n 0).testBit 31
def shFill (m : Sparse (List Nat)) (n : Nat) : Bool := (shWord m n 0).testBit 30
def shCir (m : Sparse (List Nat)) (n : Nat) : Nat := bits (shWord m n 0) 25 0
def shPir (m : Sparse (List Nat)) (n : Nat) : Nat := bits (shWord m n 1) 25 0
def shCbs (m : Sparse (List Nat)) (n : Nat) : Nat := bits (shWord m n 2) 23 0
def shPbs (m : Sparse (List Nat)) (n : Nat) : Nat := bits (shWord m n 3) 23 0

/-- A queue record holds permitted values (R206, R207, R214). -/
def qRecOk (w : List Nat) : Bool :=
  let t := bits (w.getD 0 0) 30 29
  let i := bits (w.getD 0 0) 13 0
  let sh := bits (w.getD 1 0) 26 16
  let lim := bits (w.getD 2 0) 23 0
  let yel := bits (w.getD 3 0) 23 0
  let red := bits (w.getD 4 0) 23 0
  decide (i ≤ [31, 15, 16381, 511].getD t 0) && (decide (sh < 1024) || sh == 0x7FF) && bits (w.getD 1 0) 15 0 != 0
    && decide (red ≤ yel) && decide (yel ≤ lim)

/-- A shaper record holds permitted values (R218). -/
def shRecOk (w : List Nat) : Bool :=
  let cir := bits (w.getD 0 0) 25 0
  let pir := bits (w.getD 1 0) 25 0
  decide (pir ≤ 50000000) && decide (cir ≤ pir) && decide (16384 ≤ bits (w.getD 2 0) 23 0) && decide (16384 ≤ bits (w.getD 3 0) 23 0)

/-- A gate entry holds a permitted interval. -/
def gateEntOk (interval : Nat) : Bool := decide (100 ≤ interval % 2 ^ 24)

/-! ## Counters -/

/-- Counter `k` of queue `q` (group 6). -/
def qCnt (s : State) (q k n : Nat) : State := countBy s 6 (12 + 8 * q + k) n

/-- Raise a high-water mark (R216). -/
def qHwm (s : State) (q k v : Nat) : State :=
  let key := cntKey 6 (12 + 8 * q + k)
  { s with cnt := sput 0 s.cnt key (min cntMax (max (sget 0 s.cnt key) v)) }

/-! ## Frames that end inside the terminal -/

/-- A TX_TS completion (R349, R353). -/
def txTs (s : State) (r i status : Nat) (body : Nat) : State :=
  let x := ringAt s r
  post (setRing s r { x with stamps := x.stamps - 1 }) r
    ⟨i, i, true, { body := body, index := i, ring := r, status := status, typ := 2 }⟩

/-- The TX_DONE of a DIRECT send that is handed to Reed, or lost before that (R349). -/
def sendHanded (s : State) (f : Frame) : State :=
  match f.sendDone with
  | none => s
  | some (first, last, n) =>
    if f.epoch = s.host.epoch then
      post s f.srcId ⟨first, last, false, { body := n, index := last, ring := f.srcId, status := Status.done, typ := 1 }⟩
    else s

/-- A frame is discarded: its buffer returns to Spool, and a TX_TS that was asked for comes with DROPPED (R349); nothing comes
after a reset of the host function (R370). -/
def frameGone (s : State) (f : Frame) : State :=
  let s := if f.handle = 0xFFFFF then s else spoolFree s f.handle f.owner
  let s := sendHanded s f
  match f.tsReq with
  | none => s
  | some (r, i) => if f.epoch = s.host.epoch then txTs s r i Status.dropped 0 else s

/-- A queue discards a frame: global counter `n`, the queue's DROP counters, the frame's end. -/
def queueDrop (s : State) (q n : Nat) (f : Frame) : State :=
  frameGone (qCnt (qCnt (count s 6 n) q 4 1) q 5 (frameLen f)) f

/-! ## Metering (R210 to R213) -/

def mWord (s : State) (m k : Nat) : Nat := (sget [] s.reed.mrec m).getD k 0

/-- Meter a frame of `len` bytes: colour 0 green, 1 yellow, 2 red, 3 red and to be discarded. -/
def meter (s : State) (m len : Nat) : Nat × State :=
  let mode := bits (mWord s m 0) 31 30
  let b := (max 1 ((len : Int) + signed 8 (mWord s m 0))).toNat * 1000000
  let cir := bits (mWord s m 1) 25 0
  let pir := bits (mWord s m 2) 25 0
  let cbs := bits (mWord s m 3) 23 0 * 1000000
  let pbs := bits (mWord s m 4) 23 0 * 1000000
  let k := sget ({} : MeterBuckets) s.reed.meters m
  let dt := s.ns - k.last
  let setM (s : State) (c p : Nat) := setReed s { s.reed with meters := sput {} s.reed.meters m ⟨c, p, s.ns⟩ }
  let red := if (mWord s m 0).testBit 29 then 3 else 2
  let (col, s) :=
    if mode = 1 then
      let c := k.c + cir * dt
      let e := min pbs (k.p + (c - cbs))
      let c := min cbs c
      if b ≤ c then (0, setM s (c - b) e) else if b ≤ e then (1, setM s c (e - b)) else (red, setM s c e)
    else if mode = 2 then
      let c := min cbs (k.c + cir * dt)
      let p := min pbs (k.p + pir * dt)
      if p < b then (red, setM s c p) else if c < b then (1, setM s c (p - b)) else (0, setM s (c - b) (p - b))
    else (0, s)
  (col, count s 7 (3 * m + min col 2))

/-! ## Streams, barriers and admission (R208, R214, R226 to R228) -/

/-- The stream that orders a frame in queue `q`: direction (true upstream) and stream ID. -/
def frameStream (s : State) (q : Nat) (f : Frame) : Option (Bool × Nat) :=
  if qType s q = 2 then some (true, f.upStream) else if f.srcType = 2 then some (false, f.stream) else none

def queueAt (s : State) (q : Nat) : Queue := sget {} s.reed.queues q

def setQueue (s : State) (q : Nat) (x : Queue) : State :=
  setReed s { s.reed with queues := sput {} s.reed.queues q (if x.items.isEmpty then {} else x) }

/-- The frame of queue `q` that is partly sent in its container (R230). -/
def queueCont (s : State) (q : Nat) : Option Continuation :=
  match s.reed.conts.find? (fun e => match e.2 with | some c => c.queue == q | none => false) with
  | some (_, c) => c
  | none => none

/-- Frames of queue `q`, the partly sent one first. -/
def queueFrames (s : State) (q : Nat) : List Frame :=
  ((queueCont s q).map (·.item.frame)).toList ++ (queueAt s q).items.map (·.frame)

/-- Occupancy of queue `q` in bytes. -/
def queueOcc (s : State) (q : Nat) : Nat := ((queueFrames s q).map frameLen).foldl (· + ·) 0

/-- Queue `q` holds frames of the stream. -/
def holdsStream (s : State) (q : Nat) (k : Bool × Nat) : Bool := (queueFrames s q).any (fun f => frameStream s q f == some k)

/-- Queues that hold frames of the stream. -/
def streamQueues (s : State) (k : Bool × Nat) : List Nat :=
  (((s.reed.queues.map (·.1)) ++ s.reed.conts.filterMap (fun e => e.2.map (·.queue))).dedup).filter (fun q => holdsStream s q k)

/-- Reed takes frames (R208, R414, R420, R445, R449). -/
def reedOn (s : State) : Bool :=
  flag s Reg.reedCtrl 0 && domOn s 18 && unitOk s 0x14 && s.power.dozePhase == .none && !s.selvedge.fatal

/-- A container frame's weft key index, and whether a key is loaded for it (R260). -/
def weftIndex (s : State) (stream : Nat) : Nat :=
  match sget none s.act.streams (65536 + stream) with
  | some r => r.weftIdx
  | none => 0
def weftKeyed (s : State) (stream : Nat) : Bool := keyLoaded s stream true (weftIndex s stream)

/-- Round up to a multiple of 8. -/
def up8 (n : Nat) : Nat := (n + 7) / 8 * 8

/-- Shaper charge of a frame in queue `q`, by the length that R206 gives it. -/
def charge (s : State) (q : Nat) (f : Frame) : Nat :=
  let l := frameLen f
  match qType s q with
  | 0 => l + 4 + fld s Reg.reedMacOvh 5 0
  | 2 => 8 + up8 (l + (if weftKeyed s f.upStream then 16 else 0))
  | _ => l

/-- Cost of a frame at its queue's weight (R225). -/
def wfqCost (s : State) (q : Nat) (f : Frame) : Nat :=
  let w := qWeight s q
  (charge s q f * 65536 + w - 1) / w

def vtKey (d lvl : Nat) : Nat := 8 * d + lvl
def vtAt (s : State) (q : Nat) : Nat := sget 0 s.reed.vt (vtKey (qDest s q) (qLevel s q))

/-- A frame becomes head of queue `q` with start tag `st` (R225). -/
def newHead (s : State) (q st : Nat) : State :=
  let x := queueAt s q
  match x.items with
  | [] => setQueue s q {}
  | i :: _ => setQueue s q { x with s := st, f := (st + wfqCost s q i.frame) % 2 ^ 32, heldOut := false }

/-- Hand a frame to queue `q` with its colour (R208, R213, R214, R227, R228): `b` is the buffer it asks Spool for on `port`. -/
def reedEnqueue (s : State) (f : Frame) (q colour : Nat) (same : Bool) (port : Nat) (b : Buf) : State :=
  if !(reedOn s && qEn s q) then queueDrop s q 1 f
  else if colour = 3 then queueDrop s q 3 f
  else if qLimit s q colour < queueOcc s q + frameLen f then queueDrop s q 2 f
  else
    let k := frameStream s q f
    let others := match k with
      | some k => (streamQueues s k).filter (· != q)
      | none => []
    if 2 ≤ others.length then queueDrop s q 9 f
    else
      match spoolAlloc s same port b (frameLen f) with
      | (none, s) => queueDrop s q 4 f
      | (some h, s) =>
        let bar := others.head?
        let x := queueAt s q
        let it : QItem := { frame := { f with handle := h, owner := b.owner }, enq := s.now, enqNs := s.ns, barrier := bar }
        let first := x.items.isEmpty
        let s := setQueue s q { x with items := x.items ++ [it] }
        let s := if first then newHead s q (vtAt s q) else s
        let s := qCnt (qCnt (count s 6 0) q 0 1) q 1 (frameLen f)
        let s := if bar.isSome then count s 6 8 else s
        qHwm s q 6 (queueOcc s q)

/-! ## Shapers (R217 to R221) -/

def bucketAt (s : State) (n : Nat) : Int × Int := sget (0, 0) s.reed.buckets n

def setBucket (s : State) (n : Nat) (b : Int × Int) : State :=
  setReed s { s.reed with buckets := sput (0, 0) s.reed.buckets n b }

/-- Band of queue `q` (R219): some true committed, some false excess, none not eligible; by the buckets as they stood before
the core clock of the selection (R220). -/
def bandOf (s : State) (q : Nat) : Option Bool :=
  let n := qShaper s q
  if n = 0x7FF ∨ shEn s.reed.shIn n = false then some true
  else
    let (c, p) := sget (0, 0) s.reed.clockBuckets n
    if p ≤ 0 then none else some (decide (0 < c))

/-- Charge `l` bytes to queue `q`'s shaper in its band, whether the shaper is enabled or not (R219). -/
def chargeShaper (s : State) (q l : Nat) (committed : Bool) : State :=
  let n := qShaper s q
  if n = 0x7FF then s
  else
    let (c, p) := bucketAt s n
    countBy (setBucket s n (c - 512 * l, p - 512 * l)) 8 (2 * n + (if committed then 0 else 1)) l

/-- One refill of shaper `n` (R217). -/
def refill (s : State) (n : Nat) : State :=
  let (c, p) := bucketAt s n
  let m := s.reed.shIn
  setBucket s n (min (c + shCir m n) (512 * shCbs m n), min (p + shPir m n) (512 * shPbs m n))

/-- Tick `k` of the pick refills every shaper (R217). -/
def shaperTick (k : Nat) (s : State) : State :=
  if domOn s 18 && k == s.reed.tick then
    (s.reed.shIn.map (·.1)).foldl refill (setReed s { s.reed with tick := k + 1 })
  else s

/-- Buckets of shaper `n` at a swap from `old` to `new` (R221). -/
def swapBucket (old new : Sparse (List Nat)) (n : Nat) (b : Int × Int) : Int × Int :=
  let full : Int × Int := (512 * (shCbs new n : Int), 512 * (shPbs new n : Int))
  if !shEn old n && shEn new n then full
  else if n < 32 then
    if sget [] old n = sget [] new n then b else if shFill new n then full else (0, 0)
  else (min b.1 full.1, min b.2 full.2)

/-- The set that a swap brings in: the standby set, in which the anchored shapers keep their parameters while LOCK is set
(R221, R222). -/
def swapSet (s : State) : Sparse (List Nat) :=
  if flag s Reg.reedAnchor 0 then (List.range 32).foldl (fun m n => sput [] m n (sget [] s.reed.shIn n)) s.reed.shStby
  else s.reed.shStby

/-- The shaper swap of step 6 (R221). -/
def shaperSwap (s : State) : State :=
  let old := s.reed.shIn
  let new := swapSet s
  let ns := ((old.map (·.1)) ++ (new.map (·.1))).dedup
  let s := ns.foldl (fun s n => setBucket s n (swapBucket old new n (bucketAt s n))) s
  let s := setReed s { s.reed with shIn := new, shStby := new, swapAsked := false }
  setFld s Reg.reedStat 31 16 (min 0xFFFF (fld s Reg.reedStat 31 16 + 1))

/-! ## Selection (R215, R223 to R228, R231) -/

/-- What a destination adds to R223, which of the queues that take part this selection may serve, and under which counter
(group, n) a selected frame is discarded (R231, R260). -/
structure SelPolicy where
  part : State → Nat → QItem → Bool
  only : State → Nat → QItem → Bool
  gone : State → Nat → QItem → Option (Nat × Nat)

/-- At a destination other than a container a circuit frame is discarded (R231, R328). -/
def circuitGone (_ : State) (_ : Nat) (i : QItem) : Option (Nat × Nat) := if i.frame.circuit then some (6, 6) else none

/-- The item's barrier is closed (R228). -/
def barrierClosed (s : State) (q : Nat) (i : QItem) : Bool :=
  match i.barrier, frameStream s q i.frame with
  | some b, some k => holdsStream s b k
  | _, _ => false

/-- Queue `q` takes part (R223). -/
def takesPart (pol : SelPolicy) (s : State) (q : Nat) : Bool :=
  match (queueAt s q).items with
  | [] => false
  | i :: _ => (bandOf s q).isSome && pol.part s q i && !barrierClosed s q i

/-- Queue `q` may be served: it takes part, its record enables it (R208), and the selection is open to it. -/
def mayServe (pol : SelPolicy) (s : State) (q : Nat) : Bool :=
  takesPart pol s q && qEn s q && (match (queueAt s q).items with | [] => false | i :: _ => pol.only s q i)

/-- Serial comparison of finish tags: `a` is earlier than `b` (R225). -/
def tagLt (a b : Nat) : Bool := signed 32 (a + 2 ^ 32 - b) < 0

/-- The queue of `l` (ascending) with the earliest finish tag; ties to the lower number. -/
def wfqBest (s : State) : List Nat → Option Nat
  | [] => none
  | q :: t =>
    match wfqBest s t with
    | none => some q
    | some r => if tagLt (queueAt s r).f (queueAt s q).f then some r else some q

/-- Non-empty queues of destination `d`, ascending. -/
def destQueues (s : State) (d : Nat) : List Nat := (s.reed.queues.map (·.1)).filter (fun q => qDest s q == d)

/-- Bring the tags of queues that R223 held out up to date (R225). -/
def wakeTags (pol : SelPolicy) (d : Nat) (s : State) : State :=
  (destQueues s d).foldl (fun s q =>
    let x := queueAt s q
    if !takesPart pol s q then setQueue s q { x with heldOut := true }
    else if x.heldOut then newHead s q (if tagLt x.s (vtAt s q) then vtAt s q else x.s)
    else s) s

/-- The queue that R224 chooses, and its band. -/
def wfqChoose (pol : SelPolicy) (s : State) (d : Nat) : Option (Nat × Bool) :=
  let qs := (destQueues s d).filter (mayServe pol s)
  ((List.range 8).reverse.flatMap (fun lvl => [(lvl, true), (lvl, false)])).findSome? (fun (lvl, band) =>
    (wfqBest s (qs.filter (fun q => qLevel s q == lvl && bandOf s q == some band))).map (·, band))

/-- Take the head of queue `q` out; the next frame's start tag is `st`. -/
def popHead (s : State) (q st : Nat) : State :=
  let x := queueAt s q
  newHead (setQueue s q { x with items := x.items.drop 1 }) q st

/-- Sojourn of an item in nanoseconds. -/
def sojourn (s : State) (i : QItem) : Nat := s.ns - i.enqNs

/-- The item's sojourn exceeds its queue's SOJ_LIMIT (R215). -/
def overSojourn (s : State) (q : Nat) (i : QItem) : Bool := qSoj s q != 0 && decide (1000 * qSoj s q < sojourn s i)

/-- Why a selected frame is discarded: counter group and number. -/
def discardAt (pol : SelPolicy) (s : State) (q : Nat) (i : QItem) : Option (Nat × Nat) :=
  if overSojourn s q i then some (6, 5) else pol.gone s q i

/-- The head `i` of queue `q` is discarded at selection, counted in (group, n). -/
def dropHead (s : State) (q : Nat) (i : QItem) (g c : Nat) : State :=
  let s := popHead (qHwm s q 7 (sojourn s i)) q (queueAt s q).s
  frameGone (qCnt (qCnt (count s g c) q 4 1) q 5 (frameLen i.frame)) i.frame

/-- A frame leaves queue `q` for good: its DEQ counters. -/
def queueLeft (s : State) (q : Nat) (f : Frame) : State := qCnt (qCnt s q 2 1) q 3 (frameLen f)

/-- Selection from queue `q` in a band, its discarded head frames first (R215, R231): none where it stops taking part. -/
def selectFrom (pol : SelPolicy) (q : Nat) (band : Bool) : Nat → State → Option (QItem × State) × State
  | 0, s => (none, s)
  | n + 1, s =>
    match (queueAt s q).items with
    | [] => (none, s)
    | i :: _ =>
      if !mayServe pol s q || bandOf s q != some band then (none, s)
      else match discardAt pol s q i with
        | some (g, c) => selectFrom pol q band n (dropHead s q i g c)
        | none =>
          let f := (queueAt s q).f
          let s := setReed s { s.reed with vt := sput 0 s.reed.vt (vtKey (qDest s q) (qLevel s q)) f }
          let s := chargeShaper s q (charge s q i.frame) band
          let s := qHwm s q 7 (sojourn s i)
          let s := popHead s q f
          (some (i, s), s)

/-- One selection for destination `d` (R224): the queue, the frame and the state after. -/
def reedSelect (pol : SelPolicy) (d : Nat) : Nat → State → Option (Nat × QItem) × State
  | 0, s => (none, s)
  | n + 1, s =>
    let s := wakeTags pol d s
    match wfqChoose pol s d with
    | none => (none, s)
    | some (q, band) =>
      match selectFrom pol q band ((queueAt s q).items.length + 1) s with
      | (some (i, s), _) => (some (q, i), s)
      | (none, s) => reedSelect pol d n s

/-- Fuel that a selection never exhausts: every frame and every queue once. -/
def selFuel (s : State) : Nat := (s.reed.queues.map (fun e => e.2.items.length)).foldl (· + ·) 0 + 1

/-- The core clock of a selection for destination `d`: that of the last selection where `same` says so and `d` has not selected
on it, else one of its own (R220). -/
def onClock (s : State) (d : Nat) (same : Bool) : State :=
  let x := s.reed
  if same && !x.clockDests.isEmpty && !x.clockDests.contains d then setReed s { x with clockDests := x.clockDests ++ [d] }
  else setReed s { x with clockBuckets := x.buckets, clockDests := [d] }

/-- One selection while Reed is enabled. -/
def reedTake (pol : SelPolicy) (d : Nat) (same : Bool) (s : State) : Option (Nat × QItem) × State :=
  if reedOn s then reedSelect pol d (selFuel s) (onClock s d same) else (none, s)

/-! ## The window (R236) -/

/-- C or P in whole bytes, rounded down, as a 32-bit number. -/
def bucketBytes (x : Int) : Nat := unsigned 32 (x / 512)

/-- The image that READ returns. -/
def reedImage (s : State) (t i : Nat) : List Nat :=
  match t with
  | 0 => sget [] s.reed.qrecS i
  | 1 => [min (queueOcc s i) 0xFFFFFF, (queueFrames s i).length % 2 ^ 20]
  | 2 => sget [] s.reed.mrecS i
  | 3 => sget [] s.reed.shStby i
  | 4 => [bucketBytes (bucketAt s i).1, bucketBytes (bucketAt s i).2]
  | 5 => [(sget (0, 0) s.reed.gateAdmin i).1, (sget (0, 0) s.reed.gateAdmin i).2]
  | _ => [(sget (0, 0) s.reed.gateOper i).1, (sget (0, 0) s.reed.gateOper i).2]

/-- Entries of table `t`. -/
def reedSize (t : Nat) : Nat := [2048, 2048, 16384, 1024, 1024, 8192, 8192].getD t 0

/-- Shapers 0 to 31 are locked (R222). -/
def anchorLocked (s : State) (n : Nat) : Bool := decide (n < 32) && flag s Reg.reedAnchor 0

def gateAt (s : State) (p : Nat) : Gate := sget {} s.reed.gates p

/-- Trim a record to its table's word count; the all-zero record is the unlisted one. -/
def trimRec (n : Nat) (img : List Nat) : List Nat :=
  let w := (List.range n).map (fun k => img.getD k 0)
  if w.all (· == 0) then [] else w

/-- A window WRITE: result and state. -/
def reedWrite (s : State) (t i : Nat) (img : List Nat) : Nat × State :=
  let x := s.reed
  match t with
  | 0 => if qRecOk img then (0, setReed s { x with qrecS := sput [] x.qrecS i (trimRec 6 img) }) else (2, s)
  | 2 =>
    if bits (img.getD 0 0) 31 30 = 3 then (2, s)
    else (0, setReed s { x with mrecS := sput [] x.mrecS i (trimRec 5 img), mDirty := (x.mDirty.erase i) ++ [i] })
  | 3 =>
    if x.loading.isSome || anchorLocked s i then (1, s)
    else if shRecOk img then (0, setReed s { x with shStby := sput [] x.shStby i (trimRec 4 img) }) else (2, s)
  | 5 =>
    if (gateAt s (i / 256)).pending.isSome then (1, s)
    else if gateEntOk (img.getD 1 0) then
      (0, setReed s { x with gateAdmin := sput (0, 0) x.gateAdmin i (img.getD 0 0 % 256, img.getD 1 0 % 2 ^ 24) })
    else (2, s)
  | _ => (1, s)

/-- The window operation: OP 1 WRITE, 2 READ. -/
def reedWindow (op : Nat) (s : State) : State :=
  let t := fldS s Reg.reedEntSel 18 16
  let i := fldS s Reg.reedEntSel 13 0
  let (r, s) :=
    if reedSize t ≤ i then (2, s)
    else if op = 2 then
      let img := reedImage s t i
      (0, forUpTo 8 s (fun k s => setReg s (Reg.reedEntData k) (img.getD k 0)))
    else reedWrite s t i ((List.range 8).map (fun k => rdS s (Reg.reedEntData k)))
  let s := setReed s { s.reed with result := r }
  setReg s Reg.reedEntCmd (r * 2 ^ 24)

/-- Step 2 of a commit point: staged queue and meter records come into force; a meter's buckets are set full (R209, R211). -/
def reedStaged (s : State) : State :=
  let x := s.reed
  let ms := x.mDirty.foldl (fun ms m =>
    let w := sget [] x.mrecS m
    sput ({} : MeterBuckets) ms m ⟨bits (w.getD 3 0) 23 0 * 1000000, bits (w.getD 4 0) 23 0 * 1000000, s.ns⟩) x.meters
  setReed s { x with qrec := x.qrecS, mrec := x.mrecS, meters := ms, mDirty := [] }

/-! ## Commands (R237 to R239) -/

/-- SHAPER_LOAD begins; its records are its work. -/
def cmdShaperLoad (d : CmdDesc) (s : State) : CmdRes :=
  needDomain 18 s fun s =>
    if s.reed.loading.isSome then .fin Status.busy 0 s
    else .work (setReg (setReed s { s.reed with loading := some (d.ring, d.index) }) Reg.reedStat (rd s Reg.reedStat ||| 1))

/-- One record of a SHAPER_LOAD: status and state. -/
def shaperRecord (s : State) (r : List Byte) : Nat × State :=
  let n := leAt r 0 4 % 1024
  let img := (List.range 4).map (fun k => leAt r (16 + 4 * k) 4)
  if anchorLocked s n then (Status.anchorLocked, s)
  else if shRecOk img then (0, setReed s { s.reed with shStby := sput [] s.reed.shStby n (trimRec 4 img) })
  else (Status.errField, s)

/-- The records in order: the first skipped record's status and index (R238). -/
def shaperRecords (s : State) : List (List Byte) → Nat → Option (Nat × Nat) → Option (Nat × Nat) × State
  | [], _, e => (e, s)
  | r :: t, i, e =>
    let (st, s) := shaperRecord s r
    shaperRecords s t (i + 1) (if st = 0 then e else e.or (some (st, i)))

/-- The work of SHAPER_LOAD ends: status, detail and state. -/
def shaperLoadWork (w : WorkIn) (s : State) : Nat × Nat × State :=
  let (e, s) := shaperRecords s w.reads 0 none
  let s := clrBit (setReed s { s.reed with loading := none }) Reg.reedStat 0
  if w.failed then (Status.errDma, w.reads.length, s)
  else match e with
    | some (st, k) => (st, k, s)
    | none => (Status.done, 0, s)

/-- SHAPER_SWAP: a swap at step 6 (R221, R238). -/
def cmdShaperSwap (_ : CmdDesc) (s : State) : CmdRes :=
  needDomain 18 s fun s =>
    if s.reed.loading.isSome then .fin Status.busy 0 s
    else .fin Status.done 0 (setReed s { s.reed with swapAsked := true })

/-- Discard every frame of queue `q`, and the container's continuation that the queue holds (R239). -/
def flushQueue (s : State) (q : Nat) : State :=
  let fs := queueFrames s q
  let conts := s.reed.conts.filter (fun e => match e.2 with | some c => c.queue != q | none => false)
  let s := setQueue (setReed s { s.reed with conts := conts }) q {}
  fs.foldl (fun s f => queueDrop s q 7 f) s

/-- Flush every queue that holds a frame (R414, R445). -/
def flushAll (s : State) : State :=
  let held := s.reed.conts.filterMap (fun e => e.2.map (·.queue))
  (s.reed.queues.map (·.1) ++ held).foldl flushQueue s

/-- QUEUE_FLUSH (R239). -/
def cmdQueueFlush (d : CmdDesc) (s : State) : CmdRes :=
  needDomain 18 s fun s => .fin Status.done 0 (flushQueue s (cmdP0 d % 2048))

end Sys2Proof.Machine
end

