-- ==== Sys2Proof/Machine/Tension.lean ====
section
/-! DEFINITION. Machine/Tension.lean: the Tension arbiter: requests, the ledger, the grant review (R429 to R435). -/

namespace Sys2Proof.Machine

open Sys2Proof

def setTension (s : State) (t : Tension) : State := { s with tension := t }

/-- Request `r`. -/
def reqAt (s : State) (r : Nat) : Req := sget {} s.tension.reqs r

/-- Code of TENSION_REQ_STAT.STATE. -/
def reqCode : ReqState → Nat
  | .idle => 0
  | .pending => 1
  | .granted => 2

/-- Write request `r`; TENSION_REQ_STAT[r] follows, its REFUSALS kept. -/
def setReq (s : State) (r : Nat) (q : Req) : State :=
  let s := setTension s { s.tension with reqs := sput {} s.tension.reqs r q }
  setReg s (Reg.tensionReqStat r) (reqCode q.state * 2 ^ 30 + b2n q.refused * 2 ^ 29
    + fld s (Reg.tensionReqStat r) 23 16 * 2 ^ 16 + q.units % 2 ^ 11)

/-- Raise a request; a requester has at most one (R431). -/
def reqRaise (s : State) (r units : Nat) : State :=
  match (reqAt s r).state with
  | .idle => setReq s r { state := .pending, units := units, age := s.pick.commits }
  | _ => s

/-- Return a grant or withdraw a request (R431). -/
def reqReturn (s : State) (r : Nat) : State := setReq s r {}

/-- The grant of `r` is held and in use. -/
def grantUsed (s : State) (r : Nat) : Bool := (reqAt s r).state == .granted && (reqAt s r).inUse

/-- Step 2 of a commit point: grants of the last review come into use; a revoked grant's request is pending again (R431, R433). -/
def tensionUse (s : State) : State :=
  (s.tension.reqs.map (·.1)).foldl (fun s r =>
    let q := reqAt s r
    if q.state != .granted then s
    else if q.revoked then
      setReq s r { state := .pending, units := q.units, age := s.pick.commits }
    else setReq s r { q with inUse := true }) s

/-- Allowance of domain `d` in units of 25 mW (R417). -/
def allowance (mode : Mode) (d : Nat) : Nat :=
  if mode = .doze ∧ d = 4 then 30
  else if mode = .doze ∧ d = 5 then 12
  else if mode = .doze ∧ d = 6 then 8
  else [2, 4, 28, 40, 80, 60, 76, 12, 24, 2, 48, 40, 12, 56, 16, 16, 16, 16, 24, 14, 14, 6, 4, 4, 4, 14, 14, 4, 4, 4, 4, 4].getD d 0

/-- Sum of a list. -/
def sumList (l : List Nat) : Nat := l.foldl (· + ·) 0

/-- Allowances of the domains that are on or whose wake has been admitted. -/
def ledgerRest (s : State) : Nat :=
  sumList (((List.range 32).filter (fun d => domOn s d || (s.power.wakes.any (fun e => e.1 == d)))).map (allowance s.power.mode))

/-- Units of every grant held; a revoked one is excluded (R433). -/
def ledgerGranted (s : State) : Nat :=
  sumList ((s.tension.reqs.filter (fun e => e.2.state == .granted && !e.2.revoked)).map (fun e => e.2.units))

/-- The mean junction temperature of the previous pick, rounded up to a whole degree (R430). -/
def tempCeil (s : State) : Int := (s.power.tempMean + 3) / 4

/-- The leakage allowance (R430). -/
def ledgerLeak (s : State) : Nat := (4 * max 0 (tempCeil s - 69)).toNat

def budget (s : State) : Nat := fld s Reg.tensionBudget 7 0 * 5
def reqPrio (s : State) (r : Nat) : Nat := fld s (Reg.tensionReqCfg r) 1 0

/-- Insert by a strict order. -/
def insertBy {α : Type} (lt : α → α → Bool) (x : α) : List α → List α
  | [] => [x]
  | y :: t => if lt y x then y :: insertBy lt x t else x :: y :: t

/-- Sort by a strict order. -/
def sortBy {α : Type} (lt : α → α → Bool) (l : List α) : List α := l.foldr (insertBy lt) []

/-- Revoke until the ledger fits (R433): ascending PRIO, within a PRIO from the highest r. The unit leaves its high-draw
state at the next commit point, where its request becomes pending again. -/
def shedList (s : State) : List Nat → State
  | [] => s
  | r :: t =>
    if ledgerRest s + ledgerGranted s + ledgerLeak s ≤ budget s then s
    else shedList (count (setReq s r { reqAt s r with revoked := true }) 16 3) t

def shed (s : State) : State :=
  let rs := (s.tension.reqs.filter (fun e => e.2.state == .granted && !e.2.revoked && flag s (Reg.tensionReqCfg e.1) 4)).map (·.1)
  shedList s (sortBy (fun a b => decide (reqPrio s a < reqPrio s b) || (reqPrio s a == reqPrio s b && decide (b < a))) rs)

/-- Pending requests in review order (R432). -/
def reviewOrder (s : State) : List Nat :=
  let rs := (s.tension.reqs.filter (fun e => e.2.state == .pending)).map (·.1)
  sortBy (fun a b => decide (reqPrio s b < reqPrio s a) || (reqPrio s a == reqPrio s b &&
    (decide ((reqAt s a).age < (reqAt s b).age) || ((reqAt s a).age == (reqAt s b).age && decide (a < b))))) rs

/-- Notifications of GLOBAL_NOTIFY (R435). -/
def globalNotify (s : State) (sub payload : Nat) : State := notifyReg s Reg.globalNotify 0 sub payload

/-- The request is refused or waits as refused: the first time it counts and notifies (R434). -/
def refuseReq (s : State) (r room : Nat) : State :=
  let q := reqAt s r
  if q.refused then s
  else
    let s := setReq s r { q with refused := true }
    let s := setFld s (Reg.tensionReqStat r) 23 16 (min 255 (fld s (Reg.tensionReqStat r) 23 16 + 1))
    globalNotify (count s 16 1) 0x42 (r % 256 + q.units % 65536 * 2 ^ 16 + room % 65536 * 2 ^ 32)

/-- Grant: a wake is admitted, any other request is held (R421, R431). -/
def grantReq (s : State) (r : Nat) : State :=
  let s := count s 16 0
  if 32 ≤ r then
    let s := setReq s r {}
    { s with power := { s.power with wakes := sput 0 s.power.wakes (r - 32) 3 } }
  else setReq s r { reqAt s r with state := .granted, refused := false, deferred := false }

/-- What stopped the review. -/
inductive Stop where
  | none | refused | deferred

/-- The loop of the review: requests in order, ledger above budget, room, slew, grants given, why it stopped. -/
def reviewLoop (above : Bool) : List Nat → Nat → Nat → Nat → Stop → State → State
  | [], _, _, _, _, s => s
  | r :: t, room, slew, n, stop, s =>
    let u := (reqAt s r).units
    match stop with
    | .refused => reviewLoop above t room slew n stop (refuseReq s r room)
    | .deferred => reviewLoop above t room slew n stop (setReq s r { reqAt s r with deferred := true })
    | .none =>
      if above || decide (room < u) then reviewLoop above t room slew n .refused (refuseReq s r room)
      else if 0 < n ∧ slew < u then
        let q := reqAt s r
        let s := if q.deferred then s else count s 16 4
        reviewLoop above t room slew n .deferred (setReq s r { q with deferred := true })
      else reviewLoop above t (room - u) (slew - u) (n + 1) .none (grantReq s r)

/-- Write the ledger registers. -/
def ledgerRegs (s : State) : State :=
  let rest := ledgerRest s
  let gr := ledgerGranted s
  let lk := ledgerLeak s
  let s := setTension s { s.tension with total := rest + gr + lk, rest := rest, granted := gr, leak := lk }
  let s := setReg s Reg.tensionLedger ((rest + gr + lk) % 2 ^ 11 * 2 ^ 16 + rest % 2 ^ 11)
  setReg s Reg.tensionLedger2 (gr % 2 ^ 11 * 2 ^ 16 + min lk 255)

/-- Step 9 of a commit point: the grant review (R432 to R434). -/
def grantReview (s : State) : State :=
  if !s.power.ledgerOn then s
  else
    let ledger0 := ledgerRest s + ledgerGranted s + ledgerLeak s
    let s := if decide (budget s < ledger0) && flag s Reg.tensionCtrl 0 then shed s else s
    let ledger := ledgerRest s + ledgerGranted s + ledgerLeak s
    let above := decide (budget s < ledger)
    let s := if above then
        let s := if s.tension.overBudget then s
          else globalNotify (raiseFree s 0x24 0x080) 0x43
            (ledger % 2 ^ 16 + budget s % 2 ^ 16 * 2 ^ 16 + unsigned 8 (tempCeil s) * 2 ^ 32)
        count (setBit (setBit s Reg.tensionStat 0) Reg.tensionStat 1) 16 5
      else clrBit s Reg.tensionStat 0
    let s := setTension s { s.tension with overBudget := above }
    let order := reviewOrder s
    let hold := s.power.pwrFail || s.tension.skipReview
    let s := if hold then s else reviewLoop above order (budget s - ledger) (fld s Reg.tensionSlew 7 0) 0 .none s
    let s := if (reviewOrder s).isEmpty then s else count s 16 2
    ledgerRegs (setTension s { s.tension with skipReview := false })

end Sys2Proof.Machine
end

