-- ==== Sys2Proof/Machine/Line.lean ====
section
/-! DEFINITION. Machine/Line.lean: what the warp receiver, the weft transmitter and the activation controller share:
setters, defects (R75), blocking of bursts and their cancellation (R89, R111), loss of lock and of sync (R53, R56, R74). -/

namespace Sys2Proof.Machine

open Sys2Proof

def setWarp (s : State) (x : Warp) : State := { s with warp := x }
def setWeft (s : State) (x : Weft) : State := { s with weft := x }
def setAct (s : State) (x : Act) : State := { s with act := x }
def setPick (s : State) (x : Pick) : State := { s with pick := x }

/-- The pick count that the coming commit point brings, as far as it is known (R19, R65). -/
def nextCount (s : State) : Nat := s.pick.headerCount.getD ((s.pick.count + 1) % 2 ^ 48)

/-- The pick count that the coming commit point brings. `line`: the count in the header of the line's pick, which the
first commit point in LOCKED loads (R19), and a later one where that header is the second of a count jump (R65). -/
def comingCount (s : State) (line : Option Nat) : Nat :=
  if s.pick.lockPending then line.getD (nextCount s) % 2 ^ 48
  else match line, s.warp.odd with
    | some c, some o => if s.pick.gen = .locked ∧ c = (o + 1) % 2 ^ 48 then c else nextCount s
    | _, _ => nextCount s

/-! ## Bursts that may not start -/

/-- Conditions of R111 that hold, by code, ascending. -/
def blockConds (s : State) : List Nat :=
  (if flag s Reg.weftCtrl 0 then [] else [1])
    ++ (if s.power.mode = .safe ∨ s.safety.latch then [2] else [])
    ++ (if s.pick.gen = .locked then [] else [3])
    ++ (if s.act.st = .dark ∨ s.act.st = .lapsed ∨ s.act.st = .held then [4] else [])
    ++ (if s.power.mode = .active ∧ flag s Reg.weftCtrl 0 ∧ !grantUsed s 1 then [5] else [])
    ++ (if s.power.dozePhase = .none then [] else [6])
    ++ (if s.power.mode = .active then [] else [7])
    ++ (if unitOk s 0x06 && unitOk s 0x07 then [] else [8])

/-- WEFT_STAT.BLOCK: the lowest code among those that hold, 0 for none. -/
def blockCode (s : State) : Nat := (blockConds s).headD 0

/-- WEFT_STAT.RDI: the value RDI would take at a latch now (R100). -/
def rdiNow (s : State) : Bool := s.warp.sd || decide (s.warp.sinceDef < 8000) || flag s Reg.weftCtrl 2

/-- WEFT_STAT.SL: a safety latch was cleared within the last 8,192 picks (R100). -/
def slNow (s : State) : Bool := decide (s.weft.sinceClear < 8192)

/-- Add to the REI count, which saturates at 255 (R99). -/
def addRei (s : State) (n : Nat) : State :=
  if domOn s 8 then setWeft s { s.weft with rei := min 255 (s.weft.rei + n) } else s

/-- What a cancelled burst leaves: its grants count in GRANT_BLOCKED, its REI and messages return (R99, R111, R131). -/
def cancelled (s : State) (b : Burst) : State :=
  let s := addRei (countBy s 1 13 b.grants.length) b.rei
  setAct s { s.act with queue := b.taken ++ s.act.queue }

/-- Cancel every burst that has not started (R111). -/
def cancelBursts (s : State) : State :=
  let gone := s.weft.bursts.filter (fun b => !b.started)
  gone.reverse.foldl cancelled (setWeft s { s.weft with bursts := s.weft.bursts.filter (·.started) })

/-- End the burst in progress at once (R107, R111). -/
def endBursts (s : State) : State :=
  setWeft { s with safety := { s.safety with enNow := false } } { s.weft with bursts := s.weft.bursts.filter (fun b => !b.started) }

/-- Cancel if a blocking condition has arisen since `old` was taken (R111). -/
def reviewBlock (old : List Nat) (s : State) : State :=
  if (blockConds s).all (fun c => old.contains c) then s else cancelBursts s

/-- The pick generator leaves LOCKED (R56, R89). -/
def leaveLock (s : State) : State :=
  if s.pick.gen = .locked then cancelBursts (setPick s { s.pick with gen := .flywheel, lockPending := false }) else s

/-! ## Defects (R75, R358) -/

/-- Set the three defects: latch bits set at each declaration, one WARP_DEFECT notification for a change. -/
def setDefects (s : State) (los lof sd : Bool) : State :=
  let w := s.warp
  let now := b2n los + 2 * b2n lof + 4 * b2n sd
  let old := b2n w.los + 2 * b2n w.lof + 4 * b2n w.sd
  if now = old then s
  else
    let s := setWarp s { w with los := los, lof := lof, sd := sd }
    let s := if los && !w.los then setBit s Reg.warpDefect 16 else s
    let s := if lof && !w.lof then setBit s Reg.warpDefect 17 else s
    let s := if sd && !w.sd then setBit s Reg.warpDefect 18 else s
    notifyReg s Reg.hostEvent 0 0x31 (now + (now ^^^ old) * 256)

/-! ## Reassembly contexts and loss of sync -/

/-- Discard the open context of a stream (R74). -/
def dropContext (s : State) (stream : Nat) : State :=
  match sget none s.warp.reasm stream with
  | none => s
  | some _ => count (setWarp s { s.warp with reasm := sput none s.warp.reasm stream none }) 0 13

/-- Discard every open context (R65, R73, R74). -/
def dropContexts (s : State) : State :=
  countBy (setWarp s { s.warp with reasm := [] }) 0 13 s.warp.reasm.length

/-- A saturating RC field grows by 1. -/
def bumpFld (s : State) (a hi lo : Nat) : State := setFld s a hi lo (min (2 ^ (hi + 1 - lo) - 1) (fld s a hi lo + 1))

/-- The framer returns to HUNT without candidates and LOF is declared (R53): leaving SYNC counts in LOSSES, discards the
reassembly contexts and takes the pick generator out of LOCKED. -/
def toHunt (s : State) (los : Bool) : State :=
  let was := s.warp.align
  let s := setWarp s { s.warp with align := .hunt, cands := [], misses := 0, last := none, odd := none, rx := {} }
  let s := if was = .sync then leaveLock (dropContexts (bumpFld s Reg.warpAlignStat 31 16)) else s
  setDefects s los true s.warp.sd

end Sys2Proof.Machine
end

