-- ==== Sys2Proof/Machine/Warp.lean ====
section
/-! DEFINITION. Machine/Warp.lean: the warp receiver: amplitude and CDR, equaliser, framer, codewords, pick header,
defects and performance monitoring (02_warp_receiver.md). -/

namespace Sys2Proof.Machine

open Sys2Proof

/-- The receiver chain runs: RX_EN in force and its three domains on. -/
def rxOn (s : State) : Bool := flag s Reg.warpCtrl 0 && domOn s 4 && domOn s 5 && domOn s 6

/-- The framer's domain is on. -/
def framerOn (s : State) : Bool := domOn s 6

/-! ## Amplitude and CDR -/

/-- AMPLITUDE_INTERVAL: `amp` mVppd measured in a 1/64 of a pick (R75, R476). -/
def execAmplitudeInterval (amp : Nat) (s : State) : Host.Outcome State Fault Refusal :=
  .next (if framerOn s then
    let a := if flag s Reg.warpCtrl 0 && domOn s 4 then amp else 0
    let th := fld s Reg.warpLosCfg 7 0
    let hy := fld s Reg.warpLosCfg 15 8
    let below := if a < 2 * th ∨ !(flag s Reg.warpCtrl 0 && domOn s 4) then min 4 (s.warp.below + 1) else 0
    let above := if 2 * (th + hy) < a then min 64 (s.warp.above + 1) else 0
    let s := setWarp s { s.warp with below := below, above := above }
    if !s.warp.los && below == 4 then toHunt s true
    else if s.warp.los && above == 64 then setDefects s false s.warp.lof s.warp.sd
    else s
  else s)

/-- CDR_LOCK: the CDR locks to the line rate (R48). -/
def execCdrLock (s : State) : Host.Outcome State Fault Refusal :=
  .next (if rxOn s && !s.warp.los then setWarp s { s.warp with cdrLock := true } else s)

/-- CDR_LOCK_LOSS: in HUNT and PRESYNC every candidate closes (R77). -/
def execCdrLockLoss (s : State) : Host.Outcome State Fault Refusal :=
  .next (if s.warp.cdrLock then
    let w := { s.warp with cdrLock := false }
    setWarp s (if w.align = .sync then w else { w with align := .hunt, cands := [] })
  else s)

/-! ## Equaliser (R43 to R47, R401, R402) -/

/-- Main-cursor tap. -/
def eqMain (s : State) : Nat := fld s Reg.warpEqCfg 4 0

/-- Tap `n` lies inside the window: every tap at full length, MAIN − 3 to MAIN + 11 at short length; DFE taps always. -/
def tapInside (s : State) (full : Bool) (n : Nat) : Bool :=
  full || decide (31 ≤ n) || (decide (eqMain s ≤ n + 3) && decide (n ≤ eqMain s + 11))

/-- The reset set (R47). -/
def eqResetSet (s : State) : List Nat := (List.range 34).map (fun n => if n = eqMain s then 256 else 0)

/-- Bring a coefficient set into use: WARP_EQ_TAP shows it. -/
def useTaps (s : State) (l : List Nat) : State := forUpTo 34 s (fun n s => setReg s (Reg.warpEqTap n) (l.getD n 0 % 1024))

/-- Coefficients in use. -/
def tapsNow (s : State) : List Nat := (List.range 34).map (fun n => fld s (Reg.warpEqTap n) 9 0)

/-- A swap is rejected, by a case of R46 or by R402: counted in REJECT, with the corrected-class event of R46. -/
def rejectSwap (s : State) : State :=
  raiseFree (bumpFld (setWarp s { s.warp with swapPend := false, swapRej := true }) Reg.warpEqStat 15 8) 0x03 0x031

/-- The shadow set may not be swapped in (R46). -/
def swapBad (s : State) : Bool :=
  !flag s Reg.warpCtrl 1 || s.warp.los || decide (signed 10 (s.warp.shadow.getD (eqMain s) 0) < 64)
    || (List.range 34).any (fun n => !tapInside s s.warp.full n && s.warp.shadow.getD n 0 != 0)

/-- A requested swap takes effect at a word boundary with all 34 coefficients, or is rejected (R45, R46). -/
def eqSwap (s : State) : State :=
  if swapBad s then rejectSwap s
  else
    let s := useTaps s s.warp.shadow
    bumpFld (setWarp s { s.warp with swapPend := false, swapDone := true }) Reg.warpEqStat 31 16

/-- A window's correlator values and mean squared error latch (R401). -/
def latchWindow (corr : List Int) (epow : Nat) (s : State) : State :=
  setWarp s { s.warp with
    corr := (List.range 34).map (fun n => max (-32767) (min 32767 (corr.getD n 0))), epow := min 0xFFFF epow, winRun := false, winOk := true }

/-- Taps outside the window of the current length go to 0 in a set. -/
def clipSet (s : State) (l : List Nat) : List Nat :=
  (List.range 34).map (fun n => if tapInside s s.warp.full n then l.getD n 0 else 0)

/-- The equaliser's part of step 2: request, length change, reset at a change of WARP_EQ_CFG (R43, R44, R47, R402, R412).
`oldCfg` is WARP_EQ_CFG before this commit point. -/
def eqCommit (oldCfg : Nat) (s : State) : State :=
  if !domOn s 5 then s
  else
    let want := flag s Reg.warpCtrl 2 && s.power.mode != .doze && s.power.dozePhase != .entering
    let s := if want then reqRaise s 0 18 else if (reqAt s 0).state = .idle then s else reqReturn s 0
    let full := want && grantUsed s 0
    let s := if full == s.warp.full then s
      else
        let s := setWarp s { s.warp with full := full }
        let s := useTaps s (clipSet s (tapsNow s))
        setWarp s { s.warp with shadow := clipSet s s.warp.shadow }
    if rd s Reg.warpEqCfg = oldCfg then s
    else
      let s := useTaps s (eqResetSet s)
      let s := if s.warp.swapPend then rejectSwap s else s
      setWarp s { s.warp with shadow := eqResetSet s }

/-! ## Performance monitoring: bins (R81) -/

def setPm (s : State) (p : Pm) : State := setWarp s { s.warp with pm := p }

/-- Add to bin `k` of an interval; a bin stops at 0xFFFF_FFFF and sets its mark (R31, R81). That the mark sets as the bin
reaches 0xFFFF_FFFF, not at the first event that it cannot take, is the model's choice (log entry 13). -/
def binAdd (i : PmInterval) (k n : Nat) : PmInterval :=
  let v := i.bins.getD k 0 + n
  let l := (List.range 9).map (fun j => if j = k then min v 0xFFFFFFFF else i.bins.getD j 0)
  { i with bins := l, sat := if 0xFFFFFFFF ≤ v ∧ 0 < n then i.sat ||| 2 ^ k else i.sat }

/-- An event counted in the current quarter hour and day. -/
def pmEvent (p : Pm) (k n : Nat) : Pm := { p with cur := binAdd p.cur k n, day := binAdd p.day k n }

/-- Corrected bits: one count of CORR_64K for each 65,536, the remainder kept. -/
def pmBits (p : Pm) (n : Nat) : Pm :=
  let t := p.rest + n
  { pmEvent p 4 (t / 65536) with rest := t % 65536 }

/-- Change the interval with number `id`, wherever it stands. -/
def pmIn (p : Pm) (id : Nat) (f : PmInterval → PmInterval) : Pm :=
  let g := fun (i : PmInterval) => if i.id = id then f i else i
  { p with cur := g p.cur, prev := p.prev.map g, day := g p.day, prevDay := g p.prevDay }

/-- Close the current quarter hour and begin the one that starts at `start`. -/
def pmQuarter (p : Pm) (start : Nat) (suspect : Bool) : Pm :=
  { p with prev := (p.cur :: p.prev).take 16, cur := { id := p.nextId, valid := true, suspect := suspect, start := start }, nextId := p.nextId + 1 }

/-- Close the current day. -/
def pmDay (p : Pm) (start : Nat) (suspect : Bool) : Pm :=
  { p with prevDay := p.day, day := { id := p.nextId, valid := true, suspect := suspect, start := start }, nextId := p.nextId + 1 }

/-- Mark the current intervals SUSPECT. -/
def pmSuspect (p : Pm) : Pm := { p with cur := { p.cur with suspect := true }, day := { p.day with suspect := true } }

/-- A pick-count jump: the current intervals close at the jump and bins continue in those that contain the new count (R82).
The PM second in progress is not closed: R78 and R82 do not say what becomes of it, and the model lets its counts run on to
the next multiple of 8,000 and assigns it to the intervals opened at the jump (DESIGN CHOICE, log entry 76). -/
def pmJump (p : Pm) (new : Nat) : Pm :=
  let p := pmSuspect p
  pmDay (pmQuarter p (new / 7200000 * 7200000) true) (new / 691200000 * 691200000) true

/-- Assign the oldest second once ten further seconds have ended (R80). -/
def pmAssign (p : Pm) : Pm :=
  if p.seconds.length < 11 then p
  else
    match p.seconds with
    | [] => p
    | x :: t =>
      let ten := p.seconds.take 10
      let un := if p.unavail then !ten.all (fun y => !y.ses) else ten.all (·.ses)
      let f := fun (i : PmInterval) =>
        if un then binAdd i 2 1
        else
          let i := if x.es then binAdd i 0 1 else i
          if x.ses then binAdd i 1 1 else i
      pmIn (pmIn { p with seconds := t, unavail := un } x.quarter f) x.day f

/-- SD at the end of a PM second (R75, R76). -/
def sdReview (s : State) : State :=
  let p := s.warp.pm
  let bits := min p.bits 0xFFFFFFFF
  let cw := p.cw
  if p.los || p.lof || cw == 0 then setPm s { p with sdRun := 0 }
  else if !s.warp.sd then
    let s := setPm s { p with sdRun := 0 }
    if 25920 * cw < bits * 10 ^ fld s Reg.warpSdCfg 3 0 then setDefects s s.warp.los s.warp.lof true else s
  else if bits * 10 ^ fld s Reg.warpSdCfg 11 8 ≤ 25920 * cw then
    if 10 ≤ p.sdRun + 1 then setDefects (setPm s { p with sdRun := 0 }) s.warp.los s.warp.lof false
    else setPm s { p with sdRun := p.sdRun + 1 }
  else setPm s { p with sdRun := 0 }

/-- PM_SECOND_END: the commit point about to come begins a PM second, so the running one ends (R76 to R81). `line`: the
count in the header of the line's pick (R19). -/
def execPmSecondEnd (s : State) (line : Option Nat := none) : Host.Outcome State Fault Refusal :=
  let c := comingCount s line
  .next (if framerOn s && c % 8000 == 0 && s.warp.pm.ended != s.pick.commits + 1 then
    let p := s.warp.pm
    let s := setReg (setReg s Reg.warpBerBits (min p.bits 0xFFFFFFFF)) Reg.warpBerCw (min p.cw (2 ^ 22 - 1))
    let s := sdReview s
    let p := s.warp.pm
    let ses := p.los || p.lof || decide (38400 ≤ p.ucw) || decide (80 ≤ p.hdr) || p.lost
    let es := ses || decide (0 < p.ucw) || decide (0 < p.hdr)
    let p := if p.los then pmEvent p 7 1 else p
    let p := if p.lof then pmEvent p 8 1 else p
    let p := pmAssign { p with seconds := p.seconds ++ [⟨es, ses, p.cur.id, p.day.id⟩] }
    let p := { p with ucw := 0, cw := 0, bits := 0, hdr := 0, los := false, lof := false, lost := false, ended := s.pick.commits + 1 }
    let p := if c % 7200000 = 0 then pmQuarter p c false else p
    let p := if c % 691200000 = 0 then pmDay p c false else p
    setPm s p
  else s)

/-- The interval that WARP_PM_SEL selects. -/
def pmSelected (p : Pm) (n : Nat) : PmInterval :=
  if n = 0 then p.cur else if n ≤ 16 then p.prev.getD (n - 1) {} else if n = 17 then p.day else if n = 18 then p.prevDay else {}

/-- The commit point closes: the intervals as they stand now are what WARP_PM_SEL copies until the next one (R83). -/
def pmSnap (p : Pm) : Pm := { p with shot := (List.range 19).map (pmSelected p) }

/-- Copy the selected interval, as it stood at the last commit point, into the PM registers (R83). -/
def pmCopy (n : Nat) (s : State) : State :=
  let i := s.warp.pm.shot.getD n {}
  let s := setReg s Reg.warpPmFlags (b2n i.valid * 2 ^ 31 + b2n i.suspect * 2 ^ 30 + b2n (i.valid && (n == 0 || n == 17)) * 2 ^ 29 + i.sat % 512)
  let s := setReg (setReg s Reg.warpPmStartLo (i.start % 2 ^ 32)) Reg.warpPmStartHi (i.start / 2 ^ 32)
  forUpTo 9 s (fun k s => setReg s (Reg.warpPmData k) (i.bins.getD k 0))

/-- The receiver's part of each commit point: LOS and LOF as they stand count in the PM second and for RDI, a pick that
was not LOCKED makes its intervals suspect, reassembly contexts grow older (R74, R79, R82, R100). -/
def warpCommit (s : State) : State :=
  if !framerOn s then s
  else
    let w := s.warp
    let bad := w.los || w.lof
    let p := { w.pm with los := w.pm.los || w.los, lof := w.pm.lof || w.lof }
    let p := if s.pick.gen = .locked then p else pmSuspect p
    setWarp s { w with sinceDef := if bad then 0 else min 8000 (w.sinceDef + 1), pm := p
                       reasm := w.reasm.map (fun e => (e.1, e.2.map (fun r => { r with age := r.age + 1 }))) }

/-! ## Alignment (R53 to R56) -/

/-- Number of ones. -/
def popcount (n x : Nat) : Nat := (bitList n x).length

/-- A pick header as R63 lays it out: the checks of R64 but for the count check of SYNC. -/
def headerOk (h : List Byte) (poison : Bool) : Bool :=
  !poison && h.length == 24 && crc32c (h.take 20) == beAt h 20 4
    && decide (beAt h 8 2 % 1024 ≤ 512) && decide (beAt h 10 2 % 512 ≤ 256)
    && beAt h 6 2 % 8192 == beAt h 0 6 % 8192

/-- Open a candidate (R54). -/
def openCand (s : State) (pos : Nat) : State :=
  let w := s.warp
  if w.cands.length < 8 then setWarp s { w with cands := w.cands ++ [⟨pos, 1⟩] }
  else
    let s := bumpFld s Reg.warpAlignStat 15 8
    match w.cands.find? (fun c => c.seen == 1) with
    | some c => setWarp s { w with cands := w.cands.erase c ++ [⟨pos, 1⟩] }
    | none => s

/-- ALIGN while the framer hunts (R53). -/
def huntState (cands : List Cand) : Align := if cands.any (fun c => decide (2 ≤ c.seen)) then .presync else .hunt

/-- The pick generator enters LOCKED where LOCK_EN allows it (R18, R56). -/
def enterLock (s : State) : State :=
  if flag s Reg.pickCtrl 0 && s.pick.gen != .locked then setPick s { s.pick with gen := .locked, lockPending := true } else s

/-- PSYNC_WINDOW: the 64 hard-decided bits `w` at symbol position `pos`. `hdr` and `bad`: the 24 header bytes that follow
them and whether their codeword is poisoned, for the third occurrence of a candidate (R53 to R55). A header that fails its
check in PRESYNC counts in no bin: R81 does not say whether HDR_ERR takes it (DESIGN CHOICE, log entry 76). -/
def execPsyncWindow (pos w : Nat) (hdr : List Byte) (bad : Bool) (s : State) : Host.Outcome State Fault Refusal :=
  let miss := decide (fld s Reg.warpAlignCfg 2 0 < popcount 64 (w ^^^ psync))
  .next (if !rxOn s || s.warp.los then s
  else match s.warp.align with
    | .sync =>
      if pos ≠ s.warp.pos then s
      else
        let s := setWarp s { s.warp with rx := {}, last := s.warp.last.map (fun e => (e.1, e.2 + 1)) }
        if miss then
          let s := count s 0 4
          if 2 ≤ s.warp.misses then toHunt s s.warp.los
          else setWarp s { s.warp with misses := s.warp.misses + 1 }
        else enterLock (setWarp s { s.warp with misses := 0 })
    | _ =>
      match s.warp.cands.find? (fun c => c.pos == pos) with
      | some c =>
        if miss then
          let l := s.warp.cands.erase c
          setWarp s { s.warp with cands := l, align := huntState l }
        else if 3 ≤ c.seen + 1 ∧ headerOk hdr bad then
          let s := setWarp s { s.warp with align := .sync, cands := [], pos := pos, misses := 0, last := none, odd := none, rx := {} }
          let s := setFld s Reg.warpAlignStat 6 0 (pos % 128)
          enterLock (setDefects s s.warp.los false s.warp.sd)
        else
          let l := s.warp.cands.map (fun d => if d.pos = pos then { d with seen := d.seen + 1 } else d)
          setWarp s { s.warp with cands := l, align := huntState l }
      | none => if w = psync ∧ s.warp.cdrLock then openCand s pos else s)

/-! ## Codewords and the pick header -/

/-- Last codeword that DOZE decodes: the one of the last byte of the treadle message partition (R412). -/
def lastDozeCw (x : PickRx) : Nat := if x.ok then (31 + 8 * x.mapLen + 64 * x.msgLen) / 2736 else 0

/-- The receiver takes codeword `idx` now: codewords come in order 0 to 479 (R51), in DOZE up to the last one of R412. -/
def codewordDue (idx : Nat) (s : State) : Bool :=
  rxOn s && s.warp.align == .sync && decide (idx < 480) && idx == s.warp.rx.next
    && (s.power.mode != .doze || decide (idx ≤ lastDozeCw s.warp.rx))

/-- Codeword `idx` of the pick decodes with `bits` corrected bits, or (none) is uncorrectable (R59 to R62). -/
def codewordDone (idx : Nat) (bits : Option Nat) (s : State) : State :=
  if codewordDue idx s then
    let s := count (setWarp s { s.warp with rx := { s.warp.rx with next := idx + 1 } }) 0 0
    match bits with
    | some n =>
      let s := if 0 < n then countBy (count s 0 1) 0 3 n else s
      let p := pmBits s.warp.pm n
      setPm s { p with cw := p.cw + 1, bits := p.bits + n }
    | none =>
      let s := addRei (count s 0 2) 1
      let p := pmEvent s.warp.pm 3 1
      let s := setPm s { p with ucw := p.ucw + 1 }
      setWarp s { s.warp with rx := { s.warp.rx with poison := s.warp.rx.poison ++ [idx] } }
  else s

/-- Input hard decisions of codeword `idx` (R62): its symbols mapped to bits (R50) and descrambled (R52). -/
def hardWord (idx : Nat) (levels : List Pam4) : Nat := (symbolBits levels ^^^ warpKey idx) % 2 ^ 25920

/-- What the decoder finds (R59, R61): of its hard decisions after each iteration, no more than MAX_ITER, the first with a
zero syndrome; none where the syndrome is not zero after the last one. -/
def decoded (s : State) (idx : Nat) (words : List Nat) : Option Nat :=
  ((words.take (fld s Reg.warpFecCfg 3 0)).map (fixSync idx)).find? (codeOk 576)

/-- CODEWORD_DECODE: `levels` are the codeword's 12,960 received symbols, `words` the decoder's hard decisions after each
iteration, which its soft values give (log entry 34); both in line order. -/
def execCodewordDecode (idx : Nat) (levels : List Pam4) (s : State) (words : List Nat := []) : Host.Outcome State Fault Refusal :=
  .next (codewordDone idx ((decoded s idx words).map (fun w => popcount 25920 (hardWord idx levels ^^^ w))) s)

/-- Some byte of the info stream from `o`, `n` bytes, lies in a poisoned codeword (R61). -/
def poisoned (x : PickRx) (o n : Nat) : Bool := x.poison.any (fun c => decide (o < (c + 1) * 2736) && decide (c * 2736 < o + n))

/-- A header that fails its check in SYNC: the whole pick is discarded (R65). -/
def headerFail (s : State) : State :=
  let s := count s 0 5
  let p := pmEvent s.warp.pm 5 1
  let s := setPm s { p with hdr := p.hdr + 1 }
  let s := if domOn s 8 then count s 1 15 else s
  dropContexts (setWarp s { s.warp with rx := { s.warp.rx with ok := false, walk := none } })

/-- The pick in progress is handled as a header-check failure, unless it has failed already (R445). -/
def pickFail (s : State) : State :=
  if framerOn s && s.warp.align == .sync && (!s.warp.rx.checked || s.warp.rx.ok) then
    headerFail (setWarp s { s.warp with rx := { s.warp.rx with checked := true }, odd := none })
  else s

/-- The sources of the warp path are in state OK (R445). -/
def warpOk (s : State) : Bool := unitOk s 0x02 && unitOk s 0x03 && unitOk s 0x04 && unitOk s 0x05

/-- Info-stream offset of the frame partition (R51). -/
def partStart (mapLen msgLen : Nat) : Nat := 32 + 8 * mapLen + 64 * msgLen

/-- Bytes of a pick's info stream (R51). -/
def infoBytes : Nat := 1313280

/-- PICK_HEADER: bytes 8 to 31 of the info stream, and the time since the pick's PSync arrived at the pins in 1/64
time-clock cycles (R64, R65, R149). -/
def execPickHeader (h : List Byte) (back : Nat) (s : State) : Host.Outcome State Fault Refusal :=
  .next (if rxOn s && s.warp.align == .sync && !s.warp.rx.checked then
    let s := setWarp s { s.warp with rx := { s.warp.rx with checked := true } }
    if !(headerOk h (poisoned s.warp.rx 8 24)) || !warpOk s then headerFail (setWarp s { s.warp with odd := none })
    else
      let c := beAt h 0 6
      let want := s.warp.last.map (fun e => (e.1 + e.2) % 2 ^ 48)
      let jump := match s.warp.odd with
        | some o => c == (o + 1) % 2 ^ 48
        | none => false
      let fits := want.isNone || want == some c
      if fits || jump then
        let s := if !fits && s.pick.gen = .locked && s.pick.count != c then setPick s { s.pick with headerCount := some ((c + 1) % 2 ^ 48) } else s
        let x : PickRx := { s.warp.rx with
          ok := true, count := c, mapLen := beAt h 8 2 % 1024, msgLen := beAt h 10 2 % 512
          todRef := (h.getD 12 0).getLsbD 7, quiet := (h.getD 12 0).getLsbD 6
          walk := if s.power.mode = .doze then none else some (partStart (beAt h 8 2 % 1024) (beAt h 10 2 % 512)) }
        let s := setWarp s { s.warp with rx := x, last := some (c, 0), odd := none }
        let s := if s.power.mode = .doze then dropContexts s else s
        if x.todRef then timeRecord s c s.act.eqd back else s
      else headerFail (setWarp s { s.warp with odd := some c })
  else s)

/-- REASM_TIMEOUT: the context of `stream` has outlived WARP_REASM_CFG.TIMEOUT picks (R74). -/
def execReasmTimeout (stream : Nat) (s : State) : Host.Outcome State Fault Refusal :=
  .next (match sget none s.warp.reasm stream with
    | some r => if fld s Reg.warpReasmCfg 3 0 < r.age then dropContext s stream else s
    | none => s)

/-- A clear of PICK_CTRL.LOCK_EN (R56). -/
def lockEnClear (s : State) : State := leaveLock s

end Sys2Proof.Machine
end

