-- ==== Sys2Proof/Machine/Weft.lean ====
section
/-! DEFINITION. Machine/Weft.lean: the weft transmitter: map, bursts, sections, latch, laser (03_weft_bursts.md), and the
safety path's windows of a map (R451). -/

namespace Sys2Proof.Machine

open Sys2Proof

/-! ## Reading the map (R66, R67, R90 to R93, R120 to R122) -/

/-- Grant `k` of a map (R66). -/
def mapGrant (m : List Byte) (k : Nat) : Grant :=
  let w := beAt m (8 * k) 2
  { container := w / 4, bh := w.testBit 1, ms := w.testBit 0, start := beAt m (8 * k + 2) 2, len := beAt m (8 * k + 4) 2
    pl := byteAt m (8 * k + 6) / 64 }

/-- The grant passes GCRC and lies in no poisoned codeword (R67). -/
def grantIntact (x : PickRx) (m : List Byte) (k : Nat) : Bool :=
  !poisoned x (32 + 8 * k) 8 && crcOf 8 0x07 0xFF (slice m (8 * k) 7) == byteAt m (8 * k + 7)

/-- The grants of the map that are intact, in map order. -/
def intactGrants (x : PickRx) (m : List Byte) : List Grant :=
  ((List.range x.mapLen).filter (grantIntact x m)).map (mapGrant m)

/-- WEFT_CONT in force holds the container. -/
def contHeld (s : State) (c : Nat) : Bool := (List.range 64).any (fun n => rd s (Reg.weftCont n) == 2 ^ 31 + c)

/-- The discovery container (R120). -/
def discovery : Nat := 0x3FFE

/-- A grant that matches under R90 and R120. -/
def grantMatches (s : State) (quiet : Bool) (g : Grant) : Bool := contHeld s g.container && (g.container != discovery || quiet)

/-- R121 permits the matched grant in the activation state; a discovery grant is handled by R122. -/
def grantPermitted (s : State) (quiet : Bool) (g : Grant) : Bool :=
  match s.act.st with
  | .dark | .lapsed | .held | .listening => false
  | .announced | .ranging => quiet && s.act.tid == some g.container
  | .woven => g.container != discovery

/-- A back-off draw that had to wait for the TRNG takes place (R118, R269). -/
def backoffDraw (s : State) : State :=
  let (x, s) := draw s
  setAct s { s.act with backoff := x % 2 ^ min s.act.attempts 6, backoffDue := false }

/-- An opportunity (R116, R122): with a back-off count of 0 it yields the grant of a discovery burst and its TOKEN, both
from TRNG draws; otherwise it decrements the count. -/
def takeOpportunity (s : State) (g : Grant) : Option (Grant × List Byte) × State :=
  if s.act.backoff = 0 then
    let (x, s) := draw s
    let (t, s) := drawBytes s 4
    (some ({ g with start := g.start + x % (g.len - 20), len := 21 }, t), s)
  else (none, count (setAct s { s.act with backoff := s.act.backoff - 1 }) 1 13)

/-- Take out what R121 does not permit, and draw for a discovery grant (R122): grants that remain, with the TOKEN of a
discovery burst; `first`: no discovery grant has been seen in this map. -/
def sortOut (quiet : Bool) : List Grant → Bool → State → List (Grant × Option (List Byte)) × State
  | [], _, s => ([], s)
  | g :: t, first, s =>
    if grantPermitted s quiet g then
      let (l, s) := sortOut quiet t first s
      ((g, none) :: l, s)
    else if s.act.st = .listening ∧ g.container = discovery ∧ first ∧ s.act.armed.isSome then
      if g.len < 21 ∨ !g.bh ∨ !g.ms then sortOut quiet t false (count s 1 9)
      else if !trngGives s then sortOut quiet t false (count s 1 13)
      else
        match takeOpportunity (if s.act.backoffDue then backoffDraw s else s) g with
        | (some (g', tok), s) =>
          let (l, s) := sortOut quiet t false s
          ((g', some tok) :: l, s)
        | (none, s) => sortOut quiet t false s
    else sortOut quiet t first (count s 1 13)

/-- Section length in units (R92). -/
def grantSec (g : Grant) : Nat := if g.bh then g.len - 1 else g.len

/-- LASER_EN rise of a burst that starts with `g` (R94). -/
def burstRise (pre lead : Nat) (g : Grant) : Int := 64 * (g.start : Int) - 32 * pre - 64 - lead

/-- LASER_EN fall after a burst that ends at unit `e` (R94). -/
def burstFall (e lag : Nat) : Int := 64 * (e : Int) + lag

/-- End unit of a burst. -/
def burstEnd (b : Burst) : Nat := match b.grants.getLast? with
  | some g => g.start + g.len
  | none => 0

/-- What the tests of R92 carry from grant to grant: bursts closed (newest first), the open burst, the last fall. -/
structure MapAcc where
  done : List Burst
  cur : Option Burst
  last : Option Int

/-- Close the open burst. -/
def MapAcc.close (a : MapAcc) : MapAcc := { a with done := a.cur.toList ++ a.done, cur := none }

/-- The tests of R92 on one grant, in order; `proto` holds what every burst of the map shares. -/
def testGrant (lead lag : Nat) (proto : Burst) (a : MapAcc) (s : State) (e : Grant × Option (List Byte)) : MapAcc × State :=
  let g := e.1
  let sec := grantSec g
  if g.len = 0 ∨ 48599 < g.start ∨ 48600 < g.start + g.len then (a.close, count s 1 8)
  else if (1 ≤ sec ∧ sec ≤ 16) ∨ (g.ms ∧ sec < 20) ∨ (!g.bh ∧ sec = 0) then (a.close, count s 1 9)
  else if g.bh then
    let rise := burstRise proto.pre lead g
    if (match a.last with | some f => decide (rise < f + 32) | none => false) then (a.close, count s 1 11)
    else
      let f := burstFall (g.start + g.len) lag
      ({ a.close with cur := some { proto with token := e.2, grants := [g], rise := rise, fall := f }, last := some f }, s)
  else
    match a.cur with
    | some b =>
      if burstEnd b = g.start then
        let f := burstFall (g.start + g.len) lag
        ({ a with cur := some { b with grants := b.grants ++ [g], fall := f }, last := some f }, s)
      else (a.close, count s 1 10)
    | none => (a.close, count s 1 10)

/-- All grants of a map, at most 64 (R91). -/
def testGrants (lead lag : Nat) (proto : Burst) : List (Grant × Option (List Byte)) → MapAcc → State → MapAcc × State
  | [], a, s => (a.close, s)
  | e :: t, a, s =>
    let r := testGrant lead lag proto a s e
    testGrants lead lag proto t r.1 r.2

/-- The last fall of an earlier map on this map's time line (R93). N − M is taken as the difference of two plain numbers, also
where the pick count has wrapped or jumped backwards between the maps, of which R93 does not speak (DESIGN CHOICE, log
entry 77). -/
def carriedFall (s : State) (pick eqd : Nat) : Option Int :=
  s.weft.last.map (fun e => e.2.2 - (3110400 * ((pick : Int) - e.1) + (eqd : Int) - e.2.1))

/-- The windows that the safety path derives from a map with its own copies (R451). -/
def safetyWindows (s : State) (m : List Byte) : List (Int × Int) :=
  if s.act.held || s.safety.latch || s.safety.hold then []
  else
    ((intactGrants s.warp.rx m).filter (fun g => s.safety.conts.any (fun e => e.2 == 2 ^ 31 + g.container))).map (fun g =>
      (if g.bh then 64 * (g.start : Int) - 32 * s.safety.pre - 64 else 64 * (g.start : Int), 64 * ((g.start : Int) + g.len) - 1))

/-- WEFT_MAP: the weft map of the pick whose header has passed (R90 to R93, R451, R479). -/
def execWeftMap (m : List Byte) (s : State) : Host.Outcome State Fault Refusal :=
  let x := s.warp.rx
  .next (if !(rxOn s && x.ok) || x.mapped then s
  else
    let s := setWarp s { s.warp with rx := { x with mapped := true } }
    let s := { s with safety := { s.safety with windows := (safetyWindows s m :: s.safety.windows).take 8 } }
    if !domOn s 8 then s
    else if !(unitOk s 0x06 && unitOk s 0x07) then count s 1 15
    else
      let s := count s 1 0
      let ok := intactGrants x m
      let s := countBy s 1 7 (x.mapLen - ok.length)
      let mine := ok.filter (grantMatches s x.quiet)
      let s := countBy s 1 1 mine.length
      let (l, s) := sortOut x.quiet mine true s
      let l := sortBy (fun a b => decide (a.1.start < b.1.start)) l
      let s := countBy s 1 12 (l.length - 64)
      let eqd := fld s Reg.weftEqd 23 0
      let proto : Burst := { pick := x.count, eqd := eqd, pre := fld s Reg.weftPreamble 7 0, tid := fld s Reg.weftTid 9 0
                             key := (s.act.keys.map (fun k => keyOf k.tmkU)).getD [], ranging := s.act.st == .ranging, token := none, grants := []
                             rise := 0, fall := 0 }
      let r := testGrants (fld s Reg.weftLaserCfg 7 0) (fld s Reg.weftLaserCfg 15 8) proto (l.take 64)
        ⟨[], none, carriedFall s x.count eqd⟩ s
      let bs := r.1.done.reverse
      match bs.getLast? with
      | none => r.2
      | some b => setWeft r.2 { r.2.weft with bursts := r.2.weft.bursts ++ bs, last := some (x.count, eqd, b.fall) })

/-! ## Filling the sections (R123, R229 to R231, R260) -/

/-- What a container adds to selection (R231, R260): a frame is discarded where its stream is not active upstream, has
another container, or has no key and plain sending is not allowed. -/
def weftPolicy (c : Nat) : SelPolicy where
  part := fun _ _ _ => true
  only := fun _ _ _ => true
  gone := fun s _ i =>
    match sget none s.act.streams (65536 + i.frame.upStream) with
    | none => some (6, 6)
    | some r =>
      if r.container ≠ c then some (6, 6)
      else if !weftKeyed s i.frame.upStream && !flag s Reg.secCtrl 0 then some (10, 8)
      else none

/-- CLP TYPE of a frame from Reed. -/
def upType (f : Frame) : Nat := if f.circuit then 1 else if f.mgmt then 2 else 0

/-- The key index that a frame is placed with: none where no key is loaded (R260). -/
def placeKey (s : State) (stream : Nat) : Option Nat := if weftKeyed s stream then some (weftIndex s stream) else none

/-- Line bytes of `n` payload bytes under a key. -/
def lineLen (key : Option Nat) (n : Nat) : Nat := 8 + up8 (n + (if key.isSome then 16 else 0))

/-- An idle frame at the front of `room` bytes: one frame over all of them where LEN can say it (R69, R230). -/
def idlePlaced (room : Nat) : Placed := ⟨0xFFFF, true, 0, none, List.replicate (min (room - 8) 16383) 0⟩

/-- Line bytes of a placed frame. -/
def placedSpan (p : Placed) : Nat := lineLen p.key p.payload.length

/-- At most `n` idle frames, one behind the other. -/
def idleRun : Nat → Nat → List Placed
  | 0, _ => []
  | n + 1, room => if room < 8 then [] else idlePlaced room :: idleRun n (room - placedSpan (idlePlaced room))

/-- Idle frames over `room` bytes: one, or as many as LEN asks for where one cannot say them (log entry 77). -/
def idleFill (room : Nat) : List Placed := idleRun (room / 16384 + 1) room

/-- The payload and its tag fit one CLP frame, by LEN and by room (R69, R230 step 3). -/
def wholeFits (key : Option Nat) (n room : Nat) : Bool :=
  decide (lineLen key n ≤ room) && decide (n + (if key.isSome then 16 else 0) ≤ 16383)

/-- Place the rest of `cont` into `room` bytes: the piece, and whether it was the last (R230 steps 3 and 4). A piece whose LEN
could not be said is cut at 16,376 bytes (log entry 77). -/
def placePiece (s : State) (cont : Continuation) (room : Nat) : Placed × Bool × Continuation :=
  let f := cont.item.frame
  let rest := (frameRead s f).drop cont.sent
  let key := placeKey s f.upStream
  if wholeFits key rest.length room then (⟨f.upStream, true, upType f, key, rest⟩, true, cont)
  else
    let n := min (room - 8) 16376 - (if key.isSome then 16 else 0)
    (⟨f.upStream, false, upType f, key, rest.take n⟩, false, { cont with sent := cont.sent + n })

/-- What goes next into a section of container `c`: the container's continuation, or else a selection (R230 steps 1 and 2).
A continuation that R231 or R260 would discard at selection now is discarded the same way (log entry 77). -/
def nextPiece (c : Nat) (s : State) : Option Continuation × State :=
  let sel := fun (s : State) =>
    match reedTake (weftPolicy c) (destKey 2 c) false s with
    | (some (q, i), s) => (some (⟨q, i, 0⟩ : Continuation), s)
    | (none, s) => (none, s)
  match sget none s.reed.conts c with
  | none => sel s
  | some x =>
    match (weftPolicy c).gone s x.queue x.item with
    | none => (some x, s)
    | some (g, n) =>
      let s := setReed s { s.reed with conts := sput none s.reed.conts c none }
      sel (frameGone (count (queueLeft s x.queue x.item.frame) g n) x.item.frame)

/-- The weft path discards a frame whose data is poisoned, with what it had left to send (R242). -/
def poisonDrop (s : State) (c : Nat) (x : Continuation) : State :=
  let f := x.item.frame
  let s := setReed s { s.reed with conts := sput none s.reed.conts c none }
  frameGone (poisonSeen (queueLeft s x.queue f) 0x06 f) f

/-- Fill a section of container `c` with at most `n` pieces (R230): what was placed, the pieces left. -/
def fillSection (c : Nat) : Nat → Nat → State → List Placed × Nat × State
  | 0, _, s => ([], 0, s)
  | n + 1, room, s =>
    if room < 8 then ([], n + 1, s)
    else
      match nextPiece c s with
      | (none, s) => (idleFill room, n, s)
      | (some x, s) =>
        if framePoisoned s x.item.frame then fillSection c n room (poisonDrop s c x)
        else if room < 72 ∧ !wholeFits (placeKey s x.item.frame.upStream) (x.item.frame.data.length - x.sent) room then
          (idleFill room, n, setReed s { s.reed with conts := sput none s.reed.conts c (some x) })
        else
          let (p, fin, x) := placePiece s x room
          let s :=
            if fin then
              let s := setReed s { s.reed with conts := sput none s.reed.conts c none }
              let s := if x.sent = 0 then s else count s 6 10
              frameGone (queueLeft s x.queue x.item.frame) x.item.frame
            else setReed s { s.reed with conts := sput none s.reed.conts c (some x) }
          let (l, k, s) := fillSection c n (room - placedSpan p) s
          (p :: l, k, s)

/-- Room for CLP frames in a grant's section (R229). -/
def sectionRoom (g : Grant) : Nat := sectionInfo (grantSec g) - (if g.ms then 64 else 0)

/-- Room that is left in a section behind what Reed has placed. -/
def roomLeft (g : Grant) (l : List Placed) : Nat := sectionRoom g - sumList (l.map placedSpan)

/-- The sections of a burst with what Reed has placed in them. -/
def burstFill (b : Burst) : List (Grant × List Placed) := b.grants.zipIdx.map (fun e => (e.1, b.fill.getD e.2 []))

/-- Fill the sections of a burst in order, with at most `n` pieces: idle before WOVEN (R123). -/
def fillBurst (woven : Bool) : Nat → List (Grant × List Placed) → State → List (List Placed) × State
  | _, [], s => ([], s)
  | n, (g, l) :: t, s =>
    let room := roomLeft g l
    let (more, k, s) := if woven then fillSection g.container n room s else (idleFill room, n, s)
    let (ls, s) := fillBurst woven (if roomLeft g (l ++ more) < 8 then k else 0) t s
    ((l ++ more) :: ls, s)

/-- Replace the first burst that satisfies `p`. -/
def mapFirst (p : Burst → Bool) (f : Burst → Burst) : List Burst → List Burst
  | [] => []
  | b :: t => if p b then f b :: t else b :: mapFirst p f t

/-- The burst waits for its content latch. -/
def unlatched (b : Burst) : Bool := !b.latched

/-- Some section of the burst has room that Reed has not filled. -/
def unfilled (b : Burst) : Bool := (burstFill b).any (fun e => decide (8 ≤ roomLeft e.1 e.2))

/-- SECTION_FILL: Reed fills the sections of the first burst that waits for it, `pieces` frames, fragments or idle fillings
on; the next SECTION_FILL goes on behind them (R229, R230). -/
def execSectionFill (s : State) (pieces : Nat := 1) : Host.Outcome State Fault Refusal :=
  let p := fun (b : Burst) => unlatched b && unfilled b
  .next (match s.weft.bursts.find? p with
    | none => s
    | some b =>
      let (l, s) := fillBurst (s.act.st == .woven) pieces (burstFill b) s
      pauseScan (setWeft s { s.weft with bursts := mapFirst p (fun b => { b with fill := l }) s.weft.bursts }))

/-- What Reed has not filled of a burst's sections is filled with idle frames (R101): the fill, and how many sections
contain such frames. -/
def lateFill (b : Burst) : List (List Placed) × Nat :=
  ((burstFill b).map (fun e => e.2 ++ idleFill (roomLeft e.1 e.2)), ((burstFill b).filter (fun e => decide (8 ≤ roomLeft e.1 e.2))).length)

/-! ## The content latch (R97 to R104, R109, R123, R131) -/

/-- The burst header (R97, R98). -/
def burstHeader (s : State) (b : Burst) : List Byte :=
  let flags := b2n (rdiNow s) * 128 + b2n (flag s Reg.weftStat 7) * 64 + b2n (flag s Reg.weftCtrl 1) * 32 + b2n (slNow s) * 16
    + ((b.grants.head?.map (·.pl)).getD 0) * 4
  let h := beBytes 2 ((if flag s Reg.weftTid 31 then fld s Reg.weftTid 9 0 else 1023) * 64) ++ beBytes 1 s.weft.rei ++ beBytes 1 flags
    ++ beBytes 2 b.pick ++ beBytes 1 b.grants.length ++ List.replicate 5 0
  h ++ beBytes 4 (crc32c h)

/-- Priority of a queued message (R131): lower goes first. -/
def msgRank (m : OutMsg) : Nat := if m.typ = 0x85 then 0 else if m.typ = 0x83 then 2 else 3

/-- Take the first message of the highest priority among those that `p` allows. -/
def takeMsg (p : OutMsg → Bool) (q : List OutMsg) : Option (OutMsg × List OutMsg) :=
  let best := (q.filter p).foldl (fun (a : Option OutMsg) m => match a with
    | none => some m
    | some x => if msgRank m < msgRank x then some m else some x) none
  best.map (fun m => (m, q.erase m))

/-- RANGE_ECHO for a burst (R129). -/
def rangeEcho (b : Burst) : OutMsg := ⟨0x84, 0, beBytes 6 b.pick ++ beBytes 3 b.eqd⟩

/-- SN_ANNOUNCE (R129). -/
def snAnnounce (s : State) (token : List Byte) : OutMsg :=
  ⟨0x81, 0, beBytes 8 s.act.serial ++ token ++ beBytes 1 s.act.attempts ++ [3, 0xB1]⟩

/-- The null message. -/
def nullMsg : OutMsg := ⟨0, 0, []⟩

/-- A message's 64 bytes (R124, R125): the MIC where the type carries one and the burst's map had session keys. -/
def msgBytes (b : Burst) (start : Nat) (m : OutMsg) : List Byte :=
  let auth := !b.key.isEmpty && (m.typ == 0x83 || m.typ == 0x84 || m.typ == 0x85)
  let body := beBytes 2 (b.tid * 64) ++ [BitVec.ofNat 8 m.typ, BitVec.ofNat 8 (m.part * 16 + b2n auth * 8)] ++ slice m.payload 0 48
  let iv := beBytes 1 1 ++ beBytes 6 b.pick ++ beBytes 2 start ++ beBytes 2 b.tid ++ [0]
  let mic := if auth then slice (Config.gcmTag b.key iv body []) 0 8 else List.replicate 8 0
  body ++ mic ++ beBytes 4 (crc32c (body ++ mic))

/-- Messages for the slots of a burst, one for each MS grant: what each slot carries, what was taken from the queue, the
queue after; `echo`: a RANGE_ECHO is still due. -/
def slotMsgs (b : Burst) : List Grant → Bool → List OutMsg → List OutMsg × List OutMsg × List OutMsg
  | [], _, q => ([], [], q)
  | g :: t, echo, q =>
    if !g.ms then slotMsgs b t echo q
    else
      let pick := if echo then takeMsg (fun m => m.typ == 0x85) q else takeMsg (fun _ => true) q
      match pick with
      | some (m, q) =>
        let (a, k, q) := slotMsgs b t echo q
        (m :: a, m :: k, q)
      | none =>
        let (a, k, q) := slotMsgs b t false q
        ((if echo then rangeEcho b else nullMsg) :: a, k, q)

/-- Bytes of a placed frame at offset `o` of its section's info stream: header, payload encrypted where it has a key, pad
(R256, R257, R260); a key released meanwhile reads as zeros. -/
def placedBytes (s : State) (b : Burst) (g : Grant) (o : Nat) (p : Placed) : List Byte :=
  let n := p.payload.length + (if p.key.isSome then 16 else 0)
  let h := clpHeader n p.stream (p.key.getD 0) p.last p.typ p.key.isSome
  let body := match p.key with
    | none => p.payload
    | some i =>
      let k := ((keyFind s p.stream true i).map (fun k => keyOf k.key)).getD (List.replicate 32 0)
      gcmSeal k (ivWeft b.pick g.start (o / 8)) h p.payload
  h ++ slice body 0 (up8 n)

/-- The info stream of a section. -/
def sectionBytes (s : State) (b : Burst) (g : Grant) (msg : Option OutMsg) (l : List Placed) : List Byte :=
  let m := match msg with
    | some m => msgBytes b g.start m
    | none => []
  l.foldl (fun a p => a ++ placedBytes s b g a.length p) m

/-- The sections of a burst with their messages. -/
def burstSections (s : State) (b : Burst) : List Grant → List OutMsg → List (List Placed) → List (List Byte)
  | [], _, _ => []
  | g :: t, ms, ls =>
    if g.ms then sectionBytes s b g ms.head? (ls.headD []) :: burstSections s b t (ms.drop 1) (ls.drop 1)
    else sectionBytes s b g none (ls.headD []) :: burstSections s b t ms (ls.drop 1)

/-- BURST_LATCH: header, message slots and contents of the first unlatched burst are latched (R99 to R104). A section that
Reed has not filled by then is sent idle and counted (R101). While a condition of R111 holds the burst is cancelled. -/
def execBurstLatch (s : State) : Host.Outcome State Fault Refusal :=
  .next (match s.weft.bursts.find? unlatched with
    | none => s
    | some b =>
      if !(blockConds s).isEmpty then
        cancelled (setWeft s { s.weft with bursts := s.weft.bursts.erase b }) b
      else
        let (fill, late) := lateFill b
        let s := if s.act.st = .woven then countBy s 1 16 late else s
        let (slots, taken, q) := match b.token with
          | some t => ([snAnnounce s t], [], s.act.queue)
          | none => slotMsgs b b.grants b.ranging s.act.queue
        let b' : Burst := { b with
          fill := fill, latched := true, header := burstHeader s b, rei := s.weft.rei, taken := taken
          sections := burstSections s b b.grants slots fill
          swing := fld s (Reg.weftPlCfg ((b.grants.head?.map (·.pl)).getD 0)) 9 0 }
        let enc := (fill.flatten).filter (fun p => p.key.isSome)
        let s := countBy (countBy s 10 6 enc.length) 10 7 (sumList (enc.map (fun p => p.payload.length)))
        let mics := if b.key.isEmpty then 0 else slots.length
        let s := setSec s { s.sec with lineJobs := s.sec.lineJobs + enc.length + mics }
        let s := drbgUse s 1 (sumList (enc.map (fun p => blocks p.payload.length)))
        let s := setAct s { s.act with queue := q }
        setWeft s { s.weft with rei := 0, bursts := mapFirst unlatched (fun _ => b') s.weft.bursts })

/-! ## Start and end (R94, R106, R107) -/

/-- The bytes of a latched burst from the preamble on. -/
def burstBytes (b : Burst) : List Byte :=
  let lines := (List.zip b.grants b.sections).flatMap (fun e => sectionLine (grantSec e.1) e.2)
  preambleBytes b.pre ++ delimiterBytes ++ lineScramble 0x6A1D3B55 (b.header ++ lines)

/-- Messages other than NULL in a burst's slots. -/
def burstMsgs (b : Burst) : Nat :=
  ((List.zip b.grants b.sections).filter (fun e => e.1.ms && byteAt e.2 2 != 0)).length

/-- BURST_START: LASER_EN of the first burst rises; a condition of R111 that holds cancels it instead (R107, R111, R116). -/
def execBurstStart (s : State) : Host.Outcome State Fault Refusal :=
  .next (match s.weft.bursts with
    | [] => s
    | b :: t =>
      if !b.latched || b.started then s
      else if !(blockConds s).isEmpty then cancelled (setWeft s { s.weft with bursts := t }) b
      else
        let ps := b.fill.flatten
        let idle := ps.filter (fun p => p.stream == 0xFFFF)
        let data := ps.filter (fun p => p.stream != 0xFFFF)
        let s := countBy (count s 1 2) 1 3 b.grants.length
        let s := countBy s 1 4 (sumList (b.grants.map (fun g => (sectionCodewords (grantSec g)).length)))
        let s := countBy s 1 5 (sumList (data.map (fun p => p.payload.length + (if p.key.isSome then 16 else 0))))
        let s := countBy (countBy s 1 6 (sumList (idle.map placedSpan))) 1 14 (burstMsgs b)
        let start := (b.grants.head?.map (·.start)).getD 0
        let s := setReg s Reg.weftLastBurst (b.pick % 65536 * 65536 + start % 65536)
        let s := if b.token.isSome then count (setAct s { s.act with evAnnounced := true }) 2 9 else s
        let s := setWeft s { s.weft with bursts := { b with started := true } :: t }
        let s := { s with safety := { s.safety with enNow := true } }
        emit s (.burst (64 * start) (burstEnd b - start) b.swing (burstBytes b)))

/-- BURST_END: the last symbol of the burst in progress leaves and LASER_EN falls (R107). -/
def execBurstEnd (s : State) : Host.Outcome State Fault Refusal :=
  .next (match s.weft.bursts with
    | [] => s
    | b :: t =>
      if b.started then { setWeft s { s.weft with bursts := t } with safety := { s.safety with enNow := false } } else s)

/-- The Tension grant of the laser bias at a commit point (R110). -/
def weftCommit (s : State) : State :=
  if s.power.mode = .active ∧ flag s Reg.weftCtrl 0 then reqRaise s 1 20
  else if (reqAt s 1).state = .idle then s else reqReturn s 1

end Sys2Proof.Machine
end

