-- ==== Sys2Proof/Machine/Act.lean ====
section
/-! DEFINITION. Machine/Act.lean: the activation controller: states, session, treadle messages, key agreement, timed changes
(04_activation.md). -/

namespace Sys2Proof.Machine

open Sys2Proof

/-! ## Registers and notifications -/

/-- Code of an activation state (R114). -/
def actCode : ActSt → Nat
  | .dark => 0
  | .listening => 1
  | .announced => 2
  | .ranging => 3
  | .woven => 4
  | .lapsed => 5
  | .held => 6

/-- Notifications of ACT_NOTIFY (R144). -/
def actNotify (s : State) (sub payload : Nat) : State := notifyReg s Reg.actNotify 0 sub payload

/-- WEFT_CONT[0] (R121): the terminal ID in force, or the discovery container while LISTENING and armed. -/
def contZero (s : State) : Nat :=
  match s.act.tid with
  | some t => 2 ^ 31 + t
  | none => if s.act.st = .listening ∧ s.act.armed.isSome then 2 ^ 31 + discovery else 0

/-- Write what the activation controller keeps into the WEFT registers, while WEFT_ENC is on (R115, R413). -/
def weftWrite (s : State) : State :=
  let a := { s.act with conts := sput 0 s.act.conts 0 (contZero s) }
  let s := setAct s a
  if !domOn s 8 then s
  else
    let s := setReg (setReg s Reg.weftEqd a.eqd) Reg.weftPreamble a.pre
    let s := setReg s Reg.weftTid (match a.tid with | some t => 2 ^ 31 + t | none => 1023)
    forUpTo 64 s (fun n s => setReg s (Reg.weftCont n) (sget 0 a.conts n))

/-- Change the state (R115, R144). -/
def actGo (s : State) (st : ActSt) : State :=
  if s.act.st = st then s
  else actNotify (setAct s { s.act with st := st }) 0x01 (actCode s.act.st + 256 * actCode st)

/-! ## The session -/

/-- Drop the reassembly contexts of streams that are not active downstream (R143). -/
def dropForeign (s : State) : State :=
  (s.warp.reasm.map (·.1)).foldl (fun s k => if (sget none s.act.streams k).isSome then s else dropContext s k) s

/-- Erase the session (R117); a message that a latched burst carries returns to no queue of a later session (R131). -/
def eraseSession (s : State) : State :=
  let a := s.act
  let s := setAct s { a with
    tid := none, conts := [], streams := [], eqd := 0, keys := none, exch := none, changes := [], dozeOk := false, staged := []
    queue := a.queue.filter (fun m => m.typ == 0x85), tAnnounce := none, tKey := none, tRange := none, tLapse := none
    evKeyed := none, evAnnounced := false }
  let b := fun (x : Burst) => if x.started then x else { x with taken := x.taken.filter (fun m => m.typ == 0x85) }
  let s := setWeft s { s.weft with bursts := s.weft.bursts.map b }
  let s := releaseKeys (dropForeign s) (fun _ => true)
  actNotify (weftWrite s) 0x04 0

/-- After a failed attempt: ATTEMPTS grows and the back-off is drawn (R118), as soon as the TRNG delivers (R269). -/
def failAttempt (s : State) : State :=
  let s := setAct s { s.act with attempts := min 255 (s.act.attempts + 1), backoffDue := true }
  if trngGives s then backoffDraw s else s

/-! ## Timers (R116, R118, R128) -/

/-- The pick count `d` is reached. -/
def reached (now d : Nat) : Bool := decide ((now + 2 ^ 48 - d) % 2 ^ 48 < 2 ^ 47)

/-- A timer has reached its register's value. -/
def expired (t : Option Nat) (v : Nat) : Bool := match t with
  | some n => decide (v ≤ n)
  | none => false

/-- Expiry of T_ANNOUNCE, T_KEY or T_RANGE: erase, count, back to LISTENING. -/
def attemptOver (s : State) : State := weftWrite (actGo (failAttempt (eraseSession (count s 2 10))) .listening)

def execTAnnounceExpiry (s : State) : Host.Outcome State Fault Refusal :=
  .next (if s.act.st = .announced ∧ expired s.act.tAnnounce (fld s Reg.actTimer0 15 0) then attemptOver s else s)

def execTKeyExpiry (s : State) : Host.Outcome State Fault Refusal :=
  .next (if s.act.st = .announced ∧ expired s.act.tKey (fld s Reg.actTimer0 31 16) then attemptOver s else s)

/-- A SET_EQD with ACT = 1 comes into force at this commit point; its row stands above the one of T_RANGE (R116). -/
def wovenDue (s : State) : Bool :=
  s.act.changes.any (fun c => reached s.pick.count c.due && (match c.kind with | .eqd _ _ a => a | _ => false))

def execTRangeExpiry (s : State) : Host.Outcome State Fault Refusal :=
  .next (if s.act.st = .ranging ∧ expired s.act.tRange (fld s Reg.actTimer1 15 0) ∧ wovenDue s = false then attemptOver s else s)

def execTLapseExpiry (s : State) : Host.Outcome State Fault Refusal :=
  .next (if s.act.st = .lapsed ∧ expired s.act.tLapse (fld s Reg.actTimer1 31 16) then
    weftWrite (actGo (eraseSession (count s 2 10)) .dark) else s)

/-- ARM_EXPIRY: the arming lapses (R128). -/
def execArmExpiry (s : State) : Host.Outcome State Fault Refusal :=
  .next (if s.act.armed = some 0 then weftWrite (setAct s { s.act with armed := none }) else s)

/-! ## The commit point (R115, R116) -/

/-- What is staged comes into force: DISCOVER, a terminal ID, DOZE_OK. Stream keys load at step 5. -/
def actStage (s : State) (x : Staged) : State :=
  match x with
  | .discover e p n =>
    setAct s { s.act with eqd := e, pre := p, armed := if n = 0 then none else some n }
  | .tid t => setAct s { s.act with tid := some t, tAnnounce := none, tKey := some (s.act.tKey.getD 0) }
  | .doze ok =>
    let s := if !ok && s.power.mode == .doze then { s with power := { s.power with recallPend := true } } else s
    setAct s { s.act with dozeOk := ok }
  | .key _ _ _ _ => s

/-- A running timer counts a commit point. -/
def tickTimer (t : Option Nat) : Option Nat := t.map (· + 1)

/-- T_ANNOUNCE or T_KEY expires at this commit point; an ASSIGN_TID that comes into force there stops T_ANNOUNCE first. -/
def attemptEnds (s : State) : Bool :=
  let stops := s.act.staged.any (fun x => match x with | .tid _ => true | _ => false)
  (!stops && expired s.act.tAnnounce (fld s Reg.actTimer0 15 0)) || expired s.act.tKey (fld s Reg.actTimer0 31 16)

/-- The transition of R116 at this commit point: the highest row that applies. An expiry of T_ANNOUNCE or T_KEY stands above
LOF and DEACTIVATE: it follows as a row of its own. -/
def actTransition (s : State) : State :=
  let a := s.act
  if a.evStop || (a.held && a.st != .held) then
    let s := eraseSession s
    let s := if a.evStop then setAct s { s.act with held := true, heldByStop := true } else s
    actGo s .held
  else if a.st = .held then
    if a.evRelease then actGo (setAct s { a with held := false }) .dark else s
  else if !flag s Reg.actCtrl 0 then
    if a.st = .dark then s else actGo (eraseSession s) .dark
  else match a.st with
    | .dark => if s.warp.align = .sync then actGo s .listening else s
    | .listening =>
      if s.warp.lof then actGo (setAct s { a with armed := none, staged := [] }) .dark
      else if a.evAnnounced then actGo (setAct s { a with tAnnounce := some 0 }) .announced
      else s
    | .announced =>
      match a.evKeyed with
      | some k => actGo (setAct s { a with keys := some k, tRange := some 0, tAnnounce := none, tKey := none }) .ranging
      | none =>
        if attemptEnds s then s
        else if s.warp.lof then actGo (eraseSession s) .dark
        else if a.evDeact then actGo (eraseSession s) .listening
        else s
    | .ranging =>
      if s.warp.lof then actGo (eraseSession s) .dark
      else if a.evDeact then actGo (eraseSession s) .listening
      else s
    | .woven =>
      if a.evDeact then actGo (eraseSession s) .listening
      else if s.warp.lof then count (actGo (setAct s { a with tLapse := some 0 }) .lapsed) 2 11
      else s
    | .lapsed => if s.pick.gen = .locked then actGo (setAct s { a with tLapse := none }) .woven else s
    | .held => s

/-- Record bytes 8 to 15 and 48 to 239 from the values in force: image version, anti-rollback counters, digests (R133,
R274). -/
def recordFacts (s : State) : List Byte × List Byte :=
  let img := s.sec.image
  let none' := img.isEmpty
  (beBytes 4 (if none' then 0 else imgVersion img) ++ beBytes 4 ((if none' then 0 else imgArb img) + s.sec.otpArb * 256),
    slice (if none' then [] else imgDigest img) 0 64 ++ slice (if none' then [] else imgFwDigest img) 0 64 ++ slice s.sec.codeDigest 0 64)

/-- A CHALLENGE takes effect: its record will carry the values in force now (R274). -/
def challengeIn (s : State) : State :=
  match s.act.exch with
  | none => s
  | some e => if e.building && e.facts.isNone then setAct s { s.act with exch := some { e with facts := some (recordFacts s) } } else s

/-- The activation controller's part of step 2: timers count, the transition, then what messages staged (R115). -/
def actCommit (s : State) : State :=
  let a := s.act
  let s := setAct s { a with
    tAnnounce := tickTimer a.tAnnounce, tKey := tickTimer a.tKey, tRange := tickTimer a.tRange, tLapse := tickTimer a.tLapse
    armed := a.armed.map (· - 1) }
  let s := actTransition s
  let staged := s.act.staged
  let s := staged.foldl actStage s
  let s := setAct s { s.act with
    staged := s.act.staged.filter (fun x => match x with | .key _ _ _ _ => true | _ => false)
    evStop := false, evRelease := false, evDeact := false, evAnnounced := false, evKeyed := none }
  weftWrite (challengeIn s)

/-- Step 5: stream keys load (R139, R261); they wait for their masks while the TRNG delivers none (R268, R269), and are lost
where IDENT is off (R264). -/
def actKeys (s : State) : State :=
  let l := s.act.staged
  if domOn s 21 && !trngGives s then s
  else (if domOn s 21 then l else []).foldl (fun s x => match x with
    | .key st w i k => loadKey s st w i k
    | _ => s) (setAct s { s.act with staged := [] })

/-! ## Timed changes (R132, R138, R141 to R143) -/

/-- The pick at whose commit point a change of `eff` comes into force, for a message of pick `cur`; none where it lies too far ahead (R132). -/
def effectiveAt (cur eff : Nat) : Option Nat :=
  if eff = 0 ∨ eff ≤ cur then some ((cur + 1) % 2 ^ 48) else if 65536 < eff - cur then none else some eff

/-- Free entries of WEFT_CONT[1] to [63]. -/
def freeConts (s : State) : List Nat := ((List.range 64).drop 1).filter (fun n => sget 0 s.act.conts n == 0)

/-- A container comes into or leaves the table (R142); the rules do not say which free entry an add takes (log entry 10). -/
def applyContainer (s : State) (add : Bool) (c : Nat) : State :=
  let s :=
    if add then
      let (x, s) := draw s
      let l := freeConts s
      setAct s { s.act with conts := sput 0 s.act.conts (l.getD (x % l.length) 0) (2 ^ 31 + c) }
    else setAct s { s.act with conts := s.act.conts.filter (fun e => e.1 == 0 || e.2 != 2 ^ 31 + c) }
  actNotify s 0x03 ((if add then 0 else 0x4000) + c)

/-- A stream is set or removed (R143, R263). -/
def applyStream (s : State) (add dn up : Bool) (typ st c : Nat) : State :=
  let put (s : State) (k : Nat) (r : Option StreamRec) : State := setAct s { s.act with streams := sput none s.act.streams k r }
  let idx := ((sget none s.act.streams (65536 + st)).map (·.weftIdx)).getD 0
  let s := if dn then put s st (if add then some ⟨typ, 0, 0⟩ else none) else s
  let s := if up then put s (65536 + st) (if add then some ⟨typ, c, idx⟩ else none) else s
  let s := if add then s
    else dropForeign (releaseKeys s (fun k => k.stream == st && ((k.weft && up) || (!k.weft && dn))))
  actNotify s 0x02 (st + ((if add then 0 else 64) + b2n dn * 32 + b2n up * 16 + typ * 4) * 2 ^ 16 + c * 2 ^ 32)

/-- One change comes into force. -/
def applyChange (s : State) (k : ChangeKind) : State :=
  match k with
  | .eqd e p act =>
    let s := setAct s { s.act with eqd := e, pre := if p = 0 then s.act.pre else p }
    if act && s.act.st == .ranging then
      let s := actGo (setAct s { s.act with attempts := 0, tRange := none }) .woven
      setPick s { s.pick with wovenHere := s.pick.gen == .locked }
    else s
  | .container add c => applyContainer s add c
  | .stream add dn up t st c => applyStream s add dn up t st c
  | .keySwitch st i =>
    match sget none s.act.streams (65536 + st) with
    | none => s
    | some r => setAct (switchKey s st r.weftIdx i) { s.act with streams := sput none s.act.streams (65536 + st) (some { r with weftIdx := i }) }
  | .keys k => setAct s { s.act with keys := some k }

/-- EFFECTIVE_CHANGE: the changes due at this commit point come into force, in the order of their acceptance (R132). -/
def execEffectiveChange (s : State) : Host.Outcome State Fault Refusal :=
  let due := s.act.changes.filter (fun c => reached s.pick.count c.due)
  .next (if due.isEmpty then s
  else
    let s := setAct s { s.act with changes := s.act.changes.filter (fun c => !reached s.pick.count c.due) }
    weftWrite (due.foldl (fun s c => applyChange s c.kind) s))

/-! ## Upstream messages -/

/-- Queue an ACK, or count it in ACK_DROP (R129, R131). -/
def queueAck (s : State) (typ status pick pos applied : Nat) : State :=
  if s.act.queue.length < 32 then
    let m : OutMsg := ⟨0x83, 0, [BitVec.ofNat 8 typ, BitVec.ofNat 8 status] ++ beBytes 6 pick ++ [BitVec.ofNat 8 pos, 0] ++ beBytes 6 applied⟩
    setAct s { s.act with queue := s.act.queue ++ [m] }
  else count s 2 8

/-- Queue the parts of the attestation record, as far as the queue has room (R129, R133). -/
def queueRecord (s : State) (r : List Byte) : State :=
  forUpTo 7 s (fun k s =>
    if s.act.queue.length < 32 then setAct s { s.act with queue := s.act.queue ++ [⟨0x82, k, slice r (48 * k) 48⟩] } else s)

/-! Status codes of an ACK (R130). -/
namespace Ack
abbrev done : Nat := 0
abbrev errField : Nat := 1
abbrev errFull : Nat := 2
abbrev errKey : Nat := 3
abbrev errConflict : Nat := 4
end Ack

/-! ## Downstream messages: the checks of R126 -/

def msgType (m : List Byte) : Nat := byteAt m 2
def msgTid (m : List Byte) : Nat := beAt m 0 2 / 64
def msgPart (m : List Byte) : Nat := byteAt m 3 / 16
def msgAuth (m : List Byte) : Bool := (byteAt m 3).testBit 3

/-- The message types that carry the addressee's serial number. -/
def bySerial (t : Nat) : Bool := t == 0x02 || t == 0x0C || t == 0x0D

/-- Addressed to this terminal (R126). -/
def msgAddressed (s : State) (m : List Byte) : Bool :=
  (s.act.tid == some (msgTid m) || msgTid m == 1023) && (!bySerial (msgType m) || beAt m 4 8 == s.act.serial)

/-- A CHALLENGE is open for KEY_AGREE (R136). -/
def challengeOpen (s : State) : Bool := match s.act.exch with
  | some e => e.isOpen && decide (e.accepted < s.pick.commits)
  | none => false

/-- A part 0 that repeats the exchange already completed (R136). -/
def repeatsDone (s : State) (m : List Byte) : Bool := match s.act.exch with
  | some e => msgPart m == 0 && e.donePub == some (slice m 4 32)
  | none => false

/-- The TYPE is accepted in the current state (R127, R133, R135, R136). -/
def msgAccepted (s : State) (m : List Byte) : Bool :=
  let st := s.act.st
  match msgType m with
  | 0x01 => st == .listening
  | 0x02 => st == .announced && s.act.exch.isNone
  | 0x03 => (st == .announced || st == .woven) && s.act.tid.isSome
  | 0x04 => (st == .announced || st == .woven) && (challengeOpen s || repeatsDone s m)
  | 0x05 | 0x06 | 0x07 | 0x08 => st == .ranging || st == .woven
  | 0x09 | 0x0E => st == .woven
  | 0x0A => st != .dark
  | 0x0B => st == .announced || st == .ranging || st == .woven
  | 0x0C => st != .dark && st != .held
  | 0x0D => st == .held
  | _ => false

/-- AUTH as the type requires it (R127). -/
def authNeeded (s : State) (t : Nat) : Bool :=
  if t = 0x01 ∨ t = 0x02 ∨ t = 0x0A ∨ t = 0x0D then false
  else if (0x05 ≤ t ∧ t ≤ 0x09) ∨ t = 0x0E then true
  else s.act.keys.isSome

/-- The downstream IV (R125, R139) with its first byte. -/
def msgIv (first pick pos tid : Nat) : List Byte := beBytes 1 first ++ beBytes 6 pick ++ beBytes 2 pos ++ beBytes 2 tid ++ [0]

/-- AUTH and MIC pass (R125, R126). -/
def authOk (s : State) (m : List Byte) (pos : Nat) : Bool :=
  let need := authNeeded s (msgType m)
  msgAuth m == need && (!need || (match s.act.keys with
    | none => false
    | some k => slice (Config.gcmTag (keyOf k.tmkD) (msgIv 0 s.warp.rx.count pos (msgTid m)) (m.take 52) []) 0 8 == slice m 52 8))

/-- What handling a message comes to: it passes, or its fields are not valid (counted in MSG_REJECT). -/
inductive MsgRes where
  | pass (s : State)
  | bad (s : State)

/-- The message lies in the pick that arrives. -/
def msgHere (s : State) (m : List Byte) (pos : Nat) : Bool :=
  rxOn s && s.warp.rx.ok && decide (pos < s.warp.rx.msgLen) && m.length == 64

/-- The message is poisoned (R61). -/
def msgPoisoned (s : State) (pos : Nat) : Bool := poisoned s.warp.rx (32 + 8 * s.warp.rx.mapLen + 64 * pos) 64

/-- Discarded or ignored by one of the checks before the fields: the state after; none where the message goes on. -/
def msgChecks (s : State) (m : List Byte) (pos : Nat) : Option State :=
  if !unitOk s 0x08 then some (count s 2 7)
  else if msgPoisoned s pos then some (count s 2 2)
  else if crc32c (m.take 60) ≠ beAt m 60 4 then some (count s 2 1)
  else if !msgAddressed s m then some s
  else if msgType m = 0 ∨ 0x0E < msgType m then some (count s 2 3)
  else if !msgAccepted s m then some (if msgType m = 0x01 ∨ msgType m = 0x0A then s else count s 2 4)
  else if !authOk s m pos then some (count s 2 5)
  else none

/-- A treadle row: the message at position `pos` of the pick's partition, of the row's TYPE (R126). -/
def treadle (typ : Nat) (body : List Byte → Nat → State → MsgRes) (m : List Byte) (pos : Nat) (s : State) : State :=
  if !msgHere s m pos || msgType m != typ then s
  else match msgChecks s m pos with
    | some s => s
    | none => match body m pos s with
      | .pass s => count s 2 0
      | .bad s => count s 2 6

/-- TREADLE_MESSAGE_DISCARDED: a message that a check before the fields ends (R126). -/
def execTreadleMessageDiscarded (m : List Byte) (pos : Nat) (s : State) : Host.Outcome State Fault Refusal :=
  .next (if !msgHere s m pos then s else (msgChecks s m pos).getD s)

/-- Answer with an ACK. -/
def answer (s : State) (m : List Byte) (pos status applied : Nat) : State := queueAck s (msgType m) status s.warp.rx.count pos applied

/-- Reject with an ACK of an error status. -/
def rejectMsg (s : State) (m : List Byte) (pos status : Nat) : MsgRes := .bad (answer s m pos status 0)

/-- Accept a timed change, or answer ERR_FIELD or ERR_FULL (R132). -/
def acceptChange (s : State) (m : List Byte) (pos eff : Nat) (k : ChangeKind) : MsgRes :=
  match effectiveAt s.warp.rx.count eff with
  | none => rejectMsg s m pos Ack.errField
  | some d =>
    if 64 ≤ s.act.changes.length then rejectMsg s m pos Ack.errFull
    else .pass (answer (setAct s { s.act with changes := s.act.changes ++ [⟨d, k⟩] }) m pos Ack.done d)

/-- Stage something for the next commit point. -/
def stageMsg (s : State) (x : Staged) : State := setAct s { s.act with staged := s.act.staged ++ [x] }

/-- The count of the commit point that starts the next pick. -/
def nextPick (s : State) : Nat := (s.warp.rx.count + 1) % 2 ^ 48

/-! ## The messages -/

/-- DISCOVER (R140). -/
def msgDiscover (m : List Byte) (_ : Nat) (s : State) : MsgRes :=
  if byteAt m 8 < 32 ∨ byteAt m 9 ≠ 3 then .bad s
  else
    .pass (stageMsg (setAct s { s.act with heId := beAt m 4 4 }) (.discover (beAt m 10 3) (byteAt m 8) (beAt m 13 2)))
def execDiscover (m : List Byte) (pos : Nat) (s : State) : Host.Outcome State Fault Refusal := .next (treadle 0x01 msgDiscover m pos s)

/-- ASSIGN_TID (R116). -/
def msgAssignTid (m : List Byte) (pos : Nat) (s : State) : MsgRes :=
  let t := beAt m 12 2 / 64
  if t = 1023 then .bad s else .pass (answer (stageMsg s (.tid t)) m pos Ack.done (nextPick s))
def execAssignTid (m : List Byte) (pos : Nat) (s : State) : Host.Outcome State Fault Refusal := .next (treadle 0x02 msgAssignTid m pos s)

/-- CHALLENGE (R133). -/
def msgChallenge (m : List Byte) (_ : Nat) (s : State) : MsgRes :=
  let n := slice m 4 32
  let new : Exchange := { nonce := n, isOpen := true, building := true, accepted := s.pick.commits }
  match s.act.exch with
  | none => .pass (setAct s { s.act with exch := some new })
  | some e =>
    if e.nonce = n then .pass (if e.building then s else queueRecord s e.record)
    else .pass (setAct s { s.act with exch := some new })
def execChallenge (m : List Byte) (pos : Nat) (s : State) : Host.Outcome State Fault Refusal := .next (treadle 0x03 msgChallenge m pos s)

/-- ASCII prefixes of R134 and R136. -/
def attestPrefix : List Byte := [0x43, 0x4C, 0x50, 0x33, 0x20, 0x61, 0x74, 0x74, 0x65, 0x73, 0x74, 0x20, 0x76, 0x31, 0, 0]
def hekeyPrefix : List Byte := [0x43, 0x4C, 0x50, 0x33, 0x20, 0x68, 0x65, 0x6B, 0x65, 0x79, 0x20, 0x76, 0x31, 0, 0, 0]

/-- The X25519 base point (RFC 7748). -/
def basePoint : List Byte := 9 :: List.replicate 31 0

/-- The head end's public key in ACT_HE_PUB. -/
def hePubKey (s : State) : List Byte := (List.range 8).flatMap (fun k => leBytes 4 (rd s (Reg.actHePub k)))

/-- The message that HE_AUTH signs (R136). -/
def heSigned (s : State) (e : Exchange) (hePub : List Byte) (eff : Nat) : List Byte :=
  hekeyPrefix ++ e.nonce ++ beBytes 8 s.act.serial ++ beBytes 2 (s.act.tid.getD 0) ++ e.pub ++ hePub ++ beBytes 6 eff

/-- When the parts are complete and the key pair exists, check signature and shared secret (R136). -/
def agreeCheck (s : State) : State :=
  match s.act.exch with
  | none => s
  | some e =>
    match e.part0 with
    | none => s
    | some (hePub, eff) =>
      if !e.isOpen || e.pub.isEmpty || e.z.isSome then s
      else if flag s Reg.actCtrl 1 && (e.sigA.isNone || e.sigB.isNone) then s
      else
        let sig := e.sigA.getD [] ++ e.sigB.getD []
        let z := Config.x25519 e.priv hePub
        if (flag s Reg.actCtrl 1 && !Config.ed25519Verify (hePubKey s) (heSigned s e hePub eff) sig) || z.all (· == 0) then
          count (setAct s { s.act with exch := some { e with part0 := none, sigA := none, sigB := none } }) 2 5
        else setAct s { s.act with exch := some { e with z := some z } }

/-- KEY_AGREE (R136). -/
def msgKeyAgree (m : List Byte) (pos : Nat) (s : State) : MsgRes :=
  match s.act.exch with
  | none => .bad s
  | some e =>
    if repeatsDone s m then .pass (answer s m pos Ack.done e.doneAt)
    else
      let e := { e with echo := (s.warp.rx.count, pos) }
      let store (e : Exchange) : MsgRes := .pass (agreeCheck (setAct s { s.act with exch := some e }))
      match msgPart m with
      | 0 =>
        let hp := slice m 4 32
        let eff := beAt m 36 6
        if s.act.st = .woven ∧ (effectiveAt s.warp.rx.count eff).isNone then rejectMsg s m pos Ack.errField
        else match e.part0 with
          | some (old, _) =>
            if old = hp then store { e with part0 := some (hp, eff) }
            else store { e with part0 := some (hp, eff), sigA := none, sigB := none, z := none }
          | none => store { e with part0 := some (hp, eff) }
      | 1 => store { e with sigA := some (slice m 4 48) }
      | 2 => store { e with sigB := some (slice m 4 16) }
      | _ => rejectMsg s m pos Ack.errField
def execKeyAgree (m : List Byte) (pos : Nat) (s : State) : Host.Outcome State Fault Refusal := .next (treadle 0x04 msgKeyAgree m pos s)

/-- SET_EQD (R141). -/
def msgSetEqd (m : List Byte) (pos : Nat) (s : State) : MsgRes :=
  let p := byteAt m 7
  if 1 ≤ p ∧ p ≤ 31 then rejectMsg s m pos Ack.errField
  else acceptChange s m pos (beAt m 8 6) (.eqd (beAt m 4 3) p ((byteAt m 14).testBit 7 && s.act.st == .ranging))
def execSetEqd (m : List Byte) (pos : Nat) (s : State) : Host.Outcome State Fault Refusal := .next (treadle 0x05 msgSetEqd m pos s)

/-- A container is in the table, or in a pending add (R142). -/
def contPresent (s : State) (c : Nat) : Bool :=
  s.act.conts.any (fun e => e.2 == 2 ^ 31 + c) || s.act.changes.any (fun x => x.kind == .container true c)

/-- An upstream stream uses the container, in force or pending. -/
def contUsed (s : State) (c : Nat) : Bool :=
  s.act.streams.any (fun e => decide (65536 ≤ e.1) && (match e.2 with | some r => r.container == c | none => false))
    || s.act.changes.any (fun x => match x.kind with | .stream true _ true _ _ d => d == c | _ => false)

/-- Containers in the table or in a pending add (R142). -/
def contCount (s : State) : Nat :=
  63 - (freeConts s).length + (s.act.changes.filter (fun x => match x.kind with | .container true _ => true | _ => false)).length

/-- ASSIGN_CONTAINER (R142). -/
def msgAssignContainer (m : List Byte) (pos : Nat) (s : State) : MsgRes :=
  let w := beAt m 4 2
  let op := w / 16384
  let c := w % 16384
  let eff := beAt m 6 6
  if c < 1024 ∨ 16381 < c ∨ 2 ≤ op then rejectMsg s m pos Ack.errField
  else if op = 0 then
    if contPresent s c then .pass (answer s m pos Ack.done 0)
    else if 63 ≤ contCount s then
      rejectMsg s m pos Ack.errFull
    else acceptChange s m pos eff (.container true c)
  else if contUsed s c then rejectMsg s m pos Ack.errConflict
  else if contPresent s c then acceptChange s m pos eff (.container false c)
  else .pass (answer s m pos Ack.done 0)
def execAssignContainer (m : List Byte) (pos : Nat) (s : State) : Host.Outcome State Fault Refusal := .next (treadle 0x06 msgAssignContainer m pos s)

/-- A stream is active in a direction, in force or pending. -/
def streamActive (s : State) (st : Nat) (weft : Bool) : Bool :=
  (sget none s.act.streams ((if weft then 65536 else 0) + st)).isSome
    || s.act.changes.any (fun x => match x.kind with
      | .stream true dn up _ t _ => t == st && (if weft then up else dn)
      | _ => false)

/-- Streams of a direction, in force or pending. -/
def streamCount (s : State) (weft : Bool) : Nat :=
  let l := (s.act.streams.filter (fun e => decide (65536 ≤ e.1) == weft)).map (fun e => e.1 % 65536)
  let p := s.act.changes.filterMap (fun x => match x.kind with
    | .stream true dn up _ t _ => if (if weft then up else dn) then some t else none
    | _ => none)
  (l ++ p).dedup.length

/-- ASSIGN_STREAM (R143). -/
def msgAssignStream (m : List Byte) (pos : Nat) (s : State) : MsgRes :=
  let st := beAt m 4 2
  let b := byteAt m 6
  let op := bits b 7 6
  let dn := b.testBit 5
  let up := b.testBit 4
  let typ := bits b 3 2
  let c := beAt m 7 2 % 16384
  let eff := beAt m 9 6
  if 2 ≤ op ∨ st = 0xFFFF ∨ (!dn ∧ !up) then rejectMsg s m pos Ack.errField
  else if op = 0 then
    if typ = 3 ∨ (up ∧ !contPresent s c) then rejectMsg s m pos Ack.errField
    else if (dn ∧ !streamActive s st false ∧ 4096 ≤ streamCount s false) ∨ (up ∧ !streamActive s st true ∧ 4096 ≤ streamCount s true) then
      rejectMsg s m pos Ack.errFull
    else acceptChange s m pos eff (.stream true dn up typ st c)
  else if (dn && streamActive s st false) || (up && streamActive s st true) then acceptChange s m pos eff (.stream false dn up typ st c)
  else .pass (answer s m pos Ack.done 0)
def execAssignStream (m : List Byte) (pos : Nat) (s : State) : Host.Outcome State Fault Refusal := .next (treadle 0x07 msgAssignStream m pos s)

/-- Free slots that the stream keys due to load take: one for each (STREAM, DIR, INDEX) that holds no key yet. -/
def stagedKeys (s : State) : Nat :=
  (s.act.staged.filterMap (fun x => match x with
    | .key st w i _ => if keyLoaded s st w i then none else some (st, w, i)
    | _ => none)).dedup.length

/-- A key for (STREAM, DIR, INDEX) is due to load. -/
def keyStaged (s : State) (st : Nat) (w : Bool) (i : Nat) : Bool :=
  s.act.staged.any (fun x => match x with | .key a b c _ => a == st && b == w && c == i | _ => false)

/-- A weft key load contradicts the index in force or a pending switch (R261). -/
def keyConflict (s : State) (st i : Nat) : Bool :=
  (weftIndex s st == i && keyLoaded s st true i) || s.act.changes.any (fun x => x.kind == .keySwitch st i)

/-- KEY_LOAD (R139, R261). -/
def msgKeyLoad (m : List Byte) (pos : Nat) (s : State) : MsgRes :=
  let st := beAt m 4 2
  let w := (byteAt m 6).testBit 7
  let i := bits (byteAt m 6) 6 5
  let kek := (s.act.keys.map (fun k => keyOf k.kek)).getD []
  let iv := msgIv 2 s.warp.rx.count pos (msgTid m)
  let ct := slice m 8 32
  if slice (Config.gcmTag kek iv (m.take 8) ct) 0 12 ≠ slice m 40 12 then rejectMsg s m pos Ack.errKey
  else if !streamActive s st w then rejectMsg s m pos Ack.errKey
  else if w ∧ keyConflict s st i then rejectMsg s m pos Ack.errConflict
  else if !keyLoaded s st w i ∧ !keyStaged s st w i ∧ 8192 ≤ s.sec.keys.length + stagedKeys s then rejectMsg s m pos Ack.errKey
  else .pass (answer (stageMsg s (.key st w i (Config.gcmDecrypt kek iv (m.take 8) ct))) m pos Ack.done (nextPick s))
def execKeyLoad (m : List Byte) (pos : Nat) (s : State) : Host.Outcome State Fault Refusal := .next (treadle 0x08 msgKeyLoad m pos s)

/-- KEY_SWITCH (R262). -/
def msgKeySwitch (m : List Byte) (pos : Nat) (s : State) : MsgRes :=
  let st := beAt m 4 2
  let i := bits (byteAt m 6) 6 5
  if keyLoaded s st true i ∨ keyStaged s st true i then acceptChange s m pos (beAt m 7 6) (.keySwitch st i)
  else rejectMsg s m pos Ack.errConflict
def execKeySwitch (m : List Byte) (pos : Nat) (s : State) : Host.Outcome State Fault Refusal := .next (treadle 0x09 msgKeySwitch m pos s)

/-- TOD (R150 to R152). -/
def msgTod (m : List Byte) (_ : Nat) (s : State) : MsgRes := .pass (timeTod s (beAt m 4 6) (beAt m 10 6) (beAt m 16 4) (beAt m 20 4))
def execTod (m : List Byte) (pos : Nat) (s : State) : Host.Outcome State Fault Refusal := .next (treadle 0x0A msgTod m pos s)

/-- DEACTIVATE, STOP and RELEASE take effect at the next commit point (R115, R116). -/
def msgDeactivate (_ : List Byte) (_ : Nat) (s : State) : MsgRes := .pass (setAct s { s.act with evDeact := true })
def execDeactivate (m : List Byte) (pos : Nat) (s : State) : Host.Outcome State Fault Refusal := .next (treadle 0x0B msgDeactivate m pos s)
def msgStop (_ : List Byte) (_ : Nat) (s : State) : MsgRes := .pass (setAct s { s.act with evStop := true })
def execStop (m : List Byte) (pos : Nat) (s : State) : Host.Outcome State Fault Refusal := .next (treadle 0x0C msgStop m pos s)
def msgRelease (_ : List Byte) (_ : Nat) (s : State) : MsgRes := .pass (setAct s { s.act with evRelease := true })
def execRelease (m : List Byte) (pos : Nat) (s : State) : Host.Outcome State Fault Refusal := .next (treadle 0x0D msgRelease m pos s)

/-- DOZE_ACK (R415). -/
def msgDozeAck (m : List Byte) (_ : Nat) (s : State) : MsgRes := .pass (stageMsg s (.doze ((byteAt m 4).testBit 7)))
def execDozeAck (m : List Byte) (pos : Nat) (s : State) : Host.Outcome State Fault Refusal := .next (treadle 0x0E msgDozeAck m pos s)

/-! ## Attestation and key derivation (R133, R134, R137, R138) -/

/-- Record bytes 0 to 239 (R133). -/
def recordBody (s : State) (facts : List Byte × List Byte) (pub : List Byte) : List Byte :=
  beBytes 8 s.act.serial ++ facts.1 ++ slice pub 0 32 ++ facts.2

/-- ATTEST_RECORD_READY: the key pair exists, the record is signed and its parts are queued; parts of KEY_AGREE held so
far are checked (R133, R134, R136). Held up while the TRNG delivers nothing, and while the identity engine performs a host
job (R269, R270, R420). -/
def execAttestRecordReady (s : State) : Host.Outcome State Fault Refusal :=
  .next (match s.act.exch with
    | none => s
    | some e =>
      if !e.building || e.facts.isNone || !trngGives s || s.sec.idJob.isSome then s
      else
        let (priv, s) := drawBytes (drbgUse (drbgUse s 2 1) 3 1) 32
        let pub := Config.x25519 priv basePoint
        let body := recordBody s (e.facts.getD ([], [])) pub
        let msg := attestPrefix ++ e.nonce ++ beBytes 2 (s.act.tid.getD 0) ++ body
        let rec' := body ++ slice (Config.ed25519Sign s.sec.idSeed msg) 0 64 ++ List.replicate 32 0
        let s := setAct s { s.act with exch := some { e with building := false, priv := priv, pub := pub, record := rec' } }
        idNext (agreeCheck (queueRecord s rec')))

/-- ASCII labels of R137. -/
def labelDown : List Byte := [0x43, 0x4C, 0x50, 0x33, 0x20, 0x74, 0x6D, 0x6B, 0x20, 0x64, 0x6F, 0x77, 0x6E]
def labelUp : List Byte := [0x43, 0x4C, 0x50, 0x33, 0x20, 0x74, 0x6D, 0x6B, 0x20, 0x75, 0x70]
def labelKek : List Byte := [0x43, 0x4C, 0x50, 0x33, 0x20, 0x6B, 0x65, 0x6B]

/-- A key that Z and NONCE give under a label (R137). -/
def deriveKey (s : State) (nonce z label : List Byte) : List Byte :=
  Config.hkdf nonce z (label ++ beBytes 8 s.act.serial ++ beBytes 2 (s.act.tid.getD 0)) 32

/-- The session keys, each in its slot under its own mask (R137, R264). -/
def deriveKeys (nonce z : List Byte) (s : State) : SessionKeys × State :=
  let (d, t) := maskKey (deriveKey s nonce z labelDown) s
  let (u, t) := maskKey (deriveKey s nonce z labelUp) t
  let (k, t) := maskKey (deriveKey s nonce z labelKek) t
  (⟨d, u, k⟩, t)

/-- KEY_DERIVATION_DONE: the keys are derived, Z and the private key are zeroised, an ACK is queued; the keys come into
force with RANGING, or in WOVEN at EFFECTIVE (R137, R138). It waits for the slots' masks, and for the identity engine while it
performs a host job (R269, R270). -/
def execKeyDerivationDone (s : State) : Host.Outcome State Fault Refusal :=
  .next (match s.act.exch with
    | none => s
    | some e =>
      if !trngGives s || s.sec.idJob.isSome then s
      else match e.z, e.part0 with
      | some z, some (hePub, eff) =>
        let (ks, s) := deriveKeys e.nonce z s
        let inWoven := s.act.st != .announced
        let next := (s.pick.count + 1) % 2 ^ 48
        let due := if inWoven then (effectiveAt s.pick.count eff).getD next else next
        let e' := { e with isOpen := false, priv := [], z := none, part0 := none, sigA := none, sigB := none, donePub := some hePub, doneAt := due }
        if inWoven ∧ 64 ≤ s.act.changes.length then
          idNext (count (queueAck (setAct s { s.act with exch := some { e' with donePub := none } }) 0x04 Ack.errFull e.echo.1 e.echo.2 0) 2 6)
        else
          let a := { s.act with exch := some e' }
          let s := setAct s (if inWoven then { a with changes := a.changes ++ [⟨due, .keys ks⟩] } else { a with evKeyed := some ks })
          idNext (queueAck s 0x04 Ack.done e.echo.1 e.echo.2 due)
      | _, _ => s)

/-! ## Registers -/

/-- A write of 1 to ACT_HELD.HELD (R119). -/
def actHeldSet (s : State) : State := if s.act.held then s else setAct s { s.act with held := true, heldByStop := false }

/-- ACT registers that show the controller's state. -/
def actRo (s : State) (a : Nat) : Option Nat :=
  let x := s.act
  if a = Reg.actStat then
    some (x.attempts * 256 + b2n x.dozeOk * 32 + b2n x.armed.isSome * 16 + b2n x.keys.isSome * 8 + actCode x.st)
  else if a = Reg.actHeld then some (b2n x.heldByStop * 2 + b2n x.held)
  else if a = Reg.actSerialLo then some (x.serial % 2 ^ 32)
  else if a = Reg.actSerialHi then some (x.serial / 2 ^ 32)
  else if a = Reg.actHeId then some x.heId
  else if a = Reg.actPend then some x.changes.length
  else if a = Reg.actStreamData then
    let weft := (rdS s Reg.actStreamSel).testBit 16
    some (match sget none x.streams ((if weft then 65536 else 0) + rdS s Reg.actStreamSel % 65536) with
      | some r => 2 ^ 31 + r.typ * 2 ^ 28 + r.weftIdx * 2 ^ 26 + r.container
      | none => 0)
  else none

end Sys2Proof.Machine
end

