-- ==== Sys2Proof/Machine/Dram.lean ====
section
/-! DEFINITION. Machine/Dram.lean: the DRAM port: registers, contents, training, keep (R472 to R474). -/

namespace Sys2Proof.Machine

open Sys2Proof

/-- The memory's canonical form: addresses strictly rising, no byte equal to 0, which an unlisted byte reads. -/
def Memory.wf (m : List Host.Cell) : Bool := swf (fun _ => (0 : Byte)) m

/-- One byte of DRAM. -/
def dramByte (s : State) (a : Nat) : Byte := sget 0 s.dram a

/-- `n` bytes of DRAM from address `a`. -/
def dramRead (s : State) (a n : Nat) : List Byte := (List.range n).map (fun i => dramByte s (a + i))

/-- Write bytes into DRAM from address `a`. -/
def dramPut (m : List Host.Cell) (a : Nat) : List Byte → List Host.Cell
  | [] => m
  | b :: t => dramPut (sput 0 m a b) (a + 1) t

/-- Write bytes into DRAM. -/
def dramWrite (s : State) (a : Nat) (d : List Byte) : State := { s with dram := dramPut s.dram a d }

/-- DRAM_STAT.SIZE_MIB: the size in force in MiB, 0 unless the port is READY. -/
def dramMib (s : State) : Nat := fld s Reg.dramStat 26 16

/-- The size in force for a capacity code: seven eighths of 512 MiB, 1 GiB or 2 GiB (R473). -/
def dramSizeOf (code : Nat) : Nat :=
  match code with
  | 0 => 448
  | 1 => 896
  | _ => 1792

/-- The port stands closed: SELF_REFRESH while AON holds the devices there, else OFF (DRAM_STAT.STATE, R474). -/
def dramClosed (s : State) : State := setReg s Reg.dramStat (if flag s Reg.dramKeep 1 then 3 * 2 ^ 30 else 0)

/-- DRAM_CTRL.EN came into force: training starts; EN at 0 closes the port (R472, R474). -/
def dramEnable (s : State) (en : Bool) : State := if en then setReg s Reg.dramStat (2 ^ 30) else dramClosed s

/-- DRAM_PHY is reset or switched off: the contents survive only with KEEP = 1 and the port READY (R474). -/
def dramLose (s : State) : State :=
  if flag s Reg.dramKeep 0 && fld s Reg.dramStat 31 30 == 2 then setBit s Reg.dramKeep 1
  else clrBit { s with dram := [] } Reg.dramKeep 1

/-- DRAM_TRAINING_DONE: training ends, READY or with a channel's TRAIN_FAIL; contents held in self-refresh are kept (R472, R474). -/
def execDramTrainingDone (fail0 fail1 : Bool) (s : State) : Host.Outcome State Fault Refusal :=
  .next (if domOn s 13 && fld s Reg.dramStat 31 30 == 1 then
    if fail0 || fail1 then setReg s Reg.dramStat (b2n fail0 + 2 * b2n fail1)
    else
      let kept := flag s Reg.dramKeep 1
      let s := setReg s Reg.dramStat (2 * 2 ^ 30 + dramSizeOf (fld s Reg.dramCfg 2 1) * 2 ^ 16 + 4 * b2n kept)
      if kept then clrBit s Reg.dramKeep 1 else { s with dram := [] }
  else s)

end Sys2Proof.Machine
end

