-- ==== Sys2Proof/Machine/Flow.lean ====
section
/-! DEFINITION. Machine/Flow.lean: the flow store: entries in DRAM, the cache, placement, learning, aging, rehash,
clear and the FLOW commands (R193 to R205). -/

namespace Sys2Proof.Machine

open Sys2Proof

/-! ## Entries (R193, R194) -/

/-- Slots of the store. -/
def flowSlots : Nat := 0x800000

/-- A store entry as its 64 bytes give it. -/
structure FlowEnt where
  key : Nat
  hop : Nat
  flags : Nat
  action : Nat
  pkts : Nat
  oct : Nat
  last : Nat

/-- Base address of region A (false) or B (true). -/
def flowBase (s : State) (b : Bool) : Nat :=
  (if b then fld s Reg.heddleFlowBase 5 4 else fld s Reg.heddleFlowBase 1 0) * 0x20000000

/-- The active region (HEDDLE_FLOW_SEED.REGION) and the seed in force. -/
def flowRegion (s : State) : Bool := flag s Reg.heddleFlowSeed 16
def flowSeed (s : State) : Nat := fld s Reg.heddleFlowSeed 15 0

/-- The region lies inside the DRAM size in force (R473). -/
def regionFits (s : State) (b : Bool) : Bool := decide (flowBase s b + 0x20000000 ≤ dramMib s * 0x100000)

/-- Decode 64 bytes. -/
def entDecode (d : List Byte) : FlowEnt :=
  ⟨beAt d 0 40, leAt d 40 2, leAt d 42 2, leAt d 44 10, leAt d 54 4, leAt d 58 4, leAt d 62 2⟩

/-- Encode an entry. -/
def entEncode (e : FlowEnt) : List Byte :=
  beBytes 40 e.key ++ leBytes 2 e.hop ++ leBytes 2 e.flags ++ leBytes 10 e.action ++ leBytes 4 e.pkts
    ++ leBytes 4 e.oct ++ leBytes 2 e.last

/-- Slot `j` of region `b`. -/
def entGet (s : State) (b : Bool) (j : Nat) : FlowEnt := entDecode (dramRead s (flowBase s b + 64 * (j % flowSlots)) 64)

/-- Write slot `j` of region `b`. -/
def entPut (s : State) (b : Bool) (j : Nat) (e : FlowEnt) : State :=
  dramWrite s (flowBase s b + 64 * (j % flowSlots)) (entEncode e)

def entValid (e : FlowEnt) : Bool := e.flags.testBit 15
def entStatic (e : FlowEnt) : Bool := e.flags.testBit 14
def entHost (e : FlowEnt) : Bool := e.flags.testBit 13

/-- Home slot of a key under a seed (R194). -/
def homeSlot (seed key : Nat) : Nat := crc32 (0xFFFF0000 + seed % 65536) (beBytes 40 key) % flowSlots

/-- The slot of region `b` that holds `key`: among the slots that the home slot's HOP names. -/
def storeFind (s : State) (b : Bool) (seed key : Nat) : Option Nat :=
  let h := homeSlot seed key
  ((bitList 16 (entGet s b h).hop).map (fun i => (h + i) % flowSlots)).find?
    (fun j => let e := entGet s b j; entValid e && e.key == key)

/-- The flow store may read DRAM: VALID or REHASH (R205). -/
def storeReads (s : State) : Bool := s.flow.st == .valid || s.flow.st == .rehash

/-- Find a key in DRAM: in REHASH the new region, then the old (R202). -/
def storeLookup (s : State) (key : Nat) : Option (Bool × Nat) :=
  if !storeReads s then none
  else
    let r := flowRegion s
    if s.flow.st == .rehash then
      match storeFind s (!r) s.flow.newSeed key with
      | some j => some (!r, j)
      | none => (storeFind s r (flowSeed s) key).map (r, ·)
    else (storeFind s r (flowSeed s) key).map (r, ·)

/-- Region and seed under which entries are placed (R202). -/
def placeRegion (s : State) : Bool × Nat :=
  if s.flow.st == .rehash then (!flowRegion s, s.flow.newSeed) else (flowRegion s, flowSeed s)

/-! ## Placement by hopscotch moves (R198) -/

/-- The nearest free slot among `n` slots from distance `d` after home `h`. -/
def findFree (s : State) (b : Bool) (h : Nat) : Nat → Nat → Option Nat
  | 0, _ => none
  | n + 1, d => if entValid (entGet s b (h + d)) then findFree s b h n (d + 1) else some d

/-- A move into free slot `f`: the entry nearest the far end of the 15 slots before it whose home neighbourhood
reaches `f`: (home distance i, its HOP bit k). -/
def findMove (s : State) (b : Bool) (f : Nat) : Nat → Option (Nat × Nat)
  | 0 => none
  | i + 1 =>
    let home := (f + flowSlots - (i + 1)) % flowSlots
    match (bitList (i + 1) (entGet s b home).hop).head? with
    | some k => some (i + 1, k)
    | none => findMove s b f i

/-- Move entries until the free slot at distance `d` of home `h` lies within 16 slots; none where no move helps. -/
def hopMoves (b : Bool) (h : Nat) : Nat → State → Nat → Option (Nat × State)
  | 0, _, _ => none
  | n + 1, s, d =>
    if d < 16 then some (d, s)
    else
      let f := (h + d) % flowSlots
      match findMove s b f 15 with
      | none => none
      | some (i, k) =>
        let home := (f + flowSlots - i) % flowSlots
        let src := (home + k) % flowSlots
        let e := entGet s b src
        let s := entPut s b f { e with hop := (entGet s b f).hop }
        let s := entPut s b src { entGet s b src with flags := 0 }
        let eh := entGet s b home
        let s := entPut s b home { eh with hop := eh.hop - 2 ^ k + 2 ^ i }
        hopMoves b h n s (d - (i - k))

/-- Place an entry in region `b` under `seed`: its home slot or one of the 128 slots after it is free (R198); none where it
cannot be placed. -/
def storePlace (s : State) (b : Bool) (seed : Nat) (e : FlowEnt) : Option State :=
  let h := homeSlot seed e.key
  match findFree s b h 129 0 with
  | none => none
  | some d =>
    match hopMoves b h 129 s d with
    | none => none
    | some (d, s) =>
      let j := (h + d) % flowSlots
      let s := entPut s b j { e with hop := (entGet s b j).hop }
      let eh := entGet s b h
      some (entPut s b h { eh with hop := eh.hop ||| 2 ^ d })

/-- Remove the entry at slot `j` of region `b` and its home's HOP bit. -/
def storeRemove (s : State) (b : Bool) (seed j : Nat) : State :=
  let e := entGet s b j
  let h := homeSlot seed e.key
  let d := (j % flowSlots + flowSlots - h) % flowSlots
  let s := entPut s b j { e with flags := 0 }
  let eh := entGet s b h
  entPut s b h { eh with hop := if eh.hop.testBit d then eh.hop - 2 ^ d else eh.hop }

/-! ## The cache (R195) -/

def setFlow (s : State) (f : FlowStore) : State := { s with flow := f }

/-- Cache set of a key. -/
def cacheSet (s : State) (key : Nat) : Nat := homeSlot (flowSeed s) key % 8192

/-- FLAGS of a line. -/
def lineFlags (l : FlowLine) : Nat := 0x8000 + 0x4000 * b2n l.static + 0x2000 * b2n l.host

/-- The store entry of a line; HOP belongs to the slot. -/
def lineEnt (l : FlowLine) : FlowEnt := ⟨l.key, 0, lineFlags l, l.action, l.pkts, l.oct, l.last⟩

/-- The line of a store entry. -/
def entLine (e : FlowEnt) : FlowLine :=
  ⟨e.key, e.action, entStatic e, entHost e, e.pkts, e.oct, e.last, false, false⟩

/-- Pick count bits [21:6], the unit of LAST. -/
def lastNow (s : State) : Nat := bits s.pick.count 21 6

/-- Rounded up to 64 and divided by 64. -/
def oct64 (len : Nat) : Nat := (len + 63) / 64

/-- Saturating 32-bit sum. -/
def sat32 (x : Nat) : Nat := min x 0xFFFFFFFF

/-- A hit of a frame of `len` bytes on a line. -/
def lineHit (s : State) (l : FlowLine) (len : Nat) : FlowLine :=
  { l with pkts := sat32 (l.pkts + 1), oct := sat32 (l.oct + oct64 len), last := lastNow s }

/-- Write an evicted line back, or lose it (R195, R205). A line held during a clear is placed as it is evicted (R203). -/
def evictLine (s : State) (l : FlowLine) : State :=
  if l.placing then
    if s.flow.st == .invalid || s.flow.st == .off then count s 5 14
    else
      let s := setFlow s { s.flow with placeQ := s.flow.placeQ.erase l.key }
      match storePlace s (placeRegion s).1 (placeRegion s).2 (lineEnt l) with
      | some s => setFlow s { s.flow with occ := s.flow.occ + 1 }
      | none => setFlow (count s 5 7) { s.flow with failRep := s.flow.failRep + 1 }
  else
    match storeLookup s l.key with
    | some (b, j) => entPut s b j { lineEnt l with hop := (entGet s b j).hop }
    | none => if s.flow.st == .invalid then count s 5 14 else s

/-- Bring a line into the cache as the most recently used one, evicting the least recently used unpinned line of a
full set; none where the set's 8 ways are all pinned. -/
def cacheInsert (s : State) (l : FlowLine) : Option State :=
  let mine := s.flow.cache.filter (fun x => cacheSet s x.key == cacheSet s l.key)
  if mine.length < 8 then some (setFlow s { s.flow with cache := l :: s.flow.cache })
  else match (mine.filter (fun x => !x.stash)).getLast? with
    | none => none
    | some v =>
      let s := setFlow s { s.flow with cache := l :: s.flow.cache.erase v }
      some (evictLine s v)

/-- Replace a line by its updated form, most recently used. -/
def cacheTouch (s : State) (l l' : FlowLine) : State :=
  setFlow s { s.flow with cache := l' :: s.flow.cache.erase l }

/-- Replace a line by its updated form without a use of it: its age among the ways stays. -/
def cachePut (s : State) (l l' : FlowLine) : State :=
  setFlow s { s.flow with cache := s.flow.cache.map (fun x => if x == l then l' else x) }

/-- The SEED in force has changed and the lines regroup: a set that now holds more than its 8 ways evicts its least recently
used unpinned lines (DESIGN CHOICE: R195 says nothing of a change of SEED; log entry 82). `old` lists the lines, least
recently used first. -/
def cacheRegroup : List FlowLine → State → State
  | [], s => s
  | l :: t, s =>
    let mine := s.flow.cache.filter (fun x => cacheSet s x.key == cacheSet s l.key)
    cacheRegroup t (if decide (8 < mine.length) && !l.stash then evictLine (setFlow s { s.flow with cache := s.flow.cache.erase l }) l else s)

def cacheFind (s : State) (key : Nat) : Option FlowLine := s.flow.cache.find? (fun l => l.key == key)

/-- Stash lines in use: HEDDLE_FLOW_STASH.USED. -/
def stashUsed (s : State) : Nat := (s.flow.cache.filter (·.stash)).length

/-! ## Lookups (R195, R196) -/

/-- Lookups run: EN in force, FLOWSTORE and DRAM_PHY on, the unit OK. -/
def flowOn (s : State) : Bool :=
  flag s Reg.heddleFlowCtrl 31 && domOn s 12 && domOn s 13 && unitOk s 0x0D && s.flow.st != .off

/-- Result of a lookup. -/
inductive FlowRes where
  | hit (action : Nat)
  | wait
  /-- A miss; `learn` when learning is permitted. -/
  | miss (learn : Bool)

/-- A hit of a frame of `len` bytes that waited on a miss: in the cache, or in the store's own entry where no way of its set
could take the line. -/
def flowTouch (s : State) (key len : Nat) : State :=
  match cacheFind s key with
  | some l => cacheTouch s l (lineHit s l len)
  | none =>
    match storeLookup s key with
    | some (b, j) => entPut s b j { lineEnt (lineHit s (entLine (entGet s b j)) len) with hop := (entGet s b j).hop }
    | none => s

/-- Look a key up for a frame of `len` bytes: the cache, then the miss queue; in INVALID and CLEARING, and while the
DRAM recovers, the cache only. -/
def flowLookup (s : State) (key len : Nat) : FlowRes × State :=
  let s := count s 5 0
  match cacheFind s key with
  | some l => (.hit l.action, cacheTouch (count s 5 1) l (lineHit s l len))
  | none =>
    if !storeReads s || !unitOk s 0x0E then (.miss true, s)
    else if s.flow.missQ.contains key then (.wait, count s 5 2)
    else if s.flow.missQ.length < 4096 then
      (.wait, setFlow (count s 5 2) { s.flow with missQ := s.flow.missQ ++ [key] })
    else (.miss false, count s 5 4)

/-- What learning does with a miss whose resolved action has LEARN = 1 (R197): take NOFLOW, or the action with or
without an entry. -/
inductive Learned where
  | noflow
  | keep
deriving DecidableEq

def flowLearn (s : State) (key action len : Nat) : Learned × State :=
  if fld s Reg.heddleFlowLimit 23 0 ≤ s.flow.occ then
    (.noflow, setFlow (count s 5 8) { s.flow with fullRep := s.flow.fullRep + 1 })
  else if !flag s Reg.heddleFlowCtrl 30 then (.keep, s)
  else if (cacheFind s key).isSome then (.keep, s)
  else if 1024 ≤ s.flow.placeQ.length then (.keep, count s 5 6)
  else
    let l : FlowLine := ⟨key, action, false, false, 1, oct64 len, lastNow s, true, false⟩
    match cacheInsert s l with
    | none => (.keep, count s 5 6)
    | some s =>
      let s := count s 5 5
      (.keep, if storeReads s then setFlow s { s.flow with placeQ := s.flow.placeQ ++ [key] } else s)

/-! ## Placement, aging -/

/-- Complete the FLOW_INSERT commands of a key (R200). -/
def finishInserts (s : State) (key : Nat) : State :=
  let mine := s.flow.inserts.filter (fun i => i.1 == key)
  let s := setFlow s { s.flow with inserts := s.flow.inserts.filter (fun i => i.1 != key) }
  mine.foldl (fun s i => workEnd (count s 5 10) i.2.1 i.2.2.1 Status.done 0) s

/-- FLOW_PLACEMENT: the oldest queued entry is placed; a learned entry that cannot be placed leaves the cache and is
counted, a host entry stays in its stash line (R198, R200). -/
def execFlowPlacement (s : State) : Host.Outcome State Fault Refusal :=
  .next (match s.flow.placeQ with
  | [] => s
  | key :: t =>
    if !domOn s 12 || !storeReads s then s
    else
      let s := setFlow s { s.flow with placeQ := t }
      match cacheFind s key with
      | none => s
      | some l =>
        match storePlace s (placeRegion s).1 (placeRegion s).2 (lineEnt l) with
        | some s =>
          let s := cachePut s l { l with placing := false, stash := false }
          finishInserts (setFlow s { s.flow with occ := if l.stash then s.flow.occ else s.flow.occ + 1 }) key
        | none =>
          if l.stash then finishInserts s key
          else setFlow (count s 5 7) { s.flow with cache := s.flow.cache.erase l, failRep := s.flow.failRep + 1 })

/-- Bytes 0 to 15 of a flow key as the NOTIFY payload, and the entry that carries bytes 16 to 39 (R358). -/
def agedNotify (s : State) (key : Nat) : State :=
  let kb := beBytes 40 key
  let c := fld s Reg.heddleNotify 8 0
  if flag s Reg.heddleNotify 31 && flag s Reg.heddleFlowCtrl 29 then
    notifyPair s c 0x21 (leAt kb 0 16) { body := leAt kb 16 24, ring := c, typ := 7, sub := 0x22 }
  else s

/-- The entry's age has reached UNITS (R201). -/
def isAged (s : State) (last : Nat) : Bool :=
  let u := fld s Reg.heddleFlowAge 15 0
  u != 0 && decide (u ≤ (lastNow s + 65536 - last % 65536) % 65536)

/-- FLOW_AGE_OUT: the scanner examines slot `slot` of the active region, or the cached copy of its entry (R201). In REHASH
aging applies as entries migrate (R202). -/
def execFlowAgeOut (slot : Nat) (s : State) : Host.Outcome State Fault Refusal :=
  .next (if !flowOn s || s.flow.st != .valid then s
  else
    let b := flowRegion s
    let e := entGet s b slot
    let c := cacheFind s e.key
    let last := (c.map (·.last)).getD e.last
    let static := (c.map (·.static)).getD (entStatic e)
    if entValid e && !static && isAged s last then
      let s := storeRemove s b (flowSeed s) (slot % flowSlots)
      let s := setFlow s { s.flow with cache := s.flow.cache.filter (fun l => l.key != e.key), occ := s.flow.occ - 1 }
      agedNotify (count s 5 9) e.key
    else s)

/-! ## Commands (R188, R200 to R203) -/

/-- STORE_INVALID while the store is INVALID or CLEARING, or OFF (R200). -/
def storeRefuses (s : State) : Bool := s.flow.st == .invalid || s.flow.st == .clearing || s.flow.st == .off

/-- A 64-byte image: key, FLAGS, ACTION, counts. -/
def imageEnt (d : CmdDesc) : FlowEnt := entDecode (slice (cmdData d) 0 64)

/-- The flow of a key as every read sees it: the cached copy, else the store (R195). -/
def flowPeek (s : State) (key : Nat) : Option FlowEnt :=
  match cacheFind s key with
  | some l => some (lineEnt l)
  | none => (storeLookup s key).map (fun p => entGet s p.1 p.2)

/-- FLOW_INSERT (R200). -/
def cmdFlowInsert (d : CmdDesc) (s : State) : CmdRes :=
  needDomain 12 s fun s =>
    let e := imageEnt d
    if storeRefuses s then .fin Status.storeInvalid 0 s
    else match flowPeek s e.key with
      | some old =>
        if (cmdFlags d).testBit 0 then
          let l' : FlowLine := { entLine old with action := e.action, static := entStatic e, host := true }
          match cacheFind s e.key with
          | some l => .fin Status.done 0 (count (cachePut s l { l' with placing := l.placing, stash := l.stash }) 5 10)
          | none =>
            match storeLookup s e.key with
            | some (b, j) => .fin Status.done 0 (count (entPut s b j { lineEnt l' with hop := (entGet s b j).hop }) 5 10)
            | none => .fin Status.done 0 (count s 5 10)
        else .fin Status.flowExists 0 s
      | none =>
        if 1024 ≤ stashUsed s then .fin Status.flowFull 0 s
        else
          let l : FlowLine := ⟨e.key, e.action, entStatic e, true, e.pkts, e.oct, e.last, true, true⟩
          match cacheInsert s l with
          | none => .fin Status.flowFull 0 s
          | some s =>
            .work (setFlow s { s.flow with placeQ := s.flow.placeQ ++ [e.key], occ := s.flow.occ + 1
                                           inserts := s.flow.inserts ++ [(e.key, d.ring, d.index, s.pick.point)] })

/-- Remove a key from the cache, the queues and the store, both regions in REHASH. OCCUPANCY counts the store and the stash
only, no learned line that waits for placement. -/
def flowRemove (s : State) (key : Nat) : State :=
  let counted := match cacheFind s key with
    | some l => !l.placing || l.stash
    | none => true
  let s := setFlow s { s.flow with cache := s.flow.cache.filter (fun l => l.key != key), placeQ := s.flow.placeQ.filter (· != key), occ := s.flow.occ - b2n counted }
  let r := flowRegion s
  let s := match if s.flow.st == .rehash then storeFind s (!r) s.flow.newSeed key else none with
    | some j => storeRemove s (!r) s.flow.newSeed j
    | none => s
  match storeFind s r (flowSeed s) key with
  | some j => storeRemove s r (flowSeed s) j
  | none => s

/-- FLOW_DELETE (R200). -/
def cmdFlowDelete (d : CmdDesc) (s : State) : CmdRes :=
  needDomain 12 s fun s =>
    let key := (imageEnt d).key
    if storeRefuses s then .fin Status.storeInvalid 0 s
    else if (flowPeek s key).isNone then .fin Status.flowAbsent 0 s
    else .fin Status.done 0 (count (finishInserts (flowRemove s key) key) 5 11)

/-- FLOW_READ: the entry as it stands, written back to the image's address (R188). -/
def cmdFlowRead (d : CmdDesc) (s : State) : CmdRes :=
  needDomain 12 s fun s =>
    if storeRefuses s then .fin Status.storeInvalid 0 s
    else match flowPeek s (imageEnt d).key with
      | none => .fin Status.flowAbsent 0 s
      | some e => .fin Status.done 0 (dmaWrite s (cmdAddr d) (entEncode e))

/-- FLOW_REHASH (R202). Entries that had settled in stash lines are queued again, for the new region (R200). -/
def cmdFlowRehash (d : CmdDesc) (s : State) : CmdRes :=
  needDomain 12 s fun s =>
    if s.flow.st == .invalid || s.flow.st == .clearing then .fin Status.storeInvalid 0 s
    else if s.flow.st != .valid then .fin Status.busy 0 s
    else if !regionFits s (!flowRegion s) then .fin Status.errField 0 s
    else
      let s := clrBit s Reg.heddleFlowKeep 31
      let settled := (s.flow.cache.filter (fun l => l.stash && !s.flow.placeQ.contains l.key)).map (·.key)
      .work (setFlow s { s.flow with st := .rehash, newSeed := bits (cmdP0 d) 15 0, scan := 0, placeQ := s.flow.placeQ ++ settled
                                     job := some (d.ring, d.index, s.pick.point) })

/-- Migrate slot `j` of the old region (R202). A HOST entry that cannot be placed and whose cache set has no way for a stash
line is dropped as one for which none is free. -/
def rehashSlot (s : State) (j : Nat) : State :=
  let r := flowRegion s
  let e := entGet s r j
  if !entValid e then s
  else
    let c := cacheFind s e.key
    let e' := (c.map lineEnt).getD e
    let s := storeRemove s r (flowSeed s) j
    if !entStatic e' && isAged s e'.last then
      agedNotify (count (setFlow s { s.flow with cache := s.flow.cache.filter (fun l => l.key != e.key), occ := s.flow.occ - 1 }) 5 9) e.key
    else match storePlace s (!r) s.flow.newSeed e' with
      | some s => count s 5 12
      | none =>
        let dropped := count (setFlow s { s.flow with cache := s.flow.cache.filter (fun l => l.key != e.key), occ := s.flow.occ - 1 }) 5 13
        if entHost e' && decide (stashUsed s < 1024) then
          match c with
          | some l => cachePut s l { l with placing := true, stash := true }
          | none => (cacheInsert s { entLine e' with placing := true, stash := true }).getD dropped
        else dropped

/-- One pick's share of a migration: 2,048 slots (R202); part of the commit point. -/
def rehashStep (s : State) : State :=
  if s.flow.st == .rehash && decide (s.flow.scan < flowSlots) then
    let base := s.flow.scan
    let s := forUpTo 2048 s (fun i s => rehashSlot s (base + i))
    setFlow s { s.flow with scan := base + 2048 }
  else s

/-- FLOW_REHASH_DONE: the migration has visited every slot (R202). -/
def execFlowRehashDone (s : State) : Host.Outcome State Fault Refusal :=
  .next (if domOn s 12 && s.flow.st == .rehash && decide (flowSlots ≤ s.flow.scan) then
    let v := b2n (!flowRegion s) * 2 ^ 16 + s.flow.newSeed % 2 ^ 16
    let s := setReg (setReg s Reg.heddleFlowSeed v) Reg.heddleFlowKeep (2 ^ 31 + v)
    let job := s.flow.job
    let s := setFlow s { s.flow with st := .valid, job := none }
    let s := cacheRegroup s.flow.cache.reverse s
    match job with
    | some (r, i, _) => workEnd s r i Status.done 0
    | none => s
  else s)

/-- Every byte of region `b` reads 0. -/
def zeroRegion (s : State) (b : Bool) : State :=
  { s with dram := skeep (fun a => decide (a < flowBase s b) || decide (flowBase s b + 0x20000000 ≤ a)) s.dram }

/-- FLOW_CLEAR (R203): the region is zeroed at the start of CLEARING, in which nothing reads it (log entry 82), and every line
that the cache holds is placed as it is evicted, during the clear or after it. -/
def cmdFlowClear (d : CmdDesc) (s : State) : CmdRes :=
  needDomain 12 s fun s =>
    if s.flow.st == .invalid || s.flow.st == .valid then
      let lines := s.flow.cache.map (fun l => { l with placing := true })
      .work (setFlow (zeroRegion s (flowRegion s)) { s.flow with
        st := .clearing, job := some (d.ring, d.index, s.pick.point), cache := lines, occ := stashUsed s })
    else .fin Status.busy 0 s

/-- FLOW_CLEAR_DONE: the active region is zero; the store enters VALID (R203). -/
def execFlowClearDone (s : State) : Host.Outcome State Fault Refusal :=
  .next (if domOn s 12 && s.flow.st == .clearing then
    let s := setReg s Reg.heddleFlowKeep (2 ^ 31 + b2n (flowRegion s) * 2 ^ 16 + flowSeed s)
    let job := s.flow.job
    let s := setFlow s { s.flow with st := .valid, job := none }
    match job with
    | some (r, i, _) => workEnd s r i Status.done 0
    | none => s
  else s)

/-- Valid entries of region `b`: those whose FLAGS byte with VALID, byte 43 of the entry, is written. -/
def storeCount (s : State) (b : Bool) : Nat :=
  (s.dram.filter (fun c => decide (flowBase s b ≤ c.1) && decide (c.1 < flowBase s b + 0x20000000) && (c.1 - flowBase s b) % 64 == 43
    && decide (128 ≤ c.2.toNat))).length

/-- HEDDLE_FLOW_CTRL.EN comes into force or leaves it (R204). OCCUPANCY counts the store's valid entries and the stash. -/
def flowEnable (s : State) (en : Bool) : State :=
  if en then
    let k := rd s Reg.heddleFlowKeep
    if k.testBit 31 && bits k 16 0 == bits (rd s Reg.heddleFlowSeed) 16 0 then
      setFlow s { s.flow with st := .valid, occ := storeCount s (flowRegion s) + stashUsed s }
    else setFlow s { s.flow with st := .invalid, occ := stashUsed s }
  else setFlow s { s.flow with st := .off }

/-- HEDDLE_FLOW_SEED has changed at a commit point: the cache regroups. -/
def flowReseed (s : State) (old : Nat) : State :=
  if rd s Reg.heddleFlowSeed % 65536 = old % 65536 then s else cacheRegroup s.flow.cache.reverse s

end Sys2Proof.Machine
end

