-- ==== Sys2Proof/Machine/Heddle.lean ====
section
/-! DEFINITION. Machine/Heddle.lean: shapes, exception classes, keys, lookups, actions, decks and their commands
(R164 to R192). What a resolved frame does on leaving Heddle stands in Machine/Classify.lean. -/

namespace Sys2Proof.Machine

open Sys2Proof

def setHeddle (s : State) (h : Heddle) : State := { s with heddle := h }

/-! ## Shapes (R169, R170) -/

/-- A recognised TPID. -/
def isTpid (s : State) (t : Nat) : Bool :=
  t == 0x8100 || t == 0x88A8 || (flag s Reg.heddleTpid 16 && t == fld s Reg.heddleTpid 15 0)

/-- What the pre-classifier reads of a frame: tags, a third tag, STACK, L, the IP header's start and length, and whether
that header is IPv4 or IPv6. -/
structure Parsed where
  tags : Nat
  third : Bool
  stack : Nat
  l : Nat
  ip : Nat
  ipLen : Nat
  et : Nat
  v4 : Bool
  v6 : Bool

/-- STACK of an IPv4 header at `ip` (R169, codes 3 to 6; IHL below 5 gives no named stack). -/
def stackV4 (d : List Byte) (ip : Nat) : Nat :=
  let ihl := byteAt d ip % 16
  if ihl = 5 then (if byteAt d (ip + 9) = 6 then 3 else if byteAt d (ip + 9) = 17 then 4 else 5)
  else if 5 < ihl then 6 else 0

/-- STACK of an IPv6 header (codes 7 to 10). -/
def stackV6 (d : List Byte) (ip : Nat) : Nat :=
  let nh := byteAt d (ip + 6)
  if nh = 6 then 7 else if nh = 17 then 8
  else if nh ∈ [0, 43, 44, 50, 51, 60, 135] then 10 else 9

/-- STACK from the EtherType and the next field. -/
def stackOf (d : List Byte) (et l : Nat) : Nat :=
  if et = 0x0806 then 1
  else if et = 0x88F7 then 2
  else if et = 0x0800 then stackV4 d l
  else if et = 0x86DD then stackV6 d l
  else if et = 0x8847 ∨ et = 0x8848 then 11
  else if et = 0x8864 then
    (if beAt d (l + 6) 2 = 0x0021 then
       (if byteAt d (l + 8) % 16 = 5 then 12 else if 5 < byteAt d (l + 8) % 16 then 14 else 0)
     else if beAt d (l + 6) 2 = 0x0057 then 13 else 14)
  else if et = 0x8863 then 14
  else 0

/-- A PPPoE session frame whose PPP protocol is `p`. -/
def isPpp (d : List Byte) (et l p : Nat) : Bool := et == 0x8864 && beAt d (l + 6) 2 == p

/-- Parse the header stack. -/
def parse (s : State) (d : List Byte) : Parsed :=
  let t1 := isTpid s (beAt d 12 2)
  let t2 := t1 && isTpid s (beAt d 16 2)
  let t3 := t2 && isTpid s (beAt d 20 2)
  let tags := b2n t1 + b2n t2
  let et := beAt d (12 + 4 * tags) 2
  let l := 12 + 4 * tags + 2
  let st := stackOf d et l
  let v4 := et == 0x0800 || isPpp d et l 0x0021
  let v6 := et == 0x86DD || isPpp d et l 0x0057
  let ip := if et = 0x8864 then l + 8 else l
  { tags := tags, third := t3, stack := st, l := l, ip := ip, et := et, v4 := v4, v6 := v6
    ipLen := if v6 then 40 else if v4 then 4 * (byteAt d ip % 16) else 0 }

def shapeCode (p : Parsed) : Nat := 16 * p.tags + p.stack

/-- Labels read until the bottom of the stack, at most 4; none where there is no bottom among them. -/
def mplsDepth (d : List Byte) (l : Nat) : Option Nat := (List.range 4).find? (fun k => byteAt d (l + 4 * k + 2) % 2 == 1)

/-- PTP and PTP_EVENT (R170). -/
def ptpFlags (p : Parsed) (d : List Byte) : Bool × Bool :=
  let udp := p.ip + p.ipLen
  let port := beAt d (udp + 2) 2
  let at8 := if p.stack = 2 then p.l else udp + 8
  let isPtp := p.stack == 2 || ((p.stack == 4 || p.stack == 8) && (port == 319 || port == 320))
  let ev := decide (byteAt d at8 % 16 ≤ 3) && byteAt d (at8 + 1) % 16 == 2 && (p.stack == 2 || port == 319)
  (isPtp, isPtp && ev)

/-! ## Exception classes (R171) -/

/-- The byte after the last header that the stack names. ARP 28 bytes, PTP 34 bytes, the first IPv6 extension header
8 bytes (PRESUMED: the published formats; log entry 12). -/
def headersEnd (p : Parsed) (d : List Byte) : Nat :=
  match p.stack with
  | 0 => if p.et = 0x0800 then p.l + 20 else p.l
  | 1 => p.l + 28
  | 2 => p.l + 34
  | 3 => p.ip + 20 + max 20 (4 * (byteAt d (p.ip + 32) / 16))
  | 4 => p.ip + 28
  | 5 => p.ip + 20
  | 6 => p.ip + p.ipLen
  | 7 => p.ip + 40 + max 20 (4 * (byteAt d (p.ip + 52) / 16))
  | 8 => p.ip + 48
  | 9 => p.ip + 40
  | 10 => p.ip + 48
  | 11 => match mplsDepth d p.l with
    | some k => p.l + 4 * (k + 1)
    | none => p.l + 16
  | 12 => p.ip + 20
  | 13 => p.ip + 40
  | _ => p.l + 6

def isMalformed (p : Parsed) (d : List Byte) : Bool :=
  decide (d.length < 14) || decide (d.length < headersEnd p d)
    || (p.v4 && (byteAt d p.ip / 16 != 4 || decide (byteAt d p.ip % 16 < 5)))
    || (p.v6 && byteAt d p.ip / 16 != 6)
    || (p.stack == 3 && decide (byteAt d (p.ip + 32) / 16 < 5))
    || (p.stack == 7 && decide (byteAt d (p.ip + 52) / 16 < 5))
    || (decide (12 ≤ p.stack) && byteAt d p.l != 0x11)

def isTooDeep (p : Parsed) (d : List Byte) : Bool := p.third || (p.stack == 11 && (mplsDepth d p.l).isNone)

def isLengthBad (p : Parsed) (d : List Byte) : Bool :=
  let rest := d.length - p.ip
  let tot := beAt d (p.ip + 2) 2
  let pay6 := beAt d (p.ip + 4) 2
  let udpLen := beAt d (p.ip + p.ipLen + 4) 2
  (p.v4 && (decide (rest < tot) || decide (tot < p.ipLen)))
    || (p.v6 && decide (rest < pay6 + 40))
    || (p.stack == 4 && (decide (udpLen < 8) || decide (tot - p.ipLen < udpLen)))
    || (p.stack == 8 && (decide (udpLen < 8) || decide (pay6 < udpLen)))
    || (decide (12 ≤ p.stack) && decide (d.length - (p.l + 6) < beAt d (p.l + 4) 2))

def isFragment (p : Parsed) (d : List Byte) : Bool :=
  (p.v4 && beAt d (p.ip + 6) 2 % 0x4000 != 0)
    || (p.v6 && byteAt d (p.ip + 6) == 44)

/-- The first byte after the IP header, from which windows read zero while an exception class continues (R172); a frame
without an IP header has no such window (log entry 12). -/
def zeroPoint (p : Parsed) (d : List Byte) : Nat := if p.v4 || p.v6 then p.ip + p.ipLen else max 256 d.length

/-- The exception class: 0 MALFORMED, 1 TOO_DEEP, 2 LENGTH, 3 FRAGMENT, the first whose condition holds. -/
def excClass (p : Parsed) (d : List Byte) : Option Nat :=
  if isMalformed p d then some 0
  else if isTooDeep p d then some 1
  else if isLengthBad p d then some 2
  else if isFragment p d then some 3
  else none

/-! ## Deck entries (R183, R185) -/

def deckKey (t i : Nat) : Nat := t * 0x100000 + i

/-- Words of an entry image of table `t`, and how many entries the table has. -/
def tableWords (t : Nat) : Nat := [7, 1, 9, 41, 6, 3].getD t 0
def tableSize (t : Nat) : Nat := [1, 64, 32, 32768, 262144, 65536].getD t 0

/-- Word `k` of entry `i` of table `t`. -/
def deckWord (d : Deck) (t i k : Nat) : Nat := (sget [] d (deckKey t i)).getD k 0

/-- VALID: bit 31 of the image's last word. -/
def deckValid (d : Deck) (t i : Nat) : Bool := (deckWord d t i (tableWords t - 1)).testBit 31

/-- The deck in force, and the standby deck. -/
def activeDeck (s : State) : Deck := if s.heddle.activeB then s.heddle.deckB else s.heddle.deckA
def standbyDeck (s : State) : Deck := if s.heddle.activeB then s.heddle.deckA else s.heddle.deckB

def setStandby (s : State) (d : Deck) : State :=
  if s.heddle.activeB then setHeddle s { s.heddle with deckA := d } else setHeddle s { s.heddle with deckB := d }

def setActive (s : State) (d : Deck) : State :=
  if s.heddle.activeB then setHeddle s { s.heddle with deckB := d } else setHeddle s { s.heddle with deckA := d }

/-- The two candidate buckets of a 20-byte key (R177). -/
def exactBuckets (key : List Nat) : Nat × Nat :=
  let b := key.flatMap (beBytes 4)
  (crc32 0xFFFFFFFF b % 65536, crc32 0x5A5A5A5A b % 65536)

/-- The entry index that holds the key. -/
def exactFind (d : Deck) (key : List Nat) : Option Nat :=
  let (b1, b2) := exactBuckets key
  ((List.range 4).map (4 * b1 + ·) ++ (List.range 4).map (4 * b2 + ·)).find?
    (fun i => deckValid d 4 i && (List.range 5).all (fun k => deckWord d 4 i k == key.getD k 0))

/-- Operation on a deck: the new deck, the result (0 done, 2 table full, 3 absent, 4 field) and the index (R177, R187). -/
def deckOp (d : Deck) (op t i : Nat) (img : List Nat) : Deck × Nat × Nat :=
  if 5 < t ∨ tableSize t ≤ i then (if op = 6 then ([], 0, i) else (d, 4, i))
  else match op with
    | 1 => (sput [] d (deckKey t i) ((List.range (tableWords t)).map (fun k => img.getD k 0)), 0, i)
    | 3 =>
      let e := (List.range (tableWords t)).map (fun k =>
        if k + 1 = tableWords t then deckWord d t i k % 2 ^ 31 else deckWord d t i k)
      (if (sget [] d (deckKey t i)).isEmpty then d else sput [] d (deckKey t i) e, 0, i)
    | 4 =>
      let key := (List.range 5).map (fun k => img.getD k 0)
      let e := key ++ [2 ^ 31 + img.getD 5 0 % 65536]
      match exactFind d key with
      | some j => (sput [] d (deckKey 4 j) e, 0, j)
      | none =>
        let (b1, b2) := exactBuckets key
        match ((List.range 4).map (4 * b1 + ·) ++ (List.range 4).map (4 * b2 + ·)).find? (fun j => !deckValid d 4 j) with
        | some j => (sput [] d (deckKey 4 j) e, 0, j)
        | none => (d, 2, i)
    | 5 =>
      match exactFind d ((List.range 5).map (fun k => img.getD k 0)) with
      | some j => (sput [] d (deckKey 4 j) ((List.range 6).map (fun k =>
          if k = 5 then deckWord d 4 j 5 % 2 ^ 31 else deckWord d 4 j k)), 0, j)
      | none => (d, 3, i)
    | 6 => ([], 0, i)
    | _ => (d, 4, i)

/-- The entry window of the standby deck (R187): a frozen deck refuses. -/
def heddleWindow (op : Nat) (s : State) : State :=
  if s.heddle.frozen then setHeddle s { s.heddle with result := 1 }
  else
    let t := fldS s Reg.heddleEntSel 26 24
    let i := fldS s Reg.heddleEntSel 17 0
    if op = 2 then
      if 5 < t ∨ tableSize t ≤ i then setHeddle s { s.heddle with result := 4 }
      else
        let s := forUpTo (tableWords t) s (fun k s => setReg s (Reg.heddleEntData k) (deckWord (standbyDeck s) t i k))
        setHeddle s { s.heddle with result := 0 }
    else
      let img := (List.range 48).map (fun k => rdS s (Reg.heddleEntData k))
      let (d, r, j) := deckOp (standbyDeck s) op t i img
      let s := setStandby s d
      let s := if op = 4 ∧ r = 0 then setFld s Reg.heddleEntSel 17 0 j else s
      setHeddle s { s.heddle with result := r }

/-! ## Keys (R173 to R175) -/

/-- Frame byte `k` as a window reads it: zero beyond the frame's end; what a window at offsets 253 to 255 holds of a longer
frame's bytes beyond 255, which are never read, is a free value (R173, log entry 82). -/
def windowByte (d : List Byte) (k : Nat) : Nat :=
  if d.length ≤ k then 0 else if 256 ≤ k then Config.unreadByte k % 256 else byteAt d k

/-- Window at offset `o`: 4 frame bytes; zero at or beyond `zeroFrom` while windows are zeroed (R172). -/
def window (d : List Byte) (zeroFrom : Option Nat) (o : Nat) : Nat :=
  let w := beNat ((List.range 4).map (fun k => windowByte d (o + k)))
  match zeroFrom with
  | some z => if z ≤ o then 0 else w
  | none => w

/-- A window reaches beyond the frame's end. -/
def windowPast (d : List Byte) (zeroFrom : Option Nat) (o : Nat) : Bool :=
  decide (d.length < o + 4) && (match zeroFrom with | some z => decide (o < z) | none => true)

/-- Byte `k` of profile word group: window offset `i`. -/
def profOffset (d : Deck) (p i : Nat) : Nat := bits (deckWord d 2 p (i / 4)) (8 * (i % 4) + 7) (8 * (i % 4))

/-- Selector E_i and F_i of a profile. -/
def profE (d : Deck) (p i : Nat) : Nat := bits (deckWord d 2 p 4) (5 * i + 4) (5 * i)
def profF (d : Deck) (p i : Nat) : Nat :=
  if i < 6 then bits (deckWord d 2 p 5) (5 * i + 4) (5 * i) else bits (deckWord d 2 p 6) (5 * (i - 6) + 4) (5 * (i - 6))

/-- Byte mask, FLOW_EN and default action index of a profile (R186). -/
def profMask (d : Deck) (p : Nat) : Nat := deckWord d 2 p 7 + deckWord d 2 p 8 % 256 * 2 ^ 32
def profFlow (d : Deck) (p : Nat) : Bool := (deckWord d 2 p 8).testBit 8
def profDefault (d : Deck) (p : Nat) : Nat := bits (deckWord d 2 p 8) 30 15

/-- The key material of a pass: words W0 to W15 and M0 to M3 (R174). -/
def keyWords (d : Deck) (p : Nat) (f : Frame) (pass tag : Nat) (frag lencont : Bool) (zeroFrom : Option Nat) : List Nat :=
  let w := (List.range 16).map (fun i => window f.data zeroFrom (profOffset d p i))
  let past := (List.range 16).any (fun i => windowPast f.data zeroFrom (profOffset d p i))
  let m := f.shape * 2 ^ 122 + p * 2 ^ 117 + f.srcType % 4 * 2 ^ 115 + f.srcId % 512 * 2 ^ 106 + f.stream % 65536 * 2 ^ 90
    + pass * 2 ^ 88 + tag % 65536 * 2 ^ 72 + b2n f.ptp * 2 ^ 71 + b2n f.ptpEvent * 2 ^ 70 + b2n zeroFrom.isSome * 2 ^ 69
    + b2n frag * 2 ^ 68 + b2n lencont * 2 ^ 67 + b2n past * 2 ^ 66 + min (frameLen f) 16383 * 2 ^ 50
  w ++ [bits m 127 96, bits m 95 64, bits m 63 32, bits m 31 0]

/-- The word that selector `v` picks (R175). -/
def selWord (kw : List Nat) (v : Nat) : Nat :=
  if v < 20 then kw.getD v 0 else if v = 31 then 0 else Config.reservedSelector v % 2 ^ 32

/-- The flow key: 40 bytes under the byte mask, as a big-endian number. -/
def flowKey (d : Deck) (p : Nat) (kw : List Nat) : Nat :=
  let b := (List.range 10).flatMap (fun i => beBytes 4 (selWord kw (profF d p i)))
  let m := profMask d p
  beNat ((List.range 40).map (fun i => if m.testBit i then b.getD i 0 else 0))

/-! ## Lookups and actions (R176 to R179) -/

/-- Index of the ternary entry with the lowest index that matches (R176). -/
def ternaryFind (d : Deck) (kw : List Nat) : Option Nat :=
  ((d.filter (fun e => decide (0x300000 ≤ e.1) && decide (e.1 < 0x400000))).find? (fun e =>
    (e.2.getD 40 0).testBit 31 && (List.range 20).all (fun k =>
      ((kw.getD k 0) ^^^ (e.2.getD k 0)) &&& (e.2.getD (20 + k) 0) == 0))).map (fun e => e.1 - 0x300000)

/-- The 80 bits of action `i`, valid or not. -/
def actionBits (d : Deck) (i : Nat) : Nat := deckWord d 5 i 0 + deckWord d 5 i 1 * 2 ^ 32 + deckWord d 5 i 2 % 65536 * 2 ^ 64

def actOp (a : Nat) : Nat := bits a 79 76
def actFinal (a : Nat) : Bool := a.testBit 75
def actLearn (a : Nat) : Bool := a.testBit 74
def actMirror (a : Nat) : Bool := a.testBit 73
def actMeterEn (a : Nat) : Bool := a.testBit 72
def actQueue (a : Nat) : Nat := bits a 71 61
def actMeter (a : Nat) : Nat := bits a 60 47
def actTag (a : Nat) : Nat := bits a 46 31
def actStream (a : Nat) : Nat := bits a 30 15
def actReason (a : Nat) : Nat := bits a 14 7

/-- A usable action: valid, with an OP of R179. -/
def actGood (d : Deck) (i : Nat) : Bool := deckValid d 5 i && decide (actOp (actionBits d i) ≤ 4)

/-- What the order of R178 yields: an action, or DROP counted in ACT_INVALID; `dflt` when the default supplied it. -/
structure Resolved where
  action : Nat := 0
  invalid : Bool := false
  dflt : Bool := false

/-- An action at a default, exception or NOFLOW index: DEFER or an invalid entry yields DROP (R178). -/
def lastResort (d : Deck) (i : Nat) (dflt : Bool) : Resolved :=
  if actGood d i && actOp (actionBits d i) != 4 then { action := actionBits d i, dflt := dflt }
  else { invalid := true, dflt := dflt }

/-- The sources of R178 in order: action index of a hit (deck) or the flow entry's own action. -/
def pickSource (d : Deck) : List (Nat ⊕ Nat) → Option Resolved
  | [] => none
  | .inl i :: t =>
    if !actGood d i then some { invalid := true }
    else if actOp (actionBits d i) = 4 then pickSource d t else some { action := actionBits d i }
  | .inr a :: t => if actOp a = 4 then pickSource d t else if 4 < actOp a then some { invalid := true } else some { action := a }

/-- Resolve a pass from its ternary, flow, exact and default results (R178). -/
def resolve (d : Deck) (tern : Option Nat) (flow : Option Nat) (exact : Option Nat) (dflt : Nat) : Resolved :=
  let final := match tern with | some i => actFinal (actionBits d i) | none => false
  let l : List (Nat ⊕ Nat) := (if final then tern.toList.map .inl else []) ++ flow.toList.map .inr ++ exact.toList.map .inl
    ++ (if final then [] else tern.toList.map .inl)
  (pickSource d l).getD (lastResort d dflt true)

/-! ## Commands (R188 to R191) -/

/-- Fields of a deck record: OP, TABLE, INDEX and the image words. -/
def recordOp (r : List Byte) : Nat := leAt r 0 4 % 8
def recordTable (r : List Byte) : Nat := bits (leAt r 0 4) 6 4
def recordIndex (r : List Byte) : Nat := bits (leAt r 0 4) 31 14
def recordImage (r : List Byte) : List Nat := (List.range 48).map (fun k => leAt r (16 + 4 * k) 4)

/-- Apply one record to a deck: deck and status (0 done, TABLE_FULL, ERR_FIELD). OP 2 is a window operation only; `all`:
CLEAR_ALL is allowed (R187). -/
def applyRecord (d : Deck) (all : Bool) (r : List Byte) : Deck × Nat :=
  if recordOp r = 2 ∨ (recordOp r = 6 ∧ !all) then (d, Status.errField)
  else
    let (d', res, _) := deckOp d (recordOp r) (recordTable r) (recordIndex r) (recordImage r)
    if res = 0 then (d', 0) else if res = 2 then (d, Status.tableFull) else if res = 3 then (d, 0) else (d, Status.errField)

/-- Apply records in order; failed ones are skipped; the first failure's status and index (R189). -/
def applyRecords (d : Deck) : List (List Byte) → Nat → Option (Nat × Nat) → Deck × Option (Nat × Nat)
  | [], _, e => (d, e)
  | r :: t, i, e =>
    let (d', st) := applyRecord d true r
    applyRecords d' t (i + 1) (if st = 0 then e else e.or (some (st, i)))

/-- DECK_LOAD (R189, R190): its records are the work that DECK_LOAD_DONE ends. Behind a DECK_SWAP of the same commit point it
is BUSY, for the deck that is standby from that point on is frozen. -/
def cmdDeckLoad (d : CmdDesc) (s : State) : CmdRes :=
  needDomain 10 s fun s =>
    if s.heddle.frozen || s.heddle.swapAsked || s.heddle.loading.isSome then .fin Status.busy 0 s
    else .work (setHeddle s { s.heddle with loading := some (d.ring, d.index) })

/-- The swap of step 4 (R192). -/
def deckSwap (s : State) : State :=
  count (setHeddle s { s.heddle with activeB := !s.heddle.activeB, gen := (s.heddle.gen + 1) % 256, frozen := true
                                     swapAge := 0, swapClock := s.now, swapAsked := false }) 4 18

/-- DECK_SWAP (R190): a request for step 4. -/
def cmdDeckSwap (_ : CmdDesc) (s : State) : CmdRes :=
  needDomain 10 s fun s =>
    if s.heddle.frozen || s.heddle.loading.isSome then .fin Status.busy 0 s
    else if !deckValid (standbyDeck s) 0 0 then .fin Status.deckInvalid 0 s
    else .fin Status.done 0 (setHeddle s { s.heddle with swapAsked := true })

/-- RULE_WRITE to the active deck (R188, R191): BUSY at a commit point that swaps the decks, in front of the DECK_SWAP or
behind it. -/
def cmdRuleWrite (d : CmdDesc) (s : State) : CmdRes :=
  needDomain 10 s fun s =>
    if s.heddle.swapAsked || s.heddle.swapDue then .fin Status.busy 0 s
    else
      let (k, st) := applyRecord (activeDeck s) false (cmdData d)
      if st = 0 then .fin Status.done 0 (setHeddle (setActive s k) { (setActive s k).heddle with ruled := true }) else .fin st 0 s

/-- A DECK_SWAP among the commands due, in their order, will swap the decks at this commit point: the first of them that is a
DECK_SWAP or a DECK_LOAD is a DECK_SWAP that R190 accepts (R191). -/
def swapDueIn (s : State) (ds : List CmdDesc) : Bool :=
  let first := ds.find? (fun d => cmdOk d && (cmdCode d == 0x40 || cmdCode d == 0x41))
  s.heddle.swapAsked || (domOn s 10 && !s.heddle.frozen && s.heddle.loading.isNone && deckValid (standbyDeck s) 0 0
    && (match first with | some d => cmdCode d == 0x41 | none => false))

/-- DECK_LOAD_DONE: the records are written and the completion is posted; `failed` when a read of host memory failed
after the records given (R189, R362). -/
def execDeckLoadDone (records : List (List Byte)) (failed : Bool) (s : State) : Host.Outcome State Fault Refusal :=
  .next (match s.heddle.loading with
  | none => s
  | some (r, i) =>
    let (d, e) := applyRecords (standbyDeck s) records 0 none
    let s := setStandby s d
    let s := setHeddle s { s.heddle with loading := none }
    if failed then workEnd s r i Status.errDma records.length
    else match e with
      | some (st, k) => workEnd s r i st k
      | none => workEnd s r i Status.done 0)

end Sys2Proof.Machine
end

