-- ==== Sys2Proof/Machine/Classify.lean ====
section
/-! DEFINITION. Machine/Classify.lean: frames through Heddle: input FIFOs, the arbiter, a pass, the flow store's answer,
the reorder stage, and what a resolved frame does on leaving (R164 to R182, R192, R195 to R197). -/

namespace Sys2Proof.Machine

open Sys2Proof

/-! ## Sources -/

/-- The source of a frame as Heddle orders it (R164, R167): each MAC, each lane, the line, the host. -/
def srcKey (f : Frame) : Nat := if f.srcType = 3 then 1536 else 512 * f.srcType + f.srcId

/-- The Spool source number of a frame (R247). -/
def spoolSrc (f : Frame) : Nat :=
  match f.srcType with
  | 0 => f.srcId
  | 1 => 32 + f.srcId
  | 2 => 48
  | _ => 49

/-- PCP of the first tag, 0 for an untagged frame (R313). -/
def framePcp (s : State) (d : List Byte) : Nat := if isTpid s (beAt d 12 2) then byteAt d 14 / 32 else 0

/-- The buffer request of a frame. -/
def bufOf (s : State) (src : Nat) (f : Frame) : Buf :=
  { owner := fld s (Reg.spoolSrcOwner src) 5 0, src := src, prio := framePcp s f.data, bytes := f.data.length, data := f.data }

def pipeOk (s : State) (p : Nat) : Bool :=
  if p = 0 then unitOk s 0x0A else flag s Reg.heddleCtrl 1 && domOn s 11 && unitOk s 0x0B

/-- Classification is enabled and a pipeline serves it (R165, R166, R414, R445, R449). -/
def heddleOn (s : State) : Bool :=
  flag s Reg.heddleCtrl 0 && domOn s 10 && (pipeOk s 0 || pipeOk s 1) && s.power.dozePhase == .none && !s.selvedge.fatal

def fifoAt (s : State) (k : Nat) : List Frame := sget [] s.heddle.fifos k
def setFifo (s : State) (k : Nat) (l : List Frame) : State :=
  setHeddle s { s.heddle with fifos := sput [] s.heddle.fifos k l }

/-- The source's FIFO has room (R166, R318). -/
def fifoRoom (s : State) (k : Nat) : Bool := decide ((fifoAt s k).length < 256)

/-! ## Leaving Heddle (R180, R181) -/

/-- Deliver a frame or a copy to the slow-path or mirror ring in a COPY buffer (R181, R253): counter `n` on success. -/
def copyOut (s : State) (same : Bool) (ring n : Nat) (f : Frame) (k : RxKind) : State :=
  match spoolAlloc s same 2 (bufOf s 50 f) (frameLen f) with
  | (none, s) => count s 4 13
  | (some h, s) =>
    let o := fld s (Reg.spoolSrcOwner 50) 5 0
    match rxDeliver s ring f k with
    | some s => spoolFree (count s 4 n) h o
    | none => spoolFree (count s 4 13) h o

/-- The mirror copy of an action that has just been resolved is made before the action runs (R181); whether the next Spool
request may fall on the same clock as the last. -/
def mirrorOut (s : State) (same : Bool) (x : Flight) : Bool × Flight × State :=
  if x.mirror then
    let (next, s) := sharesClock (copyOut s same (fld s Reg.heddleRing 8 0) 14 x.frame { mirror := true })
    (next, { x with mirror := false }, s)
  else (same, x, s)

/-- The frame's action runs. -/
def leave (s : State) (same : Bool) (x : Flight) : State :=
  let f := x.frame
  match x.verdict with
  | .queue q c =>
    let s := sendHanded s f
    reedEnqueue s { f with sendDone := none } q c same x.pipe (bufOf s (spoolSrc f) f)
  | .slow r => frameGone (copyOut s same (fld s Reg.heddleRing 24 16) 12 f { slow := true, reason := r }) f
  | _ => frameGone (count s 4 11) f

/-- The flight is resolved. -/
def resolved (x : Flight) : Bool :=
  match x.verdict with
  | .again => false
  | .miss => false
  | _ => true

/-- The oldest flight of source `k`. -/
def oldestOf (s : State) (k : Nat) : Option Flight := s.heddle.flights.find? (fun x => srcKey x.frame == k)

/-- Remove the first flight equal to `x`. -/
def dropFlight (s : State) (x : Flight) : State := setHeddle s { s.heddle with flights := s.heddle.flights.erase x }

/-- The oldest frame of source `k` leaves, if it is resolved (R167). -/
def releaseOne (s : State) (same : Bool) (k : Nat) : State :=
  match oldestOf s k with
  | some x => if resolved x then leave (dropFlight s x) same x else s
  | none => s

/-- HEDDLE_REORDER_RELEASE: a frame leaves once every earlier frame of its source has left (R167). -/
def execHeddleReorderRelease (source : Nat) (same : Bool) (s : State) : Host.Outcome State Fault Refusal :=
  .next (if domOn s 10 then pauseScan (releaseOne s same source) else s)

/-- DIRECT sends at the head of the host's FIFO enter the reorder stage with their action resolved (R348). -/
def admitDirect : Nat → State → State
  | 0, s => s
  | n + 1, s =>
    match fifoAt s 1536 with
    | f :: t =>
      match f.direct with
      | some q =>
        let x : Flight := { frame := { f with gen := s.heddle.gen, deckB := s.heddle.activeB }, seq := s.heddle.admitted, passes := 0, tag := 0, verdict := .queue q 0, pipe := 0 }
        admitDirect n (setHeddle (setFifo s 1536 t) { (setFifo s 1536 t).heddle with flights := s.heddle.flights ++ [x], admitted := s.heddle.admitted + 1 })
      | none => s
    | [] => s

/-- A frame arrives at Heddle (R166); a DIRECT send needs only the reorder stage. -/
def heddleInput (s : State) (f : Frame) : State :=
  let k := srcKey f
  if !(if f.direct.isSome then domOn s 10 else heddleOn s) || !fifoRoom s k then frameGone (count s 4 2) f
  else
    let s := setFifo s k (fifoAt s k ++ [f])
    if f.direct.isSome then
      let alone := (oldestOf s k).isNone
      let s := admitDirect (fifoAt s k).length s
      let (same, s) := sharesClock s
      if alone then releaseOne s same k else s
    else s

/-! ## A pass (R171 to R179, R195) -/

def frameDeck (s : State) (f : Frame) : Deck := if f.deckB then s.heddle.deckB else s.heddle.deckA

/-- Action index `k` of the global record: 0 MALFORMED to 5 NOFLOW. -/
def globalAction (d : Deck) (k : Nat) : Nat := deckWord d 0 0 k % 65536

/-- What a resolved action does to the flight (R178 to R182, R210); `canRecirc` on a first pass. -/
def applyAction (s : State) (x : Flight) (r : Resolved) : Flight × State :=
  let s := if r.dflt then count s 4 10 else s
  if r.invalid then ({ x with verdict := .drop }, count s 4 16)
  else
    let a := r.action
    let x := { x with mirror := actMirror a }
    match actOp a with
    | 1 =>
      let (c, s) := if actMeterEn a then meter s (actMeter a) (frameLen x.frame) else (0, s)
      ({ x with frame := { x.frame with upStream := actStream a }, verdict := .queue (actQueue a) c }, s)
    | 2 =>
      if x.passes < 2 then ({ x with verdict := .again, tag := actTag a }, s)
      else ({ x with verdict := .slow 0xF0 }, count s 4 15)
    | 3 => ({ x with verdict := .slow (actReason a) }, s)
    | _ => ({ x with verdict := .drop }, s)

/-- A flow miss resolves the frame, learning where it may (R197). -/
def applyMiss (s : State) (d : Deck) (x : Flight) (learn : Bool) : Flight × State :=
  let r := resolve d x.tern none x.exact (x.dflt.getD 0)
  if learn && !r.invalid && actLearn r.action then
    match flowLearn s x.key r.action (frameLen x.frame) with
    | (.noflow, s) => applyAction s x (lastResort d (globalAction d 5) false)
    | (.keep, s) => applyAction s x r
  else applyAction s x r

/-- The classification of one pass on pipeline `x.pipe`. -/
def passOf (s : State) (x : Flight) : Flight × State :=
  let d := frameDeck s x.frame
  let p := parse s x.frame.data
  let (ptp, ev) := ptpFlags p x.frame.data
  let f := { x.frame with shape := shapeCode p, ptp := ptp, ptpEvent := ev }
  let x := { x with frame := f }
  let exc := excClass p f.data
  let s := match exc with
    | some c => if x.passes = 1 then count s 4 (3 + c) else s
    | none => s
  let cont := match exc with
    | none => true
    | some c => decide (2 ≤ c) && (deckWord d 0 0 c).testBit 31
  if !cont then applyAction s x (lastResort d (globalAction d (exc.getD 0)) false)
  else
    let prof := deckWord d 1 f.shape 0 % 32
    if !(deckValid d 1 f.shape && deckValid d 2 prof) then
      applyAction (if x.noProf then s else count s 4 7) { x with noProf := true } (lastResort d (globalAction d 4) false)
    else
      let zero := exc.map (fun _ => zeroPoint p f.data)
      let kw := keyWords d prof f (x.passes - 1) x.tag (exc == some 3) (exc == some 2) zero
      let tern := ternaryFind d kw
      let exact := exactFind d ((List.range 5).map (fun i => selWord kw (profE d prof i)))
      let s := if tern.isSome then count s 4 8 else s
      let s := if exact.isSome then count s 4 9 else s
      let ta := tern.map (fun i => deckWord d 3 i 40 % 65536)
      let ea := exact.map (fun i => deckWord d 4 i 5 % 65536)
      let key := flowKey d prof kw
      let x := { x with key := key, tern := ta, exact := ea, dflt := some (profDefault d prof) }
      if profFlow d prof && flowOn s then
        match flowLookup s key (frameLen f) with
        | (.hit a, s) => applyAction s x (resolve d ta (some a) ea (profDefault d prof))
        | (.wait, s) => ({ x with verdict := .miss }, s)
        | (.miss learn, s) => applyMiss s d x learn
      else applyMiss s d x false

/-- The arbiter's choice: a recirculated frame, oldest first, or a new frame round-robin among sources (R165). -/
def arbiterPick (s : State) : Option (Flight × State) :=
  match s.heddle.flights.find? (fun x => x.verdict == .again) with
  | some x => some (x, s)
  | none =>
    let hostFree := match s.heddle.lastHost with
      | none => true
      | some t => decide (24 ≤ s.now - t)
    let ks := (s.heddle.fifos.map (·.1)).filter (fun k => k != 1536 || hostFree)
    match (ks.filter (fun k => s.heddle.rr < k) ++ ks.filter (fun k => k ≤ s.heddle.rr)).head? with
    | none => none
    | some k =>
      match fifoAt s k with
      | [] => none
      | f :: t =>
        let s := setFifo s k t
        let x : Flight := { frame := { f with gen := s.heddle.gen, deckB := s.heddle.activeB }, seq := s.heddle.admitted, passes := 0, tag := 0, verdict := .again, pipe := 0 }
        some (x, setHeddle s { s.heddle with flights := s.heddle.flights ++ [x], admitted := s.heddle.admitted + 1, rr := k
                                             lastHost := if k = 1536 then some s.now else s.heddle.lastHost })

/-- Replace a flight by its new form. -/
def putFlight (s : State) (old new : Flight) : State :=
  setHeddle s { s.heddle with flights := s.heddle.flights.map (fun x => if x == old then new else x) }

/-- HEDDLE_PASS: the arbiter starts a pass on the pipeline named (pipeline 0 while 1 takes none); a resolved frame that
is the oldest of its source leaves. `same`: the Spool request falls on the core clock of the one before (R251). -/
def execHeddlePass (pipe1 same : Bool) (s : State) : Host.Outcome State Fault Refusal :=
  .next (if !heddleOn s then s
  else match arbiterPick s with
    | none => s
    | some (x, s) =>
      let k := srcKey x.frame
      let pipe := if !pipeOk s 0 || (pipe1 && pipeOk s 1) then 1 else 0
      let s := count s 4 (if x.passes = 0 then 0 else 1)
      let (y, s) := passOf s { x with passes := x.passes + 1, pipe := pipe }
      let (same, y, s) := mirrorOut s same y
      let s := putFlight s x y
      let s := if k = 1536 then admitDirect (fifoAt s k).length s else s
      pauseScan (if oldestOf s k == some y then releaseOne s same k else s))

/-! ## The flow store's answer (R196, R197, R205) -/

/-- Resolve every frame that waits on `key`: a hit of the action given counts each frame (R195), a miss may learn (R197). -/
def resolveWaiting (key : Nat) (hit : Option Nat) (learn : Bool) : List Flight → State → State
  | [], s => s
  | x :: t, s =>
    if x.verdict == .miss && x.key == key then
      let d := frameDeck s x.frame
      let (y, s) := match hit with
        | some a => applyAction (flowTouch s key (frameLen x.frame)) x (resolve d x.tern (some a) x.exact (x.dflt.getD 0))
        | none => applyMiss s d x learn
      let k := srcKey x.frame
      let (same, s) := sharesClock s
      let (same, y, s) := mirrorOut s same y
      let s := putFlight s x y
      let s := if oldestOf s k == some y then releaseOne s same k else s
      resolveWaiting key hit learn t s
    else resolveWaiting key hit learn t s

/-- FLOW_MISS_RESOLVE: the DRAM read of the miss at a position of the queue returns, poisoned or not. A line that the cache
has got meanwhile is the only copy (R195) and answers. -/
def execFlowMissResolve (position : Nat) (poison : Bool) (s : State) : Host.Outcome State Fault Refusal :=
  .next (pauseScan <| match s.flow.missQ[position]? with
  | none => s
  | some key =>
    let waiting := s.heddle.flights
    let s := setFlow s { s.flow with missQ := s.flow.missQ.erase key }
    let s := if poison then (let (c, s) := draw s; raiseRoot s 0x0D 0x012 (c % 2 ^ 32) 0x0E 0x011) else s
    match cacheFind s key with
    | some l => resolveWaiting key (some l.action) true waiting s
    | none =>
      match (if flowOn s && !poison then storeLookup s key else none) with
      | some (b, j) =>
        let e := entGet s b j
        let s := (cacheInsert s (entLine e)).getD s
        resolveWaiting key (some e.action) true waiting (count s 5 3)
      | none => resolveWaiting key none (flowOn s && !poison) waiting s)

/-! ## The end of a deck's drain (R192) -/

/-- Frames of an old generation, and the end of a drain that ran over its budget: they are discarded (R29, R192). -/
def oldFlights (s : State) : List Flight := s.heddle.flights.filter (fun x => x.frame.gen != s.heddle.gen)

def deckOverrun (clocks : Nat) (s : State) : State :=
  let old := oldFlights s
  let s := setHeddle s { s.heddle with flights := s.heddle.flights.filter (fun x => x.frame.gen == s.heddle.gen), frozen := false }
  let s := countBy s 4 17 old.length
  overrunEv (old.foldl (fun s x => frameGone s x.frame) s) 10 0x0A clocks

/-- DECK_DRAIN_END: at a commit point FROZEN clears when no frame of the old generation remains; those still present at
the second commit point after the swap are discarded, as an overrun of R29. -/
def execDeckDrainEnd (s : State) : Host.Outcome State Fault Refusal :=
  .next (if !s.heddle.frozen then s
  else if (oldFlights s).isEmpty then (if 1 ≤ s.heddle.swapAge then setHeddle s { s.heddle with frozen := false } else s)
  else if 2 ≤ s.heddle.swapAge then deckOverrun (s.now - s.heddle.swapClock) s
  else s)

end Sys2Proof.Machine
end

