-- ==== Sys2Proof/Machine/Draft.lean ====
section
/-! DEFINITION. Machine/Draft.lean: PCM highways, the two exchanges, circuit frames, pages (11_draft_tdm.md). -/

namespace Sys2Proof.Machine

open Sys2Proof

def setDraft (s : State) (x : Draft) : State := { s with draft := x }

/-- DRAFT_STAT from the unit's state. -/
def draftRo (s : State) (a : Nat) : Option Nat :=
  let x := s.draft
  if a = Reg.draftStat then some (b2n x.loading.isSome * 8 + b2n x.frozen * 4 + b2n x.swapPend * 2 + b2n x.activeB)
  else if a = Reg.draftEntCmd then some (x.result * 2 ^ 24)
  else none

/-- Draft works (R324, R414, R420, R445, R449). -/
def draftOn (s : State) : Bool :=
  flag s Reg.draftCtrl 0 && domOn s 27 && unitOk s 0x1C && s.power.dozePhase == .none && !s.selvedge.fatal

/-! ## Pages (R329 to R332) -/

def draftPage (s : State) (b : Bool) : Deck := if b then s.draft.pageB else s.draft.pageA
def draftStandby (s : State) : Deck := draftPage s (!s.draft.activeB)
def setDraftStandby (s : State) (p : Deck) : State :=
  setDraft s (if s.draft.activeB then { s.draft with pageA := p } else { s.draft with pageB := p })

/-- Words and entries of a table. -/
def draftWords (t : Nat) : Nat := [1, 1, 2, 3].getD t 0
def draftSize (t : Nat) : Nat := [4096, 4096, 256, 256].getD t 0

/-- Another VALID entry of the table has the STREAM. -/
def circuitTwice (p : Deck) (t i st : Nat) : Bool :=
  p.any (fun e => e.1 / 0x100000 == t && e.1 % 0x100000 != i && (e.2.getD 0 0).testBit 31 && e.2.getD 0 0 % 65536 == st)

/-- The image may be written (R331). -/
def draftOk (p : Deck) (t i : Nat) (img : List Nat) : Bool :=
  let w := img.getD 0 0
  let ch := img.getD 1 0 % 2048
  decide (t < 4) && decide (i < draftSize t) &&
    (if t < 2 then bits w 31 30 != 3
     else decide (1 ≤ ch) && decide (ch ≤ 1024)
       && (t == 2 || decide (img.getD 2 0 % 4096 + ch ≤ 4096))
       && !(w.testBit 31 && circuitTwice p t i (w % 65536)))

/-- Write an entry of the standby page: RESULT of the window. -/
def draftWrite (s : State) (t i : Nat) (img : List Nat) : Nat × State :=
  let p := draftStandby s
  if draftOk p t i img then (0, setDraftStandby s (sput [] p (deckKey t i) (trimRec (draftWords t) img))) else (2, s)

/-- A window operation: OP 1 WRITE, 2 READ (R329, R331, R332). -/
def draftWindow (op : Nat) (s : State) : State :=
  let t := fldS s Reg.draftEntSel 26 24
  let i := fldS s Reg.draftEntSel 12 0
  let (r, s) :=
    if 4 ≤ t ∨ draftSize t ≤ i then (2, s)
    else if op = 2 then
      (0, forUpTo (draftWords t) s (fun k s => setReg s (Reg.draftEntData k) (deckWord (draftStandby s) t i k)))
    else if s.draft.frozen || s.draft.loading.isSome then (1, s)
    else draftWrite s t i ((List.range 3).map (fun k => rdS s (Reg.draftEntData k)))
  setDraft s { s.draft with result := r }

/-! ## Circuits -/

/-- Valid circuits of a table of a page: index and words. -/
def circuits (p : Deck) (t : Nat) : List (Nat × List Nat) :=
  (p.filter (fun e => e.1 / 0x100000 == t && (e.2.getD 0 0).testBit 31)).map (fun e => (e.1 % 0x100000, e.2))

def circStream (w : List Nat) : Nat := w.getD 0 0 % 65536
def circCh (w : List Nat) : Nat := w.getD 1 0 % 2048

/-- A circuit frame that CIPHER_0 passed (R324, R325): plaintext, and whether it was reassembled. -/
def circuitFrame (s : State) (stream : Nat) (frag : Bool) (d : List Byte) : State :=
  if !draftOn s then count s 13 1
  else match (circuits (draftPage s s.draft.activeB) 2).find? (fun c => circStream c.2 == stream) with
    | none => count s 13 1
    | some c =>
      if frag then count s 13 2
      else if d.length ≠ circCh c.2 then count s 13 3
      else if (sget none s.draft.held stream).isSome then count s 13 4
      else count (setDraft s { s.draft with held := sput none s.draft.held stream (some d) }) 13 0

/-! ## The exchanges (R323, R326, R327, R330) -/

/-- Bit `k` of DRAFT_HWY_EN as it stood in slot `n` of a frame whose pick and the pick before had `now` and `was`: slots 254 and
255 of a frame lie behind the next commit point (R320, R322). -/
def slotEn (now was n k : Nat) : Bool := if 254 ≤ n % 256 then now.testBit k else was.testBit k

/-- Sample of HWY_DI slot `n` of the last complete frame. -/
def inSample (s : State) (n : Nat) : Nat := sget 0xFF s.draft.ins n

def missCode (s : State) : Nat := fld s Reg.draftCfg 15 8

/-- Channel `ch` of downstream circuit `c` of page `p`, from `frames`; `prev`: the slot's previous sample (R326). -/
def circSample (s : State) (p : Deck) (frames : Sparse (Option (List Byte))) (c ch prev : Nat) : Nat :=
  let w := sget [] p (deckKey 2 c)
  if !(w.getD 0 0).testBit 31 || decide (circCh w ≤ ch) then missCode s
  else match sget none frames (circStream w) with
    | some d => byteAt d ch
    | none => if (w.getD 0 0).testBit 30 then prev else missCode s

/-- The sample that a DOWN entry gives slot `n` (R330). -/
def downSample (s : State) (p : Deck) (w n : Nat) : Nat :=
  match bits w 31 30 with
  | 0 => w % 256
  | 1 => circSample s p s.draft.held (bits w 17 10) (bits w 9 0) (sget 0 s.draft.outs n)
  | _ => inSample s (w % 4096)

/-- The frame that has been sent leaves the highways: its samples in the slots that were driven (R320). -/
def frameSent (s : State) : State :=
  match s.draft.sending with
  | none => s
  | some (fs, slots) =>
    let on' := slots.filter (fun n => slotEn (rd s Reg.draftHwyEn) s.draft.hwyEn n (n / 256))
    emit (setDraft s { s.draft with sending := none }) (.pcmOut fs (on'.map (fun n => (n, sget 0 s.draft.outs n))))

/-- DOWNSTREAM_EXCHANGE at C(k), with the page in force before step 8 (R323, R326, R332): the frame before it has been sent, and
frame k is filled. -/
def downExchange (s : State) : State :=
  let p := draftPage s s.draft.activeB
  let s := frameSent s
  let s' :=
    if !draftOn s then s
    else
      let down := (p.filter (fun e => e.1 / 0x100000 == 0)).map (fun e => (e.1, e.2.getD 0 0))
      let outs := down.map (fun e => (e.1, downSample s p e.2 e.1))
      let miss := (circuits p 2).filter (fun c => (sget none s.draft.held (circStream c.2)).isNone)
      let drive := (down.filter (fun e => e.2.testBit 29)).map (·.1)
      countBy (setDraft s { s.draft with outs := outs.filter (fun e => e.2 != 0), lastOuts := s.draft.outs
                                         sending := some (flag s Reg.draftCfg 16, drive) }) 13 5 miss.length
  setDraft s' { s'.draft with before := s'.draft.held, held := [], upB := s'.draft.activeB, hwyEn := rd s Reg.draftHwyEn, hwyEnWas := s.draft.hwyEn }

/-- The slots from `t` on of every highway are not exchanged in time: they repeat their sample of the previous frame, and are
counted (R323). -/
def draftLate (t : Nat) (s : State) : State :=
  let keep := skeep (fun n => decide (n % 256 < t)) s.draft.outs
  let old := skeep (fun n => decide (t ≤ n % 256)) s.draft.lastOuts
  countBy (setDraft s { s.draft with outs := old.foldl (fun m e => sput 0 m e.1 e.2) keep }) 13 11 (16 * (256 - t))

/-- The exchange overruns its budget (R29, R30): downstream from slot `arg` on, or upstream from slot `arg - 256` on. -/
def draftOverrun (arg : Nat) (s : State) : State :=
  if arg < 256 then draftLate arg s else setDraft s { s.draft with lateUp := some (min 256 (arg - 256)) }

/-- The sample that an UP entry gives its channel (R330). -/
def upSample (s : State) (p : Deck) (w : Nat) : Nat :=
  match bits w 31 30 with
  | 0 => w % 256
  | 1 => inSample s (w % 4096)
  | _ => circSample s p s.draft.before (bits w 17 10) (bits w 9 0) (missCode s)

/-- Build and hand over one upstream circuit frame (R327). -/
def upFrame (p : Deck) (s : State) (c : Nat × List Nat) : State :=
  let base := c.2.getD 2 0 % 4096
  let q := bits (c.2.getD 2 0) 26 16
  let d := (List.range (circCh c.2)).map (fun k => BitVec.ofNat 8 (upSample s p (deckWord p 1 (base + k) 0)))
  let f : Frame := { data := d, srcType := 3, upStream := circStream c.2, circuit := true }
  let n := (queueAt s q).items.length
  let (same, s) := sharesClock s
  let s := reedEnqueue (count s 13 6) f q 0 same 0 { owner := fld s Reg.draftCfg 5 0, bytes := d.length, data := d, src := 64 }
  if (queueAt s q).items.length = n then count s 13 7 else s

/-- The HWY_DI samples of a frame: a highway whose DI_EN bit was 0 in a slot reads 0xFF there (R320), and a slot from `late` on
repeats its sample of the previous frame (R323). -/
def sampled (s : State) (late : Nat) (samples : List (Nat × Nat)) : Sparse Nat :=
  let on' := fun (n : Nat) => slotEn s.draft.hwyEn s.draft.hwyEnWas n (16 + n / 256)
  let new := samples.filter (fun e => decide (e.1 < 4096) && decide (e.1 % 256 < late) && on' e.1)
  new.foldl (fun m e => sput 0xFF m e.1 (e.2 % 256)) (skeep (fun n => decide (late ≤ n % 256)) s.draft.ins)

/-- UPSTREAM_EXCHANGE: HWY_DI samples of the frame just complete, by slot (R323, R327). -/
def execUpstreamExchange (samples : List (Nat × Nat)) (s : State) : Host.Outcome State Fault Refusal :=
  .next (if !draftOn s then s
  else
    let late := s.draft.lateUp.getD 256
    let s := countBy (setDraft s { s.draft with ins := sampled s late samples, lateUp := none }) 13 11 (16 * (256 - late))
    let p := draftPage s s.draft.upB
    pauseScan ((circuits p 3).foldl (upFrame p) s))

/-! ## Swap and load (R332 to R334) -/

/-- A frozen page is released ahead of step 8 of the next commit point; then a pending swap takes place or is deferred. -/
def draftSwap (s : State) : State :=
  let s := setDraft s { s.draft with frozen := false }
  if !s.draft.swapPend || !domOn s 27 then s
  else if s.draft.loading.isSome then count s 13 9
  else
    let s := count (setDraft s { s.draft with activeB := !s.draft.activeB, frozen := true, swapPend := false }) 13 8
    let ws := s.host.work.filter (fun w => w.code == 0x71)
    let s := { s with host := { s.host with work := s.host.work.filter (fun w => w.code != 0x71) } }
    ws.foldl (fun s w => cmdPost s w.ring w.index w.code s.pick.point Status.done 0) s

/-- A write of DRAFT_CTRL.SWAP (R333). -/
def draftSwapAsk (s : State) : State := setDraft s { s.draft with swapPend := true }

/-- DRAFT_LOAD begins (R334). -/
def cmdDraftLoad (d : CmdDesc) (s : State) : CmdRes :=
  needDomain 27 s fun s =>
    if s.draft.loading.isSome || s.draft.frozen then .fin Status.busy 0 s
    else .work (setDraft s { s.draft with loading := some (d.ring, d.index) })

/-- The records in order; index of the first refused one. -/
def draftRecords (s : State) : List (List Byte) → Nat → Option Nat → Option Nat × State
  | [], _, e => (e, s)
  | r :: t, i, e =>
    let w := leAt r 0 4
    let (x, s) := draftWrite s (bits w 26 24) (w % 8192) ((List.range 3).map (fun k => leAt r (4 + 4 * k) 4))
    draftRecords s t (i + 1) (if x = 0 then e else e.or (some i))

/-- The work of DRAFT_LOAD ends: status, detail and state. -/
def draftLoadWork (w : WorkIn) (s : State) : Nat × Nat × State :=
  let (e, s) := draftRecords s w.reads 0 none
  let s := setDraft s { s.draft with loading := none }
  if w.failed then (Status.errDma, w.reads.length, s)
  else match e with
    | some i => (Status.errField, i, s)
    | none => (Status.done, 0, s)

/-- DRAFT_SWAP: its completion is posted at the commit point of the swap (R333, R334). -/
def cmdDraftSwap (_ : CmdDesc) (s : State) : CmdRes :=
  needDomain 27 s fun s => if s.draft.swapPend then .fin Status.busy 0 s else .work (draftSwapAsk s)

end Sys2Proof.Machine
end

