-- ==== Sys2Proof/Machine/Clp.lean ====
section
/-! DEFINITION. Machine/Clp.lean: the de-encapsulator: the walk through the frame partition, the delineation hunt, the
tests of a CLP frame, reassembly and delivery (R68 to R74, R258, R325, R351). -/

namespace Sys2Proof.Machine

open Sys2Proof

/-- A CLP frame as its header gives it: the header's 8 bytes and fields, its offset and its payload. -/
structure ClpIn where
  offset : Nat
  hdr : List Byte
  len : Nat
  stream : Nat
  key : Nat
  last : Bool
  typ : Nat
  enc : Bool
  payload : List Byte

/-- The frame whose header stands at byte `k` of `d`, where `d` begins at info-stream offset `o`. -/
def clpAt (o : Nat) (d : List Byte) (k : Nat) : ClpIn :=
  let h := beAt d k 8
  { offset := o + k, hdr := slice d k 8, len := clpLen h, stream := clpStream h, key := clpKey h, last := clpLast h
    typ := clpType h, enc := clpEnc h, payload := slice d (k + 8) (clpLen h) }

/-- Bytes of the frame with its pad. -/
def clpSpan (f : ClpIn) : Nat := 8 + (f.len + 7) / 8 * 8

/-- The header at byte `k` passes its HEC outside every poisoned codeword. -/
def hdrGood (x : PickRx) (o : Nat) (d : List Byte) (k : Nat) : Bool := !poisoned x (o + k) 8 && clpOk (beAt d k 8)

/-- The hunt accepts position `k` (R73). -/
def huntOk (x : PickRx) (o : Nat) (d : List Byte) (k : Nat) : Bool :=
  let e := o + k + clpSpan (clpAt o d k)
  hdrGood x o d k && decide (e ≤ infoBytes) && (e == infoBytes || hdrGood x o d (e - o))

/-- The first of `n` 8-byte positions from byte `k` on that the hunt accepts. -/
def huntFrom (x : PickRx) (o : Nat) (d : List Byte) : Nat → Nat → Option Nat
  | 0, _ => none
  | n + 1, k => if huntOk x o d k then some (o + k) else huntFrom x o d n (k + 8)

/-- Set the offset of the next header; none at the partition end. -/
def setWalk (s : State) (o : Option Nat) : State :=
  setWarp s { s.warp with rx := { s.warp.rx with walk := o.bind (fun p => if p < infoBytes then some p else none) } }

/-- A delineation hunt after the header at `o` (R73). -/
def delinHunt (s : State) (o : Nat) (d : List Byte) : State :=
  let s := dropContexts (count s 0 12)
  setWalk s (huntFrom s.warp.rx o d ((infoBytes - o) / 8 - 1) 8)

/-- The port `p` sends warp frames in cut-through (R310). -/
def cutOn (s : State) (p : Nat) : Bool := decide (p < 32) && macUp s p && flag s (Reg.macCfg p) 30

/-- A cut-through frame that failed is ended on its port with an invalid FCS (R38, R72, R310): how many bytes had left is
not stated (free values, log entry 10). -/
def cutEnd (s : State) (cut : Option Nat) : State :=
  match cut with
  | none => s
  | some p =>
    if cutOn s p then
      let (n, s) := draw s
      let (l, s) := drawBytes s (n % 16385)
      macCount (emit s (.frameOut p l true)) p 13
    else s

/-- Deliver a whole frame to the destination its TYPE names (R69, R325, R351). A user frame that arrives before WOVEN does not
flow: it is discarded, in a counter of no rule (R143, log entry 79). -/
def clpDeliver (s : State) (f : ClpIn) (frag cut : Bool) (plain : List Byte) : State :=
  let fr : Frame := { data := plain, srcType := 2, stream := f.stream, cut := cut, clpLen := if cut then f.len else 0 }
  match f.typ with
  | 0 => if s.act.st = .woven then heddleInput s fr else s
  | 1 => circuitFrame s f.stream frag plain
  | _ =>
    if flag s Reg.hostMgmt 31 then
      match rxDeliver s (fld s Reg.hostMgmt 8 0) fr { mgmt := true } with
      | some s => s
      | none => count s 14 15
    else count s 14 15

/-- Reassembly of a decrypted fragment (R74); `cut`: the frame has started in cut-through, which one in fragments cannot. -/
def reassemble (s : State) (f : ClpIn) (cut : Bool) (plain : List Byte) : State :=
  match sget none s.warp.reasm f.stream with
  | none =>
    if f.last then clpDeliver s f false cut plain
    else setWarp s { s.warp with reasm := sput none s.warp.reasm f.stream (some ⟨plain, 0⟩) }
  | some r =>
    let whole := r.data ++ plain
    if 16384 < whole.length then dropContext s f.stream
    else if f.last then clpDeliver (setWarp s { s.warp with reasm := sput none s.warp.reasm f.stream none }) f true false whole
    else setWarp s { s.warp with reasm := sput none s.warp.reasm f.stream (some { r with data := whole }) }

/-- The tests of a delineated frame, in order (R71, R72, R258); `cut`: the port on which it has started. -/
def clpTests (s : State) (f : ClpIn) (cut : Option Nat) : State :=
  if f.stream = 0xFFFF then s
  else if poisoned s.warp.rx f.offset (8 + f.len) then dropContext (cutEnd (count s 0 9) cut) f.stream
  else if (sget none s.act.streams f.stream).isNone then dropContext (count s 0 10) f.stream
  else if f.typ = 3 then dropContext (count s 0 11) f.stream
  else
    let s := countBy (count s 0 6) 0 7 f.len
    if !domOn s 19 || !unitOk s 0x15 then dropContext s f.stream
    else
      match cipher0 s f.hdr f.stream f.enc f.key f.payload s.warp.rx.count f.offset with
      | (some plain, _, s) => reassemble s f (cut.any (cutOn s)) plain
      | (none, bad, s) => dropContext (if bad then cutEnd s cut else s) f.stream

/-- CLP_FRAME: the next frame of the frame partition; `data` holds the info stream from its header on, `cut` the port on
which the frame has started in cut-through (R71). -/
def execClpFrame (data : List Byte) (cut : Option Nat) (s : State) : Host.Outcome State Fault Refusal :=
  .next (match s.warp.rx.walk with
  | none => s
  | some o =>
    if !(rxOn s && s.warp.align == .sync && s.warp.rx.ok) then s
    else
      let f := clpAt o data 0
      if poisoned s.warp.rx o 8 then delinHunt s o data
      else if !clpOk (beAt data 0 8) then
        let s := count s 0 8
        delinHunt (setPm s (pmEvent s.warp.pm 6 1)) o data
      else if infoBytes < o + clpSpan f then delinHunt s o data
      else clpTests (setWalk s (some (o + clpSpan f))) f cut)

end Sys2Proof.Machine
end

