-- ==== Sys2Proof/Machine/Gate.lean ====
section
/-! DEFINITION. Machine/Gate.lean: gate lists of the MACs (R233 to R235, R237, R238). -/

namespace Sys2Proof.Machine

open Sys2Proof

/-- Write port `p`'s gate state; REED_GATE_STAT[p] follows. -/
def setGate (s : State) (p : Nat) (g : Gate) : State :=
  let s := setReed s { s.reed with gates := sput {} s.reed.gates p g }
  setReg s (Reg.reedGateStat p) (b2n (decide (0 < g.operLen)) * 2 ^ 31 + b2n g.pending.isSome * 2 ^ 30 + b2n g.armed * 2 ^ 29
    + g.entry % 256 * 2 ^ 16 + g.operLen % 2 ^ 9)

/-- The time counter in whole nanoseconds. -/
def todWhole (s : State) : Nat := s.time.tod / nsUnit

/-- Entry `e` of port `p`'s operational list: GATES and INTERVAL. -/
def operEntry (s : State) (p e : Nat) : Nat × Nat := sget (0, 0) s.reed.gateOper (256 * p + e)

/-- Position within the cycle in ns. -/
def gatePos (s : State) (p : Nat) : Nat :=
  let g := gateAt s p
  if todWhole s < g.start then g.cycle - 1 - (g.start - todWhole s - 1) % g.cycle else (todWhole s - g.start) % g.cycle

/-- The entry at a position and the position at which it ends: entries from `e`, `n` of them, the first starting at
`t0`. The last entry reaches to the cycle's end; a longer list is cut there. -/
def gateWalk (s : State) (p : Nat) : Nat → Nat → Nat → Nat → Nat × Nat
  | 0, e, _, _ => (e - 1, (gateAt s p).cycle)
  | n + 1, e, t0, pos =>
    let t1 := t0 + (operEntry s p e).2
    if pos < t1 ∧ n ≠ 0 then (e, min t1 (gateAt s p).cycle)
    else if n = 0 then (e, (gateAt s p).cycle)
    else gateWalk s p n (e + 1) t1 pos

/-- The entry in force at the counter's value, and where in the cycle it ends. -/
def gateNow (s : State) (p : Nat) : Nat × Nat := gateWalk s p (gateAt s p).operLen 0 0 (gatePos s p)

/-- Gate `lvl` is open in entry `e`. -/
def gateOpen (s : State) (p e lvl : Nat) : Bool := (operEntry s p e).1.testBit lvl

/-- Nanoseconds from the counter's whole value until gate `lvl` closes: none while it stays open through the rest of the cycle
and the start of the next (R233). Entries from `e` on, `n` of them, the current one ending at `t1`; what lies beyond the cycle
is cut off. -/
def gateRoom (s : State) (p lvl : Nat) : Nat → Nat → Nat → Option Nat
  | 0, _, _ => if gateOpen s p 0 lvl then none else some ((gateAt s p).cycle - gatePos s p)
  | n + 1, e, t1 =>
    if (gateAt s p).cycle ≤ t1 then gateRoom s p lvl 0 e t1
    else if !gateOpen s p e lvl then some (t1 - gatePos s p)
    else gateRoom s p lvl n (e + 1) (t1 + (operEntry s p e).2)

/-- A frame of `bytes` charged bytes, starting now at `rate` Mb/s, ends before the instant `room` nanoseconds behind the
counter's whole value. -/
def endsBefore (s : State) (bytes rate room : Nat) : Bool :=
  decide (s.time.tod % nsUnit * rate + bytes * 8000 * nsUnit < room * nsUnit * rate)

/-- A gate's verdict on a frame of `bytes` charged bytes at `rate` Mb/s: open, and the frame ends before it closes (R233). -/
def gateTest (s : State) (p lvl bytes rate : Nat) : Bool × Bool :=
  let g := gateAt s p
  if g.operLen = 0 then (true, true)
  else
    let (e, t1) := gateNow s p
    if !gateOpen s p e lvl then (false, false)
    else match gateRoom s p lvl (g.operLen - 1 - e) (e + 1) t1 with
      | none => (true, true)
      | some r => (true, endsBefore s bytes rate r)

/-- The entry of port `p` follows the counter. -/
def gateFollow (s : State) (p : Nat) : State :=
  let g := gateAt s p
  if g.operLen = 0 ∨ (gateNow s p).1 = g.entry then s else setGate s p { g with entry := (gateNow s p).1 }

/-- GATE_ENTRY_CHANGE: the operational list advances at the end of an interval (R233). -/
def execGateEntryChange (p : Nat) (s : State) : Host.Outcome State Fault Refusal :=
  .next (if domOn s 18 && decide (p < 32) then gateFollow s p else s)

/-- On a step or load every list's position is recomputed at once (R235). -/
def gatesFollow (s : State) : State := if domOn s 18 then forUpTo 32 s (fun p s => gateFollow s p) else s

/-- Step 7 of a commit point: a pending start that lies in the pick that opens is armed (R234). -/
def gateArm (s : State) : State :=
  (s.reed.gates.map (·.1)).foldl (fun s p =>
    let g := gateAt s p
    match g.pending with
    | some (start, _, _) =>
      if start * nsUnit < s.time.tod + s.pick.len * timeInc s ∧ g.armed = false ∧ s.time.run = true then setGate s p { g with armed := true } else s
    | none => s) s

/-- GATE_LIST_START: at the start instant the administrative list becomes operational (R234). -/
def execGateListStart (p : Nat) (s : State) : Host.Outcome State Fault Refusal :=
  .next (if domOn s 18 then
    let g := gateAt s p
    match g.pending with
    | some (start, cycle, len) =>
      if start ≤ todWhole s then
        let ents := (List.range len).foldl (fun m e => sput (0, 0) m (256 * p + e) (sget (0, 0) s.reed.gateAdmin (256 * p + e)))
          (skeep (fun k => k / 256 != p) s.reed.gateOper)
        setGate (setReed s { s.reed with gateOper := ents }) p { operLen := len, cycle := cycle, start := start, entry := 0 }
      else s
    | none => s
  else s)

/-- GATE_LOAD (R237, R238): entries of 8 bytes replace the port's administrative list. -/
def cmdGateLoad (d : CmdDesc) (s : State) : CmdRes :=
  let p := cmdP0 d % 32
  let n := cmdLen d
  needDomain 18 s fun s =>
    if (gateAt s p).pending.isSome then .fin Status.busy 0 s
    else
      let es := (List.range n).map (fun e => (leAt (cmdData d) (8 * e) 4 % 256, leAt (cmdData d) (8 * e + 4) 4 % 2 ^ 24))
      match es.findIdx? (fun e => !gateEntOk e.2) with
      | some k => .fin Status.errField k s
      | none =>
        let m := skeep (fun k => k / 256 != p) s.reed.gateAdmin
        let m := (List.range n).foldl (fun m e => sput (0, 0) m (256 * p + e) (es.getD e (0, 0))) m
        .fin Status.done 0 (setReed s { s.reed with gateAdmin := m })

/-- GATE_START (R234, R235, R238). -/
def cmdGateStart (d : CmdDesc) (s : State) : CmdRes :=
  let p := cmdP0 d % 32
  let len := bits (cmdP0 d) 24 16
  let cycle := cmdP3 d % 2 ^ 30
  let base := (cmdP1 d + cmdP2 d % 65536 * 2 ^ 32) * 10 ^ 9 + cmdLen d
  needDomain 18 s fun s =>
    if (gateAt s p).pending.isSome then .fin Status.busy 0 s
    else if !(domOn s 22 && s.time.run) then .fin Status.gateNoTime 0 s
    else
      let e := (s.time.tod + 250000 * nsUnit + nsUnit - 1) / nsUnit
      let start := if e ≤ base then base else base + (e - base + cycle - 1) / cycle * cycle
      .fin Status.done 0 (setGate s p { gateAt s p with pending := some (start, cycle, len), armed := false })

end Sys2Proof.Machine
end

