-- ==== Sys2Proof/Machine/Ports.lean ====
section
/-! DEFINITION. Machine/Ports.lean: lanes, the Yonov link, the Ethernet MACs, and selections for ports and host rings
(10_user_ports.md, R155 to R160, R206, R223, R224). -/

namespace Sys2Proof.Machine

open Sys2Proof

/-! ## Lane and link states (R294, R303, R306, R311) -/

/-- Notifications of LANE_NOTIFY: 0 lane or 1 MAC, number, new state. -/
def linkNotify (s : State) (kind n st : Nat) : State := notifyReg s Reg.laneNotify 0 0x30 (kind + n * 256 + st * 65536)

/-- Change MAC `p`'s link: CHANGE and a notification. -/
def macLink (s : State) (p : Nat) (up : Bool) : State :=
  let x := macAt s p
  if x.link == up then s
  else
    let s := setMac s p { x with link := up, verified := x.verified && up }
    linkNotify (setBit s (Reg.macStat p) 2) 1 p (b2n up)

/-- Change lane `n`'s state: CHANGE, a notification, and its MACs' links on leaving UP. -/
def laneGo (s : State) (n : Nat) (st : LaneSt) : State :=
  let x := laneAt s n
  if x.st == st then s
  else
    let s := setLane s n { x with st := st }
    let s := linkNotify (setBit s (Reg.laneStat n) 4) 0 n (laneCode st)
    if x.st == .up then macLink (macLink s n false) (16 + n) false else s

/-- Lock is lost, in mode 9 the slots' alone where `block` stays: counted, the lane seeks lock again (R291, R298, R303). The
code-group boundary stands until a comma moves it (R296). -/
def lockLost (s : State) (n : Nat) (block : Bool) : State :=
  let x := laneAt s n
  let s := if x.lock || (x.block && !block) then laneCount s n 1 else s
  let s := setLane s n { x with lock := false, block := block, idles := 0, markers := 0, missed := 0 }
  if x.st == .up then laneGo s n .down else s

def laneUnlock (s : State) (n : Nat) : State := lockLost s n false

/-- Payload rate in Mb/s and power units of a lane in a mode (R284, R293); a group counts all its lanes. -/
def modeRate (m yr : Nat) : Nat :=
  if m = 10 then [12122, 24243, 27273].getD yr 0 else [0, 1000, 1000, 2500, 5000, 10000, 25000, 50000, 100000, 10000].getD m 0
def modeUnits (m yr : Nat) : Nat :=
  if m = 10 then (if yr = 0 then 4 else 6) else [0, 3, 3, 3, 4, 4, 6, 12, 24, 4].getD m 0

/-- Sum of payload rates of lanes that are not OFF or REFUSED (R286). -/
def laneSum (s : State) : Nat :=
  sumList (((List.range 16).filter (fun n => decide (2 ≤ laneCode (laneAt s n).st))).map (fun n => modeRate (laneMode s n) (laneYrate s n)))

/-- LANE_AGG follows the lanes. -/
def laneAggReg (s : State) : State := setReg s Reg.laneAgg (laneSum s)

/-- Other lanes of the group that lane `n` heads in mode `m`. -/
def groupOthers (m n : Nat) : List Nat := if m = 7 then [n + 1] else if m = 8 then [n + 1, n + 2, n + 3] else []

/-- The lane that runs lane `n`: itself, or the lowest lane of the group whose member it is (R285). -/
def laneHead (s : State) (n : Nat) : Nat :=
  if laneMode s n = 0 ∧ laneMode s (n / 2 * 2) = 7 then n / 2 * 2
  else if laneMode s n = 0 ∧ laneMode s (n / 4 * 4) = 8 then n / 4 * 4
  else n

/-- A frame in transmission on MAC `p` is ended with an invalid FCS (R287, R310). -/
def macAbort (s : State) (p : Nat) : State :=
  let x := macAt s p
  let fs := x.tx.toList ++ x.preempted.toList
  if fs.isEmpty then s
  else
    let s := setMac s p { x with tx := none, preempted := none }
    fs.foldl (fun s t => frameGone (macCount (emit s (.frameOut p ((frameRead s t.frame).drop t.sent) true)) p 13) t.frame) s

/-- The Yonov frame in transmission on lane `n` is ended with YEND and ABORT = 1 (R287): how many data blocks had left, and the
CRC-32 of a frame that is cut short, are free values (log entry 10). -/
def yonovAbort (s : State) (n : Nat) : State :=
  match (laneAt s n).tx with
  | none => s
  | some f =>
    let s := setLane s n { laneAt s n with tx := none }
    let (x, s) := draw s
    let (c, s) := draw s
    let rest := (dataBlocks 2048 (frameRead s f)).drop 1
    let s := (rest.take (x % (rest.length + 1))).foldl (fun s b => sendBlock s n 1 b) s
    frameGone (laneCount (sendBlock s n 2 (yendBlock (c % 2 ^ 32) true)) n 9) f

/-- Take lane `n` to OFF: frames in transmission end, the grant returns (R287, R293). -/
def laneOff (s : State) (n : Nat) : State :=
  let s := yonovAbort (macAbort (macAbort s n) (16 + n)) n
  let s := laneGo s n .off
  let x := laneAt s n
  let s := setLane s n { st := .off, ctle := x.ctle, scr := x.scr, boundary := x.boundary }
  laneAggReg (if (reqAt s (2 + n)).state == .idle then s else reqReturn s (2 + n))

/-- A lane's EN comes into force, or it must train again under a new mode: the tests of R285, R286 and R292, then the
request of R293. -/
def laneStart (s : State) (n : Nat) : State :=
  let m := laneMode s n
  let yr := laneYrate s n
  let badGroup := (m == 7 && n % 2 != 0) || (m == 8 && n % 4 != 0) || (groupOthers m n).any (fun k => laneMode s k != 0)
  if m = 0 then s
  else if badGroup then progErr (laneGo s n .refused) (if n < 8 then 0x1A else 0x1B)
  else if flag s Reg.laneGlobal 31 && m != 10 then setBit (laneGo s n .refused) Reg.laneGlobal 0
  else if 400000 < laneSum s + modeRate m yr then setBit (laneGo s n .refused) Reg.laneGlobal 1
  else laneAggReg (reqRaise (laneGo s n .pwrWait) (2 + n) (modeUnits m yr))

/-- Step 2 of a commit point for lane `n`; `old` is LANE_CFG[n] before the step (R286, R287). -/
def laneCommit (old : Nat → Nat) (s : State) (n : Nat) : State :=
  if !domOn s (laneDom n) then s
  else
    let c0 := old (Reg.laneCfg n)
    let c1 := rd s (Reg.laneCfg n)
    let st := (laneAt s n).st
    let changed := bits c0 19 16 != bits c1 19 16 || bits c0 13 10 != bits c1 13 10
    let s :=
      if !c1.testBit 31 then (if st == .off then s else laneOff s n)
      else if !c0.testBit 31 then laneStart s n
      else if changed && st != .off then laneStart (laneOff s n) n
      else s
    let x := laneAt s n
    let s := if flag s (Reg.laneRxCfg n) 31 && decide (3 ≤ laneCode (laneAt s (laneHead s n)).st) then setLane s n { x with ctle := fld s (Reg.laneRxCfg n) 3 0 } else s
    if (laneAt s n).st == .pwrWait && grantUsed s (2 + n) then laneGo s n .train else s

/-- Step 2 for all lanes, ascending. -/
def lanesCommit (old : Nat → Nat) (s : State) : State := forUpTo 16 s (fun n s => laneCommit old s n)

/-- The CTLE setting of lane `n` follows its adaptation: chosen in TRAIN, moved by at most one step a pick while UP, fixed with
CTLE_MAN = 1 (R290). -/
def adaptCtle (s : State) (n c : Nat) (st : LaneSt) : State :=
  let x := laneAt s n
  if st == .train then setLane s n { x with ctle := c }
  else if st == .up && c != x.ctle && decide (c ≤ x.ctle + 1) && decide (x.ctle ≤ c + 1) && x.stepped != some s.pick.commits then
    setLane s n { x with ctle := c, stepped := some s.pick.commits }
  else s

/-- LANE_ADAPTED: a training lane's PLLs and equalisers have adapted, or a lane that is up moves its setting by a step
(R290, R294). The receiver of a group's other lane adapts with the state of the lowest one (R285). -/
def execLaneAdapted (n ctle : Nat) (s : State) : Host.Outcome State Fault Refusal :=
  .next (if n < 16 ∧ domOn s (laneDom n) = true then
    let st := (laneAt s (laneHead s n)).st
    let s := adaptCtle s n (if flag s (Reg.laneRxCfg n) 31 then fld s (Reg.laneRxCfg n) 3 0 else ctle % 16) st
    if st == .train && laneHead s n == n then laneGo (setLane s n { laneAt s n with marks := 5 * s.ns }) n .down else s
  else s)

/-! ## Comma alignment and links (R295, R296, R306) -/

/-- First of the 20 start positions of a 26-bit window, first bit received highest, at which a comma stands (R295). -/
def findComma (w : Nat) : Option Nat :=
  (List.range 20).find? (fun i => let c := bits w (25 - i) (19 - i); c == 0x1F || c == 0x60)

/-- The comma's code-group as far as the window holds it, from start position `i` on: the bits before it are discarded, the
bits held from the word before are part of it (R296). -/
def commaGroup (w i : Nat) : Nat × Nat :=
  let n := min 10 (26 - i)
  (bits w (25 - i) (26 - i - n), n)

/-- A lane in modes 1 to 3 sees the 26 bits of a window (R295, R296): in LOSS_OF_SYNC the first comma sets the boundary, each
move of which is counted; out of it a comma at another position spoils the one or two code-groups in which it lies (a free
value, log entry 10). -/
def commaWindow (n window : Nat) (s : State) : State :=
  let x := laneAt s n
  match findComma window with
  | none => s
  | some i =>
    if x.lock then
      if x.boundary = some i then s
      else
        let (k, s) := draw s
        countBy s 12 (14 * n) (1 + k % 2)
    else
      let s := if x.boundary == some i then s else laneCount s n 2
      laneGo (setLane s n { x with lock := true, boundary := some i, comma := commaGroup window i }) n .up

/-- A MAC's link comes up where its lane is UP; an SGMII partner that reports 10 or 100 Mb/s holds it DOWN (R284, R306). -/
def macLinkUp (p speed : Nat) (s : State) : State :=
  if laneMode s (macLane p) = 2 ∧ (speed = 10 ∨ speed = 100) then macLink s p false else macLink s p true

/-- LANE_LINK_UP: a lane reaches PCS lock, in mode 9 the block lock under which its slots are sought, or a MAC its link.
`window`: the aligner's 26 bits for modes 1 to 3; `speed`: what an SGMII partner reports in Mb/s. -/
def execLaneLinkUp (mac : Bool) (n window : Nat) (s : State) (speed : Nat := 0) : Host.Outcome State Fault Refusal :=
  .next (if mac then
    if n < 32 ∧ macBound s n = true ∧ domOn s (macDom n) = true then macLinkUp n speed s else s
  else
    let x := laneAt s n
    let m := laneMode s n
    if 16 ≤ n ∨ domOn s (laneDom n) = false ∨ laneCode x.st < 4 then s
    else if 1 ≤ m ∧ m ≤ 3 then commaWindow n window s
    else if x.st ≠ .down then s
    else if m = 10 then setLane s n { x with lock := true, idles := 0 }
    else if m = 9 then setLane s n { x with block := true }
    else laneGo (setLane s n { x with lock := true }) n .up)

/-- LANE_LINK_DOWN: a lane loses lock after `codeErrs` invalid code-groups or blocks, or a MAC its link with the faults
that it saw (R296, R298, R303, R306). -/
def execLaneLinkDown (mac : Bool) (n codeErrs : Nat) (localFault remoteFault : Bool) (s : State) : Host.Outcome State Fault Refusal :=
  .next (if mac then
    if n < 32 ∧ domOn s (macDom n) = true then
      let s := macLink s n false
      setMac s n { macAt s n with localFault := localFault, remoteFault := remoteFault }
    else s
  else if n < 16 ∧ domOn s (laneDom n) = true ∧ ((laneAt s n).lock || (laneAt s n).block) = true then
    laneUnlock (countBy s 12 (14 * n) codeErrs) n
  else s)

/-- PAIR_MARKER: the blocks at positions 0 and 1 of the phase that a mode 9 lane with block lock follows: a pair of markers, or
not (R298, R299). -/
def execPairMarker (n : Nat) (a : Nat × Nat) (s : State) (b : Nat × Nat := (0, 0)) : Host.Outcome State Fault Refusal :=
  .next (if n < 16 ∧ laneMode s n = 9 ∧ domOn s (laneDom n) = true ∧ 4 ≤ laneCode (laneAt s n).st ∧ (laneAt s n).block = true then
    let x := laneAt s n
    if a = pairMark false ∧ b = pairMark true then
      let s := setLane s n { x with markers := min 3 (x.markers + 1), missed := 0 }
      if 2 ≤ x.markers ∧ x.lock = false then laneGo (setLane s n { laneAt s n with lock := true }) n .up else s
    else if x.lock then
      if 3 ≤ x.missed then lockLost s n true else setLane s n { x with missed := x.missed + 1 }
    else setLane s n { x with markers := 0 }
  else s)

/-! ## The Yonov link (R300 to R305) -/

/-- Lane `n` runs the Yonov link and is powered. -/
def yonovOn (s : State) (n : Nat) : Bool :=
  decide (n < 16) && domOn s (laneDom n) && laneMode s n == 10 && decide (4 ≤ laneCode (laneAt s n).st) && s.power.dozePhase == .none

/-- A Yonov frame whose YSTART is `y` and whose further blocks came to `b` (R302): the tests in order. -/
def yonovTests (n : Nat) (y : List Byte) (b : YBody) (s : State) : State :=
  let len := beAt y 1 2 % 2 ^ 14
  if crcOf 8 0x07 0xFF (slice y 1 6) ≠ byteAt y 7 ∨ len < 14 then laneCount s n 6
  else match b with
    | .unfinished => s
    | .broken => laneCount (laneCount s n 0) n 7
    | .ended d fin =>
      if d.length ≠ (len + 7) / 8 * 8 then laneCount s n 7
      else if (byteAt fin 5).testBit 0 then laneCount s n 9
      else if crc32c (d.take len) ≠ beAt fin 1 4 then laneCount s n 8
      else heddleInput (laneCount s n 5) { data := d.take len, srcType := 1, srcId := n }

/-- YONOV_FRAME_RX: the blocks received from a YSTART on, descrambled; a YHOLD among them acts as between frames (R300 to
R304). Blocks that do not begin with a YSTART are waited out. -/
def execYonovFrameRx (n : Nat) (y : YonovIn) (s : State) : Host.Outcome State Fault Refusal :=
  .next (if yonovOn s n && (laneAt s n).lock then
    match descrambled y.prior y.blocks with
    | [] => s
    | (sync, b) :: t =>
      if sync ≠ 2 ∨ byteAt b 0 ≠ 0x55 then s
      else
        let (body, hold) := yWalk t [] none
        let s := match hold with
          | some h => setLane s n { laneAt s n with holdRx := h }
          | none => s
        pauseScan (yonovTests n b body s)
  else s)

/-- YIDLE: PEER_RDY, and the link's state (R303). -/
def execYidle (n : Nat) (rdy : Bool) (s : State) : Host.Outcome State Fault Refusal :=
  .next (if yonovOn s n && (laneAt s n).lock then
    let x := laneAt s n
    if rdy then
      let s := setLane s n { x with peerRdy := true, idles := min 128 (x.idles + 1) }
      if 127 ≤ x.idles ∧ x.st = .down then laneGo s n .up else s
    else
      let s := setLane s n { x with peerRdy := false, idles := 0 }
      if x.st = .up then laneGo s n .down else s
  else s)

/-- YIDLE_TIMEOUT: 4,096 blocks without a YIDLE (R303). -/
def execYidleTimeout (n : Nat) (s : State) : Host.Outcome State Fault Refusal :=
  .next (if yonovOn s n && (laneAt s n).st == .up then
    laneGo (setLane s n { laneAt s n with idles := 0 }) n .down
  else s)

/-- Send every queued YMGMT of lane `n` (R301). -/
def sendYmgmt (s : State) (n : Nat) : State :=
  let x := laneAt s n
  x.txFifo.foldl (fun s v => sendBlock s n 2 (ymgmtBlock v)) (setLane s n { x with txFifo := [] })

/-- YIDLE_SEND: a YIDLE when nothing else waits, and at least every 1,024 blocks, between frames only (R301). -/
def execYidleSend (n : Nat) (s : State) : Host.Outcome State Fault Refusal :=
  .next (if yonovOn s n && (laneAt s n).tx.isNone then sendBlock (sendYmgmt s n) n 2 (yidleBlock (laneAt s n).lock) else s)

/-- YHOLD received (R304). -/
def execYhold (n : Nat) (hold : Bool) (s : State) : Host.Outcome State Fault Refusal :=
  .next (if yonovOn s n && (laneAt s n).lock then setLane s n { laneAt s n with holdRx := hold } else s)

/-- YHOLD_REPEAT: while sending HOLD = 1 the YHOLD is repeated (R304). -/
def execYholdRepeat (n : Nat) (s : State) : Host.Outcome State Fault Refusal :=
  .next (if yonovOn s n && (laneAt s n).holdTx then sendBlock s n 2 (yholdBlock true) else s)

/-- YHOLD_TIMEOUT: 8,192 blocks of HOLD = 1 without a further YHOLD (R304). -/
def execYholdTimeout (n : Nat) (s : State) : Host.Outcome State Fault Refusal :=
  .next (if yonovOn s n && (laneAt s n).holdRx then laneCount (setLane s n { laneAt s n with holdRx := false }) n 10 else s)

/-- YMGMT received: 7 bytes, byte 1 highest (R305). -/
def execYmgmt (n payload : Nat) (s : State) : Host.Outcome State Fault Refusal :=
  .next (if yonovOn s n && (laneAt s n).lock then
    let x := laneAt s n
    if x.rxFifo.length < 16 then setLane s n { x with rxFifo := x.rxFifo ++ [payload % 2 ^ 56] } else laneCount s n 12
  else s)

/-- YONOV_FIFO_ERROR: the receive FIFO overflows or underflows (R291). -/
def execYonovFifoError (n : Nat) (s : State) : Host.Outcome State Fault Refusal :=
  .next (if yonovOn s n && (laneAt s n).lock then laneUnlock (laneCount s n 11) n else s)

/-- A write of LANE_YMGMT_TX_HI[n].SEND = 1 (R305). -/
def ymgmtSend (n : Nat) (s : State) : State :=
  let x := laneAt s n
  if x.txFifo.length < 16 then
    setLane s n { x with txFifo := x.txFifo ++ [rdS s (Reg.laneYmgmtTxLo n) * 2 ^ 24 + fldS s (Reg.laneYmgmtTxHi n) 23 0] }
  else s

/-- A read of LANE_YMGMT_RX_LO[n] (R305). -/
def ymgmtRead (n : Nat) (s : State) : State :=
  let x := laneAt s n
  match x.rxFifo with
  | [] => { clrBit s (Reg.laneYmgmtRxHi n) 31 with hostRead := 0 }
  | v :: t =>
    let s := setReg (setLane s n { x with rxFifo := t }) (Reg.laneYmgmtRxHi n) (2 ^ 31 + v % 2 ^ 24)
    { s with hostRead := BitVec.ofNat 32 (v / 2 ^ 24) }

/-! ## PTP on the ports (R156 to R160) -/

/-- Offset of the PTP header of a frame of a PTP shape. -/
def ptpAt (p : Parsed) : Nat := if p.stack = 2 then p.l else p.ip + p.ipLen + 8

/-- One's complement sum of 16-bit words. -/
def ocFold (n : Nat) : Nat :=
  let a := n % 65536 + n / 65536
  a % 65536 + a / 65536

/-- 16-bit words of a byte list. -/
def words16 : List Byte → List Nat
  | a :: b :: t => (a.toNat * 256 + b.toNat) :: words16 t
  | [a] => [a.toNat * 256]
  | [] => []

/-- Replace PTP bytes and bring the UDP checksum up to date incrementally (R160). -/
def ptpPatch (p : Parsed) (d : List Byte) (o : Nat) (new : List Byte) : List Byte :=
  let old := slice d o new.length
  let d' := patch d o new
  let c := p.ip + p.ipLen + 6
  let hc := beAt d c 2
  if p.stack = 2 ∨ (p.stack = 4 ∧ hc = 0) then d'
  else
    let n := (65535 - hc) + sumList ((words16 old).map (65535 - ·)) + sumList (words16 new)
    let v := 65535 - ocFold n
    patch d' c (beBytes 2 (if v = 0 then 65535 else v))

/-- Add `delta` (2^-16 ns) to correctionField, or refuse and count TC_OVF (R160). -/
def corrAdd (s : State) (p : Parsed) (d : List Byte) (delta : Int) : Option (List Byte) × State :=
  let o := ptpAt p + 8
  let v := signed 64 (beAt d o 8)
  if v = 2 ^ 63 - 1 ∨ 2 ^ 63 - 1 < v + delta then (none, count s 3 8)
  else (some (ptpPatch p d o (beBytes 8 (unsigned 64 (v + delta)))), s)

/-- messageType of a PTP frame. -/
def ptpType (p : Parsed) (d : List Byte) : Nat := byteAt d (ptpAt p) % 16

/-- TIME_PORT_ASYM of a port. -/
def portAsym (s : State) (p : Nat) : Int := signed 32 (rd s (Reg.timePortAsym p))

/-- What a MAC writes into a PTP frame as it leaves on MAC `q` (R157 to R159): `raw` and `tod` are its egress instants,
`stamped` whether MAC `q` takes timestamps. -/
def ptpOut (s : State) (f : Frame) (q tod raw : Nat) (stamped : Bool) : List Byte × State :=
  let p := parse s f.data
  if !f.ptpEvent || !timeOn s then (f.data, s)
  else
    let t := ptpType p f.data
    let tc := stamped && f.srcType == 0 && f.tsValid && flag s (Reg.timePortCfg f.srcId) 1 && flag s (Reg.timePortCfg q) 1 && decide (t ≤ 1)
    let (d, s) :=
      if tc then
        match corrAdd s p f.data (todDiff raw f.rawIn / 2 ^ 24) with
        | (some d, s) => (d, count s 3 7)
        | (none, s) => (f.data, s)
      else (f.data, s)
    let (d, s) :=
      if flag s (Reg.timePortCfg q) 2 && t == 1 then
        match corrAdd s p d (-portAsym s q) with
        | (some d, s) => (d, s)
        | (none, s) => (d, s)
      else (d, s)
    if stamped && f.oneStep then (ptpPatch p d (ptpAt p + 34) (beBytes 6 (todSec tod) ++ beBytes 4 (todNs tod)), s) else (d, s)

/-! ## MAC receive (R307, R308, R312, R313) -/

/-- The address filter passes destination `a` on MAC `p` (R308). -/
def addrPass (s : State) (p a : Nat) : Bool :=
  a == 2 ^ 48 - 1 || ((a / 2 ^ 40).testBit 0 && flag s (Reg.macCfg p) 28) || flag s (Reg.macCfg p) 29
    || (List.range 32).any (fun e => sget 0 s.ports.filt (32 * p + e) == 2 ^ 48 + a)

/-- Pause level `t` of MAC `p` for a number of quanta of 512 bit times; 0 releases. -/
def pauseLevel (x : MacU) (now rate t quanta : Nat) : MacU :=
  if quanta = 0 then { x with paused := sdel x.paused t }
  else { x with paused := sins x.paused t (now + (quanta * 512000 + rate - 1) / rate) }

/-- A MAC control frame (R312). -/
def controlFrame (s : State) (p : Nat) (d : List Byte) : State :=
  let op := beAt d 14 2
  let x := macAt s p
  let rate := macRate s p
  match fld s (Reg.macPauseCfg p) 25 24, op with
  | 1, 1 =>
    macCount (setMac s p ((List.range 8).foldl (fun x t => pauseLevel x s.ns rate t (beAt d 16 2)) x)) p 7
  | 2, 0x0101 =>
    let en := fld s (Reg.macPauseCfg p) 23 16
    macCount (setMac s p ((List.range 8).foldl (fun x t =>
      if (beAt d 16 2).testBit t && en.testBit t then pauseLevel x s.ns rate t (beAt d (18 + 2 * t) 2) else x) x)) p 7
  | _, _ => macCount s p 8

/-- A received frame's timestamp and, for Sync, the port's delayAsymmetry, which asks for no timestamp (R155, R157, R159). -/
def stampIn (s : State) (p back : Nat) (d : List Byte) : Frame × State :=
  let f : Frame := { data := d, srcType := 0, srcId := p }
  let ps := parse s d
  let (_, ev) := ptpFlags ps d
  let (d, s) :=
    if timeOn s && ev && flag s (Reg.timePortCfg p) 2 && ptpType ps d == 0 then
      match corrAdd s ps d (portAsym s p) with
      | (some d, s) => (d, s)
      | (none, s) => (d, s)
    else (d, s)
  if !portStamps s p then ({ f with data := d }, s)
  else
    let (tod, raw) := ingressStamp s p back
    ({ f with data := d, tsValid := true, tsNs := todNs tod, tsSec := todSec tod, rawIn := raw }, if ev then count s 3 5 else s)

/-- The tests of R307 before the address filter: the counter of the first that fails. -/
def rxTest (s : State) (p : Nat) (r : RxIn) : Option Nat :=
  if r.mergeErr then some 9
  else if r.codeErr then some 2
  else if !r.fcsOk then some 3
  else if r.data.length < 60 then some 4
  else if fld s (Reg.macCfg p) 13 0 < r.data.length then some 5
  else none

/-- FEC codewords of the lane of MAC `p`. -/
def fecCounts (s : State) (p : Nat) (r : RxIn) : State :=
  countBy (countBy s 12 (14 * macLane p + 3) r.fecCorr) 12 (14 * macLane p + 4) r.fecUncorr

/-- MAC_RX_FRAME: tests, timestamp, Heddle (R307). -/
def execMacRxFrame (p : Nat) (r : RxIn) (s : State) : Host.Outcome State Fault Refusal :=
  .next (if p < 32 ∧ macUp s p = true then
    let s := fecCounts s p r
    match rxTest s p r with
    | some n => macCount s p n
    | none =>
      if beAt r.data 12 2 = 0x8808 then controlFrame s p r.data
      else if !addrPass s p (beAt r.data 0 6) then macCount s p 6
      else
        let s := countBy (macCount s p 0) 11 (16 * p + 1) r.data.length
        let (f, s) := stampIn s p r.back r.data
        pauseScan (heddleInput s f)
  else s)

/-- PAUSE_FRAME_RX: a received PAUSE or PFC frame (R312). -/
def execPauseFrameRx (p : Nat) (data : List Byte) (s : State) : Host.Outcome State Fault Refusal :=
  .next (if p < 32 ∧ macUp s p = true ∧ beAt data 12 2 = 0x8808 then
    match rxTest s p { data := data } with
    | some n => macCount s p n
    | none => controlFrame s p data
  else s)

/-- PAUSE_EXPIRY: the pause time of a level has run out (R312). -/
def execPauseExpiry (p t : Nat) (s : State) : Host.Outcome State Fault Refusal :=
  .next (match (macAt s p).paused.find? (fun e => e.1 == t) with
  | some (_, due) => if due ≤ s.ns ∧ p < 32 ∧ domOn s (macDom p) = true then setMac s p { macAt s p with paused := sdel (macAt s p).paused t } else s
  | none => s)

/-- PAUSE_REPEAT: while a count stays above XON the pause frame is repeated (R313). -/
def execPauseRepeat (p : Nat) (s : State) : Host.Outcome State Fault Refusal :=
  .next (if p < 32 ∧ macUp s p = true then
    let due := (pauseCounts s p).filter (fun e => (macAt s p).xoff.contains e.1 && decide (256 * fld s (Reg.macPauseThr p) 15 0 < e.2))
    sendPause s p (due.map (fun e => (e.1, fld s (Reg.macPauseCfg p) 15 0)))
  else s)

/-- MERGE_VERIFY: Clause 99 verification succeeds (R314). -/
def execMergeVerify (p : Nat) (s : State) : Host.Outcome State Fault Refusal :=
  .next (if p < 32 ∧ macUp s p = true ∧ flag s (Reg.macPreempt p) 31 = true then setMac s p { macAt s p with verified := true } else s)

/-! ## Selections for ports and host rings (R223, R224, R311, R315) -/

/-- The gate's verdict on the head `i` of queue `q` for MAC `p` (R233). -/
def macGate (s : State) (p q : Nat) (i : QItem) : Bool × Bool := gateTest s p (qLevel s q) (charge s q i.frame) (macRate s p)

/-- R223 for MAC `p`: gate and pause; a selection for express levels only where `express`. -/
def macPolicy (p : Nat) (express : Bool) : SelPolicy where
  part s q i := !((macAt s p).paused.any (fun e => e.1 == qLevel s q)) && macGate s p q i == (true, true)
  only s q _ := !express || isExpress s p (qLevel s q)
  gone := circuitGone

/-- The head frames of queue `q` that an open gate of MAC `p` holds back because they do not fit: those whose sojourn exceeds
SOJ_LIMIT are removed, and the one that stays is counted once (R233); at most `n` of them. -/
def holdQueue (p q : Nat) : Nat → State → State
  | 0, s => s
  | n + 1, s =>
    let x := queueAt s q
    match x.items with
    | [] => s
    | i :: t =>
      if macGate s p q i != (true, false) then s
      else
        let s := if i.gateHeld then s else count (setQueue s q { x with items := { i with gateHeld := true } :: t }) 6 11
        if overSojourn s q i then holdQueue p q n (dropHead s q i 6 5) else s

/-- Heads of MAC `p`'s queues that gates hold back. -/
def countHolds (s : State) (p : Nat) : State :=
  (destQueues s (destKey 0 p)).foldl (fun s q => holdQueue p q ((queueAt s q).items.length + 1) s) s

/-- Selvedge source of the unit of MAC `p`, and of lane `n` (R437). -/
def macSource (p : Nat) : Nat := 0x18 + p / 16
def laneSource (n : Nat) : Nat := 0x1A + n / 8

/-- A frame selected for MAC `p` starts behind a pause frame that waits; one that is poisoned, or too long to be sent, is
discarded (R242, R309, R313). -/
def macBegin (s : State) (p q : Nat) (i : QItem) : State :=
  let s := queueLeft (pauseFlush s p) q i.frame
  if framePoisoned s i.frame then frameGone (poisonSeen s (macSource p) i.frame) i.frame
  else if fld s (Reg.macCfg p) 13 0 < i.frame.data.length then frameGone (macCount s p 14) i.frame
  else setMac s p { macAt s p with tx := some { queue := q, level := qLevel s q, frame := i.frame } }

/-- A MAC's padding of short frames (R309). -/
def macPad (d : List Byte) : List Byte := if d.length < 60 then d ++ List.replicate (60 - d.length) 0 else d

/-- Bytes of a frame in transmission that a fragment may end at: at least (1 + ADD_FRAG) × 64 with its check, and what stays
behind fills a final fragment (R314; Clause 99, log entry 86). -/
def cutRange (s : State) (p : Nat) (t : TxFrame) : Nat × Nat :=
  (64 * (1 + fld s (Reg.macPreempt p) 25 24) - 4, (macPad t.frame.data).length - t.sent - 60)

/-- The frame in transmission on MAC `p` may be preempted. -/
def canPreempt (s : State) (p : Nat) (t : TxFrame) : Bool :=
  preemptOn s p && !isExpress s p t.level && decide ((cutRange s p t).1 ≤ (cutRange s p t).2)

/-- The frame in transmission is cut at the first point that Clause 99 permits: how far it had come is a free value. -/
def preempt (s : State) (p : Nat) (t : TxFrame) : State :=
  let (lo, hi) := cutRange s p t
  let (x, s) := draw s
  let k := lo + x % (hi - lo + 1)
  let s := emit s (.fragment p (slice (macPad (frameRead s t.frame)) t.sent k) false)
  setMac s p { macAt s p with tx := none, preempted := some { t with sent := t.sent + k } }

/-- A selection for MAC `p` (R311, R315); `same`: on the core clock of the selection before it. -/
def selectMac (p : Nat) (same : Bool) (s : State) : State :=
  let x := macAt s p
  let d := destKey 0 p
  if !domOn s (macDom p) then s
  else if !macUp s p then
    if flag s (Reg.macCfg p) 27 then
      match reedTake (macPolicy p false) d same s with
      | (some (q, i), s) => frameGone (macCount (queueLeft s q i.frame) p 15) i.frame
      | (none, s) => s
    else s
  else
    let s := countHolds s p
    match x.tx, x.preempted with
    | none, none =>
      match reedTake (macPolicy p false) d same s with
      | (some (q, i), s) => macBegin s p q i
      | (none, s) => s
    | none, some r =>
      match reedTake (macPolicy p true) d same s with
      | (some (q, i), s) => macBegin s p q i
      | (none, s) => setMac s p { macAt s p with tx := some r, preempted := none }
    | some t, none =>
      if canPreempt s p t then
        match reedTake (macPolicy p true) d same s with
        | (some (q, i), s) => macBegin (preempt s p t) p q i
        | (none, s) => s
      else s
    | some _, some _ => s

/-- A selection for Yonov lane `n`: the frame starts behind the YMGMTs that wait, with its YSTART and first data block (R301,
R303, R304). -/
def selectLane (n : Nat) (same : Bool) (s : State) : State :=
  let x := laneAt s n
  if yonovOn s n && x.st == .up && !x.holdRx && x.tx.isNone then
    match reedTake { part := fun _ _ _ => true, only := fun _ _ _ => true, gone := circuitGone } (destKey 1 n) same s with
    | (some (q, i), s) =>
      let s := queueLeft s q i.frame
      if framePoisoned s i.frame then frameGone (poisonSeen s (laneSource n) i.frame) i.frame
      else
        let s := sendBlock (sendYmgmt s n) n 2 (ystartBlock i.frame.data.length)
        let s := sendBlock s n 1 (slice (frameRead s i.frame) 0 8)
        setLane s n { laneAt s n with tx := some i.frame }
    | (none, s) => s
  else s

/-- The Yonov frame in transmission ends: the rest of its data blocks, and YEND (R300, R301). -/
def laneTxEnd (n : Nat) (s : State) : State :=
  match (laneAt s n).tx with
  | none => s
  | some f =>
    let d := frameRead s f
    let s := setLane s n { laneAt s n with tx := none }
    let s := ((dataBlocks 2048 d).drop 1).foldl (fun s b => sendBlock s n 1 b) s
    if framePoisoned s f then
      frameGone (poisonSeen (laneCount (sendBlock s n 2 (yendBlock (crc32c d) true)) n 9) (laneSource n) f) f
    else frameGone (laneCount (sendBlock s n 2 (yendBlock (crc32c d) false)) n 13) f

/-- A selection for host ring `r`: the frame is delivered (R350, R354), or discarded where it is poisoned (R242). -/
def selectRing (r : Nat) (same : Bool) (s : State) : State :=
  match reedTake { part := fun _ _ _ => true, only := fun s _ i => rxFree s r i.frame.data.length, gone := circuitGone } (destKey 3 r) same s with
  | (some (q, i), s) =>
    let s := queueLeft s q i.frame
    if framePoisoned s i.frame then frameGone (poisonSeen s 0x1D i.frame) i.frame
    else frameGone ((rxDeliver s r { i.frame with data := frameRead s i.frame } {}).getD s) i.frame
  | (none, s) => s

/-- REED_SELECT: a MAC (0), a Yonov lane (1) or a host ring (3) can accept a frame; `same`: on the core clock of the selection
before it (R220). Container sections are filled by SECTION_FILL (R229). -/
def execReedSelect (destType destId : Nat) (s : State) (same : Bool := false) : Host.Outcome State Fault Refusal :=
  .next (match destType with
  | 0 => if destId < 32 then pauseScan (selectMac destId same s) else s
  | 1 => if destId < 16 then pauseScan (selectLane destId same s) else s
  | 3 => if destId < 512 then pauseScan (selectRing destId same s) else s
  | _ => s)

/-- The frame in transmission on MAC `p` leaves: whole, as the last of its fragments, or with an invalid FCS where its data was
found poisoned meanwhile (R242, R309, R314). -/
def macSend (s : State) (p : Nat) (t : TxFrame) (d : List Byte) : State :=
  if framePoisoned s t.frame then poisonSeen (macCount (emit s (.frameOut p (d.drop t.sent) true)) p 13) (macSource p) t.frame
  else
    let s := countBy (macCount s p 10) 11 (16 * p + 11) t.frame.data.length
    if t.sent = 0 then emit s (.frameOut p (macPad d) false) else emit s (.fragment p ((macPad d).drop t.sent) true)

/-- A frame finishes transmission on MAC `p` (R155, R157 to R160, R309, R349). -/
def macTxEnd (p back : Nat) (s : State) : State :=
  match (macAt s p).tx with
  | none => s
  | some t =>
    let f := { t.frame with data := frameRead s t.frame }
    let s := setMac s p { macAt s p with tx := none }
    let stamped := portStamps s p
    let (tod, raw) := egressStamp s p back
    let (d, s) := ptpOut s f p tod raw stamped
    let s := if stamped && f.ptpEvent then count s 3 6 else s
    let s := macSend s p t d
    if framePoisoned s t.frame then frameGone (pauseFlush s p) f
    else
      let s := match f.tsReq with
        | none => s
        | some (r, i) =>
          if f.epoch ≠ s.host.epoch then s
          else if stamped then txTs s r i Status.done (todNs tod + todSec tod * 2 ^ 32 + p * 2 ^ 80)
          else
            let (x, s) := draw s
            txTs s r i Status.done (x % 2 ^ 80 + p * 2 ^ 80)
      frameGone (pauseFlush s p) { f with tsReq := none }

/-- MAC_TX_END: a frame finishes transmission on MAC `p`, or on the Yonov lane `p - 32`. `back`: 1/64 time-clock cycles since
the first bit after a MAC frame's delimiter left the pins. -/
def execMacTxEnd (p back : Nat) (s : State) : Host.Outcome State Fault Refusal :=
  .next (if p < 32 then pauseScan (macTxEnd p back s) else if p < 48 then pauseScan (laneTxEnd (p - 32) s) else s)

end Sys2Proof.Machine
end

