-- ==== Sys2Proof/Machine/HostRings.lean ====
section
/-! DEFINITION. Machine/HostRings.lean: doorbells and kicks, descriptor reads, TX sends and segmentation, the ring
commands, MSI-X moderation and the resets of the host function (R316 to R318, R335 to R370, R478). -/

namespace Sys2Proof.Machine

open Sys2Proof

def setHost (s : State) (h : HostIf) : State := { s with host := h }

/-- The terminal may issue requests for its rings: HOST_CTRL.EN in force, Bus Master Enable, not in D3hot, no recovery (R335,
R368, R369). -/
def hostRuns (s : State) : Bool := flag s Reg.hostCtrl 0 && s.host.bme && !s.host.pcie.d3hot && unitOk s 0x1D && unitOk s 0x1E

/-- A ring that host software produces. -/
def isProduced (k : RingKind) : Bool := k == .tx || k == .rx || k == .cmd || k == .shuttle

/-! ## Kicks and doorbell blocks (R341 to R343) -/

/-- Host address of doorbell block `b`. -/
def dbAddr (s : State) (b : Nat) : Nat := rd s Reg.hostDbBaseHi * 2 ^ 32 + fld s Reg.hostDbBaseLo 31 12 * 4096 + 256 * b

/-- Issue the fetches that are wanted and not in flight. -/
def issueFetches (s : State) : State :=
  if hostRuns s then
    (List.range 8).foldl (fun s b =>
      if s.host.again.contains b && !s.host.inFlight.contains b && decide (0 < reqRoom s 0) then
        let s := setHost s { s.host with inFlight := s.host.inFlight ++ [b], again := s.host.again.filter (· != b) }
        emit (count s 14 2) (.doorbellFetch b (dbAddr s b))
      else s) s
  else s

/-- A kick of page `p` (R342). -/
def hostKick (p v : Nat) (s : State) : State :=
  let allowed := fld s (Reg.hostKickMap p) 7 0
  let s := count s 14 0
  let s := if (v % 256) &&& (255 - allowed) = 0 then s else count s 14 1
  let want := bitList 8 ((v % 256) &&& allowed)
  issueFetches (setHost s { s.host with again := s.host.again ++ want.filter (fun b => !s.host.again.contains b) })

/-- Start the read of the next descriptor of ring `r` (R344, R355). -/
def startFetch (s : State) (r : Nat) : State :=
  let x := ringAt s r
  if isProduced x.kind && x.state == .run && x.next != x.db && !x.reading && !x.mism && x.arrived.isNone && hostRuns s
      && decide (0 < reqRoom s 0) then
    emit (count (setRing s r { x with reading := true }) 14 4) (.descriptorFetch r x.next (x.base + 32 * (x.next % 2 ^ x.log2)))
  else s

/-- Read the descriptor at `next` of ring `r` again (R345). -/
def rereadNow (s : State) (r : Nat) : State :=
  let x := ringAt s r
  if x.mism && x.state == .run && hostRuns s && decide (0 < reqRoom s 0) then
    emit (count (setRing s r { x with mism := false, reading := true, retry := x.retry + 1 }) 14 5)
      (.descriptorFetch r x.next (x.base + 32 * (x.next % 2 ^ x.log2)))
  else s

/-- TYPE of a ring's descriptor completions (R353). -/
def doneType : RingKind → Nat
  | .tx => 1
  | .rx => 3
  | .shuttle => 5
  | _ => 4

/-- The Shuttle channel that serves ring `r`; 0 where none does. -/
def servedBy (s : State) (r : Nat) : Nat :=
  ((List.range 16).find? (fun c => flag s (Reg.shuttleChCfg c) 31 && fld s (Reg.shuttleChCfg c) 8 0 == r)).getD 0

/-- Complete SHUTTLE descriptor `i`, whose words are `w`, which has not been started (R384): USER and OP stand, no byte is
processed and none differs. -/
def endShuttle (s : State) (r i w status : Nat) : State :=
  let body := bits w 223 192 * 2 ^ 32 + 0xFFFFFFFF * 2 ^ 64 + servedBy s r * 2 ^ 160
  post (if status = Status.errDma then count s 15 8 else s) r
    ⟨i, i, false, { body := body, index := i, ring := r, status := status, typ := 5, sub := bits w 162 160 }⟩

/-- Complete the descriptors `first` to `last` of ring `r` with a status and nothing else. -/
def endDesc (s : State) (r first last status : Nat) : State :=
  let body := if (ringAt s r).kind = .cmd then s.pick.point else 0
  post s r ⟨first, last, false, { body := body, index := last, ring := r, status := status, typ := doneType (ringAt s r).kind }⟩

/-- The ring stalls after 16 re-reads (R345, R358). -/
def stallRing (s : State) (r : Nat) : State :=
  let x := ringAt s r
  let s := count (setRing s r { x with state := .stalled }) 14 6
  let s := setBit s Reg.hostStat 11
  let s := if flag s Reg.hostStall 31 then s else setReg s Reg.hostStall (2 ^ 31 + r * 2 ^ 16 + x.next)
  let s := raiseEv s 0x1E 0x050 (r * 2 ^ 16 + x.next)
  if flag s Reg.hostEvent 30 then notify s (fld s Reg.hostEvent 8 0) 0x32 (r + x.next * 2 ^ 16) else s

/-- An RX descriptor that keeps the rules of R350. -/
def rxDescOk (w : Nat) : Bool :=
  let size := bits w 78 64
  bits w 5 0 == 0 && !w.testBit 79 && decide (256 ≤ size) && decide (size ≤ 16384) && size % 64 == 0 && bits w 254 80 == 0

/-- Act on a descriptor whose phase matched: index `i`. -/
def dispatch (s : State) (r i w : Nat) (d : DescIn) : State :=
  let x := ringAt s r
  match x.kind with
  | .cmd =>
    let c : CmdDesc := ⟨r, i, w, d.prep⟩
    let s := if cmdOk c && decide (0 < cmdPrepLen c) then emitReads s (cmdAddr c) (cmdPrepLen c) else s
    let s := if prepFailed c then dmaErr s else s
    setHost s { s.host with cmds := s.host.cmds ++ [⟨c, d.late⟩] }
  | .rx =>
    if rxDescOk w then setRing s r { x with posted := x.posted ++ [(i, bits w 63 0, bits w 78 64)] }
    else endDesc s r i i Status.errField
  | .tx | .shuttle => setRing s r { x with chain := x.chain ++ [(i, w)] }
  | _ => s

/-- A descriptor read failed: the completion goes to its index; of a TX send it ends the chain (R368). -/
def failDesc (s : State) (r i : Nat) : State :=
  let s := dmaErr s
  let x := ringAt s r
  if x.kind = .tx then
    let part := (x.chain.reverse.takeWhile (fun e => e.2.testBit 254)).reverse
    let keep := x.chain.take (x.chain.length - part.length)
    endDesc (setRing s r { x with chain := keep }) r ((part.head?.map (·.1)).getD i) i Status.errDma
  else if x.kind = .shuttle then endShuttle s r i 0 Status.errDma
  else endDesc s r i i Status.errDma

/-- The next index, with the parity of the pass (R345, the listing). -/
def advanceRing (x : Ring) : Ring :=
  let n := idxNext x.next
  { x with next := n, retry := 0, arrived := none, parity := if n % 2 ^ x.log2 = 0 then !x.parity else x.parity }

/-- Act on what has arrived for ring `r`, while its CQ has room (R355), and start the next read. -/
def processRing (s : State) (r : Nat) : State :=
  let x := ringAt s r
  match x.arrived with
  | none => startFetch s r
  | some d =>
    if x.state != .run || cqFree s x.cq == 0 then s
    else
      match d.word with
      | none => startFetch (failDesc (setRing s r (advanceRing x)) r x.next) r
      | some w =>
        if w.testBit 255 == x.parity then
          if 16 ≤ x.retry then stallRing (setRing s r { x with arrived := none }) r
          else setRing s r { x with arrived := none, mism := true }
        else startFetch (dispatch (setRing s r (advanceRing x)) r x.next w d) r

/-- Every ring that names CQ `c` goes on. -/
def resumeRings (s : State) (p : Ring → Bool) : State :=
  (s.host.rings.map (·.1)).foldl (fun s r => if p (ringAt s r) then processRing s r else s) s

/-- An INDEX that fails its test (R343). -/
def dbBad (s : State) : State := setBit (count s 14 3) Reg.hostStat 10

/-- A fetched INDEX for ring `r` (R343, R345, R357). -/
def acceptIndex (s : State) (r idx : Nat) : State :=
  let x := ringAt s r
  if x.kind = .cq then
    if x.state != .run then s
    else if idxSub x.done x.db < idxSub idx x.db then dbBad s
    else
      let s := signalCq (setRing s r { x with db := idx, armed := true, unsignalled := idxSub x.done idx }) r
      resumeRings (drainCq s r) (fun y => y.cq == r && isProduced y.kind)
  else if isProduced x.kind && (x.state == .run || x.state == .stalled) then
    let q := idxSub idx x.done
    if 2 ^ x.log2 - 1 < q ∨ q < idxSub x.db x.done then dbBad s
    else if x.state = .stalled then rereadNow (setRing s r { x with db := idx, state := .run, retry := 0, mism := true, reading := false }) r
    else processRing (setRing s r { x with db := idx }) r
  else s

/-- DOORBELL_FETCH_DONE: a block's 256 bytes return; none: the read failed (R342, R343, R368). -/
def execDoorbellFetchDone (block : Nat) (data : Option (List Byte)) (s : State) : Host.Outcome State Fault Refusal :=
  .next (if s.host.inFlight.contains block then
    let s := setHost s { s.host with inFlight := s.host.inFlight.filter (· != block) }
    let s := match data with
      | none => dmaErr s
      | some d => forUpTo 64 s (fun k s => acceptIndex s (64 * block + k) (leAt d (4 * k) 2))
    issueFetches s
  else s)

/-- DESCRIPTOR_READ_DONE: the read of ring `r`'s next descriptor returns (R345). -/
def execDescriptorReadDone (r : Nat) (d : DescIn) (s : State) : Host.Outcome State Fault Refusal :=
  .next (if (ringAt s r).reading then processRing (setRing s r { ringAt s r with reading := false, arrived := some d }) r else s)

/-- DESCRIPTOR_REREAD: 2 µs after a mismatch the descriptor is read again (R345); Bus Master Enable 0 or a stop of all
fetching lets the ring wait without counting (R368). -/
def execDescriptorReread (r : Nat) (s : State) : Host.Outcome State Fault Refusal :=
  .next (rereadNow s r)

/-! ## TX sends (R346 to R349) -/

/-- The oldest complete send of a TX ring: its descriptors up to the first without MORE. -/
def firstSend : List (Nat × Nat) → Option (List (Nat × Nat))
  | [] => none
  | e :: t => if e.2.testBit 254 then (firstSend t).map (e :: ·) else some [e]

/-- A TX descriptor's reserved bits are 0 and its LEN is in range (R346). -/
def txDescOk (w : Nat) : Bool :=
  bits w 95 83 == 0 && bits w 111 110 == 0 && bits w 127 120 == 0 && bits w 159 155 == 0 && bits w 223 160 == 0
    && bits w 248 224 == 0 && decide (1 ≤ bits w 82 64) && decide (bits w 82 64 ≤ 262272)

/-- Bytes of a send. -/
def sendLen (c : List (Nat × Nat)) : Nat := (c.map (fun e => bits e.2 82 64)).foldl (· + ·) 0

/-- The send breaks a rule of R347. -/
def sendBad (c : List (Nat × Nat)) : Bool :=
  let w := (c.head?.map (·.2)).getD 0
  let seg := w.testBit 253
  (!seg && (decide (sendLen c < 14) || decide (16383 < sendLen c))) || decide (32 < c.length)
    || (seg && (w.testBit 252 || w.testBit 251 || w.testBit 250)) || (w.testBit 249 && !w.testBit 250)
    || !c.all (fun e => txDescOk e.2)

/-- Header bytes and L4 offset of a segmented send's template; none where R316 refuses its shape. -/
def segHead (s : State) (d : List Byte) : Option (Nat × Nat) :=
  let p := parse s d
  if p.third then none
  else
    let l4 := p.ip + (if p.stack = 3 ∨ p.stack = 4 then 20 else 40)
    if p.stack = 3 ∨ p.stack = 7 then some (l4 + 4 * (byteAt d (l4 + 12) / 16), l4)
    else if p.stack = 4 ∨ p.stack = 8 then some (l4 + 8, l4) else none

/-- The send ends in ERR_SEG (R316). -/
def segBad (s : State) (d : List Byte) (hdr mss : Nat) : Bool :=
  match segHead s d with
  | none => true
  | some (h, _) => h != hdr || decide (128 < hdr) || decide (mss < 64) || decide (16383 - hdr < mss) || decide (d.length < hdr)
      || decide (262144 < d.length - hdr)

/-- Segments of a payload of `n` bytes. -/
def segCount (n mss : Nat) : Nat := max 1 ((n + mss - 1) / mss)

/-- One's-complement sum of 16-bit words, folded, complemented. -/
def inetSum (l : List Byte) : Nat := 0xFFFF - ocFold (ocFold ((words16 l).foldl (· + ·) 0))

/-- Segment `i` of a send (R317). -/
def segment (s : State) (d : List Byte) (hdr mss i : Nat) : List Byte :=
  let p := parse s d
  let v4 := p.stack == 3 || p.stack == 4
  let tcp := p.stack == 3 || p.stack == 7
  let l4 := ((segHead s d).map (·.2)).getD 0
  let k := segCount (d.length - hdr) mss
  let pay := ((d.drop hdr).drop (i * mss)).take mss
  let h := d.take hdr
  let h := if v4 then
      let h := patch h (p.ip + 2) (beBytes 2 (hdr - p.ip + pay.length))
      let h := patch h (p.ip + 4) (beBytes 2 ((beAt d (p.ip + 4) 2 + i) % 65536))
      let h := patch h (p.ip + 10) (beBytes 2 0)
      patch h (p.ip + 10) (beBytes 2 (inetSum (slice h p.ip 20)))
    else patch h (p.ip + 4) (beBytes 2 (hdr - p.ip - 40 + pay.length))
  let n := hdr - l4 + pay.length
  let pseudo := if v4 then slice h (p.ip + 12) 8 ++ beBytes 2 (if tcp then 6 else 17) ++ beBytes 2 n
    else slice h (p.ip + 8) 32 ++ beBytes 4 n ++ beBytes 4 (if tcp then 6 else 17)
  if tcp then
    let f := byteAt d (l4 + 13)
    let f := if i + 1 = k then f else f &&& 0xF6
    let f := if i = 0 then f else f &&& 0x7F
    let h := patch h (l4 + 4) (beBytes 4 ((beAt d (l4 + 4) 4 + i * mss) % 2 ^ 32))
    let h := patch (patch h (l4 + 13) (beBytes 1 f)) (l4 + 16) (beBytes 2 0)
    patch h (l4 + 16) (beBytes 2 (inetSum (pseudo ++ h.drop l4 ++ pay))) ++ pay
  else
    let h := patch (patch h (l4 + 4) (beBytes 2 n)) (l4 + 6) (beBytes 2 0)
    if v4 && beAt d (l4 + 6) 2 == 0 then h ++ pay
    else
      let c := inetSum (pseudo ++ h.drop l4 ++ pay)
      patch h (l4 + 6) (beBytes 2 (if c = 0 then 0xFFFF else c)) ++ pay

/-- Ask for the data of the oldest send of ring `r`: the read requests of its buffers, of which as many are outstanding as
R367 allows; the rest follow as those return. -/
def startReads (s : State) (r : Nat) : State :=
  let x := ringAt s r
  match firstSend x.chain with
  | none => s
  | some c =>
    if !x.asked && x.kind == .tx && hostRuns s && !sendBad c && decide (0 < reqRoom s 2) then
      let n := sumList (c.map (fun e => readChunks s (bits e.2 82 64)))
      c.foldl (fun s e => emitReads s (bits e.2 63 0) (bits e.2 82 64)) (setRing s r { x with asked := true, reqs := min n (reqRoom s 2) })
    else s

/-- The oldest send of ring `r`, whose descriptors are `c`, is out of the ring's hands. -/
def sendOut (s : State) (r : Nat) (c : List (Nat × Nat)) : State :=
  let x := ringAt s r
  setRing s r { x with chain := x.chain.drop c.length, sent := 0, asked := false, reqs := 0, data := none }

/-- End the oldest send of ring `r`, whose descriptors are `c`. -/
def endSend (s : State) (r : Nat) (c : List (Nat × Nat)) (status bytes : Nat) : State :=
  let first := (c.head?.map (·.1)).getD 0
  let last := (c.getLast?.map (·.1)).getD 0
  post (sendOut s r c) r ⟨first, last, false, { body := bytes, index := last, ring := r, status := status, typ := 1 }⟩

/-- The frame that a send without SEG gives, of `first` to `last` (R346 to R349). -/
def sendFrame (s : State) (r first last w : Nat) (d : List Byte) : Frame :=
  { data := d, srcType := 3, srcId := r, tsReq := if w.testBit 252 then some (r, last) else none, oneStep := w.testBit 251
    direct := if w.testBit 250 then some (bits w 154 144) else none
    upStream := if w.testBit 250 then bits w 143 128 else 0xFFFF, mgmt := w.testBit 249
    sendDone := if w.testBit 250 then some (first, last, d.length) else none, epoch := s.host.epoch }

/-- A send without SEG enters Heddle: TX_DONE then, of a DIRECT send when it is handed to Reed (R348, R349). -/
def sendWhole (s : State) (r : Nat) (c : List (Nat × Nat)) (w : Nat) (d : List Byte) : State :=
  let f := sendFrame s r ((c.head?.map (·.1)).getD 0) ((c.getLast?.map (·.1)).getD 0) w d
  let s := if w.testBit 252 then setRing s r { ringAt s r with stamps := (ringAt s r).stamps + 1 } else s
  heddleInput (if f.direct.isSome then sendOut s r c else endSend s r c Status.done d.length) f

/-- One turn of TX ring `r` for its oldest send, whose bytes, which have been asked for, are `data` (none: a read of them
failed); a segmented send keeps them until its last segment is out. The ring waits while its CQ is full (R355). -/
def txTurn (s : State) (r : Nat) (data : Option (List Byte)) : State :=
  match firstSend (ringAt s r).chain with
  | none => s
  | some c =>
    let x := ringAt s r
    if cqFree s x.cq = 0 then s
    else if sendBad c then endSend s r c Status.errField 0
    else if !x.asked then s
    else
      match x.data.or data with
      | none => endSend (dmaErr s) r c Status.errDma 0
      | some l =>
        let d := slice l 0 (sendLen c)
        let w := (c.head?.map (·.2)).getD 0
        let s := setRing s r { x with reqs := 0, data := some d }
        if w.testBit 253 then
          let hdr := bits w 119 112
          let mss := bits w 109 96
          let i := x.sent
          if segBad s d hdr mss then endSend s r c Status.errSeg 0
          else if !fifoRoom s 1536 then s
          else
            let s := heddleInput s { data := segment s d hdr mss i, srcType := 3, srcId := r }
            if i + 1 = segCount (d.length - hdr) mss then endSend s r c Status.done d.length
            else setRing s r { ringAt s r with sent := i + 1 }
        else sendWhole s r c w d

/-- TX_SEND: one turn of a TX ring (R347 to R349, R316 to R318). -/
def execTxSend (r : Nat) (data : Option (List Byte)) (s : State) : Host.Outcome State Fault Refusal :=
  .next (if (ringAt s r).kind = .tx ∧ hostRuns s = true then txTurn (startReads s r) r data else s)

/-! ## Ring commands (R363, R364, R478) -/

def kindOf (k : Nat) : RingKind := match k with
  | 1 => .tx | 2 => .rx | 3 => .cmd | 4 => .cq | 5 => .shuttle | _ => .off

def kindCode : RingKind → Nat
  | .off => 0 | .tx => 1 | .rx => 2 | .cmd => 3 | .cq => 4 | .shuttle => 5

/-- HOST_RING_STAT.STATE. -/
def ringCode : RingState → Nat
  | .off => 0 | .run => 1 | .stalled => 2 | .stopping => 3

/-- A ring that RING_SETUP or the registers of R365 have configured. -/
def freshRing (kind : RingKind) (log2 base cq vector modCount modTime : Nat) (irqEn : Bool) : Ring :=
  { kind := kind, state := .run, log2 := log2, base := base, cq := cq, vector := vector, modCount := modCount, modTime := modTime
    irqEn := irqEn, armed := kind == .cq }

def cmdNop : CmdDesc → State → CmdRes := fun _ s => .fin Status.done 0 s

/-- RING_SETUP (R34, R363, R364): what makes it ERR_FIELD comes before BUSY, the CQ that R34 refuses included (log entry 47). -/
def cmdRingSetup (d : CmdDesc) (s : State) : CmdRes :=
  let r := bits (cmdP0 d) 8 0
  let k := bits (cmdP0 d) 18 16
  let n := bits (cmdP0 d) 28 24
  if k ≠ 4 ∧ ((ringAt s (bits (cmdP1 d) 8 0)).kind ≠ .cq ∨ sweepOwns s (bits (cmdP1 d) 8 0) = true) then .fin Status.errField 0 s
  else if (ringAt s r).state != .off then .fin Status.busy 0 s
  else if k = 4 then
    .fin Status.done 0 (setRing s r (freshRing .cq n (cmdAddr d) 0 (bits (cmdP2 d) 7 0) (bits (cmdP2 d) 15 8) (bits (cmdP2 d) 25 16) ((cmdP3 d).testBit 0)))
  else .fin Status.done 0 (setRing s r (freshRing (kindOf k) n (cmdAddr d) (bits (cmdP1 d) 8 0) 0 1 0 false))

/-- No descriptor of ring `r` is fetched and not completed, nothing waits, nothing is outstanding (R364). -/
def ringIdle (s : State) (r : Nat) : Bool :=
  let x := ringAt s r
  if x.kind = .cq then x.db == x.done && s.host.rings.all (fun e => e.2.cq != r || e.2.kind == .cq || e.2.waits.isEmpty)
  else x.db == x.done && x.next == x.done && x.waits.isEmpty && x.chain.isEmpty && x.posted.isEmpty && !x.reading && x.arrived.isNone && x.stamps == 0
    && !s.host.cmds.any (fun c => c.desc.ring == r) && !s.host.work.any (fun w => w.ring == r)

/-- RING_RESIZE (R363, R364). -/
def cmdRingResize (d : CmdDesc) (s : State) : CmdRes :=
  let r := bits (cmdP0 d) 8 0
  let n := bits (cmdP0 d) 28 24
  let x := ringAt s r
  if x.state = .off then .fin Status.errField 0 s
  else if x.state = .stopping ∨ r = d.ring ∨ !ringIdle s r then .fin Status.busy 0 s
  else .fin Status.done 0 (setRing s r { x with log2 := n, base := cmdAddr d, db := 0, next := 0, done := 0, parity := false, unsignalled := 0 })

/-- A descriptor of the ring has been fetched, written or not readable, and waits for room in the CQ. -/
def hasArrived (x : Ring) : Bool :=
  match x.arrived with
  | some d => d.word.isNone || (d.word.getD 0).testBit 255 != x.parity
  | none => false

/-- Ring `r` begins to stop (R364): unused buffers, commands not applied and an unfinished chain complete DROPPED_STOP. -/
def stopRing (s : State) (r : Nat) : State :=
  let x := ringAt s r
  let part := (x.chain.reverse.takeWhile (fun e => e.2.testBit 254)).reverse
  let keep := if x.kind = .tx then x.chain.take (x.chain.length - part.length) else x.chain
  let got := x.kind == .cmd && hasArrived x
  let x := if got then advanceRing x else x
  let s := setRing s r { x with state := .stopping, reading := false, mism := false, arrived := none, posted := [], chain := keep }
  let s := x.posted.foldl (fun s b => endDesc s r b.1 b.1 Status.droppedStop) s
  let s := if x.kind = .tx then
      match part.head?, part.getLast? with
      | some a, some b => endDesc s r a.1 b.1 Status.droppedStop
      | _, _ => s
    else s
  let mine := s.host.cmds.filter (fun c => c.desc.ring == r)
  let s := setHost s { s.host with cmds := s.host.cmds.filter (fun c => c.desc.ring != r) }
  let s := mine.foldl (fun s c => cmdPost s r c.desc.index (cmdCode c.desc) s.pick.point Status.droppedStop 0) s
  if got then endDesc s r ((x.next + 65535) % 65536) ((x.next + 65535) % 65536) Status.droppedStop else s

/-- A ring that is not OFF names ring `r` as its CQ. -/
def ringNamed (s : State) (r : Nat) : Bool := s.host.rings.any (fun e => e.2.state != .off && e.2.kind != .cq && e.2.cq == r)

/-- RING_STOP (R364). -/
def cmdRingStop (d : CmdDesc) (s : State) : CmdRes :=
  let r := bits (cmdP0 d) 8 0
  let x := ringAt s r
  match x.state with
    | .off => .fin Status.done 0 s
    | .stopping => .work (setRing s r { x with stops := x.stops ++ [(d.ring, d.index)] })
    | _ =>
      if x.kind = .cq then (if ringNamed s r then .fin Status.busy 0 s else .fin Status.done 0 (setRing s r {}))
      else if r = d.ring then .fin Status.done 0 (stopRing s r)
      else
        let s := stopRing s r
        .work (setRing s r { ringAt s r with stops := [(d.ring, d.index)] })

/-- CQ_MODERATE (R363). -/
def cmdCqModerate (d : CmdDesc) (s : State) : CmdRes :=
  let r := bits (cmdP0 d) 8 0
  let x := ringAt s r
  if x.kind ≠ .cq then .fin Status.errField 0 s
  else .fin Status.done 0 (signalCq (setRing s r { x with vector := bits (cmdP2 d) 7 0, modCount := bits (cmdP2 d) 15 8
                                                          modTime := bits (cmdP2 d) 25 16, irqEn := (cmdP3 d).testBit 0 }) r)

/-- The record of RING_QUERY (R478). -/
def ringRecord (x : Ring) : List Byte :=
  if x.state = .off then List.replicate 32 0
  else
    let cq := x.kind == .cq
    leBytes 1 (kindCode x.kind) ++ leBytes 1 x.log2 ++ leBytes 1 (ringCode x.state) ++ leBytes 1 0 ++ leBytes 2 x.db
      ++ leBytes 2 (if cq then 0 else x.next) ++ leBytes 2 x.done ++ leBytes 2 (if cq then 0 else x.cq) ++ List.replicate 20 0

/-- RING_QUERY (R363, R478). -/
def cmdRingQuery (d : CmdDesc) (s : State) : CmdRes :=
  .fin Status.done 0 (dmaWrite s (cmdAddr d) (ringRecord (ringAt s (bits (cmdP0 d) 8 0))))


def execNop (d : CmdDesc) (s : State) : Host.Outcome State Fault Refusal := .next (cmdRow 0x00 cmdNop d s)
def execRingSetup (d : CmdDesc) (s : State) : Host.Outcome State Fault Refusal := .next (cmdRow 0x01 cmdRingSetup d s)
def execRingResize (d : CmdDesc) (s : State) : Host.Outcome State Fault Refusal := .next (cmdRow 0x02 cmdRingResize d s)
def execRingStop (d : CmdDesc) (s : State) : Host.Outcome State Fault Refusal := .next (cmdRow 0x03 cmdRingStop d s)
def execCqModerate (d : CmdDesc) (s : State) : Host.Outcome State Fault Refusal := .next (cmdRow 0x04 cmdCqModerate d s)
def execRingQuery (d : CmdDesc) (s : State) : Host.Outcome State Fault Refusal := .next (cmdRow 0x05 cmdRingQuery d s)

/-- RING_ENTERS_OFF: the last completion of a STOPPING ring has been posted (R364). -/
def execRingEntersOff (r : Nat) (s : State) : Host.Outcome State Fault Refusal :=
  let x := ringAt s r
  .next (if x.state = .stopping ∧ x.waits.isEmpty = true ∧ x.chain.isEmpty = true ∧ x.next = x.done ∧ x.stamps = 0
      ∧ s.host.work.any (fun w => w.ring == r) = false ∧ s.host.cmds.any (fun c => c.desc.ring == r) = false then
    x.stops.foldl (fun s e => workEnd s e.1 e.2 Status.done 0) (setRing s r {})
  else s)

/-- MSIX_MOD_TIMER: MOD_TIME after the oldest unsignalled entry (R357). -/
def execMsixModTimer (c : Nat) (s : State) : Host.Outcome State Fault Refusal :=
  let x := ringAt s c
  .next (if isCqRun s c && x.irqEn && x.armed && decide (0 < x.unsignalled) && x.modTime != 0 then
    sendMsix (setRing s c { x with armed := false, unsignalled := 0 }) x.vector
  else s)

/-! ## Rings 0 and 1 (R365) -/

/-- Base address from a pair of registers. -/
def baseOf (s : State) (lo hi : Nat) : Nat := rd s hi * 2 ^ 32 + fld s lo 31 12 * 4096

/-- EN of a ring's register is put back, and the write reported (R10, R365). -/
def refuseEn (s : State) (a v : Nat) : State := progErr (setFld s a 31 31 v) 0x1E

/-- The host interface's part of step 2: rings 0 and 1 start and stop with their EN fields; HOST_CTRL.EN lets the rings
go on. `cmd0`, `cq0`, `run0`: HOST_CMD_CFG.EN, HOST_CQ_CFG.EN and HOST_CTRL.EN before this commit point. -/
def hostCommit (cmd0 cq0 run0 : Bool) (s : State) : State :=
  let s :=
    if flag s Reg.hostCqCfg 31 && !cq0 then
      if (ringAt s 1).state = .off then
        setRing s 1 (freshRing .cq (fld s Reg.hostCqCfg 20 16) (baseOf s Reg.hostCqBaseLo Reg.hostCqBaseHi) 0
          (fld s Reg.hostCqCfg 7 0) (fld s Reg.hostCqMod 7 0) (fld s Reg.hostCqMod 25 16) (flag s Reg.hostCqCfg 30))
      else refuseEn s Reg.hostCqCfg 0
    else if !flag s Reg.hostCqCfg 31 && cq0 then
      (if ringNamed s 1 then refuseEn s Reg.hostCqCfg 1 else setRing s 1 {})
    else s
  let s :=
    if flag s Reg.hostCmdCfg 31 && !cmd0 then
      if flag s Reg.hostCqCfg 31 && (ringAt s 0).state == .off then
        setRing s 0 (freshRing .cmd (fld s Reg.hostCmdCfg 20 16) (baseOf s Reg.hostCmdBaseLo Reg.hostCmdBaseHi) 1 0 1 0 false)
      else refuseEn s Reg.hostCmdCfg 0
    else if !flag s Reg.hostCmdCfg 31 && cmd0 && ((ringAt s 0).state == .run || (ringAt s 0).state == .stalled) then stopRing s 0
    else s
  if flag s Reg.hostCtrl 0 && !run0 then resumeRings (issueFetches s) (fun _ => true) else s

/-! ## Configuration space, function resets and Bus Master Enable (R335 to R337, R368, R370) -/

/-- Send the messages whose pending bits no mask holds back any more. -/
def msixRelease (s : State) : State :=
  s.host.msixPending.foldl (fun s v =>
    sendMsix (setHost s { s.host with msixPending := s.host.msixPending.filter (· != v) }) v) s

/-- The words of the configuration header that R335 to R337 state, by offset in bytes: IDs, revision and class, Command with
Bus Master Enable, BAR0 and BAR2 as 64-bit non-prefetchable memory, subsystem IDs. The capabilities' places are those of no
rule; the Device Serial Number reads at the model's offsets 0x104 and 0x108 (log entry 74). -/
def configWord (s : State) (off : Nat) : Nat :=
  match off with
  | 0x00 => 0x96401F43
  | 0x04 => b2n s.host.bme * 4
  | 0x08 => 0x028000B1
  | 0x10 => s.host.pcie.bar0 % 2 ^ 32 / 0x4000000 * 0x4000000 + 4
  | 0x14 => s.host.pcie.bar0 / 2 ^ 32
  | 0x18 => s.host.pcie.bar2 % 2 ^ 32 / 0x4000 * 0x4000 + 4
  | 0x1C => s.host.pcie.bar2 / 2 ^ 32
  | 0x2C => 0x00011F43
  | 0x104 => rd s Reg.actSerialLo
  | 0x108 => rd s Reg.actSerialHi
  | _ => 0

/-- BUS_MASTER_ENABLE: configuration writes over the link, which stands at `width` and `speed`, leave Bus Master Enable `en`
and the rest of the configuration space `cfg` (R335, R337, R368); before READY they are answered with Request Retry Status
(R336). Messages that the function's mask held back are sent as it clears (R357). -/
def execBusMasterEnable (en : Bool) (width speed : Nat) (s : State) (cfg : PcieCfg := {}) : Host.Outcome State Fault Refusal :=
  .next (if s.power.inReset then s
  else if !s.power.ready then emit s .configRetry
  else
    let s := setHost s { s.host with bme := en, linkUp := true, width := width % 8, speed := speed % 16, pcie := cfg }
    let s := setFld s Reg.hostStat 8 0 (b2n en * 256 + 128 + width % 8 * 16 + speed % 16)
    let s := msixRelease s
    if en then
      let s := issueFetches s
      let s := (s.host.rings.map (·.1)).foldl (fun s r => if (ringAt s r).kind = .cq then drainCq s r else s) s
      resumeRings s (fun _ => true)
    else s)

/-- Discard work in flight for host memory without a completion (R370); the commands whose work goes on among it, image
commands too (log entry 78). -/
def dropHostWork (s : State) : State :=
  let s := setHost s { s.host with rings := [], inFlight := [], again := [], cmds := [], work := [] }
  let s := setReed s { s.reed with loading := none }
  let s := setHeddle s { s.heddle with loading := none }
  let s := { s with draft := { s.draft with loading := none } }
  imgStop (setSec s { s.sec with idJob := none })

/-- Every HOST register and every counter of group 14 at its reset value. -/
def resetHostRegs (s : State) : State :=
  let inHost := fun (a : Nat) => a / 0x100000 == 0x0F
  let inCnt := fun (k : Nat) => k / 0x100000 == 14
  { s with stg := skeep (fun a => !inHost a) s.stg, cur := skeep (fun a => !inHost a) s.cur
           cnt := skeep (fun k => !inCnt k) s.cnt, hold := skeep (fun a => !inHost a) s.hold, sat := skeep (fun k => !inCnt k) s.sat }

/-- Function Level Reset, a hot reset, or (`down`) a link-down event (R370), but for Shuttle. -/
def hostFunctionReset (down : Bool) (s : State) : State :=
  let up := s.host.linkUp && !down
  let s := dropHostWork (resetHostRegs s)
  let s := setHost s { s.host with msixTable := [], msixPending := [], bme := false, pcie := {}, aer := 0, epoch := s.host.epoch + 1, linkUp := up, width := if up then s.host.width else 0, speed := if up then s.host.speed else 0 }
  setFld s Reg.hostStat 8 0 (b2n up * 128 + s.host.width % 8 * 16 + s.host.speed % 16)

/-- A write to word `i` of the MSI-X table: a message that its mask held back is sent when the mask clears (R337, R357). -/
def msixWrite (i v : Nat) (s : State) : State :=
  let s := setHost s { s.host with msixTable := sput (msixReset i) s.host.msixTable i (if i % 4 = 0 then v % 2 ^ 32 / 4 * 4 else v % 2 ^ 32) }
  if i % 4 = 3 ∧ v % 2 = 0 ∧ s.host.msixPending.contains (i / 4) then
    sendMsix (setHost s { s.host with msixPending := s.host.msixPending.filter (· != i / 4) }) (i / 4)
  else s

/-- Word `i` of the pending bit array. -/
def msixPba (s : State) (i : Nat) : Nat :=
  ((List.range 32).filter (fun b => s.host.msixPending.contains (32 * i + b))).foldl (fun a b => a + 2 ^ b) 0

/-- The registers of block HOST that follow the rings (R338, R343). -/
def hostRo (s : State) (a : Nat) : Option Nat :=
  let x := ringAt s (fldS s Reg.hostRingSel 8 0)
  if a = Reg.hostRingStat then
    some (ringCode x.state * 2 ^ 29 + kindCode x.kind * 2 ^ 26 + x.log2 * 2 ^ 16 + (if x.kind = .cq then 0 else x.cq))
  else if a = Reg.hostRingIdx then some (x.db * 2 ^ 16 + x.done)
  else none

/-! ## Recovery of HOSTIF or HOSTCTL (R369) -/

/-- A completion that waits: of an RX frame it has not been written, so its buffers are covered by one DROPPED_FAULT
completion with BUFS counting them; any other keeps its status (R369). -/
def faultWait (k : RingKind) (w : RingWait) : RingWait :=
  if k == .rx && w.entry.status == 0 then
    { w with entry := { w.entry with status := Status.droppedFault, body := bits w.entry.body 102 96 * 2 ^ 96 } }
  else w

/-- Complete every descriptor fetched and not completed with DROPPED_FAULT, in index order; works go on. -/
def dropFetched (s : State) (r : Nat) : State :=
  let x := ringAt s r
  if !isProduced x.kind then s
  else
    let got := hasArrived x
    let i := x.next
    let d := x.arrived
    let x : Ring := { (if got then advanceRing x else x) with waits := x.waits.map (faultWait x.kind) }
    let s := setRing s r { x with reading := false, mism := false, retry := 0, arrived := none, posted := [], chain := [], sent := 0, asked := false, reqs := 0, data := none }
    let s := x.posted.foldl (fun s b => endDesc s r b.1 b.1 Status.droppedFault) s
    let s := if x.kind = .tx then
        let rec sends : Nat → List (Nat × Nat) → State → State
          | 0, _, s => s
          | n + 1, l, s =>
            let c := (firstSend l).getD l
            match c.head?, c.getLast? with
            | some a, some b => sends n (l.drop c.length) (endDesc s r a.1 b.1 Status.droppedFault)
            | _, _ => s
        sends x.chain.length x.chain s
      else x.chain.foldl (fun s e => endShuttle s r e.1 e.2 Status.droppedFault) s
    let s := if !got then s else if x.kind = .shuttle then endShuttle s r i ((d.bind (·.word)).getD 0) Status.droppedFault
      else endDesc s r i i Status.droppedFault
    let mine := s.host.cmds.filter (fun c => c.desc.ring == r)
    let s := setHost s { s.host with cmds := s.host.cmds.filter (fun c => c.desc.ring != r) }
    mine.foldl (fun s c => cmdPost s r c.desc.index (cmdCode c.desc) s.pick.point Status.droppedFault 0) s

/-- Steps 1 to 3 of R369: every ring's fetched descriptors complete, and every doorbell block is fetched again. -/
def hostRecover (s : State) : State :=
  let s := (s.host.rings.map (·.1)).foldl dropFetched s
  setHost s { s.host with inFlight := [], again := List.range 8 }

/-- Step 4 of R369: the rings go on. -/
def hostResume (s : State) : State := resumeRings (issueFetches s) (fun _ => true)

end Sys2Proof.Machine
end

