-- ==== Sys2Proof/Machine/Shuttle.lean ====
section
/-! DEFINITION. Machine/Shuttle.lean: the Shuttle DMA engine: channels, descriptors, circular windows, the burst arbiter,
completions (13_shuttle.md). -/

namespace Sys2Proof.Machine

open Sys2Proof

def chanAt (s : State) (c : Nat) : ShChan := sget {} s.shuttle.chans c
def setChan (s : State) (c : Nat) (x : ShChan) : State := { s with shuttle := { s.shuttle with chans := sput {} s.shuttle.chans c x } }

/-! ## Descriptor fields (R373) -/

def shSrc (w : Nat) : Nat := bits w 63 0
def shDst (w : Nat) : Nat := bits w 127 64
def shLen (w : Nat) : Nat := bits w 159 128
def shOp (w : Nat) : Nat := bits w 162 160
def shSpace (w : Nat) (d : Bool) : Nat := if d then bits w 167 166 else bits w 165 164
def shCirc (w : Nat) (d : Bool) : Bool := w.testBit (if d then 169 else 168)
def shWinLog (w : Nat) (d : Bool) : Nat := if d then bits w 188 184 else bits w 180 176
def shBase (w : Nat) (d : Bool) : Nat := if d then shDst w else shSrc w

/-- The descriptor reads a source. -/
def shHasSrc (w : Nat) : Bool := shOp w != 1

/-- The range of a side that the tests use: linear, or the whole window (R374, R377). -/
def shRange (w : Nat) (d : Bool) : Nat × Nat :=
  (shBase w d, shBase w d + (if shCirc w d then 2 ^ shWinLog w d else shLen w))

/-- Two ranges share a byte. -/
def overlap (a b : Nat × Nat) : Bool := decide (a.1 < b.2) && decide (b.1 < a.2)

/-- Order 1: reserved values and bits, window sizes, a circular side over the other side. -/
def shFieldBad (w : Nat) : Bool :=
  decide (2 < shOp w) || w.testBit 163 || decide (1 < shSpace w false) || decide (1 < shSpace w true) || bits w 175 170 != 0
    || bits w 183 181 != 0 || bits w 191 189 != 0 || bits w 254 224 != 0
    || (shCirc w false && (decide (shWinLog w false < 12) || decide (30 < shWinLog w false)))
    || (shCirc w true && (decide (shWinLog w true < 12) || decide (30 < shWinLog w true)))
    || (shOp w == 1 && (shSpace w false != 0 || shCirc w false || shWinLog w false != 0))
    || (shHasSrc w && (shCirc w false || shCirc w true) && shSpace w false == shSpace w true && overlap (shRange w false) (shRange w true))

/-- Order 2: length and addresses. -/
def shAlignBad (w : Nat) : Bool :=
  shLen w == 0 || shLen w % 64 != 0 || shDst w % 64 != 0 || (shHasSrc w && shSrc w % 64 != 0)
    || (shCirc w true && shDst w % 4096 != 0) || (shCirc w false && shSrc w % 4096 != 0)

/-- The DRAM size in force in bytes (R473). -/
def dramBytes (s : State) : Nat :=
  (if fld s Reg.dramStat 31 30 = 2 then dramMib s else dramSizeOf (fld s Reg.dramCfg 2 1)) * 0x100000

/-- A range that DRAM does not offer to Shuttle. -/
def dramRangeBad (s : State) (r : Nat × Nat) : Bool :=
  decide (dramBytes s < r.2)
    || (flag s Reg.heddleFlowCtrl 0 && (overlap r (flowBase s false, flowBase s false + 0x20000000) || overlap r (flowBase s true, flowBase s true + 0x20000000)))

/-- Side `d` is used and lies in DRAM. -/
def inDram (w : Nat) (d : Bool) : Bool := (d || shHasSrc w) && shSpace w d == 1

/-- The status of the first test that fails (R374, R385). -/
def shTest (s : State) (w : Nat) : Option Nat :=
  if shFieldBad w then some Status.errField
  else if shAlignBad w then some 0x40
  else if (inDram w false && dramRangeBad s (shRange w false)) || (inDram w true && dramRangeBad s (shRange w true)) then some 0x42
  else if (inDram w false || inDram w true) && !domOn s 13 then some Status.busy
  else none

/-! ## Completion (R384, R385) -/

/-- A linear copy within one space whose ranges overlap, from the top down (R376). -/
def shDescending (w : Nat) : Bool :=
  shOp w == 0 && !shCirc w false && !shCirc w true && shSpace w false == shSpace w true
    && overlap (shRange w false) (shRange w true) && decide (shSrc w ≤ shDst w)

/-- Position that the completion reports for a side. -/
def shPos (w : Nat) (d : Bool) (k : Option ShWin) : Nat :=
  match k with
  | some x => if shCirc w d && x.base == shBase w d then x.pos else 0
  | none => 0

/-- The counter of a completion. -/
def shCounter (s : State) (op status : Nat) : State :=
  match status with
  | 0x00 => count s 15 0
  | 0x40 => count s 15 5
  | 0x41 => if op = 2 then count s 15 4 else s
  | 0x42 => count s 15 6
  | 0x01 | 0x02 => count s 15 7
  | 0x03 => count s 15 8
  | 0x43 => count s 15 9
  | 0x44 => count s 15 10
  | _ => s

/-- Complete descriptor `i` of ring `r` on channel `c`. -/
def shComplete (s : State) (c r i w status bytes : Nat) (mism : Option Nat) : State :=
  let x := chanAt s c
  let body := bytes % 2 ^ 32 + bits w 223 192 * 2 ^ 32 + mism.getD 0xFFFFFFFF * 2 ^ 64 + shPos w false x.src * 2 ^ 96
    + shPos w true x.dst * 2 ^ 128 + c * 2 ^ 160 + b2n (shDescending w) * 2 ^ 168
  post (shCounter s (shOp w) status) r
    ⟨i, i, false, { body := body, index := i, ring := r, status := status, typ := 5, sub := shOp w }⟩

/-! ## Starting a descriptor (R371, R372, R378) -/

/-- The ring that channel `c` names. -/
def chanRing (s : State) (c : Nat) : Nat := fld s (Reg.shuttleChCfg c) 8 0

/-- Channel `c` serves its ring (R371, R445, R449). -/
def chanServes (s : State) (c : Nat) : Bool :=
  flag s Reg.shuttleCtrl 0 && flag s (Reg.shuttleChCfg c) 31 && (chanAt s c).live && unitOk s 0x1F && !s.selvedge.fatal

/-- The window of a side as a descriptor finds or opens it (R378). -/
def openWin (w : Nat) (d : Bool) (k : Option ShWin) : Option ShWin :=
  if shCirc w d then
    match k with
    | some x =>
      if x.base = shBase w d then some { x with pend := if x.log2 = shWinLog w d then none else some (shWinLog w d) }
      else some ⟨shBase w d, shWinLog w d, none, 0⟩
    | none => some ⟨shBase w d, shWinLog w d, none, 0⟩
  else k

/-- Complete descriptors of reserved OP at the head of the ring that channel `c` serves, at most `n` of them. -/
def shSkim : Nat → State → Nat → State
  | 0, s, _ => s
  | n + 1, s, c =>
    let r := chanRing s c
    let x := ringAt s r
    match x.chain with
    | (i, w) :: t =>
      if chanServes s c && (chanAt s c).job.isNone && x.kind == .shuttle && decide (2 < shOp w) then
        shSkim n (shComplete (setRing s r { x with chain := t }) c r i w Status.errField 0 none) c
      else s
    | [] => s

/-- Start the oldest descriptor of the ring of channel `c`, if its OP is `op`. -/
def shStart (c op : Nat) (s : State) : State :=
  let s := shSkim ((ringAt s (chanRing s c)).chain.length) s c
  let r := chanRing s c
  let x := ringAt s r
  let k := chanAt s c
  if !(decide (c < 16) && chanServes s c && k.job.isNone && x.kind == .shuttle && decide (0 < cqFree s x.cq)) then s
  else
    match x.chain with
    | [] => s
    | (i, w) :: t =>
      if shOp w ≠ op then s
      else
        let s := setRing s r { x with chain := t }
        let k := if k.winReset then { k with src := none, dst := none, winReset := false } else k
        match shTest s w with
        | some st => shComplete (setChan s c k) c r i w st 0 none
        | none => setChan s c { k with job := some { ring := r, index := i, word := w }, src := openWin w false k.src, dst := openWin w true k.dst }

/-- COPY, FILL and COMPARE: channel `c` starts its next descriptor (R374, R375). -/
def execCopy (c : Nat) (s : State) : Host.Outcome State Fault Refusal := .next (shStart c 0 s)
def execFill (c : Nat) (s : State) : Host.Outcome State Fault Refusal := .next (shStart c 1 s)
def execCompare (c : Nat) (s : State) : Host.Outcome State Fault Refusal := .next (shStart c 2 s)

/-! ## Bursts (R375 to R382) -/

/-- The address at which side `d` of a job stands (ascending), and the bytes up to its next boundary. -/
def shSide (j : ShJob) (d : Bool) (k : Option ShWin) : Nat × Nat :=
  match shCirc j.word d, k with
  | true, some x => (x.base + x.pos, min (4096 - (x.base + x.pos) % 4096) (2 ^ x.log2 - x.pos))
  | _, _ =>
    let a := shBase j.word d + j.bytes
    (a, 4096 - a % 4096)

/-- Bytes that a descending side may move: down to its next boundary. -/
def shDown (e : Nat) : Nat := if e % 4096 = 0 then 4096 else e % 4096

/-- Size of the next burst of a job, and the addresses of source and destination. -/
def shBurst (j : ShJob) (x : ShChan) : Nat × Nat × Nat :=
  let w := j.word
  let left := shLen w - j.bytes
  if shDescending w then
    let n := min left (min (shDown (shSrc w + left)) (shDown (shDst w + left)))
    (n, shSrc w + left - n, shDst w + left - n)
  else
    let a := shSide j false x.src
    let b := shSide j true x.dst
    (min left (if shHasSrc w then min a.2 b.2 else b.2), a.1, b.1)

/-- A burst of the descriptor reads host memory. -/
def readsHost (w : Nat) : Bool := (shHasSrc w && shSpace w false == 0) || (shOp w == 2 && shSpace w true == 0)

/-- Channel `c` is ready for a burst: a job that has not ended, on memories that can be reached, and room for its reads of host
memory within HOST_READ_QUOTA.SHUTTLE (R367, R380). -/
def chanReady (s : State) (c : Nat) : Bool :=
  let x := chanAt s c
  chanServes s c &&
    (match x.job with
    | none => false
    | some j =>
      j.status.isNone
        && (!(inDram j.word false || inDram j.word true) || (domOn s 13 && fld s Reg.dramStat 31 30 == 2 && unitOk s 0x0E))
        && ((inDram j.word true && (inDram j.word false || !shHasSrc j.word)) || hostRuns s)
        && (!readsHost j.word || decide (0 < reqRoom s 3)))

/-- The channel that the arbiter gives the next burst to (R379). -/
def shPick (s : State) : Option Nat :=
  let ready := (List.range 16).filter (chanReady s)
  match ready.find? (fun c => decide (64 ≤ (chanAt s c).wait)) with
  | some c => some c
  | none =>
    let prio := fun c => fld s (Reg.shuttleChCfg c) 17 16
    let top := (ready.map prio).foldl max 0
    let best := ready.filter (fun c => prio c == top)
    match best.find? (fun c => decide (s.shuttle.rr < c)) with
    | some c => some c
    | none => best.head?

/-- Move a window on by `n` bytes: the window and whether it wrapped (R378). -/
def winMove (x : ShWin) (n : Nat) : ShWin × Bool :=
  if x.pos + n = 2 ^ x.log2 then ({ x with pos := 0, log2 := x.pend.getD x.log2, pend := none }, true)
  else ({ x with pos := x.pos + n }, false)

/-- Move a side's window, if the side is circular. -/
def sideMove (s : State) (w : Nat) (d : Bool) (k : Option ShWin) (n : Nat) : Option ShWin × State :=
  match shCirc w d, k with
  | true, some x =>
    let r := winMove x n
    (some r.1, if r.2 then count s 15 11 else s)
  | _, _ => (k, s)

/-- End the job of channel `c` with a status; its completion follows. -/
def jobEnd (s : State) (c : Nat) (status : Nat) : State :=
  let x := chanAt s c
  match x.job with
  | some j => if j.status.isSome then s else setChan s c { x with job := some { j with status := some status } }
  | none => s

/-- Index of the first byte in which two lists differ. -/
def firstDiff (a b : List Byte) : Option Nat := (List.range (max a.length b.length)).find? (fun i => a.getD i 0 != b.getD i 0)

/-- Data read for a side: DRAM, or the host's bytes; none where the host read failed. -/
def sideRead (s : State) (w : Nat) (d : Bool) (a n : Nat) (hostData : Option (List Byte)) : Option (List Byte) :=
  if shSpace w d = 1 then some (dramRead s a n) else hostData.map (fun l => slice l 0 n)

/-- Data written to the destination. -/
def sideWrite (s : State) (w a : Nat) (l : List Byte) : State := if shSpace w true = 1 then dramWrite s a l else dmaWrite s a l

/-- The `n` bytes `l` of a burst's result go to address `d`, counted (R379). -/
def burstStore (s : State) (w d n : Nat) (l : List Byte) : State :=
  match shOp w with
  | 0 => countBy (sideWrite s w d l) 15 1 n
  | 1 => countBy (sideWrite s w d ((List.range n).map (fun i => BitVec.ofNat 8 (shSrc w / 256 ^ ((d + i) % 8))))) 15 2 n
  | _ => countBy s 15 3 n

/-- The descriptor after a burst of `n` bytes whose sides held `sd` and `dd` (R379, R384). -/
def burstJob (j : ShJob) (n : Nat) (sd dd : List Byte) : ShJob :=
  let j := if shOp j.word = 2 ∧ j.mism.isNone then { j with mism := (firstDiff sd dd).map (· + j.bytes) } else j
  let j := { j with bytes := j.bytes + n }
  if j.bytes = shLen j.word then { j with status := some (if j.mism.isSome then 0x41 else Status.done) } else j

/-- A burst of `n` bytes at address `d` whose sides held `sd` and `dd`. -/
def burstMove (s : State) (c : Nat) (x : ShChan) (j : ShJob) (n d : Nat) (sd dd : List Byte) : State :=
  let s := burstStore s j.word d n sd
  let (sk, s) := sideMove s j.word false x.src n
  let (dk, s) := sideMove s j.word true x.dst n
  setChan s c { chanAt s c with job := some (burstJob j n sd dd), src := sk, dst := dk }

/-- The poisoned DRAM address that a burst reads, if it reads it (R381). -/
def burstHit (w n a d : Nat) : Option Nat → Bool
  | none => false
  | some e => (inDram w false && decide (a ≤ e) && decide (e < a + n)) || (shOp w == 2 && inDram w true && decide (d ≤ e) && decide (e < d + n))

/-- One burst of channel `c`. -/
def runBurst (s : State) (c : Nat) (b : BurstIn) : State :=
  let x := chanAt s c
  match x.job with
  | none => s
  | some j =>
    let w := j.word
    let (n, a, d) := shBurst j x
    if burstHit w n a d b.memErr then
      jobEnd (raiseRoot s 0x1F 0x012 (b.memErr.getD 0 / 64 * 64 % 2 ^ 32) 0x0E 0x011) c 0x43
    else
      let s := if shHasSrc w && shSpace w false == 0 then emitReads s a n else s
      let s := if shOp w == 2 && shSpace w true == 0 then emitReads s d n else s
      let sd := if shHasSrc w then sideRead s w false a n b.src else some []
      let dd := if shOp w = 2 then sideRead s w true d n b.dst else some []
      match sd, dd with
      | some sd, some dd => burstMove s c x j n d sd dd
      | _, _ => jobEnd (dmaErr s) c Status.errDma

/-- SHUTTLE_BURST: the arbiter gives the next burst to a ready channel (R379 to R381). -/
def execShuttleBurst (b : BurstIn) (s : State) : Host.Outcome State Fault Refusal :=
  .next (match shPick s with
  | none => s
  | some c =>
    let ready := (List.range 16).filter (chanReady s)
    let s := forUpTo 16 s (fun k s => setChan s k { chanAt s k with wait := if k ≠ c ∧ ready.contains k then (chanAt s k).wait + 1 else 0 })
    runBurst { s with shuttle := { s.shuttle with rr := c } } c b)

/-- Post the completion of an ended job and free the channel. -/
def jobPost (s : State) (c : Nat) : State :=
  let x := chanAt s c
  match x.job with
  | some j =>
    match j.status with
    | some st => setChan (shComplete s c j.ring j.index j.word st j.bytes j.mism) c { x with job := none }
    | none => s
  | none => s

/-- SHUTTLE_DESC_DONE: channel `c`'s descriptor has ended (R384). -/
def execShuttleDescDone (c : Nat) (s : State) : Host.Outcome State Fault Refusal :=
  .next (if c < 16 then
    let s := jobPost s c
    shSkim ((ringAt s (chanRing s c)).chain.length) s c
  else s)

/-- A write of ABORT (R382). -/
def shAbort (c : Nat) (s : State) : State := jobEnd s c 0x44

/-- A write of WIN_RESET (R378). -/
def shWinReset (c : Nat) (s : State) : State :=
  let x := chanAt s c
  setChan s c (if x.job.isSome then { x with winReset := true } else { x with src := none, dst := none })

/-- Step 2: channels whose EN came into force start, or are refused (R371). `old`: SHUTTLE_CH_CFG before this commit point. -/
def shuttleCommit (old : Nat → Nat) (s : State) : State :=
  forUpTo 16 s (fun c s =>
    let now := rd s (Reg.shuttleChCfg c)
    let r := chanRing s c
    if !now.testBit 31 then (if (chanAt s c).live then setChan s c { chanAt s c with live := false } else s)
    else if (old c).testBit 31 && bits (old c) 8 0 == r then s
    else if (ringAt s r).kind != .shuttle
        || (List.range 16).any (fun k => k != c && flag s (Reg.shuttleChCfg k) 31 && chanRing s k == r) then
      progErr (setBit (setChan s c { chanAt s c with live := false }) Reg.shuttleStat 16) 0x1F
    else setChan s c { chanAt s c with live := true })

/-- Recovery of Shuttle (R383). -/
def shuttleRecover (s : State) : State :=
  forUpTo 16 s (fun c s =>
    let s := match (chanAt s c).job with
      | some j => shComplete s c j.ring j.index j.word Status.droppedFault j.bytes j.mism
      | none => s
    let s := setChan s c { chanAt s c with job := none, src := none, dst := none, winReset := false }
    let r := chanRing s c
    let x := ringAt s r
    if (chanAt s c).live && x.kind == .shuttle then
      x.chain.foldl (fun s e => shComplete s c r e.1 e.2 Status.droppedFault 0 none) (setRing s r { x with chain := [] })
    else s)

/-- The host function's resets end every descriptor in progress without a completion (R370). -/
def shuttleDrop (s : State) : State := forUpTo 16 s (fun c s => setChan s c { chanAt s c with job := none })

/-- HOST_FUNCTION_RESET: Function Level Reset, a hot reset, or (`down`) a link-down event (R370). -/
def execHostFunctionReset (down : Bool) (s : State) : Host.Outcome State Fault Refusal :=
  .next (shuttleDrop (hostFunctionReset down s))

/-- Status registers of Shuttle. -/
def shuttleRo (s : State) (a : Nat) : Option Nat :=
  let pos := fun (k : Option ShWin) => (k.map (fun x => x.pos / 64)).getD 0
  if a = Reg.shuttleStat then
    some (rdS s a / 65536 * 65536 + ((List.range 16).filter (fun c => (chanAt s c).job.isSome)).foldl (fun v c => v + 2 ^ c) 0)
  else if Reg.shuttleChStat 0 ≤ a ∧ a ≤ Reg.shuttleChStat 15 then
    let c := (a - Reg.shuttleChStat 0) / 4
    let x := chanAt s c
    let r := ringAt s (chanRing s c)
    let idx := match x.job, r.chain with
      | some j, _ => j.index
      | none, e :: _ => e.1
      | none, [] => r.next
    some ((if !(flag s Reg.shuttleCtrl 0 && x.live) then 0 else if x.job.isSome then 2 else 1) * 2 ^ 30 + idx)
  else if Reg.shuttleChSpos 0 ≤ a ∧ a ≤ Reg.shuttleChSpos 15 then some (pos (chanAt s ((a - Reg.shuttleChSpos 0) / 4)).src)
  else if Reg.shuttleChDpos 0 ≤ a ∧ a ≤ Reg.shuttleChDpos 15 then some (pos (chanAt s ((a - Reg.shuttleChDpos 0) / 4)).dst)
  else none

end Sys2Proof.Machine
end

