-- ==== Sys2Proof/Machine/SkeinCode.lean ====
section
/-! DEFINITION. Machine/SkeinCode.lean: the instruction words of a Skein core (R395) and their decoding, the address
update under Mn (R393), and arithmetic on accumulators (R391, R392, R395). -/

namespace Sys2Proof.Machine

open Sys2Proof

/-- A decoded instruction; MACX by its K, AOP and DOP by their sub-op. -/
inductive SkInstr where
  | nop
  /-- MACX: K, accumulator, p, q, LD, r (0 to 7), s (0 to 7 for D8 to D15), i, mod i, j (0 to 3 for X4 to X7), mod j. -/
  | macx (k a p q : Nat) (ld : Bool) (r s i mi j mj : Nat)
  | ftap (sub : Bool) (a p q i mi j mj : Nat)
  | aop (op a r n : Nat)
  | dop (op d s n : Nat)
  | ld (r n md : Nat)
  | st (r n md : Nat)
  | ldi (r imm : Nat)
  | addx (n inc : Nat)
  | ldx (n adr : Nat)
  | ldm (n v : Nat)
  | mvs (r k : Nat)
  | msv (r k : Nat)
  | trd (r adr : Nat)
  | twr (r adr : Nat)
  | br (cond tgt : Nat)
  | call (tgt : Nat)
  | ret
  | rti
  /-- REP: block length L, and the count or the D register that holds it. -/
  | rep (len : Nat) (count : Nat) (reg : Bool)
  | wait
  | halt
deriving DecidableEq, Repr

/-- Decode an instruction word; none for a reserved opcode, a reserved sub-op, or a bit shown as 0 that is not (R395). A
reserved BR condition counts as reserved (DEDUCED, log entry 40). -/
def skDecode (w : Nat) : Option SkInstr :=
  let ok (b : Bool) (i : SkInstr) : Option SkInstr := if b then some i else none
  match bits w 31 26 with
  | 0x00 => ok (bits w 25 0 == 0) .nop
  | 0x04 => ok (bits w 25 24 != 3) (.macx (bits w 25 24) (bits w 23 23) (bits w 22 19) (bits w 18 15) (w.testBit 14)
      (bits w 13 11) (bits w 10 8) (bits w 7 6) (bits w 5 4) (bits w 3 2) (bits w 1 0))
  | 0x05 => ok (bits w 7 0 == 0) (.ftap (w.testBit 25) (bits w 24 24) (bits w 23 20) (bits w 19 16) (bits w 15 14) (bits w 13 12)
      (bits w 11 10) (bits w 9 8))
  | 0x06 => ok (bits w 16 5 == 0 && decide (bits w 25 22 ≤ 10)) (.aop (bits w 25 22) (bits w 21 21) (bits w 20 17) (bits w 4 0))
  | 0x07 => ok (bits w 13 4 == 0 && decide (bits w 25 22 ≤ 8)) (.dop (bits w 25 22) (bits w 21 18) (bits w 17 14) (bits w 3 0))
  | 0x08 => ok (bits w 16 0 == 0) (.ld (bits w 25 22) (bits w 21 19) (bits w 18 17))
  | 0x09 => ok (bits w 16 0 == 0) (.st (bits w 25 22) (bits w 21 19) (bits w 18 17))
  | 0x0A => ok (bits w 21 16 == 0) (.ldi (bits w 25 22) (bits w 15 0))
  | 0x0C => ok (bits w 22 14 == 0) (.addx (bits w 25 23) (bits w 13 0))
  | 0x0D => ok (bits w 22 14 == 0) (.ldx (bits w 25 23) (bits w 13 0))
  | 0x0E => ok (bits w 22 16 == 0) (.ldm (bits w 25 23) (bits w 15 0))
  | 0x10 => ok (bits w 21 5 == 0) (.mvs (bits w 25 22) (bits w 4 0))
  | 0x11 => ok (bits w 21 5 == 0) (.msv (bits w 25 22) (bits w 4 0))
  | 0x14 => ok (bits w 21 8 == 0) (.trd (bits w 25 22) (bits w 7 0))
  | 0x15 => ok (bits w 21 8 == 0) (.twr (bits w 25 22) (bits w 7 0))
  | 0x18 => ok (bits w 21 14 == 0 && decide (bits w 25 22 ≤ 6)) (.br (bits w 25 22) (bits w 13 0))
  | 0x19 => ok (bits w 25 14 == 0) (.call (bits w 13 0))
  | 0x1A => ok (bits w 25 0 == 0) .ret
  | 0x1B => ok (bits w 25 0 == 0) .rti
  | 0x1C => ok (!w.testBit 24 && (!w.testBit 25 || bits w 15 4 == 0)) (.rep (bits w 23 16 + 1) (bits w 15 0) (w.testBit 25))
  | 0x3E => ok (bits w 25 0 == 0) .wait
  | 0x3F => ok (bits w 25 0 == 0) .halt
  | _ => none

/-- Instructions that may stand neither in a delay slot nor last in a block (R396, R397). -/
def SkInstr.isControl : SkInstr → Bool
  | .br _ _ | .call _ | .ret | .rti | .rep _ _ _ | .wait | .halt => true
  | _ => false

/-! ## Address update (R393) -/

/-- The low `k` bits of a number, reversed. -/
def revBits (k x : Nat) : Nat := (List.range k).foldl (fun v i => v + b2n (x.testBit i) * 2 ^ (k - 1 - i)) 0

/-- The smallest `k` with 2^k not below `l` (`l` at most 16,384). -/
def ceilLog (l : Nat) : Nat := ((List.range 15).find? (fun k => decide (l ≤ 2 ^ k))).getD 14

/-- Xn after an update by `i` under the mode `m`; none for a reserved mode (R393). -/
def skUpdate (x m : Nat) (i : Int) : Option Nat :=
  if m = 0 then some (unsigned 14 ((x : Int) + i))
  else if m ≤ 16383 then
    let l := m + 1
    let b := x / 2 ^ ceilLog l * 2 ^ ceilLog l
    let o : Int := ((x - b : Nat) : Int) + i
    let o := if (l : Int) ≤ o then o - l else if o < 0 then o + l else o
    some (unsigned 14 ((b : Int) + o))
  else if 0x8001 ≤ m ∧ m ≤ 0x800E then
    let k := m - 0x8000
    some (x / 2 ^ k * 2 ^ k + revBits k (unsigned k ((revBits k x : Int) + i)))
  else none

/-- The increment of a post-modify code. -/
def modInc (md : Nat) : Int := match md with
  | 1 => 1
  | 2 => -1
  | 3 => 2
  | _ => 0

/-- Post-modify: code 0 makes no update; none for an update under a reserved mode. -/
def skModify (x m md : Nat) : Option Nat := if md = 0 then some x else skUpdate x m (modInc md)

/-! ## Accumulators (R391, R392) -/

/-- Clip to 40 bits; whether it was needed. -/
def clip40 (v : Int) : BitVec 40 × Bool :=
  if 0x7FFFFFFFFF < v then (BitVec.ofInt 40 0x7FFFFFFFFF, true)
  else if v < -0x8000000000 then (BitVec.ofInt 40 (-0x8000000000), true) else (BitVec.ofInt 40 v, false)

/-- MOVR (`round`) or MOVT: the data register's value and whether it saturated. -/
def narrow16 (a : BitVec 40) (round : Bool) : BitVec 16 × Bool :=
  let r := (a.toInt + (if round then 0x8000 else 0)) / 65536
  if 32767 < r then (BitVec.ofInt 16 32767, true) else if r < -32768 then (BitVec.ofInt 16 (-32768), true) else (BitVec.ofInt 16 r, false)

/-- Arithmetic shift right. -/
def sar {w : Nat} (a : BitVec w) (n : Nat) : BitVec w := BitVec.ofInt w (a.toInt / 2 ^ n)

end Sys2Proof.Machine
end

