-- ==== Sys2Proof/Machine/Skein.lean ====
section
/-! DEFINITION. Machine/Skein.lean: the Skein cores: run states and clock grants, instructions, loops and interrupts, the
tap bus, firmware and core 3 code, the host window and the mailbox (14_skein.md). -/

namespace Sys2Proof.Machine

open Sys2Proof

/-! ## Access to a core -/

def coreAt (s : State) (c : Nat) : SkCore := s.skein.toArray.getD c {}
def setCore (s : State) (c : Nat) (k : SkCore) : State := { s with skein := s.skein.setIfInBounds c k }

def dAt (k : SkCore) (n : Nat) : BitVec 16 := k.d.toArray.getD n 0
def setD (k : SkCore) (n : Nat) (v : BitVec 16) : SkCore := { k with d := k.d.setIfInBounds n v }
def aAt (k : SkCore) (n : Nat) : BitVec 40 := k.a.toArray.getD n 0
def setA (k : SkCore) (n : Nat) (v : BitVec 40) : SkCore := { k with a := k.a.setIfInBounds n v }
def xAt (k : SkCore) (n : Nat) : Nat := (k.x.toArray.getD n 0).toNat
def setX (k : SkCore) (n v : Nat) : SkCore := { k with x := k.x.setIfInBounds n (BitVec.ofNat 14 v) }
def mAt (k : SkCore) (n : Nat) : Nat := (k.m.toArray.getD n 0).toNat
def setM (k : SkCore) (n v : Nat) : SkCore := { k with m := k.m.setIfInBounds n (BitVec.ofNat 16 v) }

/-- A bit of SR, and SR with a bit set to a value. -/
def srBit (k : SkCore) (n : Nat) : Bool := k.sr.getLsbD n
def setSr (k : SkCore) (n : Nat) (v : Bool) : SkCore :=
  { k with sr := BitVec.ofNat 16 (insBits k.sr.toNat n n (b2n v)) }

/-- The data word that register Xn addresses: X memory for X0 to X3, Y memory for X4 to X7. -/
def dataAt (k : SkCore) (n adr : Nat) : BitVec 16 := sget 0 (if n < 4 then k.xmem else k.ymem) adr
def setData (k : SkCore) (n adr : Nat) (v : BitVec 16) : SkCore :=
  if n < 4 then { k with xmem := sput 0 k.xmem adr v } else { k with ymem := sput 0 k.ymem adr v }

/-- Words of the address space that a core runs in: its bank, or core 3's flat memory (R389). -/
def pcSpan (c : Nat) : Nat := if c < 3 then 0x2000 else 0x4000

/-- The instruction word at an address of core `c` (R389); addresses wrap at the end of the bank (log entry 41). -/
def codeAt (k : SkCore) (c adr : Nat) : Nat :=
  (sget 0 k.imem (adr % pcSpan c + (if c < 3 && k.runBank then 0x2000 else 0))).toNat

/-- Tension request of core `c`. -/
def coreReq (c : Nat) : Nat := 18 + c

/-! ## States and interrupts (R386, R387, R398) -/

/-- A safe point: outside every delay slot and every repeat block. -/
def safePoint (k : SkCore) : Bool := k.slots == 0 && k.level == 0

/-- Return the grant of a core that stops. -/
def coreReturn (s : State) (c : Nat) : State := if (reqAt s (coreReq c)).state = .idle then s else reqReturn s (coreReq c)

/-- Enter HALTED. -/
def haltCore (s : State) (c : Nat) : State := coreReturn (setCore s c { coreAt s c with st := .halted, haltAsk := false }) c

/-- Make source `k` pending on core `c`; an enabled one ends WAIT. -/
def pendCore (s : State) (c k : Nat) : State :=
  if domOn s (28 + c) then
    let x := coreAt s c
    let x := { x with ipend := x.ipend ||| BitVec.ofNat 8 (2 ^ k) }
    setCore s c (if x.st = .wait ∧ x.ipend &&& x.ien ≠ 0 then { x with st := .run } else x)
  else s

/-- Make source `k` pending on the cores from `lo` up to `hi`. -/
def pendCores (s : State) (lo hi k : Nat) : State :=
  forUpTo 4 s (fun c s => if lo ≤ c ∧ c ≤ hi then pendCore s c k else s)

/-- The core has code (R387). -/
def hasCode (s : State) (c : Nat) : Bool := if c < 3 then !s.sec.noImage else !s.sec.codeDigest.isEmpty

/-- Start a HALTED core at address 0, or leave it HALTED with NOCODE (R387). Loops and delay slots do not survive a start
(DEDUCED: a core starts at an instruction boundary). -/
def startCore (s : State) (c : Nat) : State :=
  let x := coreAt s c
  if x.st ≠ .halted then s
  else if hasCode s c then
    setCore s c { x with st := .run, pc := 0, runBank := x.bank, noCode := false, haltAsk := false, restart := false
                         level := 0, slots := 0, target := none, edge := false, outer := none }
  else setCore s c { x with noCode := true, pc := 0, restart := false }

/-- The registers of a core cleared; the memories, the banks and what `ip` names of IPEND stay. -/
def clearCore (x : SkCore) (ip : BitVec 8) : SkCore :=
  { imem := x.imem, xmem := x.xmem, ymem := x.ymem, bank := x.bank, runBank := x.runBank, staged := x.staged, full := x.full, ipend := ip }

/-- A RESET of core `c` (R387): MBO0 to MBO7 are special registers of core 3. -/
def resetCore (s : State) (c : Nat) : State :=
  let x := clearCore (coreAt s c) 0
  let s := coreReturn (setCore s c { x with restart := flag s (Reg.skeinCoreCtrl c) 31 }) c
  if c = 3 then forUpTo 8 s (fun n s => setReg s (Reg.skeinMboxOut n) 0) else s

/-- A core fault (R408). -/
def faultCore (s : State) (c cause : Nat) : State :=
  let x := coreAt s c
  let s := coreReturn (setCore s c { x with st := .fault, haltAsk := false }) c
  let s := setReg s (Reg.skeinCoreFault c) (2 ^ 31 + cause * 2 ^ 24 + x.pc % 2 ^ 14)
  raiseEv s (0x20 + c) 0x070 (cause * 2 ^ 16 + x.pc % 2 ^ 14)

/-! ## The tap bus (R400 to R402) -/

/-- A coefficient code sign-extended to 16 bits. -/
def coef16 (v : Nat) : BitVec 16 := BitVec.ofInt 16 (signed 10 v)

/-- The word at a tap-bus address. -/
def tapRead (s : State) (adr : Nat) : BitVec 16 :=
  let w := s.warp
  if !domOn s 5 then 0
  else if adr < 34 then coef16 (fld s (Reg.warpEqTap adr) 9 0)
  else if 0x40 ≤ adr ∧ adr ≤ 0x61 then coef16 (w.shadow.getD (adr - 0x40) 0)
  else if 0x80 ≤ adr ∧ adr ≤ 0xA1 then BitVec.ofInt 16 (w.corr.getD (adr - 0x80) 0)
  else if adr = 0xC0 then BitVec.ofNat 16 w.cwin
  else if adr = 0xC1 then BitVec.ofNat 16 (b2n w.winRun + 2 * b2n w.winOk)
  else if adr = 0xC2 then BitVec.ofNat 16 (b2n w.swapPend + 2 * b2n w.swapDone + 4 * b2n w.swapRej)
  else if adr = 0xC3 then BitVec.ofNat 16 (b2n w.full + 2 * eqMain s + 64 * b2n (flag s Reg.warpCtrl 1) + 128 * b2n w.los)
  else if adr = 0xC4 then BitVec.ofNat 16 w.epow
  else 0

/-- What a read of a tap-bus address changes: SWAP's done and rejected are since the last read. -/
def tapSeen (s : State) (adr : Nat) : State :=
  if adr = 0xC2 ∧ domOn s 5 = true then setWarp s { s.warp with swapDone := false, swapRej := false } else s

/-- A write by core 0 (R401). A CWIN of 0 has no stated effect: the length is then a free value (log entry 10). -/
def tapWrite (s : State) (adr v : Nat) : State :=
  let w := s.warp
  if !domOn s 5 then s
  else if 0x40 ≤ adr ∧ adr ≤ 0x61 then
    let s := setWarp s { w with shadow := (List.range 34).map (fun n => if n = adr - 0x40 then v % 1024 else w.shadow.getD n 0) }
    if (signed 16 v < -512 ∨ 511 < signed 16 v) then progErr s 0x20 else s
  else if adr = 0xC0 then
    if v = 0 then
      let (x, s) := draw s
      setWarp s { s.warp with cwin := 1 + x % 65535 }
    else setWarp s { w with cwin := v }
  else if adr = 0xC1 then (if v % 2 = 1 then setWarp s { w with winRun := true } else s)
  else if adr = 0xC2 then (if v % 2 = 1 then setWarp s { w with swapPend := true } else s)
  else s

/-! ## Special registers (R399) -/

/-- MVS: the value of special register `n` of core `c`; none for an ILLEGAL access. HSIG is write-only: a read of it by
core 3 is a free value (log entry 10). -/
def specRead (s : State) (c n : Nat) (k : SkCore) : Option (BitVec 16 × State) :=
  match n with
  | 0 => some (k.sr, s)
  | 1 => some (BitVec.ofNat 16 k.lc, s)
  | 2 => some (BitVec.ofNat 16 k.ls, s)
  | 3 => some (BitVec.ofNat 16 k.le, s)
  | 4 => some (BitVec.ofNat 16 k.ipc, s)
  | 5 => some (k.isr, s)
  | 6 => some (k.ien.setWidth 16, s)
  | 7 => some (k.ipend.setWidth 16, s)
  | 8 => some (BitVec.ofNat 16 s.pick.count, s)
  | 9 => some (BitVec.ofNat 16 (min 0xFFFF (s.now - s.pick.began)), s)
  | 10 => some (BitVec.ofNat 16 c, s)
  | n =>
    if c ≠ 3 then none
    else if n = 11 then
      let (x, s) := draw s
      some (BitVec.ofNat 16 x, s)
    else if 16 ≤ n ∧ n ≤ 23 then some (BitVec.ofNat 16 (rd s (Reg.skeinMboxIn (n - 16))), s)
    else if 24 ≤ n ∧ n ≤ 31 then some (BitVec.ofNat 16 (rd s (Reg.skeinMboxOut (n - 24))), s)
    else none

/-- A write of core 3 to HSIG (R407). -/
def hsig (s : State) : State :=
  if flag s Reg.skeinMboxCtrl 29 then s
  else
    let s := setBit s Reg.skeinMboxCtrl 29
    if flag s Reg.skeinMboxCtrl 30 then sendMsix s (fld s Reg.skeinMboxCtrl 7 0) else s

/-- MSV: the core and the state after a write; none for an ILLEGAL access. -/
def specWrite (s : State) (c n : Nat) (v : BitVec 16) (k : SkCore) : Option (SkCore × State) :=
  match n with
  | 0 => some ({ k with sr := v &&& 0x3F }, s)
  | 1 => some ({ k with lc := v.toNat }, s)
  | 2 => some ({ k with ls := v.toNat }, s)
  | 3 => some ({ k with le := v.toNat }, s)
  | 4 => some ({ k with ipc := v.toNat }, s)
  | 5 => some ({ k with isr := v }, s)
  | 6 => some ({ k with ien := v.setWidth 8 }, s)
  | 7 => some ({ k with ipend := k.ipend &&& ~~~(v.setWidth 8) }, s)
  | n =>
    if c ≠ 3 then none
    else if n = 11 then some (k, hsig s)
    else if 24 ≤ n ∧ n ≤ 31 then some (k, setReg s (Reg.skeinMboxOut (n - 24)) v.toNat)
    else none

/-! ## Instructions -/

/-- Causes of a core fault (R408). -/
abbrev causeIllegal : Nat := 1
abbrev causeSlot : Nat := 2
abbrev causeStack : Nat := 3
abbrev causeEcc : Nat := 4
abbrev causeTap : Nat := 5

/-- What an instruction does to the flow of control. -/
inductive SkFlow where
  /-- The next instruction follows. -/
  | next
  /-- Two delay slots, then the target, if the transfer is taken (R396). -/
  | jump (t : Option Nat)
  /-- REP: iterations and block length (R397). -/
  | loop (count len : Nat)
  /-- WAIT or HALT (R387). -/
  | stop (halt : Bool)

/-- What an instruction comes to: a core fault, a stall without effect, or the core, the flow and the rest of the state. -/
inductive SkRes where
  | fault (cause : Nat)
  | stall
  | ok (k : SkCore) (f : SkFlow) (s : State)

/-- 2 × p × q in units of 2^-31 (R391). -/
def mulQ15 (p q : BitVec 16) : Int := 2 * p.toInt * q.toInt

/-- Store an accumulator result, clipped, with AOV (R391). -/
def accPut (k : SkCore) (a : Nat) (v : Int) : SkCore :=
  let r := clip40 v
  let k := setA k a r.1
  if r.2 then setSr k 3 true else k

/-- Store a result that no rule states outside the 40-bit range: there the value, and whether AOV sets, are free (log
entry 10). -/
def accFree (s : State) (k : SkCore) (a : Nat) (v : Int) : SkCore × State :=
  if -0x8000000000 ≤ v ∧ v ≤ 0x7FFFFFFFFF then (setA k a (BitVec.ofInt 40 v), s)
  else
    let (x, s) := draw s
    let (b, s) := draw s
    (setSr (setA k a (BitVec.ofNat 40 x)) 3 (srBit k 3 || b % 2 == 1), s)

/-- MACX (R391, R395). -/
def opMacx (s : State) (k : SkCore) (kk a p q : Nat) (ld : Bool) (r sr i mi j mj : Nat) : SkRes :=
  let prod := mulQ15 (dAt k p) (dAt k q)
  let acc := (aAt k a).toInt
  let v := match kk with
    | 0 => prod
    | 1 => acc + prod
    | _ => acc - prod
  let k1 := accPut k a v
  if !ld then .ok k1 .next s
  else
    match skModify (xAt k i) (mAt k i) mi, skModify (xAt k (4 + j)) (mAt k (4 + j)) mj with
    | some xi, some xj =>
      let k2 := setD (setD k1 r (dataAt k i (xAt k i))) (8 + sr) (dataAt k (4 + j) (xAt k (4 + j)))
      .ok (setX (setX k2 i xi) (4 + j) xj) .next s
    | _, _ => .fault causeIllegal

/-- FTAP (R394). -/
def opFtap (s : State) (k : SkCore) (sub : Bool) (a p q i mi j mj : Nat) : SkRes :=
  let prod := mulQ15 (dAt k p) (dAt k q)
  let acc := (aAt k a).toInt
  if 0x8000 ≤ mAt k i then .fault causeIllegal
  else
    match skUpdate (xAt k i) (mAt k i) 1, skModify (xAt k i) (mAt k i) mi, skModify (xAt k (4 + j)) (mAt k (4 + j)) mj with
    | some up, some xi, some xj =>
      let w := dataAt k i (xAt k i)
      let y := dataAt k (4 + j) (xAt k (4 + j))
      let k1 := accPut k a (if sub then acc - prod else acc + prod)
      let k2 := setD (setData (setD k1 p w) i up w) q y
      .ok (setX (setX k2 i xi) (4 + j) xj) .next s
    | _, _, _ => .fault causeIllegal

/-- AOP (R391, R392, R395). -/
def opAop (s : State) (k : SkCore) (op a r n : Nat) : SkRes :=
  let v := (aAt k a).toInt
  let o := (aAt k (1 - a)).toInt
  let free (x : Int) : SkRes :=
    let t := accFree s k a x
    .ok t.1 .next t.2
  let put (x : Int) : SkRes := .ok (accPut k a x) .next s
  let move (round : Bool) : SkRes :=
    let t := narrow16 (aAt k a) round
    let k := setD k r t.1
    .ok (if t.2 then setSr k 2 true else k) .next s
  match op with
  | 0 => .ok (setA k a 0) .next s
  | 1 => free (-v)
  | 2 => free (if v < 0 then -v else v)
  | 3 => free (v + o)
  | 4 => free (v - o)
  | 5 => put (v * 2 ^ n)
  | 6 => .ok (setA k a (sar (aAt k a) n)) .next s
  | 7 => move true
  | 8 => move false
  | 9 => .ok (setA k a (BitVec.ofInt 40 ((dAt k r).toInt * 65536))) .next s
  | _ => .ok (setA k a (BitVec.ofInt 40 (max (-2147483648) (min 2147483647 v)))) .next s

/-- DOP (R395). CMP: N of a difference outside 16 bits is a free value (log entry 10). -/
def opDop (s : State) (k : SkCore) (op d r n : Nat) : SkRes :=
  let x := dAt k d
  let y := dAt k r
  let put (v : BitVec 16) : SkRes := .ok (setD k d v) .next s
  match op with
  | 0 => put y
  | 1 => put (x + y)
  | 2 => put (x - y)
  | 3 => put (x &&& y)
  | 4 => put (x ||| y)
  | 5 => put (x ^^^ y)
  | 6 => put (x <<< n)
  | 7 => put (sar x n)
  | _ =>
    let z := x.toInt - y.toInt
    let k := setSr k 0 (z == 0)
    if -32768 ≤ z ∧ z ≤ 32767 then .ok (setSr k 1 (decide (z < 0))) .next s
    else
      let (b, s) := draw s
      .ok (setSr k 1 (b % 2 == 1)) .next s

/-- BR's condition holds (R395). -/
def brTaken (k : SkCore) (cond : Nat) : Bool :=
  match cond with
  | 0 => true
  | 1 => srBit k 0
  | 2 => !srBit k 0
  | 3 => srBit k 1
  | 4 => !srBit k 1
  | 5 => aAt k 0 == 0
  | _ => decide ((aAt k 0).toInt < 0)

/-- Address `p` lies inside the innermost open block. -/
def inBlock (k : SkCore) (p : Nat) : Bool := decide (0 < k.level) && decide (k.ls ≤ p) && decide (p ≤ k.le)

/-- The effect of one instruction of core `c`. -/
def skOp (s : State) (c : Nat) (k : SkCore) : SkInstr → SkRes
  | .nop => .ok k .next s
  | .macx kk a p q ld r sr i mi j mj => opMacx s k kk a p q ld r sr i mi j mj
  | .ftap sub a p q i mi j mj => opFtap s k sub a p q i mi j mj
  | .aop op a r n => opAop s k op a r n
  | .dop op d r n => opDop s k op d r n
  | .ld r n md =>
    match skModify (xAt k n) (mAt k n) md with
    | some x => .ok (setX (setD k r (dataAt k n (xAt k n))) n x) .next s
    | none => .fault causeIllegal
  | .st r n md =>
    match skModify (xAt k n) (mAt k n) md with
    | some x => .ok (setX (setData k n (xAt k n) (dAt k r)) n x) .next s
    | none => .fault causeIllegal
  | .ldi r imm => .ok (setD k r (BitVec.ofNat 16 imm)) .next s
  | .addx n inc =>
    match skUpdate (xAt k n) (mAt k n) (signed 14 inc) with
    | some x => .ok (setX k n x) .next s
    | none => .fault causeIllegal
  | .ldx n adr => .ok (setX k n adr) .next s
  | .ldm n v => .ok (setM k n v) .next s
  | .mvs r n =>
    match specRead s c n k with
    | some (v, s) => .ok (setD k r v) .next s
    | none => .fault causeIllegal
  | .msv r n =>
    match specWrite s c n (dAt k r) k with
    | some (k, s) => .ok k .next s
    | none => .fault causeIllegal
  | .trd r adr => if c = 3 then .fault causeTap else .ok (setD k r (tapRead s adr)) .next (tapSeen s adr)
  | .twr r adr =>
    if c ≠ 0 then .fault causeTap
    else if 0x40 ≤ adr ∧ adr ≤ 0x61 ∧ s.warp.swapPend = true then .stall
    else .ok k .next (tapWrite s adr (dAt k r).toNat)
  | .br cond tgt =>
    if inBlock k k.pc && (!inBlock k tgt || !inBlock k (k.pc + 2)) then .fault causeSlot
    else .ok k (.jump (if brTaken k cond then some tgt else none)) s
  | .call tgt =>
    if 4 ≤ k.stack.length then .fault causeStack else .ok { k with stack := (k.pc + 3) :: k.stack } (.jump (some tgt)) s
  | .ret =>
    match k.stack with
    | t :: rest => .ok { k with stack := rest } (.jump (some t)) s
    | [] => .fault causeStack
  | .rti => .ok { k with sr := k.isr &&& 0x3F } (.jump (some k.ipc)) s
  | .rep len cnt reg =>
    let n := if reg then (dAt k (cnt % 16)).toNat else cnt
    if 0 < n ∧ 2 ≤ k.level then .fault causeStack else .ok k (.loop n len) s
  | .wait => .ok k (.stop false) s
  | .halt => .ok k (.stop true) s

/-- The address that follows `last`, the end of what has executed: a repeat block goes back, or closes (R397). -/
def loopNext : Nat → SkCore → Nat → SkCore
  | 0, k, last => { k with pc := last + 1, edge := false }
  | n + 1, k, last =>
    if 0 < k.level ∧ last = k.le then
      if 1 < k.lc then { k with lc := k.lc - 1, pc := k.ls, edge := true }
      else
        match k.outer with
        | some (lc, ls, le) => loopNext n { k with lc := lc, ls := ls, le := le, outer := none, level := k.level - 1 } last
        | none => { k with lc := 0, level := k.level - 1, pc := last + 1, edge := false }
    else { k with pc := last + 1, edge := false }

/-- Go on after an instruction at `k.pc` that the flow `f` follows. -/
def skAdvance (c : Nat) (k : SkCore) (f : SkFlow) : SkCore :=
  let wrap (x : SkCore) : SkCore := { x with pc := x.pc % pcSpan c }
  match f with
  | .jump t => wrap { loopNext 2 k k.pc with slots := 2, target := t }
  | .loop 0 len => wrap (loopNext 2 k (k.pc + len))
  | .loop n len =>
    let o := if 0 < k.level then some (k.lc, k.ls, k.le) else none
    wrap { k with outer := o, level := k.level + 1, lc := n, ls := k.pc + 1, le := k.pc + len, pc := k.pc + 1, edge := false }
  | .stop halt =>
    let x := wrap (loopNext 2 k k.pc)
    if halt then { x with st := .halted, haltAsk := false } else if x.ipend &&& x.ien ≠ 0 then x else { x with st := .wait }
  | .next =>
    if k.slots = 0 then wrap (loopNext 2 k k.pc)
    else if k.slots = 1 then
      match k.target with
      | some t => wrap { k with slots := 0, target := none, pc := t, edge := false }
      | none => wrap { loopNext 2 k k.pc with slots := 0 }
    else wrap { loopNext 2 k k.pc with slots := k.slots - 1 }

/-- The instruction stands where it may not (R396, R397). -/
def misplaced (k : SkCore) (i : SkInstr) : Bool :=
  (i.isControl && (decide (0 < k.slots) || (decide (0 < k.level) && k.pc == k.le)))
    || (decide (0 < k.slots) && decide (0 < k.level) && k.pc == k.le)

/-- A halt that RUN = 0 asked for happens at a safe point (R387). -/
def haltIfAsked (s : State) (c : Nat) : State :=
  let k := coreAt s c
  if k.haltAsk && (k.st == .run || k.st == .wait) && safePoint k then haltCore s c else s

/-- Core `c` executes the instruction at its program counter. -/
def skExecute (s : State) (c : Nat) (i : SkInstr) : State :=
  let k := coreAt s c
  if misplaced k i then faultCore s c causeSlot
  else
    match skOp s c k i with
    | .fault cause => faultCore s c cause
    | .stall => s
    | .ok k' f s' =>
      let k' := skAdvance c k' f
      let s := setCore s' c k'
      haltIfAsked (if k'.st = .halted then coreReturn s c else s) c

/-- Core `c` may execute: RUN, its domain on, and not at the safe point of a bank switch that waits (R403). -/
def skReady (s : State) (c : Nat) : Bool :=
  let k := coreAt s c
  decide (c < 4) && domOn s (28 + c) && k.st == .run && !(decide (c < 3) && k.bank != k.runBank && safePoint k)

/-- The instruction at core `c`'s program counter, decoded. -/
def skFetch (s : State) (c : Nat) : Option SkInstr := skDecode (codeAt (coreAt s c) c (coreAt s c).pc)

/-- An instruction row: core `c` executes the instruction at its program counter, if that is one of the row's (log
entry 42). -/
def skRow (sel : SkInstr → Bool) (c : Nat) (s : State) : State :=
  if skReady s c then
    match skFetch s c with
    | some i => if sel i then skExecute s c i else s
    | none => s
  else s

/-! ## Instruction rows -/

def isMacx (n : Nat) : SkInstr → Bool | .macx k _ _ _ _ _ _ _ _ _ _ => k == n | _ => false
def isAop (n : Nat) : SkInstr → Bool | .aop k _ _ _ => k == n | _ => false
def isDop (n : Nat) : SkInstr → Bool | .dop k _ _ _ => k == n | _ => false

def execMpy (c : Nat) (s : State) : Host.Outcome State Fault Refusal := .next (skRow (isMacx 0) c s)
def execMac (c : Nat) (s : State) : Host.Outcome State Fault Refusal := .next (skRow (isMacx 1) c s)
def execMsu (c : Nat) (s : State) : Host.Outcome State Fault Refusal := .next (skRow (isMacx 2) c s)
def execFtap (c : Nat) (s : State) : Host.Outcome State Fault Refusal := .next (skRow (fun | .ftap .. => true | _ => false) c s)
def execClr (c : Nat) (s : State) : Host.Outcome State Fault Refusal := .next (skRow (isAop 0) c s)
def execNeg (c : Nat) (s : State) : Host.Outcome State Fault Refusal := .next (skRow (isAop 1) c s)
def execAbs (c : Nat) (s : State) : Host.Outcome State Fault Refusal := .next (skRow (isAop 2) c s)
def execAdda (c : Nat) (s : State) : Host.Outcome State Fault Refusal := .next (skRow (isAop 3) c s)
def execSuba (c : Nat) (s : State) : Host.Outcome State Fault Refusal := .next (skRow (isAop 4) c s)
def execShlAcc (c : Nat) (s : State) : Host.Outcome State Fault Refusal := .next (skRow (isAop 5) c s)
def execShrAcc (c : Nat) (s : State) : Host.Outcome State Fault Refusal := .next (skRow (isAop 6) c s)
def execMovr (c : Nat) (s : State) : Host.Outcome State Fault Refusal := .next (skRow (isAop 7) c s)
def execMovt (c : Nat) (s : State) : Host.Outcome State Fault Refusal := .next (skRow (isAop 8) c s)
def execLda (c : Nat) (s : State) : Host.Outcome State Fault Refusal := .next (skRow (isAop 9) c s)
def execSat32 (c : Nat) (s : State) : Host.Outcome State Fault Refusal := .next (skRow (isAop 10) c s)
def execMov (c : Nat) (s : State) : Host.Outcome State Fault Refusal := .next (skRow (isDop 0) c s)
def execAdd (c : Nat) (s : State) : Host.Outcome State Fault Refusal := .next (skRow (isDop 1) c s)
def execSub (c : Nat) (s : State) : Host.Outcome State Fault Refusal := .next (skRow (isDop 2) c s)
def execAnd (c : Nat) (s : State) : Host.Outcome State Fault Refusal := .next (skRow (isDop 3) c s)
def execOr (c : Nat) (s : State) : Host.Outcome State Fault Refusal := .next (skRow (isDop 4) c s)
def execXor (c : Nat) (s : State) : Host.Outcome State Fault Refusal := .next (skRow (isDop 5) c s)
def execShlData (c : Nat) (s : State) : Host.Outcome State Fault Refusal := .next (skRow (isDop 6) c s)
def execShrData (c : Nat) (s : State) : Host.Outcome State Fault Refusal := .next (skRow (isDop 7) c s)
def execCmp (c : Nat) (s : State) : Host.Outcome State Fault Refusal := .next (skRow (isDop 8) c s)
def execSkeinNop (c : Nat) (s : State) : Host.Outcome State Fault Refusal := .next (skRow (fun i => i == .nop) c s)
def execLd (c : Nat) (s : State) : Host.Outcome State Fault Refusal := .next (skRow (fun | .ld .. => true | _ => false) c s)
def execSt (c : Nat) (s : State) : Host.Outcome State Fault Refusal := .next (skRow (fun | .st .. => true | _ => false) c s)
def execLdi (c : Nat) (s : State) : Host.Outcome State Fault Refusal := .next (skRow (fun | .ldi .. => true | _ => false) c s)
def execAddx (c : Nat) (s : State) : Host.Outcome State Fault Refusal := .next (skRow (fun | .addx .. => true | _ => false) c s)
def execLdx (c : Nat) (s : State) : Host.Outcome State Fault Refusal := .next (skRow (fun | .ldx .. => true | _ => false) c s)
def execLdm (c : Nat) (s : State) : Host.Outcome State Fault Refusal := .next (skRow (fun | .ldm .. => true | _ => false) c s)
def execMvs (c : Nat) (s : State) : Host.Outcome State Fault Refusal := .next (skRow (fun | .mvs .. => true | _ => false) c s)
def execMsv (c : Nat) (s : State) : Host.Outcome State Fault Refusal := .next (skRow (fun | .msv .. => true | _ => false) c s)
def execTrd (c : Nat) (s : State) : Host.Outcome State Fault Refusal := .next (skRow (fun | .trd .. => true | _ => false) c s)
def execTwr (c : Nat) (s : State) : Host.Outcome State Fault Refusal := .next (skRow (fun | .twr .. => true | _ => false) c s)
def execBr (c : Nat) (s : State) : Host.Outcome State Fault Refusal := .next (skRow (fun | .br .. => true | _ => false) c s)
def execCall (c : Nat) (s : State) : Host.Outcome State Fault Refusal := .next (skRow (fun | .call .. => true | _ => false) c s)
def execRet (c : Nat) (s : State) : Host.Outcome State Fault Refusal := .next (skRow (fun i => i == .ret) c s)
def execRti (c : Nat) (s : State) : Host.Outcome State Fault Refusal := .next (skRow (fun i => i == .rti) c s)
def execRep (c : Nat) (s : State) : Host.Outcome State Fault Refusal := .next (skRow (fun | .rep .. => true | _ => false) c s)
def execWait (c : Nat) (s : State) : Host.Outcome State Fault Refusal := .next (skRow (fun i => i == .wait) c s)
def execHalt (c : Nat) (s : State) : Host.Outcome State Fault Refusal := .next (skRow (fun i => i == .halt) c s)

/-- RESERVED_OPCODE: the word at the program counter decodes to nothing: a core fault of cause ILLEGAL (R395, R408). -/
def execReservedOpcode (c : Nat) (s : State) : Host.Outcome State Fault Refusal :=
  .next (if skReady s c && (skFetch s c).isNone then faultCore s c causeIllegal else s)

/-- INTERRUPT_TAKEN: core `c` takes eligible source `k` (R398). -/
def execInterruptTaken (c k : Nat) (s : State) : Host.Outcome State Fault Refusal :=
  let x := coreAt s c
  .next (if skReady s c && decide (k < 8) && x.ien.getLsbD k && x.ipend.getLsbD k && srBit x 5 && x.slots == 0
      && (x.level == 0 || (x.edge && !srBit x 4)) then
    setCore s c { setSr x 5 false with
      ipc := x.pc, isr := x.sr, ipend := x.ipend &&& ~~~(BitVec.ofNat 8 (2 ^ k)), pc := 0x10 * (k + 1), edge := false }
  else s)

/-! ## Interrupt sources outside the cores -/

/-- SHAPER_REFILL_TICK: Reed's refill, and TICK on every core (R217, R398). -/
def execShaperRefillTick (k : Nat) (s : State) : Host.Outcome State Fault Refusal :=
  .next (if !domOn s 18 || k == s.reed.tick then pendCores (shaperTick k s) 0 3 1 else s)

/-- EQ_SWAP, with SWAP on cores 0 to 2 (R45, R46, R398). -/
def execEqSwap (s : State) : Host.Outcome State Fault Refusal :=
  .next (if s.warp.swapPend && domOn s 5 && (coreAt s 0).st != .fault then pendCores (eqSwap s) 0 2 3 else s)

/-- CORR_WINDOW_END: the running window ends (R401). -/
def execCorrWindowEnd (corr : List Int) (epow : Nat) (s : State) : Host.Outcome State Fault Refusal :=
  .next (if s.warp.winRun && domOn s 5 then pendCores (latchWindow corr epow s) 0 2 2 else s)

/-- The cores' part of step 2: RUN and FULL_CLK come into force, grants are asked for, COMMIT is pending (R386, R387,
R398). `old`: SKEIN_CORE_CTRL before this commit point. -/
def skeinCommit (old : Nat → Nat) (s : State) : State :=
  forUpTo 4 s (fun c s =>
    if !domOn s (28 + c) then s
    else
      let now := rd s (Reg.skeinCoreCtrl c)
      let s := setCore s c { coreAt s c with full := grantUsed s (coreReq c) }
      let k := coreAt s c
      let s :=
        if now.testBit 31 then
          if !(old (Reg.skeinCoreCtrl c)).testBit 31 || k.restart then startCore (setCore s c { k with haltAsk := false, restart := false }) c else s
        else if (old (Reg.skeinCoreCtrl c)).testBit 31 && (k.st == .run || k.st == .wait) then haltIfAsked (setCore s c { k with haltAsk := true }) c
        else setCore s c { k with restart := false }
      let s := if now.testBit 30 then s else coreReturn s c
      let k := coreAt s c
      let s := if (k.st == .run || k.st == .wait) && now.testBit 30 then reqRaise s (coreReq c) 4 else s
      pendCore s c 0)

/-! ## Firmware and core 3 code (R388, R389, R403 to R405) -/

/-- Byte `b` of a word replaced. -/
def putByte {w : Nat} (x : BitVec w) (b : Nat) (v : Byte) : BitVec w := BitVec.ofNat w (insBits x.toNat (8 * b + 7) (8 * b) v.toNat)

/-- One byte of the load space of a core, `base` added to instruction addresses (R388). -/
def loadByte (base : Nat) (k : SkCore) (adr : Nat) (v : Byte) : SkCore :=
  if adr < 0x10000 then
    let i := base + adr / 4
    { k with imem := sput 0 k.imem i (putByte (sget 0 k.imem i) (adr % 4) v) }
  else if adr < 0x18000 then
    let i := (adr - 0x10000) / 2
    { k with xmem := sput 0 k.xmem i (putByte (sget 0 k.xmem i) (adr % 2) v) }
  else
    let i := (adr - 0x18000) / 2
    { k with ymem := sput 0 k.ymem i (putByte (sget 0 k.ymem i) (adr % 2) v) }

/-- Bytes of a section from load address `adr` on. -/
def loadBytes (base : Nat) : SkCore → Nat → List Byte → SkCore
  | k, _, [] => k
  | k, adr, b :: t => loadBytes base (loadByte base k adr b) (adr + 1) t

/-- Write the sections of an image that `p` picks (by TYPE and TARGET) into a core. -/
def loadSections (img : List Byte) (p : Nat → Nat → Bool) (base : Nat) (k : SkCore) : SkCore :=
  ((List.range (byteAt img 15)).filter (fun n => p (imgSect img n).1 (imgSect img n).2.1)).foldl
    (fun k n => loadBytes base k (leAt img (108 + 16 * n) 4) (imgSectBytes img n)) k

/-- The image has adaptation firmware for core `c`. -/
def targets (img : List Byte) (c : Nat) : Bool :=
  (List.range (byteAt img 15)).any (fun n => (imgSect img n).1 == 1 && (imgSect img n).2.1 == c)

/-- The boot ROM writes the booted image's firmware into bank 0 (R403). -/
def bootFirmware (s : State) : State :=
  if s.sec.image.isEmpty then s
  else forUpTo 3 s (fun c s => setCore s c { loadSections s.sec.image (fun t g => t == 1 && g == c) 0 (coreAt s c) with bank := false, runBank := false })

/-- BOOT_IMAGE_CHOICE (R277, R403). -/
def execBootImageChoice (s : State) : Host.Outcome State Fault Refusal :=
  .next (if s.sec.chosen || s.power.inReset then s else bootFirmware (bootChoice s))

/-- IMAGE_ACTIVATE stages the slot's firmware in the inactive banks (R280, R403). -/
def stageFirmware (img : List Byte) (s : State) : State :=
  forUpTo 3 s (fun c s =>
    if targets img c then
      let k := coreAt s c
      setCore s c { loadSections img (fun t g => t == 1 && g == c) (if k.bank then 0 else 0x2000) k with staged := true }
    else s)

/-- The swap of R280 makes the staged banks active; a core that does not run takes its bank at its next start (R403). -/
def swapFirmware (s : State) : State :=
  forUpTo 3 s (fun c s =>
    let k := coreAt s c
    if k.staged then setCore s c { k with staged := false, bank := !k.bank } else s)

/-- FIRMWARE_BANK_SWITCH: core `c` stands at a safe point after an image swap (R403). -/
def execFirmwareBankSwitch (c : Nat) (s : State) : Host.Outcome State Fault Refusal :=
  let k := coreAt s c
  .next (if decide (c < 3) && domOn s (28 + c) && (k.st == .run || k.st == .wait) && k.bank != k.runBank && safePoint k then
    setCore s c { clearCore k k.ipend with st := .run, runBank := k.bank }
  else s)

/-- Status of an image for core 3 (R404): 0, ERR_SIG or ERR_ROLLBACK. -/
def core3Check (s : State) (img : List Byte) : Nat :=
  if !(imgFieldsOk img 1 && imgSigned img s.sec.custKey)
      || !(List.range (byteAt img 15)).all (fun n => (imgSect img n).1 == 4) then Status.errSig
  else if imgArb img < s.sec.otpArb then Status.errRollback else 0

/-- Core 3's memories zeroed. -/
def zeroCore3 (s : State) : State := setCore s 3 { coreAt s 3 with imem := [], xmem := [], ymem := [] }

/-- SKEIN_LOAD (R404). -/
def cmdSkeinLoad (d : CmdDesc) (s : State) : CmdRes :=
  let img := (cmdData d).take (cmdLen d)
  let st := (coreAt s 3).st
  if !domOn s 31 || st == .run || st == .wait then .fin Status.busy 0 s
  else if s.sec.custKey = List.replicate 32 0 then .fin 0x48 0 s
  else if core3Check s img ≠ 0 then .fin (core3Check s img) 0 s
  else
    let s := zeroCore3 s
    let s := setCore s 3 (loadSections img (fun _ _ => true) 0 (coreAt s 3))
    let all := ((List.range (byteAt img 15)).map (imgSectBytes img)).flatten
    .fin Status.done 0 { s with sec := { s.sec with codeDigest := Config.sha512 all } }

/-- SKEIN_UNLOAD (R405). -/
def cmdSkeinUnload (_ : CmdDesc) (s : State) : CmdRes :=
  needDomain 31 s fun s =>
    let s := zeroCore3 (haltCore s 3)
    .fin Status.done 0 { s with sec := { s.sec with codeDigest := [] } }

def execSkeinLoad (d : CmdDesc) (s : State) : Host.Outcome State Fault Refusal := .next (cmdRow 0x78 cmdSkeinLoad d s)
def execSkeinUnload (d : CmdDesc) (s : State) : Host.Outcome State Fault Refusal := .next (cmdRow 0x79 cmdSkeinUnload d s)

/-! ## Host window and mailbox (R406, R407) -/

/-- The window refuses an access (R406). -/
def windowRefused (s : State) (c mem : Nat) (write : Bool) : Bool :=
  let st := (coreAt s c).st
  let stopped := st == .halted || st == .fault
  if c < 3 then write || !stopped
  else if mem = 0 then write || !stopped
  else false

/-- A host access to SKEIN_WIN_DATA: `v` is the word written, none for a read (R406). The answer is what a read returns. -/
def skeinWindow (v : Option Nat) (s : State) : Nat × State :=
  let c := fldS s Reg.skeinWinSel 31 30
  let mem := fldS s Reg.skeinWinSel 17 16
  let adr := fldS s Reg.skeinWinSel 13 0
  let s' := setFld s Reg.skeinWinSel 13 0 ((adr + 1) % 16384)
  let k := coreAt s c
  if windowRefused s c mem v.isSome then (0, setBit s' Reg.skeinWinSel 29)
  else
    match v with
    | none => (match mem with
      | 0 => (sget 0 k.imem adr).toNat
      | 1 => (sget 0 k.xmem adr).toNat
      | _ => (sget 0 k.ymem adr).toNat, s')
    | some x =>
      (0, setCore s' c (if mem = 1 then { k with xmem := sput 0 k.xmem adr (BitVec.ofNat 16 x) } else { k with ymem := sput 0 k.ymem adr (BitVec.ofNat 16 x) }))

/-- A write of DOORBELL (R407). -/
def mboxDoorbell (s : State) : State := pendCore s 3 4

/-- Status of the cores. -/
def skeinRo (s : State) (a : Nat) : Option Nat :=
  match (List.range 4).find? (fun c => a == Reg.skeinCoreStat c) with
  | none => none
  | some c =>
    let k := coreAt s c
    let st := match k.st with
      | .halted => 0
      | .run => 1
      | .wait => 2
      | .fault => 3
      | .calibrate => 4
    some (st * 2 ^ 29 + b2n k.full * 2 ^ 28 + b2n ((reqAt s (coreReq c)).state == .pending) * 2 ^ 27
      + b2n k.noCode * 2 ^ 26 + b2n (decide (c < 3) && k.bank) * 2 ^ 25 + b2n k.staged * 2 ^ 24 + k.pc % 2 ^ 14)

/-- The core's domain goes off or wakes: everything of it is lost; core 3's code with its digest (R405, R418, R421). -/
def skeinLose (s : State) (c : Nat) : State :=
  let s := setCore s c {}
  if c = 3 then { s with sec := { s.sec with codeDigest := [] } } else s

/-- Recovery of cores 0 to 2 (R408, R445): reset as by RESET, started again where RUN is 1. -/
def skeinRecover (s : State) (c : Nat) : State := setCore (resetCore s c) c { coreAt (resetCore s c) c with restart := false }
def skeinResume (s : State) (c : Nat) : State := if flag s (Reg.skeinCoreCtrl c) 31 then startCore s c else s

end Sys2Proof.Machine
end

