-- ==== Sys2Proof/Machine/Power.lean ====
section
/-! DEFINITION. Machine/Power.lean: power domains, their switch-off and wake, and the operating modes (R409 to R421). -/

namespace Sys2Proof.Machine

open Sys2Proof

def setPower (s : State) (p : Power) : State := { s with power := p }

/-! ## Tables of R417 -/

/-- Domains that stay on always: AON, BOOT, HOSTIF, HOSTCTL, SAFETY. -/
def alwaysOn (d : Nat) : Bool := decide (d ∈ [0, 1, 2, 3, 9])

/-- Domain `d` is required in mode `m`. -/
def required (m : Mode) (d : Nat) : Bool :=
  match m with
  | .listen | .doze => decide (d ∈ [4, 5, 6, 28])
  | .active => decide (d ∈ [4, 5, 6, 7, 8, 21, 28])
  | _ => false

/-- Domain `d` is forbidden in mode `m`. -/
def forbidden (m : Mode) (d : Nat) : Bool :=
  match m with
  | .doze => decide (d ∈ [7, 8, 10, 11, 12, 14, 15, 16, 17, 18, 19, 20, 23, 24, 25, 26, 27, 29, 30, 31])
  | _ => false

/-- GLOBAL_MODE_REQ.TARGET in force. -/
def target (s : State) : Nat := fld s Reg.globalModeReq 1 0

/-- The mode that a TARGET names. -/
def targetMode (t : Nat) : Mode := if t = 2 then .active else if t = 3 then .doze else .listen

/-- GLOBAL_STAT.MODE. -/
def modeCode : Mode → Nat
  | .off => 0
  | .calibrate => 1
  | .listen => 2
  | .active => 3
  | .doze => 4
  | .safe => 5

/-- The terminal writes TARGET. -/
def setTarget (s : State) (t : Nat) : State := setFld s Reg.globalModeReq 1 0 t

/-- PD_CTRL asks for domain `d`. -/
def pdWanted (s : State) (d : Nat) : Bool := alwaysOn d || flag s Reg.globalPdCtrl d

/-- The terminal sets or clears the PD_CTRL bits of the domains that `p` picks. -/
def setPdBits (s : State) (on : Bool) (p : Nat → Bool) : State :=
  forUpTo 32 s (fun d s => if p d && !alwaysOn d then setFld s Reg.globalPdCtrl d d (b2n on) else s)

/-- Every domain that mode `m` requires is ON. -/
def allOn (s : State) (m : Mode) : Bool := (List.range 32).all (fun d => !required m d || domOn s d)

/-! ## What a domain loses (R418) -/

/-- The domain in which a counter lies. -/
def cntDomain (key : Nat) : Nat :=
  let n := key % 0x100000
  match key / 0x100000 with
  | 0 => 6
  | 1 => 8
  | 3 => 22
  | 4 => 10
  | 5 => 12
  | 6 | 7 | 8 => 18
  | 9 => 14
  | 10 => 21
  | 11 => macDom (n / 16)
  | 12 => laneDom (n / 14)
  | 13 => 27
  | _ => 3

/-- Registers and counters of domain `d` return to their reset values. -/
def regsLost (d : Nat) (s : State) : State :=
  { s with stg := skeep (fun a => regDomain s a != d) s.stg, cur := skeep (fun a => regDomain s a != d) s.cur
           cnt := skeep (fun k => cntDomain k != d) s.cnt, sat := skeep (fun k => cntDomain k != d) s.sat
           hold := skeep (fun a => regDomain s a != d) s.hold }

/-- Commands whose work goes on in a unit that is lost complete with a status (R420, R445, R447). -/
def endWorks (status : Nat) (p : CmdWork → Bool) (s : State) : State :=
  (s.host.work.filter p).foldl (fun s w => workEnd s w.ring w.index status 0) s

/-- The code of a command lies in a range. -/
def codeIn (lo hi : Nat) (w : CmdWork) : Bool := decide (lo ≤ w.code) && decide (w.code ≤ hi)

/-- Frames that Heddle holds are lost. -/
def heddleLose (s : State) : State :=
  let fs := s.heddle.flights.map (·.frame) ++ s.heddle.fifos.flatMap (·.2)
  fs.foldl frameGone (setHeddle s {})

/-- Every frame that waits for the flow store resolves as a miss without learning. -/
def missesResolve (s : State) : State :=
  s.flow.missQ.foldl (fun s k => resolveWaiting k none false s.heddle.flights s) (setFlow s { s.flow with missQ := [] })

/-- IDENT goes off: every key is lost, also its copies outside the slots, which read as zeros from then on (R264, log entry
40), and the key pair of the exchange. The last NONCE and the record stay with the activation controller (R133, R135). -/
def identLose (s : State) : State :=
  let s := imgStop (endWorks Status.busy (codeIn 0x60 0x67) s)
  let s := setSec s { s.sec with
    keys := [], hostKeys := [], trngFails := 0, trngStopped := false, trngOk := false, rct := none, trngOut := [], stale := 0, drbg := []
    ctxs := s.sec.ctxs.map (fun e => (e.1, e.2.map (fun c => { c with key := {} }))) }
  let lost := fun (e : Exchange) =>
    if e.building then e else { e with isOpen := false, priv := [], z := none, part0 := none, sigA := none, sigB := none }
  let s := setAct s { s.act with
    keys := none, evKeyed := none, exch := s.act.exch.map lost
    changes := s.act.changes.filter (fun c => match c.kind with | .keys _ => false | _ => true)
    staged := s.act.staged.filter (fun x => match x with | .key _ _ _ _ => false | _ => true) }
  setWeft s { s.weft with bursts := s.weft.bursts.map (fun b => if b.key.isEmpty then b else { b with key := List.replicate 32 0 }) }

/-- The state of domain `d`'s units is lost (R418, R420, R421). -/
def unitLose (d : Nat) (s : State) : State :=
  if d = 4 ∨ d = 5 ∨ d = 6 then setWarp (dropContexts s) {}
  else if d = 7 then endBursts (cancelBursts s)
  else if d = 8 then setWeft (endBursts (cancelBursts s)) { s.weft with bursts := [], rei := 0 }
  else if d = 10 then endWorks Status.busy (codeIn 0x40 0x42) (heddleLose s)
  else if d = 11 then
    let gone := s.heddle.flights.filter (fun x => x.pipe == 1 && x.verdict == .again)
    gone.foldl (fun s x => frameGone (count (dropFlight s x) 4 2) x.frame) s
  else if d = 12 then setFlow (endWorks Status.busy (codeIn 0x48 0x4C) (missesResolve s)) {}
  else if d = 13 then dramLose s
  else if d = 14 then managerLose s
  else if 15 ≤ d ∧ d ≤ 17 then bankLose s (d - 14)
  else if d = 18 then setReed (endWorks Status.busy (codeIn 0x50 0x54) (flushAll s)) {}
  else if d = 20 then
    let s := endWorks Status.busy (codeIn 0x68 0x68) s
    setSec s { s.sec with ctxs := [] }
  else if d = 21 then identLose s
  else if d = 22 then setTime s {}
  else if d = 23 ∨ d = 24 then
    let s := forUpTo 16 s (fun n s => if laneDom n = d && (laneAt s n).st != .off then laneOff s n else s)
    setPorts s { s.ports with lanes := skeep (fun n => laneDom n != d) s.ports.lanes }
  else if d = 25 ∨ d = 26 then
    let s := forUpTo 32 s (fun p s => if macDom p = d then macLink (macAbort s p) p false else s)
    setPorts s { s.ports with macs := skeep (fun p => macDom p != d) s.ports.macs
                              filtS := skeep (fun k => macDom (k / 32) != d) s.ports.filtS
                              filt := skeep (fun k => macDom (k / 32) != d) s.ports.filt
                              armed := s.ports.armed.filter (fun k => macDom (k / 32) != d) }
  else if d = 27 then setDraft (endWorks Status.busy (codeIn 0x70 0x71) s) {}
  else if 28 ≤ d then skeinLose s (d - 28)
  else s

/-- The Tension requester whose unit lies in domain `d`, if `r` is one (R418, R431). -/
def reqOf (d r : Nat) : Bool :=
  (r == 0 && d == 5) || (r == 1 && d == 7) || (decide (2 ≤ r) && decide (r ≤ 17) && laneDom (r - 2) == d)
    || (decide (18 ≤ r) && decide (r ≤ 21) && d == r + 10)

/-- Sources of domain `d` (R437). -/
def domSources (d : Nat) : List Nat :=
  match d with
  | 4 => [0x02]
  | 5 => [0x03]
  | 6 => [0x04, 0x05]
  | 7 => [0x07]
  | 8 => [0x06]
  | 10 => [0x0A, 0x0C]
  | 11 => [0x0B]
  | 12 => [0x0D]
  | 13 => [0x0E]
  | 14 => [0x0F, 0x10]
  | 15 => [0x11]
  | 16 => [0x12]
  | 17 => [0x13]
  | 18 => [0x14]
  | 19 => [0x15]
  | 20 => [0x16]
  | 21 => [0x17]
  | 22 => [0x09]
  | 23 => [0x1A]
  | 24 => [0x1B]
  | 25 => [0x18]
  | 26 => [0x19]
  | 27 => [0x1C]
  | 28 => [0x20]
  | 29 => [0x21]
  | 30 => [0x22]
  | 31 => [0x23]
  | _ => []

/-- What Selvedge holds for a source. -/
def unitAt (s : State) (src : Nat) : UnitInfo := sget {} s.selvedge.units src
def setUnit (s : State) (src : Nat) (u : UnitInfo) : State :=
  { s with selvedge := { s.selvedge with units := sput {} s.selvedge.units src u } }

/-- A switch-off ends RECOVERING and PARKED of the domain's units (R448). -/
def recoveryOff (d : Nat) (s : State) : State :=
  (domSources d).foldl (fun s c => setUnit s c { unitAt s c with st := .ok, start := 0 }) s

/-- Switch domain `d` off: grants return, outputs clamp, the supply goes (R418). -/
def domainOff (d : Nat) (s : State) : State :=
  let s := (s.tension.reqs.map (·.1)).foldl (fun s r => if reqOf d r then reqReturn s r else s) s
  let s := regsLost d (unitLose d (recoveryOff d s))
  count (setPower s { s.power with isOn := s.power.isOn - (if domOn s d then 2 ^ d else 0)
                                   offDeferred := s.power.offDeferred.filter (· != d) }) 16 7

/-- Switch-offs of a commit point in ascending order under TENSION_SLEW.DOWN: the first always, each one beyond the
limit, and every one after it, deferred (R419). -/
def offLoop : Bool → List Nat → State → State
  | _, [], s => s
  | stop, d :: t, s =>
    let a := allowance s.power.mode d
    let fits := match s.power.offUnits with
      | none => true
      | some u => decide (u + a ≤ fld s Reg.tensionSlew 23 16)
    if !stop && fits then
      let s := setPower s { s.power with offUnits := some (s.power.offUnits.getD 0 + a) }
      offLoop false t (domainOff d s)
    else
      let s := if s.power.offDeferred.contains d then s
        else count (setPower s { s.power with offDeferred := d :: s.power.offDeferred }) 16 4
      offLoop true t s

/-- Domains that are on and not asked for, ascending. -/
def offList (s : State) : List Nat := (List.range 32).filter (fun d => domOn s d && !pdWanted s d)

/-- Switch-offs that come into force (R418, R419). -/
def switchOffs (s : State) : State :=
  let s := setPower s { s.power with offDeferred := s.power.offDeferred.filter (fun d => (offList s).contains d) }
  offLoop false (offList s) s

/-- Wakes at step 2: requests are raised or withdrawn, admitted wakes come a commit point nearer (R421). -/
def wakeStep (s : State) : State :=
  let s := setPower s { s.power with wakes := s.power.wakes.map (fun e => (e.1, max 1 (e.2 - 1))) }
  forUpTo 32 s (fun d s =>
    if domOn s d || s.power.wakes.any (fun e => e.1 == d) then s
    else if pdWanted s d then reqRaise s (32 + d) (allowance s.power.mode d)
    else if (reqAt s (32 + d)).state = .pending then reqReturn s (32 + d)
    else s)

/-- GLOBAL_PD_PEND (R419, R421). -/
def pdPend (s : State) : Nat :=
  ((List.range 32).filter (fun d => s.power.wakes.any (fun e => e.1 == d) || domOn s d != pdWanted s d)).foldl (fun v d => v + 2 ^ d) 0

/-! ## Modes (R409 to R416) -/

/-- Change the mode: a notification; leaving DOZE clears DOZE_OK (R415, R435). -/
def setMode (s : State) (m : Mode) : State :=
  let old := s.power.mode
  if old = m then s
  else
    let s := if old = .doze then setAct s { s.act with dozeOk := false } else s
    globalNotify (setPower s { s.power with mode := m }) 0x40 (modeCode old + modeCode m * 256)

/-- DOZE is permitted (R411). -/
def dozePermitted (s : State) : Bool :=
  !(s.act.st == .woven || s.act.st == .lapsed) || (flag s Reg.weftCtrl 1 && s.act.dozeOk)

/-- A request for DOZE is accepted: the traffic units drain (R414 steps 1 to 3). -/
def drainBegin (s : State) : State :=
  flushAll (setPower s { s.power with dozePhase := .draining, dozeAged := false })

/-- What TARGET asks for at step 2 (R409, R414, R416). -/
def modeAsk (s : State) : State :=
  let t := target s
  let s := if s.power.dozePhase = .draining then
      setPower s (if t = 3 then { s.power with dozeAged := true } else { s.power with dozePhase := .none })
    else s
  if s.power.dozePhase != .none || s.power.rowsOff then s
  else match s.power.mode with
    | .listen | .active =>
      if t = 3 then
        if dozePermitted s then drainBegin s
        else setBit (setTarget s (if s.power.mode = .active then 2 else 1)) Reg.globalStat 2
      else if targetMode t = s.power.mode then s
      else setPdBits s true (required (targetMode t))
    | .doze => if t = 3 then s else setPdBits s true (required (targetMode t))
    | _ => s

/-- The mode follows at the first commit point at which the row's conditions hold (R409, R455). -/
def modeArrive (s : State) : State :=
  if s.power.rowsOff then s
  else if s.power.dozePhase = .entering then
    if (List.range 32).any (fun d => forbidden .doze d && domOn s d) then s
    else setMode (setPower s { s.power with dozePhase := .none }) .doze
  else if s.power.dozePhase = .draining then s
  else match s.power.mode, target s with
    | .listen, 2 | .doze, 2 =>
      if allOn s .active && s.safety.proofOk && !s.safety.hold && s.safety.vddSafe then setMode s .active else s
    | .active, 1 | .doze, 1 => if allOn s .listen then setMode s .listen else s
    | _, _ => s

/-- DOZE_DRAIN_COMPLETE: at the first commit point after the accepting one at which Spool is idle the forbidden domains
begin to go off and the WARP_EQ grant returns (R409, R414). -/
def execDozeDrainComplete (s : State) : Host.Outcome State Fault Refusal :=
  .next (if s.power.dozePhase = .draining ∧ s.power.dozeAged = true ∧ spoolIdle s = true then
    let s := setPdBits s false (forbidden .doze)
    let s := if (reqAt s 0).state = .idle then s else reqReturn s 0
    modeArrive (switchOffs (setPower s { s.power with dozePhase := .entering }))
  else s)

/-- DOMAIN_WAKE_ON: a woken domain reports ON in step 2 of the third commit point after the one that admitted it (R413,
R421). It comes before the commit point about to come (log entry 2), whose step 2 switches the domain off again where it is
no longer wanted and brings the mode that waits for it (R409). -/
def execDomainWakeOn (d : Nat) (s : State) : Host.Outcome State Fault Refusal :=
  .next (if sget 0 s.power.wakes d = 1 ∧ d < 32 ∧ domOn s d = false then
    let s := setPower s { s.power with wakes := sput 0 s.power.wakes d 0, isOn := s.power.isOn + 2 ^ d }
    let s := globalNotify (count (setBit s Reg.globalPdWoke d) 16 6) 0x41 d
    if d = 8 then weftWrite s else if d = 13 then dramClosed s else if d = 21 then secStatus s else s
  else s)

/-- A latch of the safety path takes LISTEN, ACTIVE or DOZE to SAFE at once and ends a drain or an entry to DOZE, whose
domains that are still on stay on (R409, R414). -/
def enterSafe (s : State) : State :=
  match s.power.mode with
  | .listen | .active | .doze =>
    let s := if s.power.dozePhase = .entering then setPdBits s true (fun d => forbidden .doze d && domOn s d) else s
    setMode (setTarget (setPower s { s.power with dozePhase := .none }) 1) .safe
  | _ => s

/-- SAFE ends: LISTEN, whatever TARGET holds; the rows evaluate TARGET from the next commit point (R416). -/
def leaveSafe (s : State) : State :=
  if s.power.mode = .safe then setMode (setPower s { s.power with rowsOff := true }) .listen else s

/-- A DOZE_ACK with ALLOW = 0 came into force in DOZE (R415). -/
def recallStep (s : State) : State :=
  if s.power.recallPend then
    setBit (setTarget (setPower s { s.power with recallPend := false }) 1) Reg.globalStat 4
  else s

end Sys2Proof.Machine
end

