-- ==== Sys2Proof/Machine/Selvedge.lean ====
section
/-! DEFINITION. Machine/Selvedge.lean: the safety path's latch, and Selvedge: reports, history, storms, recovery, the fatal
state (R436 to R461). -/

namespace Sys2Proof.Machine

open Sys2Proof

def setSafety (s : State) (x : Safety) : State := { s with safety := x }
def setSelvedge (s : State) (x : Selvedge) : State := { s with selvedge := x }

/-- Notifications of SELVEDGE_NOTIFY (R461). -/
def selvNotify (s : State) (sub payload : Nat) : State := notifyReg s Reg.selvedgeNotify 0 sub payload

/-! ## The latch of the safety path (R453 to R457) -/

/-- SAFE_CUT_N goes low, or stays low. -/
def cutLow (s : State) : State := setSafety s { s.safety with cutSince := some (s.safety.cutSince.getD s.ns) }

/-- Latches within the last 524,288 picks (R457). -/
def recentLatches (s : State) : List Nat := s.safety.latchTimes.filter (fun t => decide (s.pick.commits - t < 524288))

/-- Set the latch (R454, R457). Reasons 8 (FATAL) and 9 (PROOF) replace a standing latch of reasons 1 to 7; no other latch
replaces a standing one. In the power-on hold only a failed proof test latches (R455). -/
def safetyLatch (reason channel : Nat) (s : State) : State :=
  let x := s.safety
  if !x.vddSafe || (x.hold && reason != 9) || (x.latch && (decide (reason < 8) || decide (8 ≤ x.reason))) then s
  else
    let times := s.pick.commits :: recentLatches s
    let s := setSafety s { x with latch := true, reason := reason, channel := channel % 4, proofSince := false, hold := false
                                  latchTimes := times, locked := x.locked || decide (3 ≤ times.length), clrFirst := none
                                  clrPending := false, lostLatch := false }
    let s := endBursts (cancelBursts (enterSafe (cutLow s)))
    let s := selvNotify (count (setReg s Reg.safetyLatchPick (s.pick.count % 2 ^ 32)) 17 10) 0x4B reason
    if reason < 8 then raiseFree s 0x26 0x090 else if reason = 9 then raiseFree s 0x26 0x091 else s

/-- A latch whose declaring channels the spec does not name: CHANNEL takes a free value (log entry 10). -/
def safetyLatchAny (reason : Nat) (s : State) : State :=
  let (x, s) := draw s
  safetyLatch reason (1 + x % 3) s

/-- An accepted clearing sequence clears the latch at step 2 (R456). -/
def safetyClear (s : State) : State :=
  if s.safety.clrPending then
    let s := setSafety s { s.safety with latch := false, clrPending := false, cutSince := none }
    let s := setWeft s { s.weft with sinceClear := 0 }
    selvNotify (leaveSafe s) 0x4C 0
  else if s.safety.lostLatch && s.safety.holdPassed && !s.safety.latch then
    leaveSafe (setSafety s { s.safety with lostLatch := false, holdPassed := false })
  else s

/-- The windows that stand: none while ACT_HELD.HELD is 1 or the path holds a latch (R451). -/
def windowsNow (s : State) : List (List (Int × Int)) :=
  if s.act.held || s.safety.latch || s.safety.hold then [] else s.safety.windows

/-- The instant lies outside every window of the pending maps, each widened by `m` symbols on both sides (R452). -/
def outsideBy (s : State) (m : Int) (pos : List Int) : Bool :=
  (List.zip (windowsNow s) pos).all (fun e => e.1.all (fun w => decide (e.2 < w.1 - m) || decide (w.2 + m < e.2)))

/-- LAG in weft symbols: 199.0656 symbols in 8 ns (R84, R453). -/
def lagSymbols (s : State) : Int := (fld s Reg.safetyMpdCfg 6 0 * 1990656 / 10000 : Nat)

/-- MPD_IN has exceeded THRESH for PERSIST. -/
def mpdPersists (s : State) (x : SafetySeen) : Bool := decide (8 * fld s Reg.safetyMpdCfg 15 8 ≤ x.mpdNs)

/-- The condition of a reason of R453 holds. Each edge of the envelope lies 48 to 64 symbols outside its window (R452): an
instant between may be declared. -/
def dangerSeen (s : State) (reason : Nat) (x : SafetySeen) : Bool :=
  match reason with
  | 1 => x.en && outsideBy s 48 x.pos
  | 2 => mpdPersists s x && outsideBy s (48 + lagSymbols s) x.pos
  | 3 => s.act.held && (x.en || mpdPersists s x)
  | 4 => x.linkMissing
  | 5 => decide (x.clock < 850) || decide (1150 < x.clock)
  | 6 => decide (1000 ≤ x.disagreeNs) || x.memErr
  | _ => false

/-- SAFETY_DECLARE: a channel declares the dangerous failure `reason`, 1 to 6, whose condition holds on what it sees (R453,
R454). -/
def execSafetyDeclare (reason channel : Nat) (s : State) (seen : SafetySeen := {}) : Host.Outcome State Fault Refusal :=
  .next (if 1 ≤ channel ∧ channel ≤ 3 ∧ dangerSeen s reason seen = true then
    safetyLatch reason channel (setSafety s { s.safety with mpdNow := s.safety.mpdNow || decide (0 < seen.mpdNs) })
  else s)

/-- SAFETY_LINK_UPDATE: a message of the activation link updates the copies; a bad CRC or a gap in the sequence latches
with reason LINK (R450). -/
def execSafetyLinkUpdate (crcOk : Bool) (seq channel : Nat) (s : State) : Host.Outcome State Fault Refusal :=
  .next (if !s.safety.vddSafe then s
  else if crcOk ∧ seq = s.safety.linkSeq + 1 then
    setSafety s { s.safety with tid := (match s.act.tid with | some t => 2 ^ 31 + t | none => 1023), pre := s.act.pre, eqd := s.act.eqd
                                conts := sput 0 s.act.conts 0 (contZero s), linkSeq := seq }
  else safetyLatch 4 channel (setSafety s { s.safety with linkSeq := seq }))

/-- CUT_INEFFECTIVE: MPD_IN exceeds THRESH for PERSIST after SAFE_CUT_N has been low for 110 µs (R454). -/
def execCutIneffective (s : State) : Host.Outcome State Fault Refusal :=
  .next (match s.safety.cutSince with
  | some t =>
    if s.safety.vddSafe ∧ t + 110000 + 8 * fld s Reg.safetyMpdCfg 15 8 ≤ s.ns then
      raiseFree (setSafety s { s.safety with mpdNow := true }) 0x26 0x092
    else s
  | none => s)

/-- VDD_SAFE_LOSS: VDD_SAFE leaves its range; SAFE_CUT_N is low (R455, R468). -/
def execVddSafeLoss (s : State) : Host.Outcome State Fault Refusal :=
  .next (cutLow (setSafety s { s.safety with vddSafe := false, proofOk := false, clrFirst := none, clrPending := false }))

/-- VDD_SAFE_RETURN: the path holds the cut until its first proof test passes. `removed`: the supply was removed in the
sense of R466, which loses a latch; otherwise a latch stands (R455, R457). -/
def execVddSafeReturn (removed : Bool) (s : State) : Host.Outcome State Fault Refusal :=
  .next (if s.safety.vddSafe then s
  else if s.safety.latch && !removed then setSafety s { s.safety with vddSafe := true }
  else regsLost 9 (setSafety s { lostLatch := s.safety.latch || s.safety.lostLatch, cutSince := s.safety.cutSince }))

/-- A write to SAFETY_CLR (R456). -/
def safetyKey (v : Nat) (s : State) : State :=
  if !s.safety.vddSafe then s
  else if v = 0x5AFE then setSafety s { s.safety with clrFirst := some s.now }
  else
    let first := s.safety.clrFirst
    let s := setSafety s { s.safety with clrFirst := none }
    match first with
    | some t =>
      if v = 0xA501 ∧ s.now - t ≤ 125000 then
        let x := s.safety
        if x.latch && decide (1 ≤ x.reason) && decide (x.reason ≤ 7) && !x.locked && x.proofSince && !x.enNow && !x.mpdNow then
          setSafety s { x with clrPending := true }
        else setBit s Reg.safetyStat 23
      else s
    | none => s

/-! ## The fatal state (R449) -/

/-- The first fatal report: recorded in AON, FATAL set, the safety path latches (R449). -/
def fatalEnter (source code ctx : Nat) (s : State) : State :=
  if s.selvedge.fatal then s
  else
    let s := if flag s Reg.selvedgeFatal 31 then s
      else setReg (setReg (setReg s Reg.selvedgeFatal (2 ^ 31 + source * 2 ^ 20 + code)) Reg.selvedgeFatalCtx (ctx % 2 ^ 32))
        Reg.selvedgeFatalPick (s.pick.count % 2 ^ 32)
    safetyLatchAny 8 (setSelvedge s { s.selvedge with fatal := true })

/-! ## Proof test (R458) -/

/-- The end of a proof test: it passes with step 0, or fails at a step. `ticks`: its duration in 10 ns. A fatal record in
AON makes the path latch again once its first test after the hold has passed (R449). -/
def proofEnd (step ticks : Nat) (s : State) : State :=
  let s := setFld s Reg.safetyProof 15 0 (min 65535 ticks)
  if step = 0 then
    let x := s.safety
    let s := setSafety s { x with proofOk := true, proofSince := true, hold := false
                                  cutSince := if x.latch then x.cutSince else if x.hold then none else x.cutSince
                                  holdPassed := x.holdPassed || (x.hold && x.lostLatch) }
    let s := count (setBit s Reg.safetyProof 31) 17 11
    if x.hold && flag s Reg.selvedgeFatal 31 then safetyLatchAny 8 s else s
  else safetyLatchAny 9 (setFld (clrBit s Reg.safetyProof 31) Reg.safetyProof 19 16 step)

/-- A proof test that runs over its pick is fatal (R30, R458). -/
def proofOverrun (clocks : Nat) (s : State) : State :=
  safetyLatchAny 9 (clrBit (overrunEv s 12 0x26 clocks) Reg.safetyProof 31)

/-- PROOF_TEST: the test of the repeat that began at this commit point ends. -/
def execProofTest (step ticks : Nat) (overrun : Bool) (s : State) : Host.Outcome State Fault Refusal :=
  .next (if s.safety.vddSafe ∧ step ≤ 8 ∧ (overrun = true ∨ s.pick.count % 8192 = 0) then
    (if overrun then proofOverrun (10 * ticks) s else proofEnd step ticks s)
  else s)

/-! ## Reports and history (R439 to R442) -/

/-- The next report: sources round-robin after the one served last, the oldest report of the source. -/
def nextReport (v : Selvedge) : Option Report :=
  ((List.range 0x29).map (fun k => (v.rr + 1 + k) % 0x29)).findSome? (fun c => v.waiting.find? (fun r => r.source == c))

/-- The report coalesces into the entry (R442). -/
def coalesces (s : State) (r : Report) (e : HistEntry) : Bool :=
  e.isOpen && e.rootSource == r.rootSource && e.rootCode == r.rootCode && decide (r.cls ≤ e.cls) && (decide (s.now < e.first + 125000) || e.late.isSome)

/-- Replace the first entry that satisfies `p`. -/
def histFirst (p : HistEntry → Bool) (f : HistEntry → HistEntry) : List HistEntry → List HistEntry
  | [] => []
  | e :: t => if p e then f e :: t else e :: histFirst p f t

/-- Enter a report in the history (R440, R442). -/
def histAdd (s : State) (r : Report) : State :=
  let v := s.selvedge
  if v.hist.any (coalesces s r) then
    let f := fun (e : HistEntry) => { e with count := min 65535 (e.count + 1), sources := e.sources ||| 2 ^ r.source }
    count (setSelvedge s { v with hist := histFirst (coalesces s r) f v.hist }) 17 4
  else if r.cls = 1 ∧ flag s Reg.selvedgeCtrl 0 = false then s
  else
    let e : HistEntry :=
      { pick := s.pick.count, count := 0, cls := r.cls, isOpen := true, source := r.source, code := r.code, ctx := r.ctx
        sources := 2 ^ r.source, rootSource := r.rootSource, rootCode := r.rootCode, seq := v.seq, first := s.now }
    let s := count s 17 5
    let s := if v.hist.length < 32 then s else setBit (count s 17 6) Reg.selvedgeStat 0
    let s := setSelvedge s { v with hist := (e :: v.hist).take 32, seq := (v.seq + 1) % 2 ^ 32 }
    if r.cls = 1 then s
    else selvNotify s 0x48 (r.cls + r.source * 2 ^ 8 + r.code * 2 ^ 16 + r.ctx % 2 ^ 32 * 2 ^ 32 + e.seq * 2 ^ 64)

/-- Recovery limit in picks by source (R445); none for a source that Selvedge does not recover. -/
def recoverLimit (src : Nat) : Option Nat :=
  if src = 0 ∨ src = 0x23 ∨ 0x26 ≤ src then none
  else if src = 0x0C ∨ (0x10 ≤ src ∧ src ≤ 0x13) then some 0
  else if src = 0x0D ∨ src = 0x14 ∨ (0x20 ≤ src ∧ src ≤ 0x22) then some 2
  else if src = 0x0E then some 8
  else if src = 0x0F then some 4
  else some 1

/-- The code has the unit recovery attribute (R438). -/
def startsRecovery (r : Report) : Bool :=
  (r.code == 0x011 || r.code == 0x020 || r.code == 0x070) && (recoverLimit r.source).isSome

/-- Take one report (R439, R444, R445, R449). -/
def recordReport (s : State) (r : Report) : State :=
  let s := histAdd (count (count s 17 0) 17 r.cls) r
  let s := if r.cls = 2 then
      let u := unitAt s r.source
      let u := if s.selvedge.pend.testBit r.source then u else { u with code := r.code, ctx := r.ctx }
      let u := if startsRecovery r && u.st == .ok && !s.selvedge.fatal then
          { u with start := if recoverLimit r.source = some 0 then u.start + 1 else 1 }
        else u
      setUnit (setSelvedge s { s.selvedge with pend := s.selvedge.pend ||| 2 ^ r.source }) r.source u
    else s
  if r.cls = 3 then fatalEnter r.source r.code r.ctx s else s

/-- Selvedge takes the next waiting report, if there is one. -/
def takeReport (s : State) : State :=
  match nextReport s.selvedge with
  | none => s
  | some r => recordReport (setSelvedge s { s.selvedge with waiting := s.selvedge.waiting.erase r, rr := r.source }) r

/-- Take every report that waits: a pick has far more core clocks than reports can wait (R439). -/
def takeAll : Nat → State → State
  | 0, s => s
  | n + 1, s => if s.selvedge.waiting.isEmpty then s else takeAll n (takeReport s)

/-- What the unit itself does when it finds the fault (R242, R388, R445, R473). -/
def detect (f : FaultIn) (s : State) : State :=
  if f.source = 0x0E then
    if f.code = 0x010 then bumpFld s Reg.dramEcc 15 0 else if f.code = 0x011 then bumpFld s Reg.dramEcc 31 16 else s
  else if 0x0F ≤ f.source ∧ f.source ≤ 0x13 then
    if f.code = 0x010 then count s 9 10
    else if f.code = 0x011 ∧ f.source ≠ 0x0F ∧ bankHolds s.spool (f.source - 0x10) f.ctx = true then
      let b := sget {} s.spool.bufs f.ctx
      { s with spool := { s.spool with bufs := sput {} s.spool.bufs f.ctx { b with bad := true, badBy := f.source } } }
    else s
  else if f.source = 0x0C ∧ f.code = 0x011 then
    let cut := fun (d : Deck) => sput [] d (deckKey f.table f.index) []
    setHeddle s (if f.deckB then { s.heddle with deckB := cut s.heddle.deckB } else { s.heddle with deckA := cut s.heddle.deckA })
  else if f.source = 0x0D ∧ f.code = 0x011 then
    match s.flow.cache[f.index]? with
    | some l => setFlow (count s 5 14) { s.flow with cache := s.flow.cache.erase l, placeQ := if l.placing then s.flow.placeQ.erase l.key else s.flow.placeQ }
    | none => s
  else s

/-- Faults that a unit reports beside those of the other commands: memory errors, poisoned work, Selvedge's own state. -/
def faultKnown (f : FaultIn) : Bool :=
  decide (f.source ≤ 0x28) && (f.code == 0x010 || f.code == 0x011 || f.code == 0x012 || (f.code == 0x0A2 && f.source == 0x27))

/-- FAULT_REPORT: a unit may report a fault, or an uncorrectable word faults a Skein core (R408); then Selvedge takes the
next waiting report (R439). -/
def execFaultReport (f : Option FaultIn) (s : State) : Host.Outcome State Fault Refusal :=
  .next (takeReport (match f with
  | none => s
  | some f =>
    if f.code = 0x070 ∧ 0x20 ≤ f.source ∧ f.source ≤ 0x23 then faultCore s (f.source - 0x20) 4
    else if faultKnown f then raiseRoot (detect f s) f.source f.code (f.ctx % 2 ^ 32) f.rootSource f.rootCode
    else s))

/-- The entry is due to close at this commit point (R443). -/
def stormDue (s : State) (e : HistEntry) : Bool :=
  e.isOpen && decide (e.first + 125000 ≤ s.pick.began) && e.late != some s.pick.commits

/-- The close of the storm window overruns its budget: entries that are due stay open until the next commit point (R29,
R443). -/
def stormLate (s : State) : State :=
  setSelvedge s { s.selvedge with hist := s.selvedge.hist.map (fun e => if stormDue s e then { e with late := some s.pick.commits } else e) }

/-- STORM_CLOSE: open entries whose first report lies 125,000 core clocks before the commit point close (R443). -/
def execStormClose (s : State) : Host.Outcome State Fault Refusal :=
  let due := stormDue s
  let gone := (s.selvedge.hist.filter due).reverse
  let s := setSelvedge s { s.selvedge with hist := s.selvedge.hist.map (fun e => if due e then { e with isOpen := false } else e) }
  .next (gone.foldl (fun s e =>
    if e.count = 0 then s
    else selvNotify s 0x49 (e.source + e.code * 2 ^ 16 + e.count * 2 ^ 32 + e.seq * 2 ^ 64)) s)

/-! ## Recovery (R445 to R448) -/

/-- Counters of sweep group `g` (the counter tables of the chapters). -/
def groupSize (g : Nat) : Nat :=
  [14, 17, 12, 13, 19, 15, 12 + 8 * 2048, 3 * 16384, 2 * 1024, 19, 14, 16 * 32, 14 * 16, 12, 19, 12, 8, 12].getD g 0

/-- Groups of a mask, ascending. -/
def maskGroups (m : Nat) : List Nat := bitList 18 m

/-- Counters of the groups of a mask, in the order of a sweep record (R36). -/
def cellKeys (m : Nat) : List Nat := (maskGroups m).flatMap (fun g => (List.range (groupSize g)).map (cntKey g))

/-- An abandoned export's point counts as skipped (R35, R445): its frozen banks count on, so no event is lost (R33), and the
next record tells of the points skipped and of a jump since the last one written (R36). -/
def sweepAbandon (x : SweepExport) (s : State) : State :=
  let s := (List.zip (cellKeys x.groups) x.cells).foldl (fun s e => if e.2 = 0 ∨ domOn s (cntDomain e.1) = false then s else countKey s e.1 e.2) s
  count (setPick s { s.pick with exporting := none, skipped := min 0xFFFFFFFF (s.pick.skipped + x.skipped + 1), jumped := s.pick.jumped || x.jump }) 18 0

/-- A host command whose work the failed unit did completes DROPPED_FAULT (R445, R447). -/
def dropWorks (lo hi : Nat) (s : State) : State := endWorks Status.droppedFault (codeIn lo hi) s

/-- The action of a unit that enters RECOVERING (the table of R445); what it needs at its return is in `recoverEnd`. -/
def recoverAction (src ctx : Nat) (s : State) : State :=
  if src = 0x01 then
    match s.pick.exporting with
    | some x => sweepAbandon x s
    | none => s
  else if 0x02 ≤ src ∧ src ≤ 0x05 then pickFail s
  else if src = 0x06 ∨ src = 0x07 then endBursts (cancelBursts s)
  else if src = 0x09 then setCapFifo (setCapFifo s 0 []) 1 []
  else if src = 0x0A ∨ src = 0x0B then
    let gone := s.heddle.flights.filter (fun x => x.pipe == src - 0x0A && x.verdict == .again)
    gone.foldl (fun s x => frameGone (count (dropFlight s x) 4 2) x.frame) s
  else if src = 0x0D then
    let s := missesResolve s
    let lost := s.flow.cache.filter (·.placing)
    let s := dropWorks 0x48 0x48 (countBy s 5 14 lost.length)
    setFlow s { s.flow with placeQ := [], inserts := [], cache := s.flow.cache.filter (fun l => !l.placing) }
  else if src = 0x14 then
    let s := flushAll s
    let full := fun (m : Nat) => (bits (mWord s m 3) 23 0 * 1000000, bits (mWord s m 4) 23 0 * 1000000)
    setReed s { s.reed with
      meters := s.reed.mrec.foldl (fun acc e => sput {} acc e.1 { c := (full e.1).1, p := (full e.1).2, last := s.ns }) s.reed.meters
      buckets := s.reed.shIn.foldl (fun acc e => sput (0, 0) acc e.1 ((shCbs s.reed.shIn e.1 * 512 : Nat), (shPbs s.reed.shIn e.1 * 512 : Nat))) s.reed.buckets }
  else if src = 0x16 then
    let ws := s.host.work.filter (codeIn 0x68 0x68)
    ws.foldl (fun s w => workEnd (if gcmUsesCtx w.desc then setGcmCtx s (gcmCtx w.desc) none else s) w.ring w.index Status.droppedFault 0) s
  else if src = 0x17 then
    match s.sec.idJob with
    | some (r, i) => workEnd s r i Status.droppedFault 0
    | none => s
  else if src = 0x18 ∨ src = 0x19 then macLink (macAbort s (ctx % 32)) (ctx % 32) false
  else if src = 0x1A ∨ src = 0x1B then
    let n := ctx % 16
    if 4 ≤ laneCode (laneAt s n).st then laneGo (laneUnlock s n) n .train else s
  else if src = 0x1C then draftLate 0 s
  else if src = 0x1D ∨ src = 0x1E then hostRecover s
  else if src = 0x1F then shuttleRecover s
  else if 0x20 ≤ src ∧ src ≤ 0x22 then
    let c := src - 0x20
    let ecc := fld s (Reg.skeinCoreFault c) 26 24 == 4
    let s := if ecc && !s.sec.image.isEmpty then
        setCore s c (loadSections s.sec.image (fun t g => t == 1 && g == c) (if (coreAt s c).bank then 0x2000 else 0) (coreAt s c))
      else s
    skeinRecover s c
  else if src = 0x24 then setTension s { s.tension with skipReview := true }
  else if src = 0x25 then
    if s.sec.job = .none then s else endWorks Status.errFlash (codeIn 0x60 0x61) (imgStop s)
  else s

/-- What a unit does as it returns. -/
def recoverEnd (src : Nat) (s : State) : State :=
  if src = 0x1D ∨ src = 0x1E then hostResume s
  else if 0x20 ≤ src ∧ src ≤ 0x22 then skeinResume s (src - 0x20)
  else s

/-- Recoveries of a source within the last 65,536 picks. -/
def recentRecoveries (s : State) (u : UnitInfo) : List Nat := u.times.filter (fun t => decide (s.pick.commits - t < 65536))

/-- HOSTIF, HOSTCTL and Selvedge never park (R446). -/
def neverParks (src : Nat) : Bool := src == 0x1D || src == 0x1E || src == 0x27

/-- A unit enters RECOVERING; with a limit of 0 it is recovered at once (R445). -/
def recoverBegin (src : Nat) (s : State) : State :=
  let u := unitAt s src
  let s := count s 17 8
  let times := s.pick.commits :: recentRecoveries s u
  if recoverLimit src = some 0 then
    selvNotify (setUnit s src { u with st := .ok, times := times }) 0x4A (src + 256)
  else recoverAction src u.ctx (setUnit s src { u with st := .recovering, age := 0, times := times })

/-- One recovery of a unit in OK, or its parking where it is the fourth within 65,536 picks (R445, R446). -/
def recoverOne (src : Nat) (s : State) : State :=
  let u := unitAt s src
  if u.st != .ok then s
  else if decide (3 ≤ (recentRecoveries s u).length) && !neverParks src then
    let s := count s 17 9
    let s := setUnit s src { u with st := .parked, times := s.pick.commits :: recentRecoveries s u }
    selvNotify s 0x4A (src + 512)
  else recoverBegin src s

/-- Step 10 of a commit point: the recoveries that reports asked for start (R445, R446). -/
def recoverStart (s : State) : State :=
  if s.selvedge.fatal then s
  else (s.selvedge.units.map (·.1)).foldl (fun s src =>
    let u := unitAt s src
    (List.replicate u.start src).foldl (fun s c => recoverOne c s) (setUnit s src { u with start := 0 })) s

/-- Step 2 of a commit point: units that recover count it. -/
def recoverAge (s : State) : State :=
  (s.selvedge.units.map (·.1)).foldl (fun s src =>
    let u := unitAt s src
    if u.st = .recovering then setUnit s src { u with age := u.age + 1 } else s) s

/-- RECOVERY_END: a unit returns at a commit point, in step 2, and enters OK (R445). -/
def execRecoveryEnd (src : Nat) (s : State) : Host.Outcome State Fault Refusal :=
  .next (let u := unitAt s src
    if u.st = .recovering ∧ 1 ≤ u.age ∧ s.selvedge.fatal = false then
      selvNotify (recoverEnd src (setUnit s src { u with st := .ok })) 0x4A (src + 256)
    else s)

/-- A write of RESTART: a PARKED unit runs one recovery, its count restarting at 1; one whose limit is 0 is OK again at
once and its recovery is posted at the next step 10 (R445, R446). -/
def selvRestart (s : State) : State :=
  let src := fld s Reg.selvedgeUnitSel 7 0
  let u := unitAt s src
  if u.st = .parked ∧ s.selvedge.fatal = false then
    if recoverLimit src = some 0 then setUnit s src { u with st := .ok, times := [], start := 1 }
    else recoverBegin src (setUnit s src { u with times := [] })
  else s

/-- A write to SELVEDGE_PEND_LO or _HI: `mask` by source (R444). -/
def pendClear (mask : Nat) (s : State) : State :=
  (bitList 0x29 mask).foldl (fun s c =>
    if (unitAt s c).st != .ok || (c == 0x26 && s.safety.latch) then setBit s Reg.selvedgeStat 2
    else
      let pend := s.selvedge.pend
      let s := setSelvedge s { s.selvedge with pend := pend - (if pend.testBit c then 2 ^ c else 0) }
      setUnit s c { unitAt s c with code := 0, ctx := 0 }) s

/-- FAULT_N is low (R444). -/
def faultLow (s : State) : Bool := s.selvedge.pend != 0 || s.selvedge.fatal

/-- The eight words of a history entry (R440). -/
def histWord (e : HistEntry) (k : Nat) : Nat :=
  match k with
  | 0 => e.pick % 2 ^ 32
  | 1 => e.count % 2 ^ 16 * 2 ^ 16 + e.pick / 2 ^ 32 % 2 ^ 16
  | 2 => e.cls % 4 * 2 ^ 30 + b2n e.isOpen * 2 ^ 29 + 2 ^ 28 + e.source % 256 * 2 ^ 20 + e.code % 2 ^ 12
  | 3 => e.ctx % 2 ^ 32
  | 4 => e.sources % 2 ^ 32
  | 5 => e.sources / 2 ^ 32 % 2 ^ 32
  | 6 => e.rootSource % 256 * 2 ^ 20 + e.rootCode % 2 ^ 12
  | _ => e.seq % 2 ^ 32

/-- A write to SELVEDGE_HIST_SEL copies the entry of the age; an age that holds no report reads 0 (R441). -/
def histCopy (s : State) : State :=
  let e := s.selvedge.hist[fld s Reg.selvedgeHistSel 4 0]?
  forUpTo 8 s (fun k s => setReg s (Reg.selvedgeHistData k) (match e with | some e => histWord e k | none => 0))

/-- Registers of blocks SELVEDGE and SAFETY that show the units' state. -/
def selvRo (s : State) (a : Nat) : Option Nat :=
  let u := unitAt s (fld s Reg.selvedgeUnitSel 7 0)
  let x := s.safety
  if a = Reg.selvedgeStat then some (rdS s a % 8 + b2n s.selvedge.fatal * 2 ^ 31 + b2n (faultLow s) * 2 ^ 30)
  else if a = Reg.selvedgePendLo then some (s.selvedge.pend % 2 ^ 32)
  else if a = Reg.selvedgePendHi then some (s.selvedge.pend / 2 ^ 32)
  else if a = Reg.selvedgeHistSeq then some ((s.selvedge.hist.head?.map (·.seq)).getD 0)
  else if a = Reg.selvedgeUnitStat then
    some ((match u.st with | .ok => 0 | .recovering => 1 | .parked => 2) * 2 ^ 30 + min 4 (recentRecoveries s u).length * 2 ^ 24 + u.code % 2 ^ 12)
  else if a = Reg.selvedgeUnitCtx then some (u.ctx % 2 ^ 32)
  else if a = Reg.safetyStat then
    some (b2n x.latch * 2 ^ 31 + b2n x.locked * 2 ^ 30 + b2n x.hold * 2 ^ 29 + b2n x.proofOk * 2 ^ 28 + b2n x.proofSince * 2 ^ 27
      + b2n x.cutSince.isSome * 2 ^ 26 + b2n x.enNow * 2 ^ 25 + b2n x.mpdNow * 2 ^ 24 + bits (rdS s a) 23 23 * 2 ^ 23
      + x.channel % 4 * 2 ^ 16 + x.reason % 16 * 2 ^ 12 + min 3 (recentLatches s).length)
  else if a = Reg.safetyForce then some (b2n (x.latch && x.reason == 7))
  else none

end Sys2Proof.Machine
end

