-- ==== Sys2Proof/Machine/HostAccess.lean ====
section
/-! DEFINITION. Machine/HostAccess.lean: host accesses to BAR0 and BAR2 (R8 to R14, R22, R337, R475, R477): what a read
returns and changes, and what a write does to each field, by the access codes of the register tables and by the rules of
the registers that have rules of their own. -/

namespace Sys2Proof.Machine

open Sys2Proof

/-! ## Counters by register (R11, R31) -/

/-- Counter registers of fixed groups: offset of the first low register, number of counters, sweep group. -/
def cntBlocks : List (Nat × Nat × Nat) :=
  [ (Reg.warpCntLo 0, 14, 0), (Reg.weftCntLo 0, 17, 1), (Reg.actCntLo 0, 12, 2), (Reg.timeCntLo 0, 13, 3), (Reg.heddleCntLo 0, 19, 4)
  , (Reg.heddleFlowCntLo 0, 15, 5), (Reg.reedGcntLo 0, 12, 6), (Reg.spoolCntLo 0, 19, 9), (Reg.secCntLo 0, 14, 10)
  , (Reg.draftCntLo 0, 12, 13), (Reg.hostCntLo 0, 19, 14), (Reg.shuttleCntLo 0, 12, 15), (Reg.tensionCntLo 0, 8, 16)
  , (Reg.selvedgeCntLo 0, 12, 17), (Reg.pickSweepSkipLo, 1, 18) ]

/-- The counter of position `n` of the entity that REED_CNT_SEL names; none where the entity has no such counter. -/
def reedSelKey (s : State) (n : Nat) : Option Nat :=
  let i := fldS s Reg.reedCntSel 13 0
  match fldS s Reg.reedCntSel 17 16 with
  | 0 => if i < 2048 then some (cntKey 6 (12 + 8 * i + n)) else none
  | 1 => if n < 3 then some (cntKey 7 (3 * i + n)) else none
  | 2 => if n < 2 ∧ i < 1024 then some (cntKey 8 (2 * i + n)) else none
  | _ => none

/-- Position of offset `a` in an array of `n` register pairs from `base`: low or high word. -/
def pairAt (a base n : Nat) : Option Nat :=
  if base ≤ a ∧ a < base + 8 * n ∧ a % 4 = 0 then some ((a - base) / 8) else none

/-- The counter that a CNT_LO or CNT_HI register shows: the low register's offset and the counter's key. -/
def cntReg (s : State) (a : Nat) : Option (Nat × Option Nat) :=
  match cntBlocks.find? (fun b => (pairAt a b.1 b.2.1).isSome) with
  | some b => (pairAt a b.1 b.2.1).map (fun n => (b.1 + 8 * n, some (cntKey b.2.2 n)))
  | none =>
    match pairAt a (Reg.reedCntLo 0) 8, pairAt a (Reg.macCntLo 0) 16, pairAt a (Reg.laneCntLo 0) 14 with
    | some n, _, _ => some (Reg.reedCntLo n, reedSelKey s n)
    | _, some n, _ => some (Reg.macCntLo n, some (cntKey 11 (16 * fldS s Reg.macCntSel 4 0 + n)))
    | _, _, some n => some (Reg.laneCntLo n, some (cntKey 12 (14 * fldS s Reg.laneCntSel 3 0 + n)))
    | _, _, _ => none

/-- The counters whose saturation bits a CNT_SAT register shows, from bit 0 on. -/
def satKeys (s : State) (a : Nat) : Option (List (Option Nat)) :=
  let fixed := fun g n => some ((List.range n).map (fun i => some (cntKey g i)))
  if a = Reg.pickCntSat then fixed 18 1
  else if a = Reg.warpCntSat then fixed 0 14
  else if a = Reg.weftCntSat then fixed 1 17
  else if a = Reg.actCntSat then fixed 2 12
  else if a = Reg.timeCntSat then fixed 3 13
  else if a = Reg.heddleCntSat then fixed 4 19
  else if a = Reg.heddleFlowCntSat then fixed 5 15
  else if a = Reg.reedCntSat then fixed 6 12
  else if a = Reg.reedCntEsat then some ((List.range 8).map (reedSelKey s))
  else if a = Reg.spoolCntSat then fixed 9 19
  else if a = Reg.secCntSat then fixed 10 14
  else if a = Reg.macCntSat then some ((List.range 16).map (fun n => some (cntKey 11 (16 * fldS s Reg.macCntSel 4 0 + n))))
  else if a = Reg.laneCntSat then some ((List.range 14).map (fun n => some (cntKey 12 (14 * fldS s Reg.laneCntSel 3 0 + n))))
  else if a = Reg.draftCntSat then fixed 13 12
  else if a = Reg.hostCntSat then fixed 14 19
  else if a = Reg.shuttleCntSat then fixed 15 12
  else if a = Reg.tensionCntSat then fixed 16 8
  else if a = Reg.selvedgeCntSat then fixed 17 12
  else none

/-- Some counter with a key in the range has a saturation bit set. -/
def anySat (s : State) (lo hi : Nat) : Bool := s.sat.any (fun e => decide (lo ≤ e.1) && decide (e.1 < hi) && e.2)

/-- A number from bits, bit 0 first. -/
def ofBits (l : List Bool) : Nat := l.foldr (fun b v => b2n b + 2 * v) 0

/-- RO fields above the saturation bits: some entity of the kind, lane or MAC has a bit set. -/
def satExtra (s : State) (a : Nat) : Nat :=
  if a = Reg.reedCntSat then
    b2n (anySat s (cntKey 6 12) (cntKey 7 0)) * 2 ^ 31 + b2n (anySat s (cntKey 7 0) (cntKey 8 0)) * 2 ^ 30
      + b2n (anySat s (cntKey 8 0) (cntKey 9 0)) * 2 ^ 29
  else if a = Reg.laneCntSat then
    ofBits ((List.range 16).map (fun n => anySat s (cntKey 12 (14 * n)) (cntKey 12 (14 * (n + 1))))) * 2 ^ 16
  else 0

/-! ## What a read returns -/

/-- Status registers of GLOBAL and PICK that show state held elsewhere. Where the field tables are silent the model chooses:
PICK_LEN_RANGE shows 0 for lengths below 124,000 clocks and for a read with no pick ended since the last one, and CARRIED is
shown modulo 512 (log entry 75). -/
def basicRo (s : State) (a : Nat) : Option Nat :=
  let p := s.power
  if a = Reg.globalStat then
    some (modeCode p.mode * 2 ^ 29 + bits (rdS s a) 4 4 * 16 + b2n p.pwrFail * 8 + bits (rdS s a) 2 2 * 4 + b2n p.clkPll * 2 + b2n p.ready)
  else if a = Reg.globalClkStat then some (b2n p.lineRef * 4 + b2n p.lanePllLock * 2 + b2n p.corePllLock)
  else if a = Reg.globalPdStat then some p.isOn
  else if a = Reg.globalPdPend then some (pdPend s)
  else if a = Reg.globalTemp then some (unsigned 16 p.tempMax * 2 ^ 16 + unsigned 16 p.temp)
  else if a = Reg.pickStat then
    some (bits (rdS s a) 4 2 * 4 + (match s.pick.gen with | .free => 0 | .locked => 1 | .flywheel => 2))
  else if a = Reg.pickCountLo then some (s.pick.count % 2 ^ 32)
  else if a = Reg.pickCountHi then some (sget 0 s.hold Reg.pickCountLo)
  else if a = Reg.pickRepeat then some (s.pick.count % 8192)
  else if a = Reg.pickLen then
    let n := s.pick.lockedLens.length
    some (s.pick.len * 256 + (if n = 0 then 0 else (s.pick.lockedLens.foldl (· + ·) 0 * 256 / n) % 256))
  else if a = Reg.pickLenRange then
    some (match s.pick.range with
      | some (lo, hi) => min 0xFFFF (hi - 124000) * 2 ^ 16 + (if s.pick.rangeRead then min 0xFFFF (lo - 124000) else 0)
      | none => 0)
  else if a = Reg.pickCommitStat then some (s.pick.carried * 2 ^ 16 + s.pick.applied)
  else none

/-- Status registers of WARP, WEFT, HEDDLE and SPOOL that show state held elsewhere. -/
def pathRo (s : State) (a : Nat) : Option Nat :=
  let w := s.warp
  let sp := s.spool
  if a = Reg.warpStat then
    some (w.cands.length * 256 + b2n w.full * 128 + b2n ((reqAt s 0).state == .pending) * 64 + b2n w.cdrLock * 32
      + (match w.align with | .hunt => 0 | .presync => 1 | .sync => 2) * 8)
  else if a = Reg.warpDefect then some (rdS s a / 8 * 8 + b2n w.sd * 4 + b2n w.lof * 2 + b2n w.los)
  else if a = Reg.weftStat then
    some (bits (rdS s a) 7 7 * 128 + b2n (slNow s) * 64 + b2n (rdiNow s) * 32 + b2n ((reqAt s 1).state == .pending) * 16 + blockCode s)
  else if a = Reg.weftRei then some s.weft.rei
  else if a = Reg.heddleStat then
    some (s.heddle.gen * 2 ^ 16 + b2n s.heddle.loading.isSome * 4 + b2n s.heddle.frozen * 2 + b2n s.heddle.activeB)
  else if a = Reg.heddleEntCmd then some (s.heddle.result * 2 ^ 24)
  else if a = Reg.heddleFlowStat then
    some ((match s.flow.st with | .off => 0 | .invalid => 1 | .clearing => 2 | .valid => 3 | .rehash => 4) * 2 ^ 29 + s.flow.occ)
  else if a = Reg.heddleFlowStash then some (stashUsed s)
  else if a = Reg.spoolStat then
    some (sp.pools.length * 16 + b2n (layoutWaits s) * 8 + bits (rdS s a) 2 1 * 2 + b2n (spoolIdle s))
  else if Reg.spoolPoolFree 0 ≤ a ∧ a ≤ Reg.spoolPoolFree 3 then some (poolFree sp sp.bufs ((a - Reg.spoolPoolFree 0) / 4))
  else if Reg.spoolPoolLow 0 ≤ a ∧ a ≤ Reg.spoolPoolLow 3 then some (sget 0 sp.low ((a - Reg.spoolPoolLow 0) / 4))
  else if Reg.spoolPoolOutst 0 ≤ a ∧ a ≤ Reg.spoolPoolOutst 3 then some (poolOutst s sp.bufs ((a - Reg.spoolPoolOutst 0) / 4))
  else if Reg.spoolOwnUse 0 ≤ a ∧ a ≤ Reg.spoolOwnUse 63 then some (ownUse sp sp.bufs ((a - Reg.spoolOwnUse 0) / 4))
  else if Reg.spoolOwnHeld 0 ≤ a ∧ a ≤ Reg.spoolOwnHeld 255 then
    let i := (a - Reg.spoolOwnHeld 0) / 4
    some (ownHeld sp sp.bufs (i / 4) (i % 4))
  else none

/-- The address filter entry that MAC_ADDR_SEL names. -/
def filtSel (s : State) : Nat := 32 * fldS s Reg.macAddrSel 9 5 + fldS s Reg.macAddrSel 4 0

/-- The address filter window: staged words of the selected entry (R308). -/
def macRo (s : State) (a : Nat) : Option Nat :=
  let e := sget 0 s.ports.filtS (filtSel s)
  if a = Reg.macAddrLo then some (e % 2 ^ 32)
  else if a = Reg.macAddrHi then some (e / 2 ^ 48 * 2 ^ 31 + bits e 47 32)
  else if a = Reg.macCntAny then some (ofBits ((List.range 32).map (fun p => anySat s (cntKey 11 (16 * p)) (cntKey 11 (16 * (p + 1))))))
  else none

/-- Registers whose value stands in a unit's state. -/
def roOverlay (s : State) (a : Nat) : Option Nat :=
  [basicRo s a, pathRo s a, macRo s a, secRo s a, actRo s a, draftRo s a, hostRo s a, shuttleRo s a, skeinRo s a, selvRo s a].findSome? id

/-- Bits of a register that a read shows: fields that are not WO (R9). -/
def readMask (r : RegRow) : Nat :=
  r.fields.foldl (fun m f => if f.acc = .wo then m else m ||| ((2 ^ (f.hi + 1 - f.lo) - 1) * 2 ^ f.lo)) 0

/-- The value that a full read of the register at `a` returns, in a domain that is on. -/
def regValue (s : State) (a : Nat) : Nat :=
  match findRow a with
  | none => 0
  | some r =>
    match cntReg s a, satKeys s a with
    | some (lo, key), _ =>
      if a = lo then (key.map (fun k => sget 0 s.cnt k % 2 ^ 32)).getD 0 else sget 0 s.hold lo
    | _, some ks => ofBits (ks.map (fun k => (k.map (sget false s.sat)).getD false)) + satExtra s a
    | _, _ => ((roOverlay s a).getD (rdS s a)) &&& readMask r

/-! ## What a read changes -/

/-- Queue `q`'s high-water mark of position 6 or 7 restarts after a read or a sweep (R216); any other counter clears. -/
def cntRestart (s : State) (key : Nat) : State :=
  let p := key % 0x100000
  let v := if key / 0x100000 = 6 ∧ 12 ≤ p ∧ (p - 12) % 8 = 6 then min cntMax (queueOcc s ((p - 12) / 8)) else 0
  { s with cnt := sput 0 s.cnt key v }

/-- Fields with access RC clear as they are read (R9). -/
def clearRc (s : State) (a : Nat) : State :=
  match findRow a with
  | some r => r.fields.foldl (fun s f => if f.acc = .rc then setFld s a f.hi f.lo 0 else s) s
  | none => s

/-- What a read of the register at `a` changes (R9, R11). -/
def readEffect (s : State) (a : Nat) : State :=
  match cntReg s a with
  | some (lo, key) =>
    if a = lo then
      match key with
      | some k => cntRestart { s with hold := sput 0 s.hold lo (sget 0 s.cnt k / 2 ^ 32) } k
      | none => s
    else s
  | none =>
    if a = Reg.pickCountLo then { s with hold := sput 0 s.hold a (s.pick.count / 2 ^ 32) }
    else if a = Reg.globalTemp then { s with power := { s.power with tempMax := s.power.temp } }
    else if a = Reg.pickLenRange then { s with pick := { s.pick with range := none, rangeRead := true } }
    else if Reg.spoolPoolLow 0 ≤ a ∧ a ≤ Reg.spoolPoolLow 3 then
      let k := (a - Reg.spoolPoolLow 0) / 4
      { s with spool := { s.spool with low := sput 0 s.spool.low k (poolFree s.spool s.spool.bufs k) } }
    else clearRc s a

/-- Host software reaches the registers once READY has asserted, while the function is not in D3hot (R335, R336). -/
def hostReach (s : State) : Bool := s.power.ready && !s.host.pcie.d3hot

/-- The addressed bytes of a word. -/
def byteMask (be : Nat) : Nat := (List.range 4).foldl (fun m i => if be.testBit i then m + 255 * 2 ^ (8 * i) else m) 0

/-- What the host receives: the addressed bytes (R8). -/
def answerHost (be v : Nat) (s : State) : State := { s with hostRead := BitVec.ofNat 32 (v &&& byteMask be) }

/-- An access to a register whose domain is off (R14, R477). -/
def darkAccess (s : State) (a : Nat) : State := raiseFree s (regSource s a) 0x002

/-- The instance of an array of `n` registers from `base` at a stride that offset `a` names. -/
def instAt (a base stride n : Nat) : Option Nat :=
  if base ≤ a ∧ a < base + stride * n ∧ (a - base) % stride = 0 then some ((a - base) / stride) else none

/-- A read of the register at `a`, in a domain that is on: the full value stands in `hostRead`. -/
def regRead (a : Nat) (s : State) : State :=
  if a = Reg.timeNowNs then timeNowRead s
  else if a = Reg.skeinWinData then
    let (v, s) := skeinWindow none s
    { s with hostRead := BitVec.ofNat 32 v }
  else match instAt a (Reg.timeCapNs 0) 16 2, instAt a (Reg.laneYmgmtRxLo 0) 16 16 with
    | some i, _ => timeCapRead i s
    | _, some n => ymgmtRead n s
    | _, _ => { readEffect s a with hostRead := BitVec.ofNat 32 (regValue s a) }

/-- A host read of BAR0 offset `a` with byte enables `be` (R8, R14, R475). The SAFETY block does not count as off while VDD_SAFE
is absent: its registers read their values without DARK_ACCESS, and `regStore` drops their writes without an event (log
entry 54, DEDUCED). -/
def hostLoad (a be : Nat) (s : State) : State :=
  if !hostReach s then s
  else if 0x00F10000 ≤ a ∧ a < 0x00F11000 then answerHost be (msixWord s ((a - 0x00F10000) / 4)) s
  else if 0x00F11000 ≤ a ∧ a < 0x00F11020 then answerHost be (msixPba s ((a - 0x00F11000) / 4)) s
  else match findRow a with
    | none => answerHost be 0 s
    | some _ =>
      if domOn s (regDomain s a) then
        let s := regRead a s
        answerHost be s.hostRead.toNat s
      else answerHost be 0xD0FFD0FF (darkAccess s a)

/-! ## What a write does to a register's fields (R9, R10, R22) -/

/-- A field's value is not marked reserved. -/
def legal (f : Fld) (w : Nat) : Bool := f.ok.isEmpty || f.ok.any (fun r => decide (r.1 ≤ w) && decide (w ≤ r.2))

/-- One field of a write: staged word, word in force, and whether a field was refused. -/
def fldWrite (v : Nat) (x : Nat × Nat × Bool) (f : Fld) : Nat × Nat × Bool :=
  let w := bits v f.hi f.lo
  let old := bits x.1 f.hi f.lo
  match f.acc with
  | .staged => if w = old ∨ legal f w = true then (insBits x.1 f.hi f.lo w, x.2.1, x.2.2) else (x.1, x.2.1, true)
  | .imm =>
    if w = old ∨ legal f w = true then (insBits x.1 f.hi f.lo w, insBits x.2.1 f.hi f.lo w, x.2.2) else (x.1, x.2.1, true)
  | .wo => (x.1, x.2.1, x.2.2 || !(w == 0 || legal f w))
  | .w1c =>
    let c := bits x.2.1 f.hi f.lo
    (insBits x.1 f.hi f.lo (old - (old &&& w)), insBits x.2.1 f.hi f.lo (c - (c &&& w)), x.2.2)
  | .w1s => (insBits x.1 f.hi f.lo (old ||| w), insBits x.2.1 f.hi f.lo (bits x.2.1 f.hi f.lo ||| w), x.2.2)
  | .ro | .rc | .own => x

/-- Put a field of the written word back to what stands, and mark the write as refused in that field. -/
def keepFld (old hi lo : Nat) (x : Nat × Bool) : Nat × Bool := (insBits x.1 hi lo (bits old hi lo), true)

/-- Fields that a rule beyond their table keeps at their previous value: the word to write and whether one was refused. -/
def crossCheck (s : State) (a v : Nat) : Nat × Bool :=
  let old := rdS s a
  let keep := fun (c : Bool) (hi lo : Nat) => if c && bits v hi lo != bits old hi lo then keepFld old hi lo (v, false) else (v, false)
  if a = Reg.warpCtrl then keep (v.testBit 0 && !s.power.clkPll) 0 0
  else if a = Reg.warpSdCfg then keep (decide (bits v 11 8 ≤ bits v 3 0)) 11 8
  else if a = Reg.heddleFlowBase then keep (bits v 1 0 == bits v 5 4) 1 0
  else if a = Reg.spoolCtrl then keep (v.testBit 0 && !layoutValid s) 0 0
  else if a = Reg.laneGlobal then
    keep (v.testBit 31 && (List.range 16).any (fun n => (laneAt s n).st != .off && laneMode s n != 10)) 31 31
  else if a = Reg.dramCfg then keep (flag s Reg.dramCtrl 0) 0 0
  else if a = Reg.timeIncHi then
    if incOk (bits v 15 0 * 2 ^ 32 + rdS s Reg.timeIncLo) then (v, false) else keepFld old 15 0 (v, false)
  else match instAt a (Reg.laneCfg 0) 4 16, instAt a (Reg.laneTxCfg 0) 4 16, instAt a (Reg.macCfg 0) 4 32 with
    | some _, _, _ =>
      let m := bits v 19 16
      let f := bits v 13 12
      keep (!(f == 0 || (f == 1 && m == 6) || (f == 2 && decide (6 ≤ m) && decide (m ≤ 8)))) 13 12
    | _, some _, _ =>
      if 16 < bits v 10 8 + bits v 19 16 ∧ (bits v 10 8 ≠ bits old 10 8 ∨ bits v 19 16 ≠ bits old 19 16) then
        keepFld old 10 8 (keepFld old 19 16 (v, false))
      else (v, false)
    | _, _, some p => keep (v.testBit 30 && decide (0 < macRate s p) && decide (macRate s p < 25000)) 30 30
    | _, _, _ =>
      match instAt a (Reg.laneYholdThr 0) 4 16, instAt a (Reg.macPauseThr 0) 4 32, instAt a (Reg.tensionReqCfg 32) 4 32 with
      | some _, _, _ | _, some _, _ => keep (decide (bits v 31 16 ≤ bits v 15 0)) 15 0
      | _, _, some _ => (insBits v 4 4 0, false)
      | _, _, _ => (v, false)

/-- A write that is discarded whole as a programming error (R365, R410, R453, the caution after PICK_SWEEP_SEQ). -/
def refusedWhole (s : State) (a v : Nat) : Bool :=
  let old := rdS s a
  if a = Reg.globalPdCtrl then
    (List.range 32).any (fun d => !alwaysOn d && v.testBit d != old.testBit d &&
      (if v.testBit d then forbidden s.power.mode d || forbidden (targetMode (target s)) d
       else required s.power.mode d || required (targetMode (target s)) d))
  else if a = Reg.pickSweepSlots ∨ a = Reg.pickSweepBaseLo ∨ a = Reg.pickSweepBaseHi then
    flag s Reg.pickSweepCtrl 31 && decide (v ≠ old)
  else if a = Reg.hostCmdBaseLo ∨ a = Reg.hostCmdBaseHi then flag s Reg.hostCmdCfg 31 && decide (v ≠ old)
  else if a = Reg.hostCmdCfg then flag s Reg.hostCmdCfg 31 && v.testBit 31 && decide (v ≠ old)
  else if a = Reg.hostCqBaseLo ∨ a = Reg.hostCqBaseHi ∨ a = Reg.hostCqMod then flag s Reg.hostCqCfg 31 && decide (v ≠ old)
  else if a = Reg.hostCqCfg then flag s Reg.hostCqCfg 31 && v.testBit 31 && decide (v ≠ old)
  else if a = Reg.safetyMpdCfg then s.power.mode == .active && bits v 6 0 != bits old 6 0
  else false

/-! ## What a write does beside storing (the commands of the registers that have a row of their own) -/

/-- CLOCK_SWITCH (R426). -/
def clkSel (s : State) : State :=
  if s.power.corePllLock then
    setBit { s with power := { s.power with clkPll := true }
                    pick := { s.pick with switched := s.pick.switched || !s.power.clkPll } } Reg.globalClkCtrl 0
  else progErr s 0x00

/-- The address filter window: the selected entry's staged words; the high word arms it (R308). -/
def filtWrite (hi : Bool) (v : Nat) (s : State) : State :=
  let k := filtSel s
  if !domOn s (macDom (k / 32)) then s
  else
    let e := sget 0 s.ports.filtS k
    let e' := if hi then bits v 31 31 * 2 ^ 48 + bits v 15 0 * 2 ^ 32 + e % 2 ^ 32 else e / 2 ^ 32 * 2 ^ 32 + v
    let p := { s.ports with filtS := sput 0 s.ports.filtS k e' }
    { s with ports := if hi && !p.armed.contains k then { p with armed := p.armed ++ [k] } else p }

/-- Clear the saturation bits that a write names (R31). -/
def satClear (ks : List (Option Nat)) (v : Nat) (s : State) : State :=
  ((List.range ks.length).filter (fun n => v.testBit n)).foldl (fun s n =>
    match ks.getD n none with
    | some k => { s with sat := sput false s.sat k false }
    | none => s) s

/-- Effects of writes to registers of the line, time and control blocks; `old` is the staged word before the write. -/
def lineEffect (a v old : Nat) (s : State) : State :=
  if a = Reg.globalClkCtrl then (if v.testBit 0 then clkSel s else s)
  else if a = Reg.pickCtrl then (if old.testBit 0 && !v.testBit 0 then lockEnClear s else s)
  else if a = Reg.warpPmSel then (if legal ⟨4, 0, .imm, [(0, 18)]⟩ (bits v 4 0) then pmCopy (bits v 4 0) s else s)
  else if a = Reg.weftStat then (if v.testBit 7 then clrBit s Reg.weftStat 7 else s)
  else if a = Reg.actHeld then (if v.testBit 0 then actHeldSet s else s)
  else if a = Reg.timeCtrl then (if v.testBit 0 then setTime s { s.time with loadPend := true } else s)
  else if a = Reg.timeIncHi then
    (if incOk (bits v 15 0 * 2 ^ 32 + rdS s Reg.timeIncLo) then setTime s { s.time with incArmed := true } else s)
  else if a = Reg.timeStepLo then setReg s a v
  else if a = Reg.timeStepHi then setTime s { s.time with hostStep := some (signed 64 (v * 2 ^ 32 + rdS s Reg.timeStepLo)) }
  else s

/-- Effects of writes to registers of the traffic blocks. -/
def trafficEffect (a v : Nat) (s : State) : State :=
  if a = Reg.heddleEntCmd then (if 1 ≤ v % 8 ∧ v % 8 ≤ 6 then heddleWindow (v % 8) s else s)
  else if a = Reg.reedCtrl then (if v.testBit 1 then setReed s { s.reed with swapAsked := true } else s)
  else if a = Reg.reedAnchor then (if v.testBit 0 then setBit s a 0 else s)
  else if a = Reg.reedEntCmd then (if v % 8 = 1 ∨ v % 8 = 2 then reedWindow (v % 8) s else s)
  else if a = Reg.spoolCtrl then (if v.testBit 0 && !(rdS s a).testBit 0 then setBit s Reg.spoolStat 1 else s)
  else if a = Reg.secTrngCtrl then (if v.testBit 0 then trngRestart s else s)
  else if a = Reg.macAddrLo then filtWrite false v s
  else if a = Reg.macAddrHi then filtWrite true v s
  else if a = Reg.draftCtrl then (if v.testBit 1 then draftSwapAsk s else s)
  else if a = Reg.draftEntCmd then (if v % 8 = 1 ∨ v % 8 = 2 then draftWindow (v % 8) s else s)
  else match instAt a (Reg.laneYmgmtTxHi 0) 16 16 with
    | some n => if v.testBit 31 then ymgmtSend n s else s
    | none => s

/-- Effects of writes to registers of the host side, the cores, Selvedge and the safety path. -/
def hostEffect (a v : Nat) (s : State) : State :=
  if a = Reg.skeinWinData then (skeinWindow (some v) s).2
  else if a = Reg.skeinMboxCtrl then (if v.testBit 31 then mboxDoorbell s else s)
  else if a = Reg.selvedgePendLo then pendClear v s
  else if a = Reg.selvedgePendHi then pendClear (v % 512 * 2 ^ 32) s
  else if a = Reg.selvedgeHistSel then histCopy s
  else if a = Reg.selvedgeUnitCtrl then (if v.testBit 0 then selvRestart s else s)
  else if a = Reg.safetyClr then safetyKey v s
  else if a = Reg.safetyForce then (if v.testBit 0 then safetyLatchAny 7 s else s)
  else match instAt a (Reg.shuttleChCtrl 0) 4 16, instAt a (Reg.skeinCoreCtrl 0) 0x100 4 with
    | some c, _ =>
      let s := if v.testBit 0 then shAbort c s else s
      if v.testBit 1 then shWinReset c s else s
    | _, some c => if v.testBit 0 then resetCore s c else s
    | _, _ => s

/-- A full write of word `v` to the register at `a`, whose row is `r`, in a domain that is on. -/
def regStore (r : RegRow) (a v : Nat) (s : State) : State :=
  if 0x01400000 ≤ a ∧ a < 0x01500000 ∧ s.safety.vddSafe = false then s
  else if refusedWhole s a v then progErr s (regSource s a)
  else
    let old := rdS s a
    let (w, bad) := crossCheck s a v
    let x := r.fields.foldl (fldWrite w) (old, rd s a, bad)
    let s := force (stage s a x.1) a x.2.1
    let s := match satKeys s a with
      | some ks => satClear ks v s
      | none => s
    let s := hostEffect a v (trafficEffect a v (lineEffect a v old s))
    if x.2.2 then progErr s (regSource s a) else s

/-- A host write to BAR0 offset `a` with byte enables `be` (R8, R14, R475). -/
def hostStore (a be v : Nat) (s : State) : State :=
  if !hostReach s then s
  else if 0x00F10000 ≤ a ∧ a < 0x00F11020 then
    if be % 16 ≠ 15 then progErr s 0x1D else if a < 0x00F11000 then msixWrite ((a - 0x00F10000) / 4) v s else s
  else match findRow a with
    | none => progErr s 0x1D
    | some r =>
      if !domOn s (regDomain s a) then darkAccess s a
      else if be % 16 ≠ 15 then progErr s (regSource s a)
      else regStore r a v s

/-! ## The rows -/

/-- REG_WRITE: a host write to a register of BAR0. A register with a row of its own has that row's effect too. -/
def execRegWrite (addr : Nat) (be : BitVec 4) (v : Word) (s : State) : Host.Outcome State Fault Refusal :=
  .next (hostStore addr be.toNat v.toNat s)

/-- STRAY_WRITE: a write to BAR2 outside the kick registers is discarded (R337). One with fewer than four byte enables raises
the event of R8, PROG_ERR, and no other (log entry 74). -/
def execStrayWrite (off : Nat) (s : State) (be : BitVec 4 := 15) : Host.Outcome State Fault Refusal :=
  .next (if hostReach s && decide (off < 0x4000) && decide (off % 0x1000 ≠ 0) then
    (if be.toNat ≠ 15 then progErr s 0x1D else raiseFree s 0x1D 0x003)
  else s)

/-- COUNTER_LO_READ: a read of the low word of a 64-bit counter (R11). -/
def execCounterLoRead (addr : Nat) (be : BitVec 4) (s : State) : Host.Outcome State Fault Refusal :=
  .next (match cntReg s addr with
    | some (lo, _) => if addr = lo then hostLoad addr be.toNat s else s
    | none => s)

/-- A read of BAR2, all of which reads 0 (R9, R337), or of the configuration space, which answers with Request Retry Status
until READY (R336), in the model's numbering: BAR2 from 0x4000000, the configuration space from 0x4004000 (log entry 74). -/
def otherLoad (a be : Nat) (s : State) : State :=
  if a < 0x4004000 then (if hostReach s then answerHost be 0 s else s)
  else if s.power.inReset then s
  else if !s.power.ready then emit s .configRetry
  else answerHost be (configWord s (a - 0x4004000)) s

/-- RC_READ: a read of a register with an RC field (R9); any register without a row of its own reads the same way, and so do
BAR2 and the configuration space. -/
def execRcRead (addr : Nat) (be : BitVec 4) (s : State) : Host.Outcome State Fault Refusal :=
  .next (if 0x4000000 ≤ addr then otherLoad addr be.toNat s else hostLoad addr be.toNat s)

/-- PICK_COUNT_LO_READ (R11). -/
def execPickCountLoRead (be : BitVec 4) (s : State) : Host.Outcome State Fault Refusal := .next (hostLoad Reg.pickCountLo be.toNat s)

/-- TIME_NOW_NS_READ (R145). -/
def execTimeNowNsRead (be : BitVec 4) (s : State) : Host.Outcome State Fault Refusal := .next (hostLoad Reg.timeNowNs be.toNat s)

/-- TIME_CAP_NS_READ (R163). -/
def execTimeCapNsRead (i : Nat) (be : BitVec 4) (s : State) : Host.Outcome State Fault Refusal :=
  .next (if i < 2 then hostLoad (Reg.timeCapNs i) be.toNat s else s)

/-- YMGMT_RX_READ (R305). -/
def execYmgmtRxRead (n : Nat) (be : BitVec 4) (s : State) : Host.Outcome State Fault Refusal :=
  .next (if n < 16 then hostLoad (Reg.laneYmgmtRxLo n) be.toNat s else s)

/-- DARK_REGISTER_READ: a read of a register whose domain is off (R14). -/
def execDarkRegisterRead (addr : Nat) (be : BitVec 4) (s : State) : Host.Outcome State Fault Refusal :=
  .next (if (findRow addr).isSome && !domOn s (regDomain s addr) then hostLoad addr be.toNat s else s)

/-- YMGMT_SEND (R305). -/
def execYmgmtSend (n : Nat) (be : BitVec 4) (v : Word) (s : State) : Host.Outcome State Fault Refusal :=
  .next (if n < 16 then hostStore (Reg.laneYmgmtTxHi n) be.toNat v.toNat s else s)

/-- WARP_PM_SEL_WRITE (R83). -/
def execWarpPmSelWrite (be : BitVec 4) (v : Word) (s : State) : Host.Outcome State Fault Refusal :=
  .next (hostStore Reg.warpPmSel be.toNat v.toNat s)

/-- SELVEDGE_HIST_SEL_WRITE (R441). -/
def execSelvedgeHistSelWrite (be : BitVec 4) (v : Word) (s : State) : Host.Outcome State Fault Refusal :=
  .next (hostStore Reg.selvedgeHistSel be.toNat v.toNat s)

/-- LOCK_EN_CLEAR: a write of 0 to PICK_CTRL.LOCK_EN (R56). -/
def execLockEnClear (be : BitVec 4) (s : State) : Host.Outcome State Fault Refusal := .next (hostStore Reg.pickCtrl be.toNat 0 s)

/-- RX_EN_WRITE: a write of WARP_CTRL (R42). -/
def execRxEnWrite (be : BitVec 4) (v : Word) (s : State) : Host.Outcome State Fault Refusal :=
  .next (hostStore Reg.warpCtrl be.toNat v.toNat s)

/-- DG_LATCH_CLEAR: no effect while PWR_FAIL_N is low (R112). `pinLow`: the pin is low, be it for less than 1 µs. -/
def execDgLatchClear (be : BitVec 4) (pinLow : Bool) (s : State) : Host.Outcome State Fault Refusal :=
  .next (hostStore Reg.weftStat be.toNat (if pinLow then 0 else 0x80) s)

/-- ACT_HELD_SET (R119). -/
def execActHeldSet (be : BitVec 4) (s : State) : Host.Outcome State Fault Refusal := .next (hostStore Reg.actHeld be.toNat 1 s)

/-- TIME_LOAD: a write of TIME_CTRL with LOAD = 1 (R148). -/
def execTimeLoad (be : BitVec 4) (v : Word) (s : State) : Host.Outcome State Fault Refusal :=
  .next (hostStore Reg.timeCtrl be.toNat (insBits v.toNat 0 0 1) s)

/-- TIME_INC_ARM: a write of TIME_INC_HI (R147). -/
def execTimeIncArm (be : BitVec 4) (v : Word) (s : State) : Host.Outcome State Fault Refusal :=
  .next (hostStore Reg.timeIncHi be.toNat v.toNat s)

/-- HOST_STEP: a write of TIME_STEP_HI (R152). -/
def execHostStep (be : BitVec 4) (v : Word) (s : State) : Host.Outcome State Fault Refusal :=
  .next (hostStore Reg.timeStepHi be.toNat v.toNat s)

/-- MAC_ADDR_ARM: a write of MAC_ADDR_HI (R308). -/
def execMacAddrArm (be : BitVec 4) (v : Word) (s : State) : Host.Outcome State Fault Refusal :=
  .next (hostStore Reg.macAddrHi be.toNat v.toNat s)

/-- REED_SWAP_REQUEST: a write of REED_CTRL with SWAP = 1 (R221). -/
def execReedSwapRequest (be : BitVec 4) (v : Word) (s : State) : Host.Outcome State Fault Refusal :=
  .next (hostStore Reg.reedCtrl be.toNat (insBits v.toNat 1 1 1) s)

/-- ANCHOR_LOCK (R222). -/
def execAnchorLock (be : BitVec 4) (s : State) : Host.Outcome State Fault Refusal := .next (hostStore Reg.reedAnchor be.toNat 1 s)

/-- DRAFT_SWAP_REQUEST: a write of DRAFT_CTRL with SWAP = 1 (R333). -/
def execDraftSwapRequest (be : BitVec 4) (v : Word) (s : State) : Host.Outcome State Fault Refusal :=
  .next (hostStore Reg.draftCtrl be.toNat (insBits v.toNat 1 1 1) s)

/-- TRNG_RESTART (R269). -/
def execTrngRestart (be : BitVec 4) (s : State) : Host.Outcome State Fault Refusal := .next (hostStore Reg.secTrngCtrl be.toNat 1 s)

/-- The operations of the Heddle window: a write of HEDDLE_ENT_CMD with the OP of R187. -/
def execHeddleEntWrite (be : BitVec 4) (s : State) : Host.Outcome State Fault Refusal := .next (hostStore Reg.heddleEntCmd be.toNat 1 s)
def execHeddleEntRead (be : BitVec 4) (s : State) : Host.Outcome State Fault Refusal := .next (hostStore Reg.heddleEntCmd be.toNat 2 s)
def execInvalidate (be : BitVec 4) (s : State) : Host.Outcome State Fault Refusal := .next (hostStore Reg.heddleEntCmd be.toNat 3 s)
def execEmInsert (be : BitVec 4) (s : State) : Host.Outcome State Fault Refusal := .next (hostStore Reg.heddleEntCmd be.toNat 4 s)
def execEmDelete (be : BitVec 4) (s : State) : Host.Outcome State Fault Refusal := .next (hostStore Reg.heddleEntCmd be.toNat 5 s)
def execClearAll (be : BitVec 4) (s : State) : Host.Outcome State Fault Refusal := .next (hostStore Reg.heddleEntCmd be.toNat 6 s)

/-- The operations of the Reed window (R236). -/
def execReedEntWrite (be : BitVec 4) (s : State) : Host.Outcome State Fault Refusal := .next (hostStore Reg.reedEntCmd be.toNat 1 s)
def execReedEntRead (be : BitVec 4) (s : State) : Host.Outcome State Fault Refusal := .next (hostStore Reg.reedEntCmd be.toNat 2 s)

/-- The operations of the Draft window (R329, R331). -/
def execDraftEntWrite (be : BitVec 4) (s : State) : Host.Outcome State Fault Refusal := .next (hostStore Reg.draftEntCmd be.toNat 1 s)
def execDraftEntRead (be : BitVec 4) (s : State) : Host.Outcome State Fault Refusal := .next (hostStore Reg.draftEntCmd be.toNat 2 s)

/-- FLOW_STORE_ENABLE: a write of HEDDLE_FLOW_CTRL with EN = 1 (R204); it comes into force at the next commit point. -/
def execFlowStoreEnable (be : BitVec 4) (v : Word) (s : State) : Host.Outcome State Fault Refusal :=
  .next (hostStore Reg.heddleFlowCtrl be.toNat (insBits v.toNat 31 31 1) s)

/-- HOST_CMD_CFG_WRITE: a write of HOST_CMD_CFG, or (`cq`) of HOST_CQ_CFG (R365). -/
def execHostCmdCfgWrite (cq : Bool) (be : BitVec 4) (v : Word) (s : State) : Host.Outcome State Fault Refusal :=
  .next (hostStore (if cq then Reg.hostCqCfg else Reg.hostCmdCfg) be.toNat v.toNat s)

/-- HOST_KICK: a write of the kick register of page `p` in BAR2 (R342). -/
def execHostKick (p : Nat) (be : BitVec 4) (v : Word) (s : State) : Host.Outcome State Fault Refusal :=
  .next (if !hostReach s || decide (4 ≤ p) then s else if be.toNat ≠ 15 then progErr s 0x1E else hostKick p v.toNat s)

/-- ABORT (R382). -/
def execAbort (c : Nat) (be : BitVec 4) (s : State) : Host.Outcome State Fault Refusal :=
  .next (if c < 16 then hostStore (Reg.shuttleChCtrl c) be.toNat 1 s else s)

/-- WIN_RESET (R378). -/
def execWinReset (c : Nat) (be : BitVec 4) (s : State) : Host.Outcome State Fault Refusal :=
  .next (if c < 16 then hostStore (Reg.shuttleChCtrl c) be.toNat 2 s else s)

/-- SKEIN_CORE_RESET: a write of SKEIN_CORE_CTRL[c] with RESET = 1 (R387). -/
def execSkeinCoreReset (c : Nat) (be : BitVec 4) (v : Word) (s : State) : Host.Outcome State Fault Refusal :=
  .next (if c < 4 then hostStore (Reg.skeinCoreCtrl c) be.toNat (insBits v.toNat 0 0 1) s else s)

/-- SKEIN_WIN_DATA_ACCESS: a write of the word, or a read (R406). -/
def execSkeinWinDataAccess (write : Option Word) (be : BitVec 4) (s : State) : Host.Outcome State Fault Refusal :=
  .next (match write with
    | some v => hostStore Reg.skeinWinData be.toNat v.toNat s
    | none => hostLoad Reg.skeinWinData be.toNat s)

/-- MBOX_DOORBELL: a write of SKEIN_MBOX_CTRL with DOORBELL = 1 (R407). -/
def execMboxDoorbell (be : BitVec 4) (v : Word) (s : State) : Host.Outcome State Fault Refusal :=
  .next (hostStore Reg.skeinMboxCtrl be.toNat (insBits v.toNat 31 31 1) s)

/-- CLOCK_SWITCH: a write of 1 to GLOBAL_CLK_CTRL.SEL (R426). -/
def execClockSwitch (be : BitVec 4) (s : State) : Host.Outcome State Fault Refusal := .next (hostStore Reg.globalClkCtrl be.toNat 1 s)

/-- SELVEDGE_PEND_CLEAR: a write of SELVEDGE_PEND_LO or _HI (R444). -/
def execSelvedgePendClear (hi : Bool) (be : BitVec 4) (v : Word) (s : State) : Host.Outcome State Fault Refusal :=
  .next (hostStore (if hi then Reg.selvedgePendHi else Reg.selvedgePendLo) be.toNat v.toNat s)

/-- SELVEDGE_RESTART (R446). -/
def execSelvedgeRestart (be : BitVec 4) (s : State) : Host.Outcome State Fault Refusal :=
  .next (hostStore Reg.selvedgeUnitCtrl be.toNat 1 s)

/-- SAFETY_CLR_WRITE (R456). -/
def execSafetyClrWrite (be : BitVec 4) (v : Word) (s : State) : Host.Outcome State Fault Refusal :=
  .next (hostStore Reg.safetyClr be.toNat v.toNat s)

/-- SAFETY_FORCE_LATCH (R453). -/
def execSafetyForceLatch (be : BitVec 4) (s : State) : Host.Outcome State Fault Refusal := .next (hostStore Reg.safetyForce be.toNat 1 s)

/-- SAFETY_MPD_CFG_WRITE (R453). -/
def execSafetyMpdCfgWrite (be : BitVec 4) (v : Word) (s : State) : Host.Outcome State Fault Refusal :=
  .next (hostStore Reg.safetyMpdCfg be.toNat v.toNat s)

end Sys2Proof.Machine
end

