-- ==== Sys2Proof/Machine/Startup.lean ====
section
/-! DEFINITION. Machine/Startup.lean: power-on, reset, start-up, supply removal, PLL loss and power failure (R409, R422 to
R428, R449, R466). -/

namespace Sys2Proof.Machine

open Sys2Proof

/-- What neither a reset nor a loss of supply takes from the identity engine: OTP and flash (R272, R275). -/
def flashOtp (x : Sec) : Sec :=
  { idSeed := x.idSeed, custKey := x.custKey, custWritten := x.custWritten, otpArb := x.otpArb, arbTest := x.otpArb
    slotA := x.slotA, slotB := x.slotB, rec0 := x.rec0, rec1 := x.rec1 }

/-- The state after the loss of every supply: OTP, flash, and what is no part of the terminal (the waiting commands, the
output log, the free values drawn) stay. -/
def coldState (s : State) : State :=
  { pending := s.pending, out := s.out, draws := s.draws, hostRead := s.hostRead, sec := flashOtp s.sec, act := { serial := s.act.serial } }

/-- POWER_ON: every domain is reset; RESET_N is low (R409, R422, R469). -/
def execPowerOn (s : State) : Host.Outcome State Fault Refusal := .next { coldState s with power := { inReset := true } }

/-- SUPPLY_REMOVAL: every supply stays below 0.1 V for 10 ms (R409, R449, R457, R466). -/
def execSupplyRemoval (s : State) : Host.Outcome State Fault Refusal :=
  .next { coldState s with power := { mode := .off, inReset := true, isOn := 0 }, safety := { vddSafe := false } }

/-- RESET_ASSERT: RESET_N falls, for 200 ns at least (R467): every domain but AON and SAFETY is reset, DRAM kept in self-refresh if asked (R422, R474).
What a running installation or ARB_RAISE has written so far stays (R279, R281). -/
def execResetAssert (low : Nat) (s : State) : Host.Outcome State Fault Refusal :=
  .next (if s.power.mode = .off ∨ low < 200 then s
  else
    let t := dramLose s
    let keep := fun a => decide (regDomain t a = 0) || decide (regDomain t a = 9)
    let u : State :=
      { coldState t with dram := t.dram, stg := skeep keep t.stg, cur := skeep keep t.cur, now := t.now, ns := t.ns
                         safety := { t.safety with enNow := false }, pick := { commits := t.pick.commits }
                         power := { inReset := true }
                         act := { serial := t.act.serial, held := t.act.held, heldByStop := t.act.heldByStop } }
    setBit u Reg.globalResetCause 1)

/-- RESET_RELEASE: RESET_N rises: CALIBRATE begins on the internal oscillator (R119, R423). -/
def execResetRelease (s : State) : Host.Outcome State Fault Refusal :=
  .next (if s.power.inReset ∧ s.power.mode ≠ .off then
    let s := dramClosed (setPower s { s.power with inReset := false, mode := .calibrate })
    setAct s { s.act with st := if s.act.held then .held else .dark }
  else s)

/-- The fatal state is re-established at READY (R449). -/
def fatalAtReady (s : State) : State :=
  if flag s Reg.selvedgeFatal 31 then fatalEnter 0 0 0 s
  else if s.safety.latch && s.safety.reason == 8 then
    let (x, s) := draw s
    raiseEv (fatalEnter 0x26 0x0A3 x s) 0x26 0x0A3 (x % 2 ^ 32)
  else s

/-- READY: calibration, memory initialisation and image choice are complete (R409, R423, R424, R449); the mode leaves
CALIBRATE at the commit point that follows. The source of a
MEM_INIT report is not stated: a free value (log entry 10). -/
def execReady (i : ReadyIn) (s : State) : Host.Outcome State Fault Refusal :=
  .next (if s.power.mode = .calibrate ∧ s.power.inReset = false ∧ s.power.ready = false ∧ s.sec.chosen = true then
    let s := setReg s Reg.globalCalStat (min 255 i.ms * 2 ^ 24 + i.fails % 64)
    let s := setPower s { s.power with ready := true, corePllLock := i.corePll && !i.fails.testBit 1, lanePllLock := i.lanePll,
                                       lineRef := i.lineRef, temp := i.temp, tempMax := i.temp, tempMean := i.temp }
    let s := setCore s 0 { coreAt s 0 with st := .halted }
    let s := if i.fails.testBit 5 then
        let (x, s) := draw s
        raiseFree s (x % 0x29) 0x0A1
      else s
    fatalAtReady s
  else s)

/-- CORE_PLL_LOSS: fatal after the switch (R427). -/
def execCorePllLoss (s : State) : Host.Outcome State Fault Refusal :=
  .next (if s.power.corePllLock then
    let t := setPower s { s.power with corePllLock := false }
    if s.power.clkPll then raiseFree t 0x28 0x0A0 else t
  else s)

/-- PWR_FAIL_ASSERT: PWR_FAIL_N has been low for 1 µs (R112, R129, R428). -/
def execPwrFailAssert (s : State) : Host.Outcome State Fault Refusal :=
  .next (if s.power.pwrFail ∨ s.power.inReset ∨ s.power.mode = .off then s
  else
    let s := setPower s { s.power with pwrFail := true }
    let s := if domOn s 8 then setBit s Reg.weftStat 7 else s
    let s := setAct s { s.act with queue := s.act.queue ++ [⟨0x85, 0, slice (beBytes 6 s.pick.count) 0 48⟩] }
    globalNotify s 0x44 0)

/-- PWR_FAIL_CLEAR: the pin has been high for 1 µs (R428). -/
def execPwrFailClear (s : State) : Host.Outcome State Fault Refusal := .next (setPower s { s.power with pwrFail := false })

end Sys2Proof.Machine
end

