-- ==== Sys2Proof/Machine/Pick.lean ====
section
/-! DEFINITION. Machine/Pick.lean: counter sweeps, the tasks of a repeat, overruns of per-pick budgets (R21, R29 to R36). -/

namespace Sys2Proof.Machine

open Sys2Proof

/-- Commit points take place: RESET_N is high and the supplies stand (R17). -/
def picksRun (s : State) : Bool := !s.power.inReset && s.power.mode != .off

/-! ## Counter sweeps (R32 to R36) -/

/-- The sampled value of a counter: 0 where its domain is not on (R420). -/
def sampleOf (s : State) (key : Nat) : Nat := if domOn s (cntDomain key) then sget 0 s.cnt key else 0

/-- The counter array of a sweep (R36). -/
def sweepCells (s : State) (m : Nat) : List Nat :=
  (cellKeys m).map (sampleOf s)

/-- The sampled counters begin anew (R32). -/
def sweepClear (s : State) (m : Nat) : State :=
  (s.cnt.map (·.1)).foldl (fun s k =>
    if (maskGroups m).contains (k / 0x100000) && domOn s (cntDomain k) then cntRestart s k else s) s

/-- A sweep point is skipped (R29, R35). -/
def sweepSkip (s : State) : State :=
  count (setPick s { s.pick with skipped := min 0xFFFFFFFF (s.pick.skipped + 1), skipNext := false }) 18 0

/-- A sweep point falls on the coming commit point. -/
def sweepDue (s : State) (c : Nat) : Bool :=
  picksRun s && unitOk s 0x01 && flag s Reg.pickSweepCtrl 31 && decide (0 < fld s Reg.pickSweepCtrl 15 0) && c % fld s Reg.pickSweepCtrl 15 0 == 0

/-- SWEEP_POINT: step 1 of the coming commit point, whose count in the line's header is `line` (R19, R26, R32, R35). -/
def execSweepPoint (line : Option Nat) (s : State) : Host.Outcome State Fault Refusal :=
  let c := comingCount s line
  .next (if !sweepDue s c then s
  else if s.pick.skipNext || s.pick.exporting.isSome || cqFree s (fld s Reg.pickSweepCtrl 24 16) == 0 then sweepSkip s
  else
    let m := fld s Reg.pickSweepGroups 17 0
    let x : SweepExport := ⟨c, s.pick.seq, m, s.pick.skipped, s.pick.gen != .locked, s.pick.jumped, sweepCells s m⟩
    setPick (sweepClear s m) { s.pick with exporting := some x, skipped := 0, jumped := false })

/-- The bytes of a sweep record (R36). -/
def sweepRecord (x : SweepExport) : List Byte :=
  let flags := b2n (x.cells.any (· == cntMax)) + 2 * b2n x.flywheel + 4 * b2n x.jump
  leBytes 8 x.pick ++ leBytes 4 x.seq ++ leBytes 4 x.groups ++ leBytes 4 x.cells.length ++ leBytes 4 x.skipped
    ++ leBytes 4 flags ++ List.replicate 36 0 ++ x.cells.flatMap (leBytes 8)

/-- The slot of a record (R34). -/
def sweepSlot (s : State) (seq : Nat) : Nat := seq % 2 ^ fld s Reg.pickSweepSlots 4 0

/-- Host address of a slot. -/
def sweepAddr (s : State) (slot : Nat) : Nat :=
  rd s Reg.pickSweepBaseHi * 2 ^ 32 + rd s Reg.pickSweepBaseLo + slot * (fld s Reg.pickSweepSlotBytes 21 6 * 64)

/-- The completion of a sweep (R353). -/
def sweepEntry (s : State) (x : SweepExport) : Completion :=
  { body := x.pick + x.seq * 2 ^ 64, index := sweepSlot s x.seq, ring := fld s Reg.pickSweepCtrl 24 16, typ := 6 }

/-- SWEEP_EXPORT_DONE: the record is in its slot, and its completion is posted (R34, R36). -/
def execSweepExportDone (s : State) : Host.Outcome State Fault Refusal :=
  .next (match s.pick.exporting with
    | none => s
    | some x =>
      if !s.host.bme then s
      else
        let e := sweepEntry s x
        let s := dmaWrite s (sweepAddr s (sweepSlot s x.seq)) (sweepRecord x)
        let s := setPick s { s.pick with exporting := none, seq := (x.seq + 1) % 2 ^ 32 }
        let s := setReg s Reg.pickSweepSeq x.seq
        if 0 < cqFree s e.ring then cqWrite s e.ring e else s)

/-! ## The repeat (R21) -/

/-- REPEAT_START: at repeat position zero the flow store reports what it could not place in the repeat that ended (R199).
The proof test ends in PROOF_TEST (R458). -/
def execRepeatStart (s : State) : Host.Outcome State Fault Refusal :=
  .next (if picksRun s && s.pick.count % 8192 == 0 && decide (0 < s.flow.fullRep + s.flow.failRep) then
    let full := s.flow.fullRep
    let fail := s.flow.failRep
    notifyReg (setFlow s { s.flow with fullRep := 0, failRep := 0 }) Reg.heddleNotify 0 0x20 (full + fail * 2 ^ 64)
  else s)

/-! ## Overruns (R29, R30) -/

/-- Source of the unit of a PICK_OVERRUN bit, and its domain (R437). -/
def overrunUnit (bit : Nat) : Nat × Nat :=
  [(0x04, 6), (0x05, 6), (0x06, 8), (0x08, 8), (0x14, 18), (0x14, 18), (0x1C, 27), (0x05, 6), (0x24, 3), (0x27, 3), (0x0A, 10),
    (0x01, 3), (0x26, 9), (0x1E, 3)].getD bit (0x01, 3)

/-- Sections that Reed has not filled in time are sent idle (R29, R101). -/
def fillLate (s : State) : State :=
  let late := fun (b : Burst) => unlatched b && unfilled b
  let n := if s.act.st = .woven then sumList ((s.weft.bursts.filter late).map (fun b => (lateFill b).2)) else 0
  let idle := fun (b : Burst) => { b with fill := (lateFill b).1 }
  countBy (setWeft s { s.weft with bursts := s.weft.bursts.map (fun b => if late b then idle b else b) }) 1 16 n

/-- Mark command `n` of the validated ones late (R24, R29). -/
def markLate (n : Nat) (s : State) : State :=
  let mark := fun (e : CmdItem × Nat) => if e.2 = n then { e.1 with late := true } else e.1
  { s with host := { s.host with cmds := s.host.cmds.zipIdx.map mark } }

/-- The consequence of an overrun in the table of R29. `arg`: the codeword of bit 0, the messages not processed of bit 3,
the position among the validated commands of bit 13. -/
def overrunEffect (bit arg : Nat) (s : State) : State :=
  match bit with
  | 0 => codewordDone arg none s
  | 1 => if rxOn s && s.warp.align == .sync && !s.warp.rx.checked then
      headerFail (setWarp s { s.warp with rx := { s.warp.rx with checked := true }, odd := none }) else s
  | 2 => count (setWarp s { s.warp with rx := { s.warp.rx with mapped := true } }) 1 15
  | 3 => countBy s 2 7 arg
  | 4 => fillLate s
  | 6 => draftOverrun arg s
  | 7 => setPm s { s.warp.pm with lost := true }
  | 8 => setTension s { s.tension with skipReview := true }
  | 9 => stormLate s
  | 11 => setPick s { s.pick with skipNext := true }
  | 13 => markLate arg s
  | _ => s

/-- PER_PICK_OVERRUN: the unit of PICK_OVERRUN bit `bit` exceeds its budget, having used `clocks` core clocks (R29, R30). -/
def execPerPickOverrun (bit clocks arg : Nat) (s : State) : Host.Outcome State Fault Refusal :=
  .next (if !picksRun s || decide (13 < bit) || !domOn s (overrunUnit bit).2 then s
  else if bit = 12 then proofOverrun clocks s
  else if bit = 10 then (if s.heddle.frozen then deckOverrun clocks s else s)
  else overrunEv (overrunEffect bit arg s) bit (overrunUnit bit).1 clocks)

end Sys2Proof.Machine
end

