-- ==== Sys2Proof/Machine/Work.lean ====
section
/-! DEFINITION. Machine/Work.lean: the host commands of the traffic, security and Draft chapters as rows, the end of a
command's work (R282, R362), and the application of any command by its CODE (R24, R360). -/

namespace Sys2Proof.Machine

open Sys2Proof

/-! ## The rows -/

def execDeckLoad (d : CmdDesc) (s : State) : Host.Outcome State Fault Refusal := .next (cmdRow 0x40 cmdDeckLoad d s)

/-- DECK_SWAP (R190): the swap itself is step 4 of the commit point that applies the command. -/
def execDeckSwap (d : CmdDesc) (s : State) : Host.Outcome State Fault Refusal := .next (cmdRow 0x41 cmdDeckSwap d s)
def execRuleWrite (d : CmdDesc) (s : State) : Host.Outcome State Fault Refusal := .next (cmdRow 0x42 cmdRuleWrite d s)
def execFlowInsert (d : CmdDesc) (s : State) : Host.Outcome State Fault Refusal :=
  .next (cmdRow 0x48 cmdFlowInsert d s)
def execFlowDelete (d : CmdDesc) (s : State) : Host.Outcome State Fault Refusal := .next (cmdRow 0x49 cmdFlowDelete d s)
def execFlowRead (d : CmdDesc) (s : State) : Host.Outcome State Fault Refusal := .next (cmdRow 0x4A cmdFlowRead d s)
def execFlowRehash (d : CmdDesc) (s : State) : Host.Outcome State Fault Refusal := .next (cmdRow 0x4B cmdFlowRehash d s)
def execFlowClear (d : CmdDesc) (s : State) : Host.Outcome State Fault Refusal := .next (cmdRow 0x4C cmdFlowClear d s)
def execShaperLoad (d : CmdDesc) (s : State) : Host.Outcome State Fault Refusal := .next (cmdRow 0x50 cmdShaperLoad d s)

/-- SHAPER_SWAP (R221): the set comes in at step 6 of the commit point that applies the command. -/
def execShaperSwap (d : CmdDesc) (s : State) : Host.Outcome State Fault Refusal := .next (cmdRow 0x51 cmdShaperSwap d s)
def execGateLoad (d : CmdDesc) (s : State) : Host.Outcome State Fault Refusal := .next (cmdRow 0x52 cmdGateLoad d s)
def execGateStart (d : CmdDesc) (s : State) : Host.Outcome State Fault Refusal := .next (cmdRow 0x53 cmdGateStart d s)
def execQueueFlush (d : CmdDesc) (s : State) : Host.Outcome State Fault Refusal := .next (pauseScan (cmdRow 0x54 cmdQueueFlush d s))
def execImageInstall (d : CmdDesc) (s : State) : Host.Outcome State Fault Refusal := .next (cmdRow 0x60 cmdImageInstall d s)
def execImageActivate (d : CmdDesc) (s : State) : Host.Outcome State Fault Refusal := .next (cmdRow 0x61 cmdImageActivate d s)
def execArbRaise (d : CmdDesc) (s : State) : Host.Outcome State Fault Refusal := .next (cmdRow 0x62 cmdArbRaise d s)
def execIdSign (d : CmdDesc) (s : State) : Host.Outcome State Fault Refusal := .next (cmdRow 0x63 cmdIdSign d s)
def execSigVerify (d : CmdDesc) (s : State) : Host.Outcome State Fault Refusal := .next (cmdRow 0x64 cmdSigVerify d s)
def execHash (d : CmdDesc) (s : State) : Host.Outcome State Fault Refusal := .next (cmdRow 0x65 cmdHash d s)
def execRandom (d : CmdDesc) (s : State) : Host.Outcome State Fault Refusal := .next (cmdRow 0x66 cmdRandom d s)
def execHostKey (d : CmdDesc) (s : State) : Host.Outcome State Fault Refusal := .next (cmdRow 0x67 cmdHostKey d s)
def execGcm (d : CmdDesc) (s : State) : Host.Outcome State Fault Refusal := .next (cmdRow 0x68 cmdGcm d s)
def execOtpCustKey (d : CmdDesc) (s : State) : Host.Outcome State Fault Refusal := .next (cmdRow 0x69 cmdOtpCustKey d s)
def execDraftLoad (d : CmdDesc) (s : State) : Host.Outcome State Fault Refusal := .next (cmdRow 0x70 cmdDraftLoad d s)
def execDraftSwap (d : CmdDesc) (s : State) : Host.Outcome State Fault Refusal := .next (cmdRow 0x71 cmdDraftSwap d s)

/-! ## Any command by its CODE -/

/-- The effect of the commands of R363. -/
def ringCommand (code : Nat) : Option (CmdDesc → State → CmdRes) :=
  match code with
  | 0x00 => some cmdNop
  | 0x01 => some cmdRingSetup
  | 0x02 => some cmdRingResize
  | 0x03 => some cmdRingStop
  | 0x04 => some cmdCqModerate
  | 0x05 => some cmdRingQuery
  | _ => none

/-- The effect of the commands of the traffic chapters. -/
def trafficCommand (code : Nat) : Option (CmdDesc → State → CmdRes) :=
  match code with
  | 0x40 => some cmdDeckLoad
  | 0x41 => some cmdDeckSwap
  | 0x42 => some cmdRuleWrite
  | 0x48 => some cmdFlowInsert
  | 0x49 => some cmdFlowDelete
  | 0x4A => some cmdFlowRead
  | 0x4B => some cmdFlowRehash
  | 0x4C => some cmdFlowClear
  | 0x50 => some cmdShaperLoad
  | 0x51 => some cmdShaperSwap
  | 0x52 => some cmdGateLoad
  | 0x53 => some cmdGateStart
  | 0x54 => some cmdQueueFlush
  | 0x70 => some cmdDraftLoad
  | 0x71 => some cmdDraftSwap
  | _ => none

/-- The effect of the commands of the security and Skein chapters. -/
def secureCommand (code : Nat) : Option (CmdDesc → State → CmdRes) :=
  match code with
  | 0x60 => some cmdImageInstall
  | 0x61 => some cmdImageActivate
  | 0x62 => some cmdArbRaise
  | 0x63 => some cmdIdSign
  | 0x64 => some cmdSigVerify
  | 0x65 => some cmdHash
  | 0x66 => some cmdRandom
  | 0x67 => some cmdHostKey
  | 0x68 => some cmdGcm
  | 0x69 => some cmdOtpCustKey
  | 0x78 => some cmdSkeinLoad
  | 0x79 => some cmdSkeinUnload
  | _ => none

/-- The command of a CODE (R360); none for a code that names none. -/
def commandOf (code : Nat) : Option (CmdDesc → State → CmdRes) :=
  (ringCommand code).orElse fun _ => (trafficCommand code).orElse fun _ => secureCommand code

/-- Apply a validated command: an unknown CODE completes ERR_FIELD (R24, R28). -/
def applyCommand (d : CmdDesc) (s : State) : State :=
  match commandOf (cmdCode d) with
  | some body => cmdApply body d s
  | none => cmdFinish d s.pick.point Status.errField 0 s

/-! ## The end of a command's work (R282, R362) -/

/-- IMAGE_ACTIVATE has read its slot and found the image good: microcode and tables are loaded into their standby copies,
the firmware is staged, and the swap waits for the next commit point (R280). -/
def activateLoaded (s : State) : State :=
  let (_, s) := testSlot s (targetSlot s) s.sec.arbTest
  let img := flashSlot s (targetSlot s)
  let s := stageFirmware img s
  updSec s { s.sec with job := .loaded, ucodeStby := imgTyped img 2, tablesStby := imgTyped img 3 }

/-- IMAGE_ACTIVATE stands before its load, and the slot it names holds a valid image. -/
def loadsNow (c : CmdWork) (w : WorkIn) (s : State) : Bool :=
  c.code == 0x61 && s.sec.job == .activate && w.progress.isNone && (testSlot s (targetSlot s) s.sec.arbTest).1

/-- A stretch of a command's work ends: its status and detail where the command completes, none where its work goes on; the
state. DECK_LOAD ends with DECK_LOAD_DONE, FLOW_REHASH and FLOW_CLEAR with their own events, DRAFT_SWAP at its swap. -/
def workResult (c : CmdWork) (w : WorkIn) (s : State) : Option (Nat × Nat) × State :=
  if c.code = 0x50 then
    let (st, det, s) := shaperLoadWork w s
    (some (st, det), s)
  else if c.code = 0x70 then
    let (st, det, s) := draftLoadWork w s
    (some (st, det), s)
  else if loadsNow c w s then (none, activateLoaded s)
  else match secWork c w s with
    | .fin st s => (some (st, 0), s)
    | .goes s => (none, s)

/-- COMMAND_WORK_END: a stretch of the work of the command at (ring, index) ends with what it met (R282, R362). -/
def execCommandWorkEnd (ring index : Nat) (w : WorkIn) (s : State) : Host.Outcome State Fault Refusal :=
  .next (match s.host.work.find? (fun c => c.ring == ring && c.index == index) with
    | none => s
    | some c =>
      match workResult c w s with
      | (some (status, detail), t) => workEnd (if w.failed then dmaErr t else t) ring index status detail
      | (none, t) => t)

end Sys2Proof.Machine
end

