-- ==== Sys2Proof/Machine/Commit.lean ====
section
/-! DEFINITION. Machine/Commit.lean: the commit point and its eleven steps (R17 to R19, R22 to R28), and the running of
the core clock. -/

namespace Sys2Proof.Machine

open Sys2Proof

/-! ## The core clock -/

/-- `n` core clocks pass: the clocks count, the time counter runs (R145, R423, R426), freed buffers settle (R255). -/
def runClocks (n : Nat) (s : State) : State :=
  let s := timeAdvance n s
  { s with now := s.now + n, ns := s.ns + n * (if s.power.clkPll then 1 else 5), spool := if n = 0 then s.spool else spoolSettle s.spool }

/-- An idle step of the block: one core clock passes while RESET_N is high and the supplies stand (log entry 3). -/
def idleClock (s : State) : State := if picksRun s then runClocks 1 s else s

/-! ## Length of the pick that ends (R17, R18) -/

/-- Core clocks of a pick that is taken from no line: 125,000, or 25,000 on the oscillator (the state table above R17). -/
def freeLen (s : State) : Nat := if s.power.clkPll then 125000 else 25000

/-- The flywheel mean in 1/256 core clock: of as many locked picks as there have been where they are fewer than 64 (R17 is
silent there: log entry 65). -/
def flyMean (s : State) : Nat :=
  let l := s.pick.lockedLens
  if l.isEmpty then freeLen s * 256 else sumList l * 256 / l.length

/-- Length that the generator expects of the pick in progress, and the fraction it then carries. -/
def expectedLen (s : State) : Nat × Nat :=
  let x := s.pick.flyCarry + flyMean s
  if s.pick.lockedLens.isEmpty then (freeLen s, 0) else (x / 256, x % 256)

/-- Smallest and largest length with a further pick. -/
def widen (r : Option (Nat × Nat)) (n : Nat) : Option (Nat × Nat) :=
  match r with
  | some (lo, hi) => some (min lo n, max hi n)
  | none => some (n, n)

/-- The pick that ends has its length: `clocks` where the line or a clock switch gives it, else the generator's own count.
At realignment 1 to 15 clocks fewer than expected make a SHORT pick, anything else a LONG one (R18). -/
def endPick (clocks : Nat) (s : State) : State :=
  let p := s.pick
  let (want, carry) := expectedLen s
  if p.lockPending then
    let short := decide (clocks < want) && decide (want ≤ clocks + 15)
    let s := setPick s { p with len := clocks, range := widen p.range clocks, flyCarry := 0, switched := false }
    let s := setBit s Reg.pickStat (if short then 4 else 3)
    if !short && domOn s 27 then count s 13 10 else s
  else if p.gen = .locked then
    setPick s { p with len := clocks, range := widen p.range clocks, flyCarry := 0, switched := false, lockedLens := (clocks :: p.lockedLens).take 64 }
  else
    let n := if p.switched then clocks else want
    setPick s { p with len := n, range := widen p.range n, flyCarry := carry, switched := false }

/-! ## Step 2: staged writes come into force (R22) -/

/-- A register that comes into force under a rule of its own: the layout registers (R244), INC (R147). -/
def ownRule (a : Nat) : Bool := isLayoutReg a || a == Reg.timeIncLo || a == Reg.timeIncHi

/-- Every notification register (R358), the bits that enable it, and where its RING stands. -/
def notifyRegs : List (Nat × Nat × Nat) :=
  [(Reg.actNotify, 2 ^ 31, 0), (Reg.globalNotify, 2 ^ 31, 0), (Reg.selvedgeNotify, 2 ^ 31, 0), (Reg.hostEvent, 2 ^ 31 + 2 ^ 30, 0),
   (Reg.laneNotify, 2 ^ 31, 0), (Reg.heddleNotify, 2 ^ 31, 0), (Reg.timeCtrl, 2 ^ 31, 16)]

/-- Another ring, or an enabled notification register as it comes into force, names ring `c` (R34). -/
def ringTaken (s : State) (c : Nat) : Bool :=
  s.host.rings.any (fun e => e.2.kind != .off && e.2.kind != .cq && e.2.cq == c)
    || notifyRegs.any (fun n => (rdS s n.1 &&& n.2.1) != 0 && fldS s n.1 (n.2.2 + 8) n.2.2 == c)

/-- Put a staged field back and report the write (R10). -/
def stagedBack (s : State) (a hi lo v source : Nat) : State := progErr (stage s a (insBits (rdS s a) hi lo v)) source

/-- Tests that a staged value meets only as it comes into force (R10, R34, R473; PICK_SWEEP_CTRL, TIME_PPS_CFG): a refused
ENABLE stays 0, a field refused beside an ENABLE in force keeps its value. -/
def stagedChecks (s : State) : State :=
  let a := Reg.pickSweepCtrl
  let s :=
    if rdS s a = rd s a ∨ !(rdS s a).testBit 31 then s
    else if fldS s a 15 0 = 0 then (if flag s a 31 then stagedBack s a 15 0 (fld s a 15 0) 0x01 else stagedBack s a 31 31 0 0x01)
    else if !flag s a 31 && ringTaken s (fldS s a 24 16) then stagedBack s a 31 31 0 0x01
    else s
  let a := Reg.timePpsCfg
  let s :=
    if rdS s a = rd s a ∨ !(rdS s a).testBit 31 ∨ (1 ≤ fldS s a 8 0 ∧ fldS s a 8 0 ≤ 500) then s
    else if flag s a 31 then stagedBack s a 8 0 (fld s a 8 0) 0x09
    else stagedBack s a 31 31 0 0x09
  let a := Reg.heddleFlowCtrl
  let b := bits (rdS s Reg.heddleFlowBase) (if flowRegion s then 5 else 1) (if flowRegion s then 4 else 0)
  if (rdS s a).testBit 31 && !flag s a 31 && decide (dramMib s * 0x100000 < (b + 1) * 0x20000000) then stagedBack s a 31 31 0 0x0D else s

/-- Every staged register that follows no rule of its own comes into force. -/
def stagedAll (s : State) : State :=
  let keys := s.stg.map (·.1) ++ s.cur.map (·.1)
  keys.foldl (fun s a => if ownRule a || rdS s a == rd s a then s else force s a (rdS s a)) s

/-- Address filter entries that were armed come into force (R308). -/
def filtersIn (s : State) : State :=
  let p := s.ports
  setPorts s { p with filt := p.armed.foldl (fun m k => sput 0 m k (sget 0 p.filtS k)) p.filt, armed := [] }

/-- EN of the DRAM port and of the flow store, where it changes. -/
def enablesIn (old : Nat → Nat) (s : State) : State :=
  let d := flag s Reg.dramCtrl 0
  let s := if d != (old Reg.dramCtrl).testBit 0 then dramEnable s d else s
  let s := flowReseed s (old Reg.heddleFlowSeed)
  let f := flag s Reg.heddleFlowCtrl 31
  if f != (old Reg.heddleFlowCtrl).testBit 31 then flowEnable s f else s

/-- The equaliser's part, and SWAP on cores 0 to 2 where a requested swap is rejected by it (R47, R398). -/
def eqIn (old : Nat → Nat) (s : State) : State :=
  let pend := s.warp.swapPend
  let s := eqCommit (old Reg.warpEqCfg) s
  if pend && !s.warp.swapPend then pendCores s 0 2 3 else s

/-- Modes and domains (R409, R413 to R421); CALIBRATE ends at the first commit point after READY, and the rows of R409
that TARGET selects are evaluated from the next one. -/
def powerIn (s : State) : State :=
  let s := setPower s { s.power with offUnits := none }
  let s :=
    if s.power.mode = .calibrate ∧ s.power.ready = true then
      wakeStep (switchOffs (setMode s (if s.safety.latch then .safe else .listen)))
    else modeArrive (wakeStep (switchOffs (modeAsk s)))
  setPower s { s.power with ledgerOn := s.power.ledgerOn || s.power.ready }

/-- Ages that every commit point advances. -/
def agesIn (s : State) : State :=
  let s := setHeddle s { s.heddle with swapAge := if s.heddle.frozen then s.heddle.swapAge + 1 else s.heddle.swapAge }
  if s.host.work.any (fun w => w.code == 0x62) then s else setSec s { s.sec with arbTest := s.sec.otpArb }

/-- Step 2 of R26; `old` is the copy in force before it. -/
def stepStaged (old : Nat → Nat) (s : State) : State :=
  let blocks := blockConds s
  let s := setWeft s { s.weft with sinceClear := min 8192 (s.weft.sinceClear + 1) }
  let s := stagedAll (spoolMinima (stagedChecks (safetyClear s)))
  let s := gatesFollow (timeCommit (reedStaged s))
  let s := recoverAge (powerIn (tensionUse s))
  let s := enablesIn old (filtersIn (lanesCommit old s))
  let s := warpCommit (weftCommit (eqIn old s))
  let s := recallStep (actCommit s)
  let s := hostCommit ((old Reg.hostCmdCfg).testBit 31) ((old Reg.hostCqCfg).testBit 31) ((old Reg.hostCtrl).testBit 0) s
  let s := skeinCommit old (shuttleCommit old s)
  reviewBlock blocks (agesIn s)

/-! ## Step 3: validated commands (R24, R25) -/

/-- The first command that may be applied: neither late nor behind a late command of its ring. -/
def firstReady : List Nat → List CmdItem → Option CmdItem
  | _, [] => none
  | held, c :: t => if c.late || held.contains c.desc.ring then firstReady (c.desc.ring :: held) t else some c

/-- Apply at most `n` commands; how many were applied. -/
def applyReady : Nat → State → Nat × State
  | 0, s => (0, s)
  | n + 1, s =>
    match firstReady [] s.host.cmds with
    | none => (0, s)
    | some c =>
      let (k, s) := applyReady n (applyCommand c.desc { s with host := { s.host with cmds := s.host.cmds.erase c } })
      (k + 1, s)

/-- The commands that may be applied, in their order. -/
def readyList : List Nat → List CmdItem → List CmdDesc
  | _, [] => []
  | held, c :: t => if c.late || held.contains c.desc.ring then readyList (c.desc.ring :: held) t else c.desc :: readyList held t

/-- Commands that may be applied and stay beyond the limit. -/
def readyLeft : List Nat → List CmdItem → Nat
  | _, [] => 0
  | held, c :: t => if c.late || held.contains c.desc.ring then readyLeft (c.desc.ring :: held) t else readyLeft held t + 1

/-- Step 3 of R26: at most 256 commands; late ones are due at the next commit point. Then a loaded image comes in (R280). -/
def stepCommands (s : State) : State :=
  let s := setHeddle s { s.heddle with swapDue := swapDueIn s ((readyList [] s.host.cmds).take 256) }
  let (k, s) := applyReady 256 s
  let s := setHeddle s { s.heddle with swapDue := false, ruled := false }
  let s := setPick s { s.pick with applied := k, carried := readyLeft [] s.host.cmds }
  let s := { s with host := { s.host with cmds := s.host.cmds.map (fun c => { c with late := false }) } }
  if s.sec.job = .loaded then swapFirmware (imgSwap s) else s

/-! ## Steps 4 to 11 -/

/-- Step 8, with the exchange of the page in force before it (R323, R332). -/
def stepDraft (s : State) : State := draftSwap (downExchange s)

/-- Step 6 (R221). -/
def stepShapers (s : State) : State :=
  let s := if s.reed.swapAsked then shaperSwap s else s
  setReed s { s.reed with tick := 0 }

/-- Step 11: the pick counter advances to `c`; a discontinuous count is a jump (R19). The context word holds the old and
the new count in a layout that no rule states: a free function of the two (log entry 64). -/
def stepCount (c : Nat) (s : State) : State :=
  let p := s.pick
  let jump := c != (p.count + 1) % 2 ^ 48
  let s := setPick s { p with count := c, commits := p.commits + 1, began := s.now, headerCount := none, lockPending := false
                              jumped := p.jumped || jump, wovenHere := s.act.st == .woven && p.gen == .locked }
  if jump then
    let s := raiseEv (setBit s Reg.pickStat 2) 0x01 0x030 (Config.jumpContext p.count c % 2 ^ 32)
    if framerOn s then setPm s (pmSnap (pmJump s.warp.pm c)) else s
  else if framerOn s then setPm s (pmSnap s.warp.pm) else s

/-- Steps 4 to 11 of R26 in order. -/
def stepRest (c : Nat) (s : State) : State :=
  let s := if s.heddle.swapAsked then deckSwap s else s
  let s := stepDraft (gateArm (stepShapers (actKeys s)))
  rehashStep (stepCount c (recoverStart (grantReview s)))

/-- What the pick that ends brings with it: its temperatures and the safety path's level (R430, R456); an end of SAFE in
it no longer holds the rows of R409 off (R416). -/
def pickEnds (i : CommitIn) (s : State) : State :=
  let s := setPower s { s.power with rowsOff := false, temp := i.temp, tempMax := max s.power.tempMax i.tempMax, tempMean := i.tempMean }
  { s with safety := { s.safety with mpdNow := i.mpd } }

/-- COMMIT_POINT: the pick in progress ends and the next begins: steps 2 to 11 of R26. Step 1 is SWEEP_POINT; what is due
at a commit point and has a row of its own follows it (log entry 2). -/
def execCommitPoint (i : CommitIn) (s : State) : Host.Outcome State Fault Refusal :=
  .next (if !picksRun s then s
  else
    let c := comingCount s i.lineCount
    let s := endPick i.clocks (pickEnds i s)
    let s := takeAll s.selvedge.waiting.length s
    let s := forUpTo 16 (runClocks (s.pick.began + s.pick.len - s.now) s) pairSend
    let old := rd s
    let s := setPick s { s.pick with point := c }
    pauseScan (stepRest c (stepCommands (stepStaged old s))))

end Sys2Proof.Machine
end

