-- ==== Sys2Proof/Machine/Dispatch.lean ====
section
/-! DEFINITION. Machine/Dispatch.lean: each command calls its meaning. -/

namespace Sys2Proof.Machine

open Sys2Proof

def exec (i : Instr) (s : State) : Host.Outcome State Fault Refusal :=
  match i with
  | .regWrite addr be v => Sys2Proof.Machine.execRegWrite addr be v s
  | .strayWrite off be => Sys2Proof.Machine.execStrayWrite off s be
  | .counterLoRead addr be => Sys2Proof.Machine.execCounterLoRead addr be s
  | .rcRead addr be => Sys2Proof.Machine.execRcRead addr be s
  | .pickCountLoRead be => Sys2Proof.Machine.execPickCountLoRead be s
  | .timeNowNsRead be => Sys2Proof.Machine.execTimeNowNsRead be s
  | .timeCapNsRead x be => Sys2Proof.Machine.execTimeCapNsRead x be s
  | .ymgmtRxRead n be => Sys2Proof.Machine.execYmgmtRxRead n be s
  | .ymgmtSend n be v => Sys2Proof.Machine.execYmgmtSend n be v s
  | .warpPmSelWrite be v => Sys2Proof.Machine.execWarpPmSelWrite be v s
  | .selvedgeHistSelWrite be v => Sys2Proof.Machine.execSelvedgeHistSelWrite be v s
  | .lockEnClear be => Sys2Proof.Machine.execLockEnClear be s
  | .rxEnWrite be v => Sys2Proof.Machine.execRxEnWrite be v s
  | .dgLatchClear be pinLow => Sys2Proof.Machine.execDgLatchClear be pinLow s
  | .actHeldSet be => Sys2Proof.Machine.execActHeldSet be s
  | .timeLoad be v => Sys2Proof.Machine.execTimeLoad be v s
  | .timeIncArm be v => Sys2Proof.Machine.execTimeIncArm be v s
  | .hostStep be v => Sys2Proof.Machine.execHostStep be v s
  | .macAddrArm be v => Sys2Proof.Machine.execMacAddrArm be v s
  | .reedSwapRequest be v => Sys2Proof.Machine.execReedSwapRequest be v s
  | .anchorLock be => Sys2Proof.Machine.execAnchorLock be s
  | .draftSwapRequest be v => Sys2Proof.Machine.execDraftSwapRequest be v s
  | .trngRestart be => Sys2Proof.Machine.execTrngRestart be s
  | .heddleEntWrite be => Sys2Proof.Machine.execHeddleEntWrite be s
  | .heddleEntRead be => Sys2Proof.Machine.execHeddleEntRead be s
  | .invalidate be => Sys2Proof.Machine.execInvalidate be s
  | .emInsert be => Sys2Proof.Machine.execEmInsert be s
  | .emDelete be => Sys2Proof.Machine.execEmDelete be s
  | .clearAll be => Sys2Proof.Machine.execClearAll be s
  | .reedEntWrite be => Sys2Proof.Machine.execReedEntWrite be s
  | .reedEntRead be => Sys2Proof.Machine.execReedEntRead be s
  | .draftEntWrite be => Sys2Proof.Machine.execDraftEntWrite be s
  | .draftEntRead be => Sys2Proof.Machine.execDraftEntRead be s
  | .flowStoreEnable be v => Sys2Proof.Machine.execFlowStoreEnable be v s
  | .hostCmdCfgWrite cq be v => Sys2Proof.Machine.execHostCmdCfgWrite cq be v s
  | .hostKick p be v => Sys2Proof.Machine.execHostKick p be v s
  | .abort c be => Sys2Proof.Machine.execAbort c be s
  | .winReset c be => Sys2Proof.Machine.execWinReset c be s
  | .skeinCoreReset c be v => Sys2Proof.Machine.execSkeinCoreReset c be v s
  | .skeinWinDataAccess write be => Sys2Proof.Machine.execSkeinWinDataAccess write be s
  | .mboxDoorbell be v => Sys2Proof.Machine.execMboxDoorbell be v s
  | .clockSwitch be => Sys2Proof.Machine.execClockSwitch be s
  | .selvedgePendClear hi be v => Sys2Proof.Machine.execSelvedgePendClear hi be v s
  | .selvedgeRestart be => Sys2Proof.Machine.execSelvedgeRestart be s
  | .safetyClrWrite be v => Sys2Proof.Machine.execSafetyClrWrite be v s
  | .safetyForceLatch be => Sys2Proof.Machine.execSafetyForceLatch be s
  | .safetyMpdCfgWrite be v => Sys2Proof.Machine.execSafetyMpdCfgWrite be v s
  | .commitPoint x => Sys2Proof.Machine.execCommitPoint x s
  | .sweepPoint line => Sys2Proof.Machine.execSweepPoint line s
  | .sweepExportDone => Sys2Proof.Machine.execSweepExportDone s
  | .repeatStart => Sys2Proof.Machine.execRepeatStart s
  | .proofTest step ticks overrun => Sys2Proof.Machine.execProofTest step ticks overrun s
  | .shaperRefillTick k => Sys2Proof.Machine.execShaperRefillTick k s
  | .perPickOverrun bit clocks arg => Sys2Proof.Machine.execPerPickOverrun bit clocks arg s
  | .amplitudeInterval amp => Sys2Proof.Machine.execAmplitudeInterval amp s
  | .cdrLock => Sys2Proof.Machine.execCdrLock s
  | .cdrLockLoss => Sys2Proof.Machine.execCdrLockLoss s
  | .psyncWindow pos w hdr bad => Sys2Proof.Machine.execPsyncWindow pos w hdr bad s
  | .codewordDecode idx levels words => Sys2Proof.Machine.execCodewordDecode idx levels s words
  | .pickHeader h back => Sys2Proof.Machine.execPickHeader h back s
  | .pmSecondEnd line => Sys2Proof.Machine.execPmSecondEnd s line
  | .weftMap m => Sys2Proof.Machine.execWeftMap m s
  | .clpFrame data cut => Sys2Proof.Machine.execClpFrame data cut s
  | .reasmTimeout stream => Sys2Proof.Machine.execReasmTimeout stream s
  | .discover m pos => Sys2Proof.Machine.execDiscover m pos s
  | .assignTid m pos => Sys2Proof.Machine.execAssignTid m pos s
  | .challenge m pos => Sys2Proof.Machine.execChallenge m pos s
  | .keyAgree m pos => Sys2Proof.Machine.execKeyAgree m pos s
  | .setEqd m pos => Sys2Proof.Machine.execSetEqd m pos s
  | .assignContainer m pos => Sys2Proof.Machine.execAssignContainer m pos s
  | .assignStream m pos => Sys2Proof.Machine.execAssignStream m pos s
  | .keyLoad m pos => Sys2Proof.Machine.execKeyLoad m pos s
  | .keySwitch m pos => Sys2Proof.Machine.execKeySwitch m pos s
  | .tod m pos => Sys2Proof.Machine.execTod m pos s
  | .deactivate m pos => Sys2Proof.Machine.execDeactivate m pos s
  | .stop m pos => Sys2Proof.Machine.execStop m pos s
  | .release m pos => Sys2Proof.Machine.execRelease m pos s
  | .dozeAck m pos => Sys2Proof.Machine.execDozeAck m pos s
  | .effectiveChange => Sys2Proof.Machine.execEffectiveChange s
  | .tAnnounceExpiry => Sys2Proof.Machine.execTAnnounceExpiry s
  | .tKeyExpiry => Sys2Proof.Machine.execTKeyExpiry s
  | .tRangeExpiry => Sys2Proof.Machine.execTRangeExpiry s
  | .tLapseExpiry => Sys2Proof.Machine.execTLapseExpiry s
  | .armExpiry => Sys2Proof.Machine.execArmExpiry s
  | .attestRecordReady => Sys2Proof.Machine.execAttestRecordReady s
  | .keyDerivationDone => Sys2Proof.Machine.execKeyDerivationDone s
  | .burstLatch => Sys2Proof.Machine.execBurstLatch s
  | .sectionFill pieces => Sys2Proof.Machine.execSectionFill s pieces
  | .burstStart => Sys2Proof.Machine.execBurstStart s
  | .burstEnd => Sys2Proof.Machine.execBurstEnd s
  | .pwrFailAssert => Sys2Proof.Machine.execPwrFailAssert s
  | .pwrFailClear => Sys2Proof.Machine.execPwrFailClear s
  | .holdoverEntry => Sys2Proof.Machine.execHoldoverEntry s
  | .ppsPulse => Sys2Proof.Machine.execPpsPulse s
  | .tsCapEdge x falling => Sys2Proof.Machine.execTsCapEdge x falling s
  | .heddlePass pipe1 same => Sys2Proof.Machine.execHeddlePass pipe1 same s
  | .heddleReorderRelease source same => Sys2Proof.Machine.execHeddleReorderRelease source same s
  | .flowMissResolve position poison => Sys2Proof.Machine.execFlowMissResolve position poison s
  | .flowPlacement => Sys2Proof.Machine.execFlowPlacement s
  | .flowAgeOut slot => Sys2Proof.Machine.execFlowAgeOut slot s
  | .deckDrainEnd => Sys2Proof.Machine.execDeckDrainEnd s
  | .reedSelect destType destId same => Sys2Proof.Machine.execReedSelect destType destId s same
  | .spoolFree handle owner => Sys2Proof.Machine.execSpoolFree handle owner s
  | .spoolLayoutApply => Sys2Proof.Machine.execSpoolLayoutApply s
  | .gateListStart p => Sys2Proof.Machine.execGateListStart p s
  | .gateEntryChange p => Sys2Proof.Machine.execGateEntryChange p s
  | .deckLoad d => Sys2Proof.Machine.execDeckLoad d s
  | .deckLoadDone records failed => Sys2Proof.Machine.execDeckLoadDone records failed s
  | .deckSwap d => Sys2Proof.Machine.execDeckSwap d s
  | .ruleWrite d => Sys2Proof.Machine.execRuleWrite d s
  | .flowInsert d => Sys2Proof.Machine.execFlowInsert d s
  | .flowDelete d => Sys2Proof.Machine.execFlowDelete d s
  | .flowRead d => Sys2Proof.Machine.execFlowRead d s
  | .flowRehash d => Sys2Proof.Machine.execFlowRehash d s
  | .flowRehashDone => Sys2Proof.Machine.execFlowRehashDone s
  | .flowClear d => Sys2Proof.Machine.execFlowClear d s
  | .flowClearDone => Sys2Proof.Machine.execFlowClearDone s
  | .shaperLoad d => Sys2Proof.Machine.execShaperLoad d s
  | .shaperSwap d => Sys2Proof.Machine.execShaperSwap d s
  | .gateLoad d => Sys2Proof.Machine.execGateLoad d s
  | .gateStart d => Sys2Proof.Machine.execGateStart d s
  | .queueFlush d => Sys2Proof.Machine.execQueueFlush d s
  | .imageInstall d => Sys2Proof.Machine.execImageInstall d s
  | .imageActivate d => Sys2Proof.Machine.execImageActivate d s
  | .arbRaise d => Sys2Proof.Machine.execArbRaise d s
  | .idSign d => Sys2Proof.Machine.execIdSign d s
  | .sigVerify d => Sys2Proof.Machine.execSigVerify d s
  | .hash d => Sys2Proof.Machine.execHash d s
  | .random d => Sys2Proof.Machine.execRandom d s
  | .hostKey d => Sys2Proof.Machine.execHostKey d s
  | .gcm d => Sys2Proof.Machine.execGcm d s
  | .otpCustKey d => Sys2Proof.Machine.execOtpCustKey d s
  | .commandWorkEnd ring index w => Sys2Proof.Machine.execCommandWorkEnd ring index w s
  | .randomEntropyTimeout ring index => Sys2Proof.Machine.execRandomEntropyTimeout ring index s
  | .trngBlock raw => Sys2Proof.Machine.execTrngBlock raw s
  | .drbgReseed engine => Sys2Proof.Machine.execDrbgReseed engine s
  | .keyRetire stream weft index => Sys2Proof.Machine.execKeyRetire stream weft index s
  | .bootImageChoice => Sys2Proof.Machine.execBootImageChoice s
  | .laneAdapted n ctle => Sys2Proof.Machine.execLaneAdapted n ctle s
  | .laneLinkUp mac n window speed => Sys2Proof.Machine.execLaneLinkUp mac n window s speed
  | .laneLinkDown mac n codeErrs localFault remoteFault => Sys2Proof.Machine.execLaneLinkDown mac n codeErrs localFault remoteFault s
  | .pairMarker n a b => Sys2Proof.Machine.execPairMarker n a s b
  | .yonovFrameRx n y => Sys2Proof.Machine.execYonovFrameRx n y s
  | .yidle n rdy => Sys2Proof.Machine.execYidle n rdy s
  | .yidleTimeout n => Sys2Proof.Machine.execYidleTimeout n s
  | .yidleSend n => Sys2Proof.Machine.execYidleSend n s
  | .yhold n hold => Sys2Proof.Machine.execYhold n hold s
  | .yholdRepeat n => Sys2Proof.Machine.execYholdRepeat n s
  | .yholdTimeout n => Sys2Proof.Machine.execYholdTimeout n s
  | .ymgmt n payload => Sys2Proof.Machine.execYmgmt n payload s
  | .yonovFifoError n => Sys2Proof.Machine.execYonovFifoError n s
  | .macRxFrame p r => Sys2Proof.Machine.execMacRxFrame p r s
  | .pauseFrameRx p data => Sys2Proof.Machine.execPauseFrameRx p data s
  | .pauseExpiry p t => Sys2Proof.Machine.execPauseExpiry p t s
  | .pauseRepeat p => Sys2Proof.Machine.execPauseRepeat p s
  | .macTxEnd p back => Sys2Proof.Machine.execMacTxEnd p back s
  | .mergeVerify p => Sys2Proof.Machine.execMergeVerify p s
  | .upstreamExchange samples => Sys2Proof.Machine.execUpstreamExchange samples s
  | .draftLoad d => Sys2Proof.Machine.execDraftLoad d s
  | .draftSwap d => Sys2Proof.Machine.execDraftSwap d s
  | .doorbellFetchDone block data => Sys2Proof.Machine.execDoorbellFetchDone block data s
  | .descriptorReadDone r d => Sys2Proof.Machine.execDescriptorReadDone r d s
  | .descriptorReread r => Sys2Proof.Machine.execDescriptorReread r s
  | .txSend r data => Sys2Proof.Machine.execTxSend r data s
  | .nop d => Sys2Proof.Machine.execNop d s
  | .ringSetup d => Sys2Proof.Machine.execRingSetup d s
  | .ringResize d => Sys2Proof.Machine.execRingResize d s
  | .ringStop d => Sys2Proof.Machine.execRingStop d s
  | .cqModerate d => Sys2Proof.Machine.execCqModerate d s
  | .ringQuery d => Sys2Proof.Machine.execRingQuery d s
  | .ringEntersOff r => Sys2Proof.Machine.execRingEntersOff r s
  | .msixModTimer c => Sys2Proof.Machine.execMsixModTimer c s
  | .hostFunctionReset down => Sys2Proof.Machine.execHostFunctionReset down s
  | .copy c => Sys2Proof.Machine.execCopy c s
  | .fill c => Sys2Proof.Machine.execFill c s
  | .compare c => Sys2Proof.Machine.execCompare c s
  | .shuttleBurst b => Sys2Proof.Machine.execShuttleBurst b s
  | .shuttleDescDone c => Sys2Proof.Machine.execShuttleDescDone c s
  | .mpy c => Sys2Proof.Machine.execMpy c s
  | .mac c => Sys2Proof.Machine.execMac c s
  | .msu c => Sys2Proof.Machine.execMsu c s
  | .ftap c => Sys2Proof.Machine.execFtap c s
  | .clr c => Sys2Proof.Machine.execClr c s
  | .neg c => Sys2Proof.Machine.execNeg c s
  | .abs c => Sys2Proof.Machine.execAbs c s
  | .adda c => Sys2Proof.Machine.execAdda c s
  | .suba c => Sys2Proof.Machine.execSuba c s
  | .shlAcc c => Sys2Proof.Machine.execShlAcc c s
  | .shrAcc c => Sys2Proof.Machine.execShrAcc c s
  | .movr c => Sys2Proof.Machine.execMovr c s
  | .movt c => Sys2Proof.Machine.execMovt c s
  | .lda c => Sys2Proof.Machine.execLda c s
  | .sat32 c => Sys2Proof.Machine.execSat32 c s
  | .mov c => Sys2Proof.Machine.execMov c s
  | .add c => Sys2Proof.Machine.execAdd c s
  | .sub c => Sys2Proof.Machine.execSub c s
  | .and c => Sys2Proof.Machine.execAnd c s
  | .or c => Sys2Proof.Machine.execOr c s
  | .xor c => Sys2Proof.Machine.execXor c s
  | .shlData c => Sys2Proof.Machine.execShlData c s
  | .shrData c => Sys2Proof.Machine.execShrData c s
  | .cmp c => Sys2Proof.Machine.execCmp c s
  | .skeinNop c => Sys2Proof.Machine.execSkeinNop c s
  | .ld c => Sys2Proof.Machine.execLd c s
  | .st c => Sys2Proof.Machine.execSt c s
  | .ldi c => Sys2Proof.Machine.execLdi c s
  | .addx c => Sys2Proof.Machine.execAddx c s
  | .ldx c => Sys2Proof.Machine.execLdx c s
  | .ldm c => Sys2Proof.Machine.execLdm c s
  | .mvs c => Sys2Proof.Machine.execMvs c s
  | .msv c => Sys2Proof.Machine.execMsv c s
  | .trd c => Sys2Proof.Machine.execTrd c s
  | .twr c => Sys2Proof.Machine.execTwr c s
  | .br c => Sys2Proof.Machine.execBr c s
  | .call c => Sys2Proof.Machine.execCall c s
  | .ret c => Sys2Proof.Machine.execRet c s
  | .rti c => Sys2Proof.Machine.execRti c s
  | .rep c => Sys2Proof.Machine.execRep c s
  | .wait c => Sys2Proof.Machine.execWait c s
  | .halt c => Sys2Proof.Machine.execHalt c s
  | .interruptTaken c k => Sys2Proof.Machine.execInterruptTaken c k s
  | .eqSwap => Sys2Proof.Machine.execEqSwap s
  | .corrWindowEnd corr epow => Sys2Proof.Machine.execCorrWindowEnd corr epow s
  | .skeinLoad d => Sys2Proof.Machine.execSkeinLoad d s
  | .skeinUnload d => Sys2Proof.Machine.execSkeinUnload d s
  | .firmwareBankSwitch c => Sys2Proof.Machine.execFirmwareBankSwitch c s
  | .powerOn => Sys2Proof.Machine.execPowerOn s
  | .resetAssert low => Sys2Proof.Machine.execResetAssert low s
  | .supplyRemoval => Sys2Proof.Machine.execSupplyRemoval s
  | .ready x => Sys2Proof.Machine.execReady x s
  | .dozeDrainComplete => Sys2Proof.Machine.execDozeDrainComplete s
  | .domainWakeOn d => Sys2Proof.Machine.execDomainWakeOn d s
  | .dramTrainingDone fail0 fail1 => Sys2Proof.Machine.execDramTrainingDone fail0 fail1 s
  | .faultReport f => Sys2Proof.Machine.execFaultReport f s
  | .stormClose => Sys2Proof.Machine.execStormClose s
  | .recoveryEnd src => Sys2Proof.Machine.execRecoveryEnd src s
  | .safetyLinkUpdate crcOk seq channel => Sys2Proof.Machine.execSafetyLinkUpdate crcOk seq channel s
  | .safetyDeclare reason channel seen => Sys2Proof.Machine.execSafetyDeclare reason channel s seen
  | .vddSafeReturn removed => Sys2Proof.Machine.execVddSafeReturn removed s
  | .busMasterEnable en width speed cfg => Sys2Proof.Machine.execBusMasterEnable en width speed s cfg
  | .reservedOpcode c => Sys2Proof.Machine.execReservedOpcode c s
  | .treadleMessageDiscarded m pos => Sys2Proof.Machine.execTreadleMessageDiscarded m pos s
  | .darkRegisterRead addr be => Sys2Proof.Machine.execDarkRegisterRead addr be s
  | .corePllLoss => Sys2Proof.Machine.execCorePllLoss s
  | .cutIneffective => Sys2Proof.Machine.execCutIneffective s
  | .vddSafeLoss => Sys2Proof.Machine.execVddSafeLoss s
  | .resetRelease => Sys2Proof.Machine.execResetRelease s

end Sys2Proof.Machine
end

