-- ==== Sys2Proof/Safety.lean ====
section
/-! DEFINITION. Safety.lean: what claims about runs speak of: the canonical forms that every table of the state keeps, the
reports that a command raises, the registers that the host reaches, and the parts of the state that each command may touch. -/

namespace Sys2Proof.Machine

open Sys2Proof

/-- Register copies, counters, holding registers, saturation bits, kill tables and DRAM stand in canonical form: indices
strictly rising, no entry equal to what an unlisted index reads as. -/
def State.tablesWf (s : State) : Bool :=
  swf regReset s.stg && swf regReset s.cur && swf (fun _ => 0) s.cnt && swf (fun _ => 0) s.hold
    && swf (fun _ => false) s.sat && Memory.wf s.dram

/-- Every counter stands at or below the value at which it stops (R31). -/
def State.countersWf (s : State) : Bool := s.cnt.all (fun e => decide (e.2 ≤ cntMax))

/-- What every step keeps: the tables in canonical form and the counters in range. -/
def State.inv (s : State) : Prop := s.tablesWf = true ∧ s.countersWf = true

/-- The report with this source and code is the newest that waits at Selvedge in `t`, behind those that waited in `s`, unless
8 of the source waited already (R439). -/
def State.raises (s t : State) (source code : Nat) : Prop :=
  (s.selvedge.waiting.filter (fun q => q.source == source)).length < 8 →
    ∃ ctx, t.selvedge.waiting = s.selvedge.waiting ++ [⟨codeClass source code, source, code, ctx, source, code⟩]

/-- Register `a` reads the same, staged and in force. -/
def State.regSame (s t : State) (a : Nat) : Prop := rd t a = rd s a ∧ rdS t a = rdS s a

/-- The host reaches the register at BAR0 offset `a`: READY has asserted and the function is not in D3hot, the offset holds a
register outside the MSI-X table and PBA, and the register's power domain is on (R14, R335, R336, R475). -/
def State.hostReaches (s : State) (a : Nat) : Bool :=
  hostReach s && (findRow a).isSome && !(decide (0x00F10000 ≤ a) && decide (a < 0x00F11020)) && domOn s (regDomain s a)

/-- A command of code `code` may be applied now: it comes from a CMD ring that is not OFF, its descriptor passes the check of
R24, no read of its preparation failed, and its commit point has a place for it (R24, R25, R359, R368). -/
def State.cmdReady (s : State) (d : CmdDesc) (code : Nat) : Bool :=
  cmdCode d == code && (ringAt s d.ring).kind == .cmd && (ringAt s d.ring).state != .off && cmdOk d && !prepFailed d && !rowWaits code s

/-- The state in which the command is applied: one that a descriptor read has dispatched is taken out of the list of
validated commands, and one more of the commit point's 256 places is taken (R25). -/
def State.cmdTaken (s : State) (d : CmdDesc) : State :=
  let t := if isQueued s d then unqueue s d else s
  { t with pick := { t.pick with applied := t.pick.applied + 1 } }

/-- The work of a command has been taken up in `t`: its reads of host memory go out, and it completes later (R362). -/
def State.cmdWorks (t : State) (d : CmdDesc) : State := workBegin d t.pick.point t

/-- An activation attempt has ended in `t`: the session is erased, the state is LISTENING, a timeout counts, and the back-off is
drawn or waits for the TRNG (R116 to R118, R269). -/
def State.attemptEnded (s t : State) : Prop :=
  t.act.st = .listening ∧ t.act.tid = none ∧ t.act.keys = none ∧ t.act.exch = none ∧ t.act.changes = [] ∧ t.act.streams = [] ∧
  t.sec.keys = [] ∧ t.act.attempts = min 255 (s.act.attempts + 1) ∧
  (trngGives s = true → t.act.backoffDue = false ∧ t.act.backoff < 2 ^ min (s.act.attempts + 1) 6) ∧
  (trngGives s = false → t.act.backoffDue = true) ∧ cntVal t 2 10 = min cntMax (cntVal s 2 10 + 1)

/-- Core `c` is about to execute the instruction `i`, which stands where it may (R387, R396, R397). -/
def State.skRuns (s : State) (c : Nat) (i : SkInstr) : Bool :=
  skReady s c && skFetch s c == some i && !misplaced (coreAt s c) i

/-- Core `c` goes on as `k` past the instruction that made it so: to the next address, through delay slots and repeat blocks, and into
a halt that RUN = 0 asked for at a safe point (R387, R396, R397). -/
def State.skDone (s : State) (c : Nat) (k : SkCore) : State := haltIfAsked (setCore s c (skAdvance c k .next)) c

/-- What lane `n` puts out as it sends blocks (sync header and 8 bytes) with its scrambler at `st` (R300). -/
def blocksSent (n : Nat) : Nat → List (Nat × List Byte) → List Output
  | _, [] => []
  | st, (sync, l) :: t =>
    .lineBlock n sync (scramble64 st (blockWord l)).2 :: blocksSent n (scramble64 st (blockWord l)).1 t

/-- A burst is in progress: LASER_EN has risen and not fallen (R107). -/
def State.emits (s : State) : Bool := s.weft.bursts.any (·.started)

/-- The parts of the state that a command may touch. -/
inductive Part where
  | clock | dram | hostRead | regs | cnt | hold | draws | out | pick | power | tension | selvedge | safety | host
  | spool | heddle | flow | reed | sec | warp | weft | act | draft | shuttle | skein | time | ports
deriving DecidableEq, Repr

/-- `t` differs from `s` in the parts `ps` alone: clocks (`now`, `ns`), registers staged and in force, counters with their saturation
bits, and each other field for itself. -/
def State.sameBut (ps : List Part) (s t : State) : Prop :=
  t.pending = s.pending ∧
  (.clock ∈ ps ∨ (t.now = s.now ∧ t.ns = s.ns)) ∧ (.dram ∈ ps ∨ (t.dram = s.dram)) ∧ (.hostRead ∈ ps ∨ (t.hostRead = s.hostRead)) ∧
  (.regs ∈ ps ∨ (t.stg = s.stg ∧ t.cur = s.cur)) ∧ (.cnt ∈ ps ∨ (t.cnt = s.cnt ∧ t.sat = s.sat)) ∧ (.hold ∈ ps ∨ (t.hold = s.hold)) ∧
  (.draws ∈ ps ∨ (t.draws = s.draws)) ∧ (.out ∈ ps ∨ (t.out = s.out)) ∧ (.pick ∈ ps ∨ (t.pick = s.pick)) ∧
  (.power ∈ ps ∨ (t.power = s.power)) ∧ (.tension ∈ ps ∨ (t.tension = s.tension)) ∧ (.selvedge ∈ ps ∨ (t.selvedge = s.selvedge)) ∧
  (.safety ∈ ps ∨ (t.safety = s.safety)) ∧ (.host ∈ ps ∨ (t.host = s.host)) ∧ (.spool ∈ ps ∨ (t.spool = s.spool)) ∧
  (.heddle ∈ ps ∨ (t.heddle = s.heddle)) ∧ (.flow ∈ ps ∨ (t.flow = s.flow)) ∧ (.reed ∈ ps ∨ (t.reed = s.reed)) ∧
  (.sec ∈ ps ∨ (t.sec = s.sec)) ∧ (.warp ∈ ps ∨ (t.warp = s.warp)) ∧ (.weft ∈ ps ∨ (t.weft = s.weft)) ∧
  (.act ∈ ps ∨ (t.act = s.act)) ∧ (.draft ∈ ps ∨ (t.draft = s.draft)) ∧ (.shuttle ∈ ps ∨ (t.shuttle = s.shuttle)) ∧
  (.skein ∈ ps ∨ (t.skein = s.skein)) ∧ (.time ∈ ps ∨ (t.time = s.time)) ∧ (.ports ∈ ps ∨ (t.ports = s.ports))

/-- What a command may touch, its refused and not-due forms included. A register access reaches whatever unit the register
stands in. -/
def footprint : Instr → List Part
  | .regWrite _ _ _ | .ymgmtSend _ _ _ | .warpPmSelWrite _ _ | .selvedgeHistSelWrite _ _ | .lockEnClear _ | .rxEnWrite _ _
  | .dgLatchClear _ _ | .actHeldSet _ | .timeLoad _ _ | .timeIncArm _ _ | .hostStep _ _ | .macAddrArm _ _ | .reedSwapRequest _ _
  | .anchorLock _ | .draftSwapRequest _ _ | .trngRestart _ | .heddleEntWrite _ | .heddleEntRead _ | .invalidate _ | .emInsert _
  | .emDelete _ | .clearAll _ | .reedEntWrite _ | .reedEntRead _ | .draftEntWrite _ | .draftEntRead _ | .flowStoreEnable _ _
  | .hostCmdCfgWrite _ _ _ | .abort _ _ | .winReset _ _ | .skeinCoreReset _ _ _ | .mboxDoorbell _ _ | .clockSwitch _
  | .selvedgePendClear _ _ _ | .selvedgeRestart _ | .safetyClrWrite _ _ | .safetyForceLatch _ | .safetyMpdCfgWrite _ _ =>
    [.dram, .regs, .cnt, .draws, .out, .pick, .power, .tension, .selvedge, .safety, .host, .spool, .heddle, .flow, .reed, .sec,
      .warp, .weft, .act, .draft, .shuttle, .skein, .time, .ports]
  | .strayWrite _ _ => [.regs, .cnt, .draws, .selvedge]
  | .counterLoRead _ _ | .pickCountLoRead _ | .timeNowNsRead _ | .timeCapNsRead _ _ | .ymgmtRxRead _ _ | .darkRegisterRead _ _ =>
    [.hostRead, .regs, .cnt, .hold, .draws, .pick, .power, .selvedge, .spool, .skein, .time, .ports]
  | .rcRead _ _ => [.hostRead, .regs, .cnt, .hold, .draws, .out, .pick, .power, .selvedge, .spool, .skein, .time, .ports]
  | .hostKick _ _ _ | .doorbellFetchDone _ _ | .descriptorReadDone _ _ | .busMasterEnable _ _ _ _ => [.regs, .cnt, .draws, .out, .selvedge, .host]
  | .skeinWinDataAccess _ _ =>
    [.dram, .hostRead, .regs, .cnt, .hold, .draws, .out, .pick, .power, .tension, .selvedge, .safety, .host, .spool, .heddle,
      .flow, .reed, .sec, .warp, .weft, .act, .draft, .shuttle, .skein, .time, .ports]
  | .commitPoint _ =>
    [.clock, .dram, .regs, .cnt, .hold, .draws, .out, .pick, .power, .tension, .selvedge, .safety, .host, .spool, .heddle,
      .flow, .reed, .sec, .warp, .weft, .act, .draft, .shuttle, .skein, .time, .ports]
  | .sweepPoint _ => [.cnt, .pick]
  | .sweepExportDone => [.regs, .cnt, .out, .pick, .host]
  | .repeatStart => [.regs, .cnt, .out, .host, .flow]
  | .proofTest _ _ _ | .safetyLinkUpdate _ _ _ | .safetyDeclare _ _ _ => [.regs, .cnt, .draws, .out, .power, .selvedge, .safety, .host, .weft, .act]
  | .shaperRefillTick _ => [.reed, .skein]
  | .perPickOverrun _ _ _ =>
    [.regs, .cnt, .draws, .out, .pick, .power, .tension, .selvedge, .safety, .host, .spool, .heddle, .warp, .weft, .act, .draft]
  | .amplitudeInterval _ | .psyncWindow _ _ _ _ => [.regs, .cnt, .out, .pick, .host, .warp, .weft, .act]
  | .cdrLock | .cdrLockLoss => [.warp]
  | .codewordDecode _ _ _ => [.cnt, .warp, .weft]
  | .pickHeader _ _ => [.cnt, .pick, .warp, .time]
  | .pmSecondEnd _ => [.regs, .cnt, .out, .host, .warp]
  | .weftMap _ => [.cnt, .draws, .safety, .warp, .weft, .act]
  | .clpFrame _ _ => [.regs, .cnt, .draws, .out, .selvedge, .host, .spool, .heddle, .reed, .sec, .warp, .draft]
  | .reasmTimeout _ => [.cnt, .warp]
  | .discover _ _ | .assignTid _ _ | .challenge _ _ | .keyAgree _ _ | .setEqd _ _ | .assignContainer _ _ | .assignStream _ _
  | .keyLoad _ _ | .keySwitch _ _ | .deactivate _ _ | .stop _ _ | .release _ _ | .dozeAck _ _ => [.cnt, .act]
  | .tod _ _ => [.cnt, .draws, .time]
  | .effectiveChange => [.regs, .cnt, .draws, .out, .pick, .host, .sec, .warp, .act]
  | .tAnnounceExpiry | .tKeyExpiry | .tRangeExpiry => [.regs, .cnt, .draws, .out, .host, .sec, .warp, .weft, .act]
  | .tLapseExpiry => [.regs, .cnt, .out, .host, .sec, .warp, .weft, .act]
  | .armExpiry => [.regs, .act]
  | .attestRecordReady | .keyDerivationDone => [.cnt, .draws, .sec, .act]
  | .burstLatch => [.cnt, .sec, .weft, .act]
  | .sectionFill _ => [.regs, .cnt, .draws, .out, .selvedge, .host, .spool, .reed, .weft, .ports]
  | .burstStart => [.regs, .cnt, .out, .safety, .weft, .act]
  | .burstEnd => [.safety, .weft]
  | .pwrFailAssert | .domainWakeOn _ => [.regs, .cnt, .out, .power, .host, .act]
  | .pwrFailClear => [.power]
  | .holdoverEntry => [.regs, .cnt, .out, .host, .time]
  | .ppsPulse => [.cnt, .out, .time]
  | .tsCapEdge _ _ => [.regs, .cnt, .time]
  | .heddlePass _ _ | .flowMissResolve _ _ => [.dram, .regs, .cnt, .draws, .out, .selvedge, .host, .spool, .heddle, .flow, .reed, .ports]
  | .heddleReorderRelease _ _ | .yonovFrameRx _ _ | .macRxFrame _ _ => [.regs, .cnt, .draws, .out, .selvedge, .host, .spool, .heddle, .reed, .ports]
  | .flowPlacement => [.dram, .cnt, .out, .host, .flow, .sec]
  | .flowAgeOut _ => [.dram, .regs, .cnt, .out, .host, .flow]
  | .deckDrainEnd => [.regs, .cnt, .draws, .out, .selvedge, .host, .spool, .heddle]
  | .reedSelect _ _ _ => [.regs, .cnt, .draws, .out, .selvedge, .host, .spool, .reed, .ports]
  | .spoolFree _ _ => [.regs, .cnt, .draws, .out, .selvedge, .spool, .ports]
  | .spoolLayoutApply => [.regs, .cnt, .draws, .selvedge, .spool]
  | .gateListStart _ | .gateEntryChange _ => [.regs, .reed]
  | .deckLoad _ | .deckSwap _ | .ruleWrite _ => [.regs, .cnt, .draws, .out, .pick, .selvedge, .host, .heddle, .sec]
  | .deckLoadDone _ _ => [.cnt, .out, .host, .heddle, .sec]
  | .flowInsert _ | .flowDelete _ | .flowClear _ => [.dram, .regs, .cnt, .draws, .out, .pick, .selvedge, .host, .flow, .sec]
  | .flowRead _ | .imageInstall _ | .imageActivate _ | .arbRaise _ | .idSign _ | .sigVerify _ | .hash _ | .random _ | .hostKey _
  | .gcm _ | .otpCustKey _ | .nop _ | .ringSetup _ | .ringResize _ | .ringStop _ | .cqModerate _ | .ringQuery _ =>
    [.regs, .cnt, .draws, .out, .pick, .selvedge, .host, .sec]
  | .flowRehash _ => [.regs, .cnt, .draws, .out, .pick, .selvedge, .host, .flow, .sec]
  | .flowRehashDone => [.dram, .regs, .cnt, .out, .host, .flow, .sec]
  | .flowClearDone => [.regs, .cnt, .out, .host, .flow, .sec]
  | .shaperLoad _ | .shaperSwap _ | .gateLoad _ | .gateStart _ => [.regs, .cnt, .draws, .out, .pick, .selvedge, .host, .reed, .sec]
  | .queueFlush _ => [.regs, .cnt, .draws, .out, .pick, .selvedge, .host, .spool, .reed, .sec, .ports]
  | .commandWorkEnd _ _ _ => [.regs, .cnt, .draws, .out, .selvedge, .host, .reed, .sec, .draft, .skein]
  | .randomEntropyTimeout _ _ | .ringEntersOff _ => [.cnt, .out, .host, .sec]
  | .trngBlock _ => [.regs, .cnt, .draws, .selvedge, .sec]
  | .drbgReseed _ => [.regs, .draws, .sec]
  | .keyRetire _ _ _ => [.regs, .cnt, .sec]
  | .bootImageChoice => [.draws, .sec, .skein]
  | .laneAdapted _ _ | .laneLinkDown _ _ _ _ _ | .pairMarker _ _ _ | .yidle _ _ | .yidleTimeout _ | .yonovFifoError _ =>
    [.regs, .cnt, .out, .host, .ports]
  | .laneLinkUp _ _ _ _ => [.regs, .cnt, .draws, .out, .host, .ports]
  | .yidleSend _ | .yholdRepeat _ => [.regs, .out, .ports]
  | .yhold _ _ | .pauseExpiry _ _ | .mergeVerify _ => [.regs, .ports]
  | .yholdTimeout _ | .ymgmt _ _ | .pauseFrameRx _ _ => [.regs, .cnt, .ports]
  | .pauseRepeat _ => [.regs, .cnt, .out, .ports]
  | .macTxEnd _ _ => [.regs, .cnt, .draws, .out, .selvedge, .host, .spool, .ports]
  | .upstreamExchange _ => [.regs, .cnt, .draws, .out, .selvedge, .host, .spool, .reed, .draft, .ports]
  | .draftLoad _ | .draftSwap _ => [.regs, .cnt, .draws, .out, .pick, .selvedge, .host, .sec, .draft]
  | .descriptorReread _ | .msixModTimer _ => [.cnt, .out, .host]
  | .txSend _ _ => [.regs, .cnt, .draws, .out, .selvedge, .host, .spool, .heddle, .reed]
  | .hostFunctionReset _ => [.regs, .cnt, .hold, .host, .heddle, .reed, .sec, .draft, .shuttle]
  | .copy _ | .fill _ | .compare _ | .shuttleDescDone _ => [.cnt, .out, .host, .shuttle]
  | .shuttleBurst _ => [.dram, .regs, .cnt, .draws, .out, .selvedge, .host, .shuttle]
  | .mpy _ | .mac _ | .msu _ | .ftap _ | .clr _ | .neg _ | .abs _ | .adda _ | .suba _ | .shlAcc _ | .shrAcc _ | .movr _
  | .movt _ | .lda _ | .sat32 _ | .mov _ | .add _ | .sub _ | .and _ | .or _ | .xor _ | .shlData _ | .shrData _ | .cmp _
  | .skeinNop _ | .ld _ | .st _ | .ldi _ | .addx _ | .ldx _ | .ldm _ | .mvs _ | .msv _ | .trd _ | .twr _ | .br _ | .call _
  | .ret _ | .rti _ | .rep _ | .wait _ | .halt _ => [.regs, .cnt, .draws, .out, .tension, .selvedge, .host, .warp, .skein]
  | .interruptTaken _ _ | .firmwareBankSwitch _ => [.skein]
  | .eqSwap => [.regs, .cnt, .draws, .selvedge, .warp, .skein]
  | .corrWindowEnd _ _ => [.warp, .skein]
  | .skeinLoad _ => [.regs, .cnt, .draws, .out, .pick, .selvedge, .host, .sec, .skein]
  | .skeinUnload _ => [.regs, .cnt, .draws, .out, .pick, .tension, .selvedge, .host, .sec, .skein]
  | .powerOn | .resetAssert _ | .supplyRemoval =>
    [.clock, .dram, .regs, .cnt, .hold, .pick, .power, .tension, .selvedge, .safety, .host, .spool, .heddle, .flow, .reed,
      .sec, .warp, .weft, .act, .draft, .shuttle, .skein, .time, .ports]
  | .ready _ => [.regs, .cnt, .draws, .out, .power, .selvedge, .safety, .host, .weft, .act, .skein]
  | .dozeDrainComplete =>
    [.dram, .regs, .cnt, .hold, .draws, .out, .power, .tension, .selvedge, .safety, .host, .spool, .heddle, .flow, .reed, .sec,
      .warp, .weft, .act, .draft, .skein, .time, .ports]
  | .dramTrainingDone _ _ => [.dram, .regs]
  | .faultReport _ => [.regs, .cnt, .draws, .out, .power, .tension, .selvedge, .safety, .host, .spool, .heddle, .flow, .weft, .act, .skein]
  | .stormClose => [.regs, .cnt, .out, .selvedge, .host]
  | .recoveryEnd _ => [.regs, .cnt, .draws, .out, .selvedge, .host, .skein]
  | .vddSafeReturn _ => [.regs, .cnt, .hold, .safety]
  | .reservedOpcode _ => [.regs, .cnt, .tension, .selvedge, .skein]
  | .treadleMessageDiscarded _ _ => [.cnt]
  | .corePllLoss => [.regs, .cnt, .draws, .power, .selvedge]
  | .cutIneffective => [.regs, .cnt, .draws, .selvedge, .safety]
  | .vddSafeLoss => [.safety]
  | .resetRelease => [.regs, .power, .act]

end Sys2Proof.Machine
end

