-- ==== Sys2Proof/Certificates/Slice0/Obligations.lean ====
section
/-! DEFINITION. Certificates/Slice0/Obligations.lean: what the provers are asked to prove of the model. Each docstring names the
rules of spec/ that the statement rests on; where it rests on a choice of the model it names the log entry. -/

open Sys2Proof Sys2Proof.Machine

/-- Whatever command stands at the front of the queue, and on an empty queue, a step keeps the tables in canonical form and
every counter at or below its maximum (R31). -/
def Obligations.StepKeepsInvariant : Prop :=
  ∀ s t : State, s.inv → step s = .next t → t.inv

/-- The state after reset has the invariant. -/
def Obligations.ResetHasInvariant : Prop :=
  State.reset.inv

/-- Every command answers a next state: it never stops the block, it leaves the queue alone, it never takes back what the block
has sent out, and it never draws a free value twice. -/
def Obligations.CommandsAnswerNext : Prop :=
  ∀ (c : Instr) (s : State),
    ∃ t, exec c s = .next t ∧ t.pending = s.pending ∧ s.out <+: t.out ∧ s.draws ≤ t.draws ∧ (s.inv → t.inv)

/-- A command touches no part of the state outside its footprint. -/
def Obligations.CommandsKeepToFootprint : Prop :=
  ∀ (c : Instr) (s t : State), exec c s = .next t → s.sameBut (footprint c) t

/-- R425: no command but the loss or return of the supplies and a falling RESET_N takes READY away. -/
def Obligations.ReadyStaysUntilReset : Prop :=
  ∀ (c : Instr) (s t : State), exec c s = .next t → s.power.ready = true → t.power.ready = false →
    c = .powerOn ∨ c = .supplyRemoval ∨ ∃ low, 200 ≤ low ∧ c = .resetAssert low

/-- What the fuses say only grows: the anti-rollback counter never falls, a written customer key stays as written, and the
identity key never changes, whatever command runs. -/
def Obligations.FusesOnlyGrow : Prop :=
  ∀ (c : Instr) (s t : State), exec c s = .next t →
    s.sec.otpArb ≤ t.sec.otpArb ∧ t.sec.idSeed = s.sec.idSeed ∧
    (s.sec.custWritten = true → t.sec.custWritten = true ∧ t.sec.custKey = s.sec.custKey)

/-- A safety latch is left at a commit point, or with the supply of the safety domain, and by nothing else. -/
def Obligations.LatchLeftOnlyAtCommitOrSupply : Prop :=
  ∀ (c : Instr) (s t : State), exec c s = .next t → s.safety.latch = true → t.safety.latch = false →
    (∃ x, c = .commitPoint x) ∨ (∃ r, c = .vddSafeReturn r) ∨ c = .powerOn ∨ c = .supplyRemoval

/-- A step with `c` at the front of the queue is `exec` of `c` on the state with the queue's rest. -/
def Obligations.StepTakesFrontCommand : Prop :=
  ∀ (c : Instr) (rest : List Instr) (s : State), s.pending = c :: rest → step s = exec c { s with pending := rest }

/-- Log entry 3: on an empty queue one core clock passes while RESET_N is high and the mode is not OFF; else nothing changes. -/
def Obligations.EmptyQueueStepIsOneClock : Prop :=
  ∀ s : State, s.pending = [] →
    (picksRun s = false → step s = .next s) ∧
    (picksRun s = true → ∃ t, step s = .next t ∧ t.pending = [] ∧ t.now = s.now + 1)

/-- AMPLITUDE_INTERVAL, CDR_LOCK and CDR_LOCK_LOSS. Where no defect changes, all that changes is the detector's counts or the
lock; the fourth low interval in a row declares LOS and LOF and sends the framer to HUNT, the 64th high one clears LOS.
PSYNC_WINDOW in SYNC: elsewhere than at the expected position nothing happens; at it, a window within TOL clears the misses, one
beyond it is counted, and the third miss in a row takes the framer to HUNT and declares LOF. While the framer hunts, the third
occurrence of a candidate with a good header takes it to SYNC. -/
def Obligations.DetectorsAndFramerTrackLine : Prop :=
  ((∀ s : State, rxOn s = true → s.warp.los = false →
    exec .cdrLock s = .next { s with warp := { s.warp with cdrLock := true } }) ∧
  (∀ s : State, s.warp.cdrLock = true → s.warp.align = .sync →
    exec .cdrLockLoss s = .next { s with warp := { s.warp with cdrLock := false } }) ∧
  (∀ s : State, s.warp.cdrLock = true → s.warp.align ≠ .sync →
    exec .cdrLockLoss s = .next { s with warp := { s.warp with cdrLock := false, align := .hunt, cands := [] } }) ∧
  (∀ (s : State) (amp : Nat), rxOn s = true → s.warp.los = false → 2 * fld s Reg.warpLosCfg 7 0 ≤ amp →
    exec (.amplitudeInterval amp) s = .next { s with warp := { s.warp with
      below := 0
      above := if 2 * (fld s Reg.warpLosCfg 7 0 + fld s Reg.warpLosCfg 15 8) < amp then min 64 (s.warp.above + 1) else 0 } }) ∧
  (∀ (s : State) (amp : Nat), rxOn s = true → s.warp.los = false → amp < 2 * fld s Reg.warpLosCfg 7 0 → s.warp.below = 3 →
    ∃ t, exec (.amplitudeInterval amp) s = .next t ∧ t.warp.los = true ∧ t.warp.lof = true ∧ t.warp.align = .hunt ∧
      t.warp.cands = []) ∧
  (∀ (s : State) (amp : Nat), rxOn s = true → s.warp.los = true → s.warp.above = 63 →
    2 * (fld s Reg.warpLosCfg 7 0 + fld s Reg.warpLosCfg 15 8) < amp →
    ∃ t, exec (.amplitudeInterval amp) s = .next t ∧ t.warp.los = false ∧ t.warp.lof = s.warp.lof ∧ t.warp.sd = s.warp.sd)) ∧
  ((∀ (s : State) (pos w : Nat) (hdr : List Byte) (bad : Bool), rxOn s = true → s.warp.los = false → s.warp.align = .sync →
    (pos ≠ s.warp.pos → exec (.psyncWindow pos w hdr bad) s = .next s) ∧
    (pos = s.warp.pos → popcount 64 (w ^^^ psync) ≤ fld s Reg.warpAlignCfg 2 0 → s.pick.gen = .locked →
      exec (.psyncWindow pos w hdr bad) s = .next { s with warp := { s.warp with
        misses := 0, rx := {}, last := s.warp.last.map (fun e => (e.1, e.2 + 1)) } }) ∧
    (pos = s.warp.pos → fld s Reg.warpAlignCfg 2 0 < popcount 64 (w ^^^ psync) → s.warp.misses < 2 → s.inv →
      ∃ t, exec (.psyncWindow pos w hdr bad) s = .next t ∧ t.warp.misses = s.warp.misses + 1 ∧ t.warp.align = .sync ∧
        cntVal t 0 4 = min cntMax (cntVal s 0 4 + 1)) ∧
    (pos = s.warp.pos → fld s Reg.warpAlignCfg 2 0 < popcount 64 (w ^^^ psync) → 2 ≤ s.warp.misses →
      ∃ t, exec (.psyncWindow pos w hdr bad) s = .next t ∧ t.warp.align = .hunt ∧ t.warp.lof = true ∧ t.warp.reasm = [] ∧
        t.pick.gen ≠ .locked)) ∧
  (∀ (s : State) (pos w : Nat) (hdr : List Byte) (bad : Bool) (c : Cand), rxOn s = true → s.warp.los = false →
    s.warp.align ≠ .sync → s.warp.cands.find? (fun c => c.pos == pos) = some c → c.seen = 2 →
    popcount 64 (w ^^^ psync) ≤ fld s Reg.warpAlignCfg 2 0 → headerOk hdr bad = true →
    ∃ t, exec (.psyncWindow pos w hdr bad) s = .next t ∧ t.warp.align = .sync ∧ t.warp.pos = pos ∧ t.warp.cands = [] ∧
      t.warp.lof = false ∧ (flag s Reg.pickCtrl 0 = true → t.pick.gen = .locked)))

/-- R54: at most eight candidates; a ninth replaces the oldest whose count is 1, or is not opened, and either way OVERFLOW
counts (an 8-bit count that stops at 255). -/
def Obligations.FramerHoldsEightCandidates : Prop :=
  (∀ (s t : State) (pos w : Nat) (hdr : List Byte) (bad : Bool), s.warp.cands.length ≤ 8 →
    exec (.psyncWindow pos w hdr bad) s = .next t → t.warp.cands.length ≤ 8) ∧
  (∀ (s : State) (pos : Nat) (hdr : List Byte) (bad : Bool), s.inv → rxOn s = true → s.warp.los = false →
    s.warp.align ≠ .sync → s.warp.cdrLock = true → (∀ c ∈ s.warp.cands, c.pos ≠ pos) →
    (s.warp.cands.length < 8 →
      exec (.psyncWindow pos psync hdr bad) s = .next { s with warp := { s.warp with cands := s.warp.cands ++ [⟨pos, 1⟩] } }) ∧
    (s.warp.cands.length = 8 →
      ∃ t, exec (.psyncWindow pos psync hdr bad) s = .next t ∧
        fld t Reg.warpAlignStat 15 8 = min 255 (fld s Reg.warpAlignStat 15 8 + 1) ∧
        (∀ c, s.warp.cands.find? (fun c => c.seen == 1) = some c → t.warp.cands = s.warp.cands.erase c ++ [⟨pos, 1⟩]) ∧
        ((∀ c ∈ s.warp.cands, c.seen ≠ 1) → t.warp.cands = s.warp.cands)))

/-- CODEWORD_DECODE, PICK_HEADER, REASM_TIMEOUT and PM_SECOND_END: the pick's next codeword, whose decoder reaches a zero
syndrome within MAX_ITER iterations, counts the input hard decisions that differ from the codeword (R59, R62); one that does not
is poisoned and adds one to REI (R61); a header that passes gives the pick its count and partitions, one that fails discards the
pick and every reassembly context; a context older than TIMEOUT is dropped; a second that ends shows its bits and codewords and
starts the next from zero. -/
def Obligations.PickContentsCountAndCheck : Prop :=
  (∀ (s : State) (idx : Nat) (levels : List Pam4) (words : List Nat), s.inv → rxOn s = true → s.warp.align = .sync → idx < 480 →
    s.warp.rx.next = idx → s.power.mode ≠ .doze ∨ idx ≤ lastDozeCw s.warp.rx →
    (∀ w, decoded s idx words = some w →
      let n := popcount 25920 (hardWord idx levels ^^^ w)
      ∃ t, exec (.codewordDecode idx levels words) s = .next t ∧ t.warp.rx.next = idx + 1 ∧
        cntVal t 0 0 = min cntMax (cntVal s 0 0 + 1) ∧ cntVal t 0 2 = cntVal s 0 2 ∧ cntVal t 0 3 = min cntMax (cntVal s 0 3 + n) ∧
        t.warp.rx.poison = s.warp.rx.poison ∧ t.warp.pm.bits = s.warp.pm.bits + n ∧ t.weft = s.weft) ∧
    (decoded s idx words = none → domOn s 8 = true →
      ∃ t, exec (.codewordDecode idx levels words) s = .next t ∧ t.warp.rx.next = idx + 1 ∧
        cntVal t 0 0 = min cntMax (cntVal s 0 0 + 1) ∧ cntVal t 0 2 = min cntMax (cntVal s 0 2 + 1) ∧ cntVal t 0 3 = cntVal s 0 3 ∧
        t.warp.rx.poison = s.warp.rx.poison ++ [idx] ∧ t.weft = { s.weft with rei := min 255 (s.weft.rei + 1) })) ∧
  (∀ (s : State) (idx : Nat) (words : List Nat),
    (∀ w, decoded s idx words = some w ↔ ∃ k, k < fld s Reg.warpFecCfg 3 0 ∧ words[k]?.map (fixSync idx) = some w ∧ codeOk 576 w = true ∧
      ∀ j < k, ∀ v, words[j]?.map (fixSync idx) = some v → codeOk 576 v = false)) ∧
  (∀ (s : State) (h : List Byte) (back : Nat), rxOn s = true → s.warp.align = .sync → s.warp.rx.checked = false → warpOk s = true →
    headerOk h (poisoned s.warp.rx 8 24) = true → (∀ e, s.warp.last = some e → (e.1 + e.2) % 2 ^ 48 = beAt h 0 6) →
    s.power.mode ≠ .doze →
    ∃ t, exec (.pickHeader h back) s = .next t ∧ t.warp.rx.ok = true ∧ t.warp.rx.count = beAt h 0 6 ∧
      t.warp.rx.mapLen = beAt h 8 2 % 1024 ∧ t.warp.rx.msgLen = beAt h 10 2 % 512 ∧ t.warp.last = some (beAt h 0 6, 0) ∧
      t.warp.reasm = s.warp.reasm ∧ t.pick = s.pick) ∧
  (∀ (s : State) (h : List Byte) (back : Nat), s.inv → rxOn s = true → s.warp.align = .sync → s.warp.rx.checked = false →
    headerOk h (poisoned s.warp.rx 8 24) = false →
    ∃ t, exec (.pickHeader h back) s = .next t ∧ t.warp.rx.ok = false ∧ t.warp.rx.walk = none ∧ t.warp.misses = s.warp.misses ∧
      t.warp.reasm = [] ∧ cntVal t 0 5 = min cntMax (cntVal s 0 5 + 1) ∧
      cntVal t 0 13 = min cntMax (cntVal s 0 13 + s.warp.reasm.length)) ∧
  (∀ (s : State) (stream : Nat) (r : Reasm), s.inv → sget none s.warp.reasm stream = some r → fld s Reg.warpReasmCfg 3 0 < r.age →
    ∃ t, exec (.reasmTimeout stream) s = .next t ∧ t.warp.reasm = sput none s.warp.reasm stream none ∧
      cntVal t 0 13 = min cntMax (cntVal s 0 13 + 1)) ∧
  (∀ (s : State) (line : Option Nat), s.inv → framerOn s = true → comingCount s line % 8000 = 0 → s.warp.pm.ended ≠ s.pick.commits + 1 →
    ∃ t, exec (.pmSecondEnd line) s = .next t ∧ rd t Reg.warpBerBits = min s.warp.pm.bits 0xFFFFFFFF ∧
      rd t Reg.warpBerCw = min s.warp.pm.cw 0x3FFFFF ∧ t.warp.pm.bits = 0 ∧ t.warp.pm.cw = 0 ∧ t.warp.pm.ucw = 0 ∧
      t.warp.pm.hdr = 0 ∧ t.warp.pm.ended = s.pick.commits + 1)

/-- CLP_FRAME: an idle frame is passed over, a frame of a stream that is not active is counted, and a first fragment that
deciphers opens its stream's reassembly context, a whole user frame goes to Heddle in WOVEN (that one before WOVEN is discarded
is the model's reading of R143, log entry 79); each moves the walk to the next frame. -/
def Obligations.ClpFrameWalksPartition : Prop :=
  ∀ (s : State) (data : List Byte) (cut : Option Nat) (o : Nat), rxOn s = true → s.warp.align = .sync → s.warp.rx.ok = true →
    s.warp.rx.walk = some o → poisoned s.warp.rx o 8 = false → clpOk (beAt data 0 8) = true →
    o + clpSpan (clpAt o data 0) ≤ infoBytes →
    let f := clpAt o data 0
    let u := setWalk s (some (o + clpSpan f))
    (f.stream = 0xFFFF → exec (.clpFrame data cut) s = .next u) ∧
    (f.stream ≠ 0xFFFF → poisoned s.warp.rx o (8 + f.len) = false → sget none s.act.streams f.stream = none →
      exec (.clpFrame data cut) s = .next (dropContext (count u 0 10) f.stream)) ∧
    (∀ (plain : List Byte) (b : Bool) (v : State), f.stream ≠ 0xFFFF → poisoned s.warp.rx o (8 + f.len) = false →
      sget none s.act.streams f.stream ≠ none → f.typ ≠ 3 → domOn s 19 = true → unitOk s 0x15 = true → f.last = false →
      cipher0 (countBy (count u 0 6) 0 7 f.len) f.hdr f.stream f.enc f.key f.payload s.warp.rx.count o = (some plain, b, v) →
      sget none v.warp.reasm f.stream = none →
      exec (.clpFrame data cut) s =
        .next { v with warp := { v.warp with reasm := sput none v.warp.reasm f.stream (some ⟨plain, 0⟩) } }) ∧
    (∀ (plain : List Byte) (b : Bool) (v : State), f.stream ≠ 0xFFFF → poisoned s.warp.rx o (8 + f.len) = false →
      sget none s.act.streams f.stream ≠ none → f.typ = 0 → domOn s 19 = true → unitOk s 0x15 = true → f.last = true → cut = none →
      cipher0 (countBy (count u 0 6) 0 7 f.len) f.hdr f.stream f.enc f.key f.payload s.warp.rx.count o = (some plain, b, v) →
      sget none v.warp.reasm f.stream = none →
      (v.act.st = .woven →
        exec (.clpFrame data cut) s = .next (heddleInput v { data := plain, srcType := 2, stream := f.stream })) ∧
      (v.act.st ≠ .woven → exec (.clpFrame data cut) s = .next v))

/-- WEFT_MAP: the map is parsed once; it is counted with the grants that fail GCRC, the safety path derives its windows from its
own copies, and a map whose only intact grant is this terminal's forms the burst whose LASER_EN rises at 64S - 32P - 64 -
ON_LEAD and falls at 64E + OFF_LAG. -/
def Obligations.WeftMapFormsBursts : Prop :=
  (∀ (s : State) (m : List Byte), s.inv → rxOn s = true → s.warp.rx.ok = true → s.warp.rx.mapped = false → domOn s 8 = true →
    unitOk s 0x06 = true → unitOk s 0x07 = true →
    ∃ t, exec (.weftMap m) s = .next t ∧ t.warp.rx.mapped = true ∧ cntVal t 1 0 = min cntMax (cntVal s 1 0 + 1) ∧
      cntVal t 1 7 = min cntMax (cntVal s 1 7 + (s.warp.rx.mapLen - (intactGrants s.warp.rx m).length)) ∧
      t.safety = { s.safety with windows := (safetyWindows s m :: s.safety.windows).take 8 }) ∧
  (∀ (s : State) (m : List Byte) (g : Grant), rxOn s = true → s.warp.rx.ok = true → s.warp.rx.mapped = false → domOn s 8 = true →
    unitOk s 0x06 = true → unitOk s 0x07 = true → s.act.st = .woven → intactGrants s.warp.rx m = [g] → contHeld s g.container = true →
    g.container ≠ discovery → g.bh = true → 18 ≤ g.len → (g.ms = true → 21 ≤ g.len) → g.start ≤ 48599 → g.start + g.len ≤ 48600 →
    s.weft.last = none →
    ∃ t b, exec (.weftMap m) s = .next t ∧ t.weft.bursts = s.weft.bursts ++ [b] ∧ b.grants = [g] ∧ b.pick = s.warp.rx.count ∧
      b.started = false ∧ b.latched = false ∧
      b.rise = 64 * (g.start : Int) - 32 * (fld s Reg.weftPreamble 7 0 : Nat) - 64 - (fld s Reg.weftLaserCfg 7 0 : Nat) ∧
      b.fall = 64 * ((g.start : Int) + g.len) + (fld s Reg.weftLaserCfg 15 8 : Nat) ∧
      t.weft.last = some (s.warp.rx.count, fld s Reg.weftEqd 23 0, b.fall))

/-- SECTION_FILL: Reed fills the first burst whose sections have room: before WOVEN with idle frames alone, in WOVEN with at
most the commanded number of frames and fragments behind what each section holds. BURST_LATCH, BURST_START and BURST_END: the
latch takes header and REI and clears REI; LASER_EN is high from the start to the end of the burst and the burst leaves on the
output; while a condition of R111 holds the burst is cancelled instead, its grants count in GRANT_BLOCKED, its REI returns, and
nothing is sent. -/
def Obligations.BurstsFillLatchAndEnd : Prop :=
  ((∀ (s : State) (n : Nat) (b : Burst), s.act.st ≠ .woven → s.weft.bursts.find? (fun b => unlatched b && unfilled b) = some b →
    exec (.sectionFill n) s = .next (pauseScan { s with weft := { s.weft with
      bursts := mapFirst (fun b => unlatched b && unfilled b) (fun c => { c with
        fill := (burstFill b).map (fun e => e.2 ++ idleFill (roomLeft e.1 e.2)) }) s.weft.bursts } })) ∧
  (∀ (s : State) (n : Nat) (b : Burst), s.act.st = .woven → s.weft.bursts.find? (fun b => unlatched b && unfilled b) = some b →
    ∃ t l, exec (.sectionFill n) s = .next t ∧ l.length = b.grants.length ∧ (∀ k < b.grants.length, b.fill.getD k [] <+: l.getD k []) ∧
      t.weft = { s.weft with bursts := mapFirst (fun b => unlatched b && unfilled b) (fun c => { c with fill := l }) s.weft.bursts })) ∧
  ((∀ (s : State) (b : Burst), s.weft.bursts.find? unlatched = some b → blockConds s = [] →
    ∃ t c, exec .burstLatch s = .next t ∧ t.weft.bursts = mapFirst unlatched (fun _ => c) s.weft.bursts ∧ c.latched = true ∧
      c.header = burstHeader s b ∧ c.rei = s.weft.rei ∧ c.grants = b.grants ∧ t.weft.rei = 0 ∧ t.safety = s.safety) ∧
  (∀ (s : State) (b : Burst) (l : List Burst), s.inv → s.weft.bursts = b :: l → b.latched = true → b.started = false →
    blockConds s = [] →
    ∃ t, exec .burstStart s = .next t ∧ t.weft.bursts = { b with started := true } :: l ∧ t.safety = { s.safety with enNow := true } ∧
      cntVal t 1 2 = min cntMax (cntVal s 1 2 + 1) ∧ cntVal t 1 3 = min cntMax (cntVal s 1 3 + b.grants.length) ∧
      t.out = s.out ++ [.burst (64 * (b.grants.head?.map (·.start)).getD 0) (burstEnd b - (b.grants.head?.map (·.start)).getD 0)
        b.swing (burstBytes b)]) ∧
  (∀ (s : State) (b : Burst) (l : List Burst), s.inv → s.weft.bursts = b :: l → b.latched = true → b.started = false →
    blockConds s ≠ [] → domOn s 8 = true →
    ∃ t, exec .burstStart s = .next t ∧ t.weft = { s.weft with bursts := l, rei := min 255 (s.weft.rei + b.rei) } ∧
      t.safety = s.safety ∧ t.out = s.out ∧ t.act = { s.act with queue := b.taken ++ s.act.queue } ∧
      cntVal t 1 13 = min cntMax (cntVal s 1 13 + b.grants.length)) ∧
  (∀ (s : State) (b : Burst) (l : List Burst), s.weft.bursts = b :: l → b.started = true →
    exec .burstEnd s = .next { s with weft := { s.weft with bursts := l }, safety := { s.safety with enNow := false } }))

/-- Messages that act at the next commit point: DISCOVER, ASSIGN_TID, DOZE_ACK, DEACTIVATE, STOP and RELEASE leave what they ask
for waiting, count in MSG_OK, and change nothing else (ASSIGN_TID queues its ACK). SET_EQD, ASSIGN_CONTAINER, ASSIGN_STREAM and
KEY_SWITCH: an accepted change joins the pending changes with the pick at which it comes into force, and its ACK carries that
pick. -/
def Obligations.MessagesStageChanges : Prop :=
  (∀ (s : State) (m : List Byte) (pos : Nat), msgHere s m pos = true → msgChecks s m pos = none →
    (msgType m = 0x01 → 32 ≤ byteAt m 8 → byteAt m 9 = 3 →
      exec (.discover m pos) s = .next (count { s with act := { s.act with
        heId := beAt m 4 4, staged := s.act.staged ++ [.discover (beAt m 10 3) (byteAt m 8) (beAt m 13 2)] } } 2 0)) ∧
    (msgType m = 0x02 → beAt m 12 2 / 64 ≠ 1023 →
      exec (.assignTid m pos) s = .next (count (queueAck { s with act := { s.act with
        staged := s.act.staged ++ [.tid (beAt m 12 2 / 64)] } } 0x02 Ack.done s.warp.rx.count pos ((s.warp.rx.count + 1) % 2 ^ 48)) 2 0)) ∧
    (msgType m = 0x0E →
      exec (.dozeAck m pos) s = .next (count { s with act := { s.act with
        staged := s.act.staged ++ [.doze ((byteAt m 4).testBit 7)] } } 2 0)) ∧
    (msgType m = 0x0B → exec (.deactivate m pos) s = .next (count { s with act := { s.act with evDeact := true } } 2 0)) ∧
    (msgType m = 0x0C → exec (.stop m pos) s = .next (count { s with act := { s.act with evStop := true } } 2 0)) ∧
    (msgType m = 0x0D → exec (.release m pos) s = .next (count { s with act := { s.act with evRelease := true } } 2 0))) ∧
  (∀ (s : State) (m : List Byte) (pos d : Nat), msgHere s m pos = true → msgChecks s m pos = none → s.act.changes.length < 64 →
    (msgType m = 0x05 → byteAt m 7 = 0 ∨ 32 ≤ byteAt m 7 → effectiveAt s.warp.rx.count (beAt m 8 6) = some d →
      exec (.setEqd m pos) s = .next (count (queueAck { s with act := { s.act with changes := s.act.changes ++
        [⟨d, .eqd (beAt m 4 3) (byteAt m 7) ((byteAt m 14).testBit 7 && s.act.st == .ranging)⟩] } } 0x05 Ack.done s.warp.rx.count pos d) 2 0)) ∧
    (msgType m = 0x06 → beAt m 4 2 / 16384 = 0 → 1024 ≤ beAt m 4 2 % 16384 → beAt m 4 2 % 16384 ≤ 16381 →
      contPresent s (beAt m 4 2 % 16384) = false →
      contCount s < 63 →
      effectiveAt s.warp.rx.count (beAt m 6 6) = some d →
      exec (.assignContainer m pos) s = .next (count (queueAck { s with act := { s.act with changes := s.act.changes ++
        [⟨d, .container true (beAt m 4 2 % 16384)⟩] } } 0x06 Ack.done s.warp.rx.count pos d) 2 0)) ∧
    (msgType m = 0x07 → bits (byteAt m 6) 7 6 = 1 → beAt m 4 2 ≠ 0xFFFF → (byteAt m 6).testBit 5 = true → (byteAt m 6).testBit 4 = false →
      streamActive s (beAt m 4 2) false = true → effectiveAt s.warp.rx.count (beAt m 9 6) = some d →
      exec (.assignStream m pos) s = .next (count (queueAck { s with act := { s.act with changes := s.act.changes ++
        [⟨d, .stream false true false (bits (byteAt m 6) 3 2) (beAt m 4 2) (beAt m 7 2 % 16384)⟩] } } 0x07 Ack.done s.warp.rx.count pos d) 2 0)) ∧
    (msgType m = 0x09 → keyLoaded s (beAt m 4 2) true (bits (byteAt m 6) 6 5) = true → effectiveAt s.warp.rx.count (beAt m 7 6) = some d →
      exec (.keySwitch m pos) s = .next (count (queueAck { s with act := { s.act with changes := s.act.changes ++
        [⟨d, .keySwitch (beAt m 4 2) (bits (byteAt m 6) 6 5)⟩] } } 0x09 Ack.done s.warp.rx.count pos d) 2 0)))

/-- CHALLENGE opens an exchange, KEY_AGREE stores its parts, KEY_LOAD stages the key that it wraps. ATTEST_RECORD_READY and
KEY_DERIVATION_DONE: while the TRNG delivers and no host job holds the identity engine, the record is built with a fresh key
pair and its parts are queued; the three keys that Z and NONCE give (R137) wait for RANGING or for EFFECTIVE, each under a mask
of its own, and Z and the private key are zeroised. -/
def Obligations.KeyExchangeAndAttestation : Prop :=
  (∀ (s : State) (m : List Byte) (pos : Nat), msgHere s m pos = true → msgChecks s m pos = none →
    (msgType m = 0x03 → s.act.exch = none →
      exec (.challenge m pos) s = .next (count { s with act := { s.act with exch := some { nonce := slice m 4 32, isOpen := true, building := true, accepted := s.pick.commits } } } 2 0)) ∧
    (∀ e : Exchange, msgType m = 0x04 → s.act.exch = some e → repeatsDone s m = false → msgPart m = 1 →
      exec (.keyAgree m pos) s = .next (count (agreeCheck { s with act := { s.act with exch := some { e with echo := (s.warp.rx.count, pos), sigA := some (slice m 4 48) } } }) 2 0)) ∧
    (∀ e : Exchange, msgType m = 0x04 → s.act.exch = some e → repeatsDone s m = false → msgPart m = 0 → e.part0 = none →
      s.act.st = .announced →
      exec (.keyAgree m pos) s = .next (count (agreeCheck { s with act := { s.act with exch := some { e with echo := (s.warp.rx.count, pos), part0 := some (slice m 4 32, beAt m 36 6) } } }) 2 0)) ∧
    (∀ k : SessionKeys, msgType m = 0x08 → s.act.keys = some k →
      slice (Config.gcmTag (keyOf k.kek) (msgIv 2 s.warp.rx.count pos (msgTid m)) (m.take 8) (slice m 8 32)) 0 12 = slice m 40 12 →
      streamActive s (beAt m 4 2) false = true → (byteAt m 6).testBit 7 = false →
      s.sec.keys.length + stagedKeys s < 8192 →
      exec (.keyLoad m pos) s = .next (count (queueAck { s with act := { s.act with staged := s.act.staged ++
        [.key (beAt m 4 2) false (bits (byteAt m 6) 6 5)
          (Config.gcmDecrypt (keyOf k.kek) (msgIv 2 s.warp.rx.count pos (msgTid m)) (m.take 8) (slice m 8 32))] } }
        0x08 Ack.done s.warp.rx.count pos ((s.warp.rx.count + 1) % 2 ^ 48)) 2 0))) ∧
  ((∀ (s : State) (e : Exchange), s.act.exch = some e → e.building = true → e.facts.isSome = true → trngGives s = true → s.sec.idJob = none →
    s.act.queue.length ≤ 25 →
    ∃ t e', exec .attestRecordReady s = .next t ∧ t.act.exch = some e' ∧ e'.building = false ∧ e'.nonce = e.nonce ∧
      e'.priv = (List.range 32).map (Config.freeByte s.draws) ∧ e'.pub = Config.x25519 e'.priv basePoint ∧
      t.act.queue.length = s.act.queue.length + 7 ∧ t.act.queue.take s.act.queue.length = s.act.queue ∧ t.draws = s.draws + 1) ∧
  (∀ (s : State) (e : Exchange) (z hp : List Byte) (eff : Nat), s.act.exch = some e → e.z = some z → e.part0 = some (hp, eff) →
    trngGives s = true → s.sec.idJob = none →
    ∃ ks : SessionKeys, keyOf ks.tmkD = deriveKey s e.nonce z labelDown ∧ keyOf ks.tmkU = deriveKey s e.nonce z labelUp ∧
      keyOf ks.kek = deriveKey s e.nonce z labelKek ∧
      (s.act.st = .announced →
        let due := (s.pick.count + 1) % 2 ^ 48
        ∃ t, exec .keyDerivationDone s = .next t ∧ t.draws = s.draws + 3 ∧ t.act = (queueAck { s with act := { s.act with
          evKeyed := some ks, exch := some { e with isOpen := false, priv := [], z := none, part0 := none, sigA := none, sigB := none, donePub := some hp, doneAt := due } } }
          0x04 Ack.done e.echo.1 e.echo.2 due).act) ∧
      (∀ d, s.act.st ≠ .announced → s.act.changes.length < 64 → effectiveAt s.pick.count eff = some d →
        ∃ t, exec .keyDerivationDone s = .next t ∧ t.draws = s.draws + 3 ∧ t.act = (queueAck { s with act := { s.act with
          changes := s.act.changes ++ [⟨d, .keys ks⟩], exch := some { e with isOpen := false, priv := [], z := none, part0 := none, sigA := none, sigB := none, donePub := some hp, doneAt := d } } }
          0x04 Ack.done e.echo.1 e.echo.2 d).act)))

/-- The timers: an expired T_ANNOUNCE, T_KEY or T_RANGE erases the session, returns to LISTENING, counts, and draws a back-off
below 2 to the attempts (at most 2 to the sixth) as soon as the TRNG delivers; a SET_EQD with ACT = 1 due at the same commit
point goes before T_RANGE; T_LAPSE goes to DARK; the arming lapses; a due change comes into force. TREADLE_MESSAGE_DISCARDED:
the first check of R126 that a message fails decides its counter, and nothing else changes. -/
def Obligations.TimersEndDiscardsCount : Prop :=
  ((∀ s : State, s.inv → s.act.st = .announced → expired s.act.tAnnounce (fld s Reg.actTimer0 15 0) = true →
    ∃ t, exec .tAnnounceExpiry s = .next t ∧ s.attemptEnded t) ∧
  (∀ s : State, s.inv → s.act.st = .announced → expired s.act.tKey (fld s Reg.actTimer0 31 16) = true →
    ∃ t, exec .tKeyExpiry s = .next t ∧ s.attemptEnded t) ∧
  (∀ s : State, s.inv → s.act.st = .ranging → expired s.act.tRange (fld s Reg.actTimer1 15 0) = true →
    (wovenDue s = false → ∃ t, exec .tRangeExpiry s = .next t ∧ s.attemptEnded t) ∧
    (wovenDue s = true → exec .tRangeExpiry s = .next s)) ∧
  (∀ s : State, s.inv → s.act.st = .lapsed → expired s.act.tLapse (fld s Reg.actTimer1 31 16) = true →
    ∃ t, exec .tLapseExpiry s = .next t ∧ t.act.st = .dark ∧ t.act.tid = none ∧ t.act.keys = none ∧ t.sec.keys = [] ∧
      t.act.attempts = s.act.attempts ∧ cntVal t 2 10 = min cntMax (cntVal s 2 10 + 1)) ∧
  (∀ s : State, s.act.armed = some 0 →
    ∃ t, exec .armExpiry s = .next t ∧ t.act.armed = none ∧ t.act.st = s.act.st ∧ t.act.tid = s.act.tid) ∧
  (∀ (s : State) (d e p : Nat) (a : Bool), s.act.changes = [⟨d, .eqd e p a⟩] → reached s.pick.count d = true →
    ∃ t, exec .effectiveChange s = .next t ∧ t.act.changes = [] ∧ t.act.eqd = e ∧ t.act.pre = (if p = 0 then s.act.pre else p) ∧
      t.act.st = (if a = true ∧ s.act.st = .ranging then .woven else s.act.st))) ∧
  (∀ (s : State) (m : List Byte) (pos : Nat), msgHere s m pos = true →
    (unitOk s 0x08 = false → exec (.treadleMessageDiscarded m pos) s = .next (count s 2 7)) ∧
    (unitOk s 0x08 = true → msgPoisoned s pos = true → exec (.treadleMessageDiscarded m pos) s = .next (count s 2 2)) ∧
    (unitOk s 0x08 = true → msgPoisoned s pos = false →
      (crc32c (m.take 60) ≠ beAt m 60 4 → exec (.treadleMessageDiscarded m pos) s = .next (count s 2 1)) ∧
      (crc32c (m.take 60) = beAt m 60 4 →
        (msgAddressed s m = false → exec (.treadleMessageDiscarded m pos) s = .next s) ∧
        (msgAddressed s m = true → msgType m = 0 ∨ 0x0E < msgType m →
          exec (.treadleMessageDiscarded m pos) s = .next (count s 2 3)) ∧
        (msgAddressed s m = true → 2 ≤ msgType m → msgType m ≤ 0x0E → msgType m ≠ 0x0A → msgAccepted s m = false →
          exec (.treadleMessageDiscarded m pos) s = .next (count s 2 4)) ∧
        (msgAddressed s m = true → 1 ≤ msgType m → msgType m ≤ 0x0E → msgAccepted s m = true → authOk s m pos = false →
          exec (.treadleMessageDiscarded m pos) s = .next (count s 2 5)))))

/-- R11: a read of a counter's low word returns bits [31:0], copies bits [63:32] into the holding register and clears the
counter in one action (a queue's high-water mark restarts at the occupancy, R216); a read of the high word returns the holding
register and changes nothing else; after reset the holding register reads 0. -/
def Obligations.CounterReadsHoldAndClear : Prop :=
  (∀ (s : State) (a k : Nat), s.inv → s.hostReaches a = true → cntReg s a = some (a, some k) →
    ∃ t, exec (.counterLoRead a 15) s = .next t ∧ t.hostRead = BitVec.ofNat 32 (sget 0 s.cnt k % 2 ^ 32) ∧
      sget 0 t.hold a = sget 0 s.cnt k / 2 ^ 32 ∧
      sget 0 t.cnt k = (if k / 0x100000 = 6 ∧ 12 ≤ k % 0x100000 ∧ (k % 0x100000 - 12) % 8 = 6 then
        min cntMax (queueOcc s ((k % 0x100000 - 12) / 8)) else 0) ∧
      (∀ k', k' ≠ k → sget 0 t.cnt k' = sget 0 s.cnt k') ∧ t.sat = s.sat ∧ t.stg = s.stg ∧ t.cur = s.cur) ∧
  (∀ (s : State) (lo : Nat) (key : Option Nat), s.inv → s.hostReaches (lo + 4) = true → cntReg s (lo + 4) = some (lo, key) →
    exec (.rcRead (lo + 4) 15) s = .next { s with hostRead := BitVec.ofNat 32 (sget 0 s.hold lo) }) ∧
  (∀ lo, sget 0 State.reset.hold lo = 0)

/-- Reads that change something: PICK_COUNT_LO fills its holding register; TIME_NOW_NS copies the rest of the counter;
TIME_CAP_NS pops the oldest capture, or answers all ones and copies nothing; the RC fields of DRAM_ECC clear; the read of a
register in a domain that is off answers 0xD0FF_D0FF and raises DARK_ACCESS (R14); a read of less than a word returns the
addressed bytes (R8); BAR2 reads 0 (R337; at the model's numbering of log entry 74). -/
def Obligations.HostReadsReturn : Prop :=
  (∀ s : State, s.inv → hostReach s = true → domOn s 3 = true →
    ∃ t, exec (.pickCountLoRead 15) s = .next t ∧ t.hostRead = BitVec.ofNat 32 s.pick.count ∧
      sget 0 t.hold Reg.pickCountLo = s.pick.count / 2 ^ 32 ∧ t.pick = s.pick ∧ t.cnt = s.cnt) ∧
  (∀ s : State, s.inv → hostReach s = true → domOn s 22 = true →
    ∃ t, exec (.timeNowNsRead 15) s = .next t ∧ t.hostRead = BitVec.ofNat 32 (todNs s.time.tod) ∧
      rdS t Reg.timeNowSecLo = todSec s.time.tod % 2 ^ 32 ∧ rdS t Reg.timeNowSecHi = todSec s.time.tod / 2 ^ 32 ∧
      rdS t Reg.timeNowFrac = todFrac s.time.tod ∧ t.time = s.time) ∧
  (∀ (s : State) (i c : Nat) (rest : List Nat), s.inv → hostReach s = true → domOn s 22 = true → i < 2 →
    (capFifo s i = [] → exec (.timeCapNsRead i 15) s = .next { s with hostRead := 0xFFFFFFFF }) ∧
    (capFifo s i = c :: rest →
      ∃ t, exec (.timeCapNsRead i 15) s = .next t ∧ t.hostRead = BitVec.ofNat 32 (todNs c) ∧ capFifo t i = rest ∧
        rdS t (Reg.timeCapSecLo i) = todSec c % 2 ^ 32 ∧ rdS t (Reg.timeCapSecHi i) = todSec c / 2 ^ 32 ∧
        rdS t (Reg.timeCapFrac i) = todFrac c)) ∧
  (∀ (s : State) (be : BitVec 4), s.inv → hostReach s = true → domOn s 13 = true →
    ∃ t, exec (.rcRead Reg.dramEcc be) s = .next t ∧
      t.hostRead = BitVec.ofNat 32 (rdS s Reg.dramEcc &&& byteMask be.toNat) ∧ rdS t Reg.dramEcc = 0 ∧ rd t Reg.dramEcc = 0 ∧
      ∀ a, a ≠ Reg.dramEcc → s.regSame t a) ∧
  (∀ (s : State) (a : Nat) (be : BitVec 4), hostReach s = true → 0x4000000 ≤ a → a < 0x4004000 →
    exec (.rcRead a be) s = .next { s with hostRead := 0 }) ∧
  (∀ (s : State) (a : Nat) (be : BitVec 4), hostReach s = true → (findRow a).isSome = true →
    ¬ (0x00F10000 ≤ a ∧ a < 0x00F11020) → domOn s (regDomain s a) = false →
    ∃ t, exec (.darkRegisterRead a be) s = .next t ∧ t.hostRead = BitVec.ofNat 32 (0xD0FFD0FF &&& byteMask be.toNat) ∧
      s.raises t (regSource s a) 0x002 ∧ t.hold = s.hold)

/-- Writes by their access: a write of less than a word, one to an offset without a register and one to a register of a domain
that is off are discarded and raise their event (R8, R14); configuration reaches the staged copy alone (R22); a change to a
reserved encoding leaves the field and raises PROG_ERR, the unchanged value does not (R10); a write elsewhere in BAR2 is
discarded and raises STRAY_WRITE (R337), or PROG_ERR where it is of less than a word (R8; which of the two, log entry 74). -/
def Obligations.HostWritesStage : Prop :=
  (∀ (s : State) (a : Nat) (be : BitVec 4) (v : Word), s.hostReaches a = true → be ≠ 15 →
    ∃ t, exec (.regWrite a be v) s = .next t ∧ s.raises t (regSource s a) 0x001 ∧
      ∀ b, b ≠ Reg.selvedgeStat → s.inv → s.regSame t b) ∧
  (∀ (s : State) (a : Nat) (be : BitVec 4) (v : Word), hostReach s = true → findRow a = none →
    ¬ (0x00F10000 ≤ a ∧ a < 0x00F11020) →
    ∃ t, exec (.regWrite a be v) s = .next t ∧ s.raises t 0x1D 0x001) ∧
  (∀ (s : State) (a : Nat) (be : BitVec 4) (v : Word), hostReach s = true → (findRow a).isSome = true →
    ¬ (0x00F10000 ≤ a ∧ a < 0x00F11020) → domOn s (regDomain s a) = false →
    ∃ t, exec (.regWrite a be v) s = .next t ∧ s.raises t (regSource s a) 0x002 ∧ ∀ b, b ≠ Reg.selvedgeStat → s.inv → s.regSame t b) ∧
  (∀ (s : State) (a : Nat) (v : Word), s.inv → a ∈ [Reg.timeAsym, Reg.timeStepThresh] → hostReach s = true →
    domOn s 22 = true →
    ∃ t, exec (.regWrite a 15 v) s = .next t ∧ rdS t a = v.toNat ∧ rd t a = rd s a ∧
      (∀ b, b ≠ a → s.regSame t b) ∧ t.selvedge = s.selvedge) ∧
  (∀ (s : State) (v : Word), s.inv → hostReach s = true → domOn s 6 = true →
    (bits v.toNat 3 0 ≠ 0 ∨ fldS s Reg.warpReasmCfg 3 0 = 0 →
      ∃ t, exec (.regWrite Reg.warpReasmCfg 15 v) s = .next t ∧ fldS t Reg.warpReasmCfg 3 0 = bits v.toNat 3 0 ∧
        rd t Reg.warpReasmCfg = rd s Reg.warpReasmCfg ∧ t.selvedge = s.selvedge) ∧
    (bits v.toNat 3 0 = 0 → fldS s Reg.warpReasmCfg 3 0 ≠ 0 →
      ∃ t, exec (.regWrite Reg.warpReasmCfg 15 v) s = .next t ∧ s.regSame t Reg.warpReasmCfg ∧ s.raises t 0x05 0x001)) ∧
  (∀ (s : State) (off : Nat), hostReach s = true → off < 0x4000 → off % 0x1000 ≠ 0 →
    ∀ be : BitVec 4, ∃ t, exec (.strayWrite off be) s = .next t ∧ s.raises t 0x1D (if be = 15 then 0x003 else 0x001) ∧
      ∀ b, b ≠ Reg.selvedgeStat → s.inv → s.regSame t b)

/-- Single registers whose write acts: WARP_PM_SEL copies the interval; LOCK_EN to 0 takes a LOCKED generator to FLYWHEEL; RX_EN
may be set on the PLL clock only; DG_LATCH clears while the pin is high; HELD is set; HEDDLE_FLOW_CTRL stages EN; MAC_ADDR_HI
arms the entry; GLOBAL_CLK_CTRL.SEL switches to the PLL once that has locked. -/
def Obligations.RegisterWritesAct : Prop :=
  (∀ (s : State) (v : Word), s.inv → hostReach s = true → domOn s 6 = true → bits v.toNat 4 0 ≤ 18 →
    let i := s.warp.pm.shot.getD (bits v.toNat 4 0) {}
    ∃ t, exec (.warpPmSelWrite 15 v) s = .next t ∧ rdS t Reg.warpPmStartLo = i.start % 2 ^ 32 ∧
      rdS t Reg.warpPmStartHi = i.start / 2 ^ 32 % 2 ^ 32 ∧ (∀ k < 9, rdS t (Reg.warpPmData k) = i.bins.getD k 0 % 2 ^ 32) ∧
      (rdS t Reg.warpPmFlags).testBit 31 = i.valid ∧ (rdS t Reg.warpPmFlags).testBit 30 = i.suspect ∧ t.warp = s.warp) ∧
  (∀ s : State, hostReach s = true → domOn s 3 = true → (rdS s Reg.pickCtrl).testBit 0 = true → s.pick.gen = .locked →
    ∃ t, exec (.lockEnClear 15) s = .next t ∧ t.pick.gen = .flywheel ∧ t.pick.lockPending = false ∧
      t.weft.bursts = s.weft.bursts.filter (·.started) ∧ t.warp = s.warp) ∧
  (∀ (s : State) (v : Word), s.inv → hostReach s = true → domOn s 6 = true →
    (s.power.clkPll = true ∨ v.toNat.testBit 0 = false →
      ∃ t, exec (.rxEnWrite 15 v) s = .next t ∧ flag t Reg.warpCtrl 0 = v.toNat.testBit 0 ∧
        fld t Reg.warpCtrl 3 1 = fld s Reg.warpCtrl 3 1 ∧ fldS t Reg.warpCtrl 3 1 = bits v.toNat 3 1) ∧
    (s.power.clkPll = false → v.toNat.testBit 0 = true → (rdS s Reg.warpCtrl).testBit 0 = false → flag s Reg.warpCtrl 0 = false →
      ∃ t, exec (.rxEnWrite 15 v) s = .next t ∧ flag t Reg.warpCtrl 0 = false ∧ s.raises t 0x05 0x001)) ∧
  (∀ s : State, s.inv → hostReach s = true → domOn s 8 = true →
    ∃ t, exec (.dgLatchClear 15 false) s = .next t ∧ flag t Reg.weftStat 7 = false ∧ (rdS t Reg.weftStat).testBit 7 = false) ∧
  (∀ s : State, s.inv → hostReach s = true → domOn s 8 = true →
    ∃ t, exec (.dgLatchClear 15 true) s = .next t ∧ flag t Reg.weftStat 7 = flag s Reg.weftStat 7) ∧
  (∀ s : State, hostReach s = true → domOn s 0 = true →
    ∃ t, exec (.actHeldSet 15) s = .next t ∧ t.act.held = true ∧ t.act.st = s.act.st ∧
      (s.act.held = false → t.act.heldByStop = false) ∧ (s.act.held = true → t.act = s.act)) ∧
  (∀ (s : State) (v : Word), s.inv → hostReach s = true → domOn s 12 = true →
    ∃ t, exec (.flowStoreEnable 15 v) s = .next t ∧ (rdS t Reg.heddleFlowCtrl).testBit 31 = true ∧
      rd t Reg.heddleFlowCtrl = rd s Reg.heddleFlowCtrl ∧ t.flow = s.flow) ∧
  (∀ (s : State) (v : Word), s.inv → hostReach s = true → domOn s 25 = true → domOn s (macDom (filtSel s / 32)) = true →
    ∃ t, exec (.macAddrArm 15 v) s = .next t ∧ filtSel s ∈ t.ports.armed ∧
      sget 0 t.ports.filtS (filtSel s) = bits v.toNat 31 31 * 2 ^ 48 + bits v.toNat 15 0 * 2 ^ 32 + sget 0 s.ports.filtS (filtSel s) % 2 ^ 32 ∧
      t.ports.filt = s.ports.filt) ∧
  (∀ s : State, s.inv → hostReach s = true → domOn s 3 = true →
    (s.power.corePllLock = true →
      ∃ t, exec (.clockSwitch 15) s = .next t ∧ t.power.clkPll = true ∧ flag t Reg.globalClkCtrl 0 = true ∧
        t.pick.switched = (s.pick.switched || !s.power.clkPll)) ∧
    (s.power.corePllLock = false →
      ∃ t, exec (.clockSwitch 15) s = .next t ∧ t.power.clkPll = s.power.clkPll ∧ s.raises t 0x00 0x001))

/-- COMMIT_POINT: the pick ends, the next begins with the count of the line's header where the generator has just locked or a
count jump is confirmed (R19, R65) and the next count otherwise; one more commit point has passed. While RESET_N is low or the
supplies are off nothing happens (R17). -/
def Obligations.CommitPointAdvancesPick : Prop :=
  (∀ (s : State) (i : CommitIn), picksRun s = true →
    ∃ t, exec (.commitPoint i) s = .next t ∧ t.pick.count = comingCount s i.lineCount ∧ t.pick.point = comingCount s i.lineCount ∧
      t.pick.commits = s.pick.commits + 1 ∧ t.pick.lockPending = false ∧ t.pick.headerCount = none ∧ t.pick.applied ≤ 256) ∧
  (∀ (s : State) (i : CommitIn), picksRun s = false → exec (.commitPoint i) s = .next s)

/-- Step 2 of a commit point: every staged register that has no rule of its own comes into force with the value a read returns,
and the staged copies stay (R22). -/
def Obligations.StagedValuesComeIntoForce : Prop :=
  ∀ (s : State) (a : Nat), s.inv → rd (stagedAll s) a = (if ownRule a then rd s a else rdS s a) ∧ rdS (stagedAll s) a = rdS s a

/-- SWEEP_POINT and SWEEP_EXPORT_DONE: a due sweep samples and restarts the counters of the chosen groups whose domain is on and
leaves the others; one that falls while an export runs, or without a free CQ entry, or behind an overrun of the export, is
skipped and counted; the export writes the record to its slot in requests of Max Payload Size, counts the sequence number on and
posts the completion. PER_PICK_OVERRUN: the bit of PICK_OVERRUN is set, the unit reports OVERRUN with the core clocks used
(R30), and what the table of R29 says is lost: the codeword, the pick, the map, messages, sections, samples, the PM pick, the
review of grants, the close of the storm window, the next sweep point, the command's place. The drain of an old deck (bit 10)
ends with its frames discarded; a proof test (bit 12) that runs over is fatal. -/
def Obligations.SweepsAndOverruns : Prop :=
  ((∀ (s : State) (line : Option Nat), s.inv → sweepDue s (comingCount s line) = true → s.pick.exporting = none →
    cqFree s (fld s Reg.pickSweepCtrl 24 16) ≠ 0 → s.pick.skipNext = false →
    ∃ t x, exec (.sweepPoint line) s = .next t ∧ t.pick.exporting = some x ∧ x.pick = comingCount s line ∧ x.seq = s.pick.seq ∧
      x.groups = fld s Reg.pickSweepGroups 17 0 ∧ x.skipped = s.pick.skipped ∧
      x.cells = sweepCells s (fld s Reg.pickSweepGroups 17 0) ∧ t.pick.skipped = 0 ∧ t.pick.jumped = false ∧
      (∀ g n, g < 18 → n < 0x100000 → g ≠ 6 → (fld s Reg.pickSweepGroups 17 0).testBit g = true → domOn s (cntDomain (cntKey g n)) = true →
        cntVal t g n = 0) ∧
      (∀ g n, g < 18 → n < 0x100000 → (fld s Reg.pickSweepGroups 17 0).testBit g = false → cntVal t g n = cntVal s g n)) ∧
  (∀ (s : State) (line : Option Nat), s.inv → sweepDue s (comingCount s line) = true →
    s.pick.skipNext = true ∨ s.pick.exporting.isSome = true ∨ cqFree s (fld s Reg.pickSweepCtrl 24 16) = 0 →
    ∃ t, exec (.sweepPoint line) s = .next t ∧
      t.pick = { s.pick with skipped := min 0xFFFFFFFF (s.pick.skipped + 1), skipNext := false } ∧
      cntVal t 18 0 = min cntMax (cntVal s 18 0 + 1) ∧ ∀ g n, g < 18 → n < 0x100000 → cntVal t g n = cntVal s g n) ∧
  (∀ (s : State) (x : SweepExport), s.inv → s.pick.exporting = some x → s.host.bme = true →
    0 < cqFree s (fld s Reg.pickSweepCtrl 24 16) →
    ∃ t, exec .sweepExportDone s = .next t ∧ t.pick = { s.pick with exporting := none, seq := (x.seq + 1) % 2 ^ 32 } ∧
      rdS t Reg.pickSweepSeq = x.seq % 2 ^ 32 ∧
      (∃ phase lost, (s.out ++ (List.range (((sweepRecord x).length + 128 * 2 ^ s.host.pcie.mps - 1) / (128 * 2 ^ s.host.pcie.mps))).map
        (fun i => Output.hostWrite (sweepAddr s (sweepSlot s x.seq) + i * (128 * 2 ^ s.host.pcie.mps))
          (((sweepRecord x).drop (i * (128 * 2 ^ s.host.pcie.mps))).take (128 * 2 ^ s.host.pcie.mps)) (flag s Reg.hostCtrl 1)) ++
        [.completion (fld s Reg.pickSweepCtrl 24 16) (ringAt s (fld s Reg.pickSweepCtrl 24 16)).done
          ((ringAt s (fld s Reg.pickSweepCtrl 24 16)).base + 32 * ((ringAt s (fld s Reg.pickSweepCtrl 24 16)).done %
            2 ^ (ringAt s (fld s Reg.pickSweepCtrl 24 16)).log2)) phase lost (sweepEntry s x)]) <+: t.out)) ∧
  (∀ s : State, picksRun s = true → s.pick.count % 8192 = 0 → 0 < s.flow.fullRep + s.flow.failRep →
    ∃ t, exec .repeatStart s = .next t ∧ t.flow = { s.flow with fullRep := 0, failRep := 0 } ∧
      (flag s Reg.heddleNotify 31 = false → t = { s with flow := { s.flow with fullRep := 0, failRep := 0 } }))) ∧
  ((∀ (s : State) (bit clocks arg : Nat), s.inv → picksRun s = true → bit < 14 → bit ≠ 10 → bit ≠ 12 →
    domOn s (overrunUnit bit).2 = true →
    ∃ t, exec (.perPickOverrun bit clocks arg) s = .next t ∧ flag t Reg.pickOverrun bit = true ∧
      ((s.selvedge.waiting.filter (fun q => q.source == (overrunUnit bit).1)).length < 8 →
        t.selvedge.waiting = s.selvedge.waiting ++
          [⟨2, (overrunUnit bit).1, 0x020, clocks % 2 ^ 32, (overrunUnit bit).1, 0x020⟩]) ∧
      (bit = 0 → codewordDue arg s = true → arg ∈ t.warp.rx.poison ∧ cntVal t 0 2 = min cntMax (cntVal s 0 2 + 1)) ∧
      (bit = 1 → rxOn s = true → s.warp.align = .sync → s.warp.rx.checked = false →
        t.warp.rx.checked = true ∧ t.warp.rx.ok = false ∧ cntVal t 0 5 = min cntMax (cntVal s 0 5 + 1)) ∧
      (bit = 2 → t.warp.rx.mapped = true ∧ cntVal t 1 15 = min cntMax (cntVal s 1 15 + 1)) ∧
      (bit = 3 → cntVal t 2 7 = min cntMax (cntVal s 2 7 + arg)) ∧
      (bit = 4 → t.weft.bursts = s.weft.bursts.map (fun b => if unlatched b && unfilled b then { b with fill := (lateFill b).1 } else b)) ∧
      (bit = 6 → arg < 256 → swf (fun _ => 0) s.draft.outs = true → swf (fun _ => 0) s.draft.lastOuts = true →
        (∀ n, sget 0 t.draft.outs n = if arg ≤ n % 256 then sget 0 s.draft.lastOuts n else sget 0 s.draft.outs n) ∧
        cntVal t 13 11 = min cntMax (cntVal s 13 11 + 16 * (256 - arg))) ∧
      (bit = 6 → 256 ≤ arg → t.draft = { s.draft with lateUp := some (min 256 (arg - 256)) }) ∧
      (bit = 7 → t.warp.pm.lost = true) ∧ (bit = 8 → t.tension.skipReview = true) ∧
      (bit = 9 → ∀ e ∈ t.selvedge.hist, stormDue t e = false) ∧
      (bit = 11 → t.pick = { s.pick with skipNext := true }) ∧ (bit ≠ 11 → t.pick = s.pick) ∧
      (bit = 13 → ∀ c, s.host.cmds[arg]? = some c → t.host.cmds[arg]? = some { c with late := true }) ∧
      t.act = s.act ∧ (bit ≠ 4 → t.weft.bursts = s.weft.bursts)) ∧
  (∀ (s : State) (clocks arg : Nat), s.inv → picksRun s = true → domOn s 10 = true → s.heddle.frozen = true →
    ∃ t, exec (.perPickOverrun 10 clocks arg) s = .next t ∧ t.heddle.frozen = false ∧
      t.heddle.flights = s.heddle.flights.filter (fun x => x.frame.gen == s.heddle.gen) ∧ flag t Reg.pickOverrun 10 = true ∧
      cntVal t 4 17 = min cntMax (cntVal s 4 17 + (s.heddle.flights.filter (fun x => x.frame.gen != s.heddle.gen)).length)) ∧
  (∀ (s : State) (clocks arg : Nat), s.inv → picksRun s = true → domOn s 9 = true → s.safety.vddSafe = true → s.safety.hold = false →
    s.safety.latch = false →
    ∃ t, exec (.perPickOverrun 12 clocks arg) s = .next t ∧ flag t Reg.pickOverrun 12 = true ∧ t.safety.latch = true ∧
      t.safety.reason = 9 ∧ ((s.selvedge.waiting.filter (fun q => q.source == 0x26)).length < 8 →
        ∃ more, t.selvedge.waiting = s.selvedge.waiting ++ ⟨3, 0x26, 0x020, clocks % 2 ^ 32, 0x26, 0x020⟩ :: more)))

/-- TIME_LOAD, TIME_INC_ARM and HOST_STEP leave the load, the increment and the step for the next commit point; there a load
sets seconds and nanoseconds with a fraction of 0 and discards every step (R148, R153), a staged INC comes into force whole
(R147; a reserved one is refused, and at the commit point too: log entry 81, the model's reading), and without a load the steps
are added (R152). TOD, HOLDOVER_ENTRY, PPS_PULSE and TS_CAP_EDGE: a TOD whose pick has a usable record counts, and its offset
(the last bit left open where the division is inexact) waits for the commit point; there it shows in TIME_OFS, ends holdover,
and asks for a step where automatic steps are on and it is large or the first. One without a usable record only counts.
TIME_TOD_TIMEOUT picks without one enter holdover. On the cycle on which the nanoseconds pass OFS_NS a pulse leaves with its
seconds, or is suppressed where they do not exceed the last. An edge is captured, or counted in CAP_OVF. -/
def Obligations.TimeLoadsStepsAndFollows : Prop :=
  ((∀ (s : State) (v : Word), s.inv → hostReach s = true → domOn s 22 = true →
    ∃ t, exec (.timeLoad 15 v) s = .next t ∧ t.time = { s.time with loadPend := true } ∧ rd t Reg.timeCtrl = rd s Reg.timeCtrl) ∧
  (∀ (s : State) (v : Word), s.inv → hostReach s = true → domOn s 22 = true → rdS s Reg.timeIncHi < 2 ^ 16 →
    (incOk (bits v.toNat 15 0 * 2 ^ 32 + rdS s Reg.timeIncLo) = true →
      ∃ t, exec (.timeIncArm 15 v) s = .next t ∧ t.time = { s.time with incArmed := true } ∧ timeInc t = timeInc s ∧
        timeIncStaged t = bits v.toNat 15 0 * 2 ^ 32 + rdS s Reg.timeIncLo ∧ t.selvedge = s.selvedge) ∧
    (incOk (bits v.toNat 15 0 * 2 ^ 32 + rdS s Reg.timeIncLo) = false →
      ∃ t, exec (.timeIncArm 15 v) s = .next t ∧ s.regSame t Reg.timeIncHi ∧ s.raises t 0x09 0x001 ∧ t.time = s.time)) ∧
  (∀ (s : State) (v : Word), s.inv → hostReach s = true → domOn s 22 = true →
    ∃ t, exec (.hostStep 15 v) s = .next t ∧
      t.time = { s.time with hostStep := some (signed 64 (v.toNat * 2 ^ 32 + rdS s Reg.timeStepLo)) }) ∧
  (∀ s : State, s.inv → domOn s 22 = true → s.time.incArmed = true → incOk (timeIncStaged s) = true →
    timeInc (timeCommit s) = timeIncStaged s) ∧
  (∀ s : State, s.inv → domOn s 22 = true → s.time.incArmed = true → incOk (timeIncStaged s) = false →
    timeInc (timeCommit s) = timeInc s ∧ s.raises (incIn s) 0x09 0x001) ∧
  (∀ s : State, s.inv → domOn s 22 = true → s.time.incArmed = false → timeInc (timeCommit s) = timeInc s) ∧
  (∀ s : State, s.inv → domOn s 22 = true → s.time.loadPend = true →
    (timeCommit s).time.tod = ((fld s Reg.timeSetSecHi 15 0 * 2 ^ 32 + rd s Reg.timeSetSecLo) * 10 ^ 9 + rd s Reg.timeSetNs) * nsUnit % todModulus ∧
    (timeCommit s).time.hostStep = none ∧ (timeCommit s).time.autoStep = none ∧ (timeCommit s).time.loadPend = false) ∧
  (∀ (s : State) (d : Int), domOn s 22 = true → s.time.todPend = [] → s.time.loadPend = false → s.time.hostStep = some d →
    s.time.autoStep = none →
    (timeCommit s).time.tod = todAdd s.time.tod (d * 2 ^ 24) ∧ (timeCommit s).time.hostStep = none)) ∧
  ((∀ (s : State) (m : List Byte) (pos : Nat), s.inv → msgHere s m pos = true → msgChecks s m pos = none → msgType m = 0x0A →
    timeOn s = true →
    (∀ r : TodRec, s.time.recs.find? (fun r => r.pick == beAt m 4 6) = some r → r.usable = true →
      fld s Reg.timeEqdZero 23 0 ≠ 0 → r.eqd ≤ fld s Reg.timeEqdZero 23 0 →
      ∃ t o, exec (.tod m pos) s = .next t ∧
        (o = (ofsOf s r.eqd r.tcap (beAt m 10 6) (beAt m 16 4) (beAt m 20 4)).1 ∨
          (o = (ofsOf s r.eqd r.tcap (beAt m 10 6) (beAt m 16 4) (beAt m 20 4)).1 + 1 ∧
            (ofsOf s r.eqd r.tcap (beAt m 10 6) (beAt m 16 4) (beAt m 20 4)).2 = false)) ∧
        t.time = { s.time with todPend := s.time.todPend ++ [(o, beAt m 4 6)] } ∧ t.cur = s.cur ∧ t.stg = s.stg ∧
        cntVal t 3 0 = min cntMax (cntVal s 3 0 + 1) ∧ cntVal t 3 1 = min cntMax (cntVal s 3 1 + 1) ∧
        cntVal t 2 0 = min cntMax (cntVal s 2 0 + 1)) ∧
    (s.time.recs.find? (fun r => r.pick == beAt m 4 6) = none →
      exec (.tod m pos) s = .next (count (count (count s 3 0) 3 2) 2 0)) ∧
    (∀ r : TodRec, s.time.recs.find? (fun r => r.pick == beAt m 4 6) = some r →
      r.usable = false ∨ fld s Reg.timeEqdZero 23 0 = 0 ∨ fld s Reg.timeEqdZero 23 0 < r.eqd →
      exec (.tod m pos) s = .next (count (count (count s 3 0) 3 3) 2 0))) ∧
  (∀ (s : State) (o : Int) (pick : Nat), s.inv →
    rd (todIn s (o, pick)) Reg.timeOfsLo = unsigned 64 o % 2 ^ 32 ∧ rd (todIn s (o, pick)) Reg.timeOfsHi = unsigned 64 o / 2 ^ 32 ∧
    rd (todIn s (o, pick)) Reg.timeOfsPick = pick % 2 ^ 32 ∧ flag (todIn s (o, pick)) Reg.timeStat 1 = true ∧
    flag (todIn s (o, pick)) Reg.timeStat 2 = false ∧
    (todIn s (o, pick)).time = { s.time with
      sinceTod := 0
      fresh := false
      autoStep := if flag s Reg.timeCtrl 1 = true ∧ (s.time.fresh = true ∨ rd s Reg.timeStepThresh * 65536 ≤ o.natAbs) then
        some o else s.time.autoStep }) ∧
  (∀ s : State, s.inv → domOn s 22 = true → flag s Reg.timeStat 2 = false → fld s Reg.timeTodTimeout 23 0 ≤ s.time.sinceTod →
    ∃ t, exec .holdoverEntry s = .next t ∧ flag t Reg.timeStat 2 = true ∧ flag t Reg.timeStat 1 = false ∧
      t.time = { s.time with fresh := true }) ∧
  (∀ s : State, timeOn s = true → s.time.run = true → flag s Reg.timePpsCfg 31 = true → ppsPasses s = true →
    ((∀ l, s.time.lastPps = some l → l < todSec (todAt s 0).1) →
      exec .ppsPulse s = .next { s with
        out := s.out ++ [.pps (todSec (todAt s 0).1) (fld s Reg.timePpsCfg 8 0)]
        time := { s.time with lastPps := some (todSec (todAt s 0).1) } }) ∧
    (∀ l, s.time.lastPps = some l → todSec (todAt s 0).1 ≤ l → exec .ppsPulse s = .next (count s 3 12))) ∧
  (∀ (s : State) (i : Nat) (e : Bool), s.inv → timeOn s = true → i < 2 → flag s Reg.timeCapCfg (2 * i) = true →
    flag s Reg.timeCapCfg (2 * i + 1) = e →
    ((capFifo s i).length < 8 →
      ∃ t, exec (.tsCapEdge i e) s = .next t ∧ capFifo t i = capFifo s i ++ [(todAt s 0).1] ∧ capFifo t (1 - i) = capFifo s (1 - i) ∧
        fld t Reg.timeCapStat (4 * i + 3) (4 * i) = (capFifo s i).length + 1 ∧ cntVal t 3 (9 + i) = min cntMax (cntVal s 3 (9 + i) + 1)) ∧
    (8 ≤ (capFifo s i).length → exec (.tsCapEdge i e) s = .next (count s 3 11))))

/-- The entry window on the standby deck (R187), immediately: a frozen deck refuses every operation (RESULT 1), a table or index
out of range is RESULT 4; WRITE stores the image, READ shows it, INVALIDATE clears VALID, EM_INSERT makes a lookup of the key
find its action or reports a full bucket pair (RESULT 2), EM_DELETE takes VALID from the entry or reports its absence (RESULT
3), CLEAR_ALL empties the deck. The active deck does not change. -/
def Obligations.DeckWindowEditsStandby : Prop :=
  (∀ s : State, hostReach s = true → domOn s 10 = true → s.heddle.frozen = true →
    (∃ u, exec (.heddleEntWrite 15) s = .next u ∧ u.heddle = { s.heddle with result := 1 }) ∧
    (∃ u, exec (.heddleEntRead 15) s = .next u ∧ u.heddle = { s.heddle with result := 1 }) ∧
    (∃ u, exec (.invalidate 15) s = .next u ∧ u.heddle = { s.heddle with result := 1 }) ∧
    (∃ u, exec (.emInsert 15) s = .next u ∧ u.heddle = { s.heddle with result := 1 }) ∧
    (∃ u, exec (.emDelete 15) s = .next u ∧ u.heddle = { s.heddle with result := 1 }) ∧
    (∃ u, exec (.clearAll 15) s = .next u ∧ u.heddle = { s.heddle with result := 1 })) ∧
  (∀ (s : State) (t i : Nat), s.inv → hostReach s = true → domOn s 10 = true → s.heddle.frozen = false →
    fldS s Reg.heddleEntSel 26 24 = t → fldS s Reg.heddleEntSel 17 0 = i →
    (∃ u, exec (.clearAll 15) s = .next u ∧ u.heddle.result = 0 ∧ activeDeck u = activeDeck s ∧ standbyDeck u = []) ∧
    (5 < t ∨ tableSize t ≤ i →
      (∃ u, exec (.heddleEntWrite 15) s = .next u ∧ u.heddle.result = 4 ∧ activeDeck u = activeDeck s ∧ standbyDeck u = standbyDeck s) ∧
      (∃ u, exec (.heddleEntRead 15) s = .next u ∧ u.heddle = { s.heddle with result := 4 }) ∧
      (∃ u, exec (.invalidate 15) s = .next u ∧ u.heddle.result = 4 ∧ activeDeck u = activeDeck s ∧ standbyDeck u = standbyDeck s) ∧
      (∃ u, exec (.emInsert 15) s = .next u ∧ u.heddle.result = 4 ∧ activeDeck u = activeDeck s ∧ standbyDeck u = standbyDeck s) ∧
      (∃ u, exec (.emDelete 15) s = .next u ∧ u.heddle.result = 4 ∧ activeDeck u = activeDeck s ∧ standbyDeck u = standbyDeck s)) ∧
    (t ≤ 5 → i < tableSize t →
      (∃ u, exec (.heddleEntWrite 15) s = .next u ∧ u.heddle.result = 0 ∧ activeDeck u = activeDeck s ∧
        (∀ k < tableWords t, deckWord (standbyDeck u) t i k = rdS s (Reg.heddleEntData k)) ∧
        ∀ j, j ≠ deckKey t i → sget [] (standbyDeck u) j = sget [] (standbyDeck s) j) ∧
      (∃ u, exec (.heddleEntRead 15) s = .next u ∧ u.heddle = { s.heddle with result := 0 } ∧
        ∀ k < tableWords t, rdS u (Reg.heddleEntData k) = deckWord (standbyDeck s) t i k % 2 ^ 32) ∧
      (∃ u, exec (.invalidate 15) s = .next u ∧ u.heddle.result = 0 ∧ activeDeck u = activeDeck s ∧
        deckValid (standbyDeck u) t i = false ∧ ∀ j, j ≠ deckKey t i → sget [] (standbyDeck u) j = sget [] (standbyDeck s) j) ∧
      let key := (List.range 5).map (fun k => rdS s (Reg.heddleEntData k))
      (∀ j, exactFind (standbyDeck s) key = some j →
        (∃ u, exec (.emInsert 15) s = .next u ∧ u.heddle.result = 0 ∧ activeDeck u = activeDeck s ∧ fldS u Reg.heddleEntSel 17 0 = j ∧
          deckWord (standbyDeck u) 4 j 5 = 2 ^ 31 + rdS s (Reg.heddleEntData 5) % 65536) ∧
        (∃ u, exec (.emDelete 15) s = .next u ∧ u.heddle.result = 0 ∧ activeDeck u = activeDeck s ∧
          deckValid (standbyDeck u) 4 j = false)) ∧
      (exactFind (standbyDeck s) key = none →
        let slots := (List.range 4).map (4 * (exactBuckets key).1 + ·) ++ (List.range 4).map (4 * (exactBuckets key).2 + ·)
        (∀ j, slots.find? (fun j => !deckValid (standbyDeck s) 4 j) = some j →
          ∃ u, exec (.emInsert 15) s = .next u ∧ u.heddle.result = 0 ∧ activeDeck u = activeDeck s ∧ fldS u Reg.heddleEntSel 17 0 = j ∧
            (∀ k < 5, deckWord (standbyDeck u) 4 j k = key.getD k 0) ∧ deckValid (standbyDeck u) 4 j = true) ∧
        (slots.find? (fun j => !deckValid (standbyDeck s) 4 j) = none →
          ∃ u, exec (.emInsert 15) s = .next u ∧ u.heddle.result = 2 ∧ activeDeck u = activeDeck s ∧ standbyDeck u = standbyDeck s) ∧
        (∃ u, exec (.emDelete 15) s = .next u ∧ u.heddle.result = 3 ∧ activeDeck u = activeDeck s ∧ standbyDeck u = standbyDeck s))))

/-- The deck commands: DECK_LOAD takes up its records, DECK_LOAD_DONE writes them to the standby deck, RULE_WRITE acts on the
active deck unless the commit point swaps the decks, DECK_SWAP asks for the swap of step 4, which changes the decks' roles, the
generation and FROZEN; DECK_DRAIN_END clears FROZEN once no frame of the old generation remains, or discards those left at the
second commit point. -/
def Obligations.DecksLoadAndSwap : Prop :=
  (∀ (s : State) (d : CmdDesc), s.cmdReady d 0x40 = true → domOn s 10 = true → s.heddle.frozen = false →
    s.heddle.swapAsked = false → s.heddle.loading = none →
    exec (.deckLoad d) s = .next ((setHeddle (s.cmdTaken d) { s.heddle with loading := some (d.ring, d.index) }).cmdWorks d)) ∧
  (∀ (s : State) (recs : List (List Byte)) (bad : Bool) (r i : Nat), s.heddle.loading = some (r, i) →
    ∃ t, exec (.deckLoadDone recs bad) s = .next t ∧ t.heddle.loading = none ∧ activeDeck t = activeDeck s ∧
      standbyDeck t = (applyRecords (standbyDeck s) recs 0 none).1) ∧
  (∀ (s : State) (d : CmdDesc) (k : Deck), s.cmdReady d 0x42 = true → domOn s 10 = true → s.heddle.swapAsked = false → s.heddle.swapDue = false →
    applyRecord (activeDeck s) false (cmdData d) = (k, 0) →
    ∃ t, exec (.ruleWrite d) s = .next (cmdFinish d s.pick.point Status.done 0 t) ∧ t.host = (s.cmdTaken d).host ∧
      t.heddle = { (setActive s k).heddle with ruled := true } ∧ activeDeck t = k ∧ standbyDeck t = standbyDeck s) ∧
  (∀ (s : State) (d : CmdDesc), s.cmdReady d 0x42 = true → domOn s 10 = true → s.heddle.swapAsked = true ∨ s.heddle.swapDue = true →
    exec (.ruleWrite d) s = .next (cmdFinish d s.pick.point Status.busy 0 (s.cmdTaken d))) ∧
  (∀ (s : State) (d : CmdDesc), s.cmdReady d 0x41 = true → domOn s 10 = true → s.heddle.frozen = false →
    s.heddle.loading = none → deckValid (standbyDeck s) 0 0 = true →
    exec (.deckSwap d) s =
      .next (cmdFinish d s.pick.point Status.done 0 (setHeddle (s.cmdTaken d) { s.heddle with swapAsked := true }))) ∧
  (∀ s : State, activeDeck (deckSwap s) = standbyDeck s ∧ standbyDeck (deckSwap s) = activeDeck s ∧
    (deckSwap s).heddle.gen = (s.heddle.gen + 1) % 256 ∧ (deckSwap s).heddle.frozen = true) ∧
  (∀ s : State, s.heddle.frozen = true → oldFlights s = [] → 1 ≤ s.heddle.swapAge →
    exec .deckDrainEnd s = .next { s with heddle := { s.heddle with frozen := false } }) ∧
  (∀ s : State, s.inv → s.heddle.frozen = true → oldFlights s ≠ [] → 2 ≤ s.heddle.swapAge →
    ∃ t, exec .deckDrainEnd s = .next t ∧ t.heddle.frozen = false ∧ oldFlights t = [] ∧ flag t Reg.pickOverrun 10 = true ∧
      cntVal t 4 17 = min cntMax (cntVal s 4 17 + (oldFlights s).length))

/-- HEDDLE_PASS and HEDDLE_REORDER_RELEASE: the only waiting frame is admitted, stamped with the deck in force and counted; a
resolved frame leaves once it is the oldest of its source, and one that is not resolved stays. -/
def Obligations.FramesPassHeddleInOrder : Prop :=
  (∀ (s : State) (k : Nat) (f : Frame) (rest : List Frame) (p same : Bool), s.inv → heddleOn s = true → s.heddle.flights = [] →
    s.heddle.fifos = [(k, f :: rest)] → k ≠ 1536 → srcKey f = k →
    ∃ t, exec (.heddlePass p same) s = .next t ∧ t.heddle.fifos = sput [] [(k, f :: rest)] k rest ∧ t.heddle.rr = k ∧
      t.heddle.admitted = s.heddle.admitted + 1 ∧ t.heddle.flights.length ≤ 1 ∧
      (∀ x ∈ t.heddle.flights, resolved x = false ∧ x.frame.gen = s.heddle.gen ∧ x.frame.deckB = s.heddle.activeB) ∧
      cntVal t 4 0 = min cntMax (cntVal s 4 0 + 1) ∧ t.heddle.deckA = s.heddle.deckA ∧ t.heddle.deckB = s.heddle.deckB) ∧
  (∀ (s : State) (k : Nat) (x : Flight) (same : Bool), domOn s 10 = true → oldestOf s k = some x →
    (x.verdict = .drop →
      exec (.heddleReorderRelease k same) s = .next (pauseScan (frameGone (count (dropFlight s x) 4 11) x.frame))) ∧
    (resolved x = false → exec (.heddleReorderRelease k same) s = .next (pauseScan s)))

/-- The flow store: a returned read takes its key from the miss queue; a queued entry is placed and counts in the occupancy, or
leaves the cache; an aged entry leaves cache and store. -/
def Obligations.FlowStoreResolvesPlacesAges : Prop :=
  (∀ (s : State) (n key : Nat), s.inv → s.heddle.flights = [] → s.flow.missQ[n]? = some key →
    (∃ t, exec (.flowMissResolve n true) s = .next t ∧ t.flow = { s.flow with missQ := s.flow.missQ.erase key } ∧
      ((s.selvedge.waiting.filter (fun q => q.source == 0x0D)).length < 8 →
        ∃ c, t.selvedge.waiting = s.selvedge.waiting ++ [⟨codeClass 0x0D 0x012, 0x0D, 0x012, c, 0x0E, 0x011⟩])) ∧
    (flowOn s = true → storeLookup (setFlow s { s.flow with missQ := s.flow.missQ.erase key }) key = none →
      exec (.flowMissResolve n false) s = .next (pauseScan (setFlow s { s.flow with missQ := s.flow.missQ.erase key }))) ∧
    (∀ b j, flowOn s = true → cacheFind s key = none → storeLookup (setFlow s { s.flow with missQ := s.flow.missQ.erase key }) key = some (b, j) →
      (s.flow.cache.filter (fun x => cacheSet s x.key == cacheSet s (entGet s b j).key)).length < 8 →
      ∃ t, exec (.flowMissResolve n false) s = .next t ∧ t.flow.missQ = s.flow.missQ.erase key ∧
        t.flow.cache = entLine (entGet s b j) :: s.flow.cache ∧ cntVal t 5 3 = min cntMax (cntVal s 5 3 + 1))) ∧
  (∀ (s : State) (key : Nat) (rest : List Nat) (l : FlowLine), s.inv → domOn s 12 = true → storeReads s = true →
    s.flow.placeQ = key :: rest → cacheFind s key = some l → l.stash = false → s.flow.inserts = [] →
    let s' := setFlow s { s.flow with placeQ := rest }
    (∀ u, storePlace s' (placeRegion s').1 (placeRegion s').2 (lineEnt l) = some u →
      ∃ t, exec .flowPlacement s = .next t ∧ t.dram = u.dram ∧ t.flow.placeQ = rest ∧ t.flow.occ = s.flow.occ + 1 ∧
        cacheFind t key = some { l with placing := false, stash := false }) ∧
    (storePlace s' (placeRegion s').1 (placeRegion s').2 (lineEnt l) = none →
      ∃ t, exec .flowPlacement s = .next t ∧ t.dram = s.dram ∧ t.flow = { s.flow with
          placeQ := rest, cache := s.flow.cache.erase l, failRep := s.flow.failRep + 1 } ∧
        cntVal t 5 7 = min cntMax (cntVal s 5 7 + 1))) ∧
  (∀ (s : State) (slot : Nat), s.inv → flowOn s = true → s.flow.st = .valid → slot < flowSlots →
    let e := entGet s (flowRegion s) slot
    entValid e = true → ((cacheFind s e.key).map (·.static)).getD (entStatic e) = false →
    isAged s (((cacheFind s e.key).map (·.last)).getD e.last) = true →
    ∃ t, exec (.flowAgeOut slot) s = .next t ∧ t.dram = (storeRemove s (flowRegion s) (flowSeed s) slot).dram ∧
      t.flow = { s.flow with cache := s.flow.cache.filter (fun l => l.key != e.key), occ := s.flow.occ - 1 } ∧
      cntVal t 5 9 = min cntMax (cntVal s 5 9 + 1))

/-- The FLOW commands: INSERT takes an absent key into a stash line and waits for its placement, or replaces the action of a
present one; DELETE removes, READ writes the entry to the host; REHASH begins, and ends with the new region and SEED in force
(lines that regroup beyond the 8 ways of a set are evicted: log entry 82, the model's choice); CLEAR zeroes the active region
and ends with the store VALID (that the bytes are zero from its start is log entry 82's choice). -/
def Obligations.FlowCommandsManageStore : Prop :=
  (∀ (s : State) (d : CmdDesc), s.cmdReady d 0x48 = true → domOn s 12 = true → storeReads s = true →
    let e := imageEnt d
    (flowPeek s e.key = none → stashUsed s < 1024 →
      (s.flow.cache.filter (fun x => cacheSet s x.key == cacheSet s e.key)).length < 8 →
      exec (.flowInsert d) s = .next ((setFlow (s.cmdTaken d) { s.flow with
        cache := ⟨e.key, e.action, entStatic e, true, e.pkts, e.oct, e.last, true, true⟩ :: s.flow.cache
        placeQ := s.flow.placeQ ++ [e.key], occ := s.flow.occ + 1
        inserts := s.flow.inserts ++ [(e.key, d.ring, d.index, s.pick.point)] }).cmdWorks d)) ∧
    ((flowPeek s e.key).isSome = true → (cmdFlags d).testBit 0 = false →
      exec (.flowInsert d) s = .next (cmdFinish d s.pick.point Status.flowExists 0 (s.cmdTaken d)))) ∧
  (∀ (s : State) (d : CmdDesc), s.cmdReady d 0x49 = true → domOn s 12 = true → storeReads s = true →
    (flowPeek s (imageEnt d).key).isSome = true →
    exec (.flowDelete d) s = .next (cmdFinish d s.pick.point Status.done 0
      (count (finishInserts (flowRemove (s.cmdTaken d) (imageEnt d).key) (imageEnt d).key) 5 11))) ∧
  (∀ (s : State) (d : CmdDesc) (e : FlowEnt), s.cmdReady d 0x4A = true → domOn s 12 = true → storeReads s = true →
    flowPeek s (imageEnt d).key = some e →
    exec (.flowRead d) s = .next (cmdFinish d s.pick.point Status.done 0
      (emit (s.cmdTaken d) (.hostWrite (cmdAddr d) (entEncode e) (flag s Reg.hostCtrl 1))))) ∧
  (∀ (s : State) (d : CmdDesc), s.inv → s.cmdReady d 0x4B = true → domOn s 12 = true → s.flow.st = .valid →
    regionFits s (!flowRegion s) = true →
    ∃ t, exec (.flowRehash d) s = .next t ∧ t.flow = { s.flow with
        st := .rehash, newSeed := bits (cmdP0 d) 15 0, scan := 0, job := some (d.ring, d.index, s.pick.point)
        placeQ := s.flow.placeQ ++ (s.flow.cache.filter (fun l => l.stash && !s.flow.placeQ.contains l.key)).map (·.key) } ∧
      flag t Reg.heddleFlowKeep 31 = false ∧ t.dram = s.dram) ∧
  (∀ s : State, s.inv → domOn s 12 = true → s.flow.st = .rehash → flowSlots ≤ s.flow.scan →
    ∃ t, exec .flowRehashDone s = .next t ∧ t.flow.st = .valid ∧ t.flow.job = none ∧ flowRegion t = !flowRegion s ∧
      flowSeed t = s.flow.newSeed % 2 ^ 16 ∧ flag t Reg.heddleFlowKeep 31 = true ∧ (∀ l ∈ t.flow.cache, l ∈ s.flow.cache) ∧
      ((∀ l ∈ s.flow.cache, (s.flow.cache.filter (fun x => homeSlot (s.flow.newSeed % 2 ^ 16) x.key % 8192 ==
          homeSlot (s.flow.newSeed % 2 ^ 16) l.key % 8192)).length ≤ 8) →
        t.flow = { s.flow with st := .valid, job := none } ∧ t.dram = s.dram)) ∧
  (∀ (s : State) (d : CmdDesc), s.inv → s.cmdReady d 0x4C = true → domOn s 12 = true → s.flow.st = .invalid ∨ s.flow.st = .valid →
    ∃ t, exec (.flowClear d) s = .next t ∧ t.flow = { s.flow with
        st := .clearing, job := some (d.ring, d.index, s.pick.point)
        cache := s.flow.cache.map (fun l => { l with placing := true }), occ := stashUsed s } ∧
      (∀ a, flowBase s (flowRegion s) ≤ a → a < flowBase s (flowRegion s) + 0x20000000 → sget 0 t.dram a = 0) ∧
      ∀ a, a < flowBase s (flowRegion s) ∨ flowBase s (flowRegion s) + 0x20000000 ≤ a → sget 0 t.dram a = sget 0 s.dram a) ∧
  (∀ s : State, s.inv → domOn s 12 = true → s.flow.st = .clearing →
    ∃ t, exec .flowClearDone s = .next t ∧ t.flow = { s.flow with st := .valid, job := none } ∧
      flag t Reg.heddleFlowKeep 31 = true ∧ t.dram = s.dram)

/-- Selection for a destination (R223, R224): a chosen queue belongs to it and may be served; none that may has a higher level,
and none of its level is in the committed band while the chosen one is in the excess band; and a queue is chosen whenever one
may be served. -/
def Obligations.SelectionFollowsLevelsAndBands : Prop :=
  ∀ (pol : SelPolicy) (s : State) (d : Nat),
    (∀ q band, wfqChoose pol s d = some (q, band) →
      q ∈ destQueues s d ∧ mayServe pol s q = true ∧ qEn s q = true ∧ bandOf s q = some band ∧
      ∀ q' ∈ destQueues s d, mayServe pol s q' = true →
        qLevel s q' < qLevel s q ∨ (qLevel s q' = qLevel s q ∧ (bandOf s q' = some true → band = true))) ∧
    (wfqChoose pol s d = none → ∀ q ∈ destQueues s d, mayServe pol s q = false)

/-- REED_SELECT: the frame that the selection yields begins on a Yonov lane with its YSTART and first data block, begins on an
idle MAC, or is delivered to its host ring; a frame whose buffer is poisoned, or that is too long for the MAC, is discarded
instead; where the selection yields none nothing is sent. -/
def Obligations.SelectedFramesLeave : Prop :=
  (∀ (s u : State) (n q : Nat) (same : Bool) (i : QItem), n < 16 → yonovOn s n = true → (laneAt s n).st = .up →
    (laneAt s n).holdRx = false → (laneAt s n).tx = none →
    reedTake { part := fun _ _ _ => true, only := fun _ _ _ => true, gone := circuitGone } (destKey 1 n) same s = (some (q, i), u) →
    let v := queueLeft u q i.frame
    let w := sendBlock (sendYmgmt v n) n 2 (ystartBlock i.frame.data.length)
    let x := sendBlock w n 1 (slice (frameRead w i.frame) 0 8)
    (framePoisoned v i.frame = false →
      exec (.reedSelect 1 n same) s = .next (pauseScan (setLane x n { laneAt x n with tx := some i.frame }))) ∧
    (framePoisoned v i.frame = true →
      exec (.reedSelect 1 n same) s = .next (pauseScan (frameGone (poisonSeen v (laneSource n) i.frame) i.frame)))) ∧
  (∀ (s u : State) (p q : Nat) (same : Bool) (i : QItem), p < 32 → macUp s p = true → (macAt s p).tx = none →
    (macAt s p).preempted = none → reedTake (macPolicy p false) (destKey 0 p) same (countHolds s p) = (some (q, i), u) →
    let v := queueLeft (pauseFlush u p) q i.frame
    (framePoisoned v i.frame = true →
      exec (.reedSelect 0 p same) s = .next (pauseScan (frameGone (poisonSeen v (macSource p) i.frame) i.frame))) ∧
    (framePoisoned v i.frame = false → fld v (Reg.macCfg p) 13 0 < i.frame.data.length →
      exec (.reedSelect 0 p same) s = .next (pauseScan (frameGone (macCount v p 14) i.frame))) ∧
    (framePoisoned v i.frame = false → i.frame.data.length ≤ fld v (Reg.macCfg p) 13 0 →
      exec (.reedSelect 0 p same) s = .next (pauseScan (setMac v p
        { macAt v p with tx := some { queue := q, level := qLevel v q, frame := i.frame } })))) ∧
  (∀ (s u : State) (r q : Nat) (same : Bool) (i : QItem), r < 512 →
    reedTake { part := fun _ _ _ => true, only := fun s _ i => rxFree s r i.frame.data.length, gone := circuitGone } (destKey 3 r) same s =
      (some (q, i), u) →
    let v := queueLeft u q i.frame
    (framePoisoned v i.frame = true →
      exec (.reedSelect 3 r same) s = .next (pauseScan (frameGone (poisonSeen v 0x1D i.frame) i.frame))) ∧
    (∀ w, framePoisoned v i.frame = false → rxDeliver v r { i.frame with data := frameRead v i.frame } {} = some w →
      exec (.reedSelect 3 r same) s = .next (pauseScan (frameGone w i.frame)))) ∧
  (∀ (s u : State) (r : Nat) (same : Bool), r < 512 →
    reedTake { part := fun _ _ _ => true, only := fun s _ i => rxFree s r i.frame.data.length, gone := circuitGone } (destKey 3 r) same s =
      (none, u) →
    exec (.reedSelect 3 r same) s = .next (pauseScan u))

/-- The Reed window, the anchor lock and a swap request: WRITE stores a permitted record in the staged copy and refuses another
with ERR_FIELD; a locked shaper refuses (R222); READ shows the entry; SWAP is remembered for step 6. Shapers and queues by
command: a tick refills every listed shaper up to its burst sizes; SHAPER_LOAD takes up its records, SHAPER_SWAP asks for the
swap of step 6, which brings the standby set into force with the buckets of R221, the anchored shapers keeping their parameters
while LOCK is set (R222); QUEUE_FLUSH discards the queue's frames and leaves the other queues. -/
def Obligations.ReedTablesAndShapers : Prop :=
  ((∀ (s : State) (i : Nat), s.inv → hostReach s = true → domOn s 18 = true → fldS s Reg.reedEntSel 18 16 = 0 →
    fldS s Reg.reedEntSel 13 0 = i → i < 2048 →
    let img := (List.range 8).map (fun k => rdS s (Reg.reedEntData k))
    (qRecOk img = true →
      ∃ t, exec (.reedEntWrite 15) s = .next t ∧ t.reed = { s.reed with qrecS := sput [] s.reed.qrecS i (trimRec 6 img), result := 0 } ∧
        rdS t Reg.reedEntCmd = 0) ∧
    (qRecOk img = false →
      ∃ t, exec (.reedEntWrite 15) s = .next t ∧ t.reed = { s.reed with result := 2 } ∧ rdS t Reg.reedEntCmd = 2 * 2 ^ 24) ∧
    (∃ t, exec (.reedEntRead 15) s = .next t ∧ t.reed = { s.reed with result := 0 } ∧
      ∀ k < 8, rdS t (Reg.reedEntData k) = (sget [] s.reed.qrecS i).getD k 0 % 2 ^ 32)) ∧
  (∀ (s : State), s.inv → hostReach s = true → domOn s 18 = true → fldS s Reg.reedEntSel 18 16 = 3 →
    fldS s Reg.reedEntSel 13 0 < 32 → flag s Reg.reedAnchor 0 = true →
    ∃ t, exec (.reedEntWrite 15) s = .next t ∧ t.reed = { s.reed with result := 1 }) ∧
  (∀ (s : State), s.inv → hostReach s = true → domOn s 18 = true →
    ∃ t, exec (.anchorLock 15) s = .next t ∧ flag t Reg.reedAnchor 0 = true ∧ t.reed = s.reed) ∧
  (∀ (s : State) (v : Word), s.inv → hostReach s = true → domOn s 18 = true →
    ∃ t, exec (.reedSwapRequest 15 v) s = .next t ∧ t.reed = { s.reed with swapAsked := true } ∧
      rd t Reg.reedCtrl = rd s Reg.reedCtrl)) ∧
  ((∀ (s : State), domOn s 18 = true → srising 0 s.reed.shIn = true → srising 0 s.reed.buckets = true →
    ∃ t, exec (.shaperRefillTick s.reed.tick) s = .next t ∧ t.reed.tick = s.reed.tick + 1 ∧
      (∀ n, n ∈ s.reed.shIn.map (·.1) → bucketAt t n =
        (min ((bucketAt s n).1 + shCir s.reed.shIn n) (512 * shCbs s.reed.shIn n),
         min ((bucketAt s n).2 + shPir s.reed.shIn n) (512 * shPbs s.reed.shIn n))) ∧
      (∀ n, n ∉ s.reed.shIn.map (·.1) → bucketAt t n = bucketAt s n) ∧ t.reed.queues = s.reed.queues) ∧
  (∀ (s : State) (k : Nat), domOn s 18 = true → k ≠ s.reed.tick → exec (.shaperRefillTick k) s = .next s) ∧
  (∀ (s : State) (d : CmdDesc), s.inv → s.cmdReady d 0x50 = true → domOn s 18 = true →
    s.reed.loading = none →
    ∃ t, exec (.shaperLoad d) s = .next t ∧ t.reed = { s.reed with loading := some (d.ring, d.index) } ∧
      flag t Reg.reedStat 0 = true) ∧
  (∀ (s : State) (d : CmdDesc), s.cmdReady d 0x51 = true → domOn s 18 = true → s.reed.loading = none →
    exec (.shaperSwap d) s =
      .next (cmdFinish d s.pick.point Status.done 0 (setReed (s.cmdTaken d) { s.reed with swapAsked := true }))) ∧
  (∀ (s : State) (n : Nat), srising 0 s.reed.buckets = true →
    (shaperSwap s).reed.shIn = swapSet s ∧ (shaperSwap s).reed.swapAsked = false ∧
    (flag s Reg.reedAnchor 0 = false → swapSet s = s.reed.shStby) ∧
    (flag s Reg.reedAnchor 0 = true → srising 0 s.reed.shStby = true → n < 32 → sget [] (swapSet s) n = sget [] s.reed.shIn n) ∧
    (n ∈ s.reed.shIn.map (·.1) ∨ n ∈ (swapSet s).map (·.1) →
      bucketAt (shaperSwap s) n = swapBucket s.reed.shIn (swapSet s) n (bucketAt s n))) ∧
  (∀ (s : State) (d : CmdDesc), s.inv → s.cmdReady d 0x54 = true → domOn s 18 = true → srising 0 s.reed.queues = true →
    ∃ t, exec (.queueFlush d) s = .next t ∧ queueFrames t (cmdP0 d % 2048) = [] ∧
      (∀ q, q ≠ cmdP0 d % 2048 → queueFrames t q = queueFrames s q) ∧
      cntVal t 6 7 = min cntMax (cntVal s 6 7 + (queueFrames s (cmdP0 d % 2048)).length)))

/-- Gate lists: GATE_LOAD replaces the administrative list, GATE_START fixes a start in phase with the base time and at least
250 µs ahead, the list becomes operational at that instant, and the entry in force follows the time counter. SPOOL_FREE and
SPOOL_LAYOUT_APPLY: a buffer freed by its owner is FREEING, or, found bad, FREEING or QUARANTINED (R242); a wrong handle, a
buffer that is not held or another owner is counted, reported with its kind and handle, and changes no buffer (R254); a waiting
layout comes into force whole while EN is 0 and Spool is idle (R244). -/
def Obligations.GateListsAndSpool : Prop :=
  ((∀ (s : State) (d : CmdDesc), s.cmdReady d 0x52 = true → domOn s 18 = true →
    (gateAt s (cmdP0 d % 32)).pending = none → (∀ e < cmdLen d, 100 ≤ leAt (cmdData d) (8 * e + 4) 4 % 2 ^ 24) →
    srising 0 s.reed.gateAdmin = true →
    ∃ t, exec (.gateLoad d) s = .next t ∧ t.reed.gateOper = s.reed.gateOper ∧
      (∀ e < cmdLen d, sget (0, 0) t.reed.gateAdmin (256 * (cmdP0 d % 32) + e) =
        (leAt (cmdData d) (8 * e) 4 % 256, leAt (cmdData d) (8 * e + 4) 4 % 2 ^ 24)) ∧
      ∀ k, k / 256 ≠ cmdP0 d % 32 → sget (0, 0) t.reed.gateAdmin k = sget (0, 0) s.reed.gateAdmin k) ∧
  (∀ (s : State) (d : CmdDesc), s.cmdReady d 0x53 = true → domOn s 18 = true →
    (gateAt s (cmdP0 d % 32)).pending = none → domOn s 22 = true → s.time.run = true →
    let base := (cmdP1 d + cmdP2 d % 65536 * 2 ^ 32) * 10 ^ 9 + cmdLen d
    ∃ t start, exec (.gateStart d) s = .next t ∧ gateAt t (cmdP0 d % 32) = { gateAt s (cmdP0 d % 32) with
        pending := some (start, cmdP3 d % 2 ^ 30, bits (cmdP0 d) 24 16), armed := false } ∧
      base ≤ start ∧ (start - base) % (cmdP3 d % 2 ^ 30) = 0 ∧ s.time.tod + 250000 * nsUnit ≤ start * nsUnit) ∧
  (∀ (s : State) (p start cycle len : Nat), domOn s 18 = true → (gateAt s p).pending = some (start, cycle, len) → 0 < len → len ≤ 256 →
    start ≤ todWhole s → srising 0 s.reed.gateOper = true →
    ∃ t, exec (.gateListStart p) s = .next t ∧ gateAt t p = { operLen := len, cycle := cycle, start := start, entry := 0 } ∧
      (∀ e < len, operEntry t p e = sget (0, 0) s.reed.gateAdmin (256 * p + e)) ∧ t.reed.gateAdmin = s.reed.gateAdmin) ∧
  (∀ (s : State) (p : Nat), domOn s 18 = true → p < 32 → (gateAt s p).operLen ≠ 0 →
    ∃ t, exec (.gateEntryChange p) s = .next t ∧ gateAt t p = { gateAt s p with entry := (gateNow s p).1 } ∧
      t.reed.gateOper = s.reed.gateOper)) ∧
  ((∀ (s : State) (h o : Nat), domOn s 14 = true → h < 2 ^ 20 → o < 64 → freeKind s h o = 0 → (sget {} s.spool.bufs h).bad = false →
    exec (.spoolFree h o) s = .next (pauseScan (setBuf (count s 9 1) h .freeing 0))) ∧
  (∀ (s : State) (h o : Nat), s.inv → domOn s 14 = true → h < 2 ^ 20 → o < 64 → freeKind s h o = 0 → (sget {} s.spool.bufs h).bad = true →
    ∃ t st, exec (.spoolFree h o) s = .next t ∧ (st = .freeing ∨ st = .quarantined) ∧
      t.spool = { s.spool with bufs := sput {} s.spool.bufs h { st := st, owner := 0 } } ∧
      cntVal t 9 1 = min cntMax (cntVal s 9 1 + 1) ∧ cntVal t 9 9 = min cntMax (cntVal s 9 9 + 1)) ∧
  (∀ (s : State) (h o : Nat), s.inv → domOn s 14 = true → h < 2 ^ 20 → o < 64 → freeKind s h o ≠ 0 →
    ∃ t, exec (.spoolFree h o) s = .next t ∧ t.spool = s.spool ∧
      ((s.selvedge.waiting.filter (fun q => q.source == 0x0F)).length < 8 → t.selvedge.waiting = s.selvedge.waiting ++
        [⟨2, 0x0F, 0x040, freeKind s h o * 2 ^ 20 + h, 0x0F, 0x040⟩]) ∧
      cntVal t 9 (if freeKind s h o = 1 then 8 else if freeKind s h o = 2 then 6 else 7) =
        min cntMax (cntVal s 9 (if freeKind s h o = 1 then 8 else if freeKind s h o = 2 then 6 else 7) + 1)) ∧
  (∀ s : State, s.inv → domOn s 14 = true → flag s Reg.spoolCtrl 0 = false → spoolIdle s = true → layoutWaits s = true →
    ∃ t, exec .spoolLayoutApply s = .next t ∧ t.spool.pools = layoutOf (rdS s) ∧ t.spool.bufs = s.spool.bufs ∧
      ∀ k < 4, rd t (Reg.spoolPoolCfg k) = rdS s (Reg.spoolPoolCfg k) ∧ rd t (Reg.spoolPoolCount k) = rdS s (Reg.spoolPoolCount k)))

/-- Lanes and links: a training lane that has adapted goes DOWN, one that is up follows its equaliser by at most one step a
pick, the other lane of a group adapts with the lowest one; a lane in block lock is UP, in modes 1 to 3 one that sees a comma; a
MAC bound by a lane that is UP gets its link, but for an SGMII partner at 10 or 100 Mb/s, and loses it with the faults seen; in
mode 9 the third pair of markers in a row locks the slots, the fourth missed one unlocks them. -/
def Obligations.LanesTrainAndLink : Prop :=
  (∀ (s : State) (n c : Nat), n < 16 → domOn s (laneDom n) = true → flag s (Reg.laneRxCfg n) 31 = false → c < 16 →
    (laneHead s n = n → (laneAt s n).st = .train →
      ∃ t, exec (.laneAdapted n c) s = .next t ∧ laneAt t n = { laneAt s n with ctle := c, marks := 5 * s.ns, st := .down }) ∧
    (laneHead s n ≠ n → (laneAt s (laneHead s n)).st = .train →
      exec (.laneAdapted n c) s = .next (setLane s n { laneAt s n with ctle := c })) ∧
    ((laneAt s (laneHead s n)).st = .up → c ≠ (laneAt s n).ctle → c ≤ (laneAt s n).ctle + 1 → (laneAt s n).ctle ≤ c + 1 →
      (laneAt s n).stepped ≠ some s.pick.commits →
      exec (.laneAdapted n c) s = .next (setLane s n { laneAt s n with ctle := c, stepped := some s.pick.commits }))) ∧
  (∀ (s : State) (n w sp : Nat), n < 16 → domOn s (laneDom n) = true → (laneAt s n).st = .down →
    (4 ≤ laneMode s n → laneMode s n ≤ 8 →
      exec (.laneLinkUp false n w sp) s = .next (laneGo (setLane s n { laneAt s n with lock := true }) n .up)) ∧
    (laneMode s n = 9 → exec (.laneLinkUp false n w sp) s = .next (setLane s n { laneAt s n with block := true })) ∧
    (laneMode s n = 10 → exec (.laneLinkUp false n w sp) s = .next (setLane s n { laneAt s n with lock := true, idles := 0 })) ∧
    (∀ i, s.inv → 1 ≤ laneMode s n → laneMode s n ≤ 3 → (laneAt s n).lock = false → findComma w = some i →
      ∃ t, exec (.laneLinkUp false n w sp) s = .next t ∧
        laneAt t n = { laneAt s n with lock := true, boundary := some i, comma := commaGroup w i, st := .up } ∧
        cntVal t 12 (14 * n + 2) = if (laneAt s n).boundary = some i then cntVal s 12 (14 * n + 2)
          else min cntMax (cntVal s 12 (14 * n + 2) + 1))) ∧
  (∀ (s : State) (p w sp : Nat), p < 32 → macBound s p = true → domOn s (macDom p) = true →
    exec (.laneLinkUp true p w sp) s = .next (macLink s p (!(laneMode s (macLane p) == 2 && (sp == 10 || sp == 100))))) ∧
  (∀ (s : State) (p e : Nat) (lf rf : Bool), p < 32 → domOn s (macDom p) = true → srising 0 s.ports.macs = true →
    ∃ t, exec (.laneLinkDown true p e lf rf) s = .next t ∧ (macAt t p).link = false ∧ (macAt t p).localFault = lf ∧
      (macAt t p).remoteFault = rf ∧ (macAt t p).tx = (macAt s p).tx ∧ ∀ q, q ≠ p → macAt t q = macAt s q) ∧
  (∀ (s : State) (n e : Nat), s.inv → n < 16 → domOn s (laneDom n) = true → (laneAt s n).lock = true ∨ (laneAt s n).block = true →
    (laneAt s n).st = .up →
    ∃ t, exec (.laneLinkDown false n e false false) s = .next t ∧ (laneAt t n).st = .down ∧ (laneAt t n).lock = false ∧
      (laneAt t n).block = false ∧ (laneAt t n).boundary = (laneAt s n).boundary ∧
      cntVal t 12 (14 * n) = min cntMax (cntVal s 12 (14 * n) + e) ∧ cntVal t 12 (14 * n + 1) = min cntMax (cntVal s 12 (14 * n + 1) + 1)) ∧
  (∀ (s : State) (n : Nat) (a b : Nat × Nat), n < 16 → laneMode s n = 9 → domOn s (laneDom n) = true → 4 ≤ laneCode (laneAt s n).st →
    (laneAt s n).block = true →
    (a = pairMark false → b = pairMark true →
      ((laneAt s n).markers < 2 ∨ (laneAt s n).lock = true →
        exec (.pairMarker n a b) s = .next (setLane s n { laneAt s n with markers := min 3 ((laneAt s n).markers + 1), missed := 0 })) ∧
      (2 ≤ (laneAt s n).markers → (laneAt s n).lock = false → (laneAt s n).st = .down →
        ∃ t, exec (.pairMarker n a b) s = .next t ∧ (laneAt t n).lock = true ∧ (laneAt t n).st = .up)) ∧
    (¬ (a = pairMark false ∧ b = pairMark true) →
      ((laneAt s n).lock = false → exec (.pairMarker n a b) s = .next (setLane s n { laneAt s n with markers := 0 })) ∧
      ((laneAt s n).lock = true → (laneAt s n).missed < 3 →
        exec (.pairMarker n a b) s = .next (setLane s n { laneAt s n with missed := (laneAt s n).missed + 1 })) ∧
      ((laneAt s n).lock = true → 3 ≤ (laneAt s n).missed → (laneAt s n).st = .up →
        ∃ t, exec (.pairMarker n a b) s = .next t ∧ (laneAt t n).lock = false ∧ (laneAt t n).block = true ∧ (laneAt t n).st = .down)))

/-- Control blocks of the Yonov link: the 128th YIDLE with RDY = 1 in a row takes the lane UP, one with RDY = 0 or 4,096 blocks
without one take it DOWN; YIDLE is sent between frames with the lane's own lock, after the queued YMGMT, scrambled; YHOLD holds
the lane, is repeated and times out; YMGMT goes through a FIFO of 16 on each side; a FIFO error counts and loses lock.
YMGMT_SEND and YMGMT_RX_READ: a send queues the seven bytes of the two registers, a read pops the oldest received ones. -/
def Obligations.YonovBlocksAct : Prop :=
  (∀ (s : State) (n : Nat), yonovOn s n = true →
    ((laneAt s n).lock = true →
      ((laneAt s n).idles < 127 →
        exec (.yidle n true) s = .next (setLane s n { laneAt s n with peerRdy := true, idles := (laneAt s n).idles + 1 })) ∧
      (127 ≤ (laneAt s n).idles → (laneAt s n).st = .down →
        ∃ t, exec (.yidle n true) s = .next t ∧ (laneAt t n).st = .up ∧ (laneAt t n).idles = 128 ∧ (laneAt t n).peerRdy = true) ∧
      ((laneAt s n).st = .up →
        ∃ t, exec (.yidle n false) s = .next t ∧ (laneAt t n).st = .down ∧ (laneAt t n).idles = 0 ∧ (laneAt t n).peerRdy = false) ∧
      (∀ h, exec (.yhold n h) s = .next (setLane s n { laneAt s n with holdRx := h })) ∧
      (∀ v, (laneAt s n).rxFifo.length < 16 →
        exec (.ymgmt n v) s = .next (setLane s n { laneAt s n with rxFifo := (laneAt s n).rxFifo ++ [v % 2 ^ 56] })) ∧
      (∀ v, 16 ≤ (laneAt s n).rxFifo.length → exec (.ymgmt n v) s = .next (laneCount s n 12)) ∧
      exec (.yonovFifoError n) s = .next (laneUnlock (laneCount s n 11) n)) ∧
    ((laneAt s n).st = .up →
      ∃ t, exec (.yidleTimeout n) s = .next t ∧ (laneAt t n).st = .down ∧ (laneAt t n).idles = 0) ∧
    ((laneAt s n).tx = none →
      ∃ t, exec (.yidleSend n) s = .next t ∧ (laneAt t n).txFifo = [] ∧ t.out = s.out ++ blocksSent n (laneAt s n).scr
        ((laneAt s n).txFifo.map (fun v => (2, ymgmtBlock v)) ++ [(2, yidleBlock (laneAt s n).lock)])) ∧
    ((laneAt s n).holdTx = true →
      ∃ t, exec (.yholdRepeat n) s = .next t ∧ t.out = s.out ++ blocksSent n (laneAt s n).scr [(2, yholdBlock true)] ∧
        laneAt t n = { laneAt s n with scr := (scramble64 (laneAt s n).scr (blockWord (yholdBlock true))).1 }) ∧
    ((laneAt s n).holdRx = true →
      exec (.yholdTimeout n) s = .next (laneCount (setLane s n { laneAt s n with holdRx := false }) n 10))) ∧
  (∀ (s : State) (n : Nat), s.inv → n < 16 → hostReach s = true → domOn s (laneDom n) = true →
    (∀ v : Word, v.toNat.testBit 31 = true → (laneAt s n).txFifo.length < 16 →
      ∃ t, exec (.ymgmtSend n 15 v) s = .next t ∧
        laneAt t n = { laneAt s n with txFifo := (laneAt s n).txFifo ++ [rdS s (Reg.laneYmgmtTxLo n) * 2 ^ 24 + v.toNat % 2 ^ 24] }) ∧
    (∀ v rest, (laneAt s n).rxFifo = v :: rest →
      ∃ t, exec (.ymgmtRxRead n 15) s = .next t ∧ t.hostRead = BitVec.ofNat 32 (v / 2 ^ 24) ∧
        t.ports.lanes = sput {} s.ports.lanes n { laneAt s n with rxFifo := rest } ∧ rdS t (Reg.laneYmgmtRxHi n) = 2 ^ 31 + v % 2 ^ 24) ∧
    ((laneAt s n).rxFifo = [] →
      ∃ t, exec (.ymgmtRxRead n 15) s = .next t ∧ t.hostRead = 0 ∧ (rdS t (Reg.laneYmgmtRxHi n)).testBit 31 = false))

/-- Received frames: the tests of R302 and R307 in their order decide the one counter of a frame that is not taken, and a YHOLD
inside a Yonov frame acts; a good frame counts its bytes and goes to Heddle, on a MAC that takes timestamps with its ingress
instant (here for frames in which no PTP field is changed; R159 changes those of Sync where ASYM is set). Pause: a PAUSE frame
pauses every level for its quanta or releases them; in mode 0 a control frame only counts; the pause runs out; while a count
stays above XON the frame is repeated, behind a frame in transmission that it may not preempt; a verified link may preempt. -/
def Obligations.FramesTestedPauseStops : Prop :=
  ((∀ (s : State) (n : Nat) (y : YonovIn) (b : List Byte) (rest : List (Nat × List Byte)) (body : YBody) (hold : Option Bool),
    yonovOn s n = true → (laneAt s n).lock = true → descrambled y.prior y.blocks = (2, b) :: rest → byteAt b 0 = 0x55 →
    yWalk rest [] none = (body, hold) →
    let u := hold.elim s (fun h => setLane s n { laneAt s n with holdRx := h })
    let len := beAt b 1 2 % 2 ^ 14
    (crcOf 8 0x07 0xFF (slice b 1 6) ≠ byteAt b 7 ∨ len < 14 → exec (.yonovFrameRx n y) s = .next (pauseScan (laneCount u n 6))) ∧
    (crcOf 8 0x07 0xFF (slice b 1 6) = byteAt b 7 → 14 ≤ len →
      (body = .unfinished → exec (.yonovFrameRx n y) s = .next (pauseScan u)) ∧
      (body = .broken → exec (.yonovFrameRx n y) s = .next (pauseScan (laneCount (laneCount u n 0) n 7))) ∧
      (∀ d fin, body = .ended d fin →
        (d.length ≠ (len + 7) / 8 * 8 → exec (.yonovFrameRx n y) s = .next (pauseScan (laneCount u n 7))) ∧
        (d.length = (len + 7) / 8 * 8 → (byteAt fin 5).testBit 0 = true →
          exec (.yonovFrameRx n y) s = .next (pauseScan (laneCount u n 9))) ∧
        (d.length = (len + 7) / 8 * 8 → (byteAt fin 5).testBit 0 = false →
          (crc32c (d.take len) ≠ beAt fin 1 4 → exec (.yonovFrameRx n y) s = .next (pauseScan (laneCount u n 8))) ∧
          (crc32c (d.take len) = beAt fin 1 4 → exec (.yonovFrameRx n y) s =
            .next (pauseScan (heddleInput (laneCount u n 5) { data := d.take len, srcType := 1, srcId := n }))))))) ∧
  (∀ (s : State) (p : Nat) (r : RxIn), p < 32 → macUp s p = true →
    (∀ k, rxTest s p r = some k → exec (.macRxFrame p r) s = .next (macCount (fecCounts s p r) p k)) ∧
    (rxTest s p r = none → beAt r.data 12 2 = 0x8808 → exec (.macRxFrame p r) s = .next (controlFrame (fecCounts s p r) p r.data)) ∧
    (rxTest s p r = none → beAt r.data 12 2 ≠ 0x8808 → addrPass s p (beAt r.data 0 6) = false →
      exec (.macRxFrame p r) s = .next (macCount (fecCounts s p r) p 6)) ∧
    (rxTest s p r = none → beAt r.data 12 2 ≠ 0x8808 → addrPass s p (beAt r.data 0 6) = true →
      let u := countBy (macCount (fecCounts s p r) p 0) 11 (16 * p + 1) r.data.length
      (portStamps s p = false → flag s (Reg.timePortCfg p) 2 = false →
        exec (.macRxFrame p r) s = .next (pauseScan (heddleInput u { data := r.data, srcType := 0, srcId := p }))) ∧
      (portStamps s p = true → (ptpFlags (parse s r.data) r.data).2 = false →
        exec (.macRxFrame p r) s = .next (pauseScan (heddleInput u { data := r.data, srcType := 0, srcId := p, tsValid := true
                                                                     tsNs := todNs (ingressStamp s p r.back).1
                                                                     tsSec := todSec (ingressStamp s p r.back).1
                                                                     rawIn := (ingressStamp s p r.back).2 })))))) ∧
  ((∀ (s : State) (p : Nat) (d : List Byte), s.inv → p < 32 → macUp s p = true → beAt d 12 2 = 0x8808 → rxTest s p { data := d } = none →
    beAt d 14 2 = 1 → fld s (Reg.macPauseCfg p) 25 24 = 1 → srising 0 s.ports.macs = true → srising 0 (macAt s p).paused = true →
    ∃ t, exec (.pauseFrameRx p d) s = .next t ∧
      (∀ l < 8, sget 0 (macAt t p).paused l = if beAt d 16 2 = 0 then 0 else
        s.ns + (beAt d 16 2 * 512000 + macRate s p - 1) / macRate s p) ∧
      cntVal t 11 (16 * p + 7) = min cntMax (cntVal s 11 (16 * p + 7) + 1)) ∧
  (∀ (s : State) (p : Nat) (d : List Byte), p < 32 → macUp s p = true → beAt d 12 2 = 0x8808 → rxTest s p { data := d } = none →
    fld s (Reg.macPauseCfg p) 25 24 = 0 → exec (.pauseFrameRx p d) s = .next (macCount s p 8)) ∧
  (∀ (s : State) (p l due : Nat), p < 32 → domOn s (macDom p) = true → (macAt s p).paused.find? (fun e => e.1 == l) = some (l, due) →
    (due ≤ s.ns →
      exec (.pauseExpiry p l) s = .next (setMac s p { macAt s p with paused := sdel (macAt s p).paused l })) ∧
    (s.ns < due → exec (.pauseExpiry p l) s = .next s)) ∧
  (∀ (s : State) (p : Nat), p < 32 → macUp s p = true → fld s (Reg.macPauseCfg p) 25 24 = 1 → (macAt s p).xoff = [0] →
    256 * fld s (Reg.macPauseThr p) 15 0 < heldBytes s p none →
    ((macAt s p).tx = none → exec (.pauseRepeat p) s =
      .next (macCount { s with out := s.out ++ [.pauseOut p 1 0 [fld s (Reg.macPauseCfg p) 15 0]] } p 12)) ∧
    (∀ x, (macAt s p).tx = some x → preemptOn s p = false → (macAt s p).pauseDue = [] → exec (.pauseRepeat p) s =
      .next (setMac s p { macAt s p with pauseDue := [(0, fld s (Reg.macPauseCfg p) 15 0)] }))) ∧
  (∀ (s : State) (p : Nat), p < 32 → macUp s p = true → flag s (Reg.macPreempt p) 31 = true →
    exec (.mergeVerify p) s = .next (setMac s p { macAt s p with verified := true })))

/-- MAC_TX_END: the MAC is free for the next frame, and a pause frame that waited leaves; the frame has left, padded to 60
bytes, as the last fragment where it was preempted, and its bytes count unpadded; a frame that asked for one has its TX_TS, with
the egress instant and the port where the MAC takes timestamps (for frames without a PTP field to change). A frame found
poisoned ends with an invalid FCS. On a Yonov lane the rest of the data blocks and YEND leave. -/
def Obligations.FramesLeaveMac : Prop :=
  (∀ (s : State) (p back : Nat) (x : TxFrame), s.inv → p < 32 → (macAt s p).tx = some x → x.frame.ptpEvent = false →
    let f := { x.frame with data := frameRead s x.frame }
    let a := setMac s p { macAt s p with tx := none }
    (framePoisoned s x.frame = true → exec (.macTxEnd p back) s = .next (pauseScan (frameGone (pauseFlush (poisonSeen (macCount (emit a
      (.frameOut p (f.data.drop x.sent) true)) p 13) (macSource p) x.frame) p) f))) ∧
    (framePoisoned s x.frame = false →
      let u := emit (countBy (macCount a p 10) 11 (16 * p + 11) x.frame.data.length)
        (if x.sent = 0 then .frameOut p (macPad f.data) false else .fragment p ((macPad f.data).drop x.sent) true)
      (x.frame.tsReq = none → exec (.macTxEnd p back) s = .next (pauseScan (frameGone (pauseFlush u p) { f with tsReq := none }))) ∧
      (∀ r i, x.frame.tsReq = some (r, i) → x.frame.epoch = s.host.epoch →
        (portStamps s p = true →
          let tod := (egressStamp s p back).1
          exec (.macTxEnd p back) s = .next (pauseScan (frameGone (pauseFlush
            (txTs u r i Status.done (todNs tod + todSec tod * 2 ^ 32 + p * 2 ^ 80)) p) { f with tsReq := none }))) ∧
        (portStamps s p = false →
          ∃ z < 2 ^ 80, exec (.macTxEnd p back) s = .next (pauseScan (frameGone (pauseFlush
            (txTs { u with draws := u.draws + 1 } r i Status.done (z + p * 2 ^ 80)) p) { f with tsReq := none })))))) ∧
  (∀ (s : State) (n back : Nat) (f : Frame), n < 16 → (laneAt s n).tx = some f → (laneAt s n).st ≠ .off → framePoisoned s f = false →
    ∃ w, exec (.macTxEnd (32 + n) back) s = .next (pauseScan (frameGone (laneCount w n 13) f)) ∧ (laneAt w n).tx = none ∧
      w.out = s.out ++ blocksSent n (laneAt s n).scr
        (((dataBlocks 2048 (frameRead s f)).drop 1).map (fun b => (1, b)) ++ [(2, yendBlock (crc32c (frameRead s f)) false)]))

/-- Keys and entropy: a key whose count has expired is released and counted (R263); a block of 2,048 raw bits that passes the
two health tests gives the TRNG's output and starts the count of failures anew, one that fails counts, the third in a row stops
the TRNG and reports TRNG_FAIL (R268, R269; the tests' cutoffs are opaque constants: log entry 80); RESTART lets it run again;
the DRBG of an engine that is due takes a new seed, or runs on stale while the TRNG is stopped (R267). -/
def Obligations.KeysRetireEntropyFails : Prop :=
  (∀ (s : State) (st ix due : Nat) (w : Bool) (k : KeySlot), keyFind s st w ix = some k → k.retire = some due → due ≤ s.pick.commits →
    domOn s 21 = true → s.inv →
    ∃ t, exec (.keyRetire st w ix) s = .next t ∧ t.sec.keys = s.sec.keys.filter (fun o => !(o == k)) ∧ t.act = s.act ∧
      cntVal t 10 12 = min cntMax (cntVal s 10 12 + (s.sec.keys.filter (fun o => o == k)).length)) ∧
  (∀ (s : State) (raw : BitVec 2048), s.inv → domOn s 21 = true → s.sec.trngStopped = false →
    let rct := (rctScan (rawBits raw) s.sec.rct).2
    (blockOk s raw = true →
      ∃ t, exec (.trngBlock raw) s = .next t ∧
        t.sec = { s.sec with rct := rct, trngFails := 0, trngOk := true, trngOut := Config.sha512 (leBytes 256 raw.toNat) } ∧
        t.cnt = s.cnt ∧ t.selvedge = s.selvedge) ∧
    (blockOk s raw = false → s.sec.trngFails < 2 →
      ∃ t, exec (.trngBlock raw) s = .next t ∧ t.sec = { s.sec with rct := rct, trngFails := s.sec.trngFails + 1 } ∧
        cntVal t 10 13 = min cntMax (cntVal s 10 13 + 1)) ∧
    (blockOk s raw = false → 2 ≤ s.sec.trngFails →
      ∃ t, exec (.trngBlock raw) s = .next t ∧
        t.sec = { s.sec with rct := rct, trngFails := 0, trngStopped := true, trngOk := false } ∧
        s.raises t 0x17 0x060 ∧ cntVal t 10 13 = min cntMax (cntVal s 10 13 + 1))) ∧
  (∀ s : State, hostReach s = true → domOn s 21 = true →
    ∃ t, exec (.trngRestart 15) s = .next t ∧ t.sec = { s.sec with trngFails := 0, trngStopped := false, rct := none }) ∧
  (∀ (s : State) (e : Nat), domOn s 21 = true → e < 4 →
    (drbgDue s e = true → s.sec.trngStopped = true →
      ∃ t, exec (.drbgReseed e) s = .next t ∧ t.sec = { s.sec with stale := t.sec.stale } ∧ t.sec.stale.testBit e = true ∧
        ∀ f, f ≠ e → t.sec.stale.testBit f = s.sec.stale.testBit f) ∧
    (drbgDue s e = true → s.sec.trngStopped = false →
      ∃ t, exec (.drbgReseed e) s = .next t ∧ t.draws = s.draws + 1 ∧ t.sec = { s.sec with
          stale := t.sec.stale, drbg := sput {} s.sec.drbg e ⟨(List.range 48).map (Config.freeByte s.draws), 0⟩ } ∧
        t.sec.stale.testBit e = false ∧ ∀ f, f ≠ e → t.sec.stale.testBit f = s.sec.stale.testBit f) ∧
    (drbgDue s e = false → exec (.drbgReseed e) s = .next s))

/-- Boot: the preferred slot runs if its image passes R274 under the fuse counter, else the other one as a fallback, else none
(R277). -/
def Obligations.BootChoosesGoodImage : Prop :=
  ∀ s : State, s.power.inReset = false → s.sec.chosen = false →
    ∃ t, exec .bootImageChoice s = .next t ∧ t.sec.chosen = true ∧ t.sec.preferred = preferredSlot s ∧
      (imgCheck (flashSlot s (preferredSlot s)) s.sec.otpArb = 0 →
        t.sec.running = preferredSlot s ∧ t.sec.fallback = false ∧ t.sec.noImage = false ∧ t.sec.image = flashSlot s (preferredSlot s)) ∧
      (imgCheck (flashSlot s (preferredSlot s)) s.sec.otpArb ≠ 0 → imgCheck (flashSlot s (!preferredSlot s)) s.sec.otpArb = 0 →
        t.sec.running = !preferredSlot s ∧ t.sec.fallback = true ∧ t.sec.noImage = false ∧
        t.sec.image = flashSlot s (!preferredSlot s)) ∧
      (imgCheck (flashSlot s (preferredSlot s)) s.sec.otpArb ≠ 0 → imgCheck (flashSlot s (!preferredSlot s)) s.sec.otpArb ≠ 0 →
        t.sec.noImage = true ∧ t.sec.image = []) ∧
      t.sec.slotA = s.sec.slotA ∧ t.sec.slotB = s.sec.slotB ∧ t.sec.otpArb = s.sec.otpArb

/-- The SEC commands at their commit point: those with work to do take it up; HOST_KEY loads its slot under a fresh mask or
erases it, OTP_CUST_KEY writes the fuses once, ARB_RAISE with nothing to raise and GCM ABORT complete at once, a GCM request
that breaks R266 ends in ERR_FIELD. -/
def Obligations.SecurityCommandsBegin : Prop :=
  (∀ (s : State) (d : CmdDesc), s.inv → domOn s 21 = true →
    (s.cmdReady d 0x63 = true → exec (.idSign d) s = .next ((s.cmdTaken d).cmdWorks d)) ∧
    (s.cmdReady d 0x64 = true → leAt (cmdData d) 24 4 ≤ 65536 → exec (.sigVerify d) s = .next ((s.cmdTaken d).cmdWorks d)) ∧
    (s.cmdReady d 0x65 = true → exec (.hash d) s = .next ((s.cmdTaken d).cmdWorks d)) ∧
    (s.cmdReady d 0x66 = true → exec (.random d) s = .next ((s.cmdTaken d).cmdWorks d)) ∧
    (s.cmdReady d 0x60 = true → s.sec.job = .none →
      ∃ t, exec (.imageInstall d) s = .next t ∧ t.sec = { s.sec with job := .install 1 [], idJob := t.sec.idJob } ∧
        t.host.work.length = s.host.work.length + 1 ∧ rd t Reg.secImgProg = 0x10000000) ∧
    (s.cmdReady d 0x61 = true → s.sec.job = .none →
      ∃ t, exec (.imageActivate d) s = .next t ∧ t.sec = { s.sec with job := .activate, idJob := t.sec.idJob } ∧
        t.host.work.length = s.host.work.length + 1 ∧ rd t Reg.secImgProg = 0x60000000) ∧
    (s.cmdReady d 0x62 = true → s.sec.job = .none → s.sec.otpArb < runArb s →
      exec (.arbRaise d) s = .next ((s.cmdTaken d).cmdWorks d)) ∧
    (s.cmdReady d 0x62 = true → s.sec.job = .none → runArb s ≤ s.sec.otpArb →
      exec (.arbRaise d) s = .next (cmdFinish d s.pick.point Status.done 0 (s.cmdTaken d))) ∧
    (s.cmdReady d 0x67 = true → (cmdFlags d).testBit 0 = false → trngGives s = true →
      ∃ m, keyOf m = slice (cmdData d) 0 32 ∧ exec (.hostKey d) s = .next (cmdFinish d s.pick.point Status.done 0
        (setSec { s.cmdTaken d with draws := s.draws + 1 } { s.sec with hostKeys := sput {} s.sec.hostKeys (cmdP0 d % 64) m }))) ∧
    (s.cmdReady d 0x67 = true → (cmdFlags d).testBit 0 = false → trngGives s = false →
      exec (.hostKey d) s = .next ((s.cmdTaken d).cmdWorks d)) ∧
    (s.cmdReady d 0x67 = true → (cmdFlags d).testBit 0 = true →
      exec (.hostKey d) s = .next (cmdFinish d s.pick.point Status.done 0 (setSec (s.cmdTaken d)
        { s.sec with hostKeys := sput {} s.sec.hostKeys (cmdP0 d % 64) {} }))) ∧
    (s.cmdReady d 0x69 = true → s.sec.custWritten = false →
      exec (.otpCustKey d) s = .next (cmdFinish d s.pick.point Status.done 0 (setSec (s.cmdTaken d) { s.sec with
        custKey := slice (cmdData d) 0 32, custWritten := true }))) ∧
    (s.cmdReady d 0x69 = true → s.sec.custWritten = true →
      exec (.otpCustKey d) s = .next (cmdFinish d s.pick.point Status.errOtp 0 (s.cmdTaken d)))) ∧
  (∀ (s : State) (d : CmdDesc), domOn s 20 = true → domOn s 21 = true → s.cmdReady d 0x68 = true →
    (gcmBad d s = true → exec (.gcm d) s = .next (cmdFinish d s.pick.point Status.errField 0 (s.cmdTaken d))) ∧
    (gcmBad d s = false →
      (gcmOp d = 3 →
        exec (.gcm d) s = .next (cmdFinish d s.pick.point Status.done 0 (count (setGcmCtx (s.cmdTaken d) (gcmCtx d) none) 10 10))) ∧
      (gcmOp d ≠ 3 → gcmFirst d = true → gcmLast d = false → exec (.gcm d) s = .next ((setSec (s.cmdTaken d) { s.sec with
        lineJobs := 0, ctxs := sput none s.sec.ctxs (gcmCtx d) (some (gcmFresh d s)) }).cmdWorks d)) ∧
      (gcmOp d ≠ 3 → gcmFirst d = false ∨ gcmLast d = true →
        exec (.gcm d) s = .next ((setSec (s.cmdTaken d) { s.sec with lineJobs := 0 }).cmdWorks d))))

/-- COMMAND_WORK_END and RANDOM_ENTROPY_TIMEOUT: hash and signature go to the host, a signature is verified, ARB_RAISE raises
the fuses to the running image's value, RANDOM waits for entropy or times out, HOST_KEY for its mask; IMAGE_INSTALL goes phase
by phase from a header that passes R274 to the signed image in the slot that does not run, an image that fails leaves the slot
as it is, and no erase or program operation starts while PWR_FAIL stands; IMAGE_ACTIVATE loads, and completes once it has
swapped and the boot record is written; a failed read ends in ERR_DMA. -/
def Obligations.CommandWorkEnds : Prop :=
  (∀ (s : State) (r i : Nat) (w : WorkIn) (c : CmdWork), s.host.work.find? (fun c => c.ring == r && c.index == i) = some c →
    w.progress = none →
    (isIdJob c = true → s.sec.idJob ≠ some (r, i) → w.failed = false → exec (.commandWorkEnd r i w) s = .next s) ∧
    (isIdJob c = true → s.sec.idJob = some (r, i) → w.failed = true →
      exec (.commandWorkEnd r i w) s = .next (workEnd (dmaErr s) r i Status.errDma 0)) ∧
    (w.failed = false →
      (c.code = 0x65 → s.sec.idJob = some (r, i) → exec (.commandWorkEnd r i w) s =
        .next (workEnd (dmaWrite s (resultAddr c.desc) (Config.sha512 (w.reads.getD 0 []))) r i Status.done 0)) ∧
      (c.code = 0x63 → s.sec.idJob = some (r, i) → exec (.commandWorkEnd r i w) s =
        .next (workEnd (dmaWrite (drbgUse s 3 1) (resultAddr c.desc) (Config.ed25519Sign s.sec.idSeed (hostPrefix ++ w.reads.getD 0 [])))
          r i Status.done 0)) ∧
      (c.code = 0x64 → s.sec.idJob = some (r, i) → exec (.commandWorkEnd r i w) s = .next (workEnd (drbgUse s 3 1) r i
        (if Config.ed25519Verify (w.reads.getD 0 []) (w.reads.getD 1 []) (w.reads.getD 2 []) then Status.done else Status.errSig) 0)) ∧
      (c.code = 0x62 → s.power.pwrFail = false → exec (.commandWorkEnd r i w) s =
        .next (workEnd (setSec s { s.sec with otpArb := max s.sec.otpArb (runArb s) }) r i Status.done 0)) ∧
      (c.code = 0x62 → s.power.pwrFail = true → exec (.commandWorkEnd r i w) s = .next s) ∧
      (c.code = 0x66 → trngGives s = false ∨ trngAhead s = true → exec (.commandWorkEnd r i w) s = .next s) ∧
      (c.code = 0x66 → trngGives s = true → trngAhead s = false → exec (.commandWorkEnd r i w) s =
        .next (workEnd (dmaWrite { s with draws := s.draws + 1 } (cmdAddr c.desc)
          ((List.range (cmdLen c.desc)).map (Config.freeByte s.draws))) r i Status.done 0)) ∧
      (c.code = 0x67 → trngGives s = true → exec (.commandWorkEnd r i w) s = .next (workEnd (hostKeySet c.desc s) r i Status.done 0)) ∧
      (c.code = 0x68 → exec (.commandWorkEnd r i w) s =
        .next (workEnd (count (gcmWork c.desc w s).2 10 10) r i (gcmWork c.desc w s).1 0)) ∧
      (∀ st det u, c.code = 0x50 → shaperLoadWork w s = (st, det, u) → exec (.commandWorkEnd r i w) s = .next (workEnd u r i st det)) ∧
      (∀ st det u, c.code = 0x70 → draftLoadWork w s = (st, det, u) → exec (.commandWorkEnd r i w) s = .next (workEnd u r i st det)) ∧
      (c.code = 0x60 → s.sec.job = .install 1 [] → w.reads ≠ [] →
        (imgCheck (w.reads.getD 0 []) s.sec.arbTest ≠ 0 → exec (.commandWorkEnd r i w) s =
          .next (workEnd (imgStop s) r i (imgCheck (w.reads.getD 0 []) s.sec.arbTest) 0)) ∧
        (imgCheck (w.reads.getD 0 []) s.sec.arbTest = 0 → s.power.pwrFail = true → exec (.commandWorkEnd r i w) s = .next s) ∧
        (imgCheck (w.reads.getD 0 []) s.sec.arbTest = 0 → s.power.pwrFail = false →
          ∃ t, exec (.commandWorkEnd r i w) s = .next t ∧ t.sec.job = .install 2 ((w.reads.getD 0 []).take 512) ∧
            flashSlot t (targetSlot s) = [] ∧ flashSlot t (!targetSlot s) = flashSlot s (!targetSlot s))) ∧
      (∀ h, c.code = 0x60 → s.power.pwrFail = false → w.flashFail = false →
        (s.sec.job = .install 2 h → ∃ t, exec (.commandWorkEnd r i w) s = .next t ∧ t.sec = { s.sec with job := .install 3 h }) ∧
        (s.sec.job = .install 3 h → w.reads ≠ [] → ∃ t, exec (.commandWorkEnd r i w) s = .next t ∧ t.sec.job = .install 4 h ∧
          flashSlot t (targetSlot s) = List.replicate 512 0xFF ++ (w.reads.getD 0 []).take (leAt h 20 4)) ∧
        (s.sec.job = .install 4 h →
          (Config.sha512 (((flashSlot s (targetSlot s)).drop 512).take (leAt h 20 4)) = slice h 32 64 →
            ∃ t, exec (.commandWorkEnd r i w) s = .next t ∧ t.sec = { s.sec with job := .install 5 h }) ∧
          (Config.sha512 (((flashSlot s (targetSlot s)).drop 512).take (leAt h 20 4)) ≠ slice h 32 64 →
            exec (.commandWorkEnd r i w) s = .next (workEnd (imgStop s) r i Status.errFlash 0))) ∧
        (s.sec.job = .install 5 h → imgSigned (h ++ (flashSlot s (targetSlot s)).drop 512) Config.imageKey = true →
          ∃ t, exec (.commandWorkEnd r i w) s = .next t ∧ t.sec.job = .none ∧
            flashSlot t (targetSlot s) = h ++ (flashSlot s (targetSlot s)).drop 512 ∧
            flashSlot t (!targetSlot s) = flashSlot s (!targetSlot s))) ∧
      (c.code = 0x61 → s.sec.job = .activate →
        ((testSlot s (targetSlot s) s.sec.arbTest).1 = true →
          exec (.commandWorkEnd r i w) s = .next (activateLoaded s)) ∧
        ((testSlot s (targetSlot s) s.sec.arbTest).1 = false → exec (.commandWorkEnd r i w) s =
          .next (workEnd (imgStop (testSlot s (targetSlot s) s.sec.arbTest).2) r i Status.errSig 0))) ∧
      (∀ k, c.code = 0x61 → s.sec.job = .swapped k → s.power.pwrFail = false → w.flashFail = false →
        exec (.commandWorkEnd r i w) s = .next (workEnd (imgStop (writeRec s s.sec.running)) r i Status.done 0)))) ∧
  (∀ (s : State) (r i n : Nat) (w : WorkIn) (c : CmdWork), s.host.work.find? (fun c => c.ring == r && c.index == i) = some c →
    w.progress = some n → c.code ≠ 0x50 → c.code ≠ 0x70 → exec (.commandWorkEnd r i w) s = .next (imgProgress c.code n s)) ∧
  (∀ (s : State) (r i : Nat) (c : CmdWork), s.host.work.find? (fun c => c.ring == r && c.index == i) = some c → c.code = 0x66 →
    trngGives s = false → c.pick ≠ s.pick.point →
    exec (.randomEntropyTimeout r i) s = .next (workEnd s r i Status.errEntropy 0))

/-- Completions keep descriptor order (R366): one whose first descriptor is not the oldest of its ring waits and nothing is
written; the oldest one waits while its CQ has no free entry (R355), else its entry goes to the CQ's producer index with the
phase of the CQ's parity and the mark of a lost notification, and the ring's DONE moves past its last descriptor. -/
def Obligations.CompletionsPostInOrder : Prop :=
  ∀ (s : State) (r : Nat) (w : RingWait), (ringAt s r).kind ≠ .off → (ringAt s r).waits = [] → w.stamp = false → r ≠ (ringAt s r).cq →
    (w.first ≠ (ringAt s r).done →
      (post s r w).out = s.out ∧ ringAt (post s r w) r = { ringAt s r with waits := [w] }) ∧
    (w.first = (ringAt s r).done → cqFree s (ringAt s r).cq = 0 →
      (post s r w).out = s.out ∧ (ringAt (post s r w) r).waits = [w] ∧ (ringAt (post s r w) r).done = (ringAt s r).done) ∧
    (w.first = (ringAt s r).done → 0 < cqFree s (ringAt s r).cq →
      let c := ringAt s (ringAt s r).cq
      (s.out ++ [.completion (ringAt s r).cq c.done (c.base + 32 * (c.done % 2 ^ c.log2)) (!c.parity) c.lost w.entry]) <+: (post s r w).out ∧
      (ringAt (post s r w) r).done = idxNext w.last ∧ (ringAt (post s r w) r).waits = [] ∧
      (ringAt (post s r w) (ringAt s r).cq).done = idxNext c.done ∧ (ringAt (post s r w) (ringAt s r).cq).lost = false)

/-- The ring commands: NOP completes; RING_SETUP refuses a CQ that is none or is the sweep's, then a ring that is not OFF, and
configures the ring; RING_RESIZE changes an idle ring; RING_STOP ends a CQ that no ring names, begins the stop of another ring
and joins a stop under way; CQ_MODERATE and RING_QUERY act on the ring they name; a ring whose completions have all been posted
enters OFF and its RING_STOPs complete. -/
def Obligations.RingCommandsConfigure : Prop :=
  (∀ (s : State) (d : CmdDesc), s.cmdReady d 0x00 = true →
    exec (.nop d) s = .next (cmdFinish d s.pick.point Status.done 0 (s.cmdTaken d))) ∧
  (∀ (s : State) (d : CmdDesc), s.cmdReady d 0x01 = true →
    let r := bits (cmdP0 d) 8 0
    let q := bits (cmdP1 d) 8 0
    (bits (cmdP0 d) 18 16 ≠ 4 → (ringAt s q).kind ≠ .cq ∨ sweepOwns s q = true →
      exec (.ringSetup d) s = .next (cmdFinish d s.pick.point Status.errField 0 (s.cmdTaken d))) ∧
    (bits (cmdP0 d) 18 16 = 4 ∨ ((ringAt s q).kind = .cq ∧ sweepOwns s q = false) → (ringAt s r).state ≠ .off →
      exec (.ringSetup d) s = .next (cmdFinish d s.pick.point Status.busy 0 (s.cmdTaken d))) ∧
    (bits (cmdP0 d) 18 16 ≠ 4 → (ringAt s q).kind = .cq → sweepOwns s q = false → (ringAt s r).state = .off →
      exec (.ringSetup d) s = .next (cmdFinish d s.pick.point Status.done 0 (setRing (s.cmdTaken d) r
        (freshRing (kindOf (bits (cmdP0 d) 18 16)) (bits (cmdP0 d) 28 24) (cmdAddr d) q 0 1 0 false)))) ∧
    (bits (cmdP0 d) 18 16 = 4 → (ringAt s r).state = .off →
      exec (.ringSetup d) s = .next (cmdFinish d s.pick.point Status.done 0 (setRing (s.cmdTaken d) r
        (freshRing .cq (bits (cmdP0 d) 28 24) (cmdAddr d) 0 (bits (cmdP2 d) 7 0) (bits (cmdP2 d) 15 8) (bits (cmdP2 d) 25 16)
          ((cmdP3 d).testBit 0)))))) ∧
  (∀ (s : State) (d : CmdDesc), s.cmdReady d 0x02 = true →
    let r := bits (cmdP0 d) 8 0
    ((ringAt s r).state = .off →
      exec (.ringResize d) s = .next (cmdFinish d s.pick.point Status.errField 0 (s.cmdTaken d))) ∧
    ((ringAt s r).state ≠ .off → (ringAt s r).state = .stopping ∨ r = d.ring ∨ ringIdle (s.cmdTaken d) r = false →
      exec (.ringResize d) s = .next (cmdFinish d s.pick.point Status.busy 0 (s.cmdTaken d))) ∧
    ((ringAt s r).state = .run ∨ (ringAt s r).state = .stalled → r ≠ d.ring → ringIdle (s.cmdTaken d) r = true →
      exec (.ringResize d) s = .next (cmdFinish d s.pick.point Status.done 0 (setRing (s.cmdTaken d) r { ringAt s r with
        log2 := bits (cmdP0 d) 28 24, base := cmdAddr d, db := 0, next := 0, done := 0, parity := false, unsignalled := 0 })))) ∧
  (∀ (s : State) (d : CmdDesc), s.cmdReady d 0x03 = true →
    let r := bits (cmdP0 d) 8 0
    ((ringAt s r).state = .off →
      exec (.ringStop d) s = .next (cmdFinish d s.pick.point Status.done 0 (s.cmdTaken d))) ∧
    ((ringAt s r).state = .stopping →
      ∃ t, exec (.ringStop d) s = .next t ∧ (ringAt t r).stops = (ringAt s r).stops ++ [(d.ring, d.index)]) ∧
    ((ringAt s r).state = .run ∨ (ringAt s r).state = .stalled →
      ((ringAt s r).kind = .cq → ringNamed (s.cmdTaken d) r = false →
        exec (.ringStop d) s = .next (cmdFinish d s.pick.point Status.done 0 (setRing (s.cmdTaken d) r {}))) ∧
      ((ringAt s r).kind = .cq → ringNamed (s.cmdTaken d) r = true →
        exec (.ringStop d) s = .next (cmdFinish d s.pick.point Status.busy 0 (s.cmdTaken d))) ∧
      ((ringAt s r).kind ≠ .cq → r ≠ d.ring →
        ∃ t, exec (.ringStop d) s = .next t ∧ (ringAt t r).state = .stopping ∧ (ringAt t r).stops = [(d.ring, d.index)] ∧
          (ringAt t r).posted = []))) ∧
  (∀ (s : State) (d : CmdDesc), s.cmdReady d 0x04 = true →
    let r := bits (cmdP0 d) 8 0
    ((ringAt s r).kind ≠ .cq →
      exec (.cqModerate d) s = .next (cmdFinish d s.pick.point Status.errField 0 (s.cmdTaken d))) ∧
    ((ringAt s r).kind = .cq →
      exec (.cqModerate d) s = .next (cmdFinish d s.pick.point Status.done 0 (signalCq (setRing (s.cmdTaken d) r { ringAt s r with
        vector := bits (cmdP2 d) 7 0, modCount := bits (cmdP2 d) 15 8, modTime := bits (cmdP2 d) 25 16, irqEn := (cmdP3 d).testBit 0 }) r)))) ∧
  (∀ (s : State) (d : CmdDesc), s.cmdReady d 0x05 = true →
    exec (.ringQuery d) s = .next (cmdFinish d s.pick.point Status.done 0
      (dmaWrite (s.cmdTaken d) (cmdAddr d) (ringRecord (ringAt s (bits (cmdP0 d) 8 0)))))) ∧
  (∀ (s : State) (r : Nat), (ringAt s r).state = .stopping → (ringAt s r).waits = [] → (ringAt s r).chain = [] →
    (ringAt s r).next = (ringAt s r).done → (ringAt s r).stamps = 0 → s.host.work.any (fun w => w.ring == r) = false →
    s.host.cmds.any (fun c => c.desc.ring == r) = false →
    exec (.ringEntersOff r) s =
      .next ((ringAt s r).stops.foldl (fun t e => workEnd t e.1 e.2 Status.done 0) (setRing s r {})))

/-- Doorbells and descriptors: an allowed kick fetches its block once, within the requests that R367 leaves, and remembers a
kick that meets a fetch in flight; a kick that its page does not allow only counts; a returned INDEX inside the ring moves the
doorbell index, another is discarded and counted; a descriptor whose phase does not match is read again after 2 µs, at most 16
times before the ring stalls and reports it; one that matches on a CMD ring joins the validated commands. -/
def Obligations.DoorbellsFetchDescriptors : Prop :=
  (∀ (s : State) (p b : Nat), s.inv → hostReach s = true → p < 4 → b < 8 → hostRuns s = true → s.host.again = [] →
    ((fld s (Reg.hostKickMap p) 7 0).testBit b = true → s.host.inFlight.contains b = false → 0 < reqRoom s 0 →
      ∃ t, exec (.hostKick p 15 (BitVec.ofNat 32 (2 ^ b))) s = .next t ∧ t.host.inFlight = s.host.inFlight ++ [b] ∧
        t.out = s.out ++ [.doorbellFetch b (dbAddr s b)] ∧ cntVal t 14 0 = min cntMax (cntVal s 14 0 + 1) ∧ t.host.again = []) ∧
    ((fld s (Reg.hostKickMap p) 7 0).testBit b = true → s.host.inFlight.contains b = true ∨ reqRoom s 0 = 0 →
      ∃ t, exec (.hostKick p 15 (BitVec.ofNat 32 (2 ^ b))) s = .next t ∧ t.host.again = [b] ∧ t.out = s.out ∧
        t.host.inFlight = s.host.inFlight) ∧
    ((fld s (Reg.hostKickMap p) 7 0).testBit b = false →
      ∃ t, exec (.hostKick p 15 (BitVec.ofNat 32 (2 ^ b))) s = .next t ∧ t.host = s.host ∧ t.out = s.out ∧
        cntVal t 14 1 = min cntMax (cntVal s 14 1 + 1))) ∧
  (∀ (s : State) (b : Nat), s.host.inFlight.contains b = true →
    (exec (.doorbellFetchDone b none) s =
      .next (issueFetches (dmaErr (setHost s { s.host with inFlight := s.host.inFlight.filter (· != b) })))) ∧
    (∀ d : List Byte, exec (.doorbellFetchDone b (some d)) s = .next (issueFetches
      ((List.range 64).foldl (fun t k => acceptIndex t (64 * b + k) (leAt d (4 * k) 2))
        (setHost s { s.host with inFlight := s.host.inFlight.filter (· != b) }))))) ∧
  (∀ (s : State) (r idx : Nat), s.inv → isProduced (ringAt s r).kind = true → (ringAt s r).state = .run →
    (2 ^ (ringAt s r).log2 - 1 < idxSub idx (ringAt s r).done ∨
        idxSub idx (ringAt s r).done < idxSub (ringAt s r).db (ringAt s r).done →
      (acceptIndex s r idx).host = s.host ∧ cntVal (acceptIndex s r idx) 14 3 = min cntMax (cntVal s 14 3 + 1) ∧
        flag (acceptIndex s r idx) Reg.hostStat 10 = true) ∧
    (idxSub idx (ringAt s r).done ≤ 2 ^ (ringAt s r).log2 - 1 →
      idxSub (ringAt s r).db (ringAt s r).done ≤ idxSub idx (ringAt s r).done → (ringAt (acceptIndex s r idx) r).db = idx)) ∧
  (∀ (s : State) (r w : Nat) (prep : Option (List Byte)) (late : Bool), (ringAt s r).reading = true → (ringAt s r).state = .run →
    0 < cqFree s (ringAt s r).cq → (ringAt s r).cq ≠ r →
    (w.testBit 255 = (ringAt s r).parity → (ringAt s r).retry < 16 →
      ∃ t, exec (.descriptorReadDone r ⟨some w, prep, late⟩) s = .next t ∧
        ringAt t r = { ringAt s r with reading := false, arrived := none, mism := true } ∧ t.out = s.out) ∧
    (w.testBit 255 = (ringAt s r).parity → 16 ≤ (ringAt s r).retry →
      ∃ t, exec (.descriptorReadDone r ⟨some w, prep, late⟩) s = .next t ∧ (ringAt t r).state = .stalled ∧
        flag t Reg.hostStat 11 = true ∧ s.raises t 0x1E 0x050) ∧
    (w.testBit 255 ≠ (ringAt s r).parity → (ringAt s r).kind = .cmd →
      ∃ t, exec (.descriptorReadDone r ⟨some w, prep, late⟩) s = .next t ∧
        t.host.cmds = s.host.cmds ++ [⟨⟨r, (ringAt s r).next, w, prep⟩, late⟩] ∧
        (ringAt t r).next = idxNext (ringAt s r).next ∧ (ringAt t r).retry = 0)) ∧
  (∀ (s : State) (r : Nat), (ringAt s r).mism = true → (ringAt s r).state = .run →
    (hostRuns s = true → 0 < reqRoom s 0 →
      exec (.descriptorReread r) s = .next (emit (count (setRing s r { ringAt s r with
          mism := false, reading := true, retry := (ringAt s r).retry + 1 }) 14 5)
        (.descriptorFetch r (ringAt s r).next ((ringAt s r).base + 32 * ((ringAt s r).next % 2 ^ (ringAt s r).log2))))) ∧
    (hostRuns s = false ∨ reqRoom s 0 = 0 → exec (.descriptorReread r) s = .next s))

/-- Sends, moderation and the function: a send that breaks a rule of R347 completes ERR_FIELD; of another one the data is asked
for, and a failed read completes ERR_DMA, a template that R316 refuses ERR_SEG, a plain frame completes and goes to Heddle, a
DIRECT one goes through Heddle first and completes when Reed has it, a segmented send offers one segment a turn; the moderation
timer sends the CQ's message; configuration writes are answered with Request Retry Status before READY, and leave Bus Master
Enable and the rest of the configuration space as written; a function reset leaves no ring, no command and no work, MSI-X,
configuration space and the HOST registers at their reset values; HOST_CMD_CFG is staged, or refused whole while it is enabled.
-/
def Obligations.HostFunctionServes : Prop :=
  (∀ (s : State) (r : Nat) (c : List (Nat × Nat)) (data : Option (List Byte)), (ringAt s r).kind = .tx → hostRuns s = true →
    firstSend (ringAt s r).chain = some c → 0 < cqFree s (ringAt s r).cq →
    let q := startReads s r
    let w := (c.head?.map (·.2)).getD 0
    let first := (c.head?.map (·.1)).getD 0
    let last := (c.getLast?.map (·.1)).getD 0
    (sendBad c = true → exec (.txSend r data) s = .next (endSend s r c Status.errField 0)) ∧
    (sendBad c = false → (ringAt s r).asked = false → reqRoom s 2 = 0 → exec (.txSend r data) s = .next s) ∧
    (sendBad c = false → (ringAt s r).asked = true ∨ 0 < reqRoom s 2 →
      ((ringAt s r).data = none → data = none → exec (.txSend r data) s = .next (endSend (dmaErr q) r c Status.errDma 0)) ∧
      (∀ l : List Byte, (ringAt s r).data.or data = some l →
        let d := slice l 0 (sendLen c)
        let t := setRing q r { ringAt q r with reqs := 0, data := some d }
        (w.testBit 253 = false → w.testBit 252 = false → w.testBit 250 = false →
          exec (.txSend r data) s = .next (heddleInput (endSend t r c Status.done d.length) (sendFrame s r first last w d))) ∧
        (w.testBit 253 = false → w.testBit 252 = false → w.testBit 250 = true →
          exec (.txSend r data) s = .next (heddleInput (sendOut t r c) (sendFrame s r first last w d))) ∧
        (w.testBit 253 = true → segBad t d (bits w 119 112) (bits w 109 96) = true →
          exec (.txSend r data) s = .next (endSend t r c Status.errSeg 0)) ∧
        (w.testBit 253 = true → segBad t d (bits w 119 112) (bits w 109 96) = false → fifoRoom t 1536 = true →
          (ringAt s r).sent + 1 < segCount (d.length - bits w 119 112) (bits w 109 96) →
          ∃ u, exec (.txSend r data) s = .next u ∧ (ringAt u r).sent = (ringAt s r).sent + 1 ∧ (ringAt u r).data = some d)))) ∧
  (∀ (s : State) (c : Nat), isCqRun s c = true → (ringAt s c).irqEn = true → (ringAt s c).armed = true →
    0 < (ringAt s c).unsignalled → (ringAt s c).modTime ≠ 0 →
    exec (.msixModTimer c) s = .next (sendMsix (setRing s c { ringAt s c with armed := false, unsignalled := 0 }) (ringAt s c).vector)) ∧
  (∀ (s : State) (w g : Nat) (cfg : PcieCfg), s.inv → s.power.inReset = false →
    (s.power.ready = false → ∀ en, exec (.busMasterEnable en w g cfg) s = .next (emit s .configRetry)) ∧
    (s.power.ready = true →
      (∃ t, exec (.busMasterEnable false w g cfg) s = .next t ∧
        t.host = { s.host with bme := false, linkUp := true, width := w % 8, speed := g % 16, pcie := cfg
                               msixPending := t.host.msixPending } ∧ flag t Reg.hostStat 8 = false) ∧
      (∃ t, exec (.busMasterEnable true w g cfg) s = .next t ∧ t.host.bme = true ∧ t.host.linkUp = true ∧ t.host.pcie = cfg ∧
        flag t Reg.hostStat 8 = true))) ∧
  (∀ (s : State) (down : Bool), s.inv →
    ∃ t, exec (.hostFunctionReset down) s = .next t ∧ t.host.rings = [] ∧ t.host.cmds = [] ∧ t.host.work = [] ∧
      t.host.msixTable = [] ∧ t.host.msixPending = [] ∧ t.host.bme = false ∧ t.host.pcie = {} ∧ t.host.aer = 0 ∧
      t.host.linkUp = (s.host.linkUp && !down) ∧ t.sec.job = .none ∧ t.sec.idJob = none ∧ t.sec.keys = s.sec.keys ∧
      rd t Reg.hostCtrl = 0 ∧ (∀ n, n < 0x100000 → cntVal t 14 n = 0) ∧ (∀ c, (chanAt t c).job = none ∨ 16 ≤ c) ∧ t.out = s.out) ∧
  (∀ (s : State) (v : Word), s.inv → hostReach s = true → domOn s 3 = true →
    (flag s Reg.hostCmdCfg 31 = true → v.toNat.testBit 31 = true → v.toNat ≠ rdS s Reg.hostCmdCfg →
      ∃ t, exec (.hostCmdCfgWrite false 15 v) s = .next t ∧ s.regSame t Reg.hostCmdCfg ∧ s.raises t 0x1E 0x001) ∧
    (flag s Reg.hostCmdCfg 31 = false → 6 ≤ bits v.toNat 20 16 → bits v.toNat 20 16 ≤ 16 →
      ∃ t, exec (.hostCmdCfgWrite false 15 v) s = .next t ∧ fldS t Reg.hostCmdCfg 20 16 = bits v.toNat 20 16 ∧
        (rdS t Reg.hostCmdCfg).testBit 31 = v.toNat.testBit 31 ∧ rd t Reg.hostCmdCfg = rd s Reg.hostCmdCfg))

/-- COPY, FILL and COMPARE start the oldest descriptor of the channel's ring if it has their OP: a descriptor that passes the
tests of R374 becomes the channel's job, one that fails completes with the first failing test's status and moves nothing; a
WIN_RESET that waited for the job's end closes the windows first (R378). SHUTTLE_BURST, SHUTTLE_DESC_DONE, ABORT and WIN_RESET:
the burst of the channel that the arbiter picks moves at most 4,096 bytes and counts in the job, the job is done when all its
bytes have moved; a burst that meets poisoned DRAM or a failed read ends the job and moves nothing; an ended job's completion is
posted and frees the channel; ABORT ends a job, WIN_RESET closes the windows at once or, while a job runs, before the next
descriptor. -/
def Obligations.ShuttleMovesData : Prop :=
  (∀ (s : State) (c i w : Nat) (rest : List (Nat × Nat)), c < 16 → chanServes s c = true → (chanAt s c).job = none →
    (ringAt s (chanRing s c)).kind = .shuttle → 0 < cqFree s (ringAt s (chanRing s c)).cq →
    (ringAt s (chanRing s c)).chain = (i, w) :: rest →
    let k := if (chanAt s c).winReset then { chanAt s c with src := none, dst := none, winReset := false } else chanAt s c
    let t := setRing s (chanRing s c) { ringAt s (chanRing s c) with chain := rest }
    let started := setChan t c { k with job := some { ring := chanRing s c, index := i, word := w }
                                        src := openWin w false k.src, dst := openWin w true k.dst }
    (shTest s w = none →
      (shOp w = 0 → exec (.copy c) s = .next started) ∧ (shOp w = 1 → exec (.fill c) s = .next started) ∧
      (shOp w = 2 → exec (.compare c) s = .next started)) ∧
    (∀ st, shTest s w = some st →
      (shOp w = 0 → exec (.copy c) s = .next (shComplete (setChan t c k) c (chanRing s c) i w st 0 none)) ∧
      (shOp w = 1 → exec (.fill c) s = .next (shComplete (setChan t c k) c (chanRing s c) i w st 0 none)) ∧
      (shOp w = 2 → exec (.compare c) s = .next (shComplete (setChan t c k) c (chanRing s c) i w st 0 none))) ∧
    (shOp w ≤ 2 → (shOp w ≠ 0 → exec (.copy c) s = .next s) ∧ (shOp w ≠ 1 → exec (.fill c) s = .next s) ∧
      (shOp w ≠ 2 → exec (.compare c) s = .next s))) ∧
  ((∀ (s : State) (c : Nat) (b : BurstIn) (j : ShJob), shPick s = some c → (chanAt s c).job = some j → srising 0 s.shuttle.chans = true →
    let n := (shBurst j (chanAt s c)).1
    n ≤ 4096 ∧
    (b.memErr = none → b.src.isSome = true → b.dst.isSome = true →
      ∃ t j', exec (.shuttleBurst b) s = .next t ∧ t.shuttle.rr = c ∧ (chanAt t c).job = some j' ∧ j'.bytes = j.bytes + n ∧
        (j'.bytes = shLen j.word → j'.status.isSome = true) ∧ ∀ c', c' ≠ c → (chanAt t c').job = (chanAt s c').job) ∧
    (burstHit j.word n (shBurst j (chanAt s c)).2.1 (shBurst j (chanAt s c)).2.2 b.memErr = true →
      ∃ t, exec (.shuttleBurst b) s = .next t ∧ (chanAt t c).job = some { j with status := some 0x43 } ∧ t.dram = s.dram ∧
        t.cnt = s.cnt ∧ ((s.selvedge.waiting.filter (fun q => q.source == 0x1F)).length < 8 →
          ∃ ctx, t.selvedge.waiting = s.selvedge.waiting ++ [⟨codeClass 0x1F 0x012, 0x1F, 0x012, ctx, 0x0E, 0x011⟩])) ∧
    (b.memErr = none → b.src = none → shHasSrc j.word = true → shSpace j.word false = 0 →
      ∃ t, exec (.shuttleBurst b) s = .next t ∧ (chanAt t c).job = some { j with status := some Status.errDma } ∧
        t.dram = s.dram)) ∧
  (∀ (s : State) (b : BurstIn), shPick s = none → exec (.shuttleBurst b) s = .next s) ∧
  (∀ (s : State) (c st : Nat) (j : ShJob), c < 16 → (chanAt s c).job = some j → j.status = some st →
    (ringAt s (chanRing s c)).chain = [] → srising 0 s.shuttle.chans = true →
    ∃ t, exec (.shuttleDescDone c) s = .next t ∧ (chanAt t c).job = none ∧ (chanAt t c).src = (chanAt s c).src ∧
      ∀ c', c' ≠ c → chanAt t c' = chanAt s c') ∧
  (∀ (s : State) (c : Nat), c < 16 → hostReach s = true → domOn s 3 = true → srising 0 s.shuttle.chans = true →
    (∀ j, (chanAt s c).job = some j → j.status = none →
      ∃ t, exec (.abort c 15) s = .next t ∧ (chanAt t c).job = some { j with status := some 0x44 }) ∧
    ((chanAt s c).job = none →
      ∃ t, exec (.winReset c 15) s = .next t ∧ (chanAt t c).src = none ∧ (chanAt t c).dst = none) ∧
    ((chanAt s c).job.isSome = true →
      ∃ t, exec (.winReset c 15) s = .next t ∧ chanAt t c = { chanAt s c with winReset := true })))

/-- Data instructions (R391, R392, R395): the sixteen-bit operations wrap modulo 2^16 and shift arithmetically; CMP sets Z and N
and writes nothing; the multiplies, shifts and moves of the accumulators clip or round as the rules say. Where the difference of
CMP leaves 16 bits N is a free value, and where NEG, ABS, ADDA or SUBA leaves 40 bits the value and AOV are (log entry 10,
DESIGN CHOICE): those clauses hold for every value of the field. -/
def Obligations.SkeinComputes : Prop :=
  (∀ (s : State) (c d r n : Nat), let k := coreAt s c
    (s.skRuns c (.dop 0 d r n) = true → exec (.mov c) s = .next (s.skDone c (setD k d (dAt k r)))) ∧
    (s.skRuns c (.dop 1 d r n) = true → exec (.add c) s = .next (s.skDone c (setD k d (dAt k d + dAt k r)))) ∧
    (s.skRuns c (.dop 2 d r n) = true → exec (.sub c) s = .next (s.skDone c (setD k d (dAt k d - dAt k r)))) ∧
    (s.skRuns c (.dop 3 d r n) = true → exec (.and c) s = .next (s.skDone c (setD k d (dAt k d &&& dAt k r)))) ∧
    (s.skRuns c (.dop 4 d r n) = true → exec (.or c) s = .next (s.skDone c (setD k d (dAt k d ||| dAt k r)))) ∧
    (s.skRuns c (.dop 5 d r n) = true → exec (.xor c) s = .next (s.skDone c (setD k d (dAt k d ^^^ dAt k r)))) ∧
    (s.skRuns c (.dop 6 d r n) = true → exec (.shlData c) s = .next (s.skDone c (setD k d (dAt k d <<< n)))) ∧
    (s.skRuns c (.dop 7 d r n) = true → exec (.shrData c) s = .next (s.skDone c (setD k d ((dAt k d).sshiftRight n)))) ∧
    (s.skRuns c (.dop 8 d r n) = true →
      ∃ neg dr, exec (.cmp c) s = .next ({ s with draws := dr }.skDone c (setSr (setSr k 0 (dAt k d == dAt k r)) 1 neg)) ∧
        (-32768 ≤ (dAt k d).toInt - (dAt k r).toInt → (dAt k d).toInt - (dAt k r).toInt ≤ 32767 →
          neg = (dAt k d).slt (dAt k r) ∧ dr = s.draws)) ∧
    (s.skRuns c (.ldi r n) = true → exec (.ldi c) s = .next (s.skDone c (setD k r (BitVec.ofNat 16 n)))) ∧
    (s.skRuns c .nop = true → exec (.skeinNop c) s = .next (s.skDone c k))) ∧
  (∀ (s : State) (c a p q : Nat) (ld : Bool) (r sr i mi j mj : Nat), let k := coreAt s c
    let v := 2 * (dAt k p).toInt * (dAt k q).toInt
    let loaded := fun (t : SkCore) (x y : Nat) => setX (setX (setD (setD t r (dataAt k i (xAt k i))) (8 + sr)
      (dataAt k (4 + j) (xAt k (4 + j)))) i x) (4 + j) y
    (ld = false →
      (s.skRuns c (.macx 0 a p q ld r sr i mi j mj) = true → exec (.mpy c) s = .next (s.skDone c (accPut k a v))) ∧
      (s.skRuns c (.macx 1 a p q ld r sr i mi j mj) = true → exec (.mac c) s = .next (s.skDone c (accPut k a ((aAt k a).toInt + v)))) ∧
      (s.skRuns c (.macx 2 a p q ld r sr i mi j mj) = true → exec (.msu c) s = .next (s.skDone c (accPut k a ((aAt k a).toInt - v))))) ∧
    (ld = true → ∀ x y, skModify (xAt k i) (mAt k i) mi = some x → skModify (xAt k (4 + j)) (mAt k (4 + j)) mj = some y →
      (s.skRuns c (.macx 0 a p q ld r sr i mi j mj) = true → exec (.mpy c) s = .next (s.skDone c (loaded (accPut k a v) x y))) ∧
      (s.skRuns c (.macx 1 a p q ld r sr i mi j mj) = true →
        exec (.mac c) s = .next (s.skDone c (loaded (accPut k a ((aAt k a).toInt + v)) x y))) ∧
      (s.skRuns c (.macx 2 a p q ld r sr i mi j mj) = true →
        exec (.msu c) s = .next (s.skDone c (loaded (accPut k a ((aAt k a).toInt - v)) x y)))) ∧
    (ld = true → skModify (xAt k i) (mAt k i) mi = none ∨ skModify (xAt k (4 + j)) (mAt k (4 + j)) mj = none →
      (s.skRuns c (.macx 0 a p q ld r sr i mi j mj) = true → exec (.mpy c) s = .next (faultCore s c 1)) ∧
      (s.skRuns c (.macx 1 a p q ld r sr i mi j mj) = true → exec (.mac c) s = .next (faultCore s c 1)) ∧
      (s.skRuns c (.macx 2 a p q ld r sr i mi j mj) = true → exec (.msu c) s = .next (faultCore s c 1)))) ∧
  (∀ (s : State) (c a r n : Nat), let k := coreAt s c
    let v := (aAt k a).toInt
    (s.skRuns c (.aop 0 a r n) = true → exec (.clr c) s = .next (s.skDone c (setA k a 0))) ∧
    (s.skRuns c (.aop 5 a r n) = true → exec (.shlAcc c) s = .next (s.skDone c (accPut k a (v * 2 ^ n)))) ∧
    (s.skRuns c (.aop 6 a r n) = true → exec (.shrAcc c) s = .next (s.skDone c (setA k a ((aAt k a).sshiftRight n)))) ∧
    (s.skRuns c (.aop 9 a r n) = true → exec (.lda c) s = .next (s.skDone c (setA k a ((dAt k r).signExtend 40 <<< 16)))) ∧
    (s.skRuns c (.aop 10 a r n) = true →
      exec (.sat32 c) s = .next (s.skDone c (setA k a (BitVec.ofInt 40 (max (-2147483648) (min 2147483647 v)))))) ∧
    (s.skRuns c (.aop 7 a r n) = true → let x := (v + 0x8000) / 65536
      (-32768 ≤ x → x ≤ 32767 → exec (.movr c) s = .next (s.skDone c (setD k r (BitVec.ofInt 16 x)))) ∧
      (32767 < x → exec (.movr c) s = .next (s.skDone c (setSr (setD k r 0x7FFF) 2 true))) ∧
      (x < -32768 → exec (.movr c) s = .next (s.skDone c (setSr (setD k r 0x8000) 2 true)))) ∧
    (s.skRuns c (.aop 8 a r n) = true → let x := v / 65536
      (-32768 ≤ x → x ≤ 32767 → exec (.movt c) s = .next (s.skDone c (setD k r (BitVec.ofInt 16 x)))) ∧
      (32767 < x → exec (.movt c) s = .next (s.skDone c (setSr (setD k r 0x7FFF) 2 true))) ∧
      (x < -32768 → exec (.movt c) s = .next (s.skDone c (setSr (setD k r 0x8000) 2 true)))) ∧
    (s.skRuns c (.aop 1 a r n) = true →
      (-549755813888 < v → exec (.neg c) s = .next (s.skDone c (setA k a (BitVec.ofInt 40 (-v))))) ∧
      (v ≤ -549755813888 → ∃ w aov, exec (.neg c) s =
        .next ({ s with draws := s.draws + 2 }.skDone c (setSr (setA k a w) 3 (srBit k 3 || aov))))) ∧
    (s.skRuns c (.aop 2 a r n) = true →
      (-549755813888 < v → exec (.abs c) s = .next (s.skDone c (setA k a (BitVec.ofInt 40 (if v < 0 then -v else v))))) ∧
      (v ≤ -549755813888 → ∃ w aov, exec (.abs c) s =
        .next ({ s with draws := s.draws + 2 }.skDone c (setSr (setA k a w) 3 (srBit k 3 || aov))))) ∧
    (s.skRuns c (.aop 3 a r n) = true → let x := v + (aAt k (1 - a)).toInt
      (-549755813888 ≤ x → x ≤ 549755813887 → exec (.adda c) s = .next (s.skDone c (setA k a (BitVec.ofInt 40 x)))) ∧
      (x < -549755813888 ∨ 549755813887 < x → ∃ w aov, exec (.adda c) s =
        .next ({ s with draws := s.draws + 2 }.skDone c (setSr (setA k a w) 3 (srBit k 3 || aov))))) ∧
    (s.skRuns c (.aop 4 a r n) = true → let x := v - (aAt k (1 - a)).toInt
      (-549755813888 ≤ x → x ≤ 549755813887 → exec (.suba c) s = .next (s.skDone c (setA k a (BitVec.ofInt 40 x)))) ∧
      (x < -549755813888 ∨ 549755813887 < x → ∃ w aov, exec (.suba c) s =
        .next ({ s with draws := s.draws + 2 }.skDone c (setSr (setA k a w) 3 (srBit k 3 || aov)))))) ∧
  (∀ (k : SkCore) (a : Nat) (v : Int), a < 2 →
    (aAt (accPut k a v) a).toInt = max (-549755813888) (min 549755813887 v) ∧
    srBit (accPut k a v) 3 = (srBit k 3 || decide (v < -549755813888 ∨ 549755813887 < v)))

/-- Memory, index and special-register instructions (R393, R394, R399, R400): LD and ST reach the word that Xn addresses and
post-modify Xn; an update under a reserved mode, a bit-reversed FTAP and a special register that the core lacks fault with cause
ILLEGAL, a tap-bus access that the core may not make with cause TAP; a write of shadow coefficients waits while a swap is
pending (R402). What MVS reads of HSIG and the length that a CWIN of 0 gives are free values (log entry 10, DESIGN CHOICE). -/
def Obligations.SkeinMovesData : Prop :=
  (∀ (s : State) (c r n md : Nat), let k := coreAt s c
    (∀ x, skModify (xAt k n) (mAt k n) md = some x →
      (s.skRuns c (.ld r n md) = true → exec (.ld c) s = .next (s.skDone c (setX (setD k r (dataAt k n (xAt k n))) n x))) ∧
      (s.skRuns c (.st r n md) = true → exec (.st c) s = .next (s.skDone c (setX (setData k n (xAt k n) (dAt k r)) n x)))) ∧
    (skModify (xAt k n) (mAt k n) md = none →
      (s.skRuns c (.ld r n md) = true → exec (.ld c) s = .next (faultCore s c 1)) ∧
      (s.skRuns c (.st r n md) = true → exec (.st c) s = .next (faultCore s c 1)))) ∧
  (∀ (s : State) (c n v : Nat), let k := coreAt s c
    (s.skRuns c (.ldx n v) = true → exec (.ldx c) s = .next (s.skDone c (setX k n v))) ∧
    (s.skRuns c (.ldm n v) = true → exec (.ldm c) s = .next (s.skDone c (setM k n v))) ∧
    (s.skRuns c (.addx n v) = true →
      (∀ x, skUpdate (xAt k n) (mAt k n) (BitVec.ofNat 14 v).toInt = some x → exec (.addx c) s = .next (s.skDone c (setX k n x))) ∧
      (skUpdate (xAt k n) (mAt k n) (BitVec.ofNat 14 v).toInt = none → exec (.addx c) s = .next (faultCore s c 1)))) ∧
  (∀ (s : State) (c a p q i mi j mj : Nat) (sub : Bool), let k := coreAt s c
    let w := dataAt k i (xAt k i)
    let v := 2 * (dAt k p).toInt * (dAt k q).toInt
    s.skRuns c (.ftap sub a p q i mi j mj) = true →
    (mAt k i < 0x8000 → ∀ up x y, skUpdate (xAt k i) (mAt k i) 1 = some up → skModify (xAt k i) (mAt k i) mi = some x →
      skModify (xAt k (4 + j)) (mAt k (4 + j)) mj = some y →
      exec (.ftap c) s = .next (s.skDone c (setX (setX (setD (setData (setD (accPut k a ((aAt k a).toInt + if sub then -v else v))
        p w) i up w) q (dataAt k (4 + j) (xAt k (4 + j)))) i x) (4 + j) y))) ∧
    (0x8000 ≤ mAt k i → exec (.ftap c) s = .next (faultCore s c 1))) ∧
  (∀ (s : State) (c r n : Nat), let k := coreAt s c
    (s.skRuns c (.mvs r n) = true →
      (∀ e ∈ [(0, k.sr), (1, BitVec.ofNat 16 k.lc), (2, BitVec.ofNat 16 k.ls), (3, BitVec.ofNat 16 k.le), (4, BitVec.ofNat 16 k.ipc),
          (5, k.isr), (6, k.ien.setWidth 16), (7, k.ipend.setWidth 16), (8, BitVec.ofNat 16 s.pick.count),
          (9, BitVec.ofNat 16 (min 0xFFFF (s.now - s.pick.began))), (10, BitVec.ofNat 16 c)], n = e.1 →
        exec (.mvs c) s = .next (s.skDone c (setD k r e.2))) ∧
      (11 ≤ n → c ≠ 3 → exec (.mvs c) s = .next (faultCore s c 1)) ∧
      (c = 3 → n = 11 → ∃ w, exec (.mvs c) s = .next ({ s with draws := s.draws + 1 }.skDone c (setD k r w))) ∧
      (c = 3 → 12 ≤ n → n ≤ 15 → exec (.mvs c) s = .next (faultCore s c 1)) ∧
      (c = 3 → 16 ≤ n → n ≤ 23 →
        exec (.mvs c) s = .next (s.skDone c (setD k r (BitVec.ofNat 16 (rd s (Reg.skeinMboxIn (n - 16))))))) ∧
      (c = 3 → 24 ≤ n → n ≤ 31 →
        exec (.mvs c) s = .next (s.skDone c (setD k r (BitVec.ofNat 16 (rd s (Reg.skeinMboxOut (n - 24)))))))) ∧
    (s.skRuns c (.msv r n) = true → let v := dAt k r
      (∀ e ∈ [(0, { k with sr := v &&& 0x3F }), (1, { k with lc := v.toNat }), (2, { k with ls := v.toNat }), (3, { k with le := v.toNat }),
          (4, { k with ipc := v.toNat }), (5, { k with isr := v }), (6, { k with ien := v.setWidth 8 }),
          (7, { k with ipend := k.ipend &&& ~~~(v.setWidth 8) })], n = e.1 →
        exec (.msv c) s = .next (s.skDone c e.2)) ∧
      (8 ≤ n → c ≠ 3 ∨ n ≠ 11 ∧ n ≤ 23 → exec (.msv c) s = .next (faultCore s c 1)) ∧
      (c = 3 → 24 ≤ n → n ≤ 31 → exec (.msv c) s = .next ((setReg s (Reg.skeinMboxOut (n - 24)) v.toNat).skDone c k)) ∧
      (c = 3 → n = 11 → flag s Reg.skeinMboxCtrl 29 = true → exec (.msv c) s = .next (s.skDone c k)) ∧
      (c = 3 → n = 11 → flag s Reg.skeinMboxCtrl 29 = false →
        let t := setBit s Reg.skeinMboxCtrl 29
        exec (.msv c) s = .next ((if flag t Reg.skeinMboxCtrl 30 then sendMsix t (fld t Reg.skeinMboxCtrl 7 0) else t).skDone c k)))) ∧
  (∀ (s : State) (c r adr : Nat), let k := coreAt s c
    (s.skRuns c (.trd r adr) = true →
      (c = 3 → exec (.trd c) s = .next (faultCore s c 5)) ∧
      (c ≠ 3 → adr ≠ 0xC2 → exec (.trd c) s = .next (s.skDone c (setD k r (tapRead s adr)))) ∧
      (c ≠ 3 → domOn s 5 = true → adr = 0xC2 → exec (.trd c) s = .next
        ({ s with warp := { s.warp with swapDone := false, swapRej := false } }.skDone c (setD k r (tapRead s adr)))) ∧
      (c ≠ 3 → domOn s 5 = false → exec (.trd c) s = .next (s.skDone c (setD k r 0)))) ∧
    (s.skRuns c (.twr r adr) = true →
      (c ≠ 0 → exec (.twr c) s = .next (faultCore s c 5)) ∧
      (c = 0 → 0x40 ≤ adr → adr ≤ 0x61 → s.warp.swapPend = true → exec (.twr c) s = .next s) ∧
      (c = 0 → domOn s 5 = true → adr = 0xC2 → (dAt k r).toNat % 2 = 1 →
        exec (.twr c) s = .next ({ s with warp := { s.warp with swapPend := true } }.skDone c k)) ∧
      (c = 0 → domOn s 5 = true → adr = 0xC1 → (dAt k r).toNat % 2 = 1 →
        exec (.twr c) s = .next ({ s with warp := { s.warp with winRun := true } }.skDone c k)) ∧
      (c = 0 → domOn s 5 = true → adr = 0xC0 → dAt k r ≠ 0 →
        exec (.twr c) s = .next ({ s with warp := { s.warp with cwin := (dAt k r).toNat } }.skDone c k)) ∧
      (c = 0 → domOn s 5 = true → 0x40 ≤ adr → adr ≤ 0x61 → s.warp.swapPend = false →
        ∃ t : State, exec (.twr c) s = .next (t.skDone c k) ∧ t.warp.shadow.length = 34 ∧
          (∀ n < 34, t.warp.shadow.getD n 0 = if n = adr - 0x40 then (dAt k r).toNat % 1024 else s.warp.shadow.getD n 0) ∧
          (-512 ≤ (dAt k r).toInt → (dAt k r).toInt ≤ 511 → t = { s with warp := { s.warp with shadow := t.warp.shadow } }) ∧
          ((dAt k r).toInt < -512 ∨ 511 < (dAt k r).toInt → s.raises t 0x20 0x001)) ∧
      (c = 0 → domOn s 5 = true → adr = 0xC0 → dAt k r = 0 → ∃ w, 1 ≤ w ∧ w ≤ 65535 ∧ exec (.twr c) s =
        .next ({ s with warp := { s.warp with cwin := w }, draws := s.draws + 1 }.skDone c k)) ∧
      (c = 0 → adr = 0xC1 ∨ adr = 0xC2 → (dAt k r).toNat % 2 = 0 → exec (.twr c) s = .next (s.skDone c k)) ∧
      (c = 0 → domOn s 5 = false → adr < 0x40 ∨ 0x61 < adr ∨ s.warp.swapPend = false → exec (.twr c) s = .next (s.skDone c k)) ∧
      (c = 0 → adr < 0x40 ∨ (0x61 < adr ∧ adr < 0xC0) ∨ 0xC2 < adr → exec (.twr c) s = .next (s.skDone c k))))

/-- Control instructions (R387, R396, R397): two delay slots follow a branch, a call, a return and an RTI; CALL pushes the
address after them, at most 4; REP opens a block of at most two levels; WAIT waits while no enabled interrupt is pending; HALT
halts. One of them in a delay slot or last in a block, and a branch that leaves its block, fault with cause SLOT, the stack's
ends and a third level with cause STACK, a reserved word with cause ILLEGAL (R395); a core fault stops the core in FAULT,
records cause and address and reports them (R408). An eligible interrupt is taken at a boundary (R398). -/
def Obligations.SkeinControlsFlow : Prop :=
  (∀ (s : State) (c : Nat), let k := coreAt s c
    let go : SkCore := { k with pc := (k.pc + 1) % pcSpan c, edge := false }
    (∀ cond tgt, s.skRuns c (.br cond tgt) = true →
      (inBlock k k.pc = false ∨ (inBlock k tgt = true ∧ inBlock k (k.pc + 2) = true) →
        ∀ e ∈ [(0, true), (1, srBit k 0), (2, !srBit k 0), (3, srBit k 1), (4, !srBit k 1), (5, aAt k 0 == 0), (6, (aAt k 0).msb)],
          cond = e.1 → exec (.br c) s = .next (setCore s c { go with slots := 2, target := if e.2 then some tgt else none })) ∧
      (inBlock k k.pc = true → inBlock k tgt = false ∨ inBlock k (k.pc + 2) = false → exec (.br c) s = .next (faultCore s c 2))) ∧
    (∀ tgt, s.skRuns c (.call tgt) = true →
      (k.stack.length < 4 →
        exec (.call c) s = .next (setCore s c { go with slots := 2, target := some tgt, stack := (k.pc + 3) :: k.stack })) ∧
      (4 ≤ k.stack.length → exec (.call c) s = .next (faultCore s c 3))) ∧
    (s.skRuns c .ret = true →
      (∀ t rest, k.stack = t :: rest → exec (.ret c) s = .next (setCore s c { go with slots := 2, target := some t, stack := rest })) ∧
      (k.stack = [] → exec (.ret c) s = .next (faultCore s c 3))) ∧
    (s.skRuns c .rti = true → exec (.rti c) s = .next (setCore s c { go with slots := 2, target := some k.ipc, sr := k.isr &&& 0x3F })) ∧
    (∀ len cnt reg, s.skRuns c (.rep len cnt reg) = true → let n := if reg then (dAt k (cnt % 16)).toNat else cnt
      (0 < n → k.level < 2 → exec (.rep c) s = .next (setCore s c
        { go with outer := if 0 < k.level then some (k.lc, k.ls, k.le) else none
                  level := k.level + 1, lc := n, ls := k.pc + 1, le := k.pc + len })) ∧
      (0 < n → 2 ≤ k.level → exec (.rep c) s = .next (faultCore s c 3)) ∧
      (n = 0 → k.level = 0 →
        exec (.rep c) s = .next (haltIfAsked (setCore s c { go with pc := (k.pc + len + 1) % pcSpan c }) c))) ∧
    (s.skRuns c .wait = true → exec (.wait c) s = .next (haltIfAsked (setCore s c
      { go with st := if k.ipend &&& k.ien = 0 then .wait else .run }) c)) ∧
    (s.skRuns c .halt = true → exec (.halt c) s = .next (coreReturn (setCore s c { go with st := .halted, haltAsk := false }) c)) ∧
    (skReady s c = true → 0 < k.slots ∨ (0 < k.level ∧ k.pc = k.le) →
      (∀ cond tgt, skFetch s c = some (.br cond tgt) → exec (.br c) s = .next (faultCore s c 2)) ∧
      (∀ tgt, skFetch s c = some (.call tgt) → exec (.call c) s = .next (faultCore s c 2)) ∧
      (skFetch s c = some .ret → exec (.ret c) s = .next (faultCore s c 2)) ∧
      (skFetch s c = some .rti → exec (.rti c) s = .next (faultCore s c 2)) ∧
      (∀ len cnt reg, skFetch s c = some (.rep len cnt reg) → exec (.rep c) s = .next (faultCore s c 2)) ∧
      (skFetch s c = some .wait → exec (.wait c) s = .next (faultCore s c 2)) ∧
      (skFetch s c = some .halt → exec (.halt c) s = .next (faultCore s c 2))) ∧
    (skReady s c = true → skFetch s c = none → exec (.reservedOpcode c) s = .next (faultCore s c 1)) ∧
    (∀ i, skReady s c = true → i < 8 → k.ien.getLsbD i = true → k.ipend.getLsbD i = true → srBit k 5 = true → k.slots = 0 →
      k.level = 0 ∨ (k.edge = true ∧ srBit k 4 = false) →
      ∃ t, exec (.interruptTaken c i) s = .next t ∧ t = setCore s c (coreAt t c) ∧ (coreAt t c).pc = 0x10 * (i + 1) ∧
        (coreAt t c).ipc = k.pc ∧ (coreAt t c).isr = k.sr ∧ (∀ b < 16, srBit (coreAt t c) b = (srBit k b && b != 5)) ∧
        (∀ b < 8, (coreAt t c).ipend.getLsbD b = (k.ipend.getLsbD b && b != i)) ∧
        (coreAt t c).d = k.d ∧ (coreAt t c).a = k.a ∧ (coreAt t c).x = k.x ∧ (coreAt t c).m = k.m ∧ (coreAt t c).stack = k.stack)) ∧
  (∀ (s : State) (c cause : Nat), s.inv → c < 4 → cause < 8 →
    coreAt (faultCore s c cause) c = { coreAt s c with st := .fault, haltAsk := false } ∧
    rd (faultCore s c cause) (Reg.skeinCoreFault c) = 2 ^ 31 + cause * 2 ^ 24 + (coreAt s c).pc % 2 ^ 14 ∧
    s.raises (faultCore s c cause) (0x20 + c) 0x070) ∧
  (∀ (c : Nat) (k : SkCore),
    let go : SkCore := { k with pc := (k.pc + 1) % pcSpan c, edge := false }
    (k.slots = 0 → k.level = 0 ∨ k.pc ≠ k.le → skAdvance c k .next = go) ∧
    (1 < k.slots → k.level = 0 ∨ k.pc ≠ k.le → skAdvance c k .next = { go with slots := k.slots - 1 }) ∧
    (∀ t, k.slots = 1 → k.target = some t → skAdvance c k .next = { go with pc := t % pcSpan c, slots := 0, target := none }) ∧
    (k.slots = 1 → k.target = none → k.level = 0 ∨ k.pc ≠ k.le → skAdvance c k .next = { go with slots := 0 }) ∧
    (k.slots = 0 → 0 < k.level → k.pc = k.le → 1 < k.lc →
      skAdvance c k .next = { k with lc := k.lc - 1, pc := k.ls % pcSpan c, edge := true }) ∧
    (k.slots = 0 → 0 < k.level → k.pc = k.le → k.lc ≤ 1 → k.outer = none →
      skAdvance c k .next = { go with lc := 0, level := k.level - 1 }) ∧
    (∀ lc ls le, k.slots = 0 → 1 < k.level → k.pc = k.le → k.lc ≤ 1 → k.outer = some (lc, ls, le) →
      (k.pc ≠ le → skAdvance c k .next = { go with lc := lc, ls := ls, le := le, outer := none, level := k.level - 1 }) ∧
      (k.pc = le → 1 < lc → skAdvance c k .next =
        { k with lc := lc - 1, ls := ls, le := le, outer := none, level := k.level - 1, pc := ls % pcSpan c, edge := true })))

/-- What stands around the cores: a permitted coefficient swap comes into force (R45); a correlator window latches its results
(R401); SKEIN_LOAD and SKEIN_UNLOAD act on core 3's memories and digest (R404, R405); a running core takes a new bank at a safe
point (R403); RESET halts and clears a core (R387); the host window reads or refuses a word and steps its address (R406); the
doorbell makes MBOX pending (R407). -/
def Obligations.SkeinServicesAct : Prop :=
  (∀ s : State, s.inv → domOn s 5 = true → s.warp.swapPend = true → (coreAt s 0).st ≠ .fault → flag s Reg.warpCtrl 1 = true →
    s.warp.los = false → 64 ≤ (BitVec.ofNat 10 (s.warp.shadow.getD (fld s Reg.warpEqCfg 4 0) 0)).toInt →
    (s.warp.full = false → ∀ n < 31, n + 3 < fld s Reg.warpEqCfg 4 0 ∨ fld s Reg.warpEqCfg 4 0 + 11 < n → s.warp.shadow.getD n 0 = 0) →
    ∃ t, exec .eqSwap s = .next t ∧ t.warp = { s.warp with swapPend := false, swapDone := true } ∧
      (∀ n < 34, rd t (Reg.warpEqTap n) = s.warp.shadow.getD n 0 % 1024) ∧
      fld t Reg.warpEqStat 31 16 = min 0xFFFF (fld s Reg.warpEqStat 31 16 + 1) ∧ t.selvedge = s.selvedge) ∧
  (∀ (s : State) (corr : List Int) (epow : Nat), domOn s 5 = true → s.warp.winRun = true →
    ∃ t, exec (.corrWindowEnd corr epow) s = .next t ∧ t.warp.winRun = false ∧ t.warp.winOk = true ∧
      t.warp.epow = min 0xFFFF epow ∧ (∀ n < 34, t.warp.corr.getD n 0 = max (-32767) (min 32767 (corr.getD n 0))) ∧
      (domOn s 28 = true → (coreAt t 0).ipend.getLsbD 2 = true)) ∧
  (∀ (s : State) (d : CmdDesc), s.cmdReady d 0x78 = true →
    let img := (cmdData d).take (cmdLen d)
    (domOn s 31 = false ∨ (coreAt s 3).st = .run ∨ (coreAt s 3).st = .wait →
      exec (.skeinLoad d) s = .next (cmdFinish d s.pick.point Status.busy 0 (s.cmdTaken d))) ∧
    (domOn s 31 = true → (coreAt s 3).st ≠ .run → (coreAt s 3).st ≠ .wait →
      (s.sec.custKey = List.replicate 32 0 →
        exec (.skeinLoad d) s = .next (cmdFinish d s.pick.point 0x48 0 (s.cmdTaken d))) ∧
      (s.sec.custKey ≠ List.replicate 32 0 → core3Check s img ≠ 0 →
        exec (.skeinLoad d) s = .next (cmdFinish d s.pick.point (core3Check s img) 0 (s.cmdTaken d))) ∧
      (s.sec.custKey ≠ List.replicate 32 0 → core3Check s img = 0 →
        ∃ u, exec (.skeinLoad d) s = .next (cmdFinish d s.pick.point Status.done 0 u) ∧
          coreAt u 3 = loadSections img (fun _ _ => true) 0 { coreAt s 3 with imem := [], xmem := [], ymem := [] } ∧
          u.sec.codeDigest = Config.sha512 ((List.range (byteAt img 15)).map (imgSectBytes img)).flatten))) ∧
  (∀ (s : State) (d : CmdDesc), s.cmdReady d 0x79 = true → domOn s 31 = true →
    ∃ u, exec (.skeinUnload d) s = .next (cmdFinish d s.pick.point Status.done 0 u) ∧
      coreAt u 3 = { coreAt s 3 with st := .halted, haltAsk := false, imem := [], xmem := [], ymem := [] } ∧ u.sec.codeDigest = []) ∧
  (∀ (s : State) (c : Nat), c < 3 → domOn s (28 + c) = true → (coreAt s c).st = .run ∨ (coreAt s c).st = .wait →
    (coreAt s c).bank ≠ (coreAt s c).runBank → (coreAt s c).slots = 0 → (coreAt s c).level = 0 →
    ∃ t, exec (.firmwareBankSwitch c) s = .next t ∧ t = setCore s c (coreAt t c) ∧ (coreAt t c).st = .run ∧ (coreAt t c).pc = 0 ∧
      (coreAt t c).runBank = (coreAt s c).bank ∧ (coreAt t c).ipend = (coreAt s c).ipend ∧ (coreAt t c).sr = 0x10 ∧
      (∀ n < 16, dAt (coreAt t c) n = 0) ∧ (coreAt t c).xmem = (coreAt s c).xmem ∧ (coreAt t c).ymem = (coreAt s c).ymem) ∧
  (∀ (s : State) (c : Nat) (v : Word), s.inv → c < 4 → hostReach s = true → domOn s (28 + c) = true →
    ∃ t, exec (.skeinCoreReset c 15 v) s = .next t ∧ (coreAt t c).st = .halted ∧ (coreAt t c).pc = 0 ∧ (coreAt t c).sr = 0x10 ∧
      (∀ n < 16, dAt (coreAt t c) n = 0) ∧ (∀ n < 2, aAt (coreAt t c) n = 0) ∧ (c = 3 → ∀ n < 8, rd t (Reg.skeinMboxOut n) = 0) ∧ (∀ n < 8, xAt (coreAt t c) n = 0 ∧ mAt (coreAt t c) n = 0) ∧
      (coreAt t c).imem = (coreAt s c).imem ∧ (coreAt t c).xmem = (coreAt s c).xmem ∧ (coreAt t c).ymem = (coreAt s c).ymem) ∧
  (∀ (s : State) (v : Word), s.inv → s.hostReaches Reg.skeinWinData = true →
    let c := fldS s Reg.skeinWinSel 31 30
    let adr := fldS s Reg.skeinWinSel 13 0
    (windowRefused s c (fldS s Reg.skeinWinSel 17 16) false = false → fldS s Reg.skeinWinSel 17 16 = 1 →
      ∃ t, exec (.skeinWinDataAccess none 15) s = .next t ∧ t.hostRead = BitVec.ofNat 32 (sget 0 (coreAt s c).xmem adr).toNat ∧
        fldS t Reg.skeinWinSel 13 0 = (adr + 1) % 16384 ∧ t.skein = s.skein) ∧
    (windowRefused s c (fldS s Reg.skeinWinSel 17 16) true = true →
      ∃ t, exec (.skeinWinDataAccess (some v) 15) s = .next t ∧ (rdS t Reg.skeinWinSel).testBit 29 = true ∧
        fldS t Reg.skeinWinSel 13 0 = (adr + 1) % 16384 ∧ t.skein = s.skein) ∧
    (c = 3 → fldS s Reg.skeinWinSel 17 16 = 2 → srising 0 (coreAt s 3).ymem = true →
      ∃ t, exec (.skeinWinDataAccess (some v) 15) s = .next t ∧ sget 0 (coreAt t 3).ymem adr = BitVec.ofNat 16 v.toNat ∧
        (∀ a, a ≠ adr → sget 0 (coreAt t 3).ymem a = sget 0 (coreAt s 3).ymem a) ∧ (coreAt t 3).xmem = (coreAt s 3).xmem)) ∧
  (∀ (s : State) (v : Word), s.inv → s.hostReaches Reg.skeinMboxCtrl = true → domOn s 31 = true →
    ∃ t, exec (.mboxDoorbell 15 v) s = .next t ∧ (coreAt t 3).ipend.getLsbD 4 = true ∧
      ((coreAt s 3).st = .wait → (coreAt s 3).ien.getLsbD 4 = true → (coreAt t 3).st = .run) ∧ (coreAt t 3).d = (coreAt s 3).d)

/-- R46: a swap is rejected while ADAPT_EN is 0, while LOS is declared, where the shadow set's main tap is below code 64 and
where a shadow tap outside the window of the current length is not zero; then the set in use stays, REJECT counts (as every
field that reads saturate, R31) and a corrected-class event is raised. (No swap occurs while core 0 stands in FAULT, R408.) -/
def Obligations.EqualiserRejectsSwaps : Prop :=
  ∀ s : State, s.inv → domOn s 5 = true → s.warp.swapPend = true → (coreAt s 0).st ≠ .fault →
    let main := fld s Reg.warpEqCfg 4 0
    (flag s Reg.warpCtrl 1 = false ∨ s.warp.los = true ∨ (BitVec.ofNat 10 (s.warp.shadow.getD main 0)).toInt < 64 ∨
      ∃ n < 31, s.warp.full = false ∧ (n + 3 < main ∨ main + 11 < n) ∧ s.warp.shadow.getD n 0 ≠ 0) →
    ∃ t, exec .eqSwap s = .next t ∧ (∀ n < 34, rd t (Reg.warpEqTap n) = rd s (Reg.warpEqTap n)) ∧
      t.warp = { s.warp with swapPend := false, swapRej := true } ∧
      fld t Reg.warpEqStat 15 8 = min 255 (fld s Reg.warpEqStat 15 8 + 1) ∧
      s.raises t 0x03 0x031 ∧ codeClass 0x03 0x031 = 1

/-- Draft's pages (R329 to R334): the window writes the standby page where the image may stand there, refuses it with FIELD
otherwise and with REFUSED while the page is frozen or a load runs, and reads the standby page; a swap request waits for step 8,
which makes the standby page active and freezes the old one, or is deferred and counted; DRAFT_LOAD and DRAFT_SWAP begin their
work. -/
def Obligations.DraftPagesLoadAndSwap : Prop :=
  (∀ (p : Deck) (t i : Nat) (img : List Nat), draftOk p t i img = true ↔
    t < 4 ∧ i < [4096, 4096, 256, 256].getD t 0 ∧ (t < 2 → bits (img.getD 0 0) 31 30 ≠ 3) ∧
    (2 ≤ t → 1 ≤ img.getD 1 0 % 2048 ∧ img.getD 1 0 % 2048 ≤ 1024 ∧
      (t = 3 → img.getD 2 0 % 4096 + img.getD 1 0 % 2048 ≤ 4096) ∧
      ((img.getD 0 0).testBit 31 = true → ∀ e ∈ p, e.1 / 0x100000 = t → e.1 % 0x100000 ≠ i → (e.2.getD 0 0).testBit 31 = true →
        e.2.getD 0 0 % 65536 ≠ img.getD 0 0 % 65536))) ∧
  (∀ s : State, s.inv → s.hostReaches Reg.draftEntCmd = true →
    let t := fldS s Reg.draftEntSel 26 24
    let i := fldS s Reg.draftEntSel 12 0
    let img := (List.range 3).map (fun k => rdS s (Reg.draftEntData k))
    t < 4 → i < draftSize t →
    (s.draft.frozen = false → s.draft.loading = none → draftOk (draftStandby s) t i img = true →
      ∃ u, exec (.draftEntWrite 15) s = .next u ∧ u.draft = { (setDraftStandby s
        (sput [] (draftStandby s) (deckKey t i) (trimRec (draftWords t) img))).draft with result := 0 } ∧ rdS u Reg.draftEntCmd = 0) ∧
    (s.draft.frozen = false → s.draft.loading = none → draftOk (draftStandby s) t i img = false →
      ∃ u, exec (.draftEntWrite 15) s = .next u ∧ u.draft = { s.draft with result := 2 }) ∧
    (s.draft.frozen = true ∨ s.draft.loading.isSome = true →
      ∃ u, exec (.draftEntWrite 15) s = .next u ∧ u.draft = { s.draft with result := 1 }) ∧
    (∃ u, exec (.draftEntRead 15) s = .next u ∧ u.draft = { s.draft with result := 0 } ∧
      ∀ k < draftWords t, rdS u (Reg.draftEntData k) = deckWord (draftStandby s) t i k % 2 ^ 32)) ∧
  (∀ (s : State) (v : Word), s.inv → s.hostReaches Reg.draftCtrl = true →
    ∃ t, exec (.draftSwapRequest 15 v) s = .next t ∧ t.draft = { s.draft with swapPend := true }) ∧
  (∀ s : State, s.draft.swapPend = true → domOn s 27 = true →
    (s.draft.loading.isSome = true → (draftSwap s).draft = { s.draft with frozen := false } ∧
      (s.inv → cntVal (draftSwap s) 13 9 = min cntMax (cntVal s 13 9 + 1))) ∧
    (s.draft.loading = none → draftPage (draftSwap s) (draftSwap s).draft.activeB = draftStandby s ∧
      draftStandby (draftSwap s) = draftPage s s.draft.activeB ∧ (draftSwap s).draft.frozen = true ∧
      (draftSwap s).draft.swapPend = false)) ∧
  (∀ (s : State) (d : CmdDesc), s.cmdReady d 0x70 = true → domOn s 27 = true →
    (s.draft.frozen = false → s.draft.loading = none →
      exec (.draftLoad d) s = .next ((setDraft (s.cmdTaken d) { s.draft with loading := some (d.ring, d.index) }).cmdWorks d)) ∧
    (s.draft.frozen = true ∨ s.draft.loading.isSome = true →
      exec (.draftLoad d) s = .next (cmdFinish d s.pick.point Status.busy 0 (s.cmdTaken d)))) ∧
  (∀ (s : State) (d : CmdDesc), s.cmdReady d 0x71 = true → domOn s 27 = true →
    (s.draft.swapPend = false →
      exec (.draftSwap d) s = .next ((setDraft (s.cmdTaken d) { s.draft with swapPend := true }).cmdWorks d)) ∧
    (s.draft.swapPend = true → exec (.draftSwap d) s = .next (cmdFinish d s.pick.point Status.busy 0 (s.cmdTaken d))))

/-- Draft's exchanges (R320, R323, R326, R327, R330): the samples that entries and circuits give; a circuit frame is held once;
the upstream exchange takes the HWY_DI samples of the frame just complete, 0xFF where a highway's input was not enabled and the
previous frame's from the first late slot on, and hands Reed one frame of CH channels for each valid circuit; the downstream
exchange sends the frame before in the slots that are driven and enabled, fills the entries of the active page and counts a
circuit without a frame as missed; the slots of a late downstream exchange repeat and count. -/
def Obligations.DraftExchangesSamples : Prop :=
  (∀ (s : State) (p : Deck) (w n : Nat), let c := bits w 17 10
    let cw := sget [] p (deckKey 2 c)
    let ok := (cw.getD 0 0).testBit 31 = true ∧ bits w 9 0 < cw.getD 1 0 % 2048
    (bits w 31 30 = 0 → downSample s p w n = w % 256 ∧ upSample s p w = w % 256) ∧
    (bits w 31 30 = 2 → downSample s p w n = inSample s (w % 4096)) ∧
    (bits w 31 30 = 1 → upSample s p w = inSample s (w % 4096)) ∧
    (bits w 31 30 = 1 → ¬ ok → downSample s p w n = fld s Reg.draftCfg 15 8) ∧
    (bits w 31 30 = 2 → ¬ ok → upSample s p w = fld s Reg.draftCfg 15 8) ∧
    (bits w 31 30 = 1 → ok → ∀ f, sget none s.draft.held (cw.getD 0 0 % 65536) = some f → downSample s p w n = byteAt f (bits w 9 0)) ∧
    (bits w 31 30 = 1 → ok → sget none s.draft.held (cw.getD 0 0 % 65536) = none →
      downSample s p w n = if (cw.getD 0 0).testBit 30 then sget 0 s.draft.outs n else fld s Reg.draftCfg 15 8) ∧
    (bits w 31 30 = 2 → ok → ∀ f, sget none s.draft.before (cw.getD 0 0 % 65536) = some f → upSample s p w = byteAt f (bits w 9 0)) ∧
    (bits w 31 30 = 2 → ok → sget none s.draft.before (cw.getD 0 0 % 65536) = none → upSample s p w = fld s Reg.draftCfg 15 8)) ∧
  (∀ (s : State) (late n v m : Nat), n < 4096 → srising 0 s.draft.ins = true →
    sget 0xFF (sampled s late [(n, v)]) m =
      if m = n ∧ n % 256 < late ∧ slotEn s.draft.hwyEn s.draft.hwyEnWas n (16 + n / 256) = true then v % 256
      else if late ≤ m % 256 then inSample s m else 0xFF) ∧
  (∀ (s : State) (samples : List (Nat × Nat)), draftOn s = true →
    let late := s.draft.lateUp.getD 256
    let p := draftPage s s.draft.upB
    let t := countBy (setDraft s { s.draft with ins := sampled s late samples, lateUp := none }) 13 11 (16 * (256 - late))
    (circuits p 3 = [] → exec (.upstreamExchange samples) s = .next (pauseScan t)) ∧
    (∀ c, circuits p 3 = [c] → exec (.upstreamExchange samples) s = .next (pauseScan (upFrame p t c)) ∧
      (s.inv → cntVal (upFrame p t c) 13 6 = min cntMax (cntVal s 13 6 + 1)))) ∧
  (∀ (s : State) (stream : Nat) (frag : Bool) (d : List Byte) (c : Nat × List Nat), draftOn s = true →
    (circuits (draftPage s s.draft.activeB) 2).find? (fun c => circStream c.2 == stream) = some c → srising 0 s.draft.held = true →
    (frag = false → d.length = c.2.getD 1 0 % 2048 → sget none s.draft.held stream = none →
      sget none (circuitFrame s stream frag d).draft.held stream = some d) ∧
    (frag = true ∨ d.length ≠ c.2.getD 1 0 % 2048 ∨ (sget none s.draft.held stream).isSome = true →
      (circuitFrame s stream frag d).draft = s.draft)) ∧
  (∀ s : State, draftOn s = true → let p := draftPage s s.draft.activeB
    (downExchange s).draft.before = s.draft.held ∧ (downExchange s).draft.held = [] ∧ (downExchange s).draft.upB = s.draft.activeB ∧
    (downExchange s).draft.lastOuts = s.draft.outs ∧
    (∀ e, p.filter (fun e => e.1 / 0x100000 == 0) = [e] → let x := downSample s p (e.2.getD 0 0) e.1
      (downExchange s).draft.outs = (if x = 0 then [] else [(e.1, x)]) ∧
      (downExchange s).draft.sending = some (flag s Reg.draftCfg 16, if (e.2.getD 0 0).testBit 29 then [e.1] else [])) ∧
    (s.draft.sending = none → (downExchange s).out = s.out) ∧
    (∀ fs slots, s.draft.sending = some (fs, slots) → (downExchange s).out = s.out ++ [.pcmOut fs
      ((slots.filter (fun n => slotEn (rd s Reg.draftHwyEn) s.draft.hwyEn n (n / 256))).map (fun n => (n, sget 0 s.draft.outs n)))]) ∧
    (∀ c, circuits p 2 = [c] → s.inv → sget none s.draft.held (circStream c.2) = none →
      cntVal (downExchange s) 13 5 = min cntMax (cntVal s 13 5 + 1))) ∧
  (∀ (s : State) (t n : Nat), t ≤ 256 → s.inv → srising 0 s.draft.outs = true → srising 0 s.draft.lastOuts = true →
    sget 0 (draftLate t s).draft.outs n = (if n % 256 < t then sget 0 s.draft.outs n else sget 0 s.draft.lastOuts n) ∧
    cntVal (draftLate t s) 13 11 = min cntMax (cntVal s 13 11 + 16 * (256 - t)))

/-- Start-up (R409, R418, R422, R423, R466, R474): POWER_ON resets every domain and leaves RESET_N low; SUPPLY_REMOVAL goes to
OFF with VDD_SAFE gone; RESET_ASSERT, with RESET_N low for 200 ns (R467), keeps what AON and SAFETY hold, and DRAM with KEEP;
RESET_RELEASE enters CALIBRATE; READY asserts and halts core 0. OTP and flash outlast every reset. -/
def Obligations.ResetKeepsAlwaysOn : Prop :=
  (∀ s : State, ∃ t, exec .powerOn s = .next t ∧ t = { coldState s with power := { inReset := true } } ∧ t.stg = [] ∧ t.cur = [] ∧
    t.sec.otpArb = s.sec.otpArb ∧ t.sec.custKey = s.sec.custKey ∧ t.sec.slotA = s.sec.slotA ∧ t.sec.slotB = s.sec.slotB ∧
    t.act.held = false ∧ t.safety.hold = true ∧ t.dram = []) ∧
  (∀ s : State, ∃ t, exec .supplyRemoval s = .next t ∧ t.power.mode = .off ∧ t.power.isOn = 0 ∧ t.safety.vddSafe = false ∧
    t.safety.latch = false ∧ rd t Reg.selvedgeFatal = regReset Reg.selvedgeFatal ∧ t.act.held = false ∧ t.dram = [] ∧
    t.sec.otpArb = s.sec.otpArb ∧ t.sec.slotA = s.sec.slotA ∧ t.sec.slotB = s.sec.slotB) ∧
  (∀ s : State, ∀ low < 200, exec (.resetAssert low) s = .next s) ∧
  (∀ (s : State) (low : Nat), s.inv → s.power.mode ≠ .off → 200 ≤ low →
    ∃ t, exec (.resetAssert low) s = .next t ∧ t.power = { inReset := true } ∧ t.act.held = s.act.held ∧ t.act.tid = none ∧
      t.safety = { s.safety with enNow := false } ∧ rd t Reg.selvedgeFatal = rd s Reg.selvedgeFatal ∧
      rd t Reg.heddleFlowKeep = rd s Reg.heddleFlowKeep ∧ rd t Reg.weftCtrl = regReset Reg.weftCtrl ∧
      flag t Reg.globalResetCause 1 = true ∧ t.host = {} ∧ t.skein = State.reset.skein ∧ t.selvedge = {} ∧
      t.sec = flashOtp s.sec ∧
      (flag s Reg.dramKeep 0 = true → fld s Reg.dramStat 31 30 = 2 → t.dram = s.dram) ∧
      (flag s Reg.dramKeep 0 = false ∨ fld s Reg.dramStat 31 30 ≠ 2 → t.dram = [])) ∧
  (∀ s : State, s.power.inReset = true → s.power.mode ≠ .off →
    let t := dramClosed { s with power := { s.power with inReset := false, mode := .calibrate } }
    exec .resetRelease s = .next { t with act := { s.act with st := if s.act.held then .held else .dark } } ∧
    (s.inv → fld t Reg.dramStat 31 30 = if flag s Reg.dramKeep 1 then 3 else 0)) ∧
  (∀ (s : State) (i : ReadyIn), s.inv → s.power.mode = .calibrate → s.power.inReset = false → s.power.ready = false →
    s.sec.chosen = true → i.fails.testBit 5 = false → flag s Reg.selvedgeFatal 31 = false →
    (s.safety.latch && s.safety.reason == 8) = false →
    ∃ t, exec (.ready i) s = .next t ∧ t.power.ready = true ∧ t.power.mode = .calibrate ∧
      t.power.corePllLock = (i.corePll && !i.fails.testBit 1) ∧ (coreAt t 0).st = .halted ∧
      rd t Reg.globalCalStat = min 255 i.ms * 2 ^ 24 + i.fails % 64 ∧ t.selvedge = s.selvedge ∧ t.safety = s.safety)

/-- Power events (R112, R409, R413, R414, R421, R428, R472): the loss of core PLL lock before the switch only takes the lock
away; PWR_FAIL latches DYING_GASP and queues its message; the drain to DOZE ends with the switch-offs; a woken domain reports
ON; DRAM training ends READY with its size, or failed. -/
def Obligations.PowerEventsAct : Prop :=
  (∀ s : State, s.power.corePllLock = true → s.power.clkPll = false →
    exec .corePllLoss s = .next { s with power := { s.power with corePllLock := false } }) ∧
  (∀ s : State, s.inv → s.power.pwrFail = false → s.power.inReset = false → s.power.mode ≠ .off →
    ∃ t, exec .pwrFailAssert s = .next t ∧ t.power = { s.power with pwrFail := true } ∧
      (domOn s 8 = true → flag t Reg.weftStat 7 = true) ∧
      t.act.queue.map (·.typ) = s.act.queue.map (·.typ) ++ [0x85]) ∧
  (∀ s : State, exec .pwrFailClear s = .next { s with power := { s.power with pwrFail := false } }) ∧
  (∀ s : State, s.inv → s.power.dozePhase = .draining → s.power.dozeAged = true → spoolIdle s = true →
    ∃ t, exec .dozeDrainComplete s = .next t ∧ (t.power.dozePhase = .entering ∨ t.power.mode = .doze) ∧
      ∀ d < 32, forbidden .doze d = true → flag t Reg.globalPdCtrl d = false) ∧
  (∀ (s : State) (d : Nat), s.inv → sget 0 s.power.wakes d = 1 → d < 32 → domOn s d = false →
    ∃ t, exec (.domainWakeOn d) s = .next t ∧ domOn t d = true ∧ flag t Reg.globalPdWoke d = true ∧
      cntVal t 16 6 = min cntMax (cntVal s 16 6 + 1) ∧ ∀ e < 32, e ≠ d → domOn t e = domOn s e) ∧
  (∀ (s : State) (f0 f1 : Bool), s.inv → domOn s 13 = true → fld s Reg.dramStat 31 30 = 1 →
    (f0 = true ∨ f1 = true → ∃ t, exec (.dramTrainingDone f0 f1) s = .next t ∧ fld t Reg.dramStat 31 30 = 0 ∧
      (rd t Reg.dramStat).testBit 0 = f0 ∧ (rd t Reg.dramStat).testBit 1 = f1 ∧ t.dram = s.dram) ∧
    (flag s Reg.dramKeep 1 = false → ∃ t, exec (.dramTrainingDone false false) s = .next t ∧ fld t Reg.dramStat 31 30 = 2 ∧
      dramMib t = dramSizeOf (fld s Reg.dramCfg 2 1) ∧ t.dram = []) ∧
    (flag s Reg.dramKeep 1 = true → ∃ t, exec (.dramTrainingDone false false) s = .next t ∧ fld t Reg.dramStat 31 30 = 2 ∧
      flag t Reg.dramStat 2 = true ∧ flag t Reg.dramKeep 1 = false ∧ t.dram = s.dram))

/-- R427: the loss of core PLL lock after the switch is reported as a fault of class fatal. -/
def Obligations.PllLossAfterSwitchIsFatal : Prop :=
  ∀ s : State, s.power.corePllLock = true → s.power.clkPll = true →
    ∃ t, exec .corePllLoss s = .next t ∧ t.power = { s.power with corePllLock := false } ∧ s.raises t 0x28 0x0A0 ∧
      codeClass 0x28 0x0A0 = 3

/-- Reports and recovery (R439 to R447): Selvedge takes the next waiting report, enters it in the history, counts it by class
and sets its source's PEND bit where it is contained; the entries whose storm window has run out close; a recovering unit
returns; RESTART runs one recovery of a parked unit; PEND clears by writing 1 unless the source still recovers; HIST_SEL copies
the entry of an age. -/
def Obligations.ReportsAreRecorded : Prop :=
  (∀ (s : State) (r : Report), s.inv → nextReport s.selvedge = some r → r.cls = 1 ∨ r.cls = 2 → s.selvedge.hist.any (coalesces s r) = false →
    r.cls ≠ 1 ∨ flag s Reg.selvedgeCtrl 0 = true →
    ∃ t, exec (.faultReport none) s = .next t ∧ t.selvedge.waiting = s.selvedge.waiting.erase r ∧ t.selvedge.rr = r.source ∧
      (∃ e, t.selvedge.hist = (e :: s.selvedge.hist).take 32 ∧ e.pick = s.pick.count ∧ e.cls = r.cls ∧ e.source = r.source ∧
        e.code = r.code ∧ e.ctx = r.ctx ∧ e.rootSource = r.rootSource ∧ e.rootCode = r.rootCode ∧ e.isOpen = true ∧ e.count = 0 ∧
        e.seq = s.selvedge.seq) ∧
      cntVal t 17 0 = min cntMax (cntVal s 17 0 + 1) ∧ (r.cls = 2 → t.selvedge.pend = s.selvedge.pend ||| 2 ^ r.source) ∧
      (r.cls = 1 → t.selvedge.pend = s.selvedge.pend) ∧ t.safety = s.safety) ∧
  (∀ s : State, ∃ t, exec .stormClose s = .next t ∧
    t.selvedge = { s.selvedge with hist := s.selvedge.hist.map (fun e =>
      if stormDue s e then { e with isOpen := false } else e) }) ∧
  (∀ (s : State) (src : Nat), srising 0 s.selvedge.units = true → (unitAt s src).st = .recovering → 1 ≤ (unitAt s src).age →
    s.selvedge.fatal = false →
    ∃ t, exec (.recoveryEnd src) s = .next t ∧ unitAt t src = { unitAt s src with st := .ok } ∧
      ∀ c, c ≠ src → unitAt t c = unitAt s c) ∧
  (∀ s : State, s.inv → s.hostReaches Reg.selvedgeUnitCtrl = true → srising 0 s.selvedge.units = true → s.selvedge.fatal = false →
    let src := fld s Reg.selvedgeUnitSel 7 0
    ((unitAt s src).st = .parked → recoverLimit src = some 0 →
      ∃ t, exec (.selvedgeRestart 15) s = .next t ∧ unitAt t src = { unitAt s src with st := .ok, times := [], start := 1 }) ∧
    ((unitAt s src).st = .parked → recoverLimit src = some 1 → src ≤ 0x09 →
      ∃ t, exec (.selvedgeRestart 15) s = .next t ∧ (unitAt t src).st = .recovering ∧ (unitAt t src).times.length = 1 ∧
        (src ≠ 1 → cntVal t 17 8 = min cntMax (cntVal s 17 8 + 1))) ∧
    ((unitAt s src).st ≠ .parked →
      ∃ t, exec (.selvedgeRestart 15) s = .next t ∧ t.selvedge = s.selvedge)) ∧
  (∀ (s : State) (c : Nat), s.inv → s.hostReaches Reg.selvedgePendLo = true → c < 32 → (unitAt s c).st = .ok →
    ∃ t, exec (.selvedgePendClear false 15 (BitVec.ofNat 32 (2 ^ c))) s = .next t ∧
      (∀ b, t.selvedge.pend.testBit b = (s.selvedge.pend.testBit b && b != c)) ∧ t.selvedge.hist = s.selvedge.hist) ∧
  (∀ s : State, s.inv → s.hostReaches Reg.selvedgePendHi = true → s.safety.latch = true →
    ∃ t, exec (.selvedgePendClear true 15 (BitVec.ofNat 32 (2 ^ 6))) s = .next t ∧ t.selvedge = s.selvedge ∧
      flag t Reg.selvedgeStat 2 = true) ∧
  (∀ (s : State) (v : Word), s.inv → s.hostReaches Reg.selvedgeHistSel = true →
    ∃ t, exec (.selvedgeHistSelWrite 15 v) s = .next t ∧ t.selvedge = s.selvedge ∧
      (∀ e, s.selvedge.hist[bits v.toNat 4 0]? = some e → ∀ k < 8, rd t (Reg.selvedgeHistData k) = histWord e k % 2 ^ 32) ∧
      (s.selvedge.hist[bits v.toNat 4 0]? = none → ∀ k < 8, rd t (Reg.selvedgeHistData k) = 0))

/-- The safety path (R450, R453 to R458): a declaration whose condition holds latches with its reason, cuts, goes to SAFE and
ends every burst; the third latch within 524,288 picks locks; the two writes of SAFETY_CLR clear a latch at step 2 of the next
commit point or are refused; a proof test passes or latches; the loss and return of VDD_SAFE cut and hold; a link message
updates the copies or latches. (An instant 48 to 64 symbols outside its window may be declared: log entry 88.) Which channel
declared a latch of reasons HOST, FATAL and PROOF is a free value (log entry 10, DESIGN CHOICE). -/
def Obligations.SafetyPathLatches : Prop :=
  (∀ (s : State) (reason ch : Nat) (x : SafetySeen), 1 ≤ ch → ch ≤ 3 →
    (dangerSeen s reason x = true ↔
      (reason = 1 ∧ x.en = true ∧ outsideBy s 48 x.pos = true) ∨
      (reason = 2 ∧ 8 * fld s Reg.safetyMpdCfg 15 8 ≤ x.mpdNs ∧ outsideBy s (48 + lagSymbols s) x.pos = true) ∨
      (reason = 3 ∧ s.act.held = true ∧ (x.en = true ∨ 8 * fld s Reg.safetyMpdCfg 15 8 ≤ x.mpdNs)) ∨
      (reason = 4 ∧ x.linkMissing = true) ∨ (reason = 5 ∧ (x.clock < 850 ∨ 1150 < x.clock)) ∨
      (reason = 6 ∧ (1000 ≤ x.disagreeNs ∨ x.memErr = true))) ∧
    (dangerSeen s reason x = false → exec (.safetyDeclare reason ch x) s = .next s)) ∧
  (∀ (s : State) (reason ch : Nat) (x : SafetySeen), s.inv → s.safety.vddSafe = true → s.safety.hold = false →
    s.safety.latch = false → 1 ≤ ch → ch ≤ 3 → dangerSeen s reason x = true →
    ∃ t, exec (.safetyDeclare reason ch x) s = .next t ∧ t.safety.latch = true ∧ t.safety.reason = reason ∧ t.safety.channel = ch ∧
      t.safety.cutSince = some (s.safety.cutSince.getD s.ns) ∧ t.safety.proofSince = false ∧
      (s.power.mode = .listen ∨ s.power.mode = .active ∨ s.power.mode = .doze → t.power.mode = .safe) ∧ t.weft.bursts = [] ∧
      rd t Reg.safetyLatchPick = s.pick.count % 2 ^ 32 ∧
      t.safety.locked = (s.safety.locked || decide (2 ≤ (recentLatches s).length)) ∧
      cntVal t 17 10 = min cntMax (cntVal s 17 10 + 1) ∧ s.raises t 0x26 0x090) ∧
  (∀ s : State, s.inv → s.hostReaches Reg.safetyForce = true → s.safety.vddSafe = true → s.safety.hold = false → s.safety.latch = false →
    ∃ t, exec (.safetyForceLatch 15) s = .next t ∧ t.safety.latch = true ∧ t.safety.reason = 7 ∧ t.weft.bursts = [] ∧
      1 ≤ t.safety.channel ∧ t.safety.channel ≤ 3) ∧
  (∀ (s : State) (v : Word), s.inv → s.hostReaches Reg.safetyMpdCfg = true → s.safety.vddSafe = true →
    (s.power.mode = .active → bits v.toNat 6 0 ≠ fldS s Reg.safetyMpdCfg 6 0 →
      ∃ t, exec (.safetyMpdCfgWrite 15 v) s = .next t ∧ s.regSame t Reg.safetyMpdCfg ∧ s.raises t 0x26 0x001) ∧
    (s.power.mode ≠ .active → ∃ t, exec (.safetyMpdCfgWrite 15 v) s = .next t ∧ fld t Reg.safetyMpdCfg 6 0 = bits v.toNat 6 0 ∧
      t.safety = s.safety ∧ t.power = s.power)) ∧
  (∀ (s : State) (v : Word), s.inv → s.hostReaches Reg.safetyClr = true → s.safety.vddSafe = true →
    (v = 0x5AFE → ∃ t, exec (.safetyClrWrite 15 v) s = .next t ∧ t.safety = { s.safety with clrFirst := some s.now }) ∧
    (∀ t0, v = 0xA501 → s.safety.clrFirst = some t0 → s.now - t0 ≤ 125000 →
      (s.safety.latch = true → 1 ≤ s.safety.reason → s.safety.reason ≤ 7 → s.safety.locked = false → s.safety.proofSince = true →
        s.safety.enNow = false → s.safety.mpdNow = false →
        ∃ t, exec (.safetyClrWrite 15 v) s = .next t ∧ t.safety = { s.safety with clrFirst := none, clrPending := true }) ∧
      (s.safety.latch = false ∨ s.safety.reason < 1 ∨ 7 < s.safety.reason ∨ s.safety.locked = true ∨ s.safety.proofSince = false ∨
          s.safety.enNow = true ∨ s.safety.mpdNow = true →
        ∃ t, exec (.safetyClrWrite 15 v) s = .next t ∧ t.safety = { s.safety with clrFirst := none } ∧ flag t Reg.safetyStat 23 = true)) ∧
    (v ≠ 0x5AFE → v ≠ 0xA501 →
      ∃ t, exec (.safetyClrWrite 15 v) s = .next t ∧ t.safety = { s.safety with clrFirst := none })) ∧
  (∀ s : State, s.safety.clrPending = true → (safetyClear s).safety.latch = false ∧ (safetyClear s).safety.cutSince = none ∧
    (safetyClear s).safety.reason = s.safety.reason ∧ (s.power.mode = .safe → (safetyClear s).power.mode = .listen)) ∧
  (∀ (s : State) (ticks : Nat), s.inv → s.safety.vddSafe = true → s.pick.count % 8192 = 0 → flag s Reg.selvedgeFatal 31 = false →
    ∃ t, exec (.proofTest 0 ticks false) s = .next t ∧ t.safety.proofOk = true ∧ t.safety.proofSince = true ∧ t.safety.hold = false ∧
      t.safety.latch = s.safety.latch ∧ flag t Reg.safetyProof 31 = true ∧ fld t Reg.safetyProof 15 0 = min 65535 ticks ∧
      cntVal t 17 11 = min cntMax (cntVal s 17 11 + 1)) ∧
  (∀ (s : State) (step ticks : Nat), s.inv → s.safety.vddSafe = true → s.pick.count % 8192 = 0 → 1 ≤ step → step ≤ 8 →
    s.safety.latch = false →
    ∃ t, exec (.proofTest step ticks false) s = .next t ∧ t.safety.latch = true ∧ t.safety.reason = 9 ∧ t.safety.hold = false ∧
      flag t Reg.safetyProof 31 = false ∧ fld t Reg.safetyProof 19 16 = step ∧ s.raises t 0x26 0x091) ∧
  (∀ (s : State) (t0 : Nat), s.safety.cutSince = some t0 → s.safety.vddSafe = true →
    t0 + 110000 + 8 * fld s Reg.safetyMpdCfg 15 8 ≤ s.ns →
    ∃ t, exec .cutIneffective s = .next t ∧ s.raises t 0x26 0x092 ∧ codeClass 0x26 0x092 = 3) ∧
  (∀ s : State, ∃ t, exec .vddSafeLoss s = .next t ∧ t.safety.vddSafe = false ∧ t.safety.cutSince.isSome = true ∧
    t.safety.latch = s.safety.latch ∧ t.power = s.power) ∧
  (∀ s : State, s.inv → s.safety.vddSafe = false →
    (∀ removed, s.safety.latch = false ∨ removed = true → ∃ t, exec (.vddSafeReturn removed) s = .next t ∧ t.safety.hold = true ∧ t.safety.vddSafe = true ∧
      t.safety.proofOk = false ∧ t.safety.cutSince = s.safety.cutSince ∧ rd t Reg.safetyMpdCfg = regReset Reg.safetyMpdCfg) ∧
    (s.safety.latch = true → ∃ t, exec (.vddSafeReturn false) s = .next t ∧ t.safety = { s.safety with vddSafe := true })) ∧
  (∀ (s : State) (ch : Nat), s.safety.vddSafe = true →
    ∃ t, exec (.safetyLinkUpdate true (s.safety.linkSeq + 1) ch) s = .next t ∧ t.safety.linkSeq = s.safety.linkSeq + 1 ∧
      t.safety.pre = s.act.pre ∧ t.safety.eqd = s.act.eqd ∧ t.safety.conts = sput 0 s.act.conts 0 (contZero s) ∧
      t.safety.tid = (match s.act.tid with | some i => 2 ^ 31 + i | none => 1023) ∧ t.act = s.act) ∧
  (∀ (s : State) (ok : Bool) (n ch : Nat), s.safety.vddSafe = true → s.safety.hold = false → s.safety.latch = false →
    ok = false ∨ n ≠ s.safety.linkSeq + 1 → 1 ≤ ch → ch ≤ 3 →
    ∃ t, exec (.safetyLinkUpdate ok n ch) s = .next t ∧ t.safety.latch = true ∧ t.safety.reason = 4 ∧ t.safety.channel = ch)
end

