-- ==== Sys2Proof/Laws/Sparse.lean ====
section
/-! SUPPORT. Laws/Sparse.lean: tables in canonical form: what a read gives after a write, and that every operation keeps
the form. -/

namespace Sys2Proof.Machine

open Sys2Proof

variable {α : Type}

/-! ## Reading after writing -/

@[simp] theorem sget_nil (d : α) (i : Nat) : sget d [] i = d := rfl

theorem sget_sins_same (d : α) (m : Sparse α) (i : Nat) (v : α) : sget d (sins m i v) i = v := by
  induction m with
  | nil => simp [sins, sget]
  | cons e t ih =>
    obtain ⟨k, w⟩ := e
    by_cases h1 : k = i
    · simp [sins, sget, h1]
    · by_cases h2 : i < k
      · simp [sins, sget, h1, h2]
      · simp [sins, sget, h1, h2, ih]

theorem sget_sins_other (d : α) (m : Sparse α) (i j : Nat) (v : α) (h : i ≠ j) : sget d (sins m i v) j = sget d m j := by
  induction m with
  | nil =>
    by_cases h2 : j < i <;> simp [sins, sget, h, h2]
  | cons e t ih =>
    obtain ⟨k, w⟩ := e
    by_cases h1 : k = i
    · subst h1
      simp [sins, sget, h]
    · by_cases h2 : i < k
      · by_cases h3 : j < i
        · have h4 : j < k := by omega
          have h5 : ¬ k = j := by omega
          simp [sins, sget, h1, h2, h, h3, h4, h5]
        · simp [sins, sget, h1, h2, h, h3]
      · simp [sins, sget, h1, h2, ih]

theorem srising_le {lo lo' : Nat} (hl : lo' ≤ lo) {m : Sparse α} (h : srising lo m = true) : srising lo' m = true := by
  cases m with
  | nil => rfl
  | cons e t =>
    obtain ⟨k, w⟩ := e
    simp only [srising, Bool.and_eq_true, decide_eq_true_eq] at h ⊢
    exact ⟨by omega, h.2⟩

theorem sget_below (d : α) {lo : Nat} {m : Sparse α} (h : srising lo m = true) {i : Nat} (hi : i < lo) : sget d m i = d := by
  cases m with
  | nil => rfl
  | cons e t =>
    obtain ⟨k, w⟩ := e
    simp only [srising, Bool.and_eq_true, decide_eq_true_eq] at h
    have h1 : ¬ k = i := by omega
    have h2 : i < k := by omega
    simp [sget, h1, h2]

theorem sget_sdel_same (d : α) {lo : Nat} {m : Sparse α} (h : srising lo m = true) (i : Nat) : sget d (sdel m i) i = d := by
  induction m generalizing lo with
  | nil => rfl
  | cons e t ih =>
    obtain ⟨k, w⟩ := e
    simp only [srising, Bool.and_eq_true, decide_eq_true_eq] at h
    by_cases h1 : k = i
    · subst h1
      simpa [sdel] using sget_below d h.2 (Nat.lt_succ_self k)
    · by_cases h2 : i < k
      · simp [sdel, sget, h1, h2]
      · simp [sdel, sget, h1, h2, ih h.2]

theorem sget_sdel_other (d : α) {lo : Nat} {m : Sparse α} (h : srising lo m = true) {i j : Nat} (hij : i ≠ j) :
    sget d (sdel m i) j = sget d m j := by
  induction m generalizing lo with
  | nil => rfl
  | cons e t ih =>
    obtain ⟨k, w⟩ := e
    simp only [srising, Bool.and_eq_true, decide_eq_true_eq] at h
    by_cases h1 : k = i
    · subst h1
      by_cases h3 : j < k
      · have := sget_below d h.2 (show j < k + 1 by omega)
        simp [sdel, sget, hij, h3, this]
      · simp [sdel, sget, hij, h3]
    · by_cases h2 : i < k
      · simp [sdel, sget, h1, h2]
      · simp [sdel, sget, h1, h2, ih h.2]

/-! ## The canonical form -/

theorem srising_sins {lo : Nat} {m : Sparse α} (h : srising lo m = true) {i : Nat} (hi : lo ≤ i) (v : α) :
    srising lo (sins m i v) = true := by
  induction m generalizing lo with
  | nil => simp [sins, srising, hi]
  | cons e t ih =>
    obtain ⟨k, w⟩ := e
    simp only [srising, Bool.and_eq_true, decide_eq_true_eq] at h
    by_cases h1 : k = i
    · subst h1
      simpa [sins, srising, hi] using h.2
    · by_cases h2 : i < k
      · simp only [sins, srising, h1, h2, if_true, if_false, Bool.and_eq_true, decide_eq_true_eq]
        exact ⟨hi, by omega, h.2⟩
      · simp [sins, srising, h1, h2, h.1]
        exact ih h.2 (by omega)

theorem srising_sdel {lo : Nat} {m : Sparse α} (h : srising lo m = true) (i : Nat) : srising lo (sdel m i) = true := by
  induction m generalizing lo with
  | nil => rfl
  | cons e t ih =>
    obtain ⟨k, w⟩ := e
    simp only [srising, Bool.and_eq_true, decide_eq_true_eq] at h
    by_cases h1 : k = i
    · simp only [sdel, h1, if_true]
      exact srising_le (by omega) h.2
    · by_cases h2 : i < k
      · simp [sdel, srising, h1, h2, h.1, h.2]
      · simp [sdel, srising, h1, h2, h.1, ih h.2]

theorem srising_skeep {lo : Nat} {m : Sparse α} (h : srising lo m = true) (p : Nat → Bool) : srising lo (skeep p m) = true := by
  induction m generalizing lo with
  | nil => rfl
  | cons e t ih =>
    obtain ⟨k, w⟩ := e
    simp only [srising, Bool.and_eq_true, decide_eq_true_eq] at h
    have ih' := ih h.2
    by_cases hp : p k = true
    · simp only [skeep, List.filter_cons, hp, if_true, srising, Bool.and_eq_true, decide_eq_true_eq]
      exact ⟨h.1, ih'⟩
    · simp only [skeep, List.filter_cons, hp]
      exact srising_le (by omega) ih'

theorem mem_sins {m : Sparse α} {i : Nat} {v : α} {e : Nat × α} (h : e ∈ sins m i v) : e = (i, v) ∨ e ∈ m := by
  induction m with
  | nil => simpa [sins] using h
  | cons x t ih =>
    obtain ⟨k, w⟩ := x
    by_cases h1 : k = i
    · simp only [sins, h1, if_true, List.mem_cons] at h ⊢
      tauto
    · by_cases h2 : i < k
      · simp only [sins, h1, h2, if_true, if_false, List.mem_cons] at h ⊢
        tauto
      · simp only [sins, h1, h2, if_false, List.mem_cons] at h ⊢
        rcases h with h | h
        · exact .inr (.inl h)
        · rcases ih h with h | h
          · exact .inl h
          · exact .inr (.inr h)

theorem mem_sdel {m : Sparse α} {i : Nat} {e : Nat × α} (h : e ∈ sdel m i) : e ∈ m := by
  induction m with
  | nil => simp [sdel] at h
  | cons x t ih =>
    obtain ⟨k, w⟩ := x
    by_cases h1 : k = i
    · simp only [sdel, h1, if_true] at h
      exact List.mem_cons_of_mem _ h
    · by_cases h2 : i < k
      · simpa only [sdel, h1, h2, if_true, if_false] using h
      · simp only [sdel, h1, h2, if_false, List.mem_cons] at h ⊢
        exact h.imp_right ih

variable [DecidableEq α]

/-- The canonical form, said of the entries. -/
theorem swf_iff (d : Nat → α) (m : Sparse α) : swf d m = true ↔ srising 0 m = true ∧ ∀ e ∈ m, e.2 ≠ d e.1 := by
  simp [swf, List.all_eq_true]

@[simp] theorem swf_nil (d : Nat → α) : swf d [] = true := by simp [swf, srising]

/-- A write keeps the canonical form. -/
theorem swf_sput {d : Nat → α} {m : Sparse α} (h : swf d m = true) (i : Nat) (v : α) : swf d (sput (d i) m i v) = true := by
  rw [swf_iff] at h ⊢
  unfold sput
  split
  · exact ⟨srising_sdel h.1 i, fun e he => h.2 e (mem_sdel he)⟩
  · rename_i hv
    refine ⟨srising_sins h.1 (Nat.zero_le i) v, fun e he => ?_⟩
    rcases mem_sins he with rfl | he
    · exact hv
    · exact h.2 e he

/-- Dropping entries keeps the canonical form. -/
theorem swf_skeep {d : Nat → α} {m : Sparse α} (h : swf d m = true) (p : Nat → Bool) : swf d (skeep p m) = true := by
  rw [swf_iff] at h ⊢
  refine ⟨srising_skeep h.1 p, fun e he => h.2 e ?_⟩
  simp only [skeep, List.mem_filter] at he
  exact he.1

theorem sget_sput_same {d : α} {lo : Nat} {m : Sparse α} (h : srising lo m = true) (i : Nat) (v : α) :
    sget d (sput d m i v) i = v := by
  unfold sput
  split
  · rename_i hv
    rw [hv, sget_sdel_same d h]
  · exact sget_sins_same d m i v

theorem sget_sput_other (d e : α) {lo : Nat} {m : Sparse α} (h : srising lo m = true) {i j : Nat} (hij : i ≠ j) (v : α) :
    sget e (sput d m i v) j = sget e m j := by
  unfold sput
  split
  · exact sget_sdel_other e h hij
  · exact sget_sins_other e m i j v hij

/-- An entry after a write is the written one or stood before. -/
theorem sput_mem {d : α} {m : Sparse α} {i : Nat} {v : α} {e : Nat × α} (h : e ∈ sput d m i v) : e = (i, v) ∨ e ∈ m := by
  unfold sput at h
  split at h
  · exact .inr (mem_sdel h)
  · exact mem_sins h

/-! ## The memory behind the DRAM port -/

/-- A run of bytes keeps the memory's canonical form. -/
theorem dramPut_wf {m : List Host.Cell} (h : Memory.wf m = true) (a : Nat) (d : List Byte) : Memory.wf (dramPut m a d) = true := by
  induction d generalizing m a with
  | nil => exact h
  | cons b t ih => exact ih (swf_sput (d := fun _ => (0 : Byte)) h a b) (a + 1)

/-- A byte outside the bytes written reads as before. -/
theorem dramPut_other {m : List Host.Cell} (h : Memory.wf m = true) (a : Nat) (d : List Byte) {j : Nat}
    (hj : j < a ∨ a + d.length ≤ j) : sget (0 : Byte) (dramPut m a d) j = sget 0 m j := by
  induction d generalizing m a with
  | nil => rfl
  | cons b t ih =>
    have hr : srising 0 m = true := ((swf_iff _ _).1 h).1
    have h' : Memory.wf (sput (0 : Byte) m a b) = true := swf_sput (d := fun _ => (0 : Byte)) h a b
    simp only [List.length_cons] at hj
    rw [dramPut, ih h' (a + 1) (by omega), sget_sput_other _ _ hr (by omega)]

/-- A byte written reads as written. -/
theorem dramPut_same {m : List Host.Cell} (h : Memory.wf m = true) (a : Nat) (d : List Byte) {k : Nat} (hk : k < d.length) :
    sget (0 : Byte) (dramPut m a d) (a + k) = d[k] := by
  induction d generalizing m a k with
  | nil => simp at hk
  | cons b t ih =>
    have hr : srising 0 m = true := ((swf_iff _ _).1 h).1
    have h' : Memory.wf (sput (0 : Byte) m a b) = true := swf_sput (d := fun _ => (0 : Byte)) h a b
    cases k with
    | zero =>
      rw [dramPut, dramPut_other h' (a + 1) t (by omega)]
      exact sget_sput_same hr a b
    | succ k =>
      have := ih h' (a + 1) (k := k) (by simpa using hk)
      rw [dramPut, show a + (k + 1) = a + 1 + k by omega, this]
      rfl

end Sys2Proof.Machine
end

