-- ==== Sys2Proof/Laws/Kept.lean ====
section
/-! SUPPORT. Laws/Kept.lean: what every operation of the block keeps, whatever the state: the waiting commands, the
canonical form of every table, the bound of every counter, the free values already drawn, the output already logged, what the
fuses say; and every part of the state that the operation's own set of parts does not name. -/

namespace Sys2Proof.Machine

open Sys2Proof

/-- The set of parts `k` (one bit a part) lies within `n`. -/
def Sub (k n : Nat) : Prop := ∀ i, k.testBit i = true → n.testBit i = true

theorem Sub.of {k K n : Nat} (h : Sub K n) (e : Nat.lor k K = K) : Sub k n := by
  intro i hi
  refine h i ?_
  rw [← e]
  exact (Nat.testBit_or k K i).trans (by rw [hi, Bool.true_or])
theorem Sub.bit {k n : Nat} (h : Sub k n) {i : Nat} (e : k.testBit i = true) : n.testBit i = true := h i e
theorem Sub.refl (n : Nat) : Sub n n := fun _ h => h

/-- What the fuses hold stays: the anti-rollback counter only grows, a written customer key stays, the identity never
changes (R271, R281, R282). -/
def OtpLe (a b : Sec) : Prop := a.otpArb ≤ b.otpArb ∧ (a.custWritten = true → b.custWritten = true ∧ b.custKey = a.custKey) ∧ b.idSeed = a.idSeed

theorem otpLe_mk {a b : Sec} (h1 : a.otpArb ≤ b.otpArb) (h2 : a.custWritten = true → b.custWritten = true ∧ b.custKey = a.custKey)
    (h3 : b.idSeed = a.idSeed) : OtpLe a b := ⟨h1, h2, h3⟩
theorem OtpLe.refl (a : Sec) : OtpLe a a := ⟨Nat.le_refl _, fun h => ⟨h, rfl⟩, rfl⟩
theorem OtpLe.trans {a b c : Sec} (h : OtpLe a b) (g : OtpLe b c) : OtpLe a c :=
  ⟨Nat.le_trans h.1 g.1, fun w => ⟨(g.2.1 (h.2.1 w).1).1, ((g.2.1 (h.2.1 w).1).2).trans (h.2.1 w).2⟩, g.2.2.trans h.2.2⟩

/-- The fields that any operation may rewrite, held against those of `z`: each stands in `n` or is unchanged. -/
def UpdF (n : Nat) (z : State) (v_now : Nat) (v_ns : Nat) (v_hostRead : Word) (v_pick : Pick) (v_power : Power) (v_tension : Tension) (v_selvedge : Selvedge) (v_safety : Safety) (v_host : HostIf) (v_spool : Spool) (v_heddle : Heddle) (v_flow : FlowStore) (v_reed : Reed) (v_sec : Sec) (v_warp : Warp) (v_weft : Weft) (v_act : Act) (v_draft : Draft) (v_shuttle : Shuttle) (v_skein : Vector SkCore 4) (v_time : TimeU) (v_ports : Ports) : Prop :=
  (n.testBit 0 = true ∨ v_now = z.now) ∧
  (n.testBit 0 = true ∨ v_ns = z.ns) ∧
  (n.testBit 2 = true ∨ v_hostRead = z.hostRead) ∧
  (n.testBit 8 = true ∨ v_pick = z.pick) ∧
  (n.testBit 9 = true ∨ v_power = z.power) ∧
  (n.testBit 10 = true ∨ v_tension = z.tension) ∧
  (n.testBit 11 = true ∨ v_selvedge = z.selvedge) ∧
  (n.testBit 12 = true ∨ v_safety = z.safety) ∧
  (n.testBit 13 = true ∨ v_host = z.host) ∧
  (n.testBit 14 = true ∨ v_spool = z.spool) ∧
  (n.testBit 15 = true ∨ v_heddle = z.heddle) ∧
  (n.testBit 16 = true ∨ v_flow = z.flow) ∧
  (n.testBit 17 = true ∨ v_reed = z.reed) ∧
  (n.testBit 18 = true ∨ v_sec = z.sec) ∧
  (n.testBit 19 = true ∨ v_warp = z.warp) ∧
  (n.testBit 20 = true ∨ v_weft = z.weft) ∧
  (n.testBit 21 = true ∨ v_act = z.act) ∧
  (n.testBit 22 = true ∨ v_draft = z.draft) ∧
  (n.testBit 23 = true ∨ v_shuttle = z.shuttle) ∧
  (n.testBit 24 = true ∨ v_skein = z.skein) ∧
  (n.testBit 25 = true ∨ v_time = z.time) ∧
  (n.testBit 26 = true ∨ v_ports = z.ports) ∧
  (n.testBit 27 = true ∨ v_power.ready = z.power.ready) ∧
  (n.testBit 28 = true ∨ (z.safety.latch = true → v_safety.latch = true)) ∧
  OtpLe z.sec v_sec

/-- What is kept, said of the fields it speaks of; `z` is the state of before, `n` the set of parts. -/
def KeptF (n : Nat) (z : State) (v_pending : List Instr) (v_now : Nat) (v_ns : Nat) (v_dram : List Host.Cell) (v_hostRead : Word) (v_stg : Sparse Word) (v_cur : Sparse Word) (v_cnt : Sparse Nat) (v_hold : Sparse Nat) (v_sat : Sparse Bool) (v_draws : Nat) (v_out : List Output) (v_pick : Pick) (v_power : Power) (v_tension : Tension) (v_selvedge : Selvedge) (v_safety : Safety) (v_host : HostIf) (v_spool : Spool) (v_heddle : Heddle) (v_flow : FlowStore) (v_reed : Reed) (v_sec : Sec) (v_warp : Warp) (v_weft : Weft) (v_act : Act) (v_draft : Draft) (v_shuttle : Shuttle) (v_skein : Vector SkCore 4) (v_time : TimeU) (v_ports : Ports) : Prop :=
  v_pending = z.pending ∧
  (z.inv → (swf regReset v_stg = true ∧ swf regReset v_cur = true ∧ swf (fun _ => 0) v_cnt = true ∧ swf (fun _ => 0) v_hold = true
    ∧ swf (fun _ => false) v_sat = true ∧ Memory.wf v_dram = true) ∧ (∀ e ∈ v_cnt, e.2 ≤ cntMax)) ∧
  z.draws ≤ v_draws ∧ z.out <+: v_out ∧
  ((n.testBit 1 = true ∨ v_dram = z.dram) ∧ (n.testBit 3 = true ∨ v_stg = z.stg) ∧ (n.testBit 3 = true ∨ v_cur = z.cur) ∧ (n.testBit 4 = true ∨ v_cnt = z.cnt) ∧
    (n.testBit 5 = true ∨ v_hold = z.hold) ∧ (n.testBit 4 = true ∨ v_sat = z.sat) ∧ (n.testBit 6 = true ∨ v_draws = z.draws) ∧ (n.testBit 7 = true ∨ v_out = z.out)) ∧
  UpdF n z v_now v_ns v_hostRead v_pick v_power v_tension v_selvedge v_safety v_host v_spool v_heddle v_flow v_reed v_sec v_warp v_weft v_act v_draft v_shuttle v_skein v_time v_ports

/-- What every operation within the parts `n` keeps between the state of before, `z`, and the state of after. -/
def Kept (n : Nat) (z s : State) : Prop := KeptF n z s.pending s.now s.ns s.dram s.hostRead s.stg s.cur s.cnt s.hold s.sat s.draws s.out s.pick s.power s.tension s.selvedge s.safety s.host s.spool s.heddle s.flow s.reed s.sec s.warp s.weft s.act s.draft s.shuttle s.skein s.time s.ports

/-- The same of a command's result. -/
def KeptC (n : Nat) (z : State) : CmdRes → Prop
  | .fin _ _ s => Kept n z s
  | .work s => Kept n z s
/-- The same of a message's result. -/
def KeptM (n : Nat) (z : State) : MsgRes → Prop
  | .pass s => Kept n z s
  | .bad s => Kept n z s
/-- The same of a stretch of a command's work. -/
def KeptJ (n : Nat) (z : State) : WorkRes → Prop
  | .fin _ s => Kept n z s
  | .goes s => Kept n z s
/-- The same of a result that may be absent. -/
def KeptO (n : Nat) (z : State) (o : Option State) : Prop := ∀ t, o = some t → Kept n z t
/-- The same of a value and a state. -/
def KeptP {α : Type} (n : Nat) (z : State) (p : α × State) : Prop := Kept n z p.2
/-- The same of two values and a state. -/
def KeptQ {α β : Type} (n : Nat) (z : State) (p : α × β × State) : Prop := Kept n z p.2.2
/-- The same of an instruction's result on a core. -/
def KeptR (n : Nat) (z : State) (r : SkRes) : Prop := ∀ k f t, r = .ok k f t → Kept n z t
/-- The same of a value and a state that may be absent. -/
def KeptOP {α : Type} (n : Nat) (z : State) (o : Option (α × State)) : Prop := ∀ a t, o = some (a, t) → Kept n z t
/-- The same of two values and a state that may be absent. -/
def KeptOQ {α β : Type} (n : Nat) (z : State) (o : Option (α × β × State)) : Prop := ∀ a b t, o = some (a, b, t) → Kept n z t
/-- The same of a meaning: it answers a next state, which keeps it. -/
def KeptE (n : Nat) (z : State) (o : Host.Outcome State Fault Refusal) : Prop := ∃ t, o = .next t ∧ Kept n z t

variable {n : Nat} {z s : State}

theorem updF_refl (n : Nat) (s : State) : UpdF n s s.now s.ns s.hostRead s.pick s.power s.tension s.selvedge s.safety s.host s.spool s.heddle s.flow s.reed s.sec s.warp s.weft s.act s.draft s.shuttle s.skein s.time s.ports :=
  ⟨.inr rfl, .inr rfl, .inr rfl, .inr rfl, .inr rfl, .inr rfl, .inr rfl, .inr rfl, .inr rfl, .inr rfl, .inr rfl, .inr rfl, .inr rfl, .inr rfl, .inr rfl, .inr rfl, .inr rfl, .inr rfl, .inr rfl, .inr rfl, .inr rfl, .inr rfl, .inr rfl, .inr id, OtpLe.refl _⟩

/-- A state against itself. -/
theorem Kept.refl (n : Nat) (s : State) : Kept n s s := by
  refine ⟨rfl, fun h => ?_, Nat.le_refl _, List.prefix_refl _, ⟨.inr rfl, .inr rfl, .inr rfl, .inr rfl, .inr rfl, .inr rfl, .inr rfl, .inr rfl⟩, updF_refl n s⟩
  obtain ⟨h1, h2⟩ := h
  simp only [State.tablesWf, Bool.and_eq_true, State.countersWf, List.all_eq_true, decide_eq_true_eq] at h1 h2
  exact ⟨⟨h1.1.1.1.1.1, h1.1.1.1.1.2, h1.1.1.1.2, h1.1.1.2, h1.1.2, h1.2⟩, h2⟩

theorem Kept.inv (h : Kept n z s) (hz : z.inv) : s.inv := by
  obtain ⟨-, h, -⟩ := h
  obtain ⟨⟨h1, h2, h3, h4, h5, h6⟩, h7⟩ := h hz
  exact ⟨by simp [State.tablesWf, h1, h2, h3, h4, h5, h6], by simpa [State.countersWf, List.all_eq_true] using h7⟩

theorem kept_mk {a_pending a_now a_ns a_dram a_hostRead a_stg a_cur a_cnt a_hold a_sat a_draws a_out a_pick a_power a_tension a_selvedge a_safety a_host a_spool a_heddle a_flow a_reed a_sec a_warp a_weft a_act a_draft a_shuttle a_skein a_time a_ports} :
    Kept n z ⟨a_pending, a_now, a_ns, a_dram, a_hostRead, a_stg, a_cur, a_cnt, a_hold, a_sat, a_draws, a_out, a_pick, a_power, a_tension, a_selvedge, a_safety, a_host, a_spool, a_heddle, a_flow, a_reed, a_sec, a_warp, a_weft, a_act, a_draft, a_shuttle, a_skein, a_time, a_ports⟩ = KeptF n z a_pending a_now a_ns a_dram a_hostRead a_stg a_cur a_cnt a_hold a_sat a_draws a_out a_pick a_power a_tension a_selvedge a_safety a_host a_spool a_heddle a_flow a_reed a_sec a_warp a_weft a_act a_draft a_shuttle a_skein a_time a_ports := rfl

theorem or_trans {α : Type} {b : Prop} {x y w : α} (h : b ∨ y = w) (u : b ∨ x = y) : b ∨ x = w := by
  rcases h with h | h
  · exact .inl h
  · exact u.imp id (fun e => e.trans h)

/-- Rewriting some of the fields that any operation may rewrite. -/
theorem keptF_upd {v_now v_ns v_hostRead v_pick v_power v_tension v_selvedge v_safety v_host v_spool v_heddle v_flow v_reed v_sec v_warp v_weft v_act v_draft v_shuttle v_skein v_time v_ports} (h : Kept n z s)
    (u : UpdF n s v_now v_ns v_hostRead v_pick v_power v_tension v_selvedge v_safety v_host v_spool v_heddle v_flow v_reed v_sec v_warp v_weft v_act v_draft v_shuttle v_skein v_time v_ports) :
    KeptF n z s.pending v_now v_ns s.dram v_hostRead s.stg s.cur s.cnt s.hold s.sat s.draws s.out v_pick v_power v_tension v_selvedge v_safety v_host v_spool v_heddle v_flow v_reed v_sec v_warp v_weft v_act v_draft v_shuttle v_skein v_time v_ports := by
  obtain ⟨h0, h1, h2, h3, h4, h5⟩ := h
  refine ⟨h0, h1, h2, h3, h4, ?_⟩
  obtain ⟨a0, a1, a2, a3, a4, a5, a6, a7, a8, a9, a10, a11, a12, a13, a14, a15, a16, a17, a18, a19, a20, a21, a22, a23, a24⟩ := h5
  obtain ⟨b0, b1, b2, b3, b4, b5, b6, b7, b8, b9, b10, b11, b12, b13, b14, b15, b16, b17, b18, b19, b20, b21, b22, b23, b24⟩ := u
  refine ⟨or_trans a0 b0, or_trans a1 b1, or_trans a2 b2, or_trans a3 b3, or_trans a4 b4, or_trans a5 b5, or_trans a6 b6, or_trans a7 b7, or_trans a8 b8, or_trans a9 b9, or_trans a10 b10, or_trans a11 b11, or_trans a12 b12, or_trans a13 b13, or_trans a14 b14, or_trans a15 b15, or_trans a16 b16, or_trans a17 b17, or_trans a18 b18, or_trans a19 b19, or_trans a20 b20, or_trans a21 b21, or_trans a22 b22, ?_, a24.trans b24⟩
  rcases a23 with h | h
  · exact .inl h
  · exact b23.imp id (fun g w => g (h w))

theorem updF {K : Nat} {v_now v_ns v_hostRead v_pick v_power v_tension v_selvedge v_safety v_host v_spool v_heddle v_flow v_reed v_sec v_warp v_weft v_act v_draft v_shuttle v_skein v_time v_ports} (hk : Sub K n)
    (c : UpdF K s v_now v_ns v_hostRead v_pick v_power v_tension v_selvedge v_safety v_host v_spool v_heddle v_flow v_reed v_sec v_warp v_weft v_act v_draft v_shuttle v_skein v_time v_ports) :
    UpdF n s v_now v_ns v_hostRead v_pick v_power v_tension v_selvedge v_safety v_host v_spool v_heddle v_flow v_reed v_sec v_warp v_weft v_act v_draft v_shuttle v_skein v_time v_ports := by
  obtain ⟨b0, b1, b2, b3, b4, b5, b6, b7, b8, b9, b10, b11, b12, b13, b14, b15, b16, b17, b18, b19, b20, b21, b22, b23, b24⟩ := c
  exact ⟨b0.imp (hk _) id, b1.imp (hk _) id, b2.imp (hk _) id, b3.imp (hk _) id, b4.imp (hk _) id, b5.imp (hk _) id, b6.imp (hk _) id, b7.imp (hk _) id, b8.imp (hk _) id, b9.imp (hk _) id, b10.imp (hk _) id, b11.imp (hk _) id, b12.imp (hk _) id, b13.imp (hk _) id, b14.imp (hk _) id, b15.imp (hk _) id, b16.imp (hk _) id, b17.imp (hk _) id, b18.imp (hk _) id, b19.imp (hk _) id, b20.imp (hk _) id, b21.imp (hk _) id, b22.imp (hk _) id, b23.imp (hk _) id, b24⟩
theorem keptF_of (h : Kept n z s) : KeptF n z s.pending s.now s.ns s.dram s.hostRead s.stg s.cur s.cnt s.hold s.sat s.draws s.out s.pick s.power s.tension s.selvedge s.safety s.host s.spool s.heddle s.flow s.reed s.sec s.warp s.weft s.act s.draft s.shuttle s.skein s.time s.ports := h
theorem kept_ite {c : Prop} [Decidable c] {a b : State} (ha : Kept n z a) (hb : Kept n z b) : Kept n z (if c then a else b) := by
  split <;> assumption
theorem keptC_ite {c : Prop} [Decidable c] {a b : CmdRes} (ha : KeptC n z a) (hb : KeptC n z b) : KeptC n z (if c then a else b) := by
  split <;> assumption
theorem keptM_ite {c : Prop} [Decidable c] {a b : MsgRes} (ha : KeptM n z a) (hb : KeptM n z b) : KeptM n z (if c then a else b) := by
  split <;> assumption
theorem keptO_ite {c : Prop} [Decidable c] {a b : Option State} (ha : KeptO n z a) (hb : KeptO n z b) :
    KeptO n z (if c then a else b) := by
  split <;> assumption
theorem keptP_ite {α : Type} {c : Prop} [Decidable c] {a b : α × State} (ha : KeptP n z a) (hb : KeptP n z b) :
    KeptP n z (if c then a else b) := by
  split <;> assumption
theorem keptQ_ite {α β : Type} {c : Prop} [Decidable c] {a b : α × β × State} (ha : KeptQ n z a) (hb : KeptQ n z b) :
    KeptQ n z (if c then a else b) := by
  split <;> assumption
theorem keptJ_ite {c : Prop} [Decidable c] {a b : WorkRes} (ha : KeptJ n z a) (hb : KeptJ n z b) : KeptJ n z (if c then a else b) := by
  split <;> assumption
theorem keptJ_fin {a : Nat} (h : Kept n z s) : KeptJ n z (.fin a s) := h
theorem keptJ_goes (h : Kept n z s) : KeptJ n z (.goes s) := h
theorem keptC_fin {a b : Nat} (h : Kept n z s) : KeptC n z (.fin a b s) := h
theorem keptC_work (h : Kept n z s) : KeptC n z (.work s) := h
theorem keptM_pass (h : Kept n z s) : KeptM n z (.pass s) := h
theorem keptM_bad (h : Kept n z s) : KeptM n z (.bad s) := h
theorem keptO_none : KeptO n z none := by intro t h; cases h
theorem keptO_some (h : Kept n z s) : KeptO n z (some s) := by intro t e; cases e; exact h
theorem keptP_mk {α : Type} {a : α} : KeptP n z (a, s) = Kept n z s := rfl
theorem keptQ_mk {α β : Type} {a : α} {b : β} : KeptQ n z (a, b, s) = Kept n z s := rfl
theorem keptQ_snd {α β : Type} {p : α × β × State} (h : KeptQ n z p) : Kept n z p.2.2 := h
theorem keptP_snd {α : Type} {p : α × State} (h : KeptP n z p) : Kept n z p.2 := h
theorem keptP_of {α : Type} {p : α × State} {a : α} (hp : KeptP n z p) (e : p = (a, s)) : Kept n z s := by
  subst e
  exact hp
theorem keptQ_of {α β : Type} {p : α × β × State} {a : α} {b : β} (hp : KeptQ n z p) (e : p = (a, b, s)) : Kept n z s := by
  subst e
  exact hp
theorem keptE_next (h : Kept n z s) : KeptE n z (.next s) := ⟨s, rfl, h⟩
theorem kept_foldl {α : Type} {l : List α} {f : State → α → State} (h : Kept n z s) (hf : ∀ t x, Kept n z t → Kept n z (f t x)) :
    Kept n z (l.foldl f s) := by
  induction l generalizing s with
  | nil => exact h
  | cons a l ih => exact ih (hf s a h)
theorem keptP_foldl {α β : Type} {l : List α} {f : β × State → α → β × State} {b : β} (h : Kept n z s)
    (hf : ∀ b t x, Kept n z t → KeptP n z (f (b, t) x)) : KeptP n z (l.foldl f (b, s)) := by
  induction l generalizing s b with
  | nil => exact h
  | cons a l ih =>
    have := hf b s a h
    exact ih (s := (f (b, s) a).2) (b := (f (b, s) a).1) this

/-! ## One field rewritten -/

theorem kept_stg {m : Sparse Word} (h : Kept n z s) (hk : n.testBit 3 = true) (hm : swf regReset s.stg = true → swf regReset m = true) :
    Kept n z { s with stg := m } := by
  obtain ⟨h0, h1, h2, h3, ⟨g0, g1, g2, g3, g4, g5, g6, g7⟩, h5⟩ := h
  refine ⟨h0, fun i => ?_, h2, h3, ⟨g0, .inl hk, g2, g3, g4, g5, g6, g7⟩, h5⟩
  have w := h1 i
  exact ⟨⟨hm w.1.1, w.1.2.1, w.1.2.2.1, w.1.2.2.2.1, w.1.2.2.2.2.1, w.1.2.2.2.2.2⟩, w.2⟩
theorem kept_cur {m : Sparse Word} (h : Kept n z s) (hk : n.testBit 3 = true) (hm : swf regReset s.cur = true → swf regReset m = true) :
    Kept n z { s with cur := m } := by
  obtain ⟨h0, h1, h2, h3, ⟨g0, g1, g2, g3, g4, g5, g6, g7⟩, h5⟩ := h
  refine ⟨h0, fun i => ?_, h2, h3, ⟨g0, g1, .inl hk, g3, g4, g5, g6, g7⟩, h5⟩
  have w := h1 i
  exact ⟨⟨w.1.1, hm w.1.2.1, w.1.2.2.1, w.1.2.2.2.1, w.1.2.2.2.2.1, w.1.2.2.2.2.2⟩, w.2⟩
theorem kept_cnt {m : Sparse Nat} (h : Kept n z s) (hk : n.testBit 4 = true) (hm : swf (fun _ => 0) s.cnt = true → (∀ e ∈ s.cnt, e.2 ≤ cntMax) → swf (fun _ => 0) m = true ∧ ∀ e ∈ m, e.2 ≤ cntMax) :
    Kept n z { s with cnt := m } := by
  obtain ⟨h0, h1, h2, h3, ⟨g0, g1, g2, g3, g4, g5, g6, g7⟩, h5⟩ := h
  refine ⟨h0, fun i => ?_, h2, h3, ⟨g0, g1, g2, .inl hk, g4, g5, g6, g7⟩, h5⟩
  have w := h1 i
  exact ⟨⟨w.1.1, w.1.2.1, (hm w.1.2.2.1 w.2).1, w.1.2.2.2.1, w.1.2.2.2.2.1, w.1.2.2.2.2.2⟩, (hm w.1.2.2.1 w.2).2⟩
theorem kept_hold {m : Sparse Nat} (h : Kept n z s) (hk : n.testBit 5 = true) (hm : swf (fun _ => 0) s.hold = true → swf (fun _ => 0) m = true) :
    Kept n z { s with hold := m } := by
  obtain ⟨h0, h1, h2, h3, ⟨g0, g1, g2, g3, g4, g5, g6, g7⟩, h5⟩ := h
  refine ⟨h0, fun i => ?_, h2, h3, ⟨g0, g1, g2, g3, .inl hk, g5, g6, g7⟩, h5⟩
  have w := h1 i
  exact ⟨⟨w.1.1, w.1.2.1, w.1.2.2.1, hm w.1.2.2.2.1, w.1.2.2.2.2.1, w.1.2.2.2.2.2⟩, w.2⟩
theorem kept_sat {m : Sparse Bool} (h : Kept n z s) (hk : n.testBit 4 = true) (hm : swf (fun _ => false) s.sat = true → swf (fun _ => false) m = true) :
    Kept n z { s with sat := m } := by
  obtain ⟨h0, h1, h2, h3, ⟨g0, g1, g2, g3, g4, g5, g6, g7⟩, h5⟩ := h
  refine ⟨h0, fun i => ?_, h2, h3, ⟨g0, g1, g2, g3, g4, .inl hk, g6, g7⟩, h5⟩
  have w := h1 i
  exact ⟨⟨w.1.1, w.1.2.1, w.1.2.2.1, w.1.2.2.2.1, hm w.1.2.2.2.2.1, w.1.2.2.2.2.2⟩, w.2⟩
theorem kept_dram {m : List Host.Cell} (h : Kept n z s) (hk : n.testBit 1 = true) (hm : Memory.wf s.dram = true → Memory.wf m = true) :
    Kept n z { s with dram := m } := by
  obtain ⟨h0, h1, h2, h3, ⟨g0, g1, g2, g3, g4, g5, g6, g7⟩, h5⟩ := h
  refine ⟨h0, fun i => ?_, h2, h3, ⟨.inl hk, g1, g2, g3, g4, g5, g6, g7⟩, h5⟩
  have w := h1 i
  exact ⟨⟨w.1.1, w.1.2.1, w.1.2.2.1, w.1.2.2.2.1, w.1.2.2.2.2.1, hm w.1.2.2.2.2.2⟩, w.2⟩
theorem kept_draws {m : Nat} (h : Kept n z s) (hk : n.testBit 6 = true) (hn : s.draws ≤ m) : Kept n z { s with draws := m } := by
  obtain ⟨h0, h1, h2, h3, ⟨g0, g1, g2, g3, g4, g5, g6, g7⟩, h5⟩ := h
  exact ⟨h0, h1, Nat.le_trans h2 hn, h3, ⟨g0, g1, g2, g3, g4, g5, .inl hk, g7⟩, h5⟩
theorem kept_out {o : List Output} (h : Kept n z s) (hk : n.testBit 7 = true) (ho : s.out <+: o) : Kept n z { s with out := o } := by
  obtain ⟨h0, h1, h2, h3, ⟨g0, g1, g2, g3, g4, g5, g6, g7⟩, h5⟩ := h
  exact ⟨h0, h1, h2, h3.trans ho, ⟨g0, g1, g2, g3, g4, g5, g6, .inl hk⟩, h5⟩

/-- A counter written with a value within the bound. -/
theorem kept_cntPut (h : Kept n z s) (hk : n.testBit 4 = true) (k v : Nat) (hv : v ≤ cntMax) :
    Kept n z { s with cnt := sput 0 s.cnt k v } := by
  refine kept_cnt h hk (fun w b => ⟨swf_sput (d := fun _ => 0) w k v, fun e he => ?_⟩)
  rcases sput_mem he with rfl | he
  · exact hv
  · exact b e he

/-- Registers, counters, holding registers and saturation bits of which some are lost. -/
theorem kept_lose {p1 p2 p3 p4 p5 : Nat → Bool} (h : Kept n z s) (hk : Sub 56 n) :
    Kept n z { s with stg := skeep p1 s.stg, cur := skeep p2 s.cur, cnt := skeep p3 s.cnt, hold := skeep p4 s.hold, sat := skeep p5 s.sat } :=
  kept_sat (s := { s with stg := skeep p1 s.stg, cur := skeep p2 s.cur, cnt := skeep p3 s.cnt, hold := skeep p4 s.hold })
    (kept_hold (s := { s with stg := skeep p1 s.stg, cur := skeep p2 s.cur, cnt := skeep p3 s.cnt })
      (kept_cnt (s := { s with stg := skeep p1 s.stg, cur := skeep p2 s.cur })
        (kept_cur (s := { s with stg := skeep p1 s.stg })
          (kept_stg h (hk 3 rfl) (fun w => swf_skeep w p1)) (hk 3 rfl) (fun w => swf_skeep w p2))
        (hk 4 rfl) (fun w b => ⟨swf_skeep w p3, fun x hx => b x (List.mem_of_mem_filter hx)⟩))
      (hk 5 rfl) (fun w => swf_skeep w p4)) (hk 4 rfl) (fun w => swf_skeep w p5)

/-- Every table lost. -/
theorem kept_nil (h : Kept n z s) (hk : Sub 58 n) :
    Kept n z { s with stg := [], cur := [], cnt := [], hold := [], sat := [], dram := [] } :=
  kept_dram (s := { s with stg := [], cur := [], cnt := [], hold := [], sat := [] })
    (kept_sat (s := { s with stg := [], cur := [], cnt := [], hold := [] })
      (kept_hold (s := { s with stg := [], cur := [], cnt := [] })
        (kept_cnt (s := { s with stg := [], cur := [] })
          (kept_cur (s := { s with stg := [] })
            (kept_stg h (hk 3 rfl) (fun _ => swf_nil _)) (hk 3 rfl) (fun _ => swf_nil _))
          (hk 4 rfl) (fun _ _ => ⟨swf_nil _, fun _ hx => by cases hx⟩))
        (hk 5 rfl) (fun _ => swf_nil _)) (hk 4 rfl) (fun _ => swf_nil _)) (hk 1 rfl) (fun _ => swf_nil _)

/-- The list of states that a result offers, or the state of before. -/
theorem kept_getD {o : Option State} {t : State} (h : Kept n z t) (ho : KeptO n z o) : Kept n z (o.getD t) := by
  cases o with
  | none => exact h
  | some x => exact ho x rfl

theorem keptOP_none {α : Type} : KeptOP (α := α) n z none := by
  intro a t e
  cases e
theorem keptOP_some {α : Type} {a : α} (h : Kept n z s) : KeptOP n z (some (a, s)) := by
  intro b t e
  cases e
  exact h
theorem keptOP_ite {α : Type} {c : Prop} [Decidable c] {a b : Option (α × State)} (ha : KeptOP n z a) (hb : KeptOP n z b) :
    KeptOP n z (if c then a else b) := by
  split <;> assumption
theorem keptOQ_none {α β : Type} : KeptOQ (α := α) (β := β) n z none := by
  intro a b t e
  cases e
theorem keptOQ_some {α β : Type} {a : α} {b : β} (h : Kept n z s) : KeptOQ n z (some (a, b, s)) := by
  intro c d t e
  cases e
  exact h
theorem keptOQ_ite {α β : Type} {c : Prop} [Decidable c] {a b : Option (α × β × State)} (ha : KeptOQ n z a) (hb : KeptOQ n z b) :
    KeptOQ n z (if c then a else b) := by
  split <;> assumption

theorem keptR_fault {c : Nat} : KeptR n z (.fault c) := by
  intro k f t e
  cases e
theorem keptR_stall : KeptR n z .stall := by
  intro k f t e
  cases e
theorem keptR_ok {k : SkCore} {f : SkFlow} (h : Kept n z s) : KeptR n z (.ok k f s) := by
  intro k f t e
  cases e
  exact h
theorem keptR_ite {c : Prop} [Decidable c] {a b : SkRes} (ha : KeptR n z a) (hb : KeptR n z b) : KeptR n z (if c then a else b) := by
  split <;> assumption


/-! ## What follows from it -/

/-- The parts that a set of bits names. -/
def partsOf (n : Nat) : List Part :=
  ([(.clock, 0), (.dram, 1), (.hostRead, 2), (.regs, 3), (.cnt, 4), (.hold, 5), (.draws, 6), (.out, 7), (.pick, 8), (.power, 9), (.tension, 10), (.selvedge, 11), (.safety, 12), (.host, 13), (.spool, 14), (.heddle, 15), (.flow, 16), (.reed, 17), (.sec, 18), (.warp, 19), (.weft, 20), (.act, 21), (.draft, 22), (.shuttle, 23), (.skein, 24), (.time, 25), (.ports, 26)] : List (Part × Nat)).filterMap (fun e => if n.testBit e.2 then some e.1 else none)

theorem mem_partsOf {n i : Nat} {p : Part} (h : n.testBit i = true) (hp : (p, i) ∈ ([(.clock, 0), (.dram, 1), (.hostRead, 2), (.regs, 3), (.cnt, 4), (.hold, 5), (.draws, 6), (.out, 7), (.pick, 8), (.power, 9), (.tension, 10), (.selvedge, 11), (.safety, 12), (.host, 13), (.spool, 14), (.heddle, 15), (.flow, 16), (.reed, 17), (.sec, 18), (.warp, 19), (.weft, 20), (.act, 21), (.draft, 22), (.shuttle, 23), (.skein, 24), (.time, 25), (.ports, 26)] : List (Part × Nat))) :
    p ∈ partsOf n := by
  unfold partsOf
  rw [List.mem_filterMap]
  exact ⟨(p, i), hp, by simp [h]⟩

/-- The parts of the state outside the set are unchanged. -/
theorem Kept.sameBut (h : Kept n z s) : z.sameBut (partsOf n) s := by
  obtain ⟨h0, -, -, -, ⟨g0, g1, g2, g3, g4, g5, g6, g7⟩, h5⟩ := h
  obtain ⟨a0, a1, a2, a3, a4, a5, a6, a7, a8, a9, a10, a11, a12, a13, a14, a15, a16, a17, a18, a19, a20, a21, a22, a23, a24⟩ := h5
  have m : ∀ (p : Part) (i : Nat), (p, i) ∈ ([(.clock, 0), (.dram, 1), (.hostRead, 2), (.regs, 3), (.cnt, 4), (.hold, 5), (.draws, 6), (.out, 7), (.pick, 8), (.power, 9), (.tension, 10), (.selvedge, 11), (.safety, 12), (.host, 13), (.spool, 14), (.heddle, 15), (.flow, 16), (.reed, 17), (.sec, 18), (.warp, 19), (.weft, 20), (.act, 21), (.draft, 22), (.shuttle, 23), (.skein, 24), (.time, 25), (.ports, 26)] : List (Part × Nat)) →
      n.testBit i = true → p ∈ partsOf n := fun p i hp hi => mem_partsOf hi hp
  unfold State.sameBut
  have both : ∀ {b : Prop} {p : Part} {x y : Prop}, (b → p ∈ partsOf n) → b ∨ x → b ∨ y → p ∈ partsOf n ∨ x ∧ y := by
    intro b p x y hb hx hy
    rcases hx with hx | hx
    · exact .inl (hb hx)
    · exact hy.imp hb (fun hy => ⟨hx, hy⟩)
  exact ⟨h0, both (m .clock 0 (by simp)) a0 a1, g0.imp (m .dram 1 (by simp)) id, a2.imp (m .hostRead 2 (by simp)) id,
    both (m .regs 3 (by simp)) g1 g2, both (m .cnt 4 (by simp)) g3 g5, g4.imp (m .hold 5 (by simp)) id,
    g6.imp (m .draws 6 (by simp)) id, g7.imp (m .out 7 (by simp)) id, a3.imp (m .pick 8 (by simp)) id,
    a4.imp (m .power 9 (by simp)) id, a5.imp (m .tension 10 (by simp)) id, a6.imp (m .selvedge 11 (by simp)) id,
    a7.imp (m .safety 12 (by simp)) id, a8.imp (m .host 13 (by simp)) id, a9.imp (m .spool 14 (by simp)) id,
    a10.imp (m .heddle 15 (by simp)) id, a11.imp (m .flow 16 (by simp)) id, a12.imp (m .reed 17 (by simp)) id,
    a13.imp (m .sec 18 (by simp)) id, a14.imp (m .warp 19 (by simp)) id, a15.imp (m .weft 20 (by simp)) id,
    a16.imp (m .act 21 (by simp)) id, a17.imp (m .draft 22 (by simp)) id, a18.imp (m .shuttle 23 (by simp)) id,
    a19.imp (m .skein 24 (by simp)) id, a20.imp (m .time 25 (by simp)) id, a21.imp (m .ports 26 (by simp)) id⟩

theorem Kept.ready (h : Kept n z s) : n.testBit 27 = true ∨ s.power.ready = z.power.ready := by
  obtain ⟨-, -, -, -, -, h5⟩ := h
  obtain ⟨-, -, -, -, -, -, -, -, -, -, -, -, -, -, -, -, -, -, -, -, -, -, a, -, -⟩ := h5
  exact a
theorem Kept.latch (h : Kept n z s) : n.testBit 28 = true ∨ (z.safety.latch = true → s.safety.latch = true) := by
  obtain ⟨-, -, -, -, -, h5⟩ := h
  obtain ⟨-, -, -, -, -, -, -, -, -, -, -, -, -, -, -, -, -, -, -, -, -, -, -, a, -⟩ := h5
  exact a
theorem Kept.otp (h : Kept n z s) : OtpLe z.sec s.sec := by
  obtain ⟨-, -, -, -, -, h5⟩ := h
  obtain ⟨-, -, -, -, -, -, -, -, -, -, -, -, -, -, -, -, -, -, -, -, -, -, -, -, a⟩ := h5
  exact a
theorem Kept.pending (h : Kept n z s) : s.pending = z.pending := h.1
theorem Kept.draws (h : Kept n z s) : z.draws ≤ s.draws := h.2.2.1
theorem Kept.out (h : Kept n z s) : z.out <+: s.out := h.2.2.2.1
theorem Kept.dram_eq (h : Kept n z s) (hn : n.testBit 1 = false) : s.dram = z.dram := by
  obtain ⟨-, -, -, -, ⟨a, -⟩, -⟩ := h
  exact a.resolve_left (by simp [hn])
theorem Kept.now_eq (h : Kept n z s) (hn : n.testBit 0 = false) : s.now = z.now := by
  obtain ⟨-, -, -, -, -, h5⟩ := h
  obtain ⟨a, -⟩ := h5
  exact a.resolve_left (by simp [hn])
theorem Kept.ns_eq (h : Kept n z s) (hn : n.testBit 0 = false) : s.ns = z.ns := by
  obtain ⟨-, -, -, -, -, h5⟩ := h
  obtain ⟨-, a, -⟩ := h5
  exact a.resolve_left (by simp [hn])
theorem Kept.hostRead_eq (h : Kept n z s) (hn : n.testBit 2 = false) : s.hostRead = z.hostRead := by
  obtain ⟨-, -, -, -, -, h5⟩ := h
  obtain ⟨-, -, a, -⟩ := h5
  exact a.resolve_left (by simp [hn])
theorem Kept.pick_eq (h : Kept n z s) (hn : n.testBit 8 = false) : s.pick = z.pick := by
  obtain ⟨-, -, -, -, -, h5⟩ := h
  obtain ⟨-, -, -, a, -⟩ := h5
  exact a.resolve_left (by simp [hn])
theorem Kept.power_eq (h : Kept n z s) (hn : n.testBit 9 = false) : s.power = z.power := by
  obtain ⟨-, -, -, -, -, h5⟩ := h
  obtain ⟨-, -, -, -, a, -⟩ := h5
  exact a.resolve_left (by simp [hn])
theorem Kept.tension_eq (h : Kept n z s) (hn : n.testBit 10 = false) : s.tension = z.tension := by
  obtain ⟨-, -, -, -, -, h5⟩ := h
  obtain ⟨-, -, -, -, -, a, -⟩ := h5
  exact a.resolve_left (by simp [hn])
theorem Kept.selvedge_eq (h : Kept n z s) (hn : n.testBit 11 = false) : s.selvedge = z.selvedge := by
  obtain ⟨-, -, -, -, -, h5⟩ := h
  obtain ⟨-, -, -, -, -, -, a, -⟩ := h5
  exact a.resolve_left (by simp [hn])
theorem Kept.safety_eq (h : Kept n z s) (hn : n.testBit 12 = false) : s.safety = z.safety := by
  obtain ⟨-, -, -, -, -, h5⟩ := h
  obtain ⟨-, -, -, -, -, -, -, a, -⟩ := h5
  exact a.resolve_left (by simp [hn])
theorem Kept.host_eq (h : Kept n z s) (hn : n.testBit 13 = false) : s.host = z.host := by
  obtain ⟨-, -, -, -, -, h5⟩ := h
  obtain ⟨-, -, -, -, -, -, -, -, a, -⟩ := h5
  exact a.resolve_left (by simp [hn])
theorem Kept.spool_eq (h : Kept n z s) (hn : n.testBit 14 = false) : s.spool = z.spool := by
  obtain ⟨-, -, -, -, -, h5⟩ := h
  obtain ⟨-, -, -, -, -, -, -, -, -, a, -⟩ := h5
  exact a.resolve_left (by simp [hn])
theorem Kept.heddle_eq (h : Kept n z s) (hn : n.testBit 15 = false) : s.heddle = z.heddle := by
  obtain ⟨-, -, -, -, -, h5⟩ := h
  obtain ⟨-, -, -, -, -, -, -, -, -, -, a, -⟩ := h5
  exact a.resolve_left (by simp [hn])
theorem Kept.flow_eq (h : Kept n z s) (hn : n.testBit 16 = false) : s.flow = z.flow := by
  obtain ⟨-, -, -, -, -, h5⟩ := h
  obtain ⟨-, -, -, -, -, -, -, -, -, -, -, a, -⟩ := h5
  exact a.resolve_left (by simp [hn])
theorem Kept.reed_eq (h : Kept n z s) (hn : n.testBit 17 = false) : s.reed = z.reed := by
  obtain ⟨-, -, -, -, -, h5⟩ := h
  obtain ⟨-, -, -, -, -, -, -, -, -, -, -, -, a, -⟩ := h5
  exact a.resolve_left (by simp [hn])
theorem Kept.sec_eq (h : Kept n z s) (hn : n.testBit 18 = false) : s.sec = z.sec := by
  obtain ⟨-, -, -, -, -, h5⟩ := h
  obtain ⟨-, -, -, -, -, -, -, -, -, -, -, -, -, a, -⟩ := h5
  exact a.resolve_left (by simp [hn])
theorem Kept.warp_eq (h : Kept n z s) (hn : n.testBit 19 = false) : s.warp = z.warp := by
  obtain ⟨-, -, -, -, -, h5⟩ := h
  obtain ⟨-, -, -, -, -, -, -, -, -, -, -, -, -, -, a, -⟩ := h5
  exact a.resolve_left (by simp [hn])
theorem Kept.weft_eq (h : Kept n z s) (hn : n.testBit 20 = false) : s.weft = z.weft := by
  obtain ⟨-, -, -, -, -, h5⟩ := h
  obtain ⟨-, -, -, -, -, -, -, -, -, -, -, -, -, -, -, a, -⟩ := h5
  exact a.resolve_left (by simp [hn])
theorem Kept.act_eq (h : Kept n z s) (hn : n.testBit 21 = false) : s.act = z.act := by
  obtain ⟨-, -, -, -, -, h5⟩ := h
  obtain ⟨-, -, -, -, -, -, -, -, -, -, -, -, -, -, -, -, a, -⟩ := h5
  exact a.resolve_left (by simp [hn])
theorem Kept.draft_eq (h : Kept n z s) (hn : n.testBit 22 = false) : s.draft = z.draft := by
  obtain ⟨-, -, -, -, -, h5⟩ := h
  obtain ⟨-, -, -, -, -, -, -, -, -, -, -, -, -, -, -, -, -, a, -⟩ := h5
  exact a.resolve_left (by simp [hn])
theorem Kept.shuttle_eq (h : Kept n z s) (hn : n.testBit 23 = false) : s.shuttle = z.shuttle := by
  obtain ⟨-, -, -, -, -, h5⟩ := h
  obtain ⟨-, -, -, -, -, -, -, -, -, -, -, -, -, -, -, -, -, -, a, -⟩ := h5
  exact a.resolve_left (by simp [hn])
theorem Kept.skein_eq (h : Kept n z s) (hn : n.testBit 24 = false) : s.skein = z.skein := by
  obtain ⟨-, -, -, -, -, h5⟩ := h
  obtain ⟨-, -, -, -, -, -, -, -, -, -, -, -, -, -, -, -, -, -, -, a, -⟩ := h5
  exact a.resolve_left (by simp [hn])
theorem Kept.time_eq (h : Kept n z s) (hn : n.testBit 25 = false) : s.time = z.time := by
  obtain ⟨-, -, -, -, -, h5⟩ := h
  obtain ⟨-, -, -, -, -, -, -, -, -, -, -, -, -, -, -, -, -, -, -, -, a, -⟩ := h5
  exact a.resolve_left (by simp [hn])
theorem Kept.ports_eq (h : Kept n z s) (hn : n.testBit 26 = false) : s.ports = z.ports := by
  obtain ⟨-, -, -, -, -, h5⟩ := h
  obtain ⟨-, -, -, -, -, -, -, -, -, -, -, -, -, -, -, -, -, -, -, -, -, a, -⟩ := h5
  exact a.resolve_left (by simp [hn])
theorem Kept.stg_eq (h : Kept n z s) (hn : n.testBit 3 = false) : s.stg = z.stg := by
  obtain ⟨-, -, -, -, ⟨-, a, -⟩, -⟩ := h
  exact a.resolve_left (by simp [hn])
theorem Kept.cur_eq (h : Kept n z s) (hn : n.testBit 3 = false) : s.cur = z.cur := by
  obtain ⟨-, -, -, -, ⟨-, -, a, -⟩, -⟩ := h
  exact a.resolve_left (by simp [hn])
theorem Kept.cnt_eq (h : Kept n z s) (hn : n.testBit 4 = false) : s.cnt = z.cnt := by
  obtain ⟨-, -, -, -, ⟨-, -, -, a, -⟩, -⟩ := h
  exact a.resolve_left (by simp [hn])
theorem Kept.hold_eq (h : Kept n z s) (hn : n.testBit 5 = false) : s.hold = z.hold := by
  obtain ⟨-, -, -, -, ⟨-, -, -, -, a, -⟩, -⟩ := h
  exact a.resolve_left (by simp [hn])
theorem Kept.sat_eq (h : Kept n z s) (hn : n.testBit 4 = false) : s.sat = z.sat := by
  obtain ⟨-, -, -, -, ⟨-, -, -, -, -, a, -⟩, -⟩ := h
  exact a.resolve_left (by simp [hn])

end Sys2Proof.Machine
end

