-- ==== Sys2Proof/Laws/KeptShared.lean ====
section
/-! SUPPORT. Laws/KeptShared.lean: what Laws/Kept.lean says, of the shared operations: registers, counters, reports, rings, commands, memory, Spool: one lemma an operation. -/

namespace Sys2Proof.Machine

open Sys2Proof

/-! ## Machine/Ops.lean -/

theorem stage_kept {fp : Nat} {z s : State} {a v : Nat} (h : Kept fp z s)
    (hk : Sub 8 fp) : Kept fp z (stage s a v) := by
  unfold stage
  exact kept_stg h (hk 3 rfl) (fun w => swf_sput w a _)

theorem force_kept {fp : Nat} {z s : State} {a v : Nat} (h : Kept fp z s)
    (hk : Sub 8 fp) : Kept fp z (force s a v) := by
  unfold force
  exact kept_cur h (hk 3 rfl) (fun w => swf_sput w a _)

theorem setReg_kept {fp : Nat} {z : State} {s : State} {a : Nat} {v : Nat} (h : Kept fp z s)
    (hk : Sub 8 fp) :
    Kept fp z (setReg s a v) := by
  unfold setReg
  repeat' first
    | with_reducible assumption
    | exact Sub.of hk rfl
    | with_reducible intro _
    | with_reducible apply kept_ite
    | with_reducible apply force_kept
    | with_reducible apply stage_kept

theorem setFld_kept {fp : Nat} {z : State} {s : State} {a : Nat} {hi : Nat} {lo : Nat} {v : Nat} (h : Kept fp z s)
    (hk : Sub 8 fp) :
    Kept fp z (setFld s a hi lo v) := by
  unfold setFld
  repeat' first
    | with_reducible assumption
    | exact Sub.of hk rfl
    | with_reducible intro _
    | with_reducible apply kept_ite
    | with_reducible apply force_kept
    | with_reducible apply stage_kept

theorem setBit_kept {fp : Nat} {z : State} {s : State} {a : Nat} {n : Nat} (h : Kept fp z s)
    (hk : Sub 8 fp) :
    Kept fp z (setBit s a n) := by
  unfold setBit
  repeat' first
    | with_reducible assumption
    | exact Sub.of hk rfl
    | with_reducible intro _
    | with_reducible apply kept_ite
    | with_reducible apply setFld_kept

theorem clrBit_kept {fp : Nat} {z : State} {s : State} {a : Nat} {n : Nat} (h : Kept fp z s)
    (hk : Sub 8 fp) :
    Kept fp z (clrBit s a n) := by
  unfold clrBit
  repeat' first
    | with_reducible assumption
    | exact Sub.of hk rfl
    | with_reducible intro _
    | with_reducible apply kept_ite
    | with_reducible apply setFld_kept

theorem countKey_kept {fp : Nat} {z s : State} {k n : Nat} (h : Kept fp z s)
    (hk : Sub 16 fp) : Kept fp z (countKey s k n) := by
  unfold countKey
  dsimp only
  split
  · exact kept_cntPut h (hk 4 rfl) k _ (by omega)
  · exact kept_sat (s := { s with cnt := sput 0 s.cnt k cntMax }) (kept_cntPut h (hk 4 rfl) k _ (Nat.le_refl _)) (hk 4 rfl)
      (fun w => swf_sput (d := fun _ => false) w k true)

theorem countBy_kept {fp : Nat} {z : State} {s : State} {g : Nat} {n : Nat} {k : Nat} (h : Kept fp z s)
    (hk : Sub 16 fp) :
    Kept fp z (countBy s g n k) := by
  unfold countBy
  repeat' first
    | with_reducible assumption
    | exact Sub.of hk rfl
    | with_reducible intro _
    | with_reducible apply kept_ite
    | with_reducible apply countKey_kept

theorem count_kept {fp : Nat} {z : State} {s : State} {g : Nat} {n : Nat} (h : Kept fp z s)
    (hk : Sub 16 fp) :
    Kept fp z (count s g n) := by
  unfold count
  repeat' first
    | with_reducible assumption
    | exact Sub.of hk rfl
    | with_reducible intro _
    | with_reducible apply kept_ite
    | with_reducible apply countBy_kept

theorem draw_kept {fp : Nat} {z s : State} (h : Kept fp z s)
    (hk : Sub 64 fp) : KeptP fp z (draw s) := kept_draws h (hk 6 rfl) (Nat.le_succ _)

theorem draw_kept_of {fp : Nat} {z : State} {s : State} {x9} {t9 : State} (h : Kept fp z s) (e : draw s = (x9, t9)) (hk : Sub 64 fp) : Kept fp z t9 := keptP_of (draw_kept (z := z) h hk) e

theorem drawBytes_kept {fp : Nat} {z s : State} {n : Nat} (h : Kept fp z s)
    (hk : Sub 64 fp) : KeptP fp z (drawBytes s n) := kept_draws h (hk 6 rfl) (Nat.le_succ _)

theorem drawBytes_kept_of {fp : Nat} {z : State} {s : State} {n : Nat} {x9} {t9 : State} (h : Kept fp z s) (e : drawBytes s n = (x9, t9)) (hk : Sub 64 fp) : Kept fp z t9 := keptP_of (drawBytes_kept (z := z) h hk) e

theorem emit_kept {fp : Nat} {z s : State} {o : Output} (h : Kept fp z s)
    (hk : Sub 128 fp) : Kept fp z (emit s o) := kept_out h (hk 7 rfl) (List.prefix_append _ _)

theorem arrive_kept {fp : Nat} {z : State} {s : State} {r : Report} (h : Kept fp z s)
    (hk : Sub 2072 fp) :
    Kept fp z (arrive s r) := by
  unfold arrive
  repeat' first
    | with_reducible assumption
    | exact Sub.of hk rfl
    | with_reducible intro _
    | with_reducible apply kept_ite
    | with_reducible apply setBit_kept
    | with_reducible apply count_kept
    | with_reducible apply kept_foldl
    | with_reducible apply kept_getD
    | with_reducible apply keptF_of
    | with_reducible apply keptQ_snd
    | with_reducible apply keptP_snd
    | dsimp only
    | with_reducible apply keptP_ite
    | simp only [keptQ_mk]
    | with_reducible apply keptQ_ite
    | split
    | simp only [kept_mk]
    | with_reducible refine keptF_upd ?_ (updF hk ?_)
    | (unfold UpdF; and_intros <;> first | exact .inl rfl | exact .inr rfl | exact .inr id | exact .inr fun _ => rfl | exact .refl _ | exact fun h => ⟨h, rfl⟩ | rfl | exact Nat.le_max_left _ _)

theorem raiseRoot_kept {fp : Nat} {z : State} {s : State} {source : Nat} {code : Nat} {ctx : Nat} {rootSource : Nat} {rootCode : Nat} (h : Kept fp z s)
    (hk : Sub 2072 fp) :
    Kept fp z (raiseRoot s source code ctx rootSource rootCode) := by
  unfold raiseRoot
  repeat' first
    | with_reducible assumption
    | exact Sub.of hk rfl
    | with_reducible intro _
    | with_reducible apply kept_ite
    | with_reducible apply arrive_kept

theorem raiseEv_kept {fp : Nat} {z : State} {s : State} {source : Nat} {code : Nat} {ctx : Nat} (h : Kept fp z s)
    (hk : Sub 2072 fp) :
    Kept fp z (raiseEv s source code ctx) := by
  unfold raiseEv
  repeat' first
    | with_reducible assumption
    | exact Sub.of hk rfl
    | with_reducible intro _
    | with_reducible apply kept_ite
    | with_reducible apply raiseRoot_kept

theorem raiseFree_kept {fp : Nat} {z : State} {s : State} {source : Nat} {code : Nat} (h : Kept fp z s)
    (hk : Sub 2136 fp) :
    Kept fp z (raiseFree s source code) := by
  unfold raiseFree
  repeat' first
    | with_reducible assumption
    | exact Sub.of hk rfl
    | with_reducible intro _
    | with_reducible apply kept_ite
    | with_reducible refine draw_kept_of ?_ (by assumption) ?_
    | with_reducible apply draw_kept
    | with_reducible apply raiseEv_kept
    | with_reducible apply kept_foldl
    | with_reducible apply kept_getD
    | with_reducible apply keptF_of
    | with_reducible apply keptQ_snd
    | with_reducible apply keptP_snd

theorem progErr_kept {fp : Nat} {z : State} {s : State} {source : Nat} (h : Kept fp z s)
    (hk : Sub 2136 fp) :
    Kept fp z (progErr s source) := by
  unfold progErr
  repeat' first
    | with_reducible assumption
    | exact Sub.of hk rfl
    | with_reducible intro _
    | with_reducible apply kept_ite
    | with_reducible apply raiseFree_kept

theorem overrunEv_kept {fp : Nat} {z : State} {s : State} {bit : Nat} {source : Nat} {clocks : Nat} (h : Kept fp z s)
    (hk : Sub 2072 fp) :
    Kept fp z (overrunEv s bit source clocks) := by
  unfold overrunEv
  repeat' first
    | with_reducible assumption
    | exact Sub.of hk rfl
    | with_reducible intro _
    | with_reducible apply kept_ite
    | with_reducible apply raiseEv_kept
    | with_reducible apply setBit_kept

theorem forUpTo_kept {fp : Nat} {z s : State} {n : Nat} {f : Nat → State → State} (h : Kept fp z s) (hf : ∀ i t, Kept fp z t → Kept fp z (f i t))
    (hk : Sub 0 fp) :
    Kept fp z (forUpTo n s f) := kept_foldl h (fun t x ht => hf x t ht)

/-! ## Machine/Rings.lean -/

theorem setRing_kept {fp : Nat} {z : State} {s : State} {r : Nat} {x : Ring} (h : Kept fp z s)
    (hk : Sub 8192 fp) :
    Kept fp z (setRing s r x) := by
  unfold setRing
  repeat' first
    | with_reducible assumption
    | exact Sub.of hk rfl
    | with_reducible intro _
    | with_reducible apply kept_ite
    | with_reducible apply kept_foldl
    | with_reducible apply kept_getD
    | with_reducible apply keptF_of
    | with_reducible apply keptQ_snd
    | with_reducible apply keptP_snd
    | dsimp only
    | with_reducible apply keptP_ite
    | simp only [keptQ_mk]
    | with_reducible apply keptQ_ite
    | split
    | simp only [kept_mk]
    | with_reducible refine keptF_upd ?_ (updF hk ?_)
    | (unfold UpdF; and_intros <;> first | exact .inl rfl | exact .inr rfl | exact .inr id | exact .inr fun _ => rfl | exact .refl _ | exact fun h => ⟨h, rfl⟩ | rfl | exact Nat.le_max_left _ _)

theorem emitReads_kept {fp : Nat} {z : State} {s : State} {addr : Nat} {n : Nat} (h : Kept fp z s)
    (hk : Sub 128 fp) :
    Kept fp z (emitReads s addr n) := by
  unfold emitReads
  repeat' first
    | with_reducible assumption
    | exact Sub.of hk rfl
    | with_reducible intro _
    | with_reducible apply kept_ite
    | with_reducible apply emit_kept
    | with_reducible apply kept_foldl

theorem sendMsix_kept {fp : Nat} {z : State} {s : State} {v : Nat} (h : Kept fp z s)
    (hk : Sub 8336 fp) :
    Kept fp z (sendMsix s v) := by
  unfold sendMsix
  repeat' first
    | with_reducible assumption
    | exact Sub.of hk rfl
    | with_reducible intro _
    | with_reducible apply kept_ite
    | with_reducible apply count_kept
    | with_reducible apply emit_kept
    | with_reducible apply kept_foldl
    | with_reducible apply kept_getD
    | with_reducible apply keptF_of
    | with_reducible apply keptQ_snd
    | with_reducible apply keptP_snd
    | dsimp only
    | with_reducible apply keptP_ite
    | simp only [keptQ_mk]
    | with_reducible apply keptQ_ite
    | split
    | simp only [kept_mk]
    | with_reducible refine keptF_upd ?_ (updF hk ?_)
    | (unfold UpdF; and_intros <;> first | exact .inl rfl | exact .inr rfl | exact .inr id | exact .inr fun _ => rfl | exact .refl _ | exact fun h => ⟨h, rfl⟩ | rfl | exact Nat.le_max_left _ _)

theorem signalCq_kept {fp : Nat} {z : State} {s : State} {c : Nat} (h : Kept fp z s)
    (hk : Sub 8336 fp) :
    Kept fp z (signalCq s c) := by
  unfold signalCq
  repeat' first
    | with_reducible assumption
    | exact Sub.of hk rfl
    | with_reducible intro _
    | with_reducible apply kept_ite
    | with_reducible apply sendMsix_kept
    | with_reducible apply setRing_kept

theorem cqWrite_kept {fp : Nat} {z : State} {s : State} {c : Nat} {a2 : Completion} (h : Kept fp z s)
    (hk : Sub 8336 fp) :
    Kept fp z (cqWrite s c a2) := by
  unfold cqWrite
  repeat' first
    | with_reducible assumption
    | exact Sub.of hk rfl
    | with_reducible intro _
    | with_reducible apply kept_ite
    | with_reducible apply signalCq_kept
    | with_reducible apply setRing_kept
    | with_reducible apply emit_kept

theorem notifyDrop_kept {fp : Nat} {z : State} {s : State} {c : Nat} {mark : Bool} (h : Kept fp z s)
    (hk : Sub 8216 fp) :
    Kept fp z (notifyDrop s c mark) := by
  unfold notifyDrop
  repeat' first
    | with_reducible assumption
    | exact Sub.of hk rfl
    | with_reducible intro _
    | with_reducible apply kept_ite
    | with_reducible apply setBit_kept
    | with_reducible apply count_kept
    | with_reducible apply setRing_kept

theorem notify_kept {fp : Nat} {z : State} {s : State} {c : Nat} {sub : Nat} {payload : Nat} (h : Kept fp z s)
    (hk : Sub 8344 fp) :
    Kept fp z (notify s c sub payload) := by
  unfold notify
  repeat' first
    | with_reducible assumption
    | exact Sub.of hk rfl
    | with_reducible intro _
    | with_reducible apply kept_ite
    | with_reducible apply notifyDrop_kept
    | with_reducible apply cqWrite_kept

theorem notifyPair_kept {fp : Nat} {z : State} {s : State} {c : Nat} {sub1 : Nat} {pay1 : Nat} {e2 : Completion} (h : Kept fp z s)
    (hk : Sub 8344 fp) :
    Kept fp z (notifyPair s c sub1 pay1 e2) := by
  unfold notifyPair
  repeat' first
    | with_reducible assumption
    | exact Sub.of hk rfl
    | with_reducible intro _
    | with_reducible apply kept_ite
    | with_reducible apply notifyDrop_kept
    | with_reducible apply cqWrite_kept

theorem notifyReg_kept {fp : Nat} {z : State} {s : State} {a : Nat} {lo : Nat} {sub : Nat} {payload : Nat} (h : Kept fp z s)
    (hk : Sub 8344 fp) :
    Kept fp z (notifyReg s a lo sub payload) := by
  unfold notifyReg
  repeat' first
    | with_reducible assumption
    | exact Sub.of hk rfl
    | with_reducible intro _
    | with_reducible apply kept_ite
    | with_reducible apply notify_kept

theorem countEntry_kept {fp : Nat} {z : State} {s : State} {a1 : Completion} (h : Kept fp z s)
    (hk : Sub 16 fp) :
    Kept fp z (countEntry s a1) := by
  unfold countEntry
  repeat' first
    | with_reducible assumption
    | exact Sub.of hk rfl
    | with_reducible intro _
    | with_reducible apply kept_ite
    | with_reducible apply count_kept
    | with_reducible apply countBy_kept
    | with_reducible apply kept_foldl
    | with_reducible apply kept_getD
    | with_reducible apply keptF_of
    | with_reducible apply keptQ_snd
    | with_reducible apply keptP_snd
    | dsimp only
    | with_reducible apply keptP_ite
    | simp only [keptQ_mk]
    | with_reducible apply keptQ_ite
    | split

theorem drainRing_kept {fp : Nat} {z : State} {a0 : Nat} {a1 : State} {a2 : Nat} (h : Kept fp z a1)
    (hk : Sub 8336 fp) :
    Kept fp z (drainRing a0 a1 a2) := by
  induction a0 generalizing a1 a2 with
  | zero =>
    unfold drainRing
    repeat' first
      | with_reducible assumption
  | succ n ih =>
    unfold drainRing
    repeat' first
      | with_reducible assumption
      | with_reducible apply ih
      | exact Sub.of hk rfl
      | with_reducible intro _
      | with_reducible apply kept_ite
      | with_reducible apply countEntry_kept
      | with_reducible apply cqWrite_kept
      | with_reducible apply setRing_kept
      | with_reducible apply count_kept
      | with_reducible apply kept_foldl
      | with_reducible apply kept_getD
      | with_reducible apply keptF_of
      | with_reducible apply keptQ_snd
      | with_reducible apply keptP_snd
      | dsimp only
      | with_reducible apply keptP_ite
      | simp only [keptQ_mk]
      | with_reducible apply keptQ_ite
      | split

theorem drainCq_kept {fp : Nat} {z : State} {s : State} {c : Nat} (h : Kept fp z s)
    (hk : Sub 8336 fp) :
    Kept fp z (drainCq s c) := by
  unfold drainCq
  repeat' first
    | with_reducible assumption
    | exact Sub.of hk rfl
    | with_reducible intro _
    | with_reducible apply kept_ite
    | with_reducible apply drainRing_kept
    | with_reducible apply kept_foldl

theorem post_kept {fp : Nat} {z : State} {s : State} {r : Nat} {w : RingWait} (h : Kept fp z s)
    (hk : Sub 8336 fp) :
    Kept fp z (post s r w) := by
  unfold post
  repeat' first
    | with_reducible assumption
    | exact Sub.of hk rfl
    | with_reducible intro _
    | with_reducible apply kept_ite
    | with_reducible apply drainRing_kept
    | with_reducible apply setRing_kept

theorem cmdPost_kept {fp : Nat} {z : State} {s : State} {r : Nat} {i : Nat} {code : Nat} {pick : Nat} {status : Nat} {detail : Nat} (h : Kept fp z s)
    (hk : Sub 8336 fp) :
    Kept fp z (cmdPost s r i code pick status detail) := by
  unfold cmdPost
  repeat' first
    | with_reducible assumption
    | exact Sub.of hk rfl
    | with_reducible intro _
    | with_reducible apply kept_ite
    | with_reducible apply post_kept

/-! ## Machine/Cmd.lean -/

theorem cmdRefused_kept {fp : Nat} {z : State} {st : Nat} {s : State} (h : Kept fp z s)
    (hk : Sub 2136 fp) :
    Kept fp z (cmdRefused st s) := by
  unfold cmdRefused
  repeat' first
    | with_reducible assumption
    | exact Sub.of hk rfl
    | with_reducible intro _
    | with_reducible apply kept_ite
    | with_reducible apply progErr_kept

theorem cmdFinish_kept {fp : Nat} {z : State} {d : CmdDesc} {point : Nat} {st : Nat} {det : Nat} {s : State} (h : Kept fp z s)
    (hk : Sub 10456 fp) :
    Kept fp z (cmdFinish d point st det s) := by
  unfold cmdFinish
  repeat' first
    | with_reducible assumption
    | exact Sub.of hk rfl
    | with_reducible intro _
    | with_reducible apply kept_ite
    | with_reducible apply cmdPost_kept
    | with_reducible apply cmdRefused_kept

theorem idNext_kept {fp : Nat} {z : State} {s : State} (h : Kept fp z s)
    (hk : Sub 262144 fp) :
    Kept fp z (idNext s) := by
  unfold idNext
  repeat' first
    | with_reducible assumption
    | exact Sub.of hk rfl
    | with_reducible intro _
    | with_reducible apply kept_ite
    | with_reducible apply kept_foldl
    | with_reducible apply kept_getD
    | with_reducible apply keptF_of
    | with_reducible apply keptQ_snd
    | with_reducible apply keptP_snd
    | dsimp only
    | with_reducible apply keptP_ite
    | simp only [keptQ_mk]
    | with_reducible apply keptQ_ite
    | split
    | simp only [kept_mk]
    | with_reducible refine keptF_upd ?_ (updF hk ?_)
    | (unfold UpdF; and_intros <;> first | exact .inl rfl | exact .inr rfl | exact .inr id | exact .inr fun _ => rfl | exact .refl _ | exact fun h => ⟨h, rfl⟩ | rfl | exact Nat.le_max_left _ _)

theorem workBegin_kept {fp : Nat} {z : State} {d : CmdDesc} {point : Nat} {s : State} (h : Kept fp z s)
    (hk : Sub 270464 fp) :
    Kept fp z (workBegin d point s) := by
  unfold workBegin
  repeat' first
    | with_reducible assumption
    | exact Sub.of hk rfl
    | with_reducible intro _
    | with_reducible apply kept_ite
    | with_reducible apply emitReads_kept
    | with_reducible apply idNext_kept
    | with_reducible apply kept_foldl
    | with_reducible apply kept_getD
    | with_reducible apply keptF_of
    | with_reducible apply keptQ_snd
    | with_reducible apply keptP_snd
    | dsimp only
    | with_reducible apply keptP_ite
    | simp only [keptQ_mk]
    | with_reducible apply keptQ_ite
    | split
    | simp only [kept_mk]
    | with_reducible refine keptF_upd ?_ (updF hk ?_)
    | (unfold UpdF; and_intros <;> first | exact .inl rfl | exact .inr rfl | exact .inr id | exact .inr fun _ => rfl | exact .refl _ | exact fun h => ⟨h, rfl⟩ | rfl | exact Nat.le_max_left _ _)

theorem cmdApply_kept {fp : Nat} {z : State} {body : CmdDesc → State → CmdRes} {d : CmdDesc} {s : State}
    (hb : ∀ d t, Kept fp z t → KeptC fp z (body d t)) (h : Kept fp z s)
    (hk : Sub 272600 fp) : Kept fp z (cmdApply body d s) := by
  have hbs := hb d s h
  unfold cmdApply
  split
  · exact cmdFinish_kept h (hk.of rfl)
  · split
    · exact cmdFinish_kept h (hk.of rfl)
    · split
      · rename_i e
        rw [e] at hbs
        exact cmdFinish_kept hbs (hk.of rfl)
      · rename_i e
        rw [e] at hbs
        exact workBegin_kept hbs (hk.of rfl)

theorem dmaErr_kept {fp : Nat} {z : State} {s : State} (h : Kept fp z s)
    (hk : Sub 10456 fp) :
    Kept fp z (dmaErr s) := by
  unfold dmaErr
  repeat' first
    | with_reducible assumption
    | exact Sub.of hk rfl
    | with_reducible intro _
    | with_reducible apply kept_ite
    | with_reducible apply emit_kept
    | with_reducible apply raiseFree_kept
    | with_reducible apply count_kept
    | with_reducible apply kept_foldl
    | with_reducible apply kept_getD
    | with_reducible apply keptF_of
    | with_reducible apply keptQ_snd
    | with_reducible apply keptP_snd
    | dsimp only
    | with_reducible apply keptP_ite
    | simp only [keptQ_mk]
    | with_reducible apply keptQ_ite
    | split
    | simp only [kept_mk]
    | with_reducible refine keptF_upd ?_ (updF hk ?_)
    | (unfold UpdF; and_intros <;> first | exact .inl rfl | exact .inr rfl | exact .inr id | exact .inr fun _ => rfl | exact .refl _ | exact fun h => ⟨h, rfl⟩ | rfl | exact Nat.le_max_left _ _)

theorem unqueue_kept {fp : Nat} {z : State} {s : State} {d : CmdDesc} (h : Kept fp z s)
    (hk : Sub 8192 fp) :
    Kept fp z (unqueue s d) := by
  unfold unqueue
  repeat' first
    | with_reducible assumption
    | exact Sub.of hk rfl
    | with_reducible intro _
    | with_reducible apply kept_ite
    | with_reducible apply kept_foldl
    | with_reducible apply kept_getD
    | with_reducible apply keptF_of
    | with_reducible apply keptQ_snd
    | with_reducible apply keptP_snd
    | dsimp only
    | with_reducible apply keptP_ite
    | simp only [keptQ_mk]
    | with_reducible apply keptQ_ite
    | split
    | simp only [kept_mk]
    | with_reducible refine keptF_upd ?_ (updF hk ?_)
    | (unfold UpdF; and_intros <;> first | exact .inl rfl | exact .inr rfl | exact .inr id | exact .inr fun _ => rfl | exact .refl _ | exact fun h => ⟨h, rfl⟩ | rfl | exact Nat.le_max_left _ _)

theorem rowTaken_kept {fp : Nat} {z : State} {d : CmdDesc} {s : State} (h : Kept fp z s)
    (hk : Sub 10712 fp) : Kept fp z (rowTaken d s) := by
  unfold rowTaken
  have h1 : Kept fp z (if isQueued s d then unqueue s d else if prepFailed d then dmaErr s else s) := by
    with_reducible refine kept_ite (unqueue_kept h (hk.of rfl)) (kept_ite (dmaErr_kept h (hk.of rfl)) h)
  generalize (if isQueued s d then unqueue s d else if prepFailed d then dmaErr s else s) = t at h1 ⊢
  dsimp only
  rw [kept_mk]
  exact keptF_upd h1 (updF hk (by unfold UpdF; and_intros <;> first | exact .inl rfl | exact .inr rfl | exact .inr id | exact .inr fun _ => rfl | exact .refl _ | exact fun h => ⟨h, rfl⟩ | rfl | exact Nat.le_max_left _ _))

theorem cmdRow_kept {fp : Nat} {z : State} {code : Nat} {body : CmdDesc → State → CmdRes} {d : CmdDesc} {s : State}
    (hb : ∀ d t, Kept fp z t → KeptC fp z (body d t)) (h : Kept fp z s)
    (hk : Sub 272856 fp) : Kept fp z (cmdRow code body d s) := by
  unfold cmdRow
  split
  · split
    · exact cmdApply_kept hb (rowTaken_kept h (hk.of rfl)) (hk.of rfl)
    · split
      · exact h
      · have h1 : Kept fp z (if prepFailed d then dmaErr s else s) := by
          with_reducible refine kept_ite (dmaErr_kept h (hk.of rfl)) h
        dsimp only
        generalize (if prepFailed d then dmaErr s else s) = t at h1 ⊢
        rw [kept_mk]
        exact keptF_upd h1 (updF hk (by unfold UpdF; and_intros <;> first | exact .inl rfl | exact .inr rfl | exact .inr id | exact .inr fun _ => rfl | exact .refl _ | exact fun h => ⟨h, rfl⟩ | rfl | exact Nat.le_max_left _ _))
  · exact h

theorem needDomain_kept {fp : Nat} {z : State} {dom : Nat} {s : State} {k : State → CmdRes} (hb : ∀ t, Kept fp z t → KeptC fp z (k t))
    (h : Kept fp z s)
    (hk : Sub 0 fp) : KeptC fp z (needDomain dom s k) := by
  unfold needDomain
  with_reducible refine keptC_ite (hb s h) (keptC_fin h)

theorem workEnd_kept {fp : Nat} {z : State} {s : State} {ring : Nat} {index : Nat} {status : Nat} {detail : Nat} (h : Kept fp z s)
    (hk : Sub 270480 fp) :
    Kept fp z (workEnd s ring index status detail) := by
  unfold workEnd
  repeat' first
    | with_reducible assumption
    | exact Sub.of hk rfl
    | with_reducible intro _
    | with_reducible apply kept_ite
    | with_reducible apply idNext_kept
    | with_reducible apply cmdPost_kept
    | with_reducible apply kept_foldl
    | with_reducible apply kept_getD
    | with_reducible apply keptF_of
    | with_reducible apply keptQ_snd
    | with_reducible apply keptP_snd
    | dsimp only
    | with_reducible apply keptP_ite
    | simp only [keptQ_mk]
    | with_reducible apply keptQ_ite
    | split
    | simp only [kept_mk]
    | with_reducible refine keptF_upd ?_ (updF hk ?_)
    | (unfold UpdF; and_intros <;> first | exact .inl rfl | exact .inr rfl | exact .inr id | exact .inr fun _ => rfl | exact .refl _ | exact fun h => ⟨h, rfl⟩ | rfl | exact Nat.le_max_left _ _)

theorem dmaWrite_kept {fp : Nat} {z : State} {s : State} {addr : Nat} {d : List Byte} (h : Kept fp z s)
    (hk : Sub 128 fp) :
    Kept fp z (dmaWrite s addr d) := by
  unfold dmaWrite
  repeat' first
    | with_reducible assumption
    | exact Sub.of hk rfl
    | with_reducible intro _
    | with_reducible apply kept_ite
    | with_reducible apply emit_kept
    | with_reducible apply kept_foldl

theorem rxFill_kept {fp : Nat} {z : State} {s : State} {a1 : List (Nat × Nat × Nat)} {a2 : List Byte} (h : Kept fp z s)
    (hk : Sub 128 fp) :
    Kept fp z (rxFill s a1 a2) := by
  induction a1 generalizing s a2 with
  | nil =>
    unfold rxFill
    repeat' first
      | with_reducible assumption
  | cons y l ih =>
    unfold rxFill
    repeat' first
      | with_reducible assumption
      | with_reducible apply ih
      | exact Sub.of hk rfl
      | with_reducible intro _
      | with_reducible apply kept_ite
      | with_reducible apply dmaWrite_kept

theorem rxDeliver_kept {fp : Nat} {z : State} {s : State} {r : Nat} {f : Frame} {k : RxKind} (h : Kept fp z s)
    (hk : Sub 8336 fp) :
    KeptO fp z (rxDeliver s r f k) := by
  unfold rxDeliver
  repeat' first
    | with_reducible assumption
    | exact Sub.of hk rfl
    | with_reducible intro _
    | with_reducible apply kept_ite
    | exact keptO_none
    | with_reducible apply keptO_some
    | with_reducible apply keptO_ite
    | with_reducible apply rxFill_kept
    | with_reducible apply setRing_kept
    | with_reducible apply post_kept
    | with_reducible apply kept_foldl
    | with_reducible apply kept_getD
    | with_reducible apply keptF_of
    | with_reducible apply keptQ_snd
    | with_reducible apply keptP_snd
    | dsimp only
    | with_reducible apply keptP_ite
    | simp only [keptQ_mk]
    | with_reducible apply keptQ_ite
    | split

theorem rxDeliver_kept_of {fp : Nat} {z : State} {s : State} {r : Nat} {f : Frame} {k : RxKind} {t9 : State} (h : Kept fp z s) (e : rxDeliver s r f k = some t9) (hk : Sub 8336 fp) : Kept fp z t9 := (rxDeliver_kept (z := z) h hk) t9 e

/-! ## Machine/Dram.lean -/

theorem dramWrite_kept {fp : Nat} {z s : State} {a : Nat} {d : List Byte} (h : Kept fp z s)
    (hk : Sub 2 fp) : Kept fp z (dramWrite s a d) := by
  unfold dramWrite
  exact kept_dram h (hk 1 rfl) (fun w => dramPut_wf w a d)

theorem dramClosed_kept {fp : Nat} {z : State} {s : State} (h : Kept fp z s)
    (hk : Sub 8 fp) :
    Kept fp z (dramClosed s) := by
  unfold dramClosed
  repeat' first
    | with_reducible assumption
    | exact Sub.of hk rfl
    | with_reducible intro _
    | with_reducible apply kept_ite
    | with_reducible apply setReg_kept

theorem dramEnable_kept {fp : Nat} {z : State} {s : State} {en : Bool} (h : Kept fp z s)
    (hk : Sub 8 fp) :
    Kept fp z (dramEnable s en) := by
  unfold dramEnable
  repeat' first
    | with_reducible assumption
    | exact Sub.of hk rfl
    | with_reducible intro _
    | with_reducible apply kept_ite
    | with_reducible apply setReg_kept
    | with_reducible apply dramClosed_kept

theorem dramLose_kept {fp : Nat} {z s : State} (h : Kept fp z s)
    (hk : Sub 10 fp) : Kept fp z (dramLose s) := by
  unfold dramLose
  with_reducible refine kept_ite (setBit_kept h (hk.of rfl)) (clrBit_kept ?_ (hk.of rfl))
  exact kept_dram h (hk 1 rfl) (fun _ => rfl)

theorem execDramTrainingDone_kept {fp : Nat} {z s : State} {fail0 fail1 : Bool} (h : Kept fp z s)
    (hk : Sub 10 fp) : KeptE fp z (execDramTrainingDone fail0 fail1 s) := by
  unfold execDramTrainingDone
  with_reducible refine keptE_next (kept_ite (kept_ite (setReg_kept h (hk.of rfl)) ?_) h)
  dsimp only
  with_reducible refine kept_ite (clrBit_kept (setReg_kept h (hk.of rfl)) (hk.of rfl)) ?_
  exact kept_dram (setReg_kept h (hk.of rfl)) (hk 1 rfl) (fun _ => rfl)

/-! ## Machine/Spool.lean -/

theorem bankLose_kept {fp : Nat} {z : State} {s : State} {k : Nat} (h : Kept fp z s)
    (hk : Sub 16448 fp) :
    Kept fp z (bankLose s k) := by
  unfold bankLose
  repeat' first
    | with_reducible assumption
    | exact Sub.of hk rfl
    | with_reducible intro _
    | with_reducible apply kept_ite
    | with_reducible refine draw_kept_of ?_ (by assumption) ?_
    | with_reducible apply draw_kept
    | with_reducible apply kept_foldl
    | with_reducible apply kept_getD
    | with_reducible apply keptF_of
    | with_reducible apply keptQ_snd
    | with_reducible apply keptP_snd
    | dsimp only
    | with_reducible apply keptP_ite
    | simp only [keptQ_mk]
    | with_reducible apply keptQ_ite
    | split
    | simp only [kept_mk]
    | with_reducible refine keptF_upd ?_ (updF hk ?_)
    | (unfold UpdF; and_intros <;> first | exact .inl rfl | exact .inr rfl | exact .inr id | exact .inr fun _ => rfl | exact .refl _ | exact fun h => ⟨h, rfl⟩ | rfl | exact Nat.le_max_left _ _)

theorem managerLose_kept {fp : Nat} {z : State} {s : State} (h : Kept fp z s)
    (hk : Sub 16448 fp) :
    Kept fp z (managerLose s) := by
  unfold managerLose
  repeat' first
    | with_reducible assumption
    | exact Sub.of hk rfl
    | with_reducible intro _
    | with_reducible apply kept_ite
    | with_reducible apply bankLose_kept
    | with_reducible apply kept_foldl
    | with_reducible apply kept_getD
    | with_reducible apply keptF_of
    | with_reducible apply keptQ_snd
    | with_reducible apply keptP_snd
    | dsimp only
    | with_reducible apply keptP_ite
    | simp only [keptQ_mk]
    | with_reducible apply keptQ_ite
    | split
    | simp only [kept_mk]
    | with_reducible refine keptF_upd ?_ (updF hk ?_)
    | (unfold UpdF; and_intros <;> first | exact .inl rfl | exact .inr rfl | exact .inr id | exact .inr fun _ => rfl | exact .refl _ | exact fun h => ⟨h, rfl⟩ | rfl | exact Nat.le_max_left _ _)

theorem poisonSeen_kept {fp : Nat} {z : State} {s : State} {src : Nat} {f : Frame} (h : Kept fp z s)
    (hk : Sub 2136 fp) :
    Kept fp z (poisonSeen s src f) := by
  unfold poisonSeen
  repeat' first
    | with_reducible assumption
    | exact Sub.of hk rfl
    | with_reducible intro _
    | with_reducible apply kept_ite
    | with_reducible refine draw_kept_of ?_ (by assumption) ?_
    | with_reducible apply draw_kept
    | with_reducible apply raiseRoot_kept
    | with_reducible apply kept_foldl
    | with_reducible apply kept_getD
    | with_reducible apply keptF_of
    | with_reducible apply keptQ_snd
    | with_reducible apply keptP_snd

theorem popFree_kept {fp : Nat} {z : State} {s : State} {b : Buf} {k : Nat} (h : Kept fp z s)
    (hk : Sub 16448 fp) :
    KeptP fp z (popFree s b k) := by
  unfold popFree
  repeat' first
    | with_reducible assumption
    | exact Sub.of hk rfl
    | with_reducible intro _
    | with_reducible apply kept_ite
    | with_reducible apply keptP_ite
    | simp only [keptP_mk]
    | with_reducible refine draw_kept_of ?_ (by assumption) ?_
    | with_reducible apply draw_kept
    | with_reducible apply kept_foldl
    | with_reducible apply kept_getD
    | with_reducible apply keptF_of
    | with_reducible apply keptQ_snd
    | with_reducible apply keptP_snd
    | simp only [keptP_mk]
    | with_reducible apply keptP_ite
    | simp only [keptQ_mk]
    | with_reducible apply keptQ_ite
    | split
    | simp only [kept_mk]
    | with_reducible refine keptF_upd ?_ (updF hk ?_)
    | (unfold UpdF; and_intros <;> first | exact .inl rfl | exact .inr rfl | exact .inr id | exact .inr fun _ => rfl | exact .refl _ | exact fun h => ⟨h, rfl⟩ | rfl | exact Nat.le_max_left _ _)

theorem popFree_kept_of {fp : Nat} {z : State} {s : State} {b : Buf} {k : Nat} {x9} {t9 : State} (h : Kept fp z s) (e : popFree s b k = (x9, t9)) (hk : Sub 16448 fp) : Kept fp z t9 := keptP_of (popFree_kept (z := z) h hk) e

theorem allocFrom_kept {fp : Nat} {z : State} {a0 : Nat} {a1 : State} {a2 : Buf} {a3 : Nat} {a4 : Nat} (h : Kept fp z a1)
    (hk : Sub 16464 fp) :
    KeptP fp z (allocFrom a0 a1 a2 a3 a4) := by
  induction a0 generalizing a1 a2 a3 a4 with
  | zero =>
    unfold allocFrom
    repeat' first
      | with_reducible assumption
      | exact Sub.of hk rfl
      | with_reducible intro _
      | with_reducible apply kept_ite
      | with_reducible apply keptP_ite
      | simp only [keptP_mk]
      | with_reducible apply count_kept
  | succ n ih =>
    unfold allocFrom
    repeat' first
      | with_reducible assumption
      | with_reducible apply ih
      | exact Sub.of hk rfl
      | with_reducible intro _
      | with_reducible apply kept_ite
      | with_reducible apply keptP_ite
      | simp only [keptP_mk]
      | with_reducible apply count_kept
      | with_reducible refine popFree_kept_of ?_ (by assumption) ?_
      | with_reducible apply popFree_kept
      | with_reducible apply kept_foldl
      | with_reducible apply kept_getD
      | with_reducible apply keptF_of
      | with_reducible apply keptQ_snd
      | with_reducible apply keptP_snd

theorem allocFrom_kept_of {fp : Nat} {z : State} {a0 : Nat} {a1 : State} {a2 : Buf} {a3 : Nat} {a4 : Nat} {x9} {t9 : State} (h : Kept fp z a1) (e : allocFrom a0 a1 a2 a3 a4 = (x9, t9)) (hk : Sub 16464 fp) : Kept fp z t9 := keptP_of (allocFrom_kept (z := z) h hk) e

theorem sharesClock_kept {fp : Nat} {z : State} {s : State} (h : Kept fp z s)
    (hk : Sub 64 fp) :
    KeptP fp z (sharesClock s) := by
  unfold sharesClock
  repeat' first
    | with_reducible assumption
    | exact Sub.of hk rfl
    | with_reducible intro _
    | with_reducible apply kept_ite
    | with_reducible apply keptP_ite
    | simp only [keptP_mk]
    | with_reducible refine draw_kept_of ?_ (by assumption) ?_
    | with_reducible apply draw_kept
    | with_reducible apply kept_foldl
    | with_reducible apply kept_getD
    | with_reducible apply keptF_of
    | with_reducible apply keptQ_snd
    | with_reducible apply keptP_snd

theorem sharesClock_kept_of {fp : Nat} {z : State} {s : State} {x9} {t9 : State} (h : Kept fp z s) (e : sharesClock s = (x9, t9)) (hk : Sub 64 fp) : Kept fp z t9 := keptP_of (sharesClock_kept (z := z) h hk) e

theorem spoolAlloc_kept {fp : Nat} {z : State} {s : State} {same : Bool} {port : Nat} {b : Buf} {len : Nat} (h : Kept fp z s)
    (hk : Sub 16464 fp) :
    KeptP fp z (spoolAlloc s same port b len) := by
  unfold spoolAlloc
  repeat' first
    | with_reducible assumption
    | exact Sub.of hk rfl
    | with_reducible intro _
    | with_reducible apply kept_ite
    | with_reducible apply keptP_ite
    | simp only [keptP_mk]
    | with_reducible refine allocFrom_kept_of ?_ (by assumption) ?_
    | with_reducible apply allocFrom_kept
    | with_reducible apply count_kept
    | with_reducible apply kept_foldl
    | with_reducible apply kept_getD
    | with_reducible apply keptF_of
    | with_reducible apply keptQ_snd
    | with_reducible apply keptP_snd
    | simp only [keptP_mk]
    | with_reducible apply keptP_ite
    | simp only [keptQ_mk]
    | with_reducible apply keptQ_ite
    | split
    | simp only [kept_mk]
    | with_reducible refine keptF_upd ?_ (updF hk ?_)
    | (unfold UpdF; and_intros <;> first | exact .inl rfl | exact .inr rfl | exact .inr id | exact .inr fun _ => rfl | exact .refl _ | exact fun h => ⟨h, rfl⟩ | rfl | exact Nat.le_max_left _ _)

theorem spoolAlloc_kept_of {fp : Nat} {z : State} {s : State} {same : Bool} {port : Nat} {b : Buf} {len : Nat} {x9} {t9 : State} (h : Kept fp z s) (e : spoolAlloc s same port b len = (x9, t9)) (hk : Sub 16464 fp) : Kept fp z t9 := keptP_of (spoolAlloc_kept (z := z) h hk) e

theorem setBuf_kept {fp : Nat} {z : State} {s : State} {a1 : Nat} {st : BufSt} {o : Nat} (h : Kept fp z s)
    (hk : Sub 16384 fp) :
    Kept fp z (setBuf s a1 st o) := by
  unfold setBuf
  repeat' first
    | with_reducible assumption
    | exact Sub.of hk rfl
    | with_reducible intro _
    | with_reducible apply kept_ite
    | with_reducible apply kept_foldl
    | with_reducible apply kept_getD
    | with_reducible apply keptF_of
    | with_reducible apply keptQ_snd
    | with_reducible apply keptP_snd
    | dsimp only
    | with_reducible apply keptP_ite
    | simp only [keptQ_mk]
    | with_reducible apply keptQ_ite
    | split
    | simp only [kept_mk]
    | with_reducible refine keptF_upd ?_ (updF hk ?_)
    | (unfold UpdF; and_intros <;> first | exact .inl rfl | exact .inr rfl | exact .inr id | exact .inr fun _ => rfl | exact .refl _ | exact fun h => ⟨h, rfl⟩ | rfl | exact Nat.le_max_left _ _)

theorem spoolFree_kept {fp : Nat} {z : State} {s : State} {a1 : Nat} {o : Nat} (h : Kept fp z s)
    (hk : Sub 18520 fp) :
    Kept fp z (spoolFree s a1 o) := by
  unfold spoolFree
  repeat' first
    | with_reducible assumption
    | exact Sub.of hk rfl
    | with_reducible intro _
    | with_reducible apply kept_ite
    | with_reducible apply count_kept
    | with_reducible refine draw_kept_of ?_ (by assumption) ?_
    | with_reducible apply draw_kept
    | with_reducible apply setBuf_kept
    | with_reducible apply raiseEv_kept
    | with_reducible apply setReg_kept
    | with_reducible apply kept_foldl
    | with_reducible apply kept_getD
    | with_reducible apply keptF_of
    | with_reducible apply keptQ_snd
    | with_reducible apply keptP_snd

theorem minimaRefused_kept {fp : Nat} {z : State} {s : State} (h : Kept fp z s)
    (hk : Sub 2136 fp) :
    Kept fp z (minimaRefused s) := by
  unfold minimaRefused
  repeat' first
    | with_reducible assumption
    | exact Sub.of hk rfl
    | with_reducible intro _
    | with_reducible apply kept_ite
    | with_reducible apply progErr_kept
    | with_reducible apply setBit_kept

theorem layoutIn_kept {fp : Nat} {z : State} {s : State} (h : Kept fp z s)
    (hk : Sub 16392 fp) :
    Kept fp z (layoutIn s) := by
  unfold layoutIn
  repeat' first
    | with_reducible assumption
    | exact Sub.of hk rfl
    | with_reducible intro _
    | with_reducible apply kept_ite
    | with_reducible apply forUpTo_kept
    | with_reducible apply force_kept
    | with_reducible apply kept_foldl
    | with_reducible apply kept_getD
    | with_reducible apply keptF_of
    | with_reducible apply keptQ_snd
    | with_reducible apply keptP_snd
    | dsimp only
    | with_reducible apply keptP_ite
    | simp only [keptQ_mk]
    | with_reducible apply keptQ_ite
    | split
    | simp only [kept_mk]
    | with_reducible refine keptF_upd ?_ (updF hk ?_)
    | (unfold UpdF; and_intros <;> first | exact .inl rfl | exact .inr rfl | exact .inr id | exact .inr fun _ => rfl | exact .refl _ | exact fun h => ⟨h, rfl⟩ | rfl | exact Nat.le_max_left _ _)

theorem spoolMinima_kept {fp : Nat} {z : State} {s : State} (h : Kept fp z s)
    (hk : Sub 18520 fp) :
    Kept fp z (spoolMinima s) := by
  unfold spoolMinima
  repeat' first
    | with_reducible assumption
    | exact Sub.of hk rfl
    | with_reducible intro _
    | with_reducible apply kept_ite
    | with_reducible apply layoutIn_kept
    | with_reducible apply forUpTo_kept
    | with_reducible apply minimaRefused_kept
    | with_reducible apply stage_kept

theorem execSpoolLayoutApply_kept {fp : Nat} {z : State} {s : State} (h : Kept fp z s)
    (hk : Sub 18520 fp) :
    KeptE fp z (execSpoolLayoutApply s) := by
  unfold execSpoolLayoutApply
  repeat' first
    | with_reducible assumption
    | exact Sub.of hk rfl
    | with_reducible intro _
    | with_reducible apply kept_ite
    | with_reducible apply keptE_next
    | with_reducible apply forUpTo_kept
    | with_reducible apply layoutIn_kept
    | with_reducible apply minimaRefused_kept

end Sys2Proof.Machine
end

