-- ==== Sys2Proof/Laws/KeptTraffic.lean ====
section
/-! SUPPORT. Laws/KeptTraffic.lean: what Laws/Kept.lean says, of the traffic and security units: one lemma an operation. -/

namespace Sys2Proof.Machine

open Sys2Proof

/-! ## Machine/Flow.lean -/

theorem entPut_kept {fp : Nat} {z : State} {s : State} {b : Bool} {j : Nat} {a3 : FlowEnt} (h : Kept fp z s)
    (hk : Sub 2 fp) :
    Kept fp z (entPut s b j a3) := by
  unfold entPut
  repeat' first
    | with_reducible assumption
    | exact Sub.of hk rfl
    | with_reducible intro _
    | with_reducible apply kept_ite
    | with_reducible apply dramWrite_kept

theorem hopMoves_kept {fp : Nat} {z : State} {b : Bool} {a1 : Nat} {a2 : Nat} {a3 : State} {a4 : Nat} (h : Kept fp z a3)
    (hk : Sub 2 fp) :
    KeptOP fp z (hopMoves b a1 a2 a3 a4) := by
  induction a2 generalizing b a1 a3 a4 with
  | zero =>
    unfold hopMoves
    repeat' first
      | with_reducible assumption
      | exact Sub.of hk rfl
      | with_reducible intro _
      | with_reducible apply kept_ite
      | exact keptOP_none
  | succ n ih =>
    unfold hopMoves
    repeat' first
      | with_reducible assumption
      | with_reducible apply ih
      | exact Sub.of hk rfl
      | with_reducible intro _
      | with_reducible apply kept_ite
      | exact keptOP_none
      | with_reducible apply keptOP_some
      | with_reducible apply keptOP_ite
      | with_reducible apply entPut_kept
      | with_reducible apply kept_foldl
      | with_reducible apply kept_getD
      | with_reducible apply keptF_of
      | with_reducible apply keptQ_snd
      | with_reducible apply keptP_snd
      | dsimp only
      | with_reducible apply keptP_ite
      | simp only [keptQ_mk]
      | with_reducible apply keptQ_ite
      | split

theorem hopMoves_kept_of {fp : Nat} {z : State} {b : Bool} {a1 : Nat} {a2 : Nat} {a3 : State} {a4 : Nat} {x9} {t9 : State} (h : Kept fp z a3) (e : hopMoves b a1 a2 a3 a4 = some (x9, t9)) (hk : Sub 2 fp) : Kept fp z t9 := (hopMoves_kept (z := z) h hk) x9 t9 e

theorem storePlace_kept {fp : Nat} {z : State} {s : State} {b : Bool} {seed : Nat} {a3 : FlowEnt} (h : Kept fp z s)
    (hk : Sub 2 fp) :
    KeptO fp z (storePlace s b seed a3) := by
  unfold storePlace
  repeat' first
    | with_reducible assumption
    | exact Sub.of hk rfl
    | with_reducible intro _
    | with_reducible apply kept_ite
    | exact keptO_none
    | with_reducible apply keptO_some
    | with_reducible apply keptO_ite
    | with_reducible refine hopMoves_kept_of ?_ (by assumption) ?_
    | with_reducible apply hopMoves_kept
    | with_reducible apply entPut_kept
    | with_reducible apply kept_foldl
    | with_reducible apply kept_getD
    | with_reducible apply keptF_of
    | with_reducible apply keptQ_snd
    | with_reducible apply keptP_snd
    | dsimp only
    | with_reducible apply keptP_ite
    | simp only [keptQ_mk]
    | with_reducible apply keptQ_ite
    | split

theorem storePlace_kept_of {fp : Nat} {z : State} {s : State} {b : Bool} {seed : Nat} {a3 : FlowEnt} {t9 : State} (h : Kept fp z s) (e : storePlace s b seed a3 = some t9) (hk : Sub 2 fp) : Kept fp z t9 := (storePlace_kept (z := z) h hk) t9 e

theorem storeRemove_kept {fp : Nat} {z : State} {s : State} {b : Bool} {seed : Nat} {j : Nat} (h : Kept fp z s)
    (hk : Sub 2 fp) :
    Kept fp z (storeRemove s b seed j) := by
  unfold storeRemove
  repeat' first
    | with_reducible assumption
    | exact Sub.of hk rfl
    | with_reducible intro _
    | with_reducible apply kept_ite
    | with_reducible apply entPut_kept

theorem setFlow_kept {fp : Nat} {z : State} {s : State} {f : FlowStore} (h : Kept fp z s)
    (hk : Sub 65536 fp) :
    Kept fp z (setFlow s f) := by
  unfold setFlow
  repeat' first
    | with_reducible assumption
    | exact Sub.of hk rfl
    | with_reducible intro _
    | with_reducible apply kept_ite
    | with_reducible apply kept_foldl
    | with_reducible apply kept_getD
    | with_reducible apply keptF_of
    | with_reducible apply keptQ_snd
    | with_reducible apply keptP_snd
    | simp only [keptP_mk]
    | with_reducible apply keptP_ite
    | simp only [keptQ_mk]
    | with_reducible apply keptQ_ite
    | split
    | simp only [kept_mk]
    | with_reducible refine keptF_upd ?_ (updF hk ?_)
    | (unfold UpdF; and_intros <;> first | exact .inl rfl | exact .inr rfl | exact .inr id | exact .inr fun _ => rfl | exact .refl _ | exact fun h => ⟨h, rfl⟩ | rfl | exact Nat.le_max_left _ _)

theorem evictLine_kept {fp : Nat} {z : State} {s : State} {l : FlowLine} (h : Kept fp z s)
    (hk : Sub 65554 fp) :
    Kept fp z (evictLine s l) := by
  unfold evictLine
  repeat' first
    | with_reducible assumption
    | exact Sub.of hk rfl
    | with_reducible intro _
    | with_reducible apply kept_ite
    | with_reducible apply count_kept
    | with_reducible apply setFlow_kept
    | with_reducible refine storePlace_kept_of ?_ (by assumption) ?_
    | with_reducible apply storePlace_kept
    | with_reducible apply entPut_kept
    | with_reducible apply kept_foldl
    | with_reducible apply kept_getD
    | with_reducible apply keptF_of
    | with_reducible apply keptQ_snd
    | with_reducible apply keptP_snd
    | dsimp only
    | with_reducible apply keptP_ite
    | simp only [keptQ_mk]
    | with_reducible apply keptQ_ite
    | split

theorem cacheInsert_kept {fp : Nat} {z : State} {s : State} {l : FlowLine} (h : Kept fp z s)
    (hk : Sub 65554 fp) :
    KeptO fp z (cacheInsert s l) := by
  unfold cacheInsert
  repeat' first
    | with_reducible assumption
    | exact Sub.of hk rfl
    | with_reducible intro _
    | with_reducible apply kept_ite
    | exact keptO_none
    | with_reducible apply keptO_some
    | with_reducible apply keptO_ite
    | with_reducible apply setFlow_kept
    | with_reducible apply evictLine_kept
    | with_reducible apply kept_foldl
    | with_reducible apply kept_getD
    | with_reducible apply keptF_of
    | with_reducible apply keptQ_snd
    | with_reducible apply keptP_snd
    | dsimp only
    | with_reducible apply keptP_ite
    | simp only [keptQ_mk]
    | with_reducible apply keptQ_ite
    | split

theorem cacheInsert_kept_of {fp : Nat} {z : State} {s : State} {l : FlowLine} {t9 : State} (h : Kept fp z s) (e : cacheInsert s l = some t9) (hk : Sub 65554 fp) : Kept fp z t9 := (cacheInsert_kept (z := z) h hk) t9 e

theorem cacheTouch_kept {fp : Nat} {z : State} {s : State} {l : FlowLine} {l' : FlowLine} (h : Kept fp z s)
    (hk : Sub 65536 fp) :
    Kept fp z (cacheTouch s l l') := by
  unfold cacheTouch
  repeat' first
    | with_reducible assumption
    | exact Sub.of hk rfl
    | with_reducible intro _
    | with_reducible apply kept_ite
    | with_reducible apply setFlow_kept

theorem cachePut_kept {fp : Nat} {z : State} {s : State} {l : FlowLine} {l' : FlowLine} (h : Kept fp z s)
    (hk : Sub 65536 fp) :
    Kept fp z (cachePut s l l') := by
  unfold cachePut
  repeat' first
    | with_reducible assumption
    | exact Sub.of hk rfl
    | with_reducible intro _
    | with_reducible apply kept_ite
    | with_reducible apply setFlow_kept

theorem cacheRegroup_kept {fp : Nat} {z : State} {a0 : List FlowLine} {a1 : State} (h : Kept fp z a1)
    (hk : Sub 65554 fp) :
    Kept fp z (cacheRegroup a0 a1) := by
  induction a0 generalizing a1 with
  | nil =>
    unfold cacheRegroup
    repeat' first
      | with_reducible assumption
  | cons y l ih =>
    unfold cacheRegroup
    repeat' first
      | with_reducible assumption
      | with_reducible apply ih
      | exact Sub.of hk rfl
      | with_reducible intro _
      | with_reducible apply kept_ite
      | with_reducible apply evictLine_kept
      | with_reducible apply setFlow_kept

theorem flowTouch_kept {fp : Nat} {z : State} {s : State} {key : Nat} {len : Nat} (h : Kept fp z s)
    (hk : Sub 65538 fp) :
    Kept fp z (flowTouch s key len) := by
  unfold flowTouch
  repeat' first
    | with_reducible assumption
    | exact Sub.of hk rfl
    | with_reducible intro _
    | with_reducible apply kept_ite
    | with_reducible apply cacheTouch_kept
    | with_reducible apply entPut_kept
    | with_reducible apply kept_foldl
    | with_reducible apply kept_getD
    | with_reducible apply keptF_of
    | with_reducible apply keptQ_snd
    | with_reducible apply keptP_snd
    | dsimp only
    | with_reducible apply keptP_ite
    | simp only [keptQ_mk]
    | with_reducible apply keptQ_ite
    | split

theorem flowLookup_kept {fp : Nat} {z : State} {s : State} {key : Nat} {len : Nat} (h : Kept fp z s)
    (hk : Sub 65552 fp) :
    KeptP fp z (flowLookup s key len) := by
  unfold flowLookup
  repeat' first
    | with_reducible assumption
    | exact Sub.of hk rfl
    | with_reducible intro _
    | with_reducible apply kept_ite
    | with_reducible apply keptP_ite
    | simp only [keptP_mk]
    | with_reducible apply count_kept
    | with_reducible apply cacheTouch_kept
    | with_reducible apply setFlow_kept
    | with_reducible apply kept_foldl
    | with_reducible apply kept_getD
    | with_reducible apply keptF_of
    | with_reducible apply keptQ_snd
    | with_reducible apply keptP_snd
    | simp only [keptP_mk]
    | with_reducible apply keptP_ite
    | simp only [keptQ_mk]
    | with_reducible apply keptQ_ite
    | split

theorem flowLookup_kept_of {fp : Nat} {z : State} {s : State} {key : Nat} {len : Nat} {x9} {t9 : State} (h : Kept fp z s) (e : flowLookup s key len = (x9, t9)) (hk : Sub 65552 fp) : Kept fp z t9 := keptP_of (flowLookup_kept (z := z) h hk) e

theorem flowLearn_kept {fp : Nat} {z : State} {s : State} {key : Nat} {action : Nat} {len : Nat} (h : Kept fp z s)
    (hk : Sub 65554 fp) :
    KeptP fp z (flowLearn s key action len) := by
  unfold flowLearn
  repeat' first
    | with_reducible assumption
    | exact Sub.of hk rfl
    | with_reducible intro _
    | with_reducible apply kept_ite
    | with_reducible apply keptP_ite
    | simp only [keptP_mk]
    | with_reducible apply setFlow_kept
    | with_reducible apply count_kept
    | with_reducible refine cacheInsert_kept_of ?_ (by assumption) ?_
    | with_reducible apply cacheInsert_kept
    | with_reducible apply kept_foldl
    | with_reducible apply kept_getD
    | with_reducible apply keptF_of
    | with_reducible apply keptQ_snd
    | with_reducible apply keptP_snd
    | simp only [keptP_mk]
    | with_reducible apply keptP_ite
    | simp only [keptQ_mk]
    | with_reducible apply keptQ_ite
    | split

theorem flowLearn_kept_of {fp : Nat} {z : State} {s : State} {key : Nat} {action : Nat} {len : Nat} {x9} {t9 : State} (h : Kept fp z s) (e : flowLearn s key action len = (x9, t9)) (hk : Sub 65554 fp) : Kept fp z t9 := keptP_of (flowLearn_kept (z := z) h hk) e

theorem finishInserts_kept {fp : Nat} {z : State} {s : State} {key : Nat} (h : Kept fp z s)
    (hk : Sub 336016 fp) :
    Kept fp z (finishInserts s key) := by
  unfold finishInserts
  repeat' first
    | with_reducible assumption
    | exact Sub.of hk rfl
    | with_reducible intro _
    | with_reducible apply kept_ite
    | with_reducible apply setFlow_kept
    | with_reducible apply workEnd_kept
    | with_reducible apply count_kept
    | with_reducible apply kept_foldl

theorem execFlowPlacement_kept {fp : Nat} {z : State} {s : State} (h : Kept fp z s)
    (hk : Sub 336018 fp) :
    KeptE fp z (execFlowPlacement s) := by
  unfold execFlowPlacement
  repeat' first
    | with_reducible assumption
    | exact Sub.of hk rfl
    | with_reducible intro _
    | with_reducible apply kept_ite
    | with_reducible apply keptE_next
    | with_reducible apply setFlow_kept
    | with_reducible refine storePlace_kept_of ?_ (by assumption) ?_
    | with_reducible apply storePlace_kept
    | with_reducible apply cachePut_kept
    | with_reducible apply finishInserts_kept
    | with_reducible apply count_kept
    | with_reducible apply kept_foldl
    | with_reducible apply kept_getD
    | with_reducible apply keptF_of
    | with_reducible apply keptQ_snd
    | with_reducible apply keptP_snd
    | dsimp only
    | with_reducible apply keptP_ite
    | simp only [keptQ_mk]
    | with_reducible apply keptQ_ite
    | split

theorem agedNotify_kept {fp : Nat} {z : State} {s : State} {key : Nat} (h : Kept fp z s)
    (hk : Sub 8344 fp) :
    Kept fp z (agedNotify s key) := by
  unfold agedNotify
  repeat' first
    | with_reducible assumption
    | exact Sub.of hk rfl
    | with_reducible intro _
    | with_reducible apply kept_ite
    | with_reducible apply notifyPair_kept

theorem execFlowAgeOut_kept {fp : Nat} {z : State} {slot : Nat} {s : State} (h : Kept fp z s)
    (hk : Sub 73882 fp) :
    KeptE fp z (execFlowAgeOut slot s) := by
  unfold execFlowAgeOut
  repeat' first
    | with_reducible assumption
    | exact Sub.of hk rfl
    | with_reducible intro _
    | with_reducible apply kept_ite
    | with_reducible apply keptE_next
    | with_reducible apply storeRemove_kept
    | with_reducible apply setFlow_kept
    | with_reducible apply agedNotify_kept
    | with_reducible apply count_kept

theorem cmdFlowInsert_kept {fp : Nat} {z : State} {d : CmdDesc} {s : State} (h : Kept fp z s)
    (hk : Sub 65554 fp) :
    KeptC fp z (cmdFlowInsert d s) := by
  unfold cmdFlowInsert
  repeat' first
    | with_reducible assumption
    | exact Sub.of hk rfl
    | with_reducible intro _
    | with_reducible apply kept_ite
    | with_reducible apply keptC_fin
    | with_reducible apply keptC_work
    | with_reducible apply keptC_ite
    | with_reducible apply needDomain_kept
    | with_reducible apply count_kept
    | with_reducible apply cachePut_kept
    | with_reducible apply entPut_kept
    | with_reducible refine cacheInsert_kept_of ?_ (by assumption) ?_
    | with_reducible apply cacheInsert_kept
    | with_reducible apply setFlow_kept
    | with_reducible apply kept_foldl
    | with_reducible apply kept_getD
    | with_reducible apply keptF_of
    | with_reducible apply keptQ_snd
    | with_reducible apply keptP_snd
    | dsimp only
    | with_reducible apply keptP_ite
    | simp only [keptQ_mk]
    | with_reducible apply keptQ_ite
    | split

theorem flowRemove_kept {fp : Nat} {z : State} {s : State} {key : Nat} (h : Kept fp z s)
    (hk : Sub 65538 fp) :
    Kept fp z (flowRemove s key) := by
  unfold flowRemove
  repeat' first
    | with_reducible assumption
    | exact Sub.of hk rfl
    | with_reducible intro _
    | with_reducible apply kept_ite
    | with_reducible apply setFlow_kept
    | with_reducible apply storeRemove_kept
    | with_reducible apply kept_foldl
    | with_reducible apply kept_getD
    | with_reducible apply keptF_of
    | with_reducible apply keptQ_snd
    | with_reducible apply keptP_snd
    | dsimp only
    | with_reducible apply keptP_ite
    | simp only [keptQ_mk]
    | with_reducible apply keptQ_ite
    | split

theorem cmdFlowDelete_kept {fp : Nat} {z : State} {d : CmdDesc} {s : State} (h : Kept fp z s)
    (hk : Sub 336018 fp) :
    KeptC fp z (cmdFlowDelete d s) := by
  unfold cmdFlowDelete
  repeat' first
    | with_reducible assumption
    | exact Sub.of hk rfl
    | with_reducible intro _
    | with_reducible apply kept_ite
    | with_reducible apply keptC_fin
    | with_reducible apply keptC_work
    | with_reducible apply keptC_ite
    | with_reducible apply needDomain_kept
    | with_reducible apply count_kept
    | with_reducible apply finishInserts_kept
    | with_reducible apply flowRemove_kept

theorem cmdFlowRead_kept {fp : Nat} {z : State} {d : CmdDesc} {s : State} (h : Kept fp z s)
    (hk : Sub 128 fp) :
    KeptC fp z (cmdFlowRead d s) := by
  unfold cmdFlowRead
  repeat' first
    | with_reducible assumption
    | exact Sub.of hk rfl
    | with_reducible intro _
    | with_reducible apply kept_ite
    | with_reducible apply keptC_fin
    | with_reducible apply keptC_work
    | with_reducible apply keptC_ite
    | with_reducible apply needDomain_kept
    | with_reducible apply dmaWrite_kept
    | with_reducible apply kept_foldl
    | with_reducible apply kept_getD
    | with_reducible apply keptF_of
    | with_reducible apply keptQ_snd
    | with_reducible apply keptP_snd
    | simp only [keptP_mk]
    | with_reducible apply keptP_ite
    | simp only [keptQ_mk]
    | with_reducible apply keptQ_ite
    | split

theorem cmdFlowRehash_kept {fp : Nat} {z : State} {d : CmdDesc} {s : State} (h : Kept fp z s)
    (hk : Sub 65544 fp) :
    KeptC fp z (cmdFlowRehash d s) := by
  unfold cmdFlowRehash
  repeat' first
    | with_reducible assumption
    | exact Sub.of hk rfl
    | with_reducible intro _
    | with_reducible apply kept_ite
    | with_reducible apply keptC_fin
    | with_reducible apply keptC_work
    | with_reducible apply keptC_ite
    | with_reducible apply needDomain_kept
    | with_reducible apply clrBit_kept
    | with_reducible apply setFlow_kept

theorem rehashSlot_kept {fp : Nat} {z : State} {s : State} {j : Nat} (h : Kept fp z s)
    (hk : Sub 73882 fp) :
    Kept fp z (rehashSlot s j) := by
  unfold rehashSlot
  repeat' first
    | with_reducible assumption
    | exact Sub.of hk rfl
    | with_reducible intro _
    | with_reducible apply kept_ite
    | with_reducible apply storeRemove_kept
    | with_reducible apply agedNotify_kept
    | with_reducible apply count_kept
    | with_reducible apply setFlow_kept
    | with_reducible refine storePlace_kept_of ?_ (by assumption) ?_
    | with_reducible apply storePlace_kept
    | with_reducible apply cachePut_kept
    | with_reducible refine cacheInsert_kept_of ?_ (by assumption) ?_
    | with_reducible apply cacheInsert_kept
    | with_reducible apply kept_foldl
    | with_reducible apply kept_getD
    | with_reducible apply keptF_of
    | with_reducible apply keptQ_snd
    | with_reducible apply keptP_snd
    | dsimp only
    | with_reducible apply keptP_ite
    | simp only [keptQ_mk]
    | with_reducible apply keptQ_ite
    | split

theorem rehashStep_kept {fp : Nat} {z : State} {s : State} (h : Kept fp z s)
    (hk : Sub 73882 fp) :
    Kept fp z (rehashStep s) := by
  unfold rehashStep
  repeat' first
    | with_reducible assumption
    | exact Sub.of hk rfl
    | with_reducible intro _
    | with_reducible apply kept_ite
    | with_reducible apply forUpTo_kept
    | with_reducible apply rehashSlot_kept
    | with_reducible apply setFlow_kept

theorem execFlowRehashDone_kept {fp : Nat} {z : State} {s : State} (h : Kept fp z s)
    (hk : Sub 336026 fp) :
    KeptE fp z (execFlowRehashDone s) := by
  unfold execFlowRehashDone
  repeat' first
    | with_reducible assumption
    | exact Sub.of hk rfl
    | with_reducible intro _
    | with_reducible apply kept_ite
    | with_reducible apply keptE_next
    | with_reducible apply setReg_kept
    | with_reducible apply setFlow_kept
    | with_reducible apply cacheRegroup_kept
    | with_reducible apply workEnd_kept
    | with_reducible apply kept_foldl
    | with_reducible apply kept_getD
    | with_reducible apply keptF_of
    | with_reducible apply keptQ_snd
    | with_reducible apply keptP_snd
    | dsimp only
    | with_reducible apply keptP_ite
    | simp only [keptQ_mk]
    | with_reducible apply keptQ_ite
    | split

theorem zeroRegion_kept {fp : Nat} {z s : State} {b : Bool} (h : Kept fp z s)
    (hk : Sub 2 fp) : Kept fp z (zeroRegion s b) := by
  unfold zeroRegion
  exact kept_dram h (hk 1 rfl) (fun w => swf_skeep w _)

theorem cmdFlowClear_kept {fp : Nat} {z : State} {d : CmdDesc} {s : State} (h : Kept fp z s)
    (hk : Sub 65538 fp) :
    KeptC fp z (cmdFlowClear d s) := by
  unfold cmdFlowClear
  repeat' first
    | with_reducible assumption
    | exact Sub.of hk rfl
    | with_reducible intro _
    | with_reducible apply kept_ite
    | with_reducible apply keptC_fin
    | with_reducible apply keptC_work
    | with_reducible apply keptC_ite
    | with_reducible apply needDomain_kept
    | with_reducible apply setFlow_kept
    | with_reducible apply zeroRegion_kept

theorem execFlowClearDone_kept {fp : Nat} {z : State} {s : State} (h : Kept fp z s)
    (hk : Sub 336024 fp) :
    KeptE fp z (execFlowClearDone s) := by
  unfold execFlowClearDone
  repeat' first
    | with_reducible assumption
    | exact Sub.of hk rfl
    | with_reducible intro _
    | with_reducible apply kept_ite
    | with_reducible apply keptE_next
    | with_reducible apply setReg_kept
    | with_reducible apply setFlow_kept
    | with_reducible apply workEnd_kept
    | with_reducible apply kept_foldl
    | with_reducible apply kept_getD
    | with_reducible apply keptF_of
    | with_reducible apply keptQ_snd
    | with_reducible apply keptP_snd
    | dsimp only
    | with_reducible apply keptP_ite
    | simp only [keptQ_mk]
    | with_reducible apply keptQ_ite
    | split

theorem flowEnable_kept {fp : Nat} {z : State} {s : State} {en : Bool} (h : Kept fp z s)
    (hk : Sub 65536 fp) :
    Kept fp z (flowEnable s en) := by
  unfold flowEnable
  repeat' first
    | with_reducible assumption
    | exact Sub.of hk rfl
    | with_reducible intro _
    | with_reducible apply kept_ite
    | with_reducible apply setFlow_kept

theorem flowReseed_kept {fp : Nat} {z : State} {s : State} {old : Nat} (h : Kept fp z s)
    (hk : Sub 65554 fp) :
    Kept fp z (flowReseed s old) := by
  unfold flowReseed
  repeat' first
    | with_reducible assumption
    | exact Sub.of hk rfl
    | with_reducible intro _
    | with_reducible apply kept_ite
    | with_reducible apply cacheRegroup_kept

/-! ## Machine/Heddle.lean -/

theorem setHeddle_kept {fp : Nat} {z : State} {s : State} {a1 : Heddle} (h : Kept fp z s)
    (hk : Sub 32768 fp) :
    Kept fp z (setHeddle s a1) := by
  unfold setHeddle
  repeat' first
    | with_reducible assumption
    | exact Sub.of hk rfl
    | with_reducible intro _
    | with_reducible apply kept_ite
    | with_reducible apply kept_foldl
    | with_reducible apply kept_getD
    | with_reducible apply keptF_of
    | with_reducible apply keptQ_snd
    | with_reducible apply keptP_snd
    | simp only [keptP_mk]
    | with_reducible apply keptP_ite
    | simp only [keptQ_mk]
    | with_reducible apply keptQ_ite
    | split
    | simp only [kept_mk]
    | with_reducible refine keptF_upd ?_ (updF hk ?_)
    | (unfold UpdF; and_intros <;> first | exact .inl rfl | exact .inr rfl | exact .inr id | exact .inr fun _ => rfl | exact .refl _ | exact fun h => ⟨h, rfl⟩ | rfl | exact Nat.le_max_left _ _)

theorem setStandby_kept {fp : Nat} {z : State} {s : State} {d : Deck} (h : Kept fp z s)
    (hk : Sub 32768 fp) :
    Kept fp z (setStandby s d) := by
  unfold setStandby
  repeat' first
    | with_reducible assumption
    | exact Sub.of hk rfl
    | with_reducible intro _
    | with_reducible apply kept_ite
    | with_reducible apply setHeddle_kept

theorem setActive_kept {fp : Nat} {z : State} {s : State} {d : Deck} (h : Kept fp z s)
    (hk : Sub 32768 fp) :
    Kept fp z (setActive s d) := by
  unfold setActive
  repeat' first
    | with_reducible assumption
    | exact Sub.of hk rfl
    | with_reducible intro _
    | with_reducible apply kept_ite
    | with_reducible apply setHeddle_kept

theorem heddleWindow_kept {fp : Nat} {z : State} {op : Nat} {s : State} (h : Kept fp z s)
    (hk : Sub 32776 fp) :
    Kept fp z (heddleWindow op s) := by
  unfold heddleWindow
  repeat' first
    | with_reducible assumption
    | exact Sub.of hk rfl
    | with_reducible intro _
    | with_reducible apply kept_ite
    | with_reducible apply setHeddle_kept
    | with_reducible apply forUpTo_kept
    | with_reducible apply setReg_kept
    | with_reducible apply setStandby_kept
    | with_reducible apply setFld_kept

theorem cmdDeckLoad_kept {fp : Nat} {z : State} {d : CmdDesc} {s : State} (h : Kept fp z s)
    (hk : Sub 32768 fp) :
    KeptC fp z (cmdDeckLoad d s) := by
  unfold cmdDeckLoad
  repeat' first
    | with_reducible assumption
    | exact Sub.of hk rfl
    | with_reducible intro _
    | with_reducible apply kept_ite
    | with_reducible apply keptC_fin
    | with_reducible apply keptC_work
    | with_reducible apply keptC_ite
    | with_reducible apply needDomain_kept
    | with_reducible apply setHeddle_kept

theorem deckSwap_kept {fp : Nat} {z : State} {s : State} (h : Kept fp z s)
    (hk : Sub 32784 fp) :
    Kept fp z (deckSwap s) := by
  unfold deckSwap
  repeat' first
    | with_reducible assumption
    | exact Sub.of hk rfl
    | with_reducible intro _
    | with_reducible apply kept_ite
    | with_reducible apply count_kept
    | with_reducible apply setHeddle_kept

theorem cmdDeckSwap_kept {fp : Nat} {z : State} {a0 : CmdDesc} {s : State} (h : Kept fp z s)
    (hk : Sub 32768 fp) :
    KeptC fp z (cmdDeckSwap a0 s) := by
  unfold cmdDeckSwap
  repeat' first
    | with_reducible assumption
    | exact Sub.of hk rfl
    | with_reducible intro _
    | with_reducible apply kept_ite
    | with_reducible apply keptC_fin
    | with_reducible apply keptC_work
    | with_reducible apply keptC_ite
    | with_reducible apply needDomain_kept
    | with_reducible apply setHeddle_kept

theorem cmdRuleWrite_kept {fp : Nat} {z : State} {d : CmdDesc} {s : State} (h : Kept fp z s)
    (hk : Sub 32768 fp) :
    KeptC fp z (cmdRuleWrite d s) := by
  unfold cmdRuleWrite
  repeat' first
    | with_reducible assumption
    | exact Sub.of hk rfl
    | with_reducible intro _
    | with_reducible apply kept_ite
    | with_reducible apply keptC_fin
    | with_reducible apply keptC_work
    | with_reducible apply keptC_ite
    | with_reducible apply needDomain_kept
    | with_reducible apply setHeddle_kept
    | with_reducible apply setActive_kept

theorem execDeckLoadDone_kept {fp : Nat} {z : State} {records : List (List Byte)} {failed : Bool} {s : State} (h : Kept fp z s)
    (hk : Sub 303248 fp) :
    KeptE fp z (execDeckLoadDone records failed s) := by
  unfold execDeckLoadDone
  repeat' first
    | with_reducible assumption
    | exact Sub.of hk rfl
    | with_reducible intro _
    | with_reducible apply kept_ite
    | with_reducible apply keptE_next
    | with_reducible apply setStandby_kept
    | with_reducible apply setHeddle_kept
    | with_reducible apply workEnd_kept
    | with_reducible apply kept_foldl
    | with_reducible apply kept_getD
    | with_reducible apply keptF_of
    | with_reducible apply keptQ_snd
    | with_reducible apply keptP_snd
    | dsimp only
    | with_reducible apply keptP_ite
    | simp only [keptQ_mk]
    | with_reducible apply keptQ_ite
    | split

/-! ## Machine/Sec.lean -/

theorem setSec_kept {fp : Nat} {z s : State} {x : Sec} (h : Kept fp z s) (hk : Sub 262144 fp)
    (o : OtpLe s.sec x) : Kept fp z (setSec s x) := by
  unfold setSec
  simp only [kept_mk]
  refine keptF_upd h ?_
  have u := updF_refl fp s
  unfold UpdF at u ⊢
  obtain ⟨a0, a1, a2, a3, a4, a5, a6, a7, a8, a9, a10, a11, a12, a13, a14, a15, a16, a17, a18, a19, a20, a21, a22, a23, a24⟩ := u
  exact ⟨a0, a1, a2, a3, a4, a5, a6, a7, a8, a9, a10, a11, a12, .inl (hk 18 rfl), a14, a15, a16, a17, a18, a19, a20, a21, a22, a23, o⟩

theorem maskKey_kept {fp : Nat} {z : State} {key : List Byte} {s : State} (h : Kept fp z s)
    (hk : Sub 64 fp) :
    KeptP fp z (maskKey key s) := by
  unfold maskKey
  repeat' first
    | with_reducible assumption
    | exact Sub.of hk rfl
    | with_reducible intro _
    | with_reducible apply kept_ite
    | with_reducible apply keptP_ite
    | simp only [keptP_mk]
    | with_reducible refine drawBytes_kept_of ?_ (by assumption) ?_
    | with_reducible apply drawBytes_kept
    | with_reducible apply kept_foldl
    | with_reducible apply kept_getD
    | with_reducible apply keptF_of
    | with_reducible apply keptQ_snd
    | with_reducible apply keptP_snd

theorem maskKey_kept_of {fp : Nat} {z : State} {key : List Byte} {s : State} {x9} {t9 : State} (h : Kept fp z s) (e : maskKey key s = (x9, t9)) (hk : Sub 64 fp) : Kept fp z t9 := keptP_of (maskKey_kept (z := z) h hk) e

theorem drbgUse_kept {fp : Nat} {z : State} {s : State} {engine : Nat} {n : Nat} (h : Kept fp z s)
    (hk : Sub 262144 fp) :
    Kept fp z (drbgUse s engine n) := by
  unfold drbgUse
  repeat' first
    | with_reducible assumption
    | exact Sub.of hk rfl
    | (with_reducible apply otpLe_mk <;> first | exact Nat.le_refl _ | exact Nat.le_max_left _ _ | exact fun h => ⟨h, rfl⟩ | rfl | exact fun h => absurd h (by assumption))
    | with_reducible intro _
    | with_reducible apply kept_ite
    | with_reducible apply setSec_kept

theorem setKeys_kept {fp : Nat} {z : State} {s : State} {ks : List KeySlot} (h : Kept fp z s)
    (hk : Sub 262152 fp) :
    Kept fp z (setKeys s ks) := by
  unfold setKeys
  repeat' first
    | with_reducible assumption
    | exact Sub.of hk rfl
    | (with_reducible apply otpLe_mk <;> first | exact Nat.le_refl _ | exact Nat.le_max_left _ _ | exact fun h => ⟨h, rfl⟩ | rfl | exact fun h => absurd h (by assumption))
    | with_reducible intro _
    | with_reducible apply kept_ite
    | with_reducible apply setReg_kept
    | with_reducible apply setSec_kept

theorem loadKey_kept {fp : Nat} {z : State} {s : State} {stream : Nat} {weft : Bool} {index : Nat} {key : List Byte} (h : Kept fp z s)
    (hk : Sub 262232 fp) :
    Kept fp z (loadKey s stream weft index key) := by
  unfold loadKey
  repeat' first
    | with_reducible assumption
    | exact Sub.of hk rfl
    | (with_reducible apply otpLe_mk <;> first | exact Nat.le_refl _ | exact Nat.le_max_left _ _ | exact fun h => ⟨h, rfl⟩ | rfl | exact fun h => absurd h (by assumption))
    | with_reducible intro _
    | with_reducible apply kept_ite
    | with_reducible refine maskKey_kept_of ?_ (by assumption) ?_
    | with_reducible apply maskKey_kept
    | with_reducible apply setSec_kept
    | with_reducible apply count_kept
    | with_reducible apply setKeys_kept
    | with_reducible apply kept_foldl
    | with_reducible apply kept_getD
    | with_reducible apply keptF_of
    | with_reducible apply keptQ_snd
    | with_reducible apply keptP_snd

theorem releaseKeys_kept {fp : Nat} {z : State} {s : State} {p : KeySlot → Bool} (h : Kept fp z s)
    (hk : Sub 262168 fp) :
    Kept fp z (releaseKeys s p) := by
  unfold releaseKeys
  repeat' first
    | with_reducible assumption
    | exact Sub.of hk rfl
    | with_reducible intro _
    | with_reducible apply kept_ite
    | with_reducible apply countBy_kept
    | with_reducible apply setKeys_kept

theorem retireKeys_kept {fp : Nat} {z : State} {s : State} {p : KeySlot → Bool} {due : Option Nat} (h : Kept fp z s)
    (hk : Sub 262144 fp) :
    Kept fp z (retireKeys s p due) := by
  unfold retireKeys
  repeat' first
    | with_reducible assumption
    | exact Sub.of hk rfl
    | (with_reducible apply otpLe_mk <;> first | exact Nat.le_refl _ | exact Nat.le_max_left _ _ | exact fun h => ⟨h, rfl⟩ | rfl | exact fun h => absurd h (by assumption))
    | with_reducible intro _
    | with_reducible apply kept_ite
    | with_reducible apply setSec_kept

theorem switchKey_kept {fp : Nat} {z : State} {s : State} {stream : Nat} {old : Nat} {new : Nat} (h : Kept fp z s)
    (hk : Sub 262144 fp) :
    Kept fp z (switchKey s stream old new) := by
  unfold switchKey
  repeat' first
    | with_reducible assumption
    | exact Sub.of hk rfl
    | with_reducible intro _
    | with_reducible apply kept_ite
    | with_reducible apply retireKeys_kept

theorem warpKeyUsed_kept {fp : Nat} {z : State} {s : State} {k : KeySlot} (h : Kept fp z s)
    (hk : Sub 262144 fp) :
    Kept fp z (warpKeyUsed s k) := by
  unfold warpKeyUsed
  repeat' first
    | with_reducible assumption
    | exact Sub.of hk rfl
    | with_reducible intro _
    | with_reducible apply kept_ite
    | with_reducible apply retireKeys_kept

theorem execKeyRetire_kept {fp : Nat} {z : State} {stream : Nat} {weft : Bool} {index : Nat} {s : State} (h : Kept fp z s)
    (hk : Sub 262168 fp) :
    KeptE fp z (execKeyRetire stream weft index s) := by
  unfold execKeyRetire
  repeat' first
    | with_reducible assumption
    | exact Sub.of hk rfl
    | with_reducible intro _
    | with_reducible apply kept_ite
    | with_reducible apply keptE_next
    | with_reducible apply releaseKeys_kept
    | with_reducible apply kept_foldl
    | with_reducible apply kept_getD
    | with_reducible apply keptF_of
    | with_reducible apply keptQ_snd
    | with_reducible apply keptP_snd
    | simp only [keptP_mk]
    | with_reducible apply keptP_ite
    | simp only [keptQ_mk]
    | with_reducible apply keptQ_ite
    | split

theorem cipher0_kept {fp : Nat} {z : State} {s : State} {hdr : List Byte} {stream : Nat} {enc : Bool} {key : Nat} {payload : List Byte} {pick : Nat} {offset : Nat} (h : Kept fp z s)
    (hk : Sub 262160 fp) :
    KeptQ fp z (cipher0 s hdr stream enc key payload pick offset) := by
  unfold cipher0
  repeat' first
    | with_reducible assumption
    | exact Sub.of hk rfl
    | with_reducible intro _
    | with_reducible apply kept_ite
    | with_reducible apply keptQ_ite
    | simp only [keptQ_mk]
    | with_reducible apply countBy_kept
    | with_reducible apply count_kept
    | with_reducible apply drbgUse_kept
    | with_reducible apply warpKeyUsed_kept
    | with_reducible apply kept_foldl
    | with_reducible apply kept_getD
    | with_reducible apply keptF_of
    | with_reducible apply keptQ_snd
    | with_reducible apply keptP_snd
    | simp only [keptP_mk]
    | with_reducible apply keptP_ite
    | simp only [keptQ_mk]
    | with_reducible apply keptQ_ite
    | split

theorem cipher0_kept_of {fp : Nat} {z : State} {s : State} {hdr : List Byte} {stream : Nat} {enc : Bool} {key : Nat} {payload : List Byte} {pick : Nat} {offset : Nat} {x9 y9} {t9 : State} (h : Kept fp z s) (e : cipher0 s hdr stream enc key payload pick offset = (x9, y9, t9)) (hk : Sub 262160 fp) : Kept fp z t9 := keptQ_of (cipher0_kept (z := z) h hk) e

theorem secStatus_kept {fp : Nat} {z : State} {s : State} (h : Kept fp z s)
    (hk : Sub 8 fp) :
    Kept fp z (secStatus s) := by
  unfold secStatus
  repeat' first
    | with_reducible assumption
    | exact Sub.of hk rfl
    | with_reducible intro _
    | with_reducible apply kept_ite
    | with_reducible apply setReg_kept

theorem updSec_kept {fp : Nat} {z s : State} {x : Sec} (h : Kept fp z s) (hk : Sub 262152 fp)
    (o : OtpLe s.sec x) : Kept fp z (updSec s x) := by
  unfold updSec
  exact secStatus_kept (setSec_kept h (hk.of rfl) o) (hk.of rfl)

theorem execTrngBlock_kept {fp : Nat} {z : State} {raw : BitVec 2048} {s : State} (h : Kept fp z s)
    (hk : Sub 264280 fp) :
    KeptE fp z (execTrngBlock raw s) := by
  unfold execTrngBlock
  repeat' first
    | with_reducible assumption
    | exact Sub.of hk rfl
    | (with_reducible apply otpLe_mk <;> first | exact Nat.le_refl _ | exact Nat.le_max_left _ _ | exact fun h => ⟨h, rfl⟩ | rfl | exact fun h => absurd h (by assumption))
    | with_reducible intro _
    | with_reducible apply kept_ite
    | with_reducible apply keptE_next
    | with_reducible apply setSec_kept
    | with_reducible apply updSec_kept
    | with_reducible apply count_kept
    | with_reducible apply raiseFree_kept

theorem trngRestart_kept {fp : Nat} {z : State} {s : State} (h : Kept fp z s)
    (hk : Sub 262152 fp) :
    Kept fp z (trngRestart s) := by
  unfold trngRestart
  repeat' first
    | with_reducible assumption
    | exact Sub.of hk rfl
    | (with_reducible apply otpLe_mk <;> first | exact Nat.le_refl _ | exact Nat.le_max_left _ _ | exact fun h => ⟨h, rfl⟩ | rfl | exact fun h => absurd h (by assumption))
    | with_reducible intro _
    | with_reducible apply kept_ite
    | with_reducible apply updSec_kept

theorem execDrbgReseed_kept {fp : Nat} {z : State} {engine : Nat} {s : State} (h : Kept fp z s)
    (hk : Sub 262216 fp) :
    KeptE fp z (execDrbgReseed engine s) := by
  unfold execDrbgReseed
  repeat' first
    | with_reducible assumption
    | exact Sub.of hk rfl
    | (with_reducible apply otpLe_mk <;> first | exact Nat.le_refl _ | exact Nat.le_max_left _ _ | exact fun h => ⟨h, rfl⟩ | rfl | exact fun h => absurd h (by assumption))
    | with_reducible intro _
    | with_reducible apply kept_ite
    | with_reducible apply keptE_next
    | with_reducible apply updSec_kept
    | with_reducible refine drawBytes_kept_of ?_ (by assumption) ?_
    | with_reducible apply drawBytes_kept
    | with_reducible apply kept_foldl
    | with_reducible apply kept_getD
    | with_reducible apply keptF_of
    | with_reducible apply keptQ_snd
    | with_reducible apply keptP_snd

theorem setFlashSlot_kept {fp : Nat} {z : State} {s : State} {b : Bool} {l : List Byte} (h : Kept fp z s)
    (hk : Sub 262144 fp) :
    Kept fp z (setFlashSlot s b l) := by
  unfold setFlashSlot
  repeat' first
    | with_reducible assumption
    | exact Sub.of hk rfl
    | (with_reducible apply otpLe_mk <;> first | exact Nat.le_refl _ | exact Nat.le_max_left _ _ | exact fun h => ⟨h, rfl⟩ | rfl | exact fun h => absurd h (by assumption))
    | with_reducible intro _
    | with_reducible apply kept_ite
    | with_reducible apply setSec_kept
    | with_reducible apply kept_foldl
    | with_reducible apply kept_getD
    | with_reducible apply keptF_of
    | with_reducible apply keptQ_snd
    | with_reducible apply keptP_snd
    | dsimp only
    | with_reducible apply keptP_ite
    | simp only [keptQ_mk]
    | with_reducible apply keptQ_ite
    | split

theorem setSlotValid_kept {fp : Nat} {z : State} {s : State} {b : Bool} {ok : Bool} (h : Kept fp z s)
    (hk : Sub 262144 fp) :
    Kept fp z (setSlotValid s b ok) := by
  unfold setSlotValid
  repeat' first
    | with_reducible assumption
    | exact Sub.of hk rfl
    | (with_reducible apply otpLe_mk <;> first | exact Nat.le_refl _ | exact Nat.le_max_left _ _ | exact fun h => ⟨h, rfl⟩ | rfl | exact fun h => absurd h (by assumption))
    | with_reducible intro _
    | with_reducible apply kept_ite
    | with_reducible apply setSec_kept
    | with_reducible apply kept_foldl
    | with_reducible apply kept_getD
    | with_reducible apply keptF_of
    | with_reducible apply keptQ_snd
    | with_reducible apply keptP_snd
    | dsimp only
    | with_reducible apply keptP_ite
    | simp only [keptQ_mk]
    | with_reducible apply keptQ_ite
    | split

theorem writeRec_kept {fp : Nat} {z : State} {s : State} {active : Bool} (h : Kept fp z s)
    (hk : Sub 262144 fp) :
    Kept fp z (writeRec s active) := by
  unfold writeRec
  repeat' first
    | with_reducible assumption
    | exact Sub.of hk rfl
    | (with_reducible apply otpLe_mk <;> first | exact Nat.le_refl _ | exact Nat.le_max_left _ _ | exact fun h => ⟨h, rfl⟩ | rfl | exact fun h => absurd h (by assumption))
    | with_reducible intro _
    | with_reducible apply kept_ite
    | with_reducible apply setSec_kept
    | with_reducible apply kept_foldl
    | with_reducible apply kept_getD
    | with_reducible apply keptF_of
    | with_reducible apply keptQ_snd
    | with_reducible apply keptP_snd
    | dsimp only
    | with_reducible apply keptP_ite
    | simp only [keptQ_mk]
    | with_reducible apply keptQ_ite
    | split

theorem testSlot_kept {fp : Nat} {z : State} {s : State} {b : Bool} {arb : Nat} (h : Kept fp z s)
    (hk : Sub 262144 fp) :
    KeptP fp z (testSlot s b arb) := by
  unfold testSlot
  repeat' first
    | with_reducible assumption
    | exact Sub.of hk rfl
    | with_reducible intro _
    | with_reducible apply kept_ite
    | with_reducible apply keptP_ite
    | simp only [keptP_mk]
    | with_reducible apply setSlotValid_kept

theorem testSlot_kept_of {fp : Nat} {z : State} {s : State} {b : Bool} {arb : Nat} {x9} {t9 : State} (h : Kept fp z s) (e : testSlot s b arb = (x9, t9)) (hk : Sub 262144 fp) : Kept fp z t9 := keptP_of (testSlot_kept (z := z) h hk) e

theorem bootTables_kept {fp : Nat} {z : State} {img : List Byte} {s : State} (h : Kept fp z s)
    (hk : Sub 262144 fp) :
    Kept fp z (bootTables img s) := by
  unfold bootTables
  repeat' first
    | with_reducible assumption
    | exact Sub.of hk rfl
    | (with_reducible apply otpLe_mk <;> first | exact Nat.le_refl _ | exact Nat.le_max_left _ _ | exact fun h => ⟨h, rfl⟩ | rfl | exact fun h => absurd h (by assumption))
    | with_reducible intro _
    | with_reducible apply kept_ite
    | with_reducible apply setSec_kept

theorem bootChoice_kept {fp : Nat} {z : State} {s : State} (h : Kept fp z s)
    (hk : Sub 262208 fp) :
    Kept fp z (bootChoice s) := by
  unfold bootChoice
  repeat' first
    | with_reducible assumption
    | exact Sub.of hk rfl
    | (with_reducible apply otpLe_mk <;> first | exact Nat.le_refl _ | exact Nat.le_max_left _ _ | exact fun h => ⟨h, rfl⟩ | rfl | exact fun h => absurd h (by assumption))
    | with_reducible intro _
    | with_reducible apply kept_ite
    | with_reducible apply setSec_kept
    | with_reducible refine testSlot_kept_of ?_ (by assumption) ?_
    | with_reducible apply testSlot_kept
    | with_reducible apply bootTables_kept
    | with_reducible refine draw_kept_of ?_ (by assumption) ?_
    | with_reducible apply draw_kept
    | with_reducible apply kept_foldl
    | with_reducible apply kept_getD
    | with_reducible apply keptF_of
    | with_reducible apply keptQ_snd
    | with_reducible apply keptP_snd

theorem imgSwap_kept {fp : Nat} {z : State} {s : State} (h : Kept fp z s)
    (hk : Sub 270336 fp) :
    Kept fp z (imgSwap s) := by
  unfold imgSwap
  repeat' first
    | with_reducible assumption
    | exact Sub.of hk rfl
    | (with_reducible apply otpLe_mk <;> first | exact Nat.le_refl _ | exact Nat.le_max_left _ _ | exact fun h => ⟨h, rfl⟩ | rfl | exact fun h => absurd h (by assumption))
    | with_reducible intro _
    | with_reducible apply kept_ite
    | with_reducible apply setSec_kept
    | with_reducible apply kept_foldl
    | with_reducible apply kept_getD
    | with_reducible apply keptF_of
    | with_reducible apply keptQ_snd
    | with_reducible apply keptP_snd
    | dsimp only
    | with_reducible apply keptP_ite
    | simp only [keptQ_mk]
    | with_reducible apply keptQ_ite
    | split
    | simp only [kept_mk]
    | with_reducible refine keptF_upd ?_ (updF hk ?_)
    | (unfold UpdF; and_intros <;> first | exact .inl rfl | exact .inr rfl | exact .inr id | exact .inr fun _ => rfl | exact .refl _ | exact fun h => ⟨h, rfl⟩ | rfl | exact Nat.le_max_left _ _)

theorem setPhase_kept {fp : Nat} {z : State} {s : State} {p : Nat} {n : Nat} (h : Kept fp z s)
    (hk : Sub 8 fp) :
    Kept fp z (setPhase s p n) := by
  unfold setPhase
  repeat' first
    | with_reducible assumption
    | exact Sub.of hk rfl
    | with_reducible intro _
    | with_reducible apply kept_ite
    | with_reducible apply setReg_kept

theorem imgStop_kept {fp : Nat} {z : State} {s : State} (h : Kept fp z s)
    (hk : Sub 262152 fp) :
    Kept fp z (imgStop s) := by
  unfold imgStop
  repeat' first
    | with_reducible assumption
    | exact Sub.of hk rfl
    | (with_reducible apply otpLe_mk <;> first | exact Nat.le_refl _ | exact Nat.le_max_left _ _ | exact fun h => ⟨h, rfl⟩ | rfl | exact fun h => absurd h (by assumption))
    | with_reducible intro _
    | with_reducible apply kept_ite
    | with_reducible apply setPhase_kept
    | with_reducible apply updSec_kept

theorem cmdImageInstall_kept {fp : Nat} {z : State} {a0 : CmdDesc} {s : State} (h : Kept fp z s)
    (hk : Sub 262152 fp) :
    KeptC fp z (cmdImageInstall a0 s) := by
  unfold cmdImageInstall
  repeat' first
    | with_reducible assumption
    | exact Sub.of hk rfl
    | (with_reducible apply otpLe_mk <;> first | exact Nat.le_refl _ | exact Nat.le_max_left _ _ | exact fun h => ⟨h, rfl⟩ | rfl | exact fun h => absurd h (by assumption))
    | with_reducible intro _
    | with_reducible apply kept_ite
    | with_reducible apply keptC_fin
    | with_reducible apply keptC_work
    | with_reducible apply keptC_ite
    | with_reducible apply needDomain_kept
    | with_reducible apply setPhase_kept
    | with_reducible apply updSec_kept

theorem cmdImageActivate_kept {fp : Nat} {z : State} {a0 : CmdDesc} {s : State} (h : Kept fp z s)
    (hk : Sub 262152 fp) :
    KeptC fp z (cmdImageActivate a0 s) := by
  unfold cmdImageActivate
  repeat' first
    | with_reducible assumption
    | exact Sub.of hk rfl
    | (with_reducible apply otpLe_mk <;> first | exact Nat.le_refl _ | exact Nat.le_max_left _ _ | exact fun h => ⟨h, rfl⟩ | rfl | exact fun h => absurd h (by assumption))
    | with_reducible intro _
    | with_reducible apply kept_ite
    | with_reducible apply keptC_fin
    | with_reducible apply keptC_work
    | with_reducible apply keptC_ite
    | with_reducible apply needDomain_kept
    | with_reducible apply setPhase_kept
    | with_reducible apply updSec_kept

theorem cmdArbRaise_kept {fp : Nat} {z : State} {a0 : CmdDesc} {s : State} (h : Kept fp z s)
    (hk : Sub 0 fp) :
    KeptC fp z (cmdArbRaise a0 s) := by
  unfold cmdArbRaise
  repeat' first
    | with_reducible assumption
    | exact Sub.of hk rfl
    | with_reducible intro _
    | with_reducible apply kept_ite
    | with_reducible apply keptC_fin
    | with_reducible apply keptC_work
    | with_reducible apply keptC_ite
    | with_reducible apply needDomain_kept

theorem cmdIdSign_kept {fp : Nat} {z : State} {a0 : CmdDesc} {s : State} (h : Kept fp z s)
    (hk : Sub 0 fp) :
    KeptC fp z (cmdIdSign a0 s) := by
  unfold cmdIdSign
  repeat' first
    | with_reducible assumption
    | exact Sub.of hk rfl
    | with_reducible intro _
    | with_reducible apply kept_ite
    | with_reducible apply keptC_fin
    | with_reducible apply keptC_work
    | with_reducible apply keptC_ite
    | with_reducible apply needDomain_kept

theorem cmdSigVerify_kept {fp : Nat} {z : State} {d : CmdDesc} {s : State} (h : Kept fp z s)
    (hk : Sub 0 fp) :
    KeptC fp z (cmdSigVerify d s) := by
  unfold cmdSigVerify
  repeat' first
    | with_reducible assumption
    | exact Sub.of hk rfl
    | with_reducible intro _
    | with_reducible apply kept_ite
    | with_reducible apply keptC_fin
    | with_reducible apply keptC_work
    | with_reducible apply keptC_ite
    | with_reducible apply needDomain_kept

theorem cmdHash_kept {fp : Nat} {z : State} {a0 : CmdDesc} {s : State} (h : Kept fp z s)
    (hk : Sub 0 fp) :
    KeptC fp z (cmdHash a0 s) := by
  unfold cmdHash
  repeat' first
    | with_reducible assumption
    | exact Sub.of hk rfl
    | with_reducible intro _
    | with_reducible apply kept_ite
    | with_reducible apply keptC_fin
    | with_reducible apply keptC_work
    | with_reducible apply keptC_ite
    | with_reducible apply needDomain_kept

theorem cmdRandom_kept {fp : Nat} {z : State} {a0 : CmdDesc} {s : State} (h : Kept fp z s)
    (hk : Sub 0 fp) :
    KeptC fp z (cmdRandom a0 s) := by
  unfold cmdRandom
  repeat' first
    | with_reducible assumption
    | exact Sub.of hk rfl
    | with_reducible intro _
    | with_reducible apply kept_ite
    | with_reducible apply keptC_fin
    | with_reducible apply keptC_work
    | with_reducible apply keptC_ite
    | with_reducible apply needDomain_kept

theorem hostKeySet_kept {fp : Nat} {z : State} {d : CmdDesc} {s : State} (h : Kept fp z s)
    (hk : Sub 262208 fp) :
    Kept fp z (hostKeySet d s) := by
  unfold hostKeySet
  repeat' first
    | with_reducible assumption
    | exact Sub.of hk rfl
    | (with_reducible apply otpLe_mk <;> first | exact Nat.le_refl _ | exact Nat.le_max_left _ _ | exact fun h => ⟨h, rfl⟩ | rfl | exact fun h => absurd h (by assumption))
    | with_reducible intro _
    | with_reducible apply kept_ite
    | with_reducible refine maskKey_kept_of ?_ (by assumption) ?_
    | with_reducible apply maskKey_kept
    | with_reducible apply setSec_kept
    | with_reducible apply kept_foldl
    | with_reducible apply kept_getD
    | with_reducible apply keptF_of
    | with_reducible apply keptQ_snd
    | with_reducible apply keptP_snd

theorem cmdHostKey_kept {fp : Nat} {z : State} {d : CmdDesc} {s : State} (h : Kept fp z s)
    (hk : Sub 262208 fp) :
    KeptC fp z (cmdHostKey d s) := by
  unfold cmdHostKey
  repeat' first
    | with_reducible assumption
    | exact Sub.of hk rfl
    | (with_reducible apply otpLe_mk <;> first | exact Nat.le_refl _ | exact Nat.le_max_left _ _ | exact fun h => ⟨h, rfl⟩ | rfl | exact fun h => absurd h (by assumption))
    | with_reducible intro _
    | with_reducible apply kept_ite
    | with_reducible apply keptC_fin
    | with_reducible apply keptC_work
    | with_reducible apply keptC_ite
    | with_reducible apply needDomain_kept
    | with_reducible apply setSec_kept
    | with_reducible apply hostKeySet_kept

theorem cmdOtpCustKey_kept {fp : Nat} {z : State} {d : CmdDesc} {s : State} (h : Kept fp z s)
    (hk : Sub 262144 fp) : KeptC fp z (cmdOtpCustKey d s) := by
  unfold cmdOtpCustKey
  refine needDomain_kept (fun t ht => ?_) h (hk.of rfl)
  split
  · exact ht
  · rename_i e
    exact setSec_kept ht (hk.of rfl) ⟨Nat.le_refl _, fun g => absurd g e, rfl⟩

theorem setGcmCtx_kept {fp : Nat} {z : State} {s : State} {c : Nat} {x : Option GcmCtx} (h : Kept fp z s)
    (hk : Sub 262144 fp) :
    Kept fp z (setGcmCtx s c x) := by
  unfold setGcmCtx
  repeat' first
    | with_reducible assumption
    | exact Sub.of hk rfl
    | (with_reducible apply otpLe_mk <;> first | exact Nat.le_refl _ | exact Nat.le_max_left _ _ | exact fun h => ⟨h, rfl⟩ | rfl | exact fun h => absurd h (by assumption))
    | with_reducible intro _
    | with_reducible apply kept_ite
    | with_reducible apply setSec_kept

theorem cmdGcm_kept {fp : Nat} {z : State} {d : CmdDesc} {s : State} (h : Kept fp z s)
    (hk : Sub 262160 fp) :
    KeptC fp z (cmdGcm d s) := by
  unfold cmdGcm
  repeat' first
    | with_reducible assumption
    | exact Sub.of hk rfl
    | (with_reducible apply otpLe_mk <;> first | exact Nat.le_refl _ | exact Nat.le_max_left _ _ | exact fun h => ⟨h, rfl⟩ | rfl | exact fun h => absurd h (by assumption))
    | with_reducible intro _
    | with_reducible apply kept_ite
    | with_reducible apply keptC_fin
    | with_reducible apply keptC_work
    | with_reducible apply keptC_ite
    | with_reducible apply needDomain_kept
    | with_reducible apply count_kept
    | with_reducible apply setGcmCtx_kept
    | with_reducible apply setSec_kept

theorem gcmSuspend_kept {fp : Nat} {z : State} {c : GcmCtx} {n : Nat} {s : State} (h : Kept fp z s)
    (hk : Sub 262160 fp) :
    Kept fp z (gcmSuspend c n s) := by
  unfold gcmSuspend
  repeat' first
    | with_reducible assumption
    | exact Sub.of hk rfl
    | with_reducible intro _
    | with_reducible apply kept_ite
    | with_reducible apply countBy_kept
    | with_reducible apply setGcmCtx_kept

theorem gcmWork_kept {fp : Nat} {z : State} {d : CmdDesc} {w : WorkData} {s : State} (h : Kept fp z s)
    (hk : Sub 262288 fp) :
    KeptP fp z (gcmWork d w s) := by
  unfold gcmWork
  repeat' first
    | with_reducible assumption
    | exact Sub.of hk rfl
    | with_reducible intro _
    | with_reducible apply kept_ite
    | with_reducible apply keptP_ite
    | simp only [keptP_mk]
    | with_reducible apply drbgUse_kept
    | with_reducible apply gcmSuspend_kept
    | with_reducible apply dmaWrite_kept
    | with_reducible apply setGcmCtx_kept

theorem gcmWork_kept_of {fp : Nat} {z : State} {d : CmdDesc} {w : WorkData} {s : State} {x9} {t9 : State} (h : Kept fp z s) (e : gcmWork d w s = (x9, t9)) (hk : Sub 262288 fp) : Kept fp z t9 := keptP_of (gcmWork_kept (z := z) h hk) e

theorem imgEnd_kept {fp : Nat} {z : State} {st : Nat} {s : State} (h : Kept fp z s)
    (hk : Sub 262152 fp) :
    KeptJ fp z (imgEnd st s) := by
  unfold imgEnd
  repeat' first
    | with_reducible assumption
    | exact Sub.of hk rfl
    | with_reducible intro _
    | with_reducible apply kept_ite
    | with_reducible apply keptJ_fin
    | with_reducible apply keptJ_goes
    | with_reducible apply keptJ_ite
    | with_reducible apply imgStop_kept

theorem imgPhase_kept {fp : Nat} {z : State} {p : Nat} {header : List Byte} {s : State} (h : Kept fp z s)
    (hk : Sub 262152 fp) :
    KeptJ fp z (imgPhase p header s) := by
  unfold imgPhase
  repeat' first
    | with_reducible assumption
    | exact Sub.of hk rfl
    | (with_reducible apply otpLe_mk <;> first | exact Nat.le_refl _ | exact Nat.le_max_left _ _ | exact fun h => ⟨h, rfl⟩ | rfl | exact fun h => absurd h (by assumption))
    | with_reducible intro _
    | with_reducible apply kept_ite
    | with_reducible apply keptJ_fin
    | with_reducible apply keptJ_goes
    | with_reducible apply keptJ_ite
    | with_reducible apply setPhase_kept
    | with_reducible apply updSec_kept

theorem installWork_kept {fp : Nat} {z : State} {phase : Nat} {header : List Byte} {w : WorkData} {s : State} (h : Kept fp z s)
    (hk : Sub 262152 fp) :
    KeptJ fp z (installWork phase header w s) := by
  unfold installWork
  repeat' first
    | with_reducible assumption
    | exact Sub.of hk rfl
    | with_reducible intro _
    | with_reducible apply kept_ite
    | with_reducible apply keptJ_fin
    | with_reducible apply keptJ_goes
    | with_reducible apply keptJ_ite
    | with_reducible apply imgEnd_kept
    | with_reducible apply imgPhase_kept
    | with_reducible apply setSlotValid_kept
    | with_reducible apply setFlashSlot_kept
    | with_reducible apply kept_foldl
    | with_reducible apply kept_getD
    | with_reducible apply keptF_of
    | with_reducible apply keptQ_snd
    | with_reducible apply keptP_snd
    | dsimp only
    | with_reducible apply keptP_ite
    | simp only [keptQ_mk]
    | with_reducible apply keptQ_ite
    | split

theorem activateWork_kept {fp : Nat} {z : State} {w : WorkData} {s : State} (h : Kept fp z s)
    (hk : Sub 262152 fp) :
    KeptJ fp z (activateWork w s) := by
  unfold activateWork
  repeat' first
    | with_reducible assumption
    | exact Sub.of hk rfl
    | with_reducible intro _
    | with_reducible apply kept_ite
    | with_reducible apply keptJ_fin
    | with_reducible apply keptJ_goes
    | with_reducible apply keptJ_ite
    | with_reducible apply imgEnd_kept
    | with_reducible apply writeRec_kept
    | with_reducible refine testSlot_kept_of ?_ (by assumption) ?_
    | with_reducible apply testSlot_kept
    | with_reducible apply kept_foldl
    | with_reducible apply kept_getD
    | with_reducible apply keptF_of
    | with_reducible apply keptQ_snd
    | with_reducible apply keptP_snd
    | dsimp only
    | with_reducible apply keptP_ite
    | simp only [keptQ_mk]
    | with_reducible apply keptQ_ite
    | split

theorem imgProgress_kept {fp : Nat} {z : State} {code : Nat} {n : Nat} {s : State} (h : Kept fp z s)
    (hk : Sub 262152 fp) :
    Kept fp z (imgProgress code n s) := by
  unfold imgProgress
  repeat' first
    | with_reducible assumption
    | exact Sub.of hk rfl
    | (with_reducible apply otpLe_mk <;> first | exact Nat.le_refl _ | exact Nat.le_max_left _ _ | exact fun h => ⟨h, rfl⟩ | rfl | exact fun h => absurd h (by assumption))
    | with_reducible intro _
    | with_reducible apply kept_ite
    | with_reducible apply setPhase_kept
    | with_reducible apply setSec_kept
    | with_reducible apply kept_foldl
    | with_reducible apply kept_getD
    | with_reducible apply keptF_of
    | with_reducible apply keptQ_snd
    | with_reducible apply keptP_snd
    | dsimp only
    | with_reducible apply keptP_ite
    | simp only [keptQ_mk]
    | with_reducible apply keptQ_ite
    | split

theorem secWork_kept {fp : Nat} {z : State} {c : CmdWork} {w : WorkData} {s : State} (h : Kept fp z s)
    (hk : Sub 262360 fp) :
    KeptJ fp z (secWork c w s) := by
  unfold secWork
  repeat' first
    | with_reducible assumption
    | exact Sub.of hk rfl
    | (with_reducible apply otpLe_mk <;> first | exact Nat.le_refl _ | exact Nat.le_max_left _ _ | exact fun h => ⟨h, rfl⟩ | rfl | exact fun h => absurd h (by assumption))
    | with_reducible intro _
    | with_reducible apply kept_ite
    | with_reducible apply keptJ_fin
    | with_reducible apply keptJ_goes
    | with_reducible apply keptJ_ite
    | with_reducible apply imgProgress_kept
    | with_reducible apply installWork_kept
    | with_reducible apply activateWork_kept
    | with_reducible apply setSec_kept
    | with_reducible apply dmaWrite_kept
    | with_reducible apply drbgUse_kept
    | with_reducible refine drawBytes_kept_of ?_ (by assumption) ?_
    | with_reducible apply drawBytes_kept
    | with_reducible apply hostKeySet_kept
    | with_reducible refine gcmWork_kept_of ?_ (by assumption) ?_
    | with_reducible apply gcmWork_kept
    | with_reducible apply count_kept
    | with_reducible apply kept_foldl
    | with_reducible apply kept_getD
    | with_reducible apply keptF_of
    | with_reducible apply keptQ_snd
    | with_reducible apply keptP_snd
    | dsimp only
    | with_reducible apply keptP_ite
    | simp only [keptQ_mk]
    | with_reducible apply keptQ_ite
    | split

theorem execRandomEntropyTimeout_kept {fp : Nat} {z : State} {ring : Nat} {index : Nat} {s : State} (h : Kept fp z s)
    (hk : Sub 270480 fp) :
    KeptE fp z (execRandomEntropyTimeout ring index s) := by
  unfold execRandomEntropyTimeout
  repeat' first
    | with_reducible assumption
    | exact Sub.of hk rfl
    | with_reducible intro _
    | with_reducible apply kept_ite
    | with_reducible apply keptE_next
    | with_reducible apply workEnd_kept
    | with_reducible apply kept_foldl
    | with_reducible apply kept_getD
    | with_reducible apply keptF_of
    | with_reducible apply keptQ_snd
    | with_reducible apply keptP_snd
    | simp only [keptP_mk]
    | with_reducible apply keptP_ite
    | simp only [keptQ_mk]
    | with_reducible apply keptQ_ite
    | split

/-! ## Machine/Reed.lean -/

theorem setReed_kept {fp : Nat} {z : State} {s : State} {x : Reed} (h : Kept fp z s)
    (hk : Sub 131072 fp) :
    Kept fp z (setReed s x) := by
  unfold setReed
  repeat' first
    | with_reducible assumption
    | exact Sub.of hk rfl
    | with_reducible intro _
    | with_reducible apply kept_ite
    | with_reducible apply kept_foldl
    | with_reducible apply kept_getD
    | with_reducible apply keptF_of
    | with_reducible apply keptQ_snd
    | with_reducible apply keptP_snd
    | simp only [keptP_mk]
    | with_reducible apply keptP_ite
    | simp only [keptQ_mk]
    | with_reducible apply keptQ_ite
    | split
    | simp only [kept_mk]
    | with_reducible refine keptF_upd ?_ (updF hk ?_)
    | (unfold UpdF; and_intros <;> first | exact .inl rfl | exact .inr rfl | exact .inr id | exact .inr fun _ => rfl | exact .refl _ | exact fun h => ⟨h, rfl⟩ | rfl | exact Nat.le_max_left _ _)

theorem qCnt_kept {fp : Nat} {z : State} {s : State} {q : Nat} {k : Nat} {n : Nat} (h : Kept fp z s)
    (hk : Sub 16 fp) :
    Kept fp z (qCnt s q k n) := by
  unfold qCnt
  repeat' first
    | with_reducible assumption
    | exact Sub.of hk rfl
    | with_reducible intro _
    | with_reducible apply kept_ite
    | with_reducible apply countBy_kept

theorem qHwm_kept {fp : Nat} {z s : State} {q k v : Nat} (h : Kept fp z s)
    (hk : Sub 16 fp) : Kept fp z (qHwm s q k v) := by
  unfold qHwm
  exact kept_cntPut h (hk 4 rfl) _ _ (Nat.min_le_left _ _)

theorem txTs_kept {fp : Nat} {z : State} {s : State} {r : Nat} {i : Nat} {status : Nat} {body : Nat} (h : Kept fp z s)
    (hk : Sub 8336 fp) :
    Kept fp z (txTs s r i status body) := by
  unfold txTs
  repeat' first
    | with_reducible assumption
    | exact Sub.of hk rfl
    | with_reducible intro _
    | with_reducible apply kept_ite
    | with_reducible apply post_kept
    | with_reducible apply setRing_kept

theorem sendHanded_kept {fp : Nat} {z : State} {s : State} {f : Frame} (h : Kept fp z s)
    (hk : Sub 8336 fp) :
    Kept fp z (sendHanded s f) := by
  unfold sendHanded
  repeat' first
    | with_reducible assumption
    | exact Sub.of hk rfl
    | with_reducible intro _
    | with_reducible apply kept_ite
    | with_reducible apply post_kept
    | with_reducible apply kept_foldl
    | with_reducible apply kept_getD
    | with_reducible apply keptF_of
    | with_reducible apply keptQ_snd
    | with_reducible apply keptP_snd
    | simp only [keptP_mk]
    | with_reducible apply keptP_ite
    | simp only [keptQ_mk]
    | with_reducible apply keptQ_ite
    | split

theorem frameGone_kept {fp : Nat} {z : State} {s : State} {f : Frame} (h : Kept fp z s)
    (hk : Sub 26840 fp) :
    Kept fp z (frameGone s f) := by
  unfold frameGone
  repeat' first
    | with_reducible assumption
    | exact Sub.of hk rfl
    | with_reducible intro _
    | with_reducible apply kept_ite
    | with_reducible apply spoolFree_kept
    | with_reducible apply sendHanded_kept
    | with_reducible apply txTs_kept
    | with_reducible apply kept_foldl
    | with_reducible apply kept_getD
    | with_reducible apply keptF_of
    | with_reducible apply keptQ_snd
    | with_reducible apply keptP_snd
    | dsimp only
    | with_reducible apply keptP_ite
    | simp only [keptQ_mk]
    | with_reducible apply keptQ_ite
    | split

theorem queueDrop_kept {fp : Nat} {z : State} {s : State} {q : Nat} {n : Nat} {f : Frame} (h : Kept fp z s)
    (hk : Sub 26840 fp) :
    Kept fp z (queueDrop s q n f) := by
  unfold queueDrop
  repeat' first
    | with_reducible assumption
    | exact Sub.of hk rfl
    | with_reducible intro _
    | with_reducible apply kept_ite
    | with_reducible apply frameGone_kept
    | with_reducible apply qCnt_kept
    | with_reducible apply count_kept

theorem meter_kept {fp : Nat} {z : State} {s : State} {m : Nat} {len : Nat} (h : Kept fp z s)
    (hk : Sub 131088 fp) :
    KeptP fp z (meter s m len) := by
  unfold meter
  repeat' first
    | with_reducible assumption
    | exact Sub.of hk rfl
    | with_reducible intro _
    | with_reducible apply kept_ite
    | with_reducible apply keptP_ite
    | simp only [keptP_mk]
    | with_reducible apply setReed_kept
    | with_reducible apply count_kept
    | with_reducible apply kept_foldl
    | with_reducible apply kept_getD
    | with_reducible apply keptF_of
    | with_reducible apply keptQ_snd
    | with_reducible apply keptP_snd

theorem meter_kept_of {fp : Nat} {z : State} {s : State} {m : Nat} {len : Nat} {x9} {t9 : State} (h : Kept fp z s) (e : meter s m len = (x9, t9)) (hk : Sub 131088 fp) : Kept fp z t9 := keptP_of (meter_kept (z := z) h hk) e

theorem setQueue_kept {fp : Nat} {z : State} {s : State} {q : Nat} {x : Queue} (h : Kept fp z s)
    (hk : Sub 131072 fp) :
    Kept fp z (setQueue s q x) := by
  unfold setQueue
  repeat' first
    | with_reducible assumption
    | exact Sub.of hk rfl
    | with_reducible intro _
    | with_reducible apply kept_ite
    | with_reducible apply setReed_kept

theorem newHead_kept {fp : Nat} {z : State} {s : State} {q : Nat} {st : Nat} (h : Kept fp z s)
    (hk : Sub 131072 fp) :
    Kept fp z (newHead s q st) := by
  unfold newHead
  repeat' first
    | with_reducible assumption
    | exact Sub.of hk rfl
    | with_reducible intro _
    | with_reducible apply kept_ite
    | with_reducible apply setQueue_kept
    | with_reducible apply kept_foldl
    | with_reducible apply kept_getD
    | with_reducible apply keptF_of
    | with_reducible apply keptQ_snd
    | with_reducible apply keptP_snd
    | dsimp only
    | with_reducible apply keptP_ite
    | simp only [keptQ_mk]
    | with_reducible apply keptQ_ite
    | split

theorem reedEnqueue_kept {fp : Nat} {z : State} {s : State} {f : Frame} {q : Nat} {colour : Nat} {same : Bool} {port : Nat} {b : Buf} (h : Kept fp z s)
    (hk : Sub 157912 fp) :
    Kept fp z (reedEnqueue s f q colour same port b) := by
  unfold reedEnqueue
  repeat' first
    | with_reducible assumption
    | exact Sub.of hk rfl
    | with_reducible intro _
    | with_reducible apply kept_ite
    | with_reducible apply queueDrop_kept
    | with_reducible refine spoolAlloc_kept_of ?_ (by assumption) ?_
    | with_reducible apply spoolAlloc_kept
    | with_reducible apply setQueue_kept
    | with_reducible apply newHead_kept
    | with_reducible apply qCnt_kept
    | with_reducible apply count_kept
    | with_reducible apply qHwm_kept
    | with_reducible apply kept_foldl
    | with_reducible apply kept_getD
    | with_reducible apply keptF_of
    | with_reducible apply keptQ_snd
    | with_reducible apply keptP_snd
    | dsimp only
    | with_reducible apply keptP_ite
    | simp only [keptQ_mk]
    | with_reducible apply keptQ_ite
    | split

theorem setBucket_kept {fp : Nat} {z : State} {s : State} {n : Nat} {b : ℤ × ℤ} (h : Kept fp z s)
    (hk : Sub 131072 fp) :
    Kept fp z (setBucket s n b) := by
  unfold setBucket
  repeat' first
    | with_reducible assumption
    | exact Sub.of hk rfl
    | with_reducible intro _
    | with_reducible apply kept_ite
    | with_reducible apply setReed_kept

theorem chargeShaper_kept {fp : Nat} {z : State} {s : State} {q : Nat} {l : Nat} {committed : Bool} (h : Kept fp z s)
    (hk : Sub 131088 fp) :
    Kept fp z (chargeShaper s q l committed) := by
  unfold chargeShaper
  repeat' first
    | with_reducible assumption
    | exact Sub.of hk rfl
    | with_reducible intro _
    | with_reducible apply kept_ite
    | with_reducible apply countBy_kept
    | with_reducible apply setBucket_kept

theorem refill_kept {fp : Nat} {z : State} {s : State} {n : Nat} (h : Kept fp z s)
    (hk : Sub 131072 fp) :
    Kept fp z (refill s n) := by
  unfold refill
  repeat' first
    | with_reducible assumption
    | exact Sub.of hk rfl
    | with_reducible intro _
    | with_reducible apply kept_ite
    | with_reducible apply setBucket_kept

theorem shaperTick_kept {fp : Nat} {z : State} {k : Nat} {s : State} (h : Kept fp z s)
    (hk : Sub 131072 fp) :
    Kept fp z (shaperTick k s) := by
  unfold shaperTick
  repeat' first
    | with_reducible assumption
    | exact Sub.of hk rfl
    | with_reducible intro _
    | with_reducible apply kept_ite
    | with_reducible apply refill_kept
    | with_reducible apply setReed_kept
    | with_reducible apply kept_foldl

theorem shaperSwap_kept {fp : Nat} {z : State} {s : State} (h : Kept fp z s)
    (hk : Sub 131080 fp) :
    Kept fp z (shaperSwap s) := by
  unfold shaperSwap
  repeat' first
    | with_reducible assumption
    | exact Sub.of hk rfl
    | with_reducible intro _
    | with_reducible apply kept_ite
    | with_reducible apply setBucket_kept
    | with_reducible apply setReed_kept
    | with_reducible apply setFld_kept
    | with_reducible apply kept_foldl

theorem wakeTags_kept {fp : Nat} {z : State} {pol : SelPolicy} {d : Nat} {s : State} (h : Kept fp z s)
    (hk : Sub 131072 fp) :
    Kept fp z (wakeTags pol d s) := by
  unfold wakeTags
  repeat' first
    | with_reducible assumption
    | exact Sub.of hk rfl
    | with_reducible intro _
    | with_reducible apply kept_ite
    | with_reducible apply setQueue_kept
    | with_reducible apply newHead_kept
    | with_reducible apply kept_foldl

theorem popHead_kept {fp : Nat} {z : State} {s : State} {q : Nat} {st : Nat} (h : Kept fp z s)
    (hk : Sub 131072 fp) :
    Kept fp z (popHead s q st) := by
  unfold popHead
  repeat' first
    | with_reducible assumption
    | exact Sub.of hk rfl
    | with_reducible intro _
    | with_reducible apply kept_ite
    | with_reducible apply newHead_kept
    | with_reducible apply setQueue_kept

theorem dropHead_kept {fp : Nat} {z : State} {s : State} {q : Nat} {i : QItem} {g : Nat} {c : Nat} (h : Kept fp z s)
    (hk : Sub 157912 fp) :
    Kept fp z (dropHead s q i g c) := by
  unfold dropHead
  repeat' first
    | with_reducible assumption
    | exact Sub.of hk rfl
    | with_reducible intro _
    | with_reducible apply kept_ite
    | with_reducible apply popHead_kept
    | with_reducible apply qHwm_kept
    | with_reducible apply frameGone_kept
    | with_reducible apply qCnt_kept
    | with_reducible apply count_kept

theorem queueLeft_kept {fp : Nat} {z : State} {s : State} {q : Nat} {f : Frame} (h : Kept fp z s)
    (hk : Sub 16 fp) :
    Kept fp z (queueLeft s q f) := by
  unfold queueLeft
  repeat' first
    | with_reducible assumption
    | exact Sub.of hk rfl
    | with_reducible intro _
    | with_reducible apply kept_ite
    | with_reducible apply qCnt_kept

theorem selectFrom_kept {fp : Nat} {z : State} {pol : SelPolicy} {q : Nat} {band : Bool} {n : Nat} {s : State} (h : Kept fp z s)
    (hk : Sub 157912 fp) :
    KeptP fp z (selectFrom pol q band n s) ∧ KeptOP fp z (selectFrom pol q band n s).1 := by
  induction n generalizing s with
  | zero => exact ⟨h, keptOP_none⟩
  | succ n ih =>
    unfold selectFrom
    split
    · exact ⟨h, keptOP_none⟩
    · split
      · exact ⟨h, keptOP_none⟩
      · split
        · exact ih (dropHead_kept h (hk.of rfl))
        · exact ⟨popHead_kept (qHwm_kept (chargeShaper_kept (setReed_kept h (hk.of rfl)) (hk.of rfl)) (hk.of rfl)) (hk.of rfl),
            keptOP_some (popHead_kept (qHwm_kept (chargeShaper_kept (setReed_kept h (hk.of rfl)) (hk.of rfl)) (hk.of rfl)) (hk.of rfl))⟩
theorem selectFrom_kept_of {fp : Nat} {z : State} {pol : SelPolicy} {q : Nat} {band : Bool} {n : Nat} {s : State} {o} {t : State} (h : Kept fp z s)
    (e : selectFrom pol q band n s = (o, t))
    (hk : Sub 157912 fp) : Kept fp z t := keptP_of (selectFrom_kept h (hk.of rfl)).1 e
theorem selectFrom_kept_some {fp : Nat} {z : State} {pol : SelPolicy} {q : Nat} {band : Bool} {n : Nat} {s : State} {i} {t u : State} (h : Kept fp z s)
    (e : selectFrom pol q band n s = (some (i, t), u))
    (hk : Sub 157912 fp) : Kept fp z t := by
  have := (selectFrom_kept (pol := pol) (q := q) (band := band) (n := n) h (hk.of rfl)).2 i t
  rw [e] at this
  exact this rfl

theorem reedSelect_kept {fp : Nat} {z : State} {pol : SelPolicy} {d n : Nat} {s : State} (h : Kept fp z s)
    (hk : Sub 157912 fp) : KeptP fp z (reedSelect pol d n s) := by
  induction n generalizing s with
  | zero => exact h
  | succ n ih =>
    unfold reedSelect
    dsimp only
    have hw : Kept fp z (wakeTags pol d s) := wakeTags_kept h (hk.of rfl)
    split
    · exact hw
    · split
      · exact selectFrom_kept_some hw (by assumption) (hk.of rfl)
      · exact ih (selectFrom_kept_of hw (by assumption) (hk.of rfl))

theorem reedSelect_kept_of {fp : Nat} {z : State} {pol : SelPolicy} {d : Nat} {a2 : Nat} {a3 : State} {x9} {t9 : State} (h : Kept fp z a3) (e : reedSelect pol d a2 a3 = (x9, t9)) (hk : Sub 157912 fp) : Kept fp z t9 := keptP_of (reedSelect_kept (z := z) h hk) e

theorem onClock_kept {fp : Nat} {z : State} {s : State} {d : Nat} {same : Bool} (h : Kept fp z s)
    (hk : Sub 131072 fp) :
    Kept fp z (onClock s d same) := by
  unfold onClock
  repeat' first
    | with_reducible assumption
    | exact Sub.of hk rfl
    | with_reducible intro _
    | with_reducible apply kept_ite
    | with_reducible apply setReed_kept

theorem reedTake_kept {fp : Nat} {z : State} {pol : SelPolicy} {d : Nat} {same : Bool} {s : State} (h : Kept fp z s)
    (hk : Sub 157912 fp) :
    KeptP fp z (reedTake pol d same s) := by
  unfold reedTake
  repeat' first
    | with_reducible assumption
    | exact Sub.of hk rfl
    | with_reducible intro _
    | with_reducible apply kept_ite
    | with_reducible apply keptP_ite
    | simp only [keptP_mk]
    | with_reducible refine reedSelect_kept_of ?_ (by assumption) ?_
    | with_reducible apply reedSelect_kept
    | with_reducible apply onClock_kept

theorem reedTake_kept_of {fp : Nat} {z : State} {pol : SelPolicy} {d : Nat} {same : Bool} {s : State} {x9} {t9 : State} (h : Kept fp z s) (e : reedTake pol d same s = (x9, t9)) (hk : Sub 157912 fp) : Kept fp z t9 := keptP_of (reedTake_kept (z := z) h hk) e

theorem reedWrite_kept {fp : Nat} {z : State} {s : State} {t : Nat} {i : Nat} {img : List Nat} (h : Kept fp z s)
    (hk : Sub 131072 fp) :
    KeptP fp z (reedWrite s t i img) := by
  unfold reedWrite
  repeat' first
    | with_reducible assumption
    | exact Sub.of hk rfl
    | with_reducible intro _
    | with_reducible apply kept_ite
    | with_reducible apply keptP_ite
    | simp only [keptP_mk]
    | with_reducible apply setReed_kept
    | with_reducible apply kept_foldl
    | with_reducible apply kept_getD
    | with_reducible apply keptF_of
    | with_reducible apply keptQ_snd
    | with_reducible apply keptP_snd
    | simp only [keptP_mk]
    | with_reducible apply keptP_ite
    | simp only [keptQ_mk]
    | with_reducible apply keptQ_ite
    | split

theorem reedWrite_kept_of {fp : Nat} {z : State} {s : State} {t : Nat} {i : Nat} {img : List Nat} {x9} {t9 : State} (h : Kept fp z s) (e : reedWrite s t i img = (x9, t9)) (hk : Sub 131072 fp) : Kept fp z t9 := keptP_of (reedWrite_kept (z := z) h hk) e

theorem reedWindow_kept {fp : Nat} {z : State} {op : Nat} {s : State} (h : Kept fp z s)
    (hk : Sub 131080 fp) :
    Kept fp z (reedWindow op s) := by
  unfold reedWindow
  repeat' first
    | with_reducible assumption
    | exact Sub.of hk rfl
    | with_reducible intro _
    | with_reducible apply kept_ite
    | with_reducible apply forUpTo_kept
    | with_reducible apply setReg_kept
    | with_reducible refine reedWrite_kept_of ?_ (by assumption) ?_
    | with_reducible apply reedWrite_kept
    | with_reducible apply setReed_kept
    | with_reducible apply kept_foldl
    | with_reducible apply kept_getD
    | with_reducible apply keptF_of
    | with_reducible apply keptQ_snd
    | with_reducible apply keptP_snd
    | simp only [keptP_mk]
    | with_reducible apply keptP_ite

theorem reedStaged_kept {fp : Nat} {z : State} {s : State} (h : Kept fp z s)
    (hk : Sub 131072 fp) :
    Kept fp z (reedStaged s) := by
  unfold reedStaged
  repeat' first
    | with_reducible assumption
    | exact Sub.of hk rfl
    | with_reducible intro _
    | with_reducible apply kept_ite
    | with_reducible apply setReed_kept

theorem cmdShaperLoad_kept {fp : Nat} {z : State} {d : CmdDesc} {s : State} (h : Kept fp z s)
    (hk : Sub 131080 fp) :
    KeptC fp z (cmdShaperLoad d s) := by
  unfold cmdShaperLoad
  repeat' first
    | with_reducible assumption
    | exact Sub.of hk rfl
    | with_reducible intro _
    | with_reducible apply kept_ite
    | with_reducible apply keptC_fin
    | with_reducible apply keptC_work
    | with_reducible apply keptC_ite
    | with_reducible apply needDomain_kept
    | with_reducible apply setReg_kept
    | with_reducible apply setReed_kept

theorem shaperRecord_kept {fp : Nat} {z : State} {s : State} {r : List Byte} (h : Kept fp z s)
    (hk : Sub 131072 fp) :
    KeptP fp z (shaperRecord s r) := by
  unfold shaperRecord
  repeat' first
    | with_reducible assumption
    | exact Sub.of hk rfl
    | with_reducible intro _
    | with_reducible apply kept_ite
    | with_reducible apply keptP_ite
    | simp only [keptP_mk]
    | with_reducible apply setReed_kept

theorem shaperRecord_kept_of {fp : Nat} {z : State} {s : State} {r : List Byte} {x9} {t9 : State} (h : Kept fp z s) (e : shaperRecord s r = (x9, t9)) (hk : Sub 131072 fp) : Kept fp z t9 := keptP_of (shaperRecord_kept (z := z) h hk) e

theorem shaperRecords_kept {fp : Nat} {z : State} {s : State} {a1 : List (List Byte)} {a2 : Nat} {a3 : Option (Nat × Nat)} (h : Kept fp z s)
    (hk : Sub 131072 fp) :
    KeptP fp z (shaperRecords s a1 a2 a3) := by
  induction a1 generalizing s a2 a3 with
  | nil =>
    unfold shaperRecords
    repeat' first
      | with_reducible assumption
      | exact Sub.of hk rfl
      | with_reducible intro _
      | with_reducible apply kept_ite
      | with_reducible apply keptP_ite
      | simp only [keptP_mk]
  | cons y l ih =>
    unfold shaperRecords
    repeat' first
      | with_reducible assumption
      | with_reducible apply ih
      | exact Sub.of hk rfl
      | with_reducible intro _
      | with_reducible apply kept_ite
      | with_reducible apply keptP_ite
      | simp only [keptP_mk]
      | with_reducible refine shaperRecord_kept_of ?_ (by assumption) ?_
      | with_reducible apply shaperRecord_kept
      | with_reducible apply kept_foldl
      | with_reducible apply kept_getD
      | with_reducible apply keptF_of
      | with_reducible apply keptQ_snd
      | with_reducible apply keptP_snd

theorem shaperRecords_kept_of {fp : Nat} {z : State} {s : State} {a1 : List (List Byte)} {a2 : Nat} {a3 : Option (Nat × Nat)} {x9} {t9 : State} (h : Kept fp z s) (e : shaperRecords s a1 a2 a3 = (x9, t9)) (hk : Sub 131072 fp) : Kept fp z t9 := keptP_of (shaperRecords_kept (z := z) h hk) e

theorem shaperLoadWork_kept {fp : Nat} {z : State} {w : WorkIn} {s : State} (h : Kept fp z s)
    (hk : Sub 131080 fp) :
    KeptQ fp z (shaperLoadWork w s) := by
  unfold shaperLoadWork
  repeat' first
    | with_reducible assumption
    | exact Sub.of hk rfl
    | with_reducible intro _
    | with_reducible apply kept_ite
    | with_reducible apply keptQ_ite
    | simp only [keptQ_mk]
    | with_reducible refine shaperRecords_kept_of ?_ (by assumption) ?_
    | with_reducible apply shaperRecords_kept
    | with_reducible apply clrBit_kept
    | with_reducible apply setReed_kept
    | with_reducible apply kept_foldl
    | with_reducible apply kept_getD
    | with_reducible apply keptF_of
    | with_reducible apply keptQ_snd
    | with_reducible apply keptP_snd
    | simp only [keptP_mk]
    | with_reducible apply keptP_ite
    | simp only [keptQ_mk]
    | with_reducible apply keptQ_ite
    | split

theorem shaperLoadWork_kept_of {fp : Nat} {z : State} {w : WorkIn} {s : State} {x9 y9} {t9 : State} (h : Kept fp z s) (e : shaperLoadWork w s = (x9, y9, t9)) (hk : Sub 131080 fp) : Kept fp z t9 := keptQ_of (shaperLoadWork_kept (z := z) h hk) e

theorem cmdShaperSwap_kept {fp : Nat} {z : State} {a0 : CmdDesc} {s : State} (h : Kept fp z s)
    (hk : Sub 131072 fp) :
    KeptC fp z (cmdShaperSwap a0 s) := by
  unfold cmdShaperSwap
  repeat' first
    | with_reducible assumption
    | exact Sub.of hk rfl
    | with_reducible intro _
    | with_reducible apply kept_ite
    | with_reducible apply keptC_fin
    | with_reducible apply keptC_work
    | with_reducible apply keptC_ite
    | with_reducible apply needDomain_kept
    | with_reducible apply setReed_kept

theorem flushQueue_kept {fp : Nat} {z : State} {s : State} {q : Nat} (h : Kept fp z s)
    (hk : Sub 157912 fp) :
    Kept fp z (flushQueue s q) := by
  unfold flushQueue
  repeat' first
    | with_reducible assumption
    | exact Sub.of hk rfl
    | with_reducible intro _
    | with_reducible apply kept_ite
    | with_reducible apply setQueue_kept
    | with_reducible apply setReed_kept
    | with_reducible apply queueDrop_kept
    | with_reducible apply kept_foldl

theorem flushAll_kept {fp : Nat} {z : State} {s : State} (h : Kept fp z s)
    (hk : Sub 157912 fp) :
    Kept fp z (flushAll s) := by
  unfold flushAll
  repeat' first
    | with_reducible assumption
    | exact Sub.of hk rfl
    | with_reducible intro _
    | with_reducible apply kept_ite
    | with_reducible apply flushQueue_kept
    | with_reducible apply kept_foldl

theorem cmdQueueFlush_kept {fp : Nat} {z : State} {d : CmdDesc} {s : State} (h : Kept fp z s)
    (hk : Sub 157912 fp) :
    KeptC fp z (cmdQueueFlush d s) := by
  unfold cmdQueueFlush
  repeat' first
    | with_reducible assumption
    | exact Sub.of hk rfl
    | with_reducible intro _
    | with_reducible apply kept_ite
    | with_reducible apply keptC_fin
    | with_reducible apply keptC_work
    | with_reducible apply keptC_ite
    | with_reducible apply needDomain_kept
    | with_reducible apply flushQueue_kept

/-! ## Machine/Pause.lean -/

theorem setPorts_kept {fp : Nat} {z : State} {s : State} {p : Ports} (h : Kept fp z s)
    (hk : Sub 67108864 fp) :
    Kept fp z (setPorts s p) := by
  unfold setPorts
  repeat' first
    | with_reducible assumption
    | exact Sub.of hk rfl
    | with_reducible intro _
    | with_reducible apply kept_ite
    | with_reducible apply kept_foldl
    | with_reducible apply kept_getD
    | with_reducible apply keptF_of
    | with_reducible apply keptQ_snd
    | with_reducible apply keptP_snd
    | simp only [keptP_mk]
    | with_reducible apply keptP_ite
    | simp only [keptQ_mk]
    | with_reducible apply keptQ_ite
    | split
    | simp only [kept_mk]
    | with_reducible refine keptF_upd ?_ (updF hk ?_)
    | (unfold UpdF; and_intros <;> first | exact .inl rfl | exact .inr rfl | exact .inr id | exact .inr fun _ => rfl | exact .refl _ | exact fun h => ⟨h, rfl⟩ | rfl | exact Nat.le_max_left _ _)

theorem setLane_kept {fp : Nat} {z : State} {s : State} {n : Nat} {x : Lane} (h : Kept fp z s)
    (hk : Sub 67108872 fp) :
    Kept fp z (setLane s n x) := by
  unfold setLane
  repeat' first
    | with_reducible assumption
    | exact Sub.of hk rfl
    | with_reducible intro _
    | with_reducible apply kept_ite
    | with_reducible apply setPorts_kept
    | with_reducible apply setFld_kept
    | with_reducible apply setReg_kept

theorem setMac_kept {fp : Nat} {z : State} {s : State} {p : Nat} {x : MacU} (h : Kept fp z s)
    (hk : Sub 67108872 fp) :
    Kept fp z (setMac s p x) := by
  unfold setMac
  repeat' first
    | with_reducible assumption
    | exact Sub.of hk rfl
    | with_reducible intro _
    | with_reducible apply kept_ite
    | with_reducible apply setPorts_kept
    | with_reducible apply setReg_kept

theorem macCount_kept {fp : Nat} {z : State} {s : State} {p : Nat} {n : Nat} (h : Kept fp z s)
    (hk : Sub 16 fp) :
    Kept fp z (macCount s p n) := by
  unfold macCount
  repeat' first
    | with_reducible assumption
    | exact Sub.of hk rfl
    | with_reducible intro _
    | with_reducible apply kept_ite
    | with_reducible apply count_kept

theorem laneCount_kept {fp : Nat} {z : State} {s : State} {n : Nat} {c : Nat} (h : Kept fp z s)
    (hk : Sub 16 fp) :
    Kept fp z (laneCount s n c) := by
  unfold laneCount
  repeat' first
    | with_reducible assumption
    | exact Sub.of hk rfl
    | with_reducible intro _
    | with_reducible apply kept_ite
    | with_reducible apply count_kept

theorem sendBlock_kept {fp : Nat} {z : State} {s : State} {n : Nat} {sync : Nat} {l : List Byte} (h : Kept fp z s)
    (hk : Sub 67109000 fp) :
    Kept fp z (sendBlock s n sync l) := by
  unfold sendBlock
  repeat' first
    | with_reducible assumption
    | exact Sub.of hk rfl
    | with_reducible intro _
    | with_reducible apply kept_ite
    | with_reducible apply emit_kept
    | with_reducible apply setLane_kept

theorem sendMarkers_kept {fp : Nat} {z : State} {s : State} {n : Nat} (h : Kept fp z s)
    (hk : Sub 128 fp) :
    Kept fp z (sendMarkers s n) := by
  unfold sendMarkers
  repeat' first
    | with_reducible assumption
    | exact Sub.of hk rfl
    | with_reducible intro _
    | with_reducible apply kept_ite
    | with_reducible apply emit_kept

theorem pairSend_kept {fp : Nat} {z : State} {n : Nat} {s : State} (h : Kept fp z s)
    (hk : Sub 67109000 fp) :
    Kept fp z (pairSend n s) := by
  unfold pairSend
  repeat' first
    | with_reducible assumption
    | exact Sub.of hk rfl
    | with_reducible intro _
    | with_reducible apply kept_ite
    | with_reducible apply forUpTo_kept
    | with_reducible apply setLane_kept
    | with_reducible apply sendMarkers_kept

theorem emitPause_kept {fp : Nat} {z : State} {s : State} {p : Nat} {due : List (Nat × Nat)} (h : Kept fp z s)
    (hk : Sub 144 fp) :
    Kept fp z (emitPause s p due) := by
  unfold emitPause
  repeat' first
    | with_reducible assumption
    | exact Sub.of hk rfl
    | with_reducible intro _
    | with_reducible apply kept_ite
    | with_reducible apply macCount_kept
    | with_reducible apply emit_kept

theorem sendPause_kept {fp : Nat} {z : State} {s : State} {p : Nat} {due : List (Nat × Nat)} (h : Kept fp z s)
    (hk : Sub 67109016 fp) :
    Kept fp z (sendPause s p due) := by
  unfold sendPause
  repeat' first
    | with_reducible assumption
    | exact Sub.of hk rfl
    | with_reducible intro _
    | with_reducible apply kept_ite
    | with_reducible apply emitPause_kept
    | with_reducible apply setMac_kept

theorem pauseFlush_kept {fp : Nat} {z : State} {s : State} {p : Nat} (h : Kept fp z s)
    (hk : Sub 67109016 fp) :
    Kept fp z (pauseFlush s p) := by
  unfold pauseFlush
  repeat' first
    | with_reducible assumption
    | exact Sub.of hk rfl
    | with_reducible intro _
    | with_reducible apply kept_ite
    | with_reducible apply emitPause_kept
    | with_reducible apply setMac_kept

theorem macScan_kept {fp : Nat} {z : State} {s : State} {p : Nat} (h : Kept fp z s)
    (hk : Sub 67109016 fp) :
    Kept fp z (macScan s p) := by
  unfold macScan
  repeat' first
    | with_reducible assumption
    | exact Sub.of hk rfl
    | with_reducible intro _
    | with_reducible apply kept_ite
    | with_reducible apply setMac_kept
    | with_reducible apply sendPause_kept

theorem laneScan_kept {fp : Nat} {z : State} {s : State} {n : Nat} (h : Kept fp z s)
    (hk : Sub 67109000 fp) :
    Kept fp z (laneScan s n) := by
  unfold laneScan
  repeat' first
    | with_reducible assumption
    | exact Sub.of hk rfl
    | with_reducible intro _
    | with_reducible apply kept_ite
    | with_reducible apply sendBlock_kept
    | with_reducible apply setLane_kept

theorem pauseScan_kept {fp : Nat} {z : State} {s : State} (h : Kept fp z s)
    (hk : Sub 67109016 fp) :
    Kept fp z (pauseScan s) := by
  unfold pauseScan
  repeat' first
    | with_reducible assumption
    | exact Sub.of hk rfl
    | with_reducible intro _
    | with_reducible apply kept_ite
    | with_reducible apply forUpTo_kept
    | with_reducible apply macScan_kept
    | with_reducible apply laneScan_kept

theorem execSpoolFree_kept {fp : Nat} {z : State} {handle : Nat} {owner : Nat} {s : State} (h : Kept fp z s)
    (hk : Sub 67127512 fp) :
    KeptE fp z (execSpoolFree handle owner s) := by
  unfold execSpoolFree
  repeat' first
    | with_reducible assumption
    | exact Sub.of hk rfl
    | with_reducible intro _
    | with_reducible apply kept_ite
    | with_reducible apply keptE_next
    | with_reducible apply pauseScan_kept
    | with_reducible apply spoolFree_kept

/-! ## Machine/Classify.lean -/

theorem setFifo_kept {fp : Nat} {z : State} {s : State} {k : Nat} {l : List Frame} (h : Kept fp z s)
    (hk : Sub 32768 fp) :
    Kept fp z (setFifo s k l) := by
  unfold setFifo
  repeat' first
    | with_reducible assumption
    | exact Sub.of hk rfl
    | with_reducible intro _
    | with_reducible apply kept_ite
    | with_reducible apply setHeddle_kept

theorem copyOut_kept {fp : Nat} {z : State} {s : State} {same : Bool} {ring : Nat} {n : Nat} {f : Frame} {k : RxKind} (h : Kept fp z s)
    (hk : Sub 26840 fp) :
    Kept fp z (copyOut s same ring n f k) := by
  unfold copyOut
  repeat' first
    | with_reducible assumption
    | exact Sub.of hk rfl
    | with_reducible intro _
    | with_reducible apply kept_ite
    | with_reducible refine spoolAlloc_kept_of ?_ (by assumption) ?_
    | with_reducible apply spoolAlloc_kept
    | with_reducible apply count_kept
    | with_reducible refine rxDeliver_kept_of ?_ (by assumption) ?_
    | with_reducible apply rxDeliver_kept
    | with_reducible apply spoolFree_kept
    | with_reducible apply kept_foldl
    | with_reducible apply kept_getD
    | with_reducible apply keptF_of
    | with_reducible apply keptQ_snd
    | with_reducible apply keptP_snd
    | dsimp only
    | with_reducible apply keptP_ite
    | simp only [keptQ_mk]
    | with_reducible apply keptQ_ite
    | split

theorem mirrorOut_kept {fp : Nat} {z : State} {s : State} {same : Bool} {x : Flight} (h : Kept fp z s)
    (hk : Sub 26840 fp) :
    KeptQ fp z (mirrorOut s same x) := by
  unfold mirrorOut
  repeat' first
    | with_reducible assumption
    | exact Sub.of hk rfl
    | with_reducible intro _
    | with_reducible apply kept_ite
    | with_reducible apply keptQ_ite
    | simp only [keptQ_mk]
    | with_reducible refine sharesClock_kept_of ?_ (by assumption) ?_
    | with_reducible apply sharesClock_kept
    | with_reducible apply copyOut_kept
    | with_reducible apply kept_foldl
    | with_reducible apply kept_getD
    | with_reducible apply keptF_of
    | with_reducible apply keptQ_snd
    | with_reducible apply keptP_snd

theorem mirrorOut_kept_of {fp : Nat} {z : State} {s : State} {same : Bool} {x : Flight} {x9 y9} {t9 : State} (h : Kept fp z s) (e : mirrorOut s same x = (x9, y9, t9)) (hk : Sub 26840 fp) : Kept fp z t9 := keptQ_of (mirrorOut_kept (z := z) h hk) e

theorem leave_kept {fp : Nat} {z : State} {s : State} {same : Bool} {x : Flight} (h : Kept fp z s)
    (hk : Sub 157912 fp) :
    Kept fp z (leave s same x) := by
  unfold leave
  repeat' first
    | with_reducible assumption
    | exact Sub.of hk rfl
    | with_reducible intro _
    | with_reducible apply kept_ite
    | with_reducible apply sendHanded_kept
    | with_reducible apply reedEnqueue_kept
    | with_reducible apply frameGone_kept
    | with_reducible apply copyOut_kept
    | with_reducible apply count_kept
    | with_reducible apply kept_foldl
    | with_reducible apply kept_getD
    | with_reducible apply keptF_of
    | with_reducible apply keptQ_snd
    | with_reducible apply keptP_snd
    | dsimp only
    | with_reducible apply keptP_ite
    | simp only [keptQ_mk]
    | with_reducible apply keptQ_ite
    | split

theorem dropFlight_kept {fp : Nat} {z : State} {s : State} {x : Flight} (h : Kept fp z s)
    (hk : Sub 32768 fp) :
    Kept fp z (dropFlight s x) := by
  unfold dropFlight
  repeat' first
    | with_reducible assumption
    | exact Sub.of hk rfl
    | with_reducible intro _
    | with_reducible apply kept_ite
    | with_reducible apply setHeddle_kept

theorem releaseOne_kept {fp : Nat} {z : State} {s : State} {same : Bool} {k : Nat} (h : Kept fp z s)
    (hk : Sub 190680 fp) :
    Kept fp z (releaseOne s same k) := by
  unfold releaseOne
  repeat' first
    | with_reducible assumption
    | exact Sub.of hk rfl
    | with_reducible intro _
    | with_reducible apply kept_ite
    | with_reducible apply leave_kept
    | with_reducible apply dropFlight_kept
    | with_reducible apply kept_foldl
    | with_reducible apply kept_getD
    | with_reducible apply keptF_of
    | with_reducible apply keptQ_snd
    | with_reducible apply keptP_snd
    | simp only [keptP_mk]
    | with_reducible apply keptP_ite
    | simp only [keptQ_mk]
    | with_reducible apply keptQ_ite
    | split

theorem execHeddleReorderRelease_kept {fp : Nat} {z : State} {source : Nat} {same : Bool} {s : State} (h : Kept fp z s)
    (hk : Sub 67299544 fp) :
    KeptE fp z (execHeddleReorderRelease source same s) := by
  unfold execHeddleReorderRelease
  repeat' first
    | with_reducible assumption
    | exact Sub.of hk rfl
    | with_reducible intro _
    | with_reducible apply kept_ite
    | with_reducible apply keptE_next
    | with_reducible apply pauseScan_kept
    | with_reducible apply releaseOne_kept

theorem admitDirect_kept {fp : Nat} {z : State} {a0 : Nat} {a1 : State} (h : Kept fp z a1)
    (hk : Sub 32768 fp) :
    Kept fp z (admitDirect a0 a1) := by
  induction a0 generalizing a1 with
  | zero =>
    unfold admitDirect
    repeat' first
      | with_reducible assumption
  | succ n ih =>
    unfold admitDirect
    repeat' first
      | with_reducible assumption
      | with_reducible apply ih
      | exact Sub.of hk rfl
      | with_reducible intro _
      | with_reducible apply kept_ite
      | with_reducible apply setHeddle_kept
      | with_reducible apply setFifo_kept
      | with_reducible apply kept_foldl
      | with_reducible apply kept_getD
      | with_reducible apply keptF_of
      | with_reducible apply keptQ_snd
      | with_reducible apply keptP_snd
      | dsimp only
      | with_reducible apply keptP_ite
      | simp only [keptQ_mk]
      | with_reducible apply keptQ_ite
      | split

theorem heddleInput_kept {fp : Nat} {z : State} {s : State} {f : Frame} (h : Kept fp z s)
    (hk : Sub 190680 fp) :
    Kept fp z (heddleInput s f) := by
  unfold heddleInput
  repeat' first
    | with_reducible assumption
    | exact Sub.of hk rfl
    | with_reducible intro _
    | with_reducible apply kept_ite
    | with_reducible apply frameGone_kept
    | with_reducible apply count_kept
    | with_reducible apply setFifo_kept
    | with_reducible apply admitDirect_kept
    | with_reducible refine sharesClock_kept_of ?_ (by assumption) ?_
    | with_reducible apply sharesClock_kept
    | with_reducible apply releaseOne_kept
    | with_reducible apply kept_foldl
    | with_reducible apply kept_getD
    | with_reducible apply keptF_of
    | with_reducible apply keptQ_snd
    | with_reducible apply keptP_snd

theorem applyAction_kept {fp : Nat} {z : State} {s : State} {x : Flight} {r : Resolved} (h : Kept fp z s)
    (hk : Sub 131088 fp) :
    KeptP fp z (applyAction s x r) := by
  unfold applyAction
  repeat' first
    | with_reducible assumption
    | exact Sub.of hk rfl
    | with_reducible intro _
    | with_reducible apply kept_ite
    | with_reducible apply keptP_ite
    | simp only [keptP_mk]
    | with_reducible apply count_kept
    | with_reducible refine meter_kept_of ?_ (by assumption) ?_
    | with_reducible apply meter_kept
    | with_reducible apply kept_foldl
    | with_reducible apply kept_getD
    | with_reducible apply keptF_of
    | with_reducible apply keptQ_snd
    | with_reducible apply keptP_snd
    | simp only [keptP_mk]
    | with_reducible apply keptP_ite
    | simp only [keptQ_mk]
    | with_reducible apply keptQ_ite
    | split

theorem applyAction_kept_of {fp : Nat} {z : State} {s : State} {x : Flight} {r : Resolved} {x9} {t9 : State} (h : Kept fp z s) (e : applyAction s x r = (x9, t9)) (hk : Sub 131088 fp) : Kept fp z t9 := keptP_of (applyAction_kept (z := z) h hk) e

theorem applyMiss_kept {fp : Nat} {z : State} {s : State} {d : Deck} {x : Flight} {learn : Bool} (h : Kept fp z s)
    (hk : Sub 196626 fp) :
    KeptP fp z (applyMiss s d x learn) := by
  unfold applyMiss
  repeat' first
    | with_reducible assumption
    | exact Sub.of hk rfl
    | with_reducible intro _
    | with_reducible apply kept_ite
    | with_reducible apply keptP_ite
    | simp only [keptP_mk]
    | with_reducible refine flowLearn_kept_of ?_ (by assumption) ?_
    | with_reducible apply flowLearn_kept
    | with_reducible refine applyAction_kept_of ?_ (by assumption) ?_
    | with_reducible apply applyAction_kept
    | with_reducible apply kept_foldl
    | with_reducible apply kept_getD
    | with_reducible apply keptF_of
    | with_reducible apply keptQ_snd
    | with_reducible apply keptP_snd
    | simp only [keptP_mk]
    | with_reducible apply keptP_ite
    | simp only [keptQ_mk]
    | with_reducible apply keptQ_ite
    | split

theorem applyMiss_kept_of {fp : Nat} {z : State} {s : State} {d : Deck} {x : Flight} {learn : Bool} {x9} {t9 : State} (h : Kept fp z s) (e : applyMiss s d x learn = (x9, t9)) (hk : Sub 196626 fp) : Kept fp z t9 := keptP_of (applyMiss_kept (z := z) h hk) e

theorem passOf_kept {fp : Nat} {z : State} {s : State} {x : Flight} (h : Kept fp z s)
    (hk : Sub 196626 fp) :
    KeptP fp z (passOf s x) := by
  unfold passOf
  repeat' first
    | with_reducible assumption
    | exact Sub.of hk rfl
    | with_reducible intro _
    | with_reducible apply kept_ite
    | with_reducible apply keptP_ite
    | simp only [keptP_mk]
    | with_reducible apply count_kept
    | with_reducible refine applyAction_kept_of ?_ (by assumption) ?_
    | with_reducible apply applyAction_kept
    | with_reducible refine flowLookup_kept_of ?_ (by assumption) ?_
    | with_reducible apply flowLookup_kept
    | with_reducible refine applyMiss_kept_of ?_ (by assumption) ?_
    | with_reducible apply applyMiss_kept
    | with_reducible apply kept_foldl
    | with_reducible apply kept_getD
    | with_reducible apply keptF_of
    | with_reducible apply keptQ_snd
    | with_reducible apply keptP_snd
    | simp only [keptP_mk]
    | with_reducible apply keptP_ite
    | simp only [keptQ_mk]
    | with_reducible apply keptQ_ite
    | split

theorem passOf_kept_of {fp : Nat} {z : State} {s : State} {x : Flight} {x9} {t9 : State} (h : Kept fp z s) (e : passOf s x = (x9, t9)) (hk : Sub 196626 fp) : Kept fp z t9 := keptP_of (passOf_kept (z := z) h hk) e

theorem arbiterPick_kept {fp : Nat} {z : State} {s : State} (h : Kept fp z s)
    (hk : Sub 32768 fp) :
    KeptOP fp z (arbiterPick s) := by
  unfold arbiterPick
  repeat' first
    | with_reducible assumption
    | exact Sub.of hk rfl
    | with_reducible intro _
    | with_reducible apply kept_ite
    | exact keptOP_none
    | with_reducible apply keptOP_some
    | with_reducible apply keptOP_ite
    | with_reducible apply setFifo_kept
    | with_reducible apply setHeddle_kept
    | with_reducible apply kept_foldl
    | with_reducible apply kept_getD
    | with_reducible apply keptF_of
    | with_reducible apply keptQ_snd
    | with_reducible apply keptP_snd
    | dsimp only
    | with_reducible apply keptP_ite
    | simp only [keptQ_mk]
    | with_reducible apply keptQ_ite
    | split

theorem arbiterPick_kept_of {fp : Nat} {z : State} {s : State} {x9} {t9 : State} (h : Kept fp z s) (e : arbiterPick s = some (x9, t9)) (hk : Sub 32768 fp) : Kept fp z t9 := (arbiterPick_kept (z := z) h hk) x9 t9 e

theorem putFlight_kept {fp : Nat} {z : State} {s : State} {old : Flight} {new : Flight} (h : Kept fp z s)
    (hk : Sub 32768 fp) :
    Kept fp z (putFlight s old new) := by
  unfold putFlight
  repeat' first
    | with_reducible assumption
    | exact Sub.of hk rfl
    | with_reducible intro _
    | with_reducible apply kept_ite
    | with_reducible apply setHeddle_kept

theorem execHeddlePass_kept {fp : Nat} {z : State} {pipe1 : Bool} {same : Bool} {s : State} (h : Kept fp z s)
    (hk : Sub 67365082 fp) :
    KeptE fp z (execHeddlePass pipe1 same s) := by
  unfold execHeddlePass
  repeat' first
    | with_reducible assumption
    | exact Sub.of hk rfl
    | with_reducible intro _
    | with_reducible apply kept_ite
    | with_reducible apply keptE_next
    | with_reducible refine arbiterPick_kept_of ?_ (by assumption) ?_
    | with_reducible apply arbiterPick_kept
    | with_reducible apply count_kept
    | with_reducible refine passOf_kept_of ?_ (by assumption) ?_
    | with_reducible apply passOf_kept
    | with_reducible refine mirrorOut_kept_of ?_ (by assumption) ?_
    | with_reducible apply mirrorOut_kept
    | with_reducible apply putFlight_kept
    | with_reducible apply admitDirect_kept
    | with_reducible apply pauseScan_kept
    | with_reducible apply releaseOne_kept
    | with_reducible apply kept_foldl
    | with_reducible apply kept_getD
    | with_reducible apply keptF_of
    | with_reducible apply keptQ_snd
    | with_reducible apply keptP_snd
    | dsimp only
    | with_reducible apply keptP_ite
    | simp only [keptQ_mk]
    | with_reducible apply keptQ_ite
    | split

theorem resolveWaiting_kept {fp : Nat} {z : State} {key : Nat} {hit : Option Nat} {learn : Bool} {a3 : List Flight} {a4 : State} (h : Kept fp z a4)
    (hk : Sub 256218 fp) :
    Kept fp z (resolveWaiting key hit learn a3 a4) := by
  induction a3 generalizing key hit learn a4 with
  | nil =>
    unfold resolveWaiting
    repeat' first
      | with_reducible assumption
  | cons y l ih =>
    unfold resolveWaiting
    repeat' first
      | with_reducible assumption
      | with_reducible apply ih
      | exact Sub.of hk rfl
      | with_reducible intro _
      | with_reducible apply kept_ite
      | with_reducible refine applyAction_kept_of ?_ (by assumption) ?_
      | with_reducible apply applyAction_kept
      | with_reducible apply flowTouch_kept
      | with_reducible refine applyMiss_kept_of ?_ (by assumption) ?_
      | with_reducible apply applyMiss_kept
      | with_reducible refine sharesClock_kept_of ?_ (by assumption) ?_
      | with_reducible apply sharesClock_kept
      | with_reducible refine mirrorOut_kept_of ?_ (by assumption) ?_
      | with_reducible apply mirrorOut_kept
      | with_reducible apply putFlight_kept
      | with_reducible apply releaseOne_kept
      | with_reducible apply kept_foldl
      | with_reducible apply kept_getD
      | with_reducible apply keptF_of
      | with_reducible apply keptQ_snd
      | with_reducible apply keptP_snd
      | simp only [keptP_mk]
      | with_reducible apply keptP_ite
      | simp only [keptQ_mk]
      | with_reducible apply keptQ_ite
      | split

theorem execFlowMissResolve_kept {fp : Nat} {z : State} {position : Nat} {poison : Bool} {s : State} (h : Kept fp z s)
    (hk : Sub 67365082 fp) :
    KeptE fp z (execFlowMissResolve position poison s) := by
  unfold execFlowMissResolve
  repeat' first
    | with_reducible assumption
    | exact Sub.of hk rfl
    | with_reducible intro _
    | with_reducible apply kept_ite
    | with_reducible apply keptE_next
    | with_reducible apply pauseScan_kept
    | with_reducible apply setFlow_kept
    | with_reducible refine draw_kept_of ?_ (by assumption) ?_
    | with_reducible apply draw_kept
    | with_reducible apply raiseRoot_kept
    | with_reducible apply resolveWaiting_kept
    | with_reducible refine cacheInsert_kept_of ?_ (by assumption) ?_
    | with_reducible apply cacheInsert_kept
    | with_reducible apply count_kept
    | with_reducible apply kept_foldl
    | with_reducible apply kept_getD
    | with_reducible apply keptF_of
    | with_reducible apply keptQ_snd
    | with_reducible apply keptP_snd
    | dsimp only
    | with_reducible apply keptP_ite
    | simp only [keptQ_mk]
    | with_reducible apply keptQ_ite
    | split

theorem deckOverrun_kept {fp : Nat} {z : State} {clocks : Nat} {s : State} (h : Kept fp z s)
    (hk : Sub 59608 fp) :
    Kept fp z (deckOverrun clocks s) := by
  unfold deckOverrun
  repeat' first
    | with_reducible assumption
    | exact Sub.of hk rfl
    | with_reducible intro _
    | with_reducible apply kept_ite
    | with_reducible apply setHeddle_kept
    | with_reducible apply countBy_kept
    | with_reducible apply overrunEv_kept
    | with_reducible apply frameGone_kept
    | with_reducible apply kept_foldl

theorem execDeckDrainEnd_kept {fp : Nat} {z : State} {s : State} (h : Kept fp z s)
    (hk : Sub 59608 fp) :
    KeptE fp z (execDeckDrainEnd s) := by
  unfold execDeckDrainEnd
  repeat' first
    | with_reducible assumption
    | exact Sub.of hk rfl
    | with_reducible intro _
    | with_reducible apply kept_ite
    | with_reducible apply keptE_next
    | with_reducible apply setHeddle_kept
    | with_reducible apply deckOverrun_kept

/-! ## Machine/Draft.lean -/

theorem setDraft_kept {fp : Nat} {z : State} {s : State} {x : Draft} (h : Kept fp z s)
    (hk : Sub 4194304 fp) :
    Kept fp z (setDraft s x) := by
  unfold setDraft
  repeat' first
    | with_reducible assumption
    | exact Sub.of hk rfl
    | with_reducible intro _
    | with_reducible apply kept_ite
    | with_reducible apply kept_foldl
    | with_reducible apply kept_getD
    | with_reducible apply keptF_of
    | with_reducible apply keptQ_snd
    | with_reducible apply keptP_snd
    | simp only [keptP_mk]
    | with_reducible apply keptP_ite
    | simp only [keptQ_mk]
    | with_reducible apply keptQ_ite
    | split
    | simp only [kept_mk]
    | with_reducible refine keptF_upd ?_ (updF hk ?_)
    | (unfold UpdF; and_intros <;> first | exact .inl rfl | exact .inr rfl | exact .inr id | exact .inr fun _ => rfl | exact .refl _ | exact fun h => ⟨h, rfl⟩ | rfl | exact Nat.le_max_left _ _)

theorem setDraftStandby_kept {fp : Nat} {z : State} {s : State} {p : Deck} (h : Kept fp z s)
    (hk : Sub 4194304 fp) :
    Kept fp z (setDraftStandby s p) := by
  unfold setDraftStandby
  repeat' first
    | with_reducible assumption
    | exact Sub.of hk rfl
    | with_reducible intro _
    | with_reducible apply kept_ite
    | with_reducible apply setDraft_kept

theorem draftWrite_kept {fp : Nat} {z : State} {s : State} {t : Nat} {i : Nat} {img : List Nat} (h : Kept fp z s)
    (hk : Sub 4194304 fp) :
    KeptP fp z (draftWrite s t i img) := by
  unfold draftWrite
  repeat' first
    | with_reducible assumption
    | exact Sub.of hk rfl
    | with_reducible intro _
    | with_reducible apply kept_ite
    | with_reducible apply keptP_ite
    | simp only [keptP_mk]
    | with_reducible apply setDraftStandby_kept

theorem draftWrite_kept_of {fp : Nat} {z : State} {s : State} {t : Nat} {i : Nat} {img : List Nat} {x9} {t9 : State} (h : Kept fp z s) (e : draftWrite s t i img = (x9, t9)) (hk : Sub 4194304 fp) : Kept fp z t9 := keptP_of (draftWrite_kept (z := z) h hk) e

theorem draftWindow_kept {fp : Nat} {z : State} {op : Nat} {s : State} (h : Kept fp z s)
    (hk : Sub 4194312 fp) :
    Kept fp z (draftWindow op s) := by
  unfold draftWindow
  repeat' first
    | with_reducible assumption
    | exact Sub.of hk rfl
    | with_reducible intro _
    | with_reducible apply kept_ite
    | with_reducible apply forUpTo_kept
    | with_reducible apply setReg_kept
    | with_reducible refine draftWrite_kept_of ?_ (by assumption) ?_
    | with_reducible apply draftWrite_kept
    | with_reducible apply setDraft_kept
    | with_reducible apply kept_foldl
    | with_reducible apply kept_getD
    | with_reducible apply keptF_of
    | with_reducible apply keptQ_snd
    | with_reducible apply keptP_snd
    | simp only [keptP_mk]
    | with_reducible apply keptP_ite

theorem circuitFrame_kept {fp : Nat} {z : State} {s : State} {stream : Nat} {frag : Bool} {d : List Byte} (h : Kept fp z s)
    (hk : Sub 4194320 fp) :
    Kept fp z (circuitFrame s stream frag d) := by
  unfold circuitFrame
  repeat' first
    | with_reducible assumption
    | exact Sub.of hk rfl
    | with_reducible intro _
    | with_reducible apply kept_ite
    | with_reducible apply count_kept
    | with_reducible apply setDraft_kept
    | with_reducible apply kept_foldl
    | with_reducible apply kept_getD
    | with_reducible apply keptF_of
    | with_reducible apply keptQ_snd
    | with_reducible apply keptP_snd
    | dsimp only
    | with_reducible apply keptP_ite
    | simp only [keptQ_mk]
    | with_reducible apply keptQ_ite
    | split

theorem frameSent_kept {fp : Nat} {z : State} {s : State} (h : Kept fp z s)
    (hk : Sub 4194432 fp) :
    Kept fp z (frameSent s) := by
  unfold frameSent
  repeat' first
    | with_reducible assumption
    | exact Sub.of hk rfl
    | with_reducible intro _
    | with_reducible apply kept_ite
    | with_reducible apply emit_kept
    | with_reducible apply setDraft_kept
    | with_reducible apply kept_foldl
    | with_reducible apply kept_getD
    | with_reducible apply keptF_of
    | with_reducible apply keptQ_snd
    | with_reducible apply keptP_snd
    | dsimp only
    | with_reducible apply keptP_ite
    | simp only [keptQ_mk]
    | with_reducible apply keptQ_ite
    | split

theorem downExchange_kept {fp : Nat} {z : State} {s : State} (h : Kept fp z s)
    (hk : Sub 4194448 fp) :
    Kept fp z (downExchange s) := by
  unfold downExchange
  repeat' first
    | with_reducible assumption
    | exact Sub.of hk rfl
    | with_reducible intro _
    | with_reducible apply kept_ite
    | with_reducible apply frameSent_kept
    | with_reducible apply countBy_kept
    | with_reducible apply setDraft_kept

theorem draftLate_kept {fp : Nat} {z : State} {t : Nat} {s : State} (h : Kept fp z s)
    (hk : Sub 4194320 fp) :
    Kept fp z (draftLate t s) := by
  unfold draftLate
  repeat' first
    | with_reducible assumption
    | exact Sub.of hk rfl
    | with_reducible intro _
    | with_reducible apply kept_ite
    | with_reducible apply countBy_kept
    | with_reducible apply setDraft_kept

theorem draftOverrun_kept {fp : Nat} {z : State} {arg : Nat} {s : State} (h : Kept fp z s)
    (hk : Sub 4194320 fp) :
    Kept fp z (draftOverrun arg s) := by
  unfold draftOverrun
  repeat' first
    | with_reducible assumption
    | exact Sub.of hk rfl
    | with_reducible intro _
    | with_reducible apply kept_ite
    | with_reducible apply draftLate_kept
    | with_reducible apply setDraft_kept

theorem upFrame_kept {fp : Nat} {z : State} {p : Deck} {s : State} {c : Nat × List Nat} (h : Kept fp z s)
    (hk : Sub 157912 fp) :
    Kept fp z (upFrame p s c) := by
  unfold upFrame
  repeat' first
    | with_reducible assumption
    | exact Sub.of hk rfl
    | with_reducible intro _
    | with_reducible apply kept_ite
    | with_reducible refine sharesClock_kept_of ?_ (by assumption) ?_
    | with_reducible apply sharesClock_kept
    | with_reducible apply reedEnqueue_kept
    | with_reducible apply count_kept
    | with_reducible apply kept_foldl
    | with_reducible apply kept_getD
    | with_reducible apply keptF_of
    | with_reducible apply keptQ_snd
    | with_reducible apply keptP_snd

theorem execUpstreamExchange_kept {fp : Nat} {z : State} {samples : List (Nat × Nat)} {s : State} (h : Kept fp z s)
    (hk : Sub 71461080 fp) :
    KeptE fp z (execUpstreamExchange samples s) := by
  unfold execUpstreamExchange
  repeat' first
    | with_reducible assumption
    | exact Sub.of hk rfl
    | with_reducible intro _
    | with_reducible apply kept_ite
    | with_reducible apply keptE_next
    | with_reducible apply countBy_kept
    | with_reducible apply setDraft_kept
    | with_reducible apply pauseScan_kept
    | with_reducible apply upFrame_kept
    | with_reducible apply kept_foldl

theorem draftSwap_kept {fp : Nat} {z : State} {s : State} (h : Kept fp z s)
    (hk : Sub 4202640 fp) :
    Kept fp z (draftSwap s) := by
  unfold draftSwap
  repeat' first
    | with_reducible assumption
    | exact Sub.of hk rfl
    | with_reducible intro _
    | with_reducible apply kept_ite
    | with_reducible apply setDraft_kept
    | with_reducible apply count_kept
    | with_reducible apply cmdPost_kept
    | with_reducible apply kept_foldl
    | with_reducible apply kept_getD
    | with_reducible apply keptF_of
    | with_reducible apply keptQ_snd
    | with_reducible apply keptP_snd
    | dsimp only
    | with_reducible apply keptP_ite
    | simp only [keptQ_mk]
    | with_reducible apply keptQ_ite
    | split
    | simp only [kept_mk]
    | with_reducible refine keptF_upd ?_ (updF hk ?_)
    | (unfold UpdF; and_intros <;> first | exact .inl rfl | exact .inr rfl | exact .inr id | exact .inr fun _ => rfl | exact .refl _ | exact fun h => ⟨h, rfl⟩ | rfl | exact Nat.le_max_left _ _)

theorem draftSwapAsk_kept {fp : Nat} {z : State} {s : State} (h : Kept fp z s)
    (hk : Sub 4194304 fp) :
    Kept fp z (draftSwapAsk s) := by
  unfold draftSwapAsk
  repeat' first
    | with_reducible assumption
    | exact Sub.of hk rfl
    | with_reducible intro _
    | with_reducible apply kept_ite
    | with_reducible apply setDraft_kept

theorem cmdDraftLoad_kept {fp : Nat} {z : State} {d : CmdDesc} {s : State} (h : Kept fp z s)
    (hk : Sub 4194304 fp) :
    KeptC fp z (cmdDraftLoad d s) := by
  unfold cmdDraftLoad
  repeat' first
    | with_reducible assumption
    | exact Sub.of hk rfl
    | with_reducible intro _
    | with_reducible apply kept_ite
    | with_reducible apply keptC_fin
    | with_reducible apply keptC_work
    | with_reducible apply keptC_ite
    | with_reducible apply needDomain_kept
    | with_reducible apply setDraft_kept

theorem draftRecords_kept {fp : Nat} {z : State} {s : State} {a1 : List (List Byte)} {a2 : Nat} {a3 : Option Nat} (h : Kept fp z s)
    (hk : Sub 4194304 fp) :
    KeptP fp z (draftRecords s a1 a2 a3) := by
  induction a1 generalizing s a2 a3 with
  | nil =>
    unfold draftRecords
    repeat' first
      | with_reducible assumption
      | exact Sub.of hk rfl
      | with_reducible intro _
      | with_reducible apply kept_ite
      | with_reducible apply keptP_ite
      | simp only [keptP_mk]
  | cons y l ih =>
    unfold draftRecords
    repeat' first
      | with_reducible assumption
      | with_reducible apply ih
      | exact Sub.of hk rfl
      | with_reducible intro _
      | with_reducible apply kept_ite
      | with_reducible apply keptP_ite
      | simp only [keptP_mk]
      | with_reducible refine draftWrite_kept_of ?_ (by assumption) ?_
      | with_reducible apply draftWrite_kept
      | with_reducible apply kept_foldl
      | with_reducible apply kept_getD
      | with_reducible apply keptF_of
      | with_reducible apply keptQ_snd
      | with_reducible apply keptP_snd

theorem draftRecords_kept_of {fp : Nat} {z : State} {s : State} {a1 : List (List Byte)} {a2 : Nat} {a3 : Option Nat} {x9} {t9 : State} (h : Kept fp z s) (e : draftRecords s a1 a2 a3 = (x9, t9)) (hk : Sub 4194304 fp) : Kept fp z t9 := keptP_of (draftRecords_kept (z := z) h hk) e

theorem draftLoadWork_kept {fp : Nat} {z : State} {w : WorkIn} {s : State} (h : Kept fp z s)
    (hk : Sub 4194304 fp) :
    KeptQ fp z (draftLoadWork w s) := by
  unfold draftLoadWork
  repeat' first
    | with_reducible assumption
    | exact Sub.of hk rfl
    | with_reducible intro _
    | with_reducible apply kept_ite
    | with_reducible apply keptQ_ite
    | simp only [keptQ_mk]
    | with_reducible refine draftRecords_kept_of ?_ (by assumption) ?_
    | with_reducible apply draftRecords_kept
    | with_reducible apply setDraft_kept
    | with_reducible apply kept_foldl
    | with_reducible apply kept_getD
    | with_reducible apply keptF_of
    | with_reducible apply keptQ_snd
    | with_reducible apply keptP_snd
    | simp only [keptP_mk]
    | with_reducible apply keptP_ite
    | simp only [keptQ_mk]
    | with_reducible apply keptQ_ite
    | split

theorem draftLoadWork_kept_of {fp : Nat} {z : State} {w : WorkIn} {s : State} {x9 y9} {t9 : State} (h : Kept fp z s) (e : draftLoadWork w s = (x9, y9, t9)) (hk : Sub 4194304 fp) : Kept fp z t9 := keptQ_of (draftLoadWork_kept (z := z) h hk) e

theorem cmdDraftSwap_kept {fp : Nat} {z : State} {a0 : CmdDesc} {s : State} (h : Kept fp z s)
    (hk : Sub 4194304 fp) :
    KeptC fp z (cmdDraftSwap a0 s) := by
  unfold cmdDraftSwap
  repeat' first
    | with_reducible assumption
    | exact Sub.of hk rfl
    | with_reducible intro _
    | with_reducible apply kept_ite
    | with_reducible apply keptC_fin
    | with_reducible apply keptC_work
    | with_reducible apply keptC_ite
    | with_reducible apply needDomain_kept
    | with_reducible apply draftSwapAsk_kept

/-! ## Machine/Tension.lean -/

theorem setTension_kept {fp : Nat} {z : State} {s : State} {t : Tension} (h : Kept fp z s)
    (hk : Sub 1024 fp) :
    Kept fp z (setTension s t) := by
  unfold setTension
  repeat' first
    | with_reducible assumption
    | exact Sub.of hk rfl
    | with_reducible intro _
    | with_reducible apply kept_ite
    | with_reducible apply kept_foldl
    | with_reducible apply kept_getD
    | with_reducible apply keptF_of
    | with_reducible apply keptQ_snd
    | with_reducible apply keptP_snd
    | simp only [keptP_mk]
    | with_reducible apply keptP_ite
    | simp only [keptQ_mk]
    | with_reducible apply keptQ_ite
    | split
    | simp only [kept_mk]
    | with_reducible refine keptF_upd ?_ (updF hk ?_)
    | (unfold UpdF; and_intros <;> first | exact .inl rfl | exact .inr rfl | exact .inr id | exact .inr fun _ => rfl | exact .refl _ | exact fun h => ⟨h, rfl⟩ | rfl | exact Nat.le_max_left _ _)

theorem setReq_kept {fp : Nat} {z : State} {s : State} {r : Nat} {q : Req} (h : Kept fp z s)
    (hk : Sub 1032 fp) :
    Kept fp z (setReq s r q) := by
  unfold setReq
  repeat' first
    | with_reducible assumption
    | exact Sub.of hk rfl
    | with_reducible intro _
    | with_reducible apply kept_ite
    | with_reducible apply setTension_kept
    | with_reducible apply setReg_kept

theorem reqRaise_kept {fp : Nat} {z : State} {s : State} {r : Nat} {units : Nat} (h : Kept fp z s)
    (hk : Sub 1032 fp) :
    Kept fp z (reqRaise s r units) := by
  unfold reqRaise
  repeat' first
    | with_reducible assumption
    | exact Sub.of hk rfl
    | with_reducible intro _
    | with_reducible apply kept_ite
    | with_reducible apply setReq_kept
    | with_reducible apply kept_foldl
    | with_reducible apply kept_getD
    | with_reducible apply keptF_of
    | with_reducible apply keptQ_snd
    | with_reducible apply keptP_snd
    | simp only [keptP_mk]
    | with_reducible apply keptP_ite
    | simp only [keptQ_mk]
    | with_reducible apply keptQ_ite
    | split

theorem reqReturn_kept {fp : Nat} {z : State} {s : State} {r : Nat} (h : Kept fp z s)
    (hk : Sub 1032 fp) :
    Kept fp z (reqReturn s r) := by
  unfold reqReturn
  repeat' first
    | with_reducible assumption
    | exact Sub.of hk rfl
    | with_reducible intro _
    | with_reducible apply kept_ite
    | with_reducible apply setReq_kept

theorem tensionUse_kept {fp : Nat} {z : State} {s : State} (h : Kept fp z s)
    (hk : Sub 1032 fp) :
    Kept fp z (tensionUse s) := by
  unfold tensionUse
  repeat' first
    | with_reducible assumption
    | exact Sub.of hk rfl
    | with_reducible intro _
    | with_reducible apply kept_ite
    | with_reducible apply setReq_kept
    | with_reducible apply kept_foldl

theorem shedList_kept {fp : Nat} {z : State} {s : State} {a1 : List Nat} (h : Kept fp z s)
    (hk : Sub 1048 fp) :
    Kept fp z (shedList s a1) := by
  induction a1 generalizing s with
  | nil =>
    unfold shedList
    repeat' first
      | with_reducible assumption
  | cons y l ih =>
    unfold shedList
    repeat' first
      | with_reducible assumption
      | with_reducible apply ih
      | exact Sub.of hk rfl
      | with_reducible intro _
      | with_reducible apply kept_ite
      | with_reducible apply count_kept
      | with_reducible apply setReq_kept

theorem shed_kept {fp : Nat} {z : State} {s : State} (h : Kept fp z s)
    (hk : Sub 1048 fp) :
    Kept fp z (shed s) := by
  unfold shed
  repeat' first
    | with_reducible assumption
    | exact Sub.of hk rfl
    | with_reducible intro _
    | with_reducible apply kept_ite
    | with_reducible apply shedList_kept

theorem globalNotify_kept {fp : Nat} {z : State} {s : State} {sub : Nat} {payload : Nat} (h : Kept fp z s)
    (hk : Sub 8344 fp) :
    Kept fp z (globalNotify s sub payload) := by
  unfold globalNotify
  repeat' first
    | with_reducible assumption
    | exact Sub.of hk rfl
    | with_reducible intro _
    | with_reducible apply kept_ite
    | with_reducible apply notifyReg_kept

theorem refuseReq_kept {fp : Nat} {z : State} {s : State} {r : Nat} {room : Nat} (h : Kept fp z s)
    (hk : Sub 9368 fp) :
    Kept fp z (refuseReq s r room) := by
  unfold refuseReq
  repeat' first
    | with_reducible assumption
    | exact Sub.of hk rfl
    | with_reducible intro _
    | with_reducible apply kept_ite
    | with_reducible apply setReq_kept
    | with_reducible apply setFld_kept
    | with_reducible apply globalNotify_kept
    | with_reducible apply count_kept

theorem grantReq_kept {fp : Nat} {z : State} {s : State} {r : Nat} (h : Kept fp z s)
    (hk : Sub 1560 fp) :
    Kept fp z (grantReq s r) := by
  unfold grantReq
  repeat' first
    | with_reducible assumption
    | exact Sub.of hk rfl
    | with_reducible intro _
    | with_reducible apply kept_ite
    | with_reducible apply count_kept
    | with_reducible apply setReq_kept
    | with_reducible apply kept_foldl
    | with_reducible apply kept_getD
    | with_reducible apply keptF_of
    | with_reducible apply keptQ_snd
    | with_reducible apply keptP_snd
    | dsimp only
    | with_reducible apply keptP_ite
    | simp only [keptQ_mk]
    | with_reducible apply keptQ_ite
    | split
    | simp only [kept_mk]
    | with_reducible refine keptF_upd ?_ (updF hk ?_)
    | (unfold UpdF; and_intros <;> first | exact .inl rfl | exact .inr rfl | exact .inr id | exact .inr fun _ => rfl | exact .refl _ | exact fun h => ⟨h, rfl⟩ | rfl | exact Nat.le_max_left _ _)

theorem reviewLoop_kept {fp : Nat} {z : State} {above : Bool} {a1 : List Nat} {a2 : Nat} {a3 : Nat} {a4 : Nat} {a5 : Stop} {a6 : State} (h : Kept fp z a6)
    (hk : Sub 9880 fp) :
    Kept fp z (reviewLoop above a1 a2 a3 a4 a5 a6) := by
  induction a1 generalizing above a2 a3 a4 a5 a6 with
  | nil =>
    unfold reviewLoop
    repeat' first
      | with_reducible assumption
  | cons y l ih =>
    unfold reviewLoop
    repeat' first
      | with_reducible assumption
      | with_reducible apply ih
      | exact Sub.of hk rfl
      | with_reducible intro _
      | with_reducible apply kept_ite
      | with_reducible apply refuseReq_kept
      | with_reducible apply setReq_kept
      | with_reducible apply count_kept
      | with_reducible apply grantReq_kept
      | with_reducible apply kept_foldl
      | with_reducible apply kept_getD
      | with_reducible apply keptF_of
      | with_reducible apply keptQ_snd
      | with_reducible apply keptP_snd
      | dsimp only
      | with_reducible apply keptP_ite
      | simp only [keptQ_mk]
      | with_reducible apply keptQ_ite
      | split

theorem ledgerRegs_kept {fp : Nat} {z : State} {s : State} (h : Kept fp z s)
    (hk : Sub 1032 fp) :
    Kept fp z (ledgerRegs s) := by
  unfold ledgerRegs
  repeat' first
    | with_reducible assumption
    | exact Sub.of hk rfl
    | with_reducible intro _
    | with_reducible apply kept_ite
    | with_reducible apply setTension_kept
    | with_reducible apply setReg_kept

theorem grantReview_kept {fp : Nat} {z : State} {s : State} (h : Kept fp z s)
    (hk : Sub 11992 fp) :
    Kept fp z (grantReview s) := by
  unfold grantReview
  repeat' first
    | with_reducible assumption
    | exact Sub.of hk rfl
    | with_reducible intro _
    | with_reducible apply kept_ite
    | with_reducible apply shed_kept
    | with_reducible apply globalNotify_kept
    | with_reducible apply raiseFree_kept
    | with_reducible apply count_kept
    | with_reducible apply setBit_kept
    | with_reducible apply clrBit_kept
    | with_reducible apply setTension_kept
    | with_reducible apply reviewLoop_kept
    | with_reducible apply ledgerRegs_kept

end Sys2Proof.Machine
end

