-- ==== Sys2Proof/Laws/KeptLine.lean ====
section
/-! SUPPORT. Laws/KeptLine.lean: what Laws/Kept.lean says, of the line, the time unit and the activation controller: one lemma an operation. -/

namespace Sys2Proof.Machine

open Sys2Proof

/-! ## Machine/Line.lean -/

theorem setWarp_kept {fp : Nat} {z : State} {s : State} {x : Warp} (h : Kept fp z s)
    (hk : Sub 524288 fp) :
    Kept fp z (setWarp s x) := by
  unfold setWarp
  repeat' first
    | with_reducible assumption
    | exact Sub.of hk rfl
    | with_reducible intro _
    | with_reducible apply kept_ite
    | with_reducible apply kept_foldl
    | with_reducible apply kept_getD
    | with_reducible apply keptF_of
    | with_reducible apply keptQ_snd
    | with_reducible apply keptP_snd
    | simp only [keptP_mk]
    | with_reducible apply keptP_ite
    | simp only [keptQ_mk]
    | with_reducible apply keptQ_ite
    | split
    | simp only [kept_mk]
    | with_reducible refine keptF_upd ?_ (updF hk ?_)
    | (unfold UpdF; and_intros <;> first | exact .inl rfl | exact .inr rfl | exact .inr id | exact .inr fun _ => rfl | exact .refl _ | exact fun h => ⟨h, rfl⟩ | rfl | exact Nat.le_max_left _ _)

theorem setWeft_kept {fp : Nat} {z : State} {s : State} {x : Weft} (h : Kept fp z s)
    (hk : Sub 1048576 fp) :
    Kept fp z (setWeft s x) := by
  unfold setWeft
  repeat' first
    | with_reducible assumption
    | exact Sub.of hk rfl
    | with_reducible intro _
    | with_reducible apply kept_ite
    | with_reducible apply kept_foldl
    | with_reducible apply kept_getD
    | with_reducible apply keptF_of
    | with_reducible apply keptQ_snd
    | with_reducible apply keptP_snd
    | simp only [keptP_mk]
    | with_reducible apply keptP_ite
    | simp only [keptQ_mk]
    | with_reducible apply keptQ_ite
    | split
    | simp only [kept_mk]
    | with_reducible refine keptF_upd ?_ (updF hk ?_)
    | (unfold UpdF; and_intros <;> first | exact .inl rfl | exact .inr rfl | exact .inr id | exact .inr fun _ => rfl | exact .refl _ | exact fun h => ⟨h, rfl⟩ | rfl | exact Nat.le_max_left _ _)

theorem setAct_kept {fp : Nat} {z : State} {s : State} {x : Act} (h : Kept fp z s)
    (hk : Sub 2097152 fp) :
    Kept fp z (setAct s x) := by
  unfold setAct
  repeat' first
    | with_reducible assumption
    | exact Sub.of hk rfl
    | with_reducible intro _
    | with_reducible apply kept_ite
    | with_reducible apply kept_foldl
    | with_reducible apply kept_getD
    | with_reducible apply keptF_of
    | with_reducible apply keptQ_snd
    | with_reducible apply keptP_snd
    | simp only [keptP_mk]
    | with_reducible apply keptP_ite
    | simp only [keptQ_mk]
    | with_reducible apply keptQ_ite
    | split
    | simp only [kept_mk]
    | with_reducible refine keptF_upd ?_ (updF hk ?_)
    | (unfold UpdF; and_intros <;> first | exact .inl rfl | exact .inr rfl | exact .inr id | exact .inr fun _ => rfl | exact .refl _ | exact fun h => ⟨h, rfl⟩ | rfl | exact Nat.le_max_left _ _)

theorem setPick_kept {fp : Nat} {z : State} {s : State} {x : Pick} (h : Kept fp z s)
    (hk : Sub 256 fp) :
    Kept fp z (setPick s x) := by
  unfold setPick
  repeat' first
    | with_reducible assumption
    | exact Sub.of hk rfl
    | with_reducible intro _
    | with_reducible apply kept_ite
    | with_reducible apply kept_foldl
    | with_reducible apply kept_getD
    | with_reducible apply keptF_of
    | with_reducible apply keptQ_snd
    | with_reducible apply keptP_snd
    | simp only [keptP_mk]
    | with_reducible apply keptP_ite
    | simp only [keptQ_mk]
    | with_reducible apply keptQ_ite
    | split
    | simp only [kept_mk]
    | with_reducible refine keptF_upd ?_ (updF hk ?_)
    | (unfold UpdF; and_intros <;> first | exact .inl rfl | exact .inr rfl | exact .inr id | exact .inr fun _ => rfl | exact .refl _ | exact fun h => ⟨h, rfl⟩ | rfl | exact Nat.le_max_left _ _)

theorem addRei_kept {fp : Nat} {z : State} {s : State} {n : Nat} (h : Kept fp z s)
    (hk : Sub 1048576 fp) :
    Kept fp z (addRei s n) := by
  unfold addRei
  repeat' first
    | with_reducible assumption
    | exact Sub.of hk rfl
    | with_reducible intro _
    | with_reducible apply kept_ite
    | with_reducible apply setWeft_kept

theorem cancelled_kept {fp : Nat} {z : State} {s : State} {b : Burst} (h : Kept fp z s)
    (hk : Sub 3145744 fp) :
    Kept fp z (cancelled s b) := by
  unfold cancelled
  repeat' first
    | with_reducible assumption
    | exact Sub.of hk rfl
    | with_reducible intro _
    | with_reducible apply kept_ite
    | with_reducible apply addRei_kept
    | with_reducible apply countBy_kept
    | with_reducible apply setAct_kept

theorem cancelBursts_kept {fp : Nat} {z : State} {s : State} (h : Kept fp z s)
    (hk : Sub 3145744 fp) :
    Kept fp z (cancelBursts s) := by
  unfold cancelBursts
  repeat' first
    | with_reducible assumption
    | exact Sub.of hk rfl
    | with_reducible intro _
    | with_reducible apply kept_ite
    | with_reducible apply cancelled_kept
    | with_reducible apply setWeft_kept
    | with_reducible apply kept_foldl

theorem endBursts_kept {fp : Nat} {z : State} {s : State} (h : Kept fp z s)
    (hk : Sub 1052672 fp) :
    Kept fp z (endBursts s) := by
  unfold endBursts
  repeat' first
    | with_reducible assumption
    | exact Sub.of hk rfl
    | with_reducible intro _
    | with_reducible apply kept_ite
    | with_reducible apply setWeft_kept
    | with_reducible apply kept_foldl
    | with_reducible apply kept_getD
    | with_reducible apply keptF_of
    | with_reducible apply keptQ_snd
    | with_reducible apply keptP_snd
    | dsimp only
    | with_reducible apply keptP_ite
    | simp only [keptQ_mk]
    | with_reducible apply keptQ_ite
    | split
    | simp only [kept_mk]
    | with_reducible refine keptF_upd ?_ (updF hk ?_)
    | (unfold UpdF; and_intros <;> first | exact .inl rfl | exact .inr rfl | exact .inr id | exact .inr fun _ => rfl | exact .refl _ | exact fun h => ⟨h, rfl⟩ | rfl | exact Nat.le_max_left _ _)

theorem reviewBlock_kept {fp : Nat} {z : State} {old : List Nat} {s : State} (h : Kept fp z s)
    (hk : Sub 3145744 fp) :
    Kept fp z (reviewBlock old s) := by
  unfold reviewBlock
  repeat' first
    | with_reducible assumption
    | exact Sub.of hk rfl
    | with_reducible intro _
    | with_reducible apply kept_ite
    | with_reducible apply cancelBursts_kept

theorem leaveLock_kept {fp : Nat} {z : State} {s : State} (h : Kept fp z s)
    (hk : Sub 3146000 fp) :
    Kept fp z (leaveLock s) := by
  unfold leaveLock
  repeat' first
    | with_reducible assumption
    | exact Sub.of hk rfl
    | with_reducible intro _
    | with_reducible apply kept_ite
    | with_reducible apply cancelBursts_kept
    | with_reducible apply setPick_kept

theorem setDefects_kept {fp : Nat} {z : State} {s : State} {los : Bool} {lof : Bool} {sd : Bool} (h : Kept fp z s)
    (hk : Sub 532632 fp) :
    Kept fp z (setDefects s los lof sd) := by
  unfold setDefects
  repeat' first
    | with_reducible assumption
    | exact Sub.of hk rfl
    | with_reducible intro _
    | with_reducible apply kept_ite
    | with_reducible apply setWarp_kept
    | with_reducible apply setBit_kept
    | with_reducible apply notifyReg_kept

theorem dropContext_kept {fp : Nat} {z : State} {s : State} {stream : Nat} (h : Kept fp z s)
    (hk : Sub 524304 fp) :
    Kept fp z (dropContext s stream) := by
  unfold dropContext
  repeat' first
    | with_reducible assumption
    | exact Sub.of hk rfl
    | with_reducible intro _
    | with_reducible apply kept_ite
    | with_reducible apply count_kept
    | with_reducible apply setWarp_kept
    | with_reducible apply kept_foldl
    | with_reducible apply kept_getD
    | with_reducible apply keptF_of
    | with_reducible apply keptQ_snd
    | with_reducible apply keptP_snd
    | dsimp only
    | with_reducible apply keptP_ite
    | simp only [keptQ_mk]
    | with_reducible apply keptQ_ite
    | split

theorem dropContexts_kept {fp : Nat} {z : State} {s : State} (h : Kept fp z s)
    (hk : Sub 524304 fp) :
    Kept fp z (dropContexts s) := by
  unfold dropContexts
  repeat' first
    | with_reducible assumption
    | exact Sub.of hk rfl
    | with_reducible intro _
    | with_reducible apply kept_ite
    | with_reducible apply countBy_kept
    | with_reducible apply setWarp_kept

theorem bumpFld_kept {fp : Nat} {z : State} {s : State} {a : Nat} {hi : Nat} {lo : Nat} (h : Kept fp z s)
    (hk : Sub 8 fp) :
    Kept fp z (bumpFld s a hi lo) := by
  unfold bumpFld
  repeat' first
    | with_reducible assumption
    | exact Sub.of hk rfl
    | with_reducible intro _
    | with_reducible apply kept_ite
    | with_reducible apply setFld_kept

theorem toHunt_kept {fp : Nat} {z : State} {s : State} {los : Bool} (h : Kept fp z s)
    (hk : Sub 3678616 fp) :
    Kept fp z (toHunt s los) := by
  unfold toHunt
  repeat' first
    | with_reducible assumption
    | exact Sub.of hk rfl
    | with_reducible intro _
    | with_reducible apply kept_ite
    | with_reducible apply setWarp_kept
    | with_reducible apply leaveLock_kept
    | with_reducible apply dropContexts_kept
    | with_reducible apply bumpFld_kept
    | with_reducible apply setDefects_kept

/-! ## Machine/Time.lean -/

theorem setTime_kept {fp : Nat} {z : State} {s : State} {x : TimeU} (h : Kept fp z s)
    (hk : Sub 33554432 fp) :
    Kept fp z (setTime s x) := by
  unfold setTime
  repeat' first
    | with_reducible assumption
    | exact Sub.of hk rfl
    | with_reducible intro _
    | with_reducible apply kept_ite
    | with_reducible apply kept_foldl
    | with_reducible apply kept_getD
    | with_reducible apply keptF_of
    | with_reducible apply keptQ_snd
    | with_reducible apply keptP_snd
    | simp only [keptP_mk]
    | with_reducible apply keptP_ite
    | simp only [keptQ_mk]
    | with_reducible apply keptQ_ite
    | split
    | simp only [kept_mk]
    | with_reducible refine keptF_upd ?_ (updF hk ?_)
    | (unfold UpdF; and_intros <;> first | exact .inl rfl | exact .inr rfl | exact .inr id | exact .inr fun _ => rfl | exact .refl _ | exact fun h => ⟨h, rfl⟩ | rfl | exact Nat.le_max_left _ _)

theorem timeAdvance_kept {fp : Nat} {z : State} {n : Nat} {s : State} (h : Kept fp z s)
    (hk : Sub 33554432 fp) :
    Kept fp z (timeAdvance n s) := by
  unfold timeAdvance
  repeat' first
    | with_reducible assumption
    | exact Sub.of hk rfl
    | with_reducible intro _
    | with_reducible apply kept_ite
    | with_reducible apply setTime_kept

theorem timeNotify_kept {fp : Nat} {z : State} {s : State} {sub : Nat} {payload : Nat} (h : Kept fp z s)
    (hk : Sub 8344 fp) :
    Kept fp z (timeNotify s sub payload) := by
  unfold timeNotify
  repeat' first
    | with_reducible assumption
    | exact Sub.of hk rfl
    | with_reducible intro _
    | with_reducible apply kept_ite
    | with_reducible apply notifyReg_kept

theorem timeStep_kept {fp : Nat} {z : State} {s : State} {d : ℤ} (h : Kept fp z s)
    (hk : Sub 33562776 fp) :
    Kept fp z (timeStep s d) := by
  unfold timeStep
  repeat' first
    | with_reducible assumption
    | exact Sub.of hk rfl
    | with_reducible intro _
    | with_reducible apply kept_ite
    | with_reducible apply setTime_kept
    | with_reducible apply timeNotify_kept
    | with_reducible apply count_kept
    | with_reducible apply setBit_kept

theorem timeLoad_kept {fp : Nat} {z : State} {s : State} (h : Kept fp z s)
    (hk : Sub 33562776 fp) :
    Kept fp z (timeLoad s) := by
  unfold timeLoad
  repeat' first
    | with_reducible assumption
    | exact Sub.of hk rfl
    | with_reducible intro _
    | with_reducible apply kept_ite
    | with_reducible apply setTime_kept
    | with_reducible apply timeNotify_kept
    | with_reducible apply clrBit_kept
    | with_reducible apply setBit_kept

theorem todIn_kept {fp : Nat} {z : State} {s : State} {a1 : ℤ × Nat} (h : Kept fp z s)
    (hk : Sub 33562776 fp) :
    Kept fp z (todIn s a1) := by
  unfold todIn
  repeat' first
    | with_reducible assumption
    | exact Sub.of hk rfl
    | with_reducible intro _
    | with_reducible apply kept_ite
    | with_reducible apply setReg_kept
    | with_reducible apply setBit_kept
    | with_reducible apply timeNotify_kept
    | with_reducible apply clrBit_kept
    | with_reducible apply setTime_kept

theorem incIn_kept {fp : Nat} {z : State} {s : State} (h : Kept fp z s)
    (hk : Sub 33556568 fp) :
    Kept fp z (incIn s) := by
  unfold incIn
  repeat' first
    | with_reducible assumption
    | exact Sub.of hk rfl
    | with_reducible intro _
    | with_reducible apply kept_ite
    | with_reducible apply setTime_kept
    | with_reducible apply force_kept
    | with_reducible apply progErr_kept

theorem timeCommit_kept {fp : Nat} {z : State} {s : State} (h : Kept fp z s)
    (hk : Sub 33564888 fp) :
    Kept fp z (timeCommit s) := by
  unfold timeCommit
  repeat' first
    | with_reducible assumption
    | exact Sub.of hk rfl
    | with_reducible intro _
    | with_reducible apply kept_ite
    | with_reducible apply incIn_kept
    | with_reducible apply setTime_kept
    | with_reducible apply todIn_kept
    | with_reducible apply timeLoad_kept
    | with_reducible apply timeStep_kept
    | with_reducible apply setBit_kept
    | with_reducible apply kept_foldl
    | with_reducible apply kept_getD
    | with_reducible apply keptF_of
    | with_reducible apply keptQ_snd
    | with_reducible apply keptP_snd
    | dsimp only
    | with_reducible apply keptP_ite
    | simp only [keptQ_mk]
    | with_reducible apply keptQ_ite
    | split

theorem timeRecord_kept {fp : Nat} {z : State} {s : State} {pick : Nat} {eqd : Nat} {back : Nat} (h : Kept fp z s)
    (hk : Sub 33554432 fp) :
    Kept fp z (timeRecord s pick eqd back) := by
  unfold timeRecord
  repeat' first
    | with_reducible assumption
    | exact Sub.of hk rfl
    | with_reducible intro _
    | with_reducible apply kept_ite
    | with_reducible apply setTime_kept

theorem timeTod_kept {fp : Nat} {z : State} {s : State} {refPick : Nat} {sec : Nat} {ns : Nat} {frac : Nat} (h : Kept fp z s)
    (hk : Sub 33554512 fp) :
    Kept fp z (timeTod s refPick sec ns frac) := by
  unfold timeTod
  repeat' first
    | with_reducible assumption
    | exact Sub.of hk rfl
    | with_reducible intro _
    | with_reducible apply kept_ite
    | with_reducible apply count_kept
    | with_reducible refine draw_kept_of ?_ (by assumption) ?_
    | with_reducible apply draw_kept
    | with_reducible apply setTime_kept
    | with_reducible apply kept_foldl
    | with_reducible apply kept_getD
    | with_reducible apply keptF_of
    | with_reducible apply keptQ_snd
    | with_reducible apply keptP_snd
    | dsimp only
    | with_reducible apply keptP_ite
    | simp only [keptQ_mk]
    | with_reducible apply keptQ_ite
    | split

theorem execHoldoverEntry_kept {fp : Nat} {z : State} {s : State} (h : Kept fp z s)
    (hk : Sub 33562776 fp) :
    KeptE fp z (execHoldoverEntry s) := by
  unfold execHoldoverEntry
  repeat' first
    | with_reducible assumption
    | exact Sub.of hk rfl
    | with_reducible intro _
    | with_reducible apply kept_ite
    | with_reducible apply keptE_next
    | with_reducible apply setTime_kept
    | with_reducible apply setBit_kept
    | with_reducible apply clrBit_kept
    | with_reducible apply timeNotify_kept

theorem execPpsPulse_kept {fp : Nat} {z : State} {s : State} (h : Kept fp z s)
    (hk : Sub 33554576 fp) :
    KeptE fp z (execPpsPulse s) := by
  unfold execPpsPulse
  repeat' first
    | with_reducible assumption
    | exact Sub.of hk rfl
    | with_reducible intro _
    | with_reducible apply kept_ite
    | with_reducible apply keptE_next
    | with_reducible apply count_kept
    | with_reducible apply setTime_kept
    | with_reducible apply emit_kept

theorem setCapFifo_kept {fp : Nat} {z : State} {s : State} {i : Nat} {l : List Nat} (h : Kept fp z s)
    (hk : Sub 33554440 fp) :
    Kept fp z (setCapFifo s i l) := by
  unfold setCapFifo
  repeat' first
    | with_reducible assumption
    | exact Sub.of hk rfl
    | with_reducible intro _
    | with_reducible apply kept_ite
    | with_reducible apply setTime_kept
    | with_reducible apply setFld_kept

theorem execTsCapEdge_kept {fp : Nat} {z : State} {i : Nat} {falling : Bool} {s : State} (h : Kept fp z s)
    (hk : Sub 33554456 fp) :
    KeptE fp z (execTsCapEdge i falling s) := by
  unfold execTsCapEdge
  repeat' first
    | with_reducible assumption
    | exact Sub.of hk rfl
    | with_reducible intro _
    | with_reducible apply kept_ite
    | with_reducible apply keptE_next
    | with_reducible apply count_kept
    | with_reducible apply setCapFifo_kept

theorem timeNowRead_kept {fp : Nat} {z : State} {s : State} (h : Kept fp z s)
    (hk : Sub 12 fp) :
    Kept fp z (timeNowRead s) := by
  unfold timeNowRead
  repeat' first
    | with_reducible assumption
    | exact Sub.of hk rfl
    | with_reducible intro _
    | with_reducible apply kept_ite
    | with_reducible apply setReg_kept
    | with_reducible apply kept_foldl
    | with_reducible apply kept_getD
    | with_reducible apply keptF_of
    | with_reducible apply keptQ_snd
    | with_reducible apply keptP_snd
    | dsimp only
    | with_reducible apply keptP_ite
    | simp only [keptQ_mk]
    | with_reducible apply keptQ_ite
    | split
    | simp only [kept_mk]
    | with_reducible refine keptF_upd ?_ (updF hk ?_)
    | (unfold UpdF; and_intros <;> first | exact .inl rfl | exact .inr rfl | exact .inr id | exact .inr fun _ => rfl | exact .refl _ | exact fun h => ⟨h, rfl⟩ | rfl | exact Nat.le_max_left _ _)

theorem timeCapRead_kept {fp : Nat} {z : State} {i : Nat} {s : State} (h : Kept fp z s)
    (hk : Sub 33554444 fp) :
    Kept fp z (timeCapRead i s) := by
  unfold timeCapRead
  repeat' first
    | with_reducible assumption
    | exact Sub.of hk rfl
    | with_reducible intro _
    | with_reducible apply kept_ite
    | with_reducible apply setReg_kept
    | with_reducible apply setCapFifo_kept
    | with_reducible apply kept_foldl
    | with_reducible apply kept_getD
    | with_reducible apply keptF_of
    | with_reducible apply keptQ_snd
    | with_reducible apply keptP_snd
    | dsimp only
    | with_reducible apply keptP_ite
    | simp only [keptQ_mk]
    | with_reducible apply keptQ_ite
    | split
    | simp only [kept_mk]
    | with_reducible refine keptF_upd ?_ (updF hk ?_)
    | (unfold UpdF; and_intros <;> first | exact .inl rfl | exact .inr rfl | exact .inr id | exact .inr fun _ => rfl | exact .refl _ | exact fun h => ⟨h, rfl⟩ | rfl | exact Nat.le_max_left _ _)

/-! ## Machine/Warp.lean -/

theorem execAmplitudeInterval_kept {fp : Nat} {z : State} {amp : Nat} {s : State} (h : Kept fp z s)
    (hk : Sub 3678616 fp) :
    KeptE fp z (execAmplitudeInterval amp s) := by
  unfold execAmplitudeInterval
  repeat' first
    | with_reducible assumption
    | exact Sub.of hk rfl
    | with_reducible intro _
    | with_reducible apply kept_ite
    | with_reducible apply keptE_next
    | with_reducible apply setWarp_kept
    | with_reducible apply toHunt_kept
    | with_reducible apply setDefects_kept

theorem execCdrLock_kept {fp : Nat} {z : State} {s : State} (h : Kept fp z s)
    (hk : Sub 524288 fp) :
    KeptE fp z (execCdrLock s) := by
  unfold execCdrLock
  repeat' first
    | with_reducible assumption
    | exact Sub.of hk rfl
    | with_reducible intro _
    | with_reducible apply kept_ite
    | with_reducible apply keptE_next
    | with_reducible apply setWarp_kept

theorem execCdrLockLoss_kept {fp : Nat} {z : State} {s : State} (h : Kept fp z s)
    (hk : Sub 524288 fp) :
    KeptE fp z (execCdrLockLoss s) := by
  unfold execCdrLockLoss
  repeat' first
    | with_reducible assumption
    | exact Sub.of hk rfl
    | with_reducible intro _
    | with_reducible apply kept_ite
    | with_reducible apply keptE_next
    | with_reducible apply setWarp_kept

theorem useTaps_kept {fp : Nat} {z : State} {s : State} {l : List Nat} (h : Kept fp z s)
    (hk : Sub 8 fp) :
    Kept fp z (useTaps s l) := by
  unfold useTaps
  repeat' first
    | with_reducible assumption
    | exact Sub.of hk rfl
    | with_reducible intro _
    | with_reducible apply kept_ite
    | with_reducible apply forUpTo_kept
    | with_reducible apply setReg_kept

theorem rejectSwap_kept {fp : Nat} {z : State} {s : State} (h : Kept fp z s)
    (hk : Sub 526424 fp) :
    Kept fp z (rejectSwap s) := by
  unfold rejectSwap
  repeat' first
    | with_reducible assumption
    | exact Sub.of hk rfl
    | with_reducible intro _
    | with_reducible apply kept_ite
    | with_reducible apply raiseFree_kept
    | with_reducible apply bumpFld_kept
    | with_reducible apply setWarp_kept

theorem eqSwap_kept {fp : Nat} {z : State} {s : State} (h : Kept fp z s)
    (hk : Sub 526424 fp) :
    Kept fp z (eqSwap s) := by
  unfold eqSwap
  repeat' first
    | with_reducible assumption
    | exact Sub.of hk rfl
    | with_reducible intro _
    | with_reducible apply kept_ite
    | with_reducible apply rejectSwap_kept
    | with_reducible apply useTaps_kept
    | with_reducible apply bumpFld_kept
    | with_reducible apply setWarp_kept

theorem latchWindow_kept {fp : Nat} {z : State} {corr : List ℤ} {epow : Nat} {s : State} (h : Kept fp z s)
    (hk : Sub 524288 fp) :
    Kept fp z (latchWindow corr epow s) := by
  unfold latchWindow
  repeat' first
    | with_reducible assumption
    | exact Sub.of hk rfl
    | with_reducible intro _
    | with_reducible apply kept_ite
    | with_reducible apply setWarp_kept

theorem eqCommit_kept {fp : Nat} {z : State} {oldCfg : Nat} {s : State} (h : Kept fp z s)
    (hk : Sub 527448 fp) :
    Kept fp z (eqCommit oldCfg s) := by
  unfold eqCommit
  repeat' first
    | with_reducible assumption
    | exact Sub.of hk rfl
    | with_reducible intro _
    | with_reducible apply kept_ite
    | with_reducible apply reqRaise_kept
    | with_reducible apply reqReturn_kept
    | with_reducible apply setWarp_kept
    | with_reducible apply useTaps_kept
    | with_reducible apply rejectSwap_kept

theorem setPm_kept {fp : Nat} {z : State} {s : State} {p : Pm} (h : Kept fp z s)
    (hk : Sub 524288 fp) :
    Kept fp z (setPm s p) := by
  unfold setPm
  repeat' first
    | with_reducible assumption
    | exact Sub.of hk rfl
    | with_reducible intro _
    | with_reducible apply kept_ite
    | with_reducible apply setWarp_kept

theorem sdReview_kept {fp : Nat} {z : State} {s : State} (h : Kept fp z s)
    (hk : Sub 532632 fp) :
    Kept fp z (sdReview s) := by
  unfold sdReview
  repeat' first
    | with_reducible assumption
    | exact Sub.of hk rfl
    | with_reducible intro _
    | with_reducible apply kept_ite
    | with_reducible apply setPm_kept
    | with_reducible apply setDefects_kept

theorem execPmSecondEnd_kept {fp : Nat} {z : State} {line : Option Nat} {s : State} (h : Kept fp z s)
    (hk : Sub 532632 fp) :
    KeptE fp z (execPmSecondEnd s line) := by
  unfold execPmSecondEnd
  repeat' first
    | with_reducible assumption
    | exact Sub.of hk rfl
    | with_reducible intro _
    | with_reducible apply kept_ite
    | with_reducible apply keptE_next
    | with_reducible apply setReg_kept
    | with_reducible apply sdReview_kept
    | with_reducible apply setPm_kept

theorem pmCopy_kept {fp : Nat} {z : State} {n : Nat} {s : State} (h : Kept fp z s)
    (hk : Sub 8 fp) :
    Kept fp z (pmCopy n s) := by
  unfold pmCopy
  repeat' first
    | with_reducible assumption
    | exact Sub.of hk rfl
    | with_reducible intro _
    | with_reducible apply kept_ite
    | with_reducible apply setReg_kept
    | with_reducible apply forUpTo_kept

theorem warpCommit_kept {fp : Nat} {z : State} {s : State} (h : Kept fp z s)
    (hk : Sub 524288 fp) :
    Kept fp z (warpCommit s) := by
  unfold warpCommit
  repeat' first
    | with_reducible assumption
    | exact Sub.of hk rfl
    | with_reducible intro _
    | with_reducible apply kept_ite
    | with_reducible apply setWarp_kept

theorem openCand_kept {fp : Nat} {z : State} {s : State} {pos : Nat} (h : Kept fp z s)
    (hk : Sub 524296 fp) :
    Kept fp z (openCand s pos) := by
  unfold openCand
  repeat' first
    | with_reducible assumption
    | exact Sub.of hk rfl
    | with_reducible intro _
    | with_reducible apply kept_ite
    | with_reducible apply setWarp_kept
    | with_reducible apply bumpFld_kept
    | with_reducible apply kept_foldl
    | with_reducible apply kept_getD
    | with_reducible apply keptF_of
    | with_reducible apply keptQ_snd
    | with_reducible apply keptP_snd
    | dsimp only
    | with_reducible apply keptP_ite
    | simp only [keptQ_mk]
    | with_reducible apply keptQ_ite
    | split

theorem enterLock_kept {fp : Nat} {z : State} {s : State} (h : Kept fp z s)
    (hk : Sub 256 fp) :
    Kept fp z (enterLock s) := by
  unfold enterLock
  repeat' first
    | with_reducible assumption
    | exact Sub.of hk rfl
    | with_reducible intro _
    | with_reducible apply kept_ite
    | with_reducible apply setPick_kept

theorem execPsyncWindow_kept {fp : Nat} {z : State} {pos : Nat} {w : Nat} {hdr : List Byte} {bad : Bool} {s : State} (h : Kept fp z s)
    (hk : Sub 3678616 fp) :
    KeptE fp z (execPsyncWindow pos w hdr bad s) := by
  unfold execPsyncWindow
  repeat' first
    | with_reducible assumption
    | exact Sub.of hk rfl
    | with_reducible intro _
    | with_reducible apply kept_ite
    | with_reducible apply keptE_next
    | with_reducible apply setWarp_kept
    | with_reducible apply count_kept
    | with_reducible apply toHunt_kept
    | with_reducible apply enterLock_kept
    | with_reducible apply setFld_kept
    | with_reducible apply setDefects_kept
    | with_reducible apply openCand_kept
    | with_reducible apply kept_foldl
    | with_reducible apply kept_getD
    | with_reducible apply keptF_of
    | with_reducible apply keptQ_snd
    | with_reducible apply keptP_snd
    | dsimp only
    | with_reducible apply keptP_ite
    | simp only [keptQ_mk]
    | with_reducible apply keptQ_ite
    | split

theorem codewordDone_kept {fp : Nat} {z : State} {idx : Nat} {bits : Option Nat} {s : State} (h : Kept fp z s)
    (hk : Sub 1572880 fp) :
    Kept fp z (codewordDone idx bits s) := by
  unfold codewordDone
  repeat' first
    | with_reducible assumption
    | exact Sub.of hk rfl
    | with_reducible intro _
    | with_reducible apply kept_ite
    | with_reducible apply count_kept
    | with_reducible apply setWarp_kept
    | with_reducible apply countBy_kept
    | with_reducible apply setPm_kept
    | with_reducible apply addRei_kept
    | with_reducible apply kept_foldl
    | with_reducible apply kept_getD
    | with_reducible apply keptF_of
    | with_reducible apply keptQ_snd
    | with_reducible apply keptP_snd
    | dsimp only
    | with_reducible apply keptP_ite
    | simp only [keptQ_mk]
    | with_reducible apply keptQ_ite
    | split

theorem execCodewordDecode_kept {fp : Nat} {z : State} {idx : Nat} {levels : List Pam4} {words : List Nat} {s : State} (h : Kept fp z s)
    (hk : Sub 1572880 fp) :
    KeptE fp z (execCodewordDecode idx levels s words) := by
  unfold execCodewordDecode
  repeat' first
    | with_reducible assumption
    | exact Sub.of hk rfl
    | with_reducible intro _
    | with_reducible apply kept_ite
    | with_reducible apply keptE_next
    | with_reducible apply codewordDone_kept

theorem headerFail_kept {fp : Nat} {z : State} {s : State} (h : Kept fp z s)
    (hk : Sub 524304 fp) :
    Kept fp z (headerFail s) := by
  unfold headerFail
  repeat' first
    | with_reducible assumption
    | exact Sub.of hk rfl
    | with_reducible intro _
    | with_reducible apply kept_ite
    | with_reducible apply count_kept
    | with_reducible apply setPm_kept
    | with_reducible apply dropContexts_kept
    | with_reducible apply setWarp_kept

theorem pickFail_kept {fp : Nat} {z : State} {s : State} (h : Kept fp z s)
    (hk : Sub 524304 fp) :
    Kept fp z (pickFail s) := by
  unfold pickFail
  repeat' first
    | with_reducible assumption
    | exact Sub.of hk rfl
    | with_reducible intro _
    | with_reducible apply kept_ite
    | with_reducible apply headerFail_kept
    | with_reducible apply setWarp_kept

theorem execPickHeader_kept {fp : Nat} {z : State} {a0 : List Byte} {back : Nat} {s : State} (h : Kept fp z s)
    (hk : Sub 34078992 fp) :
    KeptE fp z (execPickHeader a0 back s) := by
  unfold execPickHeader
  repeat' first
    | with_reducible assumption
    | exact Sub.of hk rfl
    | with_reducible intro _
    | with_reducible apply kept_ite
    | with_reducible apply keptE_next
    | with_reducible apply setWarp_kept
    | with_reducible apply headerFail_kept
    | with_reducible apply setPick_kept
    | with_reducible apply dropContexts_kept
    | with_reducible apply timeRecord_kept

theorem execReasmTimeout_kept {fp : Nat} {z : State} {stream : Nat} {s : State} (h : Kept fp z s)
    (hk : Sub 524304 fp) :
    KeptE fp z (execReasmTimeout stream s) := by
  unfold execReasmTimeout
  repeat' first
    | with_reducible assumption
    | exact Sub.of hk rfl
    | with_reducible intro _
    | with_reducible apply kept_ite
    | with_reducible apply keptE_next
    | with_reducible apply dropContext_kept
    | with_reducible apply kept_foldl
    | with_reducible apply kept_getD
    | with_reducible apply keptF_of
    | with_reducible apply keptQ_snd
    | with_reducible apply keptP_snd
    | simp only [keptP_mk]
    | with_reducible apply keptP_ite
    | simp only [keptQ_mk]
    | with_reducible apply keptQ_ite
    | split

theorem lockEnClear_kept {fp : Nat} {z : State} {s : State} (h : Kept fp z s)
    (hk : Sub 3146000 fp) :
    Kept fp z (lockEnClear s) := by
  unfold lockEnClear
  repeat' first
    | with_reducible assumption
    | exact Sub.of hk rfl
    | with_reducible intro _
    | with_reducible apply kept_ite
    | with_reducible apply leaveLock_kept

/-! ## Machine/Clp.lean -/

theorem setWalk_kept {fp : Nat} {z : State} {s : State} {o : Option Nat} (h : Kept fp z s)
    (hk : Sub 524288 fp) :
    Kept fp z (setWalk s o) := by
  unfold setWalk
  repeat' first
    | with_reducible assumption
    | exact Sub.of hk rfl
    | with_reducible intro _
    | with_reducible apply kept_ite
    | with_reducible apply setWarp_kept

theorem delinHunt_kept {fp : Nat} {z : State} {s : State} {o : Nat} {d : List Byte} (h : Kept fp z s)
    (hk : Sub 524304 fp) :
    Kept fp z (delinHunt s o d) := by
  unfold delinHunt
  repeat' first
    | with_reducible assumption
    | exact Sub.of hk rfl
    | with_reducible intro _
    | with_reducible apply kept_ite
    | with_reducible apply dropContexts_kept
    | with_reducible apply count_kept
    | with_reducible apply setWalk_kept

theorem cutEnd_kept {fp : Nat} {z : State} {s : State} {cut : Option Nat} (h : Kept fp z s)
    (hk : Sub 208 fp) :
    Kept fp z (cutEnd s cut) := by
  unfold cutEnd
  repeat' first
    | with_reducible assumption
    | exact Sub.of hk rfl
    | with_reducible intro _
    | with_reducible apply kept_ite
    | with_reducible refine draw_kept_of ?_ (by assumption) ?_
    | with_reducible apply draw_kept
    | with_reducible refine drawBytes_kept_of ?_ (by assumption) ?_
    | with_reducible apply drawBytes_kept
    | with_reducible apply macCount_kept
    | with_reducible apply emit_kept
    | with_reducible apply kept_foldl
    | with_reducible apply kept_getD
    | with_reducible apply keptF_of
    | with_reducible apply keptQ_snd
    | with_reducible apply keptP_snd
    | dsimp only
    | with_reducible apply keptP_ite
    | simp only [keptQ_mk]
    | with_reducible apply keptQ_ite
    | split

theorem clpDeliver_kept {fp : Nat} {z : State} {s : State} {f : ClpIn} {frag : Bool} {cut : Bool} {plain : List Byte} (h : Kept fp z s)
    (hk : Sub 4384984 fp) :
    Kept fp z (clpDeliver s f frag cut plain) := by
  unfold clpDeliver
  repeat' first
    | with_reducible assumption
    | exact Sub.of hk rfl
    | with_reducible intro _
    | with_reducible apply kept_ite
    | with_reducible apply heddleInput_kept
    | with_reducible apply circuitFrame_kept
    | with_reducible refine rxDeliver_kept_of ?_ (by assumption) ?_
    | with_reducible apply rxDeliver_kept
    | with_reducible apply count_kept
    | with_reducible apply kept_foldl
    | with_reducible apply kept_getD
    | with_reducible apply keptF_of
    | with_reducible apply keptQ_snd
    | with_reducible apply keptP_snd
    | dsimp only
    | with_reducible apply keptP_ite
    | simp only [keptQ_mk]
    | with_reducible apply keptQ_ite
    | split

theorem reassemble_kept {fp : Nat} {z : State} {s : State} {f : ClpIn} {cut : Bool} {plain : List Byte} (h : Kept fp z s)
    (hk : Sub 4909272 fp) :
    Kept fp z (reassemble s f cut plain) := by
  unfold reassemble
  repeat' first
    | with_reducible assumption
    | exact Sub.of hk rfl
    | with_reducible intro _
    | with_reducible apply kept_ite
    | with_reducible apply clpDeliver_kept
    | with_reducible apply setWarp_kept
    | with_reducible apply dropContext_kept
    | with_reducible apply kept_foldl
    | with_reducible apply kept_getD
    | with_reducible apply keptF_of
    | with_reducible apply keptQ_snd
    | with_reducible apply keptP_snd
    | dsimp only
    | with_reducible apply keptP_ite
    | simp only [keptQ_mk]
    | with_reducible apply keptQ_ite
    | split

theorem clpTests_kept {fp : Nat} {z : State} {s : State} {f : ClpIn} {cut : Option Nat} (h : Kept fp z s)
    (hk : Sub 5171416 fp) :
    Kept fp z (clpTests s f cut) := by
  unfold clpTests
  repeat' first
    | with_reducible assumption
    | exact Sub.of hk rfl
    | with_reducible intro _
    | with_reducible apply kept_ite
    | with_reducible apply dropContext_kept
    | with_reducible apply cutEnd_kept
    | with_reducible apply count_kept
    | with_reducible apply countBy_kept
    | with_reducible refine cipher0_kept_of ?_ (by assumption) ?_
    | with_reducible apply cipher0_kept
    | with_reducible apply reassemble_kept
    | with_reducible apply kept_foldl
    | with_reducible apply kept_getD
    | with_reducible apply keptF_of
    | with_reducible apply keptQ_snd
    | with_reducible apply keptP_snd
    | simp only [keptP_mk]
    | with_reducible apply keptP_ite
    | simp only [keptQ_mk]
    | with_reducible apply keptQ_ite
    | split

theorem execClpFrame_kept {fp : Nat} {z : State} {data : List Byte} {cut : Option Nat} {s : State} (h : Kept fp z s)
    (hk : Sub 5171416 fp) :
    KeptE fp z (execClpFrame data cut s) := by
  unfold execClpFrame
  repeat' first
    | with_reducible assumption
    | exact Sub.of hk rfl
    | with_reducible intro _
    | with_reducible apply kept_ite
    | with_reducible apply keptE_next
    | with_reducible apply delinHunt_kept
    | with_reducible apply count_kept
    | with_reducible apply setPm_kept
    | with_reducible apply clpTests_kept
    | with_reducible apply setWalk_kept
    | with_reducible apply kept_foldl
    | with_reducible apply kept_getD
    | with_reducible apply keptF_of
    | with_reducible apply keptQ_snd
    | with_reducible apply keptP_snd
    | dsimp only
    | with_reducible apply keptP_ite
    | simp only [keptQ_mk]
    | with_reducible apply keptQ_ite
    | split

/-! ## Machine/Weft.lean -/

theorem backoffDraw_kept {fp : Nat} {z : State} {s : State} (h : Kept fp z s)
    (hk : Sub 2097216 fp) :
    Kept fp z (backoffDraw s) := by
  unfold backoffDraw
  repeat' first
    | with_reducible assumption
    | exact Sub.of hk rfl
    | with_reducible intro _
    | with_reducible apply kept_ite
    | with_reducible refine draw_kept_of ?_ (by assumption) ?_
    | with_reducible apply draw_kept
    | with_reducible apply setAct_kept
    | with_reducible apply kept_foldl
    | with_reducible apply kept_getD
    | with_reducible apply keptF_of
    | with_reducible apply keptQ_snd
    | with_reducible apply keptP_snd

theorem takeOpportunity_kept {fp : Nat} {z : State} {s : State} {g : Grant} (h : Kept fp z s)
    (hk : Sub 2097232 fp) :
    KeptP fp z (takeOpportunity s g) := by
  unfold takeOpportunity
  repeat' first
    | with_reducible assumption
    | exact Sub.of hk rfl
    | with_reducible intro _
    | with_reducible apply kept_ite
    | with_reducible apply keptP_ite
    | simp only [keptP_mk]
    | with_reducible refine draw_kept_of ?_ (by assumption) ?_
    | with_reducible apply draw_kept
    | with_reducible refine drawBytes_kept_of ?_ (by assumption) ?_
    | with_reducible apply drawBytes_kept
    | with_reducible apply count_kept
    | with_reducible apply setAct_kept
    | with_reducible apply kept_foldl
    | with_reducible apply kept_getD
    | with_reducible apply keptF_of
    | with_reducible apply keptQ_snd
    | with_reducible apply keptP_snd

theorem takeOpportunity_kept_of {fp : Nat} {z : State} {s : State} {g : Grant} {x9} {t9 : State} (h : Kept fp z s) (e : takeOpportunity s g = (x9, t9)) (hk : Sub 2097232 fp) : Kept fp z t9 := keptP_of (takeOpportunity_kept (z := z) h hk) e

theorem sortOut_kept {fp : Nat} {z : State} {quiet : Bool} {a1 : List Grant} {a2 : Bool} {a3 : State} (h : Kept fp z a3)
    (hk : Sub 2097232 fp) :
    KeptP fp z (sortOut quiet a1 a2 a3) := by
  induction a1 generalizing quiet a2 a3 with
  | nil =>
    unfold sortOut
    repeat' first
      | with_reducible assumption
      | exact Sub.of hk rfl
      | with_reducible intro _
      | with_reducible apply kept_ite
      | with_reducible apply keptP_ite
      | simp only [keptP_mk]
  | cons y l ih =>
    unfold sortOut
    repeat' first
      | with_reducible assumption
      | with_reducible apply ih
      | exact Sub.of hk rfl
      | with_reducible intro _
      | with_reducible apply kept_ite
      | with_reducible apply keptP_ite
      | simp only [keptP_mk]
      | with_reducible apply count_kept
      | with_reducible refine takeOpportunity_kept_of ?_ (by assumption) ?_
      | with_reducible apply takeOpportunity_kept
      | with_reducible apply backoffDraw_kept
      | with_reducible apply kept_foldl
      | with_reducible apply kept_getD
      | with_reducible apply keptF_of
      | with_reducible apply keptQ_snd
      | with_reducible apply keptP_snd
      | simp only [keptP_mk]
      | with_reducible apply keptP_ite
      | simp only [keptQ_mk]
      | with_reducible apply keptQ_ite
      | split

theorem sortOut_kept_of {fp : Nat} {z : State} {quiet : Bool} {a1 : List Grant} {a2 : Bool} {a3 : State} {x9} {t9 : State} (h : Kept fp z a3) (e : sortOut quiet a1 a2 a3 = (x9, t9)) (hk : Sub 2097232 fp) : Kept fp z t9 := keptP_of (sortOut_kept (z := z) h hk) e

theorem testGrant_kept {fp : Nat} {z : State} {lead : Nat} {lag : Nat} {proto : Burst} {a : MapAcc} {s : State} {a5 : Grant × Option (List Byte)} (h : Kept fp z s)
    (hk : Sub 16 fp) :
    KeptP fp z (testGrant lead lag proto a s a5) := by
  unfold testGrant
  repeat' first
    | with_reducible assumption
    | exact Sub.of hk rfl
    | with_reducible intro _
    | with_reducible apply kept_ite
    | with_reducible apply keptP_ite
    | simp only [keptP_mk]
    | with_reducible apply count_kept
    | with_reducible apply kept_foldl
    | with_reducible apply kept_getD
    | with_reducible apply keptF_of
    | with_reducible apply keptQ_snd
    | with_reducible apply keptP_snd
    | simp only [keptP_mk]
    | with_reducible apply keptP_ite
    | simp only [keptQ_mk]
    | with_reducible apply keptQ_ite
    | split

theorem testGrant_kept_of {fp : Nat} {z : State} {lead : Nat} {lag : Nat} {proto : Burst} {a : MapAcc} {s : State} {a5 : Grant × Option (List Byte)} {x9} {t9 : State} (h : Kept fp z s) (e : testGrant lead lag proto a s a5 = (x9, t9)) (hk : Sub 16 fp) : Kept fp z t9 := keptP_of (testGrant_kept (z := z) h hk) e

theorem testGrants_kept {fp : Nat} {z : State} {lead : Nat} {lag : Nat} {proto : Burst} {a3 : List (Grant × Option (List Byte))} {a4 : MapAcc} {a5 : State} (h : Kept fp z a5)
    (hk : Sub 16 fp) :
    KeptP fp z (testGrants lead lag proto a3 a4 a5) := by
  induction a3 generalizing lead lag proto a4 a5 with
  | nil =>
    unfold testGrants
    repeat' first
      | with_reducible assumption
      | exact Sub.of hk rfl
      | with_reducible intro _
      | with_reducible apply kept_ite
      | with_reducible apply keptP_ite
      | simp only [keptP_mk]
  | cons y l ih =>
    unfold testGrants
    repeat' first
      | with_reducible assumption
      | with_reducible apply ih
      | exact Sub.of hk rfl
      | with_reducible intro _
      | with_reducible apply kept_ite
      | with_reducible apply keptP_ite
      | simp only [keptP_mk]
      | with_reducible refine testGrant_kept_of ?_ (by assumption) ?_
      | with_reducible apply testGrant_kept
      | with_reducible apply kept_foldl
      | with_reducible apply kept_getD
      | with_reducible apply keptF_of
      | with_reducible apply keptQ_snd
      | with_reducible apply keptP_snd

theorem testGrants_kept_of {fp : Nat} {z : State} {lead : Nat} {lag : Nat} {proto : Burst} {a3 : List (Grant × Option (List Byte))} {a4 : MapAcc} {a5 : State} {x9} {t9 : State} (h : Kept fp z a5) (e : testGrants lead lag proto a3 a4 a5 = (x9, t9)) (hk : Sub 16 fp) : Kept fp z t9 := keptP_of (testGrants_kept (z := z) h hk) e

theorem execWeftMap_kept {fp : Nat} {z : State} {m : List Byte} {s : State} (h : Kept fp z s)
    (hk : Sub 3674192 fp) :
    KeptE fp z (execWeftMap m s) := by
  unfold execWeftMap
  repeat' first
    | with_reducible assumption
    | exact Sub.of hk rfl
    | with_reducible intro _
    | with_reducible apply kept_ite
    | with_reducible apply keptE_next
    | with_reducible apply setWarp_kept
    | with_reducible apply count_kept
    | with_reducible apply countBy_kept
    | with_reducible refine sortOut_kept_of ?_ (by assumption) ?_
    | with_reducible apply sortOut_kept
    | with_reducible refine testGrants_kept_of ?_ (by assumption) ?_
    | with_reducible apply testGrants_kept
    | with_reducible apply setWeft_kept
    | with_reducible apply kept_foldl
    | with_reducible apply kept_getD
    | with_reducible apply keptF_of
    | with_reducible apply keptQ_snd
    | with_reducible apply keptP_snd
    | dsimp only
    | with_reducible apply keptP_ite
    | simp only [keptQ_mk]
    | with_reducible apply keptQ_ite
    | split
    | simp only [kept_mk]
    | with_reducible refine keptF_upd ?_ (updF hk ?_)
    | (unfold UpdF; and_intros <;> first | exact .inl rfl | exact .inr rfl | exact .inr id | exact .inr fun _ => rfl | exact .refl _ | exact fun h => ⟨h, rfl⟩ | rfl | exact Nat.le_max_left _ _)

theorem nextPiece_kept {fp : Nat} {z : State} {c : Nat} {s : State} (h : Kept fp z s)
    (hk : Sub 157912 fp) :
    KeptP fp z (nextPiece c s) := by
  unfold nextPiece
  repeat' first
    | with_reducible assumption
    | exact Sub.of hk rfl
    | with_reducible intro _
    | with_reducible apply kept_ite
    | with_reducible apply keptP_ite
    | simp only [keptP_mk]
    | with_reducible refine reedTake_kept_of ?_ (by assumption) ?_
    | with_reducible apply reedTake_kept
    | with_reducible apply setReed_kept
    | with_reducible apply frameGone_kept
    | with_reducible apply count_kept
    | with_reducible apply queueLeft_kept
    | with_reducible apply kept_foldl
    | with_reducible apply kept_getD
    | with_reducible apply keptF_of
    | with_reducible apply keptQ_snd
    | with_reducible apply keptP_snd
    | simp only [keptP_mk]
    | with_reducible apply keptP_ite
    | simp only [keptQ_mk]
    | with_reducible apply keptQ_ite
    | split

theorem nextPiece_kept_of {fp : Nat} {z : State} {c : Nat} {s : State} {x9} {t9 : State} (h : Kept fp z s) (e : nextPiece c s = (x9, t9)) (hk : Sub 157912 fp) : Kept fp z t9 := keptP_of (nextPiece_kept (z := z) h hk) e

theorem poisonDrop_kept {fp : Nat} {z : State} {s : State} {c : Nat} {x : Continuation} (h : Kept fp z s)
    (hk : Sub 157912 fp) :
    Kept fp z (poisonDrop s c x) := by
  unfold poisonDrop
  repeat' first
    | with_reducible assumption
    | exact Sub.of hk rfl
    | with_reducible intro _
    | with_reducible apply kept_ite
    | with_reducible apply setReed_kept
    | with_reducible apply frameGone_kept
    | with_reducible apply poisonSeen_kept
    | with_reducible apply queueLeft_kept

theorem fillSection_kept {fp : Nat} {z : State} {c : Nat} {a1 : Nat} {a2 : Nat} {a3 : State} (h : Kept fp z a3)
    (hk : Sub 157912 fp) :
    KeptQ fp z (fillSection c a1 a2 a3) := by
  induction a1 generalizing c a2 a3 with
  | zero =>
    unfold fillSection
    repeat' first
      | with_reducible assumption
      | exact Sub.of hk rfl
      | with_reducible intro _
      | with_reducible apply kept_ite
      | with_reducible apply keptQ_ite
      | simp only [keptQ_mk]
  | succ n ih =>
    unfold fillSection
    repeat' first
      | with_reducible assumption
      | with_reducible apply ih
      | exact Sub.of hk rfl
      | with_reducible intro _
      | with_reducible apply kept_ite
      | with_reducible apply keptQ_ite
      | simp only [keptQ_mk]
      | with_reducible refine nextPiece_kept_of ?_ (by assumption) ?_
      | with_reducible apply nextPiece_kept
      | with_reducible apply poisonDrop_kept
      | with_reducible apply setReed_kept
      | with_reducible apply count_kept
      | with_reducible apply frameGone_kept
      | with_reducible apply queueLeft_kept
      | with_reducible apply kept_foldl
      | with_reducible apply kept_getD
      | with_reducible apply keptF_of
      | with_reducible apply keptQ_snd
      | with_reducible apply keptP_snd
      | simp only [keptP_mk]
      | with_reducible apply keptP_ite
      | simp only [keptQ_mk]
      | with_reducible apply keptQ_ite
      | split

theorem fillSection_kept_of {fp : Nat} {z : State} {c : Nat} {a1 : Nat} {a2 : Nat} {a3 : State} {x9 y9} {t9 : State} (h : Kept fp z a3) (e : fillSection c a1 a2 a3 = (x9, y9, t9)) (hk : Sub 157912 fp) : Kept fp z t9 := keptQ_of (fillSection_kept (z := z) h hk) e

theorem fillBurst_kept {fp : Nat} {z : State} {woven : Bool} {n : Nat} {l : List (Grant × List Placed)} {s : State} (h : Kept fp z s)
    (hk : Sub 157912 fp) : KeptP fp z (fillBurst woven n l s) := by
  induction l generalizing n s with
  | nil =>
    unfold fillBurst
    exact h
  | cons y t ih =>
    obtain ⟨g, p⟩ := y
    unfold fillBurst
    dsimp only
    cases woven
    · exact ih h
    · exact ih (keptQ_of (fillSection_kept h (hk.of rfl)) rfl)

theorem fillBurst_kept_of {fp : Nat} {z : State} {woven : Bool} {a1 : Nat} {a2 : List (Grant × List Placed)} {a3 : State} {x9} {t9 : State} (h : Kept fp z a3) (e : fillBurst woven a1 a2 a3 = (x9, t9)) (hk : Sub 157912 fp) : Kept fp z t9 := keptP_of (fillBurst_kept (z := z) h hk) e

theorem execSectionFill_kept {fp : Nat} {z : State} {pieces : Nat} {s : State} (h : Kept fp z s)
    (hk : Sub 68315352 fp) :
    KeptE fp z (execSectionFill s pieces) := by
  unfold execSectionFill
  repeat' first
    | with_reducible assumption
    | exact Sub.of hk rfl
    | with_reducible intro _
    | with_reducible apply kept_ite
    | with_reducible apply keptE_next
    | with_reducible refine fillBurst_kept_of ?_ (by assumption) ?_
    | with_reducible apply fillBurst_kept
    | with_reducible apply pauseScan_kept
    | with_reducible apply setWeft_kept
    | with_reducible apply kept_foldl
    | with_reducible apply kept_getD
    | with_reducible apply keptF_of
    | with_reducible apply keptQ_snd
    | with_reducible apply keptP_snd
    | dsimp only
    | with_reducible apply keptP_ite
    | simp only [keptQ_mk]
    | with_reducible apply keptQ_ite
    | split

theorem execBurstLatch_kept {fp : Nat} {z : State} {s : State} (h : Kept fp z s)
    (hk : Sub 3407888 fp) :
    KeptE fp z (execBurstLatch s) := by
  unfold execBurstLatch
  repeat' first
    | with_reducible assumption
    | exact Sub.of hk rfl
    | (with_reducible apply otpLe_mk <;> first | exact Nat.le_refl _ | exact Nat.le_max_left _ _ | exact fun h => ⟨h, rfl⟩ | rfl | exact fun h => absurd h (by assumption))
    | with_reducible intro _
    | with_reducible apply kept_ite
    | with_reducible apply keptE_next
    | with_reducible apply cancelled_kept
    | with_reducible apply setWeft_kept
    | with_reducible apply countBy_kept
    | with_reducible apply setSec_kept
    | with_reducible apply drbgUse_kept
    | with_reducible apply setAct_kept
    | with_reducible apply kept_foldl
    | with_reducible apply kept_getD
    | with_reducible apply keptF_of
    | with_reducible apply keptQ_snd
    | with_reducible apply keptP_snd
    | dsimp only
    | with_reducible apply keptP_ite
    | simp only [keptQ_mk]
    | with_reducible apply keptQ_ite
    | split

theorem execBurstStart_kept {fp : Nat} {z : State} {s : State} (h : Kept fp z s)
    (hk : Sub 3149976 fp) :
    KeptE fp z (execBurstStart s) := by
  unfold execBurstStart
  repeat' first
    | with_reducible assumption
    | exact Sub.of hk rfl
    | with_reducible intro _
    | with_reducible apply kept_ite
    | with_reducible apply keptE_next
    | with_reducible apply cancelled_kept
    | with_reducible apply setWeft_kept
    | with_reducible apply countBy_kept
    | with_reducible apply count_kept
    | with_reducible apply setReg_kept
    | with_reducible apply setAct_kept
    | with_reducible apply emit_kept
    | with_reducible apply kept_foldl
    | with_reducible apply kept_getD
    | with_reducible apply keptF_of
    | with_reducible apply keptQ_snd
    | with_reducible apply keptP_snd
    | dsimp only
    | with_reducible apply keptP_ite
    | simp only [keptQ_mk]
    | with_reducible apply keptQ_ite
    | split
    | simp only [kept_mk]
    | with_reducible refine keptF_upd ?_ (updF hk ?_)
    | (unfold UpdF; and_intros <;> first | exact .inl rfl | exact .inr rfl | exact .inr id | exact .inr fun _ => rfl | exact .refl _ | exact fun h => ⟨h, rfl⟩ | rfl | exact Nat.le_max_left _ _)

theorem execBurstEnd_kept {fp : Nat} {z : State} {s : State} (h : Kept fp z s)
    (hk : Sub 1052672 fp) :
    KeptE fp z (execBurstEnd s) := by
  unfold execBurstEnd
  repeat' first
    | with_reducible assumption
    | exact Sub.of hk rfl
    | with_reducible intro _
    | with_reducible apply kept_ite
    | with_reducible apply keptE_next
    | with_reducible apply setWeft_kept
    | with_reducible apply kept_foldl
    | with_reducible apply kept_getD
    | with_reducible apply keptF_of
    | with_reducible apply keptQ_snd
    | with_reducible apply keptP_snd
    | dsimp only
    | with_reducible apply keptP_ite
    | simp only [keptQ_mk]
    | with_reducible apply keptQ_ite
    | split
    | simp only [kept_mk]
    | with_reducible refine keptF_upd ?_ (updF hk ?_)
    | (unfold UpdF; and_intros <;> first | exact .inl rfl | exact .inr rfl | exact .inr id | exact .inr fun _ => rfl | exact .refl _ | exact fun h => ⟨h, rfl⟩ | rfl | exact Nat.le_max_left _ _)

theorem weftCommit_kept {fp : Nat} {z : State} {s : State} (h : Kept fp z s)
    (hk : Sub 1032 fp) :
    Kept fp z (weftCommit s) := by
  unfold weftCommit
  repeat' first
    | with_reducible assumption
    | exact Sub.of hk rfl
    | with_reducible intro _
    | with_reducible apply kept_ite
    | with_reducible apply reqRaise_kept
    | with_reducible apply reqReturn_kept

/-! ## Machine/Act.lean -/

theorem actNotify_kept {fp : Nat} {z : State} {s : State} {sub : Nat} {payload : Nat} (h : Kept fp z s)
    (hk : Sub 8344 fp) :
    Kept fp z (actNotify s sub payload) := by
  unfold actNotify
  repeat' first
    | with_reducible assumption
    | exact Sub.of hk rfl
    | with_reducible intro _
    | with_reducible apply kept_ite
    | with_reducible apply notifyReg_kept

theorem weftWrite_kept {fp : Nat} {z : State} {s : State} (h : Kept fp z s)
    (hk : Sub 2097160 fp) :
    Kept fp z (weftWrite s) := by
  unfold weftWrite
  repeat' first
    | with_reducible assumption
    | exact Sub.of hk rfl
    | with_reducible intro _
    | with_reducible apply kept_ite
    | with_reducible apply setAct_kept
    | with_reducible apply setReg_kept
    | with_reducible apply forUpTo_kept

theorem actGo_kept {fp : Nat} {z : State} {s : State} {st : ActSt} (h : Kept fp z s)
    (hk : Sub 2105496 fp) :
    Kept fp z (actGo s st) := by
  unfold actGo
  repeat' first
    | with_reducible assumption
    | exact Sub.of hk rfl
    | with_reducible intro _
    | with_reducible apply kept_ite
    | with_reducible apply actNotify_kept
    | with_reducible apply setAct_kept

theorem dropForeign_kept {fp : Nat} {z : State} {s : State} (h : Kept fp z s)
    (hk : Sub 524304 fp) :
    Kept fp z (dropForeign s) := by
  unfold dropForeign
  repeat' first
    | with_reducible assumption
    | exact Sub.of hk rfl
    | with_reducible intro _
    | with_reducible apply kept_ite
    | with_reducible apply dropContext_kept
    | with_reducible apply kept_foldl

theorem eraseSession_kept {fp : Nat} {z : State} {s : State} (h : Kept fp z s)
    (hk : Sub 3940504 fp) :
    Kept fp z (eraseSession s) := by
  unfold eraseSession
  repeat' first
    | with_reducible assumption
    | exact Sub.of hk rfl
    | with_reducible intro _
    | with_reducible apply kept_ite
    | with_reducible apply setAct_kept
    | with_reducible apply setWeft_kept
    | with_reducible apply releaseKeys_kept
    | with_reducible apply dropForeign_kept
    | with_reducible apply actNotify_kept
    | with_reducible apply weftWrite_kept

theorem failAttempt_kept {fp : Nat} {z : State} {s : State} (h : Kept fp z s)
    (hk : Sub 2097216 fp) :
    Kept fp z (failAttempt s) := by
  unfold failAttempt
  repeat' first
    | with_reducible assumption
    | exact Sub.of hk rfl
    | with_reducible intro _
    | with_reducible apply kept_ite
    | with_reducible apply setAct_kept
    | with_reducible apply backoffDraw_kept

theorem attemptOver_kept {fp : Nat} {z : State} {s : State} (h : Kept fp z s)
    (hk : Sub 3940568 fp) :
    Kept fp z (attemptOver s) := by
  unfold attemptOver
  repeat' first
    | with_reducible assumption
    | exact Sub.of hk rfl
    | with_reducible intro _
    | with_reducible apply kept_ite
    | with_reducible apply weftWrite_kept
    | with_reducible apply actGo_kept
    | with_reducible apply failAttempt_kept
    | with_reducible apply eraseSession_kept
    | with_reducible apply count_kept

theorem execTAnnounceExpiry_kept {fp : Nat} {z : State} {s : State} (h : Kept fp z s)
    (hk : Sub 3940568 fp) :
    KeptE fp z (execTAnnounceExpiry s) := by
  unfold execTAnnounceExpiry
  repeat' first
    | with_reducible assumption
    | exact Sub.of hk rfl
    | with_reducible intro _
    | with_reducible apply kept_ite
    | with_reducible apply keptE_next
    | with_reducible apply attemptOver_kept

theorem execTKeyExpiry_kept {fp : Nat} {z : State} {s : State} (h : Kept fp z s)
    (hk : Sub 3940568 fp) :
    KeptE fp z (execTKeyExpiry s) := by
  unfold execTKeyExpiry
  repeat' first
    | with_reducible assumption
    | exact Sub.of hk rfl
    | with_reducible intro _
    | with_reducible apply kept_ite
    | with_reducible apply keptE_next
    | with_reducible apply attemptOver_kept

theorem execTRangeExpiry_kept {fp : Nat} {z : State} {s : State} (h : Kept fp z s)
    (hk : Sub 3940568 fp) :
    KeptE fp z (execTRangeExpiry s) := by
  unfold execTRangeExpiry
  repeat' first
    | with_reducible assumption
    | exact Sub.of hk rfl
    | with_reducible intro _
    | with_reducible apply kept_ite
    | with_reducible apply keptE_next
    | with_reducible apply attemptOver_kept

theorem execTLapseExpiry_kept {fp : Nat} {z : State} {s : State} (h : Kept fp z s)
    (hk : Sub 3940504 fp) :
    KeptE fp z (execTLapseExpiry s) := by
  unfold execTLapseExpiry
  repeat' first
    | with_reducible assumption
    | exact Sub.of hk rfl
    | with_reducible intro _
    | with_reducible apply kept_ite
    | with_reducible apply keptE_next
    | with_reducible apply weftWrite_kept
    | with_reducible apply actGo_kept
    | with_reducible apply eraseSession_kept
    | with_reducible apply count_kept

theorem execArmExpiry_kept {fp : Nat} {z : State} {s : State} (h : Kept fp z s)
    (hk : Sub 2097160 fp) :
    KeptE fp z (execArmExpiry s) := by
  unfold execArmExpiry
  repeat' first
    | with_reducible assumption
    | exact Sub.of hk rfl
    | with_reducible intro _
    | with_reducible apply kept_ite
    | with_reducible apply keptE_next
    | with_reducible apply weftWrite_kept
    | with_reducible apply setAct_kept

theorem actStage_kept {fp : Nat} {z : State} {s : State} {x : Staged} (h : Kept fp z s)
    (hk : Sub 2097664 fp) :
    Kept fp z (actStage s x) := by
  unfold actStage
  repeat' first
    | with_reducible assumption
    | exact Sub.of hk rfl
    | with_reducible intro _
    | with_reducible apply kept_ite
    | with_reducible apply setAct_kept
    | with_reducible apply kept_foldl
    | with_reducible apply kept_getD
    | with_reducible apply keptF_of
    | with_reducible apply keptQ_snd
    | with_reducible apply keptP_snd
    | dsimp only
    | with_reducible apply keptP_ite
    | simp only [keptQ_mk]
    | with_reducible apply keptQ_ite
    | split
    | simp only [kept_mk]
    | with_reducible refine keptF_upd ?_ (updF hk ?_)
    | (unfold UpdF; and_intros <;> first | exact .inl rfl | exact .inr rfl | exact .inr id | exact .inr fun _ => rfl | exact .refl _ | exact fun h => ⟨h, rfl⟩ | rfl | exact Nat.le_max_left _ _)

theorem actTransition_kept {fp : Nat} {z : State} {s : State} (h : Kept fp z s)
    (hk : Sub 3940504 fp) :
    Kept fp z (actTransition s) := by
  unfold actTransition
  repeat' first
    | with_reducible assumption
    | exact Sub.of hk rfl
    | with_reducible intro _
    | with_reducible apply kept_ite
    | with_reducible apply eraseSession_kept
    | with_reducible apply setAct_kept
    | with_reducible apply actGo_kept
    | with_reducible apply count_kept
    | with_reducible apply kept_foldl
    | with_reducible apply kept_getD
    | with_reducible apply keptF_of
    | with_reducible apply keptQ_snd
    | with_reducible apply keptP_snd
    | simp only [keptP_mk]
    | with_reducible apply keptP_ite
    | simp only [keptQ_mk]
    | with_reducible apply keptQ_ite
    | split

theorem challengeIn_kept {fp : Nat} {z : State} {s : State} (h : Kept fp z s)
    (hk : Sub 2097152 fp) :
    Kept fp z (challengeIn s) := by
  unfold challengeIn
  repeat' first
    | with_reducible assumption
    | exact Sub.of hk rfl
    | with_reducible intro _
    | with_reducible apply kept_ite
    | with_reducible apply setAct_kept
    | with_reducible apply kept_foldl
    | with_reducible apply kept_getD
    | with_reducible apply keptF_of
    | with_reducible apply keptQ_snd
    | with_reducible apply keptP_snd
    | dsimp only
    | with_reducible apply keptP_ite
    | simp only [keptQ_mk]
    | with_reducible apply keptQ_ite
    | split

theorem actCommit_kept {fp : Nat} {z : State} {s : State} (h : Kept fp z s)
    (hk : Sub 3941016 fp) :
    Kept fp z (actCommit s) := by
  unfold actCommit
  repeat' first
    | with_reducible assumption
    | exact Sub.of hk rfl
    | with_reducible intro _
    | with_reducible apply kept_ite
    | with_reducible apply setAct_kept
    | with_reducible apply actTransition_kept
    | with_reducible apply actStage_kept
    | with_reducible apply weftWrite_kept
    | with_reducible apply challengeIn_kept
    | with_reducible apply kept_foldl

theorem actKeys_kept {fp : Nat} {z : State} {s : State} (h : Kept fp z s)
    (hk : Sub 2359384 fp) :
    Kept fp z (actKeys s) := by
  unfold actKeys
  repeat' first
    | with_reducible assumption
    | exact Sub.of hk rfl
    | with_reducible intro _
    | with_reducible apply kept_ite
    | with_reducible apply loadKey_kept
    | with_reducible apply setAct_kept
    | with_reducible apply kept_foldl
    | with_reducible apply kept_getD
    | with_reducible apply keptF_of
    | with_reducible apply keptQ_snd
    | with_reducible apply keptP_snd
    | simp only [keptP_mk]
    | with_reducible apply keptP_ite
    | simp only [keptQ_mk]
    | with_reducible apply keptQ_ite
    | split

theorem applyContainer_kept {fp : Nat} {z : State} {s : State} {add : Bool} {c : Nat} (h : Kept fp z s)
    (hk : Sub 2105560 fp) :
    Kept fp z (applyContainer s add c) := by
  unfold applyContainer
  repeat' first
    | with_reducible assumption
    | exact Sub.of hk rfl
    | with_reducible intro _
    | with_reducible apply kept_ite
    | with_reducible refine draw_kept_of ?_ (by assumption) ?_
    | with_reducible apply draw_kept
    | with_reducible apply setAct_kept
    | with_reducible apply actNotify_kept
    | with_reducible apply kept_foldl
    | with_reducible apply kept_getD
    | with_reducible apply keptF_of
    | with_reducible apply keptQ_snd
    | with_reducible apply keptP_snd

theorem applyStream_kept {fp : Nat} {z : State} {s : State} {add : Bool} {dn : Bool} {up : Bool} {typ : Nat} {st : Nat} {c : Nat} (h : Kept fp z s)
    (hk : Sub 2891928 fp) :
    Kept fp z (applyStream s add dn up typ st c) := by
  unfold applyStream
  repeat' first
    | with_reducible assumption
    | exact Sub.of hk rfl
    | with_reducible intro _
    | with_reducible apply kept_ite
    | with_reducible apply setAct_kept
    | with_reducible apply dropForeign_kept
    | with_reducible apply releaseKeys_kept
    | with_reducible apply actNotify_kept

theorem applyChange_kept {fp : Nat} {z : State} {s : State} {k : ChangeKind} (h : Kept fp z s)
    (hk : Sub 2892248 fp) :
    Kept fp z (applyChange s k) := by
  unfold applyChange
  repeat' first
    | with_reducible assumption
    | exact Sub.of hk rfl
    | with_reducible intro _
    | with_reducible apply kept_ite
    | with_reducible apply setAct_kept
    | with_reducible apply actGo_kept
    | with_reducible apply setPick_kept
    | with_reducible apply applyContainer_kept
    | with_reducible apply applyStream_kept
    | with_reducible apply switchKey_kept
    | with_reducible apply kept_foldl
    | with_reducible apply kept_getD
    | with_reducible apply keptF_of
    | with_reducible apply keptQ_snd
    | with_reducible apply keptP_snd
    | dsimp only
    | with_reducible apply keptP_ite
    | simp only [keptQ_mk]
    | with_reducible apply keptQ_ite
    | split

theorem execEffectiveChange_kept {fp : Nat} {z : State} {s : State} (h : Kept fp z s)
    (hk : Sub 2892248 fp) :
    KeptE fp z (execEffectiveChange s) := by
  unfold execEffectiveChange
  repeat' first
    | with_reducible assumption
    | exact Sub.of hk rfl
    | with_reducible intro _
    | with_reducible apply kept_ite
    | with_reducible apply keptE_next
    | with_reducible apply setAct_kept
    | with_reducible apply weftWrite_kept
    | with_reducible apply applyChange_kept
    | with_reducible apply kept_foldl

theorem queueAck_kept {fp : Nat} {z : State} {s : State} {typ : Nat} {status : Nat} {pick : Nat} {pos : Nat} {applied : Nat} (h : Kept fp z s)
    (hk : Sub 2097168 fp) :
    Kept fp z (queueAck s typ status pick pos applied) := by
  unfold queueAck
  repeat' first
    | with_reducible assumption
    | exact Sub.of hk rfl
    | with_reducible intro _
    | with_reducible apply kept_ite
    | with_reducible apply setAct_kept
    | with_reducible apply count_kept

theorem queueRecord_kept {fp : Nat} {z : State} {s : State} {r : List Byte} (h : Kept fp z s)
    (hk : Sub 2097152 fp) :
    Kept fp z (queueRecord s r) := by
  unfold queueRecord
  repeat' first
    | with_reducible assumption
    | exact Sub.of hk rfl
    | with_reducible intro _
    | with_reducible apply kept_ite
    | with_reducible apply forUpTo_kept
    | with_reducible apply setAct_kept

theorem msgChecks_kept {fp : Nat} {z : State} {s : State} {m : List Byte} {pos : Nat} (h : Kept fp z s)
    (hk : Sub 16 fp) :
    KeptO fp z (msgChecks s m pos) := by
  unfold msgChecks
  repeat' first
    | with_reducible assumption
    | exact Sub.of hk rfl
    | with_reducible intro _
    | with_reducible apply kept_ite
    | exact keptO_none
    | with_reducible apply keptO_some
    | with_reducible apply keptO_ite
    | with_reducible apply count_kept

theorem msgChecks_kept_of {fp : Nat} {z : State} {s : State} {m : List Byte} {pos : Nat} {t9 : State} (h : Kept fp z s) (e : msgChecks s m pos = some t9) (hk : Sub 16 fp) : Kept fp z t9 := (msgChecks_kept (z := z) h hk) t9 e

theorem treadle_kept {fp : Nat} {z : State} {typ : Nat} {body : List Byte → Nat → State → MsgRes} {m : List Byte} {pos : Nat} {s : State}
    (hb : ∀ m p t, Kept fp z t → KeptM fp z (body m p t)) (h : Kept fp z s)
    (hk : Sub 16 fp) : Kept fp z (treadle typ body m pos s) := by
  have hbs := hb m pos s h
  unfold treadle
  split
  · exact h
  · split
    · exact msgChecks_kept_of h (by assumption) (hk.of rfl)
    · split <;> rename_i e <;> rw [e] at hbs <;> exact count_kept hbs (hk.of rfl)

theorem execTreadleMessageDiscarded_kept {fp : Nat} {z : State} {m : List Byte} {pos : Nat} {s : State} (h : Kept fp z s)
    (hk : Sub 16 fp) :
    KeptE fp z (execTreadleMessageDiscarded m pos s) := by
  unfold execTreadleMessageDiscarded
  repeat' first
    | with_reducible assumption
    | exact Sub.of hk rfl
    | with_reducible intro _
    | with_reducible apply kept_ite
    | with_reducible apply keptE_next
    | with_reducible refine msgChecks_kept_of ?_ (by assumption) ?_
    | with_reducible apply msgChecks_kept
    | with_reducible apply kept_foldl
    | with_reducible apply kept_getD

theorem answer_kept {fp : Nat} {z : State} {s : State} {m : List Byte} {pos : Nat} {status : Nat} {applied : Nat} (h : Kept fp z s)
    (hk : Sub 2097168 fp) :
    Kept fp z (answer s m pos status applied) := by
  unfold answer
  repeat' first
    | with_reducible assumption
    | exact Sub.of hk rfl
    | with_reducible intro _
    | with_reducible apply kept_ite
    | with_reducible apply queueAck_kept

theorem rejectMsg_kept {fp : Nat} {z : State} {s : State} {m : List Byte} {pos : Nat} {status : Nat} (h : Kept fp z s)
    (hk : Sub 2097168 fp) :
    KeptM fp z (rejectMsg s m pos status) := by
  unfold rejectMsg
  repeat' first
    | with_reducible assumption
    | exact Sub.of hk rfl
    | with_reducible intro _
    | with_reducible apply kept_ite
    | with_reducible apply keptM_pass
    | with_reducible apply keptM_bad
    | with_reducible apply keptM_ite
    | with_reducible apply answer_kept

theorem acceptChange_kept {fp : Nat} {z : State} {s : State} {m : List Byte} {pos : Nat} {eff : Nat} {k : ChangeKind} (h : Kept fp z s)
    (hk : Sub 2097168 fp) :
    KeptM fp z (acceptChange s m pos eff k) := by
  unfold acceptChange
  repeat' first
    | with_reducible assumption
    | exact Sub.of hk rfl
    | with_reducible intro _
    | with_reducible apply kept_ite
    | with_reducible apply keptM_pass
    | with_reducible apply keptM_bad
    | with_reducible apply keptM_ite
    | with_reducible apply rejectMsg_kept
    | with_reducible apply answer_kept
    | with_reducible apply setAct_kept
    | with_reducible apply kept_foldl
    | with_reducible apply kept_getD
    | with_reducible apply keptF_of
    | with_reducible apply keptQ_snd
    | with_reducible apply keptP_snd
    | dsimp only
    | with_reducible apply keptP_ite
    | simp only [keptQ_mk]
    | with_reducible apply keptQ_ite
    | split

theorem stageMsg_kept {fp : Nat} {z : State} {s : State} {x : Staged} (h : Kept fp z s)
    (hk : Sub 2097152 fp) :
    Kept fp z (stageMsg s x) := by
  unfold stageMsg
  repeat' first
    | with_reducible assumption
    | exact Sub.of hk rfl
    | with_reducible intro _
    | with_reducible apply kept_ite
    | with_reducible apply setAct_kept

theorem msgDiscover_kept {fp : Nat} {z : State} {m : List Byte} {a1 : Nat} {s : State} (h : Kept fp z s)
    (hk : Sub 2097152 fp) :
    KeptM fp z (msgDiscover m a1 s) := by
  unfold msgDiscover
  repeat' first
    | with_reducible assumption
    | exact Sub.of hk rfl
    | with_reducible intro _
    | with_reducible apply kept_ite
    | with_reducible apply keptM_pass
    | with_reducible apply keptM_bad
    | with_reducible apply keptM_ite
    | with_reducible apply stageMsg_kept
    | with_reducible apply setAct_kept

theorem execDiscover_kept {fp : Nat} {z : State} {m : List Byte} {pos : Nat} {s : State} (h : Kept fp z s)
    (hk : Sub 2097168 fp) :
    KeptE fp z (execDiscover m pos s) := by
  unfold execDiscover
  repeat' first
    | with_reducible assumption
    | exact Sub.of hk rfl
    | with_reducible intro _
    | with_reducible apply kept_ite
    | with_reducible apply keptE_next
    | with_reducible apply treadle_kept
    | with_reducible apply msgDiscover_kept

theorem msgAssignTid_kept {fp : Nat} {z : State} {m : List Byte} {pos : Nat} {s : State} (h : Kept fp z s)
    (hk : Sub 2097168 fp) :
    KeptM fp z (msgAssignTid m pos s) := by
  unfold msgAssignTid
  repeat' first
    | with_reducible assumption
    | exact Sub.of hk rfl
    | with_reducible intro _
    | with_reducible apply kept_ite
    | with_reducible apply keptM_pass
    | with_reducible apply keptM_bad
    | with_reducible apply keptM_ite
    | with_reducible apply answer_kept
    | with_reducible apply stageMsg_kept

theorem execAssignTid_kept {fp : Nat} {z : State} {m : List Byte} {pos : Nat} {s : State} (h : Kept fp z s)
    (hk : Sub 2097168 fp) :
    KeptE fp z (execAssignTid m pos s) := by
  unfold execAssignTid
  repeat' first
    | with_reducible assumption
    | exact Sub.of hk rfl
    | with_reducible intro _
    | with_reducible apply kept_ite
    | with_reducible apply keptE_next
    | with_reducible apply treadle_kept
    | with_reducible apply msgAssignTid_kept

theorem msgChallenge_kept {fp : Nat} {z : State} {m : List Byte} {a1 : Nat} {s : State} (h : Kept fp z s)
    (hk : Sub 2097152 fp) :
    KeptM fp z (msgChallenge m a1 s) := by
  unfold msgChallenge
  repeat' first
    | with_reducible assumption
    | exact Sub.of hk rfl
    | with_reducible intro _
    | with_reducible apply kept_ite
    | with_reducible apply keptM_pass
    | with_reducible apply keptM_bad
    | with_reducible apply keptM_ite
    | with_reducible apply setAct_kept
    | with_reducible apply queueRecord_kept
    | with_reducible apply kept_foldl
    | with_reducible apply kept_getD
    | with_reducible apply keptF_of
    | with_reducible apply keptQ_snd
    | with_reducible apply keptP_snd
    | dsimp only
    | with_reducible apply keptP_ite
    | simp only [keptQ_mk]
    | with_reducible apply keptQ_ite
    | split

theorem execChallenge_kept {fp : Nat} {z : State} {m : List Byte} {pos : Nat} {s : State} (h : Kept fp z s)
    (hk : Sub 2097168 fp) :
    KeptE fp z (execChallenge m pos s) := by
  unfold execChallenge
  repeat' first
    | with_reducible assumption
    | exact Sub.of hk rfl
    | with_reducible intro _
    | with_reducible apply kept_ite
    | with_reducible apply keptE_next
    | with_reducible apply treadle_kept
    | with_reducible apply msgChallenge_kept

theorem agreeCheck_kept {fp : Nat} {z : State} {s : State} (h : Kept fp z s)
    (hk : Sub 2097168 fp) :
    Kept fp z (agreeCheck s) := by
  unfold agreeCheck
  repeat' first
    | with_reducible assumption
    | exact Sub.of hk rfl
    | with_reducible intro _
    | with_reducible apply kept_ite
    | with_reducible apply count_kept
    | with_reducible apply setAct_kept
    | with_reducible apply kept_foldl
    | with_reducible apply kept_getD
    | with_reducible apply keptF_of
    | with_reducible apply keptQ_snd
    | with_reducible apply keptP_snd
    | dsimp only
    | with_reducible apply keptP_ite
    | simp only [keptQ_mk]
    | with_reducible apply keptQ_ite
    | split

theorem msgKeyAgree_kept {fp : Nat} {z : State} {m : List Byte} {pos : Nat} {s : State} (h : Kept fp z s)
    (hk : Sub 2097168 fp) :
    KeptM fp z (msgKeyAgree m pos s) := by
  unfold msgKeyAgree
  repeat' first
    | with_reducible assumption
    | exact Sub.of hk rfl
    | with_reducible intro _
    | with_reducible apply kept_ite
    | with_reducible apply keptM_pass
    | with_reducible apply keptM_bad
    | with_reducible apply keptM_ite
    | with_reducible apply answer_kept
    | with_reducible apply agreeCheck_kept
    | with_reducible apply setAct_kept
    | with_reducible apply rejectMsg_kept
    | with_reducible apply kept_foldl
    | with_reducible apply kept_getD
    | with_reducible apply keptF_of
    | with_reducible apply keptQ_snd
    | with_reducible apply keptP_snd
    | dsimp only
    | with_reducible apply keptP_ite
    | simp only [keptQ_mk]
    | with_reducible apply keptQ_ite
    | split

theorem execKeyAgree_kept {fp : Nat} {z : State} {m : List Byte} {pos : Nat} {s : State} (h : Kept fp z s)
    (hk : Sub 2097168 fp) :
    KeptE fp z (execKeyAgree m pos s) := by
  unfold execKeyAgree
  repeat' first
    | with_reducible assumption
    | exact Sub.of hk rfl
    | with_reducible intro _
    | with_reducible apply kept_ite
    | with_reducible apply keptE_next
    | with_reducible apply treadle_kept
    | with_reducible apply msgKeyAgree_kept

theorem msgSetEqd_kept {fp : Nat} {z : State} {m : List Byte} {pos : Nat} {s : State} (h : Kept fp z s)
    (hk : Sub 2097168 fp) :
    KeptM fp z (msgSetEqd m pos s) := by
  unfold msgSetEqd
  repeat' first
    | with_reducible assumption
    | exact Sub.of hk rfl
    | with_reducible intro _
    | with_reducible apply kept_ite
    | with_reducible apply keptM_pass
    | with_reducible apply keptM_bad
    | with_reducible apply keptM_ite
    | with_reducible apply rejectMsg_kept
    | with_reducible apply acceptChange_kept

theorem execSetEqd_kept {fp : Nat} {z : State} {m : List Byte} {pos : Nat} {s : State} (h : Kept fp z s)
    (hk : Sub 2097168 fp) :
    KeptE fp z (execSetEqd m pos s) := by
  unfold execSetEqd
  repeat' first
    | with_reducible assumption
    | exact Sub.of hk rfl
    | with_reducible intro _
    | with_reducible apply kept_ite
    | with_reducible apply keptE_next
    | with_reducible apply treadle_kept
    | with_reducible apply msgSetEqd_kept

theorem msgAssignContainer_kept {fp : Nat} {z : State} {m : List Byte} {pos : Nat} {s : State} (h : Kept fp z s)
    (hk : Sub 2097168 fp) :
    KeptM fp z (msgAssignContainer m pos s) := by
  unfold msgAssignContainer
  repeat' first
    | with_reducible assumption
    | exact Sub.of hk rfl
    | with_reducible intro _
    | with_reducible apply kept_ite
    | with_reducible apply keptM_pass
    | with_reducible apply keptM_bad
    | with_reducible apply keptM_ite
    | with_reducible apply rejectMsg_kept
    | with_reducible apply answer_kept
    | with_reducible apply acceptChange_kept

theorem execAssignContainer_kept {fp : Nat} {z : State} {m : List Byte} {pos : Nat} {s : State} (h : Kept fp z s)
    (hk : Sub 2097168 fp) :
    KeptE fp z (execAssignContainer m pos s) := by
  unfold execAssignContainer
  repeat' first
    | with_reducible assumption
    | exact Sub.of hk rfl
    | with_reducible intro _
    | with_reducible apply kept_ite
    | with_reducible apply keptE_next
    | with_reducible apply treadle_kept
    | with_reducible apply msgAssignContainer_kept

theorem msgAssignStream_kept {fp : Nat} {z : State} {m : List Byte} {pos : Nat} {s : State} (h : Kept fp z s)
    (hk : Sub 2097168 fp) :
    KeptM fp z (msgAssignStream m pos s) := by
  unfold msgAssignStream
  repeat' first
    | with_reducible assumption
    | exact Sub.of hk rfl
    | with_reducible intro _
    | with_reducible apply kept_ite
    | with_reducible apply keptM_pass
    | with_reducible apply keptM_bad
    | with_reducible apply keptM_ite
    | with_reducible apply rejectMsg_kept
    | with_reducible apply acceptChange_kept
    | with_reducible apply answer_kept

theorem execAssignStream_kept {fp : Nat} {z : State} {m : List Byte} {pos : Nat} {s : State} (h : Kept fp z s)
    (hk : Sub 2097168 fp) :
    KeptE fp z (execAssignStream m pos s) := by
  unfold execAssignStream
  repeat' first
    | with_reducible assumption
    | exact Sub.of hk rfl
    | with_reducible intro _
    | with_reducible apply kept_ite
    | with_reducible apply keptE_next
    | with_reducible apply treadle_kept
    | with_reducible apply msgAssignStream_kept

theorem msgKeyLoad_kept {fp : Nat} {z : State} {m : List Byte} {pos : Nat} {s : State} (h : Kept fp z s)
    (hk : Sub 2097168 fp) :
    KeptM fp z (msgKeyLoad m pos s) := by
  unfold msgKeyLoad
  repeat' first
    | with_reducible assumption
    | exact Sub.of hk rfl
    | with_reducible intro _
    | with_reducible apply kept_ite
    | with_reducible apply keptM_pass
    | with_reducible apply keptM_bad
    | with_reducible apply keptM_ite
    | with_reducible apply rejectMsg_kept
    | with_reducible apply answer_kept
    | with_reducible apply stageMsg_kept

theorem execKeyLoad_kept {fp : Nat} {z : State} {m : List Byte} {pos : Nat} {s : State} (h : Kept fp z s)
    (hk : Sub 2097168 fp) :
    KeptE fp z (execKeyLoad m pos s) := by
  unfold execKeyLoad
  repeat' first
    | with_reducible assumption
    | exact Sub.of hk rfl
    | with_reducible intro _
    | with_reducible apply kept_ite
    | with_reducible apply keptE_next
    | with_reducible apply treadle_kept
    | with_reducible apply msgKeyLoad_kept

theorem msgKeySwitch_kept {fp : Nat} {z : State} {m : List Byte} {pos : Nat} {s : State} (h : Kept fp z s)
    (hk : Sub 2097168 fp) :
    KeptM fp z (msgKeySwitch m pos s) := by
  unfold msgKeySwitch
  repeat' first
    | with_reducible assumption
    | exact Sub.of hk rfl
    | with_reducible intro _
    | with_reducible apply kept_ite
    | with_reducible apply keptM_pass
    | with_reducible apply keptM_bad
    | with_reducible apply keptM_ite
    | with_reducible apply acceptChange_kept
    | with_reducible apply rejectMsg_kept

theorem execKeySwitch_kept {fp : Nat} {z : State} {m : List Byte} {pos : Nat} {s : State} (h : Kept fp z s)
    (hk : Sub 2097168 fp) :
    KeptE fp z (execKeySwitch m pos s) := by
  unfold execKeySwitch
  repeat' first
    | with_reducible assumption
    | exact Sub.of hk rfl
    | with_reducible intro _
    | with_reducible apply kept_ite
    | with_reducible apply keptE_next
    | with_reducible apply treadle_kept
    | with_reducible apply msgKeySwitch_kept

theorem msgTod_kept {fp : Nat} {z : State} {m : List Byte} {a1 : Nat} {s : State} (h : Kept fp z s)
    (hk : Sub 33554512 fp) :
    KeptM fp z (msgTod m a1 s) := by
  unfold msgTod
  repeat' first
    | with_reducible assumption
    | exact Sub.of hk rfl
    | with_reducible intro _
    | with_reducible apply kept_ite
    | with_reducible apply keptM_pass
    | with_reducible apply keptM_bad
    | with_reducible apply keptM_ite
    | with_reducible apply timeTod_kept

theorem execTod_kept {fp : Nat} {z : State} {m : List Byte} {pos : Nat} {s : State} (h : Kept fp z s)
    (hk : Sub 33554512 fp) :
    KeptE fp z (execTod m pos s) := by
  unfold execTod
  repeat' first
    | with_reducible assumption
    | exact Sub.of hk rfl
    | with_reducible intro _
    | with_reducible apply kept_ite
    | with_reducible apply keptE_next
    | with_reducible apply treadle_kept
    | with_reducible apply msgTod_kept

theorem msgDeactivate_kept {fp : Nat} {z : State} {a0 : List Byte} {a1 : Nat} {s : State} (h : Kept fp z s)
    (hk : Sub 2097152 fp) :
    KeptM fp z (msgDeactivate a0 a1 s) := by
  unfold msgDeactivate
  repeat' first
    | with_reducible assumption
    | exact Sub.of hk rfl
    | with_reducible intro _
    | with_reducible apply kept_ite
    | with_reducible apply keptM_pass
    | with_reducible apply keptM_bad
    | with_reducible apply keptM_ite
    | with_reducible apply setAct_kept

theorem execDeactivate_kept {fp : Nat} {z : State} {m : List Byte} {pos : Nat} {s : State} (h : Kept fp z s)
    (hk : Sub 2097168 fp) :
    KeptE fp z (execDeactivate m pos s) := by
  unfold execDeactivate
  repeat' first
    | with_reducible assumption
    | exact Sub.of hk rfl
    | with_reducible intro _
    | with_reducible apply kept_ite
    | with_reducible apply keptE_next
    | with_reducible apply treadle_kept
    | with_reducible apply msgDeactivate_kept

theorem msgStop_kept {fp : Nat} {z : State} {a0 : List Byte} {a1 : Nat} {s : State} (h : Kept fp z s)
    (hk : Sub 2097152 fp) :
    KeptM fp z (msgStop a0 a1 s) := by
  unfold msgStop
  repeat' first
    | with_reducible assumption
    | exact Sub.of hk rfl
    | with_reducible intro _
    | with_reducible apply kept_ite
    | with_reducible apply keptM_pass
    | with_reducible apply keptM_bad
    | with_reducible apply keptM_ite
    | with_reducible apply setAct_kept

theorem execStop_kept {fp : Nat} {z : State} {m : List Byte} {pos : Nat} {s : State} (h : Kept fp z s)
    (hk : Sub 2097168 fp) :
    KeptE fp z (execStop m pos s) := by
  unfold execStop
  repeat' first
    | with_reducible assumption
    | exact Sub.of hk rfl
    | with_reducible intro _
    | with_reducible apply kept_ite
    | with_reducible apply keptE_next
    | with_reducible apply treadle_kept
    | with_reducible apply msgStop_kept

theorem msgRelease_kept {fp : Nat} {z : State} {a0 : List Byte} {a1 : Nat} {s : State} (h : Kept fp z s)
    (hk : Sub 2097152 fp) :
    KeptM fp z (msgRelease a0 a1 s) := by
  unfold msgRelease
  repeat' first
    | with_reducible assumption
    | exact Sub.of hk rfl
    | with_reducible intro _
    | with_reducible apply kept_ite
    | with_reducible apply keptM_pass
    | with_reducible apply keptM_bad
    | with_reducible apply keptM_ite
    | with_reducible apply setAct_kept

theorem execRelease_kept {fp : Nat} {z : State} {m : List Byte} {pos : Nat} {s : State} (h : Kept fp z s)
    (hk : Sub 2097168 fp) :
    KeptE fp z (execRelease m pos s) := by
  unfold execRelease
  repeat' first
    | with_reducible assumption
    | exact Sub.of hk rfl
    | with_reducible intro _
    | with_reducible apply kept_ite
    | with_reducible apply keptE_next
    | with_reducible apply treadle_kept
    | with_reducible apply msgRelease_kept

theorem msgDozeAck_kept {fp : Nat} {z : State} {m : List Byte} {a1 : Nat} {s : State} (h : Kept fp z s)
    (hk : Sub 2097152 fp) :
    KeptM fp z (msgDozeAck m a1 s) := by
  unfold msgDozeAck
  repeat' first
    | with_reducible assumption
    | exact Sub.of hk rfl
    | with_reducible intro _
    | with_reducible apply kept_ite
    | with_reducible apply keptM_pass
    | with_reducible apply keptM_bad
    | with_reducible apply keptM_ite
    | with_reducible apply stageMsg_kept

theorem execDozeAck_kept {fp : Nat} {z : State} {m : List Byte} {pos : Nat} {s : State} (h : Kept fp z s)
    (hk : Sub 2097168 fp) :
    KeptE fp z (execDozeAck m pos s) := by
  unfold execDozeAck
  repeat' first
    | with_reducible assumption
    | exact Sub.of hk rfl
    | with_reducible intro _
    | with_reducible apply kept_ite
    | with_reducible apply keptE_next
    | with_reducible apply treadle_kept
    | with_reducible apply msgDozeAck_kept

theorem execAttestRecordReady_kept {fp : Nat} {z : State} {s : State} (h : Kept fp z s)
    (hk : Sub 2359376 fp) :
    KeptE fp z (execAttestRecordReady s) := by
  unfold execAttestRecordReady
  repeat' first
    | with_reducible assumption
    | exact Sub.of hk rfl
    | with_reducible intro _
    | with_reducible apply kept_ite
    | with_reducible apply keptE_next
    | with_reducible refine drawBytes_kept_of ?_ (by assumption) ?_
    | with_reducible apply drawBytes_kept
    | with_reducible apply drbgUse_kept
    | with_reducible apply setAct_kept
    | with_reducible apply idNext_kept
    | with_reducible apply agreeCheck_kept
    | with_reducible apply queueRecord_kept
    | with_reducible apply kept_foldl
    | with_reducible apply kept_getD
    | with_reducible apply keptF_of
    | with_reducible apply keptQ_snd
    | with_reducible apply keptP_snd
    | dsimp only
    | with_reducible apply keptP_ite
    | simp only [keptQ_mk]
    | with_reducible apply keptQ_ite
    | split

theorem deriveKeys_kept {fp : Nat} {z : State} {nonce : List Byte} {a1 : List Byte} {s : State} (h : Kept fp z s)
    (hk : Sub 64 fp) :
    KeptP fp z (deriveKeys nonce a1 s) := by
  unfold deriveKeys
  repeat' first
    | with_reducible assumption
    | exact Sub.of hk rfl
    | with_reducible intro _
    | with_reducible apply kept_ite
    | with_reducible apply keptP_ite
    | simp only [keptP_mk]
    | with_reducible refine maskKey_kept_of ?_ (by assumption) ?_
    | with_reducible apply maskKey_kept
    | with_reducible apply kept_foldl
    | with_reducible apply kept_getD
    | with_reducible apply keptF_of
    | with_reducible apply keptQ_snd
    | with_reducible apply keptP_snd

theorem deriveKeys_kept_of {fp : Nat} {z : State} {nonce : List Byte} {a1 : List Byte} {s : State} {x9} {t9 : State} (h : Kept fp z s) (e : deriveKeys nonce a1 s = (x9, t9)) (hk : Sub 64 fp) : Kept fp z t9 := keptP_of (deriveKeys_kept (z := z) h hk) e

theorem execKeyDerivationDone_kept {fp : Nat} {z : State} {s : State} (h : Kept fp z s)
    (hk : Sub 2359376 fp) :
    KeptE fp z (execKeyDerivationDone s) := by
  unfold execKeyDerivationDone
  repeat' first
    | with_reducible assumption
    | exact Sub.of hk rfl
    | with_reducible intro _
    | with_reducible apply kept_ite
    | with_reducible apply keptE_next
    | with_reducible refine deriveKeys_kept_of ?_ (by assumption) ?_
    | with_reducible apply deriveKeys_kept
    | with_reducible apply idNext_kept
    | with_reducible apply count_kept
    | with_reducible apply queueAck_kept
    | with_reducible apply setAct_kept
    | with_reducible apply kept_foldl
    | with_reducible apply kept_getD
    | with_reducible apply keptF_of
    | with_reducible apply keptQ_snd
    | with_reducible apply keptP_snd
    | dsimp only
    | with_reducible apply keptP_ite
    | simp only [keptQ_mk]
    | with_reducible apply keptQ_ite
    | split

theorem actHeldSet_kept {fp : Nat} {z : State} {s : State} (h : Kept fp z s)
    (hk : Sub 2097152 fp) :
    Kept fp z (actHeldSet s) := by
  unfold actHeldSet
  repeat' first
    | with_reducible assumption
    | exact Sub.of hk rfl
    | with_reducible intro _
    | with_reducible apply kept_ite
    | with_reducible apply setAct_kept

end Sys2Proof.Machine
end

