-- ==== Sys2Proof/Laws/KeptUnits.lean ====
section
/-! SUPPORT. Laws/KeptUnits.lean: what Laws/Kept.lean says, of the Skein cores, the ports, the host interface and Shuttle: one lemma an operation. -/

namespace Sys2Proof.Machine

open Sys2Proof

/-! ## Machine/Skein.lean -/

theorem setCore_kept {fp : Nat} {z : State} {s : State} {c : Nat} {k : SkCore} (h : Kept fp z s)
    (hk : Sub 16777216 fp) :
    Kept fp z (setCore s c k) := by
  unfold setCore
  repeat' first
    | with_reducible assumption
    | exact Sub.of hk rfl
    | with_reducible intro _
    | with_reducible apply kept_ite
    | with_reducible apply kept_foldl
    | with_reducible apply kept_getD
    | with_reducible apply keptF_of
    | with_reducible apply keptQ_snd
    | with_reducible apply keptP_snd
    | simp only [keptP_mk]
    | with_reducible apply keptP_ite
    | simp only [keptQ_mk]
    | with_reducible apply keptQ_ite
    | split
    | simp only [kept_mk]
    | with_reducible refine keptF_upd ?_ (updF hk ?_)
    | (unfold UpdF; and_intros <;> first | exact .inl rfl | exact .inr rfl | exact .inr id | exact .inr fun _ => rfl | exact .refl _ | exact fun h => ⟨h, rfl⟩ | rfl | exact Nat.le_max_left _ _)

theorem coreReturn_kept {fp : Nat} {z : State} {s : State} {c : Nat} (h : Kept fp z s)
    (hk : Sub 1032 fp) :
    Kept fp z (coreReturn s c) := by
  unfold coreReturn
  repeat' first
    | with_reducible assumption
    | exact Sub.of hk rfl
    | with_reducible intro _
    | with_reducible apply kept_ite
    | with_reducible apply reqReturn_kept

theorem haltCore_kept {fp : Nat} {z : State} {s : State} {c : Nat} (h : Kept fp z s)
    (hk : Sub 16778248 fp) :
    Kept fp z (haltCore s c) := by
  unfold haltCore
  repeat' first
    | with_reducible assumption
    | exact Sub.of hk rfl
    | with_reducible intro _
    | with_reducible apply kept_ite
    | with_reducible apply coreReturn_kept
    | with_reducible apply setCore_kept

theorem pendCore_kept {fp : Nat} {z : State} {s : State} {c : Nat} {k : Nat} (h : Kept fp z s)
    (hk : Sub 16777216 fp) :
    Kept fp z (pendCore s c k) := by
  unfold pendCore
  repeat' first
    | with_reducible assumption
    | exact Sub.of hk rfl
    | with_reducible intro _
    | with_reducible apply kept_ite
    | with_reducible apply setCore_kept

theorem pendCores_kept {fp : Nat} {z : State} {s : State} {lo : Nat} {hi : Nat} {k : Nat} (h : Kept fp z s)
    (hk : Sub 16777216 fp) :
    Kept fp z (pendCores s lo hi k) := by
  unfold pendCores
  repeat' first
    | with_reducible assumption
    | exact Sub.of hk rfl
    | with_reducible intro _
    | with_reducible apply kept_ite
    | with_reducible apply forUpTo_kept
    | with_reducible apply pendCore_kept

theorem startCore_kept {fp : Nat} {z : State} {s : State} {c : Nat} (h : Kept fp z s)
    (hk : Sub 16777216 fp) :
    Kept fp z (startCore s c) := by
  unfold startCore
  repeat' first
    | with_reducible assumption
    | exact Sub.of hk rfl
    | with_reducible intro _
    | with_reducible apply kept_ite
    | with_reducible apply setCore_kept

theorem resetCore_kept {fp : Nat} {z : State} {s : State} {c : Nat} (h : Kept fp z s)
    (hk : Sub 16778248 fp) :
    Kept fp z (resetCore s c) := by
  unfold resetCore
  repeat' first
    | with_reducible assumption
    | exact Sub.of hk rfl
    | with_reducible intro _
    | with_reducible apply kept_ite
    | with_reducible apply coreReturn_kept
    | with_reducible apply setCore_kept
    | with_reducible apply forUpTo_kept
    | with_reducible apply setReg_kept

theorem faultCore_kept {fp : Nat} {z : State} {s : State} {c : Nat} {cause : Nat} (h : Kept fp z s)
    (hk : Sub 16780312 fp) :
    Kept fp z (faultCore s c cause) := by
  unfold faultCore
  repeat' first
    | with_reducible assumption
    | exact Sub.of hk rfl
    | with_reducible intro _
    | with_reducible apply kept_ite
    | with_reducible apply coreReturn_kept
    | with_reducible apply setCore_kept
    | with_reducible apply setReg_kept
    | with_reducible apply raiseEv_kept

theorem tapSeen_kept {fp : Nat} {z : State} {s : State} {adr : Nat} (h : Kept fp z s)
    (hk : Sub 524288 fp) :
    Kept fp z (tapSeen s adr) := by
  unfold tapSeen
  repeat' first
    | with_reducible assumption
    | exact Sub.of hk rfl
    | with_reducible intro _
    | with_reducible apply kept_ite
    | with_reducible apply setWarp_kept

theorem tapWrite_kept {fp : Nat} {z : State} {s : State} {adr : Nat} {v : Nat} (h : Kept fp z s)
    (hk : Sub 526424 fp) :
    Kept fp z (tapWrite s adr v) := by
  unfold tapWrite
  repeat' first
    | with_reducible assumption
    | exact Sub.of hk rfl
    | with_reducible intro _
    | with_reducible apply kept_ite
    | with_reducible apply setWarp_kept
    | with_reducible apply progErr_kept
    | with_reducible refine draw_kept_of ?_ (by assumption) ?_
    | with_reducible apply draw_kept
    | with_reducible apply kept_foldl
    | with_reducible apply kept_getD
    | with_reducible apply keptF_of
    | with_reducible apply keptQ_snd
    | with_reducible apply keptP_snd

theorem specRead_kept {fp : Nat} {z : State} {s : State} {c : Nat} {n : Nat} {k : SkCore} (h : Kept fp z s)
    (hk : Sub 64 fp) :
    KeptOP fp z (specRead s c n k) := by
  unfold specRead
  repeat' first
    | with_reducible assumption
    | exact Sub.of hk rfl
    | with_reducible intro _
    | with_reducible apply kept_ite
    | exact keptOP_none
    | with_reducible apply keptOP_some
    | with_reducible apply keptOP_ite
    | with_reducible refine draw_kept_of ?_ (by assumption) ?_
    | with_reducible apply draw_kept
    | with_reducible apply kept_foldl
    | with_reducible apply kept_getD
    | with_reducible apply keptF_of
    | with_reducible apply keptQ_snd
    | with_reducible apply keptP_snd
    | dsimp only
    | with_reducible apply keptP_ite
    | simp only [keptQ_mk]
    | with_reducible apply keptQ_ite
    | split

theorem specRead_kept_of {fp : Nat} {z : State} {s : State} {c : Nat} {n : Nat} {k : SkCore} {x9} {t9 : State} (h : Kept fp z s) (e : specRead s c n k = some (x9, t9)) (hk : Sub 64 fp) : Kept fp z t9 := (specRead_kept (z := z) h hk) x9 t9 e

theorem hsig_kept {fp : Nat} {z : State} {s : State} (h : Kept fp z s)
    (hk : Sub 8344 fp) :
    Kept fp z (hsig s) := by
  unfold hsig
  repeat' first
    | with_reducible assumption
    | exact Sub.of hk rfl
    | with_reducible intro _
    | with_reducible apply kept_ite
    | with_reducible apply setBit_kept
    | with_reducible apply sendMsix_kept

theorem specWrite_kept {fp : Nat} {z : State} {s : State} {c : Nat} {n : Nat} {v : BitVec 16} {k : SkCore} (h : Kept fp z s)
    (hk : Sub 8344 fp) :
    KeptOP fp z (specWrite s c n v k) := by
  unfold specWrite
  repeat' first
    | with_reducible assumption
    | exact Sub.of hk rfl
    | with_reducible intro _
    | with_reducible apply kept_ite
    | exact keptOP_none
    | with_reducible apply keptOP_some
    | with_reducible apply keptOP_ite
    | with_reducible apply hsig_kept
    | with_reducible apply setReg_kept
    | with_reducible apply kept_foldl
    | with_reducible apply kept_getD
    | with_reducible apply keptF_of
    | with_reducible apply keptQ_snd
    | with_reducible apply keptP_snd
    | simp only [keptP_mk]
    | with_reducible apply keptP_ite
    | simp only [keptQ_mk]
    | with_reducible apply keptQ_ite
    | split

theorem specWrite_kept_of {fp : Nat} {z : State} {s : State} {c : Nat} {n : Nat} {v : BitVec 16} {k : SkCore} {x9} {t9 : State} (h : Kept fp z s) (e : specWrite s c n v k = some (x9, t9)) (hk : Sub 8344 fp) : Kept fp z t9 := (specWrite_kept (z := z) h hk) x9 t9 e

theorem accFree_kept {fp : Nat} {z : State} {s : State} {k : SkCore} {a : Nat} {v : ℤ} (h : Kept fp z s)
    (hk : Sub 64 fp) :
    KeptP fp z (accFree s k a v) := by
  unfold accFree
  repeat' first
    | with_reducible assumption
    | exact Sub.of hk rfl
    | with_reducible intro _
    | with_reducible apply kept_ite
    | with_reducible apply keptP_ite
    | simp only [keptP_mk]
    | with_reducible refine draw_kept_of ?_ (by assumption) ?_
    | with_reducible apply draw_kept
    | with_reducible apply kept_foldl
    | with_reducible apply kept_getD
    | with_reducible apply keptF_of
    | with_reducible apply keptQ_snd
    | with_reducible apply keptP_snd

theorem accFree_kept_of {fp : Nat} {z : State} {s : State} {k : SkCore} {a : Nat} {v : ℤ} {x9} {t9 : State} (h : Kept fp z s) (e : accFree s k a v = (x9, t9)) (hk : Sub 64 fp) : Kept fp z t9 := keptP_of (accFree_kept (z := z) h hk) e

theorem opMacx_kept {fp : Nat} {z : State} {s : State} {k : SkCore} {kk : Nat} {a : Nat} {p : Nat} {q : Nat} {ld : Bool} {r : Nat} {sr : Nat} {i : Nat} {mi : Nat} {j : Nat} {mj : Nat} (h : Kept fp z s)
    (hk : Sub 0 fp) :
    KeptR fp z (opMacx s k kk a p q ld r sr i mi j mj) := by
  unfold opMacx
  repeat' first
    | with_reducible assumption
    | exact Sub.of hk rfl
    | with_reducible intro _
    | with_reducible apply kept_ite
    | exact keptR_fault
    | exact keptR_stall
    | with_reducible apply keptR_ok
    | with_reducible apply keptR_ite
    | with_reducible apply kept_foldl
    | with_reducible apply kept_getD
    | with_reducible apply keptF_of
    | with_reducible apply keptQ_snd
    | with_reducible apply keptP_snd
    | dsimp only
    | with_reducible apply keptP_ite
    | simp only [keptQ_mk]
    | with_reducible apply keptQ_ite
    | split

theorem opMacx_kept_of {fp : Nat} {z : State} {s : State} {k : SkCore} {kk : Nat} {a : Nat} {p : Nat} {q : Nat} {ld : Bool} {r : Nat} {sr : Nat} {i : Nat} {mi : Nat} {j : Nat} {mj : Nat} {x9 y9} {t9 : State} (h : Kept fp z s) (e : opMacx s k kk a p q ld r sr i mi j mj = .ok x9 y9 t9) (hk : Sub 0 fp) : Kept fp z t9 := (opMacx_kept (z := z) h hk) x9 y9 t9 e

theorem opFtap_kept {fp : Nat} {z : State} {s : State} {k : SkCore} {sub : Bool} {a : Nat} {p : Nat} {q : Nat} {i : Nat} {mi : Nat} {j : Nat} {mj : Nat} (h : Kept fp z s)
    (hk : Sub 0 fp) :
    KeptR fp z (opFtap s k sub a p q i mi j mj) := by
  unfold opFtap
  repeat' first
    | with_reducible assumption
    | exact Sub.of hk rfl
    | with_reducible intro _
    | with_reducible apply kept_ite
    | exact keptR_fault
    | exact keptR_stall
    | with_reducible apply keptR_ok
    | with_reducible apply keptR_ite
    | with_reducible apply kept_foldl
    | with_reducible apply kept_getD
    | with_reducible apply keptF_of
    | with_reducible apply keptQ_snd
    | with_reducible apply keptP_snd
    | dsimp only
    | with_reducible apply keptP_ite
    | simp only [keptQ_mk]
    | with_reducible apply keptQ_ite
    | split

theorem opFtap_kept_of {fp : Nat} {z : State} {s : State} {k : SkCore} {sub : Bool} {a : Nat} {p : Nat} {q : Nat} {i : Nat} {mi : Nat} {j : Nat} {mj : Nat} {x9 y9} {t9 : State} (h : Kept fp z s) (e : opFtap s k sub a p q i mi j mj = .ok x9 y9 t9) (hk : Sub 0 fp) : Kept fp z t9 := (opFtap_kept (z := z) h hk) x9 y9 t9 e

theorem opAop_kept {fp : Nat} {z : State} {s : State} {k : SkCore} {op : Nat} {a : Nat} {r : Nat} {n : Nat} (h : Kept fp z s)
    (hk : Sub 64 fp) :
    KeptR fp z (opAop s k op a r n) := by
  unfold opAop
  repeat' first
    | with_reducible assumption
    | exact Sub.of hk rfl
    | with_reducible intro _
    | with_reducible apply kept_ite
    | exact keptR_fault
    | exact keptR_stall
    | with_reducible apply keptR_ok
    | with_reducible apply keptR_ite
    | with_reducible refine accFree_kept_of ?_ (by assumption) ?_
    | with_reducible apply accFree_kept
    | with_reducible apply kept_foldl
    | with_reducible apply kept_getD
    | with_reducible apply keptF_of
    | with_reducible apply keptQ_snd
    | with_reducible apply keptP_snd
    | dsimp only
    | with_reducible apply keptP_ite
    | simp only [keptQ_mk]
    | with_reducible apply keptQ_ite
    | split

theorem opAop_kept_of {fp : Nat} {z : State} {s : State} {k : SkCore} {op : Nat} {a : Nat} {r : Nat} {n : Nat} {x9 y9} {t9 : State} (h : Kept fp z s) (e : opAop s k op a r n = .ok x9 y9 t9) (hk : Sub 64 fp) : Kept fp z t9 := (opAop_kept (z := z) h hk) x9 y9 t9 e

theorem opDop_kept {fp : Nat} {z : State} {s : State} {k : SkCore} {op : Nat} {d : Nat} {r : Nat} {n : Nat} (h : Kept fp z s)
    (hk : Sub 64 fp) :
    KeptR fp z (opDop s k op d r n) := by
  unfold opDop
  repeat' first
    | with_reducible assumption
    | exact Sub.of hk rfl
    | with_reducible intro _
    | with_reducible apply kept_ite
    | exact keptR_fault
    | exact keptR_stall
    | with_reducible apply keptR_ok
    | with_reducible apply keptR_ite
    | with_reducible refine draw_kept_of ?_ (by assumption) ?_
    | with_reducible apply draw_kept
    | with_reducible apply kept_foldl
    | with_reducible apply kept_getD
    | with_reducible apply keptF_of
    | with_reducible apply keptQ_snd
    | with_reducible apply keptP_snd
    | dsimp only
    | with_reducible apply keptP_ite
    | simp only [keptQ_mk]
    | with_reducible apply keptQ_ite
    | split

theorem opDop_kept_of {fp : Nat} {z : State} {s : State} {k : SkCore} {op : Nat} {d : Nat} {r : Nat} {n : Nat} {x9 y9} {t9 : State} (h : Kept fp z s) (e : opDop s k op d r n = .ok x9 y9 t9) (hk : Sub 64 fp) : Kept fp z t9 := (opDop_kept (z := z) h hk) x9 y9 t9 e

theorem skOp_kept {fp : Nat} {z : State} {s : State} {c : Nat} {k : SkCore} {a3 : SkInstr} (h : Kept fp z s)
    (hk : Sub 534744 fp) :
    KeptR fp z (skOp s c k a3) := by
  unfold skOp
  repeat' first
    | with_reducible assumption
    | exact Sub.of hk rfl
    | with_reducible intro _
    | with_reducible apply kept_ite
    | exact keptR_fault
    | exact keptR_stall
    | with_reducible apply keptR_ok
    | with_reducible apply keptR_ite
    | with_reducible refine opMacx_kept_of ?_ (by assumption) ?_
    | with_reducible apply opMacx_kept
    | with_reducible refine opFtap_kept_of ?_ (by assumption) ?_
    | with_reducible apply opFtap_kept
    | with_reducible refine opAop_kept_of ?_ (by assumption) ?_
    | with_reducible apply opAop_kept
    | with_reducible refine opDop_kept_of ?_ (by assumption) ?_
    | with_reducible apply opDop_kept
    | with_reducible refine specRead_kept_of ?_ (by assumption) ?_
    | with_reducible apply specRead_kept
    | with_reducible refine specWrite_kept_of ?_ (by assumption) ?_
    | with_reducible apply specWrite_kept
    | with_reducible apply tapSeen_kept
    | with_reducible apply tapWrite_kept
    | with_reducible apply kept_foldl
    | with_reducible apply kept_getD
    | with_reducible apply keptF_of
    | with_reducible apply keptQ_snd
    | with_reducible apply keptP_snd
    | dsimp only
    | with_reducible apply keptP_ite
    | simp only [keptQ_mk]
    | with_reducible apply keptQ_ite
    | split

theorem skOp_kept_of {fp : Nat} {z : State} {s : State} {c : Nat} {k : SkCore} {a3 : SkInstr} {x9 y9} {t9 : State} (h : Kept fp z s) (e : skOp s c k a3 = .ok x9 y9 t9) (hk : Sub 534744 fp) : Kept fp z t9 := (skOp_kept (z := z) h hk) x9 y9 t9 e

theorem haltIfAsked_kept {fp : Nat} {z : State} {s : State} {c : Nat} (h : Kept fp z s)
    (hk : Sub 16778248 fp) :
    Kept fp z (haltIfAsked s c) := by
  unfold haltIfAsked
  repeat' first
    | with_reducible assumption
    | exact Sub.of hk rfl
    | with_reducible intro _
    | with_reducible apply kept_ite
    | with_reducible apply haltCore_kept

theorem skExecute_kept {fp : Nat} {z : State} {s : State} {c : Nat} {i : SkInstr} (h : Kept fp z s)
    (hk : Sub 17312984 fp) :
    Kept fp z (skExecute s c i) := by
  unfold skExecute
  repeat' first
    | with_reducible assumption
    | exact Sub.of hk rfl
    | with_reducible intro _
    | with_reducible apply kept_ite
    | with_reducible apply faultCore_kept
    | with_reducible refine skOp_kept_of ?_ (by assumption) ?_
    | with_reducible apply skOp_kept
    | with_reducible apply setCore_kept
    | with_reducible apply haltIfAsked_kept
    | with_reducible apply coreReturn_kept
    | with_reducible apply kept_foldl
    | with_reducible apply kept_getD
    | with_reducible apply keptF_of
    | with_reducible apply keptQ_snd
    | with_reducible apply keptP_snd
    | dsimp only
    | with_reducible apply keptP_ite
    | simp only [keptQ_mk]
    | with_reducible apply keptQ_ite
    | split

theorem skRow_kept {fp : Nat} {z : State} {sel : SkInstr → Bool} {c : Nat} {s : State} (h : Kept fp z s)
    (hk : Sub 17312984 fp) :
    Kept fp z (skRow sel c s) := by
  unfold skRow
  repeat' first
    | with_reducible assumption
    | exact Sub.of hk rfl
    | with_reducible intro _
    | with_reducible apply kept_ite
    | with_reducible apply skExecute_kept
    | with_reducible apply kept_foldl
    | with_reducible apply kept_getD
    | with_reducible apply keptF_of
    | with_reducible apply keptQ_snd
    | with_reducible apply keptP_snd
    | simp only [keptP_mk]
    | with_reducible apply keptP_ite
    | simp only [keptQ_mk]
    | with_reducible apply keptQ_ite
    | split

theorem execMpy_kept {fp : Nat} {z : State} {c : Nat} {s : State} (h : Kept fp z s)
    (hk : Sub 17312984 fp) :
    KeptE fp z (execMpy c s) := by
  unfold execMpy
  repeat' first
    | with_reducible assumption
    | exact Sub.of hk rfl
    | with_reducible intro _
    | with_reducible apply kept_ite
    | with_reducible apply keptE_next
    | with_reducible apply skRow_kept

theorem execMac_kept {fp : Nat} {z : State} {c : Nat} {s : State} (h : Kept fp z s)
    (hk : Sub 17312984 fp) :
    KeptE fp z (execMac c s) := by
  unfold execMac
  repeat' first
    | with_reducible assumption
    | exact Sub.of hk rfl
    | with_reducible intro _
    | with_reducible apply kept_ite
    | with_reducible apply keptE_next
    | with_reducible apply skRow_kept

theorem execMsu_kept {fp : Nat} {z : State} {c : Nat} {s : State} (h : Kept fp z s)
    (hk : Sub 17312984 fp) :
    KeptE fp z (execMsu c s) := by
  unfold execMsu
  repeat' first
    | with_reducible assumption
    | exact Sub.of hk rfl
    | with_reducible intro _
    | with_reducible apply kept_ite
    | with_reducible apply keptE_next
    | with_reducible apply skRow_kept

theorem execFtap_kept {fp : Nat} {z : State} {c : Nat} {s : State} (h : Kept fp z s)
    (hk : Sub 17312984 fp) :
    KeptE fp z (execFtap c s) := by
  unfold execFtap
  repeat' first
    | with_reducible assumption
    | exact Sub.of hk rfl
    | with_reducible intro _
    | with_reducible apply kept_ite
    | with_reducible apply keptE_next
    | with_reducible apply skRow_kept

theorem execClr_kept {fp : Nat} {z : State} {c : Nat} {s : State} (h : Kept fp z s)
    (hk : Sub 17312984 fp) :
    KeptE fp z (execClr c s) := by
  unfold execClr
  repeat' first
    | with_reducible assumption
    | exact Sub.of hk rfl
    | with_reducible intro _
    | with_reducible apply kept_ite
    | with_reducible apply keptE_next
    | with_reducible apply skRow_kept

theorem execNeg_kept {fp : Nat} {z : State} {c : Nat} {s : State} (h : Kept fp z s)
    (hk : Sub 17312984 fp) :
    KeptE fp z (execNeg c s) := by
  unfold execNeg
  repeat' first
    | with_reducible assumption
    | exact Sub.of hk rfl
    | with_reducible intro _
    | with_reducible apply kept_ite
    | with_reducible apply keptE_next
    | with_reducible apply skRow_kept

theorem execAbs_kept {fp : Nat} {z : State} {c : Nat} {s : State} (h : Kept fp z s)
    (hk : Sub 17312984 fp) :
    KeptE fp z (execAbs c s) := by
  unfold execAbs
  repeat' first
    | with_reducible assumption
    | exact Sub.of hk rfl
    | with_reducible intro _
    | with_reducible apply kept_ite
    | with_reducible apply keptE_next
    | with_reducible apply skRow_kept

theorem execAdda_kept {fp : Nat} {z : State} {c : Nat} {s : State} (h : Kept fp z s)
    (hk : Sub 17312984 fp) :
    KeptE fp z (execAdda c s) := by
  unfold execAdda
  repeat' first
    | with_reducible assumption
    | exact Sub.of hk rfl
    | with_reducible intro _
    | with_reducible apply kept_ite
    | with_reducible apply keptE_next
    | with_reducible apply skRow_kept

theorem execSuba_kept {fp : Nat} {z : State} {c : Nat} {s : State} (h : Kept fp z s)
    (hk : Sub 17312984 fp) :
    KeptE fp z (execSuba c s) := by
  unfold execSuba
  repeat' first
    | with_reducible assumption
    | exact Sub.of hk rfl
    | with_reducible intro _
    | with_reducible apply kept_ite
    | with_reducible apply keptE_next
    | with_reducible apply skRow_kept

theorem execShlAcc_kept {fp : Nat} {z : State} {c : Nat} {s : State} (h : Kept fp z s)
    (hk : Sub 17312984 fp) :
    KeptE fp z (execShlAcc c s) := by
  unfold execShlAcc
  repeat' first
    | with_reducible assumption
    | exact Sub.of hk rfl
    | with_reducible intro _
    | with_reducible apply kept_ite
    | with_reducible apply keptE_next
    | with_reducible apply skRow_kept

theorem execShrAcc_kept {fp : Nat} {z : State} {c : Nat} {s : State} (h : Kept fp z s)
    (hk : Sub 17312984 fp) :
    KeptE fp z (execShrAcc c s) := by
  unfold execShrAcc
  repeat' first
    | with_reducible assumption
    | exact Sub.of hk rfl
    | with_reducible intro _
    | with_reducible apply kept_ite
    | with_reducible apply keptE_next
    | with_reducible apply skRow_kept

theorem execMovr_kept {fp : Nat} {z : State} {c : Nat} {s : State} (h : Kept fp z s)
    (hk : Sub 17312984 fp) :
    KeptE fp z (execMovr c s) := by
  unfold execMovr
  repeat' first
    | with_reducible assumption
    | exact Sub.of hk rfl
    | with_reducible intro _
    | with_reducible apply kept_ite
    | with_reducible apply keptE_next
    | with_reducible apply skRow_kept

theorem execMovt_kept {fp : Nat} {z : State} {c : Nat} {s : State} (h : Kept fp z s)
    (hk : Sub 17312984 fp) :
    KeptE fp z (execMovt c s) := by
  unfold execMovt
  repeat' first
    | with_reducible assumption
    | exact Sub.of hk rfl
    | with_reducible intro _
    | with_reducible apply kept_ite
    | with_reducible apply keptE_next
    | with_reducible apply skRow_kept

theorem execLda_kept {fp : Nat} {z : State} {c : Nat} {s : State} (h : Kept fp z s)
    (hk : Sub 17312984 fp) :
    KeptE fp z (execLda c s) := by
  unfold execLda
  repeat' first
    | with_reducible assumption
    | exact Sub.of hk rfl
    | with_reducible intro _
    | with_reducible apply kept_ite
    | with_reducible apply keptE_next
    | with_reducible apply skRow_kept

theorem execSat32_kept {fp : Nat} {z : State} {c : Nat} {s : State} (h : Kept fp z s)
    (hk : Sub 17312984 fp) :
    KeptE fp z (execSat32 c s) := by
  unfold execSat32
  repeat' first
    | with_reducible assumption
    | exact Sub.of hk rfl
    | with_reducible intro _
    | with_reducible apply kept_ite
    | with_reducible apply keptE_next
    | with_reducible apply skRow_kept

theorem execMov_kept {fp : Nat} {z : State} {c : Nat} {s : State} (h : Kept fp z s)
    (hk : Sub 17312984 fp) :
    KeptE fp z (execMov c s) := by
  unfold execMov
  repeat' first
    | with_reducible assumption
    | exact Sub.of hk rfl
    | with_reducible intro _
    | with_reducible apply kept_ite
    | with_reducible apply keptE_next
    | with_reducible apply skRow_kept

theorem execAdd_kept {fp : Nat} {z : State} {c : Nat} {s : State} (h : Kept fp z s)
    (hk : Sub 17312984 fp) :
    KeptE fp z (execAdd c s) := by
  unfold execAdd
  repeat' first
    | with_reducible assumption
    | exact Sub.of hk rfl
    | with_reducible intro _
    | with_reducible apply kept_ite
    | with_reducible apply keptE_next
    | with_reducible apply skRow_kept

theorem execSub_kept {fp : Nat} {z : State} {c : Nat} {s : State} (h : Kept fp z s)
    (hk : Sub 17312984 fp) :
    KeptE fp z (execSub c s) := by
  unfold execSub
  repeat' first
    | with_reducible assumption
    | exact Sub.of hk rfl
    | with_reducible intro _
    | with_reducible apply kept_ite
    | with_reducible apply keptE_next
    | with_reducible apply skRow_kept

theorem execAnd_kept {fp : Nat} {z : State} {c : Nat} {s : State} (h : Kept fp z s)
    (hk : Sub 17312984 fp) :
    KeptE fp z (execAnd c s) := by
  unfold execAnd
  repeat' first
    | with_reducible assumption
    | exact Sub.of hk rfl
    | with_reducible intro _
    | with_reducible apply kept_ite
    | with_reducible apply keptE_next
    | with_reducible apply skRow_kept

theorem execOr_kept {fp : Nat} {z : State} {c : Nat} {s : State} (h : Kept fp z s)
    (hk : Sub 17312984 fp) :
    KeptE fp z (execOr c s) := by
  unfold execOr
  repeat' first
    | with_reducible assumption
    | exact Sub.of hk rfl
    | with_reducible intro _
    | with_reducible apply kept_ite
    | with_reducible apply keptE_next
    | with_reducible apply skRow_kept

theorem execXor_kept {fp : Nat} {z : State} {c : Nat} {s : State} (h : Kept fp z s)
    (hk : Sub 17312984 fp) :
    KeptE fp z (execXor c s) := by
  unfold execXor
  repeat' first
    | with_reducible assumption
    | exact Sub.of hk rfl
    | with_reducible intro _
    | with_reducible apply kept_ite
    | with_reducible apply keptE_next
    | with_reducible apply skRow_kept

theorem execShlData_kept {fp : Nat} {z : State} {c : Nat} {s : State} (h : Kept fp z s)
    (hk : Sub 17312984 fp) :
    KeptE fp z (execShlData c s) := by
  unfold execShlData
  repeat' first
    | with_reducible assumption
    | exact Sub.of hk rfl
    | with_reducible intro _
    | with_reducible apply kept_ite
    | with_reducible apply keptE_next
    | with_reducible apply skRow_kept

theorem execShrData_kept {fp : Nat} {z : State} {c : Nat} {s : State} (h : Kept fp z s)
    (hk : Sub 17312984 fp) :
    KeptE fp z (execShrData c s) := by
  unfold execShrData
  repeat' first
    | with_reducible assumption
    | exact Sub.of hk rfl
    | with_reducible intro _
    | with_reducible apply kept_ite
    | with_reducible apply keptE_next
    | with_reducible apply skRow_kept

theorem execCmp_kept {fp : Nat} {z : State} {c : Nat} {s : State} (h : Kept fp z s)
    (hk : Sub 17312984 fp) :
    KeptE fp z (execCmp c s) := by
  unfold execCmp
  repeat' first
    | with_reducible assumption
    | exact Sub.of hk rfl
    | with_reducible intro _
    | with_reducible apply kept_ite
    | with_reducible apply keptE_next
    | with_reducible apply skRow_kept

theorem execSkeinNop_kept {fp : Nat} {z : State} {c : Nat} {s : State} (h : Kept fp z s)
    (hk : Sub 17312984 fp) :
    KeptE fp z (execSkeinNop c s) := by
  unfold execSkeinNop
  repeat' first
    | with_reducible assumption
    | exact Sub.of hk rfl
    | with_reducible intro _
    | with_reducible apply kept_ite
    | with_reducible apply keptE_next
    | with_reducible apply skRow_kept

theorem execLd_kept {fp : Nat} {z : State} {c : Nat} {s : State} (h : Kept fp z s)
    (hk : Sub 17312984 fp) :
    KeptE fp z (execLd c s) := by
  unfold execLd
  repeat' first
    | with_reducible assumption
    | exact Sub.of hk rfl
    | with_reducible intro _
    | with_reducible apply kept_ite
    | with_reducible apply keptE_next
    | with_reducible apply skRow_kept

theorem execSt_kept {fp : Nat} {z : State} {c : Nat} {s : State} (h : Kept fp z s)
    (hk : Sub 17312984 fp) :
    KeptE fp z (execSt c s) := by
  unfold execSt
  repeat' first
    | with_reducible assumption
    | exact Sub.of hk rfl
    | with_reducible intro _
    | with_reducible apply kept_ite
    | with_reducible apply keptE_next
    | with_reducible apply skRow_kept

theorem execLdi_kept {fp : Nat} {z : State} {c : Nat} {s : State} (h : Kept fp z s)
    (hk : Sub 17312984 fp) :
    KeptE fp z (execLdi c s) := by
  unfold execLdi
  repeat' first
    | with_reducible assumption
    | exact Sub.of hk rfl
    | with_reducible intro _
    | with_reducible apply kept_ite
    | with_reducible apply keptE_next
    | with_reducible apply skRow_kept

theorem execAddx_kept {fp : Nat} {z : State} {c : Nat} {s : State} (h : Kept fp z s)
    (hk : Sub 17312984 fp) :
    KeptE fp z (execAddx c s) := by
  unfold execAddx
  repeat' first
    | with_reducible assumption
    | exact Sub.of hk rfl
    | with_reducible intro _
    | with_reducible apply kept_ite
    | with_reducible apply keptE_next
    | with_reducible apply skRow_kept

theorem execLdx_kept {fp : Nat} {z : State} {c : Nat} {s : State} (h : Kept fp z s)
    (hk : Sub 17312984 fp) :
    KeptE fp z (execLdx c s) := by
  unfold execLdx
  repeat' first
    | with_reducible assumption
    | exact Sub.of hk rfl
    | with_reducible intro _
    | with_reducible apply kept_ite
    | with_reducible apply keptE_next
    | with_reducible apply skRow_kept

theorem execLdm_kept {fp : Nat} {z : State} {c : Nat} {s : State} (h : Kept fp z s)
    (hk : Sub 17312984 fp) :
    KeptE fp z (execLdm c s) := by
  unfold execLdm
  repeat' first
    | with_reducible assumption
    | exact Sub.of hk rfl
    | with_reducible intro _
    | with_reducible apply kept_ite
    | with_reducible apply keptE_next
    | with_reducible apply skRow_kept

theorem execMvs_kept {fp : Nat} {z : State} {c : Nat} {s : State} (h : Kept fp z s)
    (hk : Sub 17312984 fp) :
    KeptE fp z (execMvs c s) := by
  unfold execMvs
  repeat' first
    | with_reducible assumption
    | exact Sub.of hk rfl
    | with_reducible intro _
    | with_reducible apply kept_ite
    | with_reducible apply keptE_next
    | with_reducible apply skRow_kept

theorem execMsv_kept {fp : Nat} {z : State} {c : Nat} {s : State} (h : Kept fp z s)
    (hk : Sub 17312984 fp) :
    KeptE fp z (execMsv c s) := by
  unfold execMsv
  repeat' first
    | with_reducible assumption
    | exact Sub.of hk rfl
    | with_reducible intro _
    | with_reducible apply kept_ite
    | with_reducible apply keptE_next
    | with_reducible apply skRow_kept

theorem execTrd_kept {fp : Nat} {z : State} {c : Nat} {s : State} (h : Kept fp z s)
    (hk : Sub 17312984 fp) :
    KeptE fp z (execTrd c s) := by
  unfold execTrd
  repeat' first
    | with_reducible assumption
    | exact Sub.of hk rfl
    | with_reducible intro _
    | with_reducible apply kept_ite
    | with_reducible apply keptE_next
    | with_reducible apply skRow_kept

theorem execTwr_kept {fp : Nat} {z : State} {c : Nat} {s : State} (h : Kept fp z s)
    (hk : Sub 17312984 fp) :
    KeptE fp z (execTwr c s) := by
  unfold execTwr
  repeat' first
    | with_reducible assumption
    | exact Sub.of hk rfl
    | with_reducible intro _
    | with_reducible apply kept_ite
    | with_reducible apply keptE_next
    | with_reducible apply skRow_kept

theorem execBr_kept {fp : Nat} {z : State} {c : Nat} {s : State} (h : Kept fp z s)
    (hk : Sub 17312984 fp) :
    KeptE fp z (execBr c s) := by
  unfold execBr
  repeat' first
    | with_reducible assumption
    | exact Sub.of hk rfl
    | with_reducible intro _
    | with_reducible apply kept_ite
    | with_reducible apply keptE_next
    | with_reducible apply skRow_kept

theorem execCall_kept {fp : Nat} {z : State} {c : Nat} {s : State} (h : Kept fp z s)
    (hk : Sub 17312984 fp) :
    KeptE fp z (execCall c s) := by
  unfold execCall
  repeat' first
    | with_reducible assumption
    | exact Sub.of hk rfl
    | with_reducible intro _
    | with_reducible apply kept_ite
    | with_reducible apply keptE_next
    | with_reducible apply skRow_kept

theorem execRet_kept {fp : Nat} {z : State} {c : Nat} {s : State} (h : Kept fp z s)
    (hk : Sub 17312984 fp) :
    KeptE fp z (execRet c s) := by
  unfold execRet
  repeat' first
    | with_reducible assumption
    | exact Sub.of hk rfl
    | with_reducible intro _
    | with_reducible apply kept_ite
    | with_reducible apply keptE_next
    | with_reducible apply skRow_kept

theorem execRti_kept {fp : Nat} {z : State} {c : Nat} {s : State} (h : Kept fp z s)
    (hk : Sub 17312984 fp) :
    KeptE fp z (execRti c s) := by
  unfold execRti
  repeat' first
    | with_reducible assumption
    | exact Sub.of hk rfl
    | with_reducible intro _
    | with_reducible apply kept_ite
    | with_reducible apply keptE_next
    | with_reducible apply skRow_kept

theorem execRep_kept {fp : Nat} {z : State} {c : Nat} {s : State} (h : Kept fp z s)
    (hk : Sub 17312984 fp) :
    KeptE fp z (execRep c s) := by
  unfold execRep
  repeat' first
    | with_reducible assumption
    | exact Sub.of hk rfl
    | with_reducible intro _
    | with_reducible apply kept_ite
    | with_reducible apply keptE_next
    | with_reducible apply skRow_kept

theorem execWait_kept {fp : Nat} {z : State} {c : Nat} {s : State} (h : Kept fp z s)
    (hk : Sub 17312984 fp) :
    KeptE fp z (execWait c s) := by
  unfold execWait
  repeat' first
    | with_reducible assumption
    | exact Sub.of hk rfl
    | with_reducible intro _
    | with_reducible apply kept_ite
    | with_reducible apply keptE_next
    | with_reducible apply skRow_kept

theorem execHalt_kept {fp : Nat} {z : State} {c : Nat} {s : State} (h : Kept fp z s)
    (hk : Sub 17312984 fp) :
    KeptE fp z (execHalt c s) := by
  unfold execHalt
  repeat' first
    | with_reducible assumption
    | exact Sub.of hk rfl
    | with_reducible intro _
    | with_reducible apply kept_ite
    | with_reducible apply keptE_next
    | with_reducible apply skRow_kept

theorem execReservedOpcode_kept {fp : Nat} {z : State} {c : Nat} {s : State} (h : Kept fp z s)
    (hk : Sub 16780312 fp) :
    KeptE fp z (execReservedOpcode c s) := by
  unfold execReservedOpcode
  repeat' first
    | with_reducible assumption
    | exact Sub.of hk rfl
    | with_reducible intro _
    | with_reducible apply kept_ite
    | with_reducible apply keptE_next
    | with_reducible apply faultCore_kept

theorem execInterruptTaken_kept {fp : Nat} {z : State} {c : Nat} {k : Nat} {s : State} (h : Kept fp z s)
    (hk : Sub 16777216 fp) :
    KeptE fp z (execInterruptTaken c k s) := by
  unfold execInterruptTaken
  repeat' first
    | with_reducible assumption
    | exact Sub.of hk rfl
    | with_reducible intro _
    | with_reducible apply kept_ite
    | with_reducible apply keptE_next
    | with_reducible apply setCore_kept

theorem execShaperRefillTick_kept {fp : Nat} {z : State} {k : Nat} {s : State} (h : Kept fp z s)
    (hk : Sub 16908288 fp) :
    KeptE fp z (execShaperRefillTick k s) := by
  unfold execShaperRefillTick
  repeat' first
    | with_reducible assumption
    | exact Sub.of hk rfl
    | with_reducible intro _
    | with_reducible apply kept_ite
    | with_reducible apply keptE_next
    | with_reducible apply pendCores_kept
    | with_reducible apply shaperTick_kept

theorem execEqSwap_kept {fp : Nat} {z : State} {s : State} (h : Kept fp z s)
    (hk : Sub 17303640 fp) :
    KeptE fp z (execEqSwap s) := by
  unfold execEqSwap
  repeat' first
    | with_reducible assumption
    | exact Sub.of hk rfl
    | with_reducible intro _
    | with_reducible apply kept_ite
    | with_reducible apply keptE_next
    | with_reducible apply pendCores_kept
    | with_reducible apply eqSwap_kept

theorem execCorrWindowEnd_kept {fp : Nat} {z : State} {corr : List ℤ} {epow : Nat} {s : State} (h : Kept fp z s)
    (hk : Sub 17301504 fp) :
    KeptE fp z (execCorrWindowEnd corr epow s) := by
  unfold execCorrWindowEnd
  repeat' first
    | with_reducible assumption
    | exact Sub.of hk rfl
    | with_reducible intro _
    | with_reducible apply kept_ite
    | with_reducible apply keptE_next
    | with_reducible apply pendCores_kept
    | with_reducible apply latchWindow_kept

theorem skeinCommit_kept {fp : Nat} {z : State} {old : Nat → Nat} {s : State} (h : Kept fp z s)
    (hk : Sub 16778248 fp) :
    Kept fp z (skeinCommit old s) := by
  unfold skeinCommit
  repeat' first
    | with_reducible assumption
    | exact Sub.of hk rfl
    | with_reducible intro _
    | with_reducible apply kept_ite
    | with_reducible apply forUpTo_kept
    | with_reducible apply setCore_kept
    | with_reducible apply startCore_kept
    | with_reducible apply haltIfAsked_kept
    | with_reducible apply coreReturn_kept
    | with_reducible apply reqRaise_kept
    | with_reducible apply pendCore_kept

theorem bootFirmware_kept {fp : Nat} {z : State} {s : State} (h : Kept fp z s)
    (hk : Sub 16777216 fp) :
    Kept fp z (bootFirmware s) := by
  unfold bootFirmware
  repeat' first
    | with_reducible assumption
    | exact Sub.of hk rfl
    | with_reducible intro _
    | with_reducible apply kept_ite
    | with_reducible apply forUpTo_kept
    | with_reducible apply setCore_kept

theorem execBootImageChoice_kept {fp : Nat} {z : State} {s : State} (h : Kept fp z s)
    (hk : Sub 17039424 fp) :
    KeptE fp z (execBootImageChoice s) := by
  unfold execBootImageChoice
  repeat' first
    | with_reducible assumption
    | exact Sub.of hk rfl
    | with_reducible intro _
    | with_reducible apply kept_ite
    | with_reducible apply keptE_next
    | with_reducible apply bootFirmware_kept
    | with_reducible apply bootChoice_kept

theorem stageFirmware_kept {fp : Nat} {z : State} {img : List Byte} {s : State} (h : Kept fp z s)
    (hk : Sub 16777216 fp) :
    Kept fp z (stageFirmware img s) := by
  unfold stageFirmware
  repeat' first
    | with_reducible assumption
    | exact Sub.of hk rfl
    | with_reducible intro _
    | with_reducible apply kept_ite
    | with_reducible apply forUpTo_kept
    | with_reducible apply setCore_kept

theorem swapFirmware_kept {fp : Nat} {z : State} {s : State} (h : Kept fp z s)
    (hk : Sub 16777216 fp) :
    Kept fp z (swapFirmware s) := by
  unfold swapFirmware
  repeat' first
    | with_reducible assumption
    | exact Sub.of hk rfl
    | with_reducible intro _
    | with_reducible apply kept_ite
    | with_reducible apply forUpTo_kept
    | with_reducible apply setCore_kept

theorem execFirmwareBankSwitch_kept {fp : Nat} {z : State} {c : Nat} {s : State} (h : Kept fp z s)
    (hk : Sub 16777216 fp) :
    KeptE fp z (execFirmwareBankSwitch c s) := by
  unfold execFirmwareBankSwitch
  repeat' first
    | with_reducible assumption
    | exact Sub.of hk rfl
    | with_reducible intro _
    | with_reducible apply kept_ite
    | with_reducible apply keptE_next
    | with_reducible apply setCore_kept

theorem zeroCore3_kept {fp : Nat} {z : State} {s : State} (h : Kept fp z s)
    (hk : Sub 16777216 fp) :
    Kept fp z (zeroCore3 s) := by
  unfold zeroCore3
  repeat' first
    | with_reducible assumption
    | exact Sub.of hk rfl
    | with_reducible intro _
    | with_reducible apply kept_ite
    | with_reducible apply setCore_kept

theorem cmdSkeinLoad_kept {fp : Nat} {z : State} {d : CmdDesc} {s : State} (h : Kept fp z s)
    (hk : Sub 17039360 fp) :
    KeptC fp z (cmdSkeinLoad d s) := by
  unfold cmdSkeinLoad
  repeat' first
    | with_reducible assumption
    | exact Sub.of hk rfl
    | with_reducible intro _
    | with_reducible apply kept_ite
    | with_reducible apply keptC_fin
    | with_reducible apply keptC_work
    | with_reducible apply keptC_ite
    | with_reducible apply zeroCore3_kept
    | with_reducible apply setCore_kept
    | with_reducible apply kept_foldl
    | with_reducible apply kept_getD
    | with_reducible apply keptF_of
    | with_reducible apply keptQ_snd
    | with_reducible apply keptP_snd
    | dsimp only
    | with_reducible apply keptP_ite
    | simp only [keptQ_mk]
    | with_reducible apply keptQ_ite
    | split
    | simp only [kept_mk]
    | with_reducible refine keptF_upd ?_ (updF hk ?_)
    | (unfold UpdF; and_intros <;> first | exact .inl rfl | exact .inr rfl | exact .inr id | exact .inr fun _ => rfl | exact .refl _ | exact fun h => ⟨h, rfl⟩ | rfl | exact Nat.le_max_left _ _)

theorem cmdSkeinUnload_kept {fp : Nat} {z : State} {a0 : CmdDesc} {s : State} (h : Kept fp z s)
    (hk : Sub 17040392 fp) :
    KeptC fp z (cmdSkeinUnload a0 s) := by
  unfold cmdSkeinUnload
  repeat' first
    | with_reducible assumption
    | exact Sub.of hk rfl
    | with_reducible intro _
    | with_reducible apply kept_ite
    | with_reducible apply keptC_fin
    | with_reducible apply keptC_work
    | with_reducible apply keptC_ite
    | with_reducible apply needDomain_kept
    | with_reducible apply zeroCore3_kept
    | with_reducible apply haltCore_kept
    | with_reducible apply kept_foldl
    | with_reducible apply kept_getD
    | with_reducible apply keptF_of
    | with_reducible apply keptQ_snd
    | with_reducible apply keptP_snd
    | dsimp only
    | with_reducible apply keptP_ite
    | simp only [keptQ_mk]
    | with_reducible apply keptQ_ite
    | split
    | simp only [kept_mk]
    | with_reducible refine keptF_upd ?_ (updF hk ?_)
    | (unfold UpdF; and_intros <;> first | exact .inl rfl | exact .inr rfl | exact .inr id | exact .inr fun _ => rfl | exact .refl _ | exact fun h => ⟨h, rfl⟩ | rfl | exact Nat.le_max_left _ _)

theorem execSkeinLoad_kept {fp : Nat} {z : State} {d : CmdDesc} {s : State} (h : Kept fp z s)
    (hk : Sub 17050072 fp) :
    KeptE fp z (execSkeinLoad d s) := by
  unfold execSkeinLoad
  repeat' first
    | with_reducible assumption
    | exact Sub.of hk rfl
    | with_reducible intro _
    | with_reducible apply kept_ite
    | with_reducible apply keptE_next
    | with_reducible apply cmdRow_kept
    | with_reducible apply cmdSkeinLoad_kept

theorem execSkeinUnload_kept {fp : Nat} {z : State} {d : CmdDesc} {s : State} (h : Kept fp z s)
    (hk : Sub 17051096 fp) :
    KeptE fp z (execSkeinUnload d s) := by
  unfold execSkeinUnload
  repeat' first
    | with_reducible assumption
    | exact Sub.of hk rfl
    | with_reducible intro _
    | with_reducible apply kept_ite
    | with_reducible apply keptE_next
    | with_reducible apply cmdRow_kept
    | with_reducible apply cmdSkeinUnload_kept

theorem skeinWindow_kept {fp : Nat} {z : State} {v : Option Nat} {s : State} (h : Kept fp z s)
    (hk : Sub 16777224 fp) :
    KeptP fp z (skeinWindow v s) := by
  unfold skeinWindow
  repeat' first
    | with_reducible assumption
    | exact Sub.of hk rfl
    | with_reducible intro _
    | with_reducible apply kept_ite
    | with_reducible apply keptP_ite
    | simp only [keptP_mk]
    | with_reducible apply setFld_kept
    | with_reducible apply setBit_kept
    | with_reducible apply setCore_kept
    | with_reducible apply kept_foldl
    | with_reducible apply kept_getD
    | with_reducible apply keptF_of
    | with_reducible apply keptQ_snd
    | with_reducible apply keptP_snd
    | simp only [keptP_mk]
    | with_reducible apply keptP_ite
    | simp only [keptQ_mk]
    | with_reducible apply keptQ_ite
    | split

theorem skeinWindow_kept_of {fp : Nat} {z : State} {v : Option Nat} {s : State} {x9} {t9 : State} (h : Kept fp z s) (e : skeinWindow v s = (x9, t9)) (hk : Sub 16777224 fp) : Kept fp z t9 := keptP_of (skeinWindow_kept (z := z) h hk) e

theorem mboxDoorbell_kept {fp : Nat} {z : State} {s : State} (h : Kept fp z s)
    (hk : Sub 16777216 fp) :
    Kept fp z (mboxDoorbell s) := by
  unfold mboxDoorbell
  repeat' first
    | with_reducible assumption
    | exact Sub.of hk rfl
    | with_reducible intro _
    | with_reducible apply kept_ite
    | with_reducible apply pendCore_kept

theorem skeinLose_kept {fp : Nat} {z : State} {s : State} {c : Nat} (h : Kept fp z s)
    (hk : Sub 17039360 fp) :
    Kept fp z (skeinLose s c) := by
  unfold skeinLose
  repeat' first
    | with_reducible assumption
    | exact Sub.of hk rfl
    | with_reducible intro _
    | with_reducible apply kept_ite
    | with_reducible apply setCore_kept
    | with_reducible apply kept_foldl
    | with_reducible apply kept_getD
    | with_reducible apply keptF_of
    | with_reducible apply keptQ_snd
    | with_reducible apply keptP_snd
    | dsimp only
    | with_reducible apply keptP_ite
    | simp only [keptQ_mk]
    | with_reducible apply keptQ_ite
    | split
    | simp only [kept_mk]
    | with_reducible refine keptF_upd ?_ (updF hk ?_)
    | (unfold UpdF; and_intros <;> first | exact .inl rfl | exact .inr rfl | exact .inr id | exact .inr fun _ => rfl | exact .refl _ | exact fun h => ⟨h, rfl⟩ | rfl | exact Nat.le_max_left _ _)

theorem skeinRecover_kept {fp : Nat} {z : State} {s : State} {c : Nat} (h : Kept fp z s)
    (hk : Sub 16778248 fp) :
    Kept fp z (skeinRecover s c) := by
  unfold skeinRecover
  repeat' first
    | with_reducible assumption
    | exact Sub.of hk rfl
    | with_reducible intro _
    | with_reducible apply kept_ite
    | with_reducible apply setCore_kept
    | with_reducible apply resetCore_kept

theorem skeinResume_kept {fp : Nat} {z : State} {s : State} {c : Nat} (h : Kept fp z s)
    (hk : Sub 16777216 fp) :
    Kept fp z (skeinResume s c) := by
  unfold skeinResume
  repeat' first
    | with_reducible assumption
    | exact Sub.of hk rfl
    | with_reducible intro _
    | with_reducible apply kept_ite
    | with_reducible apply startCore_kept

/-! ## Machine/Gate.lean -/

theorem setGate_kept {fp : Nat} {z : State} {s : State} {p : Nat} {g : Gate} (h : Kept fp z s)
    (hk : Sub 131080 fp) :
    Kept fp z (setGate s p g) := by
  unfold setGate
  repeat' first
    | with_reducible assumption
    | exact Sub.of hk rfl
    | with_reducible intro _
    | with_reducible apply kept_ite
    | with_reducible apply setReed_kept
    | with_reducible apply setReg_kept

theorem gateFollow_kept {fp : Nat} {z : State} {s : State} {p : Nat} (h : Kept fp z s)
    (hk : Sub 131080 fp) :
    Kept fp z (gateFollow s p) := by
  unfold gateFollow
  repeat' first
    | with_reducible assumption
    | exact Sub.of hk rfl
    | with_reducible intro _
    | with_reducible apply kept_ite
    | with_reducible apply setGate_kept

theorem execGateEntryChange_kept {fp : Nat} {z : State} {p : Nat} {s : State} (h : Kept fp z s)
    (hk : Sub 131080 fp) :
    KeptE fp z (execGateEntryChange p s) := by
  unfold execGateEntryChange
  repeat' first
    | with_reducible assumption
    | exact Sub.of hk rfl
    | with_reducible intro _
    | with_reducible apply kept_ite
    | with_reducible apply keptE_next
    | with_reducible apply gateFollow_kept

theorem gatesFollow_kept {fp : Nat} {z : State} {s : State} (h : Kept fp z s)
    (hk : Sub 131080 fp) :
    Kept fp z (gatesFollow s) := by
  unfold gatesFollow
  repeat' first
    | with_reducible assumption
    | exact Sub.of hk rfl
    | with_reducible intro _
    | with_reducible apply kept_ite
    | with_reducible apply forUpTo_kept
    | with_reducible apply gateFollow_kept

theorem gateArm_kept {fp : Nat} {z : State} {s : State} (h : Kept fp z s)
    (hk : Sub 131080 fp) :
    Kept fp z (gateArm s) := by
  unfold gateArm
  repeat' first
    | with_reducible assumption
    | exact Sub.of hk rfl
    | with_reducible intro _
    | with_reducible apply kept_ite
    | with_reducible apply setGate_kept
    | with_reducible apply kept_foldl
    | with_reducible apply kept_getD
    | with_reducible apply keptF_of
    | with_reducible apply keptQ_snd
    | with_reducible apply keptP_snd
    | dsimp only
    | with_reducible apply keptP_ite
    | simp only [keptQ_mk]
    | with_reducible apply keptQ_ite
    | split

theorem execGateListStart_kept {fp : Nat} {z : State} {p : Nat} {s : State} (h : Kept fp z s)
    (hk : Sub 131080 fp) :
    KeptE fp z (execGateListStart p s) := by
  unfold execGateListStart
  repeat' first
    | with_reducible assumption
    | exact Sub.of hk rfl
    | with_reducible intro _
    | with_reducible apply kept_ite
    | with_reducible apply keptE_next
    | with_reducible apply setGate_kept
    | with_reducible apply setReed_kept
    | with_reducible apply kept_foldl
    | with_reducible apply kept_getD
    | with_reducible apply keptF_of
    | with_reducible apply keptQ_snd
    | with_reducible apply keptP_snd
    | dsimp only
    | with_reducible apply keptP_ite
    | simp only [keptQ_mk]
    | with_reducible apply keptQ_ite
    | split

theorem cmdGateLoad_kept {fp : Nat} {z : State} {d : CmdDesc} {s : State} (h : Kept fp z s)
    (hk : Sub 131072 fp) :
    KeptC fp z (cmdGateLoad d s) := by
  unfold cmdGateLoad
  repeat' first
    | with_reducible assumption
    | exact Sub.of hk rfl
    | with_reducible intro _
    | with_reducible apply kept_ite
    | with_reducible apply keptC_fin
    | with_reducible apply keptC_work
    | with_reducible apply keptC_ite
    | with_reducible apply needDomain_kept
    | with_reducible apply setReed_kept
    | with_reducible apply kept_foldl
    | with_reducible apply kept_getD
    | with_reducible apply keptF_of
    | with_reducible apply keptQ_snd
    | with_reducible apply keptP_snd
    | dsimp only
    | with_reducible apply keptP_ite
    | simp only [keptQ_mk]
    | with_reducible apply keptQ_ite
    | split

theorem cmdGateStart_kept {fp : Nat} {z : State} {d : CmdDesc} {s : State} (h : Kept fp z s)
    (hk : Sub 131080 fp) :
    KeptC fp z (cmdGateStart d s) := by
  unfold cmdGateStart
  repeat' first
    | with_reducible assumption
    | exact Sub.of hk rfl
    | with_reducible intro _
    | with_reducible apply kept_ite
    | with_reducible apply keptC_fin
    | with_reducible apply keptC_work
    | with_reducible apply keptC_ite
    | with_reducible apply needDomain_kept
    | with_reducible apply setGate_kept

/-! ## Machine/Ports.lean -/

theorem linkNotify_kept {fp : Nat} {z : State} {s : State} {kind : Nat} {n : Nat} {st : Nat} (h : Kept fp z s)
    (hk : Sub 8344 fp) :
    Kept fp z (linkNotify s kind n st) := by
  unfold linkNotify
  repeat' first
    | with_reducible assumption
    | exact Sub.of hk rfl
    | with_reducible intro _
    | with_reducible apply kept_ite
    | with_reducible apply notifyReg_kept

theorem macLink_kept {fp : Nat} {z : State} {s : State} {p : Nat} {up : Bool} (h : Kept fp z s)
    (hk : Sub 67117208 fp) :
    Kept fp z (macLink s p up) := by
  unfold macLink
  repeat' first
    | with_reducible assumption
    | exact Sub.of hk rfl
    | with_reducible intro _
    | with_reducible apply kept_ite
    | with_reducible apply setMac_kept
    | with_reducible apply linkNotify_kept
    | with_reducible apply setBit_kept

theorem laneGo_kept {fp : Nat} {z : State} {s : State} {n : Nat} {st : LaneSt} (h : Kept fp z s)
    (hk : Sub 67117208 fp) :
    Kept fp z (laneGo s n st) := by
  unfold laneGo
  repeat' first
    | with_reducible assumption
    | exact Sub.of hk rfl
    | with_reducible intro _
    | with_reducible apply kept_ite
    | with_reducible apply setLane_kept
    | with_reducible apply linkNotify_kept
    | with_reducible apply setBit_kept
    | with_reducible apply macLink_kept

theorem lockLost_kept {fp : Nat} {z : State} {s : State} {n : Nat} {block : Bool} (h : Kept fp z s)
    (hk : Sub 67117208 fp) :
    Kept fp z (lockLost s n block) := by
  unfold lockLost
  repeat' first
    | with_reducible assumption
    | exact Sub.of hk rfl
    | with_reducible intro _
    | with_reducible apply kept_ite
    | with_reducible apply laneCount_kept
    | with_reducible apply setLane_kept
    | with_reducible apply laneGo_kept

theorem laneUnlock_kept {fp : Nat} {z : State} {s : State} {n : Nat} (h : Kept fp z s)
    (hk : Sub 67117208 fp) :
    Kept fp z (laneUnlock s n) := by
  unfold laneUnlock
  repeat' first
    | with_reducible assumption
    | exact Sub.of hk rfl
    | with_reducible intro _
    | with_reducible apply kept_ite
    | with_reducible apply lockLost_kept

theorem laneAggReg_kept {fp : Nat} {z : State} {s : State} (h : Kept fp z s)
    (hk : Sub 8 fp) :
    Kept fp z (laneAggReg s) := by
  unfold laneAggReg
  repeat' first
    | with_reducible assumption
    | exact Sub.of hk rfl
    | with_reducible intro _
    | with_reducible apply kept_ite
    | with_reducible apply setReg_kept

theorem macAbort_kept {fp : Nat} {z : State} {s : State} {p : Nat} (h : Kept fp z s)
    (hk : Sub 67135704 fp) :
    Kept fp z (macAbort s p) := by
  unfold macAbort
  repeat' first
    | with_reducible assumption
    | exact Sub.of hk rfl
    | with_reducible intro _
    | with_reducible apply kept_ite
    | with_reducible apply setMac_kept
    | with_reducible apply frameGone_kept
    | with_reducible apply macCount_kept
    | with_reducible apply emit_kept
    | with_reducible apply kept_foldl

theorem yonovAbort_kept {fp : Nat} {z : State} {s : State} {n : Nat} (h : Kept fp z s)
    (hk : Sub 67135704 fp) :
    Kept fp z (yonovAbort s n) := by
  unfold yonovAbort
  repeat' first
    | with_reducible assumption
    | exact Sub.of hk rfl
    | with_reducible intro _
    | with_reducible apply kept_ite
    | with_reducible apply setLane_kept
    | with_reducible refine draw_kept_of ?_ (by assumption) ?_
    | with_reducible apply draw_kept
    | with_reducible apply sendBlock_kept
    | with_reducible apply frameGone_kept
    | with_reducible apply laneCount_kept
    | with_reducible apply kept_foldl
    | with_reducible apply kept_getD
    | with_reducible apply keptF_of
    | with_reducible apply keptQ_snd
    | with_reducible apply keptP_snd
    | dsimp only
    | with_reducible apply keptP_ite
    | simp only [keptQ_mk]
    | with_reducible apply keptQ_ite
    | split

theorem laneOff_kept {fp : Nat} {z : State} {s : State} {n : Nat} (h : Kept fp z s)
    (hk : Sub 67136728 fp) :
    Kept fp z (laneOff s n) := by
  unfold laneOff
  repeat' first
    | with_reducible assumption
    | exact Sub.of hk rfl
    | with_reducible intro _
    | with_reducible apply kept_ite
    | with_reducible apply yonovAbort_kept
    | with_reducible apply macAbort_kept
    | with_reducible apply laneGo_kept
    | with_reducible apply setLane_kept
    | with_reducible apply laneAggReg_kept
    | with_reducible apply reqReturn_kept

theorem laneStart_kept {fp : Nat} {z : State} {s : State} {n : Nat} (h : Kept fp z s)
    (hk : Sub 67120344 fp) :
    Kept fp z (laneStart s n) := by
  unfold laneStart
  repeat' first
    | with_reducible assumption
    | exact Sub.of hk rfl
    | with_reducible intro _
    | with_reducible apply kept_ite
    | with_reducible apply progErr_kept
    | with_reducible apply laneGo_kept
    | with_reducible apply setBit_kept
    | with_reducible apply laneAggReg_kept
    | with_reducible apply reqRaise_kept

theorem laneCommit_kept {fp : Nat} {z : State} {old : Nat → Nat} {s : State} {n : Nat} (h : Kept fp z s)
    (hk : Sub 67136728 fp) :
    Kept fp z (laneCommit old s n) := by
  unfold laneCommit
  repeat' first
    | with_reducible assumption
    | exact Sub.of hk rfl
    | with_reducible intro _
    | with_reducible apply kept_ite
    | with_reducible apply laneOff_kept
    | with_reducible apply laneStart_kept
    | with_reducible apply setLane_kept
    | with_reducible apply laneGo_kept

theorem lanesCommit_kept {fp : Nat} {z : State} {old : Nat → Nat} {s : State} (h : Kept fp z s)
    (hk : Sub 67136728 fp) :
    Kept fp z (lanesCommit old s) := by
  unfold lanesCommit
  repeat' first
    | with_reducible assumption
    | exact Sub.of hk rfl
    | with_reducible intro _
    | with_reducible apply kept_ite
    | with_reducible apply forUpTo_kept
    | with_reducible apply laneCommit_kept

theorem adaptCtle_kept {fp : Nat} {z : State} {s : State} {n : Nat} {c : Nat} {st : LaneSt} (h : Kept fp z s)
    (hk : Sub 67108872 fp) :
    Kept fp z (adaptCtle s n c st) := by
  unfold adaptCtle
  repeat' first
    | with_reducible assumption
    | exact Sub.of hk rfl
    | with_reducible intro _
    | with_reducible apply kept_ite
    | with_reducible apply setLane_kept

theorem execLaneAdapted_kept {fp : Nat} {z : State} {n : Nat} {ctle : Nat} {s : State} (h : Kept fp z s)
    (hk : Sub 67117208 fp) :
    KeptE fp z (execLaneAdapted n ctle s) := by
  unfold execLaneAdapted
  repeat' first
    | with_reducible assumption
    | exact Sub.of hk rfl
    | with_reducible intro _
    | with_reducible apply kept_ite
    | with_reducible apply keptE_next
    | with_reducible apply adaptCtle_kept
    | with_reducible apply laneGo_kept
    | with_reducible apply setLane_kept

theorem commaWindow_kept {fp : Nat} {z : State} {n : Nat} {window : Nat} {s : State} (h : Kept fp z s)
    (hk : Sub 67117272 fp) :
    Kept fp z (commaWindow n window s) := by
  unfold commaWindow
  repeat' first
    | with_reducible assumption
    | exact Sub.of hk rfl
    | with_reducible intro _
    | with_reducible apply kept_ite
    | with_reducible refine draw_kept_of ?_ (by assumption) ?_
    | with_reducible apply draw_kept
    | with_reducible apply countBy_kept
    | with_reducible apply laneCount_kept
    | with_reducible apply laneGo_kept
    | with_reducible apply setLane_kept
    | with_reducible apply kept_foldl
    | with_reducible apply kept_getD
    | with_reducible apply keptF_of
    | with_reducible apply keptQ_snd
    | with_reducible apply keptP_snd
    | dsimp only
    | with_reducible apply keptP_ite
    | simp only [keptQ_mk]
    | with_reducible apply keptQ_ite
    | split

theorem macLinkUp_kept {fp : Nat} {z : State} {p : Nat} {speed : Nat} {s : State} (h : Kept fp z s)
    (hk : Sub 67117208 fp) :
    Kept fp z (macLinkUp p speed s) := by
  unfold macLinkUp
  repeat' first
    | with_reducible assumption
    | exact Sub.of hk rfl
    | with_reducible intro _
    | with_reducible apply kept_ite
    | with_reducible apply macLink_kept

theorem execLaneLinkUp_kept {fp : Nat} {z : State} {mac : Bool} {n : Nat} {window : Nat} {speed : Nat} {s : State} (h : Kept fp z s)
    (hk : Sub 67117272 fp) :
    KeptE fp z (execLaneLinkUp mac n window s speed) := by
  unfold execLaneLinkUp
  repeat' first
    | with_reducible assumption
    | exact Sub.of hk rfl
    | with_reducible intro _
    | with_reducible apply kept_ite
    | with_reducible apply keptE_next
    | with_reducible apply macLinkUp_kept
    | with_reducible apply commaWindow_kept
    | with_reducible apply setLane_kept
    | with_reducible apply laneGo_kept

theorem execLaneLinkDown_kept {fp : Nat} {z : State} {mac : Bool} {n : Nat} {codeErrs : Nat} {localFault : Bool} {remoteFault : Bool} {s : State} (h : Kept fp z s)
    (hk : Sub 67117208 fp) :
    KeptE fp z (execLaneLinkDown mac n codeErrs localFault remoteFault s) := by
  unfold execLaneLinkDown
  repeat' first
    | with_reducible assumption
    | exact Sub.of hk rfl
    | with_reducible intro _
    | with_reducible apply kept_ite
    | with_reducible apply keptE_next
    | with_reducible apply macLink_kept
    | with_reducible apply setMac_kept
    | with_reducible apply laneUnlock_kept
    | with_reducible apply countBy_kept

theorem execPairMarker_kept {fp : Nat} {z : State} {n : Nat} {a : Nat × Nat} {b : Nat × Nat} {s : State} (h : Kept fp z s)
    (hk : Sub 67117208 fp) :
    KeptE fp z (execPairMarker n a s b) := by
  unfold execPairMarker
  repeat' first
    | with_reducible assumption
    | exact Sub.of hk rfl
    | with_reducible intro _
    | with_reducible apply kept_ite
    | with_reducible apply keptE_next
    | with_reducible apply setLane_kept
    | with_reducible apply laneGo_kept
    | with_reducible apply lockLost_kept

theorem yonovTests_kept {fp : Nat} {z : State} {n : Nat} {y : List Byte} {b : YBody} {s : State} (h : Kept fp z s)
    (hk : Sub 190680 fp) :
    Kept fp z (yonovTests n y b s) := by
  unfold yonovTests
  repeat' first
    | with_reducible assumption
    | exact Sub.of hk rfl
    | with_reducible intro _
    | with_reducible apply kept_ite
    | with_reducible apply laneCount_kept
    | with_reducible apply heddleInput_kept
    | with_reducible apply kept_foldl
    | with_reducible apply kept_getD
    | with_reducible apply keptF_of
    | with_reducible apply keptQ_snd
    | with_reducible apply keptP_snd
    | simp only [keptP_mk]
    | with_reducible apply keptP_ite
    | simp only [keptQ_mk]
    | with_reducible apply keptQ_ite
    | split

theorem execYonovFrameRx_kept {fp : Nat} {z : State} {n : Nat} {y : YonovIn} {s : State} (h : Kept fp z s)
    (hk : Sub 67299544 fp) :
    KeptE fp z (execYonovFrameRx n y s) := by
  unfold execYonovFrameRx
  repeat' first
    | with_reducible assumption
    | exact Sub.of hk rfl
    | with_reducible intro _
    | with_reducible apply kept_ite
    | with_reducible apply keptE_next
    | with_reducible apply setLane_kept
    | with_reducible apply pauseScan_kept
    | with_reducible apply yonovTests_kept
    | with_reducible apply kept_foldl
    | with_reducible apply kept_getD
    | with_reducible apply keptF_of
    | with_reducible apply keptQ_snd
    | with_reducible apply keptP_snd
    | dsimp only
    | with_reducible apply keptP_ite
    | simp only [keptQ_mk]
    | with_reducible apply keptQ_ite
    | split

theorem execYidle_kept {fp : Nat} {z : State} {n : Nat} {rdy : Bool} {s : State} (h : Kept fp z s)
    (hk : Sub 67117208 fp) :
    KeptE fp z (execYidle n rdy s) := by
  unfold execYidle
  repeat' first
    | with_reducible assumption
    | exact Sub.of hk rfl
    | with_reducible intro _
    | with_reducible apply kept_ite
    | with_reducible apply keptE_next
    | with_reducible apply setLane_kept
    | with_reducible apply laneGo_kept

theorem execYidleTimeout_kept {fp : Nat} {z : State} {n : Nat} {s : State} (h : Kept fp z s)
    (hk : Sub 67117208 fp) :
    KeptE fp z (execYidleTimeout n s) := by
  unfold execYidleTimeout
  repeat' first
    | with_reducible assumption
    | exact Sub.of hk rfl
    | with_reducible intro _
    | with_reducible apply kept_ite
    | with_reducible apply keptE_next
    | with_reducible apply laneGo_kept
    | with_reducible apply setLane_kept

theorem sendYmgmt_kept {fp : Nat} {z : State} {s : State} {n : Nat} (h : Kept fp z s)
    (hk : Sub 67109000 fp) :
    Kept fp z (sendYmgmt s n) := by
  unfold sendYmgmt
  repeat' first
    | with_reducible assumption
    | exact Sub.of hk rfl
    | with_reducible intro _
    | with_reducible apply kept_ite
    | with_reducible apply sendBlock_kept
    | with_reducible apply setLane_kept
    | with_reducible apply kept_foldl

theorem execYidleSend_kept {fp : Nat} {z : State} {n : Nat} {s : State} (h : Kept fp z s)
    (hk : Sub 67109000 fp) :
    KeptE fp z (execYidleSend n s) := by
  unfold execYidleSend
  repeat' first
    | with_reducible assumption
    | exact Sub.of hk rfl
    | with_reducible intro _
    | with_reducible apply kept_ite
    | with_reducible apply keptE_next
    | with_reducible apply sendBlock_kept
    | with_reducible apply sendYmgmt_kept

theorem execYhold_kept {fp : Nat} {z : State} {n : Nat} {hold : Bool} {s : State} (h : Kept fp z s)
    (hk : Sub 67108872 fp) :
    KeptE fp z (execYhold n hold s) := by
  unfold execYhold
  repeat' first
    | with_reducible assumption
    | exact Sub.of hk rfl
    | with_reducible intro _
    | with_reducible apply kept_ite
    | with_reducible apply keptE_next
    | with_reducible apply setLane_kept

theorem execYholdRepeat_kept {fp : Nat} {z : State} {n : Nat} {s : State} (h : Kept fp z s)
    (hk : Sub 67109000 fp) :
    KeptE fp z (execYholdRepeat n s) := by
  unfold execYholdRepeat
  repeat' first
    | with_reducible assumption
    | exact Sub.of hk rfl
    | with_reducible intro _
    | with_reducible apply kept_ite
    | with_reducible apply keptE_next
    | with_reducible apply sendBlock_kept

theorem execYholdTimeout_kept {fp : Nat} {z : State} {n : Nat} {s : State} (h : Kept fp z s)
    (hk : Sub 67108888 fp) :
    KeptE fp z (execYholdTimeout n s) := by
  unfold execYholdTimeout
  repeat' first
    | with_reducible assumption
    | exact Sub.of hk rfl
    | with_reducible intro _
    | with_reducible apply kept_ite
    | with_reducible apply keptE_next
    | with_reducible apply laneCount_kept
    | with_reducible apply setLane_kept

theorem execYmgmt_kept {fp : Nat} {z : State} {n : Nat} {payload : Nat} {s : State} (h : Kept fp z s)
    (hk : Sub 67108888 fp) :
    KeptE fp z (execYmgmt n payload s) := by
  unfold execYmgmt
  repeat' first
    | with_reducible assumption
    | exact Sub.of hk rfl
    | with_reducible intro _
    | with_reducible apply kept_ite
    | with_reducible apply keptE_next
    | with_reducible apply setLane_kept
    | with_reducible apply laneCount_kept

theorem execYonovFifoError_kept {fp : Nat} {z : State} {n : Nat} {s : State} (h : Kept fp z s)
    (hk : Sub 67117208 fp) :
    KeptE fp z (execYonovFifoError n s) := by
  unfold execYonovFifoError
  repeat' first
    | with_reducible assumption
    | exact Sub.of hk rfl
    | with_reducible intro _
    | with_reducible apply kept_ite
    | with_reducible apply keptE_next
    | with_reducible apply laneUnlock_kept
    | with_reducible apply laneCount_kept

theorem ymgmtSend_kept {fp : Nat} {z : State} {n : Nat} {s : State} (h : Kept fp z s)
    (hk : Sub 67108872 fp) :
    Kept fp z (ymgmtSend n s) := by
  unfold ymgmtSend
  repeat' first
    | with_reducible assumption
    | exact Sub.of hk rfl
    | with_reducible intro _
    | with_reducible apply kept_ite
    | with_reducible apply setLane_kept

theorem ymgmtRead_kept {fp : Nat} {z : State} {n : Nat} {s : State} (h : Kept fp z s)
    (hk : Sub 67108876 fp) :
    Kept fp z (ymgmtRead n s) := by
  unfold ymgmtRead
  repeat' first
    | with_reducible assumption
    | exact Sub.of hk rfl
    | with_reducible intro _
    | with_reducible apply kept_ite
    | with_reducible apply clrBit_kept
    | with_reducible apply setReg_kept
    | with_reducible apply setLane_kept
    | with_reducible apply kept_foldl
    | with_reducible apply kept_getD
    | with_reducible apply keptF_of
    | with_reducible apply keptQ_snd
    | with_reducible apply keptP_snd
    | dsimp only
    | with_reducible apply keptP_ite
    | simp only [keptQ_mk]
    | with_reducible apply keptQ_ite
    | split
    | simp only [kept_mk]
    | with_reducible refine keptF_upd ?_ (updF hk ?_)
    | (unfold UpdF; and_intros <;> first | exact .inl rfl | exact .inr rfl | exact .inr id | exact .inr fun _ => rfl | exact .refl _ | exact fun h => ⟨h, rfl⟩ | rfl | exact Nat.le_max_left _ _)

theorem corrAdd_kept {fp : Nat} {z : State} {s : State} {p : Parsed} {d : List Byte} {delta : ℤ} (h : Kept fp z s)
    (hk : Sub 16 fp) :
    KeptP fp z (corrAdd s p d delta) := by
  unfold corrAdd
  repeat' first
    | with_reducible assumption
    | exact Sub.of hk rfl
    | with_reducible intro _
    | with_reducible apply kept_ite
    | with_reducible apply keptP_ite
    | simp only [keptP_mk]
    | with_reducible apply count_kept

theorem corrAdd_kept_of {fp : Nat} {z : State} {s : State} {p : Parsed} {d : List Byte} {delta : ℤ} {x9} {t9 : State} (h : Kept fp z s) (e : corrAdd s p d delta = (x9, t9)) (hk : Sub 16 fp) : Kept fp z t9 := keptP_of (corrAdd_kept (z := z) h hk) e

theorem ptpOut_kept {fp : Nat} {z : State} {s : State} {f : Frame} {q : Nat} {tod : Nat} {raw : Nat} {stamped : Bool} (h : Kept fp z s)
    (hk : Sub 16 fp) :
    KeptP fp z (ptpOut s f q tod raw stamped) := by
  unfold ptpOut
  repeat' first
    | with_reducible assumption
    | exact Sub.of hk rfl
    | with_reducible intro _
    | with_reducible apply kept_ite
    | with_reducible apply keptP_ite
    | simp only [keptP_mk]
    | with_reducible refine corrAdd_kept_of ?_ (by assumption) ?_
    | with_reducible apply corrAdd_kept
    | with_reducible apply count_kept
    | with_reducible apply kept_foldl
    | with_reducible apply kept_getD
    | with_reducible apply keptF_of
    | with_reducible apply keptQ_snd
    | with_reducible apply keptP_snd
    | simp only [keptP_mk]
    | with_reducible apply keptP_ite
    | simp only [keptQ_mk]
    | with_reducible apply keptQ_ite
    | split

theorem ptpOut_kept_of {fp : Nat} {z : State} {s : State} {f : Frame} {q : Nat} {tod : Nat} {raw : Nat} {stamped : Bool} {x9} {t9 : State} (h : Kept fp z s) (e : ptpOut s f q tod raw stamped = (x9, t9)) (hk : Sub 16 fp) : Kept fp z t9 := keptP_of (ptpOut_kept (z := z) h hk) e

theorem controlFrame_kept {fp : Nat} {z : State} {s : State} {p : Nat} {d : List Byte} (h : Kept fp z s)
    (hk : Sub 67108888 fp) :
    Kept fp z (controlFrame s p d) := by
  unfold controlFrame
  repeat' first
    | with_reducible assumption
    | exact Sub.of hk rfl
    | with_reducible intro _
    | with_reducible apply kept_ite
    | with_reducible apply macCount_kept
    | with_reducible apply setMac_kept
    | with_reducible apply kept_foldl
    | with_reducible apply kept_getD
    | with_reducible apply keptF_of
    | with_reducible apply keptQ_snd
    | with_reducible apply keptP_snd
    | dsimp only
    | with_reducible apply keptP_ite
    | simp only [keptQ_mk]
    | with_reducible apply keptQ_ite
    | split

theorem stampIn_kept {fp : Nat} {z : State} {s : State} {p : Nat} {back : Nat} {d : List Byte} (h : Kept fp z s)
    (hk : Sub 16 fp) :
    KeptP fp z (stampIn s p back d) := by
  unfold stampIn
  repeat' first
    | with_reducible assumption
    | exact Sub.of hk rfl
    | with_reducible intro _
    | with_reducible apply kept_ite
    | with_reducible apply keptP_ite
    | simp only [keptP_mk]
    | with_reducible refine corrAdd_kept_of ?_ (by assumption) ?_
    | with_reducible apply corrAdd_kept
    | with_reducible apply count_kept
    | with_reducible apply kept_foldl
    | with_reducible apply kept_getD
    | with_reducible apply keptF_of
    | with_reducible apply keptQ_snd
    | with_reducible apply keptP_snd
    | simp only [keptP_mk]
    | with_reducible apply keptP_ite
    | simp only [keptQ_mk]
    | with_reducible apply keptQ_ite
    | split

theorem stampIn_kept_of {fp : Nat} {z : State} {s : State} {p : Nat} {back : Nat} {d : List Byte} {x9} {t9 : State} (h : Kept fp z s) (e : stampIn s p back d = (x9, t9)) (hk : Sub 16 fp) : Kept fp z t9 := keptP_of (stampIn_kept (z := z) h hk) e

theorem fecCounts_kept {fp : Nat} {z : State} {s : State} {p : Nat} {r : RxIn} (h : Kept fp z s)
    (hk : Sub 16 fp) :
    Kept fp z (fecCounts s p r) := by
  unfold fecCounts
  repeat' first
    | with_reducible assumption
    | exact Sub.of hk rfl
    | with_reducible intro _
    | with_reducible apply kept_ite
    | with_reducible apply countBy_kept

theorem execMacRxFrame_kept {fp : Nat} {z : State} {p : Nat} {r : RxIn} {s : State} (h : Kept fp z s)
    (hk : Sub 67299544 fp) :
    KeptE fp z (execMacRxFrame p r s) := by
  unfold execMacRxFrame
  repeat' first
    | with_reducible assumption
    | exact Sub.of hk rfl
    | with_reducible intro _
    | with_reducible apply kept_ite
    | with_reducible apply keptE_next
    | with_reducible apply fecCounts_kept
    | with_reducible apply macCount_kept
    | with_reducible apply controlFrame_kept
    | with_reducible apply countBy_kept
    | with_reducible refine stampIn_kept_of ?_ (by assumption) ?_
    | with_reducible apply stampIn_kept
    | with_reducible apply pauseScan_kept
    | with_reducible apply heddleInput_kept
    | with_reducible apply kept_foldl
    | with_reducible apply kept_getD
    | with_reducible apply keptF_of
    | with_reducible apply keptQ_snd
    | with_reducible apply keptP_snd
    | dsimp only
    | with_reducible apply keptP_ite
    | simp only [keptQ_mk]
    | with_reducible apply keptQ_ite
    | split

theorem execPauseFrameRx_kept {fp : Nat} {z : State} {p : Nat} {data : List Byte} {s : State} (h : Kept fp z s)
    (hk : Sub 67108888 fp) :
    KeptE fp z (execPauseFrameRx p data s) := by
  unfold execPauseFrameRx
  repeat' first
    | with_reducible assumption
    | exact Sub.of hk rfl
    | with_reducible intro _
    | with_reducible apply kept_ite
    | with_reducible apply keptE_next
    | with_reducible apply macCount_kept
    | with_reducible apply controlFrame_kept
    | with_reducible apply kept_foldl
    | with_reducible apply kept_getD
    | with_reducible apply keptF_of
    | with_reducible apply keptQ_snd
    | with_reducible apply keptP_snd
    | simp only [keptP_mk]
    | with_reducible apply keptP_ite
    | simp only [keptQ_mk]
    | with_reducible apply keptQ_ite
    | split

theorem execPauseExpiry_kept {fp : Nat} {z : State} {p : Nat} {t : Nat} {s : State} (h : Kept fp z s)
    (hk : Sub 67108872 fp) :
    KeptE fp z (execPauseExpiry p t s) := by
  unfold execPauseExpiry
  repeat' first
    | with_reducible assumption
    | exact Sub.of hk rfl
    | with_reducible intro _
    | with_reducible apply kept_ite
    | with_reducible apply keptE_next
    | with_reducible apply setMac_kept
    | with_reducible apply kept_foldl
    | with_reducible apply kept_getD
    | with_reducible apply keptF_of
    | with_reducible apply keptQ_snd
    | with_reducible apply keptP_snd
    | dsimp only
    | with_reducible apply keptP_ite
    | simp only [keptQ_mk]
    | with_reducible apply keptQ_ite
    | split

theorem execPauseRepeat_kept {fp : Nat} {z : State} {p : Nat} {s : State} (h : Kept fp z s)
    (hk : Sub 67109016 fp) :
    KeptE fp z (execPauseRepeat p s) := by
  unfold execPauseRepeat
  repeat' first
    | with_reducible assumption
    | exact Sub.of hk rfl
    | with_reducible intro _
    | with_reducible apply kept_ite
    | with_reducible apply keptE_next
    | with_reducible apply sendPause_kept

theorem execMergeVerify_kept {fp : Nat} {z : State} {p : Nat} {s : State} (h : Kept fp z s)
    (hk : Sub 67108872 fp) :
    KeptE fp z (execMergeVerify p s) := by
  unfold execMergeVerify
  repeat' first
    | with_reducible assumption
    | exact Sub.of hk rfl
    | with_reducible intro _
    | with_reducible apply kept_ite
    | with_reducible apply keptE_next
    | with_reducible apply setMac_kept

theorem holdQueue_kept {fp : Nat} {z : State} {p : Nat} {q : Nat} {a2 : Nat} {a3 : State} (h : Kept fp z a3)
    (hk : Sub 157912 fp) :
    Kept fp z (holdQueue p q a2 a3) := by
  induction a2 generalizing p q a3 with
  | zero =>
    unfold holdQueue
    repeat' first
      | with_reducible assumption
  | succ n ih =>
    unfold holdQueue
    repeat' first
      | with_reducible assumption
      | with_reducible apply ih
      | exact Sub.of hk rfl
      | with_reducible intro _
      | with_reducible apply kept_ite
      | with_reducible apply count_kept
      | with_reducible apply setQueue_kept
      | with_reducible apply dropHead_kept
      | with_reducible apply kept_foldl
      | with_reducible apply kept_getD
      | with_reducible apply keptF_of
      | with_reducible apply keptQ_snd
      | with_reducible apply keptP_snd
      | dsimp only
      | with_reducible apply keptP_ite
      | simp only [keptQ_mk]
      | with_reducible apply keptQ_ite
      | split

theorem countHolds_kept {fp : Nat} {z : State} {s : State} {p : Nat} (h : Kept fp z s)
    (hk : Sub 157912 fp) :
    Kept fp z (countHolds s p) := by
  unfold countHolds
  repeat' first
    | with_reducible assumption
    | exact Sub.of hk rfl
    | with_reducible intro _
    | with_reducible apply kept_ite
    | with_reducible apply holdQueue_kept
    | with_reducible apply kept_foldl

theorem macBegin_kept {fp : Nat} {z : State} {s : State} {p : Nat} {q : Nat} {i : QItem} (h : Kept fp z s)
    (hk : Sub 67135704 fp) :
    Kept fp z (macBegin s p q i) := by
  unfold macBegin
  repeat' first
    | with_reducible assumption
    | exact Sub.of hk rfl
    | with_reducible intro _
    | with_reducible apply kept_ite
    | with_reducible apply queueLeft_kept
    | with_reducible apply pauseFlush_kept
    | with_reducible apply frameGone_kept
    | with_reducible apply poisonSeen_kept
    | with_reducible apply macCount_kept
    | with_reducible apply setMac_kept

theorem preempt_kept {fp : Nat} {z : State} {s : State} {p : Nat} {t : TxFrame} (h : Kept fp z s)
    (hk : Sub 67109064 fp) :
    Kept fp z (preempt s p t) := by
  unfold preempt
  repeat' first
    | with_reducible assumption
    | exact Sub.of hk rfl
    | with_reducible intro _
    | with_reducible apply kept_ite
    | with_reducible refine draw_kept_of ?_ (by assumption) ?_
    | with_reducible apply draw_kept
    | with_reducible apply emit_kept
    | with_reducible apply setMac_kept
    | with_reducible apply kept_foldl
    | with_reducible apply kept_getD
    | with_reducible apply keptF_of
    | with_reducible apply keptQ_snd
    | with_reducible apply keptP_snd

theorem selectMac_kept {fp : Nat} {z : State} {p : Nat} {same : Bool} {s : State} (h : Kept fp z s)
    (hk : Sub 67266776 fp) :
    Kept fp z (selectMac p same s) := by
  unfold selectMac
  repeat' first
    | with_reducible assumption
    | exact Sub.of hk rfl
    | with_reducible intro _
    | with_reducible apply kept_ite
    | with_reducible refine reedTake_kept_of ?_ (by assumption) ?_
    | with_reducible apply reedTake_kept
    | with_reducible apply frameGone_kept
    | with_reducible apply macCount_kept
    | with_reducible apply queueLeft_kept
    | with_reducible apply countHolds_kept
    | with_reducible apply macBegin_kept
    | with_reducible apply setMac_kept
    | with_reducible apply preempt_kept
    | with_reducible apply kept_foldl
    | with_reducible apply kept_getD
    | with_reducible apply keptF_of
    | with_reducible apply keptQ_snd
    | with_reducible apply keptP_snd
    | dsimp only
    | with_reducible apply keptP_ite
    | simp only [keptQ_mk]
    | with_reducible apply keptQ_ite
    | split

theorem selectLane_kept {fp : Nat} {z : State} {n : Nat} {same : Bool} {s : State} (h : Kept fp z s)
    (hk : Sub 67266776 fp) :
    Kept fp z (selectLane n same s) := by
  unfold selectLane
  repeat' first
    | with_reducible assumption
    | exact Sub.of hk rfl
    | with_reducible intro _
    | with_reducible apply kept_ite
    | with_reducible refine reedTake_kept_of ?_ (by assumption) ?_
    | with_reducible apply reedTake_kept
    | with_reducible apply queueLeft_kept
    | with_reducible apply frameGone_kept
    | with_reducible apply poisonSeen_kept
    | with_reducible apply sendBlock_kept
    | with_reducible apply sendYmgmt_kept
    | with_reducible apply setLane_kept
    | with_reducible apply kept_foldl
    | with_reducible apply kept_getD
    | with_reducible apply keptF_of
    | with_reducible apply keptQ_snd
    | with_reducible apply keptP_snd
    | dsimp only
    | with_reducible apply keptP_ite
    | simp only [keptQ_mk]
    | with_reducible apply keptQ_ite
    | split

theorem laneTxEnd_kept {fp : Nat} {z : State} {n : Nat} {s : State} (h : Kept fp z s)
    (hk : Sub 67135704 fp) :
    Kept fp z (laneTxEnd n s) := by
  unfold laneTxEnd
  repeat' first
    | with_reducible assumption
    | exact Sub.of hk rfl
    | with_reducible intro _
    | with_reducible apply kept_ite
    | with_reducible apply setLane_kept
    | with_reducible apply sendBlock_kept
    | with_reducible apply frameGone_kept
    | with_reducible apply poisonSeen_kept
    | with_reducible apply laneCount_kept
    | with_reducible apply kept_foldl
    | with_reducible apply kept_getD
    | with_reducible apply keptF_of
    | with_reducible apply keptQ_snd
    | with_reducible apply keptP_snd
    | dsimp only
    | with_reducible apply keptP_ite
    | simp only [keptQ_mk]
    | with_reducible apply keptQ_ite
    | split

theorem selectRing_kept {fp : Nat} {z : State} {r : Nat} {same : Bool} {s : State} (h : Kept fp z s)
    (hk : Sub 157912 fp) :
    Kept fp z (selectRing r same s) := by
  unfold selectRing
  repeat' first
    | with_reducible assumption
    | exact Sub.of hk rfl
    | with_reducible intro _
    | with_reducible apply kept_ite
    | with_reducible refine reedTake_kept_of ?_ (by assumption) ?_
    | with_reducible apply reedTake_kept
    | with_reducible apply queueLeft_kept
    | with_reducible apply frameGone_kept
    | with_reducible apply poisonSeen_kept
    | with_reducible refine rxDeliver_kept_of ?_ (by assumption) ?_
    | with_reducible apply rxDeliver_kept
    | with_reducible apply kept_foldl
    | with_reducible apply kept_getD
    | with_reducible apply keptF_of
    | with_reducible apply keptQ_snd
    | with_reducible apply keptP_snd
    | dsimp only
    | with_reducible apply keptP_ite
    | simp only [keptQ_mk]
    | with_reducible apply keptQ_ite
    | split

theorem execReedSelect_kept {fp : Nat} {z : State} {destType : Nat} {destId : Nat} {same : Bool} {s : State} (h : Kept fp z s)
    (hk : Sub 67266776 fp) :
    KeptE fp z (execReedSelect destType destId s same) := by
  unfold execReedSelect
  repeat' first
    | with_reducible assumption
    | exact Sub.of hk rfl
    | with_reducible intro _
    | with_reducible apply kept_ite
    | with_reducible apply keptE_next
    | with_reducible apply pauseScan_kept
    | with_reducible apply selectMac_kept
    | with_reducible apply selectLane_kept
    | with_reducible apply selectRing_kept
    | with_reducible apply kept_foldl
    | with_reducible apply kept_getD
    | with_reducible apply keptF_of
    | with_reducible apply keptQ_snd
    | with_reducible apply keptP_snd
    | simp only [keptP_mk]
    | with_reducible apply keptP_ite
    | simp only [keptQ_mk]
    | with_reducible apply keptQ_ite
    | split

theorem macSend_kept {fp : Nat} {z : State} {s : State} {p : Nat} {t : TxFrame} {d : List Byte} (h : Kept fp z s)
    (hk : Sub 2264 fp) :
    Kept fp z (macSend s p t d) := by
  unfold macSend
  repeat' first
    | with_reducible assumption
    | exact Sub.of hk rfl
    | with_reducible intro _
    | with_reducible apply kept_ite
    | with_reducible apply poisonSeen_kept
    | with_reducible apply macCount_kept
    | with_reducible apply emit_kept
    | with_reducible apply countBy_kept

theorem macTxEnd_kept {fp : Nat} {z : State} {p : Nat} {back : Nat} {s : State} (h : Kept fp z s)
    (hk : Sub 67135704 fp) :
    Kept fp z (macTxEnd p back s) := by
  unfold macTxEnd
  repeat' first
    | with_reducible assumption
    | exact Sub.of hk rfl
    | with_reducible intro _
    | with_reducible apply kept_ite
    | with_reducible apply setMac_kept
    | with_reducible refine ptpOut_kept_of ?_ (by assumption) ?_
    | with_reducible apply ptpOut_kept
    | with_reducible apply count_kept
    | with_reducible apply macSend_kept
    | with_reducible apply frameGone_kept
    | with_reducible apply pauseFlush_kept
    | with_reducible apply txTs_kept
    | with_reducible refine draw_kept_of ?_ (by assumption) ?_
    | with_reducible apply draw_kept
    | with_reducible apply kept_foldl
    | with_reducible apply kept_getD
    | with_reducible apply keptF_of
    | with_reducible apply keptQ_snd
    | with_reducible apply keptP_snd
    | dsimp only
    | with_reducible apply keptP_ite
    | simp only [keptQ_mk]
    | with_reducible apply keptQ_ite
    | split

theorem execMacTxEnd_kept {fp : Nat} {z : State} {p : Nat} {back : Nat} {s : State} (h : Kept fp z s)
    (hk : Sub 67135704 fp) :
    KeptE fp z (execMacTxEnd p back s) := by
  unfold execMacTxEnd
  repeat' first
    | with_reducible assumption
    | exact Sub.of hk rfl
    | with_reducible intro _
    | with_reducible apply kept_ite
    | with_reducible apply keptE_next
    | with_reducible apply pauseScan_kept
    | with_reducible apply macTxEnd_kept
    | with_reducible apply laneTxEnd_kept

/-! ## Machine/HostRings.lean -/

theorem setHost_kept {fp : Nat} {z : State} {s : State} {a1 : HostIf} (h : Kept fp z s)
    (hk : Sub 8192 fp) :
    Kept fp z (setHost s a1) := by
  unfold setHost
  repeat' first
    | with_reducible assumption
    | exact Sub.of hk rfl
    | with_reducible intro _
    | with_reducible apply kept_ite
    | with_reducible apply kept_foldl
    | with_reducible apply kept_getD
    | with_reducible apply keptF_of
    | with_reducible apply keptQ_snd
    | with_reducible apply keptP_snd
    | simp only [keptP_mk]
    | with_reducible apply keptP_ite
    | simp only [keptQ_mk]
    | with_reducible apply keptQ_ite
    | split
    | simp only [kept_mk]
    | with_reducible refine keptF_upd ?_ (updF hk ?_)
    | (unfold UpdF; and_intros <;> first | exact .inl rfl | exact .inr rfl | exact .inr id | exact .inr fun _ => rfl | exact .refl _ | exact fun h => ⟨h, rfl⟩ | rfl | exact Nat.le_max_left _ _)

theorem issueFetches_kept {fp : Nat} {z : State} {s : State} (h : Kept fp z s)
    (hk : Sub 8336 fp) :
    Kept fp z (issueFetches s) := by
  unfold issueFetches
  repeat' first
    | with_reducible assumption
    | exact Sub.of hk rfl
    | with_reducible intro _
    | with_reducible apply kept_ite
    | with_reducible apply setHost_kept
    | with_reducible apply emit_kept
    | with_reducible apply count_kept
    | with_reducible apply kept_foldl

theorem hostKick_kept {fp : Nat} {z : State} {p : Nat} {v : Nat} {s : State} (h : Kept fp z s)
    (hk : Sub 8336 fp) :
    Kept fp z (hostKick p v s) := by
  unfold hostKick
  repeat' first
    | with_reducible assumption
    | exact Sub.of hk rfl
    | with_reducible intro _
    | with_reducible apply kept_ite
    | with_reducible apply count_kept
    | with_reducible apply issueFetches_kept
    | with_reducible apply setHost_kept

theorem startFetch_kept {fp : Nat} {z : State} {s : State} {r : Nat} (h : Kept fp z s)
    (hk : Sub 8336 fp) :
    Kept fp z (startFetch s r) := by
  unfold startFetch
  repeat' first
    | with_reducible assumption
    | exact Sub.of hk rfl
    | with_reducible intro _
    | with_reducible apply kept_ite
    | with_reducible apply emit_kept
    | with_reducible apply count_kept
    | with_reducible apply setRing_kept

theorem rereadNow_kept {fp : Nat} {z : State} {s : State} {r : Nat} (h : Kept fp z s)
    (hk : Sub 8336 fp) :
    Kept fp z (rereadNow s r) := by
  unfold rereadNow
  repeat' first
    | with_reducible assumption
    | exact Sub.of hk rfl
    | with_reducible intro _
    | with_reducible apply kept_ite
    | with_reducible apply emit_kept
    | with_reducible apply count_kept
    | with_reducible apply setRing_kept

theorem endShuttle_kept {fp : Nat} {z : State} {s : State} {r : Nat} {i : Nat} {w : Nat} {status : Nat} (h : Kept fp z s)
    (hk : Sub 8336 fp) :
    Kept fp z (endShuttle s r i w status) := by
  unfold endShuttle
  repeat' first
    | with_reducible assumption
    | exact Sub.of hk rfl
    | with_reducible intro _
    | with_reducible apply kept_ite
    | with_reducible apply post_kept
    | with_reducible apply count_kept

theorem endDesc_kept {fp : Nat} {z : State} {s : State} {r : Nat} {first : Nat} {last : Nat} {status : Nat} (h : Kept fp z s)
    (hk : Sub 8336 fp) :
    Kept fp z (endDesc s r first last status) := by
  unfold endDesc
  repeat' first
    | with_reducible assumption
    | exact Sub.of hk rfl
    | with_reducible intro _
    | with_reducible apply kept_ite
    | with_reducible apply post_kept

theorem stallRing_kept {fp : Nat} {z : State} {s : State} {r : Nat} (h : Kept fp z s)
    (hk : Sub 10392 fp) :
    Kept fp z (stallRing s r) := by
  unfold stallRing
  repeat' first
    | with_reducible assumption
    | exact Sub.of hk rfl
    | with_reducible intro _
    | with_reducible apply kept_ite
    | with_reducible apply count_kept
    | with_reducible apply setRing_kept
    | with_reducible apply setBit_kept
    | with_reducible apply setReg_kept
    | with_reducible apply raiseEv_kept
    | with_reducible apply notify_kept

theorem dispatch_kept {fp : Nat} {z : State} {s : State} {r : Nat} {i : Nat} {w : Nat} {d : DescIn} (h : Kept fp z s)
    (hk : Sub 10456 fp) :
    Kept fp z (dispatch s r i w d) := by
  unfold dispatch
  repeat' first
    | with_reducible assumption
    | exact Sub.of hk rfl
    | with_reducible intro _
    | with_reducible apply kept_ite
    | with_reducible apply emitReads_kept
    | with_reducible apply dmaErr_kept
    | with_reducible apply setHost_kept
    | with_reducible apply setRing_kept
    | with_reducible apply endDesc_kept
    | with_reducible apply kept_foldl
    | with_reducible apply kept_getD
    | with_reducible apply keptF_of
    | with_reducible apply keptQ_snd
    | with_reducible apply keptP_snd
    | dsimp only
    | with_reducible apply keptP_ite
    | simp only [keptQ_mk]
    | with_reducible apply keptQ_ite
    | split

theorem failDesc_kept {fp : Nat} {z : State} {s : State} {r : Nat} {i : Nat} (h : Kept fp z s)
    (hk : Sub 10456 fp) :
    Kept fp z (failDesc s r i) := by
  unfold failDesc
  repeat' first
    | with_reducible assumption
    | exact Sub.of hk rfl
    | with_reducible intro _
    | with_reducible apply kept_ite
    | with_reducible apply dmaErr_kept
    | with_reducible apply endDesc_kept
    | with_reducible apply setRing_kept
    | with_reducible apply endShuttle_kept

theorem processRing_kept {fp : Nat} {z : State} {s : State} {r : Nat} (h : Kept fp z s)
    (hk : Sub 10456 fp) :
    Kept fp z (processRing s r) := by
  unfold processRing
  repeat' first
    | with_reducible assumption
    | exact Sub.of hk rfl
    | with_reducible intro _
    | with_reducible apply kept_ite
    | with_reducible apply startFetch_kept
    | with_reducible apply failDesc_kept
    | with_reducible apply setRing_kept
    | with_reducible apply stallRing_kept
    | with_reducible apply dispatch_kept
    | with_reducible apply kept_foldl
    | with_reducible apply kept_getD
    | with_reducible apply keptF_of
    | with_reducible apply keptQ_snd
    | with_reducible apply keptP_snd
    | dsimp only
    | with_reducible apply keptP_ite
    | simp only [keptQ_mk]
    | with_reducible apply keptQ_ite
    | split

theorem resumeRings_kept {fp : Nat} {z : State} {s : State} {p : Ring → Bool} (h : Kept fp z s)
    (hk : Sub 10456 fp) :
    Kept fp z (resumeRings s p) := by
  unfold resumeRings
  repeat' first
    | with_reducible assumption
    | exact Sub.of hk rfl
    | with_reducible intro _
    | with_reducible apply kept_ite
    | with_reducible apply processRing_kept
    | with_reducible apply kept_foldl

theorem dbBad_kept {fp : Nat} {z : State} {s : State} (h : Kept fp z s)
    (hk : Sub 24 fp) :
    Kept fp z (dbBad s) := by
  unfold dbBad
  repeat' first
    | with_reducible assumption
    | exact Sub.of hk rfl
    | with_reducible intro _
    | with_reducible apply kept_ite
    | with_reducible apply setBit_kept
    | with_reducible apply count_kept

theorem acceptIndex_kept {fp : Nat} {z : State} {s : State} {r : Nat} {idx : Nat} (h : Kept fp z s)
    (hk : Sub 10456 fp) :
    Kept fp z (acceptIndex s r idx) := by
  unfold acceptIndex
  repeat' first
    | with_reducible assumption
    | exact Sub.of hk rfl
    | with_reducible intro _
    | with_reducible apply kept_ite
    | with_reducible apply dbBad_kept
    | with_reducible apply signalCq_kept
    | with_reducible apply setRing_kept
    | with_reducible apply resumeRings_kept
    | with_reducible apply drainCq_kept
    | with_reducible apply rereadNow_kept
    | with_reducible apply processRing_kept

theorem execDoorbellFetchDone_kept {fp : Nat} {z : State} {block : Nat} {data : Option (List Byte)} {s : State} (h : Kept fp z s)
    (hk : Sub 10456 fp) :
    KeptE fp z (execDoorbellFetchDone block data s) := by
  unfold execDoorbellFetchDone
  repeat' first
    | with_reducible assumption
    | exact Sub.of hk rfl
    | with_reducible intro _
    | with_reducible apply kept_ite
    | with_reducible apply keptE_next
    | with_reducible apply setHost_kept
    | with_reducible apply dmaErr_kept
    | with_reducible apply forUpTo_kept
    | with_reducible apply acceptIndex_kept
    | with_reducible apply issueFetches_kept
    | with_reducible apply kept_foldl
    | with_reducible apply kept_getD
    | with_reducible apply keptF_of
    | with_reducible apply keptQ_snd
    | with_reducible apply keptP_snd
    | dsimp only
    | with_reducible apply keptP_ite
    | simp only [keptQ_mk]
    | with_reducible apply keptQ_ite
    | split

theorem execDescriptorReadDone_kept {fp : Nat} {z : State} {r : Nat} {d : DescIn} {s : State} (h : Kept fp z s)
    (hk : Sub 10456 fp) :
    KeptE fp z (execDescriptorReadDone r d s) := by
  unfold execDescriptorReadDone
  repeat' first
    | with_reducible assumption
    | exact Sub.of hk rfl
    | with_reducible intro _
    | with_reducible apply kept_ite
    | with_reducible apply keptE_next
    | with_reducible apply processRing_kept
    | with_reducible apply setRing_kept

theorem execDescriptorReread_kept {fp : Nat} {z : State} {r : Nat} {s : State} (h : Kept fp z s)
    (hk : Sub 8336 fp) :
    KeptE fp z (execDescriptorReread r s) := by
  unfold execDescriptorReread
  repeat' first
    | with_reducible assumption
    | exact Sub.of hk rfl
    | with_reducible intro _
    | with_reducible apply kept_ite
    | with_reducible apply keptE_next
    | with_reducible apply rereadNow_kept

theorem startReads_kept {fp : Nat} {z : State} {s : State} {r : Nat} (h : Kept fp z s)
    (hk : Sub 8320 fp) :
    Kept fp z (startReads s r) := by
  unfold startReads
  repeat' first
    | with_reducible assumption
    | exact Sub.of hk rfl
    | with_reducible intro _
    | with_reducible apply kept_ite
    | with_reducible apply emitReads_kept
    | with_reducible apply setRing_kept
    | with_reducible apply kept_foldl
    | with_reducible apply kept_getD
    | with_reducible apply keptF_of
    | with_reducible apply keptQ_snd
    | with_reducible apply keptP_snd
    | dsimp only
    | with_reducible apply keptP_ite
    | simp only [keptQ_mk]
    | with_reducible apply keptQ_ite
    | split

theorem sendOut_kept {fp : Nat} {z : State} {s : State} {r : Nat} {c : List (Nat × Nat)} (h : Kept fp z s)
    (hk : Sub 8192 fp) :
    Kept fp z (sendOut s r c) := by
  unfold sendOut
  repeat' first
    | with_reducible assumption
    | exact Sub.of hk rfl
    | with_reducible intro _
    | with_reducible apply kept_ite
    | with_reducible apply setRing_kept

theorem endSend_kept {fp : Nat} {z : State} {s : State} {r : Nat} {c : List (Nat × Nat)} {status : Nat} {bytes : Nat} (h : Kept fp z s)
    (hk : Sub 8336 fp) :
    Kept fp z (endSend s r c status bytes) := by
  unfold endSend
  repeat' first
    | with_reducible assumption
    | exact Sub.of hk rfl
    | with_reducible intro _
    | with_reducible apply kept_ite
    | with_reducible apply post_kept
    | with_reducible apply sendOut_kept

theorem sendWhole_kept {fp : Nat} {z : State} {s : State} {r : Nat} {c : List (Nat × Nat)} {w : Nat} {d : List Byte} (h : Kept fp z s)
    (hk : Sub 190680 fp) :
    Kept fp z (sendWhole s r c w d) := by
  unfold sendWhole
  repeat' first
    | with_reducible assumption
    | exact Sub.of hk rfl
    | with_reducible intro _
    | with_reducible apply kept_ite
    | with_reducible apply setRing_kept
    | with_reducible apply heddleInput_kept
    | with_reducible apply sendOut_kept
    | with_reducible apply endSend_kept

theorem txTurn_kept {fp : Nat} {z : State} {s : State} {r : Nat} {data : Option (List Byte)} (h : Kept fp z s)
    (hk : Sub 190680 fp) :
    Kept fp z (txTurn s r data) := by
  unfold txTurn
  repeat' first
    | with_reducible assumption
    | exact Sub.of hk rfl
    | with_reducible intro _
    | with_reducible apply kept_ite
    | with_reducible apply endSend_kept
    | with_reducible apply dmaErr_kept
    | with_reducible apply setRing_kept
    | with_reducible apply heddleInput_kept
    | with_reducible apply sendWhole_kept
    | with_reducible apply kept_foldl
    | with_reducible apply kept_getD
    | with_reducible apply keptF_of
    | with_reducible apply keptQ_snd
    | with_reducible apply keptP_snd
    | dsimp only
    | with_reducible apply keptP_ite
    | simp only [keptQ_mk]
    | with_reducible apply keptQ_ite
    | split

theorem execTxSend_kept {fp : Nat} {z : State} {r : Nat} {data : Option (List Byte)} {s : State} (h : Kept fp z s)
    (hk : Sub 190680 fp) :
    KeptE fp z (execTxSend r data s) := by
  unfold execTxSend
  repeat' first
    | with_reducible assumption
    | exact Sub.of hk rfl
    | with_reducible intro _
    | with_reducible apply kept_ite
    | with_reducible apply keptE_next
    | with_reducible apply txTurn_kept
    | with_reducible apply startReads_kept

theorem cmdNop_kept {fp : Nat} {z : State} {a0 : CmdDesc} {a1 : State} (h : Kept fp z a1)
    (hk : Sub 0 fp) :
    KeptC fp z (cmdNop a0 a1) := by
  unfold cmdNop
  repeat' first
    | with_reducible assumption
    | exact Sub.of hk rfl
    | with_reducible intro _
    | with_reducible apply kept_ite
    | with_reducible apply keptC_fin

theorem cmdRingSetup_kept {fp : Nat} {z : State} {d : CmdDesc} {s : State} (h : Kept fp z s)
    (hk : Sub 8192 fp) :
    KeptC fp z (cmdRingSetup d s) := by
  unfold cmdRingSetup
  repeat' first
    | with_reducible assumption
    | exact Sub.of hk rfl
    | with_reducible intro _
    | with_reducible apply kept_ite
    | with_reducible apply keptC_fin
    | with_reducible apply keptC_work
    | with_reducible apply keptC_ite
    | with_reducible apply setRing_kept

theorem cmdRingResize_kept {fp : Nat} {z : State} {d : CmdDesc} {s : State} (h : Kept fp z s)
    (hk : Sub 8192 fp) :
    KeptC fp z (cmdRingResize d s) := by
  unfold cmdRingResize
  repeat' first
    | with_reducible assumption
    | exact Sub.of hk rfl
    | with_reducible intro _
    | with_reducible apply kept_ite
    | with_reducible apply keptC_fin
    | with_reducible apply keptC_work
    | with_reducible apply keptC_ite
    | with_reducible apply setRing_kept

theorem stopRing_kept {fp : Nat} {z : State} {s : State} {r : Nat} (h : Kept fp z s)
    (hk : Sub 8336 fp) :
    Kept fp z (stopRing s r) := by
  unfold stopRing
  repeat' first
    | with_reducible assumption
    | exact Sub.of hk rfl
    | with_reducible intro _
    | with_reducible apply kept_ite
    | with_reducible apply setRing_kept
    | with_reducible apply endDesc_kept
    | with_reducible apply setHost_kept
    | with_reducible apply cmdPost_kept
    | with_reducible apply kept_foldl
    | with_reducible apply kept_getD
    | with_reducible apply keptF_of
    | with_reducible apply keptQ_snd
    | with_reducible apply keptP_snd
    | simp only [keptP_mk]
    | with_reducible apply keptP_ite
    | simp only [keptQ_mk]
    | with_reducible apply keptQ_ite
    | split

theorem cmdRingStop_kept {fp : Nat} {z : State} {d : CmdDesc} {s : State} (h : Kept fp z s)
    (hk : Sub 8336 fp) :
    KeptC fp z (cmdRingStop d s) := by
  unfold cmdRingStop
  repeat' first
    | with_reducible assumption
    | exact Sub.of hk rfl
    | with_reducible intro _
    | with_reducible apply kept_ite
    | with_reducible apply keptC_fin
    | with_reducible apply keptC_work
    | with_reducible apply keptC_ite
    | with_reducible apply setRing_kept
    | with_reducible apply stopRing_kept
    | with_reducible apply kept_foldl
    | with_reducible apply kept_getD
    | with_reducible apply keptF_of
    | with_reducible apply keptQ_snd
    | with_reducible apply keptP_snd
    | dsimp only
    | with_reducible apply keptP_ite
    | simp only [keptQ_mk]
    | with_reducible apply keptQ_ite
    | split

theorem cmdCqModerate_kept {fp : Nat} {z : State} {d : CmdDesc} {s : State} (h : Kept fp z s)
    (hk : Sub 8336 fp) :
    KeptC fp z (cmdCqModerate d s) := by
  unfold cmdCqModerate
  repeat' first
    | with_reducible assumption
    | exact Sub.of hk rfl
    | with_reducible intro _
    | with_reducible apply kept_ite
    | with_reducible apply keptC_fin
    | with_reducible apply keptC_work
    | with_reducible apply keptC_ite
    | with_reducible apply signalCq_kept
    | with_reducible apply setRing_kept

theorem cmdRingQuery_kept {fp : Nat} {z : State} {d : CmdDesc} {s : State} (h : Kept fp z s)
    (hk : Sub 128 fp) :
    KeptC fp z (cmdRingQuery d s) := by
  unfold cmdRingQuery
  repeat' first
    | with_reducible assumption
    | exact Sub.of hk rfl
    | with_reducible intro _
    | with_reducible apply kept_ite
    | with_reducible apply keptC_fin
    | with_reducible apply keptC_work
    | with_reducible apply keptC_ite
    | with_reducible apply dmaWrite_kept

theorem execNop_kept {fp : Nat} {z : State} {d : CmdDesc} {s : State} (h : Kept fp z s)
    (hk : Sub 272856 fp) :
    KeptE fp z (execNop d s) := by
  unfold execNop
  repeat' first
    | with_reducible assumption
    | exact Sub.of hk rfl
    | with_reducible intro _
    | with_reducible apply kept_ite
    | with_reducible apply keptE_next
    | with_reducible apply cmdRow_kept
    | with_reducible apply cmdNop_kept

theorem execRingSetup_kept {fp : Nat} {z : State} {d : CmdDesc} {s : State} (h : Kept fp z s)
    (hk : Sub 272856 fp) :
    KeptE fp z (execRingSetup d s) := by
  unfold execRingSetup
  repeat' first
    | with_reducible assumption
    | exact Sub.of hk rfl
    | with_reducible intro _
    | with_reducible apply kept_ite
    | with_reducible apply keptE_next
    | with_reducible apply cmdRow_kept
    | with_reducible apply cmdRingSetup_kept

theorem execRingResize_kept {fp : Nat} {z : State} {d : CmdDesc} {s : State} (h : Kept fp z s)
    (hk : Sub 272856 fp) :
    KeptE fp z (execRingResize d s) := by
  unfold execRingResize
  repeat' first
    | with_reducible assumption
    | exact Sub.of hk rfl
    | with_reducible intro _
    | with_reducible apply kept_ite
    | with_reducible apply keptE_next
    | with_reducible apply cmdRow_kept
    | with_reducible apply cmdRingResize_kept

theorem execRingStop_kept {fp : Nat} {z : State} {d : CmdDesc} {s : State} (h : Kept fp z s)
    (hk : Sub 272856 fp) :
    KeptE fp z (execRingStop d s) := by
  unfold execRingStop
  repeat' first
    | with_reducible assumption
    | exact Sub.of hk rfl
    | with_reducible intro _
    | with_reducible apply kept_ite
    | with_reducible apply keptE_next
    | with_reducible apply cmdRow_kept
    | with_reducible apply cmdRingStop_kept

theorem execCqModerate_kept {fp : Nat} {z : State} {d : CmdDesc} {s : State} (h : Kept fp z s)
    (hk : Sub 272856 fp) :
    KeptE fp z (execCqModerate d s) := by
  unfold execCqModerate
  repeat' first
    | with_reducible assumption
    | exact Sub.of hk rfl
    | with_reducible intro _
    | with_reducible apply kept_ite
    | with_reducible apply keptE_next
    | with_reducible apply cmdRow_kept
    | with_reducible apply cmdCqModerate_kept

theorem execRingQuery_kept {fp : Nat} {z : State} {d : CmdDesc} {s : State} (h : Kept fp z s)
    (hk : Sub 272856 fp) :
    KeptE fp z (execRingQuery d s) := by
  unfold execRingQuery
  repeat' first
    | with_reducible assumption
    | exact Sub.of hk rfl
    | with_reducible intro _
    | with_reducible apply kept_ite
    | with_reducible apply keptE_next
    | with_reducible apply cmdRow_kept
    | with_reducible apply cmdRingQuery_kept

theorem execRingEntersOff_kept {fp : Nat} {z : State} {r : Nat} {s : State} (h : Kept fp z s)
    (hk : Sub 270480 fp) :
    KeptE fp z (execRingEntersOff r s) := by
  unfold execRingEntersOff
  repeat' first
    | with_reducible assumption
    | exact Sub.of hk rfl
    | with_reducible intro _
    | with_reducible apply kept_ite
    | with_reducible apply keptE_next
    | with_reducible apply workEnd_kept
    | with_reducible apply setRing_kept
    | with_reducible apply kept_foldl

theorem execMsixModTimer_kept {fp : Nat} {z : State} {c : Nat} {s : State} (h : Kept fp z s)
    (hk : Sub 8336 fp) :
    KeptE fp z (execMsixModTimer c s) := by
  unfold execMsixModTimer
  repeat' first
    | with_reducible assumption
    | exact Sub.of hk rfl
    | with_reducible intro _
    | with_reducible apply kept_ite
    | with_reducible apply keptE_next
    | with_reducible apply sendMsix_kept
    | with_reducible apply setRing_kept

theorem refuseEn_kept {fp : Nat} {z : State} {s : State} {a : Nat} {v : Nat} (h : Kept fp z s)
    (hk : Sub 2136 fp) :
    Kept fp z (refuseEn s a v) := by
  unfold refuseEn
  repeat' first
    | with_reducible assumption
    | exact Sub.of hk rfl
    | with_reducible intro _
    | with_reducible apply kept_ite
    | with_reducible apply progErr_kept
    | with_reducible apply setFld_kept

theorem hostCommit_kept {fp : Nat} {z : State} {cmd0 : Bool} {cq0 : Bool} {run0 : Bool} {s : State} (h : Kept fp z s)
    (hk : Sub 10456 fp) :
    Kept fp z (hostCommit cmd0 cq0 run0 s) := by
  unfold hostCommit
  repeat' first
    | with_reducible assumption
    | exact Sub.of hk rfl
    | with_reducible intro _
    | with_reducible apply kept_ite
    | with_reducible apply setRing_kept
    | with_reducible apply refuseEn_kept
    | with_reducible apply stopRing_kept
    | with_reducible apply resumeRings_kept
    | with_reducible apply issueFetches_kept

theorem msixRelease_kept {fp : Nat} {z : State} {s : State} (h : Kept fp z s)
    (hk : Sub 8336 fp) :
    Kept fp z (msixRelease s) := by
  unfold msixRelease
  repeat' first
    | with_reducible assumption
    | exact Sub.of hk rfl
    | with_reducible intro _
    | with_reducible apply kept_ite
    | with_reducible apply sendMsix_kept
    | with_reducible apply setHost_kept
    | with_reducible apply kept_foldl

theorem execBusMasterEnable_kept {fp : Nat} {z : State} {en : Bool} {width : Nat} {speed : Nat} {cfg : PcieCfg} {s : State} (h : Kept fp z s)
    (hk : Sub 10456 fp) :
    KeptE fp z (execBusMasterEnable en width speed s cfg) := by
  unfold execBusMasterEnable
  repeat' first
    | with_reducible assumption
    | exact Sub.of hk rfl
    | with_reducible intro _
    | with_reducible apply kept_ite
    | with_reducible apply keptE_next
    | with_reducible apply emit_kept
    | with_reducible apply setHost_kept
    | with_reducible apply setFld_kept
    | with_reducible apply msixRelease_kept
    | with_reducible apply issueFetches_kept
    | with_reducible apply drainCq_kept
    | with_reducible apply resumeRings_kept
    | with_reducible apply kept_foldl

theorem dropHostWork_kept {fp : Nat} {z : State} {s : State} (h : Kept fp z s)
    (hk : Sub 4628488 fp) :
    Kept fp z (dropHostWork s) := by
  unfold dropHostWork
  repeat' first
    | with_reducible assumption
    | exact Sub.of hk rfl
    | (with_reducible apply otpLe_mk <;> first | exact Nat.le_refl _ | exact Nat.le_max_left _ _ | exact fun h => ⟨h, rfl⟩ | rfl | exact fun h => absurd h (by assumption))
    | with_reducible intro _
    | with_reducible apply kept_ite
    | with_reducible apply setHost_kept
    | with_reducible apply setReed_kept
    | with_reducible apply setHeddle_kept
    | with_reducible apply imgStop_kept
    | with_reducible apply setSec_kept
    | with_reducible apply kept_foldl
    | with_reducible apply kept_getD
    | with_reducible apply keptF_of
    | with_reducible apply keptQ_snd
    | with_reducible apply keptP_snd
    | dsimp only
    | with_reducible apply keptP_ite
    | simp only [keptQ_mk]
    | with_reducible apply keptQ_ite
    | split
    | simp only [kept_mk]
    | with_reducible refine keptF_upd ?_ (updF hk ?_)
    | (unfold UpdF; and_intros <;> first | exact .inl rfl | exact .inr rfl | exact .inr id | exact .inr fun _ => rfl | exact .refl _ | exact fun h => ⟨h, rfl⟩ | rfl | exact Nat.le_max_left _ _)

theorem resetHostRegs_kept {fp : Nat} {z s : State} (h : Kept fp z s)
    (hk : Sub 56 fp) : Kept fp z (resetHostRegs s) := by
  unfold resetHostRegs
  exact kept_lose h hk

theorem hostFunctionReset_kept {fp : Nat} {z : State} {down : Bool} {s : State} (h : Kept fp z s)
    (hk : Sub 4628536 fp) :
    Kept fp z (hostFunctionReset down s) := by
  unfold hostFunctionReset
  repeat' first
    | with_reducible assumption
    | exact Sub.of hk rfl
    | with_reducible intro _
    | with_reducible apply kept_ite
    | with_reducible apply dropHostWork_kept
    | with_reducible apply resetHostRegs_kept
    | with_reducible apply setHost_kept
    | with_reducible apply setFld_kept

theorem msixWrite_kept {fp : Nat} {z : State} {i : Nat} {v : Nat} {s : State} (h : Kept fp z s)
    (hk : Sub 8336 fp) :
    Kept fp z (msixWrite i v s) := by
  unfold msixWrite
  repeat' first
    | with_reducible assumption
    | exact Sub.of hk rfl
    | with_reducible intro _
    | with_reducible apply kept_ite
    | with_reducible apply setHost_kept
    | with_reducible apply sendMsix_kept

theorem dropFetched.sends_kept {fp : Nat} {z : State} {r : Nat} {a1 : Nat} {a2 : List (Nat × Nat)} {a3 : State} (h : Kept fp z a3)
    (hk : Sub 8336 fp) :
    Kept fp z (dropFetched.sends r a1 a2 a3) := by
  induction a1 generalizing r a2 a3 with
  | zero =>
    unfold dropFetched.sends
    repeat' first
      | with_reducible assumption
  | succ n ih =>
    unfold dropFetched.sends
    repeat' first
      | with_reducible assumption
      | with_reducible apply ih
      | exact Sub.of hk rfl
      | with_reducible intro _
      | with_reducible apply kept_ite
      | with_reducible apply endDesc_kept
      | with_reducible apply kept_foldl
      | with_reducible apply kept_getD
      | with_reducible apply keptF_of
      | with_reducible apply keptQ_snd
      | with_reducible apply keptP_snd
      | dsimp only
      | with_reducible apply keptP_ite
      | simp only [keptQ_mk]
      | with_reducible apply keptQ_ite
      | split

theorem dropFetched_kept {fp : Nat} {z : State} {s : State} {r : Nat} (h : Kept fp z s)
    (hk : Sub 8336 fp) :
    Kept fp z (dropFetched s r) := by
  unfold dropFetched
  repeat' first
    | with_reducible assumption
    | exact Sub.of hk rfl
    | with_reducible intro _
    | with_reducible apply kept_ite
    | with_reducible apply setRing_kept
    | with_reducible apply endDesc_kept
    | with_reducible apply dropFetched.sends_kept
    | with_reducible apply endShuttle_kept
    | with_reducible apply setHost_kept
    | with_reducible apply cmdPost_kept
    | with_reducible apply kept_foldl

theorem hostRecover_kept {fp : Nat} {z : State} {s : State} (h : Kept fp z s)
    (hk : Sub 8336 fp) :
    Kept fp z (hostRecover s) := by
  unfold hostRecover
  repeat' first
    | with_reducible assumption
    | exact Sub.of hk rfl
    | with_reducible intro _
    | with_reducible apply kept_ite
    | with_reducible apply dropFetched_kept
    | with_reducible apply setHost_kept
    | with_reducible apply kept_foldl

theorem hostResume_kept {fp : Nat} {z : State} {s : State} (h : Kept fp z s)
    (hk : Sub 10456 fp) :
    Kept fp z (hostResume s) := by
  unfold hostResume
  repeat' first
    | with_reducible assumption
    | exact Sub.of hk rfl
    | with_reducible intro _
    | with_reducible apply kept_ite
    | with_reducible apply resumeRings_kept
    | with_reducible apply issueFetches_kept

/-! ## Machine/Shuttle.lean -/

theorem setChan_kept {fp : Nat} {z : State} {s : State} {c : Nat} {x : ShChan} (h : Kept fp z s)
    (hk : Sub 8388608 fp) :
    Kept fp z (setChan s c x) := by
  unfold setChan
  repeat' first
    | with_reducible assumption
    | exact Sub.of hk rfl
    | with_reducible intro _
    | with_reducible apply kept_ite
    | with_reducible apply kept_foldl
    | with_reducible apply kept_getD
    | with_reducible apply keptF_of
    | with_reducible apply keptQ_snd
    | with_reducible apply keptP_snd
    | dsimp only
    | with_reducible apply keptP_ite
    | simp only [keptQ_mk]
    | with_reducible apply keptQ_ite
    | split
    | simp only [kept_mk]
    | with_reducible refine keptF_upd ?_ (updF hk ?_)
    | (unfold UpdF; and_intros <;> first | exact .inl rfl | exact .inr rfl | exact .inr id | exact .inr fun _ => rfl | exact .refl _ | exact fun h => ⟨h, rfl⟩ | rfl | exact Nat.le_max_left _ _)

theorem shCounter_kept {fp : Nat} {z : State} {s : State} {op : Nat} {status : Nat} (h : Kept fp z s)
    (hk : Sub 16 fp) :
    Kept fp z (shCounter s op status) := by
  unfold shCounter
  repeat' first
    | with_reducible assumption
    | exact Sub.of hk rfl
    | with_reducible intro _
    | with_reducible apply kept_ite
    | with_reducible apply count_kept
    | with_reducible apply kept_foldl
    | with_reducible apply kept_getD
    | with_reducible apply keptF_of
    | with_reducible apply keptQ_snd
    | with_reducible apply keptP_snd
    | simp only [keptP_mk]
    | with_reducible apply keptP_ite
    | simp only [keptQ_mk]
    | with_reducible apply keptQ_ite
    | split

theorem shComplete_kept {fp : Nat} {z : State} {s : State} {c : Nat} {r : Nat} {i : Nat} {w : Nat} {status : Nat} {bytes : Nat} {mism : Option Nat} (h : Kept fp z s)
    (hk : Sub 8336 fp) :
    Kept fp z (shComplete s c r i w status bytes mism) := by
  unfold shComplete
  repeat' first
    | with_reducible assumption
    | exact Sub.of hk rfl
    | with_reducible intro _
    | with_reducible apply kept_ite
    | with_reducible apply post_kept
    | with_reducible apply shCounter_kept

theorem shSkim_kept {fp : Nat} {z : State} {a0 : Nat} {a1 : State} {a2 : Nat} (h : Kept fp z a1)
    (hk : Sub 8336 fp) :
    Kept fp z (shSkim a0 a1 a2) := by
  induction a0 generalizing a1 a2 with
  | zero =>
    unfold shSkim
    repeat' first
      | with_reducible assumption
  | succ n ih =>
    unfold shSkim
    repeat' first
      | with_reducible assumption
      | with_reducible apply ih
      | exact Sub.of hk rfl
      | with_reducible intro _
      | with_reducible apply kept_ite
      | with_reducible apply shComplete_kept
      | with_reducible apply setRing_kept
      | with_reducible apply kept_foldl
      | with_reducible apply kept_getD
      | with_reducible apply keptF_of
      | with_reducible apply keptQ_snd
      | with_reducible apply keptP_snd
      | dsimp only
      | with_reducible apply keptP_ite
      | simp only [keptQ_mk]
      | with_reducible apply keptQ_ite
      | split

theorem shStart_kept {fp : Nat} {z : State} {c : Nat} {op : Nat} {s : State} (h : Kept fp z s)
    (hk : Sub 8396944 fp) :
    Kept fp z (shStart c op s) := by
  unfold shStart
  repeat' first
    | with_reducible assumption
    | exact Sub.of hk rfl
    | with_reducible intro _
    | with_reducible apply kept_ite
    | with_reducible apply shSkim_kept
    | with_reducible apply setRing_kept
    | with_reducible apply shComplete_kept
    | with_reducible apply setChan_kept
    | with_reducible apply kept_foldl
    | with_reducible apply kept_getD
    | with_reducible apply keptF_of
    | with_reducible apply keptQ_snd
    | with_reducible apply keptP_snd
    | dsimp only
    | with_reducible apply keptP_ite
    | simp only [keptQ_mk]
    | with_reducible apply keptQ_ite
    | split

theorem execCopy_kept {fp : Nat} {z : State} {c : Nat} {s : State} (h : Kept fp z s)
    (hk : Sub 8396944 fp) :
    KeptE fp z (execCopy c s) := by
  unfold execCopy
  repeat' first
    | with_reducible assumption
    | exact Sub.of hk rfl
    | with_reducible intro _
    | with_reducible apply kept_ite
    | with_reducible apply keptE_next
    | with_reducible apply shStart_kept

theorem execFill_kept {fp : Nat} {z : State} {c : Nat} {s : State} (h : Kept fp z s)
    (hk : Sub 8396944 fp) :
    KeptE fp z (execFill c s) := by
  unfold execFill
  repeat' first
    | with_reducible assumption
    | exact Sub.of hk rfl
    | with_reducible intro _
    | with_reducible apply kept_ite
    | with_reducible apply keptE_next
    | with_reducible apply shStart_kept

theorem execCompare_kept {fp : Nat} {z : State} {c : Nat} {s : State} (h : Kept fp z s)
    (hk : Sub 8396944 fp) :
    KeptE fp z (execCompare c s) := by
  unfold execCompare
  repeat' first
    | with_reducible assumption
    | exact Sub.of hk rfl
    | with_reducible intro _
    | with_reducible apply kept_ite
    | with_reducible apply keptE_next
    | with_reducible apply shStart_kept

theorem sideMove_kept {fp : Nat} {z : State} {s : State} {w : Nat} {d : Bool} {k : Option ShWin} {n : Nat} (h : Kept fp z s)
    (hk : Sub 16 fp) :
    KeptP fp z (sideMove s w d k n) := by
  unfold sideMove
  repeat' first
    | with_reducible assumption
    | exact Sub.of hk rfl
    | with_reducible intro _
    | with_reducible apply kept_ite
    | with_reducible apply keptP_ite
    | simp only [keptP_mk]
    | with_reducible apply count_kept
    | with_reducible apply kept_foldl
    | with_reducible apply kept_getD
    | with_reducible apply keptF_of
    | with_reducible apply keptQ_snd
    | with_reducible apply keptP_snd
    | simp only [keptP_mk]
    | with_reducible apply keptP_ite
    | simp only [keptQ_mk]
    | with_reducible apply keptQ_ite
    | split

theorem sideMove_kept_of {fp : Nat} {z : State} {s : State} {w : Nat} {d : Bool} {k : Option ShWin} {n : Nat} {x9} {t9 : State} (h : Kept fp z s) (e : sideMove s w d k n = (x9, t9)) (hk : Sub 16 fp) : Kept fp z t9 := keptP_of (sideMove_kept (z := z) h hk) e

theorem jobEnd_kept {fp : Nat} {z : State} {s : State} {c : Nat} {status : Nat} (h : Kept fp z s)
    (hk : Sub 8388608 fp) :
    Kept fp z (jobEnd s c status) := by
  unfold jobEnd
  repeat' first
    | with_reducible assumption
    | exact Sub.of hk rfl
    | with_reducible intro _
    | with_reducible apply kept_ite
    | with_reducible apply setChan_kept
    | with_reducible apply kept_foldl
    | with_reducible apply kept_getD
    | with_reducible apply keptF_of
    | with_reducible apply keptQ_snd
    | with_reducible apply keptP_snd
    | dsimp only
    | with_reducible apply keptP_ite
    | simp only [keptQ_mk]
    | with_reducible apply keptQ_ite
    | split

theorem sideWrite_kept {fp : Nat} {z : State} {s : State} {w : Nat} {a : Nat} {l : List Byte} (h : Kept fp z s)
    (hk : Sub 130 fp) :
    Kept fp z (sideWrite s w a l) := by
  unfold sideWrite
  repeat' first
    | with_reducible assumption
    | exact Sub.of hk rfl
    | with_reducible intro _
    | with_reducible apply kept_ite
    | with_reducible apply dramWrite_kept
    | with_reducible apply dmaWrite_kept

theorem burstStore_kept {fp : Nat} {z : State} {s : State} {w : Nat} {d : Nat} {n : Nat} {l : List Byte} (h : Kept fp z s)
    (hk : Sub 146 fp) :
    Kept fp z (burstStore s w d n l) := by
  unfold burstStore
  repeat' first
    | with_reducible assumption
    | exact Sub.of hk rfl
    | with_reducible intro _
    | with_reducible apply kept_ite
    | with_reducible apply countBy_kept
    | with_reducible apply sideWrite_kept
    | with_reducible apply kept_foldl
    | with_reducible apply kept_getD
    | with_reducible apply keptF_of
    | with_reducible apply keptQ_snd
    | with_reducible apply keptP_snd
    | simp only [keptP_mk]
    | with_reducible apply keptP_ite
    | simp only [keptQ_mk]
    | with_reducible apply keptQ_ite
    | split

theorem burstMove_kept {fp : Nat} {z : State} {s : State} {c : Nat} {x : ShChan} {j : ShJob} {n : Nat} {d : Nat} {sd : List Byte} {dd : List Byte} (h : Kept fp z s)
    (hk : Sub 8388754 fp) :
    Kept fp z (burstMove s c x j n d sd dd) := by
  unfold burstMove
  repeat' first
    | with_reducible assumption
    | exact Sub.of hk rfl
    | with_reducible intro _
    | with_reducible apply kept_ite
    | with_reducible apply burstStore_kept
    | with_reducible refine sideMove_kept_of ?_ (by assumption) ?_
    | with_reducible apply sideMove_kept
    | with_reducible apply setChan_kept
    | with_reducible apply kept_foldl
    | with_reducible apply kept_getD
    | with_reducible apply keptF_of
    | with_reducible apply keptQ_snd
    | with_reducible apply keptP_snd

theorem runBurst_kept {fp : Nat} {z : State} {s : State} {c : Nat} {b : BurstIn} (h : Kept fp z s)
    (hk : Sub 8399066 fp) :
    Kept fp z (runBurst s c b) := by
  unfold runBurst
  repeat' first
    | with_reducible assumption
    | exact Sub.of hk rfl
    | with_reducible intro _
    | with_reducible apply kept_ite
    | with_reducible apply jobEnd_kept
    | with_reducible apply raiseRoot_kept
    | with_reducible apply emitReads_kept
    | with_reducible apply burstMove_kept
    | with_reducible apply dmaErr_kept
    | with_reducible apply kept_foldl
    | with_reducible apply kept_getD
    | with_reducible apply keptF_of
    | with_reducible apply keptQ_snd
    | with_reducible apply keptP_snd
    | dsimp only
    | with_reducible apply keptP_ite
    | simp only [keptQ_mk]
    | with_reducible apply keptQ_ite
    | split

theorem execShuttleBurst_kept {fp : Nat} {z : State} {b : BurstIn} {s : State} (h : Kept fp z s)
    (hk : Sub 8399066 fp) :
    KeptE fp z (execShuttleBurst b s) := by
  unfold execShuttleBurst
  repeat' first
    | with_reducible assumption
    | exact Sub.of hk rfl
    | with_reducible intro _
    | with_reducible apply kept_ite
    | with_reducible apply keptE_next
    | with_reducible apply forUpTo_kept
    | with_reducible apply setChan_kept
    | with_reducible apply runBurst_kept
    | with_reducible apply kept_foldl
    | with_reducible apply kept_getD
    | with_reducible apply keptF_of
    | with_reducible apply keptQ_snd
    | with_reducible apply keptP_snd
    | dsimp only
    | with_reducible apply keptP_ite
    | simp only [keptQ_mk]
    | with_reducible apply keptQ_ite
    | split
    | simp only [kept_mk]
    | with_reducible refine keptF_upd ?_ (updF hk ?_)
    | (unfold UpdF; and_intros <;> first | exact .inl rfl | exact .inr rfl | exact .inr id | exact .inr fun _ => rfl | exact .refl _ | exact fun h => ⟨h, rfl⟩ | rfl | exact Nat.le_max_left _ _)

theorem jobPost_kept {fp : Nat} {z : State} {s : State} {c : Nat} (h : Kept fp z s)
    (hk : Sub 8396944 fp) :
    Kept fp z (jobPost s c) := by
  unfold jobPost
  repeat' first
    | with_reducible assumption
    | exact Sub.of hk rfl
    | with_reducible intro _
    | with_reducible apply kept_ite
    | with_reducible apply setChan_kept
    | with_reducible apply shComplete_kept
    | with_reducible apply kept_foldl
    | with_reducible apply kept_getD
    | with_reducible apply keptF_of
    | with_reducible apply keptQ_snd
    | with_reducible apply keptP_snd
    | dsimp only
    | with_reducible apply keptP_ite
    | simp only [keptQ_mk]
    | with_reducible apply keptQ_ite
    | split

theorem execShuttleDescDone_kept {fp : Nat} {z : State} {c : Nat} {s : State} (h : Kept fp z s)
    (hk : Sub 8396944 fp) :
    KeptE fp z (execShuttleDescDone c s) := by
  unfold execShuttleDescDone
  repeat' first
    | with_reducible assumption
    | exact Sub.of hk rfl
    | with_reducible intro _
    | with_reducible apply kept_ite
    | with_reducible apply keptE_next
    | with_reducible apply jobPost_kept
    | with_reducible apply shSkim_kept

theorem shAbort_kept {fp : Nat} {z : State} {c : Nat} {s : State} (h : Kept fp z s)
    (hk : Sub 8388608 fp) :
    Kept fp z (shAbort c s) := by
  unfold shAbort
  repeat' first
    | with_reducible assumption
    | exact Sub.of hk rfl
    | with_reducible intro _
    | with_reducible apply kept_ite
    | with_reducible apply jobEnd_kept

theorem shWinReset_kept {fp : Nat} {z : State} {c : Nat} {s : State} (h : Kept fp z s)
    (hk : Sub 8388608 fp) :
    Kept fp z (shWinReset c s) := by
  unfold shWinReset
  repeat' first
    | with_reducible assumption
    | exact Sub.of hk rfl
    | with_reducible intro _
    | with_reducible apply kept_ite
    | with_reducible apply setChan_kept

theorem shuttleCommit_kept {fp : Nat} {z : State} {old : Nat → Nat} {s : State} (h : Kept fp z s)
    (hk : Sub 8390744 fp) :
    Kept fp z (shuttleCommit old s) := by
  unfold shuttleCommit
  repeat' first
    | with_reducible assumption
    | exact Sub.of hk rfl
    | with_reducible intro _
    | with_reducible apply kept_ite
    | with_reducible apply forUpTo_kept
    | with_reducible apply setChan_kept
    | with_reducible apply progErr_kept
    | with_reducible apply setBit_kept

theorem shuttleRecover_kept {fp : Nat} {z : State} {s : State} (h : Kept fp z s)
    (hk : Sub 8396944 fp) :
    Kept fp z (shuttleRecover s) := by
  unfold shuttleRecover
  repeat' first
    | with_reducible assumption
    | exact Sub.of hk rfl
    | with_reducible intro _
    | with_reducible apply kept_ite
    | with_reducible apply forUpTo_kept
    | with_reducible apply shComplete_kept
    | with_reducible apply setChan_kept
    | with_reducible apply setRing_kept
    | with_reducible apply kept_foldl
    | with_reducible apply kept_getD
    | with_reducible apply keptF_of
    | with_reducible apply keptQ_snd
    | with_reducible apply keptP_snd
    | simp only [keptP_mk]
    | with_reducible apply keptP_ite
    | simp only [keptQ_mk]
    | with_reducible apply keptQ_ite
    | split

theorem shuttleDrop_kept {fp : Nat} {z : State} {s : State} (h : Kept fp z s)
    (hk : Sub 8388608 fp) :
    Kept fp z (shuttleDrop s) := by
  unfold shuttleDrop
  repeat' first
    | with_reducible assumption
    | exact Sub.of hk rfl
    | with_reducible intro _
    | with_reducible apply kept_ite
    | with_reducible apply forUpTo_kept
    | with_reducible apply setChan_kept

theorem execHostFunctionReset_kept {fp : Nat} {z : State} {down : Bool} {s : State} (h : Kept fp z s)
    (hk : Sub 13017144 fp) :
    KeptE fp z (execHostFunctionReset down s) := by
  unfold execHostFunctionReset
  repeat' first
    | with_reducible assumption
    | exact Sub.of hk rfl
    | with_reducible intro _
    | with_reducible apply kept_ite
    | with_reducible apply keptE_next
    | with_reducible apply shuttleDrop_kept
    | with_reducible apply hostFunctionReset_kept

end Sys2Proof.Machine
end

