-- ==== Sys2Proof/Laws/KeptSystem.lean ====
section
/-! SUPPORT. Laws/KeptSystem.lean: what Laws/Kept.lean says, of power, Selvedge, host access, start-up and the commit point: one lemma an operation. -/

namespace Sys2Proof.Machine

open Sys2Proof

/-! ## Machine/Power.lean -/

theorem setPower_kept {fp : Nat} {z s : State} {x : Power} (h : Kept fp z s) (hk : Sub 512 fp)
    (o : fp.testBit 27 = true ∨ x.ready = s.power.ready) : Kept fp z (setPower s x) := by
  unfold setPower
  simp only [kept_mk]
  refine keptF_upd h ?_
  have u := updF_refl fp s
  unfold UpdF at u ⊢
  obtain ⟨a0, a1, a2, a3, a4, a5, a6, a7, a8, a9, a10, a11, a12, a13, a14, a15, a16, a17, a18, a19, a20, a21, a22, a23, a24⟩ := u
  exact ⟨a0, a1, a2, a3, .inl (hk 9 rfl), a5, a6, a7, a8, a9, a10, a11, a12, a13, a14, a15, a16, a17, a18, a19, a20, a21, o, a23, a24⟩

theorem setTarget_kept {fp : Nat} {z : State} {s : State} {t : Nat} (h : Kept fp z s)
    (hk : Sub 8 fp) :
    Kept fp z (setTarget s t) := by
  unfold setTarget
  repeat' first
    | with_reducible assumption
    | exact Sub.of hk rfl
    | with_reducible intro _
    | with_reducible apply kept_ite
    | with_reducible apply setFld_kept

theorem setPdBits_kept {fp : Nat} {z : State} {s : State} {on : Bool} {p : Nat → Bool} (h : Kept fp z s)
    (hk : Sub 8 fp) :
    Kept fp z (setPdBits s on p) := by
  unfold setPdBits
  repeat' first
    | with_reducible assumption
    | exact Sub.of hk rfl
    | with_reducible intro _
    | with_reducible apply kept_ite
    | with_reducible apply forUpTo_kept
    | with_reducible apply setFld_kept

theorem regsLost_kept {fp : Nat} {z : State} {d : Nat} {s : State} (h : Kept fp z s)
    (hk : Sub 56 fp) : Kept fp z (regsLost d s) := by
  unfold regsLost
  exact kept_lose h hk

theorem endWorks_kept {fp : Nat} {z : State} {status : Nat} {p : CmdWork → Bool} {s : State} (h : Kept fp z s)
    (hk : Sub 270480 fp) :
    Kept fp z (endWorks status p s) := by
  unfold endWorks
  repeat' first
    | with_reducible assumption
    | exact Sub.of hk rfl
    | with_reducible intro _
    | with_reducible apply kept_ite
    | with_reducible apply workEnd_kept
    | with_reducible apply kept_foldl

theorem heddleLose_kept {fp : Nat} {z : State} {s : State} (h : Kept fp z s)
    (hk : Sub 59608 fp) :
    Kept fp z (heddleLose s) := by
  unfold heddleLose
  repeat' first
    | with_reducible assumption
    | exact Sub.of hk rfl
    | with_reducible intro _
    | with_reducible apply kept_ite
    | with_reducible apply frameGone_kept
    | with_reducible apply setHeddle_kept
    | with_reducible apply kept_foldl

theorem missesResolve_kept {fp : Nat} {z : State} {s : State} (h : Kept fp z s)
    (hk : Sub 256218 fp) :
    Kept fp z (missesResolve s) := by
  unfold missesResolve
  repeat' first
    | with_reducible assumption
    | exact Sub.of hk rfl
    | with_reducible intro _
    | with_reducible apply kept_ite
    | with_reducible apply resolveWaiting_kept
    | with_reducible apply setFlow_kept
    | with_reducible apply kept_foldl

theorem identLose_kept {fp : Nat} {z : State} {s : State} (h : Kept fp z s)
    (hk : Sub 3416216 fp) :
    Kept fp z (identLose s) := by
  unfold identLose
  repeat' first
    | with_reducible assumption
    | exact Sub.of hk rfl
    | (with_reducible apply otpLe_mk <;> first | exact Nat.le_refl _ | exact Nat.le_max_left _ _ | exact fun h => ⟨h, rfl⟩ | rfl | exact fun h => absurd h (by assumption))
    | with_reducible intro _
    | with_reducible apply kept_ite
    | with_reducible apply imgStop_kept
    | with_reducible apply endWorks_kept
    | with_reducible apply setSec_kept
    | with_reducible apply setAct_kept
    | with_reducible apply setWeft_kept

theorem unitLose_kept {fp : Nat} {z : State} {d : Nat} {s : State} (h : Kept fp z s)
    (hk : Sub 125828314 fp) :
    Kept fp z (unitLose d s) := by
  unfold unitLose
  repeat' first
    | with_reducible assumption
    | exact Sub.of hk rfl
    | (with_reducible apply otpLe_mk <;> first | exact Nat.le_refl _ | exact Nat.le_max_left _ _ | exact fun h => ⟨h, rfl⟩ | rfl | exact fun h => absurd h (by assumption))
    | with_reducible intro _
    | with_reducible apply kept_ite
    | with_reducible apply setWarp_kept
    | with_reducible apply dropContexts_kept
    | with_reducible apply endBursts_kept
    | with_reducible apply cancelBursts_kept
    | with_reducible apply setWeft_kept
    | with_reducible apply endWorks_kept
    | with_reducible apply heddleLose_kept
    | with_reducible apply frameGone_kept
    | with_reducible apply count_kept
    | with_reducible apply dropFlight_kept
    | with_reducible apply setFlow_kept
    | with_reducible apply missesResolve_kept
    | with_reducible apply dramLose_kept
    | with_reducible apply managerLose_kept
    | with_reducible apply bankLose_kept
    | with_reducible apply setReed_kept
    | with_reducible apply flushAll_kept
    | with_reducible apply setSec_kept
    | with_reducible apply identLose_kept
    | with_reducible apply setTime_kept
    | with_reducible apply forUpTo_kept
    | with_reducible apply laneOff_kept
    | with_reducible apply setPorts_kept
    | with_reducible apply macLink_kept
    | with_reducible apply macAbort_kept
    | with_reducible apply setDraft_kept
    | with_reducible apply skeinLose_kept
    | with_reducible apply kept_foldl

theorem setUnit_kept {fp : Nat} {z : State} {s : State} {src : Nat} {u : UnitInfo} (h : Kept fp z s)
    (hk : Sub 2048 fp) :
    Kept fp z (setUnit s src u) := by
  unfold setUnit
  repeat' first
    | with_reducible assumption
    | exact Sub.of hk rfl
    | with_reducible intro _
    | with_reducible apply kept_ite
    | with_reducible apply kept_foldl
    | with_reducible apply kept_getD
    | with_reducible apply keptF_of
    | with_reducible apply keptQ_snd
    | with_reducible apply keptP_snd
    | dsimp only
    | with_reducible apply keptP_ite
    | simp only [keptQ_mk]
    | with_reducible apply keptQ_ite
    | split
    | simp only [kept_mk]
    | with_reducible refine keptF_upd ?_ (updF hk ?_)
    | (unfold UpdF; and_intros <;> first | exact .inl rfl | exact .inr rfl | exact .inr id | exact .inr fun _ => rfl | exact .refl _ | exact fun h => ⟨h, rfl⟩ | rfl | exact Nat.le_max_left _ _)

theorem recoveryOff_kept {fp : Nat} {z : State} {d : Nat} {s : State} (h : Kept fp z s)
    (hk : Sub 2048 fp) :
    Kept fp z (recoveryOff d s) := by
  unfold recoveryOff
  repeat' first
    | with_reducible assumption
    | exact Sub.of hk rfl
    | with_reducible intro _
    | with_reducible apply kept_ite
    | with_reducible apply setUnit_kept
    | with_reducible apply kept_foldl

theorem domainOff_kept {fp : Nat} {z : State} {d : Nat} {s : State} (h : Kept fp z s)
    (hk : Sub 125828858 fp) :
    Kept fp z (domainOff d s) := by
  unfold domainOff
  repeat' first
    | with_reducible assumption
    | exact Sub.of hk rfl
    | (with_reducible refine Or.inr ?_; first | exact rfl | exact id | exact fun _ => rfl)
    | with_reducible intro _
    | with_reducible apply kept_ite
    | with_reducible apply reqReturn_kept
    | with_reducible apply regsLost_kept
    | with_reducible apply unitLose_kept
    | with_reducible apply recoveryOff_kept
    | with_reducible apply count_kept
    | with_reducible apply setPower_kept
    | with_reducible apply kept_foldl

theorem offLoop_kept {fp : Nat} {z : State} {a0 : Bool} {a1 : List Nat} {a2 : State} (h : Kept fp z a2)
    (hk : Sub 125828858 fp) :
    Kept fp z (offLoop a0 a1 a2) := by
  induction a1 generalizing a0 a2 with
  | nil =>
    unfold offLoop
    repeat' first
      | with_reducible assumption
  | cons y l ih =>
    unfold offLoop
    repeat' first
      | with_reducible assumption
      | with_reducible apply ih
      | exact Sub.of hk rfl
      | (with_reducible refine Or.inr ?_; first | exact rfl | exact id | exact fun _ => rfl)
      | with_reducible intro _
      | with_reducible apply kept_ite
      | with_reducible apply setPower_kept
      | with_reducible apply domainOff_kept
      | with_reducible apply count_kept

theorem switchOffs_kept {fp : Nat} {z : State} {s : State} (h : Kept fp z s)
    (hk : Sub 125828858 fp) :
    Kept fp z (switchOffs s) := by
  unfold switchOffs
  repeat' first
    | with_reducible assumption
    | exact Sub.of hk rfl
    | (with_reducible refine Or.inr ?_; first | exact rfl | exact id | exact fun _ => rfl)
    | with_reducible intro _
    | with_reducible apply kept_ite
    | with_reducible apply setPower_kept
    | with_reducible apply offLoop_kept

theorem wakeStep_kept {fp : Nat} {z : State} {s : State} (h : Kept fp z s)
    (hk : Sub 1544 fp) :
    Kept fp z (wakeStep s) := by
  unfold wakeStep
  repeat' first
    | with_reducible assumption
    | exact Sub.of hk rfl
    | (with_reducible refine Or.inr ?_; first | exact rfl | exact id | exact fun _ => rfl)
    | with_reducible intro _
    | with_reducible apply kept_ite
    | with_reducible apply setPower_kept
    | with_reducible apply forUpTo_kept
    | with_reducible apply reqRaise_kept
    | with_reducible apply reqReturn_kept

theorem setMode_kept {fp : Nat} {z : State} {s : State} {m : Mode} (h : Kept fp z s)
    (hk : Sub 2106008 fp) :
    Kept fp z (setMode s m) := by
  unfold setMode
  repeat' first
    | with_reducible assumption
    | exact Sub.of hk rfl
    | (with_reducible refine Or.inr ?_; first | exact rfl | exact id | exact fun _ => rfl)
    | with_reducible intro _
    | with_reducible apply kept_ite
    | with_reducible apply setAct_kept
    | with_reducible apply globalNotify_kept
    | with_reducible apply setPower_kept

theorem drainBegin_kept {fp : Nat} {z : State} {s : State} (h : Kept fp z s)
    (hk : Sub 158424 fp) :
    Kept fp z (drainBegin s) := by
  unfold drainBegin
  repeat' first
    | with_reducible assumption
    | exact Sub.of hk rfl
    | (with_reducible refine Or.inr ?_; first | exact rfl | exact id | exact fun _ => rfl)
    | with_reducible intro _
    | with_reducible apply kept_ite
    | with_reducible apply flushAll_kept
    | with_reducible apply setPower_kept

theorem modeAsk_kept {fp : Nat} {z : State} {s : State} (h : Kept fp z s)
    (hk : Sub 158424 fp) :
    Kept fp z (modeAsk s) := by
  unfold modeAsk
  repeat' first
    | with_reducible assumption
    | exact Sub.of hk rfl
    | (with_reducible refine Or.inr ?_; first | exact rfl | exact id | exact fun _ => rfl)
    | ((with_reducible refine Or.inl (Sub.bit hk ?_)); exact rfl)
    | with_reducible intro _
    | with_reducible apply kept_ite
    | with_reducible apply setPower_kept
    | with_reducible apply drainBegin_kept
    | with_reducible apply setBit_kept
    | with_reducible apply setTarget_kept
    | with_reducible apply setPdBits_kept
    | with_reducible apply kept_foldl
    | with_reducible apply kept_getD
    | with_reducible apply keptF_of
    | with_reducible apply keptQ_snd
    | with_reducible apply keptP_snd
    | dsimp only
    | with_reducible apply keptP_ite
    | simp only [keptQ_mk]
    | with_reducible apply keptQ_ite
    | split

theorem modeArrive_kept {fp : Nat} {z : State} {s : State} (h : Kept fp z s)
    (hk : Sub 2106008 fp) :
    Kept fp z (modeArrive s) := by
  unfold modeArrive
  repeat' first
    | with_reducible assumption
    | exact Sub.of hk rfl
    | (with_reducible refine Or.inr ?_; first | exact rfl | exact id | exact fun _ => rfl)
    | with_reducible intro _
    | with_reducible apply kept_ite
    | with_reducible apply setMode_kept
    | with_reducible apply setPower_kept
    | with_reducible apply kept_foldl
    | with_reducible apply kept_getD
    | with_reducible apply keptF_of
    | with_reducible apply keptQ_snd
    | with_reducible apply keptP_snd
    | simp only [keptP_mk]
    | with_reducible apply keptP_ite
    | simp only [keptQ_mk]
    | with_reducible apply keptQ_ite
    | split

theorem execDozeDrainComplete_kept {fp : Nat} {z : State} {s : State} (h : Kept fp z s)
    (hk : Sub 125828858 fp) :
    KeptE fp z (execDozeDrainComplete s) := by
  unfold execDozeDrainComplete
  repeat' first
    | with_reducible assumption
    | exact Sub.of hk rfl
    | (with_reducible refine Or.inr ?_; first | exact rfl | exact id | exact fun _ => rfl)
    | with_reducible intro _
    | with_reducible apply kept_ite
    | with_reducible apply keptE_next
    | with_reducible apply setPdBits_kept
    | with_reducible apply reqReturn_kept
    | with_reducible apply modeArrive_kept
    | with_reducible apply switchOffs_kept
    | with_reducible apply setPower_kept

theorem execDomainWakeOn_kept {fp : Nat} {z : State} {d : Nat} {s : State} (h : Kept fp z s)
    (hk : Sub 2106008 fp) :
    KeptE fp z (execDomainWakeOn d s) := by
  unfold execDomainWakeOn
  repeat' first
    | with_reducible assumption
    | exact Sub.of hk rfl
    | (with_reducible refine Or.inr ?_; first | exact rfl | exact id | exact fun _ => rfl)
    | with_reducible intro _
    | with_reducible apply kept_ite
    | with_reducible apply keptE_next
    | with_reducible apply setPower_kept
    | with_reducible apply globalNotify_kept
    | with_reducible apply count_kept
    | with_reducible apply setBit_kept
    | with_reducible apply weftWrite_kept
    | with_reducible apply dramClosed_kept
    | with_reducible apply secStatus_kept

theorem enterSafe_kept {fp : Nat} {z : State} {s : State} (h : Kept fp z s)
    (hk : Sub 2106008 fp) :
    Kept fp z (enterSafe s) := by
  unfold enterSafe
  repeat' first
    | with_reducible assumption
    | exact Sub.of hk rfl
    | (with_reducible refine Or.inr ?_; first | exact rfl | exact id | exact fun _ => rfl)
    | with_reducible intro _
    | with_reducible apply kept_ite
    | with_reducible apply setPdBits_kept
    | with_reducible apply setMode_kept
    | with_reducible apply setTarget_kept
    | with_reducible apply setPower_kept
    | with_reducible apply kept_foldl
    | with_reducible apply kept_getD
    | with_reducible apply keptF_of
    | with_reducible apply keptQ_snd
    | with_reducible apply keptP_snd
    | dsimp only
    | with_reducible apply keptP_ite
    | simp only [keptQ_mk]
    | with_reducible apply keptQ_ite
    | split

theorem leaveSafe_kept {fp : Nat} {z : State} {s : State} (h : Kept fp z s)
    (hk : Sub 2106008 fp) :
    Kept fp z (leaveSafe s) := by
  unfold leaveSafe
  repeat' first
    | with_reducible assumption
    | exact Sub.of hk rfl
    | (with_reducible refine Or.inr ?_; first | exact rfl | exact id | exact fun _ => rfl)
    | with_reducible intro _
    | with_reducible apply kept_ite
    | with_reducible apply setMode_kept
    | with_reducible apply setPower_kept

theorem recallStep_kept {fp : Nat} {z : State} {s : State} (h : Kept fp z s)
    (hk : Sub 520 fp) :
    Kept fp z (recallStep s) := by
  unfold recallStep
  repeat' first
    | with_reducible assumption
    | exact Sub.of hk rfl
    | (with_reducible refine Or.inr ?_; first | exact rfl | exact id | exact fun _ => rfl)
    | with_reducible intro _
    | with_reducible apply kept_ite
    | with_reducible apply setBit_kept
    | with_reducible apply setTarget_kept
    | with_reducible apply setPower_kept

/-! ## Machine/Selvedge.lean -/

theorem setSafety_kept {fp : Nat} {z s : State} {x : Safety} (h : Kept fp z s) (hk : Sub 4096 fp)
    (o : fp.testBit 28 = true ∨ (s.safety.latch = true → x.latch = true)) : Kept fp z (setSafety s x) := by
  unfold setSafety
  simp only [kept_mk]
  refine keptF_upd h ?_
  have u := updF_refl fp s
  unfold UpdF at u ⊢
  obtain ⟨a0, a1, a2, a3, a4, a5, a6, a7, a8, a9, a10, a11, a12, a13, a14, a15, a16, a17, a18, a19, a20, a21, a22, a23, a24⟩ := u
  exact ⟨a0, a1, a2, a3, a4, a5, a6, .inl (hk 12 rfl), a8, a9, a10, a11, a12, a13, a14, a15, a16, a17, a18, a19, a20, a21, a22, o, a24⟩

theorem setSelvedge_kept {fp : Nat} {z : State} {s : State} {x : Selvedge} (h : Kept fp z s)
    (hk : Sub 2048 fp) :
    Kept fp z (setSelvedge s x) := by
  unfold setSelvedge
  repeat' first
    | with_reducible assumption
    | exact Sub.of hk rfl
    | with_reducible intro _
    | with_reducible apply kept_ite
    | with_reducible apply kept_foldl
    | with_reducible apply kept_getD
    | with_reducible apply keptF_of
    | with_reducible apply keptQ_snd
    | with_reducible apply keptP_snd
    | simp only [keptP_mk]
    | with_reducible apply keptP_ite
    | simp only [keptQ_mk]
    | with_reducible apply keptQ_ite
    | split
    | simp only [kept_mk]
    | with_reducible refine keptF_upd ?_ (updF hk ?_)
    | (unfold UpdF; and_intros <;> first | exact .inl rfl | exact .inr rfl | exact .inr id | exact .inr fun _ => rfl | exact .refl _ | exact fun h => ⟨h, rfl⟩ | rfl | exact Nat.le_max_left _ _)

theorem selvNotify_kept {fp : Nat} {z : State} {s : State} {sub : Nat} {payload : Nat} (h : Kept fp z s)
    (hk : Sub 8344 fp) :
    Kept fp z (selvNotify s sub payload) := by
  unfold selvNotify
  repeat' first
    | with_reducible assumption
    | exact Sub.of hk rfl
    | with_reducible intro _
    | with_reducible apply kept_ite
    | with_reducible apply notifyReg_kept

theorem cutLow_kept {fp : Nat} {z : State} {s : State} (h : Kept fp z s)
    (hk : Sub 4096 fp) :
    Kept fp z (cutLow s) := by
  unfold cutLow
  repeat' first
    | with_reducible assumption
    | exact Sub.of hk rfl
    | (with_reducible refine Or.inr ?_; first | exact rfl | exact id | exact fun _ => rfl)
    | with_reducible intro _
    | with_reducible apply kept_ite
    | with_reducible apply setSafety_kept

theorem safetyLatch_kept {fp : Nat} {z : State} {reason : Nat} {channel : Nat} {s : State} (h : Kept fp z s)
    (hk : Sub 3160792 fp) :
    Kept fp z (safetyLatch reason channel s) := by
  unfold safetyLatch
  repeat' first
    | with_reducible assumption
    | exact Sub.of hk rfl
    | (with_reducible refine Or.inr ?_; first | exact rfl | exact id | exact fun _ => rfl)
    | with_reducible intro _
    | with_reducible apply kept_ite
    | with_reducible apply setSafety_kept
    | with_reducible apply endBursts_kept
    | with_reducible apply cancelBursts_kept
    | with_reducible apply enterSafe_kept
    | with_reducible apply cutLow_kept
    | with_reducible apply selvNotify_kept
    | with_reducible apply count_kept
    | with_reducible apply setReg_kept
    | with_reducible apply raiseFree_kept

theorem safetyLatchAny_kept {fp : Nat} {z : State} {reason : Nat} {s : State} (h : Kept fp z s)
    (hk : Sub 3160792 fp) :
    Kept fp z (safetyLatchAny reason s) := by
  unfold safetyLatchAny
  repeat' first
    | with_reducible assumption
    | exact Sub.of hk rfl
    | with_reducible intro _
    | with_reducible apply kept_ite
    | with_reducible refine draw_kept_of ?_ (by assumption) ?_
    | with_reducible apply draw_kept
    | with_reducible apply safetyLatch_kept
    | with_reducible apply kept_foldl
    | with_reducible apply kept_getD
    | with_reducible apply keptF_of
    | with_reducible apply keptQ_snd
    | with_reducible apply keptP_snd

theorem safetyClear_kept {fp : Nat} {z : State} {s : State} (h : Kept fp z s)
    (hk : Sub 271594136 fp) :
    Kept fp z (safetyClear s) := by
  unfold safetyClear
  repeat' first
    | with_reducible assumption
    | exact Sub.of hk rfl
    | (with_reducible refine Or.inr ?_; first | exact rfl | exact id | exact fun _ => rfl)
    | ((with_reducible refine Or.inl (Sub.bit hk ?_)); exact rfl)
    | with_reducible intro _
    | with_reducible apply kept_ite
    | with_reducible apply setSafety_kept
    | with_reducible apply setWeft_kept
    | with_reducible apply selvNotify_kept
    | with_reducible apply leaveSafe_kept

theorem execSafetyDeclare_kept {fp : Nat} {z : State} {reason : Nat} {channel : Nat} {seen : SafetySeen} {s : State} (h : Kept fp z s)
    (hk : Sub 3160792 fp) :
    KeptE fp z (execSafetyDeclare reason channel s seen) := by
  unfold execSafetyDeclare
  repeat' first
    | with_reducible assumption
    | exact Sub.of hk rfl
    | (with_reducible refine Or.inr ?_; first | exact rfl | exact id | exact fun _ => rfl)
    | with_reducible intro _
    | with_reducible apply kept_ite
    | with_reducible apply keptE_next
    | with_reducible apply safetyLatch_kept
    | with_reducible apply setSafety_kept

theorem execSafetyLinkUpdate_kept {fp : Nat} {z : State} {crcOk : Bool} {seq : Nat} {channel : Nat} {s : State} (h : Kept fp z s)
    (hk : Sub 3160792 fp) :
    KeptE fp z (execSafetyLinkUpdate crcOk seq channel s) := by
  unfold execSafetyLinkUpdate
  repeat' first
    | with_reducible assumption
    | exact Sub.of hk rfl
    | (with_reducible refine Or.inr ?_; first | exact rfl | exact id | exact fun _ => rfl)
    | with_reducible intro _
    | with_reducible apply kept_ite
    | with_reducible apply keptE_next
    | with_reducible apply setSafety_kept
    | with_reducible apply safetyLatch_kept

theorem execCutIneffective_kept {fp : Nat} {z : State} {s : State} (h : Kept fp z s)
    (hk : Sub 6232 fp) :
    KeptE fp z (execCutIneffective s) := by
  unfold execCutIneffective
  repeat' first
    | with_reducible assumption
    | exact Sub.of hk rfl
    | (with_reducible refine Or.inr ?_; first | exact rfl | exact id | exact fun _ => rfl)
    | with_reducible intro _
    | with_reducible apply kept_ite
    | with_reducible apply keptE_next
    | with_reducible apply raiseFree_kept
    | with_reducible apply setSafety_kept
    | with_reducible apply kept_foldl
    | with_reducible apply kept_getD
    | with_reducible apply keptF_of
    | with_reducible apply keptQ_snd
    | with_reducible apply keptP_snd
    | dsimp only
    | with_reducible apply keptP_ite
    | simp only [keptQ_mk]
    | with_reducible apply keptQ_ite
    | split

theorem execVddSafeLoss_kept {fp : Nat} {z : State} {s : State} (h : Kept fp z s)
    (hk : Sub 4096 fp) :
    KeptE fp z (execVddSafeLoss s) := by
  unfold execVddSafeLoss
  repeat' first
    | with_reducible assumption
    | exact Sub.of hk rfl
    | (with_reducible refine Or.inr ?_; first | exact rfl | exact id | exact fun _ => rfl)
    | with_reducible intro _
    | with_reducible apply kept_ite
    | with_reducible apply keptE_next
    | with_reducible apply cutLow_kept
    | with_reducible apply setSafety_kept

theorem execVddSafeReturn_kept {fp : Nat} {z : State} {removed : Bool} {s : State} (h : Kept fp z s)
    (hk : Sub 268439608 fp) :
    KeptE fp z (execVddSafeReturn removed s) := by
  unfold execVddSafeReturn
  repeat' first
    | with_reducible assumption
    | exact Sub.of hk rfl
    | (with_reducible refine Or.inr ?_; first | exact rfl | exact id | exact fun _ => rfl)
    | ((with_reducible refine Or.inl (Sub.bit hk ?_)); exact rfl)
    | with_reducible intro _
    | with_reducible apply kept_ite
    | with_reducible apply keptE_next
    | with_reducible apply setSafety_kept
    | with_reducible apply regsLost_kept

theorem safetyKey_kept {fp : Nat} {z : State} {v : Nat} {s : State} (h : Kept fp z s)
    (hk : Sub 4104 fp) :
    Kept fp z (safetyKey v s) := by
  unfold safetyKey
  repeat' first
    | with_reducible assumption
    | exact Sub.of hk rfl
    | (with_reducible refine Or.inr ?_; first | exact rfl | exact id | exact fun _ => rfl)
    | with_reducible intro _
    | with_reducible apply kept_ite
    | with_reducible apply setSafety_kept
    | with_reducible apply setBit_kept
    | with_reducible apply kept_foldl
    | with_reducible apply kept_getD
    | with_reducible apply keptF_of
    | with_reducible apply keptQ_snd
    | with_reducible apply keptP_snd
    | dsimp only
    | with_reducible apply keptP_ite
    | simp only [keptQ_mk]
    | with_reducible apply keptQ_ite
    | split

theorem fatalEnter_kept {fp : Nat} {z : State} {source : Nat} {code : Nat} {ctx : Nat} {s : State} (h : Kept fp z s)
    (hk : Sub 3160792 fp) :
    Kept fp z (fatalEnter source code ctx s) := by
  unfold fatalEnter
  repeat' first
    | with_reducible assumption
    | exact Sub.of hk rfl
    | with_reducible intro _
    | with_reducible apply kept_ite
    | with_reducible apply setReg_kept
    | with_reducible apply safetyLatchAny_kept
    | with_reducible apply setSelvedge_kept

theorem proofEnd_kept {fp : Nat} {z : State} {step : Nat} {ticks : Nat} {s : State} (h : Kept fp z s)
    (hk : Sub 3160792 fp) :
    Kept fp z (proofEnd step ticks s) := by
  unfold proofEnd
  repeat' first
    | with_reducible assumption
    | exact Sub.of hk rfl
    | (with_reducible refine Or.inr ?_; first | exact rfl | exact id | exact fun _ => rfl)
    | with_reducible intro _
    | with_reducible apply kept_ite
    | with_reducible apply setFld_kept
    | with_reducible apply setSafety_kept
    | with_reducible apply count_kept
    | with_reducible apply setBit_kept
    | with_reducible apply safetyLatchAny_kept
    | with_reducible apply clrBit_kept

theorem proofOverrun_kept {fp : Nat} {z : State} {clocks : Nat} {s : State} (h : Kept fp z s)
    (hk : Sub 3160792 fp) :
    Kept fp z (proofOverrun clocks s) := by
  unfold proofOverrun
  repeat' first
    | with_reducible assumption
    | exact Sub.of hk rfl
    | with_reducible intro _
    | with_reducible apply kept_ite
    | with_reducible apply safetyLatchAny_kept
    | with_reducible apply clrBit_kept
    | with_reducible apply overrunEv_kept

theorem execProofTest_kept {fp : Nat} {z : State} {step : Nat} {ticks : Nat} {overrun : Bool} {s : State} (h : Kept fp z s)
    (hk : Sub 3160792 fp) :
    KeptE fp z (execProofTest step ticks overrun s) := by
  unfold execProofTest
  repeat' first
    | with_reducible assumption
    | exact Sub.of hk rfl
    | with_reducible intro _
    | with_reducible apply kept_ite
    | with_reducible apply keptE_next
    | with_reducible apply proofOverrun_kept
    | with_reducible apply proofEnd_kept

theorem histAdd_kept {fp : Nat} {z : State} {s : State} {r : Report} (h : Kept fp z s)
    (hk : Sub 10392 fp) :
    Kept fp z (histAdd s r) := by
  unfold histAdd
  repeat' first
    | with_reducible assumption
    | exact Sub.of hk rfl
    | with_reducible intro _
    | with_reducible apply kept_ite
    | with_reducible apply count_kept
    | with_reducible apply setSelvedge_kept
    | with_reducible apply setBit_kept
    | with_reducible apply selvNotify_kept

theorem recordReport_kept {fp : Nat} {z : State} {s : State} {r : Report} (h : Kept fp z s)
    (hk : Sub 3160792 fp) :
    Kept fp z (recordReport s r) := by
  unfold recordReport
  repeat' first
    | with_reducible assumption
    | exact Sub.of hk rfl
    | with_reducible intro _
    | with_reducible apply kept_ite
    | with_reducible apply histAdd_kept
    | with_reducible apply count_kept
    | with_reducible apply setUnit_kept
    | with_reducible apply setSelvedge_kept
    | with_reducible apply fatalEnter_kept

theorem takeReport_kept {fp : Nat} {z : State} {s : State} (h : Kept fp z s)
    (hk : Sub 3160792 fp) :
    Kept fp z (takeReport s) := by
  unfold takeReport
  repeat' first
    | with_reducible assumption
    | exact Sub.of hk rfl
    | with_reducible intro _
    | with_reducible apply kept_ite
    | with_reducible apply recordReport_kept
    | with_reducible apply setSelvedge_kept
    | with_reducible apply kept_foldl
    | with_reducible apply kept_getD
    | with_reducible apply keptF_of
    | with_reducible apply keptQ_snd
    | with_reducible apply keptP_snd
    | dsimp only
    | with_reducible apply keptP_ite
    | simp only [keptQ_mk]
    | with_reducible apply keptQ_ite
    | split

theorem takeAll_kept {fp : Nat} {z : State} {a0 : Nat} {a1 : State} (h : Kept fp z a1)
    (hk : Sub 3160792 fp) :
    Kept fp z (takeAll a0 a1) := by
  induction a0 generalizing a1 with
  | zero =>
    unfold takeAll
    repeat' first
      | with_reducible assumption
  | succ n ih =>
    unfold takeAll
    repeat' first
      | with_reducible assumption
      | with_reducible apply ih
      | exact Sub.of hk rfl
      | with_reducible intro _
      | with_reducible apply kept_ite
      | with_reducible apply takeReport_kept

theorem detect_kept {fp : Nat} {z : State} {f : FaultIn} {s : State} (h : Kept fp z s)
    (hk : Sub 114712 fp) :
    Kept fp z (detect f s) := by
  unfold detect
  repeat' first
    | with_reducible assumption
    | exact Sub.of hk rfl
    | with_reducible intro _
    | with_reducible apply kept_ite
    | with_reducible apply bumpFld_kept
    | with_reducible apply count_kept
    | with_reducible apply setHeddle_kept
    | with_reducible apply setFlow_kept
    | with_reducible apply kept_foldl
    | with_reducible apply kept_getD
    | with_reducible apply keptF_of
    | with_reducible apply keptQ_snd
    | with_reducible apply keptP_snd
    | dsimp only
    | with_reducible apply keptP_ite
    | simp only [keptQ_mk]
    | with_reducible apply keptQ_ite
    | split
    | simp only [kept_mk]
    | with_reducible refine keptF_upd ?_ (updF hk ?_)
    | (unfold UpdF; and_intros <;> first | exact .inl rfl | exact .inr rfl | exact .inr id | exact .inr fun _ => rfl | exact .refl _ | exact fun h => ⟨h, rfl⟩ | rfl | exact Nat.le_max_left _ _)

theorem execFaultReport_kept {fp : Nat} {z : State} {f : Option FaultIn} {s : State} (h : Kept fp z s)
    (hk : Sub 20053720 fp) :
    KeptE fp z (execFaultReport f s) := by
  unfold execFaultReport
  repeat' first
    | with_reducible assumption
    | exact Sub.of hk rfl
    | with_reducible intro _
    | with_reducible apply kept_ite
    | with_reducible apply keptE_next
    | with_reducible apply takeReport_kept
    | with_reducible apply faultCore_kept
    | with_reducible apply raiseRoot_kept
    | with_reducible apply detect_kept
    | with_reducible apply kept_foldl
    | with_reducible apply kept_getD
    | with_reducible apply keptF_of
    | with_reducible apply keptQ_snd
    | with_reducible apply keptP_snd
    | simp only [keptP_mk]
    | with_reducible apply keptP_ite
    | simp only [keptQ_mk]
    | with_reducible apply keptQ_ite
    | split

theorem stormLate_kept {fp : Nat} {z : State} {s : State} (h : Kept fp z s)
    (hk : Sub 2048 fp) :
    Kept fp z (stormLate s) := by
  unfold stormLate
  repeat' first
    | with_reducible assumption
    | exact Sub.of hk rfl
    | with_reducible intro _
    | with_reducible apply kept_ite
    | with_reducible apply setSelvedge_kept

theorem execStormClose_kept {fp : Nat} {z : State} {s : State} (h : Kept fp z s)
    (hk : Sub 10392 fp) :
    KeptE fp z (execStormClose s) := by
  unfold execStormClose
  repeat' first
    | with_reducible assumption
    | exact Sub.of hk rfl
    | with_reducible intro _
    | with_reducible apply kept_ite
    | with_reducible apply keptE_next
    | with_reducible apply setSelvedge_kept
    | with_reducible apply selvNotify_kept
    | with_reducible apply kept_foldl

theorem sweepAbandon_kept {fp : Nat} {z : State} {x : SweepExport} {s : State} (h : Kept fp z s)
    (hk : Sub 272 fp) :
    Kept fp z (sweepAbandon x s) := by
  unfold sweepAbandon
  repeat' first
    | with_reducible assumption
    | exact Sub.of hk rfl
    | with_reducible intro _
    | with_reducible apply kept_ite
    | with_reducible apply countKey_kept
    | with_reducible apply count_kept
    | with_reducible apply setPick_kept
    | with_reducible apply kept_foldl

theorem dropWorks_kept {fp : Nat} {z : State} {lo : Nat} {hi : Nat} {s : State} (h : Kept fp z s)
    (hk : Sub 270480 fp) :
    Kept fp z (dropWorks lo hi s) := by
  unfold dropWorks
  repeat' first
    | with_reducible assumption
    | exact Sub.of hk rfl
    | with_reducible intro _
    | with_reducible apply kept_ite
    | with_reducible apply endWorks_kept

theorem recoverAction_kept {fp : Nat} {z : State} {src : Nat} {ctx : Nat} {s : State} (h : Kept fp z s)
    (hk : Sub 134217178 fp) :
    Kept fp z (recoverAction src ctx s) := by
  unfold recoverAction
  repeat' first
    | with_reducible assumption
    | exact Sub.of hk rfl
    | with_reducible intro _
    | with_reducible apply kept_ite
    | with_reducible apply sweepAbandon_kept
    | with_reducible apply pickFail_kept
    | with_reducible apply endBursts_kept
    | with_reducible apply cancelBursts_kept
    | with_reducible apply setCapFifo_kept
    | with_reducible apply frameGone_kept
    | with_reducible apply count_kept
    | with_reducible apply dropFlight_kept
    | with_reducible apply missesResolve_kept
    | with_reducible apply dropWorks_kept
    | with_reducible apply countBy_kept
    | with_reducible apply setFlow_kept
    | with_reducible apply flushAll_kept
    | with_reducible apply setReed_kept
    | with_reducible apply workEnd_kept
    | with_reducible apply setGcmCtx_kept
    | with_reducible apply macLink_kept
    | with_reducible apply macAbort_kept
    | with_reducible apply laneGo_kept
    | with_reducible apply laneUnlock_kept
    | with_reducible apply draftLate_kept
    | with_reducible apply hostRecover_kept
    | with_reducible apply shuttleRecover_kept
    | with_reducible apply setCore_kept
    | with_reducible apply skeinRecover_kept
    | with_reducible apply setTension_kept
    | with_reducible apply endWorks_kept
    | with_reducible apply imgStop_kept
    | with_reducible apply kept_foldl
    | with_reducible apply kept_getD
    | with_reducible apply keptF_of
    | with_reducible apply keptQ_snd
    | with_reducible apply keptP_snd
    | simp only [keptP_mk]
    | with_reducible apply keptP_ite
    | simp only [keptQ_mk]
    | with_reducible apply keptQ_ite
    | split

theorem recoverEnd_kept {fp : Nat} {z : State} {src : Nat} {s : State} (h : Kept fp z s)
    (hk : Sub 16787672 fp) :
    Kept fp z (recoverEnd src s) := by
  unfold recoverEnd
  repeat' first
    | with_reducible assumption
    | exact Sub.of hk rfl
    | with_reducible intro _
    | with_reducible apply kept_ite
    | with_reducible apply hostResume_kept
    | with_reducible apply skeinResume_kept

theorem recoverBegin_kept {fp : Nat} {z : State} {src : Nat} {s : State} (h : Kept fp z s)
    (hk : Sub 134217178 fp) :
    Kept fp z (recoverBegin src s) := by
  unfold recoverBegin
  repeat' first
    | with_reducible assumption
    | exact Sub.of hk rfl
    | with_reducible intro _
    | with_reducible apply kept_ite
    | with_reducible apply count_kept
    | with_reducible apply selvNotify_kept
    | with_reducible apply setUnit_kept
    | with_reducible apply recoverAction_kept

theorem recoverOne_kept {fp : Nat} {z : State} {src : Nat} {s : State} (h : Kept fp z s)
    (hk : Sub 134217178 fp) :
    Kept fp z (recoverOne src s) := by
  unfold recoverOne
  repeat' first
    | with_reducible assumption
    | exact Sub.of hk rfl
    | with_reducible intro _
    | with_reducible apply kept_ite
    | with_reducible apply count_kept
    | with_reducible apply setUnit_kept
    | with_reducible apply selvNotify_kept
    | with_reducible apply recoverBegin_kept

theorem recoverStart_kept {fp : Nat} {z : State} {s : State} (h : Kept fp z s)
    (hk : Sub 134217178 fp) :
    Kept fp z (recoverStart s) := by
  unfold recoverStart
  repeat' first
    | with_reducible assumption
    | exact Sub.of hk rfl
    | with_reducible intro _
    | with_reducible apply kept_ite
    | with_reducible apply recoverOne_kept
    | with_reducible apply setUnit_kept
    | with_reducible apply kept_foldl

theorem recoverAge_kept {fp : Nat} {z : State} {s : State} (h : Kept fp z s)
    (hk : Sub 2048 fp) :
    Kept fp z (recoverAge s) := by
  unfold recoverAge
  repeat' first
    | with_reducible assumption
    | exact Sub.of hk rfl
    | with_reducible intro _
    | with_reducible apply kept_ite
    | with_reducible apply setUnit_kept
    | with_reducible apply kept_foldl

theorem execRecoveryEnd_kept {fp : Nat} {z : State} {src : Nat} {s : State} (h : Kept fp z s)
    (hk : Sub 16787672 fp) :
    KeptE fp z (execRecoveryEnd src s) := by
  unfold execRecoveryEnd
  repeat' first
    | with_reducible assumption
    | exact Sub.of hk rfl
    | with_reducible intro _
    | with_reducible apply kept_ite
    | with_reducible apply keptE_next
    | with_reducible apply selvNotify_kept
    | with_reducible apply recoverEnd_kept
    | with_reducible apply setUnit_kept

theorem selvRestart_kept {fp : Nat} {z : State} {s : State} (h : Kept fp z s)
    (hk : Sub 134217178 fp) :
    Kept fp z (selvRestart s) := by
  unfold selvRestart
  repeat' first
    | with_reducible assumption
    | exact Sub.of hk rfl
    | with_reducible intro _
    | with_reducible apply kept_ite
    | with_reducible apply setUnit_kept
    | with_reducible apply recoverBegin_kept

theorem pendClear_kept {fp : Nat} {z : State} {mask : Nat} {s : State} (h : Kept fp z s)
    (hk : Sub 2056 fp) :
    Kept fp z (pendClear mask s) := by
  unfold pendClear
  repeat' first
    | with_reducible assumption
    | exact Sub.of hk rfl
    | with_reducible intro _
    | with_reducible apply kept_ite
    | with_reducible apply setBit_kept
    | with_reducible apply setSelvedge_kept
    | with_reducible apply setUnit_kept
    | with_reducible apply kept_foldl

theorem histCopy_kept {fp : Nat} {z : State} {s : State} (h : Kept fp z s)
    (hk : Sub 8 fp) :
    Kept fp z (histCopy s) := by
  unfold histCopy
  repeat' first
    | with_reducible assumption
    | exact Sub.of hk rfl
    | with_reducible intro _
    | with_reducible apply kept_ite
    | with_reducible apply forUpTo_kept
    | with_reducible apply setReg_kept

/-! ## Machine/HostAccess.lean -/

theorem cntRestart_kept {fp : Nat} {z s : State} {key : Nat} (h : Kept fp z s)
    (hk : Sub 16 fp) : Kept fp z (cntRestart s key) := by
  unfold cntRestart
  refine kept_cntPut h (hk 4 rfl) _ _ ?_
  split
  · exact Nat.min_le_left _ _
  · exact Nat.zero_le _

theorem clearRc_kept {fp : Nat} {z : State} {s : State} {a : Nat} (h : Kept fp z s)
    (hk : Sub 8 fp) :
    Kept fp z (clearRc s a) := by
  unfold clearRc
  repeat' first
    | with_reducible assumption
    | exact Sub.of hk rfl
    | with_reducible intro _
    | with_reducible apply kept_ite
    | with_reducible apply setFld_kept
    | with_reducible apply kept_foldl
    | with_reducible apply kept_getD
    | with_reducible apply keptF_of
    | with_reducible apply keptQ_snd
    | with_reducible apply keptP_snd
    | simp only [keptP_mk]
    | with_reducible apply keptP_ite
    | simp only [keptQ_mk]
    | with_reducible apply keptQ_ite
    | split

theorem readEffect_kept {fp : Nat} {z : State} {a : Nat} {s : State} (h : Kept fp z s)
    (hk : Sub 17208 fp) : Kept fp z (readEffect s a) := by
  have hh : ∀ i v, Kept fp z { s with hold := sput 0 s.hold i v } := fun i v =>
    kept_hold h (hk 5 rfl) (fun w => swf_sput (d := fun _ => 0) w i v)
  unfold readEffect
  repeat' first
    | with_reducible assumption
    | with_reducible exact hh _ _
    | with_reducible apply kept_ite
    | with_reducible apply cntRestart_kept
    | with_reducible apply setFld_kept
    | with_reducible apply setReg_kept
    | with_reducible apply setBit_kept
    | with_reducible apply clearRc_kept
    | exact Sub.of hk rfl
    | with_reducible apply keptF_of
    | split
    | simp only [kept_mk]
    | with_reducible refine keptF_upd ?_ (updF hk ?_)
    | (unfold UpdF; and_intros <;> first | exact .inl rfl | exact .inr rfl | exact .inr id | exact .inr fun _ => rfl | exact .refl _ | exact fun h => ⟨h, rfl⟩ | rfl | exact Nat.le_max_left _ _)

theorem answerHost_kept {fp : Nat} {z : State} {be : Nat} {v : Nat} {s : State} (h : Kept fp z s)
    (hk : Sub 4 fp) :
    Kept fp z (answerHost be v s) := by
  unfold answerHost
  repeat' first
    | with_reducible assumption
    | exact Sub.of hk rfl
    | with_reducible intro _
    | with_reducible apply kept_ite
    | with_reducible apply kept_foldl
    | with_reducible apply kept_getD
    | with_reducible apply keptF_of
    | with_reducible apply keptQ_snd
    | with_reducible apply keptP_snd
    | simp only [keptP_mk]
    | with_reducible apply keptP_ite
    | simp only [keptQ_mk]
    | with_reducible apply keptQ_ite
    | split
    | simp only [kept_mk]
    | with_reducible refine keptF_upd ?_ (updF hk ?_)
    | (unfold UpdF; and_intros <;> first | exact .inl rfl | exact .inr rfl | exact .inr id | exact .inr fun _ => rfl | exact .refl _ | exact fun h => ⟨h, rfl⟩ | rfl | exact Nat.le_max_left _ _)

theorem darkAccess_kept {fp : Nat} {z : State} {s : State} {a : Nat} (h : Kept fp z s)
    (hk : Sub 2136 fp) :
    Kept fp z (darkAccess s a) := by
  unfold darkAccess
  repeat' first
    | with_reducible assumption
    | exact Sub.of hk rfl
    | with_reducible intro _
    | with_reducible apply kept_ite
    | with_reducible apply raiseFree_kept

theorem regRead_kept {fp : Nat} {z : State} {a : Nat} {s : State} (h : Kept fp z s)
    (hk : Sub 117457724 fp) :
    Kept fp z (regRead a s) := by
  unfold regRead
  repeat' first
    | with_reducible assumption
    | exact Sub.of hk rfl
    | with_reducible intro _
    | with_reducible apply kept_ite
    | with_reducible apply timeNowRead_kept
    | with_reducible refine skeinWindow_kept_of ?_ (by assumption) ?_
    | with_reducible apply skeinWindow_kept
    | with_reducible apply timeCapRead_kept
    | with_reducible apply ymgmtRead_kept
    | with_reducible apply readEffect_kept
    | with_reducible apply kept_foldl
    | with_reducible apply kept_getD
    | with_reducible apply keptF_of
    | with_reducible apply keptQ_snd
    | with_reducible apply keptP_snd
    | dsimp only
    | with_reducible apply keptP_ite
    | simp only [keptQ_mk]
    | with_reducible apply keptQ_ite
    | split
    | simp only [kept_mk]
    | with_reducible refine keptF_upd ?_ (updF hk ?_)
    | (unfold UpdF; and_intros <;> first | exact .inl rfl | exact .inr rfl | exact .inr id | exact .inr fun _ => rfl | exact .refl _ | exact fun h => ⟨h, rfl⟩ | rfl | exact Nat.le_max_left _ _)

theorem hostLoad_kept {fp : Nat} {z : State} {a : Nat} {be : Nat} {s : State} (h : Kept fp z s)
    (hk : Sub 117459836 fp) :
    Kept fp z (hostLoad a be s) := by
  unfold hostLoad
  repeat' first
    | with_reducible assumption
    | exact Sub.of hk rfl
    | with_reducible intro _
    | with_reducible apply kept_ite
    | with_reducible apply answerHost_kept
    | with_reducible apply regRead_kept
    | with_reducible apply darkAccess_kept
    | with_reducible apply kept_foldl
    | with_reducible apply kept_getD
    | with_reducible apply keptF_of
    | with_reducible apply keptQ_snd
    | with_reducible apply keptP_snd
    | dsimp only
    | with_reducible apply keptP_ite
    | simp only [keptQ_mk]
    | with_reducible apply keptQ_ite
    | split

theorem clkSel_kept {fp : Nat} {z : State} {s : State} (h : Kept fp z s)
    (hk : Sub 2904 fp) :
    Kept fp z (clkSel s) := by
  unfold clkSel
  repeat' first
    | with_reducible assumption
    | exact Sub.of hk rfl
    | with_reducible intro _
    | with_reducible apply kept_ite
    | with_reducible apply setBit_kept
    | with_reducible apply progErr_kept
    | with_reducible apply kept_foldl
    | with_reducible apply kept_getD
    | with_reducible apply keptF_of
    | with_reducible apply keptQ_snd
    | with_reducible apply keptP_snd
    | dsimp only
    | with_reducible apply keptP_ite
    | simp only [keptQ_mk]
    | with_reducible apply keptQ_ite
    | split
    | simp only [kept_mk]
    | with_reducible refine keptF_upd ?_ (updF hk ?_)
    | (unfold UpdF; and_intros <;> first | exact .inl rfl | exact .inr rfl | exact .inr id | exact .inr fun _ => rfl | exact .refl _ | exact fun h => ⟨h, rfl⟩ | rfl | exact Nat.le_max_left _ _)

theorem filtWrite_kept {fp : Nat} {z : State} {hi : Bool} {v : Nat} {s : State} (h : Kept fp z s)
    (hk : Sub 67108864 fp) :
    Kept fp z (filtWrite hi v s) := by
  unfold filtWrite
  repeat' first
    | with_reducible assumption
    | exact Sub.of hk rfl
    | with_reducible intro _
    | with_reducible apply kept_ite
    | with_reducible apply kept_foldl
    | with_reducible apply kept_getD
    | with_reducible apply keptF_of
    | with_reducible apply keptQ_snd
    | with_reducible apply keptP_snd
    | dsimp only
    | with_reducible apply keptP_ite
    | simp only [keptQ_mk]
    | with_reducible apply keptQ_ite
    | split
    | simp only [kept_mk]
    | with_reducible refine keptF_upd ?_ (updF hk ?_)
    | (unfold UpdF; and_intros <;> first | exact .inl rfl | exact .inr rfl | exact .inr id | exact .inr fun _ => rfl | exact .refl _ | exact fun h => ⟨h, rfl⟩ | rfl | exact Nat.le_max_left _ _)

theorem satClear_kept {fp : Nat} {z : State} {ks : List (Option Nat)} {v : Nat} {s : State} (h : Kept fp z s)
    (hk : Sub 16 fp) : Kept fp z (satClear ks v s) := by
  unfold satClear
  refine kept_foldl h (fun t x ht => ?_)
  split
  · exact kept_sat ht (hk 4 rfl) (fun w => swf_sput (d := fun _ => false) w _ _)
  · exact ht

theorem lineEffect_kept {fp : Nat} {z : State} {a : Nat} {v : Nat} {old : Nat} {s : State} (h : Kept fp z s)
    (hk : Sub 36703064 fp) :
    Kept fp z (lineEffect a v old s) := by
  unfold lineEffect
  repeat' first
    | with_reducible assumption
    | exact Sub.of hk rfl
    | with_reducible intro _
    | with_reducible apply kept_ite
    | with_reducible apply clkSel_kept
    | with_reducible apply lockEnClear_kept
    | with_reducible apply pmCopy_kept
    | with_reducible apply clrBit_kept
    | with_reducible apply actHeldSet_kept
    | with_reducible apply setTime_kept
    | with_reducible apply setReg_kept

theorem trafficEffect_kept {fp : Nat} {z : State} {a : Nat} {v : Nat} {s : State} (h : Kept fp z s)
    (hk : Sub 71729160 fp) :
    Kept fp z (trafficEffect a v s) := by
  unfold trafficEffect
  repeat' first
    | with_reducible assumption
    | exact Sub.of hk rfl
    | with_reducible intro _
    | with_reducible apply kept_ite
    | with_reducible apply heddleWindow_kept
    | with_reducible apply setReed_kept
    | with_reducible apply setBit_kept
    | with_reducible apply reedWindow_kept
    | with_reducible apply trngRestart_kept
    | with_reducible apply filtWrite_kept
    | with_reducible apply draftSwapAsk_kept
    | with_reducible apply draftWindow_kept
    | with_reducible apply ymgmtSend_kept
    | with_reducible apply kept_foldl
    | with_reducible apply kept_getD
    | with_reducible apply keptF_of
    | with_reducible apply keptQ_snd
    | with_reducible apply keptP_snd
    | simp only [keptP_mk]
    | with_reducible apply keptP_ite
    | simp only [keptQ_mk]
    | with_reducible apply keptQ_ite
    | split

theorem hostEffect_kept {fp : Nat} {z : State} {a : Nat} {v : Nat} {s : State} (h : Kept fp z s)
    (hk : Sub 134217690 fp) :
    Kept fp z (hostEffect a v s) := by
  unfold hostEffect
  repeat' first
    | with_reducible assumption
    | exact Sub.of hk rfl
    | with_reducible intro _
    | with_reducible apply kept_ite
    | with_reducible refine skeinWindow_kept_of ?_ (by assumption) ?_
    | with_reducible apply skeinWindow_kept
    | with_reducible apply mboxDoorbell_kept
    | with_reducible apply pendClear_kept
    | with_reducible apply histCopy_kept
    | with_reducible apply selvRestart_kept
    | with_reducible apply safetyKey_kept
    | with_reducible apply safetyLatchAny_kept
    | with_reducible apply shAbort_kept
    | with_reducible apply shWinReset_kept
    | with_reducible apply resetCore_kept
    | with_reducible apply kept_foldl
    | with_reducible apply kept_getD
    | with_reducible apply keptF_of
    | with_reducible apply keptQ_snd
    | with_reducible apply keptP_snd
    | dsimp only
    | with_reducible apply keptP_ite
    | simp only [keptQ_mk]
    | with_reducible apply keptQ_ite
    | split

theorem regStore_kept {fp : Nat} {z : State} {r : RegRow} {a : Nat} {v : Nat} {s : State} (h : Kept fp z s)
    (hk : Sub 134217690 fp) :
    Kept fp z (regStore r a v s) := by
  unfold regStore
  repeat' first
    | with_reducible assumption
    | exact Sub.of hk rfl
    | with_reducible intro _
    | with_reducible apply kept_ite
    | with_reducible apply progErr_kept
    | with_reducible apply force_kept
    | with_reducible apply stage_kept
    | with_reducible apply satClear_kept
    | with_reducible apply hostEffect_kept
    | with_reducible apply trafficEffect_kept
    | with_reducible apply lineEffect_kept
    | with_reducible apply kept_foldl
    | with_reducible apply kept_getD
    | with_reducible apply keptF_of
    | with_reducible apply keptQ_snd
    | with_reducible apply keptP_snd
    | simp only [keptP_mk]
    | with_reducible apply keptP_ite
    | simp only [keptQ_mk]
    | with_reducible apply keptQ_ite
    | split

theorem hostStore_kept {fp : Nat} {z : State} {a : Nat} {be : Nat} {v : Nat} {s : State} (h : Kept fp z s)
    (hk : Sub 134217690 fp) :
    Kept fp z (hostStore a be v s) := by
  unfold hostStore
  repeat' first
    | with_reducible assumption
    | exact Sub.of hk rfl
    | with_reducible intro _
    | with_reducible apply kept_ite
    | with_reducible apply progErr_kept
    | with_reducible apply msixWrite_kept
    | with_reducible apply darkAccess_kept
    | with_reducible apply regStore_kept
    | with_reducible apply kept_foldl
    | with_reducible apply kept_getD
    | with_reducible apply keptF_of
    | with_reducible apply keptQ_snd
    | with_reducible apply keptP_snd
    | simp only [keptP_mk]
    | with_reducible apply keptP_ite
    | simp only [keptQ_mk]
    | with_reducible apply keptQ_ite
    | split

theorem execRegWrite_kept {fp : Nat} {z : State} {addr : Nat} {be : BitVec 4} {v : Word} {s : State} (h : Kept fp z s)
    (hk : Sub 134217690 fp) :
    KeptE fp z (execRegWrite addr be v s) := by
  unfold execRegWrite
  repeat' first
    | with_reducible assumption
    | exact Sub.of hk rfl
    | with_reducible intro _
    | with_reducible apply kept_ite
    | with_reducible apply keptE_next
    | with_reducible apply hostStore_kept

theorem execStrayWrite_kept {fp : Nat} {z : State} {off : Nat} {be : BitVec 4} {s : State} (h : Kept fp z s)
    (hk : Sub 2136 fp) :
    KeptE fp z (execStrayWrite off s be) := by
  unfold execStrayWrite
  repeat' first
    | with_reducible assumption
    | exact Sub.of hk rfl
    | with_reducible intro _
    | with_reducible apply kept_ite
    | with_reducible apply keptE_next
    | with_reducible apply progErr_kept
    | with_reducible apply raiseFree_kept

theorem execCounterLoRead_kept {fp : Nat} {z : State} {addr : Nat} {be : BitVec 4} {s : State} (h : Kept fp z s)
    (hk : Sub 117459836 fp) :
    KeptE fp z (execCounterLoRead addr be s) := by
  unfold execCounterLoRead
  repeat' first
    | with_reducible assumption
    | exact Sub.of hk rfl
    | with_reducible intro _
    | with_reducible apply kept_ite
    | with_reducible apply keptE_next
    | with_reducible apply hostLoad_kept
    | with_reducible apply kept_foldl
    | with_reducible apply kept_getD
    | with_reducible apply keptF_of
    | with_reducible apply keptQ_snd
    | with_reducible apply keptP_snd
    | simp only [keptP_mk]
    | with_reducible apply keptP_ite
    | simp only [keptQ_mk]
    | with_reducible apply keptQ_ite
    | split

theorem otherLoad_kept {fp : Nat} {z : State} {a : Nat} {be : Nat} {s : State} (h : Kept fp z s)
    (hk : Sub 132 fp) :
    Kept fp z (otherLoad a be s) := by
  unfold otherLoad
  repeat' first
    | with_reducible assumption
    | exact Sub.of hk rfl
    | with_reducible intro _
    | with_reducible apply kept_ite
    | with_reducible apply answerHost_kept
    | with_reducible apply emit_kept

theorem execRcRead_kept {fp : Nat} {z : State} {addr : Nat} {be : BitVec 4} {s : State} (h : Kept fp z s)
    (hk : Sub 117459964 fp) :
    KeptE fp z (execRcRead addr be s) := by
  unfold execRcRead
  repeat' first
    | with_reducible assumption
    | exact Sub.of hk rfl
    | with_reducible intro _
    | with_reducible apply kept_ite
    | with_reducible apply keptE_next
    | with_reducible apply otherLoad_kept
    | with_reducible apply hostLoad_kept

theorem execPickCountLoRead_kept {fp : Nat} {z : State} {be : BitVec 4} {s : State} (h : Kept fp z s)
    (hk : Sub 117459836 fp) :
    KeptE fp z (execPickCountLoRead be s) := by
  unfold execPickCountLoRead
  repeat' first
    | with_reducible assumption
    | exact Sub.of hk rfl
    | with_reducible intro _
    | with_reducible apply kept_ite
    | with_reducible apply keptE_next
    | with_reducible apply hostLoad_kept

theorem execTimeNowNsRead_kept {fp : Nat} {z : State} {be : BitVec 4} {s : State} (h : Kept fp z s)
    (hk : Sub 117459836 fp) :
    KeptE fp z (execTimeNowNsRead be s) := by
  unfold execTimeNowNsRead
  repeat' first
    | with_reducible assumption
    | exact Sub.of hk rfl
    | with_reducible intro _
    | with_reducible apply kept_ite
    | with_reducible apply keptE_next
    | with_reducible apply hostLoad_kept

theorem execTimeCapNsRead_kept {fp : Nat} {z : State} {i : Nat} {be : BitVec 4} {s : State} (h : Kept fp z s)
    (hk : Sub 117459836 fp) :
    KeptE fp z (execTimeCapNsRead i be s) := by
  unfold execTimeCapNsRead
  repeat' first
    | with_reducible assumption
    | exact Sub.of hk rfl
    | with_reducible intro _
    | with_reducible apply kept_ite
    | with_reducible apply keptE_next
    | with_reducible apply hostLoad_kept

theorem execYmgmtRxRead_kept {fp : Nat} {z : State} {n : Nat} {be : BitVec 4} {s : State} (h : Kept fp z s)
    (hk : Sub 117459836 fp) :
    KeptE fp z (execYmgmtRxRead n be s) := by
  unfold execYmgmtRxRead
  repeat' first
    | with_reducible assumption
    | exact Sub.of hk rfl
    | with_reducible intro _
    | with_reducible apply kept_ite
    | with_reducible apply keptE_next
    | with_reducible apply hostLoad_kept

theorem execDarkRegisterRead_kept {fp : Nat} {z : State} {addr : Nat} {be : BitVec 4} {s : State} (h : Kept fp z s)
    (hk : Sub 117459836 fp) :
    KeptE fp z (execDarkRegisterRead addr be s) := by
  unfold execDarkRegisterRead
  repeat' first
    | with_reducible assumption
    | exact Sub.of hk rfl
    | with_reducible intro _
    | with_reducible apply kept_ite
    | with_reducible apply keptE_next
    | with_reducible apply hostLoad_kept

theorem execYmgmtSend_kept {fp : Nat} {z : State} {n : Nat} {be : BitVec 4} {v : Word} {s : State} (h : Kept fp z s)
    (hk : Sub 134217690 fp) :
    KeptE fp z (execYmgmtSend n be v s) := by
  unfold execYmgmtSend
  repeat' first
    | with_reducible assumption
    | exact Sub.of hk rfl
    | with_reducible intro _
    | with_reducible apply kept_ite
    | with_reducible apply keptE_next
    | with_reducible apply hostStore_kept

theorem execWarpPmSelWrite_kept {fp : Nat} {z : State} {be : BitVec 4} {v : Word} {s : State} (h : Kept fp z s)
    (hk : Sub 134217690 fp) :
    KeptE fp z (execWarpPmSelWrite be v s) := by
  unfold execWarpPmSelWrite
  repeat' first
    | with_reducible assumption
    | exact Sub.of hk rfl
    | with_reducible intro _
    | with_reducible apply kept_ite
    | with_reducible apply keptE_next
    | with_reducible apply hostStore_kept

theorem execSelvedgeHistSelWrite_kept {fp : Nat} {z : State} {be : BitVec 4} {v : Word} {s : State} (h : Kept fp z s)
    (hk : Sub 134217690 fp) :
    KeptE fp z (execSelvedgeHistSelWrite be v s) := by
  unfold execSelvedgeHistSelWrite
  repeat' first
    | with_reducible assumption
    | exact Sub.of hk rfl
    | with_reducible intro _
    | with_reducible apply kept_ite
    | with_reducible apply keptE_next
    | with_reducible apply hostStore_kept

theorem execLockEnClear_kept {fp : Nat} {z : State} {be : BitVec 4} {s : State} (h : Kept fp z s)
    (hk : Sub 134217690 fp) :
    KeptE fp z (execLockEnClear be s) := by
  unfold execLockEnClear
  repeat' first
    | with_reducible assumption
    | exact Sub.of hk rfl
    | with_reducible intro _
    | with_reducible apply kept_ite
    | with_reducible apply keptE_next
    | with_reducible apply hostStore_kept

theorem execRxEnWrite_kept {fp : Nat} {z : State} {be : BitVec 4} {v : Word} {s : State} (h : Kept fp z s)
    (hk : Sub 134217690 fp) :
    KeptE fp z (execRxEnWrite be v s) := by
  unfold execRxEnWrite
  repeat' first
    | with_reducible assumption
    | exact Sub.of hk rfl
    | with_reducible intro _
    | with_reducible apply kept_ite
    | with_reducible apply keptE_next
    | with_reducible apply hostStore_kept

theorem execDgLatchClear_kept {fp : Nat} {z : State} {be : BitVec 4} {pinLow : Bool} {s : State} (h : Kept fp z s)
    (hk : Sub 134217690 fp) :
    KeptE fp z (execDgLatchClear be pinLow s) := by
  unfold execDgLatchClear
  repeat' first
    | with_reducible assumption
    | exact Sub.of hk rfl
    | with_reducible intro _
    | with_reducible apply kept_ite
    | with_reducible apply keptE_next
    | with_reducible apply hostStore_kept

theorem execActHeldSet_kept {fp : Nat} {z : State} {be : BitVec 4} {s : State} (h : Kept fp z s)
    (hk : Sub 134217690 fp) :
    KeptE fp z (execActHeldSet be s) := by
  unfold execActHeldSet
  repeat' first
    | with_reducible assumption
    | exact Sub.of hk rfl
    | with_reducible intro _
    | with_reducible apply kept_ite
    | with_reducible apply keptE_next
    | with_reducible apply hostStore_kept

theorem execTimeLoad_kept {fp : Nat} {z : State} {be : BitVec 4} {v : Word} {s : State} (h : Kept fp z s)
    (hk : Sub 134217690 fp) :
    KeptE fp z (execTimeLoad be v s) := by
  unfold execTimeLoad
  repeat' first
    | with_reducible assumption
    | exact Sub.of hk rfl
    | with_reducible intro _
    | with_reducible apply kept_ite
    | with_reducible apply keptE_next
    | with_reducible apply hostStore_kept

theorem execTimeIncArm_kept {fp : Nat} {z : State} {be : BitVec 4} {v : Word} {s : State} (h : Kept fp z s)
    (hk : Sub 134217690 fp) :
    KeptE fp z (execTimeIncArm be v s) := by
  unfold execTimeIncArm
  repeat' first
    | with_reducible assumption
    | exact Sub.of hk rfl
    | with_reducible intro _
    | with_reducible apply kept_ite
    | with_reducible apply keptE_next
    | with_reducible apply hostStore_kept

theorem execHostStep_kept {fp : Nat} {z : State} {be : BitVec 4} {v : Word} {s : State} (h : Kept fp z s)
    (hk : Sub 134217690 fp) :
    KeptE fp z (execHostStep be v s) := by
  unfold execHostStep
  repeat' first
    | with_reducible assumption
    | exact Sub.of hk rfl
    | with_reducible intro _
    | with_reducible apply kept_ite
    | with_reducible apply keptE_next
    | with_reducible apply hostStore_kept

theorem execMacAddrArm_kept {fp : Nat} {z : State} {be : BitVec 4} {v : Word} {s : State} (h : Kept fp z s)
    (hk : Sub 134217690 fp) :
    KeptE fp z (execMacAddrArm be v s) := by
  unfold execMacAddrArm
  repeat' first
    | with_reducible assumption
    | exact Sub.of hk rfl
    | with_reducible intro _
    | with_reducible apply kept_ite
    | with_reducible apply keptE_next
    | with_reducible apply hostStore_kept

theorem execReedSwapRequest_kept {fp : Nat} {z : State} {be : BitVec 4} {v : Word} {s : State} (h : Kept fp z s)
    (hk : Sub 134217690 fp) :
    KeptE fp z (execReedSwapRequest be v s) := by
  unfold execReedSwapRequest
  repeat' first
    | with_reducible assumption
    | exact Sub.of hk rfl
    | with_reducible intro _
    | with_reducible apply kept_ite
    | with_reducible apply keptE_next
    | with_reducible apply hostStore_kept

theorem execAnchorLock_kept {fp : Nat} {z : State} {be : BitVec 4} {s : State} (h : Kept fp z s)
    (hk : Sub 134217690 fp) :
    KeptE fp z (execAnchorLock be s) := by
  unfold execAnchorLock
  repeat' first
    | with_reducible assumption
    | exact Sub.of hk rfl
    | with_reducible intro _
    | with_reducible apply kept_ite
    | with_reducible apply keptE_next
    | with_reducible apply hostStore_kept

theorem execDraftSwapRequest_kept {fp : Nat} {z : State} {be : BitVec 4} {v : Word} {s : State} (h : Kept fp z s)
    (hk : Sub 134217690 fp) :
    KeptE fp z (execDraftSwapRequest be v s) := by
  unfold execDraftSwapRequest
  repeat' first
    | with_reducible assumption
    | exact Sub.of hk rfl
    | with_reducible intro _
    | with_reducible apply kept_ite
    | with_reducible apply keptE_next
    | with_reducible apply hostStore_kept

theorem execTrngRestart_kept {fp : Nat} {z : State} {be : BitVec 4} {s : State} (h : Kept fp z s)
    (hk : Sub 134217690 fp) :
    KeptE fp z (execTrngRestart be s) := by
  unfold execTrngRestart
  repeat' first
    | with_reducible assumption
    | exact Sub.of hk rfl
    | with_reducible intro _
    | with_reducible apply kept_ite
    | with_reducible apply keptE_next
    | with_reducible apply hostStore_kept

theorem execHeddleEntWrite_kept {fp : Nat} {z : State} {be : BitVec 4} {s : State} (h : Kept fp z s)
    (hk : Sub 134217690 fp) :
    KeptE fp z (execHeddleEntWrite be s) := by
  unfold execHeddleEntWrite
  repeat' first
    | with_reducible assumption
    | exact Sub.of hk rfl
    | with_reducible intro _
    | with_reducible apply kept_ite
    | with_reducible apply keptE_next
    | with_reducible apply hostStore_kept

theorem execHeddleEntRead_kept {fp : Nat} {z : State} {be : BitVec 4} {s : State} (h : Kept fp z s)
    (hk : Sub 134217690 fp) :
    KeptE fp z (execHeddleEntRead be s) := by
  unfold execHeddleEntRead
  repeat' first
    | with_reducible assumption
    | exact Sub.of hk rfl
    | with_reducible intro _
    | with_reducible apply kept_ite
    | with_reducible apply keptE_next
    | with_reducible apply hostStore_kept

theorem execInvalidate_kept {fp : Nat} {z : State} {be : BitVec 4} {s : State} (h : Kept fp z s)
    (hk : Sub 134217690 fp) :
    KeptE fp z (execInvalidate be s) := by
  unfold execInvalidate
  repeat' first
    | with_reducible assumption
    | exact Sub.of hk rfl
    | with_reducible intro _
    | with_reducible apply kept_ite
    | with_reducible apply keptE_next
    | with_reducible apply hostStore_kept

theorem execEmInsert_kept {fp : Nat} {z : State} {be : BitVec 4} {s : State} (h : Kept fp z s)
    (hk : Sub 134217690 fp) :
    KeptE fp z (execEmInsert be s) := by
  unfold execEmInsert
  repeat' first
    | with_reducible assumption
    | exact Sub.of hk rfl
    | with_reducible intro _
    | with_reducible apply kept_ite
    | with_reducible apply keptE_next
    | with_reducible apply hostStore_kept

theorem execEmDelete_kept {fp : Nat} {z : State} {be : BitVec 4} {s : State} (h : Kept fp z s)
    (hk : Sub 134217690 fp) :
    KeptE fp z (execEmDelete be s) := by
  unfold execEmDelete
  repeat' first
    | with_reducible assumption
    | exact Sub.of hk rfl
    | with_reducible intro _
    | with_reducible apply kept_ite
    | with_reducible apply keptE_next
    | with_reducible apply hostStore_kept

theorem execClearAll_kept {fp : Nat} {z : State} {be : BitVec 4} {s : State} (h : Kept fp z s)
    (hk : Sub 134217690 fp) :
    KeptE fp z (execClearAll be s) := by
  unfold execClearAll
  repeat' first
    | with_reducible assumption
    | exact Sub.of hk rfl
    | with_reducible intro _
    | with_reducible apply kept_ite
    | with_reducible apply keptE_next
    | with_reducible apply hostStore_kept

theorem execReedEntWrite_kept {fp : Nat} {z : State} {be : BitVec 4} {s : State} (h : Kept fp z s)
    (hk : Sub 134217690 fp) :
    KeptE fp z (execReedEntWrite be s) := by
  unfold execReedEntWrite
  repeat' first
    | with_reducible assumption
    | exact Sub.of hk rfl
    | with_reducible intro _
    | with_reducible apply kept_ite
    | with_reducible apply keptE_next
    | with_reducible apply hostStore_kept

theorem execReedEntRead_kept {fp : Nat} {z : State} {be : BitVec 4} {s : State} (h : Kept fp z s)
    (hk : Sub 134217690 fp) :
    KeptE fp z (execReedEntRead be s) := by
  unfold execReedEntRead
  repeat' first
    | with_reducible assumption
    | exact Sub.of hk rfl
    | with_reducible intro _
    | with_reducible apply kept_ite
    | with_reducible apply keptE_next
    | with_reducible apply hostStore_kept

theorem execDraftEntWrite_kept {fp : Nat} {z : State} {be : BitVec 4} {s : State} (h : Kept fp z s)
    (hk : Sub 134217690 fp) :
    KeptE fp z (execDraftEntWrite be s) := by
  unfold execDraftEntWrite
  repeat' first
    | with_reducible assumption
    | exact Sub.of hk rfl
    | with_reducible intro _
    | with_reducible apply kept_ite
    | with_reducible apply keptE_next
    | with_reducible apply hostStore_kept

theorem execDraftEntRead_kept {fp : Nat} {z : State} {be : BitVec 4} {s : State} (h : Kept fp z s)
    (hk : Sub 134217690 fp) :
    KeptE fp z (execDraftEntRead be s) := by
  unfold execDraftEntRead
  repeat' first
    | with_reducible assumption
    | exact Sub.of hk rfl
    | with_reducible intro _
    | with_reducible apply kept_ite
    | with_reducible apply keptE_next
    | with_reducible apply hostStore_kept

theorem execFlowStoreEnable_kept {fp : Nat} {z : State} {be : BitVec 4} {v : Word} {s : State} (h : Kept fp z s)
    (hk : Sub 134217690 fp) :
    KeptE fp z (execFlowStoreEnable be v s) := by
  unfold execFlowStoreEnable
  repeat' first
    | with_reducible assumption
    | exact Sub.of hk rfl
    | with_reducible intro _
    | with_reducible apply kept_ite
    | with_reducible apply keptE_next
    | with_reducible apply hostStore_kept

theorem execHostCmdCfgWrite_kept {fp : Nat} {z : State} {cq : Bool} {be : BitVec 4} {v : Word} {s : State} (h : Kept fp z s)
    (hk : Sub 134217690 fp) :
    KeptE fp z (execHostCmdCfgWrite cq be v s) := by
  unfold execHostCmdCfgWrite
  repeat' first
    | with_reducible assumption
    | exact Sub.of hk rfl
    | with_reducible intro _
    | with_reducible apply kept_ite
    | with_reducible apply keptE_next
    | with_reducible apply hostStore_kept

theorem execHostKick_kept {fp : Nat} {z : State} {p : Nat} {be : BitVec 4} {v : Word} {s : State} (h : Kept fp z s)
    (hk : Sub 10456 fp) :
    KeptE fp z (execHostKick p be v s) := by
  unfold execHostKick
  repeat' first
    | with_reducible assumption
    | exact Sub.of hk rfl
    | with_reducible intro _
    | with_reducible apply kept_ite
    | with_reducible apply keptE_next
    | with_reducible apply progErr_kept
    | with_reducible apply hostKick_kept

theorem execAbort_kept {fp : Nat} {z : State} {c : Nat} {be : BitVec 4} {s : State} (h : Kept fp z s)
    (hk : Sub 134217690 fp) :
    KeptE fp z (execAbort c be s) := by
  unfold execAbort
  repeat' first
    | with_reducible assumption
    | exact Sub.of hk rfl
    | with_reducible intro _
    | with_reducible apply kept_ite
    | with_reducible apply keptE_next
    | with_reducible apply hostStore_kept

theorem execWinReset_kept {fp : Nat} {z : State} {c : Nat} {be : BitVec 4} {s : State} (h : Kept fp z s)
    (hk : Sub 134217690 fp) :
    KeptE fp z (execWinReset c be s) := by
  unfold execWinReset
  repeat' first
    | with_reducible assumption
    | exact Sub.of hk rfl
    | with_reducible intro _
    | with_reducible apply kept_ite
    | with_reducible apply keptE_next
    | with_reducible apply hostStore_kept

theorem execSkeinCoreReset_kept {fp : Nat} {z : State} {c : Nat} {be : BitVec 4} {v : Word} {s : State} (h : Kept fp z s)
    (hk : Sub 134217690 fp) :
    KeptE fp z (execSkeinCoreReset c be v s) := by
  unfold execSkeinCoreReset
  repeat' first
    | with_reducible assumption
    | exact Sub.of hk rfl
    | with_reducible intro _
    | with_reducible apply kept_ite
    | with_reducible apply keptE_next
    | with_reducible apply hostStore_kept

theorem execSkeinWinDataAccess_kept {fp : Nat} {z : State} {write : Option Word} {be : BitVec 4} {s : State} (h : Kept fp z s)
    (hk : Sub 134217726 fp) :
    KeptE fp z (execSkeinWinDataAccess write be s) := by
  unfold execSkeinWinDataAccess
  repeat' first
    | with_reducible assumption
    | exact Sub.of hk rfl
    | with_reducible intro _
    | with_reducible apply kept_ite
    | with_reducible apply keptE_next
    | with_reducible apply hostStore_kept
    | with_reducible apply hostLoad_kept
    | with_reducible apply kept_foldl
    | with_reducible apply kept_getD
    | with_reducible apply keptF_of
    | with_reducible apply keptQ_snd
    | with_reducible apply keptP_snd
    | simp only [keptP_mk]
    | with_reducible apply keptP_ite
    | simp only [keptQ_mk]
    | with_reducible apply keptQ_ite
    | split

theorem execMboxDoorbell_kept {fp : Nat} {z : State} {be : BitVec 4} {v : Word} {s : State} (h : Kept fp z s)
    (hk : Sub 134217690 fp) :
    KeptE fp z (execMboxDoorbell be v s) := by
  unfold execMboxDoorbell
  repeat' first
    | with_reducible assumption
    | exact Sub.of hk rfl
    | with_reducible intro _
    | with_reducible apply kept_ite
    | with_reducible apply keptE_next
    | with_reducible apply hostStore_kept

theorem execClockSwitch_kept {fp : Nat} {z : State} {be : BitVec 4} {s : State} (h : Kept fp z s)
    (hk : Sub 134217690 fp) :
    KeptE fp z (execClockSwitch be s) := by
  unfold execClockSwitch
  repeat' first
    | with_reducible assumption
    | exact Sub.of hk rfl
    | with_reducible intro _
    | with_reducible apply kept_ite
    | with_reducible apply keptE_next
    | with_reducible apply hostStore_kept

theorem execSelvedgePendClear_kept {fp : Nat} {z : State} {hi : Bool} {be : BitVec 4} {v : Word} {s : State} (h : Kept fp z s)
    (hk : Sub 134217690 fp) :
    KeptE fp z (execSelvedgePendClear hi be v s) := by
  unfold execSelvedgePendClear
  repeat' first
    | with_reducible assumption
    | exact Sub.of hk rfl
    | with_reducible intro _
    | with_reducible apply kept_ite
    | with_reducible apply keptE_next
    | with_reducible apply hostStore_kept

theorem execSelvedgeRestart_kept {fp : Nat} {z : State} {be : BitVec 4} {s : State} (h : Kept fp z s)
    (hk : Sub 134217690 fp) :
    KeptE fp z (execSelvedgeRestart be s) := by
  unfold execSelvedgeRestart
  repeat' first
    | with_reducible assumption
    | exact Sub.of hk rfl
    | with_reducible intro _
    | with_reducible apply kept_ite
    | with_reducible apply keptE_next
    | with_reducible apply hostStore_kept

theorem execSafetyClrWrite_kept {fp : Nat} {z : State} {be : BitVec 4} {v : Word} {s : State} (h : Kept fp z s)
    (hk : Sub 134217690 fp) :
    KeptE fp z (execSafetyClrWrite be v s) := by
  unfold execSafetyClrWrite
  repeat' first
    | with_reducible assumption
    | exact Sub.of hk rfl
    | with_reducible intro _
    | with_reducible apply kept_ite
    | with_reducible apply keptE_next
    | with_reducible apply hostStore_kept

theorem execSafetyForceLatch_kept {fp : Nat} {z : State} {be : BitVec 4} {s : State} (h : Kept fp z s)
    (hk : Sub 134217690 fp) :
    KeptE fp z (execSafetyForceLatch be s) := by
  unfold execSafetyForceLatch
  repeat' first
    | with_reducible assumption
    | exact Sub.of hk rfl
    | with_reducible intro _
    | with_reducible apply kept_ite
    | with_reducible apply keptE_next
    | with_reducible apply hostStore_kept

theorem execSafetyMpdCfgWrite_kept {fp : Nat} {z : State} {be : BitVec 4} {v : Word} {s : State} (h : Kept fp z s)
    (hk : Sub 134217690 fp) :
    KeptE fp z (execSafetyMpdCfgWrite be v s) := by
  unfold execSafetyMpdCfgWrite
  repeat' first
    | with_reducible assumption
    | exact Sub.of hk rfl
    | with_reducible intro _
    | with_reducible apply kept_ite
    | with_reducible apply keptE_next
    | with_reducible apply hostStore_kept

/-! ## Machine/Startup.lean -/

theorem coldState_kept {fp : Nat} {z s : State} (h : Kept fp z s)
    (hk : Sub 536870715 fp) : Kept fp z (coldState s) := by
  unfold coldState
  have h1 := kept_nil h (hk.of (by decide))
  have h2 := keptF_upd h1 (v_now := 0) (v_ns := 0) (v_hostRead := s.hostRead) (v_pick := {}) (v_power := {}) (v_tension := {}) (v_selvedge := {}) (v_safety := {})
    (v_host := {}) (v_spool := {}) (v_heddle := {}) (v_flow := {}) (v_reed := {}) (v_sec := flashOtp s.sec) (v_warp := {}) (v_weft := {})
    (v_act := { serial := s.act.serial }) (v_draft := {}) (v_shuttle := {}) (v_skein := #v[{ st := .calibrate }, {}, {}, {}])
    (v_time := {}) (v_ports := {}) (updF hk (by unfold UpdF; and_intros <;> first | exact .inl rfl | exact .inr rfl | exact .inr id | exact .inr fun _ => rfl | exact .refl _ | exact fun h => ⟨h, rfl⟩ | rfl | exact Nat.le_max_left _ _))
  exact h2

theorem execPowerOn_kept {fp : Nat} {z : State} {s : State} (h : Kept fp z s)
    (hk : Sub 536870715 fp) :
    KeptE fp z (execPowerOn s) := by
  unfold execPowerOn
  repeat' first
    | with_reducible assumption
    | exact Sub.of hk rfl
    | with_reducible intro _
    | with_reducible apply kept_ite
    | with_reducible apply keptE_next
    | with_reducible apply coldState_kept
    | with_reducible apply kept_foldl
    | with_reducible apply kept_getD
    | with_reducible apply keptF_of
    | with_reducible apply keptQ_snd
    | with_reducible apply keptP_snd
    | dsimp only
    | with_reducible apply keptP_ite
    | simp only [keptQ_mk]
    | with_reducible apply keptQ_ite
    | split
    | simp only [kept_mk]
    | with_reducible refine keptF_upd ?_ (updF hk ?_)
    | (unfold UpdF; and_intros <;> first | exact .inl rfl | exact .inr rfl | exact .inr id | exact .inr fun _ => rfl | exact .refl _ | exact fun h => ⟨h, rfl⟩ | rfl | exact Nat.le_max_left _ _)

theorem execSupplyRemoval_kept {fp : Nat} {z : State} {s : State} (h : Kept fp z s)
    (hk : Sub 536870715 fp) :
    KeptE fp z (execSupplyRemoval s) := by
  unfold execSupplyRemoval
  repeat' first
    | with_reducible assumption
    | exact Sub.of hk rfl
    | with_reducible intro _
    | with_reducible apply kept_ite
    | with_reducible apply keptE_next
    | with_reducible apply coldState_kept
    | with_reducible apply kept_foldl
    | with_reducible apply kept_getD
    | with_reducible apply keptF_of
    | with_reducible apply keptQ_snd
    | with_reducible apply keptP_snd
    | dsimp only
    | with_reducible apply keptP_ite
    | simp only [keptQ_mk]
    | with_reducible apply keptQ_ite
    | split
    | simp only [kept_mk]
    | with_reducible refine keptF_upd ?_ (updF hk ?_)
    | (unfold UpdF; and_intros <;> first | exact .inl rfl | exact .inr rfl | exact .inr id | exact .inr fun _ => rfl | exact .refl _ | exact fun h => ⟨h, rfl⟩ | rfl | exact Nat.le_max_left _ _)

theorem execResetAssert_kept {fp low : Nat} {z s : State} (h : Kept fp z s)
    (hk : Sub 268435259 fp) : KeptE fp z (execResetAssert low s) := by
  unfold execResetAssert
  with_reducible refine keptE_next (kept_ite h ?_)
  dsimp only
  have ht : Kept fp z (dramLose s) := dramLose_kept h (hk.of rfl)
  generalize dramLose s = t at ht ⊢
  with_reducible refine setBit_kept ?_ (hk.of rfl)
  unfold coldState
  have h1 : Kept fp z { t with stg := skeep (fun a => decide (regDomain t a = 0) || decide (regDomain t a = 9)) t.stg
                               cur := skeep (fun a => decide (regDomain t a = 0) || decide (regDomain t a = 9)) t.cur
                               cnt := [], hold := [], sat := [] } :=
    kept_sat (s := { t with stg := skeep (fun a => decide (regDomain t a = 0) || decide (regDomain t a = 9)) t.stg
                            cur := skeep (fun a => decide (regDomain t a = 0) || decide (regDomain t a = 9)) t.cur
                            cnt := [], hold := [] })
      (kept_hold (s := { t with stg := skeep (fun a => decide (regDomain t a = 0) || decide (regDomain t a = 9)) t.stg
                                cur := skeep (fun a => decide (regDomain t a = 0) || decide (regDomain t a = 9)) t.cur, cnt := [] })
        (kept_cnt (s := { t with stg := skeep (fun a => decide (regDomain t a = 0) || decide (regDomain t a = 9)) t.stg
                                 cur := skeep (fun a => decide (regDomain t a = 0) || decide (regDomain t a = 9)) t.cur })
          (kept_cur (s := { t with stg := skeep (fun a => decide (regDomain t a = 0) || decide (regDomain t a = 9)) t.stg })
            (kept_stg ht (hk 3 rfl) (fun w => swf_skeep w _)) (hk 3 rfl) (fun w => swf_skeep w _))
          (hk 4 rfl) (fun _ _ => ⟨swf_nil _, fun _ hx => by cases hx⟩)) (hk 5 rfl) (fun _ => swf_nil _)) (hk 4 rfl) (fun _ => swf_nil _)
  have h2 := keptF_upd h1 (v_now := t.now) (v_ns := t.ns) (v_hostRead := t.hostRead) (v_pick := { commits := t.pick.commits }) (v_power := { inReset := true })
    (v_tension := {}) (v_selvedge := {}) (v_safety := { t.safety with enNow := false }) (v_host := {}) (v_spool := {}) (v_heddle := {})
    (v_flow := {}) (v_reed := {}) (v_sec := flashOtp t.sec) (v_warp := {}) (v_weft := {})
    (v_act := { serial := t.act.serial, held := t.act.held, heldByStop := t.act.heldByStop }) (v_draft := {}) (v_shuttle := {})
    (v_skein := #v[{ st := .calibrate }, {}, {}, {}]) (v_time := {}) (v_ports := {}) (updF hk (by unfold UpdF; and_intros <;> first | exact .inl rfl | exact .inr rfl | exact .inr id | exact .inr fun _ => rfl | exact .refl _ | exact fun h => ⟨h, rfl⟩ | rfl | exact Nat.le_max_left _ _))
  exact h2

theorem execResetRelease_kept {fp : Nat} {z : State} {s : State} (h : Kept fp z s)
    (hk : Sub 2097672 fp) :
    KeptE fp z (execResetRelease s) := by
  unfold execResetRelease
  repeat' first
    | with_reducible assumption
    | exact Sub.of hk rfl
    | (with_reducible refine Or.inr ?_; first | exact rfl | exact id | exact fun _ => rfl)
    | with_reducible intro _
    | with_reducible apply kept_ite
    | with_reducible apply keptE_next
    | with_reducible apply dramClosed_kept
    | with_reducible apply setPower_kept
    | with_reducible apply setAct_kept

theorem fatalAtReady_kept {fp : Nat} {z : State} {s : State} (h : Kept fp z s)
    (hk : Sub 3160792 fp) :
    Kept fp z (fatalAtReady s) := by
  unfold fatalAtReady
  repeat' first
    | with_reducible assumption
    | exact Sub.of hk rfl
    | with_reducible intro _
    | with_reducible apply kept_ite
    | with_reducible apply fatalEnter_kept
    | with_reducible refine draw_kept_of ?_ (by assumption) ?_
    | with_reducible apply draw_kept
    | with_reducible apply raiseEv_kept
    | with_reducible apply kept_foldl
    | with_reducible apply kept_getD
    | with_reducible apply keptF_of
    | with_reducible apply keptQ_snd
    | with_reducible apply keptP_snd

theorem execReady_kept {fp : Nat} {z : State} {i : ReadyIn} {s : State} (h : Kept fp z s)
    (hk : Sub 154155736 fp) :
    KeptE fp z (execReady i s) := by
  unfold execReady
  repeat' first
    | with_reducible assumption
    | exact Sub.of hk rfl
    | (with_reducible refine Or.inr ?_; first | exact rfl | exact id | exact fun _ => rfl)
    | ((with_reducible refine Or.inl (Sub.bit hk ?_)); exact rfl)
    | with_reducible intro _
    | with_reducible apply kept_ite
    | with_reducible apply keptE_next
    | with_reducible apply setReg_kept
    | with_reducible apply setPower_kept
    | with_reducible apply setCore_kept
    | with_reducible refine draw_kept_of ?_ (by assumption) ?_
    | with_reducible apply draw_kept
    | with_reducible apply raiseFree_kept
    | with_reducible apply fatalAtReady_kept
    | with_reducible apply kept_foldl
    | with_reducible apply kept_getD
    | with_reducible apply keptF_of
    | with_reducible apply keptQ_snd
    | with_reducible apply keptP_snd

theorem execCorePllLoss_kept {fp : Nat} {z : State} {s : State} (h : Kept fp z s)
    (hk : Sub 2648 fp) :
    KeptE fp z (execCorePllLoss s) := by
  unfold execCorePllLoss
  repeat' first
    | with_reducible assumption
    | exact Sub.of hk rfl
    | (with_reducible refine Or.inr ?_; first | exact rfl | exact id | exact fun _ => rfl)
    | with_reducible intro _
    | with_reducible apply kept_ite
    | with_reducible apply keptE_next
    | with_reducible apply setPower_kept
    | with_reducible apply raiseFree_kept

theorem execPwrFailAssert_kept {fp : Nat} {z : State} {s : State} (h : Kept fp z s)
    (hk : Sub 2106008 fp) :
    KeptE fp z (execPwrFailAssert s) := by
  unfold execPwrFailAssert
  repeat' first
    | with_reducible assumption
    | exact Sub.of hk rfl
    | (with_reducible refine Or.inr ?_; first | exact rfl | exact id | exact fun _ => rfl)
    | with_reducible intro _
    | with_reducible apply kept_ite
    | with_reducible apply keptE_next
    | with_reducible apply setPower_kept
    | with_reducible apply setBit_kept
    | with_reducible apply setAct_kept
    | with_reducible apply globalNotify_kept

theorem execPwrFailClear_kept {fp : Nat} {z : State} {s : State} (h : Kept fp z s)
    (hk : Sub 512 fp) :
    KeptE fp z (execPwrFailClear s) := by
  unfold execPwrFailClear
  repeat' first
    | with_reducible assumption
    | exact Sub.of hk rfl
    | (with_reducible refine Or.inr ?_; first | exact rfl | exact id | exact fun _ => rfl)
    | with_reducible intro _
    | with_reducible apply kept_ite
    | with_reducible apply keptE_next
    | with_reducible apply setPower_kept

/-! ## Machine/Pick.lean -/

theorem sweepClear_kept {fp : Nat} {z : State} {s : State} {m : Nat} (h : Kept fp z s)
    (hk : Sub 16 fp) :
    Kept fp z (sweepClear s m) := by
  unfold sweepClear
  repeat' first
    | with_reducible assumption
    | exact Sub.of hk rfl
    | with_reducible intro _
    | with_reducible apply kept_ite
    | with_reducible apply cntRestart_kept
    | with_reducible apply kept_foldl

theorem sweepSkip_kept {fp : Nat} {z : State} {s : State} (h : Kept fp z s)
    (hk : Sub 272 fp) :
    Kept fp z (sweepSkip s) := by
  unfold sweepSkip
  repeat' first
    | with_reducible assumption
    | exact Sub.of hk rfl
    | with_reducible intro _
    | with_reducible apply kept_ite
    | with_reducible apply count_kept
    | with_reducible apply setPick_kept

theorem execSweepPoint_kept {fp : Nat} {z : State} {line : Option Nat} {s : State} (h : Kept fp z s)
    (hk : Sub 272 fp) :
    KeptE fp z (execSweepPoint line s) := by
  unfold execSweepPoint
  repeat' first
    | with_reducible assumption
    | exact Sub.of hk rfl
    | with_reducible intro _
    | with_reducible apply kept_ite
    | with_reducible apply keptE_next
    | with_reducible apply sweepSkip_kept
    | with_reducible apply setPick_kept
    | with_reducible apply sweepClear_kept

theorem execSweepExportDone_kept {fp : Nat} {z : State} {s : State} (h : Kept fp z s)
    (hk : Sub 8600 fp) :
    KeptE fp z (execSweepExportDone s) := by
  unfold execSweepExportDone
  repeat' first
    | with_reducible assumption
    | exact Sub.of hk rfl
    | with_reducible intro _
    | with_reducible apply kept_ite
    | with_reducible apply keptE_next
    | with_reducible apply dmaWrite_kept
    | with_reducible apply setPick_kept
    | with_reducible apply setReg_kept
    | with_reducible apply cqWrite_kept
    | with_reducible apply kept_foldl
    | with_reducible apply kept_getD
    | with_reducible apply keptF_of
    | with_reducible apply keptQ_snd
    | with_reducible apply keptP_snd
    | dsimp only
    | with_reducible apply keptP_ite
    | simp only [keptQ_mk]
    | with_reducible apply keptQ_ite
    | split

theorem execRepeatStart_kept {fp : Nat} {z : State} {s : State} (h : Kept fp z s)
    (hk : Sub 73880 fp) :
    KeptE fp z (execRepeatStart s) := by
  unfold execRepeatStart
  repeat' first
    | with_reducible assumption
    | exact Sub.of hk rfl
    | with_reducible intro _
    | with_reducible apply kept_ite
    | with_reducible apply keptE_next
    | with_reducible apply notifyReg_kept
    | with_reducible apply setFlow_kept

theorem fillLate_kept {fp : Nat} {z : State} {s : State} (h : Kept fp z s)
    (hk : Sub 1048592 fp) :
    Kept fp z (fillLate s) := by
  unfold fillLate
  repeat' first
    | with_reducible assumption
    | exact Sub.of hk rfl
    | with_reducible intro _
    | with_reducible apply kept_ite
    | with_reducible apply countBy_kept
    | with_reducible apply setWeft_kept

theorem markLate_kept {fp : Nat} {z : State} {n : Nat} {s : State} (h : Kept fp z s)
    (hk : Sub 8192 fp) :
    Kept fp z (markLate n s) := by
  unfold markLate
  repeat' first
    | with_reducible assumption
    | exact Sub.of hk rfl
    | with_reducible intro _
    | with_reducible apply kept_ite
    | with_reducible apply kept_foldl
    | with_reducible apply kept_getD
    | with_reducible apply keptF_of
    | with_reducible apply keptQ_snd
    | with_reducible apply keptP_snd
    | dsimp only
    | with_reducible apply keptP_ite
    | simp only [keptQ_mk]
    | with_reducible apply keptQ_ite
    | split
    | simp only [kept_mk]
    | with_reducible refine keptF_upd ?_ (updF hk ?_)
    | (unfold UpdF; and_intros <;> first | exact .inl rfl | exact .inr rfl | exact .inr id | exact .inr fun _ => rfl | exact .refl _ | exact fun h => ⟨h, rfl⟩ | rfl | exact Nat.le_max_left _ _)

theorem overrunEffect_kept {fp : Nat} {z : State} {bit : Nat} {arg : Nat} {s : State} (h : Kept fp z s)
    (hk : Sub 5778704 fp) :
    Kept fp z (overrunEffect bit arg s) := by
  unfold overrunEffect
  repeat' first
    | with_reducible assumption
    | exact Sub.of hk rfl
    | with_reducible intro _
    | with_reducible apply kept_ite
    | with_reducible apply codewordDone_kept
    | with_reducible apply headerFail_kept
    | with_reducible apply setWarp_kept
    | with_reducible apply count_kept
    | with_reducible apply countBy_kept
    | with_reducible apply fillLate_kept
    | with_reducible apply draftOverrun_kept
    | with_reducible apply setPm_kept
    | with_reducible apply setTension_kept
    | with_reducible apply stormLate_kept
    | with_reducible apply setPick_kept
    | with_reducible apply markLate_kept
    | with_reducible apply kept_foldl
    | with_reducible apply kept_getD
    | with_reducible apply keptF_of
    | with_reducible apply keptQ_snd
    | with_reducible apply keptP_snd
    | dsimp only
    | with_reducible apply keptP_ite
    | simp only [keptQ_mk]
    | with_reducible apply keptQ_ite
    | split

theorem execPerPickOverrun_kept {fp : Nat} {z : State} {bit : Nat} {clocks : Nat} {arg : Nat} {s : State} (h : Kept fp z s)
    (hk : Sub 7929816 fp) :
    KeptE fp z (execPerPickOverrun bit clocks arg s) := by
  unfold execPerPickOverrun
  repeat' first
    | with_reducible assumption
    | exact Sub.of hk rfl
    | with_reducible intro _
    | with_reducible apply kept_ite
    | with_reducible apply keptE_next
    | with_reducible apply proofOverrun_kept
    | with_reducible apply deckOverrun_kept
    | with_reducible apply overrunEv_kept
    | with_reducible apply overrunEffect_kept

/-! ## Machine/Work.lean -/

theorem execDeckLoad_kept {fp : Nat} {z : State} {d : CmdDesc} {s : State} (h : Kept fp z s)
    (hk : Sub 305624 fp) :
    KeptE fp z (execDeckLoad d s) := by
  unfold execDeckLoad
  repeat' first
    | with_reducible assumption
    | exact Sub.of hk rfl
    | with_reducible intro _
    | with_reducible apply kept_ite
    | with_reducible apply keptE_next
    | with_reducible apply cmdRow_kept
    | with_reducible apply cmdDeckLoad_kept

theorem execDeckSwap_kept {fp : Nat} {z : State} {d : CmdDesc} {s : State} (h : Kept fp z s)
    (hk : Sub 305624 fp) :
    KeptE fp z (execDeckSwap d s) := by
  unfold execDeckSwap
  repeat' first
    | with_reducible assumption
    | exact Sub.of hk rfl
    | with_reducible intro _
    | with_reducible apply kept_ite
    | with_reducible apply keptE_next
    | with_reducible apply cmdRow_kept
    | with_reducible apply cmdDeckSwap_kept

theorem execRuleWrite_kept {fp : Nat} {z : State} {d : CmdDesc} {s : State} (h : Kept fp z s)
    (hk : Sub 305624 fp) :
    KeptE fp z (execRuleWrite d s) := by
  unfold execRuleWrite
  repeat' first
    | with_reducible assumption
    | exact Sub.of hk rfl
    | with_reducible intro _
    | with_reducible apply kept_ite
    | with_reducible apply keptE_next
    | with_reducible apply cmdRow_kept
    | with_reducible apply cmdRuleWrite_kept

theorem execFlowInsert_kept {fp : Nat} {z : State} {d : CmdDesc} {s : State} (h : Kept fp z s)
    (hk : Sub 338394 fp) :
    KeptE fp z (execFlowInsert d s) := by
  unfold execFlowInsert
  repeat' first
    | with_reducible assumption
    | exact Sub.of hk rfl
    | with_reducible intro _
    | with_reducible apply kept_ite
    | with_reducible apply keptE_next
    | with_reducible apply cmdRow_kept
    | with_reducible apply cmdFlowInsert_kept

theorem execFlowDelete_kept {fp : Nat} {z : State} {d : CmdDesc} {s : State} (h : Kept fp z s)
    (hk : Sub 338394 fp) :
    KeptE fp z (execFlowDelete d s) := by
  unfold execFlowDelete
  repeat' first
    | with_reducible assumption
    | exact Sub.of hk rfl
    | with_reducible intro _
    | with_reducible apply kept_ite
    | with_reducible apply keptE_next
    | with_reducible apply cmdRow_kept
    | with_reducible apply cmdFlowDelete_kept

theorem execFlowRead_kept {fp : Nat} {z : State} {d : CmdDesc} {s : State} (h : Kept fp z s)
    (hk : Sub 272856 fp) :
    KeptE fp z (execFlowRead d s) := by
  unfold execFlowRead
  repeat' first
    | with_reducible assumption
    | exact Sub.of hk rfl
    | with_reducible intro _
    | with_reducible apply kept_ite
    | with_reducible apply keptE_next
    | with_reducible apply cmdRow_kept
    | with_reducible apply cmdFlowRead_kept

theorem execFlowRehash_kept {fp : Nat} {z : State} {d : CmdDesc} {s : State} (h : Kept fp z s)
    (hk : Sub 338392 fp) :
    KeptE fp z (execFlowRehash d s) := by
  unfold execFlowRehash
  repeat' first
    | with_reducible assumption
    | exact Sub.of hk rfl
    | with_reducible intro _
    | with_reducible apply kept_ite
    | with_reducible apply keptE_next
    | with_reducible apply cmdRow_kept
    | with_reducible apply cmdFlowRehash_kept

theorem execFlowClear_kept {fp : Nat} {z : State} {d : CmdDesc} {s : State} (h : Kept fp z s)
    (hk : Sub 338394 fp) :
    KeptE fp z (execFlowClear d s) := by
  unfold execFlowClear
  repeat' first
    | with_reducible assumption
    | exact Sub.of hk rfl
    | with_reducible intro _
    | with_reducible apply kept_ite
    | with_reducible apply keptE_next
    | with_reducible apply cmdRow_kept
    | with_reducible apply cmdFlowClear_kept

theorem execShaperLoad_kept {fp : Nat} {z : State} {d : CmdDesc} {s : State} (h : Kept fp z s)
    (hk : Sub 403928 fp) :
    KeptE fp z (execShaperLoad d s) := by
  unfold execShaperLoad
  repeat' first
    | with_reducible assumption
    | exact Sub.of hk rfl
    | with_reducible intro _
    | with_reducible apply kept_ite
    | with_reducible apply keptE_next
    | with_reducible apply cmdRow_kept
    | with_reducible apply cmdShaperLoad_kept

theorem execShaperSwap_kept {fp : Nat} {z : State} {d : CmdDesc} {s : State} (h : Kept fp z s)
    (hk : Sub 403928 fp) :
    KeptE fp z (execShaperSwap d s) := by
  unfold execShaperSwap
  repeat' first
    | with_reducible assumption
    | exact Sub.of hk rfl
    | with_reducible intro _
    | with_reducible apply kept_ite
    | with_reducible apply keptE_next
    | with_reducible apply cmdRow_kept
    | with_reducible apply cmdShaperSwap_kept

theorem execGateLoad_kept {fp : Nat} {z : State} {d : CmdDesc} {s : State} (h : Kept fp z s)
    (hk : Sub 403928 fp) :
    KeptE fp z (execGateLoad d s) := by
  unfold execGateLoad
  repeat' first
    | with_reducible assumption
    | exact Sub.of hk rfl
    | with_reducible intro _
    | with_reducible apply kept_ite
    | with_reducible apply keptE_next
    | with_reducible apply cmdRow_kept
    | with_reducible apply cmdGateLoad_kept

theorem execGateStart_kept {fp : Nat} {z : State} {d : CmdDesc} {s : State} (h : Kept fp z s)
    (hk : Sub 403928 fp) :
    KeptE fp z (execGateStart d s) := by
  unfold execGateStart
  repeat' first
    | with_reducible assumption
    | exact Sub.of hk rfl
    | with_reducible intro _
    | with_reducible apply kept_ite
    | with_reducible apply keptE_next
    | with_reducible apply cmdRow_kept
    | with_reducible apply cmdGateStart_kept

theorem execQueueFlush_kept {fp : Nat} {z : State} {d : CmdDesc} {s : State} (h : Kept fp z s)
    (hk : Sub 67529176 fp) :
    KeptE fp z (execQueueFlush d s) := by
  unfold execQueueFlush
  repeat' first
    | with_reducible assumption
    | exact Sub.of hk rfl
    | with_reducible intro _
    | with_reducible apply kept_ite
    | with_reducible apply keptE_next
    | with_reducible apply pauseScan_kept
    | with_reducible apply cmdRow_kept
    | with_reducible apply cmdQueueFlush_kept

theorem execImageInstall_kept {fp : Nat} {z : State} {d : CmdDesc} {s : State} (h : Kept fp z s)
    (hk : Sub 272856 fp) :
    KeptE fp z (execImageInstall d s) := by
  unfold execImageInstall
  repeat' first
    | with_reducible assumption
    | exact Sub.of hk rfl
    | with_reducible intro _
    | with_reducible apply kept_ite
    | with_reducible apply keptE_next
    | with_reducible apply cmdRow_kept
    | with_reducible apply cmdImageInstall_kept

theorem execImageActivate_kept {fp : Nat} {z : State} {d : CmdDesc} {s : State} (h : Kept fp z s)
    (hk : Sub 272856 fp) :
    KeptE fp z (execImageActivate d s) := by
  unfold execImageActivate
  repeat' first
    | with_reducible assumption
    | exact Sub.of hk rfl
    | with_reducible intro _
    | with_reducible apply kept_ite
    | with_reducible apply keptE_next
    | with_reducible apply cmdRow_kept
    | with_reducible apply cmdImageActivate_kept

theorem execArbRaise_kept {fp : Nat} {z : State} {d : CmdDesc} {s : State} (h : Kept fp z s)
    (hk : Sub 272856 fp) :
    KeptE fp z (execArbRaise d s) := by
  unfold execArbRaise
  repeat' first
    | with_reducible assumption
    | exact Sub.of hk rfl
    | with_reducible intro _
    | with_reducible apply kept_ite
    | with_reducible apply keptE_next
    | with_reducible apply cmdRow_kept
    | with_reducible apply cmdArbRaise_kept

theorem execIdSign_kept {fp : Nat} {z : State} {d : CmdDesc} {s : State} (h : Kept fp z s)
    (hk : Sub 272856 fp) :
    KeptE fp z (execIdSign d s) := by
  unfold execIdSign
  repeat' first
    | with_reducible assumption
    | exact Sub.of hk rfl
    | with_reducible intro _
    | with_reducible apply kept_ite
    | with_reducible apply keptE_next
    | with_reducible apply cmdRow_kept
    | with_reducible apply cmdIdSign_kept

theorem execSigVerify_kept {fp : Nat} {z : State} {d : CmdDesc} {s : State} (h : Kept fp z s)
    (hk : Sub 272856 fp) :
    KeptE fp z (execSigVerify d s) := by
  unfold execSigVerify
  repeat' first
    | with_reducible assumption
    | exact Sub.of hk rfl
    | with_reducible intro _
    | with_reducible apply kept_ite
    | with_reducible apply keptE_next
    | with_reducible apply cmdRow_kept
    | with_reducible apply cmdSigVerify_kept

theorem execHash_kept {fp : Nat} {z : State} {d : CmdDesc} {s : State} (h : Kept fp z s)
    (hk : Sub 272856 fp) :
    KeptE fp z (execHash d s) := by
  unfold execHash
  repeat' first
    | with_reducible assumption
    | exact Sub.of hk rfl
    | with_reducible intro _
    | with_reducible apply kept_ite
    | with_reducible apply keptE_next
    | with_reducible apply cmdRow_kept
    | with_reducible apply cmdHash_kept

theorem execRandom_kept {fp : Nat} {z : State} {d : CmdDesc} {s : State} (h : Kept fp z s)
    (hk : Sub 272856 fp) :
    KeptE fp z (execRandom d s) := by
  unfold execRandom
  repeat' first
    | with_reducible assumption
    | exact Sub.of hk rfl
    | with_reducible intro _
    | with_reducible apply kept_ite
    | with_reducible apply keptE_next
    | with_reducible apply cmdRow_kept
    | with_reducible apply cmdRandom_kept

theorem execHostKey_kept {fp : Nat} {z : State} {d : CmdDesc} {s : State} (h : Kept fp z s)
    (hk : Sub 272856 fp) :
    KeptE fp z (execHostKey d s) := by
  unfold execHostKey
  repeat' first
    | with_reducible assumption
    | exact Sub.of hk rfl
    | with_reducible intro _
    | with_reducible apply kept_ite
    | with_reducible apply keptE_next
    | with_reducible apply cmdRow_kept
    | with_reducible apply cmdHostKey_kept

theorem execGcm_kept {fp : Nat} {z : State} {d : CmdDesc} {s : State} (h : Kept fp z s)
    (hk : Sub 272856 fp) :
    KeptE fp z (execGcm d s) := by
  unfold execGcm
  repeat' first
    | with_reducible assumption
    | exact Sub.of hk rfl
    | with_reducible intro _
    | with_reducible apply kept_ite
    | with_reducible apply keptE_next
    | with_reducible apply cmdRow_kept
    | with_reducible apply cmdGcm_kept

theorem execOtpCustKey_kept {fp : Nat} {z : State} {d : CmdDesc} {s : State} (h : Kept fp z s)
    (hk : Sub 272856 fp) :
    KeptE fp z (execOtpCustKey d s) := by
  unfold execOtpCustKey
  repeat' first
    | with_reducible assumption
    | exact Sub.of hk rfl
    | with_reducible intro _
    | with_reducible apply kept_ite
    | with_reducible apply keptE_next
    | with_reducible apply cmdRow_kept
    | with_reducible apply cmdOtpCustKey_kept

theorem execDraftLoad_kept {fp : Nat} {z : State} {d : CmdDesc} {s : State} (h : Kept fp z s)
    (hk : Sub 4467160 fp) :
    KeptE fp z (execDraftLoad d s) := by
  unfold execDraftLoad
  repeat' first
    | with_reducible assumption
    | exact Sub.of hk rfl
    | with_reducible intro _
    | with_reducible apply kept_ite
    | with_reducible apply keptE_next
    | with_reducible apply cmdRow_kept
    | with_reducible apply cmdDraftLoad_kept

theorem execDraftSwap_kept {fp : Nat} {z : State} {d : CmdDesc} {s : State} (h : Kept fp z s)
    (hk : Sub 4467160 fp) :
    KeptE fp z (execDraftSwap d s) := by
  unfold execDraftSwap
  repeat' first
    | with_reducible assumption
    | exact Sub.of hk rfl
    | with_reducible intro _
    | with_reducible apply kept_ite
    | with_reducible apply keptE_next
    | with_reducible apply cmdRow_kept
    | with_reducible apply cmdDraftSwap_kept

theorem ringCommand_kept {fp : Nat} {z : State} {code : Nat} {body : CmdDesc → State → CmdRes} (e : ringCommand code = some body)
    (hk : Sub 8336 fp) :
    ∀ d t, Kept fp z t → KeptC fp z (body d t) := by
  intro d t h
  unfold ringCommand at e
  split at e <;> cases e <;> with_reducible first
    | exact cmdNop_kept h (hk.of rfl)
    | exact cmdRingSetup_kept h (hk.of rfl)
    | exact cmdRingResize_kept h (hk.of rfl)
    | exact cmdRingStop_kept h (hk.of rfl)
    | exact cmdCqModerate_kept h (hk.of rfl)
    | exact cmdRingQuery_kept h (hk.of rfl)

theorem trafficCommand_kept {fp : Nat} {z : State} {code : Nat} {body : CmdDesc → State → CmdRes}
    (e : trafficCommand code = some body)
    (hk : Sub 4712666 fp) : ∀ d t, Kept fp z t → KeptC fp z (body d t) := by
  intro d t h
  unfold trafficCommand at e
  split at e <;> cases e <;> with_reducible first
    | exact cmdDeckLoad_kept h (hk.of rfl)
    | exact cmdDeckSwap_kept h (hk.of rfl)
    | exact cmdRuleWrite_kept h (hk.of rfl)
    | exact cmdFlowInsert_kept h (hk.of rfl)
    | exact cmdFlowDelete_kept h (hk.of rfl)
    | exact cmdFlowRead_kept h (hk.of rfl)
    | exact cmdFlowRehash_kept h (hk.of rfl)
    | exact cmdFlowClear_kept h (hk.of rfl)
    | exact cmdShaperLoad_kept h (hk.of rfl)
    | exact cmdShaperSwap_kept h (hk.of rfl)
    | exact cmdGateLoad_kept h (hk.of rfl)
    | exact cmdGateStart_kept h (hk.of rfl)
    | exact cmdQueueFlush_kept h (hk.of rfl)
    | exact cmdDraftLoad_kept h (hk.of rfl)
    | exact cmdDraftSwap_kept h (hk.of rfl)

theorem secureCommand_kept {fp : Nat} {z : State} {code : Nat} {body : CmdDesc → State → CmdRes}
    (e : secureCommand code = some body)
    (hk : Sub 17040472 fp) : ∀ d t, Kept fp z t → KeptC fp z (body d t) := by
  intro d t h
  unfold secureCommand at e
  split at e <;> cases e <;> with_reducible first
    | exact cmdImageInstall_kept h (hk.of rfl)
    | exact cmdImageActivate_kept h (hk.of rfl)
    | exact cmdArbRaise_kept h (hk.of rfl)
    | exact cmdIdSign_kept h (hk.of rfl)
    | exact cmdSigVerify_kept h (hk.of rfl)
    | exact cmdHash_kept h (hk.of rfl)
    | exact cmdRandom_kept h (hk.of rfl)
    | exact cmdHostKey_kept h (hk.of rfl)
    | exact cmdGcm_kept h (hk.of rfl)
    | exact cmdOtpCustKey_kept h (hk.of rfl)
    | exact cmdSkeinLoad_kept h (hk.of rfl)
    | exact cmdSkeinUnload_kept h (hk.of rfl)

theorem commandOf_kept {fp : Nat} {z : State} {code : Nat} {body : CmdDesc → State → CmdRes} (e : commandOf code = some body)
    (hk : Sub 21490906 fp) :
    ∀ d t, Kept fp z t → KeptC fp z (body d t) := by
  unfold commandOf at e
  cases h1 : ringCommand code with
  | some p =>
    simp only [h1, Option.orElse_some, Option.some.injEq] at e
    exact ringCommand_kept (h1.trans (congrArg some e)) (hk.of rfl)
  | none =>
    simp only [h1, Option.orElse_none] at e
    cases h2 : trafficCommand code with
    | some p =>
      simp only [h2, Option.orElse_some, Option.some.injEq] at e
      exact trafficCommand_kept (h2.trans (congrArg some e)) (hk.of rfl)
    | none =>
      simp only [h2, Option.orElse_none] at e
      exact secureCommand_kept e (hk.of rfl)

theorem applyCommand_kept {fp : Nat} {z : State} {d : CmdDesc} {s : State} (h : Kept fp z s)
    (hk : Sub 21490906 fp) : Kept fp z (applyCommand d s) := by
  unfold applyCommand
  split
  · exact cmdApply_kept (commandOf_kept (by assumption) (hk.of rfl)) h (hk.of rfl)
  · exact cmdFinish_kept h (hk.of rfl)

theorem activateLoaded_kept {fp : Nat} {z : State} {s : State} (h : Kept fp z s)
    (hk : Sub 17039368 fp) :
    Kept fp z (activateLoaded s) := by
  unfold activateLoaded
  repeat' first
    | with_reducible assumption
    | exact Sub.of hk rfl
    | (with_reducible apply otpLe_mk <;> first | exact Nat.le_refl _ | exact Nat.le_max_left _ _ | exact fun h => ⟨h, rfl⟩ | rfl | exact fun h => absurd h (by assumption))
    | with_reducible intro _
    | with_reducible apply kept_ite
    | with_reducible refine testSlot_kept_of ?_ (by assumption) ?_
    | with_reducible apply testSlot_kept
    | with_reducible apply stageFirmware_kept
    | with_reducible apply updSec_kept
    | with_reducible apply kept_foldl
    | with_reducible apply kept_getD
    | with_reducible apply keptF_of
    | with_reducible apply keptQ_snd
    | with_reducible apply keptP_snd

theorem workResult_kept {fp : Nat} {z : State} {c : CmdWork} {w : WorkIn} {s : State} (h : Kept fp z s)
    (hk : Sub 21364952 fp) : KeptP fp z (workResult c w s) := by
  unfold workResult
  split
  · exact keptQ_of (shaperLoadWork_kept (w := w) h (hk.of rfl)) rfl
  · split
    · exact keptQ_of (draftLoadWork_kept (w := w) h (hk.of rfl)) rfl
    · split
      · exact activateLoaded_kept h (hk.of rfl)
      · have h1 : KeptJ fp z (secWork c w s) := secWork_kept h (hk.of rfl)
        split <;> rename_i e <;> rw [e] at h1 <;> exact h1

theorem workResult_kept_of {fp : Nat} {z : State} {c : CmdWork} {w : WorkIn} {s : State} {x9} {t9 : State} (h : Kept fp z s) (e : workResult c w s = (x9, t9)) (hk : Sub 21364952 fp) : Kept fp z t9 := keptP_of (workResult_kept (z := z) h hk) e

theorem execCommandWorkEnd_kept {fp : Nat} {z : State} {ring : Nat} {index : Nat} {w : WorkIn} {s : State} (h : Kept fp z s)
    (hk : Sub 21375192 fp) :
    KeptE fp z (execCommandWorkEnd ring index w s) := by
  unfold execCommandWorkEnd
  repeat' first
    | with_reducible assumption
    | exact Sub.of hk rfl
    | with_reducible intro _
    | with_reducible apply kept_ite
    | with_reducible apply keptE_next
    | with_reducible refine workResult_kept_of ?_ (by assumption) ?_
    | with_reducible apply workResult_kept
    | with_reducible apply workEnd_kept
    | with_reducible apply dmaErr_kept
    | with_reducible apply kept_foldl
    | with_reducible apply kept_getD
    | with_reducible apply keptF_of
    | with_reducible apply keptQ_snd
    | with_reducible apply keptP_snd
    | simp only [keptP_mk]
    | with_reducible apply keptP_ite
    | simp only [keptQ_mk]
    | with_reducible apply keptQ_ite
    | split

/-! ## Machine/Commit.lean -/

theorem runClocks_kept {fp : Nat} {z : State} {n : Nat} {s : State} (h : Kept fp z s)
    (hk : Sub 33570817 fp) :
    Kept fp z (runClocks n s) := by
  unfold runClocks
  repeat' first
    | with_reducible assumption
    | exact Sub.of hk rfl
    | with_reducible intro _
    | with_reducible apply kept_ite
    | with_reducible apply timeAdvance_kept
    | with_reducible apply kept_foldl
    | with_reducible apply kept_getD
    | with_reducible apply keptF_of
    | with_reducible apply keptQ_snd
    | with_reducible apply keptP_snd
    | dsimp only
    | with_reducible apply keptP_ite
    | simp only [keptQ_mk]
    | with_reducible apply keptQ_ite
    | split
    | simp only [kept_mk]
    | with_reducible refine keptF_upd ?_ (updF hk ?_)
    | (unfold UpdF; and_intros <;> first | exact .inl rfl | exact .inr rfl | exact .inr id | exact .inr fun _ => rfl | exact .refl _ | exact fun h => ⟨h, rfl⟩ | rfl | exact Nat.le_max_left _ _)

theorem idleClock_kept {fp : Nat} {z : State} {s : State} (h : Kept fp z s)
    (hk : Sub 33570817 fp) :
    Kept fp z (idleClock s) := by
  unfold idleClock
  repeat' first
    | with_reducible assumption
    | exact Sub.of hk rfl
    | with_reducible intro _
    | with_reducible apply kept_ite
    | with_reducible apply runClocks_kept

theorem endPick_kept {fp : Nat} {z : State} {clocks : Nat} {s : State} (h : Kept fp z s)
    (hk : Sub 280 fp) :
    Kept fp z (endPick clocks s) := by
  unfold endPick
  repeat' first
    | with_reducible assumption
    | exact Sub.of hk rfl
    | with_reducible intro _
    | with_reducible apply kept_ite
    | with_reducible apply setPick_kept
    | with_reducible apply setBit_kept
    | with_reducible apply count_kept

theorem stagedBack_kept {fp : Nat} {z : State} {s : State} {a : Nat} {hi : Nat} {lo : Nat} {v : Nat} {source : Nat} (h : Kept fp z s)
    (hk : Sub 2136 fp) :
    Kept fp z (stagedBack s a hi lo v source) := by
  unfold stagedBack
  repeat' first
    | with_reducible assumption
    | exact Sub.of hk rfl
    | with_reducible intro _
    | with_reducible apply kept_ite
    | with_reducible apply progErr_kept
    | with_reducible apply stage_kept

theorem stagedChecks_kept {fp : Nat} {z : State} {s : State} (h : Kept fp z s)
    (hk : Sub 2136 fp) :
    Kept fp z (stagedChecks s) := by
  unfold stagedChecks
  repeat' first
    | with_reducible assumption
    | exact Sub.of hk rfl
    | with_reducible intro _
    | with_reducible apply kept_ite
    | with_reducible apply stagedBack_kept

theorem stagedAll_kept {fp : Nat} {z : State} {s : State} (h : Kept fp z s)
    (hk : Sub 8 fp) :
    Kept fp z (stagedAll s) := by
  unfold stagedAll
  repeat' first
    | with_reducible assumption
    | exact Sub.of hk rfl
    | with_reducible intro _
    | with_reducible apply kept_ite
    | with_reducible apply force_kept
    | with_reducible apply kept_foldl

theorem filtersIn_kept {fp : Nat} {z : State} {s : State} (h : Kept fp z s)
    (hk : Sub 67108864 fp) :
    Kept fp z (filtersIn s) := by
  unfold filtersIn
  repeat' first
    | with_reducible assumption
    | exact Sub.of hk rfl
    | with_reducible intro _
    | with_reducible apply kept_ite
    | with_reducible apply setPorts_kept

theorem enablesIn_kept {fp : Nat} {z : State} {old : Nat → Nat} {s : State} (h : Kept fp z s)
    (hk : Sub 65562 fp) :
    Kept fp z (enablesIn old s) := by
  unfold enablesIn
  repeat' first
    | with_reducible assumption
    | exact Sub.of hk rfl
    | with_reducible intro _
    | with_reducible apply kept_ite
    | with_reducible apply dramEnable_kept
    | with_reducible apply flowReseed_kept
    | with_reducible apply flowEnable_kept

theorem eqIn_kept {fp : Nat} {z : State} {old : Nat → Nat} {s : State} (h : Kept fp z s)
    (hk : Sub 17304664 fp) :
    Kept fp z (eqIn old s) := by
  unfold eqIn
  repeat' first
    | with_reducible assumption
    | exact Sub.of hk rfl
    | with_reducible intro _
    | with_reducible apply kept_ite
    | with_reducible apply eqCommit_kept
    | with_reducible apply pendCores_kept

theorem powerIn_kept {fp : Nat} {z : State} {s : State} (h : Kept fp z s)
    (hk : Sub 125828858 fp) :
    Kept fp z (powerIn s) := by
  unfold powerIn
  repeat' first
    | with_reducible assumption
    | exact Sub.of hk rfl
    | (with_reducible refine Or.inr ?_; first | exact rfl | exact id | exact fun _ => rfl)
    | with_reducible intro _
    | with_reducible apply kept_ite
    | with_reducible apply setPower_kept
    | with_reducible apply wakeStep_kept
    | with_reducible apply switchOffs_kept
    | with_reducible apply setMode_kept
    | with_reducible apply modeArrive_kept
    | with_reducible apply modeAsk_kept

theorem agesIn_kept {fp : Nat} {z : State} {s : State} (h : Kept fp z s)
    (hk : Sub 294912 fp) :
    Kept fp z (agesIn s) := by
  unfold agesIn
  repeat' first
    | with_reducible assumption
    | exact Sub.of hk rfl
    | (with_reducible apply otpLe_mk <;> first | exact Nat.le_refl _ | exact Nat.le_max_left _ _ | exact fun h => ⟨h, rfl⟩ | rfl | exact fun h => absurd h (by assumption))
    | with_reducible intro _
    | with_reducible apply kept_ite
    | with_reducible apply setHeddle_kept
    | with_reducible apply setSec_kept

theorem stepStaged_kept {fp : Nat} {z : State} {old : Nat → Nat} {s : State} (h : Kept fp z s)
    (hk : Sub 402652922 fp) :
    Kept fp z (stepStaged old s) := by
  unfold stepStaged
  repeat' first
    | with_reducible assumption
    | exact Sub.of hk rfl
    | with_reducible intro _
    | with_reducible apply kept_ite
    | with_reducible apply setWeft_kept
    | with_reducible apply stagedAll_kept
    | with_reducible apply spoolMinima_kept
    | with_reducible apply stagedChecks_kept
    | with_reducible apply safetyClear_kept
    | with_reducible apply gatesFollow_kept
    | with_reducible apply timeCommit_kept
    | with_reducible apply reedStaged_kept
    | with_reducible apply recoverAge_kept
    | with_reducible apply powerIn_kept
    | with_reducible apply tensionUse_kept
    | with_reducible apply enablesIn_kept
    | with_reducible apply filtersIn_kept
    | with_reducible apply lanesCommit_kept
    | with_reducible apply warpCommit_kept
    | with_reducible apply weftCommit_kept
    | with_reducible apply eqIn_kept
    | with_reducible apply recallStep_kept
    | with_reducible apply actCommit_kept
    | with_reducible apply hostCommit_kept
    | with_reducible apply skeinCommit_kept
    | with_reducible apply shuttleCommit_kept
    | with_reducible apply reviewBlock_kept
    | with_reducible apply agesIn_kept

theorem applyReady_kept {fp : Nat} {z : State} {a0 : Nat} {a1 : State} (h : Kept fp z a1)
    (hk : Sub 21490906 fp) :
    KeptP fp z (applyReady a0 a1) := by
  induction a0 generalizing a1 with
  | zero =>
    unfold applyReady
    repeat' first
      | with_reducible assumption
      | exact Sub.of hk rfl
      | with_reducible intro _
      | with_reducible apply kept_ite
      | with_reducible apply keptP_ite
      | simp only [keptP_mk]
  | succ n ih =>
    unfold applyReady
    repeat' first
      | with_reducible assumption
      | with_reducible apply ih
      | exact Sub.of hk rfl
      | with_reducible intro _
      | with_reducible apply kept_ite
      | with_reducible apply keptP_ite
      | simp only [keptP_mk]
      | with_reducible apply applyCommand_kept
      | with_reducible apply kept_foldl
      | with_reducible apply kept_getD
      | with_reducible apply keptF_of
      | with_reducible apply keptQ_snd
      | with_reducible apply keptP_snd
      | simp only [keptP_mk]
      | with_reducible apply keptP_ite
      | simp only [keptQ_mk]
      | with_reducible apply keptQ_ite
      | split
      | simp only [kept_mk]
      | with_reducible refine keptF_upd ?_ (updF hk ?_)
      | (unfold UpdF; and_intros <;> first | exact .inl rfl | exact .inr rfl | exact .inr id | exact .inr fun _ => rfl | exact .refl _ | exact fun h => ⟨h, rfl⟩ | rfl | exact Nat.le_max_left _ _)

theorem applyReady_kept_of {fp : Nat} {z : State} {a0 : Nat} {a1 : State} {x9} {t9 : State} (h : Kept fp z a1) (e : applyReady a0 a1 = (x9, t9)) (hk : Sub 21490906 fp) : Kept fp z t9 := keptP_of (applyReady_kept (z := z) h hk) e

theorem stepCommands_kept {fp : Nat} {z : State} {s : State} (h : Kept fp z s)
    (hk : Sub 21491162 fp) :
    Kept fp z (stepCommands s) := by
  unfold stepCommands
  repeat' first
    | with_reducible assumption
    | exact Sub.of hk rfl
    | with_reducible intro _
    | with_reducible apply kept_ite
    | with_reducible apply setHeddle_kept
    | with_reducible refine applyReady_kept_of ?_ (by assumption) ?_
    | with_reducible apply applyReady_kept
    | with_reducible apply setPick_kept
    | with_reducible apply swapFirmware_kept
    | with_reducible apply imgSwap_kept
    | with_reducible apply kept_foldl
    | with_reducible apply kept_getD
    | with_reducible apply keptF_of
    | with_reducible apply keptQ_snd
    | with_reducible apply keptP_snd
    | dsimp only
    | with_reducible apply keptP_ite
    | simp only [keptQ_mk]
    | with_reducible apply keptQ_ite
    | split
    | simp only [kept_mk]
    | with_reducible refine keptF_upd ?_ (updF hk ?_)
    | (unfold UpdF; and_intros <;> first | exact .inl rfl | exact .inr rfl | exact .inr id | exact .inr fun _ => rfl | exact .refl _ | exact fun h => ⟨h, rfl⟩ | rfl | exact Nat.le_max_left _ _)

theorem stepDraft_kept {fp : Nat} {z : State} {s : State} (h : Kept fp z s)
    (hk : Sub 4202640 fp) :
    Kept fp z (stepDraft s) := by
  unfold stepDraft
  repeat' first
    | with_reducible assumption
    | exact Sub.of hk rfl
    | with_reducible intro _
    | with_reducible apply kept_ite
    | with_reducible apply draftSwap_kept
    | with_reducible apply downExchange_kept

theorem stepShapers_kept {fp : Nat} {z : State} {s : State} (h : Kept fp z s)
    (hk : Sub 131080 fp) :
    Kept fp z (stepShapers s) := by
  unfold stepShapers
  repeat' first
    | with_reducible assumption
    | exact Sub.of hk rfl
    | with_reducible intro _
    | with_reducible apply kept_ite
    | with_reducible apply shaperSwap_kept
    | with_reducible apply setReed_kept

theorem stepCount_kept {fp : Nat} {z : State} {c : Nat} {s : State} (h : Kept fp z s)
    (hk : Sub 526616 fp) :
    Kept fp z (stepCount c s) := by
  unfold stepCount
  repeat' first
    | with_reducible assumption
    | exact Sub.of hk rfl
    | with_reducible intro _
    | with_reducible apply kept_ite
    | with_reducible apply setPick_kept
    | with_reducible apply raiseEv_kept
    | with_reducible apply setBit_kept
    | with_reducible apply setPm_kept

theorem stepRest_kept {fp : Nat} {z : State} {c : Nat} {s : State} (h : Kept fp z s)
    (hk : Sub 134217690 fp) :
    Kept fp z (stepRest c s) := by
  unfold stepRest
  repeat' first
    | with_reducible assumption
    | exact Sub.of hk rfl
    | with_reducible intro _
    | with_reducible apply kept_ite
    | with_reducible apply deckSwap_kept
    | with_reducible apply stepDraft_kept
    | with_reducible apply gateArm_kept
    | with_reducible apply stepShapers_kept
    | with_reducible apply actKeys_kept
    | with_reducible apply rehashStep_kept
    | with_reducible apply stepCount_kept
    | with_reducible apply recoverStart_kept
    | with_reducible apply grantReview_kept

theorem pickEnds_kept {fp : Nat} {z : State} {i : CommitIn} {s : State} (h : Kept fp z s)
    (hk : Sub 4608 fp) :
    Kept fp z (pickEnds i s) := by
  unfold pickEnds
  repeat' first
    | with_reducible assumption
    | exact Sub.of hk rfl
    | (with_reducible refine Or.inr ?_; first | exact rfl | exact id | exact fun _ => rfl)
    | with_reducible intro _
    | with_reducible apply kept_ite
    | with_reducible apply setPower_kept
    | with_reducible apply kept_foldl
    | with_reducible apply kept_getD
    | with_reducible apply keptF_of
    | with_reducible apply keptQ_snd
    | with_reducible apply keptP_snd
    | dsimp only
    | with_reducible apply keptP_ite
    | simp only [keptQ_mk]
    | with_reducible apply keptQ_ite
    | split
    | simp only [kept_mk]
    | with_reducible refine keptF_upd ?_ (updF hk ?_)
    | (unfold UpdF; and_intros <;> first | exact .inl rfl | exact .inr rfl | exact .inr id | exact .inr fun _ => rfl | exact .refl _ | exact fun h => ⟨h, rfl⟩ | rfl | exact Nat.le_max_left _ _)

theorem execCommitPoint_kept {fp : Nat} {z : State} {i : CommitIn} {s : State} (h : Kept fp z s)
    (hk : Sub 402653179 fp) :
    KeptE fp z (execCommitPoint i s) := by
  unfold execCommitPoint
  repeat' first
    | with_reducible assumption
    | exact Sub.of hk rfl
    | with_reducible intro _
    | with_reducible apply kept_ite
    | with_reducible apply keptE_next
    | with_reducible apply endPick_kept
    | with_reducible apply pickEnds_kept
    | with_reducible apply takeAll_kept
    | with_reducible apply forUpTo_kept
    | with_reducible apply runClocks_kept
    | with_reducible apply pairSend_kept
    | with_reducible apply setPick_kept
    | with_reducible apply pauseScan_kept
    | with_reducible apply stepRest_kept
    | with_reducible apply stepCommands_kept
    | with_reducible apply stepStaged_kept

end Sys2Proof.Machine
end

