-- ==== Sys2Proof/Laws/Regs.lean ====
section
/-! SUPPORT. Laws/Regs.lean: reading a register, a field or a counter after it, or another one, has been written. -/

namespace Sys2Proof.Machine

open Sys2Proof

variable {s : State}

/-! ## What the invariant says of one table -/

theorem inv_stg (h : s.inv) : srising 0 s.stg = true := by
  have := h.1
  simp only [State.tablesWf, Bool.and_eq_true, swf] at this
  exact this.1.1.1.1.1.1

theorem inv_cur (h : s.inv) : srising 0 s.cur = true := by
  have := h.1
  simp only [State.tablesWf, Bool.and_eq_true, swf] at this
  exact this.1.1.1.1.2.1

theorem inv_cnt (h : s.inv) : srising 0 s.cnt = true := by
  have := h.1
  simp only [State.tablesWf, Bool.and_eq_true, swf] at this
  exact this.1.1.1.2.1

theorem inv_hold (h : s.inv) : srising 0 s.hold = true := by
  have := h.1
  simp only [State.tablesWf, Bool.and_eq_true, swf] at this
  exact this.1.1.2.1

theorem inv_sat (h : s.inv) : srising 0 s.sat = true := by
  have := h.1
  simp only [State.tablesWf, Bool.and_eq_true, swf] at this
  exact this.1.2.1

theorem setReg_inv (h : s.inv) (a v : Nat) : (setReg s a v).inv := (setReg_kept (Kept.refl 8 s) (Sub.refl 8)).inv h
theorem stage_inv (h : s.inv) (a v : Nat) : (stage s a v).inv := (stage_kept (Kept.refl 8 s) (Sub.refl 8)).inv h
theorem setFld_inv (h : s.inv) (a hi lo v : Nat) : (setFld s a hi lo v).inv := (setFld_kept (Kept.refl 8 s) (Sub.refl 8)).inv h
theorem countKey_inv (h : s.inv) (k n : Nat) : (countKey s k n).inv := (countKey_kept (Kept.refl 16 s) (Sub.refl 16)).inv h
theorem countBy_inv (h : s.inv) (g k n : Nat) : (countBy s g k n).inv := countKey_inv h _ _
theorem count_inv (h : s.inv) (g k : Nat) : (count s g k).inv := countKey_inv h _ _

/-! ## Registers -/

theorem rd_setReg_same (h : s.inv) (a v : Nat) : rd (setReg s a v) a = v % 2 ^ 32 := by
  simp [rd, setReg, force, stage, sget_sput_same (inv_cur h)]

theorem rd_setReg_other (h : s.inv) {a b : Nat} (hab : a ≠ b) (v : Nat) : rd (setReg s a v) b = rd s b := by
  simp [rd, setReg, force, stage, sget_sput_other _ _ (inv_cur h) hab]

theorem rdS_setReg_same (h : s.inv) (a v : Nat) : rdS (setReg s a v) a = v % 2 ^ 32 := by
  simp [rdS, setReg, force, stage, sget_sput_same (inv_stg h)]

theorem rdS_setReg_other (h : s.inv) {a b : Nat} (hab : a ≠ b) (v : Nat) : rdS (setReg s a v) b = rdS s b := by
  simp [rdS, setReg, force, stage, sget_sput_other _ _ (inv_stg h) hab]

theorem rd_stage (a b v : Nat) : rd (stage s a v) b = rd s b := rfl

theorem rdS_stage_same (h : s.inv) (a v : Nat) : rdS (stage s a v) a = v % 2 ^ 32 := by
  simp [rdS, stage, sget_sput_same (inv_stg h)]

theorem rdS_stage_other (h : s.inv) {a b : Nat} (hab : a ≠ b) (v : Nat) : rdS (stage s a v) b = rdS s b := by
  simp [rdS, stage, sget_sput_other _ _ (inv_stg h) hab]

theorem rd_setFld_same (h : s.inv) (a hi lo v : Nat) : rd (setFld s a hi lo v) a = insBits (rd s a) hi lo v % 2 ^ 32 := by
  simp [rd, setFld, force, stage, sget_sput_same (inv_cur h)]

theorem rd_setFld_other (h : s.inv) {a b : Nat} (hab : a ≠ b) (hi lo v : Nat) : rd (setFld s a hi lo v) b = rd s b := by
  simp [rd, setFld, force, stage, sget_sput_other _ _ (inv_cur h) hab]

theorem rdS_setFld_same (h : s.inv) (a hi lo v : Nat) : rdS (setFld s a hi lo v) a = insBits (rdS s a) hi lo v % 2 ^ 32 := by
  simp [rdS, setFld, force, stage, sget_sput_same (inv_stg h)]

theorem rdS_setFld_other (h : s.inv) {a b : Nat} (hab : a ≠ b) (hi lo v : Nat) : rdS (setFld s a hi lo v) b = rdS s b := by
  simp [rdS, setFld, force, stage, sget_sput_other _ _ (inv_stg h) hab]

/-! ## Fields -/

theorem insBits_testBit {x hi lo v : Nat} (h : lo ≤ hi) (n : Nat) :
    (insBits x hi lo v).testBit n = if lo ≤ n ∧ n ≤ hi then v.testBit (n - lo) else x.testBit n := by
  have e : insBits x hi lo v = x % 2 ^ lo + 2 ^ lo * (v % 2 ^ (hi + 1 - lo) + 2 ^ (hi + 1 - lo) * (x / 2 ^ (hi + 1))) := by
    unfold insBits bits
    rw [Nat.shiftRight_eq_div_pow]
    have h1 : x = x % 2 ^ lo + 2 ^ lo * (x / 2 ^ lo) := (Nat.mod_add_div x (2 ^ lo)).symm
    have h2 : x / 2 ^ lo = x / 2 ^ lo % 2 ^ (hi + 1 - lo) + 2 ^ (hi + 1 - lo) * (x / 2 ^ (hi + 1)) := by
      have := (Nat.mod_add_div (x / 2 ^ lo) (2 ^ (hi + 1 - lo))).symm
      rwa [Nat.div_div_eq_div_mul, ← Nat.pow_add, show lo + (hi + 1 - lo) = hi + 1 by omega] at this
    have h3 : x = x % 2 ^ lo + 2 ^ lo * (x / 2 ^ lo % 2 ^ (hi + 1 - lo) + 2 ^ (hi + 1 - lo) * (x / 2 ^ (hi + 1))) := by
      rw [← h2]; exact h1
    rw [Nat.mul_add] at h3
    rw [Nat.mul_add, Nat.mul_comm (v % _)]
    have h4 : x / 2 ^ lo % 2 ^ (hi + 1 - lo) * 2 ^ lo = 2 ^ lo * (x / 2 ^ lo % 2 ^ (hi + 1 - lo)) := Nat.mul_comm _ _
    omega
  rw [e, Nat.add_comm, Nat.testBit_two_pow_mul_add _ (Nat.mod_lt _ (Nat.two_pow_pos lo))]
  by_cases h1 : n < lo
  · rw [if_pos h1, if_neg (by omega), Nat.testBit_mod_two_pow]
    simp [h1]
  · rw [if_neg h1, Nat.add_comm (v % _), Nat.testBit_two_pow_mul_add _ (Nat.mod_lt _ (Nat.two_pow_pos _))]
    by_cases h2 : n ≤ hi
    · rw [if_pos (by omega), if_pos ⟨by omega, h2⟩, Nat.testBit_mod_two_pow]
      simp only [show n - lo < hi + 1 - lo by omega, decide_true, Bool.true_and]
    · rw [if_neg (by omega), if_neg (by omega), Nat.testBit_div_two_pow]
      congr 1
      omega

theorem bits_testBit (x hi lo n : Nat) : (bits x hi lo).testBit n = (decide (n < hi + 1 - lo) && x.testBit (lo + n)) := by
  unfold bits
  rw [Nat.testBit_mod_two_pow, Nat.testBit_shiftRight]

theorem fld_setFld_same (h : s.inv) {a hi lo v : Nat} (hl : lo ≤ hi) (hh : hi < 32) :
    fld (setFld s a hi lo v) a hi lo = v % 2 ^ (hi + 1 - lo) := by
  unfold fld
  rw [rd_setFld_same h]
  apply Nat.eq_of_testBit_eq
  intro n
  rw [bits_testBit, Nat.testBit_mod_two_pow, Nat.testBit_mod_two_pow, insBits_testBit hl]
  by_cases hn : n < hi + 1 - lo
  · rw [if_pos ⟨by omega, by omega⟩]
    simp [hn, show lo + n < 32 by omega]
  · simp [hn]

/-- A field that does not overlap the written one. -/
theorem fld_setFld_apart (h : s.inv) {a hi lo v hi' lo' : Nat} (hl : lo ≤ hi) (hd : hi' < lo ∨ hi < lo') (hh : hi' < 32) :
    fld (setFld s a hi lo v) a hi' lo' = fld s a hi' lo' := by
  unfold fld
  rw [rd_setFld_same h]
  apply Nat.eq_of_testBit_eq
  intro n
  rw [bits_testBit, bits_testBit, Nat.testBit_mod_two_pow, insBits_testBit hl]
  by_cases hn : n < hi' + 1 - lo'
  · rw [if_neg (by omega)]
    simp [hn, show lo' + n < 32 by omega]
  · simp [hn]

theorem fld_setFld_other (h : s.inv) {a b : Nat} (hab : a ≠ b) (hi lo v hi' lo' : Nat) :
    fld (setFld s a hi lo v) b hi' lo' = fld s b hi' lo' := by
  unfold fld
  rw [rd_setFld_other h hab]

theorem flag_setBit (h : s.inv) {a n : Nat} (hn : n < 32) : flag (setBit s a n) a n = true := by
  unfold flag setBit
  rw [rd_setFld_same h, Nat.testBit_mod_two_pow, insBits_testBit (Nat.le_refl n)]
  simp [hn]

theorem flag_clrBit (h : s.inv) {a n : Nat} : flag (clrBit s a n) a n = false := by
  unfold flag clrBit
  rw [rd_setFld_same h, Nat.testBit_mod_two_pow, insBits_testBit (Nat.le_refl n)]
  simp

theorem flag_setFld_other (h : s.inv) {a b : Nat} (hab : a ≠ b) (hi lo v n : Nat) : flag (setFld s a hi lo v) b n = flag s b n := by
  unfold flag
  rw [rd_setFld_other h hab]

/-! ## Counters -/

theorem cntVal_countBy_same (h : s.inv) (g n k : Nat) : cntVal (countBy s g n k) g n = min cntMax (cntVal s g n + k) := by
  unfold cntVal countBy countKey
  dsimp only
  split
  · rw [sget_sput_same (inv_cnt h)]
    omega
  · rw [sget_sput_same (inv_cnt h)]
    omega

theorem cntVal_countBy_other (h : s.inv) {g n g' n' : Nat} (hk : cntKey g n ≠ cntKey g' n') (k : Nat) :
    cntVal (countBy s g n k) g' n' = cntVal s g' n' := by
  unfold cntVal countBy countKey
  dsimp only
  split
  · rw [sget_sput_other _ _ (inv_cnt h) hk]
  · rw [sget_sput_other _ _ (inv_cnt h) hk]

end Sys2Proof.Machine
end

