-- ==== Sys2Proof/Laws/State.lean ====
section
/-! SUPPORT. Laws/State.lean: what each named update of the state leaves and what it writes, one lemma a field. -/

namespace Sys2Proof.Machine

open Sys2Proof

variable (s : State)

/-! ## setPick -/

@[simp] theorem setPick_pending (x : Pick) : (setPick s x).pending = s.pending := rfl
@[simp] theorem setPick_now (x : Pick) : (setPick s x).now = s.now := rfl
@[simp] theorem setPick_ns (x : Pick) : (setPick s x).ns = s.ns := rfl
@[simp] theorem setPick_dram (x : Pick) : (setPick s x).dram = s.dram := rfl
@[simp] theorem setPick_hostRead (x : Pick) : (setPick s x).hostRead = s.hostRead := rfl
@[simp] theorem setPick_stg (x : Pick) : (setPick s x).stg = s.stg := rfl
@[simp] theorem setPick_cur (x : Pick) : (setPick s x).cur = s.cur := rfl
@[simp] theorem setPick_cnt (x : Pick) : (setPick s x).cnt = s.cnt := rfl
@[simp] theorem setPick_hold (x : Pick) : (setPick s x).hold = s.hold := rfl
@[simp] theorem setPick_sat (x : Pick) : (setPick s x).sat = s.sat := rfl
@[simp] theorem setPick_draws (x : Pick) : (setPick s x).draws = s.draws := rfl
@[simp] theorem setPick_out (x : Pick) : (setPick s x).out = s.out := rfl
@[simp] theorem setPick_pick (x : Pick) : (setPick s x).pick = x := rfl
@[simp] theorem setPick_power (x : Pick) : (setPick s x).power = s.power := rfl
@[simp] theorem setPick_tension (x : Pick) : (setPick s x).tension = s.tension := rfl
@[simp] theorem setPick_selvedge (x : Pick) : (setPick s x).selvedge = s.selvedge := rfl
@[simp] theorem setPick_safety (x : Pick) : (setPick s x).safety = s.safety := rfl
@[simp] theorem setPick_host (x : Pick) : (setPick s x).host = s.host := rfl
@[simp] theorem setPick_spool (x : Pick) : (setPick s x).spool = s.spool := rfl
@[simp] theorem setPick_heddle (x : Pick) : (setPick s x).heddle = s.heddle := rfl
@[simp] theorem setPick_flow (x : Pick) : (setPick s x).flow = s.flow := rfl
@[simp] theorem setPick_reed (x : Pick) : (setPick s x).reed = s.reed := rfl
@[simp] theorem setPick_sec (x : Pick) : (setPick s x).sec = s.sec := rfl
@[simp] theorem setPick_warp (x : Pick) : (setPick s x).warp = s.warp := rfl
@[simp] theorem setPick_weft (x : Pick) : (setPick s x).weft = s.weft := rfl
@[simp] theorem setPick_act (x : Pick) : (setPick s x).act = s.act := rfl
@[simp] theorem setPick_draft (x : Pick) : (setPick s x).draft = s.draft := rfl
@[simp] theorem setPick_shuttle (x : Pick) : (setPick s x).shuttle = s.shuttle := rfl
@[simp] theorem setPick_skein (x : Pick) : (setPick s x).skein = s.skein := rfl
@[simp] theorem setPick_time (x : Pick) : (setPick s x).time = s.time := rfl
@[simp] theorem setPick_ports (x : Pick) : (setPick s x).ports = s.ports := rfl

/-! ## setPower -/

@[simp] theorem setPower_pending (x : Power) : (setPower s x).pending = s.pending := rfl
@[simp] theorem setPower_now (x : Power) : (setPower s x).now = s.now := rfl
@[simp] theorem setPower_ns (x : Power) : (setPower s x).ns = s.ns := rfl
@[simp] theorem setPower_dram (x : Power) : (setPower s x).dram = s.dram := rfl
@[simp] theorem setPower_hostRead (x : Power) : (setPower s x).hostRead = s.hostRead := rfl
@[simp] theorem setPower_stg (x : Power) : (setPower s x).stg = s.stg := rfl
@[simp] theorem setPower_cur (x : Power) : (setPower s x).cur = s.cur := rfl
@[simp] theorem setPower_cnt (x : Power) : (setPower s x).cnt = s.cnt := rfl
@[simp] theorem setPower_hold (x : Power) : (setPower s x).hold = s.hold := rfl
@[simp] theorem setPower_sat (x : Power) : (setPower s x).sat = s.sat := rfl
@[simp] theorem setPower_draws (x : Power) : (setPower s x).draws = s.draws := rfl
@[simp] theorem setPower_out (x : Power) : (setPower s x).out = s.out := rfl
@[simp] theorem setPower_pick (x : Power) : (setPower s x).pick = s.pick := rfl
@[simp] theorem setPower_power (x : Power) : (setPower s x).power = x := rfl
@[simp] theorem setPower_tension (x : Power) : (setPower s x).tension = s.tension := rfl
@[simp] theorem setPower_selvedge (x : Power) : (setPower s x).selvedge = s.selvedge := rfl
@[simp] theorem setPower_safety (x : Power) : (setPower s x).safety = s.safety := rfl
@[simp] theorem setPower_host (x : Power) : (setPower s x).host = s.host := rfl
@[simp] theorem setPower_spool (x : Power) : (setPower s x).spool = s.spool := rfl
@[simp] theorem setPower_heddle (x : Power) : (setPower s x).heddle = s.heddle := rfl
@[simp] theorem setPower_flow (x : Power) : (setPower s x).flow = s.flow := rfl
@[simp] theorem setPower_reed (x : Power) : (setPower s x).reed = s.reed := rfl
@[simp] theorem setPower_sec (x : Power) : (setPower s x).sec = s.sec := rfl
@[simp] theorem setPower_warp (x : Power) : (setPower s x).warp = s.warp := rfl
@[simp] theorem setPower_weft (x : Power) : (setPower s x).weft = s.weft := rfl
@[simp] theorem setPower_act (x : Power) : (setPower s x).act = s.act := rfl
@[simp] theorem setPower_draft (x : Power) : (setPower s x).draft = s.draft := rfl
@[simp] theorem setPower_shuttle (x : Power) : (setPower s x).shuttle = s.shuttle := rfl
@[simp] theorem setPower_skein (x : Power) : (setPower s x).skein = s.skein := rfl
@[simp] theorem setPower_time (x : Power) : (setPower s x).time = s.time := rfl
@[simp] theorem setPower_ports (x : Power) : (setPower s x).ports = s.ports := rfl

/-! ## setTension -/

@[simp] theorem setTension_pending (x : Tension) : (setTension s x).pending = s.pending := rfl
@[simp] theorem setTension_now (x : Tension) : (setTension s x).now = s.now := rfl
@[simp] theorem setTension_ns (x : Tension) : (setTension s x).ns = s.ns := rfl
@[simp] theorem setTension_dram (x : Tension) : (setTension s x).dram = s.dram := rfl
@[simp] theorem setTension_hostRead (x : Tension) : (setTension s x).hostRead = s.hostRead := rfl
@[simp] theorem setTension_stg (x : Tension) : (setTension s x).stg = s.stg := rfl
@[simp] theorem setTension_cur (x : Tension) : (setTension s x).cur = s.cur := rfl
@[simp] theorem setTension_cnt (x : Tension) : (setTension s x).cnt = s.cnt := rfl
@[simp] theorem setTension_hold (x : Tension) : (setTension s x).hold = s.hold := rfl
@[simp] theorem setTension_sat (x : Tension) : (setTension s x).sat = s.sat := rfl
@[simp] theorem setTension_draws (x : Tension) : (setTension s x).draws = s.draws := rfl
@[simp] theorem setTension_out (x : Tension) : (setTension s x).out = s.out := rfl
@[simp] theorem setTension_pick (x : Tension) : (setTension s x).pick = s.pick := rfl
@[simp] theorem setTension_power (x : Tension) : (setTension s x).power = s.power := rfl
@[simp] theorem setTension_tension (x : Tension) : (setTension s x).tension = x := rfl
@[simp] theorem setTension_selvedge (x : Tension) : (setTension s x).selvedge = s.selvedge := rfl
@[simp] theorem setTension_safety (x : Tension) : (setTension s x).safety = s.safety := rfl
@[simp] theorem setTension_host (x : Tension) : (setTension s x).host = s.host := rfl
@[simp] theorem setTension_spool (x : Tension) : (setTension s x).spool = s.spool := rfl
@[simp] theorem setTension_heddle (x : Tension) : (setTension s x).heddle = s.heddle := rfl
@[simp] theorem setTension_flow (x : Tension) : (setTension s x).flow = s.flow := rfl
@[simp] theorem setTension_reed (x : Tension) : (setTension s x).reed = s.reed := rfl
@[simp] theorem setTension_sec (x : Tension) : (setTension s x).sec = s.sec := rfl
@[simp] theorem setTension_warp (x : Tension) : (setTension s x).warp = s.warp := rfl
@[simp] theorem setTension_weft (x : Tension) : (setTension s x).weft = s.weft := rfl
@[simp] theorem setTension_act (x : Tension) : (setTension s x).act = s.act := rfl
@[simp] theorem setTension_draft (x : Tension) : (setTension s x).draft = s.draft := rfl
@[simp] theorem setTension_shuttle (x : Tension) : (setTension s x).shuttle = s.shuttle := rfl
@[simp] theorem setTension_skein (x : Tension) : (setTension s x).skein = s.skein := rfl
@[simp] theorem setTension_time (x : Tension) : (setTension s x).time = s.time := rfl
@[simp] theorem setTension_ports (x : Tension) : (setTension s x).ports = s.ports := rfl

/-! ## setSelvedge -/

@[simp] theorem setSelvedge_pending (x : Selvedge) : (setSelvedge s x).pending = s.pending := rfl
@[simp] theorem setSelvedge_now (x : Selvedge) : (setSelvedge s x).now = s.now := rfl
@[simp] theorem setSelvedge_ns (x : Selvedge) : (setSelvedge s x).ns = s.ns := rfl
@[simp] theorem setSelvedge_dram (x : Selvedge) : (setSelvedge s x).dram = s.dram := rfl
@[simp] theorem setSelvedge_hostRead (x : Selvedge) : (setSelvedge s x).hostRead = s.hostRead := rfl
@[simp] theorem setSelvedge_stg (x : Selvedge) : (setSelvedge s x).stg = s.stg := rfl
@[simp] theorem setSelvedge_cur (x : Selvedge) : (setSelvedge s x).cur = s.cur := rfl
@[simp] theorem setSelvedge_cnt (x : Selvedge) : (setSelvedge s x).cnt = s.cnt := rfl
@[simp] theorem setSelvedge_hold (x : Selvedge) : (setSelvedge s x).hold = s.hold := rfl
@[simp] theorem setSelvedge_sat (x : Selvedge) : (setSelvedge s x).sat = s.sat := rfl
@[simp] theorem setSelvedge_draws (x : Selvedge) : (setSelvedge s x).draws = s.draws := rfl
@[simp] theorem setSelvedge_out (x : Selvedge) : (setSelvedge s x).out = s.out := rfl
@[simp] theorem setSelvedge_pick (x : Selvedge) : (setSelvedge s x).pick = s.pick := rfl
@[simp] theorem setSelvedge_power (x : Selvedge) : (setSelvedge s x).power = s.power := rfl
@[simp] theorem setSelvedge_tension (x : Selvedge) : (setSelvedge s x).tension = s.tension := rfl
@[simp] theorem setSelvedge_selvedge (x : Selvedge) : (setSelvedge s x).selvedge = x := rfl
@[simp] theorem setSelvedge_safety (x : Selvedge) : (setSelvedge s x).safety = s.safety := rfl
@[simp] theorem setSelvedge_host (x : Selvedge) : (setSelvedge s x).host = s.host := rfl
@[simp] theorem setSelvedge_spool (x : Selvedge) : (setSelvedge s x).spool = s.spool := rfl
@[simp] theorem setSelvedge_heddle (x : Selvedge) : (setSelvedge s x).heddle = s.heddle := rfl
@[simp] theorem setSelvedge_flow (x : Selvedge) : (setSelvedge s x).flow = s.flow := rfl
@[simp] theorem setSelvedge_reed (x : Selvedge) : (setSelvedge s x).reed = s.reed := rfl
@[simp] theorem setSelvedge_sec (x : Selvedge) : (setSelvedge s x).sec = s.sec := rfl
@[simp] theorem setSelvedge_warp (x : Selvedge) : (setSelvedge s x).warp = s.warp := rfl
@[simp] theorem setSelvedge_weft (x : Selvedge) : (setSelvedge s x).weft = s.weft := rfl
@[simp] theorem setSelvedge_act (x : Selvedge) : (setSelvedge s x).act = s.act := rfl
@[simp] theorem setSelvedge_draft (x : Selvedge) : (setSelvedge s x).draft = s.draft := rfl
@[simp] theorem setSelvedge_shuttle (x : Selvedge) : (setSelvedge s x).shuttle = s.shuttle := rfl
@[simp] theorem setSelvedge_skein (x : Selvedge) : (setSelvedge s x).skein = s.skein := rfl
@[simp] theorem setSelvedge_time (x : Selvedge) : (setSelvedge s x).time = s.time := rfl
@[simp] theorem setSelvedge_ports (x : Selvedge) : (setSelvedge s x).ports = s.ports := rfl

/-! ## setSafety -/

@[simp] theorem setSafety_pending (x : Safety) : (setSafety s x).pending = s.pending := rfl
@[simp] theorem setSafety_now (x : Safety) : (setSafety s x).now = s.now := rfl
@[simp] theorem setSafety_ns (x : Safety) : (setSafety s x).ns = s.ns := rfl
@[simp] theorem setSafety_dram (x : Safety) : (setSafety s x).dram = s.dram := rfl
@[simp] theorem setSafety_hostRead (x : Safety) : (setSafety s x).hostRead = s.hostRead := rfl
@[simp] theorem setSafety_stg (x : Safety) : (setSafety s x).stg = s.stg := rfl
@[simp] theorem setSafety_cur (x : Safety) : (setSafety s x).cur = s.cur := rfl
@[simp] theorem setSafety_cnt (x : Safety) : (setSafety s x).cnt = s.cnt := rfl
@[simp] theorem setSafety_hold (x : Safety) : (setSafety s x).hold = s.hold := rfl
@[simp] theorem setSafety_sat (x : Safety) : (setSafety s x).sat = s.sat := rfl
@[simp] theorem setSafety_draws (x : Safety) : (setSafety s x).draws = s.draws := rfl
@[simp] theorem setSafety_out (x : Safety) : (setSafety s x).out = s.out := rfl
@[simp] theorem setSafety_pick (x : Safety) : (setSafety s x).pick = s.pick := rfl
@[simp] theorem setSafety_power (x : Safety) : (setSafety s x).power = s.power := rfl
@[simp] theorem setSafety_tension (x : Safety) : (setSafety s x).tension = s.tension := rfl
@[simp] theorem setSafety_selvedge (x : Safety) : (setSafety s x).selvedge = s.selvedge := rfl
@[simp] theorem setSafety_safety (x : Safety) : (setSafety s x).safety = x := rfl
@[simp] theorem setSafety_host (x : Safety) : (setSafety s x).host = s.host := rfl
@[simp] theorem setSafety_spool (x : Safety) : (setSafety s x).spool = s.spool := rfl
@[simp] theorem setSafety_heddle (x : Safety) : (setSafety s x).heddle = s.heddle := rfl
@[simp] theorem setSafety_flow (x : Safety) : (setSafety s x).flow = s.flow := rfl
@[simp] theorem setSafety_reed (x : Safety) : (setSafety s x).reed = s.reed := rfl
@[simp] theorem setSafety_sec (x : Safety) : (setSafety s x).sec = s.sec := rfl
@[simp] theorem setSafety_warp (x : Safety) : (setSafety s x).warp = s.warp := rfl
@[simp] theorem setSafety_weft (x : Safety) : (setSafety s x).weft = s.weft := rfl
@[simp] theorem setSafety_act (x : Safety) : (setSafety s x).act = s.act := rfl
@[simp] theorem setSafety_draft (x : Safety) : (setSafety s x).draft = s.draft := rfl
@[simp] theorem setSafety_shuttle (x : Safety) : (setSafety s x).shuttle = s.shuttle := rfl
@[simp] theorem setSafety_skein (x : Safety) : (setSafety s x).skein = s.skein := rfl
@[simp] theorem setSafety_time (x : Safety) : (setSafety s x).time = s.time := rfl
@[simp] theorem setSafety_ports (x : Safety) : (setSafety s x).ports = s.ports := rfl

/-! ## setHost -/

@[simp] theorem setHost_pending (x : HostIf) : (setHost s x).pending = s.pending := rfl
@[simp] theorem setHost_now (x : HostIf) : (setHost s x).now = s.now := rfl
@[simp] theorem setHost_ns (x : HostIf) : (setHost s x).ns = s.ns := rfl
@[simp] theorem setHost_dram (x : HostIf) : (setHost s x).dram = s.dram := rfl
@[simp] theorem setHost_hostRead (x : HostIf) : (setHost s x).hostRead = s.hostRead := rfl
@[simp] theorem setHost_stg (x : HostIf) : (setHost s x).stg = s.stg := rfl
@[simp] theorem setHost_cur (x : HostIf) : (setHost s x).cur = s.cur := rfl
@[simp] theorem setHost_cnt (x : HostIf) : (setHost s x).cnt = s.cnt := rfl
@[simp] theorem setHost_hold (x : HostIf) : (setHost s x).hold = s.hold := rfl
@[simp] theorem setHost_sat (x : HostIf) : (setHost s x).sat = s.sat := rfl
@[simp] theorem setHost_draws (x : HostIf) : (setHost s x).draws = s.draws := rfl
@[simp] theorem setHost_out (x : HostIf) : (setHost s x).out = s.out := rfl
@[simp] theorem setHost_pick (x : HostIf) : (setHost s x).pick = s.pick := rfl
@[simp] theorem setHost_power (x : HostIf) : (setHost s x).power = s.power := rfl
@[simp] theorem setHost_tension (x : HostIf) : (setHost s x).tension = s.tension := rfl
@[simp] theorem setHost_selvedge (x : HostIf) : (setHost s x).selvedge = s.selvedge := rfl
@[simp] theorem setHost_safety (x : HostIf) : (setHost s x).safety = s.safety := rfl
@[simp] theorem setHost_host (x : HostIf) : (setHost s x).host = x := rfl
@[simp] theorem setHost_spool (x : HostIf) : (setHost s x).spool = s.spool := rfl
@[simp] theorem setHost_heddle (x : HostIf) : (setHost s x).heddle = s.heddle := rfl
@[simp] theorem setHost_flow (x : HostIf) : (setHost s x).flow = s.flow := rfl
@[simp] theorem setHost_reed (x : HostIf) : (setHost s x).reed = s.reed := rfl
@[simp] theorem setHost_sec (x : HostIf) : (setHost s x).sec = s.sec := rfl
@[simp] theorem setHost_warp (x : HostIf) : (setHost s x).warp = s.warp := rfl
@[simp] theorem setHost_weft (x : HostIf) : (setHost s x).weft = s.weft := rfl
@[simp] theorem setHost_act (x : HostIf) : (setHost s x).act = s.act := rfl
@[simp] theorem setHost_draft (x : HostIf) : (setHost s x).draft = s.draft := rfl
@[simp] theorem setHost_shuttle (x : HostIf) : (setHost s x).shuttle = s.shuttle := rfl
@[simp] theorem setHost_skein (x : HostIf) : (setHost s x).skein = s.skein := rfl
@[simp] theorem setHost_time (x : HostIf) : (setHost s x).time = s.time := rfl
@[simp] theorem setHost_ports (x : HostIf) : (setHost s x).ports = s.ports := rfl

/-! ## setHeddle -/

@[simp] theorem setHeddle_pending (x : Heddle) : (setHeddle s x).pending = s.pending := rfl
@[simp] theorem setHeddle_now (x : Heddle) : (setHeddle s x).now = s.now := rfl
@[simp] theorem setHeddle_ns (x : Heddle) : (setHeddle s x).ns = s.ns := rfl
@[simp] theorem setHeddle_dram (x : Heddle) : (setHeddle s x).dram = s.dram := rfl
@[simp] theorem setHeddle_hostRead (x : Heddle) : (setHeddle s x).hostRead = s.hostRead := rfl
@[simp] theorem setHeddle_stg (x : Heddle) : (setHeddle s x).stg = s.stg := rfl
@[simp] theorem setHeddle_cur (x : Heddle) : (setHeddle s x).cur = s.cur := rfl
@[simp] theorem setHeddle_cnt (x : Heddle) : (setHeddle s x).cnt = s.cnt := rfl
@[simp] theorem setHeddle_hold (x : Heddle) : (setHeddle s x).hold = s.hold := rfl
@[simp] theorem setHeddle_sat (x : Heddle) : (setHeddle s x).sat = s.sat := rfl
@[simp] theorem setHeddle_draws (x : Heddle) : (setHeddle s x).draws = s.draws := rfl
@[simp] theorem setHeddle_out (x : Heddle) : (setHeddle s x).out = s.out := rfl
@[simp] theorem setHeddle_pick (x : Heddle) : (setHeddle s x).pick = s.pick := rfl
@[simp] theorem setHeddle_power (x : Heddle) : (setHeddle s x).power = s.power := rfl
@[simp] theorem setHeddle_tension (x : Heddle) : (setHeddle s x).tension = s.tension := rfl
@[simp] theorem setHeddle_selvedge (x : Heddle) : (setHeddle s x).selvedge = s.selvedge := rfl
@[simp] theorem setHeddle_safety (x : Heddle) : (setHeddle s x).safety = s.safety := rfl
@[simp] theorem setHeddle_host (x : Heddle) : (setHeddle s x).host = s.host := rfl
@[simp] theorem setHeddle_spool (x : Heddle) : (setHeddle s x).spool = s.spool := rfl
@[simp] theorem setHeddle_heddle (x : Heddle) : (setHeddle s x).heddle = x := rfl
@[simp] theorem setHeddle_flow (x : Heddle) : (setHeddle s x).flow = s.flow := rfl
@[simp] theorem setHeddle_reed (x : Heddle) : (setHeddle s x).reed = s.reed := rfl
@[simp] theorem setHeddle_sec (x : Heddle) : (setHeddle s x).sec = s.sec := rfl
@[simp] theorem setHeddle_warp (x : Heddle) : (setHeddle s x).warp = s.warp := rfl
@[simp] theorem setHeddle_weft (x : Heddle) : (setHeddle s x).weft = s.weft := rfl
@[simp] theorem setHeddle_act (x : Heddle) : (setHeddle s x).act = s.act := rfl
@[simp] theorem setHeddle_draft (x : Heddle) : (setHeddle s x).draft = s.draft := rfl
@[simp] theorem setHeddle_shuttle (x : Heddle) : (setHeddle s x).shuttle = s.shuttle := rfl
@[simp] theorem setHeddle_skein (x : Heddle) : (setHeddle s x).skein = s.skein := rfl
@[simp] theorem setHeddle_time (x : Heddle) : (setHeddle s x).time = s.time := rfl
@[simp] theorem setHeddle_ports (x : Heddle) : (setHeddle s x).ports = s.ports := rfl

/-! ## setFlow -/

@[simp] theorem setFlow_pending (x : FlowStore) : (setFlow s x).pending = s.pending := rfl
@[simp] theorem setFlow_now (x : FlowStore) : (setFlow s x).now = s.now := rfl
@[simp] theorem setFlow_ns (x : FlowStore) : (setFlow s x).ns = s.ns := rfl
@[simp] theorem setFlow_dram (x : FlowStore) : (setFlow s x).dram = s.dram := rfl
@[simp] theorem setFlow_hostRead (x : FlowStore) : (setFlow s x).hostRead = s.hostRead := rfl
@[simp] theorem setFlow_stg (x : FlowStore) : (setFlow s x).stg = s.stg := rfl
@[simp] theorem setFlow_cur (x : FlowStore) : (setFlow s x).cur = s.cur := rfl
@[simp] theorem setFlow_cnt (x : FlowStore) : (setFlow s x).cnt = s.cnt := rfl
@[simp] theorem setFlow_hold (x : FlowStore) : (setFlow s x).hold = s.hold := rfl
@[simp] theorem setFlow_sat (x : FlowStore) : (setFlow s x).sat = s.sat := rfl
@[simp] theorem setFlow_draws (x : FlowStore) : (setFlow s x).draws = s.draws := rfl
@[simp] theorem setFlow_out (x : FlowStore) : (setFlow s x).out = s.out := rfl
@[simp] theorem setFlow_pick (x : FlowStore) : (setFlow s x).pick = s.pick := rfl
@[simp] theorem setFlow_power (x : FlowStore) : (setFlow s x).power = s.power := rfl
@[simp] theorem setFlow_tension (x : FlowStore) : (setFlow s x).tension = s.tension := rfl
@[simp] theorem setFlow_selvedge (x : FlowStore) : (setFlow s x).selvedge = s.selvedge := rfl
@[simp] theorem setFlow_safety (x : FlowStore) : (setFlow s x).safety = s.safety := rfl
@[simp] theorem setFlow_host (x : FlowStore) : (setFlow s x).host = s.host := rfl
@[simp] theorem setFlow_spool (x : FlowStore) : (setFlow s x).spool = s.spool := rfl
@[simp] theorem setFlow_heddle (x : FlowStore) : (setFlow s x).heddle = s.heddle := rfl
@[simp] theorem setFlow_flow (x : FlowStore) : (setFlow s x).flow = x := rfl
@[simp] theorem setFlow_reed (x : FlowStore) : (setFlow s x).reed = s.reed := rfl
@[simp] theorem setFlow_sec (x : FlowStore) : (setFlow s x).sec = s.sec := rfl
@[simp] theorem setFlow_warp (x : FlowStore) : (setFlow s x).warp = s.warp := rfl
@[simp] theorem setFlow_weft (x : FlowStore) : (setFlow s x).weft = s.weft := rfl
@[simp] theorem setFlow_act (x : FlowStore) : (setFlow s x).act = s.act := rfl
@[simp] theorem setFlow_draft (x : FlowStore) : (setFlow s x).draft = s.draft := rfl
@[simp] theorem setFlow_shuttle (x : FlowStore) : (setFlow s x).shuttle = s.shuttle := rfl
@[simp] theorem setFlow_skein (x : FlowStore) : (setFlow s x).skein = s.skein := rfl
@[simp] theorem setFlow_time (x : FlowStore) : (setFlow s x).time = s.time := rfl
@[simp] theorem setFlow_ports (x : FlowStore) : (setFlow s x).ports = s.ports := rfl

/-! ## setReed -/

@[simp] theorem setReed_pending (x : Reed) : (setReed s x).pending = s.pending := rfl
@[simp] theorem setReed_now (x : Reed) : (setReed s x).now = s.now := rfl
@[simp] theorem setReed_ns (x : Reed) : (setReed s x).ns = s.ns := rfl
@[simp] theorem setReed_dram (x : Reed) : (setReed s x).dram = s.dram := rfl
@[simp] theorem setReed_hostRead (x : Reed) : (setReed s x).hostRead = s.hostRead := rfl
@[simp] theorem setReed_stg (x : Reed) : (setReed s x).stg = s.stg := rfl
@[simp] theorem setReed_cur (x : Reed) : (setReed s x).cur = s.cur := rfl
@[simp] theorem setReed_cnt (x : Reed) : (setReed s x).cnt = s.cnt := rfl
@[simp] theorem setReed_hold (x : Reed) : (setReed s x).hold = s.hold := rfl
@[simp] theorem setReed_sat (x : Reed) : (setReed s x).sat = s.sat := rfl
@[simp] theorem setReed_draws (x : Reed) : (setReed s x).draws = s.draws := rfl
@[simp] theorem setReed_out (x : Reed) : (setReed s x).out = s.out := rfl
@[simp] theorem setReed_pick (x : Reed) : (setReed s x).pick = s.pick := rfl
@[simp] theorem setReed_power (x : Reed) : (setReed s x).power = s.power := rfl
@[simp] theorem setReed_tension (x : Reed) : (setReed s x).tension = s.tension := rfl
@[simp] theorem setReed_selvedge (x : Reed) : (setReed s x).selvedge = s.selvedge := rfl
@[simp] theorem setReed_safety (x : Reed) : (setReed s x).safety = s.safety := rfl
@[simp] theorem setReed_host (x : Reed) : (setReed s x).host = s.host := rfl
@[simp] theorem setReed_spool (x : Reed) : (setReed s x).spool = s.spool := rfl
@[simp] theorem setReed_heddle (x : Reed) : (setReed s x).heddle = s.heddle := rfl
@[simp] theorem setReed_flow (x : Reed) : (setReed s x).flow = s.flow := rfl
@[simp] theorem setReed_reed (x : Reed) : (setReed s x).reed = x := rfl
@[simp] theorem setReed_sec (x : Reed) : (setReed s x).sec = s.sec := rfl
@[simp] theorem setReed_warp (x : Reed) : (setReed s x).warp = s.warp := rfl
@[simp] theorem setReed_weft (x : Reed) : (setReed s x).weft = s.weft := rfl
@[simp] theorem setReed_act (x : Reed) : (setReed s x).act = s.act := rfl
@[simp] theorem setReed_draft (x : Reed) : (setReed s x).draft = s.draft := rfl
@[simp] theorem setReed_shuttle (x : Reed) : (setReed s x).shuttle = s.shuttle := rfl
@[simp] theorem setReed_skein (x : Reed) : (setReed s x).skein = s.skein := rfl
@[simp] theorem setReed_time (x : Reed) : (setReed s x).time = s.time := rfl
@[simp] theorem setReed_ports (x : Reed) : (setReed s x).ports = s.ports := rfl

/-! ## setSec -/

@[simp] theorem setSec_pending (x : Sec) : (setSec s x).pending = s.pending := rfl
@[simp] theorem setSec_now (x : Sec) : (setSec s x).now = s.now := rfl
@[simp] theorem setSec_ns (x : Sec) : (setSec s x).ns = s.ns := rfl
@[simp] theorem setSec_dram (x : Sec) : (setSec s x).dram = s.dram := rfl
@[simp] theorem setSec_hostRead (x : Sec) : (setSec s x).hostRead = s.hostRead := rfl
@[simp] theorem setSec_stg (x : Sec) : (setSec s x).stg = s.stg := rfl
@[simp] theorem setSec_cur (x : Sec) : (setSec s x).cur = s.cur := rfl
@[simp] theorem setSec_cnt (x : Sec) : (setSec s x).cnt = s.cnt := rfl
@[simp] theorem setSec_hold (x : Sec) : (setSec s x).hold = s.hold := rfl
@[simp] theorem setSec_sat (x : Sec) : (setSec s x).sat = s.sat := rfl
@[simp] theorem setSec_draws (x : Sec) : (setSec s x).draws = s.draws := rfl
@[simp] theorem setSec_out (x : Sec) : (setSec s x).out = s.out := rfl
@[simp] theorem setSec_pick (x : Sec) : (setSec s x).pick = s.pick := rfl
@[simp] theorem setSec_power (x : Sec) : (setSec s x).power = s.power := rfl
@[simp] theorem setSec_tension (x : Sec) : (setSec s x).tension = s.tension := rfl
@[simp] theorem setSec_selvedge (x : Sec) : (setSec s x).selvedge = s.selvedge := rfl
@[simp] theorem setSec_safety (x : Sec) : (setSec s x).safety = s.safety := rfl
@[simp] theorem setSec_host (x : Sec) : (setSec s x).host = s.host := rfl
@[simp] theorem setSec_spool (x : Sec) : (setSec s x).spool = s.spool := rfl
@[simp] theorem setSec_heddle (x : Sec) : (setSec s x).heddle = s.heddle := rfl
@[simp] theorem setSec_flow (x : Sec) : (setSec s x).flow = s.flow := rfl
@[simp] theorem setSec_reed (x : Sec) : (setSec s x).reed = s.reed := rfl
@[simp] theorem setSec_sec (x : Sec) : (setSec s x).sec = x := rfl
@[simp] theorem setSec_warp (x : Sec) : (setSec s x).warp = s.warp := rfl
@[simp] theorem setSec_weft (x : Sec) : (setSec s x).weft = s.weft := rfl
@[simp] theorem setSec_act (x : Sec) : (setSec s x).act = s.act := rfl
@[simp] theorem setSec_draft (x : Sec) : (setSec s x).draft = s.draft := rfl
@[simp] theorem setSec_shuttle (x : Sec) : (setSec s x).shuttle = s.shuttle := rfl
@[simp] theorem setSec_skein (x : Sec) : (setSec s x).skein = s.skein := rfl
@[simp] theorem setSec_time (x : Sec) : (setSec s x).time = s.time := rfl
@[simp] theorem setSec_ports (x : Sec) : (setSec s x).ports = s.ports := rfl

/-! ## setWarp -/

@[simp] theorem setWarp_pending (x : Warp) : (setWarp s x).pending = s.pending := rfl
@[simp] theorem setWarp_now (x : Warp) : (setWarp s x).now = s.now := rfl
@[simp] theorem setWarp_ns (x : Warp) : (setWarp s x).ns = s.ns := rfl
@[simp] theorem setWarp_dram (x : Warp) : (setWarp s x).dram = s.dram := rfl
@[simp] theorem setWarp_hostRead (x : Warp) : (setWarp s x).hostRead = s.hostRead := rfl
@[simp] theorem setWarp_stg (x : Warp) : (setWarp s x).stg = s.stg := rfl
@[simp] theorem setWarp_cur (x : Warp) : (setWarp s x).cur = s.cur := rfl
@[simp] theorem setWarp_cnt (x : Warp) : (setWarp s x).cnt = s.cnt := rfl
@[simp] theorem setWarp_hold (x : Warp) : (setWarp s x).hold = s.hold := rfl
@[simp] theorem setWarp_sat (x : Warp) : (setWarp s x).sat = s.sat := rfl
@[simp] theorem setWarp_draws (x : Warp) : (setWarp s x).draws = s.draws := rfl
@[simp] theorem setWarp_out (x : Warp) : (setWarp s x).out = s.out := rfl
@[simp] theorem setWarp_pick (x : Warp) : (setWarp s x).pick = s.pick := rfl
@[simp] theorem setWarp_power (x : Warp) : (setWarp s x).power = s.power := rfl
@[simp] theorem setWarp_tension (x : Warp) : (setWarp s x).tension = s.tension := rfl
@[simp] theorem setWarp_selvedge (x : Warp) : (setWarp s x).selvedge = s.selvedge := rfl
@[simp] theorem setWarp_safety (x : Warp) : (setWarp s x).safety = s.safety := rfl
@[simp] theorem setWarp_host (x : Warp) : (setWarp s x).host = s.host := rfl
@[simp] theorem setWarp_spool (x : Warp) : (setWarp s x).spool = s.spool := rfl
@[simp] theorem setWarp_heddle (x : Warp) : (setWarp s x).heddle = s.heddle := rfl
@[simp] theorem setWarp_flow (x : Warp) : (setWarp s x).flow = s.flow := rfl
@[simp] theorem setWarp_reed (x : Warp) : (setWarp s x).reed = s.reed := rfl
@[simp] theorem setWarp_sec (x : Warp) : (setWarp s x).sec = s.sec := rfl
@[simp] theorem setWarp_warp (x : Warp) : (setWarp s x).warp = x := rfl
@[simp] theorem setWarp_weft (x : Warp) : (setWarp s x).weft = s.weft := rfl
@[simp] theorem setWarp_act (x : Warp) : (setWarp s x).act = s.act := rfl
@[simp] theorem setWarp_draft (x : Warp) : (setWarp s x).draft = s.draft := rfl
@[simp] theorem setWarp_shuttle (x : Warp) : (setWarp s x).shuttle = s.shuttle := rfl
@[simp] theorem setWarp_skein (x : Warp) : (setWarp s x).skein = s.skein := rfl
@[simp] theorem setWarp_time (x : Warp) : (setWarp s x).time = s.time := rfl
@[simp] theorem setWarp_ports (x : Warp) : (setWarp s x).ports = s.ports := rfl

/-! ## setWeft -/

@[simp] theorem setWeft_pending (x : Weft) : (setWeft s x).pending = s.pending := rfl
@[simp] theorem setWeft_now (x : Weft) : (setWeft s x).now = s.now := rfl
@[simp] theorem setWeft_ns (x : Weft) : (setWeft s x).ns = s.ns := rfl
@[simp] theorem setWeft_dram (x : Weft) : (setWeft s x).dram = s.dram := rfl
@[simp] theorem setWeft_hostRead (x : Weft) : (setWeft s x).hostRead = s.hostRead := rfl
@[simp] theorem setWeft_stg (x : Weft) : (setWeft s x).stg = s.stg := rfl
@[simp] theorem setWeft_cur (x : Weft) : (setWeft s x).cur = s.cur := rfl
@[simp] theorem setWeft_cnt (x : Weft) : (setWeft s x).cnt = s.cnt := rfl
@[simp] theorem setWeft_hold (x : Weft) : (setWeft s x).hold = s.hold := rfl
@[simp] theorem setWeft_sat (x : Weft) : (setWeft s x).sat = s.sat := rfl
@[simp] theorem setWeft_draws (x : Weft) : (setWeft s x).draws = s.draws := rfl
@[simp] theorem setWeft_out (x : Weft) : (setWeft s x).out = s.out := rfl
@[simp] theorem setWeft_pick (x : Weft) : (setWeft s x).pick = s.pick := rfl
@[simp] theorem setWeft_power (x : Weft) : (setWeft s x).power = s.power := rfl
@[simp] theorem setWeft_tension (x : Weft) : (setWeft s x).tension = s.tension := rfl
@[simp] theorem setWeft_selvedge (x : Weft) : (setWeft s x).selvedge = s.selvedge := rfl
@[simp] theorem setWeft_safety (x : Weft) : (setWeft s x).safety = s.safety := rfl
@[simp] theorem setWeft_host (x : Weft) : (setWeft s x).host = s.host := rfl
@[simp] theorem setWeft_spool (x : Weft) : (setWeft s x).spool = s.spool := rfl
@[simp] theorem setWeft_heddle (x : Weft) : (setWeft s x).heddle = s.heddle := rfl
@[simp] theorem setWeft_flow (x : Weft) : (setWeft s x).flow = s.flow := rfl
@[simp] theorem setWeft_reed (x : Weft) : (setWeft s x).reed = s.reed := rfl
@[simp] theorem setWeft_sec (x : Weft) : (setWeft s x).sec = s.sec := rfl
@[simp] theorem setWeft_warp (x : Weft) : (setWeft s x).warp = s.warp := rfl
@[simp] theorem setWeft_weft (x : Weft) : (setWeft s x).weft = x := rfl
@[simp] theorem setWeft_act (x : Weft) : (setWeft s x).act = s.act := rfl
@[simp] theorem setWeft_draft (x : Weft) : (setWeft s x).draft = s.draft := rfl
@[simp] theorem setWeft_shuttle (x : Weft) : (setWeft s x).shuttle = s.shuttle := rfl
@[simp] theorem setWeft_skein (x : Weft) : (setWeft s x).skein = s.skein := rfl
@[simp] theorem setWeft_time (x : Weft) : (setWeft s x).time = s.time := rfl
@[simp] theorem setWeft_ports (x : Weft) : (setWeft s x).ports = s.ports := rfl

/-! ## setAct -/

@[simp] theorem setAct_pending (x : Act) : (setAct s x).pending = s.pending := rfl
@[simp] theorem setAct_now (x : Act) : (setAct s x).now = s.now := rfl
@[simp] theorem setAct_ns (x : Act) : (setAct s x).ns = s.ns := rfl
@[simp] theorem setAct_dram (x : Act) : (setAct s x).dram = s.dram := rfl
@[simp] theorem setAct_hostRead (x : Act) : (setAct s x).hostRead = s.hostRead := rfl
@[simp] theorem setAct_stg (x : Act) : (setAct s x).stg = s.stg := rfl
@[simp] theorem setAct_cur (x : Act) : (setAct s x).cur = s.cur := rfl
@[simp] theorem setAct_cnt (x : Act) : (setAct s x).cnt = s.cnt := rfl
@[simp] theorem setAct_hold (x : Act) : (setAct s x).hold = s.hold := rfl
@[simp] theorem setAct_sat (x : Act) : (setAct s x).sat = s.sat := rfl
@[simp] theorem setAct_draws (x : Act) : (setAct s x).draws = s.draws := rfl
@[simp] theorem setAct_out (x : Act) : (setAct s x).out = s.out := rfl
@[simp] theorem setAct_pick (x : Act) : (setAct s x).pick = s.pick := rfl
@[simp] theorem setAct_power (x : Act) : (setAct s x).power = s.power := rfl
@[simp] theorem setAct_tension (x : Act) : (setAct s x).tension = s.tension := rfl
@[simp] theorem setAct_selvedge (x : Act) : (setAct s x).selvedge = s.selvedge := rfl
@[simp] theorem setAct_safety (x : Act) : (setAct s x).safety = s.safety := rfl
@[simp] theorem setAct_host (x : Act) : (setAct s x).host = s.host := rfl
@[simp] theorem setAct_spool (x : Act) : (setAct s x).spool = s.spool := rfl
@[simp] theorem setAct_heddle (x : Act) : (setAct s x).heddle = s.heddle := rfl
@[simp] theorem setAct_flow (x : Act) : (setAct s x).flow = s.flow := rfl
@[simp] theorem setAct_reed (x : Act) : (setAct s x).reed = s.reed := rfl
@[simp] theorem setAct_sec (x : Act) : (setAct s x).sec = s.sec := rfl
@[simp] theorem setAct_warp (x : Act) : (setAct s x).warp = s.warp := rfl
@[simp] theorem setAct_weft (x : Act) : (setAct s x).weft = s.weft := rfl
@[simp] theorem setAct_act (x : Act) : (setAct s x).act = x := rfl
@[simp] theorem setAct_draft (x : Act) : (setAct s x).draft = s.draft := rfl
@[simp] theorem setAct_shuttle (x : Act) : (setAct s x).shuttle = s.shuttle := rfl
@[simp] theorem setAct_skein (x : Act) : (setAct s x).skein = s.skein := rfl
@[simp] theorem setAct_time (x : Act) : (setAct s x).time = s.time := rfl
@[simp] theorem setAct_ports (x : Act) : (setAct s x).ports = s.ports := rfl

/-! ## setDraft -/

@[simp] theorem setDraft_pending (x : Draft) : (setDraft s x).pending = s.pending := rfl
@[simp] theorem setDraft_now (x : Draft) : (setDraft s x).now = s.now := rfl
@[simp] theorem setDraft_ns (x : Draft) : (setDraft s x).ns = s.ns := rfl
@[simp] theorem setDraft_dram (x : Draft) : (setDraft s x).dram = s.dram := rfl
@[simp] theorem setDraft_hostRead (x : Draft) : (setDraft s x).hostRead = s.hostRead := rfl
@[simp] theorem setDraft_stg (x : Draft) : (setDraft s x).stg = s.stg := rfl
@[simp] theorem setDraft_cur (x : Draft) : (setDraft s x).cur = s.cur := rfl
@[simp] theorem setDraft_cnt (x : Draft) : (setDraft s x).cnt = s.cnt := rfl
@[simp] theorem setDraft_hold (x : Draft) : (setDraft s x).hold = s.hold := rfl
@[simp] theorem setDraft_sat (x : Draft) : (setDraft s x).sat = s.sat := rfl
@[simp] theorem setDraft_draws (x : Draft) : (setDraft s x).draws = s.draws := rfl
@[simp] theorem setDraft_out (x : Draft) : (setDraft s x).out = s.out := rfl
@[simp] theorem setDraft_pick (x : Draft) : (setDraft s x).pick = s.pick := rfl
@[simp] theorem setDraft_power (x : Draft) : (setDraft s x).power = s.power := rfl
@[simp] theorem setDraft_tension (x : Draft) : (setDraft s x).tension = s.tension := rfl
@[simp] theorem setDraft_selvedge (x : Draft) : (setDraft s x).selvedge = s.selvedge := rfl
@[simp] theorem setDraft_safety (x : Draft) : (setDraft s x).safety = s.safety := rfl
@[simp] theorem setDraft_host (x : Draft) : (setDraft s x).host = s.host := rfl
@[simp] theorem setDraft_spool (x : Draft) : (setDraft s x).spool = s.spool := rfl
@[simp] theorem setDraft_heddle (x : Draft) : (setDraft s x).heddle = s.heddle := rfl
@[simp] theorem setDraft_flow (x : Draft) : (setDraft s x).flow = s.flow := rfl
@[simp] theorem setDraft_reed (x : Draft) : (setDraft s x).reed = s.reed := rfl
@[simp] theorem setDraft_sec (x : Draft) : (setDraft s x).sec = s.sec := rfl
@[simp] theorem setDraft_warp (x : Draft) : (setDraft s x).warp = s.warp := rfl
@[simp] theorem setDraft_weft (x : Draft) : (setDraft s x).weft = s.weft := rfl
@[simp] theorem setDraft_act (x : Draft) : (setDraft s x).act = s.act := rfl
@[simp] theorem setDraft_draft (x : Draft) : (setDraft s x).draft = x := rfl
@[simp] theorem setDraft_shuttle (x : Draft) : (setDraft s x).shuttle = s.shuttle := rfl
@[simp] theorem setDraft_skein (x : Draft) : (setDraft s x).skein = s.skein := rfl
@[simp] theorem setDraft_time (x : Draft) : (setDraft s x).time = s.time := rfl
@[simp] theorem setDraft_ports (x : Draft) : (setDraft s x).ports = s.ports := rfl

/-! ## setTime -/

@[simp] theorem setTime_pending (x : TimeU) : (setTime s x).pending = s.pending := rfl
@[simp] theorem setTime_now (x : TimeU) : (setTime s x).now = s.now := rfl
@[simp] theorem setTime_ns (x : TimeU) : (setTime s x).ns = s.ns := rfl
@[simp] theorem setTime_dram (x : TimeU) : (setTime s x).dram = s.dram := rfl
@[simp] theorem setTime_hostRead (x : TimeU) : (setTime s x).hostRead = s.hostRead := rfl
@[simp] theorem setTime_stg (x : TimeU) : (setTime s x).stg = s.stg := rfl
@[simp] theorem setTime_cur (x : TimeU) : (setTime s x).cur = s.cur := rfl
@[simp] theorem setTime_cnt (x : TimeU) : (setTime s x).cnt = s.cnt := rfl
@[simp] theorem setTime_hold (x : TimeU) : (setTime s x).hold = s.hold := rfl
@[simp] theorem setTime_sat (x : TimeU) : (setTime s x).sat = s.sat := rfl
@[simp] theorem setTime_draws (x : TimeU) : (setTime s x).draws = s.draws := rfl
@[simp] theorem setTime_out (x : TimeU) : (setTime s x).out = s.out := rfl
@[simp] theorem setTime_pick (x : TimeU) : (setTime s x).pick = s.pick := rfl
@[simp] theorem setTime_power (x : TimeU) : (setTime s x).power = s.power := rfl
@[simp] theorem setTime_tension (x : TimeU) : (setTime s x).tension = s.tension := rfl
@[simp] theorem setTime_selvedge (x : TimeU) : (setTime s x).selvedge = s.selvedge := rfl
@[simp] theorem setTime_safety (x : TimeU) : (setTime s x).safety = s.safety := rfl
@[simp] theorem setTime_host (x : TimeU) : (setTime s x).host = s.host := rfl
@[simp] theorem setTime_spool (x : TimeU) : (setTime s x).spool = s.spool := rfl
@[simp] theorem setTime_heddle (x : TimeU) : (setTime s x).heddle = s.heddle := rfl
@[simp] theorem setTime_flow (x : TimeU) : (setTime s x).flow = s.flow := rfl
@[simp] theorem setTime_reed (x : TimeU) : (setTime s x).reed = s.reed := rfl
@[simp] theorem setTime_sec (x : TimeU) : (setTime s x).sec = s.sec := rfl
@[simp] theorem setTime_warp (x : TimeU) : (setTime s x).warp = s.warp := rfl
@[simp] theorem setTime_weft (x : TimeU) : (setTime s x).weft = s.weft := rfl
@[simp] theorem setTime_act (x : TimeU) : (setTime s x).act = s.act := rfl
@[simp] theorem setTime_draft (x : TimeU) : (setTime s x).draft = s.draft := rfl
@[simp] theorem setTime_shuttle (x : TimeU) : (setTime s x).shuttle = s.shuttle := rfl
@[simp] theorem setTime_skein (x : TimeU) : (setTime s x).skein = s.skein := rfl
@[simp] theorem setTime_time (x : TimeU) : (setTime s x).time = x := rfl
@[simp] theorem setTime_ports (x : TimeU) : (setTime s x).ports = s.ports := rfl

/-! ## setPorts -/

@[simp] theorem setPorts_pending (x : Ports) : (setPorts s x).pending = s.pending := rfl
@[simp] theorem setPorts_now (x : Ports) : (setPorts s x).now = s.now := rfl
@[simp] theorem setPorts_ns (x : Ports) : (setPorts s x).ns = s.ns := rfl
@[simp] theorem setPorts_dram (x : Ports) : (setPorts s x).dram = s.dram := rfl
@[simp] theorem setPorts_hostRead (x : Ports) : (setPorts s x).hostRead = s.hostRead := rfl
@[simp] theorem setPorts_stg (x : Ports) : (setPorts s x).stg = s.stg := rfl
@[simp] theorem setPorts_cur (x : Ports) : (setPorts s x).cur = s.cur := rfl
@[simp] theorem setPorts_cnt (x : Ports) : (setPorts s x).cnt = s.cnt := rfl
@[simp] theorem setPorts_hold (x : Ports) : (setPorts s x).hold = s.hold := rfl
@[simp] theorem setPorts_sat (x : Ports) : (setPorts s x).sat = s.sat := rfl
@[simp] theorem setPorts_draws (x : Ports) : (setPorts s x).draws = s.draws := rfl
@[simp] theorem setPorts_out (x : Ports) : (setPorts s x).out = s.out := rfl
@[simp] theorem setPorts_pick (x : Ports) : (setPorts s x).pick = s.pick := rfl
@[simp] theorem setPorts_power (x : Ports) : (setPorts s x).power = s.power := rfl
@[simp] theorem setPorts_tension (x : Ports) : (setPorts s x).tension = s.tension := rfl
@[simp] theorem setPorts_selvedge (x : Ports) : (setPorts s x).selvedge = s.selvedge := rfl
@[simp] theorem setPorts_safety (x : Ports) : (setPorts s x).safety = s.safety := rfl
@[simp] theorem setPorts_host (x : Ports) : (setPorts s x).host = s.host := rfl
@[simp] theorem setPorts_spool (x : Ports) : (setPorts s x).spool = s.spool := rfl
@[simp] theorem setPorts_heddle (x : Ports) : (setPorts s x).heddle = s.heddle := rfl
@[simp] theorem setPorts_flow (x : Ports) : (setPorts s x).flow = s.flow := rfl
@[simp] theorem setPorts_reed (x : Ports) : (setPorts s x).reed = s.reed := rfl
@[simp] theorem setPorts_sec (x : Ports) : (setPorts s x).sec = s.sec := rfl
@[simp] theorem setPorts_warp (x : Ports) : (setPorts s x).warp = s.warp := rfl
@[simp] theorem setPorts_weft (x : Ports) : (setPorts s x).weft = s.weft := rfl
@[simp] theorem setPorts_act (x : Ports) : (setPorts s x).act = s.act := rfl
@[simp] theorem setPorts_draft (x : Ports) : (setPorts s x).draft = s.draft := rfl
@[simp] theorem setPorts_shuttle (x : Ports) : (setPorts s x).shuttle = s.shuttle := rfl
@[simp] theorem setPorts_skein (x : Ports) : (setPorts s x).skein = s.skein := rfl
@[simp] theorem setPorts_time (x : Ports) : (setPorts s x).time = s.time := rfl
@[simp] theorem setPorts_ports (x : Ports) : (setPorts s x).ports = x := rfl

/-! ## stage -/

@[simp] theorem stage_pending (a v : Nat) : (stage s a v).pending = s.pending := rfl
@[simp] theorem stage_now (a v : Nat) : (stage s a v).now = s.now := rfl
@[simp] theorem stage_ns (a v : Nat) : (stage s a v).ns = s.ns := rfl
@[simp] theorem stage_dram (a v : Nat) : (stage s a v).dram = s.dram := rfl
@[simp] theorem stage_hostRead (a v : Nat) : (stage s a v).hostRead = s.hostRead := rfl
@[simp] theorem stage_cur (a v : Nat) : (stage s a v).cur = s.cur := rfl
@[simp] theorem stage_cnt (a v : Nat) : (stage s a v).cnt = s.cnt := rfl
@[simp] theorem stage_hold (a v : Nat) : (stage s a v).hold = s.hold := rfl
@[simp] theorem stage_sat (a v : Nat) : (stage s a v).sat = s.sat := rfl
@[simp] theorem stage_draws (a v : Nat) : (stage s a v).draws = s.draws := rfl
@[simp] theorem stage_out (a v : Nat) : (stage s a v).out = s.out := rfl
@[simp] theorem stage_pick (a v : Nat) : (stage s a v).pick = s.pick := rfl
@[simp] theorem stage_power (a v : Nat) : (stage s a v).power = s.power := rfl
@[simp] theorem stage_tension (a v : Nat) : (stage s a v).tension = s.tension := rfl
@[simp] theorem stage_selvedge (a v : Nat) : (stage s a v).selvedge = s.selvedge := rfl
@[simp] theorem stage_safety (a v : Nat) : (stage s a v).safety = s.safety := rfl
@[simp] theorem stage_host (a v : Nat) : (stage s a v).host = s.host := rfl
@[simp] theorem stage_spool (a v : Nat) : (stage s a v).spool = s.spool := rfl
@[simp] theorem stage_heddle (a v : Nat) : (stage s a v).heddle = s.heddle := rfl
@[simp] theorem stage_flow (a v : Nat) : (stage s a v).flow = s.flow := rfl
@[simp] theorem stage_reed (a v : Nat) : (stage s a v).reed = s.reed := rfl
@[simp] theorem stage_sec (a v : Nat) : (stage s a v).sec = s.sec := rfl
@[simp] theorem stage_warp (a v : Nat) : (stage s a v).warp = s.warp := rfl
@[simp] theorem stage_weft (a v : Nat) : (stage s a v).weft = s.weft := rfl
@[simp] theorem stage_act (a v : Nat) : (stage s a v).act = s.act := rfl
@[simp] theorem stage_draft (a v : Nat) : (stage s a v).draft = s.draft := rfl
@[simp] theorem stage_shuttle (a v : Nat) : (stage s a v).shuttle = s.shuttle := rfl
@[simp] theorem stage_skein (a v : Nat) : (stage s a v).skein = s.skein := rfl
@[simp] theorem stage_time (a v : Nat) : (stage s a v).time = s.time := rfl
@[simp] theorem stage_ports (a v : Nat) : (stage s a v).ports = s.ports := rfl

/-! ## force -/

@[simp] theorem force_pending (a v : Nat) : (force s a v).pending = s.pending := rfl
@[simp] theorem force_now (a v : Nat) : (force s a v).now = s.now := rfl
@[simp] theorem force_ns (a v : Nat) : (force s a v).ns = s.ns := rfl
@[simp] theorem force_dram (a v : Nat) : (force s a v).dram = s.dram := rfl
@[simp] theorem force_hostRead (a v : Nat) : (force s a v).hostRead = s.hostRead := rfl
@[simp] theorem force_stg (a v : Nat) : (force s a v).stg = s.stg := rfl
@[simp] theorem force_cnt (a v : Nat) : (force s a v).cnt = s.cnt := rfl
@[simp] theorem force_hold (a v : Nat) : (force s a v).hold = s.hold := rfl
@[simp] theorem force_sat (a v : Nat) : (force s a v).sat = s.sat := rfl
@[simp] theorem force_draws (a v : Nat) : (force s a v).draws = s.draws := rfl
@[simp] theorem force_out (a v : Nat) : (force s a v).out = s.out := rfl
@[simp] theorem force_pick (a v : Nat) : (force s a v).pick = s.pick := rfl
@[simp] theorem force_power (a v : Nat) : (force s a v).power = s.power := rfl
@[simp] theorem force_tension (a v : Nat) : (force s a v).tension = s.tension := rfl
@[simp] theorem force_selvedge (a v : Nat) : (force s a v).selvedge = s.selvedge := rfl
@[simp] theorem force_safety (a v : Nat) : (force s a v).safety = s.safety := rfl
@[simp] theorem force_host (a v : Nat) : (force s a v).host = s.host := rfl
@[simp] theorem force_spool (a v : Nat) : (force s a v).spool = s.spool := rfl
@[simp] theorem force_heddle (a v : Nat) : (force s a v).heddle = s.heddle := rfl
@[simp] theorem force_flow (a v : Nat) : (force s a v).flow = s.flow := rfl
@[simp] theorem force_reed (a v : Nat) : (force s a v).reed = s.reed := rfl
@[simp] theorem force_sec (a v : Nat) : (force s a v).sec = s.sec := rfl
@[simp] theorem force_warp (a v : Nat) : (force s a v).warp = s.warp := rfl
@[simp] theorem force_weft (a v : Nat) : (force s a v).weft = s.weft := rfl
@[simp] theorem force_act (a v : Nat) : (force s a v).act = s.act := rfl
@[simp] theorem force_draft (a v : Nat) : (force s a v).draft = s.draft := rfl
@[simp] theorem force_shuttle (a v : Nat) : (force s a v).shuttle = s.shuttle := rfl
@[simp] theorem force_skein (a v : Nat) : (force s a v).skein = s.skein := rfl
@[simp] theorem force_time (a v : Nat) : (force s a v).time = s.time := rfl
@[simp] theorem force_ports (a v : Nat) : (force s a v).ports = s.ports := rfl

/-! ## setReg -/

@[simp] theorem setReg_pending (a v : Nat) : (setReg s a v).pending = s.pending := rfl
@[simp] theorem setReg_now (a v : Nat) : (setReg s a v).now = s.now := rfl
@[simp] theorem setReg_ns (a v : Nat) : (setReg s a v).ns = s.ns := rfl
@[simp] theorem setReg_dram (a v : Nat) : (setReg s a v).dram = s.dram := rfl
@[simp] theorem setReg_hostRead (a v : Nat) : (setReg s a v).hostRead = s.hostRead := rfl
@[simp] theorem setReg_cnt (a v : Nat) : (setReg s a v).cnt = s.cnt := rfl
@[simp] theorem setReg_hold (a v : Nat) : (setReg s a v).hold = s.hold := rfl
@[simp] theorem setReg_sat (a v : Nat) : (setReg s a v).sat = s.sat := rfl
@[simp] theorem setReg_draws (a v : Nat) : (setReg s a v).draws = s.draws := rfl
@[simp] theorem setReg_out (a v : Nat) : (setReg s a v).out = s.out := rfl
@[simp] theorem setReg_pick (a v : Nat) : (setReg s a v).pick = s.pick := rfl
@[simp] theorem setReg_power (a v : Nat) : (setReg s a v).power = s.power := rfl
@[simp] theorem setReg_tension (a v : Nat) : (setReg s a v).tension = s.tension := rfl
@[simp] theorem setReg_selvedge (a v : Nat) : (setReg s a v).selvedge = s.selvedge := rfl
@[simp] theorem setReg_safety (a v : Nat) : (setReg s a v).safety = s.safety := rfl
@[simp] theorem setReg_host (a v : Nat) : (setReg s a v).host = s.host := rfl
@[simp] theorem setReg_spool (a v : Nat) : (setReg s a v).spool = s.spool := rfl
@[simp] theorem setReg_heddle (a v : Nat) : (setReg s a v).heddle = s.heddle := rfl
@[simp] theorem setReg_flow (a v : Nat) : (setReg s a v).flow = s.flow := rfl
@[simp] theorem setReg_reed (a v : Nat) : (setReg s a v).reed = s.reed := rfl
@[simp] theorem setReg_sec (a v : Nat) : (setReg s a v).sec = s.sec := rfl
@[simp] theorem setReg_warp (a v : Nat) : (setReg s a v).warp = s.warp := rfl
@[simp] theorem setReg_weft (a v : Nat) : (setReg s a v).weft = s.weft := rfl
@[simp] theorem setReg_act (a v : Nat) : (setReg s a v).act = s.act := rfl
@[simp] theorem setReg_draft (a v : Nat) : (setReg s a v).draft = s.draft := rfl
@[simp] theorem setReg_shuttle (a v : Nat) : (setReg s a v).shuttle = s.shuttle := rfl
@[simp] theorem setReg_skein (a v : Nat) : (setReg s a v).skein = s.skein := rfl
@[simp] theorem setReg_time (a v : Nat) : (setReg s a v).time = s.time := rfl
@[simp] theorem setReg_ports (a v : Nat) : (setReg s a v).ports = s.ports := rfl

/-! ## setFld -/

@[simp] theorem setFld_pending (a hi lo v : Nat) : (setFld s a hi lo v).pending = s.pending := rfl
@[simp] theorem setFld_now (a hi lo v : Nat) : (setFld s a hi lo v).now = s.now := rfl
@[simp] theorem setFld_ns (a hi lo v : Nat) : (setFld s a hi lo v).ns = s.ns := rfl
@[simp] theorem setFld_dram (a hi lo v : Nat) : (setFld s a hi lo v).dram = s.dram := rfl
@[simp] theorem setFld_hostRead (a hi lo v : Nat) : (setFld s a hi lo v).hostRead = s.hostRead := rfl
@[simp] theorem setFld_cnt (a hi lo v : Nat) : (setFld s a hi lo v).cnt = s.cnt := rfl
@[simp] theorem setFld_hold (a hi lo v : Nat) : (setFld s a hi lo v).hold = s.hold := rfl
@[simp] theorem setFld_sat (a hi lo v : Nat) : (setFld s a hi lo v).sat = s.sat := rfl
@[simp] theorem setFld_draws (a hi lo v : Nat) : (setFld s a hi lo v).draws = s.draws := rfl
@[simp] theorem setFld_out (a hi lo v : Nat) : (setFld s a hi lo v).out = s.out := rfl
@[simp] theorem setFld_pick (a hi lo v : Nat) : (setFld s a hi lo v).pick = s.pick := rfl
@[simp] theorem setFld_power (a hi lo v : Nat) : (setFld s a hi lo v).power = s.power := rfl
@[simp] theorem setFld_tension (a hi lo v : Nat) : (setFld s a hi lo v).tension = s.tension := rfl
@[simp] theorem setFld_selvedge (a hi lo v : Nat) : (setFld s a hi lo v).selvedge = s.selvedge := rfl
@[simp] theorem setFld_safety (a hi lo v : Nat) : (setFld s a hi lo v).safety = s.safety := rfl
@[simp] theorem setFld_host (a hi lo v : Nat) : (setFld s a hi lo v).host = s.host := rfl
@[simp] theorem setFld_spool (a hi lo v : Nat) : (setFld s a hi lo v).spool = s.spool := rfl
@[simp] theorem setFld_heddle (a hi lo v : Nat) : (setFld s a hi lo v).heddle = s.heddle := rfl
@[simp] theorem setFld_flow (a hi lo v : Nat) : (setFld s a hi lo v).flow = s.flow := rfl
@[simp] theorem setFld_reed (a hi lo v : Nat) : (setFld s a hi lo v).reed = s.reed := rfl
@[simp] theorem setFld_sec (a hi lo v : Nat) : (setFld s a hi lo v).sec = s.sec := rfl
@[simp] theorem setFld_warp (a hi lo v : Nat) : (setFld s a hi lo v).warp = s.warp := rfl
@[simp] theorem setFld_weft (a hi lo v : Nat) : (setFld s a hi lo v).weft = s.weft := rfl
@[simp] theorem setFld_act (a hi lo v : Nat) : (setFld s a hi lo v).act = s.act := rfl
@[simp] theorem setFld_draft (a hi lo v : Nat) : (setFld s a hi lo v).draft = s.draft := rfl
@[simp] theorem setFld_shuttle (a hi lo v : Nat) : (setFld s a hi lo v).shuttle = s.shuttle := rfl
@[simp] theorem setFld_skein (a hi lo v : Nat) : (setFld s a hi lo v).skein = s.skein := rfl
@[simp] theorem setFld_time (a hi lo v : Nat) : (setFld s a hi lo v).time = s.time := rfl
@[simp] theorem setFld_ports (a hi lo v : Nat) : (setFld s a hi lo v).ports = s.ports := rfl

/-! ## setBit -/

@[simp] theorem setBit_pending (a n : Nat) : (setBit s a n).pending = s.pending := rfl
@[simp] theorem setBit_now (a n : Nat) : (setBit s a n).now = s.now := rfl
@[simp] theorem setBit_ns (a n : Nat) : (setBit s a n).ns = s.ns := rfl
@[simp] theorem setBit_dram (a n : Nat) : (setBit s a n).dram = s.dram := rfl
@[simp] theorem setBit_hostRead (a n : Nat) : (setBit s a n).hostRead = s.hostRead := rfl
@[simp] theorem setBit_cnt (a n : Nat) : (setBit s a n).cnt = s.cnt := rfl
@[simp] theorem setBit_hold (a n : Nat) : (setBit s a n).hold = s.hold := rfl
@[simp] theorem setBit_sat (a n : Nat) : (setBit s a n).sat = s.sat := rfl
@[simp] theorem setBit_draws (a n : Nat) : (setBit s a n).draws = s.draws := rfl
@[simp] theorem setBit_out (a n : Nat) : (setBit s a n).out = s.out := rfl
@[simp] theorem setBit_pick (a n : Nat) : (setBit s a n).pick = s.pick := rfl
@[simp] theorem setBit_power (a n : Nat) : (setBit s a n).power = s.power := rfl
@[simp] theorem setBit_tension (a n : Nat) : (setBit s a n).tension = s.tension := rfl
@[simp] theorem setBit_selvedge (a n : Nat) : (setBit s a n).selvedge = s.selvedge := rfl
@[simp] theorem setBit_safety (a n : Nat) : (setBit s a n).safety = s.safety := rfl
@[simp] theorem setBit_host (a n : Nat) : (setBit s a n).host = s.host := rfl
@[simp] theorem setBit_spool (a n : Nat) : (setBit s a n).spool = s.spool := rfl
@[simp] theorem setBit_heddle (a n : Nat) : (setBit s a n).heddle = s.heddle := rfl
@[simp] theorem setBit_flow (a n : Nat) : (setBit s a n).flow = s.flow := rfl
@[simp] theorem setBit_reed (a n : Nat) : (setBit s a n).reed = s.reed := rfl
@[simp] theorem setBit_sec (a n : Nat) : (setBit s a n).sec = s.sec := rfl
@[simp] theorem setBit_warp (a n : Nat) : (setBit s a n).warp = s.warp := rfl
@[simp] theorem setBit_weft (a n : Nat) : (setBit s a n).weft = s.weft := rfl
@[simp] theorem setBit_act (a n : Nat) : (setBit s a n).act = s.act := rfl
@[simp] theorem setBit_draft (a n : Nat) : (setBit s a n).draft = s.draft := rfl
@[simp] theorem setBit_shuttle (a n : Nat) : (setBit s a n).shuttle = s.shuttle := rfl
@[simp] theorem setBit_skein (a n : Nat) : (setBit s a n).skein = s.skein := rfl
@[simp] theorem setBit_time (a n : Nat) : (setBit s a n).time = s.time := rfl
@[simp] theorem setBit_ports (a n : Nat) : (setBit s a n).ports = s.ports := rfl

/-! ## clrBit -/

@[simp] theorem clrBit_pending (a n : Nat) : (clrBit s a n).pending = s.pending := rfl
@[simp] theorem clrBit_now (a n : Nat) : (clrBit s a n).now = s.now := rfl
@[simp] theorem clrBit_ns (a n : Nat) : (clrBit s a n).ns = s.ns := rfl
@[simp] theorem clrBit_dram (a n : Nat) : (clrBit s a n).dram = s.dram := rfl
@[simp] theorem clrBit_hostRead (a n : Nat) : (clrBit s a n).hostRead = s.hostRead := rfl
@[simp] theorem clrBit_cnt (a n : Nat) : (clrBit s a n).cnt = s.cnt := rfl
@[simp] theorem clrBit_hold (a n : Nat) : (clrBit s a n).hold = s.hold := rfl
@[simp] theorem clrBit_sat (a n : Nat) : (clrBit s a n).sat = s.sat := rfl
@[simp] theorem clrBit_draws (a n : Nat) : (clrBit s a n).draws = s.draws := rfl
@[simp] theorem clrBit_out (a n : Nat) : (clrBit s a n).out = s.out := rfl
@[simp] theorem clrBit_pick (a n : Nat) : (clrBit s a n).pick = s.pick := rfl
@[simp] theorem clrBit_power (a n : Nat) : (clrBit s a n).power = s.power := rfl
@[simp] theorem clrBit_tension (a n : Nat) : (clrBit s a n).tension = s.tension := rfl
@[simp] theorem clrBit_selvedge (a n : Nat) : (clrBit s a n).selvedge = s.selvedge := rfl
@[simp] theorem clrBit_safety (a n : Nat) : (clrBit s a n).safety = s.safety := rfl
@[simp] theorem clrBit_host (a n : Nat) : (clrBit s a n).host = s.host := rfl
@[simp] theorem clrBit_spool (a n : Nat) : (clrBit s a n).spool = s.spool := rfl
@[simp] theorem clrBit_heddle (a n : Nat) : (clrBit s a n).heddle = s.heddle := rfl
@[simp] theorem clrBit_flow (a n : Nat) : (clrBit s a n).flow = s.flow := rfl
@[simp] theorem clrBit_reed (a n : Nat) : (clrBit s a n).reed = s.reed := rfl
@[simp] theorem clrBit_sec (a n : Nat) : (clrBit s a n).sec = s.sec := rfl
@[simp] theorem clrBit_warp (a n : Nat) : (clrBit s a n).warp = s.warp := rfl
@[simp] theorem clrBit_weft (a n : Nat) : (clrBit s a n).weft = s.weft := rfl
@[simp] theorem clrBit_act (a n : Nat) : (clrBit s a n).act = s.act := rfl
@[simp] theorem clrBit_draft (a n : Nat) : (clrBit s a n).draft = s.draft := rfl
@[simp] theorem clrBit_shuttle (a n : Nat) : (clrBit s a n).shuttle = s.shuttle := rfl
@[simp] theorem clrBit_skein (a n : Nat) : (clrBit s a n).skein = s.skein := rfl
@[simp] theorem clrBit_time (a n : Nat) : (clrBit s a n).time = s.time := rfl
@[simp] theorem clrBit_ports (a n : Nat) : (clrBit s a n).ports = s.ports := rfl

/-! ## emit -/

@[simp] theorem emit_pending (x : Output) : (emit s x).pending = s.pending := rfl
@[simp] theorem emit_now (x : Output) : (emit s x).now = s.now := rfl
@[simp] theorem emit_ns (x : Output) : (emit s x).ns = s.ns := rfl
@[simp] theorem emit_dram (x : Output) : (emit s x).dram = s.dram := rfl
@[simp] theorem emit_hostRead (x : Output) : (emit s x).hostRead = s.hostRead := rfl
@[simp] theorem emit_stg (x : Output) : (emit s x).stg = s.stg := rfl
@[simp] theorem emit_cur (x : Output) : (emit s x).cur = s.cur := rfl
@[simp] theorem emit_cnt (x : Output) : (emit s x).cnt = s.cnt := rfl
@[simp] theorem emit_hold (x : Output) : (emit s x).hold = s.hold := rfl
@[simp] theorem emit_sat (x : Output) : (emit s x).sat = s.sat := rfl
@[simp] theorem emit_draws (x : Output) : (emit s x).draws = s.draws := rfl
@[simp] theorem emit_pick (x : Output) : (emit s x).pick = s.pick := rfl
@[simp] theorem emit_power (x : Output) : (emit s x).power = s.power := rfl
@[simp] theorem emit_tension (x : Output) : (emit s x).tension = s.tension := rfl
@[simp] theorem emit_selvedge (x : Output) : (emit s x).selvedge = s.selvedge := rfl
@[simp] theorem emit_safety (x : Output) : (emit s x).safety = s.safety := rfl
@[simp] theorem emit_host (x : Output) : (emit s x).host = s.host := rfl
@[simp] theorem emit_spool (x : Output) : (emit s x).spool = s.spool := rfl
@[simp] theorem emit_heddle (x : Output) : (emit s x).heddle = s.heddle := rfl
@[simp] theorem emit_flow (x : Output) : (emit s x).flow = s.flow := rfl
@[simp] theorem emit_reed (x : Output) : (emit s x).reed = s.reed := rfl
@[simp] theorem emit_sec (x : Output) : (emit s x).sec = s.sec := rfl
@[simp] theorem emit_warp (x : Output) : (emit s x).warp = s.warp := rfl
@[simp] theorem emit_weft (x : Output) : (emit s x).weft = s.weft := rfl
@[simp] theorem emit_act (x : Output) : (emit s x).act = s.act := rfl
@[simp] theorem emit_draft (x : Output) : (emit s x).draft = s.draft := rfl
@[simp] theorem emit_shuttle (x : Output) : (emit s x).shuttle = s.shuttle := rfl
@[simp] theorem emit_skein (x : Output) : (emit s x).skein = s.skein := rfl
@[simp] theorem emit_time (x : Output) : (emit s x).time = s.time := rfl
@[simp] theorem emit_ports (x : Output) : (emit s x).ports = s.ports := rfl

@[simp] theorem emit_out (x : Output) : (emit s x).out = s.out ++ [x] := rfl

/-! ## countKey -/

@[simp] theorem countKey_pending (key k : Nat) : (countKey s key k).pending = s.pending := by unfold countKey; dsimp only; split <;> rfl
@[simp] theorem countKey_now (key k : Nat) : (countKey s key k).now = s.now := by unfold countKey; dsimp only; split <;> rfl
@[simp] theorem countKey_ns (key k : Nat) : (countKey s key k).ns = s.ns := by unfold countKey; dsimp only; split <;> rfl
@[simp] theorem countKey_dram (key k : Nat) : (countKey s key k).dram = s.dram := by unfold countKey; dsimp only; split <;> rfl
@[simp] theorem countKey_hostRead (key k : Nat) : (countKey s key k).hostRead = s.hostRead := by unfold countKey; dsimp only; split <;> rfl
@[simp] theorem countKey_stg (key k : Nat) : (countKey s key k).stg = s.stg := by unfold countKey; dsimp only; split <;> rfl
@[simp] theorem countKey_cur (key k : Nat) : (countKey s key k).cur = s.cur := by unfold countKey; dsimp only; split <;> rfl
@[simp] theorem countKey_hold (key k : Nat) : (countKey s key k).hold = s.hold := by unfold countKey; dsimp only; split <;> rfl
@[simp] theorem countKey_draws (key k : Nat) : (countKey s key k).draws = s.draws := by unfold countKey; dsimp only; split <;> rfl
@[simp] theorem countKey_out (key k : Nat) : (countKey s key k).out = s.out := by unfold countKey; dsimp only; split <;> rfl
@[simp] theorem countKey_pick (key k : Nat) : (countKey s key k).pick = s.pick := by unfold countKey; dsimp only; split <;> rfl
@[simp] theorem countKey_power (key k : Nat) : (countKey s key k).power = s.power := by unfold countKey; dsimp only; split <;> rfl
@[simp] theorem countKey_tension (key k : Nat) : (countKey s key k).tension = s.tension := by unfold countKey; dsimp only; split <;> rfl
@[simp] theorem countKey_selvedge (key k : Nat) : (countKey s key k).selvedge = s.selvedge := by unfold countKey; dsimp only; split <;> rfl
@[simp] theorem countKey_safety (key k : Nat) : (countKey s key k).safety = s.safety := by unfold countKey; dsimp only; split <;> rfl
@[simp] theorem countKey_host (key k : Nat) : (countKey s key k).host = s.host := by unfold countKey; dsimp only; split <;> rfl
@[simp] theorem countKey_spool (key k : Nat) : (countKey s key k).spool = s.spool := by unfold countKey; dsimp only; split <;> rfl
@[simp] theorem countKey_heddle (key k : Nat) : (countKey s key k).heddle = s.heddle := by unfold countKey; dsimp only; split <;> rfl
@[simp] theorem countKey_flow (key k : Nat) : (countKey s key k).flow = s.flow := by unfold countKey; dsimp only; split <;> rfl
@[simp] theorem countKey_reed (key k : Nat) : (countKey s key k).reed = s.reed := by unfold countKey; dsimp only; split <;> rfl
@[simp] theorem countKey_sec (key k : Nat) : (countKey s key k).sec = s.sec := by unfold countKey; dsimp only; split <;> rfl
@[simp] theorem countKey_warp (key k : Nat) : (countKey s key k).warp = s.warp := by unfold countKey; dsimp only; split <;> rfl
@[simp] theorem countKey_weft (key k : Nat) : (countKey s key k).weft = s.weft := by unfold countKey; dsimp only; split <;> rfl
@[simp] theorem countKey_act (key k : Nat) : (countKey s key k).act = s.act := by unfold countKey; dsimp only; split <;> rfl
@[simp] theorem countKey_draft (key k : Nat) : (countKey s key k).draft = s.draft := by unfold countKey; dsimp only; split <;> rfl
@[simp] theorem countKey_shuttle (key k : Nat) : (countKey s key k).shuttle = s.shuttle := by unfold countKey; dsimp only; split <;> rfl
@[simp] theorem countKey_skein (key k : Nat) : (countKey s key k).skein = s.skein := by unfold countKey; dsimp only; split <;> rfl
@[simp] theorem countKey_time (key k : Nat) : (countKey s key k).time = s.time := by unfold countKey; dsimp only; split <;> rfl
@[simp] theorem countKey_ports (key k : Nat) : (countKey s key k).ports = s.ports := by unfold countKey; dsimp only; split <;> rfl

/-! ## countBy -/

@[simp] theorem countBy_pending (g n k : Nat) : (countBy s g n k).pending = s.pending := countKey_pending s _ _
@[simp] theorem countBy_now (g n k : Nat) : (countBy s g n k).now = s.now := countKey_now s _ _
@[simp] theorem countBy_ns (g n k : Nat) : (countBy s g n k).ns = s.ns := countKey_ns s _ _
@[simp] theorem countBy_dram (g n k : Nat) : (countBy s g n k).dram = s.dram := countKey_dram s _ _
@[simp] theorem countBy_hostRead (g n k : Nat) : (countBy s g n k).hostRead = s.hostRead := countKey_hostRead s _ _
@[simp] theorem countBy_stg (g n k : Nat) : (countBy s g n k).stg = s.stg := countKey_stg s _ _
@[simp] theorem countBy_cur (g n k : Nat) : (countBy s g n k).cur = s.cur := countKey_cur s _ _
@[simp] theorem countBy_hold (g n k : Nat) : (countBy s g n k).hold = s.hold := countKey_hold s _ _
@[simp] theorem countBy_draws (g n k : Nat) : (countBy s g n k).draws = s.draws := countKey_draws s _ _
@[simp] theorem countBy_out (g n k : Nat) : (countBy s g n k).out = s.out := countKey_out s _ _
@[simp] theorem countBy_pick (g n k : Nat) : (countBy s g n k).pick = s.pick := countKey_pick s _ _
@[simp] theorem countBy_power (g n k : Nat) : (countBy s g n k).power = s.power := countKey_power s _ _
@[simp] theorem countBy_tension (g n k : Nat) : (countBy s g n k).tension = s.tension := countKey_tension s _ _
@[simp] theorem countBy_selvedge (g n k : Nat) : (countBy s g n k).selvedge = s.selvedge := countKey_selvedge s _ _
@[simp] theorem countBy_safety (g n k : Nat) : (countBy s g n k).safety = s.safety := countKey_safety s _ _
@[simp] theorem countBy_host (g n k : Nat) : (countBy s g n k).host = s.host := countKey_host s _ _
@[simp] theorem countBy_spool (g n k : Nat) : (countBy s g n k).spool = s.spool := countKey_spool s _ _
@[simp] theorem countBy_heddle (g n k : Nat) : (countBy s g n k).heddle = s.heddle := countKey_heddle s _ _
@[simp] theorem countBy_flow (g n k : Nat) : (countBy s g n k).flow = s.flow := countKey_flow s _ _
@[simp] theorem countBy_reed (g n k : Nat) : (countBy s g n k).reed = s.reed := countKey_reed s _ _
@[simp] theorem countBy_sec (g n k : Nat) : (countBy s g n k).sec = s.sec := countKey_sec s _ _
@[simp] theorem countBy_warp (g n k : Nat) : (countBy s g n k).warp = s.warp := countKey_warp s _ _
@[simp] theorem countBy_weft (g n k : Nat) : (countBy s g n k).weft = s.weft := countKey_weft s _ _
@[simp] theorem countBy_act (g n k : Nat) : (countBy s g n k).act = s.act := countKey_act s _ _
@[simp] theorem countBy_draft (g n k : Nat) : (countBy s g n k).draft = s.draft := countKey_draft s _ _
@[simp] theorem countBy_shuttle (g n k : Nat) : (countBy s g n k).shuttle = s.shuttle := countKey_shuttle s _ _
@[simp] theorem countBy_skein (g n k : Nat) : (countBy s g n k).skein = s.skein := countKey_skein s _ _
@[simp] theorem countBy_time (g n k : Nat) : (countBy s g n k).time = s.time := countKey_time s _ _
@[simp] theorem countBy_ports (g n k : Nat) : (countBy s g n k).ports = s.ports := countKey_ports s _ _

/-! ## count -/

@[simp] theorem count_pending (g n : Nat) : (count s g n).pending = s.pending := countBy_pending s _ _ _
@[simp] theorem count_now (g n : Nat) : (count s g n).now = s.now := countBy_now s _ _ _
@[simp] theorem count_ns (g n : Nat) : (count s g n).ns = s.ns := countBy_ns s _ _ _
@[simp] theorem count_dram (g n : Nat) : (count s g n).dram = s.dram := countBy_dram s _ _ _
@[simp] theorem count_hostRead (g n : Nat) : (count s g n).hostRead = s.hostRead := countBy_hostRead s _ _ _
@[simp] theorem count_stg (g n : Nat) : (count s g n).stg = s.stg := countBy_stg s _ _ _
@[simp] theorem count_cur (g n : Nat) : (count s g n).cur = s.cur := countBy_cur s _ _ _
@[simp] theorem count_hold (g n : Nat) : (count s g n).hold = s.hold := countBy_hold s _ _ _
@[simp] theorem count_draws (g n : Nat) : (count s g n).draws = s.draws := countBy_draws s _ _ _
@[simp] theorem count_out (g n : Nat) : (count s g n).out = s.out := countBy_out s _ _ _
@[simp] theorem count_pick (g n : Nat) : (count s g n).pick = s.pick := countBy_pick s _ _ _
@[simp] theorem count_power (g n : Nat) : (count s g n).power = s.power := countBy_power s _ _ _
@[simp] theorem count_tension (g n : Nat) : (count s g n).tension = s.tension := countBy_tension s _ _ _
@[simp] theorem count_selvedge (g n : Nat) : (count s g n).selvedge = s.selvedge := countBy_selvedge s _ _ _
@[simp] theorem count_safety (g n : Nat) : (count s g n).safety = s.safety := countBy_safety s _ _ _
@[simp] theorem count_host (g n : Nat) : (count s g n).host = s.host := countBy_host s _ _ _
@[simp] theorem count_spool (g n : Nat) : (count s g n).spool = s.spool := countBy_spool s _ _ _
@[simp] theorem count_heddle (g n : Nat) : (count s g n).heddle = s.heddle := countBy_heddle s _ _ _
@[simp] theorem count_flow (g n : Nat) : (count s g n).flow = s.flow := countBy_flow s _ _ _
@[simp] theorem count_reed (g n : Nat) : (count s g n).reed = s.reed := countBy_reed s _ _ _
@[simp] theorem count_sec (g n : Nat) : (count s g n).sec = s.sec := countBy_sec s _ _ _
@[simp] theorem count_warp (g n : Nat) : (count s g n).warp = s.warp := countBy_warp s _ _ _
@[simp] theorem count_weft (g n : Nat) : (count s g n).weft = s.weft := countBy_weft s _ _ _
@[simp] theorem count_act (g n : Nat) : (count s g n).act = s.act := countBy_act s _ _ _
@[simp] theorem count_draft (g n : Nat) : (count s g n).draft = s.draft := countBy_draft s _ _ _
@[simp] theorem count_shuttle (g n : Nat) : (count s g n).shuttle = s.shuttle := countBy_shuttle s _ _ _
@[simp] theorem count_skein (g n : Nat) : (count s g n).skein = s.skein := countBy_skein s _ _ _
@[simp] theorem count_time (g n : Nat) : (count s g n).time = s.time := countBy_time s _ _ _
@[simp] theorem count_ports (g n : Nat) : (count s g n).ports = s.ports := countBy_ports s _ _ _

/-! ## draw -/

@[simp] theorem draw_pending  : (draw s).2.pending = s.pending := rfl
@[simp] theorem draw_now  : (draw s).2.now = s.now := rfl
@[simp] theorem draw_ns  : (draw s).2.ns = s.ns := rfl
@[simp] theorem draw_dram  : (draw s).2.dram = s.dram := rfl
@[simp] theorem draw_hostRead  : (draw s).2.hostRead = s.hostRead := rfl
@[simp] theorem draw_stg  : (draw s).2.stg = s.stg := rfl
@[simp] theorem draw_cur  : (draw s).2.cur = s.cur := rfl
@[simp] theorem draw_cnt  : (draw s).2.cnt = s.cnt := rfl
@[simp] theorem draw_hold  : (draw s).2.hold = s.hold := rfl
@[simp] theorem draw_sat  : (draw s).2.sat = s.sat := rfl
@[simp] theorem draw_out  : (draw s).2.out = s.out := rfl
@[simp] theorem draw_pick  : (draw s).2.pick = s.pick := rfl
@[simp] theorem draw_power  : (draw s).2.power = s.power := rfl
@[simp] theorem draw_tension  : (draw s).2.tension = s.tension := rfl
@[simp] theorem draw_selvedge  : (draw s).2.selvedge = s.selvedge := rfl
@[simp] theorem draw_safety  : (draw s).2.safety = s.safety := rfl
@[simp] theorem draw_host  : (draw s).2.host = s.host := rfl
@[simp] theorem draw_spool  : (draw s).2.spool = s.spool := rfl
@[simp] theorem draw_heddle  : (draw s).2.heddle = s.heddle := rfl
@[simp] theorem draw_flow  : (draw s).2.flow = s.flow := rfl
@[simp] theorem draw_reed  : (draw s).2.reed = s.reed := rfl
@[simp] theorem draw_sec  : (draw s).2.sec = s.sec := rfl
@[simp] theorem draw_warp  : (draw s).2.warp = s.warp := rfl
@[simp] theorem draw_weft  : (draw s).2.weft = s.weft := rfl
@[simp] theorem draw_act  : (draw s).2.act = s.act := rfl
@[simp] theorem draw_draft  : (draw s).2.draft = s.draft := rfl
@[simp] theorem draw_shuttle  : (draw s).2.shuttle = s.shuttle := rfl
@[simp] theorem draw_skein  : (draw s).2.skein = s.skein := rfl
@[simp] theorem draw_time  : (draw s).2.time = s.time := rfl
@[simp] theorem draw_ports  : (draw s).2.ports = s.ports := rfl

/-! ## setRing -/

@[simp] theorem setRing_pending (r : Nat) (x : Ring) : (setRing s r x).pending = s.pending := rfl
@[simp] theorem setRing_now (r : Nat) (x : Ring) : (setRing s r x).now = s.now := rfl
@[simp] theorem setRing_ns (r : Nat) (x : Ring) : (setRing s r x).ns = s.ns := rfl
@[simp] theorem setRing_dram (r : Nat) (x : Ring) : (setRing s r x).dram = s.dram := rfl
@[simp] theorem setRing_hostRead (r : Nat) (x : Ring) : (setRing s r x).hostRead = s.hostRead := rfl
@[simp] theorem setRing_stg (r : Nat) (x : Ring) : (setRing s r x).stg = s.stg := rfl
@[simp] theorem setRing_cur (r : Nat) (x : Ring) : (setRing s r x).cur = s.cur := rfl
@[simp] theorem setRing_cnt (r : Nat) (x : Ring) : (setRing s r x).cnt = s.cnt := rfl
@[simp] theorem setRing_hold (r : Nat) (x : Ring) : (setRing s r x).hold = s.hold := rfl
@[simp] theorem setRing_sat (r : Nat) (x : Ring) : (setRing s r x).sat = s.sat := rfl
@[simp] theorem setRing_draws (r : Nat) (x : Ring) : (setRing s r x).draws = s.draws := rfl
@[simp] theorem setRing_out (r : Nat) (x : Ring) : (setRing s r x).out = s.out := rfl
@[simp] theorem setRing_pick (r : Nat) (x : Ring) : (setRing s r x).pick = s.pick := rfl
@[simp] theorem setRing_power (r : Nat) (x : Ring) : (setRing s r x).power = s.power := rfl
@[simp] theorem setRing_tension (r : Nat) (x : Ring) : (setRing s r x).tension = s.tension := rfl
@[simp] theorem setRing_selvedge (r : Nat) (x : Ring) : (setRing s r x).selvedge = s.selvedge := rfl
@[simp] theorem setRing_safety (r : Nat) (x : Ring) : (setRing s r x).safety = s.safety := rfl
@[simp] theorem setRing_spool (r : Nat) (x : Ring) : (setRing s r x).spool = s.spool := rfl
@[simp] theorem setRing_heddle (r : Nat) (x : Ring) : (setRing s r x).heddle = s.heddle := rfl
@[simp] theorem setRing_flow (r : Nat) (x : Ring) : (setRing s r x).flow = s.flow := rfl
@[simp] theorem setRing_reed (r : Nat) (x : Ring) : (setRing s r x).reed = s.reed := rfl
@[simp] theorem setRing_sec (r : Nat) (x : Ring) : (setRing s r x).sec = s.sec := rfl
@[simp] theorem setRing_warp (r : Nat) (x : Ring) : (setRing s r x).warp = s.warp := rfl
@[simp] theorem setRing_weft (r : Nat) (x : Ring) : (setRing s r x).weft = s.weft := rfl
@[simp] theorem setRing_act (r : Nat) (x : Ring) : (setRing s r x).act = s.act := rfl
@[simp] theorem setRing_draft (r : Nat) (x : Ring) : (setRing s r x).draft = s.draft := rfl
@[simp] theorem setRing_shuttle (r : Nat) (x : Ring) : (setRing s r x).shuttle = s.shuttle := rfl
@[simp] theorem setRing_skein (r : Nat) (x : Ring) : (setRing s r x).skein = s.skein := rfl
@[simp] theorem setRing_time (r : Nat) (x : Ring) : (setRing s r x).time = s.time := rfl
@[simp] theorem setRing_ports (r : Nat) (x : Ring) : (setRing s r x).ports = s.ports := rfl

/-! ## setCore -/

@[simp] theorem setCore_pending (c : Nat) (x : SkCore) : (setCore s c x).pending = s.pending := rfl
@[simp] theorem setCore_now (c : Nat) (x : SkCore) : (setCore s c x).now = s.now := rfl
@[simp] theorem setCore_ns (c : Nat) (x : SkCore) : (setCore s c x).ns = s.ns := rfl
@[simp] theorem setCore_dram (c : Nat) (x : SkCore) : (setCore s c x).dram = s.dram := rfl
@[simp] theorem setCore_hostRead (c : Nat) (x : SkCore) : (setCore s c x).hostRead = s.hostRead := rfl
@[simp] theorem setCore_stg (c : Nat) (x : SkCore) : (setCore s c x).stg = s.stg := rfl
@[simp] theorem setCore_cur (c : Nat) (x : SkCore) : (setCore s c x).cur = s.cur := rfl
@[simp] theorem setCore_cnt (c : Nat) (x : SkCore) : (setCore s c x).cnt = s.cnt := rfl
@[simp] theorem setCore_hold (c : Nat) (x : SkCore) : (setCore s c x).hold = s.hold := rfl
@[simp] theorem setCore_sat (c : Nat) (x : SkCore) : (setCore s c x).sat = s.sat := rfl
@[simp] theorem setCore_draws (c : Nat) (x : SkCore) : (setCore s c x).draws = s.draws := rfl
@[simp] theorem setCore_out (c : Nat) (x : SkCore) : (setCore s c x).out = s.out := rfl
@[simp] theorem setCore_pick (c : Nat) (x : SkCore) : (setCore s c x).pick = s.pick := rfl
@[simp] theorem setCore_power (c : Nat) (x : SkCore) : (setCore s c x).power = s.power := rfl
@[simp] theorem setCore_tension (c : Nat) (x : SkCore) : (setCore s c x).tension = s.tension := rfl
@[simp] theorem setCore_selvedge (c : Nat) (x : SkCore) : (setCore s c x).selvedge = s.selvedge := rfl
@[simp] theorem setCore_safety (c : Nat) (x : SkCore) : (setCore s c x).safety = s.safety := rfl
@[simp] theorem setCore_host (c : Nat) (x : SkCore) : (setCore s c x).host = s.host := rfl
@[simp] theorem setCore_spool (c : Nat) (x : SkCore) : (setCore s c x).spool = s.spool := rfl
@[simp] theorem setCore_heddle (c : Nat) (x : SkCore) : (setCore s c x).heddle = s.heddle := rfl
@[simp] theorem setCore_flow (c : Nat) (x : SkCore) : (setCore s c x).flow = s.flow := rfl
@[simp] theorem setCore_reed (c : Nat) (x : SkCore) : (setCore s c x).reed = s.reed := rfl
@[simp] theorem setCore_sec (c : Nat) (x : SkCore) : (setCore s c x).sec = s.sec := rfl
@[simp] theorem setCore_warp (c : Nat) (x : SkCore) : (setCore s c x).warp = s.warp := rfl
@[simp] theorem setCore_weft (c : Nat) (x : SkCore) : (setCore s c x).weft = s.weft := rfl
@[simp] theorem setCore_act (c : Nat) (x : SkCore) : (setCore s c x).act = s.act := rfl
@[simp] theorem setCore_draft (c : Nat) (x : SkCore) : (setCore s c x).draft = s.draft := rfl
@[simp] theorem setCore_shuttle (c : Nat) (x : SkCore) : (setCore s c x).shuttle = s.shuttle := rfl
@[simp] theorem setCore_time (c : Nat) (x : SkCore) : (setCore s c x).time = s.time := rfl
@[simp] theorem setCore_ports (c : Nat) (x : SkCore) : (setCore s c x).ports = s.ports := rfl

/-! ## setChan -/

@[simp] theorem setChan_pending (c : Nat) (x : ShChan) : (setChan s c x).pending = s.pending := rfl
@[simp] theorem setChan_now (c : Nat) (x : ShChan) : (setChan s c x).now = s.now := rfl
@[simp] theorem setChan_ns (c : Nat) (x : ShChan) : (setChan s c x).ns = s.ns := rfl
@[simp] theorem setChan_dram (c : Nat) (x : ShChan) : (setChan s c x).dram = s.dram := rfl
@[simp] theorem setChan_hostRead (c : Nat) (x : ShChan) : (setChan s c x).hostRead = s.hostRead := rfl
@[simp] theorem setChan_stg (c : Nat) (x : ShChan) : (setChan s c x).stg = s.stg := rfl
@[simp] theorem setChan_cur (c : Nat) (x : ShChan) : (setChan s c x).cur = s.cur := rfl
@[simp] theorem setChan_cnt (c : Nat) (x : ShChan) : (setChan s c x).cnt = s.cnt := rfl
@[simp] theorem setChan_hold (c : Nat) (x : ShChan) : (setChan s c x).hold = s.hold := rfl
@[simp] theorem setChan_sat (c : Nat) (x : ShChan) : (setChan s c x).sat = s.sat := rfl
@[simp] theorem setChan_draws (c : Nat) (x : ShChan) : (setChan s c x).draws = s.draws := rfl
@[simp] theorem setChan_out (c : Nat) (x : ShChan) : (setChan s c x).out = s.out := rfl
@[simp] theorem setChan_pick (c : Nat) (x : ShChan) : (setChan s c x).pick = s.pick := rfl
@[simp] theorem setChan_power (c : Nat) (x : ShChan) : (setChan s c x).power = s.power := rfl
@[simp] theorem setChan_tension (c : Nat) (x : ShChan) : (setChan s c x).tension = s.tension := rfl
@[simp] theorem setChan_selvedge (c : Nat) (x : ShChan) : (setChan s c x).selvedge = s.selvedge := rfl
@[simp] theorem setChan_safety (c : Nat) (x : ShChan) : (setChan s c x).safety = s.safety := rfl
@[simp] theorem setChan_host (c : Nat) (x : ShChan) : (setChan s c x).host = s.host := rfl
@[simp] theorem setChan_spool (c : Nat) (x : ShChan) : (setChan s c x).spool = s.spool := rfl
@[simp] theorem setChan_heddle (c : Nat) (x : ShChan) : (setChan s c x).heddle = s.heddle := rfl
@[simp] theorem setChan_flow (c : Nat) (x : ShChan) : (setChan s c x).flow = s.flow := rfl
@[simp] theorem setChan_reed (c : Nat) (x : ShChan) : (setChan s c x).reed = s.reed := rfl
@[simp] theorem setChan_sec (c : Nat) (x : ShChan) : (setChan s c x).sec = s.sec := rfl
@[simp] theorem setChan_warp (c : Nat) (x : ShChan) : (setChan s c x).warp = s.warp := rfl
@[simp] theorem setChan_weft (c : Nat) (x : ShChan) : (setChan s c x).weft = s.weft := rfl
@[simp] theorem setChan_act (c : Nat) (x : ShChan) : (setChan s c x).act = s.act := rfl
@[simp] theorem setChan_draft (c : Nat) (x : ShChan) : (setChan s c x).draft = s.draft := rfl
@[simp] theorem setChan_skein (c : Nat) (x : ShChan) : (setChan s c x).skein = s.skein := rfl
@[simp] theorem setChan_time (c : Nat) (x : ShChan) : (setChan s c x).time = s.time := rfl
@[simp] theorem setChan_ports (c : Nat) (x : ShChan) : (setChan s c x).ports = s.ports := rfl

/-! ## setUnit -/

@[simp] theorem setUnit_pending (c : Nat) (x : UnitInfo) : (setUnit s c x).pending = s.pending := rfl
@[simp] theorem setUnit_now (c : Nat) (x : UnitInfo) : (setUnit s c x).now = s.now := rfl
@[simp] theorem setUnit_ns (c : Nat) (x : UnitInfo) : (setUnit s c x).ns = s.ns := rfl
@[simp] theorem setUnit_dram (c : Nat) (x : UnitInfo) : (setUnit s c x).dram = s.dram := rfl
@[simp] theorem setUnit_hostRead (c : Nat) (x : UnitInfo) : (setUnit s c x).hostRead = s.hostRead := rfl
@[simp] theorem setUnit_stg (c : Nat) (x : UnitInfo) : (setUnit s c x).stg = s.stg := rfl
@[simp] theorem setUnit_cur (c : Nat) (x : UnitInfo) : (setUnit s c x).cur = s.cur := rfl
@[simp] theorem setUnit_cnt (c : Nat) (x : UnitInfo) : (setUnit s c x).cnt = s.cnt := rfl
@[simp] theorem setUnit_hold (c : Nat) (x : UnitInfo) : (setUnit s c x).hold = s.hold := rfl
@[simp] theorem setUnit_sat (c : Nat) (x : UnitInfo) : (setUnit s c x).sat = s.sat := rfl
@[simp] theorem setUnit_draws (c : Nat) (x : UnitInfo) : (setUnit s c x).draws = s.draws := rfl
@[simp] theorem setUnit_out (c : Nat) (x : UnitInfo) : (setUnit s c x).out = s.out := rfl
@[simp] theorem setUnit_pick (c : Nat) (x : UnitInfo) : (setUnit s c x).pick = s.pick := rfl
@[simp] theorem setUnit_power (c : Nat) (x : UnitInfo) : (setUnit s c x).power = s.power := rfl
@[simp] theorem setUnit_tension (c : Nat) (x : UnitInfo) : (setUnit s c x).tension = s.tension := rfl
@[simp] theorem setUnit_safety (c : Nat) (x : UnitInfo) : (setUnit s c x).safety = s.safety := rfl
@[simp] theorem setUnit_host (c : Nat) (x : UnitInfo) : (setUnit s c x).host = s.host := rfl
@[simp] theorem setUnit_spool (c : Nat) (x : UnitInfo) : (setUnit s c x).spool = s.spool := rfl
@[simp] theorem setUnit_heddle (c : Nat) (x : UnitInfo) : (setUnit s c x).heddle = s.heddle := rfl
@[simp] theorem setUnit_flow (c : Nat) (x : UnitInfo) : (setUnit s c x).flow = s.flow := rfl
@[simp] theorem setUnit_reed (c : Nat) (x : UnitInfo) : (setUnit s c x).reed = s.reed := rfl
@[simp] theorem setUnit_sec (c : Nat) (x : UnitInfo) : (setUnit s c x).sec = s.sec := rfl
@[simp] theorem setUnit_warp (c : Nat) (x : UnitInfo) : (setUnit s c x).warp = s.warp := rfl
@[simp] theorem setUnit_weft (c : Nat) (x : UnitInfo) : (setUnit s c x).weft = s.weft := rfl
@[simp] theorem setUnit_act (c : Nat) (x : UnitInfo) : (setUnit s c x).act = s.act := rfl
@[simp] theorem setUnit_draft (c : Nat) (x : UnitInfo) : (setUnit s c x).draft = s.draft := rfl
@[simp] theorem setUnit_shuttle (c : Nat) (x : UnitInfo) : (setUnit s c x).shuttle = s.shuttle := rfl
@[simp] theorem setUnit_skein (c : Nat) (x : UnitInfo) : (setUnit s c x).skein = s.skein := rfl
@[simp] theorem setUnit_time (c : Nat) (x : UnitInfo) : (setUnit s c x).time = s.time := rfl
@[simp] theorem setUnit_ports (c : Nat) (x : UnitInfo) : (setUnit s c x).ports = s.ports := rfl

/-! ## setReq -/

@[simp] theorem setReq_pending (c : Nat) (x : Req) : (setReq s c x).pending = s.pending := by unfold setReq; exact (setReg_pending _ _ _).trans (setTension_pending _ _)
@[simp] theorem setReq_now (c : Nat) (x : Req) : (setReq s c x).now = s.now := by unfold setReq; exact (setReg_now _ _ _).trans (setTension_now _ _)
@[simp] theorem setReq_ns (c : Nat) (x : Req) : (setReq s c x).ns = s.ns := by unfold setReq; exact (setReg_ns _ _ _).trans (setTension_ns _ _)
@[simp] theorem setReq_dram (c : Nat) (x : Req) : (setReq s c x).dram = s.dram := by unfold setReq; exact (setReg_dram _ _ _).trans (setTension_dram _ _)
@[simp] theorem setReq_hostRead (c : Nat) (x : Req) : (setReq s c x).hostRead = s.hostRead := by unfold setReq; exact (setReg_hostRead _ _ _).trans (setTension_hostRead _ _)
@[simp] theorem setReq_cnt (c : Nat) (x : Req) : (setReq s c x).cnt = s.cnt := by unfold setReq; exact (setReg_cnt _ _ _).trans (setTension_cnt _ _)
@[simp] theorem setReq_hold (c : Nat) (x : Req) : (setReq s c x).hold = s.hold := by unfold setReq; exact (setReg_hold _ _ _).trans (setTension_hold _ _)
@[simp] theorem setReq_sat (c : Nat) (x : Req) : (setReq s c x).sat = s.sat := by unfold setReq; exact (setReg_sat _ _ _).trans (setTension_sat _ _)
@[simp] theorem setReq_draws (c : Nat) (x : Req) : (setReq s c x).draws = s.draws := by unfold setReq; exact (setReg_draws _ _ _).trans (setTension_draws _ _)
@[simp] theorem setReq_out (c : Nat) (x : Req) : (setReq s c x).out = s.out := by unfold setReq; exact (setReg_out _ _ _).trans (setTension_out _ _)
@[simp] theorem setReq_pick (c : Nat) (x : Req) : (setReq s c x).pick = s.pick := by unfold setReq; exact (setReg_pick _ _ _).trans (setTension_pick _ _)
@[simp] theorem setReq_power (c : Nat) (x : Req) : (setReq s c x).power = s.power := by unfold setReq; exact (setReg_power _ _ _).trans (setTension_power _ _)
@[simp] theorem setReq_selvedge (c : Nat) (x : Req) : (setReq s c x).selvedge = s.selvedge := by unfold setReq; exact (setReg_selvedge _ _ _).trans (setTension_selvedge _ _)
@[simp] theorem setReq_safety (c : Nat) (x : Req) : (setReq s c x).safety = s.safety := by unfold setReq; exact (setReg_safety _ _ _).trans (setTension_safety _ _)
@[simp] theorem setReq_host (c : Nat) (x : Req) : (setReq s c x).host = s.host := by unfold setReq; exact (setReg_host _ _ _).trans (setTension_host _ _)
@[simp] theorem setReq_spool (c : Nat) (x : Req) : (setReq s c x).spool = s.spool := by unfold setReq; exact (setReg_spool _ _ _).trans (setTension_spool _ _)
@[simp] theorem setReq_heddle (c : Nat) (x : Req) : (setReq s c x).heddle = s.heddle := by unfold setReq; exact (setReg_heddle _ _ _).trans (setTension_heddle _ _)
@[simp] theorem setReq_flow (c : Nat) (x : Req) : (setReq s c x).flow = s.flow := by unfold setReq; exact (setReg_flow _ _ _).trans (setTension_flow _ _)
@[simp] theorem setReq_reed (c : Nat) (x : Req) : (setReq s c x).reed = s.reed := by unfold setReq; exact (setReg_reed _ _ _).trans (setTension_reed _ _)
@[simp] theorem setReq_sec (c : Nat) (x : Req) : (setReq s c x).sec = s.sec := by unfold setReq; exact (setReg_sec _ _ _).trans (setTension_sec _ _)
@[simp] theorem setReq_warp (c : Nat) (x : Req) : (setReq s c x).warp = s.warp := by unfold setReq; exact (setReg_warp _ _ _).trans (setTension_warp _ _)
@[simp] theorem setReq_weft (c : Nat) (x : Req) : (setReq s c x).weft = s.weft := by unfold setReq; exact (setReg_weft _ _ _).trans (setTension_weft _ _)
@[simp] theorem setReq_act (c : Nat) (x : Req) : (setReq s c x).act = s.act := by unfold setReq; exact (setReg_act _ _ _).trans (setTension_act _ _)
@[simp] theorem setReq_draft (c : Nat) (x : Req) : (setReq s c x).draft = s.draft := by unfold setReq; exact (setReg_draft _ _ _).trans (setTension_draft _ _)
@[simp] theorem setReq_shuttle (c : Nat) (x : Req) : (setReq s c x).shuttle = s.shuttle := by unfold setReq; exact (setReg_shuttle _ _ _).trans (setTension_shuttle _ _)
@[simp] theorem setReq_skein (c : Nat) (x : Req) : (setReq s c x).skein = s.skein := by unfold setReq; exact (setReg_skein _ _ _).trans (setTension_skein _ _)
@[simp] theorem setReq_time (c : Nat) (x : Req) : (setReq s c x).time = s.time := by unfold setReq; exact (setReg_time _ _ _).trans (setTension_time _ _)
@[simp] theorem setReq_ports (c : Nat) (x : Req) : (setReq s c x).ports = s.ports := by unfold setReq; exact (setReg_ports _ _ _).trans (setTension_ports _ _)

/-! ## dramWrite -/

@[simp] theorem dramWrite_pending (a : Nat) (d : List Byte) : (dramWrite s a d).pending = s.pending := rfl
@[simp] theorem dramWrite_now (a : Nat) (d : List Byte) : (dramWrite s a d).now = s.now := rfl
@[simp] theorem dramWrite_ns (a : Nat) (d : List Byte) : (dramWrite s a d).ns = s.ns := rfl
@[simp] theorem dramWrite_hostRead (a : Nat) (d : List Byte) : (dramWrite s a d).hostRead = s.hostRead := rfl
@[simp] theorem dramWrite_stg (a : Nat) (d : List Byte) : (dramWrite s a d).stg = s.stg := rfl
@[simp] theorem dramWrite_cur (a : Nat) (d : List Byte) : (dramWrite s a d).cur = s.cur := rfl
@[simp] theorem dramWrite_cnt (a : Nat) (d : List Byte) : (dramWrite s a d).cnt = s.cnt := rfl
@[simp] theorem dramWrite_hold (a : Nat) (d : List Byte) : (dramWrite s a d).hold = s.hold := rfl
@[simp] theorem dramWrite_sat (a : Nat) (d : List Byte) : (dramWrite s a d).sat = s.sat := rfl
@[simp] theorem dramWrite_draws (a : Nat) (d : List Byte) : (dramWrite s a d).draws = s.draws := rfl
@[simp] theorem dramWrite_out (a : Nat) (d : List Byte) : (dramWrite s a d).out = s.out := rfl
@[simp] theorem dramWrite_pick (a : Nat) (d : List Byte) : (dramWrite s a d).pick = s.pick := rfl
@[simp] theorem dramWrite_power (a : Nat) (d : List Byte) : (dramWrite s a d).power = s.power := rfl
@[simp] theorem dramWrite_tension (a : Nat) (d : List Byte) : (dramWrite s a d).tension = s.tension := rfl
@[simp] theorem dramWrite_selvedge (a : Nat) (d : List Byte) : (dramWrite s a d).selvedge = s.selvedge := rfl
@[simp] theorem dramWrite_safety (a : Nat) (d : List Byte) : (dramWrite s a d).safety = s.safety := rfl
@[simp] theorem dramWrite_host (a : Nat) (d : List Byte) : (dramWrite s a d).host = s.host := rfl
@[simp] theorem dramWrite_spool (a : Nat) (d : List Byte) : (dramWrite s a d).spool = s.spool := rfl
@[simp] theorem dramWrite_heddle (a : Nat) (d : List Byte) : (dramWrite s a d).heddle = s.heddle := rfl
@[simp] theorem dramWrite_flow (a : Nat) (d : List Byte) : (dramWrite s a d).flow = s.flow := rfl
@[simp] theorem dramWrite_reed (a : Nat) (d : List Byte) : (dramWrite s a d).reed = s.reed := rfl
@[simp] theorem dramWrite_sec (a : Nat) (d : List Byte) : (dramWrite s a d).sec = s.sec := rfl
@[simp] theorem dramWrite_warp (a : Nat) (d : List Byte) : (dramWrite s a d).warp = s.warp := rfl
@[simp] theorem dramWrite_weft (a : Nat) (d : List Byte) : (dramWrite s a d).weft = s.weft := rfl
@[simp] theorem dramWrite_act (a : Nat) (d : List Byte) : (dramWrite s a d).act = s.act := rfl
@[simp] theorem dramWrite_draft (a : Nat) (d : List Byte) : (dramWrite s a d).draft = s.draft := rfl
@[simp] theorem dramWrite_shuttle (a : Nat) (d : List Byte) : (dramWrite s a d).shuttle = s.shuttle := rfl
@[simp] theorem dramWrite_skein (a : Nat) (d : List Byte) : (dramWrite s a d).skein = s.skein := rfl
@[simp] theorem dramWrite_time (a : Nat) (d : List Byte) : (dramWrite s a d).time = s.time := rfl
@[simp] theorem dramWrite_ports (a : Nat) (d : List Byte) : (dramWrite s a d).ports = s.ports := rfl

@[simp] theorem draw_draws : (draw s).2.draws = s.draws + 1 := rfl
@[simp] theorem draw_val : (draw s).1 = Config.freeValue s.draws := rfl

end Sys2Proof.Machine
end

