-- ==== Sys2Proof/WellFormed.lean ====
section
/-! DEFINITION. WellFormed.lean: which operands the spec's interfaces can carry: register addresses, numbers of rings,
lanes, MACs, channels, cores and domains, lengths of line structures. The meanings are total: they do not rely on these. -/

namespace Sys2Proof

/-- A BAR0 offset of a 32-bit access (R8, R475). -/
def addrWf (a : Nat) : Bool := decide (a < 0x2000000) && a % 4 == 0

/-- An offset of BAR0, or one that a read of BAR2 or of the configuration space has in the model's numbering (log entry 74). -/
def readWf (a : Nat) : Bool := addrWf a || (decide (0x4000000 ≤ a) && decide (a < 0x4005000) && a % 4 == 0)

/-- A command descriptor: ring, index, 32 bytes (R359). -/
def cmdDescWf (d : CmdDesc) : Bool := decide (d.ring < 512) && decide (d.index < 65536) && decide (d.word < 2 ^ 256)

/-- A descriptor read: 32 bytes (R345). -/
def descInWf (d : DescIn) : Bool := d.word.all (fun w => decide (w < 2 ^ 256))

/-- The end of a pick: its length and a 48-bit count (R16, R19). -/
def commitWf (i : CommitIn) : Bool := decide (0 < i.clocks) && decide (i.clocks < 2 ^ 24) && i.lineCount.all (fun c => decide (c < 2 ^ 48))

/-- A received frame (R307). -/
def rxInWf (r : RxIn) : Bool := decide (r.data.length < 2 ^ 14)

/-- A 66-bit block of a Yonov lane: sync header and 64 payload bits; and a frame's blocks with the scrambler state before them
(R300, R301). -/
def blockWf (b : Nat × Nat) : Bool := decide (b.1 < 4) && decide (b.2 < 2 ^ 64)
def yonovInWf (y : YonovIn) : Bool := decide (y.prior < 2 ^ 58) && y.blocks.all blockWf

/-- A fault: numbers of R437 and R438. -/
def faultInWf (f : Option FaultIn) : Bool := f.all (fun f => decide (f.source < 0x29) && decide (f.code < 0x1000) && decide (f.ctx < 2 ^ 32))

/-- Calibration's result (R424). -/
def readyWf (i : ReadyIn) : Bool := decide (i.fails < 64) && decide (i.ms < 256)

/-- Bytes of a read that succeeded. -/
def optLen (d : Option (List Byte)) (n : Nat) : Bool := d.all (fun l => l.length == n)

/-- The command's operands lie in the ranges that its interface can carry. -/
def wellFormed (i : Instr) : Bool :=
  match i with
  | .regWrite addr _ _ => addrWf addr
  | .strayWrite off _ => decide (off < 16384)
  | .counterLoRead addr _ => addrWf addr
  | .rcRead addr _ => readWf addr
  | .pickCountLoRead _ => true
  | .timeNowNsRead _ => true
  | .timeCapNsRead i _ => decide (i < 2)
  | .ymgmtRxRead n _ => decide (n < 16)
  | .ymgmtSend n _ _ => decide (n < 16)
  | .warpPmSelWrite _ _ => true
  | .selvedgeHistSelWrite _ _ => true
  | .lockEnClear _ => true
  | .rxEnWrite _ _ => true
  | .dgLatchClear _ _ => true
  | .actHeldSet _ => true
  | .timeLoad _ _ => true
  | .timeIncArm _ _ => true
  | .hostStep _ _ => true
  | .macAddrArm _ _ => true
  | .reedSwapRequest _ _ => true
  | .anchorLock _ => true
  | .draftSwapRequest _ _ => true
  | .trngRestart _ => true
  | .heddleEntWrite _ => true
  | .heddleEntRead _ => true
  | .invalidate _ => true
  | .emInsert _ => true
  | .emDelete _ => true
  | .clearAll _ => true
  | .reedEntWrite _ => true
  | .reedEntRead _ => true
  | .draftEntWrite _ => true
  | .draftEntRead _ => true
  | .flowStoreEnable _ _ => true
  | .hostCmdCfgWrite _ _ _ => true
  | .hostKick p _ _ => decide (p < 4)
  | .abort c _ => decide (c < 16)
  | .winReset c _ => decide (c < 16)
  | .skeinCoreReset c _ _ => decide (c < 4)
  | .skeinWinDataAccess _ _ => true
  | .mboxDoorbell _ _ => true
  | .clockSwitch _ => true
  | .selvedgePendClear _ _ _ => true
  | .selvedgeRestart _ => true
  | .safetyClrWrite _ _ => true
  | .safetyForceLatch _ => true
  | .safetyMpdCfgWrite _ _ => true
  | .commitPoint i => commitWf i
  | .sweepPoint _ => true
  | .sweepExportDone => true
  | .repeatStart => true
  | .proofTest step _ _ => decide (step < 9)
  | .shaperRefillTick k => decide (k < 128)
  | .perPickOverrun bit _ _ => decide (bit < 14)
  | .amplitudeInterval _ => true
  | .cdrLock => true
  | .cdrLockLoss => true
  | .psyncWindow pos w hdr _ => decide (pos < 6220800) && decide (w < 18446744073709551616) && hdr.length == 24
  | .codewordDecode idx levels words => decide (idx < 480) && levels.length == 12960 && words.all (fun w => decide (w < 2 ^ 25920))
  | .pickHeader h _ => h.length == 24
  | .pmSecondEnd line => line.all (fun c => decide (c < 2 ^ 48))
  | .weftMap _ => true
  | .clpFrame _ _ => true
  | .reasmTimeout stream => decide (stream < 65536)
  | .discover m pos => m.length == 64 && decide (pos < 512)
  | .assignTid m pos => m.length == 64 && decide (pos < 512)
  | .challenge m pos => m.length == 64 && decide (pos < 512)
  | .keyAgree m pos => m.length == 64 && decide (pos < 512)
  | .setEqd m pos => m.length == 64 && decide (pos < 512)
  | .assignContainer m pos => m.length == 64 && decide (pos < 512)
  | .assignStream m pos => m.length == 64 && decide (pos < 512)
  | .keyLoad m pos => m.length == 64 && decide (pos < 512)
  | .keySwitch m pos => m.length == 64 && decide (pos < 512)
  | .tod m pos => m.length == 64 && decide (pos < 512)
  | .deactivate m pos => m.length == 64 && decide (pos < 512)
  | .stop m pos => m.length == 64 && decide (pos < 512)
  | .release m pos => m.length == 64 && decide (pos < 512)
  | .dozeAck m pos => m.length == 64 && decide (pos < 512)
  | .effectiveChange => true
  | .tAnnounceExpiry => true
  | .tKeyExpiry => true
  | .tRangeExpiry => true
  | .tLapseExpiry => true
  | .armExpiry => true
  | .attestRecordReady => true
  | .keyDerivationDone => true
  | .burstLatch => true
  | .sectionFill _ => true
  | .burstStart => true
  | .burstEnd => true
  | .pwrFailAssert => true
  | .pwrFailClear => true
  | .holdoverEntry => true
  | .ppsPulse => true
  | .tsCapEdge i _ => decide (i < 2)
  | .heddlePass _ _ => true
  | .heddleReorderRelease source _ => decide (source < 2048)
  | .flowMissResolve _ _ => true
  | .flowPlacement => true
  | .flowAgeOut slot => decide (slot < 8388608)
  | .deckDrainEnd => true
  | .reedSelect destType destId _ => decide (destType < 4) && decide (destId < 16384)
  | .spoolFree handle owner => decide (handle < 1048576) && decide (owner < 64)
  | .spoolLayoutApply => true
  | .gateListStart p => decide (p < 32)
  | .gateEntryChange p => decide (p < 32)
  | .deckLoad d => cmdDescWf d
  | .deckLoadDone records _ => records.all (fun r => r.length == 256)
  | .deckSwap d => cmdDescWf d
  | .ruleWrite d => cmdDescWf d
  | .flowInsert d => cmdDescWf d
  | .flowDelete d => cmdDescWf d
  | .flowRead d => cmdDescWf d
  | .flowRehash d => cmdDescWf d
  | .flowRehashDone => true
  | .flowClear d => cmdDescWf d
  | .flowClearDone => true
  | .shaperLoad d => cmdDescWf d
  | .shaperSwap d => cmdDescWf d
  | .gateLoad d => cmdDescWf d
  | .gateStart d => cmdDescWf d
  | .queueFlush d => cmdDescWf d
  | .imageInstall d => cmdDescWf d
  | .imageActivate d => cmdDescWf d
  | .arbRaise d => cmdDescWf d
  | .idSign d => cmdDescWf d
  | .sigVerify d => cmdDescWf d
  | .hash d => cmdDescWf d
  | .random d => cmdDescWf d
  | .hostKey d => cmdDescWf d
  | .gcm d => cmdDescWf d
  | .otpCustKey d => cmdDescWf d
  | .commandWorkEnd ring index _ => decide (ring < 512) && decide (index < 65536)
  | .randomEntropyTimeout ring index => decide (ring < 512) && decide (index < 65536)
  | .trngBlock _ => true
  | .drbgReseed engine => decide (engine < 4)
  | .keyRetire stream _ index => decide (stream < 65536) && decide (index < 4)
  | .bootImageChoice => true
  | .laneAdapted n ctle => decide (n < 16) && decide (ctle < 16)
  | .laneLinkUp mac n window _ => decide (n < if mac then 32 else 16) && decide (window < 67108864)
  | .laneLinkDown mac n _ _ _ => decide (n < if mac then 32 else 16)
  | .pairMarker n a b => decide (n < 16) && blockWf a && blockWf b
  | .yonovFrameRx n y => decide (n < 16) && yonovInWf y
  | .yidle n _ => decide (n < 16)
  | .yidleTimeout n => decide (n < 16)
  | .yidleSend n => decide (n < 16)
  | .yhold n _ => decide (n < 16)
  | .yholdRepeat n => decide (n < 16)
  | .yholdTimeout n => decide (n < 16)
  | .ymgmt n payload => decide (n < 16) && decide (payload < 72057594037927936)
  | .yonovFifoError n => decide (n < 16)
  | .macRxFrame p r => decide (p < 32) && rxInWf r
  | .pauseFrameRx p _ => decide (p < 32)
  | .pauseExpiry p t => decide (p < 32) && decide (t < 8)
  | .pauseRepeat p => decide (p < 32)
  | .macTxEnd p _ => decide (p < 48)
  | .mergeVerify p => decide (p < 32)
  | .upstreamExchange samples => samples.all (fun e => decide (e.1 < 4096 ∧ e.2 < 256))
  | .draftLoad d => cmdDescWf d
  | .draftSwap d => cmdDescWf d
  | .doorbellFetchDone block data => decide (block < 8) && optLen data 256
  | .descriptorReadDone r d => decide (r < 512) && descInWf d
  | .descriptorReread r => decide (r < 512)
  | .txSend r _ => decide (r < 512)
  | .nop d => cmdDescWf d
  | .ringSetup d => cmdDescWf d
  | .ringResize d => cmdDescWf d
  | .ringStop d => cmdDescWf d
  | .cqModerate d => cmdDescWf d
  | .ringQuery d => cmdDescWf d
  | .ringEntersOff r => decide (r < 512)
  | .msixModTimer c => decide (c < 512)
  | .hostFunctionReset _ => true
  | .copy c => decide (c < 16)
  | .fill c => decide (c < 16)
  | .compare c => decide (c < 16)
  | .shuttleBurst _ => true
  | .shuttleDescDone c => decide (c < 16)
  | .mpy c => decide (c < 4)
  | .mac c => decide (c < 4)
  | .msu c => decide (c < 4)
  | .ftap c => decide (c < 4)
  | .clr c => decide (c < 4)
  | .neg c => decide (c < 4)
  | .abs c => decide (c < 4)
  | .adda c => decide (c < 4)
  | .suba c => decide (c < 4)
  | .shlAcc c => decide (c < 4)
  | .shrAcc c => decide (c < 4)
  | .movr c => decide (c < 4)
  | .movt c => decide (c < 4)
  | .lda c => decide (c < 4)
  | .sat32 c => decide (c < 4)
  | .mov c => decide (c < 4)
  | .add c => decide (c < 4)
  | .sub c => decide (c < 4)
  | .and c => decide (c < 4)
  | .or c => decide (c < 4)
  | .xor c => decide (c < 4)
  | .shlData c => decide (c < 4)
  | .shrData c => decide (c < 4)
  | .cmp c => decide (c < 4)
  | .skeinNop c => decide (c < 4)
  | .ld c => decide (c < 4)
  | .st c => decide (c < 4)
  | .ldi c => decide (c < 4)
  | .addx c => decide (c < 4)
  | .ldx c => decide (c < 4)
  | .ldm c => decide (c < 4)
  | .mvs c => decide (c < 4)
  | .msv c => decide (c < 4)
  | .trd c => decide (c < 4)
  | .twr c => decide (c < 4)
  | .br c => decide (c < 4)
  | .call c => decide (c < 4)
  | .ret c => decide (c < 4)
  | .rti c => decide (c < 4)
  | .rep c => decide (c < 4)
  | .wait c => decide (c < 4)
  | .halt c => decide (c < 4)
  | .interruptTaken c k => decide (c < 4) && decide (k < 8)
  | .eqSwap => true
  | .corrWindowEnd _ _ => true
  | .skeinLoad d => cmdDescWf d
  | .skeinUnload d => cmdDescWf d
  | .firmwareBankSwitch c => decide (c < 4)
  | .powerOn => true
  | .resetAssert _ => true
  | .supplyRemoval => true
  | .ready i => readyWf i
  | .dozeDrainComplete => true
  | .domainWakeOn d => decide (d < 32)
  | .dramTrainingDone _ _ => true
  | .faultReport f => faultInWf f
  | .stormClose => true
  | .recoveryEnd src => decide (src < 41)
  | .safetyLinkUpdate _ _ channel => decide (channel < 4)
  | .safetyDeclare reason channel seen => decide (seen.pos.length ≤ 8) && decide (reason < 10) && decide (channel < 4)
  | .vddSafeReturn _ => true
  | .busMasterEnable _ width speed c => decide (width < 8) && decide (speed < 16) && decide (c.mps < 3) && decide (c.mrrs < 6)
      && decide (c.ctoRange < 16) && c.bar0 % 0x4000000 == 0 && c.bar2 % 0x4000 == 0 && decide (c.bar0 < 2 ^ 64) && decide (c.bar2 < 2 ^ 64)
  | .reservedOpcode c => decide (c < 4)
  | .treadleMessageDiscarded m pos => m.length == 64 && decide (pos < 512)
  | .darkRegisterRead addr _ => addrWf addr
  | .corePllLoss => true
  | .cutIneffective => true
  | .vddSafeLoss => true
  | .resetRelease => true

end Sys2Proof
end

