-- ==== Sys2Proof/Tests/Slice0.lean ====
section
/-! SUPPORT. Tests/Slice0.lean: ill-formed commands that WellFormed refuses, and for every statement of the obligations a state
and operands that meet its hypotheses, clause by clause, on which its conclusion holds. A theorem `witness_<Name>` lists one
Boolean per clause: its hypotheses and its conclusion on the named state. -/

namespace Sys2Proof.Tests

set_option Elab.async false

open Sys2Proof Sys2Proof.Machine

/-- What a command answers satisfies `p`. -/
def after (c : Instr) (s : State) (p : State → Bool) : Bool :=
  match exec c s with
  | .next t => p t
  | _ => false

/-- The command answers exactly `t`. -/
def gives (c : Instr) (s t : State) : Bool := after c s (fun u => decide (u = t))

/-- The invariant, as a Boolean. -/
def okI (s : State) : Bool := s.tablesWf && s.countersWf

/-- `t` has one more report than `s`, with this source and code. -/
def raised (s t : State) (source code : Nat) : Bool :=
  t.selvedge.waiting.length == s.selvedge.waiting.length + 1 && t.selvedge.waiting.take s.selvedge.waiting.length == s.selvedge.waiting &&
    match t.selvedge.waiting.getLast? with
    | some r => r.source == source && r.code == code && r.cls == codeClass source code
    | none => false

/-- Every entry of the list holds. -/
def holds (l : List Bool) : Bool := l.all (fun b => b)

/-- After READY, in LISTEN on the core PLL, with registers `r` (staged and in force) and both copies equal. -/
def up (r : List (Nat × Word)) : State :=
  { State.reset with power := { mode := .listen, ready := true, clkPll := true, corePllLock := true }, stg := r, cur := r }

/-! ## WellFormed -/

/-- One ill-formed command for each check. -/
theorem test_wellFormed_refuses : holds
  [ !wellFormed (.regWrite 2 15 0), !wellFormed (.regWrite 0x2000000 15 0), !wellFormed (.strayWrite 16384 15), !wellFormed (.rcRead 0x4005000 15), !wellFormed (.timeCapNsRead 2 15)
  , !wellFormed (.ymgmtRxRead 16 15), !wellFormed (.hostKick 4 15 0), !wellFormed (.abort 16 15), !wellFormed (.skeinCoreReset 4 15 0)
  , !wellFormed (.commitPoint { clocks := 0 }), !wellFormed (.commitPoint { lineCount := some (2 ^ 48) }), !wellFormed (.proofTest 9 0 false)
  , !wellFormed (.shaperRefillTick 128), !wellFormed (.perPickOverrun 14 0 0), !wellFormed (.psyncWindow 0 0 [] false)
  , !wellFormed (.psyncWindow 6220800 0 (List.replicate 24 0) false), !wellFormed (.codewordDecode 0 [] []), !wellFormed (.pmSecondEnd (some (2 ^ 48))), !wellFormed (.pickHeader [] 0)
  , !wellFormed (.reasmTimeout 65536), !wellFormed (.discover [] 0), !wellFormed (.stop (List.replicate 64 0) 512)
  , !wellFormed (.heddleReorderRelease 2048 false), !wellFormed (.flowAgeOut 8388608), !wellFormed (.reedSelect 4 0 false)
  , !wellFormed (.spoolFree 1048576 0), !wellFormed (.spoolFree 0 64), !wellFormed (.gateListStart 32), !wellFormed (.deckLoadDone [[]] false)
  , !wellFormed (.nop { ring := 512, index := 0, word := 0, data := none }), !wellFormed (.nop { ring := 0, index := 65536, word := 0, data := none })
  , !wellFormed (.nop { ring := 0, index := 0, word := 2 ^ 256, data := none }), !wellFormed (.ready { fails := 64 })
  , !wellFormed (.ready { ms := 256 }), !wellFormed (.faultReport (some ⟨0x29, 0, 0, 0, 0, false, 0, 0⟩)), !wellFormed (.pairMarker 0 (4, 0) (0, 0))
  , !wellFormed (.yonovFrameRx 0 { prior := 2 ^ 58 }), !wellFormed (.safetyDeclare 1 1 { pos := List.replicate 9 0 })
  , !wellFormed (.busMasterEnable true 0 0 { mps := 3 }), !wellFormed (.busMasterEnable true 0 0 { bar2 := 4 })
  , !wellFormed (.laneLinkUp false 16 0 0), !wellFormed (.ymgmt 0 (2 ^ 56)), wellFormed .cdrLock ] = true := by
  decide +kernel

/-! ## The whole block -/

theorem witness_StepTakesFrontCommand : holds
  [ (let s := { up [] with pending := [.cdrLock, .burstLatch] }
     match step s, exec .cdrLock { s with pending := [.burstLatch] } with
     | .next a, .next b => decide (a = b)
     | _, _ => false) ] = true := by
  decide +kernel

theorem witness_EmptyQueueStepIsOneClock : holds
  [ (let s := State.reset; s.pending == [] && picksRun s && (match step s with | .next t => t.now == s.now + 1 | _ => false))
  , (let s := { State.reset with power := { inReset := true } }; s.pending == [] && !picksRun s && (match step s with | .next t => decide (t = s) | _ => false)) ] = true := by
  decide +kernel

theorem witness_ReadyStaysUntilReset : holds
  [ after .powerOn (up []) (fun t => !t.power.ready), after .supplyRemoval (up []) (fun t => !t.power.ready)
  , after .resetAssert (up []) (fun t => !t.power.ready) ] = true := by
  decide +kernel

/-- A standing latch that a clearing sequence has been accepted for. -/
def latched : State :=
  { up [] with safety := { State.reset.safety with latch := true, hold := false, reason := 1, clrPending := true } }

theorem witness_LatchLeftOnlyAtCommitOrSupply : holds
  [ latched.safety.latch && after (.commitPoint {}) latched (fun t => !t.safety.latch)
  , (let s := { latched with safety := { latched.safety with vddSafe := false } }; after (.vddSafeReturn true) s (fun t => !t.safety.latch)) ] = true := by
  decide +kernel

theorem witness_FusesOnlyGrow :
    (let s := { up [] with sec := { (up []).sec with custWritten := true, otpArb := 3 } }
     after (.commitPoint {}) s (fun t => t.sec.custWritten && t.sec.otpArb == 3)) = true := by
  decide +kernel

/-- The reset state has the invariant and a step from it answers a next state. -/
theorem witness_StepKeepsInvariant :
    (okI State.reset && match step State.reset with | .next t => okI t | _ => false) = true := by
  decide +kernel

/-- A state with the invariant; the command's answer has it too. -/
theorem witness_CommandsAnswerNext :
    (let s := up []; okI s && after .pwrFailAssert s (fun t => okI t && t.pending == s.pending && decide (s.draws ≤ t.draws))) = true := by
  decide +kernel

theorem witness_CommandsKeepToFootprint :
    (let s := up []; after (.strayWrite 4 15) s (fun t => footprint (.strayWrite 4 15) == [.regs, .cnt, .draws, .selvedge] &&
      t.warp == s.warp && t.host == s.host && t.power == s.power && t.dram == s.dram && t.selvedge != s.selvedge)) = true := by
  decide +kernel

/-- A staged write of a register without a rule of its own comes into force; one of a register with its own rule does not. -/
theorem witness_StagedValuesComeIntoForce : holds
  [ (let a := Reg.timeAsym; let s := { up [] with stg := [(a, 5)] }; okI s && !ownRule a && rd s a == rd (up []) a && rd (stagedAll s) a == 5 && rdS (stagedAll s) a == 5)
  , (let a := Reg.timeIncLo; let s := { up [] with stg := [(a, 1)] }; ownRule a && (rd (stagedAll s) a == rd s a && rdS (stagedAll s) a == rdS s a)) ] = true := by
  decide +kernel

/-! ## Receiver -/

/-- The receiver is enabled, with light. -/
def rxS (w : Warp) : State := { up [(Reg.warpCtrl, 1)] with warp := { w with los := false } }

/-- A pick header with a good CRC: count, map length, message length. -/
def hdrOf (count mapLen msgLen : Nat) : List Byte :=
  let b := beBytes 6 count ++ beBytes 2 (count % 8192) ++ beBytes 2 mapLen ++ beBytes 2 msgLen ++ List.replicate 8 0
  b ++ beBytes 4 (crc32c b)

theorem witness_DetectorsAndFramerTrackLine : holds
  [ (let s := rxS {}; rxOn s && !s.warp.los && gives .cdrLock s { s with warp := { s.warp with cdrLock := true } })
  , (let s := rxS { cdrLock := true, align := .sync }; gives .cdrLockLoss s { s with warp := { s.warp with cdrLock := false } })
  , (let s := rxS { cdrLock := true, align := .presync, cands := [⟨5, 1⟩] }
     gives .cdrLockLoss s { s with warp := { s.warp with cdrLock := false, align := .hunt, cands := [] } })
  , (let s := rxS { below := 3 }; decide (2 * fld s Reg.warpLosCfg 7 0 ≤ 50) &&
     gives (.amplitudeInterval 50) s { s with warp := { s.warp with below := 0
                                                                    above := if 2 * (fld s Reg.warpLosCfg 7 0 + fld s Reg.warpLosCfg 15 8) < 50 then min 64 (s.warp.above + 1) else 0 } })
  , (let s := rxS { below := 3, align := .sync, cands := [⟨5, 1⟩] }; after (.amplitudeInterval 1) s (fun t => t.warp.los && t.warp.lof && t.warp.align == .hunt && t.warp.cands == []))
  , (let s := { rxS { above := 63 } with warp := { above := 63, los := true, lof := true, sd := true } }
     rxOn s && decide (2 * (fld s Reg.warpLosCfg 7 0 + fld s Reg.warpLosCfg 15 8) < 200) &&
     after (.amplitudeInterval 200) s (fun t => !t.warp.los && t.warp.lof && t.warp.sd))
  , (let s := rxS { align := .sync, pos := 7 }; gives (.psyncWindow 8 psync [] false) s s)
  , (let s := { rxS { align := .sync, pos := 7, misses := 1, last := some (4, 0) } with pick := { gen := .locked } }
     gives (.psyncWindow 7 psync [] false) s { s with warp := { s.warp with misses := 0, rx := {}, last := some (4, 1) } })
  , (let s := rxS { align := .sync, pos := 7, misses := 1 }; okI s && decide (fld s Reg.warpAlignCfg 2 0 < popcount 64 (0 ^^^ psync)) &&
     after (.psyncWindow 7 0 [] false) s (fun t => t.warp.misses == 2 && t.warp.align == .sync && cntVal t 0 4 == 1))
  , (let s := { rxS { align := .sync, pos := 7, misses := 2, reasm := [(5, some ⟨[], 0⟩)] } with pick := { gen := .locked } }
     after (.psyncWindow 7 0 [] false) s (fun t => t.warp.align == .hunt && t.warp.lof && t.warp.reasm == [] && t.pick.gen != .locked))
  , (let s := { rxS { align := .presync, cands := [⟨7, 2⟩], cdrLock := true } with stg := [(Reg.pickCtrl, 1), (Reg.warpCtrl, 1)], cur := [(Reg.pickCtrl, 1), (Reg.warpCtrl, 1)] }
     rxOn s && flag s Reg.pickCtrl 0 && headerOk (hdrOf 9 0 0) false && after (.psyncWindow 7 psync (hdrOf 9 0 0) false) s
       (fun t => t.warp.align == .sync && t.warp.pos == 7 && t.warp.cands == [] && !t.warp.lof && t.pick.gen == .locked)) ] = true := by
  decide +kernel

theorem witness_FramerHoldsEightCandidates : holds
  [ (let s := rxS { cdrLock := true, cands := [⟨1, 1⟩] }; okI s && gives (.psyncWindow 7 psync [] false) s { s with warp := { s.warp with cands := [⟨1, 1⟩, ⟨7, 1⟩] } })
  , (let cs : List Cand := [⟨1, 2⟩, ⟨2, 1⟩, ⟨3, 1⟩, ⟨4, 1⟩, ⟨5, 1⟩, ⟨6, 1⟩, ⟨7, 1⟩, ⟨8, 1⟩]
     let s := rxS { cdrLock := true, cands := cs }
     after (.psyncWindow 9 psync [] false) s (fun t => fld t Reg.warpAlignStat 15 8 == 1 && t.warp.cands == cs.erase ⟨2, 1⟩ ++ [⟨9, 1⟩]))
  , (let cs := (List.range 8).map (fun n => (⟨n, 2⟩ : Cand))
     let s := rxS { cdrLock := true, cands := cs }
     after (.psyncWindow 9 psync [] false) s (fun t => fld t Reg.warpAlignStat 15 8 == 1 && t.warp.cands == cs)) ] = true := by
  decide +kernel

theorem witness_PickContentsCountAndCheck : holds
  [ (let s := rxS { align := .sync, rx := { next := 1 } }; okI s && rxOn s && s.power.mode != .doze && decoded s 1 [0] == some 0)
  , (let s := rxS { align := .sync, rx := { next := 479 } }; domOn s 8 && decoded s 479 [] == none && after (.codewordDecode 479 [] []) s (fun t =>
       t.warp.rx.next == 480 && cntVal t 0 2 == 1 && cntVal t 0 3 == 0 && t.warp.rx.poison == [479] && t.weft.rei == 1))
  , (let s := rxS {}; decoded s 1 [1, 0] == some 0 && codeOk 576 0 && !codeOk 576 1)
  , (let s := rxS { align := .sync, last := some (8, 1) }; let h := hdrOf 9 512 256
     warpOk s && headerOk h (poisoned s.warp.rx 8 24) && after (.pickHeader h 0) s (fun t => t.warp.rx.ok && t.warp.rx.count == 9 &&
       t.warp.rx.mapLen == 512 && t.warp.rx.msgLen == 256 && t.warp.last == some (9, 0) && t.pick == s.pick))
  , (let s := rxS { align := .sync, reasm := [(5, some ⟨[], 0⟩)] }; okI s && !headerOk [] false && after (.pickHeader [] 0) s (fun t =>
       !t.warp.rx.ok && t.warp.rx.walk == none && t.warp.reasm == [] && cntVal t 0 5 == 1 && cntVal t 0 13 == 1))
  , (let s := rxS { reasm := [(5, some ⟨[], 16⟩)] }; decide (fld s Reg.warpReasmCfg 3 0 < 16) &&
     after (.reasmTimeout 5) s (fun t => t.warp.reasm == [] && cntVal t 0 13 == 1))
  , (let s := { rxS { pm := { bits := 5, cw := 4, ucw := 1, hdr := 1, ended := 0 } } with pick := { count := 7999 } }
     framerOn s && comingCount s none % 8000 == 0 && s.warp.pm.ended != s.pick.commits + 1 && after (.pmSecondEnd none) s (fun t =>
       rd t Reg.warpBerBits == 5 && rd t Reg.warpBerCw == 4 && t.warp.pm.bits == 0 && t.warp.pm.ended == 1)) ] = true := by
  decide +kernel

/-- In SYNC, the pick's header accepted, the walk at the partition's start. -/
def walkS : State := rxS { align := .sync, rx := { ok := true, walk := some 32, checked := true, mapLen := 1, msgLen := 4, count := 9 } }

theorem witness_ClpFrameWalksPartition : holds
  [ (let d := clpHeader 0 0xFFFF 0 true 0 false; clpOk (beAt d 0 8) && gives (.clpFrame d none) walkS (setWalk walkS (some 40)))
  , (let d := clpHeader 8 5 0 true 0 false ++ List.replicate 8 1
     gives (.clpFrame d none) walkS (dropContext (count (setWalk walkS (some 48)) 0 10) 5))
  , (let s := { walkS with act := { walkS.act with streams := [(5, some ⟨0, 0, 0⟩)], st := .woven }, stg := [(Reg.warpCtrl, 1), (Reg.secCtrl, 1)], cur := [(Reg.warpCtrl, 1), (Reg.secCtrl, 1)] }
     let d := clpHeader 8 5 0 true 0 false ++ List.replicate 8 1
     domOn s 19 && after (.clpFrame d none) s (fun t =>
       match cipher0 (countBy (count (setWalk s (some 48)) 0 6) 0 7 8) (clpAt 32 d 0).hdr 5 false 0 (List.replicate 8 1) 9 32 with
       | (some p, _, v) => v.act.st == .woven && decide (t = heddleInput v { data := p, srcType := 2, stream := 5 })
       | _ => false))
  , (let s := { walkS with act := { walkS.act with streams := [(5, some ⟨0, 0, 0⟩)] }, stg := [(Reg.warpCtrl, 1), (Reg.secCtrl, 1)], cur := [(Reg.warpCtrl, 1), (Reg.secCtrl, 1)] }
     let d := clpHeader 8 5 0 true 0 false ++ List.replicate 8 1
     s.act.st != .woven && after (.clpFrame d none) s (fun t => t.heddle == s.heddle && t.warp.rx.walk == some 48))
  , (let s := { walkS with act := { walkS.act with streams := [(5, some ⟨0, 0, 0⟩)] }, stg := [(Reg.warpCtrl, 1), (Reg.secCtrl, 1)], cur := [(Reg.warpCtrl, 1), (Reg.secCtrl, 1)] }
     let d := clpHeader 8 5 0 false 0 false ++ List.replicate 8 1
     domOn s 19 && unitOk s 0x15 && after (.clpFrame d none) s (fun t => t.warp.reasm == [(5, some ⟨List.replicate 8 1, 0⟩)])) ] = true := by
  decide +kernel

/-- A grant of a map with its GCRC. -/
def grantOf (container start len : Nat) : List Byte :=
  let b := beBytes 2 (4 * container + 2) ++ beBytes 2 start ++ beBytes 2 len ++ [0]
  b ++ beBytes 1 (crcOf 8 0x07 0xFF b)

theorem witness_WeftMapFormsBursts : holds
  [ (let s := walkS; domOn s 8 && unitOk s 6 && unitOk s 7 && okI s && after (.weftMap []) s (fun t => t.warp.rx.mapped && cntVal t 1 0 == 1 && cntVal t 1 7 == 1
       && t.safety == { s.safety with windows := (safetyWindows s [] :: s.safety.windows).take 8 }))
  , (let s := { up [(Reg.warpCtrl, 1), (Reg.weftCont 3, 0x80000400)] with warp := walkS.warp, act := { State.reset.act with st := .woven, tid := some 5 } }
     let m := grantOf 1024 48582 18
     let g : Grant := ⟨1024, true, false, 48582, 18, 0⟩
     rxOn s && intactGrants s.warp.rx m == [g] && contHeld s 1024 && after (.weftMap m) s (fun t =>
       match t.weft.bursts with
       | [b] => b.grants == [g] && b.pick == 9 && !b.started && !b.latched &&
           b.rise == 64 * (48582 : Int) - 32 * (fld s Reg.weftPreamble 7 0 : Nat) - 64 - (fld s Reg.weftLaserCfg 7 0 : Nat) &&
           b.fall == 64 * (48600 : Int) + (fld s Reg.weftLaserCfg 15 8 : Nat) && t.weft.last == some (9, fld s Reg.weftEqd 23 0, b.fall)
       | _ => false)) ] = true := by
  decide +kernel

/-- A burst of one grant. -/
def burst1 : Burst :=
  { pick := 9, eqd := 0, pre := 32, tid := 5, key := [], ranging := false, token := none, grants := [⟨1024, true, false, 100, 18, 0⟩], rise := 0, fall := 1 }
/-- The transmitter may send: ACTIVE, LOCKED, WOVEN, grant in use. -/
def txS (b : List Burst) : State :=
  { up [(Reg.warpCtrl, 1), (Reg.weftCtrl, 1)] with
    power := { mode := .active, ready := true, clkPll := true }, pick := { gen := .locked }, act := { State.reset.act with st := .woven, tid := some 5 }
    tension := { State.reset.tension with reqs := [(1, { state := .granted, inUse := true })] }, safety := { State.reset.safety with hold := false, proofOk := true }
    weft := { State.reset.weft with bursts := b, rei := 3 } }

theorem witness_BurstsFillLatchAndEnd : holds
  [ (let s := { txS [burst1] with act := { State.reset.act with st := .ranging } }
     unlatched burst1 && unfilled burst1 && after (.sectionFill 8) s (fun t => t.weft.bursts == [{ burst1 with
       fill := (burstFill burst1).map (fun e => e.2 ++ idleFill (roomLeft e.1 e.2)) }]))
  , (let s := txS [burst1]; after (.sectionFill 0) s (fun t => match t.weft.bursts with
       | [c] => c == { burst1 with fill := c.fill } && c.fill.length == 1
       | _ => false))
  , (let s := txS [burst1]; blockConds s == [] && after .burstLatch s (fun t => match t.weft.bursts with
       | [c] => c.latched && c.header == burstHeader s burst1 && c.rei == 3 && c.grants == burst1.grants && t.weft.rei == 0 && t.safety == s.safety
       | _ => false))
  , (let b := { burst1 with latched := true }; let s := txS [b]; okI s && after .burstStart s (fun t => t.weft.bursts == [{ b with started := true }] &&
       t.safety == { s.safety with enNow := true } && cntVal t 1 2 == 1 && cntVal t 1 3 == 1 && t.out == s.out ++ [.burst 6400 (burstEnd b - 100) b.swing (burstBytes b)]))
  , (let b := { burst1 with latched := true, rei := 4, taken := [⟨0x81, 0, []⟩] }; let s := { txS [b] with pick := {} }; blockConds s == [3] && domOn s 8 && after .burstStart s (fun t =>
       t.weft == { s.weft with bursts := [], rei := 7 } && t.safety == s.safety && t.out == s.out && t.act == { s.act with queue := [⟨0x81, 0, []⟩] } && cntVal t 1 13 == 1))
  , (let b := { burst1 with latched := true, started := true }; let s := txS [b]; gives .burstEnd s { s with weft := { s.weft with bursts := [] }, safety := { s.safety with enNow := false } }) ] = true := by
  decide +kernel
/-! ## Treadle messages -/

/-- A message of 60 bytes sealed with its CRC. -/
def sealMsg (b : List Byte) : List Byte :=
  let x := b ++ List.replicate (60 - b.length) 0
  x ++ beBytes 4 (crc32c x)

/-- First bytes of a message: TID, TYPE, PART and AUTH. -/
def msgHead (tid typ part : Nat) (auth : Bool) : List Byte := beBytes 2 (64 * tid) ++ beBytes 1 typ ++ beBytes 1 (16 * part + (if auth then 8 else 0))

/-- The pick that arrives carries messages; the terminal has ID 5 in state `st`. -/
def msgS (a : Act) : State := { walkS with act := { a with tid := some 5 } }

theorem witness_MessagesStageChanges : holds
  [ (let s := msgS { st := .listening }; let m := sealMsg (msgHead 1023 1 0 false ++ beBytes 4 7 ++ [32, 3] ++ beBytes 3 100 ++ beBytes 2 9)
     msgHere s m 3 && (msgChecks s m 3).isNone && gives (.discover m 3) s (count { s with act := { s.act with
       heId := 7, staged := [.discover 100 32 9] } } 2 0))
  , (let s := msgS { st := .announced }; let m := sealMsg (msgHead 1023 2 0 false ++ beBytes 8 0 ++ beBytes 2 (64 * 1022))
     msgHere s m 0 && (msgChecks s m 0).isNone && gives (.assignTid m 0) s (count (queueAck { s with act := { s.act with
       staged := [.tid 1022] } } 0x02 Ack.done s.warp.rx.count 0 10) 2 0))
  , (let s := msgS { st := .woven }; let m := sealMsg (msgHead 5 0x0B 0 false)
     msgHere s m 0 && (msgChecks s m 0).isNone && gives (.deactivate m 0) s (count { s with act := { s.act with evDeact := true } } 2 0))
  , (let s := msgS { st := .woven }; let m := sealMsg (msgHead 5 0x0C 0 false)
     msgHere s m 0 && (msgChecks s m 0).isNone && gives (.stop m 0) s (count { s with act := { s.act with evStop := true } } 2 0))
  , (let s := msgS { st := .held }; let m := sealMsg (msgHead 5 0x0D 0 false)
     msgHere s m 0 && (msgChecks s m 0).isNone && gives (.release m 0) s (count { s with act := { s.act with evRelease := true } } 2 0))
  , (let s := msgS { st := .announced }; let m := sealMsg (msgHead 5 3 0 false ++ List.replicate 32 1)
     msgHere s m 0 && (msgChecks s m 0).isNone && gives (.challenge m 0) s (count { s with act := { s.act with exch := some { nonce := List.replicate 32 1, isOpen := true, building := true, accepted := 0 } } } 2 0))
  , (let e : Exchange := { nonce := [], isOpen := true, building := false, accepted := 0 }
     let s := { msgS { st := .announced, exch := some e } with pick := { commits := 1 } }; let m := sealMsg (msgHead 5 4 1 false ++ List.replicate 48 1)
     msgHere s m 2 && (msgChecks s m 2).isNone && !repeatsDone s m && gives (.keyAgree m 2) s (count (agreeCheck { s with act := { s.act with exch := some { e with echo := (9, 2), sigA := some (List.replicate 48 1) } } }) 2 0))
  , (let e : Exchange := { nonce := [], isOpen := true, building := false, accepted := 0 }
     let s := { msgS { st := .announced, exch := some e } with pick := { commits := 1 } }; let m := sealMsg (msgHead 5 4 0 false ++ List.replicate 32 1 ++ beBytes 6 20)
     msgHere s m 2 && (msgChecks s m 2).isNone && !repeatsDone s m && gives (.keyAgree m 2) s (count (agreeCheck { s with act := { s.act with exch := some { e with echo := (9, 2), part0 := some (List.replicate 32 1, 20) } } }) 2 0)) ] = true := by
  decide +kernel


theorem slice_length (l : List Byte) (o n : Nat) : (slice l o n).length = n := by
  simp only [slice, List.length_append, List.length_replicate, List.length_take, List.length_drop]; omega

theorem beBytes_length (n x : Nat) : (beBytes n x).length = n := by
  simp only [beBytes, List.length_reverse]
  induction n generalizing x with
  | zero => rfl
  | succ n ih => simp [leBytes, ih]

theorem slice_at (x y z : List Byte) (o n : Nat) (hx : x.length = o) (hy : y.length = n) : slice (x ++ y ++ z) o n = y := by
  subst hx hy
  simp [slice]

theorem beNat_beBytes (k n : Nat) (h : n < 256 ^ k) : beNat (beBytes k n) = n := by
  have h2 : ∀ k n, n < 256 ^ k → leNat (leBytes k n) = n := by
    intro k
    induction k with
    | zero => intro n h; simp at h; simp [leBytes, leNat, h]
    | succ k ih =>
      intro n h
      simp only [leBytes, leNat, ih (n / 256) (by rw [pow_succ] at h; omega), BitVec.toNat_ofNat]
      omega
  have h1 : ∀ (l : List Byte), l.reverse.foldl (fun a b => a * 256 + b.toNat) 0 = leNat l := by
    intro l
    induction l with
    | nil => rfl
    | cons b t ih => simp only [List.reverse_cons, List.foldl_append, ih, List.foldl_cons, List.foldl_nil, leNat]; omega
  rw [beNat, beBytes, h1, h2 k n h]

/-- A message with AUTH, its MIC under `k` and its CRC: 52 bytes of content. -/
def authMsg (k : SessionKeys) (pick pos : Nat) (b : List Byte) : List Byte :=
  let x := b ++ slice (Config.gcmTag (keyOf k.tmkD) (msgIv 0 pick pos (msgTid b)) b []) 0 8
  x ++ beBytes 4 (crc32c x)

theorem authMsg_parts (k : SessionKeys) (pick pos : Nat) (b : List Byte) (hb : b.length = 52) :
    let m := authMsg k pick pos b
    m.length = 64 ∧ m.take 52 = b ∧ slice m 52 8 = slice (Config.gcmTag (keyOf k.tmkD) (msgIv 0 pick pos (msgTid b)) b []) 0 8 ∧
      crc32c (m.take 60) = beAt m 60 4 ∧ (∀ o n, o + n ≤ 52 → slice m o n = slice b o n) ∧ ∀ o, o < 52 → byteAt m o = byteAt b o := by
  intro m
  have hx : (b ++ slice (Config.gcmTag (keyOf k.tmkD) (msgIv 0 pick pos (msgTid b)) b []) 0 8).length = 60 := by
    simp [hb, slice_length]
  refine ⟨?_, ?_, ?_, ?_, ?_, ?_⟩
  · simp only [m, authMsg, List.length_append, hb, slice_length, beBytes_length]
  · simp only [m, authMsg, List.append_assoc]
    rw [List.take_append_of_le_length (by omega), List.take_of_length_le (by omega)]
  · exact slice_at _ _ _ _ _ hb (slice_length _ _ _)
  · simp only [m, authMsg, beAt]
    rw [List.take_append_of_le_length (by omega), List.take_of_length_le (by omega)]
    have := slice_at _ (beBytes 4 (crc32c (b ++ slice (Config.gcmTag (keyOf k.tmkD) (msgIv 0 pick pos (msgTid b)) b []) 0 8))) [] 60 4 hx (beBytes_length _ _)
    rw [List.append_nil] at this
    rw [this, beNat_beBytes]
    unfold crc32c; omega
  · intro o n h
    have h1 : ((m.drop o).take n) = ((b.drop o).take n) := by
      simp only [m, authMsg, List.append_assoc]
      rw [List.drop_append_of_le_length (by omega), List.take_append_of_le_length (by simp [hb]; omega)]
    simp only [slice, h1]
  · intro o h
    simp only [byteAt, m, authMsg, List.append_assoc]
    rw [List.getD_append _ _ _ _ (by omega)]

theorem authMsg_checks (s : State) (k : SessionKeys) (pos : Nat) (b : List Byte) (hb : b.length = 52) (hk : s.act.keys = some k)
    (h : (rxOn s && s.warp.rx.ok && decide (pos < s.warp.rx.msgLen) && unitOk s 0x08 && !msgPoisoned s pos && msgAddressed s b &&
      decide (msgType b ≠ 0) && decide (msgType b ≤ 0x0E) && msgAccepted s b && msgAuth b && authNeeded s (msgType b) && decide (msgType b ≠ 4)) = true) :
    msgHere s (authMsg k s.warp.rx.count pos b) pos = true ∧ msgChecks s (authMsg k s.warp.rx.count pos b) pos = none := by
  obtain ⟨h1, h2, h3, h4, h5, h6⟩ := authMsg_parts k s.warp.rx.count pos b hb
  have e1 : msgType (authMsg k s.warp.rx.count pos b) = msgType b := h6 2 (by omega)
  have e2 : msgTid (authMsg k s.warp.rx.count pos b) = msgTid b := by simp only [msgTid, beAt, h5 0 2 (by omega)]
  have e3 : beAt (authMsg k s.warp.rx.count pos b) 4 8 = beAt b 4 8 := by simp only [beAt, h5 4 8 (by omega)]
  have e4 : byteAt (authMsg k s.warp.rx.count pos b) 3 = byteAt b 3 := h6 3 (by omega)
  have e5 : msgAddressed s (authMsg k s.warp.rx.count pos b) = msgAddressed s b := by simp only [msgAddressed, e1, e2, e3]
  simp only [Bool.and_eq_true, decide_eq_true_eq, Bool.not_eq_true'] at h
  obtain ⟨⟨⟨⟨⟨⟨⟨⟨⟨⟨⟨a1, a2⟩, a3⟩, a4⟩, a5⟩, a6⟩, a7⟩, a8⟩, a9⟩, a10⟩, a11⟩, a12⟩ := h
  have e6 : msgAccepted s (authMsg k s.warp.rx.count pos b) = msgAccepted s b := by
    unfold msgAccepted
    rw [e1]
    split <;> first | rfl | (rename_i x; exact absurd x a12)
  constructor
  · simp [msgHere, a1, a2, a3, h1]
  · simp [msgChecks, a4, a5, h4, e5, a6, e1, a7, e6, a9, authOk, a11, msgAuth, e4, hk, h2, h3, e2]
    have a10' : (byteAt b 3).testBit 3 = true := a10
    rw [if_neg (by omega), a10']
    rfl

def ksW : SessionKeys := { tmkD := { data := [1] }, tmkU := { data := [2] }, kek := { data := [3] } }
/-- WOVEN (or `st`) with session keys. -/
def authS (st : ActSt) : State := msgS { st := st, keys := some ksW }
def pad52 (l : List Byte) : List Byte := l ++ List.replicate (52 - l.length) 0

/-- DOZE_ACK, SET_EQD, ASSIGN_CONTAINER, KEY_SWITCH and ASSIGN_STREAM as the head end sends them. -/
theorem witness_MessagesStageChanges_auth :
    (let b := pad52 (msgHead 5 0x0E 0 true ++ [0x80]); let m := authMsg ksW 9 0 b
     msgHere (authS .woven) m 0 = true ∧ msgChecks (authS .woven) m 0 = none ∧ msgType m = 0x0E) ∧
    (let b := pad52 (msgHead 5 5 0 true ++ beBytes 3 70 ++ [32] ++ beBytes 6 20); let m := authMsg ksW 9 0 b
     msgHere (authS .woven) m 0 = true ∧ msgChecks (authS .woven) m 0 = none ∧ msgType m = 5 ∧ 32 ≤ byteAt m 7 ∧ effectiveAt 9 (beAt m 8 6) = some 20) ∧
    (let b := pad52 (msgHead 5 6 0 true ++ beBytes 2 1024 ++ beBytes 6 20); let m := authMsg ksW 9 0 b
     msgHere (authS .woven) m 0 = true ∧ msgChecks (authS .woven) m 0 = none ∧ msgType m = 6 ∧ beAt m 4 2 / 16384 = 0 ∧ 1024 ≤ beAt m 4 2 % 16384 ∧ beAt m 4 2 % 16384 ≤ 16381 ∧
     contPresent (authS .woven) (beAt m 4 2 % 16384) = false ∧ contCount (authS .woven) < 63 ∧ effectiveAt 9 (beAt m 6 6) = some 20) ∧
    (let s := msgS { st := .woven, keys := some ksW, streams := [(7, some ⟨0, 0, 0⟩)] }
     let b := pad52 (msgHead 5 7 0 true ++ beBytes 2 7 ++ [0x60, 4, 0] ++ beBytes 6 20); let m := authMsg ksW 9 0 b
     msgHere s m 0 = true ∧ msgChecks s m 0 = none ∧ msgType m = 7 ∧ bits (byteAt m 6) 7 6 = 1 ∧ beAt m 4 2 ≠ 0xFFFF ∧ (byteAt m 6).testBit 5 = true ∧ (byteAt m 6).testBit 4 = false ∧
     streamActive s (beAt m 4 2) false = true ∧ effectiveAt 9 (beAt m 9 6) = some 20) ∧
    (let s := { authS .woven with sec := { State.reset.sec with keys := [⟨7, true, 1, {}, 0, none⟩] } }
     let b := pad52 (msgHead 5 9 0 true ++ beBytes 2 7 ++ [0x20] ++ beBytes 6 20); let m := authMsg ksW 9 0 b
     msgHere s m 0 = true ∧ msgChecks s m 0 = none ∧ msgType m = 9 ∧ keyLoaded s (beAt m 4 2) true (bits (byteAt m 6) 6 5) = true ∧
     effectiveAt 9 (beAt m 7 6) = some 20) := by
  refine ⟨?_, ?_, ?_, ?_, ?_⟩
  · have h := authMsg_checks (authS .woven) ksW 0 (pad52 (msgHead 5 0x0E 0 true ++ [0x80])) rfl rfl (by decide +kernel)
    exact ⟨h.1, h.2, by decide +kernel⟩
  · have h := authMsg_checks (authS .woven) ksW 0 (pad52 (msgHead 5 5 0 true ++ beBytes 3 70 ++ [32] ++ beBytes 6 20)) rfl rfl (by decide +kernel)
    exact ⟨h.1, h.2, by decide +kernel⟩
  · have h := authMsg_checks (authS .woven) ksW 0 (pad52 (msgHead 5 6 0 true ++ beBytes 2 1024 ++ beBytes 6 20)) rfl rfl (by decide +kernel)
    exact ⟨h.1, h.2, by decide +kernel⟩
  · have h := authMsg_checks (msgS { st := .woven, keys := some ksW, streams := [(7, some ⟨0, 0, 0⟩)] }) ksW 0
      (pad52 (msgHead 5 7 0 true ++ beBytes 2 7 ++ [0x60, 4, 0] ++ beBytes 6 20)) rfl rfl (by decide +kernel)
    exact ⟨h.1, h.2, by decide +kernel⟩
  · have h := authMsg_checks { authS .woven with sec := { State.reset.sec with keys := [⟨7, true, 1, {}, 0, none⟩] } } ksW 0
      (pad52 (msgHead 5 9 0 true ++ beBytes 2 7 ++ [0x20] ++ beBytes 6 20)) rfl rfl (by decide +kernel)
    exact ⟨h.1, h.2, by decide +kernel⟩

/-- A KEY_LOAD: 40 bytes with the wrapped key, then the tag of the wrapping. -/
def keyLoadBody (x : List Byte) : List Byte := x ++ slice (Config.gcmTag (keyOf ksW.kek) (msgIv 2 9 0 5) (x.take 8) (slice x 8 32)) 0 12

theorem witness_KeyExchangeAndAttestation_load :
    let s := msgS { st := .woven, keys := some ksW, streams := [(7, some ⟨0, 0, 0⟩)] }
    let m := authMsg ksW 9 0 (keyLoadBody (msgHead 5 8 0 true ++ beBytes 2 7 ++ [0, 0] ++ List.replicate 32 6))
    msgHere s m 0 = true ∧ msgChecks s m 0 = none ∧ msgType m = 8 ∧
      slice (Config.gcmTag (keyOf ksW.kek) (msgIv 2 9 0 (msgTid m)) (m.take 8) (slice m 8 32)) 0 12 = slice m 40 12 ∧
      streamActive s (beAt m 4 2) false = true ∧ (byteAt m 6).testBit 7 = false ∧ s.sec.keys.length + stagedKeys s < 8192 := by
  intro s m
  have hl : (keyLoadBody (msgHead 5 8 0 true ++ beBytes 2 7 ++ [0, 0] ++ List.replicate 32 6)).length = 52 := by
    rw [keyLoadBody, List.length_append, slice_length]; rfl
  have h := authMsg_checks s ksW 0 _ hl rfl (by decide +kernel)
  obtain ⟨h1, h2, h3, h4, h5, h6⟩ := authMsg_parts ksW 9 0 _ hl
  refine ⟨h.1, h.2, by decide +kernel, ?_, by decide +kernel, by decide +kernel, by decide +kernel⟩
  have e1 : msgTid m = 5 := by decide +kernel
  have e2 : m.take 8 = (keyLoadBody (msgHead 5 8 0 true ++ beBytes 2 7 ++ [0, 0] ++ List.replicate 32 6)).take 8 := by
    rw [← h2, List.take_take]; rfl
  rw [e1, e2, h5 8 32 (by omega), h5 40 12 (by omega)]
  have e3 := slice_at (msgHead 5 8 0 true ++ beBytes 2 7 ++ [0, 0] ++ List.replicate 32 6)
    (slice (Config.gcmTag (keyOf ksW.kek) (msgIv 2 9 0 5) ((msgHead 5 8 0 true ++ beBytes 2 7 ++ [0, 0] ++ List.replicate 32 6).take 8)
      (slice (msgHead 5 8 0 true ++ beBytes 2 7 ++ [0, 0] ++ List.replicate 32 6) 8 32)) 0 12) [] 40 12 rfl (slice_length _ _ _)
  rw [List.append_nil] at e3
  rw [keyLoadBody, e3]
  rfl

/-- Exchanges and timers. -/
theorem witness_KeyExchangeAndAttestation : holds
  [ (let e : Exchange := { nonce := [1], isOpen := true, building := true, accepted := 0, facts := some ([], []) }
     let s := { up [] with act := { State.reset.act with st := .announced, exch := some e }, sec := { State.reset.sec with trngOk := true } }
     trngGives s && s.sec.idJob.isNone && decide (s.act.queue.length ≤ 25) && after .attestRecordReady s (fun t => t.act.queue.length == 7 && t.draws == 1 &&
       (match t.act.exch with | some e => !e.building && e.nonce == [1] && e.priv.length == 32 | none => false)))
  , (let e : Exchange := { nonce := [1], isOpen := true, building := false, accepted := 0, z := some [4], part0 := some ([5], 20), echo := (9, 2) }
     let s := { up [] with act := { State.reset.act with st := .announced, exch := some e }, sec := { State.reset.sec with trngOk := true } }
     trngGives s && s.sec.idJob.isNone && after .keyDerivationDone s (fun t => t.act.evKeyed.isSome && t.act.queue.length == 1 && match t.act.exch with | some e => !e.isOpen && e.priv == [] && e.z == none && e.donePub == some [5] && e.doneAt == 1 | none => false))
  , (let e : Exchange := { nonce := [1], isOpen := true, building := false, accepted := 0, z := some [4], part0 := some ([5], 20), echo := (9, 2) }
     let s := { up [] with act := { State.reset.act with st := .woven, exch := some e }, sec := { State.reset.sec with trngOk := true } }
     trngGives s && effectiveAt s.pick.count 20 == some 20 && after .keyDerivationDone s (fun t => t.act.changes.length == 1 && t.act.queue.length == 1)) ] = true := by
  decide +kernel

/-- A session with streams, keys, a pending change. -/
def sessS (a : Act) : State :=
  { up [] with act := { a with tid := some 5, keys := some ksW, streams := [(7, some ⟨0, 0, 0⟩)], changes := [⟨9, .eqd 0 0 false⟩] }
               sec := { State.reset.sec with keys := [⟨7, true, 1, {}, 0, none⟩] } }

def erased (s t : State) : Bool :=
  t.act.tid == none && t.act.keys == none && t.act.exch == none && t.act.changes == [] && t.act.streams == [] && t.sec.keys == [] && cntVal t 2 10 == cntVal s 2 10 + 1

theorem witness_TimersEndDiscardsCount : holds
  [ (let s := sessS { st := .announced, tAnnounce := some 65535 }; expired s.act.tAnnounce (fld s Reg.actTimer0 15 0) && okI s &&
     after .tAnnounceExpiry s (fun t => erased s t && t.act.st == .listening && t.act.attempts == 1))
  , (let s := sessS { st := .announced, tKey := some 65535 }; expired s.act.tKey (fld s Reg.actTimer0 31 16) &&
     after .tKeyExpiry s (fun t => erased s t && t.act.st == .listening && t.act.attempts == 1))
  , (let s := sessS { st := .ranging, tRange := some 65535, attempts := 255 }; expired s.act.tRange (fld s Reg.actTimer1 15 0) &&
     after .tRangeExpiry s (fun t => erased s t && t.act.st == .listening && t.act.attempts == 255))
  , (let s := sessS { st := .ranging, tRange := some 65535 }; let s := { s with act := { s.act with changes := [⟨0, .eqd 70 33 true⟩] } }
     wovenDue s && gives .tRangeExpiry s s)
  , (let s := sessS { st := .lapsed, tLapse := some 65535, attempts := 2 }; expired s.act.tLapse (fld s Reg.actTimer1 31 16) &&
     after .tLapseExpiry s (fun t => erased s t && t.act.st == .dark && t.act.attempts == 2))
  , (let s := sessS { st := .listening, armed := some 0 }; after .armExpiry s (fun t => t.act.armed == none && t.act.st == .listening && t.act.tid == some 5))
  , (let s := { up [] with act := { State.reset.act with st := .ranging, changes := [⟨9, .eqd 70 33 true⟩] }, pick := { count := 9 } }
     reached 9 9 && after .effectiveChange s (fun t => t.act.changes == [] && t.act.eqd == 70 && t.act.pre == 33 && t.act.st == .woven))
  , (let s := { msgS { st := .woven } with selvedge := { State.reset.selvedge with units := [(8, { st := .recovering })] } }; let m := sealMsg (msgHead 5 0x0B 0 false)
     msgHere s m 0 && !unitOk s 8 && gives (.treadleMessageDiscarded m 0) s (count s 2 7))
  , (let s := msgS { st := .woven }; let s := { s with warp := { s.warp with rx := { s.warp.rx with poison := [0] } } }; let m := sealMsg (msgHead 5 0x0B 0 false)
     msgPoisoned s 0 && gives (.treadleMessageDiscarded m 0) s (count s 2 2))
  , (let s := msgS { st := .woven }; let m := List.replicate 64 0; decide (crc32c (m.take 60) ≠ beAt m 60 4) && gives (.treadleMessageDiscarded m 0) s (count s 2 1))
  , (let s := msgS { st := .woven }; let m := sealMsg (msgHead 6 0x0B 0 false); !msgAddressed s m && gives (.treadleMessageDiscarded m 0) s s)
  , (let s := msgS { st := .woven }; let m := sealMsg (msgHead 5 0x0F 0 false); msgAddressed s m && gives (.treadleMessageDiscarded m 0) s (count s 2 3))
  , (let s := msgS { st := .listening }; let m := sealMsg (msgHead 5 0x0E 0 false); !msgAccepted s m && gives (.treadleMessageDiscarded m 0) s (count s 2 4))
  , (let s := msgS { st := .woven }; let m := sealMsg (msgHead 5 0x0E 0 false); msgAccepted s m && !authOk s m 0 && gives (.treadleMessageDiscarded m 0) s (count s 2 5)) ] = true := by
  decide +kernel

/-! ## Host access -/

/-- Domain `d` is off. -/
def dark (s : State) (d : Nat) : State := { s with power := { s.power with isOn := 0xFFFFFFFF - 2 ^ d } }

/-- Register `a` reads the same, staged and in force. -/
def same (s t : State) (a : Nat) : Bool := rd t a == rd s a && rdS t a == rdS s a

theorem witness_CounterReadsHoldAndClear : holds
  [ (let a := Reg.warpCntLo 0; let s := { up [] with cnt := [(0, 2 ^ 32 + 7), (1, 3)] }
     okI s && s.hostReaches a && cntReg s a == some (a, some 0) && after (.counterLoRead a 15) s (fun t =>
       t.hostRead == 7 && sget 0 t.hold a == 1 && t.cnt == [(1, 3)] && t.sat == s.sat && t.stg == s.stg && t.cur == s.cur))
  , (let a := Reg.reedCntLo 6; let s := up []; let k := (reedSelKey s 6).getD 0
     cntReg s a == some (a, some k) && after (.counterLoRead a 15) { s with cnt := [(k, 9)] } (fun t => t.hostRead == 9 && sget 0 t.cnt k == 0))
  , (let lo := Reg.warpCntLo 0; let s := { up [] with hold := [(lo, 5)] }
     s.hostReaches (lo + 4) && cntReg s (lo + 4) == some (lo, some 0) && gives (.rcRead (lo + 4) 15) s { s with hostRead := 5 }) ] = true := by
  decide +kernel

theorem witness_HostReadsReturn : holds
  [ (let s := { up [] with pick := { count := 2 ^ 40 + 9 } }; domOn s 3 && after (.pickCountLoRead 15) s (fun t =>
       t.hostRead == 9 && sget 0 t.hold Reg.pickCountLo == 2 ^ 8 && t.pick == s.pick && t.cnt == s.cnt))
  , (let s := { up [] with time := { State.reset.time with tod := ((2 ^ 33 + 5) * 10 ^ 9 + 17) * nsUnit + 3 } }; domOn s 22 && after (.timeNowNsRead 15) s (fun t =>
       t.hostRead == 17 && rdS t Reg.timeNowSecLo == 5 && rdS t Reg.timeNowSecHi == 2 && rdS t Reg.timeNowFrac == todFrac s.time.tod && t.time == s.time))
  , (let s := up []; gives (.timeCapNsRead 1 15) s { s with hostRead := 0xFFFFFFFF })
  , (let c := (5 * 10 ^ 9 + 17) * nsUnit; let s := { up [] with time := { State.reset.time with cap1 := [c, 1] } }
     capFifo s 1 == [c, 1] && after (.timeCapNsRead 1 15) s (fun t => t.hostRead == 17 && capFifo t 1 == [1] && rdS t (Reg.timeCapSecLo 1) == 5 && rdS t (Reg.timeCapSecHi 1) == 0))
  , (let s := up [(Reg.dramEcc, 0x00010002)]; after (.rcRead Reg.dramEcc 3) s (fun t => t.hostRead == BitVec.ofNat 32 (rdS s Reg.dramEcc &&& byteMask 3) && rdS t Reg.dramEcc == 0 && rd t Reg.dramEcc == 0))
  , (let s := up []; gives (.rcRead 0x4000000 15) s { s with hostRead := 0 } && gives (.rcRead 0x4003FFC 1) s { s with hostRead := 0 })
  , (let s := dark (up []) 6; let a := Reg.warpReasmCfg; (findRow a).isSome && !domOn s (regDomain s a) && after (.darkRegisterRead a 15) s (fun t =>
       t.hostRead == 0xD0FFD0FF && raised s t (regSource s a) 2 && t.hold == s.hold)) ] = true := by
  decide +kernel

theorem witness_HostWritesStage : holds
  [ (let s := up []; let a := Reg.timeAsym; s.hostReaches a && after (.regWrite a 7 9) s (fun t => raised s t (regSource s a) 1 && same s t a && same s t Reg.weftCtrl))
  , (let s := up []; findRow 0x00000FFC == none && after (.regWrite 0x00000FFC 15 9) s (fun t => raised s t 0x1D 1))
  , (let s := dark (up []) 22; let a := Reg.timeAsym; domOn s (regDomain s a) == false && after (.regWrite a 15 9) s (fun t => raised s t (regSource s a) 2 && same s t a))
  , (let s := up []; let a := Reg.timeAsym; after (.regWrite a 15 0xFFFFFFFF) s (fun t => rdS t a == 0xFFFFFFFF && rd t a == rd s a && same s t Reg.timeStepThresh && t.selvedge == s.selvedge))
  , (let s := up []; let a := Reg.timeStepThresh; after (.regWrite a 15 5) s (fun t => rdS t a == 5 && rd t a == rd s a && same s t Reg.timeAsym && t.selvedge == s.selvedge))
  , (let s := up []; domOn s 6 && after (.regWrite Reg.warpReasmCfg 15 15) s (fun t => fldS t Reg.warpReasmCfg 3 0 == 15 && rd t Reg.warpReasmCfg == rd s Reg.warpReasmCfg && t.selvedge == s.selvedge))
  , (let s := up []; fldS s Reg.warpReasmCfg 3 0 != 0 && after (.regWrite Reg.warpReasmCfg 15 0) s (fun t => same s t Reg.warpReasmCfg && raised s t 5 1))
  , (let s := up []; hostReach s && after (.strayWrite 0x3FFC 15) s (fun t => raised s t 0x1D 3 && same s t Reg.timeAsym))
  , (let s := up []; after (.strayWrite 4 7) s (fun t => raised s t 0x1D 1 && same s t Reg.timeAsym)) ] = true := by
  decide +kernel

theorem witness_RegisterWritesAct : holds
  [ (let i : PmInterval := { id := 1, valid := true, suspect := true, start := 2 ^ 33 + 4, bins := [1, 2, 3, 4, 5, 6, 7, 8, 9] }
     let s := rxS { pm := { shot := [i] } }
     hostReach s && domOn s 6 && after (.warpPmSelWrite 15 0) s (fun t =>
       rdS t Reg.warpPmStartLo == 4 && rdS t Reg.warpPmStartHi == 2 && (List.range 9).all (fun k => rdS t (Reg.warpPmData k) == i.bins.getD k 0) &&
       (rdS t Reg.warpPmFlags).testBit 31 && (rdS t Reg.warpPmFlags).testBit 30 && t.warp == s.warp))
  , (let s := rxS {}; after (.warpPmSelWrite 15 18) s (fun t => let i := s.warp.pm.shot.getD 18 {}
       rdS t Reg.warpPmStartLo == i.start % 2 ^ 32 && (rdS t Reg.warpPmFlags).testBit 31 == i.valid && t.warp == s.warp))
  , (let s := { up [(Reg.pickCtrl, 1)] with pick := { gen := .locked, lockPending := true }, weft := { State.reset.weft with bursts := [{ burst1 with started := true }, burst1] } }
     (rdS s Reg.pickCtrl).testBit 0 && after (.lockEnClear 15) s (fun t => t.pick.gen == .flywheel && !t.pick.lockPending && t.weft.bursts == [{ burst1 with started := true }] && t.warp == s.warp))
  , (let s := up []; after (.rxEnWrite 15 0xF) s (fun t => flag t Reg.warpCtrl 0 && fld t Reg.warpCtrl 3 1 == fld s Reg.warpCtrl 3 1 && fldS t Reg.warpCtrl 3 1 == 7))
  , (let s := { up [] with power := { mode := .calibrate, ready := true } }; !flag s Reg.warpCtrl 0 && after (.rxEnWrite 15 1) s (fun t => !flag t Reg.warpCtrl 0 && raised s t 5 1))
  , (let s := setBit (up []) Reg.weftStat 7; domOn s 8 && !s.power.pwrFail && flag s Reg.weftStat 7 && after (.dgLatchClear 15 false) s (fun t => !flag t Reg.weftStat 7 && !(rdS t Reg.weftStat).testBit 7))
  , (let s := setBit (up []) Reg.weftStat 7; after (.dgLatchClear 15 true) s (fun t => flag t Reg.weftStat 7))
  , (let s := up []; after (.actHeldSet 15) s (fun t => t.act.held && t.act.st == s.act.st && !t.act.heldByStop))
  , (let s := { up [] with act := { State.reset.act with held := true, heldByStop := true } }; after (.actHeldSet 15) s (fun t => t.act == s.act))
  , (let s := up []; domOn s 12 && after (.flowStoreEnable 15 0) s (fun t => (rdS t Reg.heddleFlowCtrl).testBit 31 && rd t Reg.heddleFlowCtrl == rd s Reg.heddleFlowCtrl && t.flow == s.flow))
  , (let s := up []; domOn s (macDom (filtSel s / 32)) && after (.macAddrArm 15 0x80001234) s (fun t => t.ports.armed.contains (filtSel s) &&
       sget 0 t.ports.filtS (filtSel s) == 2 ^ 48 + 0x1234 * 2 ^ 32 + sget 0 s.ports.filtS (filtSel s) % 2 ^ 32 && t.ports.filt == s.ports.filt))
  , (let s := { up [] with power := { ready := true, corePllLock := true } }; after (.clockSwitch 15) s (fun t => t.power.clkPll && flag t Reg.globalClkCtrl 0 && t.pick.switched))
  , (let s := { up [] with power := { ready := true } }; after (.clockSwitch 15) s (fun t => !t.power.clkPll && raised s t 0 1)) ] = true := by
  decide +kernel

/-! ## Pick and sweeps -/

theorem witness_CommitPointAdvancesPick : holds
  [ (let s := { up [] with pick := { count := 2 ^ 48 - 1, lockPending := true } }; picksRun s && after (.commitPoint {}) s (fun t =>
       t.pick.count == comingCount s none && t.pick.point == t.pick.count && t.pick.commits == 1 && !t.pick.lockPending && t.pick.headerCount == none && decide (t.pick.applied ≤ 256)))
  , (let s := { up [] with power := { inReset := true } }; !picksRun s && gives (.commitPoint {}) s s) ] = true := by
  decide +kernel

/-- A CQ on ring 1 that runs. -/
def cqRing : Ring := { kind := .cq, state := .run, log2 := 6, base := 0x100000 }
/-- A ring of another kind on CQ 1. -/
def prodRing (k : RingKind) : Ring := { kind := k, state := .run, log2 := 6, base := 0x200000, cq := 1 }
/-- A sweep of groups `g` is due at every point. -/
def sweepS : State :=
  { up [(Reg.pickSweepCtrl, 0x80000000 + 1 * 65536 + 1), (Reg.pickSweepGroups, 1)] with
    host := { State.reset.host with bme := true, rings := [(1, cqRing)] }, cnt := [(0, 5), (cntKey 1 0, 7)] }

theorem witness_SweepsAndOverruns : holds
  [ (let s := sweepS; okI s && sweepDue s (comingCount s none) && cqFree s (fld s Reg.pickSweepCtrl 24 16) != 0 && after (.sweepPoint none) s (fun t =>
       match t.pick.exporting with
       | some x => x.pick == comingCount s none && x.seq == 0 && x.groups == 1 && x.cells == sweepCells s 1 && cntVal t 0 0 == 0 && cntVal t 1 0 == 7 && t.pick.skipped == 0
       | none => false))
  , (let s := { sweepS with pick := { exporting := some ⟨1, 0, 1, 0, false, false, []⟩ } }; after (.sweepPoint none) s (fun t => t.pick == { s.pick with skipped := 1 } && cntVal t 18 0 == 1 && cntVal t 0 0 == 5))
  , (let x : SweepExport := ⟨1, 2 ^ 32 - 1, 1, 0, false, false, [5]⟩; let s := { sweepS with pick := { exporting := some x } }; after .sweepExportDone s (fun t =>
       t.pick == { s.pick with exporting := none, seq := 0 } && rdS t Reg.pickSweepSeq == 2 ^ 32 - 1 &&
       t.out == [.hostWrite (sweepAddr s (sweepSlot s x.seq)) (sweepRecord x) false, .completion 1 0 0x100000 true false (sweepEntry s x)]))
  , (let s := { up [] with flow := { State.reset.flow with fullRep := 1 } }; picksRun s && after .repeatStart s (fun t => t.flow == { s.flow with fullRep := 0 } && t == { s with flow := t.flow }))
  , (let s := { sweepS with pick := { skipNext := true } }; after (.sweepPoint none) s (fun t => t.pick == { s.pick with skipped := 1, skipNext := false } && cntVal t 18 0 == 1))
  , (let s := { sweepS with host := { sweepS.host with bme := false } }; cqFree s (fld s Reg.pickSweepCtrl 24 16) == 0 && after (.sweepPoint none) s (fun t =>
       t.pick.skipped == 1 && cntVal t 0 0 == 5)) ] = true := by
  decide +kernel

/-- The overrun of unit `bit` with argument `arg` in `s` sets the bit, reports and leaves the pick generator and activation. -/
def overran (bit arg : Nat) (s : State) (p : State → Bool) : Bool :=
  picksRun s && domOn s (overrunUnit bit).2 && after (.perPickOverrun bit 5 arg) s (fun t =>
    flag t Reg.pickOverrun bit && t.selvedge.waiting == [⟨2, (overrunUnit bit).1, 0x020, 5, (overrunUnit bit).1, 0x020⟩] && t.act == s.act && p t)

theorem witness_SweepsAndOverruns_overruns : holds
  [ (let s := rxS { align := .sync, rx := { next := 3 } }; codewordDue 3 s && overran 0 3 s (fun t => t.warp.rx.poison == [3] && cntVal t 0 2 == 1 && t.pick == s.pick))
  , (let s := rxS { align := .sync }; rxOn s && overran 1 0 s (fun t => t.warp.rx.checked && !t.warp.rx.ok && cntVal t 0 5 == 1))
  , overran 2 0 (up []) (fun t => t.warp.rx.mapped && cntVal t 1 15 == 1)
  , overran 3 4 (up []) (fun t => cntVal t 2 7 == 4)
  , (let s := txS [burst1]; overran 4 0 s (fun t => t.weft.bursts == [{ burst1 with fill := (lateFill burst1).1 }]))
  , overran 5 0 (up []) (fun t => t.weft == (up []).weft)
  , (let s := { up [] with draft := { State.reset.draft with outs := [(5, 1), (260, 2)], lastOuts := [(260, 9)] } }
     overran 6 4 s (fun t => t.draft.outs == [(260, 9)] && cntVal t 13 11 == 16 * 252))
  , overran 6 300 (up []) (fun t => t.draft == { State.reset.draft with lateUp := some 44 })
  , overran 7 0 (up []) (fun t => t.warp.pm.lost), overran 8 0 (up []) (fun t => t.tension.skipReview)
  , (let e : HistEntry := ⟨0, 0, 2, true, 5, 0x11, 0, 32, 5, 0x11, 0, 0, none⟩
     let s := { up [] with pick := { began := 125000, commits := 7 }, selvedge := { State.reset.selvedge with hist := [e] } }
     stormDue s e && overran 9 0 s (fun t => t.selvedge.hist == [{ e with late := some 7 }] && !stormDue t { e with late := some 7 }))
  , overran 11 0 (up []) (fun t => t.pick == { (up []).pick with skipNext := true })
  , (let c : CmdDesc := ⟨2, 0, 0, some []⟩; let s := { up [] with host := { State.reset.host with cmds := [⟨c, false⟩] } }
     overran 13 0 s (fun t => t.host.cmds == [⟨c, true⟩] && t.pick == s.pick))
  , (let x : Flight := { seq := 0, frame := { data := [], gen := 1 }, passes := 1, tag := 0, verdict := .again, pipe := 0 }
     let s := { up [] with heddle := { State.reset.heddle with frozen := true, flights := [x], gen := 2 } }; picksRun s && domOn s 10 && after (.perPickOverrun 10 5 0) s (fun t =>
       !t.heddle.frozen && t.heddle.flights == [] && flag t Reg.pickOverrun 10 && cntVal t 4 17 == 1))
  , (let s := { up [] with safety := { State.reset.safety with hold := false } }; s.safety.vddSafe && !s.safety.latch && domOn s 9 && after (.perPickOverrun 12 5 0) s (fun t =>
       flag t Reg.pickOverrun 12 && t.safety.latch && t.safety.reason == 9 && t.selvedge.waiting.head? == some ⟨3, 0x26, 0x020, 5, 0x26, 0x020⟩)) ] = true := by
  decide +kernel

/-! ## Time -/

theorem witness_TimeLoadsStepsAndFollows : holds
  [ (let s := up []; domOn s 22 && after (.timeLoad 15 1) s (fun t => t.time == { s.time with loadPend := true } && rd t Reg.timeCtrl == rd s Reg.timeCtrl))
  , (let s := { up [] with stg := [(Reg.timeIncLo, rdS (up []) Reg.timeIncLo)] }; let v : Word := BitVec.ofNat 32 (fldS s Reg.timeIncHi 15 0)
     incOk (bits v.toNat 15 0 * 2 ^ 32 + rdS s Reg.timeIncLo) && decide (rdS s Reg.timeIncHi < 2 ^ 16) && after (.timeIncArm 15 v) (up []) (fun t =>
       t.time == { s.time with incArmed := true } && timeInc t == timeInc s && timeIncStaged t == bits v.toNat 15 0 * 2 ^ 32 + rdS s Reg.timeIncLo && t.selvedge == s.selvedge))
  , (let s := up []; !incOk (0 + rdS s Reg.timeIncLo) && fldS s Reg.timeIncHi 15 0 != 0 && after (.timeIncArm 15 0) s (fun t => same s t Reg.timeIncHi && raised s t 9 1))
  , (let s := up [(Reg.timeStepLo, 5)]; after (.hostStep 15 0xFFFFFFFF) s (fun t => t.time == { s.time with hostStep := some (5 - 2 ^ 32) }))
  , (let s := { up [] with time := { State.reset.time with incArmed := true } }; incOk (timeIncStaged s) && timeInc (timeCommit s) == timeIncStaged s)
  , (let s := { up [] with stg := [(Reg.timeIncLo, 0xFFFFFFFF), (Reg.timeIncHi, 0)], time := { State.reset.time with incArmed := true } }
     okI s && !incOk (timeIncStaged s) && timeInc (timeCommit s) == timeInc s && raised s (incIn s) 9 1)
  , (let s := { up [] with time := { State.reset.time with incArmed := false } }; timeInc (timeCommit s) == timeInc s)
  , (let s := { up [(Reg.timeSetSecLo, 2), (Reg.timeSetSecHi, 0), (Reg.timeSetNs, 4)] with time := { State.reset.time with loadPend := true, hostStep := some 9 } }
     (timeCommit s).time.tod == ((fld s Reg.timeSetSecHi 15 0 * 2 ^ 32 + rd s Reg.timeSetSecLo) * 10 ^ 9 + rd s Reg.timeSetNs) * nsUnit % todModulus && (timeCommit s).time.hostStep == none && !(timeCommit s).time.loadPend)
  , (let s := { up [] with time := { State.reset.time with tod := 5, hostStep := some (-1) } }; (timeCommit s).time.tod == todAdd 5 (-(2 ^ 24)) && (timeCommit s).time.hostStep == none)
  , (let s := up []; !flag s Reg.timeStat 2 && let s := { s with time := { s.time with sinceTod := fld s Reg.timeTodTimeout 23 0 } }
     after .holdoverEntry s (fun t => flag t Reg.timeStat 2 && !flag t Reg.timeStat 1 && t.time == { s.time with fresh := true }))
  , (let s := { up [(Reg.timePpsCfg, 0x80000005)] with time := { State.reset.time with run := true, tod := 7 * 10 ^ 9 * nsUnit, lastPps := some 6 } }
     gives .ppsPulse s { s with out := [.pps 7 5], time := { s.time with lastPps := some 7 } })
  , (let s := { up [(Reg.timePpsCfg, 0x80000005)] with time := { State.reset.time with run := true, tod := 7 * 10 ^ 9 * nsUnit, lastPps := some 7 } }
     gives .ppsPulse s (count s 3 12))
  , (let s := { up [(Reg.timeCapCfg, 0xF)] with time := { State.reset.time with tod := 9 } }; after (.tsCapEdge 1 true) s (fun t =>
       capFifo t 1 == [9] && capFifo t 0 == [] && fld t Reg.timeCapStat 7 4 == 1 && cntVal t 3 10 == 1))
  , (let s := { up [(Reg.timeCapCfg, 0xF)] with time := { State.reset.time with tod := 9, cap0 := List.replicate 8 1 } }; gives (.tsCapEdge 0 true) s (count s 3 11)) ] = true := by
  decide +kernel

/-- A usable TOD record of pick 3, EQD_ZERO 10. -/
def todS : State :=
  { msgS { st := .woven } with
    stg := [(Reg.warpCtrl, 1), (Reg.timeEqdZero, 10)], cur := [(Reg.warpCtrl, 1), (Reg.timeEqdZero, 10)]
    time := { State.reset.time with recs := [⟨3, 0, 10, true⟩] } }

/-- TOD: the message, a usable record of its pick, EQD_ZERO set. -/
theorem witness_TimeLoadsStepsAndFollows_follows : holds
  [ (let m := sealMsg (msgHead 5 0x0A 0 false ++ beBytes 6 3 ++ beBytes 6 1 ++ beBytes 4 2 ++ beBytes 4 0)
     msgHere todS m 0 && (msgChecks todS m 0).isNone && msgType m == 0x0A && domOn todS 22 && okI todS &&
       todS.time.recs.find? (fun r => r.pick == beAt m 4 6) == some ⟨3, 0, 10, true⟩ && fld todS Reg.timeEqdZero 23 0 == 10 && timeOn todS &&
       after (.tod m 0) todS (fun t => t.time.todPend.map (·.2) == [3] && t.cur == todS.cur && cntVal t 3 0 == 1 && cntVal t 3 1 == 1 && cntVal t 2 0 == 1))
  , (let m := sealMsg (msgHead 5 0x0A 0 false ++ beBytes 6 4 ++ beBytes 6 1 ++ beBytes 4 2 ++ beBytes 4 0)
     todS.time.recs.find? (fun r => r.pick == beAt m 4 6) == none && gives (.tod m 0) todS (count (count (count todS 3 0) 3 2) 2 0))
  , (let m := sealMsg (msgHead 5 0x0A 0 false ++ beBytes 6 3 ++ beBytes 6 1 ++ beBytes 4 2 ++ beBytes 4 0)
     let s := { todS with time := { todS.time with recs := [⟨3, 0, 11, true⟩] } }
     decide (fld s Reg.timeEqdZero 23 0 < 11) && gives (.tod m 0) s (count (count (count s 3 0) 3 3) 2 0))
  , (let s := up [(Reg.timeCtrl, 2), (Reg.timeStepThresh, 1)]; okI s && let t := todIn s (-65536, 3)
     rd t Reg.timeOfsLo == 2 ^ 32 - 65536 && rd t Reg.timeOfsHi == 2 ^ 32 - 1 && rd t Reg.timeOfsPick == 3 && flag t Reg.timeStat 1 && !flag t Reg.timeStat 2 &&
     t.time == { s.time with sinceTod := 0, fresh := false, autoStep := some (-65536) }) ] = true := by
  decide +kernel

/-! ## Heddle and the flow store -/

/-- `s` with a CMD ring 0 on CQ 1. -/
def withCmd (s : State) : State := { s with host := { s.host with bme := true, rings := [(0, prodRing .cmd), (1, cqRing)] } }

/-- Descriptor 0 of ring 0: CODE, FLAGS, P0, ADDR, LEN, P1, P2, P3, and what its preparation read. -/
def cmdD (code flags p0 addr len p1 p2 p3 : Nat) (data : List Byte) : CmdDesc :=
  ⟨0, 0, code + flags * 2 ^ 8 + p0 * 2 ^ 32 + addr * 2 ^ 64 + len * 2 ^ 128 + p1 * 2 ^ 160 + p2 * 2 ^ 192 + p3 * 2 ^ 224, some data⟩

/-- A command that finishes at once with DONE after the change `f`. -/
def doneBy (c : Instr) (s : State) (d : CmdDesc) (f : State → State) : Bool :=
  gives c s (cmdFinish d s.pick.point Status.done 0 (f (s.cmdTaken d)))

/-- The command completes with status `st`, that is, with one completion entry and, where it is refused, PROG_ERR. -/
def answersOnly (c : Instr) (s : State) (st : Nat) (refused : Bool) : Bool :=
  after c s (fun t => (match t.out with | [.completion 1 _ _ _ _ e] => e.status == st && e.ring == 0 | _ => false) &&
    (if refused then t.selvedge.waiting.length == s.selvedge.waiting.length + 1 else t.selvedge == s.selvedge))

/-- The command also waits in the list of validated commands. -/
def queued (s : State) (d : CmdDesc) : State := { s with host := { s.host with cmds := [⟨d, false⟩] } }

theorem witness_DeckWindowEditsStandby : holds
  [ [Instr.heddleEntWrite 15, .heddleEntRead 15, .invalidate 15, .emInsert 15, .emDelete 15, .clearAll 15].all (fun c =>
     let s := { up [] with heddle := { State.reset.heddle with frozen := true } }; domOn s 10 && after c s (fun u => u.heddle == { s.heddle with result := 1 }))
  , [6 * 2 ^ 24, 5 * 2 ^ 24 + tableSize 5, tableSize 0].all (fun sel => [Instr.heddleEntWrite 15, .heddleEntRead 15, .invalidate 15, .emInsert 15, .emDelete 15].all (fun c =>
     let s := up [(Reg.heddleEntSel, BitVec.ofNat 32 sel)]; okI s && after c s (fun u => u.heddle == { s.heddle with result := 4 })))
  , (let s := up [(Reg.heddleEntSel, 5 * 2 ^ 24 + 65535), (Reg.heddleEntData 0, 7), (Reg.heddleEntData 2, 0x80000000)]
     decide (65535 < tableSize 5) && okI s && after (.heddleEntWrite 15) s (fun u => u.heddle.result == 0 && activeDeck u == activeDeck s &&
       (List.range 3).all (fun k => deckWord (standbyDeck u) 5 65535 k == rdS s (Reg.heddleEntData k)) && standbyDeck u == sput [] (standbyDeck s) (deckKey 5 65535) [7, 0, 0x80000000]))
  , (let s := { up [(Reg.heddleEntSel, 5 * 2 ^ 24)] with heddle := { State.reset.heddle with deckB := [(deckKey 5 0, [1, 2, 3])] } }
     after (.heddleEntRead 15) s (fun u => u.heddle == { s.heddle with result := 0 } && (List.range 3).all (fun k => rdS u (Reg.heddleEntData k) == k + 1)))
  , (let s := { up [(Reg.heddleEntSel, 5 * 2 ^ 24)] with heddle := { State.reset.heddle with deckB := [(deckKey 5 0, [1, 2, 0x80000003])] } }
     deckValid (standbyDeck s) 5 0 && after (.invalidate 15) s (fun u => u.heddle.result == 0 && !deckValid (standbyDeck u) 5 0 && activeDeck u == activeDeck s))
  , (let s := { up [(Reg.heddleEntSel, 5 * 2 ^ 24)] with heddle := { State.reset.heddle with deckA := [(deckKey 5 0, [1])], deckB := [(deckKey 5 0, [1, 2, 3])] } }
     after (.clearAll 15) s (fun u => standbyDeck u == [] && activeDeck u == activeDeck s && u.heddle.result == 0))
  , (let s := up [(Reg.heddleEntSel, 4 * 2 ^ 24), (Reg.heddleEntData 0, 1), (Reg.heddleEntData 5, 9)]; let key := [1, 0, 0, 0, 0]
     exactFind (standbyDeck s) key == none && after (.emInsert 15) s (fun u => match exactFind (standbyDeck u) key with
       | some j => deckWord (standbyDeck u) 4 j 5 == 2 ^ 31 + 9 && fldS u Reg.heddleEntSel 17 0 == j &&
           after (.emInsert 15) { u with stg := (up [(Reg.heddleEntSel, 4 * 2 ^ 24), (Reg.heddleEntData 0, 1), (Reg.heddleEntData 5, 8)]).stg } (fun w =>
             exactFind (standbyDeck w) key == some j && deckWord (standbyDeck w) 4 j 5 == 2 ^ 31 + 8) &&
           after (.emDelete 15) u (fun w => !deckValid (standbyDeck w) 4 j && w.heddle.result == 0 && activeDeck w == activeDeck u)
       | none => false))
  , (let key := [1, 0, 0, 0, 0]; let b := exactBuckets key; let lo := min b.1 b.2; let hi := max b.1 b.2
     let full : Nat → Deck := fun k => (List.range 4).map (fun j => (deckKey 4 (4 * k + j), [0, 0, 0, 0, 0, 2 ^ 31]))
     let s := { up [(Reg.heddleEntSel, 4 * 2 ^ 24), (Reg.heddleEntData 0, 1)] with heddle := { State.reset.heddle with deckB := full lo ++ full hi } }
     lo != hi && exactFind (standbyDeck s) key == none && after (.emInsert 15) s (fun u => u.heddle == { s.heddle with result := 2 }) &&
       after (.emDelete 15) s (fun u => u.heddle == { s.heddle with result := 3 })) ] = true := by
  decide +kernel

/-- A DECK_LOAD record: OP, TABLE, INDEX and three words. -/
def deckRec (op t i w0 w1 w2 : Nat) : List Byte := leBytes 4 (op + 16 * t + 2 ^ 14 * i) ++ List.replicate 12 0 ++ leBytes 4 w0 ++ leBytes 4 w1 ++ leBytes 4 w2

/-- A resolved frame in flight: source, verdict, generation. -/
def flightOf (k : Nat) (v : Verdict) (gen : Nat) : Flight := { frame := { srcId := k, gen := gen }, seq := 1, passes := 1, tag := 0, verdict := v, pipe := 0 }

theorem witness_DecksLoadAndSwap : holds
  [ (let d := cmdD 0x40 0 0 0x1000 64 0 0 0 []; let s := queued (withCmd (up [])) d; s.cmdReady d 0x40 && domOn s 10 &&
     gives (.deckLoad d) s ((setHeddle (s.cmdTaken d) { s.heddle with loading := some (0, 0) }).cmdWorks d))
  , (let s := { withCmd (up []) with heddle := { State.reset.heddle with loading := some (0, 0) } }; let r := [deckRec 1 5 3 1 2 0x80000003]
     after (.deckLoadDone r false) s (fun t => t.heddle.loading == none && activeDeck t == activeDeck s && standbyDeck t == [(deckKey 5 3, [1, 2, 0x80000003])]))
  , (let d := cmdD 0x42 0 0 0x1000 0 0 0 0 (deckRec 1 5 3 1 2 0x80000003); let s := queued (withCmd (up [])) d
     s.cmdReady d 0x42 && applyRecord (activeDeck s) false (cmdData d) == ([(deckKey 5 3, [1, 2, 0x80000003])], 0) && after (.ruleWrite d) s (fun t =>
       t.heddle == { (setActive s [(deckKey 5 3, [1, 2, 0x80000003])]).heddle with ruled := true } && standbyDeck t == standbyDeck s))
  , (let d := cmdD 0x42 0 0 0x1000 0 0 0 0 (deckRec 1 5 3 1 2 0x80000003); let s := { withCmd (up []) with heddle := { State.reset.heddle with swapAsked := true } }
     s.cmdReady d 0x42 && after (.ruleWrite d) s (fun t => t.heddle == s.heddle) && answersOnly (.ruleWrite d) s Status.busy true)
  , (let d := cmdD 0x41 0 0 0 0 0 0 0 []; let s := { withCmd (up []) with heddle := { State.reset.heddle with deckB := [(deckKey 0 0, [0, 0, 0, 0, 0, 0, 2 ^ 31])] } }
     s.cmdReady d 0x41 && deckValid (standbyDeck s) 0 0 && doneBy (.deckSwap d) s d (fun u => setHeddle u { s.heddle with swapAsked := true }))
  , (let s := { up [] with heddle := { State.reset.heddle with frozen := true, swapAge := 1 } }; oldFlights s == [] && gives .deckDrainEnd s { s with heddle := { s.heddle with frozen := false } })
  , (let s := { up [] with heddle := { State.reset.heddle with frozen := true, swapAge := 2, gen := 1, flights := [flightOf 0 .drop 0, flightOf 0 .drop 1] } }; after .deckDrainEnd s (fun t =>
       !t.heddle.frozen && oldFlights t == [] && t.heddle.flights.length == 1 && flag t Reg.pickOverrun 10 && cntVal t 4 17 == 1)) ] = true := by
  decide +kernel

/-- Heddle runs. -/
def hedS (h : Heddle) : State := { up [(Reg.heddleCtrl, 1)] with heddle := h }

theorem witness_FramesPassHeddleInOrder : holds
  [ (let f : Frame := { srcId := 3, data := List.replicate 64 0 }; let s := hedS { fifos := [(3, [f, f])], gen := 7, activeB := true }
     heddleOn s && srcKey f == 3 && okI s && after (.heddlePass true false) s (fun t => t.heddle.fifos == [(3, [f])] && t.heddle.rr == 3 && t.heddle.admitted == 1 && cntVal t 4 0 == 1 &&
       t.heddle.flights.all (fun x => !resolved x && x.frame.gen == 7 && x.frame.deckB)))
  , (let x := flightOf 3 .drop 0; let s := hedS { flights := [flightOf 4 .again 0, x] }; oldestOf s 3 == some x && gives (.heddleReorderRelease 3 false) s (pauseScan (frameGone (count (dropFlight s x) 4 11) x.frame)))
  , (let s := hedS { flights := [flightOf 3 .again 0] }; gives (.heddleReorderRelease 3 false) s (pauseScan s)) ] = true := by
  decide +kernel

/-- The flow store with EN in force, DRAM of 1792 MiB, state `st`. -/
def flowS (f : FlowStore) : State := { up [(Reg.heddleFlowCtrl, 2 ^ 31), (Reg.dramStat, 2 ^ 31 + 1792 * 65536)] with flow := f }

/-- `flowS` with an age limit of one unit. -/
def agedRegs : Sparse Word := [(Reg.heddleFlowCtrl, 2 ^ 31), (Reg.heddleFlowAge, 1), (Reg.dramStat, 2 ^ 31 + 1792 * 65536)]

/-- An entry of key 5. -/
def ent5 : FlowEnt := ⟨5, 0, 0x8000, 9, 0, 0, 0⟩
def line5 (stash : Bool) : FlowLine := ⟨5, 9, false, false, 0, 0, 0, true, stash⟩

theorem witness_FlowStoreResolvesPlacesAges : holds
  [ (let s := flowS { st := .valid, missQ := [4, 5] }; okI s && after (.flowMissResolve 1 true) s (fun t => t.flow == { s.flow with missQ := [4] } &&
       match t.selvedge.waiting with | [r] => r.source == 0x0D && r.code == 0x12 && r.rootSource == 0x0E && r.rootCode == 0x11 | _ => false))
  , (let s := flowS { st := .valid, missQ := [5] }; flowOn s && (storeLookup (setFlow s { s.flow with missQ := [] }) 5).isNone && gives (.flowMissResolve 0 false) s (pauseScan (setFlow s { s.flow with missQ := [] })))
  , (let s := flowS { st := .valid, placeQ := [5], cache := [line5 false] }; flowRegion s == false && match storePlace (setFlow s { s.flow with placeQ := [] }) false 0 (lineEnt (line5 false)) with
     | some u => after .flowPlacement s (fun t => t.dram == u.dram && t.flow.placeQ == [] && t.flow.occ == 1 && cacheFind t 5 == some { line5 false with placing := false } &&
         after (.flowMissResolve 0 false) { t with flow := { t.flow with cache := [], missQ := [5] } } (fun w => w.flow.missQ == [] && cntVal w 5 3 == 1 && w.flow.cache.length == 1) &&
         after (.flowAgeOut (homeSlot 0 5)) { t with stg := agedRegs, cur := agedRegs, pick := { count := 64 } } (fun w => w.flow.cache == [] && w.flow.occ == 0 && cntVal w 5 9 == 1 && w.dram == (storeRemove t false 0 (homeSlot 0 5)).dram))
     | none => false) ] = true := by
  decide +kernel

theorem witness_FlowCommandsManageStore : holds
  [ (let d := cmdD 0x48 1 0 0x1000 0 0 0 0 (entEncode ent5); let s := queued (withCmd (flowS { st := .valid })) d; s.cmdReady d 0x48 && (imageEnt d).key == 5 &&
     gives (.flowInsert d) s ((setFlow (s.cmdTaken d) { s.flow with cache := [{ line5 true with host := true }], placeQ := [5], occ := 1, inserts := [(5, 0, 0, 0)] }).cmdWorks d))
  , (let d := cmdD 0x48 0 0 0x1000 0 0 0 0 (entEncode ent5); let s := withCmd (flowS { st := .valid, cache := [line5 false] })
     (flowPeek s 5).isSome && gives (.flowInsert d) s (cmdFinish d 0 Status.flowExists 0 (s.cmdTaken d)))
  , (let d := cmdD 0x49 0 0 0x1000 0 0 0 0 (entEncode ent5); let s := withCmd (flowS { st := .valid, cache := [line5 false], occ := 1 })
     s.cmdReady d 0x49 && doneBy (.flowDelete d) s d (fun u => count (finishInserts (flowRemove u 5) 5) 5 11))
  , (let d := cmdD 0x4A 0 0 0x1000 0 0 0 0 (entEncode ent5); let s := withCmd (flowS { st := .valid, cache := [line5 false], occ := 1 })
     match flowPeek s 5 with | some e => s.cmdReady d 0x4A && doneBy (.flowRead d) s d (fun u => emit u (.hostWrite 0x1000 (entEncode e) false)) | none => false)
  , (let d := cmdD 0x4B 0 65535 0 0 0 0 0 []; let s := withCmd (flowS { st := .valid }); s.cmdReady d 0x4B && regionFits s true &&
     after (.flowRehash d) s (fun t => t.flow == { s.flow with st := .rehash, newSeed := 65535, job := some (0, 0, 0) } && !flag t Reg.heddleFlowKeep 31))
  , (let s := withCmd (flowS { st := .rehash, newSeed := 65535, scan := flowSlots, job := some (0, 0, 0) }); after .flowRehashDone s (fun t =>
       t.flow == { s.flow with st := .valid, job := none } && flowRegion t && flowSeed t == 65535 && flag t Reg.heddleFlowKeep 31))
  , (let d := cmdD 0x4C 0 0 0 0 0 0 0 []; let s := { withCmd (flowS { st := .invalid, cache := [line5 true], occ := 7 }) with dram := [(0, 1), (0x1FFFFFFF, 1), (0x20000000, 1)] }
     s.cmdReady d 0x4C && flowBase s (flowRegion s) == 0 && after (.flowClear d) s (fun t => t.flow == { s.flow with st := .clearing, job := some (0, 0, 0), occ := 1 } && t.dram == [(0x20000000, 1)]))
  , (let s := { withCmd (flowS { st := .clearing, cache := [line5 true], occ := 1, job := some (0, 0, 0) }) with dram := [(64, 1)] }
     after .flowClearDone s (fun t => t.flow == { s.flow with st := .valid, job := none } && flag t Reg.heddleFlowKeep 31 && t.dram == s.dram)) ] = true := by
  decide +kernel

/-! ## Reed, gates and Spool -/

/-- A queue record for destination `i` of type `t`: enabled, no shaper, weight 1, limits 4096 and 0. -/
def qRec (t i : Nat) : List Nat := [2 ^ 31 + t * 2 ^ 29 + i, 0x7FF0001, 4096, 0, 0, 0]

def frame64 : Frame := { data := List.replicate 64 0 }

/-- Reed on, queue 5 for destination (`t`, `i`) holds one frame. -/
def queueS (t i : Nat) (r : List (Nat × Word)) : State :=
  { up ([(Reg.reedCtrl, 1)] ++ r) with reed := { State.reset.reed with qrec := [(5, qRec t i)], queues := [(5, { items := [⟨frame64, 0, 0, none, false⟩] })] } }

/-- The selection gives queue `q`, item `i` and the state `k` continues with. -/
def picks (x : Option (Nat × QItem) × State) (k : Nat → QItem → State → State) : Option State :=
  match x with
  | (some (q, i), u) => some (k q i u)
  | (none, _) => none

def givesO (c : Instr) (s : State) (t : Option State) : Bool := match t with | some t => gives c s t | none => false

/-- Lane `n` in mode 10, UP and locked. -/
def yonS (n : Nat) (s : State) (x : Lane) : State :=
  { s with stg := s.stg ++ [(Reg.laneCfg n, 10 * 65536)], cur := s.cur ++ [(Reg.laneCfg n, 10 * 65536)], ports := { s.ports with lanes := [(n, x)] } }

/-- MAC 2 enabled with link, MAX_LEN 2000, bound by lane 2 in mode 1. -/
def macS (s : State) (x : MacU) : State :=
  { s with stg := s.stg ++ [(Reg.macCfg 2, 2 ^ 31 + 2000), (Reg.laneCfg 2, 65536)], cur := s.cur ++ [(Reg.macCfg 2, 2 ^ 31 + 2000), (Reg.laneCfg 2, 65536)]
           ports := { s.ports with lanes := [(2, { st := .up, lock := true })], macs := [(2, { x with link := true })] } }

/-- Every frame in queue 5 holds buffer 3, whose state is `b`. -/
def inBuf (s : State) (b : Bool) : State :=
  { s with reed := { s.reed with queues := [(5, { items := [⟨{ frame64 with handle := 3 }, 0, 0, none, false⟩] })] }
           spool := { s.spool with pools := [(8, 16)], bufs := [(3, { st := .held, owner := 0, bad := b, badBy := 0x10 })] } }

/-- MAC 2 with MAX_LEN `n` in force. -/
def maxLen (n : Nat) (s : State) : State :=
  { s with stg := sput 0 s.stg (Reg.macCfg 2) (BitVec.ofNat 32 (2 ^ 31 + n)), cur := sput 0 s.cur (Reg.macCfg 2) (BitVec.ofNat 32 (2 ^ 31 + n)) }

/-- Selection for ring `r`. -/
def ringPol (r : Nat) : SelPolicy := { part := fun _ _ _ => true, only := fun s _ i => rxFree s r i.frame.data.length, gone := circuitGone }

/-- Host ring 511 is a producer ring of CQ 1 with one posted buffer of 2048 bytes. -/
def rxRingS (s : State) : State := { s with host := { State.reset.host with bme := true, rings := [(1, cqRing), (511, { prodRing .rx with posted := [(0, 0x3000, 2048)] })] } }

theorem witness_SelectedFramesLeave : holds
  [ (let s := yonS 15 (queueS 1 15 []) { st := .up, lock := true }; yonovOn s 15 && [false, true].all (fun same =>
       givesO (.reedSelect 1 15 same) s (picks (reedTake { part := fun _ _ _ => true, only := fun _ _ _ => true, gone := circuitGone } (destKey 1 15) same s)
         (fun q i u => let v := queueLeft u q i.frame
           let x := sendBlock (sendBlock (sendYmgmt v 15) 15 2 (ystartBlock 64)) 15 1 (slice (frameRead (sendBlock (sendYmgmt v 15) 15 2 (ystartBlock 64)) i.frame) 0 8)
           pauseScan (setLane x 15 { laneAt x 15 with tx := some i.frame })))))
  , (let s := inBuf (yonS 15 (queueS 1 15 []) { st := .up, lock := true }) true
     (picks (reedTake { part := fun _ _ _ => true, only := fun _ _ _ => true, gone := circuitGone } (destKey 1 15) false s) (fun q i u => if framePoisoned (queueLeft u q i.frame) i.frame then u else s)).isSome &&
       after (.reedSelect 1 15 false) { s with spool := { s.spool with bufs := [(3, { st := .held, owner := 1, bad := true, badBy := 0x10 })] } } (fun t => t.selvedge.waiting.map (fun r => (r.source, r.code, r.rootSource)) == [(laneSource 15, 0x12, 0x10), (0x0F, 0x40, 0x0F)] &&
         (laneAt t 15).tx == none && t.out == [] && queueFrames t 5 == []))
  , (let s := inBuf (macS (queueS 0 2 []) {}) true; macUp s 2 && after (.reedSelect 0 2 false) s (fun t => raised s t (macSource 2) 0x12 && (macAt t 2).tx == none && queueFrames t 5 == []))
  , (let s := maxLen 63 (macS (queueS 0 2 []) {}); givesO (.reedSelect 0 2 false) s (picks (reedTake (macPolicy 2 false) (destKey 0 2) false (countHolds s 2))
       (fun q i u => pauseScan (frameGone (macCount (queueLeft (pauseFlush u 2) q i.frame) 2 14) i.frame))))
  , (let s := maxLen 64 (macS (queueS 0 2 []) {}); macUp s 2 && [false, true].all (fun same => givesO (.reedSelect 0 2 same) s (picks (reedTake (macPolicy 2 false) (destKey 0 2) same (countHolds s 2))
       (fun q i u => let v := queueLeft (pauseFlush u 2) q i.frame; pauseScan (setMac v 2 { macAt v 2 with tx := some ⟨q, qLevel v q, i.frame, 0⟩ })))))
  , (let s := rxRingS (inBuf (queueS 3 511 []) true); after (.reedSelect 3 511 false) s (fun t => raised s t 0x1D 0x12 && t.host.rings == s.host.rings && queueFrames t 5 == []))
  , (let s := rxRingS (queueS 3 511 []); match reedTake (ringPol 511) (destKey 3 511) false s with
     | (some (q, i), u) => let v := queueLeft u q i.frame
         !framePoisoned v i.frame && givesO (.reedSelect 3 511 false) s ((rxDeliver v 511 { i.frame with data := frameRead v i.frame } {}).map (fun w => pauseScan (frameGone w i.frame)))
     | _ => false)
  , (let s := queueS 3 511 []; match reedTake (ringPol 511) (destKey 3 511) false s with
     | (none, u) => gives (.reedSelect 3 511 false) s (pauseScan u)
     | _ => false) ] = true := by
  decide +kernel

theorem witness_SelectionFollowsLevelsAndBands : holds
  [ (let s := queueS 1 15 []; wfqChoose ⟨fun _ _ _ => true, fun _ _ _ => true, fun _ _ _ => none⟩ s (destKey 1 15) == some (5, true))
  , (let s := queueS 1 15 []; wfqChoose ⟨fun _ _ _ => false, fun _ _ _ => true, fun _ _ _ => none⟩ s (destKey 1 15) == none) ] = true := by
  decide +kernel

/-- A shaper record: EN, CIR 10, PIR 20, CBS and PBS 16384. -/
def shRec (en : Bool) : List Nat := [b2n en * 2 ^ 31 + 10, 20, 16384, 16384]

theorem witness_ReedTablesAndShapers_window : holds
  [ (let s := up [(Reg.reedEntSel, 2047), (Reg.reedEntData 0, 2 ^ 31 + 31), (Reg.reedEntData 1, 0x7FF0001)]
     let img := (List.range 8).map (fun k => rdS s (Reg.reedEntData k))
     qRecOk img && okI s && after (.reedEntWrite 15) s (fun t => t.reed == { s.reed with qrecS := sput [] s.reed.qrecS 2047 (trimRec 6 img) } && rdS t Reg.reedEntCmd == 0))
  , (let s := up [(Reg.reedEntSel, 5)]; after (.reedEntWrite 15) s (fun t => t.reed == { s.reed with result := 2 } && rdS t Reg.reedEntCmd == 2 * 2 ^ 24))
  , (let s := { up [(Reg.reedEntSel, 5)] with reed := { State.reset.reed with qrecS := [(5, [1, 2, 3])], result := 1 } }
     after (.reedEntRead 15) s (fun t => t.reed == { s.reed with result := 0 } && (List.range 8).all (fun k => rdS t (Reg.reedEntData k) == [1, 2, 3].getD k 0)))
  , (let s := up [(Reg.reedAnchor, 1), (Reg.reedEntSel, 3 * 65536 + 31)]; flag s Reg.reedAnchor 0 && after (.reedEntWrite 15) s (fun t => t.reed == { s.reed with result := 1 }))
  , (let s := up []; domOn s 18 && after (.anchorLock 15) s (fun t => flag t Reg.reedAnchor 0 && t.reed == s.reed))
  , (let s := up []; after (.reedSwapRequest 15 0xFFFFFFFF) s (fun t => t.reed == { s.reed with swapAsked := true } && rd t Reg.reedCtrl == rd s Reg.reedCtrl)) ] = true := by
  decide +kernel

theorem witness_ReedTablesAndShapers_shapers : holds
  [ (let s := { up [] with reed := { State.reset.reed with shIn := [(7, shRec true), (1023, shRec true)], buckets := [(7, (512 * 16384, 1))] } }
     after (.shaperRefillTick 0) s (fun t => t.reed.tick == 1 && bucketAt t 7 == (512 * 16384, 21) && bucketAt t 1023 == (10, 20) && bucketAt t 8 == (0, 0)))
  , (let s := up []; gives (.shaperRefillTick 1) s s)
  , (let d := cmdD 0x50 0 0 0x1000 1024 0 0 0 []; let s := queued (withCmd (up [])) d; s.cmdReady d 0x50 && after (.shaperLoad d) s (fun t =>
       t.reed == { s.reed with loading := some (0, 0) } && flag t Reg.reedStat 0))
  , (let d := cmdD 0x51 0 0 0 0 0 0 0 []; let s := withCmd (up []); s.cmdReady d 0x51 && doneBy (.shaperSwap d) s d (fun u => setReed u { s.reed with swapAsked := true }))
  , (let s := { up [] with reed := { State.reset.reed with shIn := [(7, shRec true)], shStby := [(40, shRec true)], buckets := [(7, (5, 6))], swapAsked := true } }
     let t := shaperSwap s; t.reed.shIn == s.reed.shStby && !t.reed.swapAsked && bucketAt t 7 == swapBucket s.reed.shIn s.reed.shStby 7 (5, 6) && bucketAt t 40 == (512 * 16384, 512 * 16384))
  , (let s := { up [(Reg.reedAnchor, 1)] with reed := { State.reset.reed with shIn := [(7, shRec true), (31, shRec true)], shStby := [(31, shRec false), (32, shRec true)], buckets := [(7, (5, 6))], swapAsked := true } }
     let t := shaperSwap s; flag s Reg.reedAnchor 0 && t.reed.shIn == swapSet s && sget [] (swapSet s) 7 == shRec true && sget [] (swapSet s) 31 == shRec true && sget [] (swapSet s) 32 == shRec true && bucketAt t 7 == (5, 6))
  , (let d := cmdD 0x54 0 5 0 0 0 0 0 []; let s := withCmd (queueS 1 15 []); s.cmdReady d 0x54 && after (.queueFlush d) s (fun t => queueFrames t 5 == [] && cntVal t 6 7 == 1)) ] = true := by
  decide +kernel

theorem witness_GateListsAndSpool_gates : holds
  [ (let d := cmdD 0x52 0 31 0x1000 1 0 0 0 (leBytes 4 3 ++ leBytes 4 100); let s := { withCmd (up []) with reed := { State.reset.reed with gateAdmin := [(0, (1, 100)), (31 * 256 + 1, (1, 100))] } }
     s.cmdReady d 0x52 && after (.gateLoad d) s (fun t => t.reed.gateAdmin == [(0, (1, 100)), (31 * 256, (3, 100))] && t.reed.gateOper == s.reed.gateOper))
  , (let d := cmdD 0x53 0 (31 + 256 * 65536) 0 5 1 0 1000 []; let s := { withCmd (up []) with time := { State.reset.time with run := true, tod := 2 * 10 ^ 9 * nsUnit + 1 } }
     s.cmdReady d 0x53 && after (.gateStart d) s (fun t => match (gateAt t 31).pending with
       | some (a, 1000, 256) => decide (10 ^ 9 + 5 ≤ a) && (a - (10 ^ 9 + 5)) % 1000 == 0 && decide (s.time.tod + 250000 * nsUnit ≤ a * nsUnit)
       | _ => false))
  , (let s := { up [] with time := { State.reset.time with tod := 9 * nsUnit }
                           reed := { State.reset.reed with gates := [(3, { pending := some (9, 1000, 2) })], gateAdmin := [(768, (1, 600)), (769, (2, 400))], gateOper := [(770, (7, 7))] } }
     after (.gateListStart 3) s (fun t => gateAt t 3 == { operLen := 2, cycle := 1000, start := 9, entry := 0 } && t.reed.gateOper == [(768, (1, 600)), (769, (2, 400))] && t.reed.gateAdmin == s.reed.gateAdmin &&
       after (.gateEntryChange 3) { t with time := { t.time with tod := 700 * nsUnit } } (fun u => gateAt u 3 == { gateAt t 3 with entry := 1 } && u.reed.gateOper == t.reed.gateOper))) ] = true := by
  decide +kernel

theorem witness_GateListsAndSpool_spool : holds
  [ (let s := { up [] with spool := { State.reset.spool with pools := [(8, 16)], bufs := [(3, { st := .held, owner := 63 })] } }
     freeKind s 3 63 == 0 && gives (.spoolFree 3 63) s (pauseScan (setBuf (count s 9 1) 3 .freeing 0)))
  , (let s := { up [] with spool := { State.reset.spool with pools := [(8, 16)], bufs := [(3, { st := .held, owner := 63, bad := true })] } }
     freeKind s 3 63 == 0 && [BufSt.freeing, .quarantined].all (fun st => gives (.spoolFree 4 63) { s with spool := { s.spool with bufs := [(4, { st := .held, owner := 63 })] } } (pauseScan (setBuf (count { s with spool := { s.spool with bufs := [(4, { st := .held, owner := 63 })] } } 9 1) 4 .freeing 0)) && st != .held) &&
       after (.spoolFree 3 63) s (fun t => cntVal t 9 1 == 1 && cntVal t 9 9 == 1))
  , [(0xFFFFF, 63, 1, 8), (4, 63, 2, 6), (3, 62, 3, 7)].all (fun (h, o, k, c) =>
     let s := { up [] with spool := { State.reset.spool with pools := [(8, 16)], bufs := [(3, { st := .held, owner := 63 })] } }
     freeKind s h o == k && after (.spoolFree h o) s (fun t => t.spool == s.spool && t.selvedge.waiting == [⟨2, 0x0F, 0x040, k * 2 ^ 20 + h, 0x0F, 0x040⟩] && cntVal t 9 c == 1))
  , (let s := { up [] with stg := [(Reg.spoolPoolCfg 0, 2 ^ 31 + 8), (Reg.spoolPoolCount 0, 16)], cur := [] }
     !flag s Reg.spoolCtrl 0 && spoolIdle s && layoutWaits s && after .spoolLayoutApply s (fun t => t.spool.pools == [(8, 16)] && t.spool.bufs == [] && rd t (Reg.spoolPoolCfg 0) == 2 ^ 31 + 8)) ] = true := by
  decide +kernel

/-! ## Lanes and MACs -/

/-- Lane `n` in mode `m`. -/
def laneS (n m : Nat) (x : Lane) : State :=
  { up [(Reg.laneCfg n, m * 65536)] with ports := { State.reset.ports with lanes := [(n, x)] } }

theorem witness_LanesTrainAndLink : holds
  [ (let s := laneS 15 1 { st := .train }; domOn s (laneDom 15) && !flag s (Reg.laneRxCfg 15) 31 && laneHead s 15 == 15 && after (.laneAdapted 15 15) { s with ns := 7 } (fun t => laneAt t 15 == { ctle := 15, marks := 35, st := .down }))
  , (let s := { up [(Reg.laneCfg 0, 7 * 65536)] with ports := { State.reset.ports with lanes := [(0, { st := .train })] } }
     laneHead s 1 == 0 && gives (.laneAdapted 1 5) s (setLane s 1 { laneAt s 1 with ctle := 5 }))
  , (let s := laneS 15 1 { st := .up, ctle := 8 }; [7, 9].all (fun c => gives (.laneAdapted 15 c) s (setLane s 15 { laneAt s 15 with ctle := c, stepped := some 0 })))
  , (let s := laneS 15 1 { st := .up, ctle := 8, stepped := some 0 }; s.pick.commits == 0 && gives (.laneAdapted 15 9) s s)
  , [4, 8].all (fun m => let s := laneS 15 m { st := .down }; gives (.laneLinkUp false 15 0 0) s (laneGo (setLane s 15 { laneAt s 15 with lock := true }) 15 .up))
  , (let s := laneS 15 9 { st := .down }; gives (.laneLinkUp false 15 0 0) s (setLane s 15 { laneAt s 15 with block := true }))
  , (let s := laneS 15 10 { st := .down, idles := 5 }; gives (.laneLinkUp false 15 0 0) s (setLane s 15 { laneAt s 15 with lock := true, idles := 0 }))
  , [1, 3].all (fun m => [(none, 1), (some 18, 1), (some 19, 0)].all (fun (b, k) => let s := laneS 0 m { st := .down, boundary := b }; findComma 0x1F == some 19 && okI s && after (.laneLinkUp false 0 0x1F 0) s (fun t =>
       laneAt t 0 == { lock := true, boundary := some 19, comma := (0x1F, 7), st := .up } && cntVal t 12 2 == k)))
  , (let s := laneS 2 1 { st := .up }; macBound s 2 && [0, 10, 100, 1000].all (fun sp => gives (.laneLinkUp true 2 0 sp) s (macLink s 2 true)))
  , (let s := laneS 2 2 { st := .up }; macBound s 2 && [(10, false), (100, false), (1000, true)].all (fun (sp, l) => gives (.laneLinkUp true 2 0 sp) s (macLink s 2 l)))
  , (let s := macS (up []) { tx := some ⟨5, 0, frame64, 0⟩ }; after (.laneLinkDown true 2 0 true false) s (fun t => !(macAt t 2).link && (macAt t 2).localFault && !(macAt t 2).remoteFault && (macAt t 2).tx == (macAt s 2).tx))
  , (let s := laneS 15 4 { st := .up, lock := true, boundary := some 3 }; after (.laneLinkDown false 15 7 false false) s (fun t => (laneAt t 15).st == .down && !(laneAt t 15).lock && (laneAt t 15).boundary == some 3 && cntVal t 12 (14 * 15) == 7 && cntVal t 12 (14 * 15 + 1) == 1))
  , (let s := laneS 15 9 { st := .down, block := true, markers := 1, missed := 2 }; gives (.pairMarker 15 (pairMark false) (pairMark true)) s (setLane s 15 { laneAt s 15 with markers := 2, missed := 0 }))
  , (let s := laneS 15 9 { st := .up, block := true, lock := true, markers := 3, missed := 3 }; gives (.pairMarker 15 (pairMark false) (pairMark true)) s (setLane s 15 { laneAt s 15 with markers := 3, missed := 0 }))
  , (let s := laneS 15 9 { st := .down, block := true, markers := 2 }; after (.pairMarker 15 (pairMark false) (pairMark true)) s (fun t => (laneAt t 15).lock && (laneAt t 15).st == .up))
  , (let s := laneS 15 9 { st := .down, block := true, markers := 2 }; gives (.pairMarker 15 (pairMark true) (pairMark false)) s (setLane s 15 { laneAt s 15 with markers := 0 }))
  , (let s := laneS 15 9 { st := .up, block := true, lock := true, missed := 2 }; gives (.pairMarker 15 (1, 0) (pairMark true)) s (setLane s 15 { laneAt s 15 with missed := 3 }))
  , (let s := laneS 15 9 { st := .up, block := true, lock := true, missed := 3 }; after (.pairMarker 15 (1, 0) (1, 0)) s (fun t => !(laneAt t 15).lock && (laneAt t 15).block && (laneAt t 15).st == .down)) ] = true := by
  decide +kernel

/-- Lane 0 with the Yonov link up. -/
def yS (x : Lane) : State := laneS 0 10 x

theorem witness_YonovBlocksAct_blocks : holds
  [ (let s := yS { st := .down, lock := true, idles := 126 }; yonovOn s 0 && gives (.yidle 0 true) s (setLane s 0 { laneAt s 0 with peerRdy := true, idles := 127 }))
  , (let s := yS { st := .down, lock := true, idles := 127 }; after (.yidle 0 true) s (fun t => (laneAt t 0).st == .up && (laneAt t 0).idles == 128 && (laneAt t 0).peerRdy))
  , (let s := yS { st := .up, lock := true, idles := 128 }; after (.yidle 0 false) s (fun t => (laneAt t 0).st == .down && (laneAt t 0).idles == 0 && !(laneAt t 0).peerRdy))
  , (let s := yS { st := .up, lock := true }; gives (.yhold 0 true) s (setLane s 0 { laneAt s 0 with holdRx := true }))
  , (let s := yS { st := .up, lock := true, rxFifo := List.replicate 15 0 }; gives (.ymgmt 0 5) s (setLane s 0 { laneAt s 0 with rxFifo := List.replicate 15 0 ++ [5] }))
  , (let s := yS { st := .up, lock := true, rxFifo := List.replicate 16 0 }; gives (.ymgmt 0 5) s (laneCount s 0 12))
  , (let s := yS { st := .up, lock := true }; gives (.yonovFifoError 0) s (laneUnlock (laneCount s 0 11) 0))
  , (let s := yS { st := .up, lock := true, idles := 3 }; after (.yidleTimeout 0) s (fun t => (laneAt t 0).st == .down && (laneAt t 0).idles == 0))
  , (let s := yS { st := .up, lock := true, scr := 2 ^ 58 - 1, txFifo := [7, 8] }; after (.yidleSend 0) s (fun t => (laneAt t 0).txFifo == [] && t.out == blocksSent 0 (laneAt s 0).scr [(2, ymgmtBlock 7), (2, ymgmtBlock 8), (2, yidleBlock true)]))
  , (let s := yS { st := .up, lock := true, holdTx := true }; after (.yholdRepeat 0) s (fun t => t.out == blocksSent 0 0 [(2, yholdBlock true)] && laneAt t 0 == { laneAt s 0 with scr := (scramble64 0 (blockWord (yholdBlock true))).1 }))
  , (let s := yS { st := .up, lock := true, holdRx := true }; gives (.yholdTimeout 0) s (laneCount (setLane s 0 { laneAt s 0 with holdRx := false }) 0 10)) ] = true := by
  decide +kernel

theorem witness_YonovBlocksAct_ymgmt : holds
  [ (let s := { up [(Reg.laneYmgmtTxLo 0, 0x12345678)] with ports := { State.reset.ports with lanes := [(0, { txFifo := List.replicate 15 0 })] } }
     after (.ymgmtSend 0 15 0x80ABCDEF) s (fun t => laneAt t 0 == { laneAt s 0 with txFifo := List.replicate 15 0 ++ [0x12345678ABCDEF] }))
  , (let s := laneS 15 0 { rxFifo := [0x12345678ABCDEF, 4] }; after (.ymgmtRxRead 15 15) s (fun t => t.hostRead == 0x12345678 && laneAt t 15 == { laneAt s 15 with rxFifo := [4] } && rdS t (Reg.laneYmgmtRxHi 15) == 2 ^ 31 + 0xABCDEF))
  , (let s := up []; after (.ymgmtRxRead 15 15) s (fun t => t.hostRead == 0 && !(rdS t (Reg.laneYmgmtRxHi 15)).testBit 31)) ] = true := by
  decide +kernel

/-- Blocks as the line carries them, from scrambler state `st` on. -/
def onLine (st : Nat) (l : List (Nat × List Byte)) : YonovIn :=
  { prior := st, blocks := (blocksSent 0 st l).map (fun o => match o with | .lineBlock _ h w => (h, w) | _ => (0, 0)) }

/-- A Yonov frame of 14 bytes: YSTART, two data blocks, a YHOLD that does not hold, YEND. -/
def yonBlocks (len crc : Nat) (abort : Bool) : List (Nat × List Byte) :=
  [(2, ystartBlock len), (1, List.replicate 8 1), (2, yholdBlock true), (1, List.replicate 8 1), (2, yendBlock crc abort)]

/-- A frame of 60 bytes with this EtherType and what follows it. -/
def macFrame (et : Nat) (rest : List Byte) : List Byte := let b := List.replicate 12 0 ++ beBytes 2 et ++ rest; b ++ List.replicate (60 - b.length) 0

/-- MAC 2 with PAUSE_CFG `c` and PAUSE_THR 0x00020001. -/
def pauseS (c : Nat) (x : MacU) : State :=
  { macS (up []) x with stg := [(Reg.macCfg 2, 2 ^ 31 + 2000), (Reg.macPauseCfg 2, c), (Reg.macPauseThr 2, 0x00020001), (Reg.laneCfg 2, 65536)]
                        cur := [(Reg.macCfg 2, 2 ^ 31 + 2000), (Reg.macPauseCfg 2, c), (Reg.macPauseThr 2, 0x00020001), (Reg.laneCfg 2, 65536)] }

theorem witness_FramesTestedPauseStops_frames : holds
  [ (let s := yS { st := .up, lock := true }; let y := onLine 12345 (yonBlocks 13 0 false); yonovOn s 0 && descrambled y.prior y.blocks == yonBlocks 13 0 false &&
       gives (.yonovFrameRx 0 y) s (pauseScan (laneCount (setLane s 0 { laneAt s 0 with holdRx := true }) 0 6)))
  , (let s := yS { st := .up, lock := true }; gives (.yonovFrameRx 0 (onLine 0 [(2, controlBlock 0x55 [0, 14, 0, 0, 0, 0, 1])])) s (pauseScan (laneCount s 0 6)))
  , (let s := yS { st := .up, lock := true }; gives (.yonovFrameRx 0 (onLine 0 ((yonBlocks 14 0 false).take 2))) s (pauseScan s))
  , (let s := yS { st := .up, lock := true }; gives (.yonovFrameRx 0 (onLine 0 [(2, ystartBlock 14), (2, yidleBlock true)])) s (pauseScan (laneCount (laneCount s 0 0) 0 7)))
  , (let s := yS { st := .up, lock := true }; [0, 8, 17].all (fun len => gives (.yonovFrameRx 0 (onLine 0 (yonBlocks (14 + len) 0 false))) s
       (pauseScan (laneCount (setLane s 0 { laneAt s 0 with holdRx := true }) 0 (if len = 0 then 8 else 7)))))
  , (let s := yS { st := .up, lock := true }; gives (.yonovFrameRx 0 (onLine 0 (yonBlocks 14 0 true))) s (pauseScan (laneCount (setLane s 0 { laneAt s 0 with holdRx := true }) 0 9)))
  , (let s := yS { st := .up, lock := true }; gives (.yonovFrameRx 0 (onLine 0 (yonBlocks 14 (crc32c (List.replicate 14 1)) false))) s
       (pauseScan (heddleInput (laneCount (setLane s 0 { laneAt s 0 with holdRx := true }) 0 5) { data := List.replicate 14 1, srcType := 1, srcId := 0 })))
  , (let s := macS (up []) {}; let r : RxIn := { data := List.replicate 59 0 }; macUp s 2 && rxTest s 2 r == some 4 && gives (.macRxFrame 2 r) s (macCount (fecCounts s 2 r) 2 4))
  , (let s := macS (up []) {}; let r : RxIn := { data := List.replicate 60 0 }; rxTest s 2 r == none && !addrPass s 2 0 && gives (.macRxFrame 2 r) s (macCount (fecCounts s 2 r) 2 6))
  , (let s := macS (up []) {}; let r : RxIn := { data := List.replicate 6 255 ++ List.replicate 54 0 }; addrPass s 2 (2 ^ 48 - 1) && !portStamps s 2 && gives (.macRxFrame 2 r) s
       (pauseScan (heddleInput (countBy (macCount (fecCounts s 2 r) 2 0) 11 33 60) { data := r.data, srcType := 0, srcId := 2 })))
  , (let s := { macS (up []) {} with stg := sput 0 (macS (up []) {}).stg (Reg.timePortCfg 2) 1, cur := sput 0 (macS (up []) {}).cur (Reg.timePortCfg 2) 1, time := { State.reset.time with tod := 2 ^ 80, raw := 2 ^ 79 } }
     let r : RxIn := { data := List.replicate 6 255 ++ List.replicate 54 0, back := 640 }; portStamps s 2 && !(ptpFlags (parse s r.data) r.data).2 && gives (.macRxFrame 2 r) s
       (pauseScan (heddleInput (countBy (macCount (fecCounts s 2 r) 2 0) 11 33 60) { data := r.data, srcType := 0, srcId := 2, tsValid := true, tsNs := todNs (ingressStamp s 2 640).1, tsSec := todSec (ingressStamp s 2 640).1, rawIn := (ingressStamp s 2 640).2 })))
  , (let s := macS (up []) {}; let r : RxIn := { data := macFrame 0x8808 (beBytes 2 9) }; rxTest s 2 r == none && gives (.macRxFrame 2 r) s (controlFrame (fecCounts s 2 r) 2 r.data)) ] = true := by
  decide +kernel

theorem witness_FramesTestedPauseStops_pause : holds
  [ (let s := pauseS (2 ^ 24) {}; let d := macFrame 0x8808 (beBytes 2 1 ++ beBytes 2 10); rxTest s 2 { data := d } == none && after (.pauseFrameRx 2 d) s (fun t =>
       (List.range 8).all (fun l => sget 0 (macAt t 2).paused l == s.ns + (10 * 512000 + 999) / 1000) && cntVal t 11 39 == 1))
  , (let s := pauseS (2 ^ 24) { paused := [(0, 5), (7, 9)] }; let d := macFrame 0x8808 (beBytes 2 1 ++ beBytes 2 0); after (.pauseFrameRx 2 d) s (fun t => (macAt t 2).paused == []))
  , (let s := pauseS 5 {}; let d := macFrame 0x8808 (beBytes 2 1 ++ beBytes 2 10); gives (.pauseFrameRx 2 d) s (macCount s 2 8))
  , (let s := { pauseS 5 { paused := [(7, 9)] } with ns := 9 }; gives (.pauseExpiry 2 7) s (setMac s 2 { macAt s 2 with paused := [] }))
  , (let s := { pauseS 5 { paused := [(7, 9)] } with ns := 8 }; gives (.pauseExpiry 2 7) s s)
  , (let s := { pauseS (2 ^ 24 + 99) { xoff := [0] } with spool := { State.reset.spool with pools := [(64, 4)], bufs := [(1, { st := .held, owner := 1, src := 2, bytes := 257 })] } }
     heldBytes s 2 none == 257 && gives (.pauseRepeat 2) s (macCount { s with out := [.pauseOut 2 1 0 [99]] } 2 12) &&
       let u := setMac s 2 { macAt s 2 with tx := some ⟨5, 0, frame64, 0⟩ }; !preemptOn u 2 && gives (.pauseRepeat 2) u (setMac u 2 { macAt u 2 with pauseDue := [(0, 99)] }))
  , (let s := { macS (up []) {} with stg := [(Reg.macCfg 2, 2 ^ 31 + 2000), (Reg.macPreempt 2, 2 ^ 31), (Reg.laneCfg 2, 65536)], cur := [(Reg.macCfg 2, 2 ^ 31 + 2000), (Reg.macPreempt 2, 2 ^ 31), (Reg.laneCfg 2, 65536)] }
     gives (.mergeVerify 2) s (setMac s 2 { macAt s 2 with verified := true })) ] = true := by
  decide +kernel

/-- MAC 2 sends frame `f`, of which `sent` bytes have left, with these further registers. -/
def sending (f : Frame) (sent : Nat) (r : List (Nat × Word)) : State :=
  let s := macS { up r with host := { State.reset.host with bme := true, rings := [(0, prodRing .tx), (1, cqRing)] } } { tx := some ⟨5, 0, f, sent⟩ }
  { s with time := { s.time with tod := 2 ^ 80, raw := 2 ^ 79 } }

theorem witness_FramesLeaveMac : holds
  [ (let f : Frame := { data := List.replicate 59 7 }; let s := sending f 0 []; let a := setMac s 2 { macAt s 2 with tx := none }
     okI s && gives (.macTxEnd 2 0) s (pauseScan (frameGone (emit (countBy (macCount a 2 10) 11 43 59) (.frameOut 2 (List.replicate 59 7 ++ [0]) false)) f)))
  , (let f : Frame := { data := List.replicate 59 7 }; let s0 := sending f 32 []; let s := setMac s0 2 { macAt s0 2 with pauseDue := [(0, 99)] }; let a := setMac s 2 { macAt s 2 with tx := none }
     gives (.macTxEnd 2 0) s (pauseScan (frameGone (pauseFlush (emit (countBy (macCount a 2 10) 11 43 59) (.fragment 2 (List.replicate 27 7 ++ [0]) true)) 2) f)))
  , (let f : Frame := { data := List.replicate 64 7, tsReq := some (0, 4) }; let s := sending f 0 [(Reg.timePortCfg 2, 1)]; let a := setMac s 2 { macAt s 2 with tx := none }
     let u := emit (countBy (macCount a 2 10) 11 43 64) (.frameOut 2 f.data false); let tod := (egressStamp s 2 640).1
     portStamps s 2 && gives (.macTxEnd 2 640) s (pauseScan (frameGone (txTs u 0 4 Status.done (todNs tod + todSec tod * 2 ^ 32 + 2 * 2 ^ 80)) { f with tsReq := none })))
  , (let f : Frame := { data := List.replicate 64 7, tsReq := some (0, 4) }; let s := sending f 0 []; !portStamps s 2 &&
       after (.macTxEnd 2 640) s (fun t => (macAt t 2).tx == none && t.draws == s.draws + 1 && t.host != s.host && t.out.head? == some (.frameOut 2 f.data false)))
  , (let f : Frame := { data := List.replicate 64 7, handle := 3 }; let s0 := sending f 10 []
     let s := { s0 with spool := { s0.spool with pools := [(8, 16)], bufs := [(3, { st := .held, owner := 0, bad := true, badBy := 0x10 })] } }
     framePoisoned s f && after (.macTxEnd 2 0) s (fun t => (macAt t 2).tx == none && raised s t (macSource 2) 0x12 && t.out == [.frameOut 2 (List.replicate 54 7) true] && cntVal t 11 (16 * 2 + 13) == 1))
  , (let s := yonS 15 (up []) { st := .up, lock := true, scr := 9, tx := some { data := List.replicate 9 7 } }
     after (.macTxEnd 47 0) s (fun t => (laneAt t 15).tx == none && cntVal t 12 (14 * 15 + 13) == 1 &&
       t.out == blocksSent 15 9 [(1, 7 :: List.replicate 7 0), (2, yendBlock (crc32c (List.replicate 9 7)) false)])) ] = true := by
  decide +kernel

/-! ## Security -/

def slot7 : KeySlot := ⟨7, true, 1, { data := [9] }, 0, some 5⟩

theorem witness_KeysRetireEntropyFails : holds
  [ (let s := { up [] with sec := { State.reset.sec with keys := [slot7, ⟨8, true, 1, {}, 0, none⟩] }, pick := { commits := 5 } }
     keyFind s 7 true 1 == some slot7 && domOn s 21 && okI s && after (.keyRetire 7 true 1) s (fun t => cntVal t 10 12 == 1 && t.sec.keys == [⟨8, true, 1, {}, 0, none⟩] && t.act == s.act))
  , (let s := { up [] with sec := { State.reset.sec with trngStopped := true, trngFails := 1, rct := some (true, 3) } }; after (.trngRestart 15) s (fun t => t.sec == { s.sec with trngFails := 0, trngStopped := false, rct := none }))
  , (let s := { up [] with sec := { State.reset.sec with trngStopped := true, stale := 1, drbg := [(3, ⟨[], 65536⟩)] } }; drbgDue s 3 && after (.drbgReseed 3) s (fun t => t.sec == { s.sec with stale := 9 }))
  , (let s := { up [] with sec := { State.reset.sec with stale := 9, drbg := [(3, ⟨[], 65536⟩)] } }; drbgDue s 3 && after (.drbgReseed 3) s (fun t =>
       t.draws == s.draws + 1 && t.sec.stale == 1 && !drbgDue t 3 && (sget {} t.sec.drbg 3).seed.length == 48))
  , (let s := { up [] with sec := { State.reset.sec with stale := 9, drbg := [(3, ⟨[], 65535⟩)] } }; !drbgDue s 3 && gives (.drbgReseed 3) s s) ] = true := by
  decide +kernel

/-- Raw bits that alternate. -/
def altRaw : BitVec 2048 := BitVec.ofNat 2048 ((4 ^ 1024 - 1) / 3)

/-- No bit comes twice in a row. -/
def alternates : List Bool → Option (Bool × Nat) → Bool
  | [], _ => true
  | b :: t, x => (rctStep x b).2 == 1 && alternates t (some (rctStep x b))

/-- Bits that alternate pass the repetition count test at any cutoff. -/
theorem rctScan_of_alternates (l : List Bool) : ∀ x, alternates l x = true → (rctScan l x).1 = true := by
  induction l with
  | nil => intro x _; rfl
  | cons b t ih =>
    intro x h
    rw [alternates, Bool.and_eq_true, beq_iff_eq] at h
    rw [rctScan, Bool.and_eq_true, decide_eq_true_eq, h.1]
    exact ⟨by unfold Config.rctCutoff; omega, ih _ h.2⟩

/-- A window whose first bit comes at most 513 times less one passes the adaptive proportion test. -/
theorem aptOk_of_half (l : List Bool) (h : (l.filter (· == l.headD false)).length ≤ 512) : aptOk l = true := by
  unfold aptOk Config.aptCutoff
  exact decide_eq_true (by omega)

/-- A run that has reached the cutoff fails the repetition count test with the same bit again. -/
theorem rctScan_of_run (b : Bool) (l : List Bool) (n : Nat) (h : Config.rctCutoff ≤ n + 1) : (rctScan (b :: l) (some (b, n))).1 = false := by
  simp [rctScan, rctStep, Nat.not_lt.mpr h]

/-- The first raw bit is 0, the run of 0 has reached the cutoff, and `k` blocks have failed. -/
def trngS (k : Nat) : State := { up [] with sec := { State.reset.sec with trngFails := k, rct := some (false, Config.rctCutoff) } }

/-- A block that passes, and blocks that fail as the first, the second and the third one in a row. -/
theorem witness_KeysRetireEntropyFails_blocks :
    (okI (up []) && domOn (up []) 21 && !(up []).sec.trngStopped) = true ∧ blockOk (up []) altRaw = true ∧
    ∀ k, domOn (trngS k) 21 = true ∧ (trngS k).sec.trngStopped = false ∧ (trngS k).sec.trngFails = k ∧ blockOk (trngS k) 0 = false := by
  refine ⟨by decide +kernel, ?_, fun k => ⟨show domOn (trngS 0) 21 = true by decide +kernel, rfl, rfl, ?_⟩⟩
  · unfold blockOk
    rw [rctScan_of_alternates _ _ (by decide +kernel), aptOk_of_half _ (by decide +kernel), aptOk_of_half _ (by decide +kernel)]; rfl
  · unfold blockOk
    rw [show rawBits 0 = false :: (rawBits 0).tail by decide +kernel]
    exact congrArg₂ and (congrArg₂ and (rctScan_of_run _ _ _ (Nat.le_succ _)) rfl) rfl

/-- No image passes: the choice is recorded and NO_IMAGE set. -/
theorem witness_BootChoosesGoodImage : holds
  [ (let s := State.reset; !s.power.inReset && !s.sec.chosen && imgCheck (flashSlot s (preferredSlot s)) s.sec.otpArb != 0 && imgCheck (flashSlot s (!preferredSlot s)) s.sec.otpArb != 0 &&
     after .bootImageChoice s (fun t => t.sec.chosen && t.sec.noImage && t.sec.image == [] && t.sec.preferred == preferredSlot s)) ] = true := by
  decide +kernel

/-- A command that takes up work. -/
def worksBy (c : Instr) (s : State) (d : CmdDesc) : Bool := gives c s ((s.cmdTaken d).cmdWorks d)

/-- An image header of 512 bytes whose ARB is `n`. -/
def imgOf (n : Nat) : List Byte := List.replicate 12 0 ++ [BitVec.ofNat 8 n] ++ List.replicate 499 0

theorem witness_SecurityCommandsBegin : holds
  [ (let d := cmdD 0x63 0 0 0x1000 4096 0x2000 0 0 []; let s := queued (withCmd (up [])) d; s.cmdReady d 0x63 && worksBy (.idSign d) s d)
  , (let d := cmdD 0x64 0 0 0x1000 0 0 0 0 (List.replicate 24 0 ++ leBytes 4 65536); let s := queued (withCmd (up [])) d; s.cmdReady d 0x64 && worksBy (.sigVerify d) s d)
  , (let d := cmdD 0x65 0 0 0x1000 5 0x2000 0 0 []; let s := withCmd (up []); s.cmdReady d 0x65 && worksBy (.hash d) s d)
  , (let d := cmdD 0x66 0 0 0x1000 4096 0 0 0 []; let s := withCmd (up []); s.cmdReady d 0x66 && worksBy (.random d) s d)
  , (let d := cmdD 0x60 0 0 0x1000 2097152 0 0 0 []; let s := withCmd (up []); s.cmdReady d 0x60 && after (.imageInstall d) s (fun t => t.sec == { s.sec with job := .install 1 [] } && t.host.work.length == 1 && rd t Reg.secImgProg == 0x10000000))
  , (let d := cmdD 0x61 0 0 0 0 0 0 0 []; let s := withCmd (up []); s.cmdReady d 0x61 && after (.imageActivate d) s (fun t => t.sec == { s.sec with job := .activate } && t.host.work.length == 1 && rd t Reg.secImgProg == 0x60000000))
  , (let d := cmdD 0x62 0 0 0 0 0 0 0 []; let s := { withCmd (up []) with sec := { State.reset.sec with image := imgOf 3, otpArb := 2 } }; runArb s == 3 && worksBy (.arbRaise d) s d)
  , (let d := cmdD 0x62 0 0 0 0 0 0 0 []; let s := { withCmd (up []) with sec := { State.reset.sec with image := imgOf 3, otpArb := 3 } }; doneBy (.arbRaise d) s d (fun u => u))
  , (let d := cmdD 0x67 0 63 0x1000 0 0 0 0 (List.replicate 32 5); let s := { withCmd (up []) with sec := { State.reset.sec with trngOk := true } }
     s.cmdReady d 0x67 && trngGives s && after (.hostKey d) s (fun t => t.draws == s.draws + 1) && answersOnly (.hostKey d) s Status.done false)
  , (let d := cmdD 0x67 0 63 0x1000 0 0 0 0 (List.replicate 32 5); let s := withCmd (up []); s.cmdReady d 0x67 && !trngGives s && worksBy (.hostKey d) s d)
  , (let d := cmdD 0x67 1 63 0x1000 0 0 0 0 []; let s := { withCmd (up []) with sec := { State.reset.sec with hostKeys := [(62, { data := [1] }), (63, { data := [1] })] } }
     s.cmdReady d 0x67 && doneBy (.hostKey d) s d (fun u => setSec u { s.sec with hostKeys := [(62, { data := [1] })] }))
  , (let d := cmdD 0x69 0 0 0x1000 0 0 0 0 (List.replicate 32 5); let s := withCmd (up []); s.cmdReady d 0x69 && doneBy (.otpCustKey d) s d (fun u => setSec u { s.sec with custKey := List.replicate 32 5, custWritten := true }))
  , (let d := cmdD 0x69 0 0 0x1000 0 0 0 0 (List.replicate 32 5); let s := { withCmd (up []) with sec := { State.reset.sec with custWritten := true } }; gives (.otpCustKey d) s (cmdFinish d 0 Status.errOtp 0 (s.cmdTaken d)))
  , (let d := cmdD 0x68 0 (3 + 14 * 65536) 0x1000 0 0 0 0 []; let s := { withCmd (up []) with sec := { State.reset.sec with ctxs := [(14, some ⟨{}, [], [], [], []⟩)] } }
     s.cmdReady d 0x68 && !gcmBad d s && gcmOp d == 3 && doneBy (.gcm d) s d (fun u => count (setGcmCtx u 14 none) 10 10))
  , (let d := cmdD 0x68 3 0 0x1000 0 0 0 0 []; let s := withCmd (up []); s.cmdReady d 0x68 && !gcmBad d s && gcmFirst d && gcmLast d && worksBy (.gcm d) s d)
  , (let d := cmdD 0x68 1 (14 * 65536) 0x1000 0 0 0 0 []; let s := withCmd (up []); s.cmdReady d 0x68 && !gcmBad d s && gcmFirst d && !gcmLast d && gcmOp d != 3 &&
       gives (.gcm d) s ((setSec (s.cmdTaken d) { s.sec with ctxs := [(14, some (gcmFresh d s))] }).cmdWorks d))
  , (let d := cmdD 0x68 0 (3 + 14 * 65536) 0x1000 0 0 0 0 []; let s := withCmd (up []); s.cmdReady d 0x68 && gcmBad d s && answersOnly (.gcm d) s Status.errField true) ] = true := by
  decide +kernel

/-- A command of code `c` at work. -/
def workS (c : Nat) (x : Sec) : State :=
  { withCmd (up []) with sec := x, host := { (withCmd (up [])).host with work := [{ ring := 0, index := 0, code := c, pick := 0, desc := cmdD c 0 0 0x1000 64 0x2000 0 0 [] }] } }

/-- `workS` whose job the identity engine performs. -/
def idS (c : Nat) : State := workS c { idJob := some (0, 0) }

/-- A header whose body length is 3. -/
def hdr3 : List Byte := List.replicate 20 0 ++ leBytes 4 3 ++ List.replicate 488 0

/-- The work ends. What an uninterpreted function answers (a digest, a signature, an image that passes) is not compared, and a clause
whose hypothesis is such an answer has no state here that can be evaluated. -/
theorem witness_CommandWorkEnds : holds
  [ [0x63, 0x64, 0x65].all (fun c => gives (.commandWorkEnd 0 0 { reads := [[1]] }) (workS c {}) (workS c {}) &&
       after (.commandWorkEnd 0 0 { failed := true }) (idS c) (fun t => t.host.work == [] && cntVal t 14 16 == 1) &&
       (idS c).host.work.any (fun w => isIdJob w && w.code == c))
  , [0x63, 0x64, 0x65, 0x68].all (fun c => (idS c).sec.idJob == some (0, 0) && ((idS c).host.work.find? (fun w => w.ring == 0 && w.index == 0)).map (·.code) == some c)
  , (let s := workS 0x62 { image := imgOf 3, otpArb := 2 }; !s.power.pwrFail && gives (.commandWorkEnd 0 0 {}) s (workEnd (setSec s { s.sec with otpArb := 3 }) 0 0 Status.done 0))
  , (let s := { workS 0x62 { image := imgOf 3, otpArb := 2 } with power := { (up []).power with pwrFail := true } }; gives (.commandWorkEnd 0 0 {}) s s)
  , (let s := workS 0x66 { trngStopped := true }; !trngGives s && gives (.commandWorkEnd 0 0 {}) s s)
  , (let s := workS 0x66 { trngOk := true, drbg := [(0, ⟨[], 65536⟩)] }; trngGives s && trngAhead s && gives (.commandWorkEnd 0 0 {}) s s)
  , (let s := workS 0x66 { trngOk := true }; trngGives s && !trngAhead s && after (.commandWorkEnd 0 0 {}) s (fun t => t.host.work == [] && t.draws == s.draws + 1))
  , (let s := workS 0x67 { trngOk := true }; after (.commandWorkEnd 0 0 {}) s (fun t => t.host.work == [] && t.draws == s.draws + 1))
  , (let s := { workS 0x50 {} with reed := { State.reset.reed with loading := some (0, 0) } }; gives (.commandWorkEnd 0 0 {}) s (workEnd (shaperLoadWork {} s).2.2 0 0 Status.done 0))
  , (let s := { workS 0x70 {} with draft := { State.reset.draft with loading := some (0, 0) } }; gives (.commandWorkEnd 0 0 {}) s (workEnd (draftLoadWork {} s).2.2 0 0 Status.done 0))
  , (let s := workS 0x60 { job := .install 1 [] }; imgCheck (imgOf 0) s.sec.arbTest != 0 && gives (.commandWorkEnd 0 0 { reads := [imgOf 0] }) s (workEnd (imgStop s) 0 0 Status.errSig 0))
  , (let s := workS 0x60 { job := .install 2 hdr3 }; after (.commandWorkEnd 0 0 {}) s (fun t => t.sec == { s.sec with job := .install 3 hdr3 }))
  , (let s := workS 0x60 { job := .install 3 hdr3 }; after (.commandWorkEnd 0 0 { reads := [[1, 2, 3, 4]] }) s (fun t => t.sec.job == .install 4 hdr3 && flashSlot t (targetSlot s) == List.replicate 512 0xFF ++ [1, 2, 3]))
  , (let s := workS 0x61 { job := .activate }; !(testSlot s (targetSlot s) s.sec.arbTest).1 && gives (.commandWorkEnd 0 0 {}) s (workEnd (imgStop (testSlot s (targetSlot s) s.sec.arbTest).2) 0 0 Status.errSig 0))
  , (let s := workS 0x61 { job := .swapped 5 }; gives (.commandWorkEnd 0 0 {}) s (workEnd (imgStop (writeRec s s.sec.running)) 0 0 Status.done 0))
  , (let s := workS 0x60 { job := .install 3 hdr3 }; gives (.commandWorkEnd 0 0 { progress := some 9 }) s (imgProgress 0x60 9 s))
  , (let s := { workS 0x66 { trngStopped := true } with pick := { point := 1 } }; gives (.randomEntropyTimeout 0 0) s (workEnd s 0 0 Status.errEntropy 0)) ] = true := by
  decide +kernel

/-! ## Rings -/

/-- Rings 1 (CQ) and `r`, the host runs. -/
def ringS (r : Nat) (x c : Ring) : State :=
  { up [(Reg.hostCtrl, 1)] with host := { State.reset.host with bme := true, rings := if r = 0 then [(0, x), (1, c)] else [(1, c), (r, x)] } }

theorem witness_CompletionsPostInOrder : holds
  [ (let w : RingWait := ⟨1, 1, false, { index := 1 }⟩; let s := ringS 2 (prodRing .cmd) cqRing; (post s 2 w).out == s.out && ringAt (post s 2 w) 2 == { ringAt s 2 with waits := [w] })
  , (let w : RingWait := ⟨0, 0, false, { index := 1 }⟩; let s := ringS 2 (prodRing .cmd) { cqRing with done := 64, db := 0 }; cqFree s 1 == 0 && (post s 2 w).out == s.out && (ringAt (post s 2 w) 2).waits == [w] && (ringAt (post s 2 w) 2).done == 0)
  , (let w : RingWait := ⟨65535, 65535, false, { index := 5 }⟩; let s := ringS 2 { prodRing .cmd with done := 65535 } { cqRing with done := 127, db := 127, parity := true, lost := true }
     let t := post s 2 w
     decide (0 < cqFree s 1) && t.out == [.completion 1 127 (0x100000 + 32 * 63) false true w.entry] && (ringAt t 2).done == 0 && (ringAt t 2).waits == [] && (ringAt t 1).done == 128 && !(ringAt t 1).parity) ] = true := by
  decide +kernel

/-- `withCmd` whose ring 2 is `x`. -/
def withRing (x : Ring) : State := { withCmd (up []) with host := { (withCmd (up [])).host with rings := [(0, prodRing .cmd), (1, cqRing), (2, x)] } }

/-- The command is refused with status `st` and leaves every ring but its own and the CQ as it was. -/
def refusesBy (c : Instr) (s : State) (st : Nat) : Bool := answersOnly c s st true && after c s (fun t => ringAt t 2 == ringAt s 2)

theorem witness_RingCommandsConfigure : holds
  [ (let d := cmdD 0 0 0 0 0 0 0 0 []; let s := queued (withCmd (up [])) d; s.cmdReady d 0 && doneBy (.nop d) s d (fun u => u))
  , (let d := cmdD 1 0 (2 + 1 * 65536 + 6 * 2 ^ 24) 0x4000 0 1 0 0 []; let s := withCmd (up []); s.cmdReady d 1 && !sweepOwns s 1 && doneBy (.ringSetup d) s d (fun u => setRing u 2 (freshRing .tx 6 0x4000 1 0 1 0 false)) &&
       s.cmdReady d 1 && refusesBy (.ringSetup d) (withRing (prodRing .tx)) Status.busy &&
       refusesBy (.ringSetup d) { withRing (prodRing .tx) with stg := [(Reg.pickSweepCtrl, 0x80000000 + 1 * 65536 + 1)], cur := [(Reg.pickSweepCtrl, 0x80000000 + 1 * 65536 + 1)] } Status.errField)
  , (let d := cmdD 1 0 (2 + 1 * 65536 + 6 * 2 ^ 24) 0x4000 0 3 0 0 []; let s := withCmd (up []); s.cmdReady d 1 && (ringAt s 3).kind != .cq && refusesBy (.ringSetup d) s Status.errField && refusesBy (.ringSetup d) (withRing (prodRing .tx)) Status.errField)
  , (let d := cmdD 1 0 (511 + 4 * 65536 + 16 * 2 ^ 24) 0x4000 0 0 (3 + 256 + 7 * 65536) 1 []; let s := withCmd (up []); s.cmdReady d 1 && doneBy (.ringSetup d) s d (fun u => setRing u 511 (freshRing .cq 16 0x4000 0 3 1 7 true)))
  , (let d := cmdD 2 0 (2 + 16 * 2 ^ 24) 0x4000 0 0 0 0 []; let s := withRing { prodRing .rx with db := 5, next := 5, done := 5, parity := true }
     s.cmdReady d 2 && ringIdle s 2 && doneBy (.ringResize d) s d (fun u => setRing u 2 { prodRing .rx with log2 := 16, base := 0x4000 }) &&
       refusesBy (.ringResize d) (withRing { prodRing .rx with db := 5 }) Status.busy && refusesBy (.ringResize d) (withRing { prodRing .rx with state := .stopping }) Status.busy &&
       refusesBy (.ringResize d) (withRing {}) Status.errField)
  , (let d := { cmdD 2 0 (2 + 16 * 2 ^ 24) 0x4000 0 0 0 0 [] with ring := 2 }; let s := withRing (prodRing .cmd); s.cmdReady d 2 && after (.ringResize d) s (fun t => ringAt t 2 == { ringAt s 2 with done := 1 } && cntVal t 14 0 == 0 && t.selvedge.waiting.length == 1))
  , (let d := cmdD 3 0 2 0 0 0 0 0 []; let s := withRing {}; s.cmdReady d 3 && doneBy (.ringStop d) s d (fun u => u))
  , (let d := cmdD 3 0 2 0 0 0 0 0 []; let s := withRing { prodRing .rx with state := .stopping, stops := [(0, 9)] }; after (.ringStop d) s (fun t => (ringAt t 2).stops == [(0, 9), (0, 0)]))
  , (let d := cmdD 3 0 2 0 0 0 0 0 []; let s := withRing cqRing; s.cmdReady d 3 && !ringNamed s 2 && doneBy (.ringStop d) s d (fun u => setRing u 2 {}))
  , (let d := cmdD 3 0 2 0 0 0 0 0 []; let s0 := withRing cqRing; let s := { s0 with host := { s0.host with rings := s0.host.rings ++ [(3, { prodRing .tx with cq := 2 })] } }; s.cmdReady d 3 && ringNamed s 2 && refusesBy (.ringStop d) s Status.busy)
  , (let d := cmdD 3 0 2 0 0 0 0 0 []; let s := withRing { prodRing .rx with db := 1, posted := [(0, 0x3000, 256)] }
     after (.ringStop d) s (fun t => (ringAt t 2).state == .stopping && (ringAt t 2).stops == [(0, 0)] && (ringAt t 2).posted == []))
  , (let d := cmdD 4 0 2 0 0 0 (3 + 256 + 7 * 65536) 1 []; let s := withRing { cqRing with armed := true, unsignalled := 1 }
     s.cmdReady d 4 && doneBy (.cqModerate d) s d (fun u => signalCq (setRing u 2 { ringAt s 2 with vector := 3, modCount := 1, modTime := 7, irqEn := true }) 2) &&
       refusesBy (.cqModerate d) (withRing (prodRing .tx)) Status.errField)
  , (let d := cmdD 5 0 2 0x3000 0 0 0 0 []; let s := withCmd (up []); s.cmdReady d 5 && doneBy (.ringQuery d) s d (fun u => dmaWrite u 0x3000 (ringRecord (ringAt s 2))))
  , (let s := ringS 2 { prodRing .tx with state := .stopping } cqRing; gives (.ringEntersOff 2) s (setRing s 2 {}))
  , (let s0 := withRing { prodRing .tx with state := .stopping, stops := [(0, 0)] }; let s := { s0 with host := { s0.host with work := [{ ring := 0, index := 0, code := 3, pick := 0 }] } }
     gives (.ringEntersOff 2) s (workEnd (setRing s 2 {}) 0 0 Status.done 0)) ] = true := by
  decide +kernel

theorem witness_DoorbellsFetchDescriptors : holds
  [ (let s := { ringS 2 (prodRing .tx) cqRing with stg := [(Reg.hostCtrl, 1), (Reg.hostKickMap 3, 255)], cur := [(Reg.hostCtrl, 1), (Reg.hostKickMap 3, 255)] }
     hostRuns s && okI s && (fld s (Reg.hostKickMap 3) 7 0).testBit 7 && after (.hostKick 3 15 128) s (fun t => t.host.inFlight == [7] && t.out == [.doorbellFetch 7 (dbAddr s 7)] && cntVal t 14 0 == 1 && t.host.again == []) &&
       after (.hostKick 3 15 128) { s with host := { s.host with inFlight := [7] } } (fun t => t.host.again == [7] && t.out == [] && t.host.inFlight == [7]) &&
       after (.hostKick 3 15 128) { s with stg := [(Reg.hostCtrl, 1), (Reg.hostKickMap 3, 127)], cur := [(Reg.hostCtrl, 1), (Reg.hostKickMap 3, 127)] } (fun t => t.host == s.host && t.out == [] && cntVal t 14 1 == 1))
  , (let s0 := ringS 2 (prodRing .tx) cqRing; let s := { s0 with stg := [(Reg.hostCtrl, 1), (Reg.hostKickMap 0, 1)], cur := [(Reg.hostCtrl, 1), (Reg.hostKickMap 0, 1)], host := { s0.host with inFlight := List.replicate 64 9 } }
     reqRoom s 0 == 0 && after (.hostKick 0 15 1) s (fun t => t.host.again == [0] && t.out == []))
  , (let s := { ringS 2 (prodRing .tx) cqRing with host := { (ringS 2 (prodRing .tx) cqRing).host with inFlight := [0] } }; after (.doorbellFetchDone 0 none) s (fun t => t.host.inFlight == [] && cntVal t 14 16 == 1))
  , (let s := { ringS 2 (prodRing .tx) cqRing with host := { (ringS 2 (prodRing .tx) cqRing).host with inFlight := [0] } }; let l := List.replicate 8 (0 : Byte) ++ [63, 0, 0, 0]
     gives (.doorbellFetchDone 0 (some l)) s (issueFetches ((List.range 64).foldl (fun t k => acceptIndex t k (leAt l (4 * k) 2)) (setHost s { s.host with inFlight := [] }))))
  , (let s := ringS 2 (prodRing .tx) cqRing; let t := acceptIndex s 2 64; t.host == s.host && cntVal t 14 3 == 1 && flag t Reg.hostStat 10)
  , (let s := ringS 2 { prodRing .tx with db := 2 } cqRing; (acceptIndex s 2 1).host == s.host)
  , (let s := ringS 2 { prodRing .tx with db := 2 } cqRing; (ringAt (acceptIndex s 2 63) 2).db == 63)
  , (let s := ringS 2 { prodRing .tx with reading := true, retry := 15 } cqRing; decide (0 < cqFree s 1) && after (.descriptorReadDone 2 ⟨some 0, none, false⟩) s (fun t => ringAt t 2 == { ringAt s 2 with reading := false, mism := true } && t.out == []))
  , (let s := ringS 2 { prodRing .cmd with reading := true, retry := 16 } cqRing; let w := 2 ^ 255; after (.descriptorReadDone 2 ⟨some w, some [], true⟩) s (fun t => t.host.cmds == [⟨⟨2, 0, w, some []⟩, true⟩] && (ringAt t 2).next == 1 && (ringAt t 2).retry == 0))
  , (let s := ringS 2 { prodRing .tx with reading := true, retry := 16 } cqRing; after (.descriptorReadDone 2 ⟨some 0, none, false⟩) s (fun t => (ringAt t 2).state == .stalled && flag t Reg.hostStat 11 && raised s t 0x1E 0x50))
  , (let s := ringS 2 { prodRing .tx with mism := true, next := 65 } cqRing; gives (.descriptorReread 2) s (emit (count (setRing s 2 { ringAt s 2 with mism := false, reading := true, retry := 1 }) 14 5) (.descriptorFetch 2 65 (0x200000 + 32))))
  , (let s0 := ringS 2 { prodRing .tx with mism := true, next := 65 } cqRing; let s := { s0 with host := { s0.host with bme := false } }; !hostRuns s && gives (.descriptorReread 2) s s) ] = true := by
  decide +kernel

/-- A TX descriptor of `n` bytes. -/
def txD (n : Nat) : Nat := 0x5000 + n * 2 ^ 64

/-- A TCP/IPv4 template of 54 header bytes with 65 bytes of payload, and its descriptor with MSS 64. -/
def segData : List Byte := List.replicate 12 0 ++ beBytes 2 0x0800 ++ [0x45] ++ List.replicate 8 0 ++ [6] ++ List.replicate 22 0 ++ [0x50] ++ List.replicate 72 0
def segD (hdr : Nat) : Nat := 0x5000 + 119 * 2 ^ 64 + 64 * 2 ^ 96 + hdr * 2 ^ 112 + 2 ^ 253

/-- TX ring 2 holds the send `w`. -/
def sendS (w : Nat) : State := ringS 2 { prodRing .tx with chain := [(0, w)] } cqRing

/-- The reads of the send's data have been issued and have returned `l`. -/
def readBack (s : State) (l : List Byte) : State := setRing (startReads s 2) 2 { ringAt (startReads s 2) 2 with reqs := 0, data := some l }

theorem witness_HostFunctionServes : holds
  [ (let s := sendS (txD 13); sendBad [(0, txD 13)] && gives (.txSend 2 none) s (endSend s 2 [(0, txD 13)] Status.errField 0))
  , (let s0 := sendS (txD 14); let s := { s0 with host := { s0.host with inFlight := List.range 8, rings := s0.host.rings ++ [(3, { prodRing .tx with chain := [(0, txD 14)], asked := true, reqs := 2000 })] } }
     !sendBad [(0, txD 14)] && reqRoom s 2 == 0 && gives (.txSend 2 none) s s)
  , (let s := sendS (txD 14); !sendBad [(0, txD 14)] && decide (0 < reqRoom s 2) && after (.txSend 2 none) s (fun t => (ringAt t 2).done == 1 && cntVal t 14 16 == 1))
  , (let s := sendS (txD 16383); !sendBad [(0, txD 16383)] && sendBad [(0, txD 16384)] && decide (0 < reqRoom s 2) && after (.txSend 2 none) s (fun t => (ringAt t 2).done == 1))
  , (let s := sendS (txD 14); let l := List.replicate 14 (1 : Byte); gives (.txSend 2 (some l)) s (heddleInput (endSend (readBack s l) 2 [(0, txD 14)] Status.done 14) (sendFrame s 2 0 0 (txD 14) l)))
  , (let w := txD 14 + 2 ^ 250; let s := sendS w; let l := List.replicate 14 (1 : Byte); !sendBad [(0, w)] && gives (.txSend 2 (some l)) s (heddleInput (sendOut (readBack s l) 2 [(0, w)]) (sendFrame s 2 0 0 w l)))
  , (let s := sendS (segD 55); !sendBad [(0, segD 55)] && segBad (readBack s segData) segData 55 64 && gives (.txSend 2 (some segData)) s (endSend (readBack s segData) 2 [(0, segD 55)] Status.errSeg 0))
  , (let s := sendS (segD 54); !segBad (readBack s segData) segData 54 64 && segCount 65 64 == 2 && fifoRoom s 1536 && after (.txSend 2 (some segData)) s (fun u => (ringAt u 2).sent == 1 && (ringAt u 2).data == some segData))
  , (let s := ringS 2 (prodRing .tx) { cqRing with irqEn := true, armed := true, unsignalled := 1, modTime := 1, modCount := 5 }; isCqRun s 1 && gives (.msixModTimer 1) s (sendMsix (setRing s 1 { ringAt s 1 with armed := false, unsignalled := 0 }) 0))
  , (let s := State.reset; !s.power.inReset && !s.power.ready && [false, true].all (fun en => gives (.busMasterEnable en 1 1 {}) s (emit s .configRetry)))
  , (let s := ringS 2 (prodRing .tx) cqRing; let c : PcieCfg := { tag10 := true, mrrs := 5 }; after (.busMasterEnable false 15 31 c) s (fun t => t.host == { s.host with bme := false, linkUp := true, width := 7, speed := 15, pcie := c } && !flag t Reg.hostStat 8))
  , (let s := up []; let c : PcieCfg := { msixEn := true }; after (.busMasterEnable true 1 1 c) s (fun t => t.host.bme && t.host.linkUp && t.host.pcie == c && flag t Reg.hostStat 8))
  , (let s := { ringS 2 (prodRing .tx) cqRing with cnt := [(cntKey 14 0, 7)], shuttle := { chans := [(15, { job := some { ring := 2, index := 0, word := 0 } })] }
                                                   host := { (ringS 2 (prodRing .tx) cqRing).host with linkUp := true, msixTable := [(0, 1)], msixPending := [3], pcie := { mps := 2 }, aer := 4 } }
     okI s && after (.hostFunctionReset false) s (fun t => t.host.rings == [] && t.host.cmds == [] && t.host.work == [] && t.host.msixTable == [] && t.host.msixPending == [] && !t.host.bme && t.host.linkUp && t.host.pcie == {} && t.host.aer == 0 && t.sec.job == .none && t.sec.keys == s.sec.keys &&
       rd t Reg.hostCtrl == 0 && cntVal t 14 0 == 0 && (chanAt t 15).job == none && t.out == s.out) && after (.hostFunctionReset true) s (fun t => !t.host.linkUp && t.host.rings == []))
  , (let s := up [(Reg.hostCmdCfg, 2 ^ 31 + 6 * 65536)]; domOn s 3 && after (.hostCmdCfgWrite false 15 (2 ^ 31 + 7 * 65536)) s (fun t => same s t Reg.hostCmdCfg && raised s t 0x1E 1))
  , (let s := up []; after (.hostCmdCfgWrite false 15 (2 ^ 31 + 16 * 65536)) s (fun t => fldS t Reg.hostCmdCfg 20 16 == 16 && (rdS t Reg.hostCmdCfg).testBit 31 && rd t Reg.hostCmdCfg == rd s Reg.hostCmdCfg)) ] = true := by
  decide +kernel

/-! ## Shuttle -/

/-- A Shuttle descriptor: source, destination, LEN, OP, both sides in DRAM. -/
def shD (src dst len op : Nat) : Nat := src + dst * 2 ^ 64 + len * 2 ^ 128 + op * 2 ^ 160 + (if op = 1 then 0 else 2 ^ 164) + 2 ^ 166

/-- Channel 15 serves ring 2, DRAM of 1792 MiB. -/
def shS (w : List (Nat × Nat)) (x : ShChan) : State :=
  let r : Sparse Word := [(Reg.hostCtrl, 1), (Reg.shuttleCtrl, 1), (Reg.shuttleChCfg 15, 2 ^ 31 + 2), (Reg.dramStat, 2 ^ 31 + 1792 * 65536)]
  { ringS 2 { prodRing .shuttle with chain := w, next := 1, db := 1 } cqRing with stg := r, cur := r, shuttle := { chans := [(15, { x with live := true })] } }

theorem witness_ShuttleMovesData_start : holds
  [ [(0, Instr.copy 15), (1, .fill 15), (2, .compare 15)].all (fun (op, k) => let w := shD 0 0x100000 4096 op; let s := shS [(0, w)] {}
     chanServes s 15 && chanRing s 15 == 2 && okI s && shTest s w == none && shOp w == op && gives k s (setChan (setRing s 2 { ringAt s 2 with chain := [] }) 15 { chanAt s 15 with job := some { ring := 2, index := 0, word := w } }))
  , [(0, Instr.copy 15), (1, .fill 15), (2, .compare 15)].all (fun (op, k) => let w := shD 0 0x100000 4096 op; let s := shS [(0, w)] { winReset := true, src := some ⟨0, 12, none, 5⟩ }
     gives k s (setChan (setRing s 2 { ringAt s 2 with chain := [] }) 15 { live := true, job := some { ring := 2, index := 0, word := w } }))
  , [(0, Instr.copy 15), (1, .fill 15), (2, .compare 15)].all (fun (op, k) => let w := shD 0 0x100000 4095 op; let s := shS [(0, w)] {}; shTest s w == some 0x40 &&
     gives k s (shComplete (setRing s 2 { ringAt s 2 with chain := [] }) 15 2 0 w 0x40 0 none))
  , [(0, [Instr.fill 15, .compare 15]), (1, [.copy 15, .compare 15]), (2, [.copy 15, .fill 15])].all (fun (op, l) => l.all (fun k => let s := shS [(0, shD 0 0x100000 4096 op)] {}; gives k s s)) ] = true := by
  decide +kernel

theorem witness_ShuttleMovesData_bursts : holds
  [ (let w := shD 0 0x100000 4160 1; let j : ShJob := { ring := 2, index := 0, word := w, bytes := 4096 }; let s := shS [] { job := some j }
     shPick s == some 15 && shBurst j (chanAt s 15) == (64, 4096, 0x101000) && after (.shuttleBurst {}) s (fun t => t.shuttle.rr == 15 && (chanAt t 15).job == some { j with bytes := 4160, status := some 0 }))
  , (let w := shD 0 0x100000 4096 0; let j : ShJob := { ring := 2, index := 0, word := w }; let s := { shS [] { job := some j } with dram := [(5, 7), (0x100005, 8)] }
     (shBurst j (chanAt s 15)).1 == 4096 && burstHit w 4096 0 0x100000 (some 4095) && after (.shuttleBurst { memErr := some 4095 }) s (fun t =>
       (chanAt t 15).job == some { j with status := some 0x43 } && t.dram == s.dram && t.cnt == s.cnt && t.selvedge.waiting.map (fun r => (r.source, r.code, r.rootSource, r.rootCode)) == [(0x1F, 0x12, 0x0E, 0x11)]))
  , (let w := shD 0 0x100000 64 0 - 2 ^ 164; let j : ShJob := { ring := 2, index := 0, word := w }; let s := shS [] { job := some j }
     shHasSrc w && shSpace w false == 0 && after (.shuttleBurst { src := none }) s (fun t => (chanAt t 15).job == some { j with status := some Status.errDma } && t.dram == s.dram))
  , (let s := shS [] {}; shPick s == none && gives (.shuttleBurst {}) s s)
  , (let w := shD 0 0x100000 64 0; let s := shS [] { job := some { ring := 2, index := 0, word := w, bytes := 64, status := some 0 } }; after (.shuttleDescDone 15) s (fun t => (chanAt t 15).job == none && (ringAt t 2).done == 1))
  , (let j : ShJob := { ring := 2, index := 0, word := 0 }; let s := shS [] { job := some j }; after (.abort 15 15) s (fun t => (chanAt t 15).job == some { j with status := some 0x44 }))
  , (let s := shS [] { src := some ⟨0, 12, none, 5⟩ }; after (.winReset 15 15) s (fun t => (chanAt t 15).src == none && (chanAt t 15).dst == none))
  , (let s := shS [] { src := some ⟨0, 12, none, 5⟩, job := some { ring := 2, index := 0, word := 0 } }; after (.winReset 15 15) s (fun t => chanAt t 15 == { chanAt s 15 with winReset := true })) ] = true := by
  decide +kernel

/-! ## Skein -/

/-- Core `c` runs as `k` with instruction word `w` at its program counter. -/
def skS (c w : Nat) (k : SkCore) : State := setCore (up []) c { k with st := .run, imem := [(k.pc, BitVec.ofNat 32 w)] }

/-- D1 = 0x8001, D2 = 0x7FFF, D3 = 3; A0 = −2^39, A1 = 2^39 − 1; X0 = 5, X4 = 16383; X memory 5 holds 7, Y memory 16383 holds 9. -/
def kW : SkCore :=
  let k := setD (setD (setD {} 1 0x8001) 2 0x7FFF) 3 3
  let k := setA (setA k 0 0x8000000000) 1 0x7FFFFFFFFF
  { setX (setX k 0 5) 4 16383 with xmem := [(5, 7)], ymem := [(16383, 9)] }

/-- Opcode `o` in bits 31..26 over the fields `w`. -/
def op (o w : Nat) : Nat := o * 2 ^ 26 + w

/-- The instruction `i` of word `w` is about to run on core `c`, and `cmd` gives `f` of the state and the core. -/
def skRun (cmd : Instr) (c w : Nat) (k : SkCore) (i : SkInstr) (f : State → SkCore → State) : Bool :=
  let s := skS c w k
  s.skRuns c i && gives cmd s (f s (coreAt s c))

theorem witness_SkeinComputes : holds
  [ (let k := kW; [(Instr.mov 2, 0, dAt k 2), (.add 2, 1, dAt k 1 + dAt k 2), (.sub 2, 2, dAt k 1 - dAt k 2), (.and 2, 3, dAt k 1 &&& dAt k 2), (.or 2, 4, dAt k 1 ||| dAt k 2),
       (.xor 2, 5, dAt k 1 ^^^ dAt k 2), (.shlData 2, 6, dAt k 1 <<< 15), (.shrData 2, 7, (dAt k 1).sshiftRight 15)].all (fun p =>
       skRun p.1 2 (op 7 (p.2.1 * 2 ^ 22 + 1 * 2 ^ 18 + 2 * 2 ^ 14 + 15)) k (.dop p.2.1 1 2 15) (fun s k => s.skDone 2 (setD k 1 p.2.2))))
  , skRun (.cmp 0) 0 (op 7 (8 * 2 ^ 22 + 3 * 2 ^ 18 + 2 * 2 ^ 14)) kW (.dop 8 3 2 0) (fun s k => s.skDone 0 (setSr (setSr k 0 false) 1 true))
  , (let s := skS 0 (op 7 (8 * 2 ^ 22 + 1 * 2 ^ 18 + 2 * 2 ^ 14)) kW; s.skRuns 0 (.dop 8 1 2 0) && after (.cmp 0) s (fun t => t.draws == 1 && (coreAt t 0).pc == 1 && dAt (coreAt t 0) 1 == 0x8001))
  , skRun (.ldi 3) 3 (op 10 (15 * 2 ^ 22 + 0xFFFF)) kW (.ldi 15 0xFFFF) (fun s k => s.skDone 3 (setD k 15 0xFFFF))
  , skRun (.skeinNop 0) 0 0 { kW with pc := 0x1FFF } .nop (fun s k => s.skDone 0 k)
  , (let v := 2 * (dAt kW 1).toInt * (dAt kW 1).toInt; [(Instr.mpy 0, 0, v), (.mac 0, 1, (aAt kW 1).toInt + v), (.msu 0, 2, (aAt kW 1).toInt - v)].all (fun e =>
       skRun e.1 0 (op 4 (e.2.1 * 2 ^ 24 + 2 ^ 23 + 1 * 2 ^ 19 + 1 * 2 ^ 15)) kW (.macx e.2.1 1 1 1 false 0 0 0 0 0 0) (fun s k => s.skDone 0 (accPut k 1 e.2.2))))
  , skRun (.mac 0) 0 (op 4 (2 ^ 24 + 1 * 2 ^ 19 + 1 * 2 ^ 15 + 2 ^ 14 + 7 * 2 ^ 11 + 7 * 2 ^ 8 + 0 * 2 ^ 6 + 2 * 2 ^ 4 + 1)) kW (.macx 1 0 1 1 true 7 7 0 2 0 1)
       (fun s k => s.skDone 0 (setX (setX (setD (setD (accPut k 0 ((aAt k 0).toInt + 2 * 32767 * 32767)) 7 7) 15 9) 0 4) 4 0))
  , skRun (.mpy 0) 0 (op 4 (2 ^ 14 + 1 * 2 ^ 4)) (setM kW 0 0x8000) (.macx 0 0 0 0 true 0 0 0 1 0 0) (fun s _ => faultCore s 0 1)
  , (let v := (aAt kW 1).toInt; [(Instr.clr 0, 0, setA kW 1 0), (.shlAcc 0, 5, accPut kW 1 (v * 2 ^ 31)), (.shrAcc 0, 6, setA kW 1 ((aAt kW 1).sshiftRight 31)), (.lda 0, 9, setA kW 1 ((dAt kW 1).signExtend 40 <<< 16)),
       (.sat32 0, 10, setA kW 1 (BitVec.ofInt 40 (max (-2147483648) (min 2147483647 v))))].all (fun e =>
       skRun e.1 0 (op 6 (e.2.1 * 2 ^ 22 + 2 ^ 21 + 1 * 2 ^ 17 + 31)) kW (.aop e.2.1 1 1 31) (fun s _ => s.skDone 0 { e.2.2 with st := .run, imem := (coreAt s 0).imem })))
  , (let k := setA kW 0 0x007FFF7FFF; [(Instr.movr 0, 7), (.movt 0, 8)].all (fun e => skRun e.1 0 (op 6 (e.2 * 2 ^ 22 + 4 * 2 ^ 17)) k (.aop e.2 0 4 0) (fun s k => s.skDone 0 (setD k 4 0x7FFF))))
  , (let k := setA kW 0 0x007FFF8000; skRun (.movr 0) 0 (op 6 (7 * 2 ^ 22 + 4 * 2 ^ 17)) k (.aop 7 0 4 0) (fun s k => s.skDone 0 (setSr (setD k 4 0x7FFF) 2 true)))
  , (let k := setA kW 0 0xFF7FFFFFFF; skRun (.movt 0) 0 (op 6 (8 * 2 ^ 22 + 4 * 2 ^ 17)) k (.aop 8 0 4 0) (fun s k => s.skDone 0 (setSr (setD k 4 0x8000) 2 true)))
  , [(Instr.neg 0, 1, 1, (-549755813887 : Int)), (.abs 0, 2, 1, 549755813887), (.adda 0, 3, 0, -1), (.suba 0, 4, 0, -549755813888 - 549755813887)].all (fun e =>
       e.2.1 == 4 || skRun e.1 0 (op 6 (e.2.1 * 2 ^ 22 + e.2.2.1 * 2 ^ 21)) kW (.aop e.2.1 e.2.2.1 0 0) (fun s k => s.skDone 0 (setA k e.2.2.1 (BitVec.ofInt 40 e.2.2.2))))
  , [(Instr.neg 0, 1), (.abs 0, 2), (.suba 0, 4)].all (fun e => let s := skS 0 (op 6 (e.2 * 2 ^ 22)) kW; s.skRuns 0 (.aop e.2 0 0 0) && after e.1 s (fun t => t.draws == 2 && (coreAt t 0).pc == 1))
  , (aAt (accPut kW 1 549755813888) 1).toInt == 549755813887 && srBit (accPut kW 1 549755813888) 3 && (aAt (accPut kW 1 (-549755813889)) 1).toInt == -549755813888 ] = true := by
  decide +kernel

theorem witness_SkeinMovesData : holds
  [ skRun (.ld 0) 0 (op 8 (2 * 2 ^ 22 + 4 * 2 ^ 19 + 1 * 2 ^ 17)) kW (.ld 2 4 1) (fun s k => s.skDone 0 (setX (setD k 2 9) 4 0))
  , skRun (.st 0) 0 (op 9 (2 * 2 ^ 22 + 0 * 2 ^ 19 + 2 * 2 ^ 17)) kW (.st 2 0 2) (fun s k => s.skDone 0 (setX (setData k 0 5 0x7FFF) 0 4))
  , skRun (.ld 0) 0 (op 8 (1 * 2 ^ 17)) (setM kW 0 0x8000) (.ld 0 0 1) (fun s _ => faultCore s 0 1)
  , skRun (.st 0) 0 (op 9 (1 * 2 ^ 17)) (setM kW 0 0x800F) (.st 0 0 1) (fun s _ => faultCore s 0 1)
  , skRun (.ldx 0) 0 (op 13 (7 * 2 ^ 23 + 16383)) kW (.ldx 7 16383) (fun s k => s.skDone 0 (setX k 7 16383))
  , skRun (.ldm 0) 0 (op 14 (7 * 2 ^ 23 + 65535)) kW (.ldm 7 65535) (fun s k => s.skDone 0 (setM k 7 65535))
  , skRun (.addx 0) 0 (op 12 (0 * 2 ^ 23 + 16383)) (setM kW 0 5) (.addx 0 16383) (fun s k => s.skDone 0 (setX k 0 4))
  , skRun (.addx 0) 0 (op 12 (0 * 2 ^ 23 + 1)) (setM kW 0 0x8000) (.addx 0 1) (fun s _ => faultCore s 0 1)
  , skRun (.ftap 0) 0 (op 5 (2 ^ 25 + 1 * 2 ^ 20 + 2 * 2 ^ 16 + 1 * 2 ^ 12 + 2 * 2 ^ 8)) kW (.ftap true 0 1 2 0 1 0 2) (fun s k =>
       s.skDone 0 (setX (setX (setD (setData (setD (accPut k 0 ((aAt k 0).toInt - 2 * -32767 * 32767)) 1 7) 0 6 7) 2 9) 0 6) 4 16382))
  , skRun (.ftap 0) 0 (op 5 0) (setM kW 0 0x8001) (.ftap false 0 0 0 0 0 0 0) (fun s _ => faultCore s 0 1)
  , (let k := { kW with lc := 1, ls := 2, le := 3, ipc := 4, isr := 5, ien := 6, ipend := 0x80 }
     [(0, k.sr), (1, 1), (2, 2), (3, 3), (4, 4), (5, 5), (6, 6), (7, 0x80), (8, 0), (9, 0), (10, 2)].all (fun e => skRun (.mvs 2) 2 (op 16 (3 * 2 ^ 22 + e.1)) k (.mvs 3 e.1) (fun s k => s.skDone 2 (setD k 3 e.2))))
  , skRun (.mvs 0) 0 (op 16 31) kW (.mvs 0 31) (fun s _ => faultCore s 0 1)
  , (let s := skS 3 (op 16 11) kW; s.skRuns 3 (.mvs 0 11) && after (.mvs 3) s (fun t => t.draws == 1 && (coreAt t 3).pc == 1))
  , skRun (.mvs 3) 3 (op 16 15) kW (.mvs 0 15) (fun s _ => faultCore s 3 1)
  , skRun (.mvs 3) 3 (op 16 (2 ^ 22 + 23)) kW (.mvs 1 23) (fun s k => s.skDone 3 (setD k 1 0))
  , (let s := { skS 3 (op 16 (2 ^ 22 + 31)) kW with stg := [(Reg.skeinMboxOut 7, 9)], cur := [(Reg.skeinMboxOut 7, 9)] }; s.skRuns 3 (.mvs 1 31) && gives (.mvs 3) s (s.skDone 3 (setD (coreAt s 3) 1 9)))
  , [(0, fun k => { k with sr := 1 }), (1, fun k => { k with lc := 0x8001 }), (2, fun k => { k with ls := 0x8001 }), (3, fun k => { k with le := 0x8001 }), (4, fun k => { k with ipc := 0x8001 }), (5, fun k => { k with isr := 0x8001 }),
       (6, fun k => { k with ien := 1 }), (7, fun (k : SkCore) => { k with ipend := 2 })].all (fun (e : Nat × (SkCore → SkCore)) => skRun (.msv 1) 1 (op 17 (2 ^ 22 + e.1)) { kW with ipend := 3 } (.msv 1 e.1) (fun s k => s.skDone 1 (e.2 k)))
  , skRun (.msv 1) 1 (op 17 (2 ^ 22 + 24)) kW (.msv 1 24) (fun s _ => faultCore s 1 1)
  , skRun (.msv 3) 3 (op 17 (2 ^ 22 + 23)) kW (.msv 1 23) (fun s _ => faultCore s 3 1)
  , skRun (.msv 3) 3 (op 17 (2 ^ 22 + 31)) kW (.msv 1 31) (fun s k => (setReg s (Reg.skeinMboxOut 7) 0x8001).skDone 3 k)
  , skRun (.msv 3) 3 (op 17 (2 ^ 22 + 11)) kW (.msv 1 11) (fun s k => (setBit s Reg.skeinMboxCtrl 29).skDone 3 k)
  , (let s := setBit (skS 3 (op 17 (2 ^ 22 + 11)) kW) Reg.skeinMboxCtrl 29; s.skRuns 3 (.msv 1 11) && gives (.msv 3) s (s.skDone 3 (coreAt s 3)))
  , skRun (.trd 3) 3 (op 20 0xC2) kW (.trd 0 0xC2) (fun s _ => faultCore s 3 5)
  , skRun (.trd 2) 2 (op 20 (2 ^ 22 + 0x21)) kW (.trd 1 0x21) (fun s k => s.skDone 2 (setD k 1 (tapRead s 0x21)))
  , (let s := { skS 2 (op 20 (2 ^ 22 + 0xC2)) kW with warp := { State.reset.warp with swapDone := true } }; s.skRuns 2 (.trd 1 0xC2) && gives (.trd 2) s ({ s with warp := { s.warp with swapDone := false, swapRej := false } }.skDone 2 (setD (coreAt s 2) 1 2)))
  , (let s := dark (skS 2 (op 20 (2 ^ 22 + 0xC2)) kW) 5; s.skRuns 2 (.trd 1 0xC2) && gives (.trd 2) s (s.skDone 2 (setD (coreAt s 2) 1 0)))
  , skRun (.twr 2) 2 (op 21 0x40) kW (.twr 0 0x40) (fun s _ => faultCore s 2 5)
  , (let s := { skS 0 (op 21 (2 ^ 22 + 0x61)) kW with warp := { State.reset.warp with swapPend := true } }; s.skRuns 0 (.twr 1 0x61) && gives (.twr 0) s s)
  , skRun (.twr 0) 0 (op 21 (2 ^ 22 + 0xC2)) kW (.twr 1 0xC2) (fun s k => { s with warp := { s.warp with swapPend := true } }.skDone 0 k)
  , skRun (.twr 0) 0 (op 21 (2 ^ 22 + 0xC1)) kW (.twr 1 0xC1) (fun s k => { s with warp := { s.warp with winRun := true } }.skDone 0 k)
  , skRun (.twr 0) 0 (op 21 (2 ^ 22 + 0xC0)) kW (.twr 1 0xC0) (fun s k => { s with warp := { s.warp with cwin := 0x8001 } }.skDone 0 k)
  , (let s := skS 0 (op 21 (3 * 2 ^ 22 + 0x61)) kW; s.skRuns 0 (.twr 3 0x61) && gives (.twr 0) s ({ s with warp := { s.warp with shadow := (List.range 34).map (fun n => if n = 33 then 3 else s.warp.shadow.getD n 0) } }.skDone 0 (coreAt s 0)))
  , (let s := skS 0 (op 21 (2 * 2 ^ 22 + 0x40)) kW; s.skRuns 0 (.twr 2 0x40) && after (.twr 0) s (fun t => raised s t 0x20 1 && t.warp.shadow.getD 0 0 == 1023 && (coreAt t 0).pc == 1))
  , (let s := dark (skS 0 (op 21 0x40) kW) 5; s.skRuns 0 (.twr 0 0x40) && gives (.twr 0) s (s.skDone 0 (coreAt s 0)))
  , skRun (.twr 0) 0 (op 21 0xC3) kW (.twr 0 0xC3) (fun s k => s.skDone 0 k) ] = true := by
  decide +kernel

/-- The next core after an instruction at `k.pc`. -/
def kGo (k : SkCore) (c : Nat) : SkCore := { k with pc := (k.pc + 1) % pcSpan c, edge := false }

theorem witness_SkeinControlsFlow : holds
  [ [(0, true), (1, false), (2, true), (3, false), (4, true), (5, false), (6, true)].all (fun e =>
       skRun (.br 0) 0 (op 0x18 (e.1 * 2 ^ 22 + 0x1234)) kW (.br e.1 0x1234) (fun s k => setCore s 0 { kGo k 0 with slots := 2, target := if e.2 then some 0x1234 else none }))
  , skRun (.br 0) 0 (op 0x18 9) { kW with level := 1, lc := 2, ls := 0, le := 8 } (.br 0 9) (fun s _ => faultCore s 0 2)
  , skRun (.br 0) 0 (op 0x18 8) { kW with level := 1, lc := 2, ls := 0, le := 8 } (.br 0 8) (fun s k => setCore s 0 { kGo k 0 with slots := 2, target := some 8 })
  , skRun (.call 3) 3 (op 0x19 0x3FFF) { kW with stack := [1, 2, 3] } (.call 0x3FFF) (fun s k => setCore s 3 { kGo k 3 with slots := 2, target := some 0x3FFF, stack := [3, 1, 2, 3] })
  , skRun (.call 3) 3 (op 0x19 0x3FFF) { kW with stack := [1, 2, 3, 4] } (.call 0x3FFF) (fun s _ => faultCore s 3 3)
  , skRun (.ret 0) 0 (op 0x1A 0) { kW with stack := [7] } .ret (fun s k => setCore s 0 { kGo k 0 with slots := 2, target := some 7, stack := [] })
  , skRun (.ret 0) 0 (op 0x1A 0) kW .ret (fun s _ => faultCore s 0 3)
  , skRun (.rti 0) 0 (op 0x1B 0) { kW with ipc := 9, isr := 0x3F } .rti (fun s k => setCore s 0 { kGo k 0 with slots := 2, target := some 9, sr := 0x3F })
  , skRun (.rep 0) 0 (op 0x1C (255 * 2 ^ 16 + 0xFFFF)) { kW with level := 1, lc := 5, ls := 0, le := 900 } (.rep 256 0xFFFF false) (fun s k => setCore s 0 { kGo k 0 with outer := some (5, 0, 900), level := 2, lc := 0xFFFF, ls := 1, le := 256 })
  , skRun (.rep 0) 0 (op 0x1C (2 ^ 25 + 3)) kW (.rep 1 3 true) (fun s k => setCore s 0 { kGo k 0 with outer := none, level := 1, lc := 3, ls := 1, le := 1 })
  , skRun (.rep 0) 0 (op 0x1C 1) { kW with level := 2, lc := 5, ls := 0, le := 900 } (.rep 1 1 false) (fun s _ => faultCore s 0 3)
  , skRun (.rep 0) 0 (op 0x1C 0) { kW with haltAsk := true } (.rep 1 0 false) (fun s k => haltIfAsked (setCore s 0 { kGo k 0 with pc := 2 }) 0)
  , skRun (.wait 0) 0 (op 0x3E 0) kW .wait (fun s k => haltIfAsked (setCore s 0 { kGo k 0 with st := .wait }) 0)
  , skRun (.wait 0) 0 (op 0x3E 0) { kW with ien := 2, ipend := 2 } .wait (fun s k => haltIfAsked (setCore s 0 { kGo k 0 with st := .run }) 0)
  , skRun (.halt 0) 0 (op 0x3F 0) { kW with haltAsk := true } .halt (fun s k => coreReturn (setCore s 0 { kGo k 0 with st := .halted, haltAsk := false }) 0)
  , [(Instr.br 0, 0x18), (.call 0, 0x19), (.ret 0, 0x1A), (.rti 0, 0x1B), (.rep 0, 0x1C), (.wait 0, 0x3E), (.halt 0, 0x3F)].all (fun e =>
       (let s := skS 0 (op e.2 0) { kW with slots := 1 }; skReady s 0 && (skFetch s 0).isSome && gives e.1 s (faultCore s 0 2)) &&
       (let s := skS 0 (op e.2 0) { kW with level := 1, lc := 2 }; gives e.1 s (faultCore s 0 2)))
  , (let s := skS 3 (op 1 0) kW; skReady s 3 && (skFetch s 3).isNone && gives (.reservedOpcode 3) s (faultCore s 3 1))
  , (let s := skS 0 0 { kW with pc := 77, ien := 0x81, ipend := 0x80, sr := 0x3F }; skReady s 0 && after (.interruptTaken 0 7) s (fun t =>
       coreAt t 0 == { coreAt s 0 with pc := 0x80, ipc := 77, isr := 0x3F, sr := 0x1F, ipend := 0 } && t == setCore s 0 (coreAt t 0)))
  , (let s := skS 0 0 { kW with level := 1, edge := true, ien := 1, ipend := 1, sr := 0x20 }; after (.interruptTaken 0 0) s (fun t => (coreAt t 0).pc == 0x10 && (coreAt t 0).level == 1))
  , (let s := skS 3 0 { kW with pc := 2 ^ 14 - 1 }; let t := faultCore s 3 7; coreAt t 3 == { coreAt s 3 with st := .fault } && rd t (Reg.skeinCoreFault 3) == 2 ^ 31 + 7 * 2 ^ 24 + (2 ^ 14 - 1) && raised s t 0x23 0x70)
  , skAdvance 0 { kW with pc := 0x1FFF } .next == { kW with pc := 0 }
  , skAdvance 0 { kW with slots := 2 } .next == { kW with pc := 1, slots := 1 }
  , skAdvance 0 { kW with slots := 1, target := some 0x2001 } .next == { kW with pc := 1 }
  , skAdvance 0 { kW with slots := 1 } .next == { kW with pc := 1 }
  , skAdvance 0 { kW with level := 1, lc := 2, ls := 5 } .next == { kW with level := 1, lc := 1, ls := 5, pc := 5, edge := true }
  , skAdvance 0 { kW with level := 1, lc := 1 } .next == { kW with pc := 1 }
  , skAdvance 0 { kW with level := 2, lc := 1, outer := some (3, 4, 9) } .next == { kW with level := 1, lc := 3, ls := 4, le := 9, pc := 1 }
  , skAdvance 0 { kW with level := 2, lc := 1, outer := some (3, 4, 0) } .next == { kW with level := 1, lc := 2, ls := 4, le := 0, pc := 4, edge := true } ] = true := by
  decide +kernel

theorem witness_SkeinServicesAct : holds
  [ (let s := { up [(Reg.warpCtrl, 3)] with warp := { State.reset.warp with swapPend := true, los := false, full := true, shadow := (List.range 34).map (fun n => n + 64) } }
     okI s && flag s Reg.warpCtrl 1 && after .eqSwap s (fun t => t.warp == { s.warp with swapPend := false, swapDone := true } && (List.range 34).all (fun n => rd t (Reg.warpEqTap n) == n + 64) && fld t Reg.warpEqStat 31 16 == 1 && t.selvedge == s.selvedge))
  , (let s := { up [(Reg.warpCtrl, 3)] with warp := { State.reset.warp with winRun := true } }; after (.corrWindowEnd [40000, -40000, 3] 70000) s (fun t => !t.warp.winRun && t.warp.winOk && t.warp.epow == 65535 &&
       t.warp.corr.take 3 == [32767, -32767, 3] && (coreAt t 0).ipend.getLsbD 2))
  , (let d := cmdD 0x78 0 0 0x1000 512 0 0 0 (List.replicate 512 0); let s := { withCmd (up []) with sec := { State.reset.sec with custKey := [1] } }
     s.cmdReady d 0x78 && domOn s 31 && (coreAt s 3).st == .halted && s.sec.custKey != List.replicate 32 0 && core3Check s ((cmdData d).take 512) != 0 &&
       gives (.skeinLoad d) s (cmdFinish d 0 (core3Check s ((cmdData d).take 512)) 0 (s.cmdTaken d)) &&
       gives (.skeinLoad d) { s with sec := State.reset.sec } (cmdFinish d 0 0x48 0 ({ s with sec := State.reset.sec }.cmdTaken d)) &&
       answersOnly (.skeinLoad d) (setCore s 3 { st := .wait }) Status.busy true)
  , (let d := cmdD 0x79 0 0 0 0 0 0 0 []; let s := withCmd (skS 3 5 kW); s.cmdReady d 0x79 && after (.skeinUnload d) s (fun t => coreAt t 3 == { coreAt s 3 with st := .halted, haltAsk := false, imem := [], xmem := [], ymem := [] } && t.sec.codeDigest == []))
  , (let s := skS 2 0 { kW with bank := true, ipend := 5 }; after (.firmwareBankSwitch 2) s (fun t => t == setCore s 2 (coreAt t 2) && (coreAt t 2).st == .run && (coreAt t 2).pc == 0 && (coreAt t 2).runBank && (coreAt t 2).ipend == 5 &&
       (coreAt t 2).sr == 0x10 && (List.range 16).all (fun n => dAt (coreAt t 2) n == 0) && (coreAt t 2).xmem == kW.xmem))
  , (let s := skS 2 0 kW; after (.skeinCoreReset 2 15 0) s (fun t => (coreAt t 2).st == .halted && (coreAt t 2).pc == 0 && (coreAt t 2).sr == 0x10 && (List.range 16).all (fun n => dAt (coreAt t 2) n == 0) &&
       (List.range 8).all (fun n => xAt (coreAt t 2) n == 0 && mAt (coreAt t 2) n == 0) && (coreAt t 2).imem == (coreAt s 2).imem && (coreAt t 2).xmem == kW.xmem && (coreAt t 2).ymem == kW.ymem))
  , (let s := { setCore (up []) 0 kW with stg := [(Reg.skeinWinSel, 1 * 65536 + 5)], cur := [(Reg.skeinWinSel, 1 * 65536 + 5)] }; !windowRefused s 0 1 false && s.hostReaches Reg.skeinWinData && after (.skeinWinDataAccess none 15) s (fun t =>
       t.hostRead == 7 && fldS t Reg.skeinWinSel 13 0 == 6 && t.skein == s.skein))
  , (let s := up [(Reg.skeinWinSel, 1 * 65536 + 16383)]; windowRefused s 0 1 true && after (.skeinWinDataAccess (some 5) 15) s (fun t => (rdS t Reg.skeinWinSel).testBit 29 && fldS t Reg.skeinWinSel 13 0 == 0 && t.skein == s.skein))
  , (let s := { setCore (up []) 3 kW with stg := [(Reg.skeinWinSel, 3 * 2 ^ 30 + 2 * 65536 + 16383)] , cur := [] }; after (.skeinWinDataAccess (some 0x12345) 15) s (fun t => (coreAt t 3).ymem == [(16383, 0x2345)] && (coreAt t 3).xmem == kW.xmem))
  , (let s := setCore (up []) 3 { kW with st := .wait, ien := 16 }; s.hostReaches Reg.skeinMboxCtrl && after (.mboxDoorbell 15 0) s (fun t => (coreAt t 3).ipend.getLsbD 4 && (coreAt t 3).st == .run && (coreAt t 3).d == kW.d)) ] = true := by
  decide +kernel

theorem witness_EqualiserRejectsSwaps : holds
  [ (let s := { up [] with warp := { State.reset.warp with swapPend := true } }; okI s && domOn s 5 && !flag s Reg.warpCtrl 1 && after .eqSwap s (fun t => (List.range 34).all (fun n => rd t (Reg.warpEqTap n) == rd s (Reg.warpEqTap n)) &&
       t.warp == { s.warp with swapPend := false, swapRej := true } && fld t Reg.warpEqStat 15 8 == 1 && raised s t 3 0x31 && codeClass 3 0x31 == 1))
  , (let base := { State.reset.warp with swapPend := true, los := false, full := true, shadow := List.replicate 34 64 }
     [{ base with los := true }, { base with shadow := List.replicate 34 63 }, { base with shadow := List.replicate 34 0x3FF }].all (fun w => let s := { up [(Reg.warpCtrl, 3)] with warp := w }
       okI s && after .eqSwap s (fun t => t.warp == { s.warp with swapPend := false, swapRej := true } && fld t Reg.warpEqStat 15 8 == 1 && raised s t 3 0x31)))
  , (let m := fld (up []) Reg.warpEqCfg 4 0; let s := { up [(Reg.warpCtrl, 3)] with warp := { State.reset.warp with swapPend := true, los := false, shadow := (List.range 34).map (fun n => if n = m ∨ n = m + 12 then 64 else 0) } }
     after .eqSwap s (fun t => t.warp == { s.warp with swapPend := false, swapRej := true } && raised s t 3 0x31)) ] = true := by
  decide +kernel

/-! ## Draft -/

/-- Draft works. -/
def drS (x : Draft) : State := { up [(Reg.draftCtrl, 1)] with draft := x }

/-- `withCmd` whose Draft is `x`. -/
def withDraft (x : Draft) : State := { withCmd (up []) with draft := x }

theorem witness_DraftPagesLoadAndSwap : holds
  [ draftOk [] 3 255 [2 ^ 31 + 5, 1024, 3072] && !draftOk [(deckKey 3 1, [2 ^ 31 + 5, 1, 0])] 3 255 [2 ^ 31 + 5, 1024, 3072] && !draftOk [] 1 0 [3 * 2 ^ 30] && !draftOk [] 2 256 [0, 1]
  , (let s := up [(Reg.draftEntSel, 2 * 2 ^ 24 + 255), (Reg.draftEntData 0, 2 ^ 31 + 7), (Reg.draftEntData 1, 1024)]
     s.hostReaches Reg.draftEntCmd && draftOk (draftStandby s) 2 255 ((List.range 3).map (fun k => rdS s (Reg.draftEntData k))) && after (.draftEntWrite 15) s (fun u =>
       u.draft == { (setDraftStandby s [(deckKey 2 255, [2 ^ 31 + 7, 1024])]).draft with result := 0 } && rdS u Reg.draftEntCmd == 0))
  , (let s := up [(Reg.draftEntSel, 2 * 2 ^ 24)]; after (.draftEntWrite 15) s (fun u => u.draft == { s.draft with result := 2 }))
  , (let s := { up [(Reg.draftEntSel, 2 * 2 ^ 24)] with draft := { State.reset.draft with frozen := true } }; after (.draftEntWrite 15) s (fun u => u.draft == { s.draft with result := 1 }))
  , (let s := { up [(Reg.draftEntSel, 3 * 2 ^ 24)] with draft := { State.reset.draft with pageB := [(deckKey 3 0, [1, 2, 3])] } }; after (.draftEntRead 15) s (fun u => u.draft == { s.draft with result := 0 } &&
       (List.range 3).all (fun k => rdS u (Reg.draftEntData k) == k + 1)))
  , (let s := up []; s.hostReaches Reg.draftCtrl && after (.draftSwapRequest 15 0) s (fun t => t.draft == { s.draft with swapPend := true }))
  , (let s := drS { swapPend := true, loading := some (0, 0), frozen := true }; (draftSwap s).draft == { s.draft with frozen := false } && cntVal (draftSwap s) 13 9 == 1)
  , (let s := drS { swapPend := true, pageA := [(0, [1])], pageB := [(0, [2])] }; let t := draftSwap s; draftPage t t.draft.activeB == [(0, [2])] && draftStandby t == [(0, [1])] && t.draft.frozen && !t.draft.swapPend)
  , (let d := cmdD 0x70 0 0 0x1000 8704 0 0 0 []; let s := withCmd (up []); s.cmdReady d 0x70 && gives (.draftLoad d) s ((setDraft (s.cmdTaken d) { s.draft with loading := some (0, 0) }).cmdWorks d) &&
       [{ frozen := true }, { loading := some (0, 9) }].all (fun x => answersOnly (.draftLoad d) (withDraft x) Status.busy true))
  , (let d := cmdD 0x71 0 0 0 0 0 0 0 []; let s := withCmd (up []); s.cmdReady d 0x71 && gives (.draftSwap d) s ((setDraft (s.cmdTaken d) { s.draft with swapPend := true }).cmdWorks d))
  , (let d := cmdD 0x71 0 0 0 0 0 0 0 []; let s := withDraft { swapPend := true }; s.cmdReady d 0x71 && domOn s 27 && answersOnly (.draftSwap d) s Status.busy true && after (.draftSwap d) s (fun t => t.draft == s.draft && t.host.work == s.host.work)) ] = true := by
  decide +kernel

/-- A page whose circuit 255 of the downstream table carries stream 9 with 8 channels. -/
def circ (hold : Bool) : Deck := [(deckKey 2 255, [2 ^ 31 + b2n hold * 2 ^ 30 + 9, 8])]

theorem witness_DraftExchangesSamples : holds
  [ (let s := drS {}; downSample s [] 0x1FF 0 == 0xFF && upSample s [] 0x1FF == 0xFF)
  , (let s := { drS { ins := [(4095, 7)] } with stg := [(Reg.draftCtrl, 1), (Reg.draftHwyEn, 0xFFFF0000)], cur := [(Reg.draftCtrl, 1), (Reg.draftHwyEn, 0xFFFF0000)] }
     downSample s [] (2 ^ 31 + 4095) 0 == inSample s 4095 && upSample s [] (2 ^ 30 + 4095) == inSample s 4095)
  , (let s := drS {}; downSample s (circ false) (2 ^ 30 + 255 * 1024 + 8) 0 == fld s Reg.draftCfg 15 8 && upSample s (circ false) (2 ^ 31 + 255 * 1024 + 8) == fld s Reg.draftCfg 15 8)
  , (let s := drS { held := [(9, some [0, 0, 0, 0, 0, 0, 0, 5])], before := [(9, some [0, 0, 0, 0, 0, 0, 0, 6])] }; downSample s (circ false) (2 ^ 30 + 255 * 1024 + 7) 0 == 5 && upSample s (circ false) (2 ^ 31 + 255 * 1024 + 7) == 6)
  , (let s := drS { outs := [(3, 4)] }; downSample s (circ true) (2 ^ 30 + 255 * 1024 + 7) 3 == 4 && upSample s (circ true) (2 ^ 31 + 255 * 1024 + 7) == fld s Reg.draftCfg 15 8)
  , (let s := drS { hwyEn := 0x80000000, ins := [(15 * 256, 8), (4095, 7)] }; sget 0xFF (sampled s 256 [(4095, 0x105)]) 4095 == 5 && sget 0xFF (sampled s 255 [(4095, 0x105)]) 4095 == 7 &&
       sget 0xFF (sampled s 256 []) 4095 == 0xFF && sget 0xFF (sampled s 0 [(4095, 1)]) (15 * 256) == 8)
  , (let s := drS { hwyEnWas := 0x80000000 }; sget 0xFF (sampled s 256 [(4095, 5)]) 4095 == 0xFF && sget 0xFF (sampled s 256 [(15 * 256 + 253, 5)]) (15 * 256 + 253) == 5)
  , (let s := drS { lateUp := some 255, hwyEn := 0xFFFF0000, ins := [(255, 2)] }; draftOn s && gives (.upstreamExchange [(0, 1), (254, 3), (255, 9)]) s
       (pauseScan (countBy (setDraft s { s.draft with ins := sampled s 255 [(0, 1), (254, 3), (255, 9)], lateUp := none }) 13 11 16)))
  , (let c := [2 ^ 31 + 9, 1, 0]; let s := drS { lateUp := some 0, pageA := [(deckKey 3 4, c)] }; circuits (draftPage s s.draft.upB) 3 == [(4, c)] &&
       (let u := upFrame (draftPage s s.draft.upB) (countBy (setDraft s { s.draft with lateUp := none }) 13 11 4096) (4, c); gives (.upstreamExchange []) s (pauseScan u) && cntVal u 13 6 == 1 && cntVal u 13 11 == 4096))
  , (let s := drS { pageA := circ false }; sget none (circuitFrame s 9 false (List.replicate 8 1)).draft.held 9 == some (List.replicate 8 1) && (circuitFrame s 9 true (List.replicate 8 1)).draft == s.draft &&
       (circuitFrame s 9 false (List.replicate 7 1)).draft == s.draft)
  , (let s := drS { pageA := [(4095, [5])], held := [(9, some [])] }; let t := downExchange s; t.draft.before == s.draft.held && t.draft.held == [] && t.draft.outs == [(4095, 5)] && t.draft.sending == some (flag s Reg.draftCfg 16, []) && t.out == [])
  , (let r : Sparse Word := [(Reg.draftCtrl, 1), (Reg.draftHwyEn, 0x8000)]; let s := { drS { pageA := [(4095, [2 ^ 29 + 5])], outs := [(4095, 6)], hwyEn := 0, sending := some (true, [255, 4095]) } with stg := r, cur := r }
     let t := downExchange s; t.draft.outs == [(4095, 5)] && t.draft.lastOuts == [(4095, 6)] && t.draft.sending == some (flag s Reg.draftCfg 16, [4095]) && t.out == [.pcmOut true [(4095, 6)]])
  , (let s := drS { pageA := circ false }; circuits (draftPage s false) 2 == [(255, [2 ^ 31 + 9, 8])] && cntVal (downExchange s) 13 5 == 1)
  , (let s := drS { outs := [(254, 1), (255, 2)], lastOuts := [(255, 3)] }; let t := draftLate 255 s; sget 0 t.draft.outs 254 == 1 && sget 0 t.draft.outs 255 == 3 && cntVal t 13 11 == 16 && cntVal (draftLate 256 s) 13 11 == 0 &&
       (draftLate 0 s).draft.outs == [(255, 3)]) ] = true := by
  decide +kernel

/-! ## Power, Selvedge, safety -/

theorem witness_ResetKeepsAlwaysOn : holds
  [ (let s := { up [(Reg.weftCtrl, 1)] with dram := [(0, 1)], act := { State.reset.act with held := true } }; after .powerOn s (fun t => t == { coldState s with power := { inReset := true } } && t.stg == [] && !t.act.held && t.safety.hold && t.dram == []))
  , (let s := { up [] with dram := [(0, 1)], safety := { State.reset.safety with latch := true } }; after .supplyRemoval s (fun t => t.power.mode == .off && t.power.isOn == 0 && !t.safety.vddSafe && !t.safety.latch &&
       rd t Reg.selvedgeFatal == regReset Reg.selvedgeFatal && t.dram == []))
  , (let r : Sparse Word := [(Reg.weftCtrl, 1), (Reg.dramStat, 2 ^ 31), (Reg.dramKeep, 1)]
     let s := { up [] with stg := r, cur := r, dram := [(0, 1)], act := { State.reset.act with held := true, tid := some 5 } }
     okI s && flag s Reg.dramKeep 0 && fld s Reg.dramStat 31 30 == 2 && after .resetAssert s (fun t => t.power == { inReset := true } && t.act.held && t.act.tid == none && t.safety == { s.safety with enNow := false } &&
       rd t Reg.selvedgeFatal == rd s Reg.selvedgeFatal && rd t Reg.weftCtrl == regReset Reg.weftCtrl && flag t Reg.globalResetCause 1 && t.host == {} && t.skein == State.reset.skein && t.selvedge == {} && t.sec == flashOtp s.sec && t.dram == s.dram))
  , gives (.resetAssert 199) (up []) (up [])
  , (let s := { up [] with dram := [(0, 1)] }; !flag s Reg.dramKeep 0 && after .resetAssert s (fun t => t.dram == [] && decide (s.sec.otpArb ≤ t.sec.otpArb)))
  , (let s := { up [] with power := { inReset := true }, act := { State.reset.act with held := true } }; gives .resetRelease s { dramClosed { s with power := { mode := .calibrate } } with act := { s.act with st := .held } })
  , (let r : Sparse Word := [(Reg.dramKeep, 3)]; let s := { up [] with power := { inReset := true }, stg := r, cur := r }; okI s && after .resetRelease s (fun t => fld t Reg.dramStat 31 30 == 3 && t.act.st == .dark))
  , (let s := { State.reset with sec := { State.reset.sec with chosen := true } }; okI s && after (.ready { fails := 2, ms := 300 }) s (fun t => t.power.ready && t.power.mode == .calibrate && !t.power.corePllLock && (coreAt t 0).st == .halted &&
       rd t Reg.globalCalStat == 255 * 2 ^ 24 + 2 && t.selvedge == s.selvedge && t.safety == s.safety)) ] = true := by
  decide +kernel

theorem witness_PowerEventsAct : holds
  [ (let s := { up [] with power := { ready := true, corePllLock := true } }; gives .corePllLoss s { s with power := { s.power with corePllLock := false } })
  , (let s := up []; domOn s 8 && after .pwrFailAssert s (fun t => t.power == { s.power with pwrFail := true } && flag t Reg.weftStat 7 && t.act.queue.map (·.typ) == [0x85]))
  , (let s := { up [] with power := { (up []).power with pwrFail := true } }; gives .pwrFailClear s { s with power := { s.power with pwrFail := false } })
  , (let s := { up [] with power := { (up []).power with mode := .active, dozePhase := .draining, dozeAged := true } }; spoolIdle s && after .dozeDrainComplete s (fun t =>
       (t.power.dozePhase == .entering || t.power.mode == .doze) && (List.range 32).all (fun d => !forbidden .doze d || !flag t Reg.globalPdCtrl d)))
  , (let s := dark (up []) 31; let s := { s with power := { s.power with wakes := [(31, 1)] } }; pdWanted s 31 && !domOn s 31 && after (.domainWakeOn 31) s (fun t => domOn t 31 && flag t Reg.globalPdWoke 31 && cntVal t 16 6 == 1 && (List.range 31).all (fun e => domOn t e)))
  , (let s := { up [(Reg.dramStat, 2 ^ 30)] with dram := [(0, 1)] }; okI s && domOn s 13 && after (.dramTrainingDone true false) s (fun t => fld t Reg.dramStat 31 30 == 0 && (rd t Reg.dramStat).testBit 0 && !(rd t Reg.dramStat).testBit 1 && t.dram == s.dram))
  , (let s := { up [(Reg.dramStat, 2 ^ 30)] with dram := [(0, 1)] }; !flag s Reg.dramKeep 1 && after (.dramTrainingDone false false) s (fun t => fld t Reg.dramStat 31 30 == 2 && dramMib t == dramSizeOf (fld s Reg.dramCfg 2 1) && t.dram == []))
  , (let r : Sparse Word := [(Reg.dramStat, 2 ^ 30), (Reg.dramKeep, 3)]; let s := { up [] with stg := r, cur := r, dram := [(0, 1)] }; okI s && flag s Reg.dramKeep 1 && after (.dramTrainingDone false false) s (fun t =>
       fld t Reg.dramStat 31 30 == 2 && flag t Reg.dramStat 2 && !flag t Reg.dramKeep 1 && t.dram == s.dram)) ] = true := by
  decide +kernel

theorem witness_PllLossAfterSwitchIsFatal :
    (let s := up []; s.power.corePllLock && s.power.clkPll && after .corePllLoss s (fun t =>
      t.power == { s.power with corePllLock := false } && raised s t 0x28 0xA0 && codeClass 0x28 0xA0 == 3)) = true := by
  decide +kernel

theorem witness_ReportsAreRecorded : holds
  [ (let r : Report := ⟨2, 5, 0x20, 9, 5, 0x20⟩; let s := { up [] with selvedge := { State.reset.selvedge with waiting := [r, ⟨1, 4, 1, 0, 4, 1⟩], rr := 4, seq := 7 }, pick := { count := 3 } }
     nextReport s.selvedge == some r && after (.faultReport none) s (fun t => t.selvedge.waiting == [⟨1, 4, 1, 0, 4, 1⟩] && t.selvedge.rr == 5 && cntVal t 17 0 == 1 && t.selvedge.pend == 2 ^ 5 && t.safety == s.safety &&
       match t.selvedge.hist with | [e] => e.pick == 3 && e.cls == 2 && e.source == 5 && e.code == 0x20 && e.ctx == 9 && e.rootSource == 5 && e.rootCode == 0x20 && e.isOpen && e.count == 0 && e.seq == 7 | _ => false))
  , (let r : Report := ⟨1, 5, 1, 9, 5, 1⟩; let s := { up [(Reg.selvedgeCtrl, 1)] with selvedge := { State.reset.selvedge with waiting := [r] } }; flag s Reg.selvedgeCtrl 0 && after (.faultReport none) s (fun t =>
       t.selvedge.waiting == [] && t.selvedge.hist.length == 1 && t.selvedge.pend == 0))
  , (let e : HistEntry := ⟨0, 0, 1, true, 5, 1, 0, 0, 5, 1, 0, 0, none⟩; let s := { up [] with selvedge := { State.reset.selvedge with hist := [{ e with first := 1 }, e] }, pick := { began := 125000 } }
     after .stormClose s (fun t => t.selvedge == { s.selvedge with hist := [{ e with first := 1 }, { e with isOpen := false }] }) &&
       gives .stormClose { s with pick := { s.pick with began := 124999 } } { s with pick := { s.pick with began := 124999 } })
  , (let s := { up [] with selvedge := { State.reset.selvedge with units := [(5, { st := .recovering, age := 1 })] } }; after (.recoveryEnd 5) s (fun t => unitAt t 5 == { st := .ok, age := 1 }))
  , (let s := { up [(Reg.selvedgeUnitSel, 0x0C)] with selvedge := { State.reset.selvedge with units := [(0x0C, { st := .parked })] } }; s.hostReaches Reg.selvedgeUnitCtrl && recoverLimit 0x0C == some 0 &&
       after (.selvedgeRestart 15) s (fun t => unitAt t 0x0C == { st := .ok, times := [], start := 1 }))
  , (let s := { up [(Reg.selvedgeUnitSel, 5)] with selvedge := { State.reset.selvedge with units := [(5, { st := .parked, times := [1] })] } }; recoverLimit 5 == some 1 &&
       after (.selvedgeRestart 15) s (fun t => (unitAt t 5).st == .recovering && (unitAt t 5).times.length == 1 && cntVal t 17 8 == 1))
  , (let s := up [(Reg.selvedgeUnitSel, 5)]; after (.selvedgeRestart 15) s (fun t => t.selvedge == s.selvedge))
  , (let s := { up [] with selvedge := { State.reset.selvedge with pend := 2 ^ 31 + 3 } }; s.hostReaches Reg.selvedgePendLo && after (.selvedgePendClear false 15 (BitVec.ofNat 32 (2 ^ 31))) s (fun t => t.selvedge.pend == 3 && t.selvedge.hist == []))
  , (let s := { up [] with selvedge := { State.reset.selvedge with pend := 2 ^ 38 }, safety := { State.reset.safety with latch := true } }; s.hostReaches Reg.selvedgePendHi && after (.selvedgePendClear true 15 (BitVec.ofNat 32 (2 ^ 6))) s (fun t =>
       t.selvedge == s.selvedge && flag t Reg.selvedgeStat 2))
  , (let e : HistEntry := ⟨2 ^ 40 + 5, 6, 2, true, 5, 1, 7, 32, 5, 1, 8, 0, none⟩; let s := { up [] with selvedge := { State.reset.selvedge with hist := List.replicate 31 { e with pick := 1 } ++ [e] } }
     s.hostReaches Reg.selvedgeHistSel && after (.selvedgeHistSelWrite 15 31) s (fun t => t.selvedge == s.selvedge && (List.range 8).all (fun k => rd t (Reg.selvedgeHistData k) == histWord e k)))
  , (let s := up [(Reg.selvedgeHistData 3, 5)]; after (.selvedgeHistSelWrite 15 0) s (fun t => (List.range 8).all (fun k => rd t (Reg.selvedgeHistData k) == 0))) ] = true := by
  decide +kernel

/-- The hold has ended; a burst is in progress. -/
def safeS (x : Safety) : State :=
  { up [] with power := { (up []).power with mode := .active }, safety := { x with hold := false }, weft := { State.reset.weft with bursts := [{ burst1 with started := true }] } }

theorem witness_SafetyPathLatches : holds
  [ (let s := { safeS { latchTimes := [1, 0] } with pick := { commits := 9, count := 8 } }; okI s && dangerSeen s 6 { disagreeNs := 1000 } && after (.safetyDeclare 6 3 { disagreeNs := 1000 }) s (fun t => t.safety.latch && t.safety.reason == 6 && t.safety.channel == 3 &&
       t.safety.cutSince.isSome && !t.safety.proofSince && t.power.mode == .safe && t.weft.bursts == [] && rd t Reg.safetyLatchPick == 8 && t.safety.locked && cntVal t 17 10 == 1 && raised s t 0x26 0x90))
  , (let s := { safeS {} with act := { State.reset.act with held := true } }; after (.safetyDeclare 3 1 { en := true }) s (fun t => t.safety.latch && t.safety.reason == 3 && !t.safety.locked))
  , (let s := safeS {}; [(1, { en := true }), (2, { mpdNs := 8 * fld s Reg.safetyMpdCfg 15 8 }), (4, { linkMissing := true }), (5, { clock := 849 }), (5, { clock := 1151 }), (6, { memErr := true })].all (fun (r, (x : SafetySeen)) =>
       dangerSeen s r x && after (.safetyDeclare r 2 x) s (fun t => t.safety.latch && t.safety.reason == r)))
  , (let s := { safeS {} with act := { State.reset.act with held := false } }; [(1, {}), (2, { mpdNs := 8 * fld s Reg.safetyMpdCfg 15 8 - 1 }), (3, { en := true }), (4, {}), (5, { clock := 850 }), (5, { clock := 1150 }), (6, { disagreeNs := 999 }), (7, {})].all
       (fun (r, (x : SafetySeen)) => !dangerSeen s r x && gives (.safetyDeclare r 2 x) s s))
  , (let s := safeS { windows := [[(0, 100)]] }; [(148, false), (149, true), (-48, false), (-49, true)].all (fun (p, b) => dangerSeen s 1 { en := true, pos := [p] } == b))
  , (let s := safeS {}; s.hostReaches Reg.safetyForce && after (.safetyForceLatch 15) s (fun t => t.safety.latch && t.safety.reason == 7 && t.weft.bursts == []))
  , (let s := safeS {}; s.hostReaches Reg.safetyMpdCfg && fldS s Reg.safetyMpdCfg 6 0 != 5 && after (.safetyMpdCfgWrite 15 5) s (fun t => same s t Reg.safetyMpdCfg && raised s t 0x26 1))
  , (let s := up []; after (.safetyMpdCfgWrite 15 127) s (fun t => fld t Reg.safetyMpdCfg 6 0 == 127 && t.safety == s.safety && t.power == s.power))
  , (let s := { up [] with now := 7 }; s.hostReaches Reg.safetyClr && after (.safetyClrWrite 15 0x5AFE) s (fun t => t.safety == { s.safety with clrFirst := some 7 }))
  , (let s := { up [] with now := 125000, safety := { State.reset.safety with latch := true, reason := 7, proofSince := true, clrFirst := some 0 } }; after (.safetyClrWrite 15 0xA501) s (fun t => t.safety == { s.safety with clrFirst := none, clrPending := true }))
  , (let s := { up [] with now := 125000, safety := { State.reset.safety with latch := true, reason := 8, proofSince := true, clrFirst := some 0 } }; after (.safetyClrWrite 15 0xA501) s (fun t => t.safety == { s.safety with clrFirst := none } && flag t Reg.safetyStat 23))
  , (let s := { up [] with safety := { State.reset.safety with clrFirst := some 0 } }; after (.safetyClrWrite 15 0xA500) s (fun t => t.safety == { s.safety with clrFirst := none }))
  , (let s := { up [] with power := { (up []).power with mode := .safe }, safety := { State.reset.safety with latch := true, reason := 4, clrPending := true } }; let t := safetyClear s
     !t.safety.latch && t.safety.cutSince == none && t.safety.reason == 4 && t.power.mode == .listen)
  , (let s := up []; !flag s Reg.selvedgeFatal 31 && after (.proofTest 0 70000 false) s (fun t => t.safety.proofOk && t.safety.proofSince && !t.safety.hold && t.safety.latch == s.safety.latch && flag t Reg.safetyProof 31 && fld t Reg.safetyProof 15 0 == 65535 && cntVal t 17 11 == 1))
  , (let s := up []; after (.proofTest 8 5 false) s (fun t => t.safety.latch && t.safety.reason == 9 && !t.safety.hold && !flag t Reg.safetyProof 31 && fld t Reg.safetyProof 19 16 == 8 && raised s t 0x26 0x91))
  , (let s := up []; let s := { s with ns := 110000 + 8 * fld s Reg.safetyMpdCfg 15 8 }; s.safety.cutSince == some 0 && after .cutIneffective s (fun t => raised s t 0x26 0x92 && codeClass 0x26 0x92 == 3))
  , (let s := up []; after .vddSafeLoss s (fun t => !t.safety.vddSafe && t.safety.cutSince.isSome && t.power == s.power))
  , (let s := { up [] with safety := { State.reset.safety with vddSafe := false, hold := false, latch := true } }; after (.vddSafeReturn true) s (fun t => t.safety.hold && t.safety.vddSafe && !t.safety.proofOk && t.safety.cutSince == s.safety.cutSince &&
       rd t Reg.safetyMpdCfg == regReset Reg.safetyMpdCfg) && after (.vddSafeReturn false) s (fun t => t.safety == { s.safety with vddSafe := true }))
  , (let s := { up [] with safety := { State.reset.safety with vddSafe := false, hold := false } }; after (.vddSafeReturn false) s (fun t => t.safety.hold && t.safety.vddSafe))
  , (let s := { up [] with act := { State.reset.act with tid := some 5, eqd := 9, pre := 33 } }; after (.safetyLinkUpdate true 1 0) s (fun t => t.safety.linkSeq == 1 && t.safety.pre == 33 && t.safety.eqd == 9 && t.safety.tid == 2 ^ 31 + 5 && t.act == s.act))
  , (let s := safeS {}; after (.safetyLinkUpdate true 2 3) s (fun t => t.safety.latch && t.safety.reason == 4 && t.safety.channel == 3) && after (.safetyLinkUpdate false 1 1) s (fun t => t.safety.latch && t.safety.channel == 1)) ] = true := by
  decide +kernel

end Sys2Proof.Tests
end

