-- ==== Sys2Proof/Proofs/CounterReads.lean ====
section
/-! SUPPORT. Proofs/CounterReads.lean: a host read of a counter (R11, R31, R216). Counter registers stand apart from the
registers whose read is an action of its own, so a read of one returns its counter or its holding register and changes what
`readEffect` says. -/

namespace Sys2Proof.Machine

open Sys2Proof

section

variable {s : State} {a lo k : Nat} {key : Option Nat}

/-! ## A whole-word read of a register that the host reaches -/

/-- All four byte enables let every bit of the word through (R8). -/
theorem answerHost_whole (v : Nat) (s : State) : answerHost 15 v s = { s with hostRead := BitVec.ofNat 32 v } := by
  have hmask : byteMask 15 = 2 ^ 32 - 1 := by decide
  have hword : BitVec.ofNat 32 (v &&& byteMask 15) = BitVec.ofNat 32 v := by
    rw [hmask, Nat.and_two_pow_sub_one_eq_mod]
    exact BitVec.eq_of_toNat_eq (by simp)
  rw [answerHost, hword]

theorem hostReaches_row (h : s.hostReaches a = true) : (findRow a).isSome = true := by
  simp only [State.hostReaches, Bool.and_eq_true] at h
  obtain ⟨⟨⟨-, hrow⟩, -⟩, -⟩ := h
  exact hrow

theorem hostLoad_whole (h : s.hostReaches a = true) : hostLoad a 15 s = regRead a s := by
  simp only [State.hostReaches, Bool.and_eq_true, Bool.not_eq_true', Bool.and_eq_false_iff, decide_eq_false_iff_not,
    Option.isSome_iff_exists] at h
  obtain ⟨⟨⟨hreach, r, hrow⟩, hmsix⟩, hon⟩ := h
  have htable : ¬ (0x00F10000 ≤ a ∧ a < 0x00F11000) := by omega
  have hpba : ¬ (0x00F11000 ≤ a ∧ a < 0x00F11020) := by omega
  simp [hostLoad, hreach, htable, hpba, hrow, hon, answerHost_whole]

/-! ## Where the counter registers stand -/

/-- Base offset and number of register pairs of every array of counters. -/
def cntWindows : List (Nat × Nat) :=
  cntBlocks.map (fun b => (b.1, b.2.1)) ++ [(Reg.reedCntLo 0, 8), (Reg.macCntLo 0, 16), (Reg.laneCntLo 0, 14)]

/-- The window `w` of counter registers holds none of the `n` bytes from `base`. -/
def windowApart (w : Nat × Nat) (base n : Nat) : Prop := w.1 + 8 * w.2 ≤ base ∨ base + n ≤ w.1

theorem pairAt_bounds {base n i : Nat} (h : pairAt a base n = some i) : base ≤ a ∧ a < base + 8 * n := by
  unfold pairAt at h
  split at h
  case isTrue hin => exact ⟨hin.1, hin.2.1⟩
  case isFalse => cases h

theorem cntReg_mem_window {x : Nat × Option Nat} (h : cntReg s a = some x) :
    ∃ w ∈ cntWindows, w.1 ≤ a ∧ a < w.1 + 8 * w.2 := by
  unfold cntReg at h
  split at h
  case h_1 b hb =>
    have hpair := List.find?_some hb
    obtain ⟨i, hi⟩ := Option.isSome_iff_exists.1 hpair
    exact ⟨(b.1, b.2.1), List.mem_append_left _ (List.mem_map_of_mem (List.mem_of_find?_eq_some hb)), pairAt_bounds hi⟩
  case h_2 =>
    split at h
    case h_1 hi => exact ⟨(Reg.reedCntLo 0, 8), by simp [cntWindows], pairAt_bounds hi⟩
    case h_2 hi _ => exact ⟨(Reg.macCntLo 0, 16), by simp [cntWindows], pairAt_bounds hi⟩
    case h_3 hi _ _ => exact ⟨(Reg.laneCntLo 0, 14), by simp [cntWindows], pairAt_bounds hi⟩
    case h_4 => cases h

/-- No counter register is one of those whose read `regRead` treats apart, and all stand in BAR0. -/
theorem cntWindows_apart : ∀ w ∈ cntWindows, windowApart w Reg.timeNowNs 4 ∧ windowApart w Reg.skeinWinData 4 ∧
    windowApart w (Reg.timeCapNs 0) (16 * 2) ∧ windowApart w (Reg.laneYmgmtRxLo 0) (16 * 16) ∧ w.1 + 8 * w.2 ≤ 0x4000000 := by
  unfold windowApart
  decide

theorem instAt_outside {base stride n : Nat} (h : a < base ∨ base + stride * n ≤ a) : instAt a base stride n = none :=
  if_neg (by omega)

theorem cntReg_lt_bar2 {x : Nat × Option Nat} (h : cntReg s a = some x) : a < 0x4000000 := by
  obtain ⟨w, hw, hlo, hhi⟩ := cntReg_mem_window h
  obtain ⟨-, -, -, -, hbar⟩ := cntWindows_apart w hw
  omega

theorem regRead_counter {x : Nat × Option Nat} (h : cntReg s a = some x) :
    regRead a s = { readEffect s a with hostRead := BitVec.ofNat 32 (regValue s a) } := by
  obtain ⟨w, hw, hlo, hhi⟩ := cntReg_mem_window h
  obtain ⟨hnow, hwin, hcap, hmgmt, -⟩ := cntWindows_apart w hw
  unfold windowApart at hnow hwin hcap hmgmt
  rw [regRead, if_neg (by omega), if_neg (by omega), instAt_outside (by omega), instAt_outside (by omega)]

/-! ## What a counter's registers return and change -/

theorem regValue_counterLo (hrow : (findRow a).isSome = true) (h : cntReg s a = some (a, some k)) :
    regValue s a = sget 0 s.cnt k % 2 ^ 32 := by
  obtain ⟨r, hr⟩ := Option.isSome_iff_exists.1 hrow
  simp [regValue, hr, h]

theorem regValue_counterHi (hrow : (findRow a).isSome = true) (h : cntReg s a = some (lo, key)) (ha : a ≠ lo) :
    regValue s a = sget 0 s.hold lo := by
  obtain ⟨r, hr⟩ := Option.isSome_iff_exists.1 hrow
  simp [regValue, hr, h, ha]

theorem readEffect_counterLo (h : cntReg s a = some (a, some k)) :
    readEffect s a = cntRestart { s with hold := sput 0 s.hold a (sget 0 s.cnt k / 2 ^ 32) } k := by
  simp [readEffect, h]

theorem readEffect_counterHi (h : cntReg s a = some (lo, key)) (ha : a ≠ lo) : readEffect s a = s := by
  simp [readEffect, h, ha]

theorem hostLoad_counterLo (hr : s.hostReaches a = true) (h : cntReg s a = some (a, some k)) :
    hostLoad a 15 s = { cntRestart { s with hold := sput 0 s.hold a (sget 0 s.cnt k / 2 ^ 32) } k with
      hostRead := BitVec.ofNat 32 (sget 0 s.cnt k % 2 ^ 32) } := by
  rw [hostLoad_whole hr, regRead_counter h, readEffect_counterLo h, regValue_counterLo (hostReaches_row hr) h]

theorem hostLoad_counterHi (hr : s.hostReaches a = true) (h : cntReg s a = some (lo, key)) (ha : a ≠ lo) :
    hostLoad a 15 s = { s with hostRead := BitVec.ofNat 32 (sget 0 s.hold lo) } := by
  rw [hostLoad_whole hr, regRead_counter h, readEffect_counterHi h ha, regValue_counterHi (hostReaches_row hr) h ha]

theorem exec_counterLoRead (h : cntReg s a = some (a, key)) (be : BitVec 4) :
    exec (.counterLoRead a be) s = .next (hostLoad a be.toNat s) := by
  simp [exec, execCounterLoRead, h]

theorem exec_rcRead_bar0 (h : a < 0x4000000) (be : BitVec 4) : exec (.rcRead a be) s = .next (hostLoad a be.toNat s) := by
  simp [exec, execRcRead, Nat.not_le.2 h]

/-! ## The counter and the others after it has restarted -/

theorem cntRestart_same (h : srising 0 s.cnt = true) (k : Nat) :
    sget 0 (cntRestart s k).cnt k = if k / 0x100000 = 6 ∧ 12 ≤ k % 0x100000 ∧ (k % 0x100000 - 12) % 8 = 6 then
      min cntMax (queueOcc s ((k % 0x100000 - 12) / 8)) else 0 :=
  sget_sput_same h k _

theorem cntRestart_other (h : srising 0 s.cnt = true) {k' : Nat} (hk : k' ≠ k) :
    sget 0 (cntRestart s k).cnt k' = sget 0 s.cnt k' :=
  sget_sput_other 0 0 h hk.symm _

end

/-- Settles O19: a counter register is an ordinary one to `regRead`, whose effect and value are those of its low or high word. -/
theorem counterReadsHoldAndClear : Obligations.CounterReadsHoldAndClear := by
  refine ⟨fun s a k hi hr hc => ?_, fun s lo key _ hr hc => ?_, fun _ => rfl⟩
  · have hcnt := inv_cnt hi
    refine ⟨_, exec_counterLoRead hc 15, ?_⟩
    rw [show (15 : BitVec 4).toNat = 15 from rfl, hostLoad_counterLo hr hc]
    exact ⟨rfl, sget_sput_same (inv_hold hi) a _, cntRestart_same hcnt k, fun _ hk => cntRestart_other hcnt hk, rfl, rfl, rfl⟩
  · rw [exec_rcRead_bar0 (cntReg_lt_bar2 hc), show (15 : BitVec 4).toNat = 15 from rfl,
      hostLoad_counterHi hr hc (by omega)]

end Sys2Proof.Machine
end

