-- ==== Sys2Proof/Proofs/ReceiverRules.lean ====
section
/-! SUPPORT. Proofs/ReceiverRules.lean: what the receiver's shared operations write and leave: a saturating field (R31), a
report with its free context word (R439), a notification, an interrupt source of the cores. -/

namespace Sys2Proof.Machine

open Sys2Proof

section

variable {s : State} {a hi lo : Nat}

/-! ## Saturating fields (R31) -/

theorem bumpFld_inv (h : s.inv) (a hi lo : Nat) : (bumpFld s a hi lo).inv := setFld_inv h _ _ _ _

@[simp] theorem bumpFld_warp (s : State) (a hi lo : Nat) : (bumpFld s a hi lo).warp = s.warp := rfl
@[simp] theorem bumpFld_selvedge (s : State) (a hi lo : Nat) : (bumpFld s a hi lo).selvedge = s.selvedge := rfl

theorem fld_bumpFld_same (h : s.inv) (hl : lo ≤ hi) (hh : hi < 32) :
    fld (bumpFld s a hi lo) a hi lo = min (2 ^ (hi + 1 - lo) - 1) (fld s a hi lo + 1) := by
  have hpos : 0 < 2 ^ (hi + 1 - lo) := Nat.two_pow_pos _
  rw [bumpFld, fld_setFld_same h hl hh, Nat.mod_eq_of_lt (by omega)]

theorem rd_bumpFld_other (h : s.inv) {b : Nat} (hab : a ≠ b) (hi lo : Nat) : rd (bumpFld s a hi lo) b = rd s b :=
  rd_setFld_other h hab _ _ _

/-! ## What leaves the registers or the receiver alone -/

@[simp] theorem rd_setWarp (s : State) (x : Warp) (b : Nat) : rd (setWarp s x) b = rd s b := rfl
@[simp] theorem fld_setWarp (s : State) (x : Warp) (b hi lo : Nat) : fld (setWarp s x) b hi lo = fld s b hi lo := rfl

theorem setWarp_inv (h : s.inv) (x : Warp) : (setWarp s x).inv := (setWarp_kept (Kept.refl 524288 s) (Sub.refl _)).inv h

@[simp] theorem notifyReg_warp (s : State) (a lo sub payload : Nat) : (notifyReg s a lo sub payload).warp = s.warp :=
  (notifyReg_kept (Kept.refl 8344 s) (Sub.refl _)).warp_eq rfl

@[simp] theorem leaveLock_warp (s : State) : (leaveLock s).warp = s.warp :=
  (leaveLock_kept (Kept.refl 3146000 s) (Sub.refl _)).warp_eq rfl

@[simp] theorem pendCores_warp (s : State) (lo hi k : Nat) : (pendCores s lo hi k).warp = s.warp :=
  (pendCores_kept (Kept.refl 16777216 s) (Sub.refl _)).warp_eq rfl

@[simp] theorem pendCores_selvedge (s : State) (lo hi k : Nat) : (pendCores s lo hi k).selvedge = s.selvedge :=
  (pendCores_kept (Kept.refl 16777216 s) (Sub.refl _)).selvedge_eq rfl

@[simp] theorem rd_pendCores (s : State) (lo hi k a : Nat) : rd (pendCores s lo hi k) a = rd s a := by
  rw [rd, (pendCores_kept (Kept.refl 16777216 s) (Sub.refl _)).cur_eq rfl, rd]

/-! ## Reports (R439) -/

@[simp] theorem raiseFree_warp (s : State) (source code : Nat) : (raiseFree s source code).warp = s.warp :=
  (raiseFree_kept (Kept.refl 2136 s) (Sub.refl _)).warp_eq rfl

/-- A report writes no register but SELVEDGE_STAT, whose LOST it sets when it is lost. -/
theorem rd_arrive_other (h : s.inv) (r : Report) (ha : Reg.selvedgeStat ≠ a) : rd (arrive s r) a = rd s a := by
  unfold arrive
  split
  · rfl
  · rw [setBit, rd_setFld_other (count_inv h _ _) ha, rd, count_cur, rd]

theorem rd_raiseFree_other (h : s.inv) (source code : Nat) (ha : Reg.selvedgeStat ≠ a) :
    rd (raiseFree s source code) a = rd s a :=
  rd_arrive_other (s := (draw s).2) ((draw_kept (Kept.refl 64 s) (Sub.refl _)).inv h) _ ha

theorem arrive_waiting (r : Report) (hroom : (s.selvedge.waiting.filter (fun q => q.source == r.source)).length < 8) :
    (arrive s r).selvedge.waiting = s.selvedge.waiting ++ [r] := by
  rw [arrive, if_pos hroom]

theorem raises_raiseFree (s : State) (source code : Nat) : s.raises (raiseFree s source code) source code :=
  fun hroom => ⟨(draw s).1 % 2 ^ 32, arrive_waiting (s := (draw s).2) _ hroom⟩

end
end Sys2Proof.Machine
end

