-- ==== Sys2Proof/Proofs/FramerCandidates.lean ====
section
/-! SUPPORT. Proofs/FramerCandidates.lean: the framer's candidates (R53, R54): what one tested window can make of their list, and
what opening a ninth does. -/

namespace Sys2Proof.Machine

open Sys2Proof

section

variable {s t : State} {pos w : Nat} {hdr : List Byte} {bad : Bool}

/-! ## What the framer's operations leave of the candidates -/

theorem ite_setBit_warp (c : Prop) [Decidable c] (s : State) (a n : Nat) : (if c then setBit s a n else s).warp = s.warp := by
  split
  case isTrue => exact setBit_warp ..
  case isFalse => rfl

@[simp] theorem setDefects_cands (s : State) (los lof sd : Bool) : (setDefects s los lof sd).warp.cands = s.warp.cands := by
  unfold setDefects
  dsimp only
  split
  case isTrue => rfl
  case isFalse => rw [notifyReg_warp, ite_setBit_warp, ite_setBit_warp, ite_setBit_warp, setWarp_warp]

@[simp] theorem enterLock_warp (s : State) : (enterLock s).warp = s.warp := by
  unfold enterLock
  split <;> rfl

@[simp] theorem dropContexts_cands (s : State) : (dropContexts s).warp.cands = s.warp.cands := by
  simp [dropContexts]

@[simp] theorem toHunt_cands (s : State) (los : Bool) : (toHunt s los).warp.cands = [] := by
  simp only [toHunt, setDefects_cands]
  split <;> simp

/-! ## Opening a candidate (R54) -/

theorem openCand_room (h : s.warp.cands.length < 8) (pos : Nat) :
    openCand s pos = setWarp s { s.warp with cands := s.warp.cands ++ [⟨pos, 1⟩] } := by
  rw [openCand, if_pos h]

theorem openCand_replaces {c : Cand} (hfull : ¬ s.warp.cands.length < 8)
    (hc : s.warp.cands.find? (fun c => c.seen == 1) = some c) (pos : Nat) :
    openCand s pos = setWarp (bumpFld s Reg.warpAlignStat 15 8) { s.warp with cands := s.warp.cands.erase c ++ [⟨pos, 1⟩] } := by
  simp [openCand, hfull, hc]

theorem openCand_refuses (hfull : ¬ s.warp.cands.length < 8)
    (hc : s.warp.cands.find? (fun c => c.seen == 1) = none) (pos : Nat) :
    openCand s pos = bumpFld s Reg.warpAlignStat 15 8 := by
  simp [openCand, hfull, hc]

theorem openCand_cands_le (h : s.warp.cands.length ≤ 8) (pos : Nat) : (openCand s pos).warp.cands.length ≤ 8 := by
  by_cases hroom : s.warp.cands.length < 8
  · rw [openCand_room hroom, setWarp_warp, List.length_append, List.length_singleton]
    omega
  cases hc : s.warp.cands.find? (fun c => c.seen == 1) with
  | none => rwa [openCand_refuses hroom hc, bumpFld_warp]
  | some c =>
    have hlen := List.length_erase_of_mem (List.mem_of_find?_eq_some hc)
    rw [openCand_replaces hroom hc, setWarp_warp, List.length_append, List.length_singleton]
    omega

/-- Either way a ninth candidate counts in OVERFLOW. -/
theorem openCand_overflow (h : s.inv) (hfull : ¬ s.warp.cands.length < 8) (pos : Nat) :
    fld (openCand s pos) Reg.warpAlignStat 15 8 = min 255 (fld s Reg.warpAlignStat 15 8 + 1) := by
  have hbump : fld (bumpFld s Reg.warpAlignStat 15 8) Reg.warpAlignStat 15 8 = min 255 (fld s Reg.warpAlignStat 15 8 + 1) :=
    fld_bumpFld_same h (by omega) (by omega)
  cases hc : s.warp.cands.find? (fun c => c.seen == 1) with
  | none => rw [openCand_refuses hfull hc, hbump]
  | some c => rw [openCand_replaces hfull hc, fld_setWarp, hbump]

/-! ## PSYNC_WINDOW -/

/-- What a tested window makes of the candidate list (R53): it stands, every candidate closes, one closes, one counts an
occurrence, or one opens. -/
theorem psyncWindow_cands (h : exec (.psyncWindow pos w hdr bad) s = .next t) :
    t.warp.cands = s.warp.cands ∨ t.warp.cands = [] ∨ (∃ c, t.warp.cands = s.warp.cands.erase c) ∨
    (∃ f : Cand → Cand, t.warp.cands = s.warp.cands.map f) ∨ t.warp.cands = (openCand s pos).warp.cands := by
  have hexec : exec (.psyncWindow pos w hdr bad) s = execPsyncWindow pos w hdr bad s := rfl
  rw [hexec, execPsyncWindow, Host.Outcome.next.injEq] at h
  subst h
  split
  case isTrue => exact .inl rfl
  split
  case h_1 =>
    split
    case isTrue => exact .inl rfl
    dsimp only
    split
    case isTrue => split <;> simp
    case isFalse => exact .inl (by simp)
  split
  case h_1 c hc =>
    split
    case isTrue => exact .inr (.inr (.inl ⟨c, rfl⟩))
    split
    case isTrue => exact .inr (.inl (by simp))
    case isFalse => exact .inr (.inr (.inr (.inl ⟨_, rfl⟩)))
  case h_2 =>
    split
    case isTrue => exact .inr (.inr (.inr (.inr rfl)))
    case isFalse => exact .inl rfl

theorem psyncWindow_cands_le (hs : s.warp.cands.length ≤ 8) (h : exec (.psyncWindow pos w hdr bad) s = .next t) :
    t.warp.cands.length ≤ 8 := by
  obtain hc | hc | ⟨c, hc⟩ | ⟨f, hc⟩ | hc := psyncWindow_cands h <;> rw [hc]
  · exact hs
  · exact Nat.zero_le _
  · exact List.length_erase_le.trans hs
  · rwa [List.length_map]
  · exact openCand_cands_le hs pos

/-- An exact PSync at a position that no candidate expects, while the framer hunts and the CDR is locked, opens one. -/
theorem exec_psyncWindow_opens (hrx : rxOn s = true) (hlos : s.warp.los = false) (hsync : s.warp.align ≠ .sync)
    (hcdr : s.warp.cdrLock = true) (hnew : ∀ c ∈ s.warp.cands, c.pos ≠ pos) :
    exec (.psyncWindow pos psync hdr bad) s = .next (openCand s pos) := by
  have hnone : s.warp.cands.find? (fun c => c.pos == pos) = none :=
    List.find?_eq_none.2 fun c hc => by simpa using hnew c hc
  have hexec : exec (.psyncWindow pos psync hdr bad) s = execPsyncWindow pos psync hdr bad s := rfl
  cases halign : s.warp.align with
  | sync => exact absurd halign hsync
  | hunt => simp [hexec, execPsyncWindow, hrx, hlos, halign, hnone, hcdr]
  | presync => simp [hexec, execPsyncWindow, hrx, hlos, halign, hnone, hcdr]

end

/-- Settles O11: no outcome of a window lengthens the list but an opening, and an opening stops at eight. -/
theorem framerHoldsEightCandidates : Obligations.FramerHoldsEightCandidates := by
  refine ⟨fun s t pos w hdr bad hs h => psyncWindow_cands_le hs h, fun s pos hdr bad hi hrx hlos hsync hcdr hnew => ?_⟩
  have hopens := exec_psyncWindow_opens (hdr := hdr) (bad := bad) hrx hlos hsync hcdr hnew
  refine ⟨fun hroom => by rw [hopens, openCand_room hroom]; rfl, fun height => ?_⟩
  have hfull : ¬ s.warp.cands.length < 8 := by omega
  refine ⟨_, hopens, openCand_overflow hi hfull pos, fun c hc => by rw [openCand_replaces hfull hc, setWarp_warp], fun hold => ?_⟩
  have hnone : s.warp.cands.find? (fun c => c.seen == 1) = none :=
    List.find?_eq_none.2 fun c hc => by simpa using hold c hc
  rw [openCand_refuses hfull hnone, bumpFld_warp]

end Sys2Proof.Machine
end

