-- ==== Sys2Proof/Proofs/EqualiserSwap.lean ====
section
/-! SUPPORT. Proofs/EqualiserSwap.lean: a rejected swap of the equaliser's coefficients (R46): when it is rejected, what then
stays and what counts. -/

namespace Sys2Proof.Machine

open Sys2Proof

section

variable {s : State}

/-! ## When a swap is rejected (R46) -/

theorem signed_eq_toInt (w x : Nat) : signed w x = (BitVec.ofNat w x).toInt := by
  cases w with
  | zero => simp [signed, Nat.mod_one, BitVec.toInt_zero_length]
  | succ w =>
    have hpow : 2 ^ (w + 1) = 2 * 2 ^ w := by rw [Nat.pow_succ, Nat.mul_comm]
    rw [signed, BitVec.toInt_eq_toNat_cond, BitVec.toNat_ofNat, Nat.add_sub_cancel]
    refine if_congr ?_ rfl rfl
    omega

/-- A feed-forward tap apart from MAIN − 3 to MAIN + 11 lies outside the short window. -/
theorem tapInside_short {n : Nat} (hn : n < 31) (hout : n + 3 < eqMain s ∨ eqMain s + 11 < n) :
    tapInside s false n = false := by
  simp only [tapInside, Bool.false_or, Bool.or_eq_false_iff, Bool.and_eq_false_iff, decide_eq_false_iff_not]
  omega

theorem swapBad_disabled (h : flag s Reg.warpCtrl 1 = false) : swapBad s = true := by simp [swapBad, h]
theorem swapBad_los (h : s.warp.los = true) : swapBad s = true := by simp [swapBad, h]
theorem swapBad_main (h : (BitVec.ofNat 10 (s.warp.shadow.getD (eqMain s) 0)).toInt < 64) : swapBad s = true := by
  rw [← signed_eq_toInt] at h
  simp only [swapBad, decide_eq_true h, Bool.or_true, Bool.true_or]
theorem swapBad_outside {n : Nat} (hn : n < 34) (hout : tapInside s s.warp.full n = false)
    (hset : s.warp.shadow.getD n 0 ≠ 0) : swapBad s = true := by
  have hany : (List.range 34).any (fun n => !tapInside s s.warp.full n && s.warp.shadow.getD n 0 != 0) = true :=
    List.any_eq_true.2 ⟨n, List.mem_range.2 hn, by rw [hout, bne_iff_ne.2 hset]; rfl⟩
  rw [swapBad, hany, Bool.or_true]

/-! ## What a rejected swap leaves and writes -/

theorem exec_eqSwap_rejects (hpend : s.warp.swapPend = true) (hon : domOn s 5 = true) (hcore : (coreAt s 0).st ≠ .fault)
    (hbad : swapBad s = true) : exec .eqSwap s = .next (pendCores (rejectSwap s) 0 2 3) := by
  have hexec : exec .eqSwap s = execEqSwap s := rfl
  have hdue : (s.warp.swapPend && domOn s 5 && (coreAt s 0).st != .fault) = true := by
    rw [hpend, hon, bne_iff_ne.2 hcore]; rfl
  rw [hexec, execEqSwap, if_pos hdue, eqSwap, if_pos hbad]

theorem rejectSwap_warp (s : State) : (rejectSwap s).warp = { s.warp with swapPend := false, swapRej := true } := by
  simp [rejectSwap]

/-- Of the registers it writes REJECT in WARP_EQ_STAT only, beside what the report of its event writes. -/
theorem rd_rejectSwap_other (h : s.inv) {a : Nat} (hstat : Reg.warpEqStat ≠ a) (hrep : Reg.selvedgeStat ≠ a) :
    rd (rejectSwap s) a = rd s a := by
  have hw := setWarp_inv h { s.warp with swapPend := false, swapRej := true }
  rw [rejectSwap, rd_raiseFree_other (bumpFld_inv hw _ _ _) _ _ hrep, rd_bumpFld_other hw hstat, rd_setWarp]

theorem fld_rejectSwap_rejects (h : s.inv) :
    fld (rejectSwap s) Reg.warpEqStat 15 8 = min 255 (fld s Reg.warpEqStat 15 8 + 1) := by
  have hw := setWarp_inv h { s.warp with swapPend := false, swapRej := true }
  have hrep : Reg.selvedgeStat ≠ Reg.warpEqStat := by decide
  rw [rejectSwap, fld, rd_raiseFree_other (bumpFld_inv hw _ _ _) _ _ hrep, ← fld]
  exact fld_bumpFld_same hw (by omega) (by omega)

theorem raises_rejectSwap (s : State) : s.raises (rejectSwap s) 0x03 0x031 :=
  raises_raiseFree (bumpFld (setWarp s { s.warp with swapPend := false, swapRej := true }) Reg.warpEqStat 15 8) 0x03 0x031

/-- No coefficient in use shares an offset with the status registers that a rejected swap may write. -/
theorem warpEqTap_apart {n : Nat} (hn : n < 34) : Reg.warpEqStat ≠ Reg.warpEqTap n ∧ Reg.selvedgeStat ≠ Reg.warpEqTap n := by
  unfold Reg.warpEqStat Reg.selvedgeStat Reg.warpEqTap
  omega

end

/-- Settles O53: each of the four cases of R46 makes `swapBad` true, and then EQ_SWAP does what `rejectSwap` does. -/
theorem equaliserRejectsSwaps : Obligations.EqualiserRejectsSwaps := by
  intro s hi hon hpend hcore main hcase
  have hbad : swapBad s = true := by
    obtain hen | hlos | hmain | ⟨n, hn, hshort, hout, hset⟩ := hcase
    · exact swapBad_disabled hen
    · exact swapBad_los hlos
    · exact swapBad_main hmain
    · exact swapBad_outside (by omega) (hshort ▸ tapInside_short hn hout) hset
  refine ⟨_, exec_eqSwap_rejects hpend hon hcore hbad, fun n hn => ?_, ?_, ?_, ?_, rfl⟩
  · obtain ⟨hstat, hrep⟩ := warpEqTap_apart hn
    rw [rd_pendCores, rd_rejectSwap_other hi hstat hrep]
  · rw [pendCores_warp, rejectSwap_warp]
  · rw [fld, rd_pendCores, ← fld, fld_rejectSwap_rejects hi]
  · rw [State.raises, pendCores_selvedge]
    exact raises_rejectSwap s

end Sys2Proof.Machine
end

