-- ==== Sys2Proof/Proofs/CommandParts.lean ====
section
/-! SUPPORT. Proofs/CommandParts.lean: what every command keeps. `exec_kept` gathers the lemmas of Laws/Kept*.lean, one a command,
into one statement about `exec`: the parts that a command may touch are its footprint, few commands change READY, and few leave
the safety latch. -/

namespace Sys2Proof.Machine

open Sys2Proof

/-- The supplies' loss and return, RESET_N and the end of start-up change READY; no other command may. -/
def mayChangeReady : Instr → Bool
  | .powerOn | .supplyRemoval | .resetAssert _ | .ready _ => true
  | _ => false

/-- A commit point, and a command at which the safety domain's supply has been lost, may leave the safety latch; no other may. -/
def mayLeaveLatch : Instr → Bool
  | .powerOn | .supplyRemoval | .commitPoint _ | .vddSafeReturn _ => true
  | _ => false

theorem mayChangeReady_iff {c : Instr} :
    mayChangeReady c = true ↔ c = .powerOn ∨ c = .supplyRemoval ∨ (∃ low, c = .resetAssert low) ∨ ∃ i, c = .ready i := by
  constructor
  · intro h
    unfold mayChangeReady at h
    split at h
    case h_1 => exact .inl rfl
    case h_2 => exact .inr (.inl rfl)
    case h_3 low => exact .inr (.inr (.inl ⟨low, rfl⟩))
    case h_4 i => exact .inr (.inr (.inr ⟨i, rfl⟩))
    case h_5 => cases h
  · rintro (rfl | rfl | ⟨low, rfl⟩ | ⟨i, rfl⟩) <;> rfl

/-- Every command answers a next state and keeps a set of parts that is its footprint; bits 27 and 28 of the set, which name no
part, say what becomes of READY and of the safety latch. -/
theorem exec_kept (c : Instr) (s : State) :
    ∃ n, KeptE n s (exec c s) ∧ partsOf n = footprint c ∧ n.testBit 27 = mayChangeReady c ∧ n.testBit 28 = mayLeaveLatch c :=
  match c with
  | .regWrite _ _ _ => ⟨_, execRegWrite_kept (.refl _ s) (.refl _), rfl, rfl, rfl⟩
  | .strayWrite _ _ => ⟨_, execStrayWrite_kept (.refl _ s) (.refl _), rfl, rfl, rfl⟩
  | .counterLoRead _ _ => ⟨_, execCounterLoRead_kept (.refl _ s) (.refl _), rfl, rfl, rfl⟩
  | .rcRead _ _ => ⟨_, execRcRead_kept (.refl _ s) (.refl _), rfl, rfl, rfl⟩
  | .pickCountLoRead _ => ⟨_, execPickCountLoRead_kept (.refl _ s) (.refl _), rfl, rfl, rfl⟩
  | .timeNowNsRead _ => ⟨_, execTimeNowNsRead_kept (.refl _ s) (.refl _), rfl, rfl, rfl⟩
  | .timeCapNsRead _ _ => ⟨_, execTimeCapNsRead_kept (.refl _ s) (.refl _), rfl, rfl, rfl⟩
  | .ymgmtRxRead _ _ => ⟨_, execYmgmtRxRead_kept (.refl _ s) (.refl _), rfl, rfl, rfl⟩
  | .ymgmtSend _ _ _ => ⟨_, execYmgmtSend_kept (.refl _ s) (.refl _), rfl, rfl, rfl⟩
  | .warpPmSelWrite _ _ => ⟨_, execWarpPmSelWrite_kept (.refl _ s) (.refl _), rfl, rfl, rfl⟩
  | .selvedgeHistSelWrite _ _ => ⟨_, execSelvedgeHistSelWrite_kept (.refl _ s) (.refl _), rfl, rfl, rfl⟩
  | .lockEnClear _ => ⟨_, execLockEnClear_kept (.refl _ s) (.refl _), rfl, rfl, rfl⟩
  | .rxEnWrite _ _ => ⟨_, execRxEnWrite_kept (.refl _ s) (.refl _), rfl, rfl, rfl⟩
  | .dgLatchClear _ _ => ⟨_, execDgLatchClear_kept (.refl _ s) (.refl _), rfl, rfl, rfl⟩
  | .actHeldSet _ => ⟨_, execActHeldSet_kept (.refl _ s) (.refl _), rfl, rfl, rfl⟩
  | .timeLoad _ _ => ⟨_, execTimeLoad_kept (.refl _ s) (.refl _), rfl, rfl, rfl⟩
  | .timeIncArm _ _ => ⟨_, execTimeIncArm_kept (.refl _ s) (.refl _), rfl, rfl, rfl⟩
  | .hostStep _ _ => ⟨_, execHostStep_kept (.refl _ s) (.refl _), rfl, rfl, rfl⟩
  | .macAddrArm _ _ => ⟨_, execMacAddrArm_kept (.refl _ s) (.refl _), rfl, rfl, rfl⟩
  | .reedSwapRequest _ _ => ⟨_, execReedSwapRequest_kept (.refl _ s) (.refl _), rfl, rfl, rfl⟩
  | .anchorLock _ => ⟨_, execAnchorLock_kept (.refl _ s) (.refl _), rfl, rfl, rfl⟩
  | .draftSwapRequest _ _ => ⟨_, execDraftSwapRequest_kept (.refl _ s) (.refl _), rfl, rfl, rfl⟩
  | .trngRestart _ => ⟨_, execTrngRestart_kept (.refl _ s) (.refl _), rfl, rfl, rfl⟩
  | .heddleEntWrite _ => ⟨_, execHeddleEntWrite_kept (.refl _ s) (.refl _), rfl, rfl, rfl⟩
  | .heddleEntRead _ => ⟨_, execHeddleEntRead_kept (.refl _ s) (.refl _), rfl, rfl, rfl⟩
  | .invalidate _ => ⟨_, execInvalidate_kept (.refl _ s) (.refl _), rfl, rfl, rfl⟩
  | .emInsert _ => ⟨_, execEmInsert_kept (.refl _ s) (.refl _), rfl, rfl, rfl⟩
  | .emDelete _ => ⟨_, execEmDelete_kept (.refl _ s) (.refl _), rfl, rfl, rfl⟩
  | .clearAll _ => ⟨_, execClearAll_kept (.refl _ s) (.refl _), rfl, rfl, rfl⟩
  | .reedEntWrite _ => ⟨_, execReedEntWrite_kept (.refl _ s) (.refl _), rfl, rfl, rfl⟩
  | .reedEntRead _ => ⟨_, execReedEntRead_kept (.refl _ s) (.refl _), rfl, rfl, rfl⟩
  | .draftEntWrite _ => ⟨_, execDraftEntWrite_kept (.refl _ s) (.refl _), rfl, rfl, rfl⟩
  | .draftEntRead _ => ⟨_, execDraftEntRead_kept (.refl _ s) (.refl _), rfl, rfl, rfl⟩
  | .flowStoreEnable _ _ => ⟨_, execFlowStoreEnable_kept (.refl _ s) (.refl _), rfl, rfl, rfl⟩
  | .hostCmdCfgWrite _ _ _ => ⟨_, execHostCmdCfgWrite_kept (.refl _ s) (.refl _), rfl, rfl, rfl⟩
  | .hostKick _ _ _ => ⟨_, execHostKick_kept (.refl _ s) (.refl _), rfl, rfl, rfl⟩
  | .abort _ _ => ⟨_, execAbort_kept (.refl _ s) (.refl _), rfl, rfl, rfl⟩
  | .winReset _ _ => ⟨_, execWinReset_kept (.refl _ s) (.refl _), rfl, rfl, rfl⟩
  | .skeinCoreReset _ _ _ => ⟨_, execSkeinCoreReset_kept (.refl _ s) (.refl _), rfl, rfl, rfl⟩
  | .skeinWinDataAccess _ _ => ⟨_, execSkeinWinDataAccess_kept (.refl _ s) (.refl _), rfl, rfl, rfl⟩
  | .mboxDoorbell _ _ => ⟨_, execMboxDoorbell_kept (.refl _ s) (.refl _), rfl, rfl, rfl⟩
  | .clockSwitch _ => ⟨_, execClockSwitch_kept (.refl _ s) (.refl _), rfl, rfl, rfl⟩
  | .selvedgePendClear _ _ _ => ⟨_, execSelvedgePendClear_kept (.refl _ s) (.refl _), rfl, rfl, rfl⟩
  | .selvedgeRestart _ => ⟨_, execSelvedgeRestart_kept (.refl _ s) (.refl _), rfl, rfl, rfl⟩
  | .safetyClrWrite _ _ => ⟨_, execSafetyClrWrite_kept (.refl _ s) (.refl _), rfl, rfl, rfl⟩
  | .safetyForceLatch _ => ⟨_, execSafetyForceLatch_kept (.refl _ s) (.refl _), rfl, rfl, rfl⟩
  | .safetyMpdCfgWrite _ _ => ⟨_, execSafetyMpdCfgWrite_kept (.refl _ s) (.refl _), rfl, rfl, rfl⟩
  | .commitPoint _ => ⟨_, execCommitPoint_kept (.refl _ s) (.refl _), rfl, rfl, rfl⟩
  | .sweepPoint _ => ⟨_, execSweepPoint_kept (.refl _ s) (.refl _), rfl, rfl, rfl⟩
  | .sweepExportDone => ⟨_, execSweepExportDone_kept (.refl _ s) (.refl _), rfl, rfl, rfl⟩
  | .repeatStart => ⟨_, execRepeatStart_kept (.refl _ s) (.refl _), rfl, rfl, rfl⟩
  | .proofTest _ _ _ => ⟨_, execProofTest_kept (.refl _ s) (.refl _), rfl, rfl, rfl⟩
  | .shaperRefillTick _ => ⟨_, execShaperRefillTick_kept (.refl _ s) (.refl _), rfl, rfl, rfl⟩
  | .perPickOverrun _ _ _ => ⟨_, execPerPickOverrun_kept (.refl _ s) (.refl _), rfl, rfl, rfl⟩
  | .amplitudeInterval _ => ⟨_, execAmplitudeInterval_kept (.refl _ s) (.refl _), rfl, rfl, rfl⟩
  | .cdrLock => ⟨_, execCdrLock_kept (.refl _ s) (.refl _), rfl, rfl, rfl⟩
  | .cdrLockLoss => ⟨_, execCdrLockLoss_kept (.refl _ s) (.refl _), rfl, rfl, rfl⟩
  | .psyncWindow _ _ _ _ => ⟨_, execPsyncWindow_kept (.refl _ s) (.refl _), rfl, rfl, rfl⟩
  | .codewordDecode _ _ _ => ⟨_, execCodewordDecode_kept (.refl _ s) (.refl _), rfl, rfl, rfl⟩
  | .pickHeader _ _ => ⟨_, execPickHeader_kept (.refl _ s) (.refl _), rfl, rfl, rfl⟩
  | .pmSecondEnd _ => ⟨_, execPmSecondEnd_kept (.refl _ s) (.refl _), rfl, rfl, rfl⟩
  | .weftMap _ => ⟨_, execWeftMap_kept (.refl _ s) (.refl _), rfl, rfl, rfl⟩
  | .clpFrame _ _ => ⟨_, execClpFrame_kept (.refl _ s) (.refl _), rfl, rfl, rfl⟩
  | .reasmTimeout _ => ⟨_, execReasmTimeout_kept (.refl _ s) (.refl _), rfl, rfl, rfl⟩
  | .discover _ _ => ⟨_, execDiscover_kept (.refl _ s) (.refl _), rfl, rfl, rfl⟩
  | .assignTid _ _ => ⟨_, execAssignTid_kept (.refl _ s) (.refl _), rfl, rfl, rfl⟩
  | .challenge _ _ => ⟨_, execChallenge_kept (.refl _ s) (.refl _), rfl, rfl, rfl⟩
  | .keyAgree _ _ => ⟨_, execKeyAgree_kept (.refl _ s) (.refl _), rfl, rfl, rfl⟩
  | .setEqd _ _ => ⟨_, execSetEqd_kept (.refl _ s) (.refl _), rfl, rfl, rfl⟩
  | .assignContainer _ _ => ⟨_, execAssignContainer_kept (.refl _ s) (.refl _), rfl, rfl, rfl⟩
  | .assignStream _ _ => ⟨_, execAssignStream_kept (.refl _ s) (.refl _), rfl, rfl, rfl⟩
  | .keyLoad _ _ => ⟨_, execKeyLoad_kept (.refl _ s) (.refl _), rfl, rfl, rfl⟩
  | .keySwitch _ _ => ⟨_, execKeySwitch_kept (.refl _ s) (.refl _), rfl, rfl, rfl⟩
  | .tod _ _ => ⟨_, execTod_kept (.refl _ s) (.refl _), rfl, rfl, rfl⟩
  | .deactivate _ _ => ⟨_, execDeactivate_kept (.refl _ s) (.refl _), rfl, rfl, rfl⟩
  | .stop _ _ => ⟨_, execStop_kept (.refl _ s) (.refl _), rfl, rfl, rfl⟩
  | .release _ _ => ⟨_, execRelease_kept (.refl _ s) (.refl _), rfl, rfl, rfl⟩
  | .dozeAck _ _ => ⟨_, execDozeAck_kept (.refl _ s) (.refl _), rfl, rfl, rfl⟩
  | .effectiveChange => ⟨_, execEffectiveChange_kept (.refl _ s) (.refl _), rfl, rfl, rfl⟩
  | .tAnnounceExpiry => ⟨_, execTAnnounceExpiry_kept (.refl _ s) (.refl _), rfl, rfl, rfl⟩
  | .tKeyExpiry => ⟨_, execTKeyExpiry_kept (.refl _ s) (.refl _), rfl, rfl, rfl⟩
  | .tRangeExpiry => ⟨_, execTRangeExpiry_kept (.refl _ s) (.refl _), rfl, rfl, rfl⟩
  | .tLapseExpiry => ⟨_, execTLapseExpiry_kept (.refl _ s) (.refl _), rfl, rfl, rfl⟩
  | .armExpiry => ⟨_, execArmExpiry_kept (.refl _ s) (.refl _), rfl, rfl, rfl⟩
  | .attestRecordReady => ⟨_, execAttestRecordReady_kept (.refl _ s) (.refl _), rfl, rfl, rfl⟩
  | .keyDerivationDone => ⟨_, execKeyDerivationDone_kept (.refl _ s) (.refl _), rfl, rfl, rfl⟩
  | .burstLatch => ⟨_, execBurstLatch_kept (.refl _ s) (.refl _), rfl, rfl, rfl⟩
  | .sectionFill _ => ⟨_, execSectionFill_kept (.refl _ s) (.refl _), rfl, rfl, rfl⟩
  | .burstStart => ⟨_, execBurstStart_kept (.refl _ s) (.refl _), rfl, rfl, rfl⟩
  | .burstEnd => ⟨_, execBurstEnd_kept (.refl _ s) (.refl _), rfl, rfl, rfl⟩
  | .pwrFailAssert => ⟨_, execPwrFailAssert_kept (.refl _ s) (.refl _), rfl, rfl, rfl⟩
  | .pwrFailClear => ⟨_, execPwrFailClear_kept (.refl _ s) (.refl _), rfl, rfl, rfl⟩
  | .holdoverEntry => ⟨_, execHoldoverEntry_kept (.refl _ s) (.refl _), rfl, rfl, rfl⟩
  | .ppsPulse => ⟨_, execPpsPulse_kept (.refl _ s) (.refl _), rfl, rfl, rfl⟩
  | .tsCapEdge _ _ => ⟨_, execTsCapEdge_kept (.refl _ s) (.refl _), rfl, rfl, rfl⟩
  | .heddlePass _ _ => ⟨_, execHeddlePass_kept (.refl _ s) (.refl _), rfl, rfl, rfl⟩
  | .heddleReorderRelease _ _ => ⟨_, execHeddleReorderRelease_kept (.refl _ s) (.refl _), rfl, rfl, rfl⟩
  | .flowMissResolve _ _ => ⟨_, execFlowMissResolve_kept (.refl _ s) (.refl _), rfl, rfl, rfl⟩
  | .flowPlacement => ⟨_, execFlowPlacement_kept (.refl _ s) (.refl _), rfl, rfl, rfl⟩
  | .flowAgeOut _ => ⟨_, execFlowAgeOut_kept (.refl _ s) (.refl _), rfl, rfl, rfl⟩
  | .deckDrainEnd => ⟨_, execDeckDrainEnd_kept (.refl _ s) (.refl _), rfl, rfl, rfl⟩
  | .reedSelect _ _ _ => ⟨_, execReedSelect_kept (.refl _ s) (.refl _), rfl, rfl, rfl⟩
  | .spoolFree _ _ => ⟨_, execSpoolFree_kept (.refl _ s) (.refl _), rfl, rfl, rfl⟩
  | .spoolLayoutApply => ⟨_, execSpoolLayoutApply_kept (.refl _ s) (.refl _), rfl, rfl, rfl⟩
  | .gateListStart _ => ⟨_, execGateListStart_kept (.refl _ s) (.refl _), rfl, rfl, rfl⟩
  | .gateEntryChange _ => ⟨_, execGateEntryChange_kept (.refl _ s) (.refl _), rfl, rfl, rfl⟩
  | .deckLoad _ => ⟨_, execDeckLoad_kept (.refl _ s) (.refl _), rfl, rfl, rfl⟩
  | .deckLoadDone _ _ => ⟨_, execDeckLoadDone_kept (.refl _ s) (.refl _), rfl, rfl, rfl⟩
  | .deckSwap _ => ⟨_, execDeckSwap_kept (.refl _ s) (.refl _), rfl, rfl, rfl⟩
  | .ruleWrite _ => ⟨_, execRuleWrite_kept (.refl _ s) (.refl _), rfl, rfl, rfl⟩
  | .flowInsert _ => ⟨_, execFlowInsert_kept (.refl _ s) (.refl _), rfl, rfl, rfl⟩
  | .flowDelete _ => ⟨_, execFlowDelete_kept (.refl _ s) (.refl _), rfl, rfl, rfl⟩
  | .flowRead _ => ⟨_, execFlowRead_kept (.refl _ s) (.refl _), rfl, rfl, rfl⟩
  | .flowRehash _ => ⟨_, execFlowRehash_kept (.refl _ s) (.refl _), rfl, rfl, rfl⟩
  | .flowRehashDone => ⟨_, execFlowRehashDone_kept (.refl _ s) (.refl _), rfl, rfl, rfl⟩
  | .flowClear _ => ⟨_, execFlowClear_kept (.refl _ s) (.refl _), rfl, rfl, rfl⟩
  | .flowClearDone => ⟨_, execFlowClearDone_kept (.refl _ s) (.refl _), rfl, rfl, rfl⟩
  | .shaperLoad _ => ⟨_, execShaperLoad_kept (.refl _ s) (.refl _), rfl, rfl, rfl⟩
  | .shaperSwap _ => ⟨_, execShaperSwap_kept (.refl _ s) (.refl _), rfl, rfl, rfl⟩
  | .gateLoad _ => ⟨_, execGateLoad_kept (.refl _ s) (.refl _), rfl, rfl, rfl⟩
  | .gateStart _ => ⟨_, execGateStart_kept (.refl _ s) (.refl _), rfl, rfl, rfl⟩
  | .queueFlush _ => ⟨_, execQueueFlush_kept (.refl _ s) (.refl _), rfl, rfl, rfl⟩
  | .imageInstall _ => ⟨_, execImageInstall_kept (.refl _ s) (.refl _), rfl, rfl, rfl⟩
  | .imageActivate _ => ⟨_, execImageActivate_kept (.refl _ s) (.refl _), rfl, rfl, rfl⟩
  | .arbRaise _ => ⟨_, execArbRaise_kept (.refl _ s) (.refl _), rfl, rfl, rfl⟩
  | .idSign _ => ⟨_, execIdSign_kept (.refl _ s) (.refl _), rfl, rfl, rfl⟩
  | .sigVerify _ => ⟨_, execSigVerify_kept (.refl _ s) (.refl _), rfl, rfl, rfl⟩
  | .hash _ => ⟨_, execHash_kept (.refl _ s) (.refl _), rfl, rfl, rfl⟩
  | .random _ => ⟨_, execRandom_kept (.refl _ s) (.refl _), rfl, rfl, rfl⟩
  | .hostKey _ => ⟨_, execHostKey_kept (.refl _ s) (.refl _), rfl, rfl, rfl⟩
  | .gcm _ => ⟨_, execGcm_kept (.refl _ s) (.refl _), rfl, rfl, rfl⟩
  | .otpCustKey _ => ⟨_, execOtpCustKey_kept (.refl _ s) (.refl _), rfl, rfl, rfl⟩
  | .commandWorkEnd _ _ _ => ⟨_, execCommandWorkEnd_kept (.refl _ s) (.refl _), rfl, rfl, rfl⟩
  | .randomEntropyTimeout _ _ => ⟨_, execRandomEntropyTimeout_kept (.refl _ s) (.refl _), rfl, rfl, rfl⟩
  | .trngBlock _ => ⟨_, execTrngBlock_kept (.refl _ s) (.refl _), rfl, rfl, rfl⟩
  | .drbgReseed _ => ⟨_, execDrbgReseed_kept (.refl _ s) (.refl _), rfl, rfl, rfl⟩
  | .keyRetire _ _ _ => ⟨_, execKeyRetire_kept (.refl _ s) (.refl _), rfl, rfl, rfl⟩
  | .bootImageChoice => ⟨_, execBootImageChoice_kept (.refl _ s) (.refl _), rfl, rfl, rfl⟩
  | .laneAdapted _ _ => ⟨_, execLaneAdapted_kept (.refl _ s) (.refl _), rfl, rfl, rfl⟩
  | .laneLinkUp _ _ _ _ => ⟨_, execLaneLinkUp_kept (.refl _ s) (.refl _), rfl, rfl, rfl⟩
  | .laneLinkDown _ _ _ _ _ => ⟨_, execLaneLinkDown_kept (.refl _ s) (.refl _), rfl, rfl, rfl⟩
  | .pairMarker _ _ _ => ⟨_, execPairMarker_kept (.refl _ s) (.refl _), rfl, rfl, rfl⟩
  | .yonovFrameRx _ _ => ⟨_, execYonovFrameRx_kept (.refl _ s) (.refl _), rfl, rfl, rfl⟩
  | .yidle _ _ => ⟨_, execYidle_kept (.refl _ s) (.refl _), rfl, rfl, rfl⟩
  | .yidleTimeout _ => ⟨_, execYidleTimeout_kept (.refl _ s) (.refl _), rfl, rfl, rfl⟩
  | .yidleSend _ => ⟨_, execYidleSend_kept (.refl _ s) (.refl _), rfl, rfl, rfl⟩
  | .yhold _ _ => ⟨_, execYhold_kept (.refl _ s) (.refl _), rfl, rfl, rfl⟩
  | .yholdRepeat _ => ⟨_, execYholdRepeat_kept (.refl _ s) (.refl _), rfl, rfl, rfl⟩
  | .yholdTimeout _ => ⟨_, execYholdTimeout_kept (.refl _ s) (.refl _), rfl, rfl, rfl⟩
  | .ymgmt _ _ => ⟨_, execYmgmt_kept (.refl _ s) (.refl _), rfl, rfl, rfl⟩
  | .yonovFifoError _ => ⟨_, execYonovFifoError_kept (.refl _ s) (.refl _), rfl, rfl, rfl⟩
  | .macRxFrame _ _ => ⟨_, execMacRxFrame_kept (.refl _ s) (.refl _), rfl, rfl, rfl⟩
  | .pauseFrameRx _ _ => ⟨_, execPauseFrameRx_kept (.refl _ s) (.refl _), rfl, rfl, rfl⟩
  | .pauseExpiry _ _ => ⟨_, execPauseExpiry_kept (.refl _ s) (.refl _), rfl, rfl, rfl⟩
  | .pauseRepeat _ => ⟨_, execPauseRepeat_kept (.refl _ s) (.refl _), rfl, rfl, rfl⟩
  | .macTxEnd _ _ => ⟨_, execMacTxEnd_kept (.refl _ s) (.refl _), rfl, rfl, rfl⟩
  | .mergeVerify _ => ⟨_, execMergeVerify_kept (.refl _ s) (.refl _), rfl, rfl, rfl⟩
  | .upstreamExchange _ => ⟨_, execUpstreamExchange_kept (.refl _ s) (.refl _), rfl, rfl, rfl⟩
  | .draftLoad _ => ⟨_, execDraftLoad_kept (.refl _ s) (.refl _), rfl, rfl, rfl⟩
  | .draftSwap _ => ⟨_, execDraftSwap_kept (.refl _ s) (.refl _), rfl, rfl, rfl⟩
  | .doorbellFetchDone _ _ => ⟨_, execDoorbellFetchDone_kept (.refl _ s) (.refl _), rfl, rfl, rfl⟩
  | .descriptorReadDone _ _ => ⟨_, execDescriptorReadDone_kept (.refl _ s) (.refl _), rfl, rfl, rfl⟩
  | .descriptorReread _ => ⟨_, execDescriptorReread_kept (.refl _ s) (.refl _), rfl, rfl, rfl⟩
  | .txSend _ _ => ⟨_, execTxSend_kept (.refl _ s) (.refl _), rfl, rfl, rfl⟩
  | .nop _ => ⟨_, execNop_kept (.refl _ s) (.refl _), rfl, rfl, rfl⟩
  | .ringSetup _ => ⟨_, execRingSetup_kept (.refl _ s) (.refl _), rfl, rfl, rfl⟩
  | .ringResize _ => ⟨_, execRingResize_kept (.refl _ s) (.refl _), rfl, rfl, rfl⟩
  | .ringStop _ => ⟨_, execRingStop_kept (.refl _ s) (.refl _), rfl, rfl, rfl⟩
  | .cqModerate _ => ⟨_, execCqModerate_kept (.refl _ s) (.refl _), rfl, rfl, rfl⟩
  | .ringQuery _ => ⟨_, execRingQuery_kept (.refl _ s) (.refl _), rfl, rfl, rfl⟩
  | .ringEntersOff _ => ⟨_, execRingEntersOff_kept (.refl _ s) (.refl _), rfl, rfl, rfl⟩
  | .msixModTimer _ => ⟨_, execMsixModTimer_kept (.refl _ s) (.refl _), rfl, rfl, rfl⟩
  | .hostFunctionReset _ => ⟨_, execHostFunctionReset_kept (.refl _ s) (.refl _), rfl, rfl, rfl⟩
  | .copy _ => ⟨_, execCopy_kept (.refl _ s) (.refl _), rfl, rfl, rfl⟩
  | .fill _ => ⟨_, execFill_kept (.refl _ s) (.refl _), rfl, rfl, rfl⟩
  | .compare _ => ⟨_, execCompare_kept (.refl _ s) (.refl _), rfl, rfl, rfl⟩
  | .shuttleBurst _ => ⟨_, execShuttleBurst_kept (.refl _ s) (.refl _), rfl, rfl, rfl⟩
  | .shuttleDescDone _ => ⟨_, execShuttleDescDone_kept (.refl _ s) (.refl _), rfl, rfl, rfl⟩
  | .mpy _ => ⟨_, execMpy_kept (.refl _ s) (.refl _), rfl, rfl, rfl⟩
  | .mac _ => ⟨_, execMac_kept (.refl _ s) (.refl _), rfl, rfl, rfl⟩
  | .msu _ => ⟨_, execMsu_kept (.refl _ s) (.refl _), rfl, rfl, rfl⟩
  | .ftap _ => ⟨_, execFtap_kept (.refl _ s) (.refl _), rfl, rfl, rfl⟩
  | .clr _ => ⟨_, execClr_kept (.refl _ s) (.refl _), rfl, rfl, rfl⟩
  | .neg _ => ⟨_, execNeg_kept (.refl _ s) (.refl _), rfl, rfl, rfl⟩
  | .abs _ => ⟨_, execAbs_kept (.refl _ s) (.refl _), rfl, rfl, rfl⟩
  | .adda _ => ⟨_, execAdda_kept (.refl _ s) (.refl _), rfl, rfl, rfl⟩
  | .suba _ => ⟨_, execSuba_kept (.refl _ s) (.refl _), rfl, rfl, rfl⟩
  | .shlAcc _ => ⟨_, execShlAcc_kept (.refl _ s) (.refl _), rfl, rfl, rfl⟩
  | .shrAcc _ => ⟨_, execShrAcc_kept (.refl _ s) (.refl _), rfl, rfl, rfl⟩
  | .movr _ => ⟨_, execMovr_kept (.refl _ s) (.refl _), rfl, rfl, rfl⟩
  | .movt _ => ⟨_, execMovt_kept (.refl _ s) (.refl _), rfl, rfl, rfl⟩
  | .lda _ => ⟨_, execLda_kept (.refl _ s) (.refl _), rfl, rfl, rfl⟩
  | .sat32 _ => ⟨_, execSat32_kept (.refl _ s) (.refl _), rfl, rfl, rfl⟩
  | .mov _ => ⟨_, execMov_kept (.refl _ s) (.refl _), rfl, rfl, rfl⟩
  | .add _ => ⟨_, execAdd_kept (.refl _ s) (.refl _), rfl, rfl, rfl⟩
  | .sub _ => ⟨_, execSub_kept (.refl _ s) (.refl _), rfl, rfl, rfl⟩
  | .and _ => ⟨_, execAnd_kept (.refl _ s) (.refl _), rfl, rfl, rfl⟩
  | .or _ => ⟨_, execOr_kept (.refl _ s) (.refl _), rfl, rfl, rfl⟩
  | .xor _ => ⟨_, execXor_kept (.refl _ s) (.refl _), rfl, rfl, rfl⟩
  | .shlData _ => ⟨_, execShlData_kept (.refl _ s) (.refl _), rfl, rfl, rfl⟩
  | .shrData _ => ⟨_, execShrData_kept (.refl _ s) (.refl _), rfl, rfl, rfl⟩
  | .cmp _ => ⟨_, execCmp_kept (.refl _ s) (.refl _), rfl, rfl, rfl⟩
  | .skeinNop _ => ⟨_, execSkeinNop_kept (.refl _ s) (.refl _), rfl, rfl, rfl⟩
  | .ld _ => ⟨_, execLd_kept (.refl _ s) (.refl _), rfl, rfl, rfl⟩
  | .st _ => ⟨_, execSt_kept (.refl _ s) (.refl _), rfl, rfl, rfl⟩
  | .ldi _ => ⟨_, execLdi_kept (.refl _ s) (.refl _), rfl, rfl, rfl⟩
  | .addx _ => ⟨_, execAddx_kept (.refl _ s) (.refl _), rfl, rfl, rfl⟩
  | .ldx _ => ⟨_, execLdx_kept (.refl _ s) (.refl _), rfl, rfl, rfl⟩
  | .ldm _ => ⟨_, execLdm_kept (.refl _ s) (.refl _), rfl, rfl, rfl⟩
  | .mvs _ => ⟨_, execMvs_kept (.refl _ s) (.refl _), rfl, rfl, rfl⟩
  | .msv _ => ⟨_, execMsv_kept (.refl _ s) (.refl _), rfl, rfl, rfl⟩
  | .trd _ => ⟨_, execTrd_kept (.refl _ s) (.refl _), rfl, rfl, rfl⟩
  | .twr _ => ⟨_, execTwr_kept (.refl _ s) (.refl _), rfl, rfl, rfl⟩
  | .br _ => ⟨_, execBr_kept (.refl _ s) (.refl _), rfl, rfl, rfl⟩
  | .call _ => ⟨_, execCall_kept (.refl _ s) (.refl _), rfl, rfl, rfl⟩
  | .ret _ => ⟨_, execRet_kept (.refl _ s) (.refl _), rfl, rfl, rfl⟩
  | .rti _ => ⟨_, execRti_kept (.refl _ s) (.refl _), rfl, rfl, rfl⟩
  | .rep _ => ⟨_, execRep_kept (.refl _ s) (.refl _), rfl, rfl, rfl⟩
  | .wait _ => ⟨_, execWait_kept (.refl _ s) (.refl _), rfl, rfl, rfl⟩
  | .halt _ => ⟨_, execHalt_kept (.refl _ s) (.refl _), rfl, rfl, rfl⟩
  | .interruptTaken _ _ => ⟨_, execInterruptTaken_kept (.refl _ s) (.refl _), rfl, rfl, rfl⟩
  | .eqSwap => ⟨_, execEqSwap_kept (.refl _ s) (.refl _), rfl, rfl, rfl⟩
  | .corrWindowEnd _ _ => ⟨_, execCorrWindowEnd_kept (.refl _ s) (.refl _), rfl, rfl, rfl⟩
  | .skeinLoad _ => ⟨_, execSkeinLoad_kept (.refl _ s) (.refl _), rfl, rfl, rfl⟩
  | .skeinUnload _ => ⟨_, execSkeinUnload_kept (.refl _ s) (.refl _), rfl, rfl, rfl⟩
  | .firmwareBankSwitch _ => ⟨_, execFirmwareBankSwitch_kept (.refl _ s) (.refl _), rfl, rfl, rfl⟩
  | .powerOn => ⟨_, execPowerOn_kept (.refl _ s) (.refl _), rfl, rfl, rfl⟩
  | .resetAssert _ => ⟨_, execResetAssert_kept (.refl _ s) (.refl _), rfl, rfl, rfl⟩
  | .supplyRemoval => ⟨_, execSupplyRemoval_kept (.refl _ s) (.refl _), rfl, rfl, rfl⟩
  | .ready _ => ⟨_, execReady_kept (.refl _ s) (.refl _), rfl, rfl, rfl⟩
  | .dozeDrainComplete => ⟨_, execDozeDrainComplete_kept (.refl _ s) (.refl _), rfl, rfl, rfl⟩
  | .domainWakeOn _ => ⟨_, execDomainWakeOn_kept (.refl _ s) (.refl _), rfl, rfl, rfl⟩
  | .dramTrainingDone _ _ => ⟨_, execDramTrainingDone_kept (.refl _ s) (.refl _), rfl, rfl, rfl⟩
  | .faultReport _ => ⟨_, execFaultReport_kept (.refl _ s) (.refl _), rfl, rfl, rfl⟩
  | .stormClose => ⟨_, execStormClose_kept (.refl _ s) (.refl _), rfl, rfl, rfl⟩
  | .recoveryEnd _ => ⟨_, execRecoveryEnd_kept (.refl _ s) (.refl _), rfl, rfl, rfl⟩
  | .safetyLinkUpdate _ _ _ => ⟨_, execSafetyLinkUpdate_kept (.refl _ s) (.refl _), rfl, rfl, rfl⟩
  | .safetyDeclare _ _ _ => ⟨_, execSafetyDeclare_kept (.refl _ s) (.refl _), rfl, rfl, rfl⟩
  | .vddSafeReturn _ => ⟨_, execVddSafeReturn_kept (.refl _ s) (.refl _), rfl, rfl, rfl⟩
  | .busMasterEnable _ _ _ _ => ⟨_, execBusMasterEnable_kept (.refl _ s) (.refl _), rfl, rfl, rfl⟩
  | .reservedOpcode _ => ⟨_, execReservedOpcode_kept (.refl _ s) (.refl _), rfl, rfl, rfl⟩
  | .treadleMessageDiscarded _ _ => ⟨_, execTreadleMessageDiscarded_kept (.refl _ s) (.refl _), rfl, rfl, rfl⟩
  | .darkRegisterRead _ _ => ⟨_, execDarkRegisterRead_kept (.refl _ s) (.refl _), rfl, rfl, rfl⟩
  | .corePllLoss => ⟨_, execCorePllLoss_kept (.refl _ s) (.refl _), rfl, rfl, rfl⟩
  | .cutIneffective => ⟨_, execCutIneffective_kept (.refl _ s) (.refl _), rfl, rfl, rfl⟩
  | .vddSafeLoss => ⟨_, execVddSafeLoss_kept (.refl _ s) (.refl _), rfl, rfl, rfl⟩
  | .resetRelease => ⟨_, execResetRelease_kept (.refl _ s) (.refl _), rfl, rfl, rfl⟩

theorem exec_next_kept {c : Instr} {s t : State} (h : exec c s = .next t) :
    ∃ n, Kept n s t ∧ partsOf n = footprint c ∧ n.testBit 27 = mayChangeReady c ∧ n.testBit 28 = mayLeaveLatch c := by
  obtain ⟨n, ⟨u, hu, hk⟩, hn⟩ := exec_kept c s
  rw [h] at hu
  cases hu
  exact ⟨n, hk, hn⟩

end Sys2Proof.Machine
end

