-- ==== Sys2Proof/Proofs/StartUp.lean ====
section
/-! SUPPORT. Proofs/StartUp.lean: READY and the clocks of start-up (R423 to R427): which commands take READY away, and what the loss
of the core PLL's lock reports. -/

namespace Sys2Proof.Machine

open Sys2Proof

section

variable {s t : State}

/-! ## READY (R425) -/

/-- While READY stands, the end of start-up is not due again (R423). -/
theorem exec_ready_again (h : s.power.ready = true) (i : ReadyIn) : exec (.ready i) s = .next s := by
  have hdone : ¬ (s.power.mode = .calibrate ∧ s.power.inReset = false ∧ s.power.ready = false ∧ s.sec.chosen = true) := by
    simp [h]
  exact congrArg Host.Outcome.next (if_neg hdone)

/-- A pulse on RESET_N below 200 ns does nothing (R467). -/
theorem exec_resetAssert_short {low : Nat} (h : low < 200) (s : State) : exec (.resetAssert low) s = .next s :=
  congrArg Host.Outcome.next (if_pos (.inr h))

theorem exec_ready_change {c : Instr} (h : exec c s = .next t) (hne : t.power.ready ≠ s.power.ready) :
    mayChangeReady c = true := by
  obtain ⟨n, hkept, -, hready, -⟩ := exec_next_kept h
  exact hready ▸ hkept.ready.resolve_right hne

/-! ## Loss of the core PLL's lock (R427) -/

@[simp] theorem raiseFree_power (s : State) (source code : Nat) : (raiseFree s source code).power = s.power :=
  (raiseFree_kept (Kept.refl 2136 s) (Sub.refl _)).power_eq rfl

theorem raises_setPower {x : Power} {source code : Nat} : (setPower s x).raises t source code ↔ s.raises t source code :=
  Iff.rfl

theorem exec_corePllLoss_switched (hlock : s.power.corePllLock = true) (hclk : s.power.clkPll = true) :
    exec .corePllLoss s = .next (raiseFree (setPower s { s.power with corePllLock := false }) 0x28 0x0A0) :=
  congrArg Host.Outcome.next ((if_pos hlock).trans (if_pos hclk))

end

/-- Settles O5: by what every command keeps, four may change READY; of these the end of start-up is not due while READY stands,
and a short pulse on RESET_N does nothing. -/
theorem readyStaysUntilReset : Obligations.ReadyStaysUntilReset := by
  intro c s t hexec hbefore hafter
  have hne : t.power.ready ≠ s.power.ready := by simp [hbefore, hafter]
  obtain rfl | rfl | ⟨low, rfl⟩ | ⟨i, rfl⟩ := mayChangeReady_iff.1 (exec_ready_change hexec hne)
  · exact .inl rfl
  · exact .inr (.inl rfl)
  · refine .inr (.inr ⟨low, Nat.le_of_not_lt fun hshort => ?_, rfl⟩)
    rw [exec_resetAssert_short hshort] at hexec
    cases hexec
    exact hne rfl
  · rw [exec_ready_again hbefore] at hexec
    cases hexec
    exact absurd rfl hne

/-- Settles O58: after the switch the loss is reported as event 0x0A0 of source 0x28, a code of class 3. -/
theorem pllLossAfterSwitchIsFatal : Obligations.PllLossAfterSwitchIsFatal := by
  intro s hlock hclk
  have hfatal : codeClass 0x28 0x0A0 = 3 := by decide
  exact ⟨_, exec_corePllLoss_switched hlock hclk, raiseFree_power _ _ _, raises_setPower.1 (raises_raiseFree _ _ _), hfatal⟩

end Sys2Proof.Machine
end

