-- ==== Sys2Proof/Proofs/WholeBlock.lean ====
section
/-! SUPPORT. Proofs/WholeBlock.lean: what holds of every command and of every step: the invariant, completion, the footprint,
the fuses, the safety latch, and how a step takes its command from the queue. -/

namespace Sys2Proof.Machine

open Sys2Proof

section

variable {c : Instr} {s t : State}

/-! ## A step (log entries 1 and 3) -/

theorem step_cons {rest : List Instr} (h : s.pending = c :: rest) : step s = exec c { s with pending := rest } := by
  rw [step, h]

theorem step_nil (h : s.pending = []) : step s = .next (idleClock s) := by
  rw [step, h]

/-- The invariant speaks of tables and counters only, so the queue may be rewritten. -/
theorem inv_setPending (q : List Instr) : State.inv { s with pending := q } ↔ s.inv := Iff.rfl

theorem exec_keeps_inv (h : s.inv) (hexec : exec c s = .next t) : t.inv := by
  obtain ⟨n, hkept, -⟩ := exec_next_kept hexec
  exact hkept.inv h

theorem idleClock_inv (h : s.inv) : (idleClock s).inv :=
  (idleClock_kept (.refl _ s) (.refl _)).inv h

theorem step_keeps_inv (h : s.inv) (hstep : step s = .next t) : t.inv := by
  cases hq : s.pending with
  | nil =>
    rw [step_nil hq] at hstep
    cases hstep
    exact idleClock_inv h
  | cons c rest =>
    rw [step_cons hq] at hstep
    exact exec_keeps_inv ((inv_setPending rest).2 h) hstep

/-! ## One core clock (log entry 3) -/

@[simp] theorem timeAdvance_now (n : Nat) (s : State) : (timeAdvance n s).now = s.now :=
  (timeAdvance_kept (.refl _ s) (.refl _)).now_eq rfl

@[simp] theorem runClocks_now (n : Nat) (s : State) : (runClocks n s).now = s.now + n := by
  rw [runClocks, timeAdvance_now]

@[simp] theorem runClocks_pending (n : Nat) (s : State) : (runClocks n s).pending = s.pending :=
  (runClocks_kept (.refl _ s) (.refl _)).pending

theorem idleClock_stopped (h : picksRun s = false) : idleClock s = s := by
  simp [idleClock, h]

theorem idleClock_running (h : picksRun s = true) : idleClock s = runClocks 1 s := if_pos h

/-! ## What a command keeps -/

theorem exec_sameBut (h : exec c s = .next t) : s.sameBut (footprint c) t := by
  obtain ⟨n, hkept, hparts, -⟩ := exec_next_kept h
  exact hparts ▸ hkept.sameBut

theorem exec_latch_left (h : exec c s = .next t) (hbefore : s.safety.latch = true) (hafter : t.safety.latch = false) :
    mayLeaveLatch c = true := by
  obtain ⟨n, hkept, -, -, hlatch⟩ := exec_next_kept h
  refine hlatch ▸ hkept.latch.resolve_right fun hkeeps => ?_
  simp [hkeeps hbefore] at hafter

theorem mayLeaveLatch_iff :
    mayLeaveLatch c = true ↔ (∃ x, c = .commitPoint x) ∨ (∃ r, c = .vddSafeReturn r) ∨ c = .powerOn ∨ c = .supplyRemoval := by
  constructor
  · intro h
    unfold mayLeaveLatch at h
    split at h
    case h_1 => exact .inr (.inr (.inl rfl))
    case h_2 => exact .inr (.inr (.inr rfl))
    case h_3 x => exact .inl ⟨x, rfl⟩
    case h_4 r => exact .inr (.inl ⟨r, rfl⟩)
    case h_5 => cases h
  · rintro (⟨x, rfl⟩ | ⟨r, rfl⟩ | rfl | rfl) <;> rfl

end

/-- Settles O1: a command keeps the invariant by what every command keeps, and so does a core clock on an empty queue. -/
theorem stepKeepsInvariant : Obligations.StepKeepsInvariant :=
  fun _ _ hinv hstep => step_keeps_inv hinv hstep

/-- Settles O2: after reset every table is empty. -/
theorem resetHasInvariant : Obligations.ResetHasInvariant := ⟨rfl, rfl⟩

/-- Settles O3, by what every command keeps. -/
theorem commandsAnswerNext : Obligations.CommandsAnswerNext := by
  intro c s
  obtain ⟨n, ⟨t, hexec, hkept⟩, -⟩ := exec_kept c s
  exact ⟨t, hexec, hkept.pending, hkept.out, hkept.draws, hkept.inv⟩

/-- Settles O4: the set of parts that a command keeps to is its footprint. -/
theorem commandsKeepToFootprint : Obligations.CommandsKeepToFootprint :=
  fun _ _ _ hexec => exec_sameBut hexec

/-- Settles O6, by what every command keeps of the fuses. -/
theorem fusesOnlyGrow : Obligations.FusesOnlyGrow := by
  intro c s t hexec
  obtain ⟨n, hkept, -⟩ := exec_next_kept hexec
  obtain ⟨harb, hcust, hseed⟩ := hkept.otp
  exact ⟨harb, hseed, hcust⟩

/-- Settles O7: only four commands may leave the latch. -/
theorem latchLeftOnlyAtCommitOrSupply : Obligations.LatchLeftOnlyAtCommitOrSupply :=
  fun _ _ _ hexec hbefore hafter => mayLeaveLatch_iff.1 (exec_latch_left hexec hbefore hafter)

/-- Settles O8, by the definition of a step. -/
theorem stepTakesFrontCommand : Obligations.StepTakesFrontCommand :=
  fun _ _ _ hq => step_cons hq

/-- Settles O9: the idle step is one core clock where the picks run and nothing elsewhere. -/
theorem emptyQueueStepIsOneClock : Obligations.EmptyQueueStepIsOneClock := by
  intro s hq
  refine ⟨fun hstop => ?_, fun hrun => ⟨runClocks 1 s, ?_, ?_, runClocks_now 1 s⟩⟩
  · rw [step_nil hq, idleClock_stopped hstop]
  · rw [step_nil hq, idleClock_running hrun]
  · rw [runClocks_pending, hq]

end Sys2Proof.Machine
end

