-- ==== Sys2Proof/Proofs/CommitPoint.lean ====
section
/-! SUPPORT. Proofs/CommitPoint.lean: the commit point (R17, R19, R22, R26): what its steps leave of the pick generator's
counts, and what step 2 makes of the staged copies. -/

namespace Sys2Proof.Machine

open Sys2Proof

section

variable {s : State}

/-! ## The counts of the pick generator through steps 3 to 11 -/

/-- What step 11 and step 3 write of the pick generator: the count that the commit point stands at, the commit points passed and
the commands applied. -/
def pickMarks (s : State) : Nat × Nat × Nat := (s.pick.point, s.pick.commits, s.pick.applied)

theorem pickMarks_of_pick {t : State} (h : t.pick = s.pick) : pickMarks t = pickMarks s := by
  rw [pickMarks, h, pickMarks]

theorem pickMarks_foldl {α : Type} {f : State → α → State} (hf : ∀ s x, pickMarks (f s x) = pickMarks s) (l : List α) (s : State) :
    pickMarks (l.foldl f s) = pickMarks s := by
  induction l generalizing s with
  | nil => rfl
  | cons x l ih => rw [List.foldl_cons, ih, hf]

theorem pickMarks_sweepAbandon (x : SweepExport) (s : State) : pickMarks (sweepAbandon x s) = pickMarks s := by
  have hcells : ∀ (s : State) (e : Nat × Nat),
      pickMarks (if e.2 = 0 ∨ domOn s (cntDomain e.1) = false then s else countKey s e.1 e.2) = pickMarks s := by
    intro s e
    split
    case isTrue => rfl
    case isFalse => exact pickMarks_of_pick (countKey_pick _ _ _)
  rw [sweepAbandon, pickMarks_of_pick (count_pick _ _ _)]
  exact pickMarks_foldl hcells _ s

/-- The parts that a unit's recovery may touch, the pick generator left out: of the sources only PICK abandons a sweep record on its way. -/
theorem recoverAction_kept_others {src : Nat} (hsrc : src ≠ 0x01) (ctx : Nat) (s : State) :
    Kept 134216922 s (recoverAction src ctx s) := by
  have h : Kept 134216922 s s := .refl _ s
  have sub {k : Nat} (e : Nat.lor k 134216922 = 134216922) : Sub k 134216922 := .of (.refl _) e
  rw [recoverAction, if_neg hsrc]
  refine kept_ite (pickFail_kept h (sub rfl)) <| kept_ite (endBursts_kept (cancelBursts_kept h (sub rfl)) (sub rfl)) <|
    kept_ite (setCapFifo_kept (setCapFifo_kept h (sub rfl)) (sub rfl)) <| kept_ite ?flights <| kept_ite ?flowStore <|
    kept_ite (setReed_kept (flushAll_kept h (sub rfl)) (sub rfl)) <| kept_ite ?ciphers <| kept_ite ?identity <|
    kept_ite (macLink_kept (macAbort_kept h (sub rfl)) (sub rfl)) <|
    kept_ite (kept_ite (laneGo_kept (laneUnlock_kept h (sub rfl)) (sub rfl)) h) <| kept_ite (draftLate_kept h (sub rfl)) <|
    kept_ite (hostRecover_kept h (sub rfl)) <| kept_ite (shuttleRecover_kept h (sub rfl)) <| kept_ite ?cores <|
    kept_ite (setTension_kept h (sub rfl)) <|
    kept_ite (kept_ite h (endWorks_kept (imgStop_kept h (sub rfl)) (sub rfl))) h
  case flights =>
    exact kept_foldl h fun t x ht => frameGone_kept (count_kept (dropFlight_kept ht (sub rfl)) (sub rfl)) (sub rfl)
  case flowStore =>
    exact setFlow_kept (dropWorks_kept (countBy_kept (missesResolve_kept h (sub rfl)) (sub rfl)) (sub rfl)) (sub rfl)
  case ciphers =>
    exact kept_foldl h fun t w ht => workEnd_kept (kept_ite (setGcmCtx_kept ht (sub rfl)) ht) (sub rfl)
  case identity =>
    split
    · exact workEnd_kept h (sub rfl)
    · exact h
  case cores =>
    exact skeinRecover_kept (kept_ite (setCore_kept h (sub rfl)) h) (sub rfl)

theorem pickMarks_recoverAction (src ctx : Nat) (s : State) : pickMarks (recoverAction src ctx s) = pickMarks s := by
  by_cases hsrc : src = 0x01
  case neg => exact pickMarks_of_pick ((recoverAction_kept_others hsrc ctx s).pick_eq rfl)
  case pos =>
    rw [recoverAction, if_pos hsrc]
    split
    case h_1 x _ => exact pickMarks_sweepAbandon x s
    case h_2 => rfl

@[simp] theorem selvNotify_pick (s : State) (sub payload : Nat) : (selvNotify s sub payload).pick = s.pick :=
  (selvNotify_kept (.refl _ s) (.refl _)).pick_eq rfl

theorem pickMarks_recoverBegin (src : Nat) (s : State) : pickMarks (recoverBegin src s) = pickMarks s := by
  rw [recoverBegin]
  split
  case isTrue => exact pickMarks_of_pick (by simp)
  case isFalse => exact (pickMarks_recoverAction _ _ _).trans (pickMarks_of_pick (by simp))

theorem pickMarks_recoverOne (src : Nat) (s : State) : pickMarks (recoverOne src s) = pickMarks s := by
  unfold recoverOne
  dsimp only
  split_ifs
  case pos => rfl
  case pos => exact pickMarks_of_pick (by simp)
  case neg => exact pickMarks_recoverBegin src s

theorem pickMarks_recoverStart (s : State) : pickMarks (recoverStart s) = pickMarks s := by
  rw [recoverStart]
  split
  case isTrue => rfl
  case isFalse =>
    refine pickMarks_foldl (fun s src => ?_) _ s
    rw [pickMarks_foldl fun s c => pickMarks_recoverOne c s]
    exact pickMarks_of_pick (setUnit_pick _ _ _)

/-! ## Steps 3 to 11 (R24, R26) -/

theorem applyReady_fst_le (n : Nat) (s : State) : (applyReady n s).1 ≤ n := by
  induction n generalizing s with
  | zero => exact Nat.le_refl 0
  | succ n ih =>
    unfold applyReady
    split
    case h_1 => exact Nat.zero_le _
    case h_2 c _ => exact Nat.succ_le_succ (ih _)

@[simp] theorem applyReady_pick (n : Nat) (s : State) : (applyReady n s).2.pick = s.pick :=
  (keptP_snd (applyReady_kept (.refl _ s) (.refl _))).pick_eq rfl

@[simp] theorem swapFirmware_imgSwap_pick (s : State) : (swapFirmware (imgSwap s)).pick = s.pick :=
  (swapFirmware_kept (imgSwap_kept (.refl 17047552 s) (.of (.refl _) rfl)) (.of (.refl _) rfl)).pick_eq rfl

theorem stepCommands_marks (s : State) :
    ∃ k ≤ 256, pickMarks (stepCommands s) = (s.pick.point, s.pick.commits, k) := by
  refine ⟨(applyReady 256 (setHeddle s { s.heddle with swapDue := swapDueIn s ((readyList [] s.host.cmds).take 256) })).1,
    applyReady_fst_le 256 _, ?_⟩
  unfold stepCommands pickMarks
  dsimp only
  split
  case isTrue => rw [swapFirmware_imgSwap_pick]; simp
  case isFalse => simp

theorem pickMarks_actKeys (s : State) : pickMarks (actKeys s) = pickMarks s :=
  pickMarks_of_pick ((actKeys_kept (.refl _ s) (.refl _)).pick_eq rfl)

theorem pickMarks_stepShapers (s : State) : pickMarks (stepShapers s) = pickMarks s :=
  pickMarks_of_pick ((stepShapers_kept (.refl _ s) (.refl _)).pick_eq rfl)

theorem pickMarks_gateArm (s : State) : pickMarks (gateArm s) = pickMarks s :=
  pickMarks_of_pick ((gateArm_kept (.refl _ s) (.refl _)).pick_eq rfl)

theorem pickMarks_stepDraft (s : State) : pickMarks (stepDraft s) = pickMarks s :=
  pickMarks_of_pick ((stepDraft_kept (.refl _ s) (.refl _)).pick_eq rfl)

theorem pickMarks_grantReview (s : State) : pickMarks (grantReview s) = pickMarks s :=
  pickMarks_of_pick ((grantReview_kept (.refl _ s) (.refl _)).pick_eq rfl)

theorem pickMarks_ite_deckSwap (s : State) : pickMarks (if s.heddle.swapAsked then deckSwap s else s) = pickMarks s := by
  split
  case isTrue => exact pickMarks_of_pick ((deckSwap_kept (.refl _ s) (.refl _)).pick_eq rfl)
  case isFalse => rfl

@[simp] theorem raiseEv_pick (s : State) (source code ctx : Nat) : (raiseEv s source code ctx).pick = s.pick :=
  (raiseEv_kept (.refl _ s) (.refl _)).pick_eq rfl

@[simp] theorem setPm_pick (s : State) (x : Pm) : (setPm s x).pick = s.pick := rfl

theorem stepCount_pick (c : Nat) (s : State) :
    (stepCount c s).pick = { s.pick with
      count := c
      commits := s.pick.commits + 1
      began := s.now
      headerCount := none
      lockPending := false
      jumped := s.pick.jumped || c != (s.pick.count + 1) % 2 ^ 48
      wovenHere := s.act.st == .woven && s.pick.gen == .locked } := by
  unfold stepCount
  dsimp only
  split_ifs <;> simp

@[simp] theorem rehashStep_pick (s : State) : (rehashStep s).pick = s.pick :=
  (rehashStep_kept (.refl _ s) (.refl _)).pick_eq rfl

@[simp] theorem pauseScan_pick (s : State) : (pauseScan s).pick = s.pick :=
  (pauseScan_kept (.refl _ s) (.refl _)).pick_eq rfl

@[simp] theorem stepStaged_pick (old : Nat → Nat) (s : State) : (stepStaged old s).pick = s.pick :=
  (stepStaged_kept (.refl _ s) (.refl _)).pick_eq rfl

/-- Steps 4 to 11 begin the pick `c`, and leave the point and the number of commands applied as step 3 left them. -/
theorem stepRest_pick (c : Nat) (s : State) :
    pickMarks (stepRest c s) = (s.pick.point, s.pick.commits + 1, s.pick.applied) ∧ (stepRest c s).pick.count = c ∧
      (stepRest c s).pick.lockPending = false ∧ (stepRest c s).pick.headerCount = none := by
  obtain ⟨u, hrest, hu⟩ : ∃ u, stepRest c s = rehashStep (stepCount c u) ∧ pickMarks u = pickMarks s := by
    refine ⟨_, rfl, ?_⟩
    rw [pickMarks_recoverStart, pickMarks_grantReview, pickMarks_stepDraft, pickMarks_gateArm, pickMarks_stepShapers,
      pickMarks_actKeys, pickMarks_ite_deckSwap]
  simp only [pickMarks, Prod.mk.injEq] at hu
  obtain ⟨hpoint, hcommits, happlied⟩ := hu
  rw [hrest]
  simp [pickMarks, stepCount_pick, hpoint, hcommits, happlied]

/-! ## The pick that ends (R17, R18) -/

theorem endPick_commits (clocks : Nat) (s : State) : (endPick clocks s).pick.commits = s.pick.commits := by
  unfold endPick
  dsimp only
  split_ifs <;> simp

@[simp] theorem pickEnds_pick (i : CommitIn) (s : State) : (pickEnds i s).pick = s.pick := rfl

@[simp] theorem takeAll_pick (n : Nat) (s : State) : (takeAll n s).pick = s.pick :=
  (takeAll_kept (.refl _ s) (.refl _)).pick_eq rfl

@[simp] theorem runClocks_pick (n : Nat) (s : State) : (runClocks n s).pick = s.pick :=
  (runClocks_kept (.refl _ s) (.refl _)).pick_eq rfl

@[simp] theorem forUpTo_pairSend_pick (n : Nat) (s : State) : (forUpTo n s pairSend).pick = s.pick :=
  (forUpTo_kept (.refl 67109000 s) (fun _ _ h => pairSend_kept h (.refl _)) (.of (.refl _) rfl)).pick_eq rfl

theorem exec_commitPoint_stopped (h : picksRun s = false) (i : CommitIn) : exec (.commitPoint i) s = .next s := by
  simp [exec, execCommitPoint, h]

/-- A commit point ends the pick in some state `u` and runs steps 2 to 11 on it. -/
theorem exec_commitPoint_steps (h : picksRun s = true) (i : CommitIn) :
    ∃ old u, u.pick.commits = s.pick.commits ∧ u.pick.point = comingCount s i.lineCount ∧
      exec (.commitPoint i) s = .next (pauseScan (stepRest (comingCount s i.lineCount) (stepCommands (stepStaged old u)))) := by
  refine ⟨_, _, ?commits, ?point, by rw [exec, execCommitPoint, h]; rfl⟩
  case commits => simp [endPick_commits]
  case point => rfl

/-! ## Step 2: the staged copies come into force (R22) -/

/-- One register of step 2: it comes into force unless it follows a rule of its own. -/
def stagedOne (s : State) (a : Nat) : State := if ownRule a || rdS s a == rd s a then s else force s a (rdS s a)

theorem stagedAll_eq (s : State) : stagedAll s = (s.stg.map (·.1) ++ s.cur.map (·.1)).foldl stagedOne s := rfl

theorem stagedOne_stg (s : State) (a : Nat) : (stagedOne s a).stg = s.stg := by
  unfold stagedOne
  split <;> rfl

theorem rdS_stagedOne (s : State) (a b : Nat) : rdS (stagedOne s a) b = rdS s b := by
  rw [rdS, stagedOne_stg, rdS]

theorem stagedOne_inv (h : s.inv) (a : Nat) : (stagedOne s a).inv :=
  (kept_ite (Kept.refl 8 s) (force_kept (Kept.refl 8 s) (Sub.refl 8))).inv h

theorem rdS_lt (s : State) (a : Nat) : rdS s a < 2 ^ 32 := BitVec.isLt _

theorem rd_force_same (h : s.inv) (a v : Nat) : rd (force s a v) a = v % 2 ^ 32 := by
  simp [rd, force, sget_sput_same (inv_cur h)]

theorem rd_force_other (h : s.inv) {a b : Nat} (hab : a ≠ b) (v : Nat) : rd (force s a v) b = rd s b := by
  simp [rd, force, sget_sput_other _ _ (inv_cur h) hab]

theorem rd_stagedOne_same (h : s.inv) (a : Nat) : rd (stagedOne s a) a = if ownRule a then rd s a else rdS s a := by
  by_cases hown : ownRule a = true
  · simp [stagedOne, hown]
  by_cases heq : rdS s a = rd s a
  · simp [stagedOne, heq]
  · have hne : ¬(ownRule a || rdS s a == rd s a) = true := by simp [hown, heq]
    rw [stagedOne, if_neg hne, if_neg hown, rd_force_same h, Nat.mod_eq_of_lt (rdS_lt s a)]

theorem rd_stagedOne_other (h : s.inv) {a b : Nat} (hab : a ≠ b) : rd (stagedOne s a) b = rd s b := by
  unfold stagedOne
  split
  case isTrue => rfl
  case isFalse => exact rd_force_other h hab _

theorem rdS_foldl_stagedOne (l : List Nat) (s : State) (b : Nat) : rdS (l.foldl stagedOne s) b = rdS s b := by
  induction l generalizing s with
  | nil => rfl
  | cons a l ih => rw [List.foldl_cons, ih, rdS_stagedOne]

/-- A register among those gone through comes into force, unless it follows a rule of its own; another one stays. -/
theorem rd_foldl_stagedOne (h : s.inv) (l : List Nat) (b : Nat) :
    rd (l.foldl stagedOne s) b = if b ∈ l ∧ ownRule b = false then rdS s b else rd s b := by
  induction l generalizing s with
  | nil => simp
  | cons a l ih =>
    rw [List.foldl_cons, ih (stagedOne_inv h a), rdS_stagedOne]
    by_cases hab : a = b
    · subst hab
      cases hown : ownRule a <;> simp [rd_stagedOne_same h, hown]
    · simp [rd_stagedOne_other h hab, Ne.symm hab]

theorem sget_not_listed {α : Type} (d : α) {m : Sparse α} {i : Nat} (h : i ∉ m.map (·.1)) : sget d m i = d := by
  induction m with
  | nil => rfl
  | cons e t ih =>
    simp only [List.map_cons, List.mem_cons, not_or] at h
    simp [sget, Ne.symm h.1, ih h.2]

/-- A register that neither copy lists reads its reset value, staged and in force. -/
theorem rd_eq_rdS_of_not_listed {b : Nat} (h : b ∉ s.stg.map (·.1) ++ s.cur.map (·.1)) : rd s b = rdS s b := by
  simp only [List.mem_append, not_or] at h
  rw [rd, rdS, sget_not_listed _ h.1, sget_not_listed _ h.2]

theorem rd_stagedAll (h : s.inv) (a : Nat) : rd (stagedAll s) a = if ownRule a then rd s a else rdS s a := by
  rw [stagedAll_eq, rd_foldl_stagedOne h]
  by_cases hlisted : a ∈ s.stg.map (·.1) ++ s.cur.map (·.1)
  · cases hown : ownRule a <;> simp [hlisted]
  · simp [hlisted, rd_eq_rdS_of_not_listed hlisted]

end

/-- Settles O23: of the steps only step 11 writes the count, and what it and step 3 write stays until the pick begins. -/
theorem commitPointAdvancesPick : Obligations.CommitPointAdvancesPick := by
  refine ⟨fun s i hrun => ?_, fun s i hstop => exec_commitPoint_stopped hstop i⟩
  obtain ⟨old, u, hcommits, hpoint, hexec⟩ := exec_commitPoint_steps hrun i
  obtain ⟨k, hk, hmarks⟩ := stepCommands_marks (stepStaged old u)
  obtain ⟨hrest, hcount, hpending, hheader⟩ := stepRest_pick (comingCount s i.lineCount) (stepCommands (stepStaged old u))
  simp only [pickMarks, Prod.mk.injEq, stepStaged_pick] at hmarks hrest
  obtain ⟨hpoint', hcommits', happlied'⟩ := hmarks
  obtain ⟨hpoint'', hcommits'', happlied''⟩ := hrest
  refine ⟨_, hexec, ?_⟩
  rw [pauseScan_pick]
  refine ⟨hcount, ?_, ?_, hpending, hheader, ?_⟩
  · rw [hpoint'', hpoint', hpoint]
  · rw [hcommits'', hcommits', hcommits]
  · rw [happlied'', happlied']
    exact hk

/-- Settles O24: a register listed in either copy is gone through, another one reads its reset value in both. -/
theorem stagedValuesComeIntoForce : Obligations.StagedValuesComeIntoForce :=
  fun s a h => ⟨rd_stagedAll h a, rdS_foldl_stagedOne _ s a⟩

end Sys2Proof.Machine
end

