-- ==== Sys2Proof/Proofs/Selection.lean ====
section
/-! SUPPORT. Proofs/Selection.lean: the choice of R224 goes through levels and bands from the highest down, and takes the first
that holds a queue that may be served. -/

namespace Sys2Proof.Machine

open Sys2Proof

section

variable {s : State} {pol : SelPolicy} {d q : Nat} {band : Bool}

/-! ## The earliest finish tag (R225) -/

theorem wfqBest_mem {l : List Nat} (h : wfqBest s l = some q) : q ∈ l := by
  induction l generalizing q with
  | nil => cases h
  | cons p t ih =>
    rw [wfqBest] at h
    split at h
    case h_1 =>
      cases h
      exact List.mem_cons_self
    case h_2 r hr =>
      split at h
      case isTrue =>
        cases h
        exact List.mem_cons_of_mem _ (ih hr)
      case isFalse =>
        cases h
        exact List.mem_cons_self

theorem wfqBest_none {l : List Nat} : wfqBest s l = none ↔ l = [] := by
  cases l with
  | nil => simp [wfqBest]
  | cons p t =>
    rw [wfqBest]
    split
    · simp
    · split <;> simp

/-! ## Levels and bands from the highest down (R224) -/

/-- The levels, the highest first, each with its committed band before its excess band. -/
def bandOrder : List (Nat × Bool) := (List.range 8).reverse.flatMap (fun lvl => [(lvl, true), (lvl, false)])

/-- `x` stands before `y` in the order of R224. -/
def bandBefore (x y : Nat × Bool) : Prop := y.1 < x.1 ∨ (y.1 = x.1 ∧ x.2 = true ∧ y.2 = false)

theorem bandOrder_sorted : bandOrder.Pairwise bandBefore := by
  unfold bandOrder bandBefore
  decide

theorem mem_bandOrder {lvl : Nat} (h : lvl < 8) (band : Bool) : (lvl, band) ∈ bandOrder := by
  cases band <;> simp [bandOrder, h]

/-- In a list sorted by `R` the first answer comes before every other. -/
theorem findSome?_first {α β : Type} {R : α → α → Prop} {f : α → Option β} {l : List α} {b : β} (hl : l.Pairwise R)
    (h : l.findSome? f = some b) : ∃ a ∈ l, f a = some b ∧ ∀ x ∈ l, f x ≠ none → x = a ∨ R a x := by
  obtain ⟨before, a, after, rfl, ha, hnone⟩ := List.findSome?_eq_some_iff.1 h
  refine ⟨a, by simp, ha, fun x hx hfx => ?_⟩
  simp only [List.mem_append, List.mem_cons] at hx
  rcases hx with hx | rfl | hx
  · exact absurd (hnone x hx) hfx
  · exact .inl rfl
  · exact .inr (List.rel_of_pairwise_cons (List.pairwise_append.1 hl).2.1 hx)

/-- The queues of destination `d` that may be served in a level and band. -/
def servable (pol : SelPolicy) (s : State) (d : Nat) (x : Nat × Bool) : List Nat :=
  ((destQueues s d).filter (mayServe pol s)).filter (fun q => qLevel s q == x.1 && bandOf s q == some x.2)

theorem mem_servable {x : Nat × Bool} :
    q ∈ servable pol s d x ↔ (q ∈ destQueues s d ∧ mayServe pol s q = true) ∧ qLevel s q = x.1 ∧ bandOf s q = some x.2 := by
  simp only [servable, List.mem_filter, Bool.and_eq_true, beq_iff_eq]

theorem wfqChoose_eq (pol : SelPolicy) (s : State) (d : Nat) :
    wfqChoose pol s d = bandOrder.findSome? (fun x => (wfqBest s (servable pol s d x)).map (·, x.2)) := rfl

theorem qLevel_lt (s : State) (q : Nat) : qLevel s q < 8 := Nat.mod_lt _ (by decide)

/-- A queue that may be served has a band, since it takes part (R219, R223). -/
theorem mayServe_band (h : mayServe pol s q = true) : ∃ band, bandOf s q = some band := by
  simp only [mayServe, takesPart, Bool.and_eq_true] at h
  obtain ⟨⟨htakes, -⟩, -⟩ := h
  split at htakes
  case h_1 => cases htakes
  case h_2 =>
    simp only [Bool.and_eq_true] at htakes
    exact Option.isSome_iff_exists.1 htakes.1.1

theorem mayServe_enabled (h : mayServe pol s q = true) : qEn s q = true := by
  simp only [mayServe, Bool.and_eq_true] at h
  exact h.1.2

/-- Where a queue may be served, its own level and band hold one. -/
theorem servable_answers (hq : q ∈ destQueues s d) (hserve : mayServe pol s q = true) (hband : bandOf s q = some band) :
    (wfqBest s (servable pol s d (qLevel s q, band))).map (·, band) ≠ none := by
  rw [Ne, Option.map_eq_none_iff, wfqBest_none]
  exact List.ne_nil_of_mem (mem_servable.2 ⟨⟨hq, hserve⟩, rfl, hband⟩)

theorem wfqChoose_some (h : wfqChoose pol s d = some (q, band)) :
    q ∈ servable pol s d (qLevel s q, band) ∧ ∀ q' ∈ destQueues s d, mayServe pol s q' = true → ∀ band', bandOf s q' = some band' →
      (qLevel s q', band') = (qLevel s q, band) ∨ bandBefore (qLevel s q, band) (qLevel s q', band') := by
  rw [wfqChoose_eq] at h
  obtain ⟨⟨lvl, band⟩, -, hbest, hfirst⟩ := findSome?_first bandOrder_sorted h
  obtain ⟨q, hq, ⟨rfl, rfl⟩⟩ := Option.map_eq_some_iff.1 hbest
  have hmem := wfqBest_mem hq
  obtain ⟨-, rfl, -⟩ := mem_servable.1 hmem
  exact ⟨hmem, fun q' hq' hserve band' hband => hfirst _ (mem_bandOrder (qLevel_lt s q') band') (servable_answers hq' hserve hband)⟩

theorem wfqChoose_none (h : wfqChoose pol s d = none) (hq : q ∈ destQueues s d) : mayServe pol s q = false := by
  rw [wfqChoose_eq, List.findSome?_eq_none_iff] at h
  refine Bool.eq_false_iff.2 fun hserve => ?_
  obtain ⟨band, hband⟩ := mayServe_band hserve
  exact servable_answers hq hserve hband (h _ (mem_bandOrder (qLevel_lt s q) band))

end

/-- Settles O32: the first level and band with a queue that may be served comes before those of every other such queue. -/
theorem selectionFollowsLevelsAndBands : Obligations.SelectionFollowsLevelsAndBands := by
  intro pol s d
  refine ⟨fun q band hchoose => ?_, fun hchoose q hq => wfqChoose_none hchoose hq⟩
  obtain ⟨hmem, hfirst⟩ := wfqChoose_some hchoose
  obtain ⟨⟨hq, hserve⟩, -, hband⟩ := mem_servable.1 hmem
  refine ⟨hq, hserve, mayServe_enabled hserve, hband, fun q' hq' hserve' => ?_⟩
  obtain ⟨band', hband'⟩ := mayServe_band hserve'
  obtain heq | hlower | ⟨hlevel, hcommitted, -⟩ := hfirst q' hq' hserve' band' hband'
  · obtain ⟨hlevel, hsame⟩ := Prod.mk.inj heq
    exact .inr ⟨hlevel, fun htrue => by rw [← hsame]; exact Option.some.inj (hband'.symm.trans htrue)⟩
  · exact .inl hlower
  · exact .inr ⟨hlevel, fun _ => hcommitted⟩

end Sys2Proof.Machine
end

