-- ==== Sys2Proof/Proofs/RingRules.lean ====
section
/-! SUPPORT. Proofs/RingRules.lean: what rings read after a ring has been written, an entry posted or its CQ signalled (R340, R352,
R355, R357, R366). -/

namespace Sys2Proof.Machine

open Sys2Proof

section

variable {s : State} {r c : Nat} {x : Ring}

/-! ## The output and the free values outside their parts -/

theorem Kept.out_eq {n : Nat} {z : State} (h : Kept n z s) (hn : n.testBit 7 = false) : s.out = z.out := by
  obtain ⟨-, -, -, -, ⟨-, -, -, -, -, -, -, hout⟩, -⟩ := h
  exact hout.resolve_left (by simp [hn])

theorem Kept.draws_eq {n : Nat} {z : State} (h : Kept n z s) (hn : n.testBit 6 = false) : s.draws = z.draws := by
  obtain ⟨-, -, -, -, ⟨-, -, -, -, -, -, hdraws, -⟩, -⟩ := h
  exact hdraws.resolve_left (by simp [hn])

/-! ## Rings written -/

theorem ne_empty_of_kind (h : x.kind ≠ .off) : x ≠ {} := by
  rintro rfl
  exact h rfl

theorem ringAt_setRing_same (h : x.kind ≠ .off) : ringAt (setRing s r x) r = x := by
  simp [ringAt, setRing, sput, ne_empty_of_kind h, sget_sins_same]

theorem ringAt_setRing_other (h : x.kind ≠ .off) (hne : r ≠ c) : ringAt (setRing s r x) c = ringAt s c := by
  simp [ringAt, setRing, sput, ne_empty_of_kind h, sget_sins_other _ _ _ _ _ hne]

theorem ringAt_of_host {t : State} (h : t.host = s.host) (r : Nat) : ringAt t r = ringAt s r := by
  rw [ringAt, h, ringAt]

@[simp] theorem ringAt_emit (s : State) (o : Output) (r : Nat) : ringAt (emit s o) r = ringAt s r := rfl
@[simp] theorem ringAt_count (s : State) (g n r : Nat) : ringAt (count s g n) r = ringAt s r :=
  ringAt_of_host (count_host s g n) r

@[simp] theorem countEntry_host (s : State) (e : Completion) : (countEntry s e).host = s.host :=
  (countEntry_kept (.refl _ s) (.refl _)).host_eq rfl

@[simp] theorem countEntry_out (s : State) (e : Completion) : (countEntry s e).out = s.out :=
  (countEntry_kept (.refl _ s) (.refl _)).out_eq rfl

/-! ## Free entries of a CQ (R355) -/

theorem isCqRun_of_free (h : 0 < cqFree s c) : isCqRun s c = true := by
  unfold cqFree at h
  split at h
  case isTrue hrun =>
    simp only [Bool.and_eq_true] at hrun
    exact hrun.2
  case isFalse => exact absurd h (Nat.lt_irrefl 0)

theorem isCqRun_kind (h : isCqRun s c = true) : (ringAt s c).kind ≠ .off := by
  simp only [isCqRun, Bool.and_eq_true, beq_iff_eq] at h
  rw [h.1]
  decide

theorem cqFree_setRing_other (h : x.kind ≠ .off) (hne : r ≠ c) : cqFree (setRing s r x) c = cqFree s c := by
  rw [cqFree, isCqRun, ringAt_setRing_other h hne]
  rfl

/-! ## Signalling a CQ (R357) -/

theorem sendMsix_rings (s : State) (v : Nat) : (sendMsix s v).host.rings = s.host.rings := by
  unfold sendMsix
  split_ifs <;> simp

theorem ringAt_sendMsix (s : State) (v r : Nat) : ringAt (sendMsix s v) r = ringAt s r := by
  rw [ringAt, sendMsix_rings, ringAt]

theorem ringAt_signalCq_other (h : (ringAt s c).kind ≠ .off) (hne : c ≠ r) : ringAt (signalCq s c) r = ringAt s r := by
  rw [signalCq]
  split
  case isTrue => rw [ringAt_sendMsix, ringAt_setRing_other (by exact h) hne]
  case isFalse => rfl

/-- A CQ that is signalled disarms and begins to count anew; nothing else of it changes. -/
theorem ringAt_signalCq_same (h : (ringAt s c).kind ≠ .off) :
    ∃ armed n, ringAt (signalCq s c) c = { ringAt s c with armed := armed, unsignalled := n } := by
  rw [signalCq]
  split
  case isTrue => exact ⟨false, 0, by rw [ringAt_sendMsix, ringAt_setRing_same (by exact h)]⟩
  case isFalse => exact ⟨_, _, rfl⟩

theorem signalCq_out (s : State) (c : Nat) : s.out <+: (signalCq s c).out := (signalCq_kept (.refl _ s) (.refl _)).out

/-! ## An entry written (R340, R352, R356) -/

/-- The CQ as an entry leaves it before it is signalled. -/
def cqAdvanced (x : Ring) : Ring :=
  { x with
    done := idxNext x.done
    lost := false
    unsignalled := x.unsignalled + 1
    parity := if idxNext x.done % 2 ^ x.log2 = 0 then !x.parity else x.parity }

/-- The output of an entry that is written into CQ `c`, now `x` (R352). -/
def entryOut (c : Nat) (x : Ring) (e : Completion) : Output :=
  .completion c x.done (x.base + 32 * (x.done % 2 ^ x.log2)) (!x.parity) x.lost e

theorem cqWrite_eq (s : State) (c : Nat) (e : Completion) :
    cqWrite s c e = signalCq (setRing (emit s (entryOut c (ringAt s c) e)) c (cqAdvanced (ringAt s c))) c := rfl

theorem cqWrite_out (s : State) (c : Nat) (e : Completion) :
    (s.out ++ [entryOut c (ringAt s c) e]) <+: (cqWrite s c e).out :=
  signalCq_out (setRing (emit s (entryOut c (ringAt s c) e)) c (cqAdvanced (ringAt s c))) c

theorem ringAt_cqWrite_other (h : (ringAt s c).kind ≠ .off) (hne : c ≠ r) (e : Completion) :
    ringAt (cqWrite s c e) r = ringAt s r := by
  have hkind : (cqAdvanced (ringAt s c)).kind ≠ .off := h
  rw [cqWrite_eq, ringAt_signalCq_other (by rwa [ringAt_setRing_same hkind]) hne, ringAt_setRing_other hkind hne, ringAt_emit]

theorem ringAt_cqWrite_same (h : (ringAt s c).kind ≠ .off) (e : Completion) :
    ∃ armed n, ringAt (cqWrite s c e) c = { cqAdvanced (ringAt s c) with armed := armed, unsignalled := n } := by
  have hkind : (cqAdvanced (ringAt s c)).kind ≠ .off := h
  have hset : ringAt (setRing (emit s (entryOut c (ringAt s c) e)) c (cqAdvanced (ringAt s c))) c = cqAdvanced (ringAt s c) :=
    ringAt_setRing_same hkind
  obtain ⟨armed, n, hsig⟩ := ringAt_signalCq_same (s := setRing _ c _) (hset ▸ hkind)
  exact ⟨armed, n, by rw [cqWrite_eq, hsig, hset]⟩

/-! ## Posting on a ring (R366) -/

theorem drainRing_none {n : Nat} (h : (ringAt s r).waits.find? (waitReady (ringAt s r)) = none) : drainRing n s r = s := by
  cases n with
  | zero => rfl
  | succ n => simp [drainRing, h]

/-- The ring whose completion `w` is posted. -/
def waitPosted (x : Ring) (w : RingWait) : Ring :=
  { x with waits := x.waits.erase w, fullCounted := false, done := if w.stamp then x.done else idxNext w.last }

theorem drainRing_posts {n : Nat} {w : RingWait} (h : (ringAt s r).waits.find? (waitReady (ringAt s r)) = some w)
    (hfree : 0 < cqFree s (ringAt s r).cq) :
    drainRing (n + 1) s r =
      drainRing n (countEntry (cqWrite (setRing s r (waitPosted (ringAt s r) w)) (ringAt s r).cq w.entry) w.entry) r := by
  simp [drainRing, h, hfree, waitPosted]

/-- While the CQ has no free entry the completion waits; the wait is counted once. -/
theorem drainRing_waits {n : Nat} {w : RingWait} (h : (ringAt s r).waits.find? (waitReady (ringAt s r)) = some w)
    (hfull : cqFree s (ringAt s r).cq = 0) (hkind : (ringAt s r).kind ≠ .off) :
    (drainRing (n + 1) s r).out = s.out ∧
      ∃ counted, ringAt (drainRing (n + 1) s r) r = { ringAt s r with fullCounted := counted } := by
  simp only [drainRing, h, hfull, Nat.lt_irrefl, if_false]
  split
  case isTrue => exact ⟨by simp, true, ringAt_setRing_same hkind⟩
  case isFalse => exact ⟨rfl, _, rfl⟩

/-- The ring to which its only waiting completion has been handed. -/
def ringWith (x : Ring) (w : RingWait) : Ring := { x with waits := [w] }

theorem post_eq {w : RingWait} (hkind : (ringAt s r).kind ≠ .off) (hwaits : (ringAt s r).waits = []) :
    post s r w = drainRing 1 (setRing s r (ringWith (ringAt s r) w)) r := by
  simp [post, hkind, hwaits, ringWith]

end

/-- Settles O44: the ring holds the one completion handed to it; it waits for its turn, then for its CQ, or is posted. -/
theorem completionsPostInOrder : Obligations.CompletionsPostInOrder := by
  intro s r w hkind hwaits hstamp hne
  rw [post_eq hkind hwaits]
  have hwith : (ringWith (ringAt s r) w).kind ≠ .off := hkind
  have hring : ringAt (setRing s r (ringWith (ringAt s r) w)) r = ringWith (ringAt s r) w := ringAt_setRing_same hwith
  have hturn : (ringAt (setRing s r (ringWith (ringAt s r) w)) r).waits.find?
      (waitReady (ringAt (setRing s r (ringWith (ringAt s r) w)) r)) = if w.first = (ringAt s r).done then some w else none := by
    rw [hring]
    by_cases hfirst : w.first = (ringAt s r).done <;> simp [ringWith, waitReady, hstamp, hfirst]
  have hcq : (ringAt (setRing s r (ringWith (ringAt s r) w)) r).cq = (ringAt s r).cq := by rw [hring]; rfl
  have hfree : cqFree (setRing s r (ringWith (ringAt s r) w)) (ringAt s r).cq = cqFree s (ringAt s r).cq :=
    cqFree_setRing_other hwith hne
  refine ⟨fun hlater => ?later, fun hfirst hfull => ?full, fun hfirst hroom => ?posted⟩
  case later =>
    rw [if_neg hlater] at hturn
    rw [drainRing_none hturn]
    exact ⟨rfl, hring⟩
  case full =>
    rw [if_pos hfirst] at hturn
    obtain ⟨hout, counted, hafter⟩ := drainRing_waits hturn (by rw [hcq, hfree, hfull]) (by rw [hring]; exact hwith) (n := 0)
    rw [hout, hafter, hring]
    exact ⟨rfl, rfl, rfl⟩
  case posted =>
    rw [if_pos hfirst] at hturn
    rw [drainRing_posts hturn (by rw [hcq, hfree]; exact hroom), drainRing, hring, show (ringWith (ringAt s r) w).cq = (ringAt s r).cq from rfl]
    have hposted : (waitPosted (ringWith (ringAt s r) w) w).kind ≠ .off := hkind
    have hcqKind : (ringAt s (ringAt s r).cq).kind ≠ .off := isCqRun_kind (isCqRun_of_free hroom)
    generalize hv : setRing (setRing s r (ringWith (ringAt s r) w)) r (waitPosted (ringWith (ringAt s r) w) w) = v
    have hvout : v.out = s.out := by rw [← hv]; rfl
    have hvcq : ringAt v (ringAt s r).cq = ringAt s (ringAt s r).cq := by
      rw [← hv, ringAt_setRing_other hposted hne, ringAt_setRing_other hwith hne]
    have hvring : ringAt v r = waitPosted (ringWith (ringAt s r) w) w := by rw [← hv, ringAt_setRing_same hposted]
    have hvkind : (ringAt v (ringAt s r).cq).kind ≠ .off := by rw [hvcq]; exact hcqKind
    obtain ⟨armed, n, hafter⟩ := ringAt_cqWrite_same hvkind w.entry
    have hout := cqWrite_out v (ringAt s r).cq w.entry
    rw [ringAt_of_host (countEntry_host _ _), ringAt_of_host (countEntry_host _ _), countEntry_out,
      ringAt_cqWrite_other hvkind hne.symm, hafter, hvring, hvcq]
    rw [hvout, hvcq] at hout
    exact ⟨hout, by simp [waitPosted, hstamp], by simp [waitPosted, ringWith], rfl, rfl⟩

end Sys2Proof.Machine
end

