-- ==== Sys2Proof/Proofs/SkeinExecution.lean ====
section
/-! SUPPORT. Proofs/SkeinExecution.lean: what an instruction row comes to on a core that is about to run the instruction: a fault, a
stall, or the core that goes on (R387, R395, R396). -/

namespace Sys2Proof.Machine

open Sys2Proof

section

variable {s t : State} {c cause : Nat} {k : SkCore} {i : SkInstr} {f : SkFlow} {sel : SkInstr → Bool}

/-! ## A core that is about to run an instruction -/

theorem skRuns_iff : s.skRuns c i = true ↔ skReady s c = true ∧ skFetch s c = some i ∧ misplaced (coreAt s c) i = false := by
  simp [State.skRuns, and_assoc]

theorem skReady_st (h : skReady s c = true) : (coreAt s c).st = .run := by
  simp only [skReady, Bool.and_eq_true, beq_iff_eq] at h
  exact h.1.2

theorem skReady_lt (h : skReady s c = true) : c < 4 := by
  simp only [skReady, Bool.and_eq_true, decide_eq_true_eq] at h
  exact h.1.1.1

theorem skRow_fetched (hready : skReady s c = true) (hfetch : skFetch s c = some i) (hsel : sel i = true) :
    skRow sel c s = skExecute s c i := by
  simp [skRow, hready, hfetch, hsel]

theorem skRow_misplaced (hready : skReady s c = true) (hfetch : skFetch s c = some i) (hsel : sel i = true)
    (hplace : misplaced (coreAt s c) i = true) : skRow sel c s = faultCore s c causeSlot := by
  simp [skRow_fetched hready hfetch hsel, skExecute, hplace]

theorem skRow_fault (h : s.skRuns c i = true) (hsel : sel i = true) (hop : skOp s c (coreAt s c) i = .fault cause) :
    skRow sel c s = faultCore s c cause := by
  obtain ⟨hready, hfetch, hplace⟩ := skRuns_iff.1 h
  simp [skRow_fetched hready hfetch hsel, skExecute, hplace, hop]

theorem skRow_stall (h : s.skRuns c i = true) (hsel : sel i = true) (hop : skOp s c (coreAt s c) i = .stall) :
    skRow sel c s = s := by
  obtain ⟨hready, hfetch, hplace⟩ := skRuns_iff.1 h
  simp [skRow_fetched hready hfetch hsel, skExecute, hplace, hop]

/-- The state that an instruction leaves whose core goes on as `x`. -/
def skLeft (t : State) (c : Nat) (x : SkCore) : State :=
  haltIfAsked (if x.st = .halted then coreReturn (setCore t c x) c else setCore t c x) c

theorem skRow_ok (h : s.skRuns c i = true) (hsel : sel i = true) (hop : skOp s c (coreAt s c) i = .ok k f t) :
    skRow sel c s = skLeft t c (skAdvance c k f) := by
  obtain ⟨hready, hfetch, hplace⟩ := skRuns_iff.1 h
  simp [skRow_fetched hready hfetch hsel, skExecute, hplace, hop, skLeft]

/-! ## The next instruction follows (R396, R397) -/

@[simp] theorem loopNext_st (n : Nat) (k : SkCore) (last : Nat) : (loopNext n k last).st = k.st := by
  induction n generalizing k with
  | zero => rfl
  | succ n ih =>
    unfold loopNext
    split_ifs
    case pos => rfl
    case neg =>
      split
      · rw [ih]
      · rfl
    case neg => rfl

@[simp] theorem skAdvance_next_st (c : Nat) (k : SkCore) : (skAdvance c k .next).st = k.st := by
  unfold skAdvance
  dsimp only
  split_ifs
  · simp
  · split <;> simp
  · simp

/-- An instruction that leaves the core running and lets the next one follow. -/
theorem skRow_next (h : s.skRuns c i = true) (hsel : sel i = true) (hop : skOp s c (coreAt s c) i = .ok k .next t)
    (hst : k.st = (coreAt s c).st) : skRow sel c s = t.skDone c k := by
  have hrun : k.st = .run := hst.trans (skReady_st (skRuns_iff.1 h).1)
  simp [skRow_ok h hsel hop, skLeft, State.skDone, hrun]

end

/-! ## What an instruction leaves of the run state -/

section

variable (k : SkCore)

@[simp] theorem setD_st (n : Nat) (v : BitVec 16) : (setD k n v).st = k.st := rfl
@[simp] theorem setA_st (n : Nat) (v : BitVec 40) : (setA k n v).st = k.st := rfl
@[simp] theorem setX_st (n v : Nat) : (setX k n v).st = k.st := rfl
@[simp] theorem setM_st (n v : Nat) : (setM k n v).st = k.st := rfl
@[simp] theorem setSr_st (n : Nat) (v : Bool) : (setSr k n v).st = k.st := rfl

@[simp] theorem setData_st (n adr : Nat) (v : BitVec 16) : (setData k n adr v).st = k.st := by
  unfold setData
  split <;> rfl

@[simp] theorem accPut_st (a : Nat) (v : Int) : (accPut k a v).st = k.st := by
  unfold accPut
  dsimp only
  split <;> rfl

end

end Sys2Proof.Machine
end

