-- ==== Sys2Proof/Proofs/SkeinData.lean ====
section
/-! SUPPORT. Proofs/SkeinData.lean: the data and accumulator instructions of a core (R391, R392, R395). -/

namespace Sys2Proof.Machine

open Sys2Proof

section

variable {s : State} {k : SkCore} {a r n : Nat}

/-! ## Arithmetic of the model and of bit vectors -/

theorem sar_eq_sshiftRight {w : Nat} (x : BitVec w) (n : Nat) : sar x n = x.sshiftRight n := by
  rw [sar, BitVec.sshiftRight, Int.shiftRight_eq_div_pow]
  norm_cast

/-- LDA places the data register in bits 31 to 16, its sign above. -/
theorem ofInt_mul_65536 (x : BitVec 16) : BitVec.ofInt 40 (x.toInt * 65536) = x.signExtend 40 <<< 16 := by
  rw [BitVec.ofInt_mul, BitVec.shiftLeft_eq_mul_twoPow]
  rfl

theorem decide_sub_neg_eq_slt (x y : BitVec 16) : decide (x.toInt - y.toInt < 0) = x.slt y := by
  rw [BitVec.slt, decide_eq_decide]
  omega

theorem sub_beq_zero (x y : BitVec 16) : (x.toInt - y.toInt == 0) = (x == y) := by
  rw [Bool.eq_iff_iff, beq_iff_eq, beq_iff_eq, ← BitVec.toInt_inj]
  omega

/-! ## Accumulators (R391, R392) -/

theorem clip40_toInt (v : Int) : (clip40 v).1.toInt = max (-549755813888) (min 549755813887 v) := by
  unfold clip40
  split_ifs <;> simp only [BitVec.toInt_ofInt, Int.bmod] <;> omega

theorem clip40_clips (v : Int) : (clip40 v).2 = decide (v < -549755813888 ∨ 549755813887 < v) := by
  unfold clip40
  split_ifs <;> simp only [Bool.true_eq, Bool.false_eq, decide_eq_true_eq, decide_eq_false_iff_not] <;> omega

theorem aAt_setA (h : a < 2) (v : BitVec 40) : aAt (setA k a v) a = v := by
  simp [aAt, setA, h]

theorem accFree_in_range {v : Int} (hlo : -549755813888 ≤ v) (hhi : v ≤ 549755813887) (s : State) (k : SkCore) (a : Nat) :
    accFree s k a v = (setA k a (BitVec.ofInt 40 v), s) := if_pos ⟨hlo, hhi⟩

/-- Outside 40 bits the value and AOV are free (log entry 10). -/
theorem accFree_out_of_range {v : Int} (h : v < -549755813888 ∨ 549755813887 < v) (s : State) (k : SkCore) (a : Nat) :
    ∃ w aov, accFree s k a v = (setSr (setA k a w) 3 (srBit k 3 || aov), { s with draws := s.draws + 2 }) :=
  ⟨_, _, if_neg (by omega)⟩

theorem b2n_testBit_zero (b : Bool) : (b2n b).testBit 0 = b := by cases b <;> rfl

theorem srBit_setSr {b : Nat} (h : n < 16) (k : SkCore) (v : Bool) : srBit (setSr k n v) b = if b = n then v else srBit k b := by
  rw [srBit, setSr, BitVec.getLsbD_ofNat, insBits_testBit (Nat.le_refl n)]
  by_cases hb : b = n
  · subst hb
    rw [if_pos ⟨Nat.le_refl _, Nat.le_refl _⟩, Nat.sub_self, b2n_testBit_zero, if_pos rfl, decide_eq_true h, Bool.true_and]
  · rw [if_neg (by omega), if_neg hb, srBit, BitVec.getLsbD]
    by_cases hlt : b < 16
    · simp [hlt]
    · simp [hlt, BitVec.testBit_toNat, BitVec.getLsbD_of_ge _ _ (Nat.le_of_not_lt hlt)]

theorem aAt_accPut (h : a < 2) (k : SkCore) (v : Int) : aAt (accPut k a v) a = (clip40 v).1 := by
  refine Eq.trans ?_ (aAt_setA h (clip40 v).1 (k := k))
  unfold accPut
  dsimp only
  split <;> rfl

theorem srBit_accPut (k : SkCore) (a : Nat) (v : Int) : srBit (accPut k a v) 3 = (srBit k 3 || (clip40 v).2) := by
  unfold accPut
  dsimp only
  split
  case isTrue h => simp [srBit_setSr, h]
  case isFalse h => rw [Bool.eq_false_iff.2 h, Bool.or_false]; rfl

theorem toInt_le (x : BitVec 40) : x.toInt ≤ 549755813887 := by
  have h := BitVec.toInt_lt (x := x)
  omega

theorem le_toInt (x : BitVec 40) : -549755813888 ≤ x.toInt := by
  have h := BitVec.le_toInt x
  omega

/-! ## MOVR and MOVT (R392) -/

/-- MOVR rounds, MOVT does not. -/
def narrowed (v : Int) (round : Bool) : Int := (v + if round then 0x8000 else 0) / 65536

theorem narrow16_in_range {x : BitVec 40} {round : Bool} (hlo : -32768 ≤ narrowed x.toInt round) (hhi : narrowed x.toInt round ≤ 32767) :
    narrow16 x round = (BitVec.ofInt 16 (narrowed x.toInt round), false) :=
  (if_neg (by simp only [narrowed] at hhi; omega)).trans (if_neg (by simp only [narrowed] at hlo; omega))

theorem narrow16_above {x : BitVec 40} {round : Bool} (h : 32767 < narrowed x.toInt round) :
    narrow16 x round = (0x7FFF, true) := if_pos h

theorem narrow16_below {x : BitVec 40} {round : Bool} (h : narrowed x.toInt round < -32768) :
    narrow16 x round = (0x8000, true) :=
  (if_neg (by simp only [narrowed] at h; omega)).trans (if_pos h)

/-- MOVR or MOVT: the core with the rounded or truncated upper half in a data register, SAT set where that does not fit. -/
def movedCore (k : SkCore) (r : Nat) (t : BitVec 16 × Bool) : SkCore := if t.2 then setSr (setD k r t.1) 2 true else setD k r t.1


theorem movedCore_st (k : SkCore) (r : Nat) (t : BitVec 16 × Bool) : (movedCore k r t).st = k.st := by
  unfold movedCore
  split <;> rfl

theorem accFree_st (s : State) (k : SkCore) (a : Nat) (v : Int) : (accFree s k a v).1.st = k.st := by
  unfold accFree
  split <;> rfl

/-! ## MACX (R391, R395) -/

/-- The core as the parallel loads of a MACX leave it, `x` and `y` in its index registers. -/
def loadedCore (k t : SkCore) (r sr i j x y : Nat) : SkCore :=
  setX (setX (setD (setD t r (dataAt k i (xAt k i))) (8 + sr) (dataAt k (4 + j) (xAt k (4 + j)))) i x) (4 + j) y

/-- The value that MACX of kind `kk` stores, before it is clipped. -/
def macxValue (k : SkCore) (kk a p q : Nat) : Int :=
  match kk with
  | 0 => mulQ15 (dAt k p) (dAt k q)
  | 1 => (aAt k a).toInt + mulQ15 (dAt k p) (dAt k q)
  | _ => (aAt k a).toInt - mulQ15 (dAt k p) (dAt k q)

variable {sel : SkInstr → Bool} {c kk p q sr i mi j mj x y : Nat}

theorem macxValue_mpy (k : SkCore) (a p q : Nat) : macxValue k 0 a p q = 2 * (dAt k p).toInt * (dAt k q).toInt := rfl
theorem macxValue_mac (k : SkCore) (a p q : Nat) :
    macxValue k 1 a p q = (aAt k a).toInt + 2 * (dAt k p).toInt * (dAt k q).toInt := rfl
theorem macxValue_msu (k : SkCore) (a p q : Nat) :
    macxValue k 2 a p q = (aAt k a).toInt - 2 * (dAt k p).toInt * (dAt k q).toInt := rfl

theorem macx_plain {v : Int} (h : s.skRuns c (.macx kk a p q false r sr i mi j mj) = true)
    (hsel : sel (.macx kk a p q false r sr i mi j mj) = true) (hv : macxValue (coreAt s c) kk a p q = v) :
    skRow sel c s = s.skDone c (accPut (coreAt s c) a v) := by
  subst hv
  exact skRow_next h hsel rfl (accPut_st _ _ _)

theorem macx_loads {v : Int} (h : s.skRuns c (.macx kk a p q true r sr i mi j mj) = true)
    (hsel : sel (.macx kk a p q true r sr i mi j mj) = true) (hv : macxValue (coreAt s c) kk a p q = v)
    (hx : skModify (xAt (coreAt s c) i) (mAt (coreAt s c) i) mi = some x)
    (hy : skModify (xAt (coreAt s c) (4 + j)) (mAt (coreAt s c) (4 + j)) mj = some y) :
    skRow sel c s = s.skDone c (loadedCore (coreAt s c) (accPut (coreAt s c) a v) r sr i j x y) := by
  subst hv
  refine skRow_next h hsel ?_ (accPut_st _ _ _)
  simp only [skOp, opMacx, hx, hy]
  rfl

theorem macx_illegal (h : s.skRuns c (.macx kk a p q true r sr i mi j mj) = true) (hsel : sel (.macx kk a p q true r sr i mi j mj) = true)
    (hmode : skModify (xAt (coreAt s c) i) (mAt (coreAt s c) i) mi = none ∨
      skModify (xAt (coreAt s c) (4 + j)) (mAt (coreAt s c) (4 + j)) mj = none) : skRow sel c s = faultCore s c 1 := by
  refine skRow_fault h hsel ?_
  simp only [skOp, opMacx, Bool.not_true, Bool.false_eq_true, if_false]
  split
  case h_1 hx hy => simp [hx, hy] at hmode
  case h_2 => rfl

end

/-! ## AOP and CMP (R391, R392, R395) -/

section

variable {s : State} {c a r n d : Nat} {v : Int}

/-- The instruction stores `v` in an accumulator where it fits, and a free value where it does not. -/
theorem skRow_accFree {sel : SkInstr → Bool} {i : SkInstr} (h : s.skRuns c i = true) (hsel : sel i = true)
    (hop : skOp s c (coreAt s c) i = .ok (accFree s (coreAt s c) a v).1 .next (accFree s (coreAt s c) a v).2) :
    (-549755813888 ≤ v → v ≤ 549755813887 → skRow sel c s = s.skDone c (setA (coreAt s c) a (BitVec.ofInt 40 v))) ∧
    (v < -549755813888 ∨ 549755813887 < v → ∃ w aov, skRow sel c s =
      { s with draws := s.draws + 2 }.skDone c (setSr (setA (coreAt s c) a w) 3 (srBit (coreAt s c) 3 || aov))) := by
  have hrow := skRow_next h hsel hop (accFree_st _ _ _ _)
  refine ⟨fun hlo hhi => ?_, fun hout => ?_⟩
  · rw [hrow, accFree_in_range hlo hhi]
  · obtain ⟨w, aov, hfree⟩ := accFree_out_of_range hout s (coreAt s c) a
    exact ⟨w, aov, by rw [hrow, hfree]⟩

/-- MOVR and MOVT store the narrowed accumulator, or saturate and set SAT. -/
theorem skRow_moved {sel : SkInstr → Bool} {i : SkInstr} {round : Bool} (h : s.skRuns c i = true) (hsel : sel i = true)
    (hop : skOp s c (coreAt s c) i = .ok (movedCore (coreAt s c) r (narrow16 (aAt (coreAt s c) a) round)) .next s) :
    let x := narrowed (aAt (coreAt s c) a).toInt round
    (-32768 ≤ x → x ≤ 32767 → skRow sel c s = s.skDone c (setD (coreAt s c) r (BitVec.ofInt 16 x))) ∧
    (32767 < x → skRow sel c s = s.skDone c (setSr (setD (coreAt s c) r 0x7FFF) 2 true)) ∧
    (x < -32768 → skRow sel c s = s.skDone c (setSr (setD (coreAt s c) r 0x8000) 2 true)) := by
  have hrow := skRow_next h hsel hop (movedCore_st _ _ _)
  refine ⟨fun hlo hhi => ?_, fun habove => ?_, fun hbelow => ?_⟩
  · rw [hrow, narrow16_in_range hlo hhi]; rfl
  · rw [hrow, narrow16_above habove]; rfl
  · rw [hrow, narrow16_below hbelow]; rfl

/-- CMP sets Z and N; where the difference leaves 16 bits N is a free value (log entry 10). -/
theorem skRow_cmp {sel : SkInstr → Bool} (h : s.skRuns c (.dop 8 d r n) = true) (hsel : sel (.dop 8 d r n) = true) :
    let k := coreAt s c
    ∃ neg dr, skRow sel c s = { s with draws := dr }.skDone c (setSr (setSr k 0 (dAt k d == dAt k r)) 1 neg) ∧
      (-32768 ≤ (dAt k d).toInt - (dAt k r).toInt → (dAt k d).toInt - (dAt k r).toInt ≤ 32767 →
        neg = (dAt k d).slt (dAt k r) ∧ dr = s.draws) := by
  intro k
  by_cases hfits : -32768 ≤ (dAt k d).toInt - (dAt k r).toInt ∧ (dAt k d).toInt - (dAt k r).toInt ≤ 32767
  · refine ⟨_, s.draws, skRow_next h hsel ?_ rfl, fun _ _ => ⟨rfl, rfl⟩⟩
    rw [← decide_sub_neg_eq_slt, ← sub_beq_zero]
    exact if_pos hfits
  · refine ⟨(draw s).1 % 2 == 1, s.draws + 1, skRow_next h hsel ?_ rfl, fun hlo hhi => absurd ⟨hlo, hhi⟩ hfits⟩
    rw [← sub_beq_zero]
    exact if_neg hfits

end

/-- Settles O49: each row runs its instruction, whose result is the stated one. -/
theorem skeinComputes : Obligations.SkeinComputes := by
  refine ⟨fun s c d r n => ?data, fun s c a p q ld r sr i mi j mj => ?macx, fun s c a r n => ?acc, fun k a v ha => ?clip⟩
  case data =>
    refine ⟨fun h => congrArg Host.Outcome.next (skRow_next h rfl rfl rfl), fun h => congrArg Host.Outcome.next (skRow_next h rfl rfl rfl),
      fun h => congrArg Host.Outcome.next (skRow_next h rfl rfl rfl), fun h => congrArg Host.Outcome.next (skRow_next h rfl rfl rfl),
      fun h => congrArg Host.Outcome.next (skRow_next h rfl rfl rfl), fun h => congrArg Host.Outcome.next (skRow_next h rfl rfl rfl),
      fun h => congrArg Host.Outcome.next (skRow_next h rfl rfl rfl), fun h => congrArg Host.Outcome.next ?shr, fun h => ?cmp,
      fun h => congrArg Host.Outcome.next (skRow_next h rfl rfl rfl), fun h => congrArg Host.Outcome.next (skRow_next h rfl rfl rfl)⟩
    case shr =>
      rw [← sar_eq_sshiftRight]
      exact skRow_next h rfl rfl rfl
    case cmp =>
      obtain ⟨neg, dr, hrow, hneg⟩ := skRow_cmp (sel := isDop 8) h rfl
      exact ⟨neg, dr, congrArg Host.Outcome.next hrow, hneg⟩
  case macx =>
    refine ⟨?_, ?_, ?_⟩
    · rintro rfl
      exact ⟨fun h => congrArg Host.Outcome.next (macx_plain h rfl (macxValue_mpy _ a p q)),
        fun h => congrArg Host.Outcome.next (macx_plain h rfl (macxValue_mac _ a p q)),
        fun h => congrArg Host.Outcome.next (macx_plain h rfl (macxValue_msu _ a p q))⟩
    · rintro rfl x y hx hy
      exact ⟨fun h => congrArg Host.Outcome.next (macx_loads h rfl (macxValue_mpy _ a p q) hx hy),
        fun h => congrArg Host.Outcome.next (macx_loads h rfl (macxValue_mac _ a p q) hx hy),
        fun h => congrArg Host.Outcome.next (macx_loads h rfl (macxValue_msu _ a p q) hx hy)⟩
    · rintro rfl hmode
      exact ⟨fun h => congrArg Host.Outcome.next (macx_illegal h rfl hmode), fun h => congrArg Host.Outcome.next (macx_illegal h rfl hmode),
        fun h => congrArg Host.Outcome.next (macx_illegal h rfl hmode)⟩
  case acc =>
    have hlo := le_toInt (aAt (coreAt s c) a)
    have hhi := toInt_le (aAt (coreAt s c) a)
    refine ⟨fun h => congrArg Host.Outcome.next (skRow_next h rfl rfl rfl), fun h => congrArg Host.Outcome.next (skRow_next h rfl rfl (accPut_st _ _ _)),
      fun h => congrArg Host.Outcome.next ?shrAcc, fun h => congrArg Host.Outcome.next ?lda, fun h => congrArg Host.Outcome.next (skRow_next h rfl rfl rfl),
      fun h => ?movr, fun h => ?movt, fun h => ?neg, fun h => ?abs, fun h => ?adda, fun h => ?suba⟩
    case shrAcc =>
      rw [← sar_eq_sshiftRight]
      exact skRow_next h rfl rfl rfl
    case lda =>
      rw [← ofInt_mul_65536]
      exact skRow_next h rfl rfl rfl
    case movr =>
      obtain ⟨hin, habove, hbelow⟩ := skRow_moved (sel := isAop 7) (round := true) h rfl rfl
      exact ⟨fun h1 h2 => congrArg Host.Outcome.next (hin h1 h2), fun h1 => congrArg Host.Outcome.next (habove h1), fun h1 => congrArg Host.Outcome.next (hbelow h1)⟩
    case movt =>
      obtain ⟨hin, habove, hbelow⟩ := skRow_moved (sel := isAop 8) (round := false) h rfl rfl
      simp only [narrowed, Bool.false_eq_true, if_false, add_zero] at hin habove hbelow
      exact ⟨fun h1 h2 => congrArg Host.Outcome.next (hin h1 h2), fun h1 => congrArg Host.Outcome.next (habove h1), fun h1 => congrArg Host.Outcome.next (hbelow h1)⟩
    case neg =>
      obtain ⟨hin, hout⟩ := skRow_accFree (sel := isAop 1) h rfl rfl
      refine ⟨fun hfits => congrArg Host.Outcome.next (hin (by omega) (by omega)), fun hleaves => ?_⟩
      obtain ⟨w, aov, hrow⟩ := hout (by omega)
      exact ⟨w, aov, congrArg Host.Outcome.next hrow⟩
    case abs =>
      obtain ⟨hin, hout⟩ := skRow_accFree (sel := isAop 2) h rfl rfl
      refine ⟨fun hfits => congrArg Host.Outcome.next (hin (by split_ifs <;> omega) (by split_ifs <;> omega)), fun hleaves => ?_⟩
      obtain ⟨w, aov, hrow⟩ := hout (by split_ifs <;> omega)
      exact ⟨w, aov, congrArg Host.Outcome.next hrow⟩
    case adda =>
      obtain ⟨hin, hout⟩ := skRow_accFree (sel := isAop 3) h rfl rfl
      refine ⟨fun h1 h2 => congrArg Host.Outcome.next (hin h1 h2), fun hleaves => ?_⟩
      obtain ⟨w, aov, hrow⟩ := hout hleaves
      exact ⟨w, aov, congrArg Host.Outcome.next hrow⟩
    case suba =>
      obtain ⟨hin, hout⟩ := skRow_accFree (sel := isAop 4) h rfl rfl
      refine ⟨fun h1 h2 => congrArg Host.Outcome.next (hin h1 h2), fun hleaves => ?_⟩
      obtain ⟨w, aov, hrow⟩ := hout hleaves
      exact ⟨w, aov, congrArg Host.Outcome.next hrow⟩
  case clip =>
    exact ⟨by rw [aAt_accPut ha, clip40_toInt], by rw [srBit_accPut, clip40_clips]⟩

end Sys2Proof.Machine
end

