-- ==== Sys2Proof/Proofs/SkeinMoves.lean ====
section
/-! SUPPORT. Proofs/SkeinMoves.lean: the memory, index, special-register and tap-bus instructions of a core (R393, R394, R399 to
R402). -/

namespace Sys2Proof.Machine

open Sys2Proof

section

variable {s : State} {c a p q r n md i mi j mj adr v x : Nat} {sel : SkInstr → Bool}

/-! ## Signed readings -/

theorem signed_toNat (x : BitVec 16) : signed 16 x.toNat = x.toInt := by
  rw [signed_eq_toInt, BitVec.ofNat_toNat, BitVec.setWidth_eq]

/-! ## Loads, stores and index registers (R393) -/

theorem skRow_ld (h : s.skRuns c (.ld r n md) = true) (hsel : sel (.ld r n md) = true)
    (hx : skModify (xAt (coreAt s c) n) (mAt (coreAt s c) n) md = some x) :
    skRow sel c s = s.skDone c (setX (setD (coreAt s c) r (dataAt (coreAt s c) n (xAt (coreAt s c) n))) n x) :=
  skRow_next h hsel (by simp [skOp, hx]) rfl

theorem skRow_st (h : s.skRuns c (.st r n md) = true) (hsel : sel (.st r n md) = true)
    (hx : skModify (xAt (coreAt s c) n) (mAt (coreAt s c) n) md = some x) :
    skRow sel c s = s.skDone c (setX (setData (coreAt s c) n (xAt (coreAt s c) n) (dAt (coreAt s c) r)) n x) :=
  skRow_next h hsel (by simp [skOp, hx]) (by simp)

theorem skRow_addx (h : s.skRuns c (.addx n v) = true) (hsel : sel (.addx n v) = true)
    (hx : skUpdate (xAt (coreAt s c) n) (mAt (coreAt s c) n) (BitVec.ofNat 14 v).toInt = some x) :
    skRow sel c s = s.skDone c (setX (coreAt s c) n x) :=
  skRow_next h hsel (by simp [skOp, signed_eq_toInt 14 v, hx]) rfl

/-! ## FTAP (R394) -/

/-- The core that FTAP leaves: `up` the address beside the one read, `x` and `y` the modified index registers. -/
def ftapCore (k : SkCore) (acc : Int) (a p q i j up x y : Nat) : SkCore :=
  setX (setX (setD (setData (setD (accPut k a acc) p (dataAt k i (xAt k i))) i up (dataAt k i (xAt k i))) q
    (dataAt k (4 + j) (xAt k (4 + j)))) i x) (4 + j) y

theorem opFtap_ok {k : SkCore} {up y : Nat} (hmode : mAt k i < 0x8000) (hup : skUpdate (xAt k i) (mAt k i) 1 = some up)
    (hx : skModify (xAt k i) (mAt k i) mi = some x) (hy : skModify (xAt k (4 + j)) (mAt k (4 + j)) mj = some y) (sub : Bool) :
    opFtap s k sub a p q i mi j mj = .ok (ftapCore k (if sub then (aAt k a).toInt - mulQ15 (dAt k p) (dAt k q)
      else (aAt k a).toInt + mulQ15 (dAt k p) (dAt k q)) a p q i j up x y) .next s := by
  simp only [opFtap, if_neg (Nat.not_le.2 hmode), hup, hx, hy]
  rfl

theorem opFtap_illegal {k : SkCore} (hmode : 0x8000 ≤ mAt k i) (sub : Bool) : opFtap s k sub a p q i mi j mj = .fault causeIllegal :=
  if_pos hmode

theorem add_ite_neg (sub : Bool) (x y : Int) : (x + if sub then -y else y) = if sub then x - y else x + y := by
  cases sub <;> rfl

theorem ftapCore_st (k : SkCore) (acc : Int) (a p q i j up x y : Nat) : (ftapCore k acc a p q i j up x y).st = k.st := by
  simp [ftapCore]

/-! ## Special registers (R399, R407) -/

theorem specRead_beyond (h : 11 ≤ n) (s : State) (c : Nat) (k : SkCore) : specRead s c n k =
    if c ≠ 3 then none
    else if n = 11 then some (BitVec.ofNat 16 (draw s).1, (draw s).2)
    else if 16 ≤ n ∧ n ≤ 23 then some (BitVec.ofNat 16 (rd s (Reg.skeinMboxIn (n - 16))), s)
    else if 24 ≤ n ∧ n ≤ 31 then some (BitVec.ofNat 16 (rd s (Reg.skeinMboxOut (n - 24))), s)
    else none := by
  obtain ⟨m, rfl⟩ := Nat.exists_eq_add_of_le' h
  rfl

theorem specWrite_beyond (h : 8 ≤ n) (s : State) (c : Nat) (v : BitVec 16) (k : SkCore) : specWrite s c n v k =
    if c ≠ 3 then none
    else if n = 11 then some (k, hsig s)
    else if 24 ≤ n ∧ n ≤ 31 then some (k, setReg s (Reg.skeinMboxOut (n - 24)) v.toNat)
    else none := by
  obtain ⟨m, rfl⟩ := Nat.exists_eq_add_of_le' h
  rfl

theorem skRow_mvs {w : BitVec 16} {t : State} (h : s.skRuns c (.mvs r n) = true) (hsel : sel (.mvs r n) = true)
    (hread : specRead s c n (coreAt s c) = some (w, t)) : skRow sel c s = t.skDone c (setD (coreAt s c) r w) :=
  skRow_next h hsel (by simp [skOp, hread]) rfl

theorem skRow_mvs_illegal (h : s.skRuns c (.mvs r n) = true) (hsel : sel (.mvs r n) = true)
    (hread : specRead s c n (coreAt s c) = none) : skRow sel c s = faultCore s c 1 :=
  skRow_fault h hsel (by simp [skOp, hread])

theorem skRow_msv {k : SkCore} {t : State} (h : s.skRuns c (.msv r n) = true) (hsel : sel (.msv r n) = true)
    (hwrite : specWrite s c n (dAt (coreAt s c) r) (coreAt s c) = some (k, t)) (hst : k.st = (coreAt s c).st) :
    skRow sel c s = t.skDone c k :=
  skRow_next h hsel (by simp [skOp, hwrite]) hst

theorem skRow_msv_illegal (h : s.skRuns c (.msv r n) = true) (hsel : sel (.msv r n) = true)
    (hwrite : specWrite s c n (dAt (coreAt s c) r) (coreAt s c) = none) : skRow sel c s = faultCore s c 1 :=
  skRow_fault h hsel (by simp [skOp, hwrite])

/-! ## The tap bus (R400 to R402) -/

theorem tapSeen_other (h : adr ≠ 0xC2) (s : State) : tapSeen s adr = s := if_neg fun hseen => h hseen.1

theorem tapSeen_swap (h : domOn s 5 = true) :
    tapSeen s 0xC2 = { s with warp := { s.warp with swapDone := false, swapRej := false } } := if_pos ⟨rfl, h⟩

theorem tapSeen_dark (h : domOn s 5 = false) (adr : Nat) : tapSeen s adr = s := by
  simp [tapSeen, h]

theorem tapRead_dark (h : domOn s 5 = false) (adr : Nat) : tapRead s adr = 0 := by
  simp [tapRead, h]

theorem skRow_trd (h : s.skRuns c (.trd r adr) = true) (hsel : sel (.trd r adr) = true) (hc : c ≠ 3) :
    skRow sel c s = (tapSeen s adr).skDone c (setD (coreAt s c) r (tapRead s adr)) :=
  skRow_next h hsel (by simp [skOp, hc]) rfl

theorem tapWrite_dark (h : domOn s 5 = false) (adr v : Nat) : tapWrite s adr v = s := by
  simp [tapWrite, h]

/-- Of the tap-bus addresses core 0 writes the shadow set, CWIN, WIN and SWAP only. -/
theorem tapWrite_elsewhere (h : adr < 0x40 ∨ (0x61 < adr ∧ adr < 0xC0) ∨ 0xC2 < adr) (s : State) (v : Nat) : tapWrite s adr v = s := by
  have hshadow : ¬(0x40 ≤ adr ∧ adr ≤ 0x61) := by omega
  have hcwin : adr ≠ 0xC0 := by omega
  have hwin : adr ≠ 0xC1 := by omega
  have hswap : adr ≠ 0xC2 := by omega
  simp [tapWrite, hshadow, hcwin, hwin, hswap]

theorem tapWrite_even (hadr : adr = 0xC1 ∨ adr = 0xC2) (hv : v % 2 = 0) (s : State) : tapWrite s adr v = s := by
  rcases hadr with rfl | rfl <;> simp [tapWrite, hv]

theorem tapWrite_window (hdom : domOn s 5 = true) (hv : v % 2 = 1) : tapWrite s 0xC1 v = { s with warp := { s.warp with winRun := true } } := by
  simp [tapWrite, hdom, hv, setWarp]

theorem tapWrite_swap (hdom : domOn s 5 = true) (hv : v % 2 = 1) : tapWrite s 0xC2 v = { s with warp := { s.warp with swapPend := true } } := by
  simp [tapWrite, hdom, hv, setWarp]

theorem tapWrite_cwin (hdom : domOn s 5 = true) (hv : v ≠ 0) : tapWrite s 0xC0 v = { s with warp := { s.warp with cwin := v } } := by
  simp [tapWrite, hdom, hv, setWarp]

/-- A CWIN of 0 gives a free length (log entry 10). -/
theorem tapWrite_cwin_zero (hdom : domOn s 5 = true) :
    ∃ w, 1 ≤ w ∧ w ≤ 65535 ∧ tapWrite s 0xC0 0 = { s with warp := { s.warp with cwin := w }, draws := s.draws + 1 } := by
  refine ⟨1 + (draw s).1 % 65535, Nat.le_add_right 1 _, by omega, ?_⟩
  simp [tapWrite, hdom, setWarp, draw]

theorem raises_progErr (s : State) (source : Nat) : s.raises (progErr s source) source 0x001 := raises_raiseFree s source 0x001

theorem raises_setWarp {t : State} {y : Warp} {source code : Nat} : (setWarp s y).raises t source code ↔ s.raises t source code :=
  Iff.rfl

/-- The shadow set with one coefficient written. -/
def shadowPut (w : Warp) (n v : Nat) : List Nat :=
  (List.range 34).map (fun i => if i = n then v % 1024 else w.shadow.getD i 0)

theorem shadowPut_length (w : Warp) (n v : Nat) : (shadowPut w n v).length = 34 := by simp [shadowPut]

theorem shadowPut_getD (w : Warp) {i : Nat} (n v : Nat) (h : i < 34) :
    (shadowPut w n v).getD i 0 = if i = n then v % 1024 else w.shadow.getD i 0 := by
  simp [shadowPut, List.getD_eq_getElem?_getD, h]

theorem tapWrite_shadow (hdom : domOn s 5 = true) (hlo : 0x40 ≤ adr) (hhi : adr ≤ 0x61) (v : Nat) :
    let t := setWarp s { s.warp with shadow := shadowPut s.warp (adr - 0x40) v }
    tapWrite s adr v = if signed 16 v < -512 ∨ 511 < signed 16 v then progErr t 0x20 else t := by
  simp only [tapWrite, hdom, hlo, hhi, Bool.not_true, Bool.false_eq_true, if_false, and_self, if_true]
  rfl

theorem skRow_twr (h : s.skRuns c (.twr r adr) = true) (hsel : sel (.twr r adr) = true) (hc : c = 0)
    (hfree : adr < 0x40 ∨ 0x61 < adr ∨ s.warp.swapPend = false) :
    skRow sel c s = (tapWrite s adr (dAt (coreAt s c) r).toNat).skDone c (coreAt s c) := by
  have hgo : ¬(0x40 ≤ adr ∧ adr ≤ 0x61 ∧ s.warp.swapPend = true) := by
    rintro ⟨hlo, hhi, hpend⟩
    rcases hfree with h | h | h
    · omega
    · omega
    · simp [hpend] at h
  exact skRow_next h hsel (by simp [skOp, hc, hgo]) rfl

end

/-- Settles O50: each row runs its instruction, whose result is the stated one. -/
theorem skeinMovesData : Obligations.SkeinMovesData := by
  refine ⟨fun s c r n md => ⟨fun x hx => ?_, fun hmode => ?_⟩, fun s c n v => ?index,
    fun s c a p q i mi j mj sub h => ?ftap, fun s c r n => ⟨fun h => ?mvs, fun h => ?msv⟩,
    fun s c r adr => ⟨fun h => ?trd, fun h => ?twr⟩⟩
  · exact ⟨fun h => congrArg Host.Outcome.next (skRow_ld h rfl hx), fun h => congrArg Host.Outcome.next (skRow_st h rfl hx)⟩
  · exact ⟨fun h => congrArg Host.Outcome.next (skRow_fault h rfl (by simp [skOp, hmode])),
      fun h => congrArg Host.Outcome.next (skRow_fault h rfl (by simp [skOp, hmode]))⟩
  case index =>
    exact ⟨fun h => congrArg Host.Outcome.next (skRow_next h rfl rfl rfl), fun h => congrArg Host.Outcome.next (skRow_next h rfl rfl rfl),
      fun h => ⟨fun x hx => congrArg Host.Outcome.next (skRow_addx h rfl hx),
        fun hmode => congrArg Host.Outcome.next (skRow_fault h rfl (by simp [skOp, signed_eq_toInt 14 v, hmode]))⟩⟩
  case ftap =>
    refine ⟨fun hmode up x y hup hx hy => congrArg Host.Outcome.next ?_,
      fun hmode => congrArg Host.Outcome.next (skRow_fault h rfl (opFtap_illegal hmode sub))⟩
    rw [add_ite_neg]
    exact skRow_next h rfl (opFtap_ok hmode hup hx hy sub) (ftapCore_st ..)
  case mvs =>
    refine ⟨fun e he hn => ?_, fun hn hc => ?_, fun hc hn => ?_, fun hc hlo hhi => ?_, fun hc hlo hhi => ?_, fun hc hlo hhi => ?_⟩
    · subst hn
      simp only [List.mem_cons, List.not_mem_nil, or_false] at he
      rcases he with rfl | rfl | rfl | rfl | rfl | rfl | rfl | rfl | rfl | rfl | rfl <;>
        exact congrArg Host.Outcome.next (skRow_mvs h rfl rfl)
    · exact congrArg Host.Outcome.next (skRow_mvs_illegal h rfl (by simp [specRead_beyond hn, hc]))
    · refine ⟨BitVec.ofNat 16 (draw s).1, congrArg Host.Outcome.next (skRow_mvs h rfl ?_)⟩
      rw [specRead_beyond (by omega)]
      simp [hc, hn, draw]
    · refine congrArg Host.Outcome.next (skRow_mvs_illegal h rfl ?_)
      rw [specRead_beyond (by omega), if_neg (by simp [hc]), if_neg (by omega), if_neg (by omega), if_neg (by omega)]
    · refine congrArg Host.Outcome.next (skRow_mvs h rfl ?_)
      rw [specRead_beyond (by omega), if_neg (by simp [hc]), if_neg (by omega), if_pos ⟨hlo, hhi⟩]
    · refine congrArg Host.Outcome.next (skRow_mvs h rfl ?_)
      rw [specRead_beyond (by omega), if_neg (by simp [hc]), if_neg (by omega), if_neg (by omega), if_pos ⟨hlo, hhi⟩]
  case msv =>
    refine ⟨fun e he hn => ?_, fun hn hc => ?_, fun hc hlo hhi => ?_, fun hc hn hset => ?_, fun hc hn hset => ?_⟩
    · subst hn
      simp only [List.mem_cons, List.not_mem_nil, or_false] at he
      rcases he with rfl | rfl | rfl | rfl | rfl | rfl | rfl | rfl <;>
        exact congrArg Host.Outcome.next (skRow_msv h rfl rfl rfl)
    · refine congrArg Host.Outcome.next (skRow_msv_illegal h rfl ?_)
      rw [specWrite_beyond hn]
      by_cases hcore : c = 3
      · rw [if_neg (by simp [hcore]), if_neg (by omega), if_neg (by omega)]
      · rw [if_pos hcore]
    · refine congrArg Host.Outcome.next (skRow_msv h rfl ?_ rfl)
      rw [specWrite_beyond (by omega), if_neg (by simp [hc]), if_neg (by omega), if_pos ⟨hlo, hhi⟩]
    · refine congrArg Host.Outcome.next (skRow_msv h rfl ?_ rfl)
      rw [specWrite_beyond (by omega), if_neg (by simp [hc]), if_pos hn, hsig, if_pos hset]
    · refine congrArg Host.Outcome.next (skRow_msv h rfl ?_ rfl)
      rw [specWrite_beyond (by omega), if_neg (by simp [hc]), if_pos hn, hsig, if_neg (by simp [hset])]
  case trd =>
    refine ⟨fun hc => congrArg Host.Outcome.next (skRow_fault h rfl (if_pos hc)), fun hc hadr => congrArg Host.Outcome.next ?_,
      fun hc hdom hadr => congrArg Host.Outcome.next ?_, fun hc hdom => congrArg Host.Outcome.next ?_⟩
    · rw [skRow_trd h rfl hc, tapSeen_other hadr]
    · subst hadr
      rw [skRow_trd h rfl hc, tapSeen_swap hdom]
    · rw [skRow_trd h rfl hc, tapSeen_dark hdom, tapRead_dark hdom]
  case twr =>
    have hdone : ∀ t, c = 0 → adr < 0x40 ∨ 0x61 < adr ∨ s.warp.swapPend = false →
        tapWrite s adr (dAt (coreAt s c) r).toNat = t → exec (.twr c) s = .next (t.skDone c (coreAt s c)) :=
      fun t hc hfree ht => congrArg Host.Outcome.next (ht ▸ skRow_twr h rfl hc hfree)
    refine ⟨fun hc => congrArg Host.Outcome.next (skRow_fault h rfl (if_pos hc)),
      fun hc hlo hhi hpend => congrArg Host.Outcome.next (skRow_stall h rfl ?stall), fun hc hdom hadr hodd => ?swap,
      fun hc hdom hadr hodd => ?window, fun hc hdom hadr hne => ?cwin, fun hc hdom hlo hhi hpend => ?shadow,
      fun hc hdom hadr hzero => ?free, fun hc hadr heven => ?even, fun hc hdom hfree => hdone s hc hfree (tapWrite_dark hdom _ _),
      fun hc hadr => hdone s hc (by omega) (tapWrite_elsewhere hadr s _)⟩
    case stall => simp [skOp, hc, hlo, hhi, hpend]
    case swap =>
      subst hadr
      exact hdone _ hc (by omega) (tapWrite_swap hdom hodd)
    case window =>
      subst hadr
      exact hdone _ hc (by omega) (tapWrite_window hdom hodd)
    case cwin =>
      subst hadr
      exact hdone _ hc (by omega) (tapWrite_cwin hdom fun hzero => hne (BitVec.eq_of_toNat_eq hzero))
    case free =>
      subst hadr
      obtain ⟨w, hlo, hhi, hwrite⟩ := tapWrite_cwin_zero hdom
      exact ⟨w, hlo, hhi, hdone _ hc (by omega) (by rw [hzero]; exact hwrite)⟩
    case even => exact hdone s hc (by omega) (tapWrite_even hadr heven s)
    case shadow =>
      have hwrite := tapWrite_shadow hdom hlo hhi (dAt (coreAt s c) r).toNat
      rw [signed_toNat] at hwrite
      have hset : (tapWrite s adr (dAt (coreAt s c) r).toNat).warp.shadow = shadowPut s.warp (adr - 0x40) (dAt (coreAt s c) r).toNat := by
        rw [hwrite]
        split
        · exact congrArg Warp.shadow (raiseFree_warp _ _ _)
        · rfl
      refine ⟨_, hdone _ hc (.inr (.inr hpend)) rfl, ?_⟩
      rw [hset]
      refine ⟨shadowPut_length .., fun n hn => shadowPut_getD _ _ _ hn, fun hmin hmax => ?_, fun hout => ?_⟩
      · rw [hwrite, if_neg (by omega)]; rfl
      · rw [hwrite, if_pos hout]
        exact raises_setWarp.1 (raises_progErr _ _)

end Sys2Proof.Machine
end

