-- ==== Sys2Proof/Proofs/SkeinControl.lean ====
section
/-! SUPPORT. Proofs/SkeinControl.lean: the control instructions of a core, its delay slots, repeat blocks, faults and interrupts (R387,
R396 to R398, R408). -/

namespace Sys2Proof.Machine

open Sys2Proof

section

variable {s t : State} {c cause n len : Nat} {k x : SkCore} {i : SkInstr} {sel : SkInstr → Bool} {target : Option Nat}

/-! ## Cores written -/

theorem coreAt_setCore (h : c < 4) (s : State) (x : SkCore) : coreAt (setCore s c x) c = x := by
  simp [coreAt, setCore, h]

theorem coreAt_of_skein (h : t.skein = s.skein) (c : Nat) : coreAt t c = coreAt s c := by
  rw [coreAt, h, coreAt]

@[simp] theorem coreReturn_skein (s : State) (c : Nat) : (coreReturn s c).skein = s.skein :=
  (coreReturn_kept (.refl _ s) (.refl _)).skein_eq rfl

@[simp] theorem coreReturn_selvedge (s : State) (c : Nat) : (coreReturn s c).selvedge = s.selvedge :=
  (coreReturn_kept (.refl _ s) (.refl _)).selvedge_eq rfl

@[simp] theorem raiseEv_skein (s : State) (source code ctx : Nat) : (raiseEv s source code ctx).skein = s.skein :=
  (raiseEv_kept (.refl _ s) (.refl _)).skein_eq rfl

theorem haltIfAsked_unsafe (h : safePoint (coreAt s c) = false) : haltIfAsked s c = s := by
  simp [haltIfAsked, h]

theorem haltIfAsked_unasked (h : (coreAt s c).haltAsk = false) : haltIfAsked s c = s := by
  simp [haltIfAsked, h]

/-! ## Where an instruction stands (R396, R397) -/

/-- The instruction at the program counter is the last of its repeat block. -/
def lastInBlock (k : SkCore) : Prop := 0 < k.level ∧ k.pc = k.le

/-- The core at the next address, past no block's end. -/
def skStep (c : Nat) (k : SkCore) : SkCore := { k with pc := (k.pc + 1) % pcSpan c, edge := false }

theorem loopNext_inside {last : Nat} (h : ¬(0 < k.level ∧ last = k.le)) (m : Nat) :
    loopNext m k last = { k with pc := last + 1, edge := false } := by
  cases m with
  | zero => rfl
  | succ m => exact if_neg h

theorem control_placed (h : s.skRuns c i = true) (hi : i.isControl = true) :
    (coreAt s c).slots = 0 ∧ ¬lastInBlock (coreAt s c) := by
  obtain ⟨-, -, hplace⟩ := skRuns_iff.1 h
  simp only [misplaced, hi, Bool.true_and, Bool.or_eq_false_iff, Bool.and_eq_false_iff, decide_eq_false_iff_not, beq_eq_false_iff_ne,
    Nat.not_lt, Nat.le_zero] at hplace
  obtain ⟨⟨hslots, hblock⟩, -⟩ := hplace
  exact ⟨hslots, fun hlast => by rcases hblock with h | h <;> simp [lastInBlock, h] at hlast⟩

theorem control_misplaced (hi : i.isControl = true) (h : 0 < k.slots ∨ (0 < k.level ∧ k.pc = k.le)) : misplaced k i = true := by
  rcases h with hslots | ⟨hlevel, hle⟩
  · simp [misplaced, hi, hslots]
  · simp [misplaced, hi, hlevel, hle]

theorem skRow_control_misplaced (hready : skReady s c = true) (hfetch : skFetch s c = some i) (hi : i.isControl = true) (hsel : sel i = true)
    (hplace : 0 < (coreAt s c).slots ∨ (0 < (coreAt s c).level ∧ (coreAt s c).pc = (coreAt s c).le)) :
    skRow sel c s = faultCore s c 2 :=
  skRow_misplaced hready hfetch hsel (control_misplaced hi hplace)

/-! ## Transfers with two delay slots (R396) -/

/-- The core with its program counter wrapped at the end of the bank (log entry 41). -/
def skWrap (c : Nat) (x : SkCore) : SkCore := { x with pc := x.pc % pcSpan c }

theorem skAdvance_jump_eq (target : Option Nat) :
    skAdvance c k (.jump target) = skWrap c { loopNext 2 k k.pc with slots := 2, target := target } := rfl

theorem skAdvance_loop_zero_eq : skAdvance c k (.loop 0 len) = skWrap c (loopNext 2 k (k.pc + len)) := rfl

theorem skAdvance_stop_eq (halt : Bool) : skAdvance c k (.stop halt) =
    if halt then { skWrap c (loopNext 2 k k.pc) with st := .halted, haltAsk := false }
    else if (skWrap c (loopNext 2 k k.pc)).ipend &&& (skWrap c (loopNext 2 k k.pc)).ien ≠ 0 then skWrap c (loopNext 2 k k.pc)
    else { skWrap c (loopNext 2 k k.pc) with st := .wait } := rfl

theorem skRow_jump (h : s.skRuns c i = true) (hi : i.isControl = true) (hsel : sel i = true)
    (hop : skOp s c (coreAt s c) i = .ok k (.jump target) s) (hst : k.st = (coreAt s c).st)
    (hblock : lastInBlock k ↔ lastInBlock (coreAt s c)) :
    skRow sel c s = setCore s c { skStep c k with slots := 2, target := target } := by
  have hready := (skRuns_iff.1 h).1
  have hrun : k.st = .run := hst.trans (skReady_st hready)
  have hnext : skAdvance c k (.jump target) = { skStep c k with slots := 2, target := target } := by
    rw [skAdvance_jump_eq, loopNext_inside (mt hblock.1 (control_placed h hi).2)]
    rfl
  rw [skRow_ok h hsel hop, hnext, skLeft, if_neg (by simp [skStep, hrun]), haltIfAsked_unsafe]
  rw [coreAt_setCore (skReady_lt hready)]
  rfl

/-! ## Repeat blocks (R397) -/

theorem skAdvance_loop (h : 0 < n) : skAdvance c k (.loop n len) = { skStep c k with
    outer := if 0 < k.level then some (k.lc, k.ls, k.le) else none
    level := k.level + 1
    lc := n
    ls := k.pc + 1
    le := k.pc + len } := by
  obtain ⟨m, rfl⟩ := Nat.exists_eq_add_of_le' h
  rfl

theorem skAdvance_loop_none (h : k.level = 0) : skAdvance c k (.loop 0 len) = { skStep c k with pc := (k.pc + len + 1) % pcSpan c } := by
  rw [skAdvance_loop_zero_eq, loopNext_inside (by simp [h])]
  rfl

theorem skAdvance_stop (h : ¬lastInBlock k) (halt : Bool) : skAdvance c k (.stop halt) =
    if halt then { skStep c k with st := .halted, haltAsk := false }
    else if k.ipend &&& k.ien ≠ 0 then skStep c k else { skStep c k with st := .wait } := by
  rw [skAdvance_stop_eq, loopNext_inside h]
  rfl

theorem skAdvance_next_plain (hslots : k.slots = 0) : skAdvance c k .next = { loopNext 2 k k.pc with pc := (loopNext 2 k k.pc).pc % pcSpan c } := by
  simp [skAdvance, hslots]

theorem skAdvance_next_slot (hslots : 1 < k.slots) : skAdvance c k .next =
    { loopNext 2 k k.pc with slots := k.slots - 1, pc := (loopNext 2 k k.pc).pc % pcSpan c } := by
  simp [skAdvance, show k.slots ≠ 0 by omega, show k.slots ≠ 1 by omega]

theorem loopNext_again (hlast : lastInBlock k) (hlc : 1 < k.lc) (m : Nat) :
    loopNext (m + 1) k k.pc = { k with lc := k.lc - 1, pc := k.ls, edge := true } :=
  (if_pos hlast).trans (if_pos hlc)

theorem loopNext_closes (hlast : lastInBlock k) (hlc : k.lc ≤ 1) (houter : k.outer = none) (m : Nat) :
    loopNext (m + 1) k k.pc = { k with lc := 0, level := k.level - 1, pc := k.pc + 1, edge := false } := by
  rw [loopNext, if_pos (show 0 < k.level ∧ k.pc = k.le from hlast), if_neg (Nat.not_lt.2 hlc), houter]

/-- The core back in its outer block. -/
def outerBlock (k : SkCore) (lc ls le : Nat) : SkCore := { k with lc := lc, ls := ls, le := le, outer := none, level := k.level - 1 }

theorem loopNext_outer {lc ls le : Nat} (hlast : lastInBlock k) (hlc : k.lc ≤ 1) (houter : k.outer = some (lc, ls, le)) (m : Nat) :
    loopNext (m + 1) k k.pc = loopNext m (outerBlock k lc ls le) (outerBlock k lc ls le).pc := by
  rw [loopNext, if_pos (show 0 < k.level ∧ k.pc = k.le from hlast), if_neg (Nat.not_lt.2 hlc), houter]
  rfl

/-- An instruction that stops the core or skips a block: the core goes on as `x`, and a halt asked for happens at a safe point. -/
theorem skRow_goes {f : SkFlow} (h : s.skRuns c i = true) (hsel : sel i = true) (hop : skOp s c (coreAt s c) i = .ok k f s)
    (hx : skAdvance c k f = x) (hst : x.st ≠ .halted) : skRow sel c s = haltIfAsked (setCore s c x) c := by
  rw [skRow_ok h hsel hop, hx, skLeft, if_neg hst]

theorem skRow_halt (h : s.skRuns c .halt = true) (hsel : sel .halt = true) :
    skRow sel c s = coreReturn (setCore s c { skStep c (coreAt s c) with st := .halted, haltAsk := false }) c := by
  have hready := (skRuns_iff.1 h).1
  rw [skRow_ok h hsel rfl, skAdvance_stop (control_placed h rfl).2, if_pos rfl, skLeft, if_pos rfl, haltIfAsked_unasked]
  rw [coreAt_of_skein (coreReturn_skein _ _), coreAt_setCore (skReady_lt hready)]

/-! ## The next address (R396, R397) -/

theorem skAdvance_next_target {t : Nat} (hslots : k.slots = 1) (htarget : k.target = some t) :
    skAdvance c k .next = { skStep c k with pc := t % pcSpan c, slots := 0, target := none } := by
  simp [skAdvance, hslots, htarget, skStep]

theorem skAdvance_next_untaken (hslots : k.slots = 1) (htarget : k.target = none) :
    skAdvance c k .next = skWrap c { loopNext 2 k k.pc with slots := 0 } := by
  simp [skAdvance, hslots, htarget, skWrap]

/-! ## Conditions and blocks (R395, R397) -/

theorem brTaken_negative (k : SkCore) : brTaken k 6 = (aAt k 0).msb := by
  simp only [brTaken, BitVec.msb_eq_toInt]

theorem opBr_slot {cond tgt : Nat} (hin : inBlock k k.pc = true) (hout : inBlock k tgt = false ∨ inBlock k (k.pc + 2) = false) :
    skOp s c k (.br cond tgt) = .fault causeSlot := by
  rcases hout with hout | hout <;> simp [skOp, hin, hout]

theorem opBr_jump {cond tgt : Nat} (h : inBlock k k.pc = false ∨ (inBlock k tgt = true ∧ inBlock k (k.pc + 2) = true)) :
    skOp s c k (.br cond tgt) = .ok k (.jump (if brTaken k cond then some tgt else none)) s := by
  rcases h with hout | ⟨htgt, hslots⟩
  · simp [skOp, hout]
  · simp [skOp, htgt, hslots]

/-! ## Core faults (R408) -/

theorem coreAt_faultCore (h : c < 4) (s : State) (cause : Nat) :
    coreAt (faultCore s c cause) c = { coreAt s c with st := .fault, haltAsk := false } := by
  rw [coreAt_of_skein (t := faultCore s c cause) (s := setCore s c { coreAt s c with st := .fault, haltAsk := false }), coreAt_setCore h]
  rw [faultCore, raiseEv_skein, setReg_skein, coreReturn_skein]

theorem rd_faultCore (hinv : s.inv) (hc : c < 4) (hcause : cause < 8) :
    rd (faultCore s c cause) (Reg.skeinCoreFault c) = 2 ^ 31 + cause * 2 ^ 24 + (coreAt s c).pc % 2 ^ 14 := by
  have hbase : (coreReturn (setCore s c { coreAt s c with st := .fault, haltAsk := false }) c).inv :=
    (coreReturn_kept (setCore_kept (Kept.refl 16778248 s) (.of (.refl _) rfl)) (.of (.refl _) rfl)).inv hinv
  have hother : Reg.selvedgeStat ≠ Reg.skeinCoreFault c := by
    simp only [Reg.selvedgeStat, Reg.skeinCoreFault]
    omega
  rw [faultCore, raiseEv, raiseRoot, rd_arrive_other (setReg_inv hbase _ _) _ hother, rd_setReg_same hbase, Nat.mod_eq_of_lt]
  omega

theorem raises_raiseEv (s : State) (source code ctx : Nat) : s.raises (raiseEv s source code ctx) source code :=
  fun hroom => ⟨ctx, arrive_waiting _ hroom⟩

theorem raises_of_selvedge {u : State} {source code : Nat} (h : u.selvedge = s.selvedge) (hraises : u.raises t source code) :
    s.raises t source code := by
  rw [State.raises, ← h]
  exact hraises

theorem raises_faultCore (s : State) (c cause : Nat) : s.raises (faultCore s c cause) (0x20 + c) 0x070 := by
  rw [faultCore]
  refine raises_of_selvedge ?_ (raises_raiseEv _ _ _ _)
  rw [setReg_selvedge, coreReturn_selvedge, setCore_selvedge]

/-! ## Interrupts (R398) -/

/-- The core that takes interrupt `i`. -/
def interruptedCore (k : SkCore) (i : Nat) : SkCore :=
  { setSr k 5 false with
    ipc := k.pc
    isr := k.sr
    ipend := k.ipend &&& ~~~(BitVec.ofNat 8 (2 ^ i))
    pc := 0x10 * (i + 1)
    edge := false }

theorem ipend_interruptedCore {b i : Nat} (h : b < 8) (k : SkCore) :
    (interruptedCore k i).ipend.getLsbD b = (k.ipend.getLsbD b && b != i) := by
  have hbit : (2 ^ i).testBit b = (b == i) := by
    rw [Nat.testBit_two_pow, beq_eq_decide, decide_eq_decide]
    exact eq_comm
  rw [interruptedCore, BitVec.getLsbD_and, BitVec.getLsbD_not, BitVec.getLsbD_ofNat, hbit, bne]
  simp [h]

theorem exec_interruptTaken {i : Nat} (hready : skReady s c = true) (hi : i < 8) (hen : (coreAt s c).ien.getLsbD i = true)
    (hpend : (coreAt s c).ipend.getLsbD i = true) (hie : srBit (coreAt s c) 5 = true) (hslots : (coreAt s c).slots = 0)
    (hblock : (coreAt s c).level = 0 ∨ ((coreAt s c).edge = true ∧ srBit (coreAt s c) 4 = false)) :
    exec (.interruptTaken c i) s = .next (setCore s c (interruptedCore (coreAt s c) i)) := by
  refine congrArg Host.Outcome.next (if_pos ?_)
  rcases hblock with hlevel | ⟨hedge, hrho⟩
  · simp [hready, hi, hen, hpend, hie, hslots, hlevel]
  · simp [hready, hi, hen, hpend, hie, hslots, hedge, hrho]

end

/-- Settles O51: a control instruction stands outside delay slots and ends of blocks, so its own effect decides how the core goes on;
elsewhere it faults. -/
theorem skeinControlsFlow : Obligations.SkeinControlsFlow := by
  refine ⟨fun s c => ?control, fun s c cause hinv hc hcause =>
    ⟨coreAt_faultCore hc s cause, rd_faultCore hinv hc hcause, raises_faultCore s c cause⟩, fun c k => ?advance⟩
  case control =>
    refine ⟨fun cond tgt h => ⟨fun hin e he hcond => ?br, fun hin hout => congrArg Host.Outcome.next (skRow_fault h rfl (opBr_slot hin hout))⟩,
      fun tgt h => ⟨fun hroom => ?call, fun hfull => congrArg Host.Outcome.next (skRow_fault h rfl (if_pos hfull))⟩,
      fun h => ⟨fun t rest hstack => ?ret, fun hstack => congrArg Host.Outcome.next (skRow_fault h rfl (by simp [skOp, hstack]))⟩,
      fun h => congrArg Host.Outcome.next (skRow_jump h rfl rfl rfl rfl Iff.rfl), fun len cnt reg h => ?rep, fun h => ?wait,
      fun h => congrArg Host.Outcome.next (skRow_halt h rfl), fun hready hplace => ?slot,
      fun hready hfetch => congrArg Host.Outcome.next (if_pos (by simp [hready, hfetch])),
      fun i hready hi hen hpend hie hslots hblock => ?interrupt⟩
    case br =>
      subst hcond
      have htaken : brTaken (coreAt s c) e.1 = e.2 := by
        simp only [List.mem_cons, List.not_mem_nil, or_false] at he
        rcases he with rfl | rfl | rfl | rfl | rfl | rfl | rfl
        case inr.inr.inr.inr.inr.inr => exact brTaken_negative _
        all_goals rfl
      rw [← htaken]
      exact congrArg Host.Outcome.next (skRow_jump h rfl rfl (opBr_jump hin) rfl Iff.rfl)
    case call => exact congrArg Host.Outcome.next (skRow_jump h rfl rfl (if_neg (Nat.not_le.2 hroom)) rfl Iff.rfl)
    case ret =>
      have hop : skOp s c (coreAt s c) .ret = .ok { coreAt s c with stack := rest } (.jump (some t)) s := by simp [skOp, hstack]
      exact congrArg Host.Outcome.next (skRow_jump h rfl rfl hop rfl Iff.rfl)
    case rep =>
      refine ⟨fun hn hlevel => congrArg Host.Outcome.next ?_, fun hn hlevel => congrArg Host.Outcome.next (skRow_fault h rfl (if_pos ⟨hn, hlevel⟩)),
        fun hn hlevel => congrArg Host.Outcome.next ?_⟩
      · have hrun := skReady_st (skRuns_iff.1 h).1
        have hop : skOp s c (coreAt s c) (.rep len cnt reg) =
            .ok (coreAt s c) (.loop (if reg then (dAt (coreAt s c) (cnt % 16)).toNat else cnt) len) s :=
          if_neg fun hdeep => Nat.not_lt.2 hdeep.2 hlevel
        rw [skRow_goes h rfl hop (skAdvance_loop hn) (by simp [skStep, hrun]), haltIfAsked_unsafe]
        · rfl
        · rw [coreAt_setCore (skReady_lt (skRuns_iff.1 h).1)]
          simp [safePoint]
      · have hop : skOp s c (coreAt s c) (.rep len cnt reg) = .ok (coreAt s c) (.loop 0 len) s := by
          simp [skOp, hn, hlevel]
        exact skRow_goes h rfl hop (skAdvance_loop_none hlevel) (by simp [skReady_st (skRuns_iff.1 h).1])
    case wait =>
      have hrun := skReady_st (skRuns_iff.1 h).1
      refine congrArg Host.Outcome.next (skRow_goes h rfl rfl ?_ ?_)
      · rw [skAdvance_stop (control_placed h rfl).2]
        by_cases hidle : (coreAt s c).ipend &&& (coreAt s c).ien = 0
        · rw [if_neg Bool.false_ne_true, if_neg (not_not.2 hidle), if_pos hidle]
          rfl
        · rw [if_neg Bool.false_ne_true, if_pos hidle, if_neg hidle, ← hrun]
          rfl
      · split
        · exact SkSt.noConfusion
        · exact SkSt.noConfusion
    case slot =>
      exact ⟨fun cond tgt hfetch => congrArg Host.Outcome.next (skRow_control_misplaced hready hfetch rfl rfl hplace),
        fun tgt hfetch => congrArg Host.Outcome.next (skRow_control_misplaced hready hfetch rfl rfl hplace),
        fun hfetch => congrArg Host.Outcome.next (skRow_control_misplaced hready hfetch rfl rfl hplace),
        fun hfetch => congrArg Host.Outcome.next (skRow_control_misplaced hready hfetch rfl rfl hplace),
        fun len cnt reg hfetch => congrArg Host.Outcome.next (skRow_control_misplaced hready hfetch rfl rfl hplace),
        fun hfetch => congrArg Host.Outcome.next (skRow_control_misplaced hready hfetch rfl rfl hplace),
        fun hfetch => congrArg Host.Outcome.next (skRow_control_misplaced hready hfetch rfl rfl hplace)⟩
    case interrupt =>
      refine ⟨_, exec_interruptTaken hready hi hen hpend hie hslots hblock, ?_⟩
      rw [coreAt_setCore (skReady_lt hready)]
      refine ⟨rfl, rfl, rfl, rfl, fun b hb => ?_, fun b hb => ipend_interruptedCore hb _, rfl, rfl, rfl, rfl, rfl⟩
      refine (srBit_setSr (by omega) (coreAt s c) false).trans ?_
      by_cases h5 : b = 5 <;> simp [h5]
  case advance =>
    have hinside {x : SkCore} (hpc : x.pc = k.pc) (hlevel : x.level = k.level) (hle : x.le = k.le) (h : k.level = 0 ∨ k.pc ≠ k.le) :
        loopNext 2 x k.pc = { x with pc := k.pc + 1, edge := false } := by
      refine loopNext_inside ?_ 2
      rw [hlevel, hle]
      rcases h with h | h <;> simp [h]
    refine ⟨fun hslots h => ?_, fun hslots h => ?_, fun t hslots htarget => skAdvance_next_target hslots htarget, fun hslots htarget h => ?_,
      fun hslots hlevel hle hlc => ?_, fun hslots hlevel hle hlc houter => ?_, fun lc ls le hslots hlevel hle hlc houter => ?_⟩
    · rw [skAdvance_next_plain hslots, hinside rfl rfl rfl h]
    · rw [skAdvance_next_slot hslots, hinside rfl rfl rfl h]
    · rw [skAdvance_next_untaken hslots htarget, hinside rfl rfl rfl h]
      rfl
    · rw [skAdvance_next_plain hslots, loopNext_again ⟨hlevel, hle⟩ hlc]
    · rw [skAdvance_next_plain hslots, loopNext_closes ⟨hlevel, hle⟩ hlc houter]
    · rw [skAdvance_next_plain hslots, loopNext_outer ⟨by omega, hle⟩ hlc houter]
      refine ⟨fun hne => ?_, fun heq hmore => ?_⟩
      · rw [loopNext_inside fun hlast => hne hlast.2]
        rfl
      · rw [loopNext_again ⟨Nat.sub_pos_of_lt hlevel, heq⟩ hmore]
        rfl

end Sys2Proof.Machine
end

