-- ==== Sys2Proof/Proofs/DraftPages.lean ====
section
/-! SUPPORT. Proofs/DraftPages.lean: Draft's entry window leaves the staged word of DRAFT_ENT_CMD as it finds it (R9, R331), so O54's
claim that the word is 0 after a WRITE fails where it was not 0 before. -/

namespace Sys2Proof.Machine

open Sys2Proof

/-- READY has asserted, the tables are in canonical form, and the staged copy of DRAFT_ENT_CMD, whose fields are all RO or WO,
holds 4. -/
def entCmdStaged : State :=
  { State.reset with power := { mode := .listen, ready := true, clkPll := true, corePllLock := true }
                     stg := [(Reg.draftEntCmd, 4)] }

theorem entCmdStaged_inv : entCmdStaged.inv := by
  refine ⟨?_, ?_⟩ <;> decide

theorem entCmdStaged_reaches : entCmdStaged.hostReaches Reg.draftEntCmd = true := by decide

/-- The window is at table 0, entry 0, which takes the image of zeros. -/
theorem entCmdStaged_ok : draftOk (draftStandby entCmdStaged) (fldS entCmdStaged Reg.draftEntSel 26 24)
    (fldS entCmdStaged Reg.draftEntSel 12 0) ((List.range 3).map (fun k => rdS entCmdStaged (Reg.draftEntData k))) = true := by
  decide

theorem rdS_draftEntCmd_stored : rdS (hostStore Reg.draftEntCmd 15 1 entCmdStaged) Reg.draftEntCmd = 4 := by decide

theorem rdS_draftEntCmd_after_write {u : State} (hu : exec (.draftEntWrite 15) entCmdStaged = .next u) : rdS u Reg.draftEntCmd = 4 := by
  obtain rfl : hostStore Reg.draftEntCmd 15 1 entCmdStaged = u := Host.Outcome.next.inj hu
  exact rdS_draftEntCmd_stored

/-- Refutes O54: DRAFT_ENT_CMD's OP is WO and its other fields RO, so no write changes its staged word, and the clause
`rdS u Reg.draftEntCmd = 0` fails in a state in which that word is 4; the invariant does not exclude such a state. (A read
of the register shows 0 there: `regValue` masks OP out and takes RESULT from Draft.) -/
theorem not_draftPagesLoadAndSwap : ¬ Obligations.DraftPagesLoadAndSwap := by
  unfold Obligations.DraftPagesLoadAndSwap
  rintro ⟨-, hwin, -⟩
  obtain ⟨hwrite, -⟩ := hwin entCmdStaged entCmdStaged_inv entCmdStaged_reaches (by decide) (by decide)
  obtain ⟨u, hu, -, hr⟩ := hwrite rfl rfl entCmdStaged_ok
  rw [rdS_draftEntCmd_after_write hu] at hr
  exact absurd hr (by decide)

end Sys2Proof.Machine
end

