-- ==== Sys2Proof/Proofs/DraftExchange.lean ====
section
/-! SUPPORT. Proofs/DraftExchange.lean: the counters of a grant are at 11 + 2k and 12 + 2k of group 9 for pool k, so in a layout of more than
two million pools (which no register describes, and which the invariant does not exclude) a grant counts in another group; O55's
clause on the counter of circuit frames handed over fails there. -/

namespace Sys2Proof.Machine

open Sys2Proof

section
variable {s : State} {b : Buf} {len : Nat}

/-! ## The pools that a request passes -/

/-- Pools that are too small for the request are passed over. -/
theorem allocFrom_skip (n m k : Nat) (h : ∀ j < m, 16 * poolSize s.spool (k + j) < len) :
    allocFrom (n + m) s b len k = allocFrom n s b len (k + m) := by
  induction m generalizing k with
  | zero => rfl
  | succ m ih =>
    have h0 : 16 * poolSize s.spool k < len := h 0 (Nat.succ_pos m)
    have hrest : ∀ j < m, 16 * poolSize s.spool (k + 1 + j) < len := fun j hj => by
      have := h (j + 1) (by omega)
      rwa [show k + (j + 1) = k + 1 + j by omega] at this
    rw [show n + (m + 1) = n + m + 1 by omega, allocFrom, if_pos h0, ih (k + 1) hrest, show k + 1 + m = k + (m + 1) by omega]

/-- No buffer is held, so no owner holds one and none uses any of its maximum. -/
theorem ownHeld_nil {sp : Spool} (o k : Nat) : ownHeld sp [] o k = 0 := by
  simp [ownHeld, poolBufs]

theorem ownUse_nil {sp : Spool} (o : Nat) : ownUse sp [] o = 0 := by
  have h : ∀ l : List Nat, (l.map (fun k => ownHeld sp [] o k * poolSize sp k)).foldl (· + ·) 0 = 0 := fun l => by
    induction l with
    | nil => rfl
    | cons k t ih => simpa [ownHeld_nil] using ih
  exact h _

/-- A pool of no buffer cannot be used. -/
theorem poolUsable_empty {bufs : Sparse Buf} {o k : Nat} (h : poolCount s.spool k = 0) : poolUsable s bufs o k = false := by
  simp [poolUsable, poolFree, h]

/-- The last pool tried has room in size and no buffer: its own miss is counted, then the request ends without a buffer. -/
theorem allocFrom_last {k : Nat} (hsize : len ≤ 16 * poolSize s.spool k) (hcount : poolCount s.spool k = 0) (hbufs : s.spool.bufs = [])
    (hmax : poolSize s.spool k ≤ fld s (Reg.spoolOwnMax b.owner) 21 0) :
    ∃ n, n ≤ 3 ∧ allocFrom 1 s b len k = (none, count (count s 9 (12 + 2 * k)) 9 n) := by
  have hpool : ∀ bufs, poolUsable s bufs b.owner k = false := fun bufs => poolUsable_empty hcount
  refine ⟨if 16 * poolSize s.spool (s.spool.pools.length - 1) < len then 3 else 2, by split <;> omega, ?_⟩
  rw [allocFrom, if_neg (by omega), hbufs, ownUse_nil, if_neg (by omega), hpool, if_neg (by simp)]
  dsimp only
  rw [if_neg (by rw [poolUsable_empty (s := count s 9 (12 + 2 * k)) (by simpa using hcount)]; simp), allocFrom, count_spool]

/-! ## A frame that finds no buffer -/

/-- A frame of no stream that Spool gives no buffer is dropped. -/
theorem reedEnqueue_noBuffer {f : Frame} {q port : Nat} {same : Bool} {u : State} (hq : (reedOn s && qEn s q) = true)
    (hlim : ¬ qLimit s q 0 < queueOcc s q + frameLen f) (hst : frameStream s q f = none)
    (halloc : spoolAlloc s same port b (frameLen f) = (none, u)) :
    reedEnqueue s f q 0 same port b = queueDrop u q 4 f := by
  rw [reedEnqueue, hq, hst, halloc, if_neg (by simp), if_neg (by simp), if_neg hlim]
  simp

/-- A frame without a buffer, a send or a time stamp leaves nothing behind but its counts. -/
theorem queueDrop_bare {f : Frame} {q n : Nat} (h1 : f.handle = 0xFFFFF) (h2 : f.sendDone = none) (h3 : f.tsReq = none) :
    queueDrop s q n f = qCnt (qCnt (count s 6 n) q 4 1) q 5 (frameLen f) := by
  simp [queueDrop, frameGone, sendHanded, h1, h2, h3]

end

/-! ## The counterexample -/

/-- `n` pools of size 0, and one of 16 bytes without a buffer. -/
def smallPools (n : Nat) : List (Nat × Nat) := List.replicate n (0, 0) ++ [(1, 0)]

theorem smallPools_length (n : Nat) : (smallPools n).length = 1 + n := by simp [smallPools, Nat.add_comm]

theorem smallPools_first {n k : Nat} (h : k < n) : (smallPools n).getD k (0, 0) = (0, 0) := by
  rw [smallPools, List.getD_append _ _ _ _ (by simpa using h)]
  simp [List.getD_eq_getElem?_getD, h]

theorem smallPools_last (n : Nat) : (smallPools n).getD n (0, 0) = (1, 0) := by
  rw [smallPools, List.getD_append_right _ _ _ _ (by simp)]
  simp

/-- A valid upstream circuit of stream 0 and one channel in the active page, its queue 0 on with room, Spool with `smallPools`. -/
def circuitSent (n : Nat) : State :=
  { State.reset with
    power := { mode := .listen, ready := true, clkPll := true, corePllLock := true }
    stg := [(Reg.reedCtrl, 1), (Reg.spoolCtrl, 1), (Reg.spoolOwnMax 0, 1), (Reg.draftCtrl, 1)]
    cur := [(Reg.reedCtrl, 1), (Reg.spoolCtrl, 1), (Reg.spoolOwnMax 0, 1), (Reg.draftCtrl, 1)]
    reed := { qrec := [(0, [2 ^ 31, 1, 100, 100, 100, 0])] }
    draft := { pageA := [(deckKey 3 0, [2 ^ 31, 1, 0])] }
    spool := { pools := smallPools n } }

/-- Its circuit: index and words. -/
def oneCircuit : Nat × List Nat := (0, [2 ^ 31, 1, 0])

/-- The state in which the exchange hands its circuits over. -/
def circuitTaken (n : Nat) : State :=
  countBy (setDraft (circuitSent n) { (circuitSent n).draft with ins := sampled (circuitSent n) 256 [], lateUp := none }) 13 11 (16 * (256 - 256))

theorem circuitSent_inv (n : Nat) : (circuitSent n).inv := ⟨rfl, rfl⟩

theorem circuitSent_draftOn (n : Nat) : draftOn (circuitSent n) = true := by
  have h : draftOn (circuitSent 0) = true := by decide
  exact h

theorem circuitSent_circuits (n : Nat) : circuits (draftPage (circuitSent n) (circuitSent n).draft.upB) 3 = [oneCircuit] := rfl

/-- A request of one byte for owner 0 passes the small pools, misses in the last, and counts the miss at 12 + 2n of group 9. -/
theorem spoolAlloc_smallPools {s : State} {same : Bool} {b : Buf} {n : Nat} (hp : s.spool.pools = smallPools n) (hb : s.spool.bufs = [])
    (hg : spoolGrants s = true) (hmax : fld s (Reg.spoolOwnMax b.owner) 21 0 = 1) :
    ∃ sp m, m ≤ 3 ∧ spoolAlloc s same 0 b 1 = (none, count (count { s with spool := sp } 9 (12 + 2 * n)) 9 m) := by
  rw [spoolAlloc]
  generalize hsp : (if same && portNext s 0 then { s.spool with clockPorts := s.spool.clockPorts ++ [0] }
    else { s.spool with clockBufs := s.spool.bufs, clockPorts := [0], rr := rrNext s } : Spool) = sp
  have hpools : sp.pools = smallPools n := by rw [← hsp]; split <;> exact hp
  have hbufs : sp.bufs = [] := by rw [← hsp]; split <;> exact hb
  have hsize : ∀ k, poolSize sp k = ((smallPools n).getD k (0, 0)).1 := fun k => by rw [poolSize, hpools]
  have hcount : poolCount sp n = 0 := by rw [poolCount, hpools, smallPools_last]
  obtain ⟨m, hm3, hm⟩ := allocFrom_last (s := { s with spool := sp }) (b := b) (len := 1) (k := n)
    (by rw [hsize, smallPools_last]; decide) hcount hbufs (by rw [hsize, smallPools_last]; exact hmax.ge)
  have hskip := allocFrom_skip (s := { s with spool := sp }) (b := b) (len := 1) 1 n 0
    (fun j hj => by rw [Nat.zero_add, hsize, smallPools_first hj]; decide)
  refine ⟨sp, m, hm3, ?_⟩
  have hon : (spoolGrants { s with spool := sp } && decide (0 < sp.pools.length)) = true := by
    rw [hpools, smallPools_length, Bool.and_eq_true]
    exact ⟨hg, by simp⟩
  rw [if_pos hon, hpools, smallPools_length, hskip, Nat.zero_add, hm]

section
variable {s : State}

theorem rd_count_draw (a g k : Nat) : rd (count (draw s).2 g k) a = rd s a := by simp [rd]

theorem reedOn_count_draw (g k : Nat) : reedOn (count (draw s).2 g k) = reedOn s := by
  simp [reedOn, flag, rd_count_draw, domOn, unitOk]

theorem spoolGrants_count_draw (g k : Nat) : spoolGrants (count (draw s).2 g k) = spoolGrants s := by
  simp [spoolGrants, flag, rd_count_draw, domOn, unitOk]

theorem qWord_count_draw (g k q i : Nat) : qWord (count (draw s).2 g k) q i = qWord s q i := by simp [qWord]

theorem queueOcc_count_draw (g k q : Nat) : queueOcc (count (draw s).2 g k) q = queueOcc s q := by
  simp [queueOcc, queueFrames, queueCont, queueAt]

/-- What the circuit's frame does where its queue has room and Spool has `smallPools`: it is counted as handed over and then dropped, its
miss of the last pool counted too. -/
theorem upFrame_smallPools {p : Deck} {n : Nat} (hq : (reedOn s && qEn s 0) = true) (hlim : ¬ qLimit s 0 0 < queueOcc s 0 + 1)
    (hty : qType s 0 = 0) (hp : s.spool.pools = smallPools n) (hb : s.spool.bufs = []) (hg : spoolGrants s = true)
    (hmax : fld s (Reg.spoolOwnMax (fld s Reg.draftCfg 5 0)) 21 0 = 1) :
    ∃ sp m, m ≤ 3 ∧ let u := count (count { count (draw s).2 13 6 with spool := sp } 9 (12 + 2 * n)) 9 m
      let v := qCnt (qCnt (count u 6 4) 0 4 1) 0 5 1
      upFrame p s oneCircuit = v ∨ upFrame p s oneCircuit = count v 13 7 := by
  obtain ⟨sp, m, hm, h⟩ := spoolAlloc_smallPools (s := count (draw s).2 13 6) (same := (sharesClock s).1) (n := n)
    (b := { owner := fld s Reg.draftCfg 5 0, bytes := 1, data := [BitVec.ofNat 8 (upSample s p (deckWord p 1 (0 + 0) 0))], src := 64 })
    (by simpa using hp) (by simpa using hb) (by rw [spoolGrants_count_draw]; exact hg) (by rw [fld, rd_count_draw]; exact hmax)
  refine ⟨sp, m, hm, ?_⟩
  have hr := reedEnqueue_noBuffer (s := count (draw s).2 13 6) (q := 0)
    (f := { data := [BitVec.ofNat 8 (upSample s p (deckWord p 1 (0 + 0) 0))], srcType := 3, upStream := 0, circuit := true })
    (by rw [reedOn_count_draw, qEn, qWord_count_draw]; exact hq) (by rw [queueOcc_count_draw, qLimit, qWord_count_draw]; exact hlim)
    (by rw [frameStream, qType, qWord_count_draw, ← qType, hty]; rfl) h
  rw [queueDrop_bare rfl rfl rfl] at hr
  have hup : ∀ r, r = reedEnqueue (count (draw s).2 13 6)
      { data := [BitVec.ofNat 8 (upSample s p (deckWord p 1 (0 + 0) 0))], srcType := 3, upStream := 0, circuit := true } 0 0 (sharesClock s).1 0
      { owner := fld s Reg.draftCfg 5 0, bytes := 1, data := [BitVec.ofNat 8 (upSample s p (deckWord p 1 (0 + 0) 0))], src := 64 } →
      upFrame p s oneCircuit = if (queueAt r 0).items.length = (queueAt s 0).items.length then count r 13 7 else r := by
    rintro r rfl
    rfl
  rw [hup _ hr.symm]
  split
  · exact .inr rfl
  · exact .inl rfl

/-- With 2,097,149 small pools the miss of the last one is counted in the counter of circuit frames handed over. -/
theorem cntVal_upFrame_smallPools (hs : s.inv) {sp : Spool} {m : Nat} (hm : m ≤ 3) :
    let u := count (count { count (draw s).2 13 6 with spool := sp } 9 (12 + 2 * 0x1FFFFD)) 9 m
    let v := qCnt (qCnt (count u 6 4) 0 4 1) 0 5 1
    cntVal v 13 6 = min cntMax (min cntMax (cntVal s 13 6 + 1) + 1) ∧ cntVal (count v 13 7) 13 6 = cntVal v 13 6 := by
  intro u v
  have h1 : State.inv (count (draw s).2 13 6) := count_inv (s := (draw s).2) hs 13 6
  have h2 : State.inv { count (draw s).2 13 6 with spool := sp } := h1
  have h3 := count_inv h2 9 (12 + 2 * 0x1FFFFD)
  have hu : u.inv := count_inv h3 9 m
  have h4 := count_inv hu 6 4
  have h5 := countBy_inv h4 6 (12 + 8 * 0 + 4) 1
  have hkey : cntKey 9 (12 + 2 * 0x1FFFFD) = cntKey 13 6 := by decide
  refine ⟨?_, cntVal_countBy_other (countBy_inv h5 6 (12 + 8 * 0 + 5) 1) (by decide) 1⟩
  calc cntVal v 13 6 = cntVal u 13 6 := by
        rw [show v = countBy (countBy (count u 6 4) 6 (12 + 8 * 0 + 4) 1) 6 (12 + 8 * 0 + 5) 1 from rfl,
          cntVal_countBy_other h5 (by decide), cntVal_countBy_other h4 (by decide), count, cntVal_countBy_other hu (by decide)]
    _ = cntVal (count { count (draw s).2 13 6 with spool := sp } 9 (12 + 2 * 0x1FFFFD)) 13 6 :=
        cntVal_countBy_other h3 (by unfold cntKey; omega) 1
    _ = cntVal (count { count (draw s).2 13 6 with spool := sp } 13 6) 13 6 := by rw [count, countBy, hkey]; rfl
    _ = min cntMax (cntVal (count (draw s).2 13 6) 13 6 + 1) := cntVal_countBy_same h2 13 6 1
    _ = min cntMax (min cntMax (cntVal s 13 6 + 1) + 1) := by rw [count, cntVal_countBy_same (s := (draw s).2) hs]; rfl

end

/-! ## The concrete state -/

theorem circuitTaken_inv (n : Nat) : (circuitTaken n).inv := countBy_inv (circuitSent_inv n) 13 11 (16 * (256 - 256))

theorem circuitTaken_queue (n : Nat) : (reedOn (circuitTaken n) && qEn (circuitTaken n) 0) = true := by
  have h : (reedOn (circuitTaken 0) && qEn (circuitTaken 0) 0) = true := by decide
  exact h

theorem circuitTaken_grants (n : Nat) : spoolGrants (circuitTaken n) = true := by
  have h : spoolGrants (circuitTaken 0) = true := by decide
  exact h

theorem circuitTaken_room (n : Nat) : ¬ qLimit (circuitTaken n) 0 0 < queueOcc (circuitTaken n) 0 + 1 := by
  have h : ¬ qLimit (circuitTaken 0) 0 0 < queueOcc (circuitTaken 0) 0 + 1 := by decide
  exact h

theorem circuitTaken_max (n : Nat) :
    fld (circuitTaken n) (Reg.spoolOwnMax (fld (circuitTaken n) Reg.draftCfg 5 0)) 21 0 = 1 := by
  have h : fld (circuitTaken 0) (Reg.spoolOwnMax (fld (circuitTaken 0) Reg.draftCfg 5 0)) 21 0 = 1 := by decide
  exact h

/-- Refutes O55: a grant counts a miss of pool k at 12 + 2k of group 9, which for k = 2,097,149 is counter 6 of group 13. In a state with
2,097,150 pools the exchange of its one circuit finds no buffer and adds 2 to the counter of circuit frames handed over. (No layout
register describes more than four pools; the statement and its invariant do not say so.) -/
theorem not_draftExchangesSamples : ¬ Obligations.DraftExchangesSamples := by
  unfold Obligations.DraftExchangesSamples
  rintro ⟨-, -, hup, -⟩
  obtain ⟨-, hone⟩ := hup (circuitSent 0x1FFFFD) [] (circuitSent_draftOn _)
  obtain ⟨-, hcnt⟩ := hone oneCircuit (circuitSent_circuits _)
  have hc := hcnt (circuitSent_inv _)
  have hs := circuitTaken_inv 0x1FFFFD
  obtain ⟨sp, m, hm, hcase⟩ := upFrame_smallPools (s := circuitTaken 0x1FFFFD)
    (p := draftPage (circuitSent 0x1FFFFD) (circuitSent 0x1FFFFD).draft.upB) (circuitTaken_queue _) (circuitTaken_room _) rfl rfl rfl
    (circuitTaken_grants _) (circuitTaken_max _)
  obtain ⟨h1, h2⟩ := cntVal_upFrame_smallPools hs (sp := sp) hm
  have h0 : cntVal (circuitTaken 0x1FFFFD) 13 6 = 0 := rfl
  have h0' : cntVal (circuitSent 0x1FFFFD) 13 6 = 0 := rfl
  have h3 : cntVal (upFrame (draftPage (circuitSent 0x1FFFFD) (circuitSent 0x1FFFFD).draft.upB) (circuitTaken 0x1FFFFD) oneCircuit) 13 6 = 2 := by
    rcases hcase with h | h
    · rw [h, h1, h0]; decide
    · rw [h, h2, h1, h0]; decide
  have h4 : (2 : Nat) = min cntMax (0 + 1) := by rw [← h3, ← h0']; exact hc
  exact absurd h4 (by decide)

end Sys2Proof.Machine
end

