-- ==== Sys2Proof/Proofs/HostWrites.lean ====
section
/-! SUPPORT. Proofs/HostWrites.lean: what a full host write to a register that the host reaches does (R8 to R10, R14, R22): the test of its
fields, the two copies, and the effect of the register, of which each register has at most one. -/

namespace Sys2Proof.Machine

open Sys2Proof

section
variable {s : State} {a v : Nat} {r : RegRow}

/-! ## Registers without a rule beyond their table -/

/-- Registers whose write may be refused whole. -/
def wholeRegs : List Nat :=
  [Reg.globalPdCtrl, Reg.pickSweepSlots, Reg.pickSweepBaseLo, Reg.pickSweepBaseHi, Reg.hostCmdBaseLo, Reg.hostCmdBaseHi, Reg.hostCmdCfg,
   Reg.hostCqBaseLo, Reg.hostCqBaseHi, Reg.hostCqMod, Reg.hostCqCfg, Reg.safetyMpdCfg]

/-- Registers with a rule that may keep a field beyond its table, and the arrays of such registers. -/
def crossRegs : List Nat :=
  [Reg.warpCtrl, Reg.warpSdCfg, Reg.heddleFlowBase, Reg.spoolCtrl, Reg.laneGlobal, Reg.dramCfg, Reg.timeIncHi]

def crossArrays : List (Nat × Nat × Nat) :=
  [(Reg.laneCfg 0, 4, 16), (Reg.laneTxCfg 0, 4, 16), (Reg.macCfg 0, 4, 32), (Reg.laneYholdThr 0, 4, 16), (Reg.macPauseThr 0, 4, 32),
   (Reg.tensionReqCfg 32, 4, 32)]

/-- Registers of saturation bits. -/
def satRegs : List Nat :=
  [Reg.pickCntSat, Reg.warpCntSat, Reg.weftCntSat, Reg.actCntSat, Reg.timeCntSat, Reg.heddleCntSat, Reg.heddleFlowCntSat, Reg.reedCntSat,
   Reg.reedCntEsat, Reg.spoolCntSat, Reg.secCntSat, Reg.macCntSat, Reg.laneCntSat, Reg.draftCntSat, Reg.hostCntSat, Reg.shuttleCntSat,
   Reg.tensionCntSat, Reg.selvedgeCntSat]

theorem refusedWhole_other (h : a ∉ wholeRegs) : refusedWhole s a v = false := by
  simp only [wholeRegs, List.mem_cons, List.not_mem_nil, or_false, not_or] at h
  obtain ⟨h1, h2, h3, h4, h5, h6, h7, h8, h9, h10, h11, h12⟩ := h
  rw [refusedWhole]
  simp only [h1, h2, h3, h4, h5, h6, h7, h8, h9, h10, h11, h12, or_self, if_false]

theorem crossCheck_other (h : a ∉ crossRegs) (h' : ∀ x ∈ crossArrays, instAt a x.1 x.2.1 x.2.2 = none) : crossCheck s a v = (v, false) := by
  simp only [crossRegs, List.mem_cons, List.not_mem_nil, or_false, not_or] at h
  obtain ⟨h1, h2, h3, h4, h5, h6, h7⟩ := h
  simp only [crossArrays, List.forall_mem_cons, List.not_mem_nil, false_imp_iff, implies_true, and_true] at h'
  obtain ⟨a1, a2, a3, a4, a5, a6⟩ := h'
  rw [crossCheck]
  simp only [h1, h2, h3, h4, h5, h6, h7, a1, a2, a3, a4, a5, a6, if_false]

theorem satKeys_other (h : a ∉ satRegs) : satKeys s a = none := by
  simp only [satRegs, List.mem_cons, List.not_mem_nil, or_false, not_or] at h
  obtain ⟨h1, h2, h3, h4, h5, h6, h7, h8, h9, h10, h11, h12, h13, h14, h15, h16, h17, h18⟩ := h
  rw [satKeys]
  simp only [h1, h2, h3, h4, h5, h6, h7, h8, h9, h10, h11, h12, h13, h14, h15, h16, h17, h18, if_false]

/-! ## Effects -/

def lineRegs : List Nat :=
  [Reg.globalClkCtrl, Reg.pickCtrl, Reg.warpPmSel, Reg.weftStat, Reg.actHeld, Reg.timeCtrl, Reg.timeIncHi, Reg.timeStepLo, Reg.timeStepHi]

def trafficRegs : List Nat :=
  [Reg.heddleEntCmd, Reg.reedCtrl, Reg.reedAnchor, Reg.reedEntCmd, Reg.spoolCtrl, Reg.secTrngCtrl, Reg.macAddrLo, Reg.macAddrHi,
   Reg.draftCtrl, Reg.draftEntCmd]

def hostSideRegs : List Nat :=
  [Reg.skeinWinData, Reg.skeinMboxCtrl, Reg.selvedgePendLo, Reg.selvedgePendHi, Reg.selvedgeHistSel, Reg.selvedgeUnitCtrl, Reg.safetyClr,
   Reg.safetyForce]

/-- No effect of a traffic block's register; none of a register of the host side. -/
def trafficQuiet (a : Nat) : Bool := decide (a ∉ trafficRegs) && (instAt a (Reg.laneYmgmtTxHi 0) 16 16).isNone
def hostQuiet (a : Nat) : Bool :=
  decide (a ∉ hostSideRegs) && (instAt a (Reg.shuttleChCtrl 0) 4 16).isNone && (instAt a (Reg.skeinCoreCtrl 0) 0x100 4).isNone

theorem lineEffect_other {old : Nat} (h : a ∉ lineRegs) : lineEffect a v old s = s := by
  simp only [lineRegs, List.mem_cons, List.not_mem_nil, or_false, not_or] at h
  obtain ⟨h1, h2, h3, h4, h5, h6, h7, h8, h9⟩ := h
  rw [lineEffect]
  simp only [h1, h2, h3, h4, h5, h6, h7, h8, h9, if_false]

theorem trafficEffect_other (h : trafficQuiet a = true) : trafficEffect a v s = s := by
  simp only [trafficQuiet, trafficRegs, Bool.and_eq_true, decide_eq_true_eq, List.mem_cons, List.not_mem_nil, or_false, not_or,
    Option.isNone_iff_eq_none] at h
  obtain ⟨⟨h1, h2, h3, h4, h5, h6, h7, h8, h9, h10⟩, hi⟩ := h
  rw [trafficEffect]
  simp only [h1, h2, h3, h4, h5, h6, h7, h8, h9, h10, hi, if_false]

theorem hostEffect_other (h : hostQuiet a = true) : hostEffect a v s = s := by
  simp only [hostQuiet, hostSideRegs, Bool.and_eq_true, decide_eq_true_eq, List.mem_cons, List.not_mem_nil, or_false, not_or,
    Option.isNone_iff_eq_none] at h
  obtain ⟨⟨⟨h1, h2, h3, h4, h5, h6, h7, h8⟩, hi⟩, hj⟩ := h
  rw [hostEffect]
  simp only [h1, h2, h3, h4, h5, h6, h7, h8, hi, hj, if_false]

/-! ## The write -/

/-- What a write of `v` makes of the fields: staged word, word in force, whether a field was refused. -/
def fieldsWritten (r : RegRow) (s : State) (a v : Nat) : Nat × Nat × Bool := r.fields.foldl (fldWrite v) (rdS s a, rd s a, false)

/-- Both copies as a write leaves them. -/
def stored (s : State) (a : Nat) (x : Nat × Nat × Bool) : State := force (stage s a x.1) a x.2.1

/-- The effects of a write, in their order. -/
def writeEffects (a v old : Nat) (s : State) : State := hostEffect a v (trafficEffect a v (lineEffect a v old s))

/-- No rule keeps a field beyond the register's table, and it holds no saturation bits. -/
def tableReg (a : Nat) : Bool :=
  decide (a ∉ crossRegs) && crossArrays.all (fun x => (instAt a x.1 x.2.1 x.2.2).isNone) && decide (a ∉ satRegs)

/-- No rule beyond the register's table and its effect. -/
def plainReg (a : Nat) : Bool := decide (a ∉ wholeRegs) && tableReg a

/-- The register lies in the SAFETY block, whose writes are dropped while VDD_SAFE is absent. -/
def inSafety (a : Nat) : Bool := decide (0x01400000 ≤ a) && decide (a < 0x01500000)

theorem inSafety_stands (hs : inSafety a = false ∨ s.safety.vddSafe = true) :
    ¬ (0x01400000 ≤ a ∧ a < 0x01500000 ∧ s.safety.vddSafe = false) := fun ⟨h1, h2, h3⟩ => by
  simp [inSafety, h1, h2, h3] at hs

theorem regStore_refused (hw : refusedWhole s a v = true) (hs : inSafety a = false ∨ s.safety.vddSafe = true) :
    regStore r a v s = progErr s (regSource s a) := by
  rw [regStore, if_neg (inSafety_stands hs), if_pos hw]

/-- A write that is not refused whole stores what it makes of the fields, has its effects, and reports a refused field. -/
theorem regStore_table (ht : tableReg a = true) (hw : refusedWhole s a v = false) (hs : inSafety a = false ∨ s.safety.vddSafe = true) :
    regStore r a v s = if (fieldsWritten r s a v).2.2 then
        progErr (writeEffects a v (rdS s a) (stored s a (fieldsWritten r s a v)))
          (regSource (writeEffects a v (rdS s a) (stored s a (fieldsWritten r s a v))) a)
      else writeEffects a v (rdS s a) (stored s a (fieldsWritten r s a v)) := by
  simp only [tableReg, Bool.and_eq_true, decide_eq_true_eq, List.all_eq_true, Option.isNone_iff_eq_none] at ht
  obtain ⟨⟨hc, ha⟩, hk⟩ := ht
  rw [regStore, if_neg (inSafety_stands hs), hw, if_neg (by simp), crossCheck_other hc ha]
  dsimp only
  rw [satKeys_other hk]
  rfl

theorem regStore_plain (hp : plainReg a = true) (hs : inSafety a = false ∨ s.safety.vddSafe = true) :
    regStore r a v s = if (fieldsWritten r s a v).2.2 then
        progErr (writeEffects a v (rdS s a) (stored s a (fieldsWritten r s a v)))
          (regSource (writeEffects a v (rdS s a) (stored s a (fieldsWritten r s a v))) a)
      else writeEffects a v (rdS s a) (stored s a (fieldsWritten r s a v)) := by
  rw [plainReg, Bool.and_eq_true, decide_eq_true_eq] at hp
  exact regStore_table hp.2 (refusedWhole_other hp.1) hs

/-- A full write to a register that the host reaches. -/
theorem hostStore_reached (h : s.hostReaches a = true) (hr : findRow a = some r) : hostStore a 15 v s = regStore r a v s := by
  simp only [State.hostReaches, Bool.and_eq_true, Bool.not_eq_true', Bool.and_eq_false_iff, decide_eq_false_iff_not] at h
  obtain ⟨⟨⟨h1, -⟩, h3⟩, h4⟩ := h
  rw [hostStore, h1, if_neg (by simp), if_neg (by omega), hr]
  dsimp only
  rw [h4, if_neg (by simp), if_neg (by decide)]

/-! ## Registers that store nothing -/

/-- A field that a write leaves as it stands and does not refuse. -/
def unstored (f : Fld) : Bool := f.acc == .ro || f.acc == .rc || f.acc == .own || (f.acc == .wo && f.ok.isEmpty)

theorem fldWrite_unstored {f : Fld} (h : unstored f = true) (x : Nat × Nat × Bool) : fldWrite v x f = x := by
  obtain ⟨hi, lo, acc, ok⟩ := f
  cases acc <;> simp_all [unstored, fldWrite, legal]

theorem fieldsWritten_unstored (h : r.fields.all unstored = true) : fieldsWritten r s a v = (rdS s a, rd s a, false) := by
  have hf : ∀ (l : List Fld) (x : Nat × Nat × Bool), (∀ f ∈ l, unstored f = true) → l.foldl (fldWrite v) x = x := fun l => by
    induction l with
    | nil => exact fun x _ => rfl
    | cons f t ih =>
      intro x hl
      rw [List.foldl_cons, fldWrite_unstored (hl f List.mem_cons_self), ih x (fun g hg => hl g (List.mem_cons_of_mem _ hg))]
  exact hf _ _ (List.all_eq_true.1 h)

/-- A register whose fields store nothing and which has no rule beyond its effect. -/
def commandReg (a : Nat) : Bool :=
  plainReg a && match findRow a with
    | some r => r.fields.all unstored
    | none => false

/-- A full write to such a register: its effects alone. -/
theorem hostStore_command (h : s.hostReaches a = true) (hc : commandReg a = true)
    (hs : inSafety a = false ∨ s.safety.vddSafe = true) :
    hostStore a 15 v s = writeEffects a v (rdS s a) (stored s a (rdS s a, rd s a, false)) := by
  rw [commandReg, Bool.and_eq_true] at hc
  obtain ⟨hp, hf⟩ := hc
  cases hr : findRow a with
  | none => rw [hr] at hf; cases hf
  | some r =>
    rw [hr] at hf
    rw [hostStore_reached h hr, regStore_plain hp hs, fieldsWritten_unstored hf, if_neg (by simp)]

/-- The effects of a register of the line, time and control blocks, of a traffic block, and of the host side. -/
theorem writeEffects_line {old : Nat} (ht : trafficQuiet a = true) (hh : hostQuiet a = true) : writeEffects a v old s = lineEffect a v old s := by
  rw [writeEffects, trafficEffect_other ht, hostEffect_other hh]

theorem writeEffects_traffic {old : Nat} (hl : a ∉ lineRegs) (hh : hostQuiet a = true) : writeEffects a v old s = trafficEffect a v s := by
  rw [writeEffects, lineEffect_other hl, hostEffect_other hh]

theorem writeEffects_host {old : Nat} (hl : a ∉ lineRegs) (ht : trafficQuiet a = true) : writeEffects a v old s = hostEffect a v s := by
  rw [writeEffects, lineEffect_other hl, trafficEffect_other ht]

theorem writeEffects_none {old : Nat} (hl : a ∉ lineRegs) (ht : trafficQuiet a = true) (hh : hostQuiet a = true) :
    writeEffects a v old s = s := by
  rw [writeEffects_host hl ht, hostEffect_other hh]

/-! ## Reading what was stored -/

theorem stored_kept (x : Nat × Nat × Bool) : Kept 8 s (stored s a x) :=
  force_kept (stage_kept (.refl 8 s) (.refl 8)) (.refl 8)

theorem stored_inv (h : s.inv) (x : Nat × Nat × Bool) : (stored s a x).inv := (stored_kept x).inv h

theorem rd_stored_same (h : s.inv) (x : Nat × Nat × Bool) : rd (stored s a x) a = x.2.1 % 2 ^ 32 := by
  simp [stored, rd, force, stage, sget_sput_same (inv_cur h)]

theorem rd_stored_other (h : s.inv) {b : Nat} (hab : a ≠ b) (x : Nat × Nat × Bool) : rd (stored s a x) b = rd s b := by
  simp [stored, rd, force, stage, sget_sput_other _ _ (inv_cur h) hab]

theorem rdS_stored_same (h : s.inv) (x : Nat × Nat × Bool) : rdS (stored s a x) a = x.1 % 2 ^ 32 := by
  simp [stored, rdS, force, stage, sget_sput_same (inv_stg h)]

theorem rdS_stored_other (h : s.inv) {b : Nat} (hab : a ≠ b) (x : Nat × Nat × Bool) : rdS (stored s a x) b = rdS s b := by
  simp [stored, rdS, force, stage, sget_sput_other _ _ (inv_stg h) hab]

/-- Storing what stands leaves both copies as they read. -/
theorem rd_stored_self (h : s.inv) (b : Nat) : rd (stored s a (rdS s a, rd s a, false)) b = rd s b := by
  by_cases hab : a = b
  · subst hab
    rw [rd_stored_same h]
    exact Nat.mod_eq_of_lt (BitVec.isLt _)
  · exact rd_stored_other h hab _

theorem rdS_stored_self (h : s.inv) (b : Nat) : rdS (stored s a (rdS s a, rd s a, false)) b = rdS s b := by
  by_cases hab : a = b
  · subst hab
    rw [rdS_stored_same h]
    exact Nat.mod_eq_of_lt (rdS_lt _ _)
  · exact rdS_stored_other h hab _

/-! ## Fields of a stored word, and runs of registers -/

/-- The field that was put into a word. -/
theorem bits_insBits {x hi lo w : Nat} (hl : lo ≤ hi) (hh : hi < 32) : bits (insBits x hi lo w % 2 ^ 32) hi lo = w % 2 ^ (hi + 1 - lo) := by
  apply Nat.eq_of_testBit_eq
  intro n
  rw [bits_testBit, Nat.testBit_mod_two_pow, Nat.testBit_mod_two_pow, insBits_testBit hl]
  by_cases hn : n < hi + 1 - lo
  · rw [if_pos ⟨by omega, by omega⟩]
    simp [hn, show lo + n < 32 by omega]
  · simp [hn]

theorem bits_lt (x hi lo : Nat) : bits x hi lo < 2 ^ (hi + 1 - lo) := Nat.mod_lt _ (Nat.two_pow_pos _)

theorem forUpTo_succ (n : Nat) (f : Nat → State → State) : forUpTo (n + 1) s f = f n (forUpTo n s f) := by
  simp [forUpTo, List.range_succ]

/-- Registers written one after the other read as written. -/
theorem rd_forUpTo_setReg {f : Nat → Nat} (hf : ∀ i j, f i = f j → i = j) (w : Nat → Nat) (hs : s.inv) (n : Nat) :
    (forUpTo n s (fun k s => setReg s (f k) (w k))).inv ∧
      ∀ j < n, rd (forUpTo n s (fun k s => setReg s (f k) (w k))) (f j) = w j % 2 ^ 32 ∧
        rdS (forUpTo n s (fun k s => setReg s (f k) (w k))) (f j) = w j % 2 ^ 32 := by
  induction n with
  | zero => exact ⟨hs, fun j hj => absurd hj (Nat.not_lt_zero j)⟩
  | succ n ih =>
    obtain ⟨hi, hr⟩ := ih
    rw [forUpTo_succ]
    refine ⟨setReg_inv hi _ _, fun j hj => ?_⟩
    by_cases hjn : j = n
    · subst hjn
      exact ⟨rd_setReg_same hi _ _, rdS_setReg_same hi _ _⟩
    · have hne : f n ≠ f j := fun h => hjn (hf _ _ h).symm
      rw [rd_setReg_other hi hne, rdS_setReg_other hi hne]
      exact hr j (by omega)

end

end Sys2Proof.Machine
end

