-- ==== Sys2Proof/Proofs/PartFrames.lean ====
section
/-! SUPPORT. Proofs/PartFrames.lean: two frames finer than the parts of Laws/Kept.lean: operations that change counters of some groups alone,
and operations that change nothing of Selvedge but the reports that wait. -/

namespace Sys2Proof.Machine

open Sys2Proof

/-! ## Counters of some groups -/

/-- Every counter outside the groups `gs` stands as before. -/
def CntsIn (gs : List Nat) (s t : State) : Prop :=
  s.inv → t.inv ∧ ∀ k, k / 0x100000 ∉ gs → sget 0 t.cnt k = sget 0 s.cnt k

section
variable {gs : List Nat} {s t u : State}

theorem CntsIn.refl (gs : List Nat) (s : State) : CntsIn gs s s := fun h => ⟨h, fun _ _ => rfl⟩

theorem CntsIn.trans (h : CntsIn gs s t) (h' : CntsIn gs t u) : CntsIn gs s u := fun hs => by
  obtain ⟨ht, h1⟩ := h hs
  obtain ⟨hu, h2⟩ := h' ht
  exact ⟨hu, fun k hk => (h2 k hk).trans (h1 k hk)⟩

theorem CntsIn.of_kept {n : Nat} (h : Kept n s t) (hn : n.testBit 4 = false) : CntsIn gs s t :=
  fun hs => ⟨h.inv hs, fun k _ => by rw [h.cnt_eq hn]⟩

theorem CntsIn.inv (h : CntsIn gs s t) (hs : s.inv) : t.inv := (h hs).1

/-- A counter of another group reads as before. -/
theorem CntsIn.cntVal (h : CntsIn gs s t) (hs : s.inv) {g n : Nat} (hg : g ∉ gs) (hn : n < 0x100000) : cntVal t g n = cntVal s g n := by
  refine (h hs).2 (cntKey g n) ?_
  rwa [show cntKey g n / 0x100000 = g by unfold cntKey; omega]

theorem cntsIn_countBy {g n : Nat} (hg : g ∈ gs) (hn : n < 0x100000) (k : Nat) : CntsIn gs s (countBy s g n k) := fun hs => by
  refine ⟨countBy_inv hs g n k, fun key hkey => ?_⟩
  have hne : cntKey g n ≠ key := fun he => hkey (by rw [← he, show cntKey g n / 0x100000 = g by unfold cntKey; omega]; exact hg)
  unfold countBy countKey
  dsimp only
  split
  · exact sget_sput_other _ _ (inv_cnt hs) hne _
  · change sget 0 (sput 0 s.cnt (cntKey g n) cntMax) key = _
    exact sget_sput_other _ _ (inv_cnt hs) hne _

theorem cntsIn_count {g n : Nat} (hg : g ∈ gs) (hn : n < 0x100000) : CntsIn gs s (count s g n) := cntsIn_countBy hg hn 1

theorem CntsIn.mono {gs' : List Nat} (h : CntsIn gs s t) (hg : gs ⊆ gs') : CntsIn gs' s t := fun hs =>
  ⟨(h hs).1, fun k hk => (h hs).2 k (fun hm => hk (hg hm))⟩

theorem CntsIn.foldl {α : Type} {f : State → α → State} (hf : ∀ u x, CntsIn gs u (f u x)) (l : List α) : CntsIn gs s (l.foldl f s) := by
  induction l generalizing s with
  | nil => exact .refl gs s
  | cons x t ih => exact (hf s x).trans ih

end

/-! ## Some registers -/

/-- Every register outside `as` reads as before, staged and in force. -/
def RegsIn (as : List Nat) (s t : State) : Prop :=
  s.inv → t.inv ∧ ∀ a, a ∉ as → rd t a = rd s a ∧ rdS t a = rdS s a

section
variable {as : List Nat} {s t u : State}

theorem RegsIn.refl (as : List Nat) (s : State) : RegsIn as s s := fun h => ⟨h, fun _ _ => ⟨rfl, rfl⟩⟩

theorem RegsIn.trans (h : RegsIn as s t) (h' : RegsIn as t u) : RegsIn as s u := fun hs => by
  obtain ⟨ht, h1⟩ := h hs
  obtain ⟨hu, h2⟩ := h' ht
  exact ⟨hu, fun a ha => ⟨(h2 a ha).1.trans (h1 a ha).1, (h2 a ha).2.trans (h1 a ha).2⟩⟩

theorem RegsIn.of_kept {n : Nat} (h : Kept n s t) (hn : n.testBit 3 = false) : RegsIn as s t :=
  fun hs => ⟨h.inv hs, fun a _ => ⟨by rw [rd, rd, h.cur_eq hn], by rw [rdS, rdS, h.stg_eq hn]⟩⟩

theorem RegsIn.inv (h : RegsIn as s t) (hs : s.inv) : t.inv := (h hs).1
theorem RegsIn.rd (h : RegsIn as s t) (hs : s.inv) {a : Nat} (ha : a ∉ as) : rd t a = rd s a := ((h hs).2 a ha).1
theorem RegsIn.rdS (h : RegsIn as s t) (hs : s.inv) {a : Nat} (ha : a ∉ as) : rdS t a = rdS s a := ((h hs).2 a ha).2
theorem RegsIn.fld (h : RegsIn as s t) (hs : s.inv) {a : Nat} (ha : a ∉ as) (hi lo : Nat) : fld t a hi lo = fld s a hi lo := by
  rw [Machine.fld, h.rd hs ha, ← Machine.fld]
theorem RegsIn.flag (h : RegsIn as s t) (hs : s.inv) {a : Nat} (ha : a ∉ as) (n : Nat) : flag t a n = flag s a n := by
  rw [Machine.flag, h.rd hs ha, ← Machine.flag]

theorem regsIn_setReg {a : Nat} (ha : a ∈ as) (v : Nat) : RegsIn as s (setReg s a v) := fun hs =>
  ⟨setReg_inv hs a v, fun b hb => by
    have hab : a ≠ b := fun h => hb (h ▸ ha)
    exact ⟨rd_setReg_other hs hab v, rdS_setReg_other hs hab v⟩⟩

theorem regsIn_setFld {a : Nat} (ha : a ∈ as) (hi lo v : Nat) : RegsIn as s (setFld s a hi lo v) := fun hs =>
  ⟨setFld_inv hs a hi lo v, fun b hb => by
    have hab : a ≠ b := fun h => hb (h ▸ ha)
    exact ⟨rd_setFld_other hs hab hi lo v, rdS_setFld_other hs hab hi lo v⟩⟩

theorem regsIn_setBit {a : Nat} (ha : a ∈ as) (n : Nat) : RegsIn as s (setBit s a n) := regsIn_setFld ha n n 1

theorem regsIn_count (g n : Nat) : RegsIn as s (count s g n) := .of_kept (count_kept (.refl 16 s) (.refl _)) rfl

theorem RegsIn.foldl {α : Type} {f : State → α → State} (hf : ∀ u x, RegsIn as u (f u x)) (l : List α) : RegsIn as s (l.foldl f s) := by
  induction l generalizing s with
  | nil => exact .refl as s
  | cons x t ih => exact (hf s x).trans ih

/-- A notification may set NOTIFY_LOST, a report LOST. -/
theorem regsIn_notifyReg (h : Reg.hostStat ∈ as) (a lo sub p : Nat) : RegsIn as s (notifyReg s a lo sub p) := by
  have hdrop : ∀ c m, RegsIn as s (notifyDrop s c m) := fun c m => by
    have h1 := (regsIn_count (as := as) (s := s) 14 14).trans (regsIn_setBit h 9)
    rw [notifyDrop]
    split
    · exact h1.trans (.of_kept (setRing_kept (.refl _ _) (.refl _)) rfl)
    · exact h1
  rw [notifyReg]
  split
  · rw [notify]
    split
    · exact hdrop _ _
    · split
      · exact .of_kept (cqWrite_kept (.refl _ s) (.refl _)) rfl
      · exact hdrop _ _
  · exact .refl _ s

theorem regsIn_arrive (h : Reg.selvedgeStat ∈ as) (r : Report) : RegsIn as s (arrive s r) := by
  rw [arrive]
  split
  · exact fun hs => ⟨hs, fun _ _ => ⟨rfl, rfl⟩⟩
  · exact (regsIn_count 17 7).trans (regsIn_setBit h 1)

theorem regsIn_raiseEv (h : Reg.selvedgeStat ∈ as) (src code ctx : Nat) : RegsIn as s (raiseEv s src code ctx) := regsIn_arrive h _

theorem regsIn_raiseFree (h : Reg.selvedgeStat ∈ as) (src code : Nat) : RegsIn as s (raiseFree s src code) := fun hs =>
  regsIn_raiseEv (s := (draw s).2) h src code _ hs

end

section
variable {gs : List Nat} {s : State}

/-! ## Notifications count in group 14, lost reports in group 17 -/

theorem sendMsix_cnts (h : 14 ∈ gs) (v : Nat) : CntsIn gs s (sendMsix s v) := by
  rw [sendMsix]
  split
  · exact .refl _ s
  · split
    · split
      · exact .refl _ s
      · exact fun h => ⟨h, fun _ _ => rfl⟩
    · exact .trans (.of_kept (emit_kept (.refl 128 s) (.refl _)) rfl) (cntsIn_count h (by decide))

theorem signalCq_cnts (h : 14 ∈ gs) (c : Nat) : CntsIn gs s (signalCq s c) := by
  rw [signalCq]
  split
  · exact .trans (.of_kept (setRing_kept (.refl _ s) (.refl _)) rfl) (sendMsix_cnts h _)
  · exact .refl _ s

theorem cqWrite_cnts (h : 14 ∈ gs) (c : Nat) (e : Completion) : CntsIn gs s (cqWrite s c e) :=
  .trans (.trans (.of_kept (emit_kept (.refl 128 s) (.refl _)) rfl) (.of_kept (setRing_kept (.refl _ _) (.refl _)) rfl)) (signalCq_cnts h c)

theorem notifyDrop_cnts (h : 14 ∈ gs) (c : Nat) (m : Bool) : CntsIn gs s (notifyDrop s c m) := by
  have h1 : CntsIn gs s (setBit (count s 14 14) Reg.hostStat 9) :=
    .trans (cntsIn_count h (by decide)) (.of_kept (setBit_kept (.refl _ _) (.refl _)) rfl)
  rw [notifyDrop]
  split
  · exact h1.trans (.of_kept (setRing_kept (.refl _ _) (.refl _)) rfl)
  · exact h1

theorem notifyReg_cnts (h : 14 ∈ gs) (a lo sub p : Nat) : CntsIn gs s (notifyReg s a lo sub p) := by
  rw [notifyReg]
  split
  · rw [notify]
    split
    · exact notifyDrop_cnts h _ _
    · split
      · exact cqWrite_cnts h _ _
      · exact notifyDrop_cnts h _ _
  · exact .refl _ s

/-- A report that is lost counts at 7 of group 17. -/
theorem cntVal_arrive (hs : s.inv) (r : Report) {g n : Nat} (h : cntKey 17 7 ≠ cntKey g n) : cntVal (arrive s r) g n = cntVal s g n := by
  rw [arrive]
  split
  · rfl
  · rw [← cntVal_countBy_other hs h 1, cntVal, cntVal, setBit, setFld_cnt, count]

theorem cntVal_raiseFree (hs : s.inv) (src code : Nat) {g n : Nat} (h : cntKey 17 7 ≠ cntKey g n) :
    cntVal (raiseFree s src code) g n = cntVal s g n := cntVal_arrive (s := (draw s).2) hs _ h

end

/-! ## Reports that wait -/

/-- Of Selvedge, only the reports that wait may differ. -/
def OnlyWaits (s t : State) : Prop := t.selvedge = { s.selvedge with waiting := t.selvedge.waiting }

section
variable {s t u : State}

theorem OnlyWaits.refl (s : State) : OnlyWaits s s := rfl

theorem OnlyWaits.of_eq (h : t.selvedge = s.selvedge) : OnlyWaits s t := by
  rw [OnlyWaits, h]

theorem OnlyWaits.of_kept {n : Nat} (h : Kept n s t) (hn : n.testBit 11 = false) : OnlyWaits s t := .of_eq (h.selvedge_eq hn)

theorem OnlyWaits.trans (h : OnlyWaits s t) (h' : OnlyWaits t u) : OnlyWaits s u := by
  rw [OnlyWaits] at h h' ⊢
  rw [h', h]

theorem OnlyWaits.ite {c : Prop} [Decidable c] (h : OnlyWaits s t) (h' : OnlyWaits s u) : OnlyWaits s (if c then t else u) := by
  split
  · exact h
  · exact h'

theorem OnlyWaits.foldl {α : Type} {f : State → α → State} (hf : ∀ u x, OnlyWaits u (f u x)) (l : List α) : OnlyWaits s (l.foldl f s) := by
  induction l generalizing s with
  | nil => exact .refl s
  | cons x t ih => exact (hf s x).trans ih

theorem OnlyWaits.units (h : OnlyWaits s t) : t.selvedge.units = s.selvedge.units := by rw [h]
theorem OnlyWaits.unitAt (h : OnlyWaits s t) (c : Nat) : unitAt t c = unitAt s c := by rw [Machine.unitAt, h.units]; rfl
theorem OnlyWaits.fatal (h : OnlyWaits s t) : t.selvedge.fatal = s.selvedge.fatal := by rw [h]

theorem arrive_onlyWaits (s : State) (r : Report) : OnlyWaits s (arrive s r) := by
  rw [arrive]
  split
  · rfl
  · exact .of_eq (by simp)

theorem raiseEv_onlyWaits (s : State) (src code ctx : Nat) : OnlyWaits s (raiseEv s src code ctx) := arrive_onlyWaits s _

theorem raiseFree_onlyWaits (s : State) (src code : Nat) : OnlyWaits s (raiseFree s src code) := raiseEv_onlyWaits (draw s).2 src code _

theorem progErr_onlyWaits (s : State) (src : Nat) : OnlyWaits s (progErr s src) := raiseFree_onlyWaits s src 1

/-! ### Descriptor rings -/

theorem dmaErr_onlyWaits (s : State) : OnlyWaits s (dmaErr s) :=
  .trans (.of_eq (by simp [emit])) (raiseFree_onlyWaits _ _ _)

theorem endDesc_onlyWaits (s : State) (r f l st : Nat) : OnlyWaits s (endDesc s r f l st) := .of_kept (endDesc_kept (.refl _ s) (.refl _)) rfl
theorem endShuttle_onlyWaits (s : State) (r i w st : Nat) : OnlyWaits s (endShuttle s r i w st) :=
  .of_kept (endShuttle_kept (.refl _ s) (.refl _)) rfl
theorem startFetch_onlyWaits (s : State) (r : Nat) : OnlyWaits s (startFetch s r) := .of_kept (startFetch_kept (.refl _ s) (.refl _)) rfl
theorem setRing_onlyWaits (s : State) (r : Nat) (x : Ring) : OnlyWaits s (setRing s r x) := .refl s

theorem stallRing_onlyWaits (s : State) (r : Nat) : OnlyWaits s (stallRing s r) := by
  rw [stallRing]
  refine .trans (.trans (.of_eq ?_) (raiseEv_onlyWaits _ 0x1E 0x050 (r * 2 ^ 16 + (ringAt s r).next))) (.ite ?_ (.refl _))
  · split <;> simp
  · exact .of_kept (notify_kept (.refl _ _) (.refl _)) rfl

theorem failDesc_onlyWaits (s : State) (r i : Nat) : OnlyWaits s (failDesc s r i) := by
  refine (dmaErr_onlyWaits s).trans ?_
  rw [failDesc]
  generalize dmaErr s = u
  refine .ite ?_ (.ite (endShuttle_onlyWaits u _ _ _ _) (endDesc_onlyWaits u _ _ _ _))
  exact .trans (setRing_onlyWaits u r _) (endDesc_onlyWaits _ _ _ _ _)

theorem dispatch_onlyWaits (s : State) (r i w : Nat) (d : DescIn) : OnlyWaits s (dispatch s r i w d) := by
  rw [dispatch]
  split
  case h_1 =>
    refine .trans (.trans (.ite (.of_kept (emitReads_kept (.refl _ s) (.refl _)) rfl) (.refl s)) (.ite (dmaErr_onlyWaits _) (.refl _))) (.of_eq rfl)
  case h_2 => exact .ite (.refl s) (endDesc_onlyWaits _ _ _ _ _)
  all_goals exact .refl s

theorem processRing_onlyWaits (s : State) (r : Nat) : OnlyWaits s (processRing s r) := by
  rw [processRing]
  split
  · exact startFetch_onlyWaits s r
  · refine .ite (.refl s) ?_
    split
    · exact .trans (failDesc_onlyWaits (setRing s r _) _ _) (startFetch_onlyWaits _ r)
    · exact .ite (.ite (stallRing_onlyWaits (setRing s r _) r) (.refl s)) (.trans (dispatch_onlyWaits (setRing s r _) _ _ _ _) (startFetch_onlyWaits _ r))

theorem resumeRings_onlyWaits (s : State) (p : Ring → Bool) : OnlyWaits s (resumeRings s p) :=
  .foldl (fun u r => .ite (processRing_onlyWaits u r) (.refl u)) _

theorem hostResume_onlyWaits (s : State) : OnlyWaits s (hostResume s) :=
  .trans (.of_kept (issueFetches_kept (.refl _ s) (.refl _)) rfl) (resumeRings_onlyWaits _ _)

end

end Sys2Proof.Machine
end

