-- ==== Sys2Proof/Proofs/Reports.lean ====
section
/-! SUPPORT. Proofs/Reports.lean: Selvedge takes a report, closes storms, lets units return and restart, clears PEND and copies the history
(R439 to R447). -/

namespace Sys2Proof.Machine

open Sys2Proof

section
variable {s : State} {r : Report}

/-! ## A report enters the history (R440, R442) -/

/-- The entry that a report opens. -/
def histEntry (s : State) (r : Report) : HistEntry :=
  { pick := s.pick.count, count := 0, cls := r.cls, isOpen := true, source := r.source, code := r.code, ctx := r.ctx
    sources := 2 ^ r.source, rootSource := r.rootSource, rootCode := r.rootCode, seq := s.selvedge.seq, first := s.now }

/-- A new entry is counted, and so is the one that it pushes out. -/
def histCounted (s : State) : State :=
  if s.selvedge.hist.length < 32 then count s 17 5 else setBit (count (count s 17 5) 17 6) Reg.selvedgeStat 0

/-- The report stands in the history; its notification is still to come. -/
def histEntered (s : State) (r : Report) : State :=
  setSelvedge (histCounted s) { s.selvedge with hist := (histEntry s r :: s.selvedge.hist).take 32, seq := (s.selvedge.seq + 1) % 2 ^ 32 }

theorem histAdd_opens (hco : s.selvedge.hist.any (coalesces s r) = false) (hcls : r.cls ≠ 1 ∨ flag s Reg.selvedgeCtrl 0 = true) :
    histAdd s r = if r.cls = 1 then histEntered s r else selvNotify (histEntered s r) 0x48
      (r.cls + r.source * 2 ^ 8 + r.code * 2 ^ 16 + r.ctx % 2 ^ 32 * 2 ^ 32 + (histEntry s r).seq * 2 ^ 64) := by
  have hc : ¬ (r.cls = 1 ∧ flag s Reg.selvedgeCtrl 0 = false) := by
    rintro ⟨h1, h2⟩
    rcases hcls with h | h
    · exact h h1
    · rw [h] at h2; cases h2
  rw [histAdd, hco, if_neg (by simp), if_neg hc]
  rfl

theorem histEntered_selvedge : (histEntered s r).selvedge =
    { s.selvedge with hist := (histEntry s r :: s.selvedge.hist).take 32, seq := (s.selvedge.seq + 1) % 2 ^ 32 } := rfl

theorem selvNotify_selvedge (sub p : Nat) : (selvNotify s sub p).selvedge = s.selvedge :=
  (selvNotify_kept (.refl _ s) (.refl _)).selvedge_eq rfl

theorem histAdd_selvedge (hco : s.selvedge.hist.any (coalesces s r) = false) (hcls : r.cls ≠ 1 ∨ flag s Reg.selvedgeCtrl 0 = true) :
    (histAdd s r).selvedge =
      { s.selvedge with hist := (histEntry s r :: s.selvedge.hist).take 32, seq := (s.selvedge.seq + 1) % 2 ^ 32 } := by
  rw [histAdd_opens hco hcls]
  split
  · exact histEntered_selvedge
  · rw [selvNotify_selvedge, histEntered_selvedge]

theorem setSelvedge_inv (hs : s.inv) (x : Selvedge) : (setSelvedge s x).inv := hs

theorem histCounted_cnt (hs : s.inv) : (histCounted s).inv ∧ cntVal (histCounted s) 17 0 = cntVal s 17 0 := by
  have h5 := count_inv hs 17 5
  have e5 : cntVal (count s 17 5) 17 0 = cntVal s 17 0 := cntVal_countBy_other hs (by decide) 1
  rw [histCounted]
  split
  · exact ⟨h5, e5⟩
  · have e6 : cntVal (count (count s 17 5) 17 6) 17 0 = cntVal (count s 17 5) 17 0 := cntVal_countBy_other h5 (by decide) 1
    refine ⟨setFld_inv (count_inv h5 17 6) _ _ _ _, ?_⟩
    rw [← e5, ← e6, cntVal, cntVal, setBit, setFld_cnt]

theorem histEntered_cnt (hs : s.inv) : (histEntered s r).inv ∧ cntVal (histEntered s r) 17 0 = cntVal s 17 0 := histCounted_cnt hs

theorem histAdd_cnt (hs : s.inv) (hco : s.selvedge.hist.any (coalesces s r) = false) (hcls : r.cls ≠ 1 ∨ flag s Reg.selvedgeCtrl 0 = true) :
    cntVal (histAdd s r) 17 0 = cntVal s 17 0 := by
  obtain ⟨hi, hc⟩ := histEntered_cnt (r := r) hs
  rw [histAdd_opens hco hcls]
  split
  · exact hc
  · exact ((notifyReg_cnts (gs := [14]) (by simp) _ _ _ _).cntVal hi (by decide) (by decide)).trans hc

theorem histAdd_safety : (histAdd s r).safety = s.safety := (histAdd_kept (.refl _ s) (.refl _)).safety_eq rfl

/-! ## Selvedge takes a report (R439) -/

/-- The report has been taken from those that wait. -/
def reportOff (s : State) (r : Report) : State :=
  setSelvedge s { s.selvedge with waiting := s.selvedge.waiting.erase r, rr := r.source }

/-- The report has been taken and counted. -/
def reportTaken (s : State) (r : Report) : State := count (count (reportOff s r) 17 0) 17 r.cls

theorem reportTaken_selvedge : (reportTaken s r).selvedge = { s.selvedge with waiting := s.selvedge.waiting.erase r, rr := r.source } := by
  simp [reportTaken, reportOff, setSelvedge]

theorem reportTaken_coalesces (e : HistEntry) : coalesces (reportTaken s r) r e = coalesces s r e := by
  simp [coalesces, reportTaken, reportOff, setSelvedge]

theorem reportTaken_flag (a n : Nat) : flag (reportTaken s r) a n = flag s a n := by
  simp [flag, rd, reportTaken, reportOff, setSelvedge]

theorem reportTaken_cnt (hs : s.inv) (hcls : r.cls = 1 ∨ r.cls = 2) :
    (reportTaken s r).inv ∧ cntVal (reportTaken s r) 17 0 = min cntMax (cntVal s 17 0 + 1) := by
  have hoff : (reportOff s r).inv := setSelvedge_inv hs _
  have h0 := count_inv hoff 17 0
  refine ⟨count_inv h0 17 r.cls, ?_⟩
  rw [reportTaken, count, cntVal_countBy_other h0 (by rcases hcls with h | h <;> rw [h] <;> decide)]
  exact cntVal_countBy_same hoff 17 0 1

/-- A report of class 1 leaves PEND; one of class 2 sets its source's bit. -/
theorem recordReport_cls1 (h : r.cls = 1) : recordReport s r = histAdd (count (count s 17 0) 17 r.cls) r := by
  rw [recordReport, if_neg (by omega), if_neg (by omega)]

theorem recordReport_cls2 (h : r.cls = 2) : ∃ u, let t := histAdd (count (count s 17 0) 17 r.cls) r
    recordReport s r = setUnit (setSelvedge t { t.selvedge with pend := t.selvedge.pend ||| 2 ^ r.source }) r.source u := by
  rw [recordReport, if_pos h, if_neg (by omega)]
  exact ⟨_, rfl⟩

theorem takeReport_next (h : nextReport s.selvedge = some r) : takeReport s = recordReport (reportOff s r) r := by
  rw [takeReport, h]
  rfl

/-! ## Storms (R443) -/

theorem foldl_selvedge {α : Type} {f : State → α → State} (hf : ∀ u x, (f u x).selvedge = u.selvedge) (l : List α) (u : State) :
    (l.foldl f u).selvedge = u.selvedge := by
  induction l generalizing u with
  | nil => rfl
  | cons x t ih => rw [List.foldl_cons, ih, hf]

theorem stormClose_selvedge : ∃ t, exec .stormClose s = .next t ∧
    t.selvedge = { s.selvedge with hist := s.selvedge.hist.map (fun e => if stormDue s e then { e with isOpen := false } else e) } := by
  refine ⟨_, rfl, (foldl_selvedge (fun u x => ?_) _ _).trans rfl⟩
  split
  · rfl
  · exact selvNotify_selvedge _ _

/-! ## Units return (R445) -/

/-- A write keeps the indices of a table rising, whatever it writes. -/
theorem srising_sput {α : Type} [DecidableEq α] {d : α} {m : Sparse α} (h : srising 0 m = true) (i : Nat) (v : α) :
    srising 0 (sput d m i v) = true := by
  rw [sput]
  split
  · exact srising_sdel h i
  · exact srising_sins h (Nat.zero_le i) v

theorem unitAt_setUnit_same (h : srising 0 s.selvedge.units = true) (c : Nat) (u : UnitInfo) : unitAt (setUnit s c u) c = u :=
  sget_sput_same h c u

theorem unitAt_setUnit_other (h : srising 0 s.selvedge.units = true) {b c : Nat} (hbc : b ≠ c) (u : UnitInfo) :
    unitAt (setUnit s b u) c = unitAt s c := sget_sput_other _ _ h hbc u

theorem recoverEnd_onlyWaits (src : Nat) : OnlyWaits s (recoverEnd src s) :=
  .ite (hostResume_onlyWaits s) (.ite (.of_kept (skeinResume_kept (.refl _ s) (.refl _)) rfl) (.refl s))

theorem recoveryEnd_units {src : Nat} (hr : srising 0 s.selvedge.units = true) (hst : (unitAt s src).st = .recovering)
    (hage : 1 ≤ (unitAt s src).age) (hf : s.selvedge.fatal = false) :
    ∃ t, exec (.recoveryEnd src) s = .next t ∧ unitAt t src = { unitAt s src with st := .ok } ∧ ∀ c, c ≠ src → unitAt t c = unitAt s c := by
  have hex : exec (.recoveryEnd src) s =
      .next (selvNotify (recoverEnd src (setUnit s src { unitAt s src with st := .ok })) 0x4A (src + 256)) := by
    rw [exec, execRecoveryEnd, if_pos ⟨hst, hage, hf⟩]
  have hw : OnlyWaits (setUnit s src { unitAt s src with st := .ok })
      (selvNotify (recoverEnd src (setUnit s src { unitAt s src with st := .ok })) 0x4A (src + 256)) :=
    (recoverEnd_onlyWaits src).trans (.of_eq (selvNotify_selvedge _ _))
  refine ⟨_, hex, ?_, fun c hc => ?_⟩
  · rw [hw.unitAt, unitAt_setUnit_same hr]
  · rw [hw.unitAt, unitAt_setUnit_other hr (Ne.symm hc)]

/-! ## Writes of Selvedge's registers -/

theorem stored_selvedge {a : Nat} (x : Nat × Nat × Bool) : (stored s a x).selvedge = s.selvedge := rfl

/-- RESTART runs what it runs on the copies stored. -/
theorem exec_selvedgeRestart (h : s.hostReaches Reg.selvedgeUnitCtrl = true) : ∃ x,
    exec (.selvedgeRestart 15) s = .next (selvRestart (stored s Reg.selvedgeUnitCtrl x)) ∧
      (s.inv → ∀ a, rd (stored s Reg.selvedgeUnitCtrl x) a = rd s a) := by
  refine ⟨(rdS s Reg.selvedgeUnitCtrl, rd s Reg.selvedgeUnitCtrl, false), congrArg Host.Outcome.next ?_, fun hs a => rd_stored_self hs a⟩
  change hostStore Reg.selvedgeUnitCtrl 15 1 s = _
  rw [hostStore_command h (by decide) (.inl (by decide)), writeEffects_host (by decide) (by decide)]
  rfl

theorem setWarp_cnts {gs : List Nat} (x : Warp) : CntsIn gs s (setWarp s x) := fun h => ⟨h, fun _ _ => rfl⟩
theorem setPm_cnts {gs : List Nat} (x : Pm) : CntsIn gs s (setPm s x) := fun h => ⟨h, fun _ _ => rfl⟩

theorem dropContexts_cnts : CntsIn [0, 1] s (dropContexts s) :=
  .trans (setWarp_cnts _) (cntsIn_countBy (by simp) (by decide) _)

theorem headerFail_cnts : CntsIn [0, 1] s (headerFail s) := by
  rw [headerFail]
  have h0 : CntsIn [0, 1] s (count s 0 5) := cntsIn_count (by simp) (by decide)
  have h1 := h0.trans (setPm_cnts { pmEvent (count s 0 5).warp.pm 5 1 with hdr := (pmEvent (count s 0 5).warp.pm 5 1).hdr + 1 })
  have h2 : ∀ u : State, CntsIn [0, 1] u (if domOn u 8 then count u 1 15 else u) := fun u => by
    split
    · exact cntsIn_count (by simp) (by decide)
    · exact .refl _ u
  exact (h1.trans (h2 _)).trans ((setWarp_cnts _).trans dropContexts_cnts)

theorem pickFail_cnts : CntsIn [0, 1] s (pickFail s) := by
  rw [pickFail]
  split
  · exact (setWarp_cnts _).trans headerFail_cnts
  · exact .refl _ s

theorem cancelled_cnts (b : Burst) : CntsIn [0, 1] s (cancelled s b) :=
  .trans (cntsIn_countBy (g := 1) (n := 13) (by simp) (by decide) b.grants.length)
    (fun h => ((CntsIn.of_kept (addRei_kept (.refl _ _) (.refl _)) rfl : CntsIn [0, 1] _ (addRei (countBy s 1 13 b.grants.length) b.rei)) h))

theorem setWeft_cnts {gs : List Nat} (x : Weft) : CntsIn gs s (setWeft s x) := fun h => ⟨h, fun _ _ => rfl⟩

theorem cancelBursts_cnts : CntsIn [0, 1] s (cancelBursts s) :=
  (setWeft_cnts _).trans (.foldl (fun _ b => cancelled_cnts b) _)

theorem endBursts_cnts {gs : List Nat} : CntsIn gs s (endBursts s) := fun h => ⟨h, fun _ _ => rfl⟩

/-- The recoveries of the sources below 0x0A leave Selvedge alone, and but for PICK's count in the groups of the line. -/
theorem recoverAction_line {src ctx : Nat} (h1 : 1 ≤ src) (h9 : src ≤ 9) :
    (recoverAction src ctx s).selvedge = s.selvedge ∧ (src ≠ 1 → CntsIn [0, 1] s (recoverAction src ctx s)) := by
  rcases (by omega : src = 1 ∨ (2 ≤ src ∧ src ≤ 5) ∨ (src = 6 ∨ src = 7) ∨ src = 8 ∨ src = 9) with rfl | h | h | rfl | rfl
  · refine ⟨?_, fun h => absurd rfl h⟩
    rw [recoverAction, if_pos rfl]
    split
    · exact (sweepAbandon_kept (.refl _ s) (.refl _)).selvedge_eq rfl
    · rfl
  · rw [recoverAction, if_neg (by omega), if_pos h]
    exact ⟨(pickFail_kept (.refl _ s) (.refl _)).selvedge_eq rfl, fun _ => pickFail_cnts⟩
  · rw [recoverAction, if_neg (by omega), if_neg (by omega), if_pos h]
    exact ⟨(endBursts_kept (cancelBursts_kept (.refl 3149840 s) (.of (.refl _) rfl)) (.of (.refl _) rfl)).selvedge_eq rfl,
      fun _ => cancelBursts_cnts.trans endBursts_cnts⟩
  · exact ⟨rfl, fun _ => .refl _ s⟩
  · rw [recoverAction, if_neg (by decide), if_neg (by decide), if_neg (by decide), if_pos rfl]
    have h := setCapFifo_kept (i := 1) (l := []) (setCapFifo_kept (i := 0) (l := []) (.refl 33554440 s) (.refl _)) (.refl _)
    exact ⟨h.selvedge_eq rfl, fun _ => .of_kept h rfl⟩

theorem selvRestart_idle (h : (unitAt s (fld s Reg.selvedgeUnitSel 7 0)).st ≠ .parked) : selvRestart s = s := by
  rw [selvRestart, if_neg (fun hc => h hc.1)]

theorem selvRestart_at_once (hp : (unitAt s (fld s Reg.selvedgeUnitSel 7 0)).st = .parked) (hf : s.selvedge.fatal = false)
    (hl : recoverLimit (fld s Reg.selvedgeUnitSel 7 0) = some 0) :
    selvRestart s = setUnit s (fld s Reg.selvedgeUnitSel 7 0)
      { unitAt s (fld s Reg.selvedgeUnitSel 7 0) with st := .ok, times := [], start := 1 } := by
  rw [selvRestart, if_pos ⟨hp, hf⟩, if_pos hl]

theorem selvRestart_begins (hp : (unitAt s (fld s Reg.selvedgeUnitSel 7 0)).st = .parked) (hf : s.selvedge.fatal = false)
    (hl : recoverLimit (fld s Reg.selvedgeUnitSel 7 0) ≠ some 0) :
    selvRestart s = recoverBegin (fld s Reg.selvedgeUnitSel 7 0) (setUnit s (fld s Reg.selvedgeUnitSel 7 0)
      { unitAt s (fld s Reg.selvedgeUnitSel 7 0) with times := [] }) := by
  rw [selvRestart, if_pos ⟨hp, hf⟩, if_neg hl]

theorem recoverBegin_line {src : Nat} (hr : srising 0 s.selvedge.units = true) (ht : (unitAt s src).times = [])
    (hl : recoverLimit src ≠ some 0) (h1 : 1 ≤ src) (h9 : src ≤ 9) :
    (unitAt (recoverBegin src s) src).st = .recovering ∧ (unitAt (recoverBegin src s) src).times.length = 1 ∧
      (src ≠ 1 → s.inv → cntVal (recoverBegin src s) 17 8 = min cntMax (cntVal s 17 8 + 1)) := by
  rw [recoverBegin, if_neg hl]
  have hr' : srising 0 (count s 17 8).selvedge.units = true := by simpa using hr
  have htimes : recentRecoveries (count s 17 8) (unitAt s src) = [] := by rw [recentRecoveries, ht]; rfl
  rw [htimes]
  obtain ⟨hsel, hcnt⟩ := recoverAction_line (s := setUnit (count s 17 8) src
    { unitAt s src with st := .recovering, age := 0, times := [(count s 17 8).pick.commits] }) (ctx := (unitAt s src).ctx) h1 h9
  have hu := (OnlyWaits.of_eq hsel).unitAt src
  rw [unitAt_setUnit_same hr'] at hu
  rw [hu]
  refine ⟨rfl, rfl, fun hne hs => ?_⟩
  rw [(hcnt hne).cntVal (count_inv hs 17 8) (by decide) (by decide)]
  exact cntVal_countBy_same hs 17 8 1

/-! ## PEND (R444) -/

theorem testBit_sub_bit (x b c : Nat) : (x - (if x.testBit c then 2 ^ c else 0)).testBit b = (x.testBit b && b != c) := by
  have h : x - (if x.testBit c then 2 ^ c else 0) = insBits x c c 0 := by
    have hb : bits x c c = if x.testBit c then 1 else 0 := by
      rw [bits, Nat.testBit, Nat.one_and_eq_mod_two, show c + 1 - c = 1 by omega, Nat.pow_one]
      rcases Nat.mod_two_eq_zero_or_one (x >>> c) with h | h <;> simp [h]
    rw [insBits, hb]
    split <;> simp
  rw [h, insBits_testBit (Nat.le_refl c)]
  by_cases hbc : b = c
  · simp [hbc]
  · rw [if_neg (by omega)]
    simp [hbc]

theorem bitList_bit : ∀ c < 0x29, bitList 0x29 (2 ^ c) = [c] := by decide

theorem pendClear_bit {c : Nat} (hc : c < 0x29) : pendClear (2 ^ c) s =
    if (unitAt s c).st != .ok || (c == 0x26 && s.safety.latch) then setBit s Reg.selvedgeStat 2
    else setUnit (setSelvedge s { s.selvedge with pend := s.selvedge.pend - (if s.selvedge.pend.testBit c then 2 ^ c else 0) }) c
      { unitAt s c with code := 0, ctx := 0 } := by
  rw [pendClear, bitList_bit c hc]
  rfl

/-- A write of PEND clears what it clears on the copies stored. -/
theorem exec_selvedgePendClear_lo {v : Word} (h : s.hostReaches Reg.selvedgePendLo = true) :
    ∃ x, exec (.selvedgePendClear false 15 v) s = .next (pendClear v.toNat (stored s Reg.selvedgePendLo x)) := by
  refine ⟨(rdS s Reg.selvedgePendLo, rd s Reg.selvedgePendLo, false), congrArg Host.Outcome.next ?_⟩
  change hostStore Reg.selvedgePendLo 15 v.toNat s = _
  rw [hostStore_command h (by decide) (.inl (by decide)), writeEffects_host (by decide) (by decide)]
  rfl

theorem exec_selvedgePendClear_hi {v : Word} (h : s.hostReaches Reg.selvedgePendHi = true) :
    ∃ x, exec (.selvedgePendClear true 15 v) s = .next (pendClear (v.toNat % 512 * 2 ^ 32) (stored s Reg.selvedgePendHi x)) := by
  refine ⟨(rdS s Reg.selvedgePendHi, rd s Reg.selvedgePendHi, false), congrArg Host.Outcome.next ?_⟩
  change hostStore Reg.selvedgePendHi 15 v.toNat s = _
  rw [hostStore_command h (by decide) (.inl (by decide)), writeEffects_host (by decide) (by decide)]
  rfl

/-! ## The history window (R441) -/

/-- A write of HIST_SEL copies the entry of its age. -/
theorem exec_selvedgeHistSelWrite {v : Word} (h : s.hostReaches Reg.selvedgeHistSel = true) (hs : s.inv) :
    ∃ x, exec (.selvedgeHistSelWrite 15 v) s = .next (histCopy (stored s Reg.selvedgeHistSel x)) ∧
      fld (stored s Reg.selvedgeHistSel x) Reg.selvedgeHistSel 4 0 = bits v.toNat 4 0 := by
  have hrow : findRow Reg.selvedgeHistSel = some ⟨Reg.selvedgeHistSel, 0, 1, 0, .fixed 3, [⟨4, 0, .imm, []⟩]⟩ := by decide
  have hx : fieldsWritten ⟨Reg.selvedgeHistSel, 0, 1, 0, .fixed 3, [⟨4, 0, .imm, []⟩]⟩ s Reg.selvedgeHistSel v.toNat =
      (insBits (rdS s Reg.selvedgeHistSel) 4 0 (bits v.toNat 4 0), insBits (rd s Reg.selvedgeHistSel) 4 0 (bits v.toNat 4 0), false) := by
    simp [fieldsWritten, fldWrite, legal]
  refine ⟨(insBits (rdS s Reg.selvedgeHistSel) 4 0 (bits v.toNat 4 0), insBits (rd s Reg.selvedgeHistSel) 4 0 (bits v.toNat 4 0), false),
    congrArg Host.Outcome.next ?_, ?_⟩
  rotate_left
  · rw [fld, rd_stored_same hs, bits_insBits (by decide) (by decide)]
    exact Nat.mod_eq_of_lt (bits_lt _ _ _)
  · change hostStore Reg.selvedgeHistSel 15 v.toNat s = _
    rw [hostStore_reached h hrow, regStore_plain (by decide) (.inl (by decide)), hx, if_neg (by simp),
      writeEffects_host (by decide) (by decide)]
    rfl

theorem histCopy_words (hs : s.inv) (k : Nat) (hk : k < 8) : rd (histCopy s) (Reg.selvedgeHistData k) =
    (match s.selvedge.hist[fld s Reg.selvedgeHistSel 4 0]? with
      | some e => histWord e k
      | none => 0) % 2 ^ 32 :=
  ((rd_forUpTo_setReg (f := Reg.selvedgeHistData) (fun i j h => by unfold Reg.selvedgeHistData at h; omega) _ hs 8).2 k hk).1

/-! ## The clauses of O59 -/

theorem faultReport_recorded (hs : s.inv) (hn : nextReport s.selvedge = some r) (hcls : r.cls = 1 ∨ r.cls = 2)
    (hco : s.selvedge.hist.any (coalesces s r) = false) (hrec : r.cls ≠ 1 ∨ flag s Reg.selvedgeCtrl 0 = true) :
    ∃ t, exec (.faultReport none) s = .next t ∧ t.selvedge.waiting = s.selvedge.waiting.erase r ∧ t.selvedge.rr = r.source ∧
      (∃ e, t.selvedge.hist = (e :: s.selvedge.hist).take 32 ∧ e.pick = s.pick.count ∧ e.cls = r.cls ∧ e.source = r.source ∧
        e.code = r.code ∧ e.ctx = r.ctx ∧ e.rootSource = r.rootSource ∧ e.rootCode = r.rootCode ∧ e.isOpen = true ∧ e.count = 0 ∧
        e.seq = s.selvedge.seq) ∧
      cntVal t 17 0 = min cntMax (cntVal s 17 0 + 1) ∧ (r.cls = 2 → t.selvedge.pend = s.selvedge.pend ||| 2 ^ r.source) ∧
      (r.cls = 1 → t.selvedge.pend = s.selvedge.pend) ∧ t.safety = s.safety := by
  have hex : exec (.faultReport none) s = .next (recordReport (reportOff s r) r) := congrArg Host.Outcome.next (takeReport_next hn)
  have hco' : (reportTaken s r).selvedge.hist.any (coalesces (reportTaken s r) r) = false := by
    rw [show coalesces (reportTaken s r) r = coalesces s r from funext reportTaken_coalesces, reportTaken_selvedge]
    exact hco
  have hrec' : r.cls ≠ 1 ∨ flag (reportTaken s r) Reg.selvedgeCtrl 0 = true := by rwa [reportTaken_flag]
  obtain ⟨hinv, hcnt⟩ := reportTaken_cnt hs hcls
  have hsel := histAdd_selvedge hco' hrec'
  rw [reportTaken_selvedge] at hsel
  have hcnt' := (histAdd_cnt hinv hco' hrec').trans hcnt
  have hsafe : (histAdd (reportTaken s r) r).safety = s.safety := histAdd_safety.trans (by simp [reportTaken, reportOff, setSelvedge])
  have hentry : (histEntry (reportTaken s r) r).pick = s.pick.count ∧ (histEntry (reportTaken s r) r).seq = s.selvedge.seq := by
    simp [histEntry, reportTaken, reportOff, setSelvedge]
  rcases hcls with h | h
  · refine ⟨_, hex, ?_⟩
    rw [recordReport_cls1 h, show count (count (reportOff s r) 17 0) 17 r.cls = reportTaken s r from rfl, hsel]
    exact ⟨rfl, rfl, ⟨_, rfl, hentry.1, rfl, rfl, rfl, rfl, rfl, rfl, rfl, rfl, hentry.2⟩, hcnt', fun h2 => by omega, fun _ => rfl, hsafe⟩
  · obtain ⟨u, hu⟩ := recordReport_cls2 (s := reportOff s r) h
    refine ⟨_, hex, ?_⟩
    rw [hu, show count (count (reportOff s r) 17 0) 17 r.cls = reportTaken s r from rfl]
    dsimp only [setUnit, setSelvedge]
    rw [hsel]
    exact ⟨rfl, rfl, ⟨_, rfl, hentry.1, rfl, rfl, rfl, rfl, rfl, rfl, rfl, rfl, hentry.2⟩, hcnt', fun _ => rfl, fun h1 => by omega, hsafe⟩

theorem selvedgeRestart_units (hs : s.inv) (h : s.hostReaches Reg.selvedgeUnitCtrl = true) (hr : srising 0 s.selvedge.units = true)
    (hf : s.selvedge.fatal = false) :
    let src := fld s Reg.selvedgeUnitSel 7 0
    ((unitAt s src).st = .parked → recoverLimit src = some 0 →
      ∃ t, exec (.selvedgeRestart 15) s = .next t ∧ unitAt t src = { unitAt s src with st := .ok, times := [], start := 1 }) ∧
    ((unitAt s src).st = .parked → recoverLimit src = some 1 → src ≤ 0x09 →
      ∃ t, exec (.selvedgeRestart 15) s = .next t ∧ (unitAt t src).st = .recovering ∧ (unitAt t src).times.length = 1 ∧
        (src ≠ 1 → cntVal t 17 8 = min cntMax (cntVal s 17 8 + 1))) ∧
    ((unitAt s src).st ≠ .parked →
      ∃ t, exec (.selvedgeRestart 15) s = .next t ∧ t.selvedge = s.selvedge) := by
  obtain ⟨x, hex, hrd⟩ := exec_selvedgeRestart h
  have hsrc : fld (stored s Reg.selvedgeUnitCtrl x) Reg.selvedgeUnitSel 7 0 = fld s Reg.selvedgeUnitSel 7 0 := by
    rw [fld, hrd hs, ← fld]
  refine ⟨fun hp hl => ⟨_, hex, ?_⟩, fun hp hl h9 => ⟨_, hex, ?_⟩, fun hp => ⟨_, hex, ?_⟩⟩
  · rw [selvRestart_at_once (s := stored s Reg.selvedgeUnitCtrl x) (by rw [hsrc]; exact hp) hf (by rw [hsrc]; exact hl), hsrc]
    exact unitAt_setUnit_same (s := stored s Reg.selvedgeUnitCtrl x) hr _ _
  · have h1 : 1 ≤ fld s Reg.selvedgeUnitSel 7 0 := by
      rcases Nat.eq_zero_or_pos (fld s Reg.selvedgeUnitSel 7 0) with h0 | h0
      · rw [h0] at hl; cases hl
      · exact h0
    have hl0 : recoverLimit (fld s Reg.selvedgeUnitSel 7 0) ≠ some 0 := by rw [hl]; decide
    rw [selvRestart_begins (s := stored s Reg.selvedgeUnitCtrl x) (by rw [hsrc]; exact hp) hf (by rw [hsrc]; exact hl0), hsrc]
    have hset := unitAt_setUnit_same (s := stored s Reg.selvedgeUnitCtrl x) hr (fld s Reg.selvedgeUnitSel 7 0)
      { unitAt s (fld s Reg.selvedgeUnitSel 7 0) with times := [] }
    have hris : srising 0 (setUnit (stored s Reg.selvedgeUnitCtrl x) (fld s Reg.selvedgeUnitSel 7 0)
      { unitAt s (fld s Reg.selvedgeUnitSel 7 0) with times := [] }).selvedge.units = true := srising_sput hr _ _
    obtain ⟨hst, htimes, hcnt⟩ := recoverBegin_line hris (by rw [hset]) hl0 h1 h9
    exact ⟨hst, htimes, fun hne => hcnt hne (stored_inv hs x)⟩
  · rw [selvRestart_idle (s := stored s Reg.selvedgeUnitCtrl x) (by rw [hsrc]; exact hp)]
    rfl

theorem pendClear_ok {c : Nat} (h : s.hostReaches Reg.selvedgePendLo = true) (hc : c < 32) (hok : (unitAt s c).st = .ok) :
    ∃ t, exec (.selvedgePendClear false 15 (BitVec.ofNat 32 (2 ^ c))) s = .next t ∧
      (∀ b, t.selvedge.pend.testBit b = (s.selvedge.pend.testBit b && b != c)) ∧ t.selvedge.hist = s.selvedge.hist := by
  obtain ⟨x, hex⟩ := exec_selvedgePendClear_lo (v := BitVec.ofNat 32 (2 ^ c)) h
  have hv : (BitVec.ofNat 32 (2 ^ c)).toNat = 2 ^ c := by
    rw [BitVec.toNat_ofNat]
    exact Nat.mod_eq_of_lt (Nat.pow_lt_pow_right (by decide) hc)
  refine ⟨_, hex, ?_⟩
  have hst : (unitAt (stored s Reg.selvedgePendLo x) c).st = .ok := hok
  rw [hv, pendClear_bit (by omega), hst, if_neg (by simp; omega)]
  exact ⟨fun b => testBit_sub_bit _ b c, rfl⟩

theorem pendClear_latched (hs : s.inv) (h : s.hostReaches Reg.selvedgePendHi = true) (hl : s.safety.latch = true) :
    ∃ t, exec (.selvedgePendClear true 15 (BitVec.ofNat 32 (2 ^ 6))) s = .next t ∧ t.selvedge = s.selvedge ∧
      flag t Reg.selvedgeStat 2 = true := by
  obtain ⟨x, hex⟩ := exec_selvedgePendClear_hi (v := BitVec.ofNat 32 (2 ^ 6)) h
  refine ⟨_, hex, ?_⟩
  rw [show (BitVec.ofNat 32 (2 ^ 6)).toNat % 512 * 2 ^ 32 = 2 ^ 0x26 by decide, pendClear_bit (by decide),
    show (stored s Reg.selvedgePendHi x).safety.latch = true from hl, if_pos (by simp)]
  exact ⟨by simp [stored_selvedge], flag_setBit (stored_inv hs x) (by decide)⟩

theorem histSel_copies {v : Word} (hs : s.inv) (h : s.hostReaches Reg.selvedgeHistSel = true) :
    ∃ t, exec (.selvedgeHistSelWrite 15 v) s = .next t ∧ t.selvedge = s.selvedge ∧
      (∀ e, s.selvedge.hist[bits v.toNat 4 0]? = some e → ∀ k < 8, rd t (Reg.selvedgeHistData k) = histWord e k % 2 ^ 32) ∧
      (s.selvedge.hist[bits v.toNat 4 0]? = none → ∀ k < 8, rd t (Reg.selvedgeHistData k) = 0) := by
  obtain ⟨x, hex, hsel⟩ := exec_selvedgeHistSelWrite h hs
  have hw := fun k hk => histCopy_words (stored_inv hs x) (s := stored s Reg.selvedgeHistSel x) k hk
  rw [hsel] at hw
  refine ⟨_, hex, (histCopy_kept (.refl _ _) (.refl _)).selvedge_eq rfl, fun e he k hk => ?_, fun hn k hk => ?_⟩
  · rw [hw k hk, stored_selvedge, he]
  · rw [hw k hk, stored_selvedge, hn]
    rfl

end

/-- Settles O59: the next report is entered, counted and contained (`faultReport_recorded`); due entries close; a unit returns with its
siblings as they were; RESTART, PEND and HIST_SEL each come to one effect on the copies stored. -/
theorem reportsAreRecorded : Obligations.ReportsAreRecorded := by
  unfold Obligations.ReportsAreRecorded
  exact ⟨fun _ _ hs hn hcls hco hrec => faultReport_recorded hs hn hcls hco hrec, fun _ => stormClose_selvedge,
    fun _ _ hr hst hage hf => recoveryEnd_units hr hst hage hf, fun _ hs h hr hf => selvedgeRestart_units hs h hr hf,
    fun _ _ _ h hc hok => pendClear_ok h hc hok, fun _ hs h hl => pendClear_latched hs h hl, fun _ _ hs h => histSel_copies hs h⟩

end Sys2Proof.Machine
end

