-- ==== Sys2Proof/Proofs/SafetyPath.lean ====
section
/-! SUPPORT. Proofs/SafetyPath.lean: the latch of the safety path, its clearing sequence, proof tests, its supply and its link (R450, R453
to R458). -/

namespace Sys2Proof.Machine

open Sys2Proof

section
variable {s : State}

/-! ## What a latch does, in its order (R454, R457) -/

/-- The latch is set in the path's own state. -/
def latchSet (reason channel : Nat) (s : State) : State :=
  setSafety s { s.safety with latch := true, reason := reason, channel := channel % 4, proofSince := false, hold := false
                              latchTimes := s.pick.commits :: recentLatches s
                              locked := s.safety.locked || decide (3 ≤ (s.pick.commits :: recentLatches s).length), clrFirst := none
                              clrPending := false, lostLatch := false }

/-- It cuts, goes to SAFE and ends every burst. -/
def latchActs (s : State) : State := endBursts (cancelBursts (enterSafe (cutLow s)))

/-- It is recorded, counted and notified. -/
def latchTold (reason : Nat) (s : State) : State :=
  selvNotify (count (setReg s Reg.safetyLatchPick (s.pick.count % 2 ^ 32)) 17 10) 0x4B reason

theorem safetyLatch_taken {reason ch : Nat} (hv : s.safety.vddSafe = true) (hl : s.safety.latch = false)
    (hh : s.safety.hold = false ∨ reason = 9) : safetyLatch reason ch s =
    let u := latchTold reason (latchActs (latchSet reason ch s))
    if reason < 8 then raiseFree u 0x26 0x090 else if reason = 9 then raiseFree u 0x26 0x091 else u := by
  have hc : (!s.safety.vddSafe || (s.safety.hold && reason != 9) || (s.safety.latch && (decide (reason < 8) || decide (8 ≤ s.safety.reason)))) = false := by
    rw [hv, hl]
    rcases hh with h | h
    · simp [h]
    · simp [h]
  rw [safetyLatch, hc, if_neg (by simp)]
  rfl

/-! ### SAFE -/

theorem setMode_mode (m : Mode) : (setMode s m).power.mode = m := by
  rw [setMode]
  split
  · assumption
  · rw [globalNotify, (notifyReg_kept (.refl _ _) (.refl _)).power_eq rfl]
    split <;> rfl

theorem enterSafe_mode (h : s.power.mode = .listen ∨ s.power.mode = .active ∨ s.power.mode = .doze) : (enterSafe s).power.mode = .safe := by
  rw [enterSafe]
  rcases h with h | h | h <;> rw [h] <;> exact setMode_mode _

theorem leaveSafe_mode (h : s.power.mode = .safe) : (leaveSafe s).power.mode = .listen := by
  rw [leaveSafe, if_pos h]
  exact setMode_mode _

theorem setMode_cnts {gs : List Nat} (h : 14 ∈ gs) (m : Mode) : CntsIn gs s (setMode s m) := by
  rw [setMode]
  split
  · exact .refl _ s
  · split
    · exact fun hs => notifyReg_cnts h _ _ _ _ hs
    · exact fun hs => notifyReg_cnts h _ _ _ _ hs

theorem setMode_regs {as : List Nat} (h : Reg.hostStat ∈ as) (m : Mode) : RegsIn as s (setMode s m) := by
  rw [setMode]
  split
  · exact .refl _ s
  · split
    · exact fun hs => regsIn_notifyReg h _ _ _ _ hs
    · exact fun hs => regsIn_notifyReg h _ _ _ _ hs

theorem setPower_cnts {gs : List Nat} (x : Power) : CntsIn gs s (setPower s x) := fun h => ⟨h, fun _ _ => rfl⟩

theorem enterSafe_cnts {gs : List Nat} (h : 14 ∈ gs) : CntsIn gs s (enterSafe s) := by
  have hset : ∀ u : State, CntsIn gs u (setMode (setTarget (setPower u { u.power with dozePhase := .none }) 1) .safe) := fun u =>
    ((setPower_cnts _).trans (.of_kept (setTarget_kept (.refl _ _) (.refl _)) rfl)).trans (setMode_cnts h _)
  have hpd : CntsIn gs s (if s.power.dozePhase = .entering then setPdBits s true (fun d => forbidden .doze d && domOn s d) else s) := by
    split
    · exact .of_kept (setPdBits_kept (.refl _ s) (.refl _)) rfl
    · exact .refl _ s
  rw [enterSafe]
  split
  · exact hpd.trans (hset _)
  · exact hpd.trans (hset _)
  · exact hpd.trans (hset _)
  · exact .refl _ s

/-! ### What the actions leave -/

theorem cancelled_bursts (b : Burst) : (cancelled s b).weft.bursts = s.weft.bursts := by
  rw [cancelled, addRei]
  split <;> simp [setAct, setWeft]

theorem cancelBursts_bursts : (cancelBursts s).weft.bursts = s.weft.bursts.filter (·.started) := by
  have h : ∀ (l : List Burst) (u : State), (l.foldl cancelled u).weft.bursts = u.weft.bursts := fun l => by
    induction l with
    | nil => exact fun u => rfl
    | cons b t ih => exact fun u => (ih _).trans (cancelled_bursts b)
  rw [cancelBursts, h]
  rfl

theorem latchActs_bursts : (latchActs s).weft.bursts = [] := by
  rw [latchActs, endBursts]
  change ((cancelBursts (enterSafe (cutLow s))).weft.bursts.filter (fun b => !b.started)) = []
  rw [cancelBursts_bursts]
  simp

theorem latchActs_safety : (latchActs s).safety = { s.safety with cutSince := some (s.safety.cutSince.getD s.ns), enNow := false } := by
  have h : (cancelBursts (enterSafe (cutLow s))).safety = (cutLow s).safety :=
    ((cancelBursts_kept (.refl _ _) (.refl _)).safety_eq rfl).trans ((enterSafe_kept (.refl _ _) (.refl _)).safety_eq rfl)
  change { (cancelBursts (enterSafe (cutLow s))).safety with enNow := false } = _
  rw [h]
  rfl

theorem latchActs_power : (latchActs s).power = (enterSafe (cutLow s)).power :=
  (cancelBursts_kept (.refl _ (enterSafe (cutLow s))) (.refl _)).power_eq rfl

theorem latchActs_mode (h : s.power.mode = .listen ∨ s.power.mode = .active ∨ s.power.mode = .doze) : (latchActs s).power.mode = .safe := by
  rw [latchActs_power]
  exact enterSafe_mode h

theorem latchActs_kept : Kept 3158680 s (latchActs s) :=
  endBursts_kept (cancelBursts_kept (enterSafe_kept (cutLow_kept (.refl _ s) (.of (.refl _) rfl)) (.of (.refl _) rfl)) (.of (.refl _) rfl))
    (.of (.refl _) rfl)

theorem latchActs_cnts : CntsIn [0, 1, 14] s (latchActs s) := by
  have h1 : CntsIn [0, 1, 14] s (cutLow s) := .of_kept (cutLow_kept (.refl _ s) (.refl _)) rfl
  have h2 : CntsIn [0, 1, 14] (enterSafe (cutLow s)) (cancelBursts (enterSafe (cutLow s))) := cancelBursts_cnts.mono (by simp)
  exact ((h1.trans (enterSafe_cnts (by simp))).trans h2).trans endBursts_cnts

theorem latchTold_kept (reason : Nat) : Kept 8344 s (latchTold reason s) :=
  selvNotify_kept (count_kept (setReg_kept (.refl _ s) (.of (.refl _) rfl)) (.of (.refl _) rfl)) (.of (.refl _) rfl)

/-- The latch's pick is recorded, and the latch counted. -/
theorem latchTold_recorded (hs : s.inv) (reason : Nat) :
    (latchTold reason s).inv ∧ rd (latchTold reason s) Reg.safetyLatchPick = s.pick.count % 2 ^ 32 ∧
      cntVal (latchTold reason s) 17 10 = min cntMax (cntVal s 17 10 + 1) := by
  have h1 := setReg_inv hs Reg.safetyLatchPick (s.pick.count % 2 ^ 32)
  have h2 := count_inv h1 17 10
  refine ⟨(latchTold_kept reason).inv hs, ?_, ?_⟩
  · rw [latchTold, selvNotify, (regsIn_notifyReg (as := [Reg.hostStat]) (by simp) _ _ _ _).rd h2 (by decide), rd, count_cur, ← rd,
      rd_setReg_same hs, Nat.mod_mod]
  · rw [latchTold, selvNotify, (notifyReg_cnts (gs := [14]) (by simp) _ _ _ _).cntVal h2 (by decide) (by decide), count,
      cntVal_countBy_same h1]
    rfl

theorem enterSafe_regs {as : List Nat} (h1 : Reg.hostStat ∈ as) (h2 : Reg.globalModeReq ∈ as) (h3 : Reg.globalPdCtrl ∈ as) :
    RegsIn as s (enterSafe s) := by
  have hset : ∀ u : State, RegsIn as u (setMode (setTarget (setPower u { u.power with dozePhase := .none }) 1) .safe) := fun u => by
    have hp : RegsIn as u (setPower u { u.power with dozePhase := .none }) := fun hu => ⟨hu, fun _ _ => ⟨rfl, rfl⟩⟩
    exact (hp.trans (regsIn_setFld h2 1 0 1)).trans (setMode_regs h1 _)
  have hpd : RegsIn as s (if s.power.dozePhase = .entering then setPdBits s true (fun d => forbidden .doze d && domOn s d) else s) := by
    split
    · refine .foldl (fun u d => ?_) _
      dsimp only
      split
      · exact regsIn_setFld h3 _ _ _
      · exact .refl _ u
    · exact .refl _ s
  rw [enterSafe]
  split
  · exact hpd.trans (hset _)
  · exact hpd.trans (hset _)
  · exact hpd.trans (hset _)
  · exact .refl _ s

/-- The registers that a latch may change. -/
def latchRegs : List Nat := [Reg.hostStat, Reg.selvedgeStat, Reg.safetyLatchPick, Reg.globalModeReq, Reg.globalPdCtrl]

theorem latchActs_regs : RegsIn latchRegs s (latchActs s) := by
  have h1 : RegsIn latchRegs s (cutLow s) := .of_kept (cutLow_kept (.refl _ s) (.refl _)) rfl
  have h2 : RegsIn latchRegs (enterSafe (cutLow s)) (latchActs s) :=
    .of_kept (endBursts_kept (cancelBursts_kept (.refl 3149840 _) (.of (.refl _) rfl)) (.of (.refl _) rfl)) rfl
  exact (h1.trans (enterSafe_regs (by simp [latchRegs]) (by simp [latchRegs]) (by simp [latchRegs]))).trans h2

theorem latchTold_regs (reason : Nat) : RegsIn latchRegs s (latchTold reason s) :=
  ((regsIn_setReg (by simp [latchRegs]) _).trans (regsIn_count 17 10)).trans (regsIn_notifyReg (by simp [latchRegs]) _ _ _ _)

/-! ## A latch of the reasons 1 to 7, or of a failed proof test (R453, R458) -/

/-- The code of the report. -/
def latchCode (reason : Nat) : Nat := if reason < 8 then 0x090 else 0x091

/-- The report of such a latch comes last. -/
theorem safetyLatch_reported {reason ch : Nat} (hv : s.safety.vddSafe = true) (hl : s.safety.latch = false)
    (hr : (reason < 8 ∧ s.safety.hold = false) ∨ reason = 9) :
    safetyLatch reason ch s = raiseFree (latchTold reason (latchActs (latchSet reason ch s))) 0x26 (latchCode reason) := by
  rw [safetyLatch_taken hv hl (hr.imp_left And.right), latchCode]
  rcases hr with ⟨h, -⟩ | rfl
  · rw [if_pos h, if_pos h]
  · rfl

theorem safetyLatch_safety {reason ch : Nat} (hv : s.safety.vddSafe = true) (hl : s.safety.latch = false)
    (hr : (reason < 8 ∧ s.safety.hold = false) ∨ reason = 9) : (safetyLatch reason ch s).safety =
      { (latchSet reason ch s).safety with cutSince := some (s.safety.cutSince.getD s.ns), enNow := false } := by
  rw [safetyLatch_reported hv hl hr, (raiseFree_kept (.refl 2136 _) (.refl _)).safety_eq rfl, (latchTold_kept reason).safety_eq rfl,
    latchActs_safety]
  rfl

theorem safetyLatch_set {reason ch : Nat} (hs : s.inv) (hv : s.safety.vddSafe = true) (hl : s.safety.latch = false)
    (hr : (reason < 8 ∧ s.safety.hold = false) ∨ reason = 9) :
    (safetyLatch reason ch s).safety = { (latchSet reason ch s).safety with cutSince := some (s.safety.cutSince.getD s.ns), enNow := false } ∧
      (safetyLatch reason ch s).power = (latchActs (latchSet reason ch s)).power ∧ (safetyLatch reason ch s).weft.bursts = [] ∧
      rd (safetyLatch reason ch s) Reg.safetyLatchPick = s.pick.count % 2 ^ 32 ∧
      cntVal (safetyLatch reason ch s) 17 10 = min cntMax (cntVal s 17 10 + 1) ∧
      s.raises (safetyLatch reason ch s) 0x26 (latchCode reason) ∧ RegsIn latchRegs s (safetyLatch reason ch s) := by
  refine ⟨safetyLatch_safety hv hl hr, ?_⟩
  rw [safetyLatch_reported hv hl hr]
  generalize hw : latchActs (latchSet reason ch s) = w
  have hset : (latchSet reason ch s).inv := hs
  have hwk : Kept 3158680 (latchSet reason ch s) w := hw ▸ latchActs_kept
  have hwi : w.inv := hwk.inv hset
  obtain ⟨hui, hpick, hcnt⟩ := latchTold_recorded hwi reason
  have hfree : Kept 2136 (latchTold reason w) (raiseFree (latchTold reason w) 0x26 (latchCode reason)) := raiseFree_kept (.refl _ _) (.refl _)
  refine ⟨?_, ?_, ?_, ?_, ?_, fun _ => ?_⟩
  · rw [hfree.power_eq rfl, (latchTold_kept reason).power_eq rfl]
  · rw [hfree.weft_eq rfl, (latchTold_kept reason).weft_eq rfl, ← hw, latchActs_bursts]
  · rw [rd_raiseFree_other hui _ _ (by decide), hpick, hwk.pick_eq rfl]
    rfl
  · rw [cntVal_raiseFree hui _ _ (by decide), hcnt, ← hw, latchActs_cnts.cntVal hset (by decide) (by decide)]
    rfl
  · have hsel : (latchTold reason w).selvedge = s.selvedge := ((latchTold_kept reason).selvedge_eq rfl).trans (hwk.selvedge_eq rfl)
    exact raises_of_selvedge hsel (raises_raiseFree _ _ _)
  · have h1 : RegsIn latchRegs (latchSet reason ch s) w := hw ▸ latchActs_regs
    exact ((h1.trans (latchTold_regs reason)).trans (regsIn_raiseFree (by simp [latchRegs]) _ _)) hset

/-! ## Declarations (R453) -/

theorem dangerSeen_iff (reason : Nat) (x : SafetySeen) : dangerSeen s reason x = true ↔
    (reason = 1 ∧ x.en = true ∧ outsideBy s 48 x.pos = true) ∨
    (reason = 2 ∧ 8 * fld s Reg.safetyMpdCfg 15 8 ≤ x.mpdNs ∧ outsideBy s (48 + lagSymbols s) x.pos = true) ∨
    (reason = 3 ∧ s.act.held = true ∧ (x.en = true ∨ 8 * fld s Reg.safetyMpdCfg 15 8 ≤ x.mpdNs)) ∨
    (reason = 4 ∧ x.linkMissing = true) ∨ (reason = 5 ∧ (x.clock < 850 ∨ 1150 < x.clock)) ∨
    (reason = 6 ∧ (1000 ≤ x.disagreeNs ∨ x.memErr = true)) := by
  unfold dangerSeen
  split
  case h_7 h1 h2 h3 h4 h5 h6 =>
    refine iff_of_false Bool.false_ne_true ?_
    rintro (⟨h, -⟩ | ⟨h, -⟩ | ⟨h, -⟩ | ⟨h, -⟩ | ⟨h, -⟩ | ⟨h, -⟩)
    exacts [h1 h, h2 h, h3 h, h4 h, h5 h, h6 h]
  all_goals simp [mpdPersists]

/-- Only the reasons 1 to 6 are declared. -/
theorem dangerSeen_reason {reason : Nat} {x : SafetySeen} (h : dangerSeen s reason x = true) : 1 ≤ reason ∧ reason < 8 := by
  rcases (dangerSeen_iff reason x).1 h with ⟨h, -⟩ | ⟨h, -⟩ | ⟨h, -⟩ | ⟨h, -⟩ | ⟨h, -⟩ | ⟨h, -⟩ <;> omega

theorem safetyDeclare_not {reason ch : Nat} {x : SafetySeen} (h : dangerSeen s reason x = false) :
    exec (.safetyDeclare reason ch x) s = .next s := by
  refine congrArg Host.Outcome.next (if_neg ?_)
  rintro ⟨-, -, hd⟩
  rw [h] at hd
  cases hd

theorem safetyDeclare_latches {reason ch : Nat} {x : SafetySeen} (hs : s.inv) (hv : s.safety.vddSafe = true) (hh : s.safety.hold = false)
    (hl : s.safety.latch = false) (h1 : 1 ≤ ch) (h3 : ch ≤ 3) (hd : dangerSeen s reason x = true) :
    ∃ t, exec (.safetyDeclare reason ch x) s = .next t ∧ t.safety.latch = true ∧ t.safety.reason = reason ∧ t.safety.channel = ch ∧
      t.safety.cutSince = some (s.safety.cutSince.getD s.ns) ∧ t.safety.proofSince = false ∧
      (s.power.mode = .listen ∨ s.power.mode = .active ∨ s.power.mode = .doze → t.power.mode = .safe) ∧ t.weft.bursts = [] ∧
      rd t Reg.safetyLatchPick = s.pick.count % 2 ^ 32 ∧
      t.safety.locked = (s.safety.locked || decide (2 ≤ (recentLatches s).length)) ∧
      cntVal t 17 10 = min cntMax (cntVal s 17 10 + 1) ∧ s.raises t 0x26 0x090 := by
  have hr := (dangerSeen_reason hd).2
  have hex : exec (.safetyDeclare reason ch x) s =
      .next (safetyLatch reason ch (setSafety s { s.safety with mpdNow := s.safety.mpdNow || decide (0 < x.mpdNs) })) :=
    congrArg Host.Outcome.next (if_pos ⟨h1, h3, hd⟩)
  generalize hu : setSafety s { s.safety with mpdNow := s.safety.mpdNow || decide (0 < x.mpdNs) } = u at hex
  have hinv : u.inv := hu ▸ hs
  obtain ⟨hsafe, hpow, hb, hrd, hcnt, hraise, -⟩ := safetyLatch_set (s := u) (reason := reason) (ch := ch) hinv (hu ▸ hv) (hu ▸ hl) (.inl ⟨hr, hu ▸ hh⟩)
  rw [latchCode, if_pos hr] at hraise
  subst hu
  refine ⟨_, hex, ?_⟩
  rw [hsafe, hpow]
  refine ⟨rfl, rfl, Nat.mod_eq_of_lt (by omega), rfl, rfl, fun hm => latchActs_mode hm, hb, hrd, ?_, hcnt, hraise⟩
  have hlen : decide (3 ≤ (s.pick.commits :: recentLatches s).length) = decide (2 ≤ (recentLatches s).length) := by
    simp only [List.length_cons, Nat.reduceLeDiff]
  exact congrArg (s.safety.locked || ·) hlen

/-! ## A latch whose channel no rule names -/

/-- A latch by a channel that is a free value. -/
theorem safetyLatchAny_set {reason : Nat} (hs : s.inv) (hv : s.safety.vddSafe = true) (hl : s.safety.latch = false)
    (hr : (reason < 8 ∧ s.safety.hold = false) ∨ reason = 9) :
    (safetyLatchAny reason s).safety.latch = true ∧ (safetyLatchAny reason s).safety.reason = reason ∧
      (safetyLatchAny reason s).safety.hold = false ∧
      1 ≤ (safetyLatchAny reason s).safety.channel ∧ (safetyLatchAny reason s).safety.channel ≤ 3 ∧
      (safetyLatchAny reason s).weft.bursts = [] ∧ s.raises (safetyLatchAny reason s) 0x26 (latchCode reason) ∧
      RegsIn latchRegs s (safetyLatchAny reason s) := by
  have hany : safetyLatchAny reason s = safetyLatch reason (1 + (draw s).1 % 3) (draw s).2 := rfl
  generalize hu : (draw s).2 = u at hany
  obtain ⟨hsafe, -, hb, -, -, hraise, hregs⟩ := safetyLatch_set (s := u) (reason := reason) (ch := 1 + (draw s).1 % 3)
    (hu ▸ hs) (hu ▸ hv) (hu ▸ hl) (hu ▸ hr)
  subst hu
  rw [hany, hsafe]
  refine ⟨rfl, rfl, rfl, ?_, ?_, hb, hraise, hregs⟩
  · change 1 ≤ (1 + (draw s).1 % 3) % 4
    omega
  · change (1 + (draw s).1 % 3) % 4 ≤ 3
    omega

theorem safetyForceLatch_latches (hs : s.inv) (h : s.hostReaches Reg.safetyForce = true) (hv : s.safety.vddSafe = true)
    (hh : s.safety.hold = false) (hl : s.safety.latch = false) :
    ∃ t, exec (.safetyForceLatch 15) s = .next t ∧ t.safety.latch = true ∧ t.safety.reason = 7 ∧ t.weft.bursts = [] ∧
      1 ≤ t.safety.channel ∧ t.safety.channel ≤ 3 := by
  have hex : hostStore Reg.safetyForce 15 1 s =
      safetyLatchAny 7 (stored s Reg.safetyForce (rdS s Reg.safetyForce, rd s Reg.safetyForce, false)) := by
    rw [hostStore_command h (by decide) (.inr hv), writeEffects_host (by decide) (by decide)]
    rfl
  obtain ⟨h1, h2, -, h4, h5, h6, -⟩ := safetyLatchAny_set (s := stored s Reg.safetyForce (rdS s Reg.safetyForce, rd s Reg.safetyForce, false))
    (reason := 7) (stored_inv hs _) hv hl (.inl ⟨by decide, hh⟩)
  exact ⟨_, congrArg Host.Outcome.next hex, h1, h2, h6, h4, h5⟩

/-! ## SAFETY_MPD_CFG (R453) -/

/-- The row of SAFETY_MPD_CFG. -/
def mpdCfgRow : RegRow := ⟨Reg.safetyMpdCfg, 0, 1, 0x0019193F, .fixed 9, [⟨23, 16, .imm, [(1, 255)]⟩, ⟨15, 8, .imm, [(1, 255)]⟩, ⟨6, 0, .imm, []⟩]⟩

theorem findRow_mpdCfg : findRow Reg.safetyMpdCfg = some mpdCfgRow := by decide

/-- LAG takes what is written. -/
theorem mpdCfg_lag (v : Nat) : ∃ y, (fieldsWritten mpdCfgRow s Reg.safetyMpdCfg v).2.1 = insBits y 6 0 (bits v 6 0) := by
  have hlast : ∀ x : Nat × Nat × Bool, (fldWrite v x ⟨6, 0, .imm, []⟩).2.1 = insBits x.2.1 6 0 (bits v 6 0) := fun x => by
    simp [fldWrite, legal]
  exact ⟨_, hlast _⟩

theorem safetyMpdCfg_written {v : Word} (hs : s.inv) (h : s.hostReaches Reg.safetyMpdCfg = true) (hv : s.safety.vddSafe = true) :
    (s.power.mode = .active → bits v.toNat 6 0 ≠ fldS s Reg.safetyMpdCfg 6 0 →
      ∃ t, exec (.safetyMpdCfgWrite 15 v) s = .next t ∧ s.regSame t Reg.safetyMpdCfg ∧ s.raises t 0x26 0x001) ∧
    (s.power.mode ≠ .active → ∃ t, exec (.safetyMpdCfgWrite 15 v) s = .next t ∧ fld t Reg.safetyMpdCfg 6 0 = bits v.toNat 6 0 ∧
      t.safety = s.safety ∧ t.power = s.power) := by
  have hstore := hostStore_reached (v := v.toNat) h findRow_mpdCfg
  refine ⟨fun hm hne => ?_, fun hm => ?_⟩
  · have hw : refusedWhole s Reg.safetyMpdCfg v.toNat = true := by
      change (s.power.mode == .active && bits v.toNat 6 0 != bits (rdS s Reg.safetyMpdCfg) 6 0) = true
      rw [hm]
      simpa [fldS] using hne
    have hsrc : regSource s Reg.safetyMpdCfg = 0x26 := by rw [regSource, findRow_mpdCfg]; rfl
    rw [regStore_refused hw (.inr hv), hsrc] at hstore
    have hregs := regsIn_raiseFree (as := [Reg.selvedgeStat]) (s := s) (by simp) 0x26 1
    exact ⟨_, congrArg Host.Outcome.next hstore, ⟨hregs.rd hs (by decide), hregs.rdS hs (by decide)⟩, raises_raiseFree _ _ _⟩
  · have hw : refusedWhole s Reg.safetyMpdCfg v.toNat = false := by
      change (s.power.mode == .active && bits v.toNat 6 0 != bits (rdS s Reg.safetyMpdCfg) 6 0) = false
      rw [beq_eq_false_iff_ne.2 hm, Bool.false_and]
    rw [regStore_table (by decide) hw (.inr hv), writeEffects_none (by decide) (by decide) (by decide)] at hstore
    obtain ⟨y, hy⟩ := mpdCfg_lag (s := s) v.toNat
    have hlag : fld (stored s Reg.safetyMpdCfg (fieldsWritten mpdCfgRow s Reg.safetyMpdCfg v.toNat)) Reg.safetyMpdCfg 6 0 = bits v.toNat 6 0 := by
      rw [fld, rd_stored_same hs, hy, bits_insBits (by decide) (by decide)]
      exact Nat.mod_eq_of_lt (bits_lt _ _ _)
    refine ⟨_, congrArg Host.Outcome.next hstore, ?_⟩
    generalize hu : stored s Reg.safetyMpdCfg (fieldsWritten mpdCfgRow s Reg.safetyMpdCfg v.toNat) = u at hlag ⊢
    have hui : u.inv := hu ▸ stored_inv hs _
    have hsafe : u.safety = s.safety := by rw [← hu]; rfl
    have hpow : u.power = s.power := by rw [← hu]; rfl
    split
    · have hk : Kept 2136 u (progErr u (regSource u Reg.safetyMpdCfg)) := progErr_kept (.refl _ _) (.refl _)
      refine ⟨?_, (hk.safety_eq rfl).trans hsafe, (hk.power_eq rfl).trans hpow⟩
      rw [← hlag]
      exact (regsIn_raiseFree (as := [Reg.selvedgeStat]) (by simp) _ 1).fld hui (by decide) 6 0
    · exact ⟨hlag, hsafe, hpow⟩

/-! ## SAFETY_CLR (R456) -/

/-- A write of SAFETY_CLR acts on the copies stored. -/
theorem exec_safetyClrWrite {v : Word} (h : s.hostReaches Reg.safetyClr = true) (hv : s.safety.vddSafe = true) :
    ∃ x, exec (.safetyClrWrite 15 v) s = .next (safetyKey v.toNat (stored s Reg.safetyClr x)) := by
  refine ⟨(rdS s Reg.safetyClr, rd s Reg.safetyClr, false), congrArg Host.Outcome.next ?_⟩
  change hostStore Reg.safetyClr 15 v.toNat s = _
  rw [hostStore_command h (by decide) (.inr hv), writeEffects_host (by decide) (by decide)]
  rfl

theorem safetyKey_first (hv : s.safety.vddSafe = true) : safetyKey 0x5AFE s = setSafety s { s.safety with clrFirst := some s.now } := by
  rw [safetyKey, hv]
  rfl

/-- What the second write finds in the path: the conditions under which it clears. -/
def clears (x : Safety) : Bool :=
  x.latch && decide (1 ≤ x.reason) && decide (x.reason ≤ 7) && !x.locked && x.proofSince && !x.enNow && !x.mpdNow

theorem safetyKey_second {t0 : Nat} (hv : s.safety.vddSafe = true) (hf : s.safety.clrFirst = some t0) (ht : s.now - t0 ≤ 125000) :
    safetyKey 0xA501 s = if clears s.safety then setSafety s { s.safety with clrFirst := none, clrPending := true }
      else setBit (setSafety s { s.safety with clrFirst := none }) Reg.safetyStat 23 := by
  rw [safetyKey, hv, if_neg (by simp), if_neg (by decide), hf]
  exact if_pos ⟨rfl, ht⟩

theorem safetyKey_other {v : Nat} (hv : s.safety.vddSafe = true) (h1 : v ≠ 0x5AFE) (h2 : v ≠ 0xA501) :
    safetyKey v s = setSafety s { s.safety with clrFirst := none } := by
  rw [safetyKey, hv, if_neg (by simp), if_neg h1]
  dsimp only
  split
  · exact if_neg (fun hc => h2 hc.1)
  · rfl

theorem clears_iff (x : Safety) : clears x = true ↔ x.latch = true ∧ 1 ≤ x.reason ∧ x.reason ≤ 7 ∧ x.locked = false ∧ x.proofSince = true ∧
    x.enNow = false ∧ x.mpdNow = false := by
  simp [clears, and_assoc]

theorem clears_not {x : Safety} (h : x.latch = false ∨ x.reason < 1 ∨ 7 < x.reason ∨ x.locked = true ∨ x.proofSince = false ∨
    x.enNow = true ∨ x.mpdNow = true) : clears x = false := by
  rw [← Bool.not_eq_true, clears_iff]
  rintro ⟨h1, h2, h3, h4, h5, h6, h7⟩
  rcases h with h | h | h | h | h | h | h
  · rw [h1] at h; cases h
  · omega
  · omega
  · rw [h4] at h; cases h
  · rw [h5] at h; cases h
  · rw [h6] at h; cases h
  · rw [h7] at h; cases h

theorem safetyClr_written {v : Word} (hs : s.inv) (h : s.hostReaches Reg.safetyClr = true) (hv : s.safety.vddSafe = true) :
    (v = 0x5AFE → ∃ t, exec (.safetyClrWrite 15 v) s = .next t ∧ t.safety = { s.safety with clrFirst := some s.now }) ∧
    (∀ t0, v = 0xA501 → s.safety.clrFirst = some t0 → s.now - t0 ≤ 125000 →
      (s.safety.latch = true → 1 ≤ s.safety.reason → s.safety.reason ≤ 7 → s.safety.locked = false → s.safety.proofSince = true →
        s.safety.enNow = false → s.safety.mpdNow = false →
        ∃ t, exec (.safetyClrWrite 15 v) s = .next t ∧ t.safety = { s.safety with clrFirst := none, clrPending := true }) ∧
      (s.safety.latch = false ∨ s.safety.reason < 1 ∨ 7 < s.safety.reason ∨ s.safety.locked = true ∨ s.safety.proofSince = false ∨
          s.safety.enNow = true ∨ s.safety.mpdNow = true →
        ∃ t, exec (.safetyClrWrite 15 v) s = .next t ∧ t.safety = { s.safety with clrFirst := none } ∧ flag t Reg.safetyStat 23 = true)) ∧
    (v ≠ 0x5AFE → v ≠ 0xA501 →
      ∃ t, exec (.safetyClrWrite 15 v) s = .next t ∧ t.safety = { s.safety with clrFirst := none }) := by
  obtain ⟨x, hex⟩ := exec_safetyClrWrite (v := v) h hv
  have hu : (stored s Reg.safetyClr x).safety = s.safety := rfl
  have hn : (stored s Reg.safetyClr x).now = s.now := rfl
  have hui : (stored s Reg.safetyClr x).inv := stored_inv hs x
  generalize stored s Reg.safetyClr x = u at hex hu hn hui
  have hvu : u.safety.vddSafe = true := by rw [hu]; exact hv
  refine ⟨?_, fun t0 hk hf ht => ?_, fun h1 h2 => ?_⟩
  · rintro rfl
    refine ⟨_, hex, ?_⟩
    rw [show (0x5AFE : Word).toNat = 0x5AFE from rfl, safetyKey_first hvu, ← hu, ← hn]
    rfl
  · subst hk
    have hsec := safetyKey_second (t0 := t0) hvu (by rw [hu]; exact hf) (by rw [hn]; exact ht)
    refine ⟨fun h1 h2 h3 h4 h5 h6 h7 => ⟨_, hex, ?_⟩, fun hnot => ⟨_, hex, ?_⟩⟩
    · rw [show (0xA501 : Word).toNat = 0xA501 from rfl, hsec, hu, if_pos ((clears_iff _).2 ⟨h1, h2, h3, h4, h5, h6, h7⟩)]
      rfl
    · rw [show (0xA501 : Word).toNat = 0xA501 from rfl, hsec, hu, clears_not hnot, if_neg (by simp)]
      exact ⟨rfl, flag_setBit (s := setSafety u _) hui (by decide)⟩
  · refine ⟨_, hex, ?_⟩
    rw [safetyKey_other hvu (fun hc => h1 (BitVec.eq_of_toNat_eq hc)) (fun hc => h2 (BitVec.eq_of_toNat_eq hc)), ← hu]
    rfl

/-- Step 2 of the next commit point clears. -/
theorem safetyClear_pending (h : s.safety.clrPending = true) :
    (safetyClear s).safety.latch = false ∧ (safetyClear s).safety.cutSince = none ∧ (safetyClear s).safety.reason = s.safety.reason ∧
      (s.power.mode = .safe → (safetyClear s).power.mode = .listen) := by
  rw [safetyClear, if_pos h]
  generalize hu : setSafety s { s.safety with latch := false, clrPending := false, cutSince := none } = u
  have hk : Kept 2106008 (setWeft u { u.weft with sinceClear := 0 }) (selvNotify (leaveSafe (setWeft u { u.weft with sinceClear := 0 })) 0x4C 0) :=
    selvNotify_kept (leaveSafe_kept (.refl _ _) (.refl _)) (.of (.refl _) rfl)
  have hsafe : (selvNotify (leaveSafe (setWeft u { u.weft with sinceClear := 0 })) 0x4C 0).safety = u.safety := hk.safety_eq rfl
  have hn : ∀ w : State, (selvNotify w 0x4C 0).power = w.power := fun w => (selvNotify_kept (.refl _ w) (.refl _)).power_eq rfl
  dsimp only
  rw [hsafe, hn]
  subst hu
  exact ⟨rfl, rfl, rfl, fun hm => leaveSafe_mode hm⟩

/-! ## Proof tests (R458) -/

/-- A passed test as it stands in the path. -/
def proofPassed (x : Safety) : Safety :=
  { x with proofOk := true, proofSince := true, hold := false
           cutSince := if x.latch then x.cutSince else if x.hold then none else x.cutSince
           holdPassed := x.holdPassed || (x.hold && x.lostLatch) }

theorem proofTest_passes {ticks : Nat} (hs : s.inv) (hv : s.safety.vddSafe = true) (hp : s.pick.count % 8192 = 0)
    (hf : flag s Reg.selvedgeFatal 31 = false) :
    ∃ t, exec (.proofTest 0 ticks false) s = .next t ∧ t.safety.proofOk = true ∧ t.safety.proofSince = true ∧ t.safety.hold = false ∧
      t.safety.latch = s.safety.latch ∧ flag t Reg.safetyProof 31 = true ∧ fld t Reg.safetyProof 15 0 = min 65535 ticks ∧
      cntVal t 17 11 = min cntMax (cntVal s 17 11 + 1) := by
  have hex : exec (.proofTest 0 ticks false) s = .next (proofEnd 0 ticks s) := congrArg Host.Outcome.next (if_pos ⟨hv, by decide, .inr hp⟩)
  have h1 := setFld_inv hs Reg.safetyProof 15 0 (min 65535 ticks)
  generalize hu : setFld s Reg.safetyProof 15 0 (min 65535 ticks) = u at h1
  have h2 : (setSafety u (proofPassed u.safety)).inv := h1
  have h3 : (setBit (setSafety u (proofPassed u.safety)) Reg.safetyProof 31).inv := setFld_inv h2 Reg.safetyProof 31 31 1
  have hfatal : flag (count (setBit (setSafety u (proofPassed u.safety)) Reg.safetyProof 31) 17 11) Reg.selvedgeFatal 31 = false := by
    rw [flag, rd, count_cur, ← rd, setBit, rd_setFld_other h2 (by decide)]
    change (rd u Reg.selvedgeFatal).testBit 31 = false
    rw [← hu, rd_setFld_other hs (by decide)]
    exact hf
  have hend : proofEnd 0 ticks s = count (setBit (setSafety u (proofPassed u.safety)) Reg.safetyProof 31) 17 11 := by
    rw [proofEnd, if_pos rfl, hu]
    refine if_neg ?_
    change ¬ (u.safety.hold && flag (count (setBit (setSafety u (proofPassed u.safety)) Reg.safetyProof 31) 17 11) Reg.selvedgeFatal 31) = true
    rw [hfatal, Bool.and_false]
    decide
  have hsafe : (proofEnd 0 ticks s).safety = proofPassed s.safety := by rw [hend, ← hu]; simp [setSafety]
  refine ⟨_, hex, ?_⟩
  rw [hsafe, hend]
  refine ⟨rfl, rfl, rfl, rfl, ?_, ?_, ?_⟩
  · rw [flag, rd, count_cur, ← rd, ← flag]
    exact flag_setBit h2 (by decide)
  · rw [fld, rd, count_cur, ← rd, ← fld, setBit, fld_setFld_apart h2 (by decide) (by decide) (by decide)]
    change fld u Reg.safetyProof 15 0 = _
    rw [← hu, fld_setFld_same hs (by decide) (by decide)]
    exact Nat.mod_eq_of_lt (by omega)
  · rw [count, cntVal_countBy_same h3, cntVal, setBit, setFld_cnt, ← hu]
    rfl

/-- A failed test is recorded, and latches. -/
def proofFailed (step ticks : Nat) (s : State) : State :=
  setFld (clrBit (setFld s Reg.safetyProof 15 0 (min 65535 ticks)) Reg.safetyProof 31) Reg.safetyProof 19 16 step

theorem proofEnd_fails {step ticks : Nat} (h : step ≠ 0) : proofEnd step ticks s = safetyLatchAny 9 (proofFailed step ticks s) := by
  rw [proofEnd, if_neg h]
  rfl

theorem proofFailed_recorded {step ticks : Nat} (hs : s.inv) (h : step < 16) : (proofFailed step ticks s).inv ∧
    flag (proofFailed step ticks s) Reg.safetyProof 31 = false ∧ fld (proofFailed step ticks s) Reg.safetyProof 19 16 = step := by
  have i1 := setFld_inv hs Reg.safetyProof 15 0 (min 65535 ticks)
  have i2 : (clrBit (setFld s Reg.safetyProof 15 0 (min 65535 ticks)) Reg.safetyProof 31).inv := setFld_inv i1 Reg.safetyProof 31 31 0
  have hclr := flag_clrBit (a := Reg.safetyProof) (n := 31) i1
  refine ⟨setFld_inv i2 _ _ _ _, ?_, ?_⟩
  · rw [proofFailed, flag, rd_setFld_same i2, Nat.testBit_mod_two_pow, insBits_testBit (by decide), if_neg (by decide), ← flag, hclr,
      Bool.and_false]
  · rw [proofFailed, fld_setFld_same i2 (by decide) (by decide)]
    exact Nat.mod_eq_of_lt h

theorem proofFailed_kept {step ticks : Nat} : Kept 8 s (proofFailed step ticks s) :=
  setFld_kept (clrBit_kept (setFld_kept (.refl _ s) (.refl _)) (.refl _)) (.refl _)

theorem proofTest_fails {step ticks : Nat} (hs : s.inv) (hv : s.safety.vddSafe = true) (hp : s.pick.count % 8192 = 0) (h1 : 1 ≤ step)
    (h8 : step ≤ 8) (hl : s.safety.latch = false) :
    ∃ t, exec (.proofTest step ticks false) s = .next t ∧ t.safety.latch = true ∧ t.safety.reason = 9 ∧ t.safety.hold = false ∧
      flag t Reg.safetyProof 31 = false ∧ fld t Reg.safetyProof 19 16 = step ∧ s.raises t 0x26 0x091 := by
  have hex : exec (.proofTest step ticks false) s = .next (proofEnd step ticks s) := congrArg Host.Outcome.next (if_pos ⟨hv, h8, .inr hp⟩)
  rw [proofEnd_fails (by omega)] at hex
  obtain ⟨hi, hflag, hfld⟩ := proofFailed_recorded (step := step) (ticks := ticks) hs (by omega)
  have hsafe : (proofFailed step ticks s).safety = s.safety := proofFailed_kept.safety_eq rfl
  have hsel : (proofFailed step ticks s).selvedge = s.selvedge := proofFailed_kept.selvedge_eq rfl
  generalize proofFailed step ticks s = u at *
  obtain ⟨hlat, hreason, hhold, -, -, -, hraise, hregs⟩ := safetyLatchAny_set (reason := 9) hi (by rw [hsafe]; exact hv) (by rw [hsafe]; exact hl)
    (.inr rfl)
  exact ⟨_, hex, hlat, hreason, hhold, (hregs.flag hi (by decide) 31).trans hflag, (hregs.fld hi (by decide) 19 16).trans hfld,
    raises_of_selvedge hsel hraise⟩

/-! ## The cut, the supply and the link (R450, R454, R455, R468) -/

theorem cutIneffective_reported {t0 : Nat} (hc : s.safety.cutSince = some t0) (hv : s.safety.vddSafe = true)
    (ht : t0 + 110000 + 8 * fld s Reg.safetyMpdCfg 15 8 ≤ s.ns) :
    ∃ t, exec .cutIneffective s = .next t ∧ s.raises t 0x26 0x092 ∧ codeClass 0x26 0x092 = 3 := by
  have hex : exec .cutIneffective s = .next (raiseFree (setSafety s { s.safety with mpdNow := true }) 0x26 0x092) := by
    rw [exec, execCutIneffective, hc]
    exact congrArg Host.Outcome.next (if_pos ⟨hv, ht⟩)
  exact ⟨_, hex, raises_of_selvedge (u := setSafety s { s.safety with mpdNow := true }) rfl (raises_raiseFree _ _ _), by decide⟩

/-- A table keeps no entry of the indices that are dropped. -/
theorem sget_skeep_out {α : Type} {d : α} {p : Nat → Bool} {i : Nat} (h : p i = false) (m : Sparse α) : sget d (skeep p m) i = d := by
  have hne : ∀ l : Sparse α, (∀ e ∈ l, e.1 ≠ i) → sget d l i = d := fun l => by
    induction l with
    | nil => exact fun _ => rfl
    | cons e t ih =>
      intro hl
      obtain ⟨k, w⟩ := e
      have hk : k ≠ i := hl (k, w) List.mem_cons_self
      rw [sget]
      split
      · exact absurd (by assumption) hk
      · split
        · rfl
        · exact ih (fun e he => hl e (List.mem_cons_of_mem _ he))
  refine hne _ (fun e he hei => ?_)
  rw [skeep, List.mem_filter, hei, h] at he
  cases he.2

theorem vddSafeReturn_holds {removed : Bool} (hv : s.safety.vddSafe = false) (hr : s.safety.latch = false ∨ removed = true) :
    ∃ t, exec (.vddSafeReturn removed) s = .next t ∧ t.safety.hold = true ∧ t.safety.vddSafe = true ∧
      t.safety.proofOk = false ∧ t.safety.cutSince = s.safety.cutSince ∧ rd t Reg.safetyMpdCfg = regReset Reg.safetyMpdCfg := by
  have hc : (s.safety.latch && !removed) = false := by
    rcases hr with h | h <;> rw [h] <;> simp
  have hex : exec (.vddSafeReturn removed) s =
      .next (regsLost 9 (setSafety s { lostLatch := s.safety.latch || s.safety.lostLatch, cutSince := s.safety.cutSince })) := by
    rw [exec, execVddSafeReturn, hv, if_neg (by simp), hc, if_neg (by simp)]
  refine ⟨_, hex, rfl, rfl, rfl, rfl, ?_⟩
  have hd : ∀ u : State, (regDomain u Reg.safetyMpdCfg != 9) = false := fun u => by rw [regDomain, findRow_mpdCfg]; rfl
  have hr : rd (regsLost 9 (setSafety s { lostLatch := s.safety.latch || s.safety.lostLatch, cutSince := s.safety.cutSince }))
      Reg.safetyMpdCfg = (regReset Reg.safetyMpdCfg).toNat :=
    congrArg BitVec.toNat (sget_skeep_out (p := fun a => regDomain _ a != 9) (hd _) _)
  rw [hr]
  simp

theorem safetyLink_bad {ok : Bool} {n ch : Nat} (hv : s.safety.vddSafe = true) (hh : s.safety.hold = false) (hl : s.safety.latch = false)
    (hbad : ok = false ∨ n ≠ s.safety.linkSeq + 1) (h1 : 1 ≤ ch) (h3 : ch ≤ 3) :
    ∃ t, exec (.safetyLinkUpdate ok n ch) s = .next t ∧ t.safety.latch = true ∧ t.safety.reason = 4 ∧ t.safety.channel = ch := by
  have hno : ¬ (ok = true ∧ n = s.safety.linkSeq + 1) := fun ⟨ha, hb⟩ => by
    rcases hbad with h | h
    · rw [ha] at h; cases h
    · exact h hb
  have hex : exec (.safetyLinkUpdate ok n ch) s = .next (safetyLatch 4 ch (setSafety s { s.safety with linkSeq := n })) := by
    rw [exec, execSafetyLinkUpdate, hv, if_neg (by simp), if_neg hno]
  refine ⟨_, hex, ?_⟩
  rw [safetyLatch_safety (by exact hv) (by exact hl) (.inl ⟨by decide, by exact hh⟩)]
  exact ⟨rfl, rfl, Nat.mod_eq_of_lt (by omega)⟩

theorem safetyLink_good {ch : Nat} (hv : s.safety.vddSafe = true) :
    ∃ t, exec (.safetyLinkUpdate true (s.safety.linkSeq + 1) ch) s = .next t ∧ t.safety.linkSeq = s.safety.linkSeq + 1 ∧
      t.safety.pre = s.act.pre ∧ t.safety.eqd = s.act.eqd ∧ t.safety.conts = sput 0 s.act.conts 0 (contZero s) ∧
      t.safety.tid = (match s.act.tid with | some i => 2 ^ 31 + i | none => 1023) ∧ t.act = s.act := by
  rw [exec, execSafetyLinkUpdate, hv, if_neg (by simp), if_pos ⟨rfl, rfl⟩]
  exact ⟨_, rfl, rfl, rfl, rfl, rfl, rfl, rfl⟩

theorem vddSafeReturn_latched (hv : s.safety.vddSafe = false) (hl : s.safety.latch = true) :
    ∃ t, exec (.vddSafeReturn false) s = .next t ∧ t.safety = { s.safety with vddSafe := true } := by
  refine ⟨setSafety s { s.safety with vddSafe := true }, ?_, rfl⟩
  rw [exec, execVddSafeReturn, hv, if_neg (by simp), hl, if_pos (by simp)]

end

/-- Settles O60: a declared latch by what it sets, does and tells (`safetyLatch_set`), the writes of SAFETY_CLR by the path's own state, proof
tests, the supply and the link by their cases. -/
theorem safetyPathLatches : Obligations.SafetyPathLatches := by
  unfold Obligations.SafetyPathLatches
  exact ⟨fun _ _ _ _ _ _ => ⟨dangerSeen_iff _ _, safetyDeclare_not⟩,
    fun _ _ _ _ hs hv hh hl h1 h3 hd => safetyDeclare_latches hs hv hh hl h1 h3 hd,
    fun _ hs h hv hh hl => safetyForceLatch_latches hs h hv hh hl, fun _ _ hs h hv => safetyMpdCfg_written hs h hv,
    fun _ _ hs h hv => safetyClr_written hs h hv, fun _ h => safetyClear_pending h, fun _ _ hs hv hp hf => proofTest_passes hs hv hp hf,
    fun _ _ _ hs hv hp h1 h8 hl => proofTest_fails hs hv hp h1 h8 hl, fun _ _ hc hv ht => cutIneffective_reported hc hv ht,
    fun _ => ⟨_, rfl, rfl, rfl, rfl, rfl⟩,
    fun _ _ hv => ⟨fun _ hr => vddSafeReturn_holds hv hr, fun hl => vddSafeReturn_latched hv hl⟩, fun _ _ hv => safetyLink_good hv,
    fun _ _ _ _ hv hh hl hbad h1 h3 => safetyLink_bad hv hh hl hbad h1 h3⟩

end Sys2Proof.Machine
end

