-- ==== Sys2Proof/Proofs/LineTracking.lean ====
section
/-! SUPPORT. Proofs/LineTracking.lean: the detectors, the CDR and the framer: what declares and clears a defect, what keeps SYNC and what
takes the framer there (R48, R53, R75, R77). -/

namespace Sys2Proof.Machine

open Sys2Proof

section
variable {s : State}

/-! ## What the shared operations leave of the receiver -/

theorem b2n_inj {a b c a' b' c' : Bool} (h : b2n a + 2 * b2n b + 4 * b2n c = b2n a' + 2 * b2n b' + 4 * b2n c') : a = a' ∧ b = b' ∧ c = c' := by
  revert h
  revert a b c a' b' c'
  decide

theorem setDefects_warp (los lof sd : Bool) : (setDefects s los lof sd).warp = { s.warp with los := los, lof := lof, sd := sd } := by
  rw [setDefects]
  dsimp only
  split
  case isTrue h =>
    obtain ⟨h1, h2, h3⟩ := b2n_inj h
    rw [h1, h2, h3]
  case isFalse => rw [notifyReg_warp, ite_setBit_warp, ite_setBit_warp, ite_setBit_warp, setWarp_warp]

theorem setDefects_pick (los lof sd : Bool) : (setDefects s los lof sd).pick = s.pick := (setDefects_kept (.refl _ s) (.refl _)).pick_eq rfl

/-- The receiver after a return to HUNT. -/
def hunting (w : Warp) (los : Bool) : Warp :=
  { w with align := .hunt, cands := [], misses := 0, last := none, odd := none, rx := {}, los := los, lof := true
           reasm := if w.align = .sync then [] else w.reasm }

theorem toHunt_warp (los : Bool) : (toHunt s los).warp = hunting s.warp los := by
  rw [toHunt, setDefects_warp]
  by_cases h : s.warp.align = .sync
  · rw [if_pos h, leaveLock_warp, hunting, if_pos h]
    simp [dropContexts]
  · rw [if_neg h, hunting, if_neg h]
    rfl

theorem leaveLock_unlocked : (leaveLock s).pick.gen ≠ .locked := by
  rw [leaveLock]
  split
  · rw [(cancelBursts_kept (.refl _ _) (.refl _)).pick_eq rfl]
    exact PickGen.noConfusion
  · assumption

theorem toHunt_unlocks (h : s.warp.align = .sync) (los : Bool) : (toHunt s los).pick.gen ≠ .locked := by
  rw [toHunt, setDefects_pick, if_pos h]
  exact leaveLock_unlocked

/-! ## Amplitude and CDR -/

theorem rxOn_iff : rxOn s = true ↔ flag s Reg.warpCtrl 0 = true ∧ domOn s 4 = true ∧ domOn s 5 = true ∧ domOn s 6 = true := by
  simp [rxOn, and_assoc]

/-- The counts of low and high intervals after one of `amp`. -/
def belowAfter (s : State) (amp : Nat) : Nat := if amp < 2 * fld s Reg.warpLosCfg 7 0 then min 4 (s.warp.below + 1) else 0
def aboveAfter (s : State) (amp : Nat) : Nat :=
  if 2 * (fld s Reg.warpLosCfg 7 0 + fld s Reg.warpLosCfg 15 8) < amp then min 64 (s.warp.above + 1) else 0

theorem exec_amplitude (h : rxOn s = true) (amp : Nat) : exec (.amplitudeInterval amp) s =
    .next (let u := setWarp s { s.warp with below := belowAfter s amp, above := aboveAfter s amp }
      if !s.warp.los && belowAfter s amp == 4 then toHunt u true
      else if s.warp.los && aboveAfter s amp == 64 then setDefects u false s.warp.lof s.warp.sd
      else u) := by
  obtain ⟨h0, h4, -, h6⟩ := rxOn_iff.1 h
  rw [exec, execAmplitudeInterval, framerOn, h6, h0, h4, if_pos rfl, belowAfter, aboveAfter]
  simp only [Bool.and_self, if_true, Bool.not_true, Bool.false_eq_true, or_false]
  rfl

theorem amplitude_level {amp : Nat} (h : rxOn s = true) (hl : s.warp.los = false) (ha : 2 * fld s Reg.warpLosCfg 7 0 ≤ amp) :
    exec (.amplitudeInterval amp) s = .next { s with warp := { s.warp with below := 0, above := aboveAfter s amp } } := by
  have hb : belowAfter s amp = 0 := if_neg (by omega)
  rw [exec_amplitude h, hb, hl]
  rfl

theorem amplitude_losDeclared {amp : Nat} (h : rxOn s = true) (hl : s.warp.los = false) (ha : amp < 2 * fld s Reg.warpLosCfg 7 0)
    (hb : s.warp.below = 3) : ∃ t, exec (.amplitudeInterval amp) s = .next t ∧ t.warp.los = true ∧ t.warp.lof = true ∧
      t.warp.align = .hunt ∧ t.warp.cands = [] := by
  have hb4 : belowAfter s amp = 4 := by rw [belowAfter, if_pos ha, hb]; rfl
  refine ⟨_, exec_amplitude h amp, ?_⟩
  dsimp only
  rw [hb4, hl, if_pos (by decide), toHunt_warp]
  exact ⟨rfl, rfl, rfl, rfl⟩

theorem amplitude_losCleared {amp : Nat} (h : rxOn s = true) (hl : s.warp.los = true) (hab : s.warp.above = 63)
    (ha : 2 * (fld s Reg.warpLosCfg 7 0 + fld s Reg.warpLosCfg 15 8) < amp) :
    ∃ t, exec (.amplitudeInterval amp) s = .next t ∧ t.warp.los = false ∧ t.warp.lof = s.warp.lof ∧ t.warp.sd = s.warp.sd := by
  have h64 : aboveAfter s amp = 64 := by rw [aboveAfter, if_pos ha, hab]; rfl
  refine ⟨_, exec_amplitude h amp, ?_⟩
  dsimp only
  rw [h64, hl, if_neg (by simp), if_pos (by decide), setDefects_warp]
  exact ⟨rfl, rfl, rfl⟩

/-! ## The framer in SYNC -/

/-- A window that the framer in SYNC does not expect to differ in more than TOL bits. -/
def psyncMiss (s : State) (w : Nat) : Bool := decide (fld s Reg.warpAlignCfg 2 0 < popcount 64 (w ^^^ psync))

/-- What every window at the expected position does. -/
def pickSeen (s : State) : State := setWarp s { s.warp with rx := {}, last := s.warp.last.map (fun e => (e.1, e.2 + 1)) }

theorem exec_psync_elsewhere {pos w : Nat} {hdr : List Byte} {bad : Bool} (h : rxOn s = true) (hl : s.warp.los = false)
    (ha : s.warp.align = .sync) (hp : pos ≠ s.warp.pos) : exec (.psyncWindow pos w hdr bad) s = .next s := by
  rw [exec, execPsyncWindow, h, hl, if_neg (by simp), ha]
  dsimp only
  rw [if_pos hp]

section
variable {w : Nat} {hdr : List Byte} {bad : Bool}

theorem exec_psync_hit (h : rxOn s = true) (hl : s.warp.los = false) (ha : s.warp.align = .sync) (hm : psyncMiss s w = false) :
    exec (.psyncWindow s.warp.pos w hdr bad) s = .next (enterLock (setWarp (pickSeen s) { (pickSeen s).warp with misses := 0 })) := by
  rw [exec, execPsyncWindow, h, hl, if_neg (by simp), ha]
  dsimp only
  rw [if_neg (by simp)]
  refine congrArg Host.Outcome.next (if_neg ?_)
  rw [psyncMiss] at hm
  rw [hm]
  simp

/-- A miss counts; the third in a row takes the framer to HUNT. -/
theorem exec_psync_miss (h : rxOn s = true) (hl : s.warp.los = false) (ha : s.warp.align = .sync) (hm : psyncMiss s w = true) :
    exec (.psyncWindow s.warp.pos w hdr bad) s = .next (
      if 2 ≤ (count (pickSeen s) 0 4).warp.misses then toHunt (count (pickSeen s) 0 4) (count (pickSeen s) 0 4).warp.los
      else setWarp (count (pickSeen s) 0 4) { (count (pickSeen s) 0 4).warp with misses := (count (pickSeen s) 0 4).warp.misses + 1 }) := by
  rw [exec, execPsyncWindow, h, hl, if_neg (by simp), ha]
  dsimp only
  rw [if_neg (by simp)]
  exact congrArg Host.Outcome.next (if_pos hm)

theorem psync_firstMisses (hs : s.inv) (h : rxOn s = true) (hl : s.warp.los = false) (ha : s.warp.align = .sync) (hm : psyncMiss s w = true)
    (h2 : s.warp.misses < 2) : ∃ t, exec (.psyncWindow s.warp.pos w hdr bad) s = .next t ∧ t.warp.misses = s.warp.misses + 1 ∧
      t.warp.align = .sync ∧ cntVal t 0 4 = min cntMax (cntVal s 0 4 + 1) := by
  have hw : (count (pickSeen s) 0 4).warp = (pickSeen s).warp := count_warp ..
  refine ⟨_, exec_psync_miss h hl ha hm, ?_⟩
  rw [hw, if_neg (by change ¬ 2 ≤ s.warp.misses; omega)]
  exact ⟨rfl, ha, cntVal_countBy_same (s := pickSeen s) hs 0 4 1⟩

theorem psync_thirdMiss (h : rxOn s = true) (hl : s.warp.los = false) (ha : s.warp.align = .sync) (hm : psyncMiss s w = true)
    (h2 : 2 ≤ s.warp.misses) : ∃ t, exec (.psyncWindow s.warp.pos w hdr bad) s = .next t ∧ t.warp.align = .hunt ∧ t.warp.lof = true ∧
      t.warp.reasm = [] ∧ t.pick.gen ≠ .locked := by
  have hw : (count (pickSeen s) 0 4).warp = (pickSeen s).warp := count_warp ..
  have hsync : (count (pickSeen s) 0 4).warp.align = .sync := by rw [hw]; exact ha
  refine ⟨_, exec_psync_miss h hl ha hm, ?_⟩
  rw [if_pos (by rw [hw]; exact h2)]
  refine ⟨?_, ?_, ?_, toHunt_unlocks hsync _⟩
  · rw [toHunt_warp]; rfl
  · rw [toHunt_warp]; rfl
  · rw [toHunt_warp]; exact if_pos hsync

end

/-! ## The framer enters SYNC -/

/-- A register below one that is written reads as before where it does not read as at reset, in whatever form the table is. -/
theorem rd_force_above {a b v : Nat} (hab : b < a) (hne : rd s b ≠ (regReset b).toNat) : rd (force s a v) b = rd s b := by
  have hdel : ∀ m : Sparse Word, sget (regReset b) m b ≠ regReset b → sget (regReset b) (sdel m a) b = sget (regReset b) m b := fun m => by
    induction m with
    | nil => exact fun _ => rfl
    | cons e t ih =>
      obtain ⟨k, x⟩ := e
      intro hm
      rw [sget] at hm
      by_cases hk : k = b
      · rw [sdel, if_neg (by omega)]
        split
        · rfl
        · rw [sget, sget, if_pos hk, if_pos hk]
      · rw [if_neg hk] at hm
        by_cases hlt : b < k
        · rw [if_pos hlt] at hm
          exact absurd rfl hm
        · rw [if_neg hlt] at hm
          rw [sdel, if_neg (by omega), if_neg (by omega), sget, sget, if_neg hk, if_neg hk, if_neg hlt, if_neg hlt]
          exact ih hm
  have hcur : sget (regReset b) s.cur b ≠ regReset b := fun h => hne (congrArg BitVec.toNat h)
  change (sget (regReset b) (sput (regReset a) s.cur a (BitVec.ofNat 32 v)) b).toNat = _
  rw [sput]
  split
  · rw [hdel _ hcur]; rfl
  · rw [sget_sins_other _ _ _ _ _ (by omega)]; rfl

/-- Register `b`, where it does not read as at reset, reads as before. -/
def KeepsSet (b : Nat) (s t : State) : Prop := rd s b ≠ (regReset b).toNat → rd t b = rd s b

theorem KeepsSet.trans {b : Nat} {t u : State} (h : KeepsSet b s t) (h' : KeepsSet b t u) : KeepsSet b s u := fun hne => by
  have h1 := h hne
  rw [← h1]
  exact h' (by rw [h1]; exact hne)

theorem KeepsSet.of_kept {b n : Nat} {t : State} (h : Kept n s t) (hn : n.testBit 3 = false) : KeepsSet b s t := fun _ => by
  rw [rd, rd, h.cur_eq hn]

theorem setFld_keepsSet {a b : Nat} (hab : b < a) (hi lo v : Nat) : KeepsSet b s (setFld s a hi lo v) := fun hne =>
  rd_force_above (s := stage s a _) hab hne

theorem ite_setBit_keepsSet {a b : Nat} (hab : b < a) (c : Prop) [Decidable c] (n : Nat) : KeepsSet b s (if c then setBit s a n else s) := by
  split
  · exact setFld_keepsSet hab n n 1
  · exact fun _ => rfl

theorem notifyDrop_keepsSet {b : Nat} (hb : b < Reg.hostStat) (c : Nat) (m : Bool) : KeepsSet b s (notifyDrop s c m) := by
  have h1 : KeepsSet b s (setBit (count s 14 14) Reg.hostStat 9) :=
    .trans (.of_kept (count_kept (.refl 16 s) (.refl _)) rfl) (setFld_keepsSet hb 9 9 1)
  rw [notifyDrop]
  split
  · exact h1.trans (.of_kept (setRing_kept (.refl _ _) (.refl _)) rfl)
  · exact h1

theorem notifyReg_keepsSet {b : Nat} (hb : b < Reg.hostStat) (a lo sub p : Nat) : KeepsSet b s (notifyReg s a lo sub p) := by
  rw [notifyReg]
  split
  · rw [notify]
    split
    · exact notifyDrop_keepsSet hb _ _
    · split
      · exact .of_kept (cqWrite_kept (.refl _ s) (.refl _)) rfl
      · exact notifyDrop_keepsSet hb _ _
  · exact fun _ => rfl

theorem setDefects_keepsSet {b : Nat} (hb : b < Reg.warpDefect) (los lof sd : Bool) : KeepsSet b s (setDefects s los lof sd) := by
  rw [setDefects]
  dsimp only
  split
  · exact fun _ => rfl
  · have h0 : KeepsSet b s (setWarp s { s.warp with los := los, lof := lof, sd := sd }) := fun _ => rfl
    refine .trans (.trans (.trans (h0.trans (ite_setBit_keepsSet hb ((los && !s.warp.los) = true) 16))
      (ite_setBit_keepsSet hb ((lof && !s.warp.lof) = true) 17)) (ite_setBit_keepsSet hb ((sd && !s.warp.sd) = true) 18)) ?_
    exact notifyReg_keepsSet (Nat.lt_trans hb (by decide)) _ _ _ _

/-- The state in which the third good occurrence leaves the framer, before the generator locks. -/
def synced (s : State) (pos : Nat) : State :=
  setFld (setWarp s { s.warp with align := .sync, cands := [], pos := pos, misses := 0, last := none, odd := none, rx := {} })
    Reg.warpAlignStat 6 0 (pos % 128)

theorem exec_psync_third {pos w : Nat} {hdr : List Byte} {bad : Bool} {c : Cand} (h : rxOn s = true) (hl : s.warp.los = false)
    (ha : s.warp.align ≠ .sync) (hc : s.warp.cands.find? (fun c => c.pos == pos) = some c) (h2 : c.seen = 2)
    (hm : psyncMiss s w = false) (hh : headerOk hdr bad = true) : exec (.psyncWindow pos w hdr bad) s =
      .next (enterLock (setDefects (synced s pos) s.warp.los false s.warp.sd)) := by
  have hthird : 3 ≤ c.seen + 1 ∧ headerOk hdr bad = true := ⟨by omega, hh⟩
  have hmiss : ¬ decide (fld s Reg.warpAlignCfg 2 0 < popcount 64 (w ^^^ psync)) = true := by
    rw [psyncMiss] at hm
    rw [hm]
    exact Bool.false_ne_true
  have hon : (!rxOn s || s.warp.los) = false := by rw [h, hl]; rfl
  rw [exec, execPsyncWindow, hon, if_neg (by simp)]
  refine congrArg Host.Outcome.next ?_
  cases hal : s.warp.align with
  | sync => exact absurd hal ha
  | hunt =>
    dsimp only
    rw [hc]
    dsimp only
    rw [if_neg hmiss, if_pos hthird]
    rfl
  | presync =>
    dsimp only
    rw [hc]
    dsimp only
    rw [if_neg hmiss, if_pos hthird]
    rfl

theorem enterLock_locks (h : flag s Reg.pickCtrl 0 = true) : (enterLock s).pick.gen = .locked := by
  rw [enterLock, h, Bool.true_and]
  split
  · rfl
  · simp_all

theorem synced_pickCtrl {pos : Nat} (h : flag s Reg.pickCtrl 0 = true) (los lof sd : Bool) :
    flag (setDefects (synced s pos) los lof sd) Reg.pickCtrl 0 = true := by
  have hreset : (regReset Reg.pickCtrl).toNat = 0 := by decide
  have hne : rd s Reg.pickCtrl ≠ (regReset Reg.pickCtrl).toNat := fun he => by
    rw [flag, he, hreset] at h
    simp at h
  have hk : KeepsSet Reg.pickCtrl s (setDefects (synced s pos) los lof sd) :=
    .trans (t := synced s pos) (fun hne => setFld_keepsSet (s := setWarp s _) (by decide) 6 0 (pos % 128) hne) (setDefects_keepsSet (by decide) _ _ _)
  rw [flag, hk hne]
  exact h

theorem psync_entersSync {pos w : Nat} {hdr : List Byte} {bad : Bool} {c : Cand} (h : rxOn s = true) (hl : s.warp.los = false)
    (ha : s.warp.align ≠ .sync) (hc : s.warp.cands.find? (fun c => c.pos == pos) = some c) (h2 : c.seen = 2)
    (hm : psyncMiss s w = false) (hh : headerOk hdr bad = true) :
    ∃ t, exec (.psyncWindow pos w hdr bad) s = .next t ∧ t.warp.align = .sync ∧ t.warp.pos = pos ∧ t.warp.cands = [] ∧
      t.warp.lof = false ∧ (flag s Reg.pickCtrl 0 = true → t.pick.gen = .locked) := by
  refine ⟨_, exec_psync_third h hl ha hc h2 hm hh, ?_⟩
  rw [enterLock_warp, setDefects_warp]
  exact ⟨rfl, rfl, rfl, rfl, fun hf => enterLock_locks (synced_pickCtrl hf _ _ _)⟩

theorem psyncMiss_false {w : Nat} (h : popcount 64 (w ^^^ psync) ≤ fld s Reg.warpAlignCfg 2 0) : psyncMiss s w = false :=
  decide_eq_false (by omega)

theorem psyncMiss_true {w : Nat} (h : fld s Reg.warpAlignCfg 2 0 < popcount 64 (w ^^^ psync)) : psyncMiss s w = true := decide_eq_true h

end

/-- Settles O10: each detector and framer event by the operation it comes to; `toHunt_warp` and `setDefects_warp` say what those leave of
the receiver. -/
theorem detectorsAndFramerTrackLine : Obligations.DetectorsAndFramerTrackLine := by
  unfold Obligations.DetectorsAndFramerTrackLine
  refine ⟨⟨fun s h hl => ?_, fun s hc ha => ?_, fun s hc ha => ?_, fun s amp h hl ha => amplitude_level h hl ha,
    fun s amp h hl ha hb => amplitude_losDeclared h hl ha hb, fun s amp h hl hab ha => amplitude_losCleared h hl hab ha⟩,
    fun s pos w hdr bad h hl ha => ⟨fun hp => exec_psync_elsewhere h hl ha hp, ?_, ?_, ?_⟩,
    fun s pos w hdr bad c h hl ha hc h2 hm hh => psync_entersSync h hl ha hc h2 (psyncMiss_false hm) hh⟩
  · rw [exec, execCdrLock, h, hl, if_pos (by simp)]
    rfl
  · rw [exec, execCdrLockLoss, hc, if_pos rfl]
    dsimp only
    rw [if_pos ha]
    rfl
  · rw [exec, execCdrLockLoss, hc, if_pos rfl]
    dsimp only
    rw [if_neg ha]
    rfl
  · rintro rfl hm hg
    rw [exec_psync_hit h hl ha (psyncMiss_false hm), enterLock, if_neg]
    · rfl
    · change ¬ (flag s Reg.pickCtrl 0 && s.pick.gen != .locked) = true
      rw [hg]
      simp
  · rintro rfl hm h2 hs
    exact psync_firstMisses hs h hl ha (psyncMiss_true hm) h2
  · rintro rfl hm h2
    exact psync_thirdMiss h hl ha (psyncMiss_true hm) h2

end Sys2Proof.Machine
end

