-- ==== Sys2Proof/Proofs/PickContents.lean ====
section
/-! SUPPORT. Proofs/PickContents.lean: codewords, pick headers, reassembly timeouts and performance-monitoring seconds (R59 to R65, R74 to
R82). -/

namespace Sys2Proof.Machine

open Sys2Proof

section
variable {s : State}

/-! ## Codewords (R59 to R62) -/

theorem codewordDue_of {idx : Nat} (h : rxOn s = true) (ha : s.warp.align = .sync) (hi : idx < 480) (hn : s.warp.rx.next = idx)
    (hm : s.power.mode ≠ .doze ∨ idx ≤ lastDozeCw s.warp.rx) : codewordDue idx s = true := by
  rw [codewordDue, h, ha, hn]
  rcases hm with hm | hm
  · simp [hi, hm]
  · simp [hi, hm]

/-- The codeword is taken. -/
def codewordTaken (idx : Nat) (s : State) : State := count (setWarp s { s.warp with rx := { s.warp.rx with next := idx + 1 } }) 0 0

theorem codewordTaken_warp (idx : Nat) : (codewordTaken idx s).warp = { s.warp with rx := { s.warp.rx with next := idx + 1 } } := count_warp ..

theorem codewordTaken_cnt (hs : s.inv) (idx : Nat) : (codewordTaken idx s).inv ∧
    cntVal (codewordTaken idx s) 0 0 = min cntMax (cntVal s 0 0 + 1) ∧ cntVal (codewordTaken idx s) 0 2 = cntVal s 0 2 ∧
      cntVal (codewordTaken idx s) 0 3 = cntVal s 0 3 := by
  have hw : (setWarp s { s.warp with rx := { s.warp.rx with next := idx + 1 } }).inv := hs
  exact ⟨count_inv hw 0 0, cntVal_countBy_same hw 0 0 1, cntVal_countBy_other hw (by decide) 1, cntVal_countBy_other hw (by decide) 1⟩

/-- Corrected bits are counted, where there are any. -/
def bitsCounted (n : Nat) (s : State) : State := if 0 < n then countBy (count s 0 1) 0 3 n else s

theorem bitsCounted_kept (n : Nat) : Kept 16 s (bitsCounted n s) := by
  rw [bitsCounted]
  split
  · exact countBy_kept (count_kept (.refl _ s) (.refl _)) (.refl _)
  · exact .refl _ s

theorem cntVal_le (hs : s.inv) (g n : Nat) : cntVal s g n ≤ cntMax := by
  have hc := hs.2
  rw [State.countersWf, List.all_eq_true] at hc
  have hle : ∀ l : Sparse Nat, (∀ e ∈ l, e.2 ≤ cntMax) → sget 0 l (cntKey g n) ≤ cntMax := fun l => by
    induction l with
    | nil => exact fun _ => Nat.zero_le _
    | cons e t ih =>
      intro hl
      obtain ⟨k, v⟩ := e
      rw [sget]
      split
      · exact hl (k, v) List.mem_cons_self
      · split
        · exact Nat.zero_le _
        · exact ih (fun e he => hl e (List.mem_cons_of_mem _ he))
  exact hle _ (fun e he => by simpa using hc e he)

theorem bitsCounted_cnt (hs : s.inv) (n : Nat) : cntVal (bitsCounted n s) 0 0 = cntVal s 0 0 ∧ cntVal (bitsCounted n s) 0 2 = cntVal s 0 2 ∧
    cntVal (bitsCounted n s) 0 3 = min cntMax (cntVal s 0 3 + n) := by
  rw [bitsCounted]
  split
  · have h1 := count_inv hs 0 1
    have e : ∀ k, k ≠ 1 → cntVal (count s 0 1) 0 k = cntVal s 0 k := fun k hk =>
      cntVal_countBy_other hs (by unfold cntKey; omega) 1
    rw [cntVal_countBy_other h1 (by decide), cntVal_countBy_other h1 (by decide), cntVal_countBy_same h1]
    rw [e 0 (by decide), e 2 (by decide), e 3 (by decide)]
    exact ⟨rfl, rfl, rfl⟩
  · have := cntVal_le hs 0 3
    exact ⟨rfl, rfl, by omega⟩

theorem codewordDone_corrected {idx n : Nat} (hd : codewordDue idx s = true) : ∃ p, codewordDone idx (some n) s =
    setPm (bitsCounted n (codewordTaken idx s)) p ∧ p.bits = s.warp.pm.bits + n := by
  have hw : (bitsCounted n (codewordTaken idx s)).warp.pm = s.warp.pm := by
    rw [(bitsCounted_kept n).warp_eq rfl, codewordTaken_warp]
  rw [codewordDone, if_pos hd]
  refine ⟨_, rfl, ?_⟩
  · change (pmBits (bitsCounted n (codewordTaken idx s)).warp.pm n).bits + n = _
    rw [hw]
    rfl

theorem codewordDone_poisoned {idx : Nat} (hd : codewordDue idx s = true) : ∃ p, codewordDone idx none s =
    (let u := setPm (addRei (count (codewordTaken idx s) 0 2) 1) p
     setWarp u { u.warp with rx := { u.warp.rx with poison := u.warp.rx.poison ++ [idx] } }) := by
  rw [codewordDone, if_pos hd]
  exact ⟨_, rfl⟩

theorem codeword_corrected {idx n : Nat} (hs : s.inv) (hd : codewordDue idx s = true) :
    (codewordDone idx (some n) s).warp.rx.next = idx + 1 ∧
      cntVal (codewordDone idx (some n) s) 0 0 = min cntMax (cntVal s 0 0 + 1) ∧
      cntVal (codewordDone idx (some n) s) 0 2 = cntVal s 0 2 ∧
      cntVal (codewordDone idx (some n) s) 0 3 = min cntMax (cntVal s 0 3 + n) ∧
      (codewordDone idx (some n) s).warp.rx.poison = s.warp.rx.poison ∧
      (codewordDone idx (some n) s).warp.pm.bits = s.warp.pm.bits + n ∧ (codewordDone idx (some n) s).weft = s.weft := by
  obtain ⟨p, hp, hbits⟩ := codewordDone_corrected (n := n) hd
  obtain ⟨hi, h0, h2, h3⟩ := codewordTaken_cnt hs idx
  obtain ⟨e0, e2, e3⟩ := bitsCounted_cnt hi n
  have hrx : (bitsCounted n (codewordTaken idx s)).warp.rx = { s.warp.rx with next := idx + 1 } := by
    rw [(bitsCounted_kept n).warp_eq rfl, codewordTaken_warp]
  rw [hp]
  refine ⟨?_, e0.trans h0, e2.trans h2, e3.trans (by rw [h3]), ?_, hbits, ?_⟩
  · change (bitsCounted n (codewordTaken idx s)).warp.rx.next = _
    rw [hrx]
  · change (bitsCounted n (codewordTaken idx s)).warp.rx.poison = _
    rw [hrx]
  · change (bitsCounted n (codewordTaken idx s)).weft = _
    rw [(bitsCounted_kept n).weft_eq rfl]
    exact count_weft ..

theorem codeword_poisoned {idx : Nat} (hs : s.inv) (hd : codewordDue idx s = true) (h8 : domOn s 8 = true) :
    (codewordDone idx none s).warp.rx.next = idx + 1 ∧
      cntVal (codewordDone idx none s) 0 0 = min cntMax (cntVal s 0 0 + 1) ∧
      cntVal (codewordDone idx none s) 0 2 = min cntMax (cntVal s 0 2 + 1) ∧ cntVal (codewordDone idx none s) 0 3 = cntVal s 0 3 ∧
      (codewordDone idx none s).warp.rx.poison = s.warp.rx.poison ++ [idx] ∧
      (codewordDone idx none s).weft = { s.weft with rei := min 255 (s.weft.rei + 1) } := by
  obtain ⟨p, hp⟩ := codewordDone_poisoned hd
  obtain ⟨hi, h0, h2, h3⟩ := codewordTaken_cnt hs idx
  have hc : (count (codewordTaken idx s) 0 2).warp = { s.warp with rx := { s.warp.rx with next := idx + 1 } } :=
    (count_warp ..).trans (codewordTaken_warp idx)
  have hweft : (count (codewordTaken idx s) 0 2).weft = s.weft := (count_weft ..).trans (count_weft ..)
  have hdom : domOn (count (codewordTaken idx s) 0 2) 8 = true := by
    rw [domOn, count_power]
    change (count _ 0 0).power.isOn.testBit 8 = true
    rw [count_power]
    exact h8
  have hrei : addRei (count (codewordTaken idx s) 0 2) 1 =
      setWeft (count (codewordTaken idx s) 0 2) { s.weft with rei := min 255 (s.weft.rei + 1) } := by
    rw [addRei, if_pos hdom, hweft]
  have h00 : cntVal (count (codewordTaken idx s) 0 2) 0 0 = cntVal (codewordTaken idx s) 0 0 := cntVal_countBy_other hi (by decide) 1
  have h02 : cntVal (count (codewordTaken idx s) 0 2) 0 2 = min cntMax (cntVal (codewordTaken idx s) 0 2 + 1) := cntVal_countBy_same hi 0 2 1
  have h03 : cntVal (count (codewordTaken idx s) 0 2) 0 3 = cntVal (codewordTaken idx s) 0 3 := cntVal_countBy_other hi (by decide) 1
  rw [hp, hrei]
  generalize count (codewordTaken idx s) 0 2 = u at *
  refine ⟨?_, h00.trans h0, h02.trans (by rw [h2]), h03.trans h3, ?_, rfl⟩
  · change u.warp.rx.next = _
    rw [hc]
  · change u.warp.rx.poison ++ [idx] = _
    rw [hc]

/-! ## The decoder (R59, R61) -/

/-- The first element that passes a test, by its place. -/
theorem find?_eq_some_iff_first {α : Type} {p : α → Bool} {l : List α} {w : α} : l.find? p = some w ↔
    ∃ k : Nat, l[k]? = some w ∧ p w = true ∧ ∀ j < k, ∀ v, l[j]? = some v → p v = false := by
  rw [List.find?_eq_some_iff_getElem]
  constructor
  · rintro ⟨hp, k, hk, rfl, hfirst⟩
    refine ⟨k, List.getElem?_eq_getElem hk, hp, fun j hj v hv => ?_⟩
    obtain ⟨hjl, rfl⟩ := List.getElem?_eq_some_iff.1 hv
    simpa using hfirst j hj
  · rintro ⟨k, hk, hp, hfirst⟩
    obtain ⟨hkl, rfl⟩ := List.getElem?_eq_some_iff.1 hk
    refine ⟨hp, k, hkl, rfl, fun j hj => ?_⟩
    simpa using hfirst j hj _ (List.getElem?_eq_getElem (by omega))

theorem decoded_iff (idx : Nat) (words : List Nat) (w : Nat) : decoded s idx words = some w ↔
    ∃ k, k < fld s Reg.warpFecCfg 3 0 ∧ words[k]?.map (fixSync idx) = some w ∧ codeOk 576 w = true ∧
      ∀ j < k, ∀ v, words[j]?.map (fixSync idx) = some v → codeOk 576 v = false := by
  have hat : ∀ k : Nat, ((words.take (fld s Reg.warpFecCfg 3 0)).map (fixSync idx))[k]? =
      if k < fld s Reg.warpFecCfg 3 0 then words[k]?.map (fixSync idx) else none := fun k => by
    rw [List.getElem?_map, List.getElem?_take]
    split <;> rfl
  rw [decoded, find?_eq_some_iff_first]
  constructor
  · rintro ⟨k, hk, hp, hfirst⟩
    rw [hat] at hk
    have hlt : k < fld s Reg.warpFecCfg 3 0 := by
      by_contra hc
      rw [if_neg hc] at hk
      cases hk
    rw [if_pos hlt] at hk
    exact ⟨k, hlt, hk, hp, fun j hj v hv => hfirst j hj v (by rw [hat, if_pos (by omega)]; exact hv)⟩
  · rintro ⟨k, hlt, hk, hp, hfirst⟩
    refine ⟨k, by rw [hat, if_pos hlt]; exact hk, hp, fun j hj v hv => ?_⟩
    rw [hat, if_pos (by omega)] at hv
    exact hfirst j hj v hv

/-! ## The pick header (R63 to R65) -/

/-- The receiver after a header that passes, outside DOZE: counts, partitions, and the walk of the frame partition. -/
def headerWarp (s : State) (h : List Byte) : Warp :=
  { s.warp with
    rx := { s.warp.rx with
      checked := true, ok := true, count := beAt h 0 6, mapLen := beAt h 8 2 % 1024, msgLen := beAt h 10 2 % 512
      todRef := (h.getD 12 0).getLsbD 7, quiet := (h.getD 12 0).getLsbD 6
      walk := some (partStart (beAt h 8 2 % 1024) (beAt h 10 2 % 512)) }
    last := some (beAt h 0 6, 0), odd := none }

theorem headerDue {h : rxOn s = true} (ha : s.warp.align = .sync) (hc : s.warp.rx.checked = false) :
    (rxOn s && s.warp.align == .sync && !s.warp.rx.checked) = true := by
  rw [h, ha, hc]
  rfl

/-- A header of which the count fits gives the pick its contents; its time record is the time unit's matter. -/
theorem exec_pickHeader_fits {h : List Byte} {back : Nat} (hon : rxOn s = true) (ha : s.warp.align = .sync) (hc : s.warp.rx.checked = false)
    (hw : warpOk s = true) (hh : headerOk h (poisoned s.warp.rx 8 24) = true)
    (hfit : ∀ e, s.warp.last = some e → (e.1 + e.2) % 2 ^ 48 = beAt h 0 6) (hm : s.power.mode ≠ .doze) :
    ∃ t, exec (.pickHeader h back) s = .next t ∧ t.warp = headerWarp s h ∧ t.pick = s.pick := by
  have hfits : ((s.warp.last.map (fun e => (e.1 + e.2) % 2 ^ 48)).isNone ||
      s.warp.last.map (fun e => (e.1 + e.2) % 2 ^ 48) == some (beAt h 0 6)) = true := by
    cases hl : s.warp.last with
    | none => rfl
    | some e =>
      rw [Option.map_some, hfit e hl]
      exact beq_self_eq_true _
  have hbad : (!(headerOk h (poisoned s.warp.rx 8 24)) || !warpOk s) = false := by rw [hh, hw]; rfl
  have htake : ∀ u : State, u.warp = headerWarp s h → u.pick = s.pick →
      ∃ t, Host.Outcome.next (if (h.getD 12 0).getLsbD 7 then timeRecord u (beAt h 0 6) u.act.eqd back else u) =
        (Host.Outcome.next t : Host.Outcome State Fault Refusal) ∧ t.warp = headerWarp s h ∧ t.pick = s.pick := fun u h1 h2 => by
    refine ⟨_, rfl, ?_⟩
    split
    · have hk : Kept 33554432 u (timeRecord u (beAt h 0 6) u.act.eqd back) := timeRecord_kept (.refl _ u) (.refl _)
      exact ⟨(hk.warp_eq rfl).trans h1, (hk.pick_eq rfl).trans h2⟩
    · exact ⟨h1, h2⟩
  have hstep : exec (.pickHeader h back) s = Host.Outcome.next (
      if (h.getD 12 0).getLsbD 7 then timeRecord (setWarp s (headerWarp s h)) (beAt h 0 6) s.act.eqd back else setWarp s (headerWarp s h)) := by
    rw [exec, execPickHeader, if_pos (headerDue (h := hon) ha hc)]
    refine congrArg Host.Outcome.next ((if_neg ?_).trans ?_)
    · change ¬ (!(headerOk h (poisoned s.warp.rx 8 24)) || !warpOk s) = true
      rw [hbad]
      exact Bool.false_ne_true
    · dsimp only
      refine (if_pos ?_).trans ?_
      · change (((s.warp.last.map (fun e => (e.1 + e.2) % 2 ^ 48)).isNone ||
          s.warp.last.map (fun e => (e.1 + e.2) % 2 ^ 48) == some (beAt h 0 6)) || _) = true
        rw [hfits, Bool.true_or]
      · simp only [hfits, hm, Bool.not_true, Bool.false_and, Bool.false_eq_true, if_false, setWarp_warp, setWarp_power]
        rfl
  rw [hstep]
  exact htake (setWarp s (headerWarp s h)) rfl rfl

/-- A failed header leaves the receiver without a walk and without reassembly contexts. -/
theorem headerFail_warp : (headerFail s).warp.rx = { s.warp.rx with ok := false, walk := none } ∧ (headerFail s).warp.misses = s.warp.misses ∧
    (headerFail s).warp.reasm = [] := by
  have hdrop : ∀ u : State, (dropContexts u).warp = { u.warp with reasm := [] } := fun u => (countBy_kept (.refl 16 _) (.refl _)).warp_eq rfl
  have hcount : ∀ (u : State) (p : Pm), (if domOn u 8 then count u 1 15 else u).warp = u.warp := fun u p => by
    split
    · exact count_warp ..
    · rfl
  rw [headerFail]
  dsimp only
  rw [hdrop, setWarp_warp, hcount _ s.warp.pm, setPm, setWarp_warp, count_warp]
  exact ⟨rfl, rfl, rfl⟩

theorem dropContexts_cntVal (hs : s.inv) : cntVal (dropContexts s) 0 5 = cntVal s 0 5 ∧
    cntVal (dropContexts s) 0 13 = min cntMax (cntVal s 0 13 + s.warp.reasm.length) := by
  have hw : (setWarp s { s.warp with reasm := [] }).inv := hs
  exact ⟨cntVal_countBy_other hw (by decide) _, cntVal_countBy_same hw 0 13 _⟩

theorem headerFail_cnt (hs : s.inv) : cntVal (headerFail s) 0 5 = min cntMax (cntVal s 0 5 + 1) ∧
    cntVal (headerFail s) 0 13 = min cntMax (cntVal s 0 13 + s.warp.reasm.length) := by
  have h1 := count_inv hs 0 5
  have hgrant : ∀ u : State, u.inv → u.warp.reasm = s.warp.reasm → (if domOn u 8 then count u 1 15 else u).inv ∧
      (if domOn u 8 then count u 1 15 else u).warp.reasm = s.warp.reasm ∧ ∀ n, n ≤ 13 →
        cntVal (if domOn u 8 then count u 1 15 else u) 0 n = cntVal u 0 n := fun u hu hr => by
    split
    · exact ⟨count_inv hu 1 15, (congrArg Warp.reasm (count_warp ..)).trans hr, fun n hn => cntVal_countBy_other hu (by unfold cntKey; omega) 1⟩
    · exact ⟨hu, hr, fun n _ => rfl⟩
  rw [headerFail]
  dsimp only
  obtain ⟨hi, hr, hsame⟩ := hgrant (setPm (count s 0 5) { pmEvent (count s 0 5).warp.pm 5 1 with hdr := (pmEvent (count s 0 5).warp.pm 5 1).hdr + 1 })
    h1 (congrArg Warp.reasm (count_warp s 0 5) : (count s 0 5).warp.reasm = s.warp.reasm)
  generalize (if domOn (setPm (count s 0 5) _) 8 then _ else _) = u at hi hr hsame ⊢
  obtain ⟨e5, e13⟩ := dropContexts_cntVal (s := setWarp u { u.warp with rx := { u.warp.rx with ok := false, walk := none } }) hi
  have h13 : cntVal u 0 13 = cntVal s 0 13 := (hsame 13 (by decide)).trans (cntVal_countBy_other hs (by decide) 1)
  constructor
  · exact e5.trans ((hsame 5 (by decide)).trans (cntVal_countBy_same hs 0 5 1))
  · refine e13.trans ?_
    rw [setWarp_warp, hr]
    exact congrArg (fun v => min cntMax (v + s.warp.reasm.length)) h13

theorem exec_pickHeader_fails {h : List Byte} {back : Nat} (hon : rxOn s = true) (ha : s.warp.align = .sync) (hc : s.warp.rx.checked = false)
    (hh : headerOk h (poisoned s.warp.rx 8 24) = false) : exec (.pickHeader h back) s =
      .next (headerFail (setWarp s { s.warp with rx := { s.warp.rx with checked := true }, odd := none })) := by
  rw [exec, execPickHeader, if_pos (headerDue (h := hon) ha hc)]
  refine congrArg Host.Outcome.next (if_pos ?_)
  change (!(headerOk h (poisoned s.warp.rx 8 24)) || _) = true
  rw [hh]
  rfl

/-! ## Reassembly timeouts (R74) -/

theorem exec_reasmTimeout_old {stream : Nat} {r : Reasm} (hr : sget none s.warp.reasm stream = some r)
    (ho : fld s Reg.warpReasmCfg 3 0 < r.age) : exec (.reasmTimeout stream) s =
      .next (count (setWarp s { s.warp with reasm := sput none s.warp.reasm stream none }) 0 13) := by
  rw [exec, execReasmTimeout, hr]
  dsimp only
  rw [if_pos ho, dropContext, hr]

/-! ## Performance-monitoring seconds (R76 to R81) -/

/-- Declaring defects changes the defect latches and the notification queue's registers alone. -/
theorem setDefects_regs (los lof sd : Bool) : RegsIn [Reg.warpDefect, Reg.hostStat] s (setDefects s los lof sd) := by
  have hbit : ∀ (u : State) (b : Bool) (n : Nat), RegsIn [Reg.warpDefect, Reg.hostStat] u (if b then setBit u Reg.warpDefect n else u) :=
    fun u b n => by
      split
      · exact regsIn_setBit (by decide) n
      · exact .refl _ u
  rw [setDefects]
  dsimp only
  split
  · exact .refl _ s
  · have h0 : RegsIn [Reg.warpDefect, Reg.hostStat] s (setWarp s { s.warp with los := los, lof := lof, sd := sd }) := fun hs => ⟨hs, fun _ _ => ⟨rfl, rfl⟩⟩
    exact ((h0.trans (hbit _ _ 16)).trans (hbit _ _ 17)).trans ((hbit _ _ 18).trans (regsIn_notifyReg (by decide) _ _ _ _))

/-- The review of SD changes only its run count, SD and their registers. -/
theorem sdReview_cases : (∃ n, sdReview s = setPm s { s.warp.pm with sdRun := n }) ∨
    ∃ n sd, sdReview s = setDefects (setPm s { s.warp.pm with sdRun := n }) s.warp.los s.warp.lof sd := by
  rw [sdReview]
  dsimp only
  split
  · exact .inl ⟨_, rfl⟩
  · split
    · split
      · exact .inr ⟨_, _, rfl⟩
      · exact .inl ⟨_, rfl⟩
    · split
      · split
        · exact .inr ⟨_, _, rfl⟩
        · exact .inl ⟨_, rfl⟩
      · exact .inl ⟨_, rfl⟩

theorem sdReview_regs : RegsIn [Reg.warpDefect, Reg.hostStat] s (sdReview s) := by
  have hpm : ∀ p, RegsIn [Reg.warpDefect, Reg.hostStat] s (setPm s p) := fun p hs => ⟨hs, fun _ _ => ⟨rfl, rfl⟩⟩
  obtain ⟨n, hn⟩ | ⟨n, sd, hn⟩ := sdReview_cases (s := s)
  · rw [hn]
    exact hpm _
  · rw [hn]
    exact (hpm _).trans (setDefects_regs _ _ sd)

/-- What of the interval counts a new second starts from. -/
def pmStart (p : Pm) (n : Nat) : Prop := p.bits = 0 ∧ p.cw = 0 ∧ p.ucw = 0 ∧ p.hdr = 0 ∧ p.ended = n

theorem pmStart_bounds {p : Pm} {n : Nat} (h : pmStart p n) (c : Nat) :
    pmStart (let p := if c % 7200000 = 0 then pmQuarter p c false else p; if c % 691200000 = 0 then pmDay p c false else p) n := by
  dsimp only
  split <;> split <;> exact h

theorem exec_pmSecondEnd {line : Option Nat} (hs : s.inv) (hf : framerOn s = true) (hc : comingCount s line % 8000 = 0)
    (he : s.warp.pm.ended ≠ s.pick.commits + 1) : ∃ t, exec (.pmSecondEnd line) s = .next t ∧
      rd t Reg.warpBerBits = min s.warp.pm.bits 0xFFFFFFFF ∧ rd t Reg.warpBerCw = min s.warp.pm.cw 0x3FFFFF ∧
      pmStart t.warp.pm (s.pick.commits + 1) := by
  have hcond : (framerOn s && comingCount s line % 8000 == 0 && s.warp.pm.ended != s.pick.commits + 1) = true := by
    simp [hf, hc, he]
  have h1 := setReg_inv hs Reg.warpBerBits (min s.warp.pm.bits 0xFFFFFFFF)
  have h2 := setReg_inv h1 Reg.warpBerCw (min s.warp.pm.cw (2 ^ 22 - 1))
  have hbits : rd (setReg (setReg s Reg.warpBerBits (min s.warp.pm.bits 0xFFFFFFFF)) Reg.warpBerCw (min s.warp.pm.cw (2 ^ 22 - 1)))
      Reg.warpBerBits = min s.warp.pm.bits 0xFFFFFFFF := by
    rw [rd_setReg_other h1 (by decide), rd_setReg_same hs]
    omega
  have hcw : rd (setReg (setReg s Reg.warpBerBits (min s.warp.pm.bits 0xFFFFFFFF)) Reg.warpBerCw (min s.warp.pm.cw (2 ^ 22 - 1)))
      Reg.warpBerCw = min s.warp.pm.cw 0x3FFFFF := by
    rw [rd_setReg_same h1]
    omega
  have hpick : (sdReview (setReg (setReg s Reg.warpBerBits (min s.warp.pm.bits 0xFFFFFFFF)) Reg.warpBerCw
      (min s.warp.pm.cw (2 ^ 22 - 1)))).pick = s.pick := (sdReview_kept (.refl _ _) (.refl _)).pick_eq rfl
  rw [exec, execPmSecondEnd]
  dsimp only
  rw [if_pos hcond]
  refine ⟨_, rfl, ?_, ?_, pmStart_bounds ?_ _⟩
  · exact (sdReview_regs.rd h2 (by decide)).trans hbits
  · exact (sdReview_regs.rd h2 (by decide)).trans hcw
  · rw [hpick]
    exact ⟨rfl, rfl, rfl, rfl, rfl⟩

end

/-- Settles O12: the due codeword is counted and corrected or poisoned, the header is taken or fails the pick, an old
reassembly context is dropped, and the second's bits and codewords are shown and start again. -/
theorem pickContentsCountAndCheck : Obligations.PickContentsCountAndCheck := by
  refine ⟨fun s idx levels words hs hon ha hi hn hm => ?_, fun s idx words w => decoded_iff idx words w,
    fun s h back hon ha hc hw hh hfit hm => ?_, fun s h back hs hon ha hc hh => ?_, fun s stream r hs hr ho => ?_,
    fun s line hs hf hc he => ?_⟩
  · have hd := codewordDue_of hon ha hi hn hm
    constructor
    · intro w hw
      refine ⟨_, ?_, codeword_corrected hs hd⟩
      rw [exec, execCodewordDecode, hw, Option.map_some]
    · intro hw h8
      refine ⟨_, ?_, codeword_poisoned hs hd h8⟩
      rw [exec, execCodewordDecode, hw, Option.map_none]
  · obtain ⟨t, ht, hwarp, hpick⟩ := exec_pickHeader_fits hon ha hc hw hh hfit hm (back := back)
    refine ⟨t, ht, ?_⟩
    rw [hwarp]
    exact ⟨rfl, rfl, rfl, rfl, rfl, rfl, hpick⟩
  · obtain ⟨hrx, hmiss, hreasm⟩ := headerFail_warp (s := setWarp s { s.warp with rx := { s.warp.rx with checked := true }, odd := none })
    refine ⟨_, exec_pickHeader_fails hon ha hc hh, ?_, ?_, hmiss, hreasm, headerFail_cnt (s := setWarp s _) hs⟩
    · rw [hrx]
    · rw [hrx]
  · exact ⟨_, exec_reasmTimeout_old hr ho, congrArg Warp.reasm (count_warp ..),
      cntVal_countBy_same (s := setWarp s { s.warp with reasm := sput none s.warp.reasm stream none }) hs 0 13 1⟩
  · obtain ⟨t, ht, hb, hcw, h1, h2, h3, h4, h5⟩ := exec_pmSecondEnd hs hf hc he
    exact ⟨t, ht, hb, hcw, h1, h2, h3, h4, h5⟩

end Sys2Proof.Machine
end

