-- ==== Sys2Proof/Proofs/FramePartition.lean ====
section
/-! SUPPORT. Proofs/FramePartition.lean: the walk through the frame partition and the tests of a CLP frame (R68 to R74). -/

namespace Sys2Proof.Machine

open Sys2Proof

section
variable {s : State}

/-- A delineated frame comes to its tests, and the walk stands at the next header. -/
theorem exec_clpFrame_delineated {data : List Byte} {o : Nat} (cut : Option Nat) (hon : rxOn s = true) (ha : s.warp.align = .sync)
    (hok : s.warp.rx.ok = true) (hw : s.warp.rx.walk = some o) (hp : poisoned s.warp.rx o 8 = false) (hc : clpOk (beAt data 0 8) = true)
    (hi : o + clpSpan (clpAt o data 0) ≤ infoBytes) : exec (.clpFrame data cut) s =
      .next (clpTests (setWalk s (some (o + clpSpan (clpAt o data 0)))) (clpAt o data 0) cut) := by
  have hgo : ¬ (!(rxOn s && s.warp.align == .sync && s.warp.rx.ok)) = true := by rw [hon, ha, hok]; decide
  rw [exec, execClpFrame, hw]
  dsimp only
  rw [if_neg hgo, hp, if_neg Bool.false_ne_true, hc, if_neg (by decide), if_neg (by omega)]

/-- A frame of an inactive stream is counted and ends its stream's context (R72). -/
theorem clpTests_inactive {f : ClpIn} {cut : Option Nat} (hs : f.stream ≠ 0xFFFF) (hp : poisoned s.warp.rx f.offset (8 + f.len) = false)
    (hn : sget none s.act.streams f.stream = none) : clpTests s f cut = dropContext (count s 0 10) f.stream := by
  rw [clpTests, if_neg hs, if_neg (by rw [hp]; decide), if_pos (by rw [hn]; rfl)]

/-- A frame that passes the tests and deciphers comes to reassembly (R74). -/
theorem clpTests_deciphers {f : ClpIn} {cut : Option Nat} {plain : List Byte} {b : Bool} {v : State} (hs : f.stream ≠ 0xFFFF)
    (hp : poisoned s.warp.rx f.offset (8 + f.len) = false) (hn : sget none s.act.streams f.stream ≠ none) (ht : f.typ ≠ 3)
    (hd : domOn s 19 = true) (hu : unitOk s 0x15 = true)
    (hci : cipher0 (countBy (count s 0 6) 0 7 f.len) f.hdr f.stream f.enc f.key f.payload s.warp.rx.count f.offset = (some plain, b, v)) :
    clpTests s f cut = reassemble v f (cut.any (cutOn v)) plain := by
  have hready : ¬ (!domOn (countBy (count s 0 6) 0 7 f.len) 19 || !unitOk (countBy (count s 0 6) 0 7 f.len) 0x15) = true := by
    rw [domOn, unitOk, countBy_power, countBy_selvedge, count_power, count_selvedge]
    change ¬ (!domOn s 19 || !unitOk s 0x15) = true
    rw [hd, hu]
    decide
  have hcount : (countBy (count s 0 6) 0 7 f.len).warp.rx.count = s.warp.rx.count := by
    rw [countBy_warp, count_warp]
  rw [clpTests, if_neg hs, if_neg (by rw [hp]; decide), if_neg (by rwa [Option.isNone_iff_eq_none]), if_neg ht]
  dsimp only
  rw [if_neg hready, hcount, hci]

theorem reassemble_first {f : ClpIn} {cut : Bool} {plain : List Byte} (hr : sget none s.warp.reasm f.stream = none) (hl : f.last = false) :
    reassemble s f cut plain = setWarp s { s.warp with reasm := sput none s.warp.reasm f.stream (some ⟨plain, 0⟩) } := by
  rw [reassemble, hr]
  dsimp only
  rw [hl, if_neg Bool.false_ne_true]

theorem reassemble_whole {f : ClpIn} {cut : Bool} {plain : List Byte} (hr : sget none s.warp.reasm f.stream = none) (hl : f.last = true) :
    reassemble s f cut plain = clpDeliver s f false cut plain := by
  rw [reassemble, hr]
  dsimp only
  rw [hl, if_pos rfl]

theorem clpDeliver_user {f : ClpIn} {frag : Bool} {plain : List Byte} (ht : f.typ = 0) : clpDeliver s f frag false plain =
    if s.act.st = .woven then heddleInput s { data := plain, srcType := 2, stream := f.stream } else s := by
  rw [clpDeliver, ht]
  rfl

end

/-- Settles O13: each delineated frame moves the walk on, and the tests, the cipher and reassembly decide what becomes of it. -/
theorem clpFrameWalksPartition : Obligations.ClpFrameWalksPartition := by
  intro s data cut o hon ha hok hw hp hc hi f u
  have hexec := exec_clpFrame_delineated cut hon ha hok hw hp hc hi
  refine ⟨fun hidle => ?_, fun hs hpf hn => ?_, fun plain b v hs hpf hn ht hd hu hl hci hr => ?_,
    fun plain b v hs hpf hn ht hd hu hl hcut hci hr => ?_⟩
  · exact hexec.trans (congrArg Host.Outcome.next (if_pos hidle))
  · exact hexec.trans (congrArg Host.Outcome.next (clpTests_inactive (s := u) hs hpf hn))
  · exact hexec.trans (congrArg Host.Outcome.next ((clpTests_deciphers (s := u) hs hpf hn ht hd hu hci).trans (reassemble_first hr hl)))
  · have hwhole : exec (.clpFrame data cut) s =
        .next (if v.act.st = .woven then heddleInput v { data := plain, srcType := 2, stream := f.stream } else v) := by
      have hcutNone : cut.any (cutOn v) = false := by rw [hcut]; rfl
      refine hexec.trans (congrArg Host.Outcome.next ?_)
      rw [clpTests_deciphers (s := u) hs hpf hn (by rw [ht]; decide) hd hu hci, reassemble_whole hr hl, hcutNone]
      exact clpDeliver_user ht
    exact ⟨fun h => by rw [hwhole, if_pos h], fun h => by rw [hwhole, if_neg h]⟩

end Sys2Proof.Machine
end

