-- ==== Sys2Proof/Proofs/WeftMaps.lean ====
section
/-! SUPPORT. Proofs/WeftMaps.lean: what a weft map counts and which burst a single grant forms (R90 to R94, R121, R451). -/

namespace Sys2Proof.Machine

open Sys2Proof

section
variable {s t u : State}

/-! ## The counters of maps and of grants that fail GCRC -/

/-- The counters of maps and of grants that fail GCRC read as before. -/
def MapCnts (s t : State) : Prop := s.inv → t.inv ∧ cntVal t 1 0 = cntVal s 1 0 ∧ cntVal t 1 7 = cntVal s 1 7

theorem MapCnts.refl (s : State) : MapCnts s s := fun h => ⟨h, rfl, rfl⟩

theorem MapCnts.trans (h : MapCnts s t) (h' : MapCnts t u) : MapCnts s u := fun hs => by
  obtain ⟨ht, h0, h7⟩ := h hs
  obtain ⟨hu, h0', h7'⟩ := h' ht
  exact ⟨hu, h0'.trans h0, h7'.trans h7⟩

theorem MapCnts.of_kept {n : Nat} (h : Kept n s t) (hn : n.testBit 4 = false) : MapCnts s t := fun hs => by
  have hc := h.cnt_eq hn
  exact ⟨h.inv hs, by rw [cntVal, cntVal, hc], by rw [cntVal, cntVal, hc]⟩

theorem mapCnts_countBy {n : Nat} (h0 : n ≠ 0) (h7 : n ≠ 7) (k : Nat) : MapCnts s (countBy s 1 n k) := fun hs =>
  ⟨countBy_inv hs 1 n k, cntVal_countBy_other hs (by unfold cntKey; omega) k, cntVal_countBy_other hs (by unfold cntKey; omega) k⟩

theorem mapCnts_draw : MapCnts s (draw s).2 := .of_kept (keptP_of (draw_kept (.refl 64 s) (.refl _)) rfl) rfl

theorem mapCnts_drawBytes (n : Nat) : MapCnts s (drawBytes s n).2 := .of_kept (keptP_of (drawBytes_kept (n := n) (.refl 64 s) (.refl _)) rfl) rfl

theorem mapCnts_takeOpportunity (g : Grant) : MapCnts s (takeOpportunity s g).2 := by
  rw [takeOpportunity]
  split
  · exact mapCnts_draw.trans (mapCnts_drawBytes 4)
  · exact .trans (.of_kept (setAct_kept (.refl _ s) (.refl _)) rfl) (mapCnts_countBy (by decide) (by decide) 1)

theorem mapCnts_sortOut (quiet : Bool) (l : List Grant) (first : Bool) : MapCnts s (sortOut quiet l first s).2 := by
  induction l generalizing first s with
  | nil => exact .refl s
  | cons g t ih =>
    rw [sortOut]
    split
    · exact ih first
    · split
      · split
        · exact .trans (mapCnts_countBy (by decide) (by decide) 1) (ih false)
        · split
          · exact .trans (mapCnts_countBy (by decide) (by decide) 1) (ih false)
          · have hback : MapCnts s (if s.act.backoffDue then backoffDraw s else s) := by
              split
              · exact .of_kept (backoffDraw_kept (.refl _ s) (.refl _)) rfl
              · exact .refl s
            have htake := hback.trans (mapCnts_takeOpportunity g)
            split
            case h_1 heq =>
              rw [heq] at htake
              exact htake.trans (ih false)
            case h_2 heq =>
              rw [heq] at htake
              exact htake.trans (ih false)
      · exact .trans (mapCnts_countBy (by decide) (by decide) 1) (ih first)

theorem mapCnts_testGrant (lead lag : Nat) (proto : Burst) (a : MapAcc) (e : Grant × Option (List Byte)) :
    MapCnts s (testGrant lead lag proto a s e).2 := by
  have hc : ∀ n, n ≠ 0 → n ≠ 7 → MapCnts s (count s 1 n) := fun n h0 h7 => mapCnts_countBy h0 h7 1
  rw [testGrant]
  dsimp only
  split
  · exact hc 8 (by decide) (by decide)
  · split
    · exact hc 9 (by decide) (by decide)
    · split
      · split <;> split
        · exact hc 11 (by decide) (by decide)
        · exact .refl s
        · exact hc 11 (by decide) (by decide)
        · exact .refl s
      · split
        · split
          · exact .refl s
          · exact hc 10 (by decide) (by decide)
        · exact hc 10 (by decide) (by decide)

theorem mapCnts_testGrants (lead lag : Nat) (proto : Burst) (l : List (Grant × Option (List Byte))) (a : MapAcc) :
    MapCnts s (testGrants lead lag proto l a s).2 := by
  induction l generalizing a s with
  | nil => exact .refl s
  | cons e t ih => exact (mapCnts_testGrant lead lag proto a e).trans (ih _)

/-! ## The map in parts -/

/-- The map is taken, and the safety path derives its windows. -/
def mapSeen (s : State) (m : List Byte) : State :=
  { setWarp s { s.warp with rx := { s.warp.rx with mapped := true } } with
    safety := { s.safety with windows := (safetyWindows s m :: s.safety.windows).take 8 } }

/-- The map, the grants that fail GCRC and the grants that match are counted. -/
def mapCounted (x : PickRx) (m : List Byte) (s : State) : State :=
  countBy (countBy (count s 1 0) 1 7 (x.mapLen - (intactGrants x m).length)) 1 1
    ((intactGrants x m).filter (grantMatches (countBy (count s 1 0) 1 7 (x.mapLen - (intactGrants x m).length)) x.quiet)).length

/-- What every burst of a map shares. -/
def mapProto (x : PickRx) (s : State) : Burst :=
  { pick := x.count, eqd := fld s Reg.weftEqd 23 0, pre := fld s Reg.weftPreamble 7 0, tid := fld s Reg.weftTid 9 0
    key := (s.act.keys.map (fun k => keyOf k.tmkU)).getD [], ranging := s.act.st == .ranging, token := none, grants := []
    rise := 0, fall := 0 }

/-- The tests of R92 on the grants of a map that R121 permits. -/
def mapTested (x : PickRx) (l : List (Grant × Option (List Byte))) (s : State) : MapAcc × State :=
  testGrants (fld s Reg.weftLaserCfg 7 0) (fld s Reg.weftLaserCfg 15 8) (mapProto x s) (l.take 64)
    ⟨[], none, carriedFall s x.count (fld s Reg.weftEqd 23 0)⟩ s

/-- The bursts of a map join those that wait. -/
def mapBursts (x : PickRx) (l : List (Grant × Option (List Byte))) (s : State) : State :=
  match (mapTested x l s).1.done.reverse.getLast? with
  | none => (mapTested x l s).2
  | some b => setWeft (mapTested x l s).2 { (mapTested x l s).2.weft with
      bursts := (mapTested x l s).2.weft.bursts ++ (mapTested x l s).1.done.reverse, last := some (x.count, fld s Reg.weftEqd 23 0, b.fall) }

/-- The grants of a map that R121 permits, in the order of their starts, with those beyond 64 counted (R91). -/
def mapSorted (r : List (Grant × Option (List Byte)) × State) : List (Grant × Option (List Byte)) × State :=
  (sortBy (fun a b => decide (a.1.start < b.1.start)) r.1,
    countBy r.2 1 12 ((sortBy (fun a b => decide (a.1.start < b.1.start)) r.1).length - 64))

/-- The grants of a map that R121 permits. -/
def mapPermitted (x : PickRx) (m : List Byte) (s : State) : List (Grant × Option (List Byte)) × State :=
  mapSorted (sortOut x.quiet
    ((intactGrants x m).filter (grantMatches (countBy (count s 1 0) 1 7 (x.mapLen - (intactGrants x m).length)) x.quiet)) true (mapCounted x m s))

theorem exec_weftMap {m : List Byte} (hon : rxOn s = true) (hok : s.warp.rx.ok = true) (hm : s.warp.rx.mapped = false)
    (h8 : domOn s 8 = true) (hu6 : unitOk s 0x06 = true) (hu7 : unitOk s 0x07 = true) : exec (.weftMap m) s =
      .next (mapBursts s.warp.rx (mapPermitted s.warp.rx m (mapSeen s m)).1 (mapPermitted s.warp.rx m (mapSeen s m)).2) := by
  have h1 : ¬ (!(rxOn s && s.warp.rx.ok) || s.warp.rx.mapped) = true := by rw [hon, hok, hm]; decide
  have h2 : ¬ (!domOn (mapSeen s m) 8) = true := by
    change ¬ (!domOn s 8) = true
    rw [h8]
    decide
  have h3 : ¬ (!(unitOk (mapSeen s m) 0x06 && unitOk (mapSeen s m) 0x07)) = true := by
    change ¬ (!(unitOk s 0x06 && unitOk s 0x07)) = true
    rw [hu6, hu7]
    decide
  rw [exec, execWeftMap, if_neg h1]
  exact congrArg Host.Outcome.next ((if_neg h2).trans (if_neg h3))

/-! ## What the map leaves -/

theorem mapBursts_kept (x : PickRx) (l : List (Grant × Option (List Byte))) : Kept (1048576 + 16) s (mapBursts x l s) := by
  have ht : Kept (1048576 + 16) s (mapTested x l s).2 := keptP_of (testGrants_kept (.refl _ s) (.of (.refl _) rfl)) rfl
  rw [mapBursts]
  split
  · exact ht
  · exact setWeft_kept ht (.of (.refl _) rfl)

theorem mapBursts_cnts (x : PickRx) (l : List (Grant × Option (List Byte))) : MapCnts s (mapBursts x l s) := by
  have ht : MapCnts s (mapTested x l s).2 := mapCnts_testGrants _ _ _ _ _
  rw [mapBursts]
  split
  · exact ht
  · exact ht.trans (.of_kept (setWeft_kept (.refl _ _) (.refl _)) rfl)

theorem mapPermitted_kept (x : PickRx) (m : List Byte) : Kept 2097232 s (mapPermitted x m s).2 := by
  have h1 : Kept 2097232 s (mapCounted x m s) :=
    countBy_kept (countBy_kept (count_kept (.refl _ s) (.of (.refl _) rfl)) (.of (.refl _) rfl)) (.of (.refl _) rfl)
  exact countBy_kept (keptP_of (sortOut_kept h1 (.refl _)) rfl) (.of (.refl _) rfl)

theorem mapPermitted_cnts (x : PickRx) (m : List Byte) : MapCnts (mapCounted x m s) (mapPermitted x m s).2 :=
  .trans (mapCnts_sortOut _ _ _) (mapCnts_countBy (by decide) (by decide) _)

theorem mapCounted_cnt (x : PickRx) (m : List Byte) (hs : s.inv) : (mapCounted x m s).inv ∧
    cntVal (mapCounted x m s) 1 0 = min cntMax (cntVal s 1 0 + 1) ∧
    cntVal (mapCounted x m s) 1 7 = min cntMax (cntVal s 1 7 + (x.mapLen - (intactGrants x m).length)) := by
  have h1 := count_inv hs 1 0
  obtain ⟨h3, e0, e7⟩ := mapCnts_countBy (s := countBy (count s 1 0) 1 7 (x.mapLen - (intactGrants x m).length)) (n := 1) (by decide) (by decide)
    ((intactGrants x m).filter (grantMatches (countBy (count s 1 0) 1 7 (x.mapLen - (intactGrants x m).length)) x.quiet)).length
    (countBy_inv h1 1 7 _)
  refine ⟨h3, e0.trans ?_, e7.trans ?_⟩
  · exact (cntVal_countBy_other h1 (by decide) _).trans (cntVal_countBy_same hs 1 0 1)
  · refine (cntVal_countBy_same h1 1 7 _).trans ?_
    rw [show cntVal (count s 1 0) 1 7 = cntVal s 1 7 from cntVal_countBy_other hs (by decide) 1]

/-! ## The burst of a single grant (R92, R94, R121) -/

/-- The burst that a single grant forms. -/
def grantBurst (x : PickRx) (g : Grant) (s : State) : Burst :=
  { mapProto x s with
    grants := [g]
    rise := burstRise (fld s Reg.weftPreamble 7 0) (fld s Reg.weftLaserCfg 7 0) g
    fall := burstFall (g.start + g.len) (fld s Reg.weftLaserCfg 15 8) }

theorem mapTested_single (x : PickRx) {g : Grant} (hb : g.bh = true) (hl : 18 ≤ g.len) (hms : g.ms = true → 21 ≤ g.len) (hst : g.start ≤ 48599)
    (he : g.start + g.len ≤ 48600) (hlast : s.weft.last = none) :
    (mapTested x [(g, none)] s).1.done = [grantBurst x g s] ∧ (mapTested x [(g, none)] s).2 = s := by
  have hc : carriedFall s x.count (fld s Reg.weftEqd 23 0) = none := by rw [carriedFall, hlast]; rfl
  have hsec : grantSec g = g.len - 1 := by rw [grantSec, if_pos hb]
  have h1 : ¬ (g.len = 0 ∨ 48599 < g.start ∨ 48600 < g.start + g.len) := by omega
  have h2 : ¬ ((1 ≤ grantSec g ∧ grantSec g ≤ 16) ∨ (g.ms = true ∧ grantSec g < 20) ∨ ((!g.bh) = true ∧ grantSec g = 0)) := by
    rw [hsec, hb]
    rintro (h | ⟨h, h'⟩ | ⟨h, -⟩)
    · omega
    · have := hms h
      omega
    · exact Bool.false_ne_true h
  have htest : testGrant (fld s Reg.weftLaserCfg 7 0) (fld s Reg.weftLaserCfg 15 8) (mapProto x s) ⟨[], none, none⟩ s (g, none) =
      (⟨[], some (grantBurst x g s), some (grantBurst x g s).fall⟩, s) := by
    rw [testGrant]
    dsimp only
    rw [if_neg h1, if_neg h2, if_pos hb, if_neg Bool.false_ne_true]
    rfl
  rw [mapTested, hc]
  change (testGrants _ _ _ [(g, none)] _ s).1.done = _ ∧ (testGrants _ _ _ [(g, none)] _ s).2 = s
  rw [testGrants, testGrants, htest]
  exact ⟨rfl, rfl⟩

theorem mapBursts_single (x : PickRx) {g : Grant} (hb : g.bh = true) (hl : 18 ≤ g.len) (hms : g.ms = true → 21 ≤ g.len) (hst : g.start ≤ 48599)
    (he : g.start + g.len ≤ 48600) (hlast : s.weft.last = none) : (mapBursts x [(g, none)] s).weft =
      { s.weft with bursts := s.weft.bursts ++ [grantBurst x g s], last := some (x.count, fld s Reg.weftEqd 23 0, (grantBurst x g s).fall) } := by
  obtain ⟨h1, h2⟩ := mapTested_single x hb hl hms hst he hlast
  rw [mapBursts, h1, h2]
  rfl

theorem fld_of_cur (h : t.cur = s.cur) (a hi lo : Nat) : fld t a hi lo = fld s a hi lo := by rw [fld, fld, rd, rd, h]

theorem grantMatches_of_cur (h : t.cur = s.cur) (quiet : Bool) (g : Grant) : grantMatches t quiet g = grantMatches s quiet g := by
  have hrd : ∀ a, rd t a = rd s a := fun a => by rw [rd, rd, h]
  simp only [grantMatches, contHeld, hrd]

/-- A single intact grant that the terminal holds is permitted in WOVEN. -/
theorem mapPermitted_single {x : PickRx} {m : List Byte} {g : Grant} (hst : s.act.st = .woven) (hg : intactGrants x m = [g])
    (hh : contHeld s g.container = true) (hd : g.container ≠ discovery) : (mapPermitted x m s).1 = [(g, none)] ∧
      Kept 16 s (mapPermitted x m s).2 := by
  have hk : Kept 16 s (countBy (count s 1 0) 1 7 (x.mapLen - [g].length)) := countBy_kept (count_kept (.refl _ s) (.refl _)) (.refl _)
  have hmatch : ([g].filter (grantMatches (countBy (count s 1 0) 1 7 (x.mapLen - [g].length)) x.quiet)) = [g] := by
    rw [List.filter_cons_of_pos, List.filter_nil]
    rw [grantMatches_of_cur (hk.cur_eq rfl), grantMatches, hh, Bool.true_and]
    simp [hd]
  have hperm : ∀ u : State, u.act.st = .woven → sortOut x.quiet [g] true u = ([(g, none)], u) := fun u hu => by
    have : grantPermitted u x.quiet g = true := by
      rw [grantPermitted, hu]
      simp [hd]
    rw [sortOut, if_pos this]
    rfl
  have hk2 : Kept 16 s (mapCounted x m s) := countBy_kept (countBy_kept (count_kept (.refl _ s) (.refl _)) (.refl _)) (.refl _)
  have hact : (mapCounted x m s).act.st = .woven := by rw [hk2.act_eq rfl, hst]
  rw [mapPermitted, hg, hmatch, hperm _ hact]
  exact ⟨rfl, countBy_kept hk2 (.refl _)⟩

end

/-- Settles O14: the counters through the map's parts, and the single grant through each test of R92. -/
theorem weftMapFormsBursts : Obligations.WeftMapFormsBursts := by
  refine ⟨fun s m hs hon hok hm h8 hu6 hu7 => ?_, fun s m g hon hok hm h8 hu6 hu7 hst hg hh hd hb hl hms hstart he hlast => ?_⟩
  · have hseen : (mapSeen s m).inv := hs
    obtain ⟨hc, e0, e7⟩ := mapCounted_cnt s.warp.rx m hseen
    obtain ⟨hp, p0, p7⟩ := mapPermitted_cnts s.warp.rx m hc
    obtain ⟨-, b0, b7⟩ := mapBursts_cnts s.warp.rx (mapPermitted s.warp.rx m (mapSeen s m)).1 hp
    have hkp := mapPermitted_kept (s := mapSeen s m) s.warp.rx m
    have hkb := mapBursts_kept (s := (mapPermitted s.warp.rx m (mapSeen s m)).2) s.warp.rx (mapPermitted s.warp.rx m (mapSeen s m)).1
    refine ⟨_, exec_weftMap hon hok hm h8 hu6 hu7, ?_, b0.trans (p0.trans e0), b7.trans (p7.trans e7), ?_⟩
    · rw [hkb.warp_eq rfl, hkp.warp_eq rfl]
      rfl
    · rw [hkb.safety_eq rfl, hkp.safety_eq rfl]
      rfl
  · obtain ⟨hperm, hk⟩ := mapPermitted_single (s := mapSeen s m) hst hg hh hd
    have hweft := hk.weft_eq rfl
    have hfld := fld_of_cur (hk.cur_eq rfl)
    refine ⟨_, grantBurst s.warp.rx g (mapPermitted s.warp.rx m (mapSeen s m)).2, exec_weftMap hon hok hm h8 hu6 hu7, ?_⟩
    rw [hperm, mapBursts_single _ hb hl hms hstart he ((congrArg Weft.last hweft).trans hlast), hweft]
    refine ⟨rfl, rfl, rfl, rfl, rfl, ?_, ?_, ?_⟩
    · rw [grantBurst, burstRise, hfld, hfld]
      rfl
    · rw [grantBurst, burstFall, hfld Reg.weftLaserCfg 15 8]
      push_cast
      rfl
    · rw [hfld]
      rfl

end Sys2Proof.Machine
end

