-- ==== Sys2Proof/Proofs/BurstLife.lean ====
section
/-! SUPPORT. Proofs/BurstLife.lean: how a burst is filled, latched, started, cancelled and ended (R94 to R107, R111, R230). -/

namespace Sys2Proof.Machine

open Sys2Proof

section
variable {s u : State} {b : Burst} {l : List Burst}

/-! ## Filling (R123, R230) -/

theorem fillBurst_idle (n : Nat) (l : List (Grant × List Placed)) :
    fillBurst false n l s = (l.map (fun e => e.2 ++ idleFill (roomLeft e.1 e.2)), s) := by
  induction l generalizing n with
  | nil => rfl
  | cons e t ih =>
    rw [fillBurst]
    dsimp only
    rw [if_neg Bool.false_ne_true]
    dsimp only
    rw [ih]
    rfl

/-- What a section held stays in front of what is placed. -/
theorem fillBurst_extends (n : Nat) (l : List (Grant × List Placed)) : List.Forall₂ (fun e r => e.2 <+: r) l (fillBurst true n l s).1 := by
  induction l generalizing n s with
  | nil => exact .nil
  | cons e t ih =>
    rw [fillBurst]
    dsimp only
    rw [if_pos rfl]
    exact .cons (List.prefix_append _ _) (ih _)

theorem burstFill_length : (burstFill b).length = b.grants.length := by rw [burstFill, List.length_map, List.length_zipIdx]

theorem burstFill_at {k : Nat} (hk : k < (burstFill b).length) : ((burstFill b)[k]).2 = b.fill.getD k [] := by
  simp [burstFill]

theorem exec_sectionFill {n : Nat} (hf : s.weft.bursts.find? (fun b => unlatched b && unfilled b) = some b) : exec (.sectionFill n) s =
    .next (let r := fillBurst (s.act.st == .woven) n (burstFill b) s
      pauseScan (setWeft r.2 { r.2.weft with bursts := mapFirst (fun b => unlatched b && unfilled b) (fun b => { b with fill := r.1 }) r.2.weft.bursts })) := by
  rw [exec, execSectionFill]
  dsimp only
  rw [hf]

/-! ## The content latch (R99 to R104) -/

/-- Sections that Reed has not filled by the latch are counted in WOVEN (R101). -/
def latchCounted (s : State) (b : Burst) : State := if s.act.st = .woven then countBy s 1 16 (lateFill b).2 else s

/-- The messages for the slots of a burst: those in the slots, those taken, and the queue after. -/
def latchSlots (s : State) (b : Burst) : List OutMsg × List OutMsg × List OutMsg :=
  match b.token with
  | some t => ([snAnnounce s t], [], s.act.queue)
  | none => slotMsgs b b.grants b.ranging s.act.queue

/-- The burst with its latched contents. -/
def latchedBurst (s : State) (b : Burst) : Burst :=
  { b with
    fill := (lateFill b).1, latched := true, header := burstHeader s b, rei := s.weft.rei, taken := (latchSlots s b).2.1
    sections := burstSections s b b.grants (latchSlots s b).1 (lateFill b).1
    swing := fld s (Reg.weftPlCfg ((b.grants.head?.map (·.pl)).getD 0)) 9 0 }

/-- The frames of a burst that are sent under a key. -/
def latchKeyed (b : Burst) : List Placed := (lateFill b).1.flatten.filter (fun p => p.key.isSome)

/-- The line cipher takes its work, and the queue gives its messages. -/
def latchSealed (s : State) (b : Burst) : State :=
  let mics := if b.key.isEmpty then 0 else (latchSlots s b).1.length
  let u := countBy (countBy s 10 6 (latchKeyed b).length) 10 7 (sumList ((latchKeyed b).map (fun p => p.payload.length)))
  let u := setSec u { u.sec with lineJobs := u.sec.lineJobs + (latchKeyed b).length + mics }
  let u := drbgUse u 1 (sumList ((latchKeyed b).map (fun p => blocks p.payload.length)))
  setAct u { u.act with queue := (latchSlots s b).2.2 }

theorem exec_burstLatch {c : Burst} (hf : s.weft.bursts.find? unlatched = some c) (hb : blockConds s = []) : exec .burstLatch s =
    .next (let u := latchSealed (latchCounted s c) c
      setWeft u { u.weft with rei := 0, bursts := mapFirst unlatched (fun _ => latchedBurst (latchCounted s c) c) u.weft.bursts }) := by
  rw [exec, execBurstLatch, hf]
  dsimp only
  rw [if_neg (by rw [hb]; decide), latchedBurst]
  unfold latchSealed latchSlots
  rfl

theorem latchCounted_kept (b : Burst) : Kept 16 s (latchCounted s b) := by
  rw [latchCounted]
  split
  · exact countBy_kept (.refl _ s) (.refl _)
  · exact .refl _ s

theorem latchSealed_kept (b : Burst) : Kept (262144 + 2097152 + 16) s (latchSealed s b) := by
  rw [latchSealed]
  exact setAct_kept (drbgUse_kept (setSec_kept (countBy_kept (countBy_kept (.refl _ s) (.of (.refl _) rfl)) (.of (.refl _) rfl)) (.of (.refl _) rfl)
    (.refl _)) (.of (.refl _) rfl)) (.of (.refl _) rfl)

theorem burstHeader_kept (h : Kept 16 s u) (b : Burst) : burstHeader u b = burstHeader s b := by
  have hcur := h.cur_eq rfl
  have hflag : ∀ a n, flag u a n = flag s a n := fun a n => by rw [flag, flag, rd, rd, hcur]
  have hfld : ∀ a hi lo, fld u a hi lo = fld s a hi lo := fun a hi lo => by rw [fld, fld, rd, rd, hcur]
  simp only [burstHeader, rdiNow, slNow, h.warp_eq rfl, h.weft_eq rfl, hflag, hfld]

/-! ## Start (R94, R107, R111) -/

/-- What a starting burst counts. -/
def startCounted (s : State) (b : Burst) : State :=
  let ps := b.fill.flatten
  let idle := ps.filter (fun p => p.stream == 0xFFFF)
  let data := ps.filter (fun p => p.stream != 0xFFFF)
  let s := countBy (count s 1 2) 1 3 b.grants.length
  let s := countBy s 1 4 (sumList (b.grants.map (fun g => (sectionCodewords (grantSec g)).length)))
  let s := countBy s 1 5 (sumList (data.map (fun p => p.payload.length + (if p.key.isSome then 16 else 0))))
  countBy (countBy s 1 6 (sumList (idle.map placedSpan))) 1 14 (burstMsgs b)

/-- The first grant's start. -/
def firstStart (b : Burst) : Nat := (b.grants.head?.map (·.start)).getD 0

/-- WEFT_LAST_BURST shows the burst, and a discovery burst announces the terminal (R116). -/
def startShown (s : State) (b : Burst) : State :=
  let s := setReg s Reg.weftLastBurst (b.pick % 65536 * 65536 + firstStart b % 65536)
  if b.token.isSome then count (setAct s { s.act with evAnnounced := true }) 2 9 else s

/-- LASER_EN rises and the burst leaves. -/
def startSent (s : State) (b : Burst) (l : List Burst) : State :=
  let s := setWeft s { s.weft with bursts := { b with started := true } :: l }
  let s := { s with safety := { s.safety with enNow := true } }
  emit s (.burst (64 * firstStart b) (burstEnd b - firstStart b) b.swing (burstBytes b))

theorem exec_burstStart_sent (hl : s.weft.bursts = b :: l) (ha : b.latched = true) (hs : b.started = false) (hb : blockConds s = []) :
    exec .burstStart s = .next (startSent (startShown (startCounted s b) b) b l) := by
  rw [exec, execBurstStart, hl]
  dsimp only
  rw [if_neg (by rw [ha, hs]; decide), if_neg (by rw [hb]; decide)]
  rfl

theorem exec_burstStart_blocked (hl : s.weft.bursts = b :: l) (ha : b.latched = true) (hs : b.started = false) (hb : blockConds s ≠ []) :
    exec .burstStart s = .next (cancelled (setWeft s { s.weft with bursts := l }) b) := by
  rw [exec, execBurstStart, hl]
  dsimp only
  rw [if_neg (by rw [ha, hs]; decide), if_pos]
  cases h : blockConds s with
  | nil => exact absurd h hb
  | cons => rfl

theorem startCounted_kept (b : Burst) : Kept 16 s (startCounted s b) := by
  unfold startCounted
  exact countBy_kept (countBy_kept (countBy_kept (countBy_kept (countBy_kept (count_kept (.refl _ s) (.refl _)) (.refl _)) (.refl _)) (.refl _))
    (.refl _)) (.refl _)

theorem startCounted_cnt (hs : s.inv) (b : Burst) : (startCounted s b).inv ∧ cntVal (startCounted s b) 1 2 = min cntMax (cntVal s 1 2 + 1) ∧
    cntVal (startCounted s b) 1 3 = min cntMax (cntVal s 1 3 + b.grants.length) := by
  have hrest : ∀ (u : State) (n k : Nat), u.inv → 3 < n → (countBy u 1 n k).inv ∧ cntVal (countBy u 1 n k) 1 2 = cntVal u 1 2 ∧
      cntVal (countBy u 1 n k) 1 3 = cntVal u 1 3 := fun u n k hu hn =>
    ⟨countBy_inv hu 1 n k, cntVal_countBy_other hu (by unfold cntKey; omega) k, cntVal_countBy_other hu (by unfold cntKey; omega) k⟩
  have h1 := count_inv hs 1 2
  have h2 := countBy_inv h1 1 3 b.grants.length
  obtain ⟨i4, a4, b4⟩ := hrest _ 4 (sumList (b.grants.map (fun g => (sectionCodewords (grantSec g)).length))) h2 (by decide)
  obtain ⟨i5, a5, b5⟩ := hrest _ 5 (sumList ((b.fill.flatten.filter (fun p => p.stream != 0xFFFF)).map
    (fun p => p.payload.length + (if p.key.isSome then 16 else 0)))) i4 (by decide)
  obtain ⟨i6, a6, b6⟩ := hrest _ 6 (sumList ((b.fill.flatten.filter (fun p => p.stream == 0xFFFF)).map placedSpan)) i5 (by decide)
  obtain ⟨i7, a7, b7⟩ := hrest _ 14 (burstMsgs b) i6 (by decide)
  refine ⟨i7, a7.trans (a6.trans (a5.trans (a4.trans ?_))), b7.trans (b6.trans (b5.trans (b4.trans ?_)))⟩
  · exact (cntVal_countBy_other h1 (by decide) _).trans (cntVal_countBy_same hs 1 2 1)
  · refine (cntVal_countBy_same h1 1 3 _).trans ?_
    rw [show cntVal (count s 1 2) 1 3 = cntVal s 1 3 from cntVal_countBy_other hs (by decide) 1]

theorem startShown_kept (b : Burst) : Kept (2097152 + 16 + 8) s (startShown s b) := by
  have h : Kept (2097152 + 16 + 8) s (setReg s Reg.weftLastBurst (b.pick % 65536 * 65536 + firstStart b % 65536)) :=
    setReg_kept (.refl _ s) (.of (.refl _) rfl)
  rw [startShown]
  split
  · exact count_kept (setAct_kept h (.of (.refl _) rfl)) (.of (.refl _) rfl)
  · exact h

theorem startShown_cnts (b : Burst) : CntsIn [2] s (startShown s b) := by
  have h : CntsIn [2] s (setReg s Reg.weftLastBurst (b.pick % 65536 * 65536 + firstStart b % 65536)) :=
    .of_kept (setReg_kept (.refl _ s) (.refl _)) rfl
  rw [startShown]
  split
  · exact (h.trans (.of_kept (setAct_kept (.refl _ _) (.refl _)) rfl)).trans (cntsIn_count (by decide) (by decide))
  · exact h

/-! ## Cancelling (R99, R111) -/

theorem cancelled_on (h8 : domOn s 8 = true) : (cancelled s b).weft = { s.weft with rei := min 255 (s.weft.rei + b.rei) } ∧
    (cancelled s b).safety = s.safety ∧ (cancelled s b).out = s.out ∧
    (cancelled s b).act = { s.act with queue := b.taken ++ s.act.queue } := by
  have hd : domOn (countBy s 1 13 b.grants.length) 8 = true := by rw [domOn, countBy_power]; exact h8
  rw [cancelled, addRei, if_pos hd]
  exact ⟨by simp, by simp, by simp, by simp⟩

theorem cancelled_cnt (hs : s.inv) : cntVal (cancelled s b) 1 13 = min cntMax (cntVal s 1 13 + b.grants.length) := by
  have hk : Kept (1048576 + 2097152) (countBy s 1 13 b.grants.length) (cancelled s b) :=
    setAct_kept (addRei_kept (.refl _ _) (.of (.refl _) rfl)) (.of (.refl _) rfl)
  rw [cntVal, hk.cnt_eq rfl]
  exact cntVal_countBy_same hs 1 13 _

end

/-- Settles O15: filling keeps what stands in front, and each of latch, start, cancellation and end writes out its parts. -/
theorem burstsFillLatchAndEnd : Obligations.BurstsFillLatchAndEnd := by
  refine ⟨⟨fun s n b hst hf => ?_, fun s n b hst hf => ?_⟩, fun s b hf hb => ?_, fun s b l hs hl ha hst hb => ?_,
    fun s b l hs hl ha hst hb h8 => ?_, fun s b l hl hst => ?_⟩
  · have hw : (s.act.st == .woven) = false := by simp [hst]
    rw [exec_sectionFill hf, hw, fillBurst_idle]
    rfl
  · have hw : (s.act.st == .woven) = true := by simp [hst]
    have hext := fillBurst_extends (s := s) n (burstFill b)
    have hlen := hext.length_eq
    have hk : Kept 157912 s (fillBurst true n (burstFill b) s).2 := keptP_of (fillBurst_kept (.refl _ s) (.refl _)) rfl
    rw [exec_sectionFill hf, hw]
    refine ⟨_, (fillBurst true n (burstFill b) s).1, rfl, hlen.symm.trans burstFill_length, fun k hk => ?_, ?_⟩
    · have h1 : k < (burstFill b).length := by rwa [burstFill_length]
      have h2 : k < (fillBurst true n (burstFill b) s).1.length := by rwa [← hlen]
      rw [List.getD_eq_getElem _ _ h2, ← burstFill_at h1]
      exact List.forall₂_iff_get.1 hext |>.2 k h1 h2
    · rw [(pauseScan_kept (.refl _ _) (.refl _)).weft_eq rfl, setWeft_weft, hk.weft_eq rfl]
  · have hc := latchCounted_kept (s := s) b
    have hk := latchSealed_kept (s := latchCounted s b) b
    have hweft : (latchSealed (latchCounted s b) b).weft = s.weft := (hk.weft_eq rfl).trans (hc.weft_eq rfl)
    refine ⟨_, latchedBurst (latchCounted s b) b, exec_burstLatch hf hb, ?_, rfl, burstHeader_kept hc b, ?_, rfl, rfl, ?_⟩
    · change mapFirst _ _ (latchSealed (latchCounted s b) b).weft.bursts = _
      rw [hweft]
    · exact congrArg Weft.rei (hc.weft_eq rfl)
    · exact (hk.safety_eq rfl).trans (hc.safety_eq rfl)
  · obtain ⟨hi, e2, e3⟩ := startCounted_cnt hs b
    have hc := startCounted_kept (s := s) b
    have hk := startShown_kept (s := startCounted s b) b
    have hcnt := startShown_cnts (s := startCounted s b) b
    refine ⟨_, exec_burstStart_sent hl ha hst hb, rfl, ?_, (hcnt.cntVal hi (by decide) (by decide)).trans e2,
      (hcnt.cntVal hi (by decide) (by decide)).trans e3, ?_⟩
    · change { (startShown (startCounted s b) b).safety with enNow := true } = _
      rw [hk.safety_eq rfl, hc.safety_eq rfl]
    · change (startShown (startCounted s b) b).out ++ _ = _
      rw [hk.out_eq rfl, hc.out_eq rfl]
      rfl
  · obtain ⟨h1, h2, h3, h4⟩ := cancelled_on (s := setWeft s { s.weft with bursts := l }) (b := b) h8
    exact ⟨_, exec_burstStart_blocked hl ha hst hb, h1, h2, h3, h4, cancelled_cnt (s := setWeft s { s.weft with bursts := l }) hs⟩
  · rw [exec, execBurstEnd, hl]
    dsimp only
    rw [if_pos hst]
    rfl

end Sys2Proof.Machine
end

