-- ==== Sys2Proof/Proofs/TreadleMessages.lean ====
section
/-! SUPPORT. Proofs/TreadleMessages.lean: the checks of a treadle message, what an accepted one leaves, attestation and key derivation
(R115 to R143, R262, R415). -/

namespace Sys2Proof.Machine

open Sys2Proof

section
variable {s : State} {m : List Byte} {pos : Nat}

/-! ## A message that passes -/

/-- A message whose fields are valid is counted in MSG_ACCEPT. -/
theorem treadle_passes {typ : Nat} {body : List Byte → Nat → State → MsgRes} {t : State} (hh : msgHere s m pos = true)
    (hc : msgChecks s m pos = none) (ht : msgType m = typ) (hb : body m pos s = .pass t) : treadle typ body m pos s = count t 2 0 := by
  have hgo : ¬ (!msgHere s m pos || msgType m != typ) = true := by rw [hh, ht]; simp
  rw [treadle, if_neg hgo, hc]
  dsimp only
  rw [hb]

/-- A timed change that the queue takes (R132). -/
theorem acceptChange_takes {eff d : Nat} {k : ChangeKind} (hd : effectiveAt s.warp.rx.count eff = some d) (hl : s.act.changes.length < 64) :
    acceptChange s m pos eff k =
      .pass (answer (setAct s { s.act with changes := s.act.changes ++ [⟨d, k⟩] }) m pos Ack.done d) := by
  rw [acceptChange, hd]
  dsimp only
  rw [if_neg (by omega)]

/-- The answer to a message of a known type. -/
theorem answer_of_type {typ : Nat} (ht : msgType m = typ) (status applied : Nat) :
    answer s m pos status applied = queueAck s typ status s.warp.rx.count pos applied := by rw [answer, ht]

/-! ## The fields of each message -/

theorem msgDiscover_valid (h8 : 32 ≤ byteAt m 8) (h9 : byteAt m 9 = 3) : msgDiscover m pos s = .pass (stageMsg (setAct s { s.act with heId := beAt m 4 4 })
    (.discover (beAt m 10 3) (byteAt m 8) (beAt m 13 2))) := by
  rw [msgDiscover, if_neg (by omega)]

theorem msgAssignTid_valid (h : beAt m 12 2 / 64 ≠ 1023) : msgAssignTid m pos s =
    .pass (answer (stageMsg s (.tid (beAt m 12 2 / 64))) m pos Ack.done (nextPick s)) := by
  rw [msgAssignTid]
  rw [if_neg h]

theorem msgSetEqd_valid (h : byteAt m 7 = 0 ∨ 32 ≤ byteAt m 7) : msgSetEqd m pos s =
    acceptChange s m pos (beAt m 8 6) (.eqd (beAt m 4 3) (byteAt m 7) ((byteAt m 14).testBit 7 && s.act.st == .ranging)) := by
  rw [msgSetEqd]
  rw [if_neg (by omega)]

theorem msgAssignContainer_adds (h0 : beAt m 4 2 / 16384 = 0) (h1 : 1024 ≤ beAt m 4 2 % 16384) (h2 : beAt m 4 2 % 16384 ≤ 16381)
    (hp : contPresent s (beAt m 4 2 % 16384) = false) (hn : contCount s < 63) : msgAssignContainer m pos s =
      acceptChange s m pos (beAt m 6 6) (.container true (beAt m 4 2 % 16384)) := by
  rw [msgAssignContainer]
  rw [h0, if_neg (by omega), if_pos rfl, hp, if_neg Bool.false_ne_true, if_neg (by omega)]

theorem msgAssignStream_removes (h0 : bits (byteAt m 6) 7 6 = 1) (h1 : beAt m 4 2 ≠ 0xFFFF) (hd : (byteAt m 6).testBit 5 = true)
    (hu : (byteAt m 6).testBit 4 = false) (ha : streamActive s (beAt m 4 2) false = true) : msgAssignStream m pos s =
      acceptChange s m pos (beAt m 9 6) (.stream false true false (bits (byteAt m 6) 3 2) (beAt m 4 2) (beAt m 7 2 % 16384)) := by
  have hok : ¬ (2 ≤ 1 ∨ beAt m 4 2 = 0xFFFF ∨ (!true) = true ∧ (!false) = true) := by
    rintro (h | h | ⟨h, -⟩)
    · omega
    · exact h1 h
    · exact Bool.false_ne_true h
  rw [msgAssignStream]
  rw [h0, hd, hu, if_neg hok, if_neg (by decide), ha]
  rfl

theorem msgKeySwitch_loaded (h : keyLoaded s (beAt m 4 2) true (bits (byteAt m 6) 6 5) = true) : msgKeySwitch m pos s =
    acceptChange s m pos (beAt m 7 6) (.keySwitch (beAt m 4 2) (bits (byteAt m 6) 6 5)) := by
  rw [msgKeySwitch]
  rw [if_pos (.inl h)]

theorem msgChallenge_opens (h : s.act.exch = none) : msgChallenge m pos s = .pass (setAct s { s.act with
    exch := some { nonce := slice m 4 32, isOpen := true, building := true, accepted := s.pick.commits } }) := by
  rw [msgChallenge]
  dsimp only
  rw [h]

theorem msgKeyAgree_sigA {e : Exchange} (h : s.act.exch = some e) (hr : repeatsDone s m = false) (hp : msgPart m = 1) : msgKeyAgree m pos s =
    .pass (agreeCheck (setAct s { s.act with exch := some { e with echo := (s.warp.rx.count, pos), sigA := some (slice m 4 48) } })) := by
  rw [msgKeyAgree, h]
  dsimp only
  rw [if_neg (by rw [hr]; decide), hp]
  rfl

theorem msgKeyAgree_part0 {e : Exchange} (h : s.act.exch = some e) (hr : repeatsDone s m = false) (hp : msgPart m = 0) (h0 : e.part0 = none)
    (hst : s.act.st = .announced) : msgKeyAgree m pos s = .pass (agreeCheck (setAct s { s.act with
      exch := some { e with echo := (s.warp.rx.count, pos), part0 := some (slice m 4 32, beAt m 36 6) } })) := by
  have hnot : ¬ (s.act.st = .woven ∧ (effectiveAt s.warp.rx.count (beAt m 36 6)).isNone = true) := by
    rw [hst]
    rintro ⟨hc, -⟩
    cases hc
  rw [msgKeyAgree, h]
  dsimp only
  rw [if_neg (by rw [hr]; decide), hp]
  rw [if_neg hnot, h0]
  rfl

theorem msgKeyLoad_valid {k : SessionKeys} (hk : s.act.keys = some k)
    (htag : slice (Config.gcmTag (keyOf k.kek) (msgIv 2 s.warp.rx.count pos (msgTid m)) (m.take 8) (slice m 8 32)) 0 12 = slice m 40 12)
    (ha : streamActive s (beAt m 4 2) false = true) (hw : (byteAt m 6).testBit 7 = false) (hl : s.sec.keys.length + stagedKeys s < 8192) :
    msgKeyLoad m pos s = .pass (answer (stageMsg s (.key (beAt m 4 2) false (bits (byteAt m 6) 6 5)
      (Config.gcmDecrypt (keyOf k.kek) (msgIv 2 s.warp.rx.count pos (msgTid m)) (m.take 8) (slice m 8 32)))) m pos Ack.done (nextPick s)) := by
  have hkek : (s.act.keys.map (fun k => keyOf k.kek)).getD [] = keyOf k.kek := by rw [hk]; rfl
  rw [msgKeyLoad]
  rw [hkek, if_neg (by rw [htag]; exact fun h => h rfl), hw, ha, if_neg (by decide), if_neg (by simp), if_neg (by omega)]

/-! ## Attestation (R133, R134) -/

/-- A check of the parts of KEY_AGREE leaves the queue and of the exchange all but the parts and Z. -/
theorem agreeCheck_exch {e : Exchange} (h : s.act.exch = some e) : (agreeCheck s).act.queue = s.act.queue ∧
    ∃ e', (agreeCheck s).act.exch = some e' ∧ e'.building = e.building ∧ e'.nonce = e.nonce ∧ e'.priv = e.priv ∧ e'.pub = e.pub := by
  rw [agreeCheck, h]
  dsimp only
  cases e.part0 with
  | none => exact ⟨rfl, e, h, rfl, rfl, rfl, rfl⟩
  | some p =>
    dsimp only
    split
    · exact ⟨rfl, e, h, rfl, rfl, rfl, rfl⟩
    · split
      · exact ⟨rfl, e, h, rfl, rfl, rfl, rfl⟩
      · split
        · rw [count_act]
          exact ⟨rfl, _, rfl, rfl, rfl, rfl, rfl⟩
        · exact ⟨rfl, _, rfl, rfl, rfl, rfl, rfl⟩

/-- The queue has room for `n` more messages at each step of a run of them. -/
theorem queueRun_room (f : Nat → OutMsg) (n : Nat) (h : s.act.queue.length + n ≤ 32) :
    forUpTo n s (fun k s => if s.act.queue.length < 32 then setAct s { s.act with queue := s.act.queue ++ [f k] } else s) =
      setAct s { s.act with queue := s.act.queue ++ (List.range n).map f } := by
  induction n with
  | zero => rw [List.range_zero, List.map_nil, List.append_nil]; rfl
  | succ n ih =>
    have hroom : (s.act.queue ++ (List.range n).map f).length < 32 := by
      rw [List.length_append, List.length_map, List.length_range]
      omega
    rw [forUpTo_succ, ih (by omega)]
    refine (if_pos hroom).trans ?_
    rw [List.range_succ, List.map_append, ← List.append_assoc]
    rfl

theorem queueRecord_room {r : List Byte} (h : s.act.queue.length ≤ 25) : queueRecord s r =
    setAct s { s.act with queue := s.act.queue ++ (List.range 7).map (fun k => ⟨0x82, k, slice r (48 * k) 48⟩) } :=
  queueRun_room (fun k => ⟨0x82, k, slice r (48 * k) 48⟩) 7 (by omega)

/-- The record that is ready, with the state that has drawn the secret half of its key pair. -/
def recordDrawn (s : State) : State := (drawBytes (drbgUse (drbgUse s 2 1) 3 1) 32).2

/-- The exchange with its key pair and its record. -/
def recorded (s : State) (e : Exchange) : Exchange :=
  let priv := (List.range 32).map (Config.freeByte s.draws)
  let pub := Config.x25519 priv basePoint
  let body := recordBody (recordDrawn s) (e.facts.getD ([], [])) pub
  let msg := attestPrefix ++ e.nonce ++ beBytes 2 ((recordDrawn s).act.tid.getD 0) ++ body
  let rec' := body ++ slice (Config.ed25519Sign (recordDrawn s).sec.idSeed msg) 0 64 ++ List.replicate 32 0
  { e with building := false, priv := priv, pub := pub, record := rec' }

theorem exec_attestRecordReady {e : Exchange} (he : s.act.exch = some e) (hb : e.building = true) (hf : e.facts.isSome = true)
    (ht : trngGives s = true) (hj : s.sec.idJob = none) : exec .attestRecordReady s =
      .next (idNext (agreeCheck (queueRecord (setAct (recordDrawn s) { (recordDrawn s).act with exch := some (recorded s e) }) (recorded s e).record))) := by
  have hnone : e.facts.isNone = false := by rw [← Option.not_isSome, hf]; rfl
  have hgo : ¬ (!e.building || e.facts.isNone || !trngGives s || s.sec.idJob.isSome) = true := by rw [hb, hnone, ht, hj]; decide
  rw [exec, execAttestRecordReady, he]
  exact congrArg Host.Outcome.next (if_neg hgo)

theorem recordDrawn_kept : Kept (262144 + 64) s (recordDrawn s) :=
  keptP_of (drawBytes_kept (n := 32) (drbgUse_kept (drbgUse_kept (.refl _ s) (.of (.refl _) rfl)) (.of (.refl _) rfl)) (.of (.refl _) rfl)) rfl

theorem recorded_fields (s : State) (e : Exchange) : (recorded s e).building = false ∧ (recorded s e).nonce = e.nonce ∧
    (recorded s e).priv = (List.range 32).map (Config.freeByte s.draws) ∧
    (recorded s e).pub = Config.x25519 (recorded s e).priv basePoint := ⟨rfl, rfl, rfl, rfl⟩

/-- The parts of a record queue behind what waits, and the exchange keeps its record and key pair. -/
theorem recordQueued {u : State} {r : Exchange} (hq : u.act.queue.length ≤ 25) : ∃ l e',
    (idNext (agreeCheck (queueRecord (setAct u { u.act with exch := some r }) r.record))).act.queue = u.act.queue ++ l ∧ l.length = 7 ∧
    (idNext (agreeCheck (queueRecord (setAct u { u.act with exch := some r }) r.record))).act.exch = some e' ∧
    e'.building = r.building ∧ e'.nonce = r.nonce ∧ e'.priv = r.priv ∧ e'.pub = r.pub := by
  have hroom : (setAct u { u.act with exch := some r }).act.queue.length ≤ 25 := hq
  have hrec := queueRecord_room (r := r.record) hroom
  obtain ⟨hqueue, e', he', hsame⟩ := agreeCheck_exch (e := r) (s := queueRecord (setAct u { u.act with exch := some r }) r.record) (by rw [hrec]; rfl)
  rw [(idNext_kept (.refl 262144 _) (.refl _)).act_eq rfl]
  refine ⟨(List.range 7).map (fun k => ⟨0x82, k, slice r.record (48 * k) 48⟩), e', ?_, by rw [List.length_map, List.length_range], he', hsame⟩
  rw [hqueue, hrec]
  rfl

theorem attestRecordReady_draws {u : State} {r : Exchange} :
    (idNext (agreeCheck (queueRecord (setAct u { u.act with exch := some r }) r.record))).draws = u.draws := by
  rw [(idNext_kept (.refl _ _) (.refl _)).draws_eq rfl, (agreeCheck_kept (.refl _ _) (.refl _)).draws_eq rfl,
    (queueRecord_kept (.refl _ _) (.refl _)).draws_eq rfl]
  rfl

/-! ## Key derivation (R137, R264) -/

/-- A mask put on twice leaves the key. -/
theorem xorMask_xorMask (l mask : List Byte) : xorMask (xorMask l mask) mask = l := by
  apply List.ext_getElem
  · simp [xorMask]
  · intro n h1 h2
    simp only [xorMask, List.getElem_map, List.getElem_zipIdx, Nat.zero_add, BitVec.xor_assoc, BitVec.xor_self, BitVec.xor_zero]

/-- A slot gives the key that it took. -/
theorem keyOf_maskKey (key : List Byte) (s : State) : keyOf (maskKey key s).1 = key := xorMask_xorMask key _

theorem deriveKeys_keys (nonce z : List Byte) (s : State) : keyOf (deriveKeys nonce z s).1.tmkD = deriveKey s nonce z labelDown ∧
    keyOf (deriveKeys nonce z s).1.tmkU = deriveKey s nonce z labelUp ∧ keyOf (deriveKeys nonce z s).1.kek = deriveKey s nonce z labelKek :=
  ⟨keyOf_maskKey _ _, keyOf_maskKey _ _, keyOf_maskKey _ _⟩

/-- Three masks are drawn. -/
theorem deriveKeys_state (nonce z : List Byte) (s : State) : (deriveKeys nonce z s).2 = { s with draws := s.draws + 3 } := rfl

theorem idNext_kept' : Kept 262144 s (idNext s) := idNext_kept (.refl _ s) (.refl _)

/-- The state in which a derivation leaves the exchange. -/
def derived (e : Exchange) (hp : List Byte) (due : Nat) : Exchange :=
  { e with isOpen := false, priv := [], z := none, part0 := none, sigA := none, sigB := none, donePub := some hp, doneAt := due }

/-- What an ACK leaves of the activation state follows from the activation state. -/
theorem queueAck_act {u v : State} (h : u.act = v.act) (typ status pick pos applied : Nat) :
    (queueAck u typ status pick pos applied).act = (queueAck v typ status pick pos applied).act := by
  rw [queueAck, queueAck, h]
  split
  · rw [setAct_act, setAct_act]
  · rw [count_act, count_act, h]

section
variable {e : Exchange} {z hp : List Byte} {eff : Nat} (he : s.act.exch = some e) (hz : e.z = some z) (h0 : e.part0 = some (hp, eff))
  (ht : trngGives s = true) (hj : s.sec.idJob = none)
include he hz h0 ht hj

/-- Before WOVEN the keys wait for RANGING (R137). -/
theorem exec_keyDerivationDone_announced (hst : s.act.st = .announced) :
    ∃ t, exec .keyDerivationDone s = .next t ∧ t.draws = s.draws + 3 ∧ t.act = (queueAck (setAct s { s.act with
      evKeyed := some (deriveKeys e.nonce z s).1, exch := some (derived e hp ((s.pick.count + 1) % 2 ^ 48)) })
      0x04 Ack.done e.echo.1 e.echo.2 ((s.pick.count + 1) % 2 ^ 48)).act := by
  have hgo : ¬ (!trngGives s || s.sec.idJob.isSome) = true := by rw [ht, hj]; decide
  have hin : (s.act.st != .announced) = false := by rw [hst]; rfl
  rw [exec, execKeyDerivationDone, he]
  dsimp only
  rw [if_neg hgo, hz, h0]
  dsimp only
  rw [deriveKeys_state]
  dsimp only
  rw [hin]
  simp only [Bool.false_eq_true, false_and, if_false]
  refine ⟨_, rfl, ?_, ?_⟩
  · rw [idNext_kept'.draws_eq rfl, (queueAck_kept (.refl _ _) (.refl _)).draws_eq rfl]
    rfl
  · rw [idNext_kept'.act_eq rfl]
    apply queueAck_act
    rfl

theorem exec_keyDerivationDone_woven {d : Nat} (hst : s.act.st ≠ .announced) (hl : s.act.changes.length < 64)
    (hd : effectiveAt s.pick.count eff = some d) :
    ∃ t, exec .keyDerivationDone s = .next t ∧ t.draws = s.draws + 3 ∧ t.act = (queueAck (setAct s { s.act with
      changes := s.act.changes ++ [⟨d, .keys (deriveKeys e.nonce z s).1⟩], exch := some (derived e hp d) })
      0x04 Ack.done e.echo.1 e.echo.2 d).act := by
  have hgo : ¬ (!trngGives s || s.sec.idJob.isSome) = true := by rw [ht, hj]; decide
  have hin : (s.act.st != .announced) = true := by simp [hst]
  rw [exec, execKeyDerivationDone, he]
  dsimp only
  rw [if_neg hgo, hz, h0]
  dsimp only
  rw [deriveKeys_state]
  dsimp only
  rw [hin, hd]
  simp only [if_true]
  rw [if_neg (by rintro ⟨-, h⟩; omega)]
  refine ⟨_, rfl, ?_, ?_⟩
  · rw [idNext_kept'.draws_eq rfl, (queueAck_kept (.refl _ _) (.refl _)).draws_eq rfl]
    rfl
  · rw [idNext_kept'.act_eq rfl]
    apply queueAck_act
    rfl

end

end

/-- Settles O16: each accepted message leaves what its body says, and is counted. -/
theorem messagesStageChanges : Obligations.MessagesStageChanges := by
  refine ⟨fun s m pos hh hc => ⟨fun ht h8 h9 => ?_, fun ht h => ?_, fun ht => ?_, fun ht => ?_, fun ht => ?_, fun ht => ?_⟩,
    fun s m pos d hh hc hl => ⟨fun ht hp hd => ?_, fun ht h0 h1 h2 hp hn hd => ?_, fun ht h0 h1 hdn hup ha hd => ?_, fun ht hk hd => ?_⟩⟩
  · exact congrArg Host.Outcome.next (treadle_passes hh hc ht (msgDiscover_valid h8 h9))
  · have hpass := treadle_passes hh hc ht (msgAssignTid_valid (s := s) (pos := pos) h)
    rw [answer_of_type ht] at hpass
    exact congrArg Host.Outcome.next hpass
  · exact congrArg Host.Outcome.next (treadle_passes (body := msgDozeAck) hh hc ht rfl)
  · exact congrArg Host.Outcome.next (treadle_passes (body := msgDeactivate) hh hc ht rfl)
  · exact congrArg Host.Outcome.next (treadle_passes (body := msgStop) hh hc ht rfl)
  · exact congrArg Host.Outcome.next (treadle_passes (body := msgRelease) hh hc ht rfl)
  · have hpass := treadle_passes hh hc ht ((msgSetEqd_valid hp).trans (acceptChange_takes hd hl))
    rw [answer_of_type ht] at hpass
    exact congrArg Host.Outcome.next hpass
  · have hpass := treadle_passes hh hc ht ((msgAssignContainer_adds h0 h1 h2 hp hn).trans (acceptChange_takes hd hl))
    rw [answer_of_type ht] at hpass
    exact congrArg Host.Outcome.next hpass
  · have hpass := treadle_passes hh hc ht ((msgAssignStream_removes h0 h1 hdn hup ha).trans (acceptChange_takes hd hl))
    rw [answer_of_type ht] at hpass
    exact congrArg Host.Outcome.next hpass
  · have hpass := treadle_passes hh hc ht ((msgKeySwitch_loaded hk).trans (acceptChange_takes hd hl))
    rw [answer_of_type ht] at hpass
    exact congrArg Host.Outcome.next hpass

/-- Settles O17: the key messages as their bodies say, the record with the key pair that is drawn, and three derived keys. -/
theorem keyExchangeAndAttestation : Obligations.KeyExchangeAndAttestation := by
  refine ⟨fun s m pos hh hc => ⟨fun ht he => ?_, fun e ht he hr hp => ?_, fun e ht he hr hp h0 hst => ?_,
    fun k ht hk htag ha hw hl => ?_⟩, fun s e he hb hf ht hj hq => ?_, fun s e z hp eff he hz h0 ht hj => ?_⟩
  · exact congrArg Host.Outcome.next (treadle_passes hh hc ht (msgChallenge_opens he))
  · exact congrArg Host.Outcome.next (treadle_passes hh hc ht (msgKeyAgree_sigA he hr hp))
  · exact congrArg Host.Outcome.next (treadle_passes hh hc ht (msgKeyAgree_part0 he hr hp h0 hst))
  · have hpass := treadle_passes hh hc ht (msgKeyLoad_valid hk htag ha hw hl)
    rw [answer_of_type ht] at hpass
    exact congrArg Host.Outcome.next hpass
  · obtain ⟨f1, f2, f3, f4⟩ := recorded_fields s e
    have hact := (recordDrawn_kept (s := s)).act_eq rfl
    obtain ⟨l, e', hqueue, hlen, he', h1, h2, h3, h4⟩ := recordQueued (u := recordDrawn s) (r := recorded s e) (by rw [hact]; exact hq)
    refine ⟨_, e', exec_attestRecordReady he hb hf ht hj, he', h1.trans f1, h2.trans f2, h3.trans f3, h4.trans (by rw [h3]; exact f4), ?_, ?_,
      attestRecordReady_draws⟩
    · rw [hqueue, hact, List.length_append, hlen]
    · rw [hqueue, hact, List.take_left]
  · obtain ⟨kd, ku, kk⟩ := deriveKeys_keys e.nonce z s
    exact ⟨(deriveKeys e.nonce z s).1, kd, ku, kk, exec_keyDerivationDone_announced he hz h0 ht hj,
      fun d hst hl hd => exec_keyDerivationDone_woven he hz h0 ht hj hst hl hd⟩

end Sys2Proof.Machine
end

