-- ==== Sys2Proof/Proofs/ActivationTimers.lean ====
section
/-! SUPPORT. Proofs/ActivationTimers.lean: what an erased session, a failed attempt and a change of the activation state leave, the
timers, and the checks that discard a message (R115 to R118, R126, R128, R132). -/

namespace Sys2Proof.Machine

open Sys2Proof

section
variable {s : State}

/-! ## The parts of a return to LISTENING -/

theorem actNotify_act (sub payload : Nat) : (actNotify s sub payload).act = s.act := (actNotify_kept (.refl _ s) (.refl _)).act_eq rfl

theorem actGo_act (st : ActSt) : (actGo s st).act = { s.act with st := st } := by
  rw [actGo]
  split
  case isTrue h => rw [← h]
  case isFalse => rw [actNotify_act]; rfl

theorem weftWrite_act : (weftWrite s).act = { s.act with conts := sput 0 s.act.conts 0 (contZero s) } := by
  rw [weftWrite]
  dsimp only
  split
  · rfl
  · have hk : ∀ u : State, Kept 8 u (forUpTo 64 (setReg (setReg (setReg u Reg.weftEqd s.act.eqd) Reg.weftPreamble s.act.pre) Reg.weftTid
        (match s.act.tid with | some t => 2 ^ 31 + t | none => 1023))
          (fun n u => setReg u (Reg.weftCont n) (sget 0 (sput 0 s.act.conts 0 (contZero s)) n))) := fun u =>
      forUpTo_kept (setReg_kept (setReg_kept (setReg_kept (.refl _ u) (.refl _)) (.refl _)) (.refl _)) (fun _ _ h => setReg_kept h (.refl _)) (.of (.refl _) rfl)
    exact (hk _).act_eq rfl

theorem releaseKeys_all : (releaseKeys s (fun _ => true)).sec.keys = [] := by
  rw [releaseKeys]
  split
  case isTrue h => simpa using h
  case isFalse =>
    rw [countBy_sec]
    change s.sec.keys.filter _ = []
    simp

/-- The activation state of an erased session (R117), but for the container of the terminal. -/
def sessionErased (a : Act) : Act :=
  { a with
    tid := none, conts := [], streams := [], eqd := 0, keys := none, exch := none, changes := [], dozeOk := false, staged := []
    queue := a.queue.filter (fun m => m.typ == 0x85), tAnnounce := none, tKey := none, tRange := none, tLapse := none
    evKeyed := none, evAnnounced := false }

theorem eraseSession_act : ∃ c, (eraseSession s).act = { sessionErased s.act with conts := c } := by
  rw [eraseSession]
  dsimp only
  rw [actNotify_act, weftWrite_act, (releaseKeys_kept (.refl _ _) (.refl _)).act_eq rfl, (dropForeign_kept (.refl _ _) (.refl _)).act_eq rfl]
  exact ⟨_, rfl⟩

theorem eraseSession_keys : (eraseSession s).sec.keys = [] := by
  rw [eraseSession]
  dsimp only
  rw [(actNotify_kept (.refl _ _) (.refl _)).sec_eq rfl, (weftWrite_kept (.refl _ _) (.refl _)).sec_eq rfl]
  exact releaseKeys_all

/-! ## The counter of attempts that ended -/

theorem actNotify_cnts (sub payload : Nat) : CntsIn [0, 10, 14] s (actNotify s sub payload) := notifyReg_cnts (by decide) _ _ _ _

theorem actGo_cnts (st : ActSt) : CntsIn [0, 10, 14] s (actGo s st) := by
  rw [actGo]
  split
  · exact .refl _ s
  · exact .trans (.of_kept (setAct_kept (.refl _ s) (.refl _)) rfl) (actNotify_cnts _ _)

theorem dropContext_cnts (k : Nat) : CntsIn [0, 10, 14] s (dropContext s k) := by
  rw [dropContext]
  split
  · exact .refl _ s
  · exact .trans (.of_kept (setWarp_kept (.refl _ s) (.refl _)) rfl) (cntsIn_count (by decide) (by decide))

theorem dropForeign_cnts : CntsIn [0, 10, 14] s (dropForeign s) := by
  rw [dropForeign]
  refine .foldl (fun u k => ?_) _
  split
  · exact .refl _ u
  · exact dropContext_cnts k

theorem releaseKeys_cnts (p : KeySlot → Bool) : CntsIn [0, 10, 14] s (releaseKeys s p) := by
  rw [releaseKeys]
  split
  · exact .refl _ s
  · exact .trans (.of_kept (setKeys_kept (.refl _ s) (.refl _)) rfl) (cntsIn_countBy (by decide) (by decide) _)

theorem eraseSession_cnts : CntsIn [0, 10, 14] s (eraseSession s) := by
  have hset : ∀ a w, CntsIn [0, 10, 14] s (setWeft (setAct s a) w) := fun a w =>
    .of_kept (n := 1048576 + 2097152) (setWeft_kept (setAct_kept (.refl _ s) (.of (.refl _) rfl)) (.of (.refl _) rfl)) rfl
  exact (((hset _ _).trans dropForeign_cnts).trans (releaseKeys_cnts _)).trans
    (.trans (.of_kept (weftWrite_kept (.refl _ _) (.refl _)) rfl) (actNotify_cnts _ _))

/-! ## A failed attempt (R118) -/

/-- What a failed attempt leaves of the activation state. -/
theorem failAttempt_act : ∃ b d, (failAttempt s).act = { s.act with attempts := min 255 (s.act.attempts + 1), backoff := b, backoffDue := d } ∧
    (trngGives s = true → d = false ∧ b < 2 ^ min (s.act.attempts + 1) 6) ∧ (trngGives s = false → d = true) := by
  rw [failAttempt]
  dsimp only
  split
  case isTrue h =>
    have hmin : min (min 255 (s.act.attempts + 1)) 6 = min (s.act.attempts + 1) 6 := by omega
    refine ⟨_, false, rfl, fun _ => ⟨rfl, ?_⟩, fun h' => absurd (h.symm.trans h') (by decide)⟩
    rw [← hmin]
    exact Nat.mod_lt _ (Nat.two_pow_pos _)
  case isFalse h => exact ⟨_, true, rfl, fun h' => absurd h' h, fun _ => rfl⟩

theorem trngGives_kept {t : State} {n : Nat} (h : Kept n s t) (hp : n.testBit 9 = false) (hv : n.testBit 11 = false)
    (hok : t.sec.trngOk = s.sec.trngOk) (hstop : t.sec.trngStopped = s.sec.trngStopped) : trngGives t = trngGives s := by
  rw [trngGives, trngGives, domOn, domOn, unitOk, unitOk, h.power_eq hp, h.selvedge_eq hv, hok, hstop]

theorem releaseKeys_trng (p : KeySlot → Bool) : (releaseKeys s p).sec.trngOk = s.sec.trngOk ∧ (releaseKeys s p).sec.trngStopped = s.sec.trngStopped := by
  rw [releaseKeys]
  split
  · exact ⟨rfl, rfl⟩
  · rw [countBy_sec]
    exact ⟨rfl, rfl⟩

theorem eraseSession_trng : trngGives (eraseSession s) = trngGives s := by
  have hsec : (eraseSession s).sec.trngOk = s.sec.trngOk ∧ (eraseSession s).sec.trngStopped = s.sec.trngStopped := by
    rw [eraseSession]
    dsimp only
    rw [(actNotify_kept (.refl _ _) (.refl _)).sec_eq rfl, (weftWrite_kept (.refl _ _) (.refl _)).sec_eq rfl]
    obtain ⟨h1, h2⟩ := releaseKeys_trng (s := dropForeign (setWeft (setAct s (sessionErased s.act)) { s.weft with
      bursts := s.weft.bursts.map (fun x => if x.started then x else { x with taken := x.taken.filter (fun m => m.typ == 0x85) }) })) (fun _ => true)
    have hd := (dropForeign_kept (.refl _ (setWeft (setAct s (sessionErased s.act)) { s.weft with
      bursts := s.weft.bursts.map (fun x => if x.started then x else { x with taken := x.taken.filter (fun m => m.typ == 0x85) }) })) (.refl _)).sec_eq rfl
    exact ⟨h1.trans (congrArg Sec.trngOk hd), h2.trans (congrArg Sec.trngStopped hd)⟩
  exact trngGives_kept (eraseSession_kept (.refl _ s) (.refl _)) rfl rfl hsec.1 hsec.2

/-! ## The timers (R116, R118, R128) -/

theorem attemptOver_ended (hs : s.inv) : s.attemptEnded (attemptOver s) := by
  obtain ⟨c, hc⟩ := eraseSession_act (s := count s 2 10)
  obtain ⟨b, d, hf, hgive, hnot⟩ := failAttempt_act (s := eraseSession (count s 2 10))
  have hact : (attemptOver s).act = { (failAttempt (eraseSession (count s 2 10))).act with
      st := .listening, conts := sput 0 (actGo (failAttempt (eraseSession (count s 2 10))) .listening).act.conts 0
        (contZero (actGo (failAttempt (eraseSession (count s 2 10))) .listening)) } := by
    rw [attemptOver, weftWrite_act, actGo_act]
  have htrng : trngGives (eraseSession (count s 2 10)) = trngGives s := by
    rw [eraseSession_trng]
    exact trngGives_kept (count_kept (.refl _ s) (.refl _)) rfl rfl (congrArg Sec.trngOk (count_sec ..)) (congrArg Sec.trngStopped (count_sec ..))
  have hatt : (eraseSession (count s 2 10)).act.attempts = s.act.attempts := by
    rw [hc, count_act]
    rfl
  have hkeys : (attemptOver s).sec.keys = [] := by
    rw [attemptOver, (weftWrite_kept (.refl _ _) (.refl _)).sec_eq rfl, (actGo_kept (.refl _ _) (.refl _)).sec_eq rfl,
      (failAttempt_kept (.refl _ _) (.refl _)).sec_eq rfl, eraseSession_keys]
  have hcnt : CntsIn [0, 10, 14] (count s 2 10) (attemptOver s) :=
    (eraseSession_cnts.trans (.of_kept (failAttempt_kept (.refl _ _) (.refl _)) rfl)).trans
      ((actGo_cnts _).trans (.of_kept (weftWrite_kept (.refl _ _) (.refl _)) rfl))
  rw [htrng, hatt] at hgive
  rw [htrng] at hnot
  rw [hf, hc] at hact
  have hattempts : (attemptOver s).act.attempts = min 255 (s.act.attempts + 1) := by
    rw [hact, ← hatt, hc]
  rw [State.attemptEnded, hact] at *
  refine ⟨rfl, rfl, rfl, rfl, rfl, rfl, hkeys, hattempts, hgive, hnot, ?_⟩
  exact (hcnt.cntVal (count_inv hs 2 10) (by decide) (by decide)).trans (cntVal_countBy_same hs 2 10 1)

theorem exec_tLapseExpiry (h : s.act.st = .lapsed) (he : expired s.act.tLapse (fld s Reg.actTimer1 31 16) = true) :
    exec .tLapseExpiry s = .next (weftWrite (actGo (eraseSession (count s 2 10)) .dark)) := by
  rw [exec, execTLapseExpiry, if_pos ⟨h, he⟩]

theorem lapseOver_act : ∃ c d, (weftWrite (actGo (eraseSession (count s 2 10)) .dark)).act =
    { sessionErased s.act with conts := d, st := .dark } ∧ c = d := by
  obtain ⟨c, hc⟩ := eraseSession_act (s := count s 2 10)
  rw [weftWrite_act, actGo_act, hc, count_act]
  exact ⟨_, _, rfl, rfl⟩

/-! ## A change that comes into force (R132) -/

theorem applyChange_eqd_act (e p : Nat) (a : Bool) : (applyChange s (.eqd e p a)).act.changes = s.act.changes ∧
    (applyChange s (.eqd e p a)).act.eqd = e ∧ (applyChange s (.eqd e p a)).act.pre = (if p = 0 then s.act.pre else p) ∧
    (applyChange s (.eqd e p a)).act.st = (if a = true ∧ s.act.st = .ranging then .woven else s.act.st) := by
  have hcond : (a && s.act.st == .ranging) = true ↔ a = true ∧ s.act.st = .ranging := by simp
  rw [applyChange]
  dsimp only
  rw [setAct_act]
  by_cases h : a = true ∧ s.act.st = .ranging
  · rw [if_pos (hcond.2 h), if_pos h]
    change (actGo _ .woven).act.changes = _ ∧ (actGo _ .woven).act.eqd = _ ∧ (actGo _ .woven).act.pre = _ ∧ (actGo _ .woven).act.st = _
    rw [actGo_act]
    exact ⟨rfl, rfl, rfl, rfl⟩
  · rw [if_neg (fun hc => h (hcond.1 hc)), if_neg h]
    exact ⟨rfl, rfl, rfl, rfl⟩

theorem exec_effectiveChange_one {d : Nat} {k : ChangeKind} (hc : s.act.changes = [⟨d, k⟩]) (hr : reached s.pick.count d = true) :
    exec .effectiveChange s = .next (weftWrite (applyChange (setAct s { s.act with changes := [] }) k)) := by
  have h1 : s.act.changes.filter (fun c => reached s.pick.count c.due) = [⟨d, k⟩] := by
    rw [hc]
    exact List.filter_cons_of_pos hr
  have h2 : s.act.changes.filter (fun c => !reached s.pick.count c.due) = [] := by
    rw [hc, List.filter_cons_of_neg (by rw [hr]; decide), List.filter_nil]
  rw [exec, execEffectiveChange]
  dsimp only
  rw [h1, h2]
  rfl

/-! ## Messages that the checks discard (R126) -/

theorem exec_discarded {m : List Byte} {pos : Nat} (h : msgHere s m pos = true) :
    exec (.treadleMessageDiscarded m pos) s = .next ((msgChecks s m pos).getD s) := by
  rw [exec, execTreadleMessageDiscarded, h]
  rfl

/-- What the checks come to for an intact message that Treadle may handle. -/
theorem msgChecks_intact {m : List Byte} {pos : Nat} (hu : unitOk s 0x08 = true) (hp : msgPoisoned s pos = false)
    (hcrc : crc32c (m.take 60) = beAt m 60 4) : msgChecks s m pos =
      if !msgAddressed s m then some s
      else if msgType m = 0 ∨ 0x0E < msgType m then some (count s 2 3)
      else if !msgAccepted s m then some (if msgType m = 0x01 ∨ msgType m = 0x0A then s else count s 2 4)
      else if !authOk s m pos then some (count s 2 5)
      else none := by
  rw [msgChecks, hu, hp, if_neg (by decide), if_neg (by decide), if_neg (fun h => h hcrc)]

end

/-- Settles O18: each timer ends the attempt by the parts of a return to LISTENING, and each check of R126 in its place. -/
theorem timersEndDiscardsCount : Obligations.TimersEndDiscardsCount := by
  refine ⟨⟨fun s hs hst he => ?_, fun s hs hst he => ?_, fun s hs hst he => ⟨fun hw => ?_, fun hw => ?_⟩, fun s hs hst he => ?_, fun s ha => ?_,
    fun s d e p a hc hr => ?_⟩, fun s m pos hh => ⟨fun hu => ?_, fun hu hp => ?_, fun hu hp => ⟨fun hcrc => ?_, fun hcrc =>
      ⟨fun ha => ?_, fun ha ht => ?_, fun ha h2 he hA hacc => ?_, fun ha h1 he hacc hau => ?_⟩⟩⟩⟩
  · exact ⟨_, congrArg Host.Outcome.next (if_pos ⟨hst, he⟩), attemptOver_ended hs⟩
  · exact ⟨_, congrArg Host.Outcome.next (if_pos ⟨hst, he⟩), attemptOver_ended hs⟩
  · exact ⟨_, congrArg Host.Outcome.next (if_pos ⟨hst, he, hw⟩), attemptOver_ended hs⟩
  · refine congrArg Host.Outcome.next (if_neg ?_)
    rintro ⟨-, -, h⟩
    rw [hw] at h
    cases h
  · obtain ⟨c, d, hact, -⟩ := lapseOver_act (s := s)
    have hcnt : CntsIn [0, 10, 14] (count s 2 10) (weftWrite (actGo (eraseSession (count s 2 10)) .dark)) :=
      eraseSession_cnts.trans ((actGo_cnts _).trans (.of_kept (weftWrite_kept (.refl _ _) (.refl _)) rfl))
    refine ⟨_, exec_tLapseExpiry hst he, ?_, ?_, ?_, ?_, ?_, ?_⟩
    · rw [hact]
    · rw [hact]
      rfl
    · rw [hact]
      rfl
    · rw [(weftWrite_kept (.refl _ _) (.refl _)).sec_eq rfl, (actGo_kept (.refl _ _) (.refl _)).sec_eq rfl, eraseSession_keys]
    · rw [hact]
      rfl
    · exact (hcnt.cntVal (count_inv hs 2 10) (by decide) (by decide)).trans (cntVal_countBy_same hs 2 10 1)
  · refine ⟨_, congrArg Host.Outcome.next (if_pos ha), ?_⟩
    rw [weftWrite_act]
    exact ⟨rfl, rfl, rfl⟩
  · obtain ⟨h1, h2, h3, h4⟩ := applyChange_eqd_act (s := setAct s { s.act with changes := [] }) e p a
    refine ⟨_, exec_effectiveChange_one hc hr, ?_⟩
    rw [weftWrite_act]
    exact ⟨h1, h2, h3, h4⟩
  · rw [exec_discarded hh, msgChecks, hu]
    rfl
  · rw [exec_discarded hh, msgChecks, hu, hp]
    rfl
  · rw [exec_discarded hh, msgChecks, hu, hp, if_neg (by decide), if_neg (by decide), if_pos hcrc]
    rfl
  · rw [exec_discarded hh, msgChecks_intact hu hp hcrc, ha]
    rfl
  · rw [exec_discarded hh, msgChecks_intact hu hp hcrc, ha, if_neg (by decide), if_pos ht]
    rfl
  · rw [exec_discarded hh, msgChecks_intact hu hp hcrc, ha, if_neg (by decide), if_neg (by omega), hacc, if_pos (by decide), if_neg (by omega)]
    rfl
  · rw [exec_discarded hh, msgChecks_intact hu hp hcrc, ha, if_neg (by decide), if_neg (by omega), hacc, if_neg (by decide), hau]
    rfl

end Sys2Proof.Machine
end

