-- ==== Sys2Proof/Proofs/HostReads.lean ====
section
/-! SUPPORT. Proofs/HostReads.lean: host reads that change something or meet a dark domain (R8, R11, R14, R145, R163, R337). -/

namespace Sys2Proof.Machine

open Sys2Proof

section
variable {s : State} {a d v : Nat}

/-! ## Registers of a fixed domain -/

/-- The MSI-X table and its pending bits. -/
def inMsix (a : Nat) : Bool := decide (0x00F10000 ≤ a) && decide (a < 0x00F11020)

/-- A register outside the MSI-X table that stands in domain `d` whatever the state. -/
def fixedReg (a d : Nat) : Bool :=
  !inMsix a && decide (a ≠ Reg.skeinWinData) && match findRow a with
    | some r => match r.dom with
      | .fixed e => decide (e = d)
      | _ => false
    | none => false

theorem fixedReg_row (h : fixedReg a d = true) : inMsix a = false ∧ (findRow a).isSome = true ∧ ∀ s, regDomain s a = d := by
  rw [fixedReg, Bool.and_eq_true, Bool.and_eq_true, decide_eq_true_eq, Bool.not_eq_true'] at h
  obtain ⟨⟨hm, hw⟩, hr⟩ := h
  refine ⟨hm, ?_⟩
  cases hf : findRow a with
  | none => rw [hf] at hr; cases hr
  | some r =>
    refine ⟨rfl, fun s => ?_⟩
    rw [regDomain, if_neg hw, hf]
    rw [hf] at hr
    dsimp only at hr ⊢
    cases hd : r.dom with
    | fixed e =>
      rw [hd] at hr
      exact of_decide_eq_true hr
    | _ => rw [hd] at hr; cases hr

/-- The host reaches such a register while its domain is on. -/
theorem hostReaches_fixed (hf : fixedReg a d = true) (h : hostReach s = true) (hd : domOn s d = true) : s.hostReaches a = true := by
  obtain ⟨hm, hr, hdom⟩ := fixedReg_row hf
  rw [State.hostReaches, h, hr, hdom, hd]
  change (true && true && !inMsix a && true) = true
  rw [hm]
  rfl

/-! ## A read of the whole word -/

/-- No counter and no saturation bits stand in the register. -/
def cntFree (a : Nat) : Bool :=
  (cntBlocks.find? (fun b => (pairAt a b.1 b.2.1).isSome)).isNone && (pairAt a (Reg.reedCntLo 0) 8).isNone &&
    (pairAt a (Reg.macCntLo 0) 16).isNone && (pairAt a (Reg.laneCntLo 0) 14).isNone

theorem cntReg_free (h : cntFree a = true) : cntReg s a = none := by
  simp only [cntFree, Bool.and_eq_true, Option.isNone_iff_eq_none] at h
  obtain ⟨⟨⟨h1, h2⟩, h3⟩, h4⟩ := h
  rw [cntReg, h1, h2, h3, h4]

/-- A read of the register has no rule of its own. -/
def plainRead (a : Nat) : Bool :=
  decide (a ≠ Reg.timeNowNs) && decide (a ≠ Reg.skeinWinData) && (instAt a (Reg.timeCapNs 0) 16 2).isNone &&
    (instAt a (Reg.laneYmgmtRxLo 0) 16 16).isNone

theorem regRead_plain (h : plainRead a = true) : regRead a s = { readEffect s a with hostRead := BitVec.ofNat 32 (regValue s a) } := by
  simp only [plainRead, Bool.and_eq_true, decide_eq_true_eq, Option.isNone_iff_eq_none] at h
  obtain ⟨⟨⟨h1, h2⟩, h3⟩, h4⟩ := h
  rw [regRead, if_neg h1, if_neg h2, h3, h4]

theorem regValue_plain {r : RegRow} (hr : findRow a = some r) (hc : cntFree a = true) (hs : a ∉ satRegs) :
    regValue s a = (roOverlay s a).getD (rdS s a) &&& readMask r := by
  rw [regValue, hr, cntReg_free hc, satKeys_other hs]

/-- A read of some bytes of a register that the host reaches. -/
theorem hostLoad_bytes (h : s.hostReaches a = true) (be : Nat) : hostLoad a be s = answerHost be (regRead a s).hostRead.toNat (regRead a s) := by
  simp only [State.hostReaches, Bool.and_eq_true, Bool.not_eq_true', Bool.and_eq_false_iff, decide_eq_false_iff_not] at h
  obtain ⟨⟨⟨h1, h2⟩, h3⟩, h4⟩ := h
  obtain ⟨r, hr⟩ := Option.isSome_iff_exists.1 h2
  rw [hostLoad, h1, if_neg (by decide), if_neg (by omega), if_neg (by omega), hr]
  dsimp only
  rw [if_pos h4]

/-! ## The pick count (R11) -/

theorem exec_pickCountLoRead (h : hostReach s = true) (hd : domOn s 3 = true) : exec (.pickCountLoRead 15) s =
    .next { s with hold := sput 0 s.hold Reg.pickCountLo (s.pick.count / 2 ^ 32), hostRead := BitVec.ofNat 32 s.pick.count } := by
  have hf : fixedReg Reg.pickCountLo 3 = true := by decide
  have hc : cntFree Reg.pickCountLo = true := by decide
  have hreach := hostReaches_fixed hf h hd
  have hro : roOverlay s Reg.pickCountLo = some (s.pick.count % 2 ^ 32) := rfl
  have hval : BitVec.ofNat 32 (regValue s Reg.pickCountLo) = BitVec.ofNat 32 s.pick.count := by
    obtain ⟨r, hr⟩ := Option.isSome_iff_exists.1 (fixedReg_row hf).2.1
    have hm : readMask r = 2 ^ 32 - 1 := by
      have : (findRow Reg.pickCountLo).map readMask = some (2 ^ 32 - 1) := by decide
      rw [hr] at this
      exact Option.some_inj.1 this
    rw [regValue_plain hr hc (by decide), hro, hm, Option.getD_some, Nat.and_two_pow_sub_one_eq_mod]
    apply BitVec.eq_of_toNat_eq
    simp
  have heff : readEffect s Reg.pickCountLo = { s with hold := sput 0 s.hold Reg.pickCountLo (s.pick.count / 2 ^ 32) } := by
    rw [readEffect, cntReg_free hc]
    rfl
  rw [exec, execPickCountLoRead]
  refine congrArg Host.Outcome.next ?_
  refine (hostLoad_whole hreach).trans ?_
  rw [regRead_plain (by decide), heff, hval]

/-! ## The time counter and its captures (R145, R163) -/

theorem todSec_lt (t : Nat) : todSec t < 2 ^ 48 := Nat.mod_lt _ (Nat.two_pow_pos 48)

theorem todFrac_lt (t : Nat) : todFrac t < 2 ^ 32 := by
  have h := Nat.mod_lt t (show 0 < nsUnit by decide)
  rw [todFrac]
  unfold nsUnit at h ⊢
  omega

/-- The three registers of an instant show it. -/
theorem instantShown {x y z : Nat} (hs : s.inv) (hxy : x ≠ y) (hxz : x ≠ z) (hyz : y ≠ z) (t : Nat) :
    let u := setReg (setReg (setReg s x (todSec t % 2 ^ 32)) y (todSec t / 2 ^ 32)) z (todFrac t)
    u.inv ∧ rdS u x = todSec t % 2 ^ 32 ∧ rdS u y = todSec t / 2 ^ 32 ∧ rdS u z = todFrac t := by
  have h1 := setReg_inv hs x (todSec t % 2 ^ 32)
  have h2 := setReg_inv h1 y (todSec t / 2 ^ 32)
  have hsec := todSec_lt t
  refine ⟨setReg_inv h2 _ _, ?_, ?_, ?_⟩
  · rw [rdS_setReg_other h2 hxz.symm, rdS_setReg_other h1 hxy.symm, rdS_setReg_same hs]
    omega
  · rw [rdS_setReg_other h2 hyz.symm, rdS_setReg_same h1]
    omega
  · rw [rdS_setReg_same h2, Nat.mod_eq_of_lt (todFrac_lt t)]

theorem exec_timeNowNsRead (h : hostReach s = true) (hd : domOn s 22 = true) : exec (.timeNowNsRead 15) s = .next (timeNowRead s) :=
  congrArg Host.Outcome.next (hostLoad_whole (hostReaches_fixed (by decide) h hd))

theorem timeNowRead_shows (hs : s.inv) : (timeNowRead s).hostRead = BitVec.ofNat 32 (todNs s.time.tod) ∧
    rdS (timeNowRead s) Reg.timeNowSecLo = todSec s.time.tod % 2 ^ 32 ∧ rdS (timeNowRead s) Reg.timeNowSecHi = todSec s.time.tod / 2 ^ 32 ∧
    rdS (timeNowRead s) Reg.timeNowFrac = todFrac s.time.tod ∧ (timeNowRead s).time = s.time := by
  obtain ⟨-, e1, e2, e3⟩ := instantShown (x := Reg.timeNowSecLo) (y := Reg.timeNowSecHi) (z := Reg.timeNowFrac) hs (by decide) (by decide)
    (by decide) s.time.tod
  refine ⟨?_, ?_, ?_, ?_, ?_⟩
  · rw [timeNowRead]
  · rw [timeNowRead]
    exact e1
  · rw [timeNowRead]
    exact e2
  · rw [timeNowRead]
    exact e3
  · rw [timeNowRead]
    rfl

theorem exec_timeCapNsRead {i : Nat} (h : hostReach s = true) (hd : domOn s 22 = true) (hi : i < 2) :
    exec (.timeCapNsRead i 15) s = .next (timeCapRead i s) := by
  have hf : fixedReg (Reg.timeCapNs i) 22 = true := by
    interval_cases i <;> decide
  have hread : regRead (Reg.timeCapNs i) s = timeCapRead i s := by
    interval_cases i <;> rfl
  rw [exec, execTimeCapNsRead, if_pos hi]
  exact congrArg Host.Outcome.next ((hostLoad_whole (hostReaches_fixed hf h hd)).trans hread)

theorem capFifo_setCapFifo (i : Nat) (l : List Nat) : capFifo (setCapFifo s i l) i = l := by
  rw [setCapFifo]
  by_cases h : i = 0
  · rw [if_pos h, capFifo, if_pos h]
    rfl
  · rw [if_neg h, capFifo, if_neg h]
    rfl

theorem timeCapRead_pops {i c : Nat} {rest : List Nat} (hs : s.inv) (hi : i < 2) (hc : capFifo s i = c :: rest) :
    (timeCapRead i s).hostRead = BitVec.ofNat 32 (todNs c) ∧ capFifo (timeCapRead i s) i = rest ∧
      rdS (timeCapRead i s) (Reg.timeCapSecLo i) = todSec c % 2 ^ 32 ∧ rdS (timeCapRead i s) (Reg.timeCapSecHi i) = todSec c / 2 ^ 32 ∧
      rdS (timeCapRead i s) (Reg.timeCapFrac i) = todFrac c := by
  have hapart : Reg.timeCapSecLo i ≠ Reg.timeCapSecHi i ∧ Reg.timeCapSecLo i ≠ Reg.timeCapFrac i ∧ Reg.timeCapSecHi i ≠ Reg.timeCapFrac i ∧
      Reg.timeCapStat ≠ Reg.timeCapSecLo i ∧ Reg.timeCapStat ≠ Reg.timeCapSecHi i ∧ Reg.timeCapStat ≠ Reg.timeCapFrac i := by
    interval_cases i <;> decide
  obtain ⟨n1, n2, n3, n4, n5, n6⟩ := hapart
  obtain ⟨hu, e1, e2, e3⟩ := instantShown hs n1 n2 n3 c
  have hkeep : ∀ (u : State) (b : Nat), u.inv → Reg.timeCapStat ≠ b → rdS (setCapFifo u i rest) b = rdS u b := fun u b hu hb => by
    rw [setCapFifo]
    have hset : ∀ x, (setTime u x).inv := fun _ => hu
    exact rdS_setFld_other (hset _) hb _ _ _
  rw [timeCapRead, hc]
  exact ⟨rfl, capFifo_setCapFifo i rest, (hkeep _ _ hu n4).trans e1, (hkeep _ _ hu n5).trans e2, (hkeep _ _ hu n6).trans e3⟩

/-! ## Fields that clear as they are read (R9) -/

/-- The read of DRAM_ECC clears both halves. -/
theorem readEffect_dramEcc : readEffect s Reg.dramEcc = setFld (setFld s Reg.dramEcc 31 16 0) Reg.dramEcc 15 0 0 := by
  rw [readEffect, cntReg_free (by decide)]
  rfl

theorem insBits_halves (x : Nat) : insBits (insBits x 31 16 0 % 2 ^ 32) 15 0 0 % 2 ^ 32 = 0 := by
  apply Nat.eq_of_testBit_eq
  intro n
  rw [Nat.testBit_mod_two_pow, insBits_testBit (by decide), Nat.testBit_mod_two_pow, insBits_testBit (by decide)]
  by_cases h : n < 16
  · rw [if_pos (by omega)]
    simp
  · by_cases h' : n < 32
    · rw [if_neg (by omega), if_pos (by omega)]
      simp
    · simp [h']

theorem dramEcc_cleared (hs : s.inv) : rdS (setFld (setFld s Reg.dramEcc 31 16 0) Reg.dramEcc 15 0 0) Reg.dramEcc = 0 ∧
    rd (setFld (setFld s Reg.dramEcc 31 16 0) Reg.dramEcc 15 0 0) Reg.dramEcc = 0 ∧
    ∀ a, a ≠ Reg.dramEcc → s.regSame (setFld (setFld s Reg.dramEcc 31 16 0) Reg.dramEcc 15 0 0) a := by
  have h1 := setFld_inv hs Reg.dramEcc 31 16 0
  refine ⟨?_, ?_, fun a ha => ⟨?_, ?_⟩⟩
  · rw [rdS_setFld_same h1, rdS_setFld_same hs, insBits_halves]
  · rw [rd_setFld_same h1, rd_setFld_same hs, insBits_halves]
  · rw [rd_setFld_other h1 ha.symm, rd_setFld_other hs ha.symm]
  · rw [rdS_setFld_other h1 ha.symm, rdS_setFld_other hs ha.symm]

theorem regValue_dramEcc : regValue s Reg.dramEcc = rdS s Reg.dramEcc := by
  obtain ⟨r, hr⟩ := Option.isSome_iff_exists.1 (fixedReg_row (a := Reg.dramEcc) (d := 13) (by decide)).2.1
  have hm : readMask r = 2 ^ 32 - 1 := by
    have : (findRow Reg.dramEcc).map readMask = some (2 ^ 32 - 1) := by decide
    rw [hr] at this
    exact Option.some_inj.1 this
  have hro : roOverlay s Reg.dramEcc = none := rfl
  rw [regValue_plain hr (by decide) (by decide), hro, hm, Option.getD_none, Nat.and_two_pow_sub_one_eq_mod,
    Nat.mod_eq_of_lt (rdS_lt _ _)]

theorem exec_rcRead_dramEcc (h : hostReach s = true) (hd : domOn s 13 = true) (be : BitVec 4) : exec (.rcRead Reg.dramEcc be) s =
    .next { setFld (setFld s Reg.dramEcc 31 16 0) Reg.dramEcc 15 0 0 with
      hostRead := BitVec.ofNat 32 (rdS s Reg.dramEcc &&& byteMask be.toNat) } := by
  have hread : regRead Reg.dramEcc s = { setFld (setFld s Reg.dramEcc 31 16 0) Reg.dramEcc 15 0 0 with
      hostRead := BitVec.ofNat 32 (rdS s Reg.dramEcc) } := by
    rw [regRead_plain (by decide), readEffect_dramEcc, regValue_dramEcc]
  rw [exec_rcRead_bar0 (by decide), hostLoad_bytes (hostReaches_fixed (by decide) h hd), hread]
  have hn : (BitVec.ofNat 32 (rdS s Reg.dramEcc)).toNat = rdS s Reg.dramEcc := by
    rw [BitVec.toNat_ofNat, Nat.mod_eq_of_lt (rdS_lt _ _)]
  refine congrArg Host.Outcome.next ?_
  rw [answerHost, hn]

/-! ## BAR2, and domains that are off (R14, R337) -/

theorem exec_rcRead_bar2 (h : hostReach s = true) (h1 : 0x4000000 ≤ a) (h2 : a < 0x4004000) (be : BitVec 4) :
    exec (.rcRead a be) s = .next { s with hostRead := 0 } := by
  rw [exec, execRcRead, if_pos h1, otherLoad, if_pos h2, if_pos h, answerHost, Nat.zero_and]
  rfl

theorem exec_darkRegisterRead (h : hostReach s = true) (hr : (findRow a).isSome = true) (ha : ¬ (0x00F10000 ≤ a ∧ a < 0x00F11020))
    (hd : domOn s (regDomain s a) = false) (be : BitVec 4) :
    exec (.darkRegisterRead a be) s = .next (answerHost be.toNat 0xD0FFD0FF (raiseFree s (regSource s a) 0x002)) := by
  have hgo : ((findRow a).isSome && !domOn s (regDomain s a)) = true := by rw [hr, hd]; rfl
  obtain ⟨r, hrow⟩ := Option.isSome_iff_exists.1 hr
  rw [exec, execDarkRegisterRead, if_pos hgo, hostLoad, h, if_neg (by decide), if_neg (by omega), if_neg (by omega), hrow]
  dsimp only
  rw [hd]
  rfl

end

/-- Settles O20: each read by the register's rule, with its copies where it makes them. -/
theorem hostReadsReturn : Obligations.HostReadsReturn := by
  refine ⟨fun s hs h hd => ?_, fun s hs h hd => ?_, fun s i c rest hs h hd hi => ⟨fun hc => ?_, fun hc => ?_⟩, fun s be hs h hd => ?_,
    fun s a be h h1 h2 => exec_rcRead_bar2 h h1 h2 be, fun s a be h hr ha hd => ?_⟩
  · have hhold : sget 0 (sput 0 s.hold Reg.pickCountLo (s.pick.count / 2 ^ 32)) Reg.pickCountLo = s.pick.count / 2 ^ 32 :=
      sget_sput_same (inv_hold hs) _ _
    exact ⟨_, exec_pickCountLoRead h hd, rfl, hhold, rfl, rfl⟩
  · exact ⟨_, exec_timeNowNsRead h hd, timeNowRead_shows hs⟩
  · rw [exec_timeCapNsRead h hd hi, timeCapRead, hc]
  · exact ⟨_, exec_timeCapNsRead h hd hi, timeCapRead_pops hs hi hc⟩
  · obtain ⟨h1, h2, h3⟩ := dramEcc_cleared hs
    exact ⟨_, exec_rcRead_dramEcc h hd be, rfl, h1, h2, h3⟩
  · refine ⟨_, exec_darkRegisterRead h hr ha hd be, rfl, raises_raiseFree s _ _, ?_⟩
    exact (raiseFree_kept (.refl _ s) (.refl _)).hold_eq rfl

end Sys2Proof.Machine
end

