-- ==== Sys2Proof/Proofs/StagedWrites.lean ====
section
/-! SUPPORT. Proofs/StagedWrites.lean: host writes that are discarded with an event, and those that reach the staged copy alone (R8, R10,
R14, R22, R337). -/

namespace Sys2Proof.Machine

open Sys2Proof

section
variable {s : State} {a v : Nat} {r : RegRow}

/-! ## Writes that are discarded -/

theorem raiseFree_regSame (source code : Nat) {b : Nat} (hb : b ≠ Reg.selvedgeStat) (hs : s.inv) : s.regSame (raiseFree s source code) b := by
  have hregs := regsIn_raiseFree (as := [Reg.selvedgeStat]) (s := s) (by decide) source code
  exact ⟨hregs.rd hs (by simpa using hb), hregs.rdS hs (by simpa using hb)⟩

theorem be_ne_whole {be : BitVec 4} (h : be ≠ 15) : be.toNat % 16 ≠ 15 := fun hc => by
  have := be.isLt
  refine h (BitVec.eq_of_toNat_eq ?_)
  change be.toNat = 15
  omega

theorem hostStore_part {be : BitVec 4} (h : s.hostReaches a = true) (hbe : be ≠ 15) : hostStore a be.toNat v s = progErr s (regSource s a) := by
  simp only [State.hostReaches, Bool.and_eq_true, Bool.not_eq_true', Bool.and_eq_false_iff, decide_eq_false_iff_not] at h
  obtain ⟨⟨⟨h1, h2⟩, h3⟩, h4⟩ := h
  obtain ⟨r, hr⟩ := Option.isSome_iff_exists.1 h2
  rw [hostStore, h1, if_neg (by decide), if_neg (by omega), hr]
  dsimp only
  rw [h4, if_neg (by decide), if_pos (be_ne_whole hbe)]

theorem hostStore_noRow (h : hostReach s = true) (hr : findRow a = none) (ha : ¬ (0x00F10000 ≤ a ∧ a < 0x00F11020)) (be : Nat) :
    hostStore a be v s = progErr s 0x1D := by
  rw [hostStore, h, if_neg (by decide), if_neg (by omega), hr]

theorem hostStore_dark (h : hostReach s = true) (hr : (findRow a).isSome = true) (ha : ¬ (0x00F10000 ≤ a ∧ a < 0x00F11020))
    (hd : domOn s (regDomain s a) = false) (be : Nat) : hostStore a be v s = raiseFree s (regSource s a) 0x002 := by
  obtain ⟨r, hr⟩ := Option.isSome_iff_exists.1 hr
  rw [hostStore, h, if_neg (by decide), if_neg (by omega), hr]
  dsimp only
  rw [hd, if_pos (by decide), darkAccess]

theorem exec_strayWrite {off : Nat} (h : hostReach s = true) (h1 : off < 0x4000) (h2 : off % 0x1000 ≠ 0) (be : BitVec 4) :
    exec (.strayWrite off be) s = .next (raiseFree s 0x1D (if be = 15 then 0x003 else 0x001)) := by
  have hgo : (hostReach s && decide (off < 0x4000) && decide (off % 0x1000 ≠ 0)) = true := by
    rw [h, decide_eq_true h1, decide_eq_true h2]
    rfl
  rw [exec, execStrayWrite, if_pos hgo]
  by_cases hbe : be = 15
  · rw [if_pos hbe, if_neg (by rw [hbe]; decide)]
  · rw [if_neg hbe, if_pos (show be.toNat ≠ 15 from fun hc => hbe (BitVec.eq_of_toNat_eq hc)), progErr]

/-! ## Registers without a rule of their own -/

/-- No rule beyond the register's table, no effect, and outside the SAFETY block. -/
def quietReg (a : Nat) : Bool := plainReg a && !inSafety a && decide (a ∉ lineRegs) && trafficQuiet a && hostQuiet a

theorem hostStore_quiet (h : s.hostReaches a = true) (hq : quietReg a = true) (hr : findRow a = some r) : hostStore a 15 v s =
    if (fieldsWritten r s a v).2.2 then
      progErr (stored s a (fieldsWritten r s a v)) (regSource (stored s a (fieldsWritten r s a v)) a)
    else stored s a (fieldsWritten r s a v) := by
  simp only [quietReg, Bool.and_eq_true, decide_eq_true_eq, Bool.not_eq_true'] at hq
  obtain ⟨⟨⟨⟨hp, hs⟩, hl⟩, ht⟩, hh⟩ := hq
  rw [hostStore_reached h hr, regStore_plain hp (.inl hs), writeEffects_none hl ht hh]

/-- A field over the whole word takes what is written. -/
theorem insBits_whole {x v : Nat} (hv : v < 2 ^ 32) : insBits x 31 0 (bits v 31 0) % 2 ^ 32 = v := by
  have h := bits_insBits (x := x) (hi := 31) (lo := 0) (w := bits v 31 0) (by decide) (by decide)
  have hb : ∀ y, bits y 31 0 = y % 2 ^ 32 := fun y => by simp [bits]
  rw [hb, hb, Nat.mod_mod, Nat.mod_mod, Nat.mod_eq_of_lt hv] at h
  rw [hb, Nat.mod_eq_of_lt hv]
  exact h

/-- A row of one staged field over the whole word. -/
def wordRow (a reset d : Nat) : RegRow := ⟨a, 0, 1, reset, .fixed d, [⟨31, 0, .staged, []⟩]⟩

theorem fieldsWritten_word (reset d : Nat) : fieldsWritten (wordRow a reset d) s a v = (insBits (rdS s a) 31 0 (bits v 31 0), rd s a, false) := by
  change fldWrite v (rdS s a, rd s a, false) ⟨31, 0, .staged, []⟩ = _
  simp [fldWrite, legal]

/-- Such a register takes the word into its staged copy alone. -/
theorem regWrite_word {reset d : Nat} {v : Word} (hs : s.inv) (h : s.hostReaches a = true) (hq : quietReg a = true)
    (hr : findRow a = some (wordRow a reset d)) :
    ∃ t, exec (.regWrite a 15 v) s = .next t ∧ rdS t a = v.toNat ∧ rd t a = rd s a ∧ (∀ b, b ≠ a → s.regSame t b) ∧ t.selvedge = s.selvedge := by
  have hstore := hostStore_quiet (v := v.toNat) h hq hr
  rw [fieldsWritten_word, if_neg Bool.false_ne_true] at hstore
  refine ⟨_, congrArg Host.Outcome.next hstore, ?_, ?_, fun b hb => ⟨rd_stored_other hs hb.symm _, rdS_stored_other hs hb.symm _⟩, rfl⟩
  · rw [rdS_stored_same hs]
    exact insBits_whole v.isLt
  · rw [rd_stored_same hs]
    exact Nat.mod_eq_of_lt (BitVec.isLt _)

/-! ## A field with reserved encodings (R10) -/

/-- The row of WARP_REASM_CFG. -/
def reasmCfgRow : RegRow := ⟨Reg.warpReasmCfg, 0, 1, 2, .fixed 6, [⟨3, 0, .staged, [(1, 15)]⟩]⟩

theorem findRow_reasmCfg : findRow Reg.warpReasmCfg = some reasmCfgRow := by decide

theorem legal_reasm (w : Nat) : legal ⟨3, 0, .staged, [(1, 15)]⟩ w = (decide (1 ≤ w) && decide (w ≤ 15)) := by simp [legal]

theorem reasmCfg_takes (h : bits v 3 0 ≠ 0 ∨ fldS s Reg.warpReasmCfg 3 0 = 0) : fieldsWritten reasmCfgRow s Reg.warpReasmCfg v =
    (insBits (rdS s Reg.warpReasmCfg) 3 0 (bits v 3 0), rd s Reg.warpReasmCfg, false) := by
  have hlt := bits_lt v 3 0
  have hok : bits v 3 0 = bits (rdS s Reg.warpReasmCfg) 3 0 ∨ legal ⟨3, 0, .staged, [(1, 15)]⟩ (bits v 3 0) = true := by
    rw [legal_reasm, Bool.and_eq_true, decide_eq_true_eq, decide_eq_true_eq]
    rw [fldS] at h
    omega
  exact if_pos hok

theorem reasmCfg_refuses (h : bits v 3 0 = 0) (ho : fldS s Reg.warpReasmCfg 3 0 ≠ 0) : fieldsWritten reasmCfgRow s Reg.warpReasmCfg v =
    (rdS s Reg.warpReasmCfg, rd s Reg.warpReasmCfg, true) := by
  have hno : ¬ (bits v 3 0 = bits (rdS s Reg.warpReasmCfg) 3 0 ∨ legal ⟨3, 0, .staged, [(1, 15)]⟩ (bits v 3 0) = true) := by
    rw [legal_reasm, Bool.and_eq_true, decide_eq_true_eq, decide_eq_true_eq]
    rw [fldS] at ho
    omega
  exact if_neg hno

theorem regWrite_reasmCfg {v : Word} (hs : s.inv) (h : s.hostReaches Reg.warpReasmCfg = true) :
    (bits v.toNat 3 0 ≠ 0 ∨ fldS s Reg.warpReasmCfg 3 0 = 0 →
      ∃ t, exec (.regWrite Reg.warpReasmCfg 15 v) s = .next t ∧ fldS t Reg.warpReasmCfg 3 0 = bits v.toNat 3 0 ∧
        rd t Reg.warpReasmCfg = rd s Reg.warpReasmCfg ∧ t.selvedge = s.selvedge) ∧
    (bits v.toNat 3 0 = 0 → fldS s Reg.warpReasmCfg 3 0 ≠ 0 →
      ∃ t, exec (.regWrite Reg.warpReasmCfg 15 v) s = .next t ∧ s.regSame t Reg.warpReasmCfg ∧ s.raises t 0x05 0x001) := by
  have hstore := hostStore_quiet (v := v.toNat) h (by decide) findRow_reasmCfg
  refine ⟨fun hv => ?_, fun hv ho => ?_⟩
  · rw [reasmCfg_takes hv, if_neg Bool.false_ne_true] at hstore
    refine ⟨_, congrArg Host.Outcome.next hstore, ?_, ?_, rfl⟩
    · rw [fldS, rdS_stored_same hs, bits_insBits (by decide) (by decide)]
      exact Nat.mod_eq_of_lt (bits_lt _ _ _)
    · rw [rd_stored_same hs]
      exact Nat.mod_eq_of_lt (BitVec.isLt _)
  · rw [reasmCfg_refuses hv ho, if_pos rfl] at hstore
    have hsrc : regSource (stored s Reg.warpReasmCfg (rdS s Reg.warpReasmCfg, rd s Reg.warpReasmCfg, true)) Reg.warpReasmCfg = 0x05 := by
      rw [regSource, regDomain, findRow_reasmCfg]
      rfl
    rw [hsrc] at hstore
    refine ⟨_, congrArg Host.Outcome.next hstore, ?_,
      raises_of_selvedge (u := stored s Reg.warpReasmCfg (rdS s Reg.warpReasmCfg, rd s Reg.warpReasmCfg, true)) rfl (raises_raiseFree _ _ _)⟩
    obtain ⟨h1, h2⟩ := raiseFree_regSame 0x05 0x001 (b := Reg.warpReasmCfg) (by decide)
      (stored_inv hs (a := Reg.warpReasmCfg) (rdS s Reg.warpReasmCfg, rd s Reg.warpReasmCfg, true))
    exact ⟨h1.trans (rd_stored_self hs _), h2.trans (rdS_stored_self hs _)⟩

end

/-- Settles O21: discarded writes raise their event, and staged fields take legal values. -/
theorem hostWritesStage : Obligations.HostWritesStage := by
  refine ⟨fun s a be v h hbe => ?_, fun s a be v h hr ha => ?_, fun s a be v h hr ha hd => ?_, fun s a v hs ha h hd => ?_,
    fun s v hs h hd => regWrite_reasmCfg hs (hostReaches_fixed (by decide) h hd), fun s off h h1 h2 be => ?_⟩
  · exact ⟨_, congrArg Host.Outcome.next (hostStore_part h hbe), raises_raiseFree s _ _, fun b hb hs => raiseFree_regSame _ _ hb hs⟩
  · exact ⟨_, congrArg Host.Outcome.next (hostStore_noRow h hr ha be.toNat), raises_raiseFree s _ _⟩
  · exact ⟨_, congrArg Host.Outcome.next (hostStore_dark h hr ha hd be.toNat), raises_raiseFree s _ _, fun b hb hs => raiseFree_regSame _ _ hb hs⟩
  · rw [List.mem_cons, List.mem_singleton] at ha
    rcases ha with rfl | rfl
    · exact regWrite_word (reset := 0) (d := 22) hs (hostReaches_fixed (by decide) h hd) (by decide) (by decide)
    · exact regWrite_word (reset := 0x64) (d := 22) hs (hostReaches_fixed (by decide) h hd) (by decide) (by decide)
  · exact ⟨_, exec_strayWrite h h1 h2 be, raises_raiseFree s _ _, fun b hb hs => raiseFree_regSame _ _ hb hs⟩

end Sys2Proof.Machine
end

