-- ==== Sys2Proof/Proofs/AddressFilter.lean ====
section
/-! SUPPORT. Proofs/AddressFilter.lean: a write of 0 to an entry of a MAC's address filter removes one listed entry (R308); the invariant
does not say that the filter lists an entry once, so O22's claim about MAC_ADDR_HI fails where it is listed twice. -/

namespace Sys2Proof.Machine

open Sys2Proof

/-- READY has asserted, the tables of the invariant are in canonical form, and the staged filter lists its entry 0 twice. -/
def filterListedTwice : State :=
  { State.reset with power := { mode := .listen, ready := true, clkPll := true, corePllLock := true, isOn := 2 ^ 32 - 1 }
                     ports := { filtS := [(0, 2 ^ 48), (0, 5)] } }

theorem filterListedTwice_inv : filterListedTwice.inv := by
  refine ⟨?_, ?_⟩ <;> decide

/-- The entry after the write reads as its second listing. -/
theorem filtS_after_write : sget 0 (hostStore Reg.macAddrHi 15 0 filterListedTwice).ports.filtS 0 = 5 := by decide

/-- Refutes O22: MAC_ADDR_HI is written with 0 while the staged filter lists entry 0 as 2^48 and, behind it, as 5. The first
listing goes, and the entry reads 5, not 0. -/
theorem not_registerWritesAct : ¬ Obligations.RegisterWritesAct := by
  unfold Obligations.RegisterWritesAct
  rintro ⟨-, -, -, -, -, -, -, hfilter, -⟩
  obtain ⟨t, ht, -, hentry, -⟩ := hfilter filterListedTwice 0 filterListedTwice_inv (by decide) (by decide) (by decide)
  obtain rfl : hostStore Reg.macAddrHi 15 0 filterListedTwice = t := Host.Outcome.next.inj ht
  have hsel : filtSel filterListedTwice = 0 := by decide
  have hwritten : bits (0 : Word).toNat 31 31 * 2 ^ 48 + bits (0 : Word).toNat 15 0 * 2 ^ 32 + sget 0 filterListedTwice.ports.filtS 0 % 2 ^ 32 = 0 := by
    decide
  rw [hsel, hwritten, filtS_after_write] at hentry
  exact absurd hentry (by decide)

end Sys2Proof.Machine
end

