-- ==== Sys2Proof/Proofs/Sweeps.lean ====
section
/-! SUPPORT. Proofs/Sweeps.lean: a sweep samples and restarts its counters or is skipped, its record goes to the host, and the flow
store's report at a repeat (R32 to R36, R199). -/

namespace Sys2Proof.Machine

open Sys2Proof

section
variable {s u : State} {m : Nat}

/-! ## Restarting the sampled counters (R32) -/

/-- The sweep restarts the counter of key `k`. -/
def sweeps (s : State) (m k : Nat) : Bool := (maskGroups m).contains (k / 0x100000) && domOn s (cntDomain k)

theorem sweeps_iff (k : Nat) : sweeps s m k = true ↔ k / 0x100000 < 18 ∧ m.testBit (k / 0x100000) = true ∧ domOn s (cntDomain k) = true := by
  simp [sweeps, maskGroups, bitList, and_assoc]

theorem sweeps_of_power (h : u.power = s.power) (k : Nat) : sweeps u m k = sweeps s m k := by rw [sweeps, sweeps, domOn, domOn, h]

/-- One step of the restart. -/
def sweepStep (m : Nat) (s : State) (k : Nat) : State := if sweeps s m k then cntRestart s k else s

theorem sweepStep_kept (k : Nat) : Kept 16 s (sweepStep m s k) := by
  rw [sweepStep]
  split
  · exact cntRestart_kept (.refl _ s) (.refl _)
  · exact .refl _ s

/-- Counters outside the sweep keep their values, and those of a swept group but 6 that the list names read 0. -/
theorem sweepRun_cnt (l : List Nat) (hs : s.inv) : (l.foldl (sweepStep m) s).inv ∧ (l.foldl (sweepStep m) s).power = s.power ∧
    (∀ k, sweeps s m k = false → sget 0 (l.foldl (sweepStep m) s).cnt k = sget 0 s.cnt k) ∧
    ∀ k, sweeps s m k = true → k / 0x100000 ≠ 6 → k ∈ l ∨ sget 0 s.cnt k = 0 → sget 0 (l.foldl (sweepStep m) s).cnt k = 0 := by
  induction l generalizing s with
  | nil => exact ⟨hs, rfl, fun _ _ => rfl, fun k _ _ h => h.resolve_left List.not_mem_nil⟩
  | cons x t ih =>
    have hk := sweepStep_kept (s := s) (m := m) x
    have hpow := hk.power_eq rfl
    obtain ⟨h1, h2, h3, h4⟩ := ih (hk.inv hs)
    have hother : ∀ k, k ≠ x ∨ sweeps s m x = false → sget 0 (sweepStep m s x).cnt k = sget 0 s.cnt k := fun k h => by
      rw [sweepStep]
      split
      case isTrue hx => exact cntRestart_other (inv_cnt hs) (h.resolve_right (by rw [hx]; decide))
      case isFalse => rfl
    refine ⟨h1, h2.trans hpow, fun k hkn => ?_, fun k hky h6 hmem => ?_⟩
    · refine (h3 k ((sweeps_of_power hpow k).trans hkn)).trans (hother k ?_)
      by_cases hkx : k = x
      · exact .inr (hkx ▸ hkn)
      · exact .inl hkx
    · refine h4 k ((sweeps_of_power hpow k).trans hky) h6 ?_
      by_cases hkx : k = x
      · subst hkx
        right
        rw [sweepStep, if_pos hky, cntRestart_same (inv_cnt hs), if_neg (fun h => h6 h.1)]
      · rcases hmem with hmem | hz
        · exact .inl ((List.mem_cons.1 hmem).resolve_left hkx)
        · exact .inr ((hother k (.inl hkx)).trans hz)

theorem sweepClear_eq : sweepClear s m = (s.cnt.map (·.1)).foldl (sweepStep m) s := rfl

theorem sweepClear_cnt (hs : s.inv) : (∀ g n, g < 18 → n < 0x100000 → g ≠ 6 → m.testBit g = true → domOn s (cntDomain (cntKey g n)) = true →
      cntVal (sweepClear s m) g n = 0) ∧
    ∀ g n, g < 18 → n < 0x100000 → m.testBit g = false → cntVal (sweepClear s m) g n = cntVal s g n := by
  have hkey : ∀ g n, n < 0x100000 → cntKey g n / 0x100000 = g := fun g n hn => by unfold cntKey; omega
  obtain ⟨-, -, hout, hin⟩ := sweepRun_cnt (m := m) (s.cnt.map (·.1)) hs
  rw [← sweepClear_eq] at hout hin
  refine ⟨fun g n hg hn h6 hb hd => ?_, fun g n hg hn hb => ?_⟩
  · refine hin _ ((sweeps_iff _).2 ?_) (by rwa [hkey g n hn]) ?_
    · rw [hkey g n hn]
      exact ⟨hg, hb, hd⟩
    · by_cases hmem : cntKey g n ∈ s.cnt.map (·.1)
      · exact .inl hmem
      · exact .inr (sget_not_listed 0 hmem)
  · refine hout _ ?_
    rw [← Bool.not_eq_true, sweeps_iff, hkey g n hn]
    rintro ⟨-, h, -⟩
    rw [hb] at h
    cases h

/-! ## The sweep point (R32, R35) -/

/-- The record of a sweep that begins. -/
def sweepBegun (s : State) (c : Nat) : SweepExport :=
  ⟨c, s.pick.seq, fld s Reg.pickSweepGroups 17 0, s.pick.skipped, s.pick.gen != .locked, s.pick.jumped, sweepCells s (fld s Reg.pickSweepGroups 17 0)⟩

theorem exec_sweepPoint_due {line : Option Nat} (hd : sweepDue s (comingCount s line) = true) (hx : s.pick.exporting = none)
    (hc : cqFree s (fld s Reg.pickSweepCtrl 24 16) ≠ 0) (hk : s.pick.skipNext = false) : exec (.sweepPoint line) s =
      .next (setPick (sweepClear s (fld s Reg.pickSweepGroups 17 0))
        { s.pick with exporting := some (sweepBegun s (comingCount s line)), skipped := 0, jumped := false }) := by
  have hgo : ¬ (s.pick.skipNext || s.pick.exporting.isSome || cqFree s (fld s Reg.pickSweepCtrl 24 16) == 0) = true := by
    rw [hk, hx]
    simpa using hc
  rw [exec, execSweepPoint]
  dsimp only
  rw [hd, if_neg (by decide), if_neg hgo]
  rfl

theorem exec_sweepPoint_skips {line : Option Nat} (hd : sweepDue s (comingCount s line) = true)
    (h : s.pick.skipNext = true ∨ s.pick.exporting.isSome = true ∨ cqFree s (fld s Reg.pickSweepCtrl 24 16) = 0) :
    exec (.sweepPoint line) s = .next (sweepSkip s) := by
  have hgo : (s.pick.skipNext || s.pick.exporting.isSome || cqFree s (fld s Reg.pickSweepCtrl 24 16) == 0) = true := by
    simpa [or_assoc] using h
  rw [exec, execSweepPoint]
  dsimp only
  rw [hd, if_neg (by decide), if_pos hgo]

/-! ## The way of a record to the host (R34, R36, R353) -/

/-- The requests that carry a record to the host. -/
def dmaOuts (s : State) (addr : Nat) (d : List Byte) : List Output :=
  (List.range ((d.length + 128 * 2 ^ s.host.pcie.mps - 1) / (128 * 2 ^ s.host.pcie.mps))).map (fun i =>
    .hostWrite (addr + i * (128 * 2 ^ s.host.pcie.mps)) ((d.drop (i * (128 * 2 ^ s.host.pcie.mps))).take (128 * 2 ^ s.host.pcie.mps))
      (flag s Reg.hostCtrl 1))

theorem emitRun (f : Nat → Output) (l : List Nat) : l.foldl (fun s i => emit s (f i)) s = { s with out := s.out ++ l.map f } := by
  induction l generalizing s with
  | nil => rw [List.map_nil, List.append_nil]; rfl
  | cons x t ih =>
    rw [List.foldl_cons, ih, List.map_cons, emit, List.append_assoc]
    rfl

theorem dmaWrite_eq (addr : Nat) (d : List Byte) : dmaWrite s addr d = { s with out := s.out ++ dmaOuts s addr d } := emitRun _ _

/-- The state in which the record has left. -/
def exportWritten (s : State) (x : SweepExport) : State :=
  setReg (setPick (dmaWrite s (sweepAddr s (sweepSlot s x.seq)) (sweepRecord x)) { s.pick with exporting := none, seq := (x.seq + 1) % 2 ^ 32 })
    Reg.pickSweepSeq x.seq

theorem exec_sweepExportDone {x : SweepExport} (hx : s.pick.exporting = some x) (hb : s.host.bme = true)
    (hc : 0 < cqFree s (fld s Reg.pickSweepCtrl 24 16)) : exec .sweepExportDone s =
      .next (cqWrite (exportWritten s x) (fld s Reg.pickSweepCtrl 24 16) (sweepEntry s x)) := by
  have hfree : cqFree (exportWritten s x) (sweepEntry s x).ring = cqFree s (fld s Reg.pickSweepCtrl 24 16) := by
    rw [exportWritten, dmaWrite_eq]
    rfl
  have hgo : ¬ (!s.host.bme) = true := by rw [hb]; decide
  rw [exec, execSweepExportDone, hx]
  dsimp only
  rw [if_neg hgo]
  refine congrArg Host.Outcome.next ?_
  have hw : setReg (setPick (dmaWrite s (sweepAddr s (sweepSlot s x.seq)) (sweepRecord x))
      { (dmaWrite s (sweepAddr s (sweepSlot s x.seq)) (sweepRecord x)).pick with exporting := none, seq := (x.seq + 1) % 2 ^ 32 })
      Reg.pickSweepSeq x.seq = exportWritten s x := by rw [exportWritten, dmaWrite_eq]
  rw [hw, hfree, if_pos hc]
  rfl

theorem exportWritten_state (hs : s.inv) (x : SweepExport) : (exportWritten s x).pick = { s.pick with exporting := none, seq := (x.seq + 1) % 2 ^ 32 } ∧
    rdS (exportWritten s x) Reg.pickSweepSeq = x.seq % 2 ^ 32 ∧
    (exportWritten s x).out = s.out ++ dmaOuts s (sweepAddr s (sweepSlot s x.seq)) (sweepRecord x) ∧ (exportWritten s x).host = s.host := by
  rw [exportWritten, dmaWrite_eq]
  exact ⟨rfl, rdS_setReg_same (s := setPick _ _) hs _ _, rfl, rfl⟩

/-! ## The flow store's report (R199) -/

theorem exec_repeatStart (hp : picksRun s = true) (hc : s.pick.count % 8192 = 0) (hf : 0 < s.flow.fullRep + s.flow.failRep) :
    exec .repeatStart s = .next (notifyReg (setFlow s { s.flow with fullRep := 0, failRep := 0 }) Reg.heddleNotify 0 0x20
      (s.flow.fullRep + s.flow.failRep * 2 ^ 64)) := by
  have hgo : (picksRun s && s.pick.count % 8192 == 0 && decide (0 < s.flow.fullRep + s.flow.failRep)) = true := by
    rw [hp, decide_eq_true hf, hc]
    rfl
  rw [exec, execRepeatStart, if_pos hgo]

/-- The four clauses of O25 about sweeps and repeats. -/
theorem sweepPoint_samples {line : Option Nat} (hs : s.inv) (hd : sweepDue s (comingCount s line) = true) (hx : s.pick.exporting = none)
    (hc : cqFree s (fld s Reg.pickSweepCtrl 24 16) ≠ 0) (hk : s.pick.skipNext = false) :
    ∃ t x, exec (.sweepPoint line) s = .next t ∧ t.pick.exporting = some x ∧ x.pick = comingCount s line ∧ x.seq = s.pick.seq ∧
      x.groups = fld s Reg.pickSweepGroups 17 0 ∧ x.skipped = s.pick.skipped ∧
      x.cells = sweepCells s (fld s Reg.pickSweepGroups 17 0) ∧ t.pick.skipped = 0 ∧ t.pick.jumped = false ∧
      (∀ g n, g < 18 → n < 0x100000 → g ≠ 6 → (fld s Reg.pickSweepGroups 17 0).testBit g = true → domOn s (cntDomain (cntKey g n)) = true →
        cntVal t g n = 0) ∧
      (∀ g n, g < 18 → n < 0x100000 → (fld s Reg.pickSweepGroups 17 0).testBit g = false → cntVal t g n = cntVal s g n) := by
  obtain ⟨h1, h2⟩ := sweepClear_cnt (m := fld s Reg.pickSweepGroups 17 0) hs
  exact ⟨_, sweepBegun s (comingCount s line), exec_sweepPoint_due hd hx hc hk, rfl, rfl, rfl, rfl, rfl, rfl, rfl, rfl, h1, h2⟩

theorem sweepSkip_counts (hs : s.inv) : (sweepSkip s).pick = { s.pick with skipped := min 0xFFFFFFFF (s.pick.skipped + 1), skipNext := false } ∧
    cntVal (sweepSkip s) 18 0 = min cntMax (cntVal s 18 0 + 1) ∧ ∀ g n, g < 18 → n < 0x100000 → cntVal (sweepSkip s) g n = cntVal s g n := by
  have hset : (setPick s { s.pick with skipped := min 0xFFFFFFFF (s.pick.skipped + 1), skipNext := false }).inv := hs
  exact ⟨count_pick .., cntVal_countBy_same hset 18 0 1, fun g n hg hn => cntVal_countBy_other hset (by unfold cntKey; omega) 1⟩

theorem sweepExport_posts {x : SweepExport} (hs : s.inv) (hx : s.pick.exporting = some x) (hb : s.host.bme = true)
    (hc : 0 < cqFree s (fld s Reg.pickSweepCtrl 24 16)) :
    ∃ t, exec .sweepExportDone s = .next t ∧ t.pick = { s.pick with exporting := none, seq := (x.seq + 1) % 2 ^ 32 } ∧
      rdS t Reg.pickSweepSeq = x.seq % 2 ^ 32 ∧
      s.out ++ dmaOuts s (sweepAddr s (sweepSlot s x.seq)) (sweepRecord x) ++
        [entryOut (fld s Reg.pickSweepCtrl 24 16) (ringAt s (fld s Reg.pickSweepCtrl 24 16)) (sweepEntry s x)] <+: t.out := by
  obtain ⟨hpick, hseq, hout, hhost⟩ := exportWritten_state hs x
  have hk : Kept 8336 (exportWritten s x) (cqWrite (exportWritten s x) (fld s Reg.pickSweepCtrl 24 16) (sweepEntry s x)) :=
    cqWrite_kept (.refl _ _) (.refl _)
  have hentry := cqWrite_out (exportWritten s x) (fld s Reg.pickSweepCtrl 24 16) (sweepEntry s x)
  have hring : ringAt (exportWritten s x) (fld s Reg.pickSweepCtrl 24 16) = ringAt s (fld s Reg.pickSweepCtrl 24 16) := by
    rw [ringAt, ringAt, hhost]
  rw [hout, hring] at hentry
  refine ⟨_, exec_sweepExportDone hx hb hc, (hk.pick_eq rfl).trans hpick, ?_, hentry⟩
  rw [rdS, hk.stg_eq rfl]
  exact hseq

theorem repeatStart_reports (hp : picksRun s = true) (hc : s.pick.count % 8192 = 0) (hf : 0 < s.flow.fullRep + s.flow.failRep) :
    ∃ t, exec .repeatStart s = .next t ∧ t.flow = { s.flow with fullRep := 0, failRep := 0 } ∧
      (flag s Reg.heddleNotify 31 = false → t = { s with flow := { s.flow with fullRep := 0, failRep := 0 } }) := by
  refine ⟨_, exec_repeatStart hp hc hf, (notifyReg_kept (.refl _ _) (.refl _)).flow_eq rfl, fun hn => ?_⟩
  have hoff : flag (setFlow s { s.flow with fullRep := 0, failRep := 0 }) Reg.heddleNotify 31 = false := hn
  rw [notifyReg, hoff]
  rfl

end

end Sys2Proof.Machine
end

