-- ==== Sys2Proof/Proofs/PostedCounters.lean ====
section
/-! SUPPORT. Proofs/PostedCounters.lean: which counter groups a posted completion, a freed buffer and a discarded frame may change
(R254, R349, R366), and the reports that they leave behind those that wait. -/

namespace Sys2Proof.Machine

open Sys2Proof

section
variable {gs : List Nat} {s t u : State}

theorem countEntry_cnts (h : 14 ∈ gs) (e : Completion) : CntsIn gs s (countEntry s e) := by
  have hc : ∀ (u : State) (n : Nat), n < 0x100000 → CntsIn gs u (count u 14 n) := fun u n hn => cntsIn_count h hn
  have hb : ∀ (u : State) (n k : Nat), n < 0x100000 → CntsIn gs u (countBy u 14 n k) := fun u n k hn => cntsIn_countBy h hn k
  have h0 : CntsIn gs s (if e.status = 4 then count s 14 17 else s) := by
    split
    · exact hc s 17 (by decide)
    · exact .refl gs s
  rw [countEntry]
  generalize (if e.status = 4 then count s 14 17 else s) = v at h0 ⊢
  split
  · split
    · exact h0.trans ((hc _ 7 (by decide)).trans (hb _ 8 _ (by decide)))
    · exact h0
  · split
    · exact h0.trans ((hc _ 9 (by decide)).trans (hb _ 10 _ (by decide)))
    · exact h0
  · exact h0.trans (hc _ (if e.status = 0 then 11 else 12) (by split <;> decide))
  · exact h0

theorem setRing_cnts (r : Nat) (x : Ring) : CntsIn gs s (setRing s r x) := .of_kept (setRing_kept (.refl _ s) (.refl _)) rfl

theorem drainRing_cnts (h : 14 ∈ gs) (n r : Nat) : CntsIn gs s (drainRing n s r) := by
  induction n generalizing s with
  | zero => exact .refl gs s
  | succ n ih =>
    rw [drainRing]
    dsimp only
    split
    · exact .refl gs s
    · split
      · exact (((setRing_cnts _ _).trans (cqWrite_cnts h _ _)).trans (countEntry_cnts h _)).trans ih
      · split
        · exact (cntsIn_count h (by decide)).trans (setRing_cnts _ _)
        · exact .refl gs s

theorem post_cnts (h : 14 ∈ gs) (r : Nat) (w : RingWait) : CntsIn gs s (post s r w) := by
  rw [post]
  split
  · exact .refl gs s
  · exact (setRing_cnts _ _).trans (drainRing_cnts h _ _)

theorem txTs_cnts (h : 14 ∈ gs) (r i status body : Nat) : CntsIn gs s (txTs s r i status body) :=
  (setRing_cnts _ _).trans (post_cnts h _ _)

theorem arrive_cnts (h : 17 ∈ gs) (r : Report) : CntsIn gs s (arrive s r) := by
  rw [arrive]
  split
  · exact fun hs => ⟨hs, fun _ _ => rfl⟩
  · exact .trans (cntsIn_count h (by decide)) (.of_kept (setBit_kept (.refl _ _) (.refl _)) rfl)

theorem raiseEv_cnts (h : 17 ∈ gs) (src code ctx : Nat) : CntsIn gs s (raiseEv s src code ctx) := arrive_cnts h _

theorem setReg_cnts (a v : Nat) : CntsIn gs s (setReg s a v) := .of_kept (setReg_kept (.refl _ s) (.refl _)) rfl

theorem draw_cnts : CntsIn gs s (draw s).2 := fun hs => ⟨hs, fun _ _ => rfl⟩

/-- A buffer that its owner frees. -/
theorem freedBuf_cnts (h9 : 9 ∈ gs) (b : Nat) (bad : Bool) : CntsIn gs s (if bad then
      setBuf (draw (count (count s 9 1) 9 9)).2 b (if (draw (count (count s 9 1) 9 9)).1 % 2 = 0 then .freeing else .quarantined) 0
    else setBuf (count s 9 1) b .freeing 0) := by
  have hset : ∀ (u : State) (st : BufSt), CntsIn gs u (setBuf u b st 0) := fun u st => .of_kept (setBuf_kept (.refl _ u) (.refl _)) rfl
  have h1 : CntsIn gs s (count s 9 1) := cntsIn_count h9 (by decide)
  split
  · exact ((h1.trans (cntsIn_count h9 (by decide))).trans draw_cnts).trans (hset _ _)
  · exact h1.trans (hset _ _)

theorem spoolFree_cnts (h9 : 9 ∈ gs) (h17 : 17 ∈ gs) (b o : Nat) : CntsIn gs s (spoolFree s b o) := by
  have hn : ∀ k : Nat, (if k = 1 then 8 else if k = 2 then 6 else 7) < 0x100000 := fun k => by
    split
    · decide
    · split <;> decide
  rw [spoolFree]
  split
  · exact .refl gs s
  · dsimp only
    generalize freeKind s b o = k
    split
    · exact freedBuf_cnts h9 b _
    · have hbad : CntsIn gs s (raiseEv (count s 9 (if k = 1 then 8 else if k = 2 then 6 else 7)) 0x0F 0x040 (k * 2 ^ 20 + b % 2 ^ 20)) :=
        (cntsIn_count h9 (hn k)).trans (raiseEv_cnts h17 _ _ _)
      generalize raiseEv (count s 9 _) 0x0F 0x040 (k * 2 ^ 20 + b % 2 ^ 20) = v at hbad ⊢
      split
      · exact hbad
      · exact hbad.trans ((setReg_cnts _ _).trans (setReg_cnts _ _))

theorem sendHanded_cnts (h : 14 ∈ gs) (f : Frame) : CntsIn gs s (sendHanded s f) := by
  rw [sendHanded]
  split
  · exact .refl gs s
  · split
    · exact post_cnts h _ _
    · exact .refl gs s

theorem frameGone_cnts (h9 : 9 ∈ gs) (h14 : 14 ∈ gs) (h17 : 17 ∈ gs) (f : Frame) : CntsIn gs s (frameGone s f) := by
  have h0 : CntsIn gs s (if f.handle = 0xFFFFF then s else spoolFree s f.handle f.owner) := by
    split
    · exact .refl gs s
    · exact spoolFree_cnts h9 h17 _ _
  rw [frameGone]
  generalize (if f.handle = 0xFFFFF then s else spoolFree s f.handle f.owner) = v at h0 ⊢
  have h1 : CntsIn gs s (sendHanded v f) := h0.trans (sendHanded_cnts h14 f)
  generalize sendHanded v f = w at h1 ⊢
  split
  · exact h1
  · split
    · exact h1.trans (txTs_cnts h14 _ _ _ _)
    · exact h1

/-! ## Reports behind those that wait -/

/-- Reports may have come to wait behind those that waited. -/
def WaitsMore (s t : State) : Prop := s.selvedge.waiting <+: t.selvedge.waiting

theorem WaitsMore.of_eq (h : t.selvedge = s.selvedge) : WaitsMore s t := by
  rw [WaitsMore, h]

theorem WaitsMore.trans (h : WaitsMore s t) (h' : WaitsMore t u) : WaitsMore s u := List.IsPrefix.trans h h'

theorem arrive_waitsMore (r : Report) : WaitsMore s (arrive s r) := by
  rw [arrive]
  split
  · exact List.prefix_append _ _
  · exact .of_eq (by rw [setBit, setFld_selvedge, count_selvedge])

theorem raiseFree_waitsMore (source code : Nat) : WaitsMore s (raiseFree s source code) := arrive_waitsMore (s := (draw s).2) _

end

end Sys2Proof.Machine
end

