-- ==== Sys2Proof/Proofs/Overruns.lean ====
section
/-! SUPPORT. Proofs/Overruns.lean: what an overrun of a per-pick budget reports and loses (R29, R30). -/

namespace Sys2Proof.Machine

open Sys2Proof

section
variable {s u : State} {bit arg clocks : Nat}

/-! ## The report (R30) -/

theorem overrunEv_kept' (bit source clocks : Nat) : Kept 2072 s (overrunEv s bit source clocks) := overrunEv_kept (.refl _ s) (.refl _)

theorem overrunEv_cnts (bit source clocks : Nat) : CntsIn [17] s (overrunEv s bit source clocks) :=
  .trans (.of_kept (setBit_kept (.refl _ s) (.refl _)) rfl) (raiseEv_cnts (by decide) _ _ _)

theorem overrunEv_flag (hs : s.inv) (hb : bit < 14) (source clocks : Nat) : flag (overrunEv s bit source clocks) Reg.pickOverrun bit = true := by
  have h1 : (setBit s Reg.pickOverrun bit).inv := (setBit_kept (.refl 8 s) (.refl _)).inv hs
  have hregs : RegsIn [Reg.selvedgeStat] (setBit s Reg.pickOverrun bit) (overrunEv s bit source clocks) := regsIn_raiseEv (by decide) _ _ _
  rw [hregs.flag h1 (by decide), flag_setBit hs (by omega)]

/-- The report waits behind those that waited. -/
theorem overrunEv_waiting (source clocks : Nat) (h : (s.selvedge.waiting.filter (fun q => q.source == source)).length < 8) :
    (overrunEv s bit source clocks).selvedge.waiting = s.selvedge.waiting ++ [⟨codeClass source 0x020, source, 0x020, clocks % 2 ^ 32, source, 0x020⟩] := by
  have hsel : (setBit s Reg.pickOverrun bit).selvedge = s.selvedge := setFld_selvedge ..
  have hroom : ((setBit s Reg.pickOverrun bit).selvedge.waiting.filter (fun q => q.source == source)).length < 8 := by rw [hsel]; exact h
  have := arrive_waiting (s := setBit s Reg.pickOverrun bit) ⟨codeClass source 0x020, source, 0x020, clocks % 2 ^ 32, source, 0x020⟩ hroom
  rw [hsel] at this
  exact this

theorem overrunEv_hist (bit source clocks : Nat) : (overrunEv s bit source clocks).selvedge.hist = s.selvedge.hist := by
  have h : OnlyWaits s (overrunEv s bit source clocks) :=
    .trans (.of_eq (setFld_selvedge ..)) (raiseEv_onlyWaits (setBit s Reg.pickOverrun bit) _ _ _)
  rw [h]

/-! ## What is lost (R29) -/

theorem overrunEffect_kept' (bit arg : Nat) : Kept 5778704 s (overrunEffect bit arg s) := overrunEffect_kept (.refl _ s) (.refl _)

theorem overrunEffect_waiting (bit arg : Nat) : (overrunEffect bit arg s).selvedge.waiting = s.selvedge.waiting := by
  have hk : ∀ {n : Nat} {t : State}, Kept n s t → n.testBit 11 = false → t.selvedge.waiting = s.selvedge.waiting := fun h hn => by rw [h.selvedge_eq hn]
  unfold overrunEffect
  split
  · exact hk (codewordDone_kept (.refl _ s) (.refl _)) rfl
  · split
    · exact hk (n := 524304) (headerFail_kept (setWarp_kept (.refl _ s) (.of (.refl _) rfl)) (.refl _)) rfl
    · rfl
  · exact hk (n := 524304) (count_kept (setWarp_kept (.refl _ s) (.of (.refl _) rfl)) (.of (.refl _) rfl)) rfl
  · exact hk (countBy_kept (.refl _ s) (.refl _)) rfl
  · exact hk (fillLate_kept (.refl _ s) (.refl _)) rfl
  · exact hk (draftOverrun_kept (.refl _ s) (.refl _)) rfl
  · rfl
  · rfl
  · rfl
  · rfl
  · rfl
  · rfl

theorem overrunEffect_pick (h : bit ≠ 11) (arg : Nat) : (overrunEffect bit arg s).pick = s.pick := by
  unfold overrunEffect
  split
  · exact (codewordDone_kept (.refl _ s) (.refl _)).pick_eq rfl
  · split
    · exact (headerFail_kept (setWarp_kept (.refl 524304 s) (.of (.refl _) rfl)) (.refl _)).pick_eq rfl
    · rfl
  · exact count_pick ..
  · exact countBy_pick ..
  · exact (fillLate_kept (.refl _ s) (.refl _)).pick_eq rfl
  · exact (draftOverrun_kept (.refl _ s) (.refl _)).pick_eq rfl
  · rfl
  · rfl
  · rfl
  · exact absurd rfl h
  · rfl
  · rfl

theorem codewordDone_bursts (idx : Nat) : (codewordDone idx none s).weft.bursts = s.weft.bursts := by
  by_cases hd : codewordDue idx s = true
  · obtain ⟨p, hp⟩ := codewordDone_poisoned hd
    have hw : (count (codewordTaken idx s) 0 2).weft = s.weft := (count_weft ..).trans (count_weft ..)
    rw [hp]
    change (addRei (count (codewordTaken idx s) 0 2) 1).weft.bursts = _
    rw [addRei]
    split
    · rw [setWeft_weft, hw]
    · rw [hw]
  · rw [codewordDone, if_neg hd]

theorem overrunEffect_bursts (h : bit ≠ 4) (arg : Nat) : (overrunEffect bit arg s).weft.bursts = s.weft.bursts := by
  unfold overrunEffect
  split
  · exact codewordDone_bursts arg
  · split
    · rw [(headerFail_kept (setWarp_kept (.refl 524304 s) (.of (.refl _) rfl)) (.refl _)).weft_eq rfl]
    · rfl
  · exact congrArg Weft.bursts (count_weft ..)
  · exact congrArg Weft.bursts (countBy_weft ..)
  · exact absurd rfl h
  · rw [(draftOverrun_kept (.refl _ s) (.refl _)).weft_eq rfl]
  · rfl
  · rfl
  · rfl
  · rfl
  · rfl
  · rfl

/-- The codeword is poisoned. -/
theorem overrun_codeword (hs : s.inv) (hd : codewordDue arg s = true) :
    arg ∈ (codewordDone arg none s).warp.rx.poison ∧ cntVal (codewordDone arg none s) 0 2 = min cntMax (cntVal s 0 2 + 1) := by
  obtain ⟨p, hp⟩ := codewordDone_poisoned hd
  obtain ⟨hi, -, h2, -⟩ := codewordTaken_cnt hs arg
  have hk : Kept 1048576 (count (codewordTaken arg s) 0 2) (addRei (count (codewordTaken arg s) 0 2) 1) := addRei_kept (.refl _ _) (.refl _)
  rw [hp]
  refine ⟨?_, ?_⟩
  · change arg ∈ (addRei (count (codewordTaken arg s) 0 2) 1).warp.rx.poison ++ [arg]
    simp
  · change cntVal (addRei (count (codewordTaken arg s) 0 2) 1) 0 2 = _
    rw [cntVal, hk.cnt_eq rfl]
    refine (cntVal_countBy_same hi 0 2 1).trans ?_
    rw [h2]

/-- The pick fails its header check. -/
theorem overrun_pick (hs : s.inv) (hon : rxOn s = true) (ha : s.warp.align = .sync) (hc : s.warp.rx.checked = false) :
    (overrunEffect 1 arg s).warp.rx.checked = true ∧ (overrunEffect 1 arg s).warp.rx.ok = false ∧
      cntVal (overrunEffect 1 arg s) 0 5 = min cntMax (cntVal s 0 5 + 1) := by
  have he : overrunEffect 1 arg s = headerFail (setWarp s { s.warp with rx := { s.warp.rx with checked := true }, odd := none }) :=
    if_pos (headerDue (h := hon) ha hc)
  obtain ⟨hrx, -, -⟩ := headerFail_warp (s := setWarp s { s.warp with rx := { s.warp.rx with checked := true }, odd := none })
  obtain ⟨h5, -⟩ := headerFail_cnt (s := setWarp s { s.warp with rx := { s.warp.rx with checked := true }, odd := none }) hs
  rw [he, hrx]
  exact ⟨rfl, rfl, h5⟩

/-! ## Samples that repeat (R323) -/

/-- Every index of a table that rises from `lo` is at least `lo`. -/
theorem le_of_srising {α : Type} {lo i : Nat} {l : Sparse α} (h : srising lo l = true) (hi : i ∈ l.map (·.1)) : lo ≤ i := by
  induction l generalizing lo with
  | nil => cases hi
  | cons e t ih =>
    obtain ⟨k, v⟩ := e
    rw [srising, Bool.and_eq_true, decide_eq_true_eq] at h
    rcases List.mem_cons.1 hi with rfl | hi
    · exact h.1
    · have := ih h.2 hi
      omega

/-- Entries put one after the other: an index reads as the list has it, or as before. -/
theorem sget_putAll {lo : Nat} {l m : Sparse Nat} (hl : srising lo l = true) (hm : srising 0 m = true) (n : Nat) :
    sget 0 (l.foldl (fun m e => sput 0 m e.1 e.2) m) n = if n ∈ l.map (·.1) then sget 0 l n else sget 0 m n := by
  induction l generalizing lo m with
  | nil => rfl
  | cons e t ih =>
    obtain ⟨k, v⟩ := e
    rw [srising, Bool.and_eq_true, decide_eq_true_eq] at hl
    have hge : ∀ i ∈ t.map (·.1), k + 1 ≤ i := fun i hi => le_of_srising hl.2 hi
    rw [List.foldl_cons, ih hl.2 (srising_sput hm k v), List.map_cons, sget]
    by_cases hn : n ∈ t.map (·.1)
    · have := hge n hn
      rw [if_pos hn, if_pos (List.mem_cons_of_mem _ hn), if_neg (by omega), if_neg (by omega)]
    · rw [if_neg hn]
      by_cases hk : k = n
      · subst hk
        rw [if_pos List.mem_cons_self, if_pos rfl, sget_sput_same hm]
      · rw [if_neg (fun h => (List.mem_cons.1 h).elim (fun h => hk h.symm) hn), sget_sput_other _ _ hm hk]

theorem sget_skeep_in {α : Type} {d : α} {p : Nat → Bool} {i lo : Nat} {m : Sparse α} (hm : srising lo m = true) (h : p i = true) :
    sget d (skeep p m) i = sget d m i := by
  induction m generalizing lo with
  | nil => rfl
  | cons e t ih =>
    obtain ⟨k, v⟩ := e
    rw [srising, Bool.and_eq_true, decide_eq_true_eq] at hm
    have ht : sget d (skeep p t) i = sget d t i := ih hm.2
    by_cases hk : k = i
    · subst hk
      have hf : skeep p ((k, v) :: t) = (k, v) :: skeep p t := List.filter_cons_of_pos h
      rw [hf, sget, sget, if_pos rfl, if_pos rfl]
    · by_cases hp : p k = true
      · have hf : skeep p ((k, v) :: t) = (k, v) :: skeep p t := List.filter_cons_of_pos hp
        rw [hf, sget, sget, if_neg hk, if_neg hk]
        exact if_congr Iff.rfl rfl ht
      · have hf : skeep p ((k, v) :: t) = skeep p t := List.filter_cons_of_neg hp
        rw [hf, sget, if_neg hk]
        refine ht.trans ?_
        split
        · exact sget_below d hm.2 (by omega)
        · rfl

theorem swf_rising {α : Type} [DecidableEq α] {d : Nat → α} {m : Sparse α} (h : swf d m = true) : srising 0 m = true := by
  rw [swf, Bool.and_eq_true] at h
  exact h.1

theorem draftLate_outs (ha : arg < 256) (ho : swf (fun _ => 0) s.draft.outs = true) (hl : swf (fun _ => 0) s.draft.lastOuts = true) (n : Nat) :
    sget 0 (draftOverrun arg s).draft.outs n = if arg ≤ n % 256 then sget 0 s.draft.lastOuts n else sget 0 s.draft.outs n := by
  have hlast := swf_rising hl
  have hold := srising_skeep hlast (fun n => decide (arg ≤ n % 256))
  have hkeep := srising_skeep (swf_rising ho) (fun n => decide (n % 256 < arg))
  have hout : (draftOverrun arg s).draft.outs = (skeep (fun n => decide (arg ≤ n % 256)) s.draft.lastOuts).foldl (fun m e => sput 0 m e.1 e.2)
      (skeep (fun n => decide (n % 256 < arg)) s.draft.outs) := by
    rw [draftOverrun, if_pos ha, draftLate, countBy_draft]
    rfl
  rw [hout, sget_putAll hold hkeep]
  by_cases hn : arg ≤ n % 256
  · rw [if_pos hn]
    have hsame := sget_skeep_in (d := 0) hlast (p := fun n => decide (arg ≤ n % 256)) (i := n) (decide_eq_true hn)
    split
    case isTrue => exact hsame
    case isFalse hnot =>
      rw [sget_skeep_out (decide_eq_false (by omega)), ← hsame, sget_not_listed 0 hnot]
  · rw [if_neg hn, if_neg, sget_skeep_in (swf_rising ho) (decide_eq_true (by omega))]
    intro hmem
    obtain ⟨e, he, rfl⟩ := List.mem_map.1 hmem
    exact hn (by simpa using (List.mem_filter.1 he).2)

theorem draftLate_counts (hs : s.inv) (ha : arg < 256) : cntVal (draftOverrun arg s) 13 11 = min cntMax (cntVal s 13 11 + 16 * (256 - arg)) := by
  rw [draftOverrun, if_pos ha, draftLate]
  have hset : ∀ x, (setDraft s x).inv := fun _ => hs
  exact cntVal_countBy_same (hset _) 13 11 _

/-! ## Storm windows and late commands (R24, R443) -/

/-- An entry that is due stays open until the next commit point. -/
theorem stormLate_none : ∀ e ∈ (stormLate s).selvedge.hist, stormDue s e = false := by
  intro e he
  obtain ⟨x, -, rfl⟩ := List.mem_map.1 he
  split
  · simp [stormDue]
  · case isFalse h => simpa using h

theorem markLate_at {c : CmdItem} {n : Nat} (h : s.host.cmds[n]? = some c) : (markLate n s).host.cmds[n]? = some { c with late := true } := by
  simp [markLate, h]

/-! ## The command (R29) -/

theorem exec_perPickOverrun (hp : picksRun s = true) (hb : bit < 14) (h10 : bit ≠ 10) (h12 : bit ≠ 12) (hd : domOn s (overrunUnit bit).2 = true) :
    exec (.perPickOverrun bit clocks arg) s = .next (overrunEv (overrunEffect bit arg s) bit (overrunUnit bit).1 clocks) := by
  have hgo : ¬ (!picksRun s || decide (13 < bit) || !domOn s (overrunUnit bit).2) = true := by
    rw [hp, hd, decide_eq_false (by omega)]
    decide
  rw [exec, execPerPickOverrun, if_neg hgo, if_neg h12, if_neg h10]

/-- No unit of a budget but the proof test's reports a class 3 event. -/
theorem overrunUnit_class : ∀ bit < 14, bit ≠ 12 → codeClass (overrunUnit bit).1 0x020 = 2 := by decide

/-- A latch reports behind those that wait. -/
theorem safetyLatchAny_waitsMore {reason : Nat} (hv : s.safety.vddSafe = true) (hl : s.safety.latch = false)
    (hr : (reason < 8 ∧ s.safety.hold = false) ∨ reason = 9) : WaitsMore s (safetyLatchAny reason s) := by
  have he : safetyLatchAny reason s = raiseFree (latchTold reason (latchActs (latchSet reason (1 + (draw s).1 % 3) (draw s).2))) 0x26 (latchCode reason) :=
    safetyLatch_reported (s := (draw s).2) hv hl hr
  rw [he]
  refine .trans (.of_eq ?_) (raiseFree_waitsMore _ _)
  rw [(latchTold_kept reason).selvedge_eq rfl, latchActs_kept.selvedge_eq rfl]
  rfl

/-! ## The drain of an old deck, and a proof test that runs over (R30, R191, R458) -/

theorem exec_deckOverrun (hp : picksRun s = true) (hd : domOn s 10 = true) (hf : s.heddle.frozen = true) :
    exec (.perPickOverrun 10 clocks arg) s = .next (deckOverrun clocks s) := by
  have hgo : ¬ (!picksRun s || decide (13 < 10) || !domOn s (overrunUnit 10).2) = true := by
    change ¬ (!picksRun s || false || !domOn s 10) = true
    rw [hp, hd]
    decide
  rw [exec, execPerPickOverrun, if_neg hgo, if_neg (by decide), if_pos rfl, if_pos hf]

theorem exec_proofOverrun (hp : picksRun s = true) (hd : domOn s 9 = true) :
    exec (.perPickOverrun 12 clocks arg) s = .next (proofOverrun clocks s) := by
  have hgo : ¬ (!picksRun s || decide (13 < 12) || !domOn s (overrunUnit 12).2) = true := by
    change ¬ (!picksRun s || false || !domOn s 9) = true
    rw [hp, hd]
    decide
  rw [exec, execPerPickOverrun, if_neg hgo, if_pos rfl]

/-- The deck is released, and the frames of the old generation leave it. -/
def deckReleased (s : State) : State :=
  setHeddle s { s.heddle with flights := s.heddle.flights.filter (fun x => x.frame.gen == s.heddle.gen), frozen := false }

/-- The frames of the old generation are counted and discarded. -/
def oldDropped (s : State) : State :=
  (oldFlights s).foldl (fun s x => frameGone s x.frame) (countBy (deckReleased s) 4 17 (oldFlights s).length)

theorem framesGone_cnts (l : List Flight) : CntsIn [9, 14, 17] s (l.foldl (fun s x => frameGone s x.frame) s) :=
  have hone : ∀ (u : State) (x : Flight), CntsIn [9, 14, 17] u (frameGone u x.frame) := fun u x =>
    frameGone_cnts (by decide) (by decide) (by decide) x.frame
  CntsIn.foldl (f := fun s x => frameGone s x.frame) hone l

theorem framesGone_kept (l : List Flight) : Kept 26840 s (l.foldl (fun s x => frameGone s x.frame) s) :=
  kept_foldl (.refl _ s) (fun _ _ h => frameGone_kept h (.refl _))

theorem oldDropped_state (hs : s.inv) : (oldDropped s).inv ∧ cntVal (oldDropped s) 4 17 = min cntMax (cntVal s 4 17 + (oldFlights s).length) ∧
    (oldDropped s).heddle = (deckReleased s).heddle := by
  have hset : (deckReleased s).inv := hs
  have hi := countBy_inv hset 4 17 (oldFlights s).length
  have hc := framesGone_cnts (s := countBy (deckReleased s) 4 17 (oldFlights s).length) (oldFlights s)
  refine ⟨hc.inv hi, ?_, ?_⟩
  · exact (hc.cntVal hi (by decide) (by decide)).trans (cntVal_countBy_same hset 4 17 _)
  · exact ((framesGone_kept _).heddle_eq rfl).trans (countBy_heddle ..)

theorem deckOverrun_drops (hs : s.inv) : (deckOverrun clocks s).heddle.frozen = false ∧
    (deckOverrun clocks s).heddle.flights = s.heddle.flights.filter (fun x => x.frame.gen == s.heddle.gen) ∧
    flag (deckOverrun clocks s) Reg.pickOverrun 10 = true ∧
    cntVal (deckOverrun clocks s) 4 17 = min cntMax (cntVal s 4 17 + (s.heddle.flights.filter (fun x => x.frame.gen != s.heddle.gen)).length) := by
  have he : deckOverrun clocks s = overrunEv (oldDropped s) 10 0x0A clocks := rfl
  obtain ⟨hi, hc, hh⟩ := oldDropped_state hs
  have hheddle := ((overrunEv_kept' (s := oldDropped s) 10 0x0A clocks).heddle_eq rfl).trans hh
  rw [he, hheddle]
  exact ⟨rfl, rfl, overrunEv_flag hi (by decide) _ _, ((overrunEv_cnts 10 0x0A clocks).cntVal hi (by decide) (by decide)).trans hc⟩

theorem proofOverrun_latches (hs : s.inv) (hv : s.safety.vddSafe = true) (hl : s.safety.latch = false) :
    flag (proofOverrun clocks s) Reg.pickOverrun 12 = true ∧ (proofOverrun clocks s).safety.latch = true ∧ (proofOverrun clocks s).safety.reason = 9 ∧
      ((s.selvedge.waiting.filter (fun q => q.source == 0x26)).length < 8 →
        ∃ more, (proofOverrun clocks s).selvedge.waiting = s.selvedge.waiting ++ ⟨3, 0x26, 0x020, clocks % 2 ^ 32, 0x26, 0x020⟩ :: more) := by
  have hk := overrunEv_kept' (s := s) 12 0x26 clocks
  have hc : Kept 8 (overrunEv s 12 0x26 clocks) (clrBit (overrunEv s 12 0x26 clocks) Reg.safetyProof 31) := clrBit_kept (.refl _ _) (.refl _)
  have hsafe : (clrBit (overrunEv s 12 0x26 clocks) Reg.safetyProof 31).safety = s.safety := (hc.safety_eq rfl).trans (hk.safety_eq rfl)
  have hi : (clrBit (overrunEv s 12 0x26 clocks) Reg.safetyProof 31).inv := hc.inv (hk.inv hs)
  have hflag : flag (clrBit (overrunEv s 12 0x26 clocks) Reg.safetyProof 31) Reg.pickOverrun 12 = true := by
    have hregs : RegsIn [Reg.safetyProof] (overrunEv s 12 0x26 clocks) (clrBit (overrunEv s 12 0x26 clocks) Reg.safetyProof 31) := regsIn_setFld (by decide) 31 31 0
    rw [hregs.flag (hk.inv hs) (by decide), overrunEv_flag hs (by decide)]
  have hwait : (clrBit (overrunEv s 12 0x26 clocks) Reg.safetyProof 31).selvedge.waiting = (overrunEv s 12 0x26 clocks).selvedge.waiting := by
    rw [hc.selvedge_eq rfl]
  have he : proofOverrun clocks s = safetyLatchAny 9 (clrBit (overrunEv s 12 0x26 clocks) Reg.safetyProof 31) := rfl
  rw [he]
  generalize clrBit (overrunEv s 12 0x26 clocks) Reg.safetyProof 31 = u at hsafe hi hflag hwait
  obtain ⟨h1, h2, -, -, -, -, -, hregs⟩ := safetyLatchAny_set (s := u) (reason := 9) hi (by rw [hsafe]; exact hv) (by rw [hsafe]; exact hl) (.inr rfl)
  refine ⟨?_, h1, h2, fun hroom => ?_⟩
  · rw [hregs.flag hi (by decide)]
    exact hflag
  · obtain ⟨more, hmore⟩ := safetyLatchAny_waitsMore (s := u) (reason := 9) (by rw [hsafe]; exact hv) (by rw [hsafe]; exact hl) (.inr rfl)
    refine ⟨more, ?_⟩
    rw [← hmore, hwait, overrunEv_waiting _ _ hroom, List.append_assoc]
    rfl

/-- What each bit loses, behind the report. -/
theorem overrun_loses (hs : s.inv) (hb : bit < 14) (h12 : bit ≠ 12) :
    let t := overrunEv (overrunEffect bit arg s) bit (overrunUnit bit).1 clocks
    flag t Reg.pickOverrun bit = true ∧
      ((s.selvedge.waiting.filter (fun q => q.source == (overrunUnit bit).1)).length < 8 →
        t.selvedge.waiting = s.selvedge.waiting ++
          [⟨2, (overrunUnit bit).1, 0x020, clocks % 2 ^ 32, (overrunUnit bit).1, 0x020⟩]) ∧
      t.warp = (overrunEffect bit arg s).warp ∧ t.weft = (overrunEffect bit arg s).weft ∧ t.draft = (overrunEffect bit arg s).draft ∧
      t.tension = (overrunEffect bit arg s).tension ∧ t.host = (overrunEffect bit arg s).host ∧ t.pick = (overrunEffect bit arg s).pick ∧
      t.selvedge.hist = (overrunEffect bit arg s).selvedge.hist ∧ t.act = s.act ∧
      ∀ g n, g ≠ 17 → n < 0x100000 → cntVal t g n = cntVal (overrunEffect bit arg s) g n := by
  intro t
  have hk := overrunEffect_kept' (s := s) bit arg
  have hi := hk.inv hs
  have he := overrunEv_kept' (s := overrunEffect bit arg s) bit (overrunUnit bit).1 clocks
  have hw := overrunEffect_waiting (s := s) bit arg
  refine ⟨overrunEv_flag hi hb _ _, fun hroom => ?_, he.warp_eq rfl, he.weft_eq rfl, he.draft_eq rfl, he.tension_eq rfl, he.host_eq rfl,
    he.pick_eq rfl, overrunEv_hist _ _ _, (he.act_eq rfl).trans (hk.act_eq rfl), fun g n hg hn => ?_⟩
  · rw [← hw] at hroom
    refine (overrunEv_waiting _ _ hroom).trans ?_
    rw [hw, overrunUnit_class bit hb h12]
  · exact (overrunEv_cnts bit _ clocks).cntVal hi (by simpa using hg) hn

end

/-- Settles O25: sweeps by their two outcomes, the way of the record to the host by its parts, and an overrun as its report behind what the bit loses. -/
theorem sweepsAndOverruns : Obligations.SweepsAndOverruns := by
  refine ⟨⟨fun s line hs hd hx hc hk => sweepPoint_samples hs hd hx hc hk, fun s line hs hd h => ?_, fun s x hs hx hb hc => ?_,
    fun s hp hc hf => repeatStart_reports hp hc hf⟩, fun s bit clocks arg hs hp hb h10 h12 hd => ?_, fun s clocks arg hs hp hd hf => ?_,
    fun s clocks arg hs hp hd hv _ hl => ?_⟩
  · exact ⟨_, exec_sweepPoint_skips hd h, sweepSkip_counts hs⟩
  · obtain ⟨t, ht, h1, h2, h3⟩ := sweepExport_posts hs hx hb hc
    exact ⟨t, ht, h1, h2, _, _, h3⟩
  · obtain ⟨hflag, hwait, hwarp, hweft, hdraft, htension, hhost, hpick, hhist, hact, hcnt⟩ :=
      overrun_loses (arg := arg) (clocks := clocks) hs hb h12
    refine ⟨_, exec_perPickOverrun hp hb h10 h12 hd, hflag, hwait, fun h hdue => ?_, fun h hon ha hc => ?_, fun h => ?_, fun h => ?_, fun h => ?_,
      fun h ha ho hl => ?_, fun h ha => ?_, fun h => ?_, fun h => ?_, fun h e he => ?_, fun h => ?_, fun h => ?_, fun h c hcmd => ?_, hact, fun h => ?_⟩
    · subst h
      obtain ⟨h1, h2⟩ := overrun_codeword hs hdue
      rw [hwarp, hcnt 0 2 (by decide) (by decide)]
      exact ⟨h1, h2⟩
    · subst h
      rw [hwarp, hcnt 0 5 (by decide) (by decide)]
      exact overrun_pick hs hon ha hc
    · subst h
      rw [hwarp, hcnt 1 15 (by decide) (by decide)]
      exact ⟨congrArg (fun w => w.rx.mapped) (count_warp ..),
        cntVal_countBy_same (s := setWarp s { s.warp with rx := { s.warp.rx with mapped := true } }) hs 1 15 1⟩
    · subst h
      rw [hcnt 2 7 (by decide) (by decide)]
      exact cntVal_countBy_same hs 2 7 arg
    · subst h
      rw [hweft]
      exact congrArg Weft.bursts (countBy_weft ..)
    · subst h
      rw [hdraft, hcnt 13 11 (by decide) (by decide)]
      exact ⟨fun n => draftLate_outs ha ho hl n, draftLate_counts hs ha⟩
    · subst h
      rw [hdraft]
      exact congrArg State.draft (if_neg (by omega) : draftOverrun arg s = _)
    · subst h
      rw [hwarp]
      rfl
    · subst h
      rw [htension]
      rfl
    · subst h
      rw [hhist] at he
      rw [stormDue, hpick]
      exact stormLate_none (s := s) e he
    · subst h
      rw [hpick]
      rfl
    · rw [hpick, overrunEffect_pick h]
    · subst h
      rw [hhost]
      exact markLate_at hcmd
    · rw [hweft, overrunEffect_bursts h]
  · exact ⟨_, exec_deckOverrun hp hd hf, deckOverrun_drops hs⟩
  · exact ⟨_, exec_proofOverrun hp hd, proofOverrun_latches hs hv hl⟩

end Sys2Proof.Machine
end

