-- ==== Sys2Proof/Proofs/TimeUnit.lean ====
section
/-! SUPPORT. Proofs/TimeUnit.lean: the time unit's registers, its part of a commit point, TOD messages, PPS and captures (R145 to R154,
R162, R163). -/

namespace Sys2Proof.Machine

open Sys2Proof

section
variable {s t u : State} {a v : Nat} {r : RegRow}

/-! ## Rows of staged and written-only fields -/

/-- A field that a write takes into the staged copy at most, whatever the value. -/
def stagedFree (f : Fld) : Bool := (f.acc == .staged || f.acc == .wo) && f.ok.isEmpty

theorem fldWrite_stagedFree {f : Fld} (h : stagedFree f = true) (x : Nat × Nat × Bool) : (fldWrite v x f).2 = x.2 := by
  obtain ⟨hi, lo, acc, ok⟩ := f
  cases acc <;> simp_all [stagedFree, fldWrite, legal]

/-- The word in force stands, and no field is refused. -/
theorem fieldsWritten_stagedFree (h : r.fields.all stagedFree = true) : ∃ y, fieldsWritten r s a v = (y, rd s a, false) := by
  have hf : ∀ (l : List Fld) (x : Nat × Nat × Bool), (∀ f ∈ l, stagedFree f = true) → (l.foldl (fldWrite v) x).2 = x.2 := fun l => by
    induction l with
    | nil => exact fun x _ => rfl
    | cons f t ih =>
      intro x hl
      rw [List.foldl_cons, ih _ (fun g hg => hl g (List.mem_cons_of_mem _ hg)), fldWrite_stagedFree (hl f List.mem_cons_self)]
  have h2 := hf r.fields (rdS s a, rd s a, false) (fun f hm => List.all_eq_true.1 h f hm)
  exact ⟨(fieldsWritten r s a v).1, Prod.ext rfl h2⟩

/-- A register whose fields are all such, and which has no rule beyond its effect. -/
def stagedReg (a : Nat) : Bool :=
  plainReg a && !inSafety a && match findRow a with
    | some r => r.fields.all stagedFree
    | none => false

/-- A full write to such a register: its staged copy and its effects. -/
theorem hostStore_staged (h : s.hostReaches a = true) (hc : stagedReg a = true) :
    ∃ y, hostStore a 15 v s = writeEffects a v (rdS s a) (stored s a (y, rd s a, false)) := by
  rw [stagedReg, Bool.and_eq_true, Bool.and_eq_true, Bool.not_eq_true'] at hc
  obtain ⟨⟨hp, hs⟩, hf⟩ := hc
  cases hr : findRow a with
  | none => rw [hr] at hf; cases hf
  | some r =>
    rw [hr] at hf
    obtain ⟨y, hy⟩ := fieldsWritten_stagedFree (s := s) (a := a) (v := v) hf
    exact ⟨y, by rw [hostStore_reached h hr, regStore_plain hp (.inl hs), hy, if_neg (by simp)]⟩

theorem rd_stored_unchanged (hs : s.inv) (y : Nat) (b : Bool) : rd (stored s a (y, rd s a, b)) a = rd s a := by
  rw [rd_stored_same hs]
  exact Nat.mod_eq_of_lt (BitVec.isLt _)

/-! ## TIME_CTRL, TIME_STEP_HI and TIME_INC_HI (R147, R148, R152) -/

theorem testBit_insBits_one (v n : Nat) : (insBits v n n 1).testBit n = true := by
  rw [insBits_testBit (Nat.le_refl n), if_pos ⟨Nat.le_refl n, Nat.le_refl n⟩, Nat.sub_self]
  rfl

theorem exec_timeLoad {v : Word} (h : s.hostReaches Reg.timeCtrl = true) :
    ∃ y, exec (.timeLoad 15 v) s = .next (setTime (stored s Reg.timeCtrl (y, rd s Reg.timeCtrl, false)) { s.time with loadPend := true }) := by
  obtain ⟨y, hy⟩ := hostStore_staged (v := insBits v.toNat 0 0 1) h (by decide)
  rw [writeEffects_line (by decide) (by decide)] at hy
  refine ⟨y, congrArg Host.Outcome.next (hy.trans ?_)⟩
  exact if_pos (testBit_insBits_one v.toNat 0)

theorem exec_hostStep {v : Word} (hs : s.inv) (h : s.hostReaches Reg.timeStepHi = true) :
    ∃ y, exec (.hostStep 15 v) s = .next (setTime (stored s Reg.timeStepHi (y, rd s Reg.timeStepHi, false))
      { s.time with hostStep := some (signed 64 (v.toNat * 2 ^ 32 + rdS s Reg.timeStepLo)) }) := by
  obtain ⟨y, hy⟩ := hostStore_staged (v := v.toNat) h (by decide)
  rw [writeEffects_line (by decide) (by decide)] at hy
  have hlo : rdS (stored s Reg.timeStepHi (y, rd s Reg.timeStepHi, false)) Reg.timeStepLo = rdS s Reg.timeStepLo := rdS_stored_other hs (by decide) _
  refine ⟨y, congrArg Host.Outcome.next (hy.trans ?_)⟩
  rw [← hlo]
  rfl

/-- The row of TIME_INC_HI. -/
def incHiRow : RegRow := ⟨Reg.timeIncHi, 0, 1, 0x100, .fixed 22, [⟨15, 0, .staged, []⟩]⟩

theorem findRow_incHi : findRow Reg.timeIncHi = some incHiRow := by decide

/-- Putting a field of a short word replaces the word. -/
theorem insBits_low {x w : Nat} (hx : x < 2 ^ 16) (hw : w < 2 ^ 16) : insBits x 15 0 w % 2 ^ 32 = w := by
  apply Nat.eq_of_testBit_eq
  intro n
  rw [Nat.testBit_mod_two_pow, insBits_testBit (by decide)]
  by_cases hn : n < 16
  · rw [if_pos (by omega), decide_eq_true (by omega : n < 32)]
    rfl
  · rw [if_neg (by omega), Nat.testBit_lt_two_pow (Nat.lt_of_lt_of_le hx (Nat.pow_le_pow_right (by decide) (by omega))),
      Nat.testBit_lt_two_pow (Nat.lt_of_lt_of_le hw (Nat.pow_le_pow_right (by decide) (by omega))), Bool.and_false]

theorem bits_insBits_whole {x hi lo w : Nat} (h : lo ≤ hi) : bits (insBits x hi lo w) hi lo = w % 2 ^ (hi + 1 - lo) := by
  apply Nat.eq_of_testBit_eq
  intro n
  rw [bits_testBit, Nat.testBit_mod_two_pow, insBits_testBit h]
  by_cases hn : n < hi + 1 - lo
  · rw [if_pos (by omega), Nat.add_sub_cancel_left]
  · rw [decide_eq_false hn, Bool.false_and, Bool.false_and]

/-- Putting a field's own bits back changes nothing. -/
theorem insBits_bits_self {x hi lo : Nat} (h : lo ≤ hi) : insBits x hi lo (bits x hi lo) = x := by
  apply Nat.eq_of_testBit_eq
  intro n
  rw [insBits_testBit h]
  split
  · rw [bits_testBit, Nat.add_sub_cancel' (by omega), decide_eq_true (by omega), Bool.true_and]
  · rfl

/-- A write of which a rule beyond the table keeps a field. -/
theorem regStore_crossed {w : Nat} {bad : Bool} (hk : a ∉ satRegs) (hw : refusedWhole s a v = false) (hs : inSafety a = false)
    (hc : crossCheck s a v = (w, bad)) : regStore r a v s =
      if (r.fields.foldl (fldWrite w) (rdS s a, rd s a, bad)).2.2 then
        progErr (writeEffects a v (rdS s a) (stored s a (r.fields.foldl (fldWrite w) (rdS s a, rd s a, bad))))
          (regSource (writeEffects a v (rdS s a) (stored s a (r.fields.foldl (fldWrite w) (rdS s a, rd s a, bad)))) a)
      else writeEffects a v (rdS s a) (stored s a (r.fields.foldl (fldWrite w) (rdS s a, rd s a, bad))) := by
  rw [regStore, if_neg (inSafety_stands (.inl hs)), hw, if_neg (by decide), hc]
  dsimp only
  rw [satKeys_other hk]
  rfl

theorem lineEffect_incHi (v old : Nat) (u : State) : lineEffect Reg.timeIncHi v old u =
    if incOk (bits v 15 0 * 2 ^ 32 + rdS u Reg.timeIncLo) then setTime u { u.time with incArmed := true } else u := by
  rw [lineEffect, if_neg (by decide), if_neg (by decide), if_neg (by decide), if_neg (by decide), if_neg (by decide), if_neg (by decide), if_pos rfl]

theorem incHi_fields (w x y : Nat) (bad : Bool) : incHiRow.fields.foldl (fldWrite w) (x, y, bad) = (insBits x 15 0 (bits w 15 0), y, bad) := by
  change fldWrite w (x, y, bad) ⟨15, 0, .staged, []⟩ = _
  simp [fldWrite, legal]

theorem crossCheck_incHi (v : Nat) : crossCheck s Reg.timeIncHi v =
    if incOk (bits v 15 0 * 2 ^ 32 + rdS s Reg.timeIncLo) then (v, false) else keepFld (rdS s Reg.timeIncHi) 15 0 (v, false) := by
  unfold crossCheck
  dsimp only
  rw [if_neg (by decide), if_neg (by decide), if_neg (by decide), if_neg (by decide), if_neg (by decide), if_neg (by decide), if_pos rfl]

theorem hostStore_incHi {w : Nat} {bad : Bool} (h : s.hostReaches Reg.timeIncHi = true) (hc : crossCheck s Reg.timeIncHi v = (w, bad)) :
    hostStore Reg.timeIncHi 15 v s =
      let u := lineEffect Reg.timeIncHi v (rdS s Reg.timeIncHi)
        (stored s Reg.timeIncHi (insBits (rdS s Reg.timeIncHi) 15 0 (bits w 15 0), rd s Reg.timeIncHi, bad))
      if bad then progErr u (regSource u Reg.timeIncHi) else u := by
  rw [hostStore_reached h findRow_incHi, regStore_crossed (by decide) (refusedWhole_other (by decide)) (by decide) hc, incHi_fields,
    writeEffects_line (by decide) (by decide)]

theorem timeIncArm_arms {v : Word} (hs : s.inv) (h : s.hostReaches Reg.timeIncHi = true) (hx : rdS s Reg.timeIncHi < 2 ^ 16)
    (hok : incOk (bits v.toNat 15 0 * 2 ^ 32 + rdS s Reg.timeIncLo) = true) :
    ∃ t, exec (.timeIncArm 15 v) s = .next t ∧ t.time = { s.time with incArmed := true } ∧ timeInc t = timeInc s ∧
      timeIncStaged t = bits v.toNat 15 0 * 2 ^ 32 + rdS s Reg.timeIncLo ∧ t.selvedge = s.selvedge := by
  have hlo : ∀ x, rdS (stored s Reg.timeIncHi x) Reg.timeIncLo = rdS s Reg.timeIncLo := fun x => rdS_stored_other hs (by decide) x
  have hstore := hostStore_incHi h ((crossCheck_incHi v.toNat).trans (if_pos hok))
  rw [lineEffect_incHi, hlo, if_pos hok] at hstore
  have hset : ∀ (x y) (b : Nat), rd (setTime (stored s Reg.timeIncHi x) y) b = rd (stored s Reg.timeIncHi x) b := fun _ _ _ => rfl
  have hsetS : ∀ (x y) (b : Nat), rdS (setTime (stored s Reg.timeIncHi x) y) b = rdS (stored s Reg.timeIncHi x) b := fun _ _ _ => rfl
  refine ⟨_, congrArg Host.Outcome.next hstore, rfl, ?_, ?_, rfl⟩
  · rw [if_neg Bool.false_ne_true, timeInc, hset, hset, rd_stored_unchanged hs, rd_stored_other hs (by decide), timeInc]
  · rw [if_neg Bool.false_ne_true, timeIncStaged, hsetS, hsetS, hlo, rdS_stored_same hs, insBits_low hx (bits_lt _ _ _)]

theorem timeIncArm_refuses {v : Word} (hs : s.inv) (h : s.hostReaches Reg.timeIncHi = true)
    (hok : incOk (bits v.toNat 15 0 * 2 ^ 32 + rdS s Reg.timeIncLo) = false) :
    ∃ t, exec (.timeIncArm 15 v) s = .next t ∧ s.regSame t Reg.timeIncHi ∧ s.raises t 0x09 0x001 ∧ t.time = s.time := by
  have hlo : ∀ x, rdS (stored s Reg.timeIncHi x) Reg.timeIncLo = rdS s Reg.timeIncLo := fun x => rdS_stored_other hs (by decide) x
  have hno : ¬ incOk (bits v.toNat 15 0 * 2 ^ 32 + rdS s Reg.timeIncLo) = true := by rw [hok]; decide
  have hkeep : bits (insBits v.toNat 15 0 (bits (rdS s Reg.timeIncHi) 15 0)) 15 0 = bits (rdS s Reg.timeIncHi) 15 0 := by
    rw [bits_insBits_whole (by decide)]
    exact Nat.mod_eq_of_lt (bits_lt _ _ _)
  have hword : insBits (rdS s Reg.timeIncHi) 15 0 (bits (rdS s Reg.timeIncHi) 15 0) = rdS s Reg.timeIncHi := insBits_bits_self (by decide)
  have hstore := hostStore_incHi h ((crossCheck_incHi v.toNat).trans (if_neg hno))
  rw [lineEffect_incHi, hlo, if_neg hno, hkeep, hword, if_pos rfl] at hstore
  have hsrc : regSource (stored s Reg.timeIncHi (rdS s Reg.timeIncHi, rd s Reg.timeIncHi, true)) Reg.timeIncHi = 0x09 := by
    rw [regSource, regDomain, findRow_incHi]
    rfl
  rw [hsrc] at hstore
  obtain ⟨h1, h2⟩ := raiseFree_regSame 0x09 0x001 (b := Reg.timeIncHi) (by decide)
    (stored_inv hs (a := Reg.timeIncHi) (rdS s Reg.timeIncHi, rd s Reg.timeIncHi, true))
  refine ⟨_, congrArg Host.Outcome.next hstore, ⟨h1.trans (rd_stored_self hs _), h2.trans (rdS_stored_self hs _)⟩,
    raises_of_selvedge (u := stored s Reg.timeIncHi (rdS s Reg.timeIncHi, rd s Reg.timeIncHi, true)) rfl (raises_raiseFree _ _ _), ?_⟩
  exact (progErr_kept (.refl _ _) (.refl _)).time_eq rfl

theorem flag_clrBit_apart (hs : s.inv) {a n k : Nat} (hk : k < 32) (hn : k ≠ n) : flag (clrBit s a n) a k = flag s a k := by
  rw [flag, flag, clrBit, rd_setFld_same hs, Nat.testBit_mod_two_pow, insBits_testBit (Nat.le_refl n), if_neg (by omega),
    decide_eq_true hk, Bool.true_and]

theorem flag_setBit_apart (hs : s.inv) {a n k : Nat} (hk : k < 32) (hn : k ≠ n) : flag (setBit s a n) a k = flag s a k := by
  rw [flag, flag, setBit, rd_setFld_same hs, Nat.testBit_mod_two_pow, insBits_testBit (Nat.le_refl n), if_neg (by omega),
    decide_eq_true hk, Bool.true_and]

theorem regsIn_force {as : List Nat} (ha : a ∈ as) (v : Nat) : RegsIn as s (force s a v) := fun hs =>
  ⟨(force_kept (.refl 8 s) (.refl 8)).inv hs, fun _ hb => ⟨rd_force_other hs (fun h : a = _ => hb (by rwa [← h])) v, rfl⟩⟩

/-! ## Step 2 of a commit point (R147, R148, R152, R153) -/

/-- The registers that the time unit's part of a commit point may change beside INC. -/
def stepTwoRegs : List Nat := [Reg.timeOfsLo, Reg.timeOfsHi, Reg.timeOfsPick, Reg.timeStat, Reg.hostStat]

/-- The TODs of the pick that ends take effect. -/
def todsTaken (s : State) : State :=
  let s := setTime s { s.time with sinceTod := s.time.sinceTod + 1 }
  s.time.todPend.foldl todIn (setTime s { s.time with todPend := [] })

/-- Without a load, the steps. -/
def stepsTaken (s : State) : State :=
  let a := s.time.autoStep
  let h := s.time.hostStep
  let s := setTime s { s.time with autoStep := none, hostStep := none }
  let s := match a with
    | some d => timeStep s d
    | none => s
  match h with
    | some d => timeStep s d
    | none => s

/-- The counter starts on the PLL clock, and the commit point is marked. -/
def timeMarked (s : State) : State :=
  let s := if s.power.clkPll && !s.time.run then setBit (setTime s { s.time with run := true }) Reg.timeStat 0 else s
  let m : TimeMark := ⟨s.now, s.time.tod, s.time.raw, if s.time.run && s.power.clkPll then timeInc s else 0⟩
  setTime s { s.time with marks := (m :: s.time.marks).take 8 }

theorem timeCommit_eq (h : domOn s 22 = true) : timeCommit s =
    timeMarked (if (todsTaken (incIn s)).time.loadPend then timeLoad (todsTaken (incIn s)) else stepsTaken (todsTaken (incIn s))) := by
  rw [timeCommit, h]
  rfl

theorem timeNotify_time (sub p : Nat) : (timeNotify s sub p).time = s.time := (timeNotify_kept (.refl _ s) (.refl _)).time_eq rfl

theorem setTime_regs {as : List Nat} (x : TimeU) : RegsIn as s (setTime s x) := fun hs => ⟨hs, fun _ _ => ⟨rfl, rfl⟩⟩

theorem timeNotify_regs (sub p : Nat) : RegsIn stepTwoRegs s (timeNotify s sub p) := regsIn_notifyReg (by decide) _ _ _ _

theorem timeStep_regs (d : Int) : RegsIn stepTwoRegs s (timeStep s d) :=
  (((setTime_regs _).trans (regsIn_setBit (by decide) 3)).trans (regsIn_count 3 4)).trans (timeNotify_regs _ _)

theorem timeStep_time (d : Int) : (timeStep s d).time = { s.time with tod := todAdd s.time.tod (d * 2 ^ 24) } :=
  (timeNotify_time _ _).trans (count_time _ _ _)

theorem timeLoad_regs : RegsIn stepTwoRegs s (timeLoad s) :=
  (((setTime_regs _).trans (regsIn_setBit (by decide) 4)).trans (regsIn_setFld (by decide) 1 1 0)).trans (timeNotify_regs _ _)

theorem timeLoad_time : (timeLoad s).time = { s.time with
    tod := ((fld s Reg.timeSetSecHi 15 0 * 2 ^ 32 + rd s Reg.timeSetSecLo) * 10 ^ 9 + rd s Reg.timeSetNs) * nsUnit % todModulus
    loadPend := false
    hostStep := none
    autoStep := none
    fresh := true } := (timeNotify_time _ _).trans rfl

theorem stepsTaken_regs : RegsIn stepTwoRegs s (stepsTaken s) := by
  rw [stepsTaken]
  dsimp only
  have h0 : RegsIn stepTwoRegs s (setTime s { s.time with autoStep := none, hostStep := none }) := setTime_regs _
  cases s.time.autoStep <;> cases s.time.hostStep
  · exact h0
  · exact h0.trans (timeStep_regs _)
  · exact h0.trans (timeStep_regs _)
  · exact (h0.trans (timeStep_regs _)).trans (timeStep_regs _)

theorem timeMarked_regs : RegsIn stepTwoRegs s (timeMarked s) := by
  have h0 : RegsIn stepTwoRegs s (if s.power.clkPll && !s.time.run then setBit (setTime s { s.time with run := true }) Reg.timeStat 0 else s) := by
    split
    · exact (setTime_regs _).trans (regsIn_setBit (by decide) 0)
    · exact .refl _ s
  exact h0.trans (setTime_regs _)

/-- The start and the mark change no value that a load or a step sets. -/
theorem timeMarked_time : ∃ r ms, (timeMarked s).time = { s.time with run := r, marks := ms } := by
  rw [timeMarked]
  dsimp only
  split
  · exact ⟨_, _, rfl⟩
  · exact ⟨_, _, rfl⟩

/-! ## A TOD takes effect (R151, R152, R154) -/

/-- The three OFS registers with the TOD's values. -/
def ofsShown (s : State) (u pick : Nat) : State :=
  setReg (setReg (setReg s Reg.timeOfsLo (u % 2 ^ 32)) Reg.timeOfsHi (u / 2 ^ 32)) Reg.timeOfsPick (pick % 2 ^ 32)

/-- SYNCED is set and HOLDOVER cleared. -/
def inSync (s : State) : State :=
  let s := setBit s Reg.timeStat 1
  if flag s Reg.timeStat 2 then timeNotify (clrBit s Reg.timeStat 2) 0x13 0 else s

/-- What a TOD of offset `o` leaves of the time unit: the picks counted anew, and a step where one is asked for (R152). -/
def todStepped (o : Int) (s : State) : State :=
  let step := flag s Reg.timeCtrl 1 && (s.time.fresh || decide (rd s Reg.timeStepThresh * 65536 ≤ o.natAbs))
  setTime s { s.time with sinceTod := 0, fresh := false, autoStep := if step then some o else s.time.autoStep }

theorem todIn_eq (o : Int) (pick : Nat) : todIn s (o, pick) = todStepped o (inSync (ofsShown s (unsigned 64 o) pick)) := rfl

theorem todStepped_regs {as : List Nat} (o : Int) : RegsIn as s (todStepped o s) := setTime_regs _

theorem todStepped_time {o : Int} (ht : u.time = s.time) (hf : flag u Reg.timeCtrl 1 = flag s Reg.timeCtrl 1)
    (hr : rd u Reg.timeStepThresh = rd s Reg.timeStepThresh) : (todStepped o u).time = { s.time with
    sinceTod := 0
    fresh := false
    autoStep := if flag s Reg.timeCtrl 1 = true ∧ (s.time.fresh = true ∨ rd s Reg.timeStepThresh * 65536 ≤ o.natAbs) then
      some o else s.time.autoStep } := by
  rw [todStepped]
  dsimp only [setTime]
  rw [ht, hf, hr]
  simp only [Bool.and_eq_true, Bool.or_eq_true, decide_eq_true_eq]

theorem ofsShown_regs (u pick : Nat) : RegsIn stepTwoRegs s (ofsShown s u pick) :=
  ((regsIn_setReg (by decide) _).trans (regsIn_setReg (by decide) _)).trans (regsIn_setReg (by decide) _)

theorem ofsShown_time (u pick : Nat) : (ofsShown s u pick).time = s.time := by
  rw [ofsShown, setReg_time, setReg_time, setReg_time]

theorem inSync_regs {as : List Nat} (h1 : Reg.timeStat ∈ as) (h2 : Reg.hostStat ∈ as) : RegsIn as s (inSync s) := by
  rw [inSync]
  split
  · exact ((regsIn_setBit h1 1).trans (regsIn_setFld h1 2 2 0)).trans (regsIn_notifyReg h2 _ _ _ _)
  · exact regsIn_setBit h1 1

theorem inSync_time : (inSync s).time = s.time := by
  rw [inSync]
  split
  · exact timeNotify_time _ _
  · rfl

theorem inSync_flags (hs : s.inv) : flag (inSync s) Reg.timeStat 1 = true ∧ flag (inSync s) Reg.timeStat 2 = false := by
  have h1 : (setBit s Reg.timeStat 1).inv := setFld_inv hs _ _ _ _
  rw [inSync]
  split
  next h =>
    have hn : RegsIn [Reg.hostStat] (clrBit (setBit s Reg.timeStat 1) Reg.timeStat 2) (timeNotify (clrBit (setBit s Reg.timeStat 1) Reg.timeStat 2) 0x13 0) :=
      regsIn_notifyReg (by decide) _ _ _ _
    have hc : (clrBit (setBit s Reg.timeStat 1) Reg.timeStat 2).inv := setFld_inv h1 _ _ _ _
    rw [hn.flag hc (by decide), hn.flag hc (by decide), flag_clrBit h1]
    exact ⟨(flag_clrBit_apart h1 (by decide) (by decide)).trans (flag_setBit hs (by decide)), rfl⟩
  next h => exact ⟨flag_setBit hs (by decide), Bool.eq_false_of_not_eq_true h⟩

theorem unsigned_lt (w : Nat) (x : Int) : unsigned w x < 2 ^ w := by
  have h : (0 : Int) < ((2 ^ w : Nat) : Int) := by exact_mod_cast Nat.two_pow_pos w
  have h1 := Int.emod_lt_of_pos x h
  have h2 := Int.emod_nonneg x (ne_of_gt h)
  rw [unsigned]
  omega

theorem ofsShown_reads (hs : s.inv) {u : Nat} (hu : u < 2 ^ 64) (pick : Nat) :
    rd (ofsShown s u pick) Reg.timeOfsLo = u % 2 ^ 32 ∧ rd (ofsShown s u pick) Reg.timeOfsHi = u / 2 ^ 32 ∧
      rd (ofsShown s u pick) Reg.timeOfsPick = pick % 2 ^ 32 := by
  have h1 := setReg_inv hs Reg.timeOfsLo (u % 2 ^ 32)
  have h2 := setReg_inv h1 Reg.timeOfsHi (u / 2 ^ 32)
  refine ⟨?_, ?_, ?_⟩
  · rw [ofsShown, rd_setReg_other h2 (by decide), rd_setReg_other h1 (by decide), rd_setReg_same hs, Nat.mod_mod]
  · rw [ofsShown, rd_setReg_other h2 (by decide), rd_setReg_same h1]
    exact Nat.mod_eq_of_lt (Nat.div_lt_of_lt_mul (by omega))
  · rw [ofsShown, rd_setReg_same h2, Nat.mod_mod]

theorem todIn_inSync (o : Int) (pick : Nat) {as : List Nat} : RegsIn as (inSync (ofsShown s (unsigned 64 o) pick)) (todIn s (o, pick)) := by
  rw [todIn_eq]
  exact todStepped_regs o

theorem todIn_regs (e : Int × Nat) : RegsIn stepTwoRegs s (todIn s e) :=
  ((ofsShown_regs _ _).trans (inSync_regs (by decide) (by decide))).trans (todIn_inSync e.1 e.2)

theorem todIn_shows (hs : s.inv) (o : Int) (pick : Nat) :
    rd (todIn s (o, pick)) Reg.timeOfsLo = unsigned 64 o % 2 ^ 32 ∧ rd (todIn s (o, pick)) Reg.timeOfsHi = unsigned 64 o / 2 ^ 32 ∧
    rd (todIn s (o, pick)) Reg.timeOfsPick = pick % 2 ^ 32 ∧ flag (todIn s (o, pick)) Reg.timeStat 1 = true ∧
    flag (todIn s (o, pick)) Reg.timeStat 2 = false := by
  have hi := (ofsShown_regs (s := s) (unsigned 64 o) pick).inv hs
  have hy : RegsIn [Reg.timeStat, Reg.hostStat] (ofsShown s (unsigned 64 o) pick) (inSync (ofsShown s (unsigned 64 o) pick)) :=
    inSync_regs (by decide) (by decide)
  have hr := hy.trans (todIn_inSync o pick)
  have hflag : ∀ n, flag (todIn s (o, pick)) Reg.timeStat n = flag (inSync (ofsShown s (unsigned 64 o) pick)) Reg.timeStat n :=
    fun n => (todIn_inSync (as := []) o pick).flag (hy.inv hi) (by decide) n
  obtain ⟨h1, h2, h3⟩ := ofsShown_reads hs (unsigned_lt 64 o) pick
  obtain ⟨h4, h5⟩ := inSync_flags hi
  exact ⟨(hr.rd hi (by decide)).trans h1, (hr.rd hi (by decide)).trans h2, (hr.rd hi (by decide)).trans h3, (hflag 1).trans h4,
    (hflag 2).trans h5⟩

theorem todIn_time (hs : s.inv) (o : Int) (pick : Nat) : (todIn s (o, pick)).time = { s.time with
    sinceTod := 0
    fresh := false
    autoStep := if flag s Reg.timeCtrl 1 = true ∧ (s.time.fresh = true ∨ rd s Reg.timeStepThresh * 65536 ≤ o.natAbs) then
      some o else s.time.autoStep } := by
  have hr : RegsIn stepTwoRegs s (inSync (ofsShown s (unsigned 64 o) pick)) := (ofsShown_regs _ _).trans (inSync_regs (by decide) (by decide))
  rw [todIn_eq]
  exact todStepped_time (inSync_time.trans (ofsShown_time _ _)) (hr.flag hs (by decide) 1) (hr.rd hs (by decide))

/-- A TOD that takes effect leaves load and host step as they are. -/
theorem todIn_asked (e : Int × Nat) : (todIn s e).time.loadPend = s.time.loadPend ∧ (todIn s e).time.hostStep = s.time.hostStep := by
  have ht : (inSync (ofsShown s (unsigned 64 e.1) e.2)).time = s.time := inSync_time.trans (ofsShown_time _ _)
  have he : ∀ u, (todStepped e.1 u).time.loadPend = u.time.loadPend ∧ (todStepped e.1 u).time.hostStep = u.time.hostStep :=
    fun _ => ⟨rfl, rfl⟩
  have hu := he (inSync (ofsShown s (unsigned 64 e.1) e.2))
  rw [ht] at hu
  exact hu

theorem todsTaken_regs : RegsIn stepTwoRegs s (todsTaken s) :=
  ((setTime_regs _).trans (setTime_regs _)).trans (RegsIn.foldl (fun _ _ => todIn_regs _) _)

theorem todsTaken_loadPend : (todsTaken s).time.loadPend = s.time.loadPend := by
  have h : ∀ (l : List (Int × Nat)) (u : State), (l.foldl todIn u).time.loadPend = u.time.loadPend := fun l => by
    induction l with
    | nil => exact fun _ => rfl
    | cons e l ih => exact fun u => (ih _).trans (todIn_asked e).1
  exact h _ _

/-! ## INC comes into force (R147) -/

theorem incIn_unarmed (h : s.time.incArmed = false) : incIn s = s := by
  rw [incIn, h]
  rfl

theorem incIn_takes (h : s.time.incArmed = true) (hok : incOk (timeIncStaged s) = true) : incIn s =
    force (force (setTime s { s.time with incArmed := false }) Reg.timeIncLo (rdS s Reg.timeIncLo)) Reg.timeIncHi (rdS s Reg.timeIncHi) := by
  have hok' : incOk (timeIncStaged (setTime s { s.time with incArmed := false })) = true := hok
  rw [incIn, h, if_neg (by decide)]
  dsimp only
  rw [if_pos hok']
  rfl

theorem incIn_refuses (h : s.time.incArmed = true) (hok : incOk (timeIncStaged s) = false) : incIn s =
    progErr (setTime s { s.time with incArmed := false }) 0x09 := by
  have hok' : ¬ incOk (timeIncStaged (setTime s { s.time with incArmed := false })) = true := by
    rw [show timeIncStaged (setTime s { s.time with incArmed := false }) = timeIncStaged s from rfl, hok]
    decide
  rw [incIn, h, if_neg (by decide)]
  dsimp only
  rw [if_neg hok']

theorem incIn_time : ∃ b, (incIn s).time = { s.time with incArmed := b } := by
  cases h : s.time.incArmed with
  | false => exact ⟨_, by rw [incIn_unarmed h]⟩
  | true =>
    cases hok : incOk (timeIncStaged s) with
    | true => exact ⟨false, by rw [incIn_takes h hok]; rfl⟩
    | false => exact ⟨false, by rw [incIn_refuses h hok]; exact (progErr_kept (.refl _ _) (.refl _)).time_eq rfl⟩

theorem incIn_regs : RegsIn [Reg.timeIncLo, Reg.timeIncHi, Reg.selvedgeStat] s (incIn s) := by
  cases h : s.time.incArmed with
  | false => rw [incIn_unarmed h]; exact .refl _ s
  | true =>
    cases hok : incOk (timeIncStaged s) with
    | true =>
      rw [incIn_takes h hok]
      exact (setTime_regs _).trans ((regsIn_force (by decide) _).trans (regsIn_force (by decide) _))
    | false =>
      rw [incIn_refuses h hok]
      exact (setTime_regs _).trans (regsIn_raiseFree (by decide) _ _)

theorem timeInc_of_regs {as : List Nat} (h : RegsIn as s t) (hs : s.inv) (h1 : Reg.timeIncLo ∉ as) (h2 : Reg.timeIncHi ∉ as) :
    timeInc t = timeInc s := by
  rw [timeInc, timeInc, h.rd hs h1, h.rd hs h2]

theorem timeCommit_regs (h : domOn s 22 = true) : RegsIn stepTwoRegs (incIn s) (timeCommit s) := by
  rw [timeCommit_eq h]
  refine todsTaken_regs.trans (RegsIn.trans ?_ timeMarked_regs)
  split
  · exact timeLoad_regs
  · exact stepsTaken_regs

theorem timeInc_timeCommit (hs : s.inv) (h : domOn s 22 = true) : timeInc (timeCommit s) = timeInc (incIn s) :=
  timeInc_of_regs (timeCommit_regs h) (incIn_regs.inv hs) (by decide) (by decide)

theorem timeInc_takes (hs : s.inv) (h : s.time.incArmed = true) (hok : incOk (timeIncStaged s) = true) : timeInc (incIn s) = timeIncStaged s := by
  have h1 : (force (setTime s { s.time with incArmed := false }) Reg.timeIncLo (rdS s Reg.timeIncLo)).inv :=
    (force_kept (s := setTime s { s.time with incArmed := false }) (.refl 8 _) (.refl 8)).inv hs
  have h0 : (setTime s { s.time with incArmed := false }).inv := hs
  rw [incIn_takes h hok, timeInc, timeIncStaged, rd_force_same h1, rd_force_other h1 (by decide), rd_force_same h0,
    Nat.mod_eq_of_lt (show rdS s Reg.timeIncHi < 2 ^ 32 from BitVec.isLt _),
    Nat.mod_eq_of_lt (show rdS s Reg.timeIncLo < 2 ^ 32 from BitVec.isLt _)]

theorem timeInc_refused (hs : s.inv) (h : s.time.incArmed = true) (hok : incOk (timeIncStaged s) = false) :
    timeInc (incIn s) = timeInc s ∧ s.raises (incIn s) 0x09 0x001 := by
  have hr : RegsIn [Reg.selvedgeStat] s (progErr (setTime s { s.time with incArmed := false }) 0x09) :=
    (setTime_regs _).trans (regsIn_raiseFree (by decide) _ _)
  rw [incIn_refuses h hok]
  exact ⟨timeInc_of_regs hr hs (by decide) (by decide),
    raises_of_selvedge (u := setTime s { s.time with incArmed := false }) rfl (raises_raiseFree _ _ _)⟩

theorem timeCommit_loads (hs : s.inv) (h : domOn s 22 = true) (hl : s.time.loadPend = true) :
    (timeCommit s).time.tod = ((fld s Reg.timeSetSecHi 15 0 * 2 ^ 32 + rd s Reg.timeSetSecLo) * 10 ^ 9 + rd s Reg.timeSetNs) * nsUnit % todModulus ∧
    (timeCommit s).time.hostStep = none ∧ (timeCommit s).time.autoStep = none ∧ (timeCommit s).time.loadPend = false := by
  obtain ⟨b, hb⟩ := incIn_time (s := s)
  have hload : (todsTaken (incIn s)).time.loadPend = true := by rw [todsTaken_loadPend, hb, ← hl]
  have hi := incIn_regs.inv hs
  have h1 : ∀ a, a ∉ [Reg.timeIncLo, Reg.timeIncHi, Reg.selvedgeStat] → a ∉ stepTwoRegs → rd (todsTaken (incIn s)) a = rd s a :=
    fun a ha ha' => (todsTaken_regs.rd hi ha').trans (incIn_regs.rd hs ha)
  obtain ⟨r, ms, hm⟩ := timeMarked_time (s := timeLoad (todsTaken (incIn s)))
  rw [timeCommit_eq h, if_pos hload, hm, timeLoad_time, fld, h1 _ (by decide) (by decide), h1 _ (by decide) (by decide),
    h1 _ (by decide) (by decide)]
  exact ⟨rfl, rfl, rfl, rfl⟩

theorem timeCommit_steps {d : Int} (h : domOn s 22 = true) (hp : s.time.todPend = []) (hl : s.time.loadPend = false)
    (hh : s.time.hostStep = some d) (ha : s.time.autoStep = none) :
    (timeCommit s).time.tod = todAdd s.time.tod (d * 2 ^ 24) ∧ (timeCommit s).time.hostStep = none := by
  obtain ⟨b, hb⟩ := incIn_time (s := s)
  have ht : (todsTaken (incIn s)).time = { s.time with incArmed := b, sinceTod := s.time.sinceTod + 1, todPend := [] } := by
    rw [todsTaken, hb]
    dsimp only [setTime]
    rw [hp]
    rfl
  have hload : ¬ (todsTaken (incIn s)).time.loadPend = true := by rw [ht]; simp [hl]
  obtain ⟨r, ms, hm⟩ := timeMarked_time (s := stepsTaken (todsTaken (incIn s)))
  rw [timeCommit_eq h, if_neg hload, hm, stepsTaken]
  dsimp only
  rw [show (todsTaken (incIn s)).time.autoStep = none by rw [ht]; exact ha, show (todsTaken (incIn s)).time.hostStep = some d by rw [ht]; exact hh]
  dsimp only
  rw [timeStep_time]
  dsimp only [setTime]
  rw [ht]
  exact ⟨rfl, rfl⟩

/-! ## TOD messages and holdover (R150, R151, R154) -/

theorem exec_tod {m : List Byte} {pos : Nat} (hm : msgHere s m pos = true) (hc : msgChecks s m pos = none) (ht : msgType m = 0x0A) :
    exec (.tod m pos) s = .next (count (timeTod s (beAt m 4 6) (beAt m 10 6) (beAt m 16 4) (beAt m 20 4)) 2 0) :=
  congrArg Host.Outcome.next (treadle_passes (body := msgTod) hm hc ht rfl)

theorem rd_count {g n a : Nat} : rd (count s g n) a = rd s a := by rw [rd, rd, count_cur]

theorem fld_count {g n a hi lo : Nat} : fld (count s g n) a hi lo = fld s a hi lo := by rw [fld, rd_count, ← fld]

/-- A TOD without its record. -/
theorem timeTod_missing {p sec ns frac : Nat} (hon : timeOn s = true) (hr : s.time.recs.find? (fun r => r.pick == p) = none) :
    timeTod s p sec ns frac = count (count s 3 0) 3 2 := by
  rw [timeTod, hon, if_neg (by decide)]
  dsimp only
  rw [count_time, hr]

/-- A TOD whose record may not be used. -/
theorem timeTod_unusable {p sec ns frac : Nat} {r : TodRec} (hon : timeOn s = true) (hr : s.time.recs.find? (fun r => r.pick == p) = some r)
    (hbad : r.usable = false ∨ fld s Reg.timeEqdZero 23 0 = 0 ∨ fld s Reg.timeEqdZero 23 0 < r.eqd) :
    timeTod s p sec ns frac = count (count s 3 0) 3 3 := by
  have hif : (!r.usable || fld (count s 3 0) Reg.timeEqdZero 23 0 == 0 || decide (fld (count s 3 0) Reg.timeEqdZero 23 0 < r.eqd)) = true := by
    rw [fld_count]
    obtain h | h | h := hbad
    · rw [h]; rfl
    · rw [h]; simp
    · rw [decide_eq_true h, Bool.or_true]
  rw [timeTod, hon, if_neg (by decide)]
  dsimp only
  rw [count_time, hr]
  dsimp only
  rw [if_pos hif]

/-- A TOD with its record: the offset, whose last bit is free where the division is inexact, waits for the commit point. -/
theorem timeTod_uses {p sec ns frac : Nat} {r : TodRec} (hon : timeOn s = true) (hr : s.time.recs.find? (fun r => r.pick == p) = some r)
    (hu : r.usable = true) (h0 : fld s Reg.timeEqdZero 23 0 ≠ 0) (hz : r.eqd ≤ fld s Reg.timeEqdZero 23 0) :
    ∃ o, (o = (ofsOf s r.eqd r.tcap sec ns frac).1 ∨
        (o = (ofsOf s r.eqd r.tcap sec ns frac).1 + 1 ∧ (ofsOf s r.eqd r.tcap sec ns frac).2 = false)) ∧
      timeTod s p sec ns frac = setTime (count (draw (count s 3 0)).2 3 1) { s.time with todPend := s.time.todPend ++ [(o, p)] } := by
  have hfld : fld (count s 3 0) Reg.timeEqdZero 23 0 = fld s Reg.timeEqdZero 23 0 := fld_count
  have hif : ¬ (!r.usable || fld (count s 3 0) Reg.timeEqdZero 23 0 == 0 || decide (fld (count s 3 0) Reg.timeEqdZero 23 0 < r.eqd)) = true := by
    rw [hfld, hu, decide_eq_false (by omega), beq_eq_false_iff_ne.2 h0]
    decide
  have hofs : ofsOf (count s 3 0) r.eqd r.tcap sec ns frac = ofsOf s r.eqd r.tcap sec ns frac := by
    rw [ofsOf, ofsOf, fld_count, rd_count, rd_count]
  rw [timeTod, hon, if_neg (by decide)]
  dsimp only
  rw [count_time, hr]
  dsimp only
  rw [if_neg hif, hofs, count_time, draw_time, count_time]
  refine ⟨_, ?_, rfl⟩
  split
  · exact .inl rfl
  next h => exact .inr ⟨rfl, by simp only [Bool.or_eq_true, not_or, Bool.not_eq_true] at h; exact h.1⟩

theorem cntVal_setTime (x : TimeU) (g n : Nat) : cntVal (setTime s x) g n = cntVal s g n := rfl

theorem tod_used {m : List Byte} {pos : Nat} {r : TodRec} (hs : s.inv) (hm : msgHere s m pos = true) (hc : msgChecks s m pos = none)
    (ht : msgType m = 0x0A) (hon : timeOn s = true) (hr : s.time.recs.find? (fun r => r.pick == beAt m 4 6) = some r) (hu : r.usable = true)
    (h0 : fld s Reg.timeEqdZero 23 0 ≠ 0) (hz : r.eqd ≤ fld s Reg.timeEqdZero 23 0) :
    ∃ t o, exec (.tod m pos) s = .next t ∧
      (o = (ofsOf s r.eqd r.tcap (beAt m 10 6) (beAt m 16 4) (beAt m 20 4)).1 ∨
        (o = (ofsOf s r.eqd r.tcap (beAt m 10 6) (beAt m 16 4) (beAt m 20 4)).1 + 1 ∧
          (ofsOf s r.eqd r.tcap (beAt m 10 6) (beAt m 16 4) (beAt m 20 4)).2 = false)) ∧
      t.time = { s.time with todPend := s.time.todPend ++ [(o, beAt m 4 6)] } ∧ t.cur = s.cur ∧ t.stg = s.stg ∧
      cntVal t 3 0 = min cntMax (cntVal s 3 0 + 1) ∧ cntVal t 3 1 = min cntMax (cntVal s 3 1 + 1) ∧
      cntVal t 2 0 = min cntMax (cntVal s 2 0 + 1) := by
  obtain ⟨o, ho, heq⟩ := timeTod_uses (sec := beAt m 10 6) (ns := beAt m 16 4) (frac := beAt m 20 4) hon hr hu h0 hz
  have h1 : (draw (count s 3 0)).2.inv := count_inv hs 3 0
  have h2 : (setTime (count (draw (count s 3 0)).2 3 1) { s.time with todPend := s.time.todPend ++ [(o, beAt m 4 6)] }).inv := count_inv h1 3 1
  have hdraw : ∀ (u : State) (g n : Nat), cntVal (draw u).2 g n = cntVal u g n := fun _ _ _ => rfl
  refine ⟨_, o, (exec_tod hm hc ht).trans (congrArg (fun u => Host.Outcome.next (count u 2 0)) heq), ho, (count_time _ _ _).trans rfl, ?_, ?_, ?_, ?_, ?_⟩
  · rw [count_cur, setTime, count_cur, draw_cur, count_cur]
  · rw [count_stg, setTime, count_stg, draw_stg, count_stg]
  · rw [count, cntVal_countBy_other h2 (by decide), cntVal_setTime, count, cntVal_countBy_other h1 (by decide), hdraw, count, cntVal_countBy_same hs]
  · rw [count, cntVal_countBy_other h2 (by decide), cntVal_setTime, count, cntVal_countBy_same h1, hdraw, count, cntVal_countBy_other hs (by decide)]
  · rw [count, cntVal_countBy_same h2, cntVal_setTime, count, cntVal_countBy_other h1 (by decide), hdraw, count, cntVal_countBy_other hs (by decide)]

theorem holdover_entered (hs : s.inv) (hon : domOn s 22 = true) (hf : flag s Reg.timeStat 2 = false)
    (hd : fld s Reg.timeTodTimeout 23 0 ≤ s.time.sinceTod) :
    ∃ t, exec .holdoverEntry s = .next t ∧ flag t Reg.timeStat 2 = true ∧ flag t Reg.timeStat 1 = false ∧
      t.time = { s.time with fresh := true } := by
  have hif : (domOn s 22 && !flag s Reg.timeStat 2 && decide (fld s Reg.timeTodTimeout 23 0 ≤ s.time.sinceTod)) = true := by
    rw [hon, hf, decide_eq_true hd]
    rfl
  have h1 : (clrBit s Reg.timeStat 1).inv := setFld_inv hs _ _ _ _
  have h2 : (setBit (clrBit s Reg.timeStat 1) Reg.timeStat 2).inv := setFld_inv h1 _ _ _ _
  have hr : RegsIn [Reg.hostStat] (setBit (clrBit s Reg.timeStat 1) Reg.timeStat 2)
      (timeNotify (setTime (setBit (clrBit s Reg.timeStat 1) Reg.timeStat 2) { s.time with fresh := true }) 0x12 0) :=
    (setTime_regs _).trans (regsIn_notifyReg (by decide) _ _ _ _)
  refine ⟨_, congrArg Host.Outcome.next (if_pos hif), ?_, ?_, timeNotify_time _ _⟩
  · exact (hr.flag h2 (by decide) 2).trans (flag_setBit h1 (by decide))
  · exact (hr.flag h2 (by decide) 1).trans ((flag_setBit_apart h1 (by decide) (by decide)).trans (flag_clrBit hs))

/-! ## PPS and captures (R162, R163) -/

theorem exec_pps (hon : timeOn s = true) (hrun : s.time.run = true) (hen : flag s Reg.timePpsCfg 31 = true) (hp : ppsPasses s = true) :
    exec .ppsPulse s = .next (
      if (match s.time.lastPps with | some l => decide (todSec (todAt s 0).1 ≤ l) | none => false) then count s 3 12
      else setTime (emit s (.pps (todSec (todAt s 0).1) (fld s Reg.timePpsCfg 8 0))) { s.time with lastPps := some (todSec (todAt s 0).1) }) := by
  have hif : (timeOn s && s.time.run && flag s Reg.timePpsCfg 31 && ppsPasses s) = true := by rw [hon, hrun, hen, hp]; rfl
  exact congrArg Host.Outcome.next (if_pos hif)

theorem exec_tsCapEdge {i : Nat} {e : Bool} (hon : timeOn s = true) (hi : i < 2) (hen : flag s Reg.timeCapCfg (2 * i) = true)
    (he : flag s Reg.timeCapCfg (2 * i + 1) = e) : exec (.tsCapEdge i e) s = .next (
      if (capFifo s i).length < 8 then count (setCapFifo s i (capFifo s i ++ [(todAt s 0).1])) 3 (9 + i) else count s 3 11) := by
  have hif : (timeOn s && decide (i < 2) && flag s Reg.timeCapCfg (2 * i) && flag s Reg.timeCapCfg (2 * i + 1) == e) = true := by
    rw [hon, hen, he, decide_eq_true hi]
    simp
  exact congrArg Host.Outcome.next (if_pos hif)

theorem capFifo_setCapFifo_other {i : Nat} (hi : i < 2) (l : List Nat) : capFifo (setCapFifo s i l) (1 - i) = capFifo s (1 - i) := by
  rw [setCapFifo]
  dsimp only
  rw [capFifo, setFld_time, capFifo]
  obtain rfl | rfl : i = 0 ∨ i = 1 := by omega
  · rfl
  · rfl

theorem edge_captured {i : Nat} (hs : s.inv) (hi : i < 2) (hl : (capFifo s i).length < 8) (x : Nat) :
    capFifo (count (setCapFifo s i (capFifo s i ++ [x])) 3 (9 + i)) i = capFifo s i ++ [x] ∧
      capFifo (count (setCapFifo s i (capFifo s i ++ [x])) 3 (9 + i)) (1 - i) = capFifo s (1 - i) ∧
      fld (count (setCapFifo s i (capFifo s i ++ [x])) 3 (9 + i)) Reg.timeCapStat (4 * i + 3) (4 * i) = (capFifo s i).length + 1 ∧
      cntVal (count (setCapFifo s i (capFifo s i ++ [x])) 3 (9 + i)) 3 (9 + i) = min cntMax (cntVal s 3 (9 + i) + 1) := by
  generalize hq : capFifo s i ++ [x] = q
  have hlen : q.length = (capFifo s i).length + 1 := by rw [← hq]; simp
  have hcap : ∀ (u : State) (j : Nat), capFifo (count u 3 (9 + i)) j = capFifo u j := fun u j => by rw [capFifo, capFifo, count_time]
  have hset : ∀ y, (setTime s y).inv := fun _ => hs
  have hinv : (setCapFifo s i q).inv := setFld_inv (hset _) _ _ _ _
  have hcnt : cntVal (setCapFifo s i q) 3 (9 + i) = cntVal s 3 (9 + i) := by
    rw [setCapFifo, cntVal, setFld_cnt]
    rfl
  have hfld : fld (setCapFifo s i q) Reg.timeCapStat (4 * i + 3) (4 * i) = q.length % 2 ^ (4 * i + 3 + 1 - 4 * i) :=
    fld_setFld_same (hset _) (by omega) (by omega)
  rw [hcap, hcap]
  refine ⟨?_, ?_, ?_, ?_⟩
  · exact capFifo_setCapFifo i q
  · exact capFifo_setCapFifo_other hi q
  · rw [fld_count, hfld, show 4 * i + 3 + 1 - 4 * i = 4 by omega, hlen]
    exact Nat.mod_eq_of_lt (by omega)
  · rw [count, cntVal_countBy_same hinv, hcnt]

end

/-- Settles O26: a write of each of the three registers stores its staged copy and leaves its request (`hostStore_staged`,
`regStore_crossed`); a commit point takes INC, the TODs, then the load or the steps (`timeCommit_eq`). -/
theorem timeLoadsStepsAndFollows : Obligations.TimeLoadsStepsAndFollows := by
  unfold Obligations.TimeLoadsStepsAndFollows
  refine ⟨⟨fun s v hs h hd => ?_, fun s v hs h hd hx => ⟨fun hok => ?_, fun hok => ?_⟩, fun s v hs h hd => ?_, fun s hs hd ha hok => ?_,
    fun s hs hd ha hok => ?_, fun s hs hd ha => ?_, fun s hs hd hl => timeCommit_loads hs hd hl,
    fun s d hd hp hl hh ha => timeCommit_steps hd hp hl hh ha⟩,
    fun s m pos hs hm hc ht hon => ⟨fun r hr hu h0 hz => tod_used hs hm hc ht hon hr hu h0 hz, fun hr => ?_, fun r hr hbad => ?_⟩,
    fun s o pick hs => ?_, fun s hs hon hf hd => holdover_entered hs hon hf hd, fun s hon hrun hen hp => ⟨fun hl => ?_, fun l hl hle => ?_⟩,
    fun s i e hs hon hi hen he => ⟨fun hl => ?_, fun hl => ?_⟩⟩
  · obtain ⟨y, hy⟩ := exec_timeLoad (v := v) (hostReaches_fixed (by decide) h hd)
    exact ⟨_, hy, rfl, rd_stored_unchanged hs y false⟩
  · exact timeIncArm_arms hs (hostReaches_fixed (by decide) h hd) hx hok
  · exact timeIncArm_refuses hs (hostReaches_fixed (by decide) h hd) hok
  · obtain ⟨y, hy⟩ := exec_hostStep (v := v) hs (hostReaches_fixed (by decide) h hd)
    exact ⟨_, hy, rfl⟩
  · exact (timeInc_timeCommit hs hd).trans (timeInc_takes hs ha hok)
  · exact ⟨(timeInc_timeCommit hs hd).trans (timeInc_refused hs ha hok).1, (timeInc_refused hs ha hok).2⟩
  · exact (timeInc_timeCommit hs hd).trans (by rw [incIn_unarmed ha])
  · rw [exec_tod hm hc ht, timeTod_missing hon hr]
  · rw [exec_tod hm hc ht, timeTod_unusable hon hr hbad]
  · obtain ⟨h1, h2, h3, h4, h5⟩ := todIn_shows hs o pick
    exact ⟨h1, h2, h3, h4, h5, todIn_time hs o pick⟩
  · rw [exec_pps hon hrun hen hp, if_neg]
    · rfl
    · cases hq : s.time.lastPps with
      | none => exact Bool.false_ne_true
      | some l => exact fun hle => absurd (of_decide_eq_true hle) (Nat.not_le.2 (hl l hq))
  · rw [exec_pps hon hrun hen hp, hl]
    exact congrArg Host.Outcome.next (if_pos (decide_eq_true hle))
  · obtain ⟨h1, h2, h3, h4⟩ := edge_captured hs hi hl (todAt s 0).1
    exact ⟨_, (exec_tsCapEdge hon hi hen he).trans (congrArg Host.Outcome.next (if_pos hl)), h1, h2, h3, h4⟩
  · exact (exec_tsCapEdge hon hi hen he).trans (congrArg Host.Outcome.next (if_neg (Nat.not_lt.2 hl)))

end Sys2Proof.Machine
end

