-- ==== Sys2Proof/Proofs/DeckWindow.lean ====
section
/-! SUPPORT. Proofs/DeckWindow.lean: command registers with coded operations, the operations on a deck, and the entry window of the
standby deck (R177, R187). -/

namespace Sys2Proof.Machine

open Sys2Proof

section
variable {s t u : State} {d d' : Deck} {a op v tab i j k n r : Nat} {img key e : List Nat}

/-! ## Writes of an operation's code -/

/-- A field that stores nothing and takes this code. -/
def codeField (v : Nat) (f : Fld) : Bool := unstored f || (f.acc == .wo && legal f (bits v f.hi f.lo))

theorem fldWrite_code {f : Fld} (h : codeField v f = true) (x : Nat × Nat × Bool) : fldWrite v x f = x := by
  rw [codeField, Bool.or_eq_true] at h
  obtain h | h := h
  · exact fldWrite_unstored h x
  · obtain ⟨hi, lo, acc, ok⟩ := f
    cases acc <;> simp_all [fldWrite]

/-- A register of such fields, without a rule beyond its effect, outside the SAFETY block. -/
def codeReg (a v : Nat) : Bool :=
  plainReg a && !inSafety a && match findRow a with
    | some r => r.fields.all (codeField v)
    | none => false

/-- A full write of the code: the register's effect on the state with the same registers. -/
theorem hostStore_code (h : s.hostReaches a = true) (hc : codeReg a v = true) :
    hostStore a 15 v s = writeEffects a v (rdS s a) (stored s a (rdS s a, rd s a, false)) := by
  rw [codeReg, Bool.and_eq_true, Bool.and_eq_true, Bool.not_eq_true'] at hc
  obtain ⟨⟨hp, hs⟩, hf⟩ := hc
  cases hr : findRow a with
  | none => rw [hr] at hf; cases hf
  | some r =>
    rw [hr] at hf
    have hl : ∀ (l : List Fld) (x : Nat × Nat × Bool), (∀ f ∈ l, codeField v f = true) → l.foldl (fldWrite v) x = x := fun l => by
      induction l with
      | nil => exact fun x _ => rfl
      | cons f t ih =>
        intro x hl
        rw [List.foldl_cons, fldWrite_code (hl f List.mem_cons_self), ih x (fun g hg => hl g (List.mem_cons_of_mem _ hg))]
    have hy : fieldsWritten r s a v = (rdS s a, rd s a, false) := hl r.fields _ (List.all_eq_true.1 hf)
    rw [hostStore_reached h hr, regStore_plain hp (.inl hs), hy, if_neg (by simp)]

/-- The six operations of HEDDLE_ENT_CMD. -/
theorem hostStore_entCmd (h : s.hostReaches Reg.heddleEntCmd = true) (h1 : 1 ≤ op) (h6 : op ≤ 6) :
    hostStore Reg.heddleEntCmd 15 op s =
      heddleWindow op (stored s Reg.heddleEntCmd (rdS s Reg.heddleEntCmd, rd s Reg.heddleEntCmd, false)) := by
  have hop : op % 8 = op := Nat.mod_eq_of_lt (by omega)
  have hc : codeReg Reg.heddleEntCmd op = true := by
    have hall : (List.range 7).all (fun o => o == 0 || codeReg Reg.heddleEntCmd o) = true := by decide
    have := List.all_eq_true.1 hall op (List.mem_range.2 (by omega))
    rwa [Bool.or_eq_true, beq_iff_eq, or_iff_right (by omega)] at this
  rw [hostStore_code h hc, writeEffects_traffic (by decide) (by decide), trafficEffect, if_pos rfl, hop, if_pos ⟨h1, h6⟩]

/-! ## Deck entries -/

theorem sput_nonempty (he : e ≠ []) : sput [] d i e = sins d i e := if_neg he

theorem deckWord_sput (he : e ≠ []) : deckWord (sput [] d (deckKey tab i) e) tab i k = e.getD k 0 := by
  rw [deckWord, sput_nonempty he, sget_sins_same]

theorem sget_deck_other (he : e ≠ []) (hj : j ≠ deckKey tab i) : sget [] (sput [] d (deckKey tab i) e) j = sget [] d j := by
  rw [sput_nonempty he, sget_sins_other _ _ _ _ _ hj.symm]

theorem getD_rangeMap (f : Nat → Nat) (h : k < n) : ((List.range n).map f).getD k 0 = f k := by
  simp [List.getD_eq_getElem?_getD, h]

theorem rangeMap_ne_nil (f : Nat → Nat) (h : 0 < n) : (List.range n).map f ≠ [] := fun hn => by
  have := congrArg List.length hn
  simp at this
  omega

theorem tableWords_pos (h : tab ≤ 5) : 0 < tableWords tab := by
  have hall : (List.range 6).all (fun t => decide (0 < tableWords t)) = true := by decide
  exact of_decide_eq_true (List.all_eq_true.1 hall tab (List.mem_range.2 (by omega)))

theorem tableWords_le (h : tab ≤ 5) : tableWords tab ≤ 48 := by
  have hall : (List.range 6).all (fun t => decide (tableWords t ≤ 48)) = true := by decide
  exact of_decide_eq_true (List.all_eq_true.1 hall tab (List.mem_range.2 (by omega)))

/-- An entry whose last word has lost bit 31 is not valid. -/
theorem mod_testBit_31 (x : Nat) : (x % 2 ^ 31).testBit 31 = false := Nat.testBit_lt_two_pow (Nat.mod_lt x (by decide))

theorem valid_testBit_31 (x : Nat) : (2 ^ 31 + x % 65536).testBit 31 = true := by
  rw [Nat.testBit_two_pow_add_eq, Nat.testBit_lt_two_pow (Nat.lt_trans (Nat.mod_lt x (by decide)) (by decide : 65536 < 2 ^ 31))]
  rfl

/-! ## Operations on a deck (R177, R187) -/

theorem deckOp_outside (ho : op ≠ 6) (h : 5 < tab ∨ tableSize tab ≤ i) : deckOp d op tab i img = (d, 4, i) := by
  unfold deckOp
  rw [if_pos h, if_neg ho]

theorem deckOp_clear : deckOp d 6 tab i img = ([], 0, i) := by
  rw [deckOp]
  split <;> rfl

/-- The image that WRITE stores, and the entry that INVALIDATE leaves. -/
def deckImage (tab : Nat) (img : List Nat) : List Nat := (List.range (tableWords tab)).map (fun k => img.getD k 0)
def deckInvalid (d : Deck) (tab i : Nat) : List Nat :=
  (List.range (tableWords tab)).map (fun k => if k + 1 = tableWords tab then deckWord d tab i k % 2 ^ 31 else deckWord d tab i k)

/-- The key of an exact-match image, the entry that EM_INSERT stores and the one that EM_DELETE leaves. -/
def exactKey (img : List Nat) : List Nat := (List.range 5).map (fun k => img.getD k 0)
def exactImage (img : List Nat) : List Nat := exactKey img ++ [2 ^ 31 + img.getD 5 0 % 65536]
def exactInvalid (d : Deck) (j : Nat) : List Nat :=
  (List.range 6).map (fun k => if k = 5 then deckWord d 4 j 5 % 2 ^ 31 else deckWord d 4 j k)

/-- The entries of a key's two buckets. -/
def exactSlots (key : List Nat) : List Nat :=
  (List.range 4).map (4 * (exactBuckets key).1 + ·) ++ (List.range 4).map (4 * (exactBuckets key).2 + ·)

section
variable (ht : tab ≤ 5) (hi : i < tableSize tab)
include ht hi

theorem deckOp_write : deckOp d 1 tab i img = (sput [] d (deckKey tab i) (deckImage tab img), 0, i) := by
  rw [deckOp, if_neg (by omega)]
  rfl

theorem deckOp_invalidate : deckOp d 3 tab i img =
    (if (sget [] d (deckKey tab i)).isEmpty then d else sput [] d (deckKey tab i) (deckInvalid d tab i), 0, i) := by
  rw [deckOp, if_neg (by omega)]
  rfl

theorem deckOp_insert_found (hf : exactFind d (exactKey img) = some j) :
    deckOp d 4 tab i img = (sput [] d (deckKey 4 j) (exactImage img), 0, j) := by
  rw [exactKey] at hf
  rw [deckOp, if_neg (by omega)]
  dsimp only
  rw [hf]
  rfl

theorem deckOp_insert_room (hf : exactFind d (exactKey img) = none)
    (hs : (exactSlots (exactKey img)).find? (fun j => !deckValid d 4 j) = some j) :
    deckOp d 4 tab i img = (sput [] d (deckKey 4 j) (exactImage img), 0, j) := by
  rw [exactSlots, exactKey] at hs
  rw [exactKey] at hf
  rw [deckOp, if_neg (by omega)]
  dsimp only
  rw [hf]
  dsimp only
  rw [hs]
  rfl

theorem deckOp_insert_full (hf : exactFind d (exactKey img) = none)
    (hs : (exactSlots (exactKey img)).find? (fun j => !deckValid d 4 j) = none) : deckOp d 4 tab i img = (d, 2, i) := by
  rw [exactSlots, exactKey] at hs
  rw [exactKey] at hf
  rw [deckOp, if_neg (by omega)]
  dsimp only
  rw [hf]
  dsimp only
  rw [hs]

theorem deckOp_delete_found (hf : exactFind d (exactKey img) = some j) :
    deckOp d 5 tab i img = (sput [] d (deckKey 4 j) (exactInvalid d j), 0, j) := by
  rw [exactKey] at hf
  rw [deckOp, if_neg (by omega), hf]
  rfl

theorem deckOp_delete_absent (hf : exactFind d (exactKey img) = none) : deckOp d 5 tab i img = (d, 3, i) := by
  rw [exactKey] at hf
  rw [deckOp, if_neg (by omega), hf]

/-- The invalidated entry, where there was none as well. -/
theorem invalidate_entry : deckValid (deckOp d 3 tab i img).1 tab i = false ∧
    ∀ j, j ≠ deckKey tab i → sget [] (deckOp d 3 tab i img).1 j = sget [] d j := by
  have hw := tableWords_pos ht
  rw [deckOp_invalidate ht hi]
  split
  next he =>
    refine ⟨?_, fun _ _ => rfl⟩
    rw [deckValid, deckWord, List.isEmpty_iff.1 he]
    exact Nat.zero_testBit 31
  next he =>
    have hne : deckInvalid d tab i ≠ [] := rangeMap_ne_nil _ hw
    refine ⟨?_, fun j hj => sget_deck_other hne hj⟩
    rw [deckValid, deckWord_sput hne, deckInvalid, getD_rangeMap _ (by omega), if_pos (by omega)]
    exact mod_testBit_31 _

end

theorem exactImage_ne_nil : exactImage img ≠ [] := by simp [exactImage]

theorem exactImage_key (h : k < 5) : (exactImage img).getD k 0 = (exactKey img).getD k 0 := by
  have hl : (exactKey img).length = 5 := by simp [exactKey]
  rw [exactImage, List.getD_append _ _ _ _ (by omega)]

theorem exactImage_last : (exactImage img).getD 5 0 = 2 ^ 31 + img.getD 5 0 % 65536 := by
  have hl : (exactKey img).length = 5 := by simp [exactKey]
  rw [exactImage, List.getD_append_right _ _ _ _ (by omega), hl]
  rfl

theorem exactInvalid_valid : deckValid (sput [] d (deckKey 4 j) (exactInvalid d j)) 4 j = false := by
  have hne : exactInvalid d j ≠ [] := rangeMap_ne_nil _ (by decide)
  rw [deckValid, deckWord_sput hne, exactInvalid, getD_rangeMap _ (by decide), if_pos (by decide)]
  exact mod_testBit_31 _

theorem exactImage_valid : deckValid (sput [] d (deckKey 4 j) (exactImage img)) 4 j = true := by
  rw [deckValid, deckWord_sput exactImage_ne_nil]
  exact (congrArg (Nat.testBit · 31) exactImage_last).trans (valid_testBit_31 _)

/-- An entry of a bucket pair has an index of 18 bits. -/
theorem exactSlots_lt (h : j ∈ exactSlots key) : j < 2 ^ 18 := by
  have h1 : (exactBuckets key).1 < 65536 := Nat.mod_lt _ (by decide)
  have h2 : (exactBuckets key).2 < 65536 := Nat.mod_lt _ (by decide)
  rw [exactSlots, List.mem_append, List.mem_map, List.mem_map] at h
  obtain ⟨x, hx, rfl⟩ | ⟨x, hx, rfl⟩ := h <;> rw [List.mem_range] at hx <;> omega

theorem exactFind_lt (h : exactFind d key = some j) : j < 2 ^ 18 := by
  rw [exactFind] at h
  exact exactSlots_lt (key := key) (List.mem_of_find?_eq_some h)

/-! ## The window (R187) -/

/-- The image that the data registers hold. -/
def windowImage (s : State) : List Nat := (List.range 48).map (fun k => rdS s (Reg.heddleEntData k))

theorem windowImage_getD (h : k < 48) : (windowImage s).getD k 0 = rdS s (Reg.heddleEntData k) := getD_rangeMap _ h

theorem heddleWindow_frozen (hf : s.heddle.frozen = true) : heddleWindow op s = setHeddle s { s.heddle with result := 1 } := if_pos hf

theorem setStandby_decks : activeDeck (setStandby s d) = activeDeck s ∧ standbyDeck (setStandby s d) = d := by
  rw [setStandby]
  cases h : s.heddle.activeB <;> simp [activeDeck, standbyDeck, setHeddle, h]

/-- An editing operation: the standby deck, the result and the index of EM_INSERT. -/
theorem heddleWindow_edits (hf : s.heddle.frozen = false) (ho : op ≠ 2) (hop : deckOp (standbyDeck s) op (fldS s Reg.heddleEntSel 26 24)
    (fldS s Reg.heddleEntSel 17 0) (windowImage s) = (d, r, j)) :
    (heddleWindow op s).heddle.result = r ∧ activeDeck (heddleWindow op s) = activeDeck s ∧ standbyDeck (heddleWindow op s) = d ∧
      (s.inv → op = 4 → r = 0 → j < 2 ^ 18 → fldS (heddleWindow op s) Reg.heddleEntSel 17 0 = j) := by
  have hdecks : ∀ (u : State) (x : Nat), activeDeck (setHeddle u { u.heddle with result := x }) = activeDeck u ∧
      standbyDeck (setHeddle u { u.heddle with result := x }) = standbyDeck u := fun _ _ => ⟨rfl, rfl⟩
  have heq : heddleWindow op s = setHeddle (if op = 4 ∧ r = 0 then setFld (setStandby s d) Reg.heddleEntSel 17 0 j else setStandby s d)
      { (if op = 4 ∧ r = 0 then setFld (setStandby s d) Reg.heddleEntSel 17 0 j else setStandby s d).heddle with result := r } := by
    rw [windowImage] at hop
    rw [heddleWindow, hf, if_neg Bool.false_ne_true]
    dsimp only
    rw [if_neg ho, hop]
  have hset : ∀ y, (if op = 4 ∧ r = 0 then setFld (setStandby s d) Reg.heddleEntSel 17 0 j else setStandby s d) = y →
      activeDeck y = activeDeck s ∧ standbyDeck y = d := fun y hy => by
    have hd := setStandby_decks (s := s) (d := d)
    rw [← hy]
    split
    · exact hd
    · exact hd
  obtain ⟨h1, h2⟩ := hdecks (if op = 4 ∧ r = 0 then setFld (setStandby s d) Reg.heddleEntSel 17 0 j else setStandby s d) r
  obtain ⟨h3, h4⟩ := hset _ rfl
  rw [heq]
  refine ⟨rfl, h1.trans h3, h2.trans h4, fun hs h4 hr hj => ?_⟩
  have hi : (setStandby s d).inv := by
    rw [setStandby]
    split
    · exact hs
    · exact hs
  rw [if_pos ⟨h4, hr⟩]
  change bits (rdS (setFld (setStandby s d) Reg.heddleEntSel 17 0 j) Reg.heddleEntSel) 17 0 = j
  rw [rdS_setFld_same hi, bits_insBits (by decide) (by decide)]
  exact Nat.mod_eq_of_lt hj

/-- READ of an entry beyond its table. -/
theorem heddleWindow_read_outside (hf : s.heddle.frozen = false)
    (h : 5 < fldS s Reg.heddleEntSel 26 24 ∨ tableSize (fldS s Reg.heddleEntSel 26 24) ≤ fldS s Reg.heddleEntSel 17 0) :
    heddleWindow 2 s = setHeddle s { s.heddle with result := 4 } := by
  rw [heddleWindow, hf, if_neg Bool.false_ne_true]
  dsimp only
  rw [if_pos rfl, if_pos h]

/-- The data registers with an entry's words. -/
def entryShown (d : Deck) (tab i n : Nat) (s : State) : State := forUpTo n s (fun k s => setReg s (Reg.heddleEntData k) (deckWord d tab i k))

theorem entryShown_heddle (n : Nat) : (entryShown d tab i n s).heddle = s.heddle := by
  induction n with
  | zero => rfl
  | succ n ih => rw [entryShown, forUpTo_succ, setReg_heddle]; exact ih

theorem entryShown_reads (hs : s.inv) (n : Nat) : (entryShown d tab i n s).inv ∧
    ∀ k < n, rdS (entryShown d tab i n s) (Reg.heddleEntData k) = deckWord d tab i k % 2 ^ 32 := by
  induction n with
  | zero => exact ⟨hs, fun _ h => absurd h (Nat.not_lt_zero _)⟩
  | succ n ih =>
    obtain ⟨hi, hr⟩ := ih
    rw [entryShown] at hi hr
    rw [entryShown, forUpTo_succ]
    refine ⟨setReg_inv hi _ _, fun k hk => ?_⟩
    obtain rfl | hlt : k = n ∨ k < n := by omega
    · exact rdS_setReg_same hi _ _
    · rw [rdS_setReg_other hi (by simp only [Reg.heddleEntData]; omega), hr k hlt]

/-- READ shows the entry. -/
theorem heddleWindow_reads (hf : s.heddle.frozen = false) (hn : ¬ (5 < fldS s Reg.heddleEntSel 26 24 ∨
    tableSize (fldS s Reg.heddleEntSel 26 24) ≤ fldS s Reg.heddleEntSel 17 0)) : heddleWindow 2 s =
      setHeddle (entryShown (standbyDeck s) (fldS s Reg.heddleEntSel 26 24) (fldS s Reg.heddleEntSel 17 0)
        (tableWords (fldS s Reg.heddleEntSel 26 24)) s) { s.heddle with result := 0 } := by
  have hsame : ∀ n tab i, standbyDeck (entryShown (standbyDeck s) tab i n s) = standbyDeck s := fun n tab i => by
    have h := entryShown_heddle (s := s) (d := standbyDeck s) (tab := tab) (i := i) n
    generalize entryShown (standbyDeck s) tab i n s = u at h
    rw [standbyDeck, h, standbyDeck]
  have hshow : ∀ n tab i, forUpTo n s (fun k u => setReg u (Reg.heddleEntData k) (deckWord (standbyDeck u) tab i k)) =
      entryShown (standbyDeck s) tab i n s := fun n tab i => by
    induction n with
    | zero => rfl
    | succ n ih =>
      rw [forUpTo_succ, ih, hsame, entryShown, entryShown, forUpTo_succ]
  rw [heddleWindow, hf, if_neg Bool.false_ne_true]
  dsimp only
  rw [if_pos rfl, if_neg hn, hshow, entryShown_heddle]

/-! ## The six commands -/

/-- The state whose window acts. -/
def entCmdTaken (s : State) : State := stored s Reg.heddleEntCmd (rdS s Reg.heddleEntCmd, rd s Reg.heddleEntCmd, false)

/-- What an editing operation leaves, said of the state in front of the write. -/
theorem entCmd_edits (h : hostReach s = true) (hd : domOn s 10 = true) (h1 : 1 ≤ op) (h6 : op ≤ 6) (ho : op ≠ 2) (hs : s.inv)
    (hf : s.heddle.frozen = false) (hop : deckOp (standbyDeck s) op (fldS s Reg.heddleEntSel 26 24) (fldS s Reg.heddleEntSel 17 0)
      (windowImage s) = (d, r, j)) : ∃ u, hostStore Reg.heddleEntCmd 15 op s = u ∧ u.heddle.result = r ∧ activeDeck u = activeDeck s ∧
        standbyDeck u = d ∧ (op = 4 → r = 0 → j < 2 ^ 18 → fldS u Reg.heddleEntSel 17 0 = j) := by
  have hreg : ∀ b, rdS (entCmdTaken s) b = rdS s b := rdS_stored_self hs
  have himg : windowImage (entCmdTaken s) = windowImage s := List.map_congr_left fun k _ => hreg _
  have hop' : deckOp (standbyDeck (entCmdTaken s)) op (fldS (entCmdTaken s) Reg.heddleEntSel 26 24)
      (fldS (entCmdTaken s) Reg.heddleEntSel 17 0) (windowImage (entCmdTaken s)) = (d, r, j) := by
    rw [himg, fldS, fldS, hreg]
    exact hop
  obtain ⟨hr, ha, hb, hj⟩ := heddleWindow_edits (s := entCmdTaken s) hf ho hop'
  exact ⟨_, hostStore_entCmd (hostReaches_fixed (by decide) h hd) h1 h6, hr, ha, hb, hj (stored_inv hs _)⟩

end

/-- Settles O27: a write of the code runs the window on the state with the same registers (`hostStore_entCmd`); what the window
does to the standby deck is `deckOp`, case by case. -/
theorem deckWindowEditsStandby : Obligations.DeckWindowEditsStandby := by
  unfold Obligations.DeckWindowEditsStandby
  refine ⟨fun s h hd hf => ?_, fun s t i hs h hd hf ht hi => ⟨?_, fun hout => ?_, fun h5 hsz => ?_⟩⟩
  · have hwin : ∀ op, 1 ≤ op → op ≤ 6 → ∃ u, (.next (hostStore Reg.heddleEntCmd 15 op s) : Host.Outcome State Fault Refusal) = .next u ∧
        u.heddle = { s.heddle with result := 1 } := fun op h1 h6 =>
      ⟨_, congrArg Host.Outcome.next ((hostStore_entCmd (hostReaches_fixed (by decide) h hd) h1 h6).trans (heddleWindow_frozen hf)), rfl⟩
    exact ⟨hwin 1 (by decide) (by decide), hwin 2 (by decide) (by decide), hwin 3 (by decide) (by decide), hwin 4 (by decide) (by decide),
      hwin 5 (by decide) (by decide), hwin 6 (by decide) (by decide)⟩
  · obtain ⟨u, hu, hr, ha, hb, -⟩ := entCmd_edits h hd (by decide) (Nat.le_refl 6) (by decide) hs hf deckOp_clear
    exact ⟨u, congrArg Host.Outcome.next hu, hr, ha, hb⟩
  · subst ht hi
    have hedit : ∀ op, 1 ≤ op → op ≤ 5 → op ≠ 2 → ∃ u, (.next (hostStore Reg.heddleEntCmd 15 op s) : Host.Outcome State Fault Refusal) = .next u ∧
        u.heddle.result = 4 ∧ activeDeck u = activeDeck s ∧ standbyDeck u = standbyDeck s := fun op h1 h5 h2 => by
      obtain ⟨u, hu, hr, ha, hb, -⟩ := entCmd_edits h hd h1 (by omega) h2 hs hf (deckOp_outside (by omega) hout)
      exact ⟨u, congrArg Host.Outcome.next hu, hr, ha, hb⟩
    refine ⟨hedit 1 (by decide) (by decide) (by decide), ?_, hedit 3 (by decide) (by decide) (by decide),
      hedit 4 (by decide) (by decide) (by decide), hedit 5 (by decide) (by decide) (by decide)⟩
    have hout' : 5 < fldS (entCmdTaken s) Reg.heddleEntSel 26 24 ∨
        tableSize (fldS (entCmdTaken s) Reg.heddleEntSel 26 24) ≤ fldS (entCmdTaken s) Reg.heddleEntSel 17 0 := by
      rw [fldS, fldS, entCmdTaken, rdS_stored_self hs]
      exact hout
    exact ⟨_, congrArg Host.Outcome.next ((hostStore_entCmd (hostReaches_fixed (by decide) h hd) (by decide) (by decide)).trans
      (heddleWindow_read_outside (s := entCmdTaken s) hf hout')), rfl⟩
  · subst ht hi
    have himg : ∀ k, k < 48 → (windowImage s).getD k 0 = rdS s (Reg.heddleEntData k) := fun k hk => windowImage_getD hk
    have hkey : (List.range 5).map (fun k => rdS s (Reg.heddleEntData k)) = exactKey (windowImage s) :=
      List.map_congr_left fun k hk => (himg k (by rw [List.mem_range] at hk; omega)).symm
    refine ⟨?_, ?_, ?_, ?_⟩
    · obtain ⟨u, hu, hr, ha, hb, -⟩ := entCmd_edits h hd (by decide) (by decide) (by decide) hs hf (deckOp_write h5 hsz)
      have hne : deckImage (fldS s Reg.heddleEntSel 26 24) (windowImage s) ≠ [] := rangeMap_ne_nil _ (tableWords_pos h5)
      refine ⟨u, congrArg Host.Outcome.next hu, hr, ha, fun k hk => ?_, fun j hj => ?_⟩
      · rw [hb, deckWord_sput hne, deckImage, getD_rangeMap _ hk, himg k (Nat.lt_of_lt_of_le hk (tableWords_le h5))]
      · rw [hb, sget_deck_other hne hj]
    · have hin : ¬ (5 < fldS (entCmdTaken s) Reg.heddleEntSel 26 24 ∨
          tableSize (fldS (entCmdTaken s) Reg.heddleEntSel 26 24) ≤ fldS (entCmdTaken s) Reg.heddleEntSel 17 0) := by
        rw [fldS, fldS, entCmdTaken, rdS_stored_self hs, ← fldS, ← fldS]
        omega
      have hread := (hostStore_entCmd (hostReaches_fixed (by decide) h hd) (by decide) (by decide)).trans
        (heddleWindow_reads (s := entCmdTaken s) hf hin)
      refine ⟨_, congrArg Host.Outcome.next hread, rfl, fun k hk => ?_⟩
      have hsel : ∀ hi lo, fldS (entCmdTaken s) Reg.heddleEntSel hi lo = fldS s Reg.heddleEntSel hi lo := fun hi lo => by
        rw [fldS, fldS, entCmdTaken, rdS_stored_self hs]
      rw [hsel, hsel]
      exact (entryShown_reads (s := entCmdTaken s) (stored_inv hs _) _).2 k hk
    · obtain ⟨h1, h2⟩ := invalidate_entry (d := standbyDeck s) (img := windowImage s) h5 hsz
      have hop := deckOp_invalidate (d := standbyDeck s) (img := windowImage s) h5 hsz
      obtain ⟨u, hu, hr, ha, hb, -⟩ := entCmd_edits h hd (by decide) (by decide) (by decide) hs hf hop
      rw [hop] at h1 h2
      exact ⟨u, congrArg Host.Outcome.next hu, hr, ha, by rw [hb]; exact h1, by rw [hb]; exact h2⟩
    · dsimp only
      rw [hkey]
      refine ⟨fun j hj => ⟨?_, ?_⟩, fun hnone => ⟨fun j hj => ?_, fun hfull => ?_, ?_⟩⟩
      · obtain ⟨u, hu, hr, ha, hb, hx⟩ := entCmd_edits h hd (by decide) (by decide) (by decide) hs hf (deckOp_insert_found h5 hsz hj)
        refine ⟨u, congrArg Host.Outcome.next hu, hr, ha, hx rfl rfl (exactFind_lt hj), ?_⟩
        rw [hb, deckWord_sput exactImage_ne_nil, exactImage_last, himg 5 (by decide)]
      · obtain ⟨u, hu, hr, ha, hb, -⟩ := entCmd_edits h hd (by decide) (by decide) (by decide) hs hf (deckOp_delete_found h5 hsz hj)
        exact ⟨u, congrArg Host.Outcome.next hu, hr, ha, by rw [hb]; exact exactInvalid_valid⟩
      · obtain ⟨u, hu, hr, ha, hb, hx⟩ := entCmd_edits h hd (by decide) (by decide) (by decide) hs hf (deckOp_insert_room h5 hsz hnone hj)
        refine ⟨u, congrArg Host.Outcome.next hu, hr, ha, hx rfl rfl (exactSlots_lt (List.mem_of_find?_eq_some hj)), fun k hk => ?_, ?_⟩
        · rw [hb, deckWord_sput exactImage_ne_nil, exactImage_key hk]
        · rw [hb]
          exact exactImage_valid
      · obtain ⟨u, hu, hr, ha, hb, -⟩ := entCmd_edits h hd (by decide) (by decide) (by decide) hs hf (deckOp_insert_full h5 hsz hnone hfull)
        exact ⟨u, congrArg Host.Outcome.next hu, hr, ha, hb⟩
      · obtain ⟨u, hu, hr, ha, hb, -⟩ := entCmd_edits h hd (by decide) (by decide) (by decide) hs hf (deckOp_delete_absent h5 hsz hnone)
        exact ⟨u, congrArg Host.Outcome.next hu, hr, ha, hb⟩

end Sys2Proof.Machine
end

