-- ==== Sys2Proof/Proofs/CommandRows.lean ====
section
/-! SUPPORT. Proofs/CommandRows.lean: a command that its commit point applies, step by step (R24, R25, R28, R359), and the deck commands
(R188 to R192). -/

namespace Sys2Proof.Machine

open Sys2Proof

section
variable {s t : State} {d : CmdDesc} {code st det dom : Nat} {body : CmdDesc → State → CmdRes} {k : State → CmdRes}

/-! ## The course of a command that is ready -/

/-- A ready command is applied where `State.cmdTaken` says. -/
theorem cmdRow_ready (h : s.cmdReady d code = true) : cmdRow code body d s = match body d (s.cmdTaken d) with
    | .fin st det t => cmdFinish d s.pick.point st det t
    | .work t => workBegin d s.pick.point t := by
  simp only [State.cmdReady, Bool.and_eq_true, beq_iff_eq, bne_iff_ne, Bool.not_eq_true'] at h
  obtain ⟨⟨⟨⟨⟨hcode, hkind⟩, hoff⟩, hok⟩, hp⟩, hw⟩ := h
  have htaken : rowTaken d s = s.cmdTaken d := by
    rw [rowTaken, hp]
    rfl
  have hpoint : (s.cmdTaken d).pick.point = s.pick.point := by
    rw [State.cmdTaken]
    split <;> rfl
  rw [cmdRow, if_pos ⟨hcode, hkind, hoff⟩, hw, htaken, cmdApply, hok, hp, hpoint]
  rfl

theorem cmdRow_fin (h : s.cmdReady d code = true) (hb : body d (s.cmdTaken d) = .fin st det t) :
    cmdRow code body d s = cmdFinish d s.pick.point st det t := by rw [cmdRow_ready h, hb]

theorem cmdRow_work (h : s.cmdReady d code = true) (hb : body d (s.cmdTaken d) = .work t) (hp : t.pick.point = s.pick.point) :
    cmdRow code body d s = t.cmdWorks d := by
  rw [cmdRow_ready h, hb, State.cmdWorks, hp]

theorem needDomain_on (h : domOn s dom = true) : needDomain dom s k = k s := if_pos h

/-- The list of validated commands and the count of the commit point's places are all that a command's start changes. -/
theorem cmdTaken_kept (d : CmdDesc) : Kept 8448 s (s.cmdTaken d) := by
  have h : Kept 8448 s (if isQueued s d then unqueue s d else s) := by
    split
    · exact unqueue_kept (.refl _ s) (.of (.refl _) rfl)
    · exact .refl _ s
  exact setPick_kept h (.of (.refl _) rfl)

theorem cmdTaken_point (d : CmdDesc) : (s.cmdTaken d).pick.point = s.pick.point := by
  rw [State.cmdTaken]
  split <;> rfl

theorem cmdTaken_domOn (d : CmdDesc) (n : Nat) : domOn (s.cmdTaken d) n = domOn s n := by
  rw [domOn, (cmdTaken_kept d).power_eq rfl, ← domOn]

theorem cmdTaken_heddle (d : CmdDesc) : (s.cmdTaken d).heddle = s.heddle := (cmdTaken_kept d).heddle_eq rfl

/-! ## The deck commands (R188 to R192) -/

theorem activeDeck_congr (h : t.heddle = s.heddle) : activeDeck t = activeDeck s := by rw [activeDeck, h, ← activeDeck]
theorem standbyDeck_congr (h : t.heddle = s.heddle) : standbyDeck t = standbyDeck s := by rw [standbyDeck, h, ← standbyDeck]

theorem cmdDeckLoad_takes (hd : domOn s 10 = true) (hf : s.heddle.frozen = false) (ha : s.heddle.swapAsked = false)
    (hl : s.heddle.loading = none) : cmdDeckLoad d s = .work (setHeddle s { s.heddle with loading := some (d.ring, d.index) }) := by
  rw [cmdDeckLoad, needDomain_on hd]
  dsimp only
  rw [hf, ha, hl]
  rfl

theorem cmdRuleWrite_acts {k : Deck} (hd : domOn s 10 = true) (ha : s.heddle.swapAsked = false) (hu : s.heddle.swapDue = false)
    (hr : applyRecord (activeDeck s) false (cmdData d) = (k, 0)) :
    cmdRuleWrite d s = .fin Status.done 0 (setHeddle (setActive s k) { (setActive s k).heddle with ruled := true }) := by
  rw [cmdRuleWrite, needDomain_on hd]
  dsimp only
  rw [ha, hu, hr]
  rfl

theorem cmdRuleWrite_busy (hd : domOn s 10 = true) (h : s.heddle.swapAsked = true ∨ s.heddle.swapDue = true) :
    cmdRuleWrite d s = .fin Status.busy 0 s := by
  rw [cmdRuleWrite, needDomain_on hd]
  exact if_pos (by rwa [Bool.or_eq_true])

theorem cmdDeckSwap_asks (hd : domOn s 10 = true) (hf : s.heddle.frozen = false) (hl : s.heddle.loading = none)
    (hv : deckValid (standbyDeck s) 0 0 = true) : cmdDeckSwap d s = .fin Status.done 0 (setHeddle s { s.heddle with swapAsked := true }) := by
  rw [cmdDeckSwap, needDomain_on hd]
  dsimp only
  rw [hf, hl, hv]
  rfl

theorem setActive_decks {k : Deck} : activeDeck (setActive s k) = k ∧ standbyDeck (setActive s k) = standbyDeck s := by
  rw [setActive]
  cases h : s.heddle.activeB <;> simp [activeDeck, standbyDeck, setHeddle, h]

/-- The records of a load in the standby deck, and the load over. -/
def deckLoaded (s : State) (recs : List (List Byte)) : State :=
  let s := setStandby s (applyRecords (standbyDeck s) recs 0 none).1
  setHeddle s { s.heddle with loading := none }

theorem exec_deckLoadDone {recs : List (List Byte)} {bad : Bool} {r i : Nat} (h : s.heddle.loading = some (r, i)) :
    ∃ st det, exec (.deckLoadDone recs bad) s = .next (workEnd (deckLoaded s recs) r i st det) := by
  rw [exec, execDeckLoadDone, h]
  dsimp only
  cases bad with
  | true => exact ⟨_, _, rfl⟩
  | false =>
    cases hx : (applyRecords (standbyDeck s) recs 0 none).2 with
    | none => exact ⟨_, _, by rw [if_neg Bool.false_ne_true]; rfl⟩
    | some x => exact ⟨_, _, by rw [if_neg Bool.false_ne_true]; rfl⟩

theorem deckLoaded_decks (recs : List (List Byte)) : (deckLoaded s recs).heddle.loading = none ∧ activeDeck (deckLoaded s recs) = activeDeck s ∧
    standbyDeck (deckLoaded s recs) = (applyRecords (standbyDeck s) recs 0 none).1 :=
  ⟨rfl, setStandby_decks.1, setStandby_decks.2⟩

theorem deckSwap_heddle : (deckSwap s).heddle = { s.heddle with
    activeB := !s.heddle.activeB, gen := (s.heddle.gen + 1) % 256, frozen := true, swapAge := 0, swapClock := s.now, swapAsked := false } :=
  (count_heddle ..).trans rfl

theorem exec_deckDrainEnd_over (hf : s.heddle.frozen = true) (ho : oldFlights s ≠ []) (ha : 2 ≤ s.heddle.swapAge) :
    exec .deckDrainEnd s = .next (deckOverrun (s.now - s.heddle.swapClock) s) := by
  rw [exec, execDeckDrainEnd, hf, if_neg (by decide), if_neg (by rw [List.isEmpty_iff]; exact ho), if_pos ha]

theorem deckOverrun_gen (clocks : Nat) : (deckOverrun clocks s).heddle.gen = s.heddle.gen := by
  have hh : (oldDropped s).heddle = (deckReleased s).heddle := ((framesGone_kept _).heddle_eq rfl).trans (countBy_heddle ..)
  have he := ((overrunEv_kept' (s := oldDropped s) 10 0x0A clocks).heddle_eq rfl).trans hh
  have hd : deckOverrun clocks s = overrunEv (oldDropped s) 10 0x0A clocks := rfl
  rw [hd, he]
  rfl

theorem oldFlights_deckOverrun (hs : s.inv) (clocks : Nat) : oldFlights (deckOverrun clocks s) = [] := by
  obtain ⟨-, hf, -⟩ := deckOverrun_drops (clocks := clocks) hs
  rw [oldFlights, hf, deckOverrun_gen, List.filter_filter, List.filter_eq_nil_iff]
  intro x _
  simp

end

/-- Settles O28: a ready command is applied to `State.cmdTaken` (`cmdRow_ready`), whose Heddle is that of the state. -/
theorem decksLoadAndSwap : Obligations.DecksLoadAndSwap := by
  unfold Obligations.DecksLoadAndSwap
  refine ⟨fun s d h hd hf ha hl => ?_, fun s recs bad r i h => ?_, fun s d k h hd ha hu hr => ?_, fun s d h hd hb => ?_,
    fun s d h hd hf hl hv => ?_, fun s => ?_, fun s hf ho ha => ?_, fun s hs hf ho ha => ?_⟩
  · have hx : (s.cmdTaken d).heddle = s.heddle := cmdTaken_heddle d
    have hbody := cmdDeckLoad_takes (s := s.cmdTaken d) (d := d) ((cmdTaken_domOn d 10).trans hd) (by rw [hx, hf]) (by rw [hx, ha]) (by rw [hx, hl])
    rw [hx] at hbody
    exact congrArg Host.Outcome.next (cmdRow_work h hbody (cmdTaken_point d))
  · obtain ⟨st, det, he⟩ := exec_deckLoadDone (recs := recs) (bad := bad) h
    have hk : (workEnd (deckLoaded s recs) r i st det).heddle = (deckLoaded s recs).heddle := (workEnd_kept (.refl _ _) (.refl _)).heddle_eq rfl
    obtain ⟨h1, h2, h3⟩ := deckLoaded_decks (s := s) recs
    exact ⟨_, he, by rw [hk]; exact h1, (activeDeck_congr hk).trans h2, (standbyDeck_congr hk).trans h3⟩
  · have hx : (s.cmdTaken d).heddle = s.heddle := cmdTaken_heddle d
    have hbody := cmdRuleWrite_acts (s := s.cmdTaken d) (d := d) ((cmdTaken_domOn d 10).trans hd) (by rw [hx, ha]) (by rw [hx, hu])
      (by rw [activeDeck_congr hx, hr])
    obtain ⟨h1, h2⟩ := setActive_decks (s := s.cmdTaken d) (k := k)
    refine ⟨_, congrArg Host.Outcome.next (cmdRow_fin h hbody), ?_, ?_, h1, h2.trans (standbyDeck_congr hx)⟩
    · rw [setActive]
      split <;> rfl
    · rw [setActive, setActive, hx]
      split <;> rfl
  · have hx : (s.cmdTaken d).heddle = s.heddle := cmdTaken_heddle d
    exact congrArg Host.Outcome.next (cmdRow_fin h (cmdRuleWrite_busy ((cmdTaken_domOn d 10).trans hd) (by rwa [hx])))
  · have hx : (s.cmdTaken d).heddle = s.heddle := cmdTaken_heddle d
    have hbody := cmdDeckSwap_asks (s := s.cmdTaken d) (d := d) ((cmdTaken_domOn d 10).trans hd) (by rw [hx, hf]) (by rw [hx, hl])
      (by rw [standbyDeck_congr hx, hv])
    rw [hx] at hbody
    exact congrArg Host.Outcome.next (cmdRow_fin h hbody)
  · have hh := deckSwap_heddle (s := s)
    refine ⟨?_, ?_, by rw [hh], by rw [hh]⟩
    · rw [activeDeck, hh, standbyDeck]
      cases s.heddle.activeB <;> rfl
    · rw [standbyDeck, hh, activeDeck]
      cases s.heddle.activeB <;> rfl
  · rw [exec, execDeckDrainEnd, hf, if_neg (by decide), ho, if_pos List.isEmpty_nil, if_pos ha]
    rfl
  · obtain ⟨h1, -, h3, h4⟩ := deckOverrun_drops (clocks := s.now - s.heddle.swapClock) hs
    exact ⟨_, exec_deckDrainEnd_over hf ho ha, h1, oldFlights_deckOverrun hs _, h3, h4⟩

end Sys2Proof.Machine
end

