-- ==== Sys2Proof/Proofs/HeddlePasses.lean ====
section
/-! SUPPORT. Proofs/HeddlePasses.lean: the counters from a key on, and a frame's pass through Heddle (R165 to R167, R171 to R181). -/

namespace Sys2Proof.Machine

open Sys2Proof

/-! ## Counters from a key on -/

/-- Every counter whose key lies below `key` reads as before. -/
def CntsFrom (key : Nat) (s t : State) : Prop := s.inv → t.inv ∧ ∀ k, k < key → sget 0 t.cnt k = sget 0 s.cnt k

section
variable {s t u : State} {key : Nat}

theorem CntsFrom.refl (key : Nat) (s : State) : CntsFrom key s s := fun h => ⟨h, fun _ _ => rfl⟩

theorem CntsFrom.trans (h : CntsFrom key s t) (h' : CntsFrom key t u) : CntsFrom key s u := fun hs => by
  obtain ⟨ht, h1⟩ := h hs
  obtain ⟨hu, h2⟩ := h' ht
  exact ⟨hu, fun k hk => (h2 k hk).trans (h1 k hk)⟩

theorem CntsFrom.of_kept {n : Nat} (h : Kept n s t) (hn : n.testBit 4 = false) : CntsFrom key s t :=
  fun hs => ⟨h.inv hs, fun k _ => by rw [h.cnt_eq hn]⟩

/-- Groups of which no counter's key lies below. -/
theorem CntsFrom.of_cnts {gs : List Nat} (h : CntsIn gs s t) (hg : ∀ g ∈ gs, key ≤ g * 0x100000) : CntsFrom key s t := fun hs =>
  ⟨h.inv hs, fun k hk => (h hs).2 k fun hm => by have := hg _ hm; omega⟩

theorem CntsFrom.inv (h : CntsFrom key s t) (hs : s.inv) : t.inv := (h hs).1

theorem CntsFrom.cntVal (h : CntsFrom key s t) (hs : s.inv) {g n : Nat} (hk : cntKey g n < key) : cntVal t g n = cntVal s g n :=
  (h hs).2 _ hk

theorem cntsFrom_countBy {g n : Nat} (h : key ≤ cntKey g n) (k : Nat) : CntsFrom key s (countBy s g n k) := fun hs => by
  refine ⟨countBy_inv hs g n k, fun i hi => ?_⟩
  have hne : cntKey g n ≠ i := by omega
  unfold countBy countKey
  dsimp only
  split
  · exact sget_sput_other _ _ (inv_cnt hs) hne _
  · change sget 0 (sput 0 s.cnt (cntKey g n) cntMax) i = _
    exact sget_sput_other _ _ (inv_cnt hs) hne _

theorem cntsFrom_count {g n : Nat} (h : key ≤ cntKey g n) : CntsFrom key s (count s g n) := cntsFrom_countBy h 1

end

/-! ## What a pass counts -/

/-- Beyond the admitted frames (counter 4.0). -/
def passKey : Nat := cntKey 4 1

section
variable {s t u : State} {x y : Flight} {f : Frame} {r : Resolved} {d : Deck} {same : Bool} {q k n key : Nat}

theorem passKey_le {g n : Nat} (h : 5 ≤ g ∨ (4 ≤ g ∧ 1 ≤ n)) : passKey ≤ cntKey g n := by
  unfold passKey cntKey
  omega

theorem count_pass {g n : Nat} (h : 5 ≤ g ∨ (4 ≤ g ∧ 1 ≤ n)) : CntsFrom passKey s (count s g n) := cntsFrom_count (passKey_le h)

theorem setFlow_pass (x : FlowStore) : CntsFrom key s (setFlow s x) := fun hs => ⟨hs, fun _ _ => rfl⟩

theorem frameGone_pass (f : Frame) : CntsFrom passKey s (frameGone s f) :=
  .of_cnts (gs := [9, 14, 17]) (frameGone_cnts (by decide) (by decide) (by decide) f) (by decide)

theorem allocFrom_pass (n : Nat) (b : Buf) (len k : Nat) : CntsFrom passKey s (allocFrom n s b len k).2 := by
  induction n generalizing s k with
  | zero => exact count_pass (.inl (by decide))
  | succ n ih =>
    unfold allocFrom
    dsimp only
    split
    · exact ih k.succ
    split
    · exact count_pass (.inl (by decide))
    split
    · have h0 : CntsFrom passKey s (popFree s b k).2 := .of_kept (keptP_of (popFree_kept (.refl _ s) (.refl _)) rfl) rfl
      exact (h0.trans (count_pass (.inl (by decide)))).trans (count_pass (.inl (by decide)))
    · refine CntsFrom.trans ?_ (ih _)
      have h0 : CntsFrom passKey s (count s 9 (12 + 2 * k)) := count_pass (.inl (by decide))
      split
      · exact h0.trans (count_pass (.inl (by decide)))
      · exact h0

theorem spoolAlloc_pass (b : Buf) (port len : Nat) : CntsFrom passKey s (spoolAlloc s same port b len).2 := by
  rw [spoolAlloc]
  generalize (if same && portNext s port then { s.spool with clockPorts := s.spool.clockPorts ++ [port] }
    else { s.spool with clockBufs := s.spool.bufs, clockPorts := [port], rr := rrNext s }) = sp
  have hsp : CntsFrom passKey s { s with spool := sp } := fun hs => ⟨hs, fun _ _ => rfl⟩
  generalize ({ s with spool := sp } : State) = v at hsp ⊢
  split
  · exact hsp.trans (allocFrom_pass _ _ _ _)
  · split
    · exact hsp.trans (count_pass (.inl (by decide)))
    · exact hsp

theorem rxDeliver_pass {r : Nat} {kind : RxKind} (h : rxDeliver s r f kind = some t) : CntsFrom passKey s t := by
  rw [rxDeliver] at h
  dsimp only at h
  split at h
  · split at h
    · cases h
    · next bs _ =>
      cases h
      have h0 : CntsFrom passKey s (rxFill (setRing s r { ringAt s r with posted := (ringAt s r).posted.drop bs.length }) bs f.data) :=
        .of_kept (rxFill_kept (setRing_kept (.refl 8320 s) (.of (.refl _) rfl)) (.of (.refl _) rfl)) rfl
      exact h0.trans (.of_cnts (gs := [14]) (post_cnts (by decide) _ _) (by decide))
  · cases h

theorem spoolFree_pass (b o : Nat) : CntsFrom passKey s (spoolFree s b o) :=
  .of_cnts (gs := [9, 17]) (spoolFree_cnts (by decide) (by decide) _ _) (by decide)

theorem copyOut_pass {ring : Nat} {kind : RxKind} (hn : 1 ≤ n) : CntsFrom passKey s (copyOut s same ring n f kind) := by
  have ha := spoolAlloc_pass (s := s) (same := same) (bufOf s 50 f) 2 (frameLen f)
  rw [copyOut]
  generalize spoolAlloc s same 2 (bufOf s 50 f) (frameLen f) = al at ha ⊢
  obtain ⟨_ | h, v⟩ := al
  · exact ha.trans (count_pass (.inr (by decide)))
  · dsimp only at ha ⊢
    split
    next w hw => exact ((ha.trans (rxDeliver_pass hw)).trans (count_pass (.inr ⟨by decide, hn⟩))).trans (spoolFree_pass _ _)
    next => exact (ha.trans (count_pass (.inr (by decide)))).trans (spoolFree_pass _ _)

theorem mirrorOut_pass : CntsFrom passKey s (mirrorOut s same x).2.2 := by
  rw [mirrorOut]
  split
  · exact (copyOut_pass (by decide)).trans (.of_kept (draw_kept (.refl 64 _) (.refl _)) rfl)
  · exact .refl _ s

theorem qCnt_pass (q k n : Nat) : CntsFrom passKey s (qCnt s q k n) := cntsFrom_countBy (passKey_le (.inl (by decide))) n

theorem queueDrop_pass (q n : Nat) : CntsFrom passKey s (queueDrop s q n f) :=
  (((count_pass (.inl (by decide))).trans (qCnt_pass _ _ _)).trans (qCnt_pass _ _ _)).trans (frameGone_pass _)

theorem qHwm_pass (q k v : Nat) : CntsFrom passKey s (qHwm s q k v) := fun hs =>
  ⟨(qHwm_kept (.refl 16 s) (.refl _)).inv hs, fun i hi =>
    sget_sput_other _ _ (inv_cnt hs) (by have := passKey_le (g := 6) (n := 12 + 8 * q + k) (.inl (by decide)); omega) _⟩

theorem reedEnqueue_pass {colour port : Nat} {b : Buf} : CntsFrom passKey s (reedEnqueue s f q colour same port b) := by
  have ha := spoolAlloc_pass (s := s) (same := same) b port (frameLen f)
  rw [reedEnqueue]
  split
  · exact queueDrop_pass _ _
  split
  · exact queueDrop_pass _ _
  split
  · exact queueDrop_pass _ _
  extract_lets k others
  split
  · exact queueDrop_pass _ _
  have hset : ∀ (w : State) (z : Queue), CntsFrom passKey w (setQueue w q z) := fun w z =>
    .of_kept (setQueue_kept (.refl _ w) (.refl _)) rfl
  have hhead : ∀ (w : State) (b : Bool) (st : Nat), CntsFrom passKey w (if b then newHead w q st else w) := fun w b st => by
    split
    · exact .of_kept (newHead_kept (.refl _ w) (.refl _)) rfl
    · exact .refl _ w
  have hbar : ∀ (w : State) (b : Bool), CntsFrom passKey w (if b then count w 6 8 else w) := fun w b => by
    split
    · exact count_pass (.inl (by decide))
    · exact .refl _ w
  split
  next v he => rw [he] at ha; exact ha.trans (queueDrop_pass _ _)
  next h v he =>
  rw [he] at ha
  refine CntsFrom.trans ?_ (qHwm_pass _ _ _)
  refine CntsFrom.trans ?_ (hbar _ _)
  refine CntsFrom.trans (CntsFrom.trans (CntsFrom.trans ?_ (count_pass (.inl (by decide)))) (qCnt_pass _ _ _)) (qCnt_pass _ _ _)
  exact (ha.trans (hset _ _)).trans (hhead _ _ _)

theorem leave_pass : CntsFrom passKey s (leave s same x) := by
  rw [leave]
  split
  · exact (CntsFrom.of_cnts (gs := [14]) (sendHanded_cnts (by decide) _) (by decide)).trans reedEnqueue_pass
  · exact (copyOut_pass (by decide)).trans (frameGone_pass _)
  · exact (count_pass (.inr (by decide))).trans (frameGone_pass _)

theorem macCount_from (hk : key ≤ 0xB00000) (p n : Nat) : CntsFrom key s (macCount s p n) :=
  cntsFrom_count (by unfold cntKey; omega)

theorem emitPause_from (hk : key ≤ 0xB00000) (p : Nat) (due : List (Nat × Nat)) : CntsFrom key s (emitPause s p due) := by
  have hout : ∀ o, CntsFrom key s (emit s o) := fun o hs => ⟨hs, fun _ _ => rfl⟩
  rw [emitPause]
  split
  · exact .refl _ s
  split
  · exact (hout _).trans (macCount_from hk _ _)
  · exact (hout _).trans (macCount_from hk _ _)

theorem setMac_from (p : Nat) (x : MacU) : CntsFrom key s (setMac s p x) := .of_kept (setMac_kept (.refl _ s) (.refl _)) rfl

theorem sendPause_from (hk : key ≤ 0xB00000) (p : Nat) (due : List (Nat × Nat)) : CntsFrom key s (sendPause s p due) := by
  rw [sendPause]
  split
  · exact emitPause_from hk _ _
  · exact setMac_from _ _

theorem macScan_from (hk : key ≤ 0xB00000) (p : Nat) : CntsFrom key s (macScan s p) := by
  rw [macScan]
  dsimp only
  split
  · exact .refl _ s
  · exact CntsFrom.trans (setMac_from _ _) (sendPause_from hk _ _)

theorem laneScan_from (n : Nat) : CntsFrom key s (laneScan s n) := .of_kept (laneScan_kept (.refl _ s) (.refl _)) rfl

theorem forUpTo_from {g : Nat → State → State} (h : ∀ i u, CntsFrom key u (g i u)) (n : Nat) : CntsFrom key s (forUpTo n s g) := by
  induction n with
  | zero => exact .refl _ s
  | succ n ih => rw [forUpTo_succ]; exact ih.trans (h n _)

theorem pauseScan_from (hk : key ≤ 0xB00000) : CntsFrom key s (pauseScan s) := by
  refine (forUpTo_from (fun p u => ?_) 32).trans (forUpTo_from (fun n u => ?_) 16)
  · split
    · exact macScan_from hk p
    · exact .refl _ u
  · split
    · exact laneScan_from n
    · exact .refl _ u

theorem pauseScan_pass : CntsFrom passKey s (pauseScan s) := pauseScan_from (by decide)

theorem meter_pass (m len : Nat) : CntsFrom passKey s (meter s m len).2 := by
  have hset : ∀ (x : Reed), CntsFrom passKey s (setReed s x) := fun x hs => ⟨hs, fun _ _ => rfl⟩
  rw [meter]
  dsimp only
  refine CntsFrom.trans ?_ (count_pass (.inl (by decide)))
  split
  · split
    · exact hset _
    split
    · exact hset _
    · exact hset _
  split
  · split
    · exact hset _
    split
    · exact hset _
    · exact hset _
  · exact .refl _ s

theorem applyAction_pass : CntsFrom passKey s (applyAction s x r).2 := by
  have h0 : CntsFrom passKey s (if r.dflt then count s 4 10 else s) := by
    split
    · exact count_pass (.inr (by decide))
    · exact .refl _ s
  rw [applyAction]
  dsimp only
  generalize (if r.dflt then count s 4 10 else s) = v at h0 ⊢
  split
  · exact h0.trans (count_pass (.inr (by decide)))
  split
  · dsimp only
    split
    · exact h0.trans (meter_pass _ _)
    · exact h0
  · split
    · exact h0
    · exact h0.trans (count_pass (.inr (by decide)))
  · exact h0
  · exact h0

theorem evictLine_pass (l : FlowLine) : CntsFrom passKey s (evictLine s l) := by
  have hc : ∀ n, CntsFrom passKey s (count s 5 n) := fun n => count_pass (.inl (by decide))
  rw [evictLine]
  split
  · split
    · exact hc 14
    · dsimp only
      split
      next w hw =>
        exact (setFlow_pass _).trans ((CntsFrom.of_kept (storePlace_kept_of (.refl 2 _) hw (.refl _)) rfl).trans (setFlow_pass _))
      · exact ((setFlow_pass _).trans (count_pass (.inl (by decide)))).trans (setFlow_pass _)
  · split
    · exact .of_kept (entPut_kept (.refl _ s) (.refl _)) rfl
    · split
      · exact hc 14
      · exact .refl _ s

theorem cacheInsert_pass {l : FlowLine} (h : cacheInsert s l = some t) : CntsFrom passKey s t := by
  rw [cacheInsert] at h
  dsimp only at h
  split at h
  · cases h
    exact setFlow_pass _
  · split at h
    · cases h
    · cases h
      exact (setFlow_pass _).trans (evictLine_pass _)

theorem flowLookup_pass (key len : Nat) : CntsFrom passKey s (flowLookup s key len).2 := by
  have hc : ∀ (w : State) (n : Nat), CntsFrom passKey w (count w 5 n) := fun w n => count_pass (.inl (by decide))
  rw [flowLookup]
  dsimp only
  split
  · exact ((hc _ _).trans (hc _ _)).trans (setFlow_pass _)
  split
  · exact hc _ _
  split
  · exact (hc _ _).trans (hc _ _)
  split
  · exact ((hc _ _).trans (hc _ _)).trans (setFlow_pass _)
  · exact (hc _ _).trans (hc _ _)

theorem flowLearn_pass (key action len : Nat) : CntsFrom passKey s (flowLearn s key action len).2 := by
  have hc : ∀ (w : State) (n : Nat), CntsFrom passKey w (count w 5 n) := fun w n => count_pass (.inl (by decide))
  rw [flowLearn]
  split
  · exact (hc _ _).trans (setFlow_pass _)
  split
  · exact .refl _ s
  split
  · exact .refl _ s
  split
  · exact hc _ _
  extract_lets l
  split
  · exact hc _ _
  next w hw =>
    have h0 := (cacheInsert_pass hw).trans (hc w 5)
    dsimp only
    split
    · exact h0.trans (setFlow_pass _)
    · exact h0

theorem applyMiss_pass {learn : Bool} : CntsFrom passKey s (applyMiss s d x learn).2 := by
  unfold applyMiss
  extract_lets r
  split
  · have hl := flowLearn_pass (s := s) x.key r.action (frameLen x.frame)
    split
    next v hv => rw [hv] at hl; exact hl.trans applyAction_pass
    next v hv => rw [hv] at hl; exact hl.trans applyAction_pass
  · exact applyAction_pass

/-- A frame's exception class counts on its first pass. -/
theorem excCount_pass (o : Option Nat) (k : Nat) : CntsFrom passKey s (match o with
    | some c => if k = 1 then count s 4 (3 + c) else s
    | none => s) := by
  cases o with
  | none => exact .refl _ s
  | some c =>
    dsimp only
    split
    · exact count_pass (.inr (by omega))
    · exact .refl _ s

theorem passOf_pass : CntsFrom passKey s (passOf s x).2 := by
  have hif : ∀ (w : State) (b : Bool) (n : Nat), 1 ≤ n → CntsFrom passKey w (if b then count w 4 n else w) := fun w b n hn => by
    split
    · exact count_pass (.inr ⟨by decide, hn⟩)
    · exact .refl _ w
  unfold passOf
  extract_lets d p
  split
  extract_lets f x' exc v cont prof zero kw tern exact v1 v2 ta ea key x2
  have hv : CntsFrom passKey s v := excCount_pass exc _
  split
  · exact hv.trans applyAction_pass
  split
  · refine CntsFrom.trans ?_ applyAction_pass
    split
    · exact hv
    · exact hv.trans (count_pass (.inr (by decide)))
  · have h2 : CntsFrom passKey s v2 := (hv.trans (hif v tern.isSome 8 (by decide))).trans (hif _ exact.isSome 9 (by decide))
    split
    · have hl := flowLookup_pass (s := v2) key (frameLen f)
      split
      next w hw => rw [hw] at hl; exact (h2.trans hl).trans applyAction_pass
      next w hw => rw [hw] at hl; exact h2.trans hl
      next w hw => rw [hw] at hl; exact (h2.trans hl).trans applyMiss_pass
    · exact h2.trans applyMiss_pass

/-! ## A frame keeps its source and its deck -/

/-- The same source, and the same stamp of generation and deck. -/
def SameSource (f g : Frame) : Prop := g.srcType = f.srcType ∧ g.srcId = f.srcId ∧ g.gen = f.gen ∧ g.deckB = f.deckB

theorem SameSource.refl (f : Frame) : SameSource f f := ⟨rfl, rfl, rfl, rfl⟩

theorem SameSource.srcKey_eq {f g : Frame} (h : SameSource f g) : srcKey g = srcKey f := by
  obtain ⟨h1, h2, -, -⟩ := h
  rw [srcKey, h1, h2, ← srcKey]

theorem applyAction_source : SameSource x.frame (applyAction s x r).1.frame := by
  rw [applyAction]
  dsimp only
  split
  · exact .refl _
  split
  · exact ⟨rfl, rfl, rfl, rfl⟩
  · split
    · exact .refl _
    · exact .refl _
  · exact .refl _
  · exact .refl _

theorem applyMiss_source {learn : Bool} : SameSource x.frame (applyMiss s d x learn).1.frame := by
  unfold applyMiss
  extract_lets r
  split
  · split
    · exact applyAction_source
    · exact applyAction_source
  · exact applyAction_source

theorem passOf_source : SameSource x.frame (passOf s x).1.frame := by
  unfold passOf
  extract_lets d p
  split
  extract_lets f x' exc v cont prof zero kw tern exact v1 v2 ta ea key x2
  have hm : ∀ (w : State) (b : Bool), SameSource x.frame (applyMiss w d x2 b).1.frame := fun w b => applyMiss_source (s := w) (x := x2)
  split
  · exact applyAction_source (x := x')
  split
  · exact applyAction_source (x := { x' with noProf := true })
  · split
    · split
      · exact applyAction_source (x := x2)
      · exact ⟨rfl, rfl, rfl, rfl⟩
      · exact hm _ _
    · exact hm _ _

theorem mirrorOut_flight : (mirrorOut s same x).2.1.frame = x.frame := by
  rw [mirrorOut]
  split <;> rfl

/-! ## The pass of the only waiting frame (R165 to R167) -/

/-- The flight of a frame that is admitted in `s`, and the state with it. -/
def admittedFlight (s : State) (f : Frame) : Flight :=
  { frame := { f with gen := s.heddle.gen, deckB := s.heddle.activeB }, seq := s.heddle.admitted, passes := 0, tag := 0, verdict := .again, pipe := 0 }

def admittedState (s : State) (k : Nat) (f : Frame) (rest : List Frame) : State :=
  setHeddle s { s.heddle with
    fifos := sput [] s.heddle.fifos k rest, flights := s.heddle.flights ++ [admittedFlight s f], admitted := s.heddle.admitted + 1, rr := k
    lastHost := if k = 1536 then some s.now else s.heddle.lastHost }

theorem arbiterPick_only {rest : List Frame} (hfl : s.heddle.flights = []) (hff : s.heddle.fifos = [(k, f :: rest)]) (hk : k ≠ 1536) :
    arbiterPick s = some (admittedFlight s f, admittedState s k f rest) := by
  have hks : ∀ (p : Nat → Bool), p k = true → ((s.heddle.fifos.map (·.1)).filter p) = [k] := fun p hp => by
    rw [hff]
    simp [hp]
  have hhead : (([k].filter (fun i => decide (s.heddle.rr < i))) ++ ([k].filter (fun i => decide (i ≤ s.heddle.rr)))).head? = some k := by
    by_cases hlt : s.heddle.rr < k
    · simp [hlt]
    · simp [hlt, Nat.not_lt.1 hlt]
  have hfifo : fifoAt s k = f :: rest := by
    rw [fifoAt, hff]
    simp [sget]
  rw [arbiterPick, hfl]
  dsimp only [List.find?_nil]
  rw [hks _ (by simp [hk]), hhead]
  dsimp only
  rw [hfifo]
  rfl

/-- The state in which the pass has resolved the flight, or left it to wait. -/
theorem pass_leaves {z : State} (hz : z.heddle.flights = [x]) (hx : SameSource x.frame y.frame) :
    oldestOf (putFlight z x y) (srcKey x.frame) = some y ∧
      ((if oldestOf (putFlight z x y) (srcKey x.frame) == some y then releaseOne (putFlight z x y) same (srcKey x.frame)
        else putFlight z x y).heddle = { z.heddle with flights := if resolved y then [] else [y] }) ∧
      CntsFrom passKey z (if oldestOf (putFlight z x y) (srcKey x.frame) == some y then
        releaseOne (putFlight z x y) same (srcKey x.frame) else putFlight z x y) := by
  have hput : (putFlight z x y).heddle = { z.heddle with flights := [y] } := by
    rw [putFlight, hz]
    simp [setHeddle]
  have hc0 : CntsFrom passKey z (putFlight z x y) := fun hs => ⟨hs, fun _ _ => rfl⟩
  have hold : oldestOf (putFlight z x y) (srcKey x.frame) = some y := by
    rw [oldestOf, hput]
    simp [hx.srcKey_eq]
  generalize putFlight z x y = v at hput hc0 hold ⊢
  refine ⟨hold, ?_⟩
  rw [hold, if_pos (by simp), releaseOne, hold]
  dsimp only
  cases hr : resolved y with
  | false => exact ⟨hput, hc0⟩
  | true =>
    have hd : (dropFlight v y).heddle = { z.heddle with flights := [] } := by
      rw [dropFlight, hput]
      simp [setHeddle]
    have hcd : CntsFrom passKey v (dropFlight v y) := fun hs => ⟨hs, fun _ _ => rfl⟩
    rw [if_pos rfl, if_pos rfl]
    exact ⟨((leave_kept (.refl _ _) (.refl _)).heddle_eq rfl).trans hd, (hc0.trans hcd).trans leave_pass⟩

/-- The pass of flight `x` of source `k` on a pipeline, and what it leads to. -/
def passEnds (s : State) (x : Flight) (pipe : Nat) (same : Bool) (k : Nat) : State :=
  let (y, s) := passOf s { x with passes := x.passes + 1, pipe := pipe }
  let (same, y, s) := mirrorOut s same y
  let s := putFlight s x y
  pauseScan (if oldestOf s k == some y then releaseOne s same k else s)

theorem passEnds_leaves {pipe : Nat} (hz : s.heddle.flights = [x]) (hk : srcKey x.frame = k) :
    ∃ y, SameSource x.frame y.frame ∧ (passEnds s x pipe same k).heddle = { s.heddle with flights := if resolved y then [] else [y] } ∧
      CntsFrom passKey s (passEnds s x pipe same k) := by
  have hp : CntsFrom passKey s (passOf s { x with passes := x.passes + 1, pipe := pipe }).2 := passOf_pass
  have hf : SameSource x.frame (passOf s { x with passes := x.passes + 1, pipe := pipe }).1.frame :=
    passOf_source (x := { x with passes := x.passes + 1, pipe := pipe })
  rw [passEnds]
  split
  next y0 v hv =>
  rw [hv] at hp hf
  have hm : CntsFrom passKey v (mirrorOut v same y0).2.2 := mirrorOut_pass
  have hfm : (mirrorOut v same y0).2.1.frame = y0.frame := mirrorOut_flight
  split
  next same' y w hw =>
  rw [hw] at hm hfm
  have hh : w.heddle = s.heddle :=
    ((mirrorOut_kept_of (.refl _ _) hw (.refl _)).heddle_eq rfl).trans ((passOf_kept_of (.refl _ _) hv (.refl _)).heddle_eq rfl)
  have hsame : SameSource x.frame y.frame := hfm ▸ hf
  obtain ⟨-, hl, hc⟩ := pass_leaves (same := same') (hh ▸ hz) hsame
  rw [hk] at hl hc
  refine ⟨y, hsame, ?_, ((hp.trans hm).trans hc).trans pauseScan_pass⟩
  rw [← hh, ← hl]
  exact (pauseScan_kept (.refl _ _) (.refl _)).heddle_eq rfl

theorem heddlePass_only {rest : List Frame} {p : Bool} (hs : s.inv) (hon : heddleOn s = true) (hfl : s.heddle.flights = [])
    (hff : s.heddle.fifos = [(k, f :: rest)]) (hk : k ≠ 1536) (hsrc : srcKey f = k) :
    ∃ t y, exec (.heddlePass p same) s = .next t ∧ SameSource (admittedFlight s f).frame y.frame ∧
      t.heddle = { (admittedState s k f rest).heddle with flights := if resolved y then [] else [y] } ∧
      cntVal t 4 0 = min cntMax (cntVal s 4 0 + 1) := by
  have hadm : (admittedState s k f rest).inv := hs
  have hu : (count (admittedState s k f rest) 4 0).inv := count_inv hadm 4 0
  have hflights : (admittedState s k f rest).heddle.flights = [admittedFlight s f] := by
    change s.heddle.flights ++ [admittedFlight s f] = [admittedFlight s f]
    rw [hfl, List.nil_append]
  have hkey : srcKey (admittedFlight s f).frame = k := hsrc
  have hexec : exec (.heddlePass p same) s = .next (passEnds (count (admittedState s k f rest) 4 0) (admittedFlight s f)
      (if !pipeOk (admittedState s k f rest) 0 || (p && pipeOk (admittedState s k f rest) 1) then 1 else 0) same k) := by
    rw [exec, execHeddlePass, hon, if_neg (by decide), arbiterPick_only hfl hff hk]
    dsimp only
    rw [hkey, if_neg hk]
    rfl
  generalize (if !pipeOk (admittedState s k f rest) 0 || (p && pipeOk (admittedState s k f rest) 1) then 1 else 0) = pipe at hexec
  have hh : (count (admittedState s k f rest) 4 0).heddle = (admittedState s k f rest).heddle := count_heddle ..
  obtain ⟨y, hsame, hheddle, hc⟩ := passEnds_leaves (s := count (admittedState s k f rest) 4 0) (pipe := pipe) (same := same)
    (hh ▸ hflights) hkey
  refine ⟨_, y, hexec, hsame, hheddle.trans (by rw [hh]), (hc.cntVal hu (by decide)).trans (cntVal_countBy_same hadm 4 0 1)⟩

end

/-- Settles O29: the pass of the only waiting frame (`heddlePass_only`); a release takes the oldest flight of the source. -/
theorem framesPassHeddleInOrder : Obligations.FramesPassHeddleInOrder := by
  unfold Obligations.FramesPassHeddleInOrder
  refine ⟨fun s k f rest p same hs hon hfl hff hk hsrc => ?_, fun s k x same hd ho => ⟨fun hv => ?_, fun hr => ?_⟩⟩
  · obtain ⟨t, y, he, ⟨-, -, hgen, hdeck⟩, hh, hc⟩ := heddlePass_only (p := p) (same := same) hs hon hfl hff hk hsrc
    have hmem : ∀ x ∈ t.heddle.flights, resolved y = false ∧ x = y := fun x hx => by
      rw [hh] at hx
      dsimp only at hx
      split at hx
      · cases hx
      · exact ⟨Bool.eq_false_of_not_eq_true ‹_›, List.mem_singleton.1 hx⟩
    refine ⟨t, he, ?_, ?_, ?_, ?_, fun x hx => ?_, hc, ?_, ?_⟩
    · rw [hh, ← hff]
      rfl
    · rw [hh]
      rfl
    · rw [hh]
      rfl
    · rw [hh]
      dsimp only
      split <;> simp
    · obtain ⟨hr, rfl⟩ := hmem x hx
      exact ⟨hr, hgen, hdeck⟩
    · rw [hh]
      rfl
    · rw [hh]
      rfl
  · have hr : resolved x = true := by rw [resolved, hv]
    rw [exec, execHeddleReorderRelease, hd, if_pos rfl, releaseOne, ho]
    dsimp only
    rw [hr, if_pos rfl, leave, hv]
  · rw [exec, execHeddleReorderRelease, hd, if_pos rfl, releaseOne, ho]
    dsimp only
    rw [hr, if_neg Bool.false_ne_true]

end Sys2Proof.Machine
end

