-- ==== Sys2Proof/Proofs/FlowStores.lean ====
section
/-! SUPPORT. Proofs/FlowStores.lean: the answer of a flow miss, the placement of a queued entry and the aging of one (R195 to R201). -/

namespace Sys2Proof.Machine

open Sys2Proof

section
variable {s t u : State} {key n b j slot : Nat} {l l' : FlowLine} {rest : List Nat}

/-! ## The answer of a miss without waiting frames (R195, R196, R205) -/

/-- The key leaves the miss queue. -/
def missTaken (s : State) (key : Nat) : State := setFlow s { s.flow with missQ := s.flow.missQ.erase key }

/-- A poisoned read is reported. -/
def missPoisoned (s : State) : State := raiseRoot (draw s).2 0x0D 0x012 ((draw s).1 % 2 ^ 32) 0x0E 0x011

theorem exec_miss_poisoned (hf : s.heddle.flights = []) (hq : s.flow.missQ[n]? = some key) :
    exec (.flowMissResolve n true) s = .next (pauseScan (missPoisoned (missTaken s key))) := by
  rw [exec, execFlowMissResolve, hq, hf]
  dsimp only
  change Host.Outcome.next (pauseScan (match cacheFind (missPoisoned (missTaken s key)) key with
    | some l => resolveWaiting key (some l.action) true [] (missPoisoned (missTaken s key))
    | none => _)) = _
  split
  · rfl
  · split
    next h => simp at h
    next => rfl

theorem exec_miss_absent (hf : s.heddle.flights = []) (hq : s.flow.missQ[n]? = some key)
    (hl : storeLookup (missTaken s key) key = none) : exec (.flowMissResolve n false) s = .next (pauseScan (missTaken s key)) := by
  rw [missTaken] at hl
  rw [exec, execFlowMissResolve, hq, hf]
  dsimp only
  rw [if_neg Bool.false_ne_true, hl]
  split
  · rfl
  · split
    next h =>
      split at h <;> cases h
    next => rfl

theorem exec_miss_found {b : Bool} (hf : s.heddle.flights = []) (hq : s.flow.missQ[n]? = some key) (hon : flowOn s = true)
    (hc : cacheFind s key = none) (hl : storeLookup (missTaken s key) key = some (b, j))
    (hroom : (s.flow.cache.filter (fun x => cacheSet s x.key == cacheSet s (entGet s b j).key)).length < 8) :
    exec (.flowMissResolve n false) s = .next (pauseScan (count (setFlow (missTaken s key)
      { (missTaken s key).flow with cache := entLine (entGet s b j) :: s.flow.cache }) 5 3)) := by
  have hins : cacheInsert (missTaken s key) (entLine (entGet s b j)) =
      some (setFlow (missTaken s key) { (missTaken s key).flow with cache := entLine (entGet s b j) :: s.flow.cache }) := if_pos hroom
  have hget : entGet (missTaken s key) b j = entGet s b j := rfl
  have hc' : cacheFind (missTaken s key) key = none := hc
  have hon' : flowOn (missTaken s key) = true := hon
  rw [exec, execFlowMissResolve, hq, hf]
  dsimp only
  rw [if_neg Bool.false_ne_true, ← missTaken, hc', hon', hl]
  rw [if_pos (by decide)]
  dsimp only
  rw [hget, hins]
  rfl

/-! ## Placement (R198, R200) -/

/-- The key leaves the placement queue. -/
def placeTaken (s : State) (rest : List Nat) : State := setFlow s { s.flow with placeQ := rest }

theorem finishInserts_none (h : s.flow.inserts = []) (key : Nat) : finishInserts s key = s := by
  rw [finishInserts, h]
  dsimp only [List.filter_nil, List.foldl_nil, setFlow]
  rw [← h]

/-- The line of the key is placed. -/
def placedLine (l : FlowLine) : FlowLine := { l with placing := false, stash := false }

theorem exec_placement (hd : domOn s 12 = true) (hr : storeReads s = true) (hq : s.flow.placeQ = key :: rest)
    (hc : cacheFind s key = some l) (hst : l.stash = false) (hi : s.flow.inserts = [])
    (hp : storePlace (placeTaken s rest) (placeRegion (placeTaken s rest)).1 (placeRegion (placeTaken s rest)).2 (lineEnt l) = some u) :
    exec .flowPlacement s = .next (setFlow u { s.flow with
      placeQ := rest, cache := s.flow.cache.map (fun x => if x == l then placedLine l else x), occ := s.flow.occ + 1 }) := by
  have hc' : cacheFind (placeTaken s rest) key = some l := hc
  have hu : u.flow = (placeTaken s rest).flow := (storePlace_kept_of (.refl 2 _) hp (.refl _)).flow_eq rfl
  rw [exec, execFlowPlacement, hq]
  dsimp only
  rw [hd, hr, if_neg (by decide), ← placeTaken, hc']
  dsimp only
  rw [hst, hp]
  dsimp only
  rw [if_neg Bool.false_ne_true, cachePut, hu]
  refine congrArg Host.Outcome.next ((finishInserts_none ?_ key).trans ?_)
  · exact hi
  · rfl

theorem exec_placement_none (hd : domOn s 12 = true) (hr : storeReads s = true) (hq : s.flow.placeQ = key :: rest)
    (hc : cacheFind s key = some l) (hst : l.stash = false)
    (hp : storePlace (placeTaken s rest) (placeRegion (placeTaken s rest)).1 (placeRegion (placeTaken s rest)).2 (lineEnt l) = none) :
    exec .flowPlacement s = .next (setFlow (count (placeTaken s rest) 5 7) { s.flow with
      placeQ := rest, cache := s.flow.cache.erase l, failRep := s.flow.failRep + 1 }) := by
  have hc' : cacheFind (placeTaken s rest) key = some l := hc
  rw [exec, execFlowPlacement, hq]
  dsimp only
  rw [hd, hr, if_neg (by decide), ← placeTaken, hc']
  dsimp only
  rw [hst, hp]
  rfl

/-- The first line of a key keeps its place when it takes another form. -/
theorem find_map_line {c : List FlowLine} (hk : l'.key = l.key) (h : c.find? (fun x => x.key == key) = some l) :
    (c.map (fun x => if x == l then l' else x)).find? (fun x => x.key == key) = some l' := by
  induction c with
  | nil => cases h
  | cons y c ih =>
    rw [List.find?_cons] at h
    rw [List.map_cons, List.find?_cons]
    cases hy : y.key == key with
    | true =>
      rw [hy] at h
      cases h
      rw [if_pos (by simp)]
      rw [beq_iff_eq] at hy
      rw [hk, hy]
      simp
    | false =>
      rw [hy] at h
      have hne : y ≠ l := fun he => by
        have := List.find?_some h
        rw [he, this] at hy
        cases hy
      rw [if_neg (by simpa using hne), hy]
      exact ih h

/-! ## Aging (R201) -/

theorem notifyPair_cnts {gs : List Nat} (h : 14 ∈ gs) (c sub pay : Nat) (e : Completion) : CntsIn gs s (notifyPair s c sub pay e) := by
  rw [notifyPair]
  split
  · exact notifyDrop_cnts h _ _
  split
  · exact (cqWrite_cnts h _ _).trans (cqWrite_cnts h _ _)
  · exact notifyDrop_cnts h _ _

theorem agedNotify_cnts (key : Nat) : CntsIn [14] s (agedNotify s key) := by
  rw [agedNotify]
  split
  · exact notifyPair_cnts (by decide) _ _ _ _
  · exact .refl _ s

/-- The entry of a slot has left cache and store. -/
def agedOut (s : State) (slot : Nat) : State :=
  setFlow (storeRemove s (flowRegion s) (flowSeed s) slot) { s.flow with
    cache := s.flow.cache.filter (fun l => l.key != (entGet s (flowRegion s) slot).key), occ := s.flow.occ - 1 }

theorem agedOut_kept (slot : Nat) : Kept 65538 s (agedOut s slot) :=
  setFlow_kept (storeRemove_kept (.refl 65538 s) (.of (.refl _) rfl)) (.of (.refl _) rfl)

theorem exec_ageOut (hon : flowOn s = true) (hv : s.flow.st = .valid) (hslot : slot < flowSlots)
    (he : entValid (entGet s (flowRegion s) slot) = true)
    (hst : ((cacheFind s (entGet s (flowRegion s) slot).key).map (·.static)).getD (entStatic (entGet s (flowRegion s) slot)) = false)
    (hage : isAged s (((cacheFind s (entGet s (flowRegion s) slot).key).map (·.last)).getD (entGet s (flowRegion s) slot).last) = true) :
    exec (.flowAgeOut slot) s = .next (agedNotify (count (agedOut s slot) 5 9) (entGet s (flowRegion s) slot).key) := by
  have hflow : (storeRemove s (flowRegion s) (flowSeed s) slot).flow = s.flow := (storeRemove_kept (.refl 2 s) (.refl _)).flow_eq rfl
  rw [exec, execFlowAgeOut, hon, hv, if_neg (by decide)]
  dsimp only
  rw [he, hst, hage, if_pos (by decide), Nat.mod_eq_of_lt hslot, hflow]
  rfl

end

/-- Settles O30: the equation of each outcome (`exec_miss_poisoned` and the other two, `exec_placement`, `exec_ageOut`). -/
theorem flowStoreResolvesPlacesAges : Obligations.FlowStoreResolvesPlacesAges := by
  unfold Obligations.FlowStoreResolvesPlacesAges
  refine ⟨fun s n key hs hf hq => ⟨?_, fun _ hl => exec_miss_absent hf hq hl, fun b j hon hc hl hroom => ?_⟩,
    fun s key rest l hs hd hr hq hc hst hi => ⟨fun u hp => ?_, fun hp => ?_⟩, fun s slot hs hon hv hslot => ?_⟩
  · have hk : Kept 67109016 (missPoisoned (missTaken s key)) (pauseScan (missPoisoned (missTaken s key))) := pauseScan_kept (.refl _ _) (.refl _)
    have hr : (missPoisoned (missTaken s key)).flow = (draw (missTaken s key)).2.flow := (raiseRoot_kept (.refl _ _) (.refl _)).flow_eq rfl
    refine ⟨_, exec_miss_poisoned hf hq, (hk.flow_eq rfl).trans hr, fun hroom =>
      ⟨(draw (missTaken s key)).1 % 2 ^ 32, (congrArg Selvedge.waiting (hk.selvedge_eq rfl)).trans ?_⟩⟩
    exact arrive_waiting (s := (draw (missTaken s key)).2) _ hroom
  · have hk : ∀ v, Kept 67109016 v (pauseScan v) := fun v => pauseScan_kept (.refl _ v) (.refl _)
    have hset : ∀ y, (setFlow (missTaken s key) y).inv := fun _ => hs
    refine ⟨_, exec_miss_found hf hq hon hc hl hroom, ?_, ?_, ?_⟩
    · rw [(hk _).flow_eq rfl, count_flow]
      rfl
    · rw [(hk _).flow_eq rfl, count_flow]
      rfl
    · exact ((pauseScan_from (Nat.le_refl _)).cntVal (count_inv (hset _) 5 3) (by decide)).trans (cntVal_countBy_same (hset _) 5 3 1)
  · have hu : Kept 2 (placeTaken s rest) u := storePlace_kept_of (.refl 2 _) hp (.refl _)
    exact ⟨_, exec_placement hd hr hq hc hst hi hp, rfl, rfl, rfl, find_map_line (l' := placedLine l) rfl hc⟩
  · have hset : (placeTaken s rest).inv := hs
    refine ⟨_, exec_placement_none hd hr hq hc hst hp, ?_, rfl, ?_⟩
    · exact count_dram ..
    · exact cntVal_countBy_same hset 5 7 1
  · intro e he hst hage
    have hset : (agedOut s slot).inv := (agedOut_kept slot).inv hs
    have hcnt : cntVal (agedOut s slot) 5 9 = cntVal s 5 9 := by rw [cntVal, (agedOut_kept slot).cnt_eq rfl, ← cntVal]
    have hk : Kept 8344 (count (agedOut s slot) 5 9) (agedNotify (count (agedOut s slot) 5 9) e.key) := agedNotify_kept (.refl _ _) (.refl _)
    refine ⟨_, exec_ageOut hon hv hslot he hst hage, ?_, ?_, ?_⟩
    · exact (hk.dram_eq rfl).trans (count_dram ..)
    · exact (hk.flow_eq rfl).trans (count_flow ..)
    · rw [(agedNotify_cnts e.key).cntVal (count_inv hset 5 9) (by decide) (by decide), count, cntVal_countBy_same hset 5 9 1, hcnt]

end Sys2Proof.Machine
end

