-- ==== Sys2Proof/Proofs/FlowCommands.lean ====
section
/-! SUPPORT. Proofs/FlowCommands.lean: the FLOW commands, the end of a rehash and of a clear (R200 to R203). -/

namespace Sys2Proof.Machine

open Sys2Proof

section
variable {s t u : State} {d : CmdDesc} {key : Nat} {e : FlowEnt} {l : FlowLine}

/-! ## The state in which a FLOW command is applied -/

theorem cmdTaken_form (d : CmdDesc) : ∃ h p, s.cmdTaken d = { s with host := h, pick := p } ∧ p.point = s.pick.point := by
  rw [State.cmdTaken]
  split
  · exact ⟨_, _, rfl, rfl⟩
  · exact ⟨_, _, rfl, rfl⟩

theorem cmdTaken_flow (d : CmdDesc) : (s.cmdTaken d).flow = s.flow := (cmdTaken_kept d).flow_eq rfl

theorem flowPeek_cmdTaken (key : Nat) : flowPeek (s.cmdTaken d) key = flowPeek s key := by
  obtain ⟨h, p, he, -⟩ := cmdTaken_form (s := s) d
  rw [he]
  rfl

theorem cacheSet_cmdTaken : cacheSet (s.cmdTaken d) = cacheSet s := by
  obtain ⟨h, p, he, -⟩ := cmdTaken_form (s := s) d
  rw [he]
  rfl

theorem storeRefuses_reads (h : storeReads s = true) : storeRefuses s = false := by
  rw [storeReads, Bool.or_eq_true, beq_iff_eq, beq_iff_eq] at h
  rw [storeRefuses]
  obtain h | h := h <;> rw [h] <;> rfl

/-! ## FLOW_INSERT, FLOW_DELETE and FLOW_READ (R200) -/

/-- The stash line of a FLOW_INSERT. -/
def insertLine (e : FlowEnt) : FlowLine := ⟨e.key, e.action, entStatic e, true, e.pkts, e.oct, e.last, true, true⟩

theorem cmdFlowInsert_absent (hd : domOn s 12 = true) (hr : storeReads s = true) (hp : flowPeek s (imageEnt d).key = none)
    (hu : stashUsed s < 1024) (hroom : (s.flow.cache.filter (fun x => cacheSet s x.key == cacheSet s (imageEnt d).key)).length < 8) :
    cmdFlowInsert d s = .work (setFlow s { s.flow with
      cache := insertLine (imageEnt d) :: s.flow.cache, placeQ := s.flow.placeQ ++ [(imageEnt d).key], occ := s.flow.occ + 1
      inserts := s.flow.inserts ++ [((imageEnt d).key, d.ring, d.index, s.pick.point)] }) := by
  have hins : cacheInsert s (insertLine (imageEnt d)) = some (setFlow s { s.flow with cache := insertLine (imageEnt d) :: s.flow.cache }) :=
    if_pos hroom
  rw [insertLine] at hins
  rw [cmdFlowInsert, needDomain_on hd]
  dsimp only
  rw [storeRefuses_reads hr, if_neg Bool.false_ne_true, hp]
  dsimp only
  rw [if_neg (by omega), hins]
  rfl

theorem cmdFlowInsert_present (hd : domOn s 12 = true) (hr : storeReads s = true) (hp : (flowPeek s (imageEnt d).key).isSome = true)
    (hf : (cmdFlags d).testBit 0 = false) : cmdFlowInsert d s = .fin Status.flowExists 0 s := by
  obtain ⟨old, ho⟩ := Option.isSome_iff_exists.1 hp
  rw [cmdFlowInsert, needDomain_on hd]
  dsimp only
  rw [storeRefuses_reads hr, if_neg Bool.false_ne_true, ho]
  dsimp only
  rw [hf, if_neg Bool.false_ne_true]

theorem cmdFlowDelete_present (hd : domOn s 12 = true) (hr : storeReads s = true) (hp : (flowPeek s (imageEnt d).key).isSome = true) :
    cmdFlowDelete d s = .fin Status.done 0 (count (finishInserts (flowRemove s (imageEnt d).key) (imageEnt d).key) 5 11) := by
  have hn : ¬ (flowPeek s (imageEnt d).key).isNone = true := by rw [Option.isNone_eq_false_iff.2 hp]; decide
  rw [cmdFlowDelete, needDomain_on hd]
  dsimp only
  rw [storeRefuses_reads hr, if_neg Bool.false_ne_true, if_neg hn]

theorem cmdFlowRead_present (hd : domOn s 12 = true) (hr : storeReads s = true) (hp : flowPeek s (imageEnt d).key = some e) :
    cmdFlowRead d s = .fin Status.done 0 (dmaWrite s (cmdAddr d) (entEncode e)) := by
  rw [cmdFlowRead, needDomain_on hd]
  rw [storeRefuses_reads hr, if_neg Bool.false_ne_true, hp]

theorem length_leBytes (n v : Nat) : (leBytes n v).length = n := by
  induction n generalizing v with
  | zero => rfl
  | succ n ih => rw [leBytes, List.length_cons, ih]

theorem length_beBytes (n v : Nat) : (beBytes n v).length = n := by rw [beBytes, List.length_reverse, length_leBytes]

theorem length_entEncode : (entEncode e).length = 64 := by
  simp only [entEncode, List.length_append, length_beBytes, length_leBytes]

/-- Data of at most 128 bytes goes in one request. -/
theorem dmaWrite_short {b : List Byte} (addr : Nat) (h0 : b ≠ []) (h : b.length ≤ 128) :
    dmaWrite s addr b = emit s (.hostWrite addr b (flag s Reg.hostCtrl 1)) := by
  have hm : 128 ≤ 128 * 2 ^ s.host.pcie.mps := Nat.le_mul_of_pos_right _ (Nat.two_pow_pos _)
  have hpos : 0 < b.length := List.length_pos_of_ne_nil h0
  rw [dmaWrite]
  generalize 128 * 2 ^ s.host.pcie.mps = m at hm
  have hn : (b.length + m - 1) / m = 1 := by
    rw [show b.length + m - 1 = (b.length - 1) + m by omega, Nat.add_div_right _ (by omega), Nat.div_eq_of_lt (by omega)]
  rw [hn]
  have ht : (b.drop (0 * m)).take m = b := by rw [Nat.zero_mul, List.drop_zero, List.take_of_length_le (by omega)]
  change emit s (.hostWrite (addr + 0 * m) ((b.drop (0 * m)).take m) (flag s Reg.hostCtrl 1)) = _
  rw [ht, Nat.zero_mul, Nat.add_zero]

/-! ## FLOW_REHASH and its end (R202) -/

theorem cmdFlowRehash_begins (hd : domOn s 12 = true) (hv : s.flow.st = .valid) (hfit : regionFits s (!flowRegion s) = true) :
    cmdFlowRehash d s = .work (setFlow (clrBit s Reg.heddleFlowKeep 31) { s.flow with
      st := .rehash, newSeed := bits (cmdP0 d) 15 0, scan := 0, job := some (d.ring, d.index, s.pick.point)
      placeQ := s.flow.placeQ ++ (s.flow.cache.filter (fun l => l.stash && !s.flow.placeQ.contains l.key)).map (·.key) }) := by
  have hflow : (clrBit s Reg.heddleFlowKeep 31).flow = s.flow := setFld_flow ..
  have hpick : (clrBit s Reg.heddleFlowKeep 31).pick = s.pick := setFld_pick ..
  rw [cmdFlowRehash, needDomain_on hd]
  dsimp only
  rw [hv, hfit, if_neg (by decide), if_neg (by decide), if_neg (by decide), hflow, hpick]

/-- An evicted line changes DRAM, counters, and of the flow store the placement queue and two counts. -/
theorem evictLine_flow (l : FlowLine) : (evictLine s l).flow.cache = s.flow.cache ∧ (evictLine s l).flow.st = s.flow.st ∧
    (evictLine s l).flow.job = s.flow.job := by
  have hset : ∀ (w : State) (q : List Nat) (n k : Nat), w.flow = { s.flow with placeQ := q } →
      (setFlow w { w.flow with occ := n, failRep := k }).flow.cache = s.flow.cache ∧
      (setFlow w { w.flow with occ := n, failRep := k }).flow.st = s.flow.st ∧
      (setFlow w { w.flow with occ := n, failRep := k }).flow.job = s.flow.job := fun w q n k hw => by
    rw [setFlow, hw]
    exact ⟨rfl, rfl, rfl⟩
  have hone : ∀ w : State, w.flow = s.flow → w.flow.cache = s.flow.cache ∧ w.flow.st = s.flow.st ∧ w.flow.job = s.flow.job :=
    fun w hw => by rw [hw]; exact ⟨rfl, rfl, rfl⟩
  rw [evictLine]
  split
  · split
    · exact hone _ (count_flow ..)
    · dsimp only
      split
      next w hw =>
        have hk : w.flow = _ := (storePlace_kept_of (.refl 2 _) hw (.refl _)).flow_eq rfl
        exact hset w _ _ w.flow.failRep hk
      next => exact ⟨rfl, rfl, rfl⟩
  · split
    · exact hone _ ((entPut_kept (.refl 2 s) (.refl _)).flow_eq rfl)
    · split
      · exact hone _ (count_flow ..)
      · exact ⟨rfl, rfl, rfl⟩

/-- Regrouping only takes lines out of the cache. -/
theorem cacheRegroup_flow (c : List FlowLine) : (∀ x ∈ (cacheRegroup c s).flow.cache, x ∈ s.flow.cache) ∧
    (cacheRegroup c s).flow.st = s.flow.st ∧ (cacheRegroup c s).flow.job = s.flow.job := by
  induction c generalizing s with
  | nil => exact ⟨fun _ hx => hx, rfl, rfl⟩
  | cons l c ih =>
    rw [cacheRegroup]
    dsimp only
    split
    · obtain ⟨h1, h2, h3⟩ := ih (s := evictLine (setFlow s { s.flow with cache := s.flow.cache.erase l }) l)
      obtain ⟨e1, e2, e3⟩ := evictLine_flow (s := setFlow s { s.flow with cache := s.flow.cache.erase l }) l
      refine ⟨fun x hx => ?_, h2.trans e2, h3.trans e3⟩
      have := h1 x hx
      rw [e1] at this
      exact List.mem_of_mem_erase this
    · exact ih

/-- Where no set holds more than its ways, regrouping changes nothing. -/
theorem cacheRegroup_fits (c : List FlowLine)
    (h : ∀ l ∈ c, (s.flow.cache.filter (fun x => cacheSet s x.key == cacheSet s l.key)).length ≤ 8) : cacheRegroup c s = s := by
  induction c with
  | nil => rfl
  | cons l c ih =>
    have hl := h l List.mem_cons_self
    rw [cacheRegroup]
    dsimp only
    rw [decide_eq_false (by omega), Bool.false_and, if_neg Bool.false_ne_true]
    exact ih fun x hx => h x (List.mem_cons_of_mem _ hx)

/-- The new region and SEED are in force, and kept. -/
def rehashed (s : State) : State :=
  let v := b2n (!flowRegion s) * 2 ^ 16 + s.flow.newSeed % 2 ^ 16
  let s := setReg (setReg s Reg.heddleFlowSeed v) Reg.heddleFlowKeep (2 ^ 31 + v)
  setFlow s { s.flow with st := .valid, job := none }

theorem rehashed_reads (hs : s.inv) : flowRegion (rehashed s) = !flowRegion s ∧ flowSeed (rehashed s) = s.flow.newSeed % 2 ^ 16 ∧
    flag (rehashed s) Reg.heddleFlowKeep 31 = true := by
  have hv : b2n (!flowRegion s) * 2 ^ 16 + s.flow.newSeed % 2 ^ 16 < 2 ^ 17 := by
    have := Nat.mod_lt s.flow.newSeed (by decide : 2 ^ 16 > 0)
    cases flowRegion s <;> simp [b2n] <;> omega
  have h1 := setReg_inv hs Reg.heddleFlowSeed (b2n (!flowRegion s) * 2 ^ 16 + s.flow.newSeed % 2 ^ 16)
  have hseed : rd (rehashed s) Reg.heddleFlowSeed = b2n (!flowRegion s) * 2 ^ 16 + s.flow.newSeed % 2 ^ 16 := by
    change rd (setReg (setReg s Reg.heddleFlowSeed _) Reg.heddleFlowKeep _) Reg.heddleFlowSeed = _
    rw [rd_setReg_other h1 (by decide), rd_setReg_same hs]
    exact Nat.mod_eq_of_lt (by omega)
  have hkeep : rd (rehashed s) Reg.heddleFlowKeep = 2 ^ 31 + (b2n (!flowRegion s) * 2 ^ 16 + s.flow.newSeed % 2 ^ 16) := by
    change rd (setReg (setReg s Reg.heddleFlowSeed _) Reg.heddleFlowKeep _) Reg.heddleFlowKeep = _
    rw [rd_setReg_same h1]
    exact Nat.mod_eq_of_lt (by omega)
  refine ⟨?_, ?_, ?_⟩
  · rw [flowRegion, flag, hseed, Nat.mul_comm, Nat.testBit_two_pow_mul_add _ (Nat.mod_lt _ (by decide)), if_neg (by decide)]
    cases flowRegion s <;> rfl
  · rw [flowSeed, fld, hseed]
    change (b2n (!flowRegion s) * 2 ^ 16 + s.flow.newSeed % 2 ^ 16) >>> 0 % 2 ^ 16 = _
    rw [Nat.shiftRight_zero]
    omega
  · rw [flag, hkeep, Nat.testBit_two_pow_add_eq, Nat.testBit_lt_two_pow (by omega)]
    rfl

/-- The waiting command completes. -/
def jobEnds (s : State) (job : Option (Nat × Nat × Nat)) : State :=
  match job with
  | some (r, i, _) => workEnd s r i Status.done 0
  | none => s

theorem jobEnds_kept (job : Option (Nat × Nat × Nat)) : Kept 270480 s (jobEnds s job) := by
  unfold jobEnds
  split
  · exact workEnd_kept (.refl _ s) (.refl _)
  · exact .refl _ s

theorem exec_rehashDone (hd : domOn s 12 = true) (hst : s.flow.st = .rehash) (hscan : flowSlots ≤ s.flow.scan) :
    exec .flowRehashDone s = .next (jobEnds (cacheRegroup s.flow.cache.reverse (rehashed s)) s.flow.job) := by
  have hif : (domOn s 12 && s.flow.st == .rehash && decide (flowSlots ≤ s.flow.scan)) = true := by
    rw [hd, hst, decide_eq_true hscan]
    rfl
  rw [exec, execFlowRehashDone, if_pos hif]
  rfl

theorem rehash_ends (hs : s.inv) (hd : domOn s 12 = true) (hst : s.flow.st = .rehash) (hscan : flowSlots ≤ s.flow.scan) :
    ∃ t, exec .flowRehashDone s = .next t ∧ t.flow.st = .valid ∧ t.flow.job = none ∧ flowRegion t = !flowRegion s ∧
      flowSeed t = s.flow.newSeed % 2 ^ 16 ∧ flag t Reg.heddleFlowKeep 31 = true ∧ (∀ l ∈ t.flow.cache, l ∈ s.flow.cache) ∧
      ((∀ l ∈ s.flow.cache, (s.flow.cache.filter (fun x => homeSlot (s.flow.newSeed % 2 ^ 16) x.key % 8192 ==
          homeSlot (s.flow.newSeed % 2 ^ 16) l.key % 8192)).length ≤ 8) →
        t.flow = { s.flow with st := .valid, job := none } ∧ t.dram = s.dram) := by
  obtain ⟨hreg, hseed, hkeep⟩ := rehashed_reads hs
  obtain ⟨hc, hs1, hj⟩ := cacheRegroup_flow (s := rehashed s) s.flow.cache.reverse
  have hk := jobEnds_kept (s := cacheRegroup s.flow.cache.reverse (rehashed s)) s.flow.job
  have hcur : (jobEnds (cacheRegroup s.flow.cache.reverse (rehashed s)) s.flow.job).cur = (rehashed s).cur :=
    (hk.cur_eq rfl).trans ((cacheRegroup_kept (.refl _ _) (.refl _)).cur_eq rfl)
  have hread : ∀ a, rd (jobEnds (cacheRegroup s.flow.cache.reverse (rehashed s)) s.flow.job) a = rd (rehashed s) a := fun a => by
    rw [rd, hcur, ← rd]
  have hflow : (rehashed s).flow = { s.flow with st := .valid, job := none } := rfl
  refine ⟨_, exec_rehashDone hd hst hscan, ?_, ?_, ?_, ?_, ?_, fun l hl => ?_, fun hfit => ?_⟩
  · rw [hk.flow_eq rfl, hs1, hflow]
  · rw [hk.flow_eq rfl, hj, hflow]
  · rw [flowRegion, flag, hread]
    exact hreg
  · rw [flowSeed, fld, hread]
    exact hseed
  · rw [flag, hread]
    exact hkeep
  · rw [hk.flow_eq rfl] at hl
    exact hc l hl
  · have hid : cacheRegroup s.flow.cache.reverse (rehashed s) = rehashed s := cacheRegroup_fits _ fun l hl => by
      have hset : cacheSet (rehashed s) = fun k => homeSlot (s.flow.newSeed % 2 ^ 16) k % 8192 := funext fun k => by rw [cacheSet, hseed]
      rw [hset]
      exact hfit l (List.mem_reverse.1 hl)
    rw [hk.flow_eq rfl, hk.dram_eq rfl, hid]
    exact ⟨hflow, rfl⟩

/-! ## FLOW_CLEAR and its end (R203) -/

theorem cmdFlowClear_begins (hd : domOn s 12 = true) (hst : s.flow.st = .invalid ∨ s.flow.st = .valid) :
    cmdFlowClear d s = .work (setFlow (zeroRegion s (flowRegion s)) { s.flow with
      st := .clearing, job := some (d.ring, d.index, s.pick.point), cache := s.flow.cache.map (fun l => { l with placing := true })
      occ := stashUsed s }) := by
  have hif : (s.flow.st == .invalid || s.flow.st == .valid) = true := by obtain h | h := hst <;> rw [h] <;> rfl
  rw [cmdFlowClear, needDomain_on hd]
  dsimp only
  rw [if_pos hif]

theorem inv_dram (hs : s.inv) : srising 0 s.dram = true := by
  have h := hs.1
  simp only [State.tablesWf, Bool.and_eq_true] at h
  exact swf_rising h.2

theorem zeroRegion_bytes (hs : s.inv) (b : Bool) (a : Nat) : sget 0 (zeroRegion s b).dram a =
    if flowBase s b ≤ a ∧ a < flowBase s b + 0x20000000 then 0 else sget 0 s.dram a := by
  have hr : srising 0 s.dram = true := inv_dram hs
  rw [zeroRegion]
  dsimp only
  split
  next h => exact sget_skeep_out (by simp; omega) _
  next h => exact sget_skeep_in hr (by simp; omega)

/-- The active region is kept as valid. -/
def cleared (s : State) : State :=
  let s := setReg s Reg.heddleFlowKeep (2 ^ 31 + b2n (flowRegion s) * 2 ^ 16 + flowSeed s)
  setFlow s { s.flow with st := .valid, job := none }

theorem exec_clearDone (hd : domOn s 12 = true) (hst : s.flow.st = .clearing) :
    exec .flowClearDone s = .next (jobEnds (cleared s) s.flow.job) := by
  have hif : (domOn s 12 && s.flow.st == .clearing) = true := by rw [hd, hst]; rfl
  rw [exec, execFlowClearDone, if_pos hif]
  rfl

theorem cleared_keep (hs : s.inv) : flag (cleared s) Reg.heddleFlowKeep 31 = true := by
  have hseed : flowSeed s < 2 ^ 16 := bits_lt _ _ _
  have hb : b2n (flowRegion s) ≤ 1 := by cases flowRegion s <;> decide
  have hkeep : rd (cleared s) Reg.heddleFlowKeep = 2 ^ 31 + (b2n (flowRegion s) * 2 ^ 16 + flowSeed s) := by
    change rd (setReg s Reg.heddleFlowKeep _) Reg.heddleFlowKeep = _
    rw [rd_setReg_same hs, Nat.mod_eq_of_lt (by omega), Nat.add_assoc]
  rw [flag, hkeep, Nat.testBit_two_pow_add_eq, Nat.testBit_lt_two_pow (by omega)]
  rfl

theorem cmdWorks_kept (d : CmdDesc) : Kept 270464 s (s.cmdWorks d) := workBegin_kept (.refl _ s) (.refl _)

theorem rehash_begins (h : s.cmdReady d 0x4B = true) (hd : domOn s 12 = true) (hv : s.flow.st = .valid)
    (hfit : regionFits s (!flowRegion s) = true) : ∃ t, exec (.flowRehash d) s = .next t ∧ t.flow = { s.flow with
        st := .rehash, newSeed := bits (cmdP0 d) 15 0, scan := 0, job := some (d.ring, d.index, s.pick.point)
        placeQ := s.flow.placeQ ++ (s.flow.cache.filter (fun l => l.stash && !s.flow.placeQ.contains l.key)).map (·.key) } ∧
      t.cur = (clrBit (s.cmdTaken d) Reg.heddleFlowKeep 31).cur ∧ t.dram = s.dram := by
  have hx := cmdTaken_flow (s := s) d
  have hfit' : regionFits (s.cmdTaken d) (!flowRegion (s.cmdTaken d)) = true := by
    obtain ⟨hh, p, he, -⟩ := cmdTaken_form (s := s) d
    rw [he]
    exact hfit
  have hbody := cmdFlowRehash_begins (s := s.cmdTaken d) (d := d) ((cmdTaken_domOn d 12).trans hd) (by rw [hx, hv]) hfit'
  rw [hx, cmdTaken_point] at hbody
  have hk := cmdWorks_kept (s := setFlow (clrBit (s.cmdTaken d) Reg.heddleFlowKeep 31) { s.flow with
    st := .rehash, newSeed := bits (cmdP0 d) 15 0, scan := 0, job := some (d.ring, d.index, s.pick.point)
    placeQ := s.flow.placeQ ++ (s.flow.cache.filter (fun l => l.stash && !s.flow.placeQ.contains l.key)).map (·.key) }) d
  refine ⟨_, congrArg Host.Outcome.next (cmdRow_work h hbody ?_), hk.flow_eq rfl, hk.cur_eq rfl, (hk.dram_eq rfl).trans ?_⟩
  · rw [setFlow_pick, clrBit, setFld_pick, cmdTaken_point]
  · rw [setFlow_dram, clrBit, setFld_dram, (cmdTaken_kept d).dram_eq rfl]

theorem clear_begins (h : s.cmdReady d 0x4C = true) (hd : domOn s 12 = true) (hst : s.flow.st = .invalid ∨ s.flow.st = .valid) :
    ∃ t, exec (.flowClear d) s = .next t ∧ t.flow = { s.flow with
        st := .clearing, job := some (d.ring, d.index, s.pick.point)
        cache := s.flow.cache.map (fun l => { l with placing := true }), occ := stashUsed s } ∧
      t.dram = (zeroRegion s (flowRegion s)).dram := by
  have hx := cmdTaken_flow (s := s) d
  have hbody := cmdFlowClear_begins (s := s.cmdTaken d) (d := d) ((cmdTaken_domOn d 12).trans hd) (by rwa [hx])
  rw [hx, cmdTaken_point] at hbody
  have hz : zeroRegion (s.cmdTaken d) (flowRegion (s.cmdTaken d)) = { s.cmdTaken d with dram := (zeroRegion s (flowRegion s)).dram } := by
    obtain ⟨hh, p, he, -⟩ := cmdTaken_form (s := s) d
    rw [he]
    rfl
  have hu : stashUsed (s.cmdTaken d) = stashUsed s := by rw [stashUsed, hx, ← stashUsed]
  rw [hz, hu] at hbody
  have hk := cmdWorks_kept (s := setFlow { s.cmdTaken d with dram := (zeroRegion s (flowRegion s)).dram } { s.flow with
    st := .clearing, job := some (d.ring, d.index, s.pick.point), cache := s.flow.cache.map (fun l => { l with placing := true })
    occ := stashUsed s }) d
  exact ⟨_, congrArg Host.Outcome.next (cmdRow_work h hbody (cmdTaken_point d)), hk.flow_eq rfl, hk.dram_eq rfl⟩

end

/-- Settles O31: each FLOW command is applied to `State.cmdTaken`, whose store is that of the state; the ends of a rehash and of a
clear put the kept register in force and complete the command. -/
theorem flowCommandsManageStore : Obligations.FlowCommandsManageStore := by
  unfold Obligations.FlowCommandsManageStore
  refine ⟨fun s d h hd hr => ⟨fun hp hu hroom => ?_, fun hp hf => ?_⟩, fun s d h hd hr hp => ?_, fun s d e h hd hr hp => ?_,
    fun s d hs h hd hv hfit => ?_, fun s hs hd hst hscan => rehash_ends hs hd hst hscan, fun s d hs h hd hst => ?_, fun s hs hd hst => ?_⟩
  · have hx := cmdTaken_flow (s := s) d
    have hbody := cmdFlowInsert_absent (s := s.cmdTaken d) (d := d) ((cmdTaken_domOn d 12).trans hd) (by rwa [storeReads, hx])
      (by rwa [flowPeek_cmdTaken]) (by rwa [stashUsed, hx]) (by rwa [hx, cacheSet_cmdTaken])
    rw [hx, cmdTaken_point] at hbody
    exact congrArg Host.Outcome.next (cmdRow_work h hbody (cmdTaken_point d))
  · have hx := cmdTaken_flow (s := s) d
    exact congrArg Host.Outcome.next (cmdRow_fin h (cmdFlowInsert_present ((cmdTaken_domOn d 12).trans hd) (by rwa [storeReads, hx])
      (by rwa [flowPeek_cmdTaken]) hf))
  · have hx := cmdTaken_flow (s := s) d
    exact congrArg Host.Outcome.next (cmdRow_fin h (cmdFlowDelete_present ((cmdTaken_domOn d 12).trans hd) (by rwa [storeReads, hx])
      (by rwa [flowPeek_cmdTaken])))
  · have hx := cmdTaken_flow (s := s) d
    have hbody := cmdFlowRead_present (s := s.cmdTaken d) (d := d) ((cmdTaken_domOn d 12).trans hd) (by rwa [storeReads, hx])
      (by rwa [flowPeek_cmdTaken])
    have hflag : flag (s.cmdTaken d) Reg.hostCtrl 1 = flag s Reg.hostCtrl 1 := by rw [flag, rd, (cmdTaken_kept d).cur_eq rfl, ← rd, ← flag]
    rw [dmaWrite_short _ (List.ne_nil_of_length_pos (by rw [length_entEncode]; decide)) (by rw [length_entEncode]; decide), hflag] at hbody
    exact congrArg Host.Outcome.next (cmdRow_fin h hbody)
  · obtain ⟨t, he, hf, hc, hdr⟩ := rehash_begins h hd hv hfit
    have hi : (s.cmdTaken d).inv := (cmdTaken_kept d).inv hs
    refine ⟨t, he, hf, ?_, hdr⟩
    rw [flag, rd, hc]
    exact flag_clrBit hi
  · obtain ⟨t, he, hf, hdr⟩ := clear_begins h hd hst
    refine ⟨t, he, hf, fun a h1 h2 => ?_, fun a ha => ?_⟩
    · rw [hdr, zeroRegion_bytes hs, if_pos ⟨h1, h2⟩]
    · rw [hdr, zeroRegion_bytes hs, if_neg (by omega)]
  · have hk := jobEnds_kept (s := cleared s) s.flow.job
    refine ⟨_, exec_clearDone hd hst, hk.flow_eq rfl, ?_, hk.dram_eq rfl⟩
    rw [flag, rd, hk.cur_eq rfl]
    exact cleared_keep hs

end Sys2Proof.Machine
end

