-- ==== Sys2Proof/Proofs/FrameSelection.lean ====
section
/-! SUPPORT. Proofs/FrameSelection.lean: the selection for a Yonov lane, a MAC and a host ring (R301, R303, R309, R311, R350). -/

namespace Sys2Proof.Machine

open Sys2Proof

section
variable {s u : State} {n p q r : Nat} {same : Bool} {i : QItem}

/-- Every queue may serve a lane. -/
def lanePolicy : SelPolicy := { part := fun _ _ _ => true, only := fun _ _ _ => true, gone := circuitGone }

/-- A queue may serve ring `r` whose frame fits. -/
def ringPolicy (r : Nat) : SelPolicy := { part := fun _ _ _ => true, only := fun s _ i => rxFree s r i.frame.data.length, gone := circuitGone }

theorem exec_reedSelect_mac (hp : p < 32) : exec (.reedSelect 0 p same) s = .next (pauseScan (selectMac p same s)) :=
  congrArg Host.Outcome.next (if_pos hp)

theorem exec_reedSelect_lane (hn : n < 16) : exec (.reedSelect 1 n same) s = .next (pauseScan (selectLane n same s)) :=
  congrArg Host.Outcome.next (if_pos hn)

theorem exec_reedSelect_ring (hr : r < 512) : exec (.reedSelect 3 r same) s = .next (pauseScan (selectRing r same s)) :=
  congrArg Host.Outcome.next (if_pos hr)

/-! ## Yonov lanes -/

section
variable (hon : yonovOn s n = true) (hst : (laneAt s n).st = .up) (hh : (laneAt s n).holdRx = false) (htx : (laneAt s n).tx = none)
  (ht : reedTake lanePolicy (destKey 1 n) same s = (some (q, i), u))
include hon hst hh htx ht

theorem selectLane_poisoned (hp : framePoisoned (queueLeft u q i.frame) i.frame = true) : selectLane n same s =
    frameGone (poisonSeen (queueLeft u q i.frame) (laneSource n) i.frame) i.frame := by
  rw [lanePolicy] at ht
  rw [selectLane]
  dsimp only
  rw [hon, hst, hh, htx, ht, if_pos (by decide)]
  dsimp only
  rw [if_pos hp]

theorem selectLane_begins (hp : framePoisoned (queueLeft u q i.frame) i.frame = false) : selectLane n same s =
    let w := sendBlock (sendYmgmt (queueLeft u q i.frame) n) n 2 (ystartBlock i.frame.data.length)
    let x := sendBlock w n 1 (slice (frameRead w i.frame) 0 8)
    setLane x n { laneAt x n with tx := some i.frame } := by
  rw [lanePolicy] at ht
  rw [selectLane]
  dsimp only
  rw [hon, hst, hh, htx, ht, if_pos (by decide)]
  dsimp only
  rw [hp, if_neg Bool.false_ne_true]

end

/-! ## MACs -/

theorem selectMac_idle (hup : macUp s p = true) (htx : (macAt s p).tx = none) (hpre : (macAt s p).preempted = none)
    (ht : reedTake (macPolicy p false) (destKey 0 p) same (countHolds s p) = (some (q, i), u)) : selectMac p same s = macBegin u p q i := by
  have hd : domOn s (macDom p) = true := by
    rw [macUp, Bool.and_eq_true, Bool.and_eq_true, Bool.and_eq_true] at hup
    obtain ⟨⟨⟨hd, -⟩, -⟩, -⟩ := hup
    exact hd
  rw [selectMac]
  dsimp only
  rw [hd, hup, if_neg (by decide), if_neg (by decide), htx, hpre]
  dsimp only
  rw [ht]

/-! ## Host rings -/

theorem selectRing_poisoned (ht : reedTake (ringPolicy r) (destKey 3 r) same s = (some (q, i), u))
    (hp : framePoisoned (queueLeft u q i.frame) i.frame = true) :
    selectRing r same s = frameGone (poisonSeen (queueLeft u q i.frame) 0x1D i.frame) i.frame := by
  rw [ringPolicy] at ht
  rw [selectRing, ht]
  dsimp only
  rw [if_pos hp]

theorem selectRing_delivers {w : State} (ht : reedTake (ringPolicy r) (destKey 3 r) same s = (some (q, i), u))
    (hp : framePoisoned (queueLeft u q i.frame) i.frame = false)
    (hw : rxDeliver (queueLeft u q i.frame) r { i.frame with data := frameRead (queueLeft u q i.frame) i.frame } {} = some w) :
    selectRing r same s = frameGone w i.frame := by
  rw [ringPolicy] at ht
  rw [selectRing, ht]
  dsimp only
  rw [hp, if_neg Bool.false_ne_true, hw]
  rfl

theorem selectRing_none (ht : reedTake (ringPolicy r) (destKey 3 r) same s = (none, u)) : selectRing r same s = u := by
  rw [ringPolicy] at ht
  rw [selectRing, ht]

end

/-- Settles O33: each selection by its equation, with the three ends of a frame that a MAC takes up (`macBegin`). -/
theorem selectedFramesLeave : Obligations.SelectedFramesLeave := by
  unfold Obligations.SelectedFramesLeave
  refine ⟨fun s u n q same i hn hon hst hh htx ht => ⟨fun hp => ?_, fun hp => ?_⟩,
    fun s u p q same i hp32 hup htx hpre ht => ⟨fun hp => ?_, fun hp hlen => ?_, fun hp hlen => ?_⟩,
    fun s u r q same i hr ht => ⟨fun hp => ?_, fun w hp hw => ?_⟩, fun s u r same hr ht => ?_⟩
  · rw [exec_reedSelect_lane hn, selectLane_begins hon hst hh htx ht hp]
  · rw [exec_reedSelect_lane hn, selectLane_poisoned hon hst hh htx ht hp]
  · rw [exec_reedSelect_mac hp32, selectMac_idle hup htx hpre ht, macBegin]
    dsimp only
    rw [if_pos hp]
  · rw [exec_reedSelect_mac hp32, selectMac_idle hup htx hpre ht, macBegin]
    dsimp only
    rw [hp, if_neg Bool.false_ne_true, if_pos hlen]
  · rw [exec_reedSelect_mac hp32, selectMac_idle hup htx hpre ht, macBegin]
    dsimp only
    rw [hp, if_neg Bool.false_ne_true, if_neg (Nat.not_lt.2 hlen)]
  · rw [exec_reedSelect_ring hr, selectRing_poisoned ht hp]
  · rw [exec_reedSelect_ring hr, selectRing_delivers ht hp hw]
  · rw [exec_reedSelect_ring hr, selectRing_none ht]

end Sys2Proof.Machine
end

