-- ==== Sys2Proof/Proofs/ReedTables.lean ====
section
/-! SUPPORT. Proofs/ReedTables.lean: the Reed window, shaper buckets and sets, and the flush of a queue (R217, R221, R222, R236 to R239). -/

namespace Sys2Proof.Machine

open Sys2Proof

section
variable {s t u : State} {d : CmdDesc} {f : Frame} {op i j n q r : Nat} {img : List Nat} {v : Word}

/-! ## The window (R222, R236) -/

/-- WRITE and READ of REED_ENT_CMD. -/
theorem hostStore_reedEntCmd (h : s.hostReaches Reg.reedEntCmd = true) (ho : op = 1 ∨ op = 2) :
    hostStore Reg.reedEntCmd 15 op s = reedWindow op (stored s Reg.reedEntCmd (rdS s Reg.reedEntCmd, rd s Reg.reedEntCmd, false)) := by
  have hop : op % 8 = op := Nat.mod_eq_of_lt (by omega)
  have hc : codeReg Reg.reedEntCmd op = true := by
    obtain rfl | rfl := ho <;> decide
  rw [hostStore_code h hc, writeEffects_traffic (by decide) (by decide), trafficEffect, if_neg (by decide), if_neg (by decide),
    if_neg (by decide), if_pos rfl, hop, if_pos ho]

/-- The image that the data registers hold. -/
def reedDataImage (s : State) : List Nat := (List.range 8).map (fun k => rdS s (Reg.reedEntData k))

/-- The window's answer: the result in the state and in the command register. -/
def reedAnswered (r : Nat) (s : State) : State := setReg (setReed s { s.reed with result := r }) Reg.reedEntCmd (r * 2 ^ 24)

theorem reedAnswered_reed (hr : r ≤ 2) (hs : s.inv) : (reedAnswered r s).reed = { s.reed with result := r } ∧
    rdS (reedAnswered r s) Reg.reedEntCmd = r * 2 ^ 24 := by
  refine ⟨by rw [reedAnswered, setReg_reed]; rfl, ?_⟩
  have hi : (setReed s { s.reed with result := r }).inv := hs
  rw [reedAnswered, rdS_setReg_same hi]
  exact Nat.mod_eq_of_lt (by omega)

theorem reedWindow_writes (hi : ¬ reedSize (fldS s Reg.reedEntSel 18 16) ≤ fldS s Reg.reedEntSel 13 0)
    (hw : reedWrite s (fldS s Reg.reedEntSel 18 16) (fldS s Reg.reedEntSel 13 0) (reedDataImage s) = (r, t)) :
    reedWindow 1 s = reedAnswered r t := by
  rw [reedDataImage] at hw
  rw [reedWindow]
  dsimp only
  rw [if_neg hi, if_neg (by decide), hw]
  rfl

/-- The data registers with an image's words. -/
def reedShown (img : List Nat) (n : Nat) (s : State) : State := forUpTo n s (fun k s => setReg s (Reg.reedEntData k) (img.getD k 0))

theorem reedShown_reed (n : Nat) : (reedShown img n s).reed = s.reed := by
  induction n with
  | zero => rfl
  | succ n ih => rw [reedShown, forUpTo_succ, setReg_reed]; exact ih

theorem reedShown_reads (hs : s.inv) (n : Nat) : (reedShown img n s).inv ∧
    ∀ k < n, rdS (reedShown img n s) (Reg.reedEntData k) = img.getD k 0 % 2 ^ 32 := by
  induction n with
  | zero => exact ⟨hs, fun _ h => absurd h (Nat.not_lt_zero _)⟩
  | succ n ih =>
    obtain ⟨hi, hr⟩ := ih
    rw [reedShown] at hi hr
    rw [reedShown, forUpTo_succ]
    refine ⟨setReg_inv hi _ _, fun k hk => ?_⟩
    obtain rfl | hlt : k = n ∨ k < n := by omega
    · exact rdS_setReg_same hi _ _
    · rw [rdS_setReg_other hi (by simp only [Reg.reedEntData]; omega), hr k hlt]

theorem reedWindow_reads (hi : ¬ reedSize (fldS s Reg.reedEntSel 18 16) ≤ fldS s Reg.reedEntSel 13 0) : reedWindow 2 s =
    reedAnswered 0 (reedShown (reedImage s (fldS s Reg.reedEntSel 18 16) (fldS s Reg.reedEntSel 13 0)) 8 s) := by
  rw [reedWindow]
  dsimp only
  rw [if_neg hi, if_pos rfl]
  rfl

/-- The state whose window acts. -/
def reedTaken (s : State) : State := stored s Reg.reedEntCmd (rdS s Reg.reedEntCmd, rd s Reg.reedEntCmd, false)

theorem reedTaken_reads (hs : s.inv) (a : Nat) : rdS (reedTaken s) a = rdS s a := rdS_stored_self hs a

theorem reedTaken_fldS (hs : s.inv) (hi lo a : Nat) : fldS (reedTaken s) a hi lo = fldS s a hi lo := by
  rw [fldS, fldS, reedTaken_reads hs]

theorem reedTaken_image (hs : s.inv) : reedDataImage (reedTaken s) = reedDataImage s :=
  List.map_congr_left fun _ _ => reedTaken_reads hs _

/-- A WRITE of an entry inside its table: what `reedWrite` makes of the image, and its result. -/
theorem exec_reedEntWrite (h : hostReach s = true) (hd : domOn s 18 = true) (hs : s.inv)
    (hi : fldS s Reg.reedEntSel 13 0 < reedSize (fldS s Reg.reedEntSel 18 16))
    (hw : reedWrite (reedTaken s) (fldS s Reg.reedEntSel 18 16) (fldS s Reg.reedEntSel 13 0) (reedDataImage s) = (r, t)) :
    exec (.reedEntWrite 15) s = .next (reedAnswered r t) := by
  refine congrArg Host.Outcome.next ((hostStore_reedEntCmd (hostReaches_fixed (by decide) h hd) (.inl rfl)).trans ?_)
  refine reedWindow_writes (s := reedTaken s) ?_ ?_
  · rw [reedTaken_fldS hs, reedTaken_fldS hs]
    omega
  · rw [reedTaken_fldS hs, reedTaken_fldS hs, reedTaken_image hs]
    exact hw

theorem exec_reedEntRead (h : hostReach s = true) (hd : domOn s 18 = true) (hs : s.inv)
    (hi : fldS s Reg.reedEntSel 13 0 < reedSize (fldS s Reg.reedEntSel 18 16)) : exec (.reedEntRead 15) s = .next (reedAnswered 0
      (reedShown (reedImage (reedTaken s) (fldS s Reg.reedEntSel 18 16) (fldS s Reg.reedEntSel 13 0)) 8 (reedTaken s))) := by
  refine congrArg Host.Outcome.next ((hostStore_reedEntCmd (hostReaches_fixed (by decide) h hd) (.inr rfl)).trans ?_)
  refine (reedWindow_reads (s := reedTaken s) ?_).trans ?_
  · rw [reedTaken_fldS hs, reedTaken_fldS hs]
    omega
  · rw [reedTaken_fldS hs, reedTaken_fldS hs]

/-- Setting ANCHOR_LOCK. -/
theorem exec_anchorLock (h : hostReach s = true) (hd : domOn s 18 = true) : exec (.anchorLock 15) s =
    .next (setBit (stored s Reg.reedAnchor (rdS s Reg.reedAnchor, rd s Reg.reedAnchor, false)) Reg.reedAnchor 0) := by
  refine congrArg Host.Outcome.next ((hostStore_command (hostReaches_fixed (by decide) h hd) (by decide) (.inl (by decide))).trans ?_)
  rw [writeEffects_traffic (by decide) (by decide), trafficEffect, if_neg (by decide), if_neg (by decide), if_pos rfl]
  rfl

theorem exec_reedSwapRequest (h : hostReach s = true) (hd : domOn s 18 = true) : ∃ y, exec (.reedSwapRequest 15 v) s =
    .next (setReed (stored s Reg.reedCtrl (y, rd s Reg.reedCtrl, false)) { s.reed with swapAsked := true }) := by
  obtain ⟨y, hy⟩ := hostStore_staged (v := insBits v.toNat 1 1 1) (hostReaches_fixed (d := 18) (by decide) h hd) (a := Reg.reedCtrl) (by decide)
  rw [writeEffects_traffic (by decide) (by decide), trafficEffect, if_neg (by decide), if_pos rfl,
    if_pos (testBit_insBits_one v.toNat 1)] at hy
  exact ⟨y, congrArg Host.Outcome.next hy⟩

/-! ## Buckets of listed shapers (R217, R221) -/

/-- Each listed shaper's bucket pair becomes what `g` makes of it. -/
def bucketsSet (g : Nat → Int × Int → Int × Int) (b : Sparse (Int × Int)) (l : List Nat) : Sparse (Int × Int) :=
  l.foldl (fun b n => sput (0, 0) b n (g n (sget (0, 0) b n))) b

theorem sget_bucketsSet {g : Nat → Int × Int → Int × Int} {l : List Nat} {b : Sparse (Int × Int)} (hl : l.Nodup)
    (hb : srising 0 b = true) (n : Nat) :
    sget (0, 0) (bucketsSet g b l) n = if n ∈ l then g n (sget (0, 0) b n) else sget (0, 0) b n := by
  induction l generalizing b with
  | nil => rfl
  | cons k l ih =>
    obtain ⟨hk, hn⟩ := List.nodup_cons.1 hl
    rw [bucketsSet, List.foldl_cons, ← bucketsSet, ih hn (srising_sput hb _ _)]
    by_cases hkn : k = n
    · subst hkn
      rw [if_neg hk, if_pos List.mem_cons_self, sget_sput_same hb]
    · have hmem : n ∈ k :: l ↔ n ∈ l := by simp [Ne.symm hkn]
      simp only [hmem, sget_sput_other _ _ hb hkn]

/-- A fold of bucket updates that read no part of the state but the shaper set in force. -/
theorem foldl_setBucket {g : Nat → Int × Int → Int × Int} {f : State → Nat → State}
    (hf : ∀ u n, u.reed.shIn = s.reed.shIn → f u n = setBucket u n (g n (bucketAt u n))) (l : List Nat)
    (hu : u.reed.shIn = s.reed.shIn) : l.foldl f u = setReed u { u.reed with buckets := bucketsSet g u.reed.buckets l } := by
  induction l generalizing u with
  | nil => rfl
  | cons n l ih => rw [List.foldl_cons, hf u n hu, ih (u := setBucket u n (g n (bucketAt u n))) hu]; rfl

/-- The keys of a table that rises are distinct. -/
theorem nodup_keys {α : Type} {lo : Nat} {m : Sparse α} (h : srising lo m = true) : (m.map (·.1)).Nodup := by
  induction m generalizing lo with
  | nil => exact List.nodup_nil
  | cons e m ih =>
    obtain ⟨k, x⟩ := e
    rw [srising, Bool.and_eq_true] at h
    exact List.nodup_cons.2 ⟨fun hm => Nat.not_succ_le_self k (le_of_srising h.2 hm), ih h.2⟩

/-- A refill of one bucket pair (R217). -/
def refilled (m : Sparse (List Nat)) (n : Nat) (b : Int × Int) : Int × Int :=
  (min (b.1 + shCir m n) (512 * shCbs m n), min (b.2 + shPir m n) (512 * shPbs m n))

theorem exec_refillTick (hd : domOn s 18 = true) : exec (.shaperRefillTick s.reed.tick) s = .next (pendCores (setReed s
    { s.reed with tick := s.reed.tick + 1, buckets := bucketsSet (refilled s.reed.shIn) s.reed.buckets (s.reed.shIn.map (·.1)) }) 0 3 1) := by
  have hrefill : ∀ (u : State) n, u.reed.shIn = s.reed.shIn → refill u n = setBucket u n (refilled s.reed.shIn n (bucketAt u n)) :=
    fun u n hu => by rw [refill, hu]; rfl
  have htick : shaperTick s.reed.tick s = setReed s
      { s.reed with tick := s.reed.tick + 1, buckets := bucketsSet (refilled s.reed.shIn) s.reed.buckets (s.reed.shIn.map (·.1)) } := by
    rw [shaperTick, if_pos (by rw [hd, beq_self_eq_true]; rfl)]
    exact foldl_setBucket hrefill _ (u := setReed s { s.reed with tick := s.reed.tick + 1 }) rfl
  refine congrArg Host.Outcome.next ?_
  rw [if_pos (by rw [beq_self_eq_true, Bool.or_true]), htick]

theorem exec_refillTick_other {k : Nat} (hd : domOn s 18 = true) (hk : k ≠ s.reed.tick) : exec (.shaperRefillTick k) s = .next s :=
  congrArg Host.Outcome.next (if_neg (by rw [hd, beq_eq_false_iff_ne.2 hk]; decide))

theorem cmdShaperLoad_takes (hd : domOn s 18 = true) (hl : s.reed.loading = none) : cmdShaperLoad d s =
    .work (setReg (setReed s { s.reed with loading := some (d.ring, d.index) }) Reg.reedStat (rd s Reg.reedStat ||| 1)) := by
  rw [cmdShaperLoad, needDomain_on hd]
  dsimp only
  rw [hl]
  rfl

theorem cmdShaperSwap_asks (hd : domOn s 18 = true) (hl : s.reed.loading = none) :
    cmdShaperSwap d s = .fin Status.done 0 (setReed s { s.reed with swapAsked := true }) := by
  rw [cmdShaperSwap, needDomain_on hd]
  dsimp only
  rw [hl]
  rfl

theorem cmdTaken_reed (d : CmdDesc) : (s.cmdTaken d).reed = s.reed := (cmdTaken_kept d).reed_eq rfl

/-! ## The swap (R221, R222) -/

/-- The shapers of both sets, and their buckets after the swap. -/
def swapShapers (s : State) : List Nat := ((s.reed.shIn.map (·.1)) ++ ((swapSet s).map (·.1))).dedup
def swapBuckets (s : State) : Sparse (Int × Int) :=
  bucketsSet (fun n b => swapBucket s.reed.shIn (swapSet s) n b) s.reed.buckets (swapShapers s)

theorem shaperSwap_reed (s : State) : (shaperSwap s).reed =
    { s.reed with buckets := swapBuckets s, shIn := swapSet s, shStby := swapSet s, swapAsked := false } := by
  have hf := foldl_setBucket (s := s) (u := s) (g := fun n b => swapBucket s.reed.shIn (swapSet s) n b)
    (f := fun u n => setBucket u n (swapBucket s.reed.shIn (swapSet s) n (bucketAt u n))) (fun _ _ _ => rfl) (swapShapers s) rfl
  rw [swapShapers] at hf
  rw [shaperSwap]
  dsimp only
  rw [hf, setFld_reed]
  rfl

/-- Entries of one table put into another: an index below the bound reads as the first table has it. -/
theorem sget_foldl_range {α : Type} [DecidableEq α] {d : α} {g : Nat → α} {m : Sparse α} (hm : srising 0 m = true) (k : Nat) :
    srising 0 ((List.range k).foldl (fun m n => sput d m n (g n)) m) = true ∧
      ∀ n, n < k → sget d ((List.range k).foldl (fun m n => sput d m n (g n)) m) n = g n := by
  induction k with
  | zero => exact ⟨hm, fun _ h => absurd h (Nat.not_lt_zero _)⟩
  | succ k ih =>
    obtain ⟨hr, hg⟩ := ih
    rw [List.range_succ, List.foldl_append, List.foldl_cons, List.foldl_nil]
    refine ⟨srising_sput hr _ _, fun n hn => ?_⟩
    obtain rfl | hlt : n = k ∨ n < k := by omega
    · exact sget_sput_same hr _ _
    · rw [sget_sput_other _ _ hr (by omega), hg n hlt]

theorem swapSet_free (h : flag s Reg.reedAnchor 0 = false) : swapSet s = s.reed.shStby := by
  rw [swapSet, h, if_neg Bool.false_ne_true]

theorem swapSet_locked (h : flag s Reg.reedAnchor 0 = true) (hr : srising 0 s.reed.shStby = true) (hn : n < 32) :
    sget [] (swapSet s) n = sget [] s.reed.shIn n := by
  rw [swapSet, if_pos h]
  exact (sget_foldl_range hr 32).2 n hn

/-! ## The flush of a queue (R239) -/

theorem queueDrop_counts (hs : s.inv) (q n : Nat) (f : Frame) (hn : n < 12) : (queueDrop s q n f).inv ∧
    cntVal (queueDrop s q n f) 6 n = min cntMax (cntVal s 6 n + 1) := by
  have h1 : (count s 6 n).inv := count_inv hs 6 n
  have hq : ∀ (u : State) k x, u.inv → (qCnt u q k x).inv ∧ cntVal (qCnt u q k x) 6 n = cntVal u 6 n := fun u k x hu =>
    ⟨countBy_inv hu _ _ _, cntVal_countBy_other hu (by simp only [cntKey]; omega) x⟩
  obtain ⟨h2, hv2⟩ := hq _ 4 1 h1
  obtain ⟨h3, hv3⟩ := hq _ 5 (frameLen f) h2
  have hg : CntsIn [9, 14, 17] _ (frameGone (qCnt (qCnt (count s 6 n) q 4 1) q 5 (frameLen f)) f) :=
    frameGone_cnts (by decide) (by decide) (by decide) f
  rw [queueDrop]
  refine ⟨hg.inv h3, ?_⟩
  rw [hg.cntVal h3 (by decide) (by omega), hv3, hv2]
  exact cntVal_countBy_same hs 6 n 1

theorem queueDrops_count (l : List Frame) (hs : s.inv) : (l.foldl (fun s f => queueDrop s q 7 f) s).inv ∧
    cntVal (l.foldl (fun s f => queueDrop s q 7 f) s) 6 7 = min cntMax (cntVal s 6 7 + l.length) := by
  induction l generalizing s with
  | nil =>
    have := cntVal_le hs 6 7
    exact ⟨hs, by simp only [List.foldl_nil, List.length_nil]; omega⟩
  | cons f l ih =>
    obtain ⟨h1, hv⟩ := queueDrop_counts hs q 7 f (by decide)
    obtain ⟨h2, hv2⟩ := ih h1
    refine ⟨h2, ?_⟩
    rw [List.foldl_cons, hv2, hv, List.length_cons]
    omega

/-- The queue's frames and its container's continuation taken out. -/
def queueCleared (s : State) (q : Nat) : State :=
  setQueue (setReed s { s.reed with conts := s.reed.conts.filter (fun e => match e.2 with | some c => c.queue != q | none => false) }) q {}

theorem flushQueue_eq : flushQueue s q = (queueFrames s q).foldl (fun s f => queueDrop s q 7 f) (queueCleared s q) := rfl

/-- The container's entry is a continuation of queue `q`. -/
def contOf (q : Nat) (e : Nat × Option Continuation) : Bool :=
  match e.2 with
  | some c => c.queue == q
  | none => false

theorem queueCont_eq : queueCont s q = (s.reed.conts.find? (contOf q)).bind (·.2) := by
  change (match s.reed.conts.find? (contOf q) with | some (_, c) => c | none => none) = _
  cases s.reed.conts.find? (contOf q) <;> rfl

theorem find_contOf_filter (l : List (Nat × Option Continuation)) (r : Nat) :
    (l.filter (fun e => match e.2 with | some c => c.queue != q | none => false)).find? (contOf r) =
      if r = q then none else l.find? (contOf r) := by
  rw [List.find?_filter]
  split
  next h =>
    subst h
    refine List.find?_eq_none.2 fun e _ => ?_
    rw [contOf]
    cases e.2 <;> simp
  next h =>
    congr 1
    funext e
    rw [contOf]
    cases e.2 with
    | none => rfl
    | some c =>
      by_cases hc : c.queue = r
      · simp [hc, h]
      · simp [hc]

theorem queueCont_cleared (r : Nat) : queueCont (queueCleared s q) r = if r = q then none else queueCont s r := by
  have hfind : (queueCleared s q).reed.conts.find? (contOf r) = if r = q then none else s.reed.conts.find? (contOf r) :=
    find_contOf_filter _ r
  rw [queueCont_eq, queueCont_eq, hfind]
  split <;> rfl

theorem queueAt_cleared (hr : srising 0 s.reed.queues = true) (r : Nat) :
    queueAt (queueCleared s q) r = if r = q then {} else queueAt s r := by
  change sget {} (sput {} s.reed.queues q {}) r = _
  split
  next h => subst h; exact sget_sput_same hr _ _
  next h => exact sget_sput_other _ _ hr (Ne.symm h) _

theorem queueFrames_congr (h : t.reed = s.reed) (r : Nat) : queueFrames t r = queueFrames s r := by
  rw [queueFrames, queueFrames, queueCont, queueCont, queueAt, queueAt, h]

theorem queueFrames_cleared (hr : srising 0 s.reed.queues = true) (r : Nat) :
    queueFrames (queueCleared s q) r = if r = q then [] else queueFrames s r := by
  rw [queueFrames, queueCont_cleared, queueAt_cleared hr]
  split
  · rfl
  · rfl

theorem flushQueue_reed : (flushQueue s q).reed = (queueCleared s q).reed := by
  have hk : Kept 26840 (queueCleared s q) (flushQueue s q) := by
    rw [flushQueue_eq]
    exact kept_foldl (.refl _ _) (fun _ _ h => queueDrop_kept h (.refl _))
  exact hk.reed_eq rfl

theorem cmdFinish_done_cnts {point : Nat} : CntsIn [14] s (cmdFinish d point Status.done 0 s) := by
  rw [cmdFinish, cmdRefused, if_neg (by decide)]
  exact post_cnts (by decide) _ _

theorem exec_queueFlush (h : s.cmdReady d 0x54 = true) (hd : domOn s 18 = true) : exec (.queueFlush d) s =
    .next (pauseScan (cmdFinish d s.pick.point Status.done 0 (flushQueue (s.cmdTaken d) (cmdP0 d % 2048)))) := by
  refine congrArg (fun u => Host.Outcome.next (pauseScan u)) (cmdRow_fin h ?_)
  rw [cmdQueueFlush, needDomain_on ((cmdTaken_domOn d 18).trans hd)]

end

/-- Settles O34: the window's writes run `reedWrite` on the state with the same registers (`exec_reedEntWrite`); refills and swaps
are `bucketsSet` of the listed shapers; a flush is `queueCleared` and one discard a frame. -/
theorem reedTablesAndShapers : Obligations.ReedTablesAndShapers := by
  unfold Obligations.ReedTablesAndShapers
  refine ⟨⟨fun s i hs h hd ht hi hlt => ⟨fun hok => ?_, fun hok => ?_, ?_⟩, fun s hs h hd ht hi ha => ?_, fun s hs h hd => ?_,
    fun s v hs h hd => ?_⟩, fun s hd hsh hb => ?_, fun s k hd hk => exec_refillTick_other hd hk, fun s d hs h hd hl => ?_,
    fun s d h hd hl => ?_, fun s n hb => ?_, fun s d hs h hd hq => ?_⟩
  · subst hi
    have hw : reedWrite (reedTaken s) 0 (fldS s Reg.reedEntSel 13 0) (reedDataImage s) = (0, setReed (reedTaken s)
        { s.reed with qrecS := sput [] s.reed.qrecS (fldS s Reg.reedEntSel 13 0) (trimRec 6 (reedDataImage s)) }) := if_pos hok
    obtain ⟨hr, hc⟩ := reedAnswered_reed (s := setReed (reedTaken s)
        { s.reed with qrecS := sput [] s.reed.qrecS (fldS s Reg.reedEntSel 13 0) (trimRec 6 (reedDataImage s)) })
      (Nat.zero_le 2) (stored_inv hs _)
    exact ⟨_, exec_reedEntWrite h hd hs (by rw [ht]; exact hlt) (by rw [ht]; exact hw), hr, hc⟩
  · subst hi
    have hw : reedWrite (reedTaken s) 0 (fldS s Reg.reedEntSel 13 0) (reedDataImage s) = (2, reedTaken s) :=
      if_neg (fun h => by rw [reedDataImage, hok] at h; cases h)
    obtain ⟨hr, hc⟩ := reedAnswered_reed (s := reedTaken s) (Nat.le_refl 2) (stored_inv hs _)
    exact ⟨_, exec_reedEntWrite h hd hs (by rw [ht]; exact hlt) (by rw [ht]; exact hw), hr, hc⟩
  · subst hi
    have hx := exec_reedEntRead h hd hs (by rw [ht]; exact hlt)
    rw [ht] at hx
    obtain ⟨hu, hread⟩ := reedShown_reads (img := reedImage (reedTaken s) 0 (fldS s Reg.reedEntSel 13 0)) (s := reedTaken s) (stored_inv hs _) 8
    have hreed := reedShown_reed (img := reedImage (reedTaken s) 0 (fldS s Reg.reedEntSel 13 0)) (s := reedTaken s) 8
    obtain ⟨hr, -⟩ := reedAnswered_reed (Nat.zero_le 2) hu
    refine ⟨_, hx, by rw [hr, hreed]; rfl, fun k hk => ?_⟩
    have hset : ∀ x, (setReed (reedShown (reedImage (reedTaken s) 0 (fldS s Reg.reedEntSel 13 0)) 8 (reedTaken s)) x).inv := fun _ => hu
    rw [reedAnswered, rdS_setReg_other (hset _) (by simp only [Reg.reedEntData, Reg.reedEntCmd]; omega)]
    exact hread k hk
  · have hw : reedWrite (reedTaken s) 3 (fldS s Reg.reedEntSel 13 0) (reedDataImage s) = (1, reedTaken s) := by
      have hl : anchorLocked (reedTaken s) (fldS s Reg.reedEntSel 13 0) = true := by
        rw [anchorLocked, flag, reedTaken, rd_stored_self hs, ← flag, ha, decide_eq_true hi, Bool.and_true]
      exact if_pos (by rw [hl, Bool.or_true])
    refine ⟨_, exec_reedEntWrite (r := 1) (t := reedTaken s) h hd hs (by rw [ht]; exact Nat.lt_trans hi (by decide)) (by rw [ht]; exact hw), ?_⟩
    exact (reedAnswered_reed (r := 1) (by decide) (stored_inv hs _)).1
  · exact ⟨_, exec_anchorLock h hd, flag_setBit (stored_inv hs _) (by decide), by rw [setBit_reed]; rfl⟩
  · obtain ⟨y, hy⟩ := exec_reedSwapRequest (v := v) h hd
    exact ⟨_, hy, rfl, rd_stored_unchanged hs y false⟩
  · have hreed : ∀ u, (pendCores u 0 3 1).reed = u.reed := fun u => (pendCores_kept (.refl _ u) (.refl _)).reed_eq rfl
    refine ⟨_, exec_refillTick hd, by rw [hreed]; rfl, fun n hn => ?_, fun n hn => ?_, by rw [hreed]; rfl⟩
    · rw [bucketAt, hreed]
      exact (sget_bucketsSet (nodup_keys hsh) hb n).trans (if_pos hn)
    · rw [bucketAt, hreed]
      exact (sget_bucketsSet (nodup_keys hsh) hb n).trans (if_neg hn)
  · obtain ⟨u, hu⟩ : ∃ u, setReed (s.cmdTaken d) { s.reed with loading := some (d.ring, d.index) } = u := ⟨_, rfl⟩
    have hb : cmdShaperLoad d (s.cmdTaken d) = .work (setReg u Reg.reedStat (rd (s.cmdTaken d) Reg.reedStat ||| 1)) := by
      rw [cmdShaperLoad_takes ((cmdTaken_domOn d 18).trans hd) (by rw [cmdTaken_reed, hl]), cmdTaken_reed, hu]
    have hui : u.inv := hu ▸ (cmdTaken_kept d).inv hs
    have hk := cmdWorks_kept (s := setReg u Reg.reedStat (rd (s.cmdTaken d) Reg.reedStat ||| 1)) d
    refine ⟨_, congrArg Host.Outcome.next (cmdRow_work h hb (by rw [setReg_pick, ← hu]; exact cmdTaken_point d)), ?_, ?_⟩
    · rw [hk.reed_eq rfl, setReg_reed, ← hu]
      rfl
    · rw [flag, rd, hk.cur_eq rfl, ← rd, rd_setReg_same hui, Nat.testBit_mod_two_pow, Nat.testBit_or]
      simp
  · have hb : cmdShaperSwap d (s.cmdTaken d) = .fin Status.done 0 (setReed (s.cmdTaken d) { s.reed with swapAsked := true }) := by
      rw [cmdShaperSwap_asks ((cmdTaken_domOn d 18).trans hd) (by rw [cmdTaken_reed, hl]), cmdTaken_reed]
    exact congrArg Host.Outcome.next (cmdRow_fin h hb)
  · rw [bucketAt, bucketAt, shaperSwap_reed]
    refine ⟨rfl, rfl, swapSet_free, swapSet_locked, fun hn => ?_⟩
    refine (sget_bucketsSet (List.nodup_dedup _) hb n).trans (if_pos ?_)
    exact List.mem_dedup.2 (List.mem_append.2 hn)
  · have hq' : srising 0 (s.cmdTaken d).reed.queues = true := by rw [cmdTaken_reed]; exact hq
    have hi : (s.cmdTaken d).inv := (cmdTaken_kept d).inv hs
    have hfin : ∀ u, Kept 10456 u (cmdFinish d s.pick.point Status.done 0 u) := fun u => cmdFinish_kept (.refl _ u) (.refl _)
    have hframes : ∀ r, queueFrames (pauseScan (cmdFinish d s.pick.point Status.done 0 (flushQueue (s.cmdTaken d) (cmdP0 d % 2048)))) r =
        if r = cmdP0 d % 2048 then [] else queueFrames s r := fun r => by
      rw [queueFrames_congr ((pauseScan_kept (.refl _ _) (.refl _)).reed_eq rfl), queueFrames_congr ((hfin _).reed_eq rfl),
        queueFrames_congr flushQueue_reed, queueFrames_cleared hq', queueFrames_congr (cmdTaken_reed d)]
    refine ⟨_, exec_queueFlush h hd, by rw [hframes, if_pos rfl], fun r hr => by rw [hframes, if_neg hr], ?_⟩
    obtain ⟨hv, hc⟩ := queueDrops_count (s := queueCleared (s.cmdTaken d) (cmdP0 d % 2048)) (q := cmdP0 d % 2048)
      (queueFrames (s.cmdTaken d) (cmdP0 d % 2048)) hi
    rw [← flushQueue_eq] at hv hc
    have hd' : CntsIn [14] _ (cmdFinish d s.pick.point Status.done 0 (flushQueue (s.cmdTaken d) (cmdP0 d % 2048))) :=
      cmdFinish_done_cnts
    rw [(pauseScan_from (Nat.le_refl _)).cntVal (hd'.inv hv) (by decide), hd'.cntVal hv (by decide) (by decide), hc,
      queueFrames_congr (cmdTaken_reed d)]
    have hcnt : (queueCleared (s.cmdTaken d) (cmdP0 d % 2048)).cnt = s.cnt := (cmdTaken_kept d).cnt_eq rfl
    rw [cntVal, hcnt, ← cntVal]

end Sys2Proof.Machine
end

