-- ==== Sys2Proof/Proofs/GatesAndSpool.lean ====
section
/-! SUPPORT. Proofs/GatesAndSpool.lean: gate lists (R233 to R235, R238), the freeing of a buffer and the layout of the pools (R242 to
R244, R254). -/

namespace Sys2Proof.Machine

open Sys2Proof

section
variable {s t u : State} {d : CmdDesc} {p h o code start cycle len : Nat} {g : Gate}

/-! ## Gate lists (R233 to R235, R238) -/

/-- A ready command's code and the ranges of its fields. -/
theorem cmdReady_ranges (h : s.cmdReady d code = true) : cmdCode d = code ∧ cmdRanges d = true := by
  simp only [State.cmdReady, Bool.and_eq_true, beq_iff_eq] at h
  obtain ⟨⟨⟨⟨⟨hcode, -⟩, -⟩, hok⟩, -⟩, -⟩ := h
  refine ⟨hcode, ?_⟩
  rw [cmdOk] at hok
  split at hok
  · exact (Bool.and_eq_true_iff.1 hok).2
  · cases hok

theorem gateLoad_len (h : s.cmdReady d 0x52 = true) : cmdLen d ≤ 256 := by
  obtain ⟨hc, hr⟩ := cmdReady_ranges h
  rw [cmdRanges, hc] at hr
  exact of_decide_eq_true (Bool.and_eq_true_iff.1 hr).2

theorem gateStart_cycle (h : s.cmdReady d 0x53 = true) : 0 < cmdP3 d % 2 ^ 30 := by
  obtain ⟨hc, hr⟩ := cmdReady_ranges h
  rw [cmdRanges, hc] at hr
  simp only [Bool.and_eq_true, decide_eq_true_eq] at hr
  omega

/-- A port's list put in place of the one it had: its entries, and the other ports' as before. -/
def listPut (m : Sparse (Nat × Nat)) (p n : Nat) (w : Nat → Nat × Nat) : Sparse (Nat × Nat) :=
  (List.range n).foldl (fun m e => sput (0, 0) m (256 * p + e) (w e)) (skeep (fun k => k / 256 != p) m)

theorem listPut_rising {m : Sparse (Nat × Nat)} (hm : srising 0 m = true) (p n : Nat) (w : Nat → Nat × Nat) :
    srising 0 (listPut m p n w) = true := by
  rw [listPut]
  induction n with
  | zero => exact srising_skeep hm _
  | succ n ih => rw [List.range_succ, List.foldl_append]; exact srising_sput ih _ _

theorem listPut_succ {m : Sparse (Nat × Nat)} (p n : Nat) (w : Nat → Nat × Nat) :
    listPut m p (n + 1) w = sput (0, 0) (listPut m p n w) (256 * p + n) (w n) := by
  rw [listPut, List.range_succ, List.foldl_append]
  rfl

theorem sget_listPut {m : Sparse (Nat × Nat)} (hm : srising 0 m = true) {n : Nat} (w : Nat → Nat × Nat) {e : Nat} (he : e < n) :
    sget (0, 0) (listPut m p n w) (256 * p + e) = w e := by
  induction n with
  | zero => omega
  | succ n ih =>
    have hr := listPut_rising hm p n w
    rw [listPut_succ]
    obtain rfl | hlt : e = n ∨ e < n := by omega
    · exact sget_sput_same hr _ _
    · rw [sget_sput_other _ _ hr (by omega), ih hlt]

theorem sget_listPut_other {m : Sparse (Nat × Nat)} (hm : srising 0 m = true) {n : Nat} (w : Nat → Nat × Nat) (hn : n ≤ 256) {k : Nat}
    (hk : k / 256 ≠ p) : sget (0, 0) (listPut m p n w) k = sget (0, 0) m k := by
  induction n with
  | zero => exact sget_skeep_in hm (p := fun k => k / 256 != p) (by simpa using hk)
  | succ n ih =>
    rw [listPut_succ, sget_sput_other _ _ (listPut_rising hm p n w) (by omega), ih (by omega)]

theorem setGate_reed : (setGate s p g).reed = { s.reed with gates := sput {} s.reed.gates p g } := by
  rw [setGate, setReg_reed]
  rfl

theorem gateAt_setGate (hg : g ≠ {}) : gateAt (setGate s p g) p = g := by
  rw [gateAt, setGate_reed]
  change sget {} (sput {} s.reed.gates p g) p = g
  rw [sput, if_neg hg, sget_sins_same]

theorem gateAt_congr (h : t.reed = s.reed) (p : Nat) : gateAt t p = gateAt s p := by rw [gateAt, gateAt, h]

theorem cmdFinish_reed {point st det : Nat} : (cmdFinish d point st det s).reed = s.reed := (cmdFinish_kept (.refl 10456 s) (.refl _)).reed_eq rfl

/-- The entries that a GATE_LOAD carries. -/
def gateEntry (d : CmdDesc) (e : Nat) : Nat × Nat := (leAt (cmdData d) (8 * e) 4 % 256, leAt (cmdData d) (8 * e + 4) 4 % 2 ^ 24)

/-- The loaded list in place. -/
def gateLoaded (d : CmdDesc) (s : State) : State :=
  setReed s { s.reed with gateAdmin := listPut s.reed.gateAdmin (cmdP0 d % 32) (cmdLen d) (gateEntry d) }

theorem cmdGateLoad_done (hd : domOn s 18 = true) (hp : (gateAt s (cmdP0 d % 32)).pending = none)
    (hok : ∀ e < cmdLen d, 100 ≤ leAt (cmdData d) (8 * e + 4) 4 % 2 ^ 24) :
    cmdGateLoad d s = .fin Status.done 0 (gateLoaded d s) := by
  have hfind : ((List.range (cmdLen d)).map (gateEntry d)).findIdx? (fun e => !gateEntOk e.2) = none := by
    rw [List.findIdx?_eq_none_iff]
    intro x hx
    obtain ⟨e, he, rfl⟩ := List.mem_map.1 hx
    have hlen : 100 ≤ leAt (cmdData d) (8 * e + 4) 4 % 2 ^ 24 := hok e (List.mem_range.1 he)
    simp only [gateEntOk, gateEntry, Nat.mod_mod, hlen, decide_true, Bool.not_true]
  have hput : ∀ m, (List.range (cmdLen d)).foldl (fun m e => sput (0, 0) m (256 * (cmdP0 d % 32) + e)
        (((List.range (cmdLen d)).map (gateEntry d)).getD e (0, 0))) m =
      (List.range (cmdLen d)).foldl (fun m e => sput (0, 0) m (256 * (cmdP0 d % 32) + e) (gateEntry d e)) m := fun m => by
    refine List.foldl_ext _ _ _ fun m e he => ?_
    have : ((List.range (cmdLen d)).map (gateEntry d)).getD e (0, 0) = gateEntry d e := by
      simp [List.getD_eq_getElem?_getD, List.mem_range.1 he]
    rw [this]
  rw [gateLoaded, listPut, ← hput, cmdGateLoad, needDomain_on hd]
  unfold gateEntry at hfind ⊢
  dsimp only at hfind ⊢
  rw [hp, hfind]
  rfl

theorem gateLoaded_reed : (gateLoaded d (s.cmdTaken d)).reed =
    { s.reed with gateAdmin := listPut s.reed.gateAdmin (cmdP0 d % 32) (cmdLen d) (gateEntry d) } := by
  rw [gateLoaded, cmdTaken_reed]
  rfl

theorem exec_gateLoad (h : s.cmdReady d 0x52 = true) (hd : domOn s 18 = true) (hp : (gateAt s (cmdP0 d % 32)).pending = none)
    (hok : ∀ e < cmdLen d, 100 ≤ leAt (cmdData d) (8 * e + 4) 4 % 2 ^ 24) :
    exec (.gateLoad d) s = .next (cmdFinish d s.pick.point Status.done 0 (gateLoaded d (s.cmdTaken d))) :=
  congrArg Host.Outcome.next (cmdRow_fin h
    (cmdGateLoad_done ((cmdTaken_domOn d 18).trans hd) (by rw [gateAt_congr (cmdTaken_reed d), hp]) hok))

/-- The first instant in phase with the base time that lies far enough ahead (R235). -/
def gateFirst (tod base cycle : Nat) : Nat :=
  let e := (tod + 250000 * nsUnit + nsUnit - 1) / nsUnit
  if e ≤ base then base else base + (e - base + cycle - 1) / cycle * cycle

theorem gateFirst_spec {tod base cycle : Nat} (hc : 0 < cycle) : base ≤ gateFirst tod base cycle ∧
    (gateFirst tod base cycle - base) % cycle = 0 ∧ tod + 250000 * nsUnit ≤ gateFirst tod base cycle * nsUnit := by
  have hu : 0 < nsUnit := by decide
  have he : tod + 250000 * nsUnit ≤ (tod + 250000 * nsUnit + nsUnit - 1) / nsUnit * nsUnit := by
    have := Nat.div_add_mod (tod + 250000 * nsUnit + nsUnit - 1) nsUnit
    have := Nat.mod_lt (tod + 250000 * nsUnit + nsUnit - 1) hu
    have := Nat.mul_comm nsUnit ((tod + 250000 * nsUnit + nsUnit - 1) / nsUnit)
    omega
  rw [gateFirst]
  generalize (tod + 250000 * nsUnit + nsUnit - 1) / nsUnit = e at he ⊢
  split
  next h => exact ⟨Nat.le_refl _, by rw [Nat.sub_self, Nat.zero_mod], Nat.le_trans he (Nat.mul_le_mul_right _ h)⟩
  next h =>
    refine ⟨Nat.le_add_right _ _, by rw [Nat.add_sub_cancel_left, Nat.mul_mod_left], Nat.le_trans he (Nat.mul_le_mul_right _ ?_)⟩
    have := Nat.div_add_mod (e - base + cycle - 1) cycle
    have := Nat.mod_lt (e - base + cycle - 1) hc
    have := Nat.mul_comm cycle ((e - base + cycle - 1) / cycle)
    omega

theorem exec_gateStart (h : s.cmdReady d 0x53 = true) (hd : domOn s 18 = true) (hp : (gateAt s (cmdP0 d % 32)).pending = none)
    (ht : domOn s 22 = true) (hr : s.time.run = true) : exec (.gateStart d) s = .next (cmdFinish d s.pick.point Status.done 0
      (setGate (s.cmdTaken d) (cmdP0 d % 32) { gateAt s (cmdP0 d % 32) with
        pending := some (gateFirst s.time.tod ((cmdP1 d + cmdP2 d % 65536 * 2 ^ 32) * 10 ^ 9 + cmdLen d) (cmdP3 d % 2 ^ 30),
          cmdP3 d % 2 ^ 30, bits (cmdP0 d) 24 16), armed := false })) := by
  refine congrArg Host.Outcome.next (cmdRow_fin h ?_)
  have htime : (s.cmdTaken d).time = s.time := (cmdTaken_kept d).time_eq rfl
  rw [cmdGateStart, needDomain_on ((cmdTaken_domOn d 18).trans hd)]
  rw [gateAt_congr (cmdTaken_reed d), hp, cmdTaken_domOn, ht, htime, hr]
  rfl

/-- The administrative list in operation. -/
def listStarted (p start cycle len : Nat) (s : State) : State :=
  setGate (setReed s { s.reed with gateOper := listPut s.reed.gateOper p len (fun e => sget (0, 0) s.reed.gateAdmin (256 * p + e)) }) p
    { operLen := len, cycle := cycle, start := start, entry := 0 }

theorem exec_gateListStart (hd : domOn s 18 = true) (hp : (gateAt s p).pending = some (start, cycle, len)) (hs : start ≤ todWhole s) :
    exec (.gateListStart p) s = .next (listStarted p start cycle len s) := by
  refine congrArg Host.Outcome.next ?_
  rw [if_pos hd]
  dsimp only
  rw [hp]
  exact if_pos hs

theorem gateFollow_entry (hl : (gateAt s p).operLen ≠ 0) : gateAt (gateFollow s p) p = { gateAt s p with entry := (gateNow s p).1 } ∧
    (gateFollow s p).reed.gateOper = s.reed.gateOper := by
  rw [gateFollow]
  dsimp only
  split
  next h => rw [h.resolve_left hl]; exact ⟨rfl, rfl⟩
  next h => exact ⟨gateAt_setGate (fun he => hl (congrArg Gate.operLen he)), by rw [setGate_reed]⟩

/-! ## The freeing of a buffer (R242, R254) -/

theorem exec_spoolFree (hd : domOn s 14 = true) (hh : h < 2 ^ 20) (ho : o < 64) :
    exec (.spoolFree h o) s = .next (pauseScan (spoolFree s h o)) := by
  refine congrArg Host.Outcome.next ?_
  rw [if_pos hd, Nat.mod_eq_of_lt hh, Nat.mod_eq_of_lt ho]

theorem spoolFree_good (hd : domOn s 14 = true) (hk : freeKind s h o = 0) (hb : (sget {} s.spool.bufs h).bad = false) :
    spoolFree s h o = setBuf (count s 9 1) h .freeing 0 := by
  rw [spoolFree, hd, if_neg (by decide), hk, if_pos rfl, hb]
  rfl

theorem spoolFree_bad (hd : domOn s 14 = true) (hk : freeKind s h o = 0) (hb : (sget {} s.spool.bufs h).bad = true) : ∃ st,
    (st = .freeing ∨ st = .quarantined) ∧ spoolFree s h o = setBuf (draw (count (count s 9 1) 9 9)).2 h st 0 := by
  refine ⟨if (draw (count (count s 9 1) 9 9)).1 % 2 = 0 then .freeing else .quarantined, ?_, ?_⟩
  · split
    · exact .inl rfl
    · exact .inr rfl
  · rw [spoolFree, hd, if_neg (by decide), hk, if_pos rfl, hb]
    rfl

/-- The counter of a rejected free, and its report. -/
def freeCounter (k : Nat) : Nat := if k = 1 then 8 else if k = 2 then 6 else 7
def freeTold (s : State) (k h : Nat) : State := raiseEv (count s 9 (freeCounter k)) 0x0F 0x040 (k * 2 ^ 20 + h % 2 ^ 20)

/-- A rejected free changes no more than SPOOL_FREE_ERR and SPOOL_FREE_OWN beside its report. -/
theorem spoolFree_rejected (hd : domOn s 14 = true) (hk : freeKind s h o ≠ 0) : Kept 8 (freeTold s (freeKind s h o) h) (spoolFree s h o) := by
  rw [spoolFree, hd, if_neg (by decide)]
  dsimp only
  rw [if_neg hk, ← freeCounter, ← freeTold]
  split
  · exact .refl _ _
  · exact setReg_kept (setReg_kept (.refl _ _) (.refl _)) (.refl _)

/-! ## The layout of the pools (R244) -/

theorem stg_congr_rdS (h : t.stg = s.stg) : rdS t = rdS s := by
  funext a
  rw [rdS, rdS, h]

/-- The staged layout registers in force. -/
def layoutForced (n : Nat) (s : State) : State := forUpTo n s (fun k s =>
  force (force s (Reg.spoolPoolCfg k) (rdS s (Reg.spoolPoolCfg k))) (Reg.spoolPoolCount k) (rdS s (Reg.spoolPoolCount k)))

theorem layoutForced_reads (hs : s.inv) (n : Nat) : (layoutForced n s).inv ∧ rdS (layoutForced n s) = rdS s ∧
    (layoutForced n s).spool = s.spool ∧ ∀ k < n, rd (layoutForced n s) (Reg.spoolPoolCfg k) = rdS s (Reg.spoolPoolCfg k) ∧
      rd (layoutForced n s) (Reg.spoolPoolCount k) = rdS s (Reg.spoolPoolCount k) := by
  induction n with
  | zero => exact ⟨hs, rfl, rfl, fun _ h => absurd h (Nat.not_lt_zero _)⟩
  | succ n ih =>
    obtain ⟨hi, hst, hsp, hr⟩ := ih
    rw [layoutForced] at hi hst hsp hr
    rw [layoutForced, forUpTo_succ, hst]
    have hf : ∀ (u : State) a v, u.inv → (force u a v).inv := fun u a v hu => (force_kept (.refl 8 u) (.refl 8)).inv hu
    have hlt : ∀ a, rdS s a % 2 ^ 32 = rdS s a := fun a => Nat.mod_eq_of_lt (BitVec.isLt _)
    have h1 := hf _ (Reg.spoolPoolCfg n) (rdS s (Reg.spoolPoolCfg n)) hi
    refine ⟨hf _ _ _ h1, (stg_congr_rdS rfl).trans hst, hsp, fun k hk => ?_⟩
    obtain rfl | hkn : k = n ∨ k < n := by omega
    · rw [rd_force_other h1 (by simp only [Reg.spoolPoolCfg, Reg.spoolPoolCount]; omega), rd_force_same hi, rd_force_same h1, hlt, hlt]
      exact ⟨rfl, rfl⟩
    · rw [rd_force_other h1 (by simp only [Reg.spoolPoolCfg, Reg.spoolPoolCount]; omega),
        rd_force_other hi (by simp only [Reg.spoolPoolCfg]; omega), rd_force_other h1 (by simp only [Reg.spoolPoolCount]; omega),
        rd_force_other hi (by simp only [Reg.spoolPoolCfg, Reg.spoolPoolCount]; omega)]
      exact hr k hkn

/-- A layout read from registers that agree in the layout registers. -/
theorem layoutOf_congr {r r' : Nat → Nat} (h : ∀ k < 4, r (Reg.spoolPoolCfg k) = r' (Reg.spoolPoolCfg k) ∧
    r (Reg.spoolPoolCount k) = r' (Reg.spoolPoolCount k)) : layoutOf r = layoutOf r' := by
  have hl : (List.range 4).map (fun k => (r (Reg.spoolPoolCfg k), r (Reg.spoolPoolCount k))) =
      (List.range 4).map (fun k => (r' (Reg.spoolPoolCfg k), r' (Reg.spoolPoolCount k))) := List.map_congr_left fun k hk => by
    obtain ⟨h1, h2⟩ := h k (List.mem_range.1 hk)
    rw [h1, h2]
  rw [layoutOf, hl, layoutOf]

/-- The pools as the registers in force say. -/
def layoutSet (s : State) : State :=
  let sp := { s.spool with pools := layoutOf (rd s), clockBufs := s.spool.bufs }
  { s with spool := { sp with low := (List.range (layoutOf (rd s)).length).foldl (fun m k => sput 0 m k (poolFree sp sp.bufs k)) [] } }

theorem layoutIn_forced : layoutIn s = layoutSet (layoutForced 4 s) := by
  rw [layoutIn, layoutSet, layoutForced]

/-- The minima's review behind a new layout. -/
theorem minimaReview_regs (n : Nat) : RegsIn [Reg.spoolStat, Reg.selvedgeStat] s
    (forUpTo n s (fun k s => if minimaOver s (rd s) k then minimaRefused s else s)) := by
  induction n with
  | zero => exact .refl _ s
  | succ n ih =>
    rw [forUpTo_succ]
    refine ih.trans ?_
    split
    · exact (regsIn_setBit (by decide) 2).trans (regsIn_raiseFree (by decide) _ _)
    · exact .refl _ _

theorem minimaReview_spool (n : Nat) : (forUpTo n s (fun k s => if minimaOver s (rd s) k then minimaRefused s else s)).spool = s.spool := by
  have hk : Kept 2136 s (forUpTo n s (fun k s => if minimaOver s (rd s) k then minimaRefused s else s)) :=
    forUpTo_kept (.refl _ s) (fun k t ht => by
      split
      · exact minimaRefused_kept ht (.refl _)
      · exact ht) (.of (.refl _) rfl)
  exact hk.spool_eq rfl

end

/-- Settles O35: a gate list is put as a whole (`listPut`), its start is `gateFirst`; a freed buffer is `spoolFree_good`,
`spoolFree_bad` or `spoolFree_rejected`; a layout comes in by `layoutForced`. -/
theorem gateListsAndSpool : Obligations.GateListsAndSpool := by
  unfold Obligations.GateListsAndSpool
  refine ⟨⟨fun s d h hd hp hok hr => ?_, fun s d h hd hp ht hrun => ?_, fun s p start cycle len hd hp hl hl2 hst hr => ?_,
    fun s p hd hp hl => ?_⟩, fun s h o hd hh ho hk hb => ?_, fun s h o hs hd hh ho hk hb => ?_, fun s h o hs hd hh ho hk => ?_,
    fun s hs hd hen hidle hw => ?_⟩
  · refine ⟨_, exec_gateLoad h hd hp hok, by rw [cmdFinish_reed, gateLoaded_reed], fun e he => ?_, fun k hk => ?_⟩
    · rw [cmdFinish_reed, gateLoaded_reed]
      exact sget_listPut hr _ he
    · rw [cmdFinish_reed, gateLoaded_reed]
      exact sget_listPut_other hr _ (gateLoad_len h) hk
  · refine ⟨_, _, exec_gateStart h hd hp ht hrun, ?_, gateFirst_spec (gateStart_cycle h)⟩
    rw [gateAt_congr cmdFinish_reed]
    exact gateAt_setGate (fun he => by cases congrArg Gate.pending he)
  · refine ⟨_, exec_gateListStart hd hp hst, gateAt_setGate (fun he => ?_), fun e he => ?_, by rw [listStarted, setGate_reed]; rfl⟩
    · have : len = 0 := congrArg Gate.operLen he
      omega
    · rw [operEntry, listStarted, setGate_reed]
      exact sget_listPut hr _ he
  · refine ⟨_, congrArg Host.Outcome.next (if_pos (by rw [hd, decide_eq_true hp]; rfl)), gateFollow_entry hl⟩
  · rw [exec_spoolFree hd hh ho, spoolFree_good hd hk hb]
  · obtain ⟨st, hst, he⟩ := spoolFree_bad hd hk hb
    have h1 : (count s 9 1).inv := count_inv hs 9 1
    have h2 : (count (count s 9 1) 9 9).inv := count_inv h1 9 9
    have h3 : (setBuf (draw (count (count s 9 1) 9 9)).2 h st 0).inv := by
      generalize count (count s 9 1) 9 9 = u at h2
      exact h2
    have hc : ∀ n, cntVal (setBuf (draw (count (count s 9 1) 9 9)).2 h st 0) 9 n = cntVal (count (count s 9 1) 9 9) 9 n := fun n => by
      generalize count (count s 9 1) 9 9 = u
      rfl
    refine ⟨_, st, exec_spoolFree hd hh ho, hst, ?_, ?_, ?_⟩
    · rw [(pauseScan_kept (.refl 67109016 _) (.refl _)).spool_eq rfl, he]
      have hsp : (count (count s 9 1) 9 9).spool = s.spool := by rw [count_spool, count_spool]
      generalize count (count s 9 1) 9 9 = u at hsp
      change { u.spool with bufs := sput {} u.spool.bufs h { st := st, owner := 0 } } = _
      rw [hsp]
    · rw [he, (pauseScan_from (Nat.le_refl _)).cntVal h3 (by decide), hc]
      exact (cntVal_countBy_other h1 (by decide) 1).trans (cntVal_countBy_same hs 9 1 1)
    · rw [he, (pauseScan_from (Nat.le_refl _)).cntVal h3 (by decide), hc]
      exact (cntVal_countBy_same h1 9 9 1).trans (by rw [count, cntVal_countBy_other hs (by decide)])
  · have hkept := spoolFree_rejected hd hk
    have hcnt : CntsIn [17] (count s 9 (freeCounter (freeKind s h o))) (freeTold s (freeKind s h o) h) := raiseEv_cnts (by decide) _ _ _
    have h1 : (count s 9 (freeCounter (freeKind s h o))).inv := count_inv hs _ _
    have hi := hkept.inv (hcnt.inv h1)
    have hc12 : freeCounter (freeKind s h o) ≤ 8 := by rw [freeCounter]; split <;> [skip; split] <;> decide
    refine ⟨_, exec_spoolFree hd hh ho, ?_, fun hroom => ?_, ?_⟩
    · rw [(pauseScan_kept (.refl 67109016 _) (.refl _)).spool_eq rfl, hkept.spool_eq rfl, freeTold,
        (raiseEv_kept (.refl 2072 _) (.refl _)).spool_eq rfl, count_spool]
    · rw [(pauseScan_kept (.refl 67109016 _) (.refl _)).selvedge_eq rfl, hkept.selvedge_eq rfl, freeTold, Nat.mod_eq_of_lt hh]
      have hw := arrive_waiting (s := count s 9 (freeCounter (freeKind s h o))) ⟨2, 0x0F, 0x040, freeKind s h o * 2 ^ 20 + h, 0x0F, 0x040⟩
        (by rw [count_selvedge]; exact hroom)
      rw [count_selvedge] at hw
      exact hw
    · rw [← freeCounter, (pauseScan_from (Nat.le_refl _)).cntVal hi (by simp only [cntKey]; omega), cntVal, hkept.cnt_eq rfl, ← cntVal,
        hcnt.cntVal h1 (by decide) (by omega)]
      exact cntVal_countBy_same hs _ _ _
  · obtain ⟨hi, hst, hsp, hr⟩ := layoutForced_reads hs 4
    have hset : (layoutSet (layoutForced 4 s)).inv := by
      generalize layoutForced 4 s = u at hi
      exact hi
    have hdue : layoutDue s (flag s Reg.spoolCtrl 0) = true := by rw [layoutDue, hd, hen, hidle, hw]; rfl
    have hregs := minimaReview_regs (s := layoutIn s) 4
    rw [layoutIn_forced] at hregs
    refine ⟨_, congrArg Host.Outcome.next (if_pos hdue), ?_, ?_, fun k hk => ?_⟩
    · rw [minimaReview_spool, layoutIn_forced]
      exact layoutOf_congr hr
    · rw [minimaReview_spool, layoutIn_forced, ← hsp]
      rfl
    · have hne : Reg.spoolPoolCfg k ∉ [Reg.spoolStat, Reg.selvedgeStat] ∧ Reg.spoolPoolCount k ∉ [Reg.spoolStat, Reg.selvedgeStat] := by
        simp only [Reg.spoolPoolCfg, Reg.spoolPoolCount, Reg.spoolStat, Reg.selvedgeStat, List.mem_cons, List.not_mem_nil, or_false]
        omega
      have hrd : ∀ a, rd (layoutSet (layoutForced 4 s)) a = rd (layoutForced 4 s) a := fun a => by
        generalize layoutForced 4 s = u
        rfl
      rw [layoutIn_forced, hregs.rd hset hne.1, hregs.rd hset hne.2, hrd, hrd]
      exact hr k hk

end Sys2Proof.Machine
end

