-- ==== Sys2Proof/Proofs/LaneGroups.lean ====
section
/-! SUPPORT. Proofs/LaneGroups.lean: the status register of a group's other lane is written as its receiver adapts; O36's clause about
it does not ask that the registers in force be listed in order, and fails where that write uncovers the lane's own mode (R285, R290). -/

namespace Sys2Proof.Machine

open Sys2Proof

/-- Lane 0 trains as the head of a group of two. The registers in force list LANE_STAT[1] in front of LANE_CFG[1], whose mode 5 is
not found there: lane 1 reads mode 0. -/
def laneCfgHidden : State :=
  { State.reset with power := { mode := .listen, ready := true, clkPll := true, corePllLock := true, isOn := 2 ^ 32 - 1 }
                     ports := { lanes := [(0, { st := .train })] }
                     cur := [(Reg.laneCfg 0, 0x70000#32), (Reg.laneStat 1, 0x10000#32), (Reg.laneCfg 1, 0x50000#32)] }

/-- Lane 1 is run by lane 0 before the command, and by itself once LANE_STAT[1] has gone. -/
theorem laneHead_hidden : laneHead laneCfgHidden 1 = 0 := by decide
theorem laneHead_uncovered : laneHead (setLane laneCfgHidden 1 { laneAt laneCfgHidden 1 with ctle := 0 }) 1 = 1 := by decide

/-- Its setting alone is to change; the lane goes DOWN. -/
theorem laneSet_off : (laneAt (setLane laneCfgHidden 1 { laneAt laneCfgHidden 1 with ctle := 0 }) 1).st = .off := by decide
theorem laneAdapted_down : (Option.map (fun t => (laneAt t 1).st) (match exec (.laneAdapted 1 0) laneCfgHidden with
    | .next t => some t
    | _ => none)) = some .down := by decide

/-- Refutes O36: LANE_ADAPTED of lane 1 with setting 0 while lane 0 heads its group and trains. Writing LANE_STAT[1] as 0 removes
its entry, LANE_CFG[1] is found with mode 5, and the lane, its own head now, leaves for DOWN. -/
theorem not_lanesTrainAndLink : ¬ Obligations.LanesTrainAndLink := by
  unfold Obligations.LanesTrainAndLink
  rintro ⟨hadapt, -⟩
  obtain ⟨-, hmember, -⟩ := hadapt laneCfgHidden 1 0 (by decide) (by decide) (by decide) (by decide)
  have hexec := hmember (by decide) (by decide)
  have hdown := laneAdapted_down
  rw [hexec, Option.map_some, laneSet_off] at hdown
  exact absurd hdown (by decide)

end Sys2Proof.Machine
end

