-- ==== Sys2Proof/Proofs/YonovBlocks.lean ====
section
/-! SUPPORT. Proofs/YonovBlocks.lean: what a write of a lane's state leaves, blocks sent on a lane, and the control blocks of the Yonov
link (R291, R300 to R305). -/

namespace Sys2Proof.Machine

open Sys2Proof

section
variable {s t u : State} {n m p a sync st : Nat} {x : Lane} {l : List Byte} {v : Word}

/-! ## A lane's state -/

theorem setLane_ports : (setLane s n x).ports = { s.ports with lanes := sput {} s.ports.lanes n x } := by
  rw [setLane, setReg_ports, setFld_ports]
  rfl

theorem setLane_lanes : (setLane s n x).ports.lanes = sput {} s.ports.lanes n x := by rw [setLane_ports]

@[simp] theorem setLane_out : (setLane s n x).out = s.out := (setLane_kept (.refl 67108872 s) (.refl _)).out_eq rfl

theorem ne_default_of_st (h : x.st ≠ .off) : x ≠ {} := fun he => h (congrArg Lane.st he)

theorem laneAt_setLane (h : x.st ≠ .off) : laneAt (setLane s n x) n = x := by
  rw [laneAt, setLane_lanes, sput, if_neg (ne_default_of_st h), sget_sins_same]

theorem macLink_lanes (p : Nat) (up : Bool) : (macLink s p up).ports.lanes = s.ports.lanes := by
  have hn : ∀ u kind k st, (linkNotify u kind k st).ports = u.ports := fun u _ _ _ => (linkNotify_kept (.refl 8344 u) (.refl _)).ports_eq rfl
  rw [macLink]
  dsimp only
  split
  · rfl
  · rw [hn, setBit_ports, setMac, setReg_ports]
    rfl

/-- A change to a state other than OFF changes no other field of the lane. -/
theorem laneAt_laneGo {w : LaneSt} (h : (laneAt s n).st ≠ w) (hw : w ≠ .off) : laneAt (laneGo s n w) n = { laneAt s n with st := w } := by
  have hn : ∀ u kind k st, (linkNotify u kind k st).ports = u.ports := fun u _ _ _ => (linkNotify_kept (.refl 8344 u) (.refl _)).ports_eq rfl
  have hset : laneAt (linkNotify (setBit (setLane s n { laneAt s n with st := w }) (Reg.laneStat n) 4) 0 n (laneCode w)) n =
      { laneAt s n with st := w } := by
    rw [laneAt, hn, setBit_ports]
    exact laneAt_setLane hw
  rw [laneGo]
  dsimp only
  rw [if_neg (by simpa using h)]
  split
  · rw [laneAt, macLink_lanes, macLink_lanes]
    exact hset
  · exact hset

/-! ## Blocks sent (R300) -/

theorem sendBlock_out : (sendBlock s n sync l).out = s.out ++ [.lineBlock n sync (scramble64 (laneAt s n).scr (blockWord l)).2] := by
  rw [sendBlock]
  dsimp only
  rw [emit, setLane_out]

theorem laneAt_sendBlock (h : (laneAt s n).st ≠ .off) :
    laneAt (sendBlock s n sync l) n = { laneAt s n with scr := (scramble64 (laneAt s n).scr (blockWord l)).1 } := by
  rw [sendBlock]
  exact laneAt_setLane (s := s) (n := n) (x := { laneAt s n with scr := (scramble64 (laneAt s n).scr (blockWord l)).1 }) h

/-- The scrambler's state behind a list of blocks. -/
def scrAfter (st : Nat) (l : List (Nat × List Byte)) : Nat := l.foldl (fun st b => (scramble64 st (blockWord b.2)).1) st

theorem scrAfter_cons (st : Nat) (b : Nat × List Byte) (l : List (Nat × List Byte)) :
    scrAfter st (b :: l) = scrAfter (scramble64 st (blockWord b.2)).1 l := rfl

theorem blocksSent_cons (n st sync : Nat) (w : List Byte) (l : List (Nat × List Byte)) : blocksSent n st ((sync, w) :: l) =
    .lineBlock n sync (scramble64 st (blockWord w)).2 :: blocksSent n (scramble64 st (blockWord w)).1 l := rfl

theorem blocksSent_append (n : Nat) (st : Nat) (l m : List (Nat × List Byte)) :
    blocksSent n st (l ++ m) = blocksSent n st l ++ blocksSent n (scrAfter st l) m := by
  induction l generalizing st with
  | nil => rfl
  | cons b l ih =>
    obtain ⟨sync, w⟩ := b
    rw [List.cons_append, blocksSent_cons, blocksSent_cons, scrAfter_cons, ih, List.cons_append]

/-- Blocks sent one after the other on a lane that is not OFF. -/
theorem sendBlocks_spec (l : List (Nat × List Byte)) (h : (laneAt s n).st ≠ .off) :
    (l.foldl (fun s b => sendBlock s n b.1 b.2) s).out = s.out ++ blocksSent n (laneAt s n).scr l ∧
      laneAt (l.foldl (fun s b => sendBlock s n b.1 b.2) s) n = { laneAt s n with scr := scrAfter (laneAt s n).scr l } := by
  induction l generalizing s with
  | nil => exact ⟨(List.append_nil _).symm, rfl⟩
  | cons b l ih =>
    obtain ⟨sync, w⟩ := b
    have hx := laneAt_sendBlock (sync := sync) (l := w) h
    obtain ⟨ho, hl⟩ := ih (s := sendBlock s n sync w) (by rw [hx]; exact h)
    rw [hx] at ho hl
    rw [List.foldl_cons]
    exact ⟨by rw [ho, sendBlock_out, List.append_assoc, blocksSent_cons, List.singleton_append], by rw [hl, scrAfter_cons]⟩

/-- The queued YMGMT of a lane, as blocks. -/
def ymgmtQueued (x : Lane) : List (Nat × List Byte) := x.txFifo.map (fun v => (2, ymgmtBlock v))

theorem sendYmgmt_eq : sendYmgmt s n =
    (ymgmtQueued (laneAt s n)).foldl (fun s b => sendBlock s n b.1 b.2) (setLane s n { laneAt s n with txFifo := [] }) := by
  rw [sendYmgmt, ymgmtQueued, List.foldl_map]

/-- The queued YMGMT of a lane that is not OFF leave in order. -/
theorem sendYmgmt_spec (h : (laneAt s n).st ≠ .off) :
    (sendYmgmt s n).out = s.out ++ blocksSent n (laneAt s n).scr (ymgmtQueued (laneAt s n)) ∧
      laneAt (sendYmgmt s n) n = { laneAt s n with txFifo := [], scr := scrAfter (laneAt s n).scr (ymgmtQueued (laneAt s n)) } := by
  have hx : laneAt (setLane s n { laneAt s n with txFifo := [] }) n = { laneAt s n with txFifo := [] } := laneAt_setLane h
  have hs := sendBlocks_spec (s := setLane s n { laneAt s n with txFifo := [] }) (ymgmtQueued (laneAt s n)) (by rw [hx]; exact h)
  rw [← sendYmgmt_eq, hx, setLane_out] at hs
  exact hs

/-! ## A lane's registers -/

/-- A register of lane `n`. -/
def laneReg (a n : Nat) : Bool :=
  !inMsix a && decide (a ≠ Reg.skeinWinData) && match findRow a with
    | some r => match r.dom with
      | .lane => decide (rowIndex r a = n)
      | _ => false
    | none => false

theorem hostReaches_lane (ha : laneReg a n = true) (hn : n < 16) (h : hostReach s = true) (hd : domOn s (laneDom n) = true) :
    s.hostReaches a = true := by
  rw [laneReg, Bool.and_eq_true, Bool.and_eq_true, decide_eq_true_eq, Bool.not_eq_true'] at ha
  obtain ⟨⟨hm, hw⟩, hr⟩ := ha
  obtain ⟨r, hf, hdom, hi⟩ : ∃ r, findRow a = some r ∧ r.dom = .lane ∧ rowIndex r a = n := by
    cases hf : findRow a with
    | none => rw [hf] at hr; cases hr
    | some r =>
      rw [hf] at hr
      dsimp only at hr
      cases hd : r.dom with
      | lane => rw [hd] at hr; exact ⟨r, rfl, hd, of_decide_eq_true hr⟩
      | _ => rw [hd] at hr; cases hr
  have hdomain : regDomain s a = laneDom n := by
    rw [regDomain, if_neg hw, hf]
    dsimp only
    rw [hdom]
    dsimp only
    rw [hi, laneDom]
    split <;> omega
  rw [State.hostReaches, h, hf, hdomain, hd]
  change (true && true && !inMsix a && true) = true
  rw [hm]
  rfl

/-! ## YMGMT (R305) -/

/-- The fields of LANE_YMGMT_TX_HI: SEND, FULL and the payload's three low bytes. -/
def ymgmtFields : List Fld := [⟨31, 31, .wo, []⟩, ⟨30, 30, .ro, []⟩, ⟨23, 0, .imm, []⟩]

theorem ymgmtTxHi_row (hn : n < 16) : laneReg (Reg.laneYmgmtTxHi n) n = true ∧ plainReg (Reg.laneYmgmtTxHi n) = true ∧
    inSafety (Reg.laneYmgmtTxHi n) = false ∧ (findRow (Reg.laneYmgmtTxHi n)).map (·.fields) = some ymgmtFields := by
  interval_cases n <;> decide

theorem fieldsWritten_ymgmt {r : RegRow} (hf : r.fields = ymgmtFields) (w : Nat) :
    fieldsWritten r s a w = (insBits (rdS s a) 23 0 (bits w 23 0), insBits (rd s a) 23 0 (bits w 23 0), false) := by
  have hwo : ∀ y, fldWrite w y ⟨31, 31, .wo, []⟩ = y := fun y => fldWrite_unstored rfl y
  have hro : ∀ y, fldWrite w y ⟨30, 30, .ro, []⟩ = y := fun y => fldWrite_unstored rfl y
  rw [fieldsWritten, hf, ymgmtFields, List.foldl_cons, hwo, List.foldl_cons, hro, List.foldl_cons, List.foldl_nil, fldWrite]
  exact if_pos (.inr rfl)

/-- The registers as a write of LANE_YMGMT_TX_HI stores it. -/
def ymgmtStored (s : State) (n w : Nat) : State := stored s (Reg.laneYmgmtTxHi n) (insBits (rdS s (Reg.laneYmgmtTxHi n)) 23 0 (bits w 23 0),
  insBits (rd s (Reg.laneYmgmtTxHi n)) 23 0 (bits w 23 0), false)

theorem trafficEffect_ymgmt (hn : n < 16) {w : Nat} (hw : w.testBit 31 = true) :
    trafficEffect (Reg.laneYmgmtTxHi n) w s = ymgmtSend n s := by
  have hat : instAt (Reg.laneYmgmtTxHi n) (Reg.laneYmgmtTxHi 0) 16 16 = some n := by
    interval_cases n <;> rfl
  have hne : ∀ b, b < Reg.laneYmgmtTxHi 0 ∨ Reg.laneYmgmtTxHi 15 < b → Reg.laneYmgmtTxHi n ≠ b := fun b hb => by
    simp only [Reg.laneYmgmtTxHi] at hb ⊢
    omega
  rw [trafficEffect, if_neg (hne _ (by decide)), if_neg (hne _ (by decide)), if_neg (hne _ (by decide)), if_neg (hne _ (by decide)),
    if_neg (hne _ (by decide)), if_neg (hne _ (by decide)), if_neg (hne _ (by decide)), if_neg (hne _ (by decide)),
    if_neg (hne _ (by decide)), if_neg (hne _ (by decide)), hat]
  exact if_pos hw

theorem exec_ymgmtSend (hn : n < 16) (h : hostReach s = true) (hd : domOn s (laneDom n) = true) (hv : v.toNat.testBit 31 = true) :
    exec (.ymgmtSend n 15 v) s = .next (ymgmtSend n (ymgmtStored s n v.toNat)) := by
  obtain ⟨hr, hp, hsafe, hfields⟩ := ymgmtTxHi_row hn
  have hreach := hostReaches_lane hr hn h hd
  obtain ⟨r, hrow, hf⟩ := Option.map_eq_some_iff.1 hfields
  refine congrArg Host.Outcome.next ((if_pos hn).trans ?_)
  have hq : Reg.laneYmgmtTxHi n ∉ lineRegs ∧ hostQuiet (Reg.laneYmgmtTxHi n) = true := by
    clear hrow hreach hr hp hsafe hfields hd hv
    interval_cases n <;> decide
  refine (hostStore_reached hreach hrow).trans ?_
  rw [regStore_plain hp (.inl hsafe), fieldsWritten_ymgmt hf, if_neg (by simp), writeEffects_traffic hq.1 hq.2, trafficEffect_ymgmt hn hv,
    ymgmtStored]

theorem ymgmtRead_pops {w : Nat} {rest : List Nat} (hs : s.inv) (hx : (laneAt s n).rxFifo = w :: rest) :
    (ymgmtRead n s).hostRead = BitVec.ofNat 32 (w / 2 ^ 24) ∧
      (ymgmtRead n s).ports.lanes = sput {} s.ports.lanes n { laneAt s n with rxFifo := rest } ∧
      rdS (ymgmtRead n s) (Reg.laneYmgmtRxHi n) = 2 ^ 31 + w % 2 ^ 24 := by
  have hl : (setLane s n { laneAt s n with rxFifo := rest }).inv := (setLane_kept (.refl 67108872 s) (.refl _)).inv hs
  obtain ⟨u, hu⟩ : ∃ u, setReg (setLane s n { laneAt s n with rxFifo := rest }) (Reg.laneYmgmtRxHi n) (2 ^ 31 + w % 2 ^ 24) = u := ⟨_, rfl⟩
  have hlanes : u.ports.lanes = sput {} s.ports.lanes n { laneAt s n with rxFifo := rest } := by rw [← hu, setReg_ports, setLane_lanes]
  have hrx : rdS u (Reg.laneYmgmtRxHi n) = 2 ^ 31 + w % 2 ^ 24 := by
    rw [← hu, rdS_setReg_same hl]
    exact Nat.mod_eq_of_lt (by have := Nat.mod_lt w (show 0 < 2 ^ 24 by decide); omega)
  have heq : ymgmtRead n s = { u with hostRead := BitVec.ofNat 32 (w / 2 ^ 24) } := by
    rw [ymgmtRead, ← hu]
    dsimp only
    rw [hx]
  rw [heq]
  exact ⟨rfl, hlanes, hrx⟩

theorem ymgmtRead_empty (hs : s.inv) (hx : (laneAt s n).rxFifo = []) :
    (ymgmtRead n s).hostRead = 0 ∧ (rdS (ymgmtRead n s) (Reg.laneYmgmtRxHi n)).testBit 31 = false := by
  obtain ⟨u, hu⟩ : ∃ u, clrBit s (Reg.laneYmgmtRxHi n) 31 = u := ⟨_, rfl⟩
  have hrx : (rdS u (Reg.laneYmgmtRxHi n)).testBit 31 = false := by
    rw [← hu, clrBit, rdS_setFld_same hs, Nat.testBit_mod_two_pow, insBits_testBit (Nat.le_refl _)]
    simp
  have heq : ymgmtRead n s = { u with hostRead := 0 } := by
    rw [ymgmtRead, ← hu]
    dsimp only
    rw [hx]
  rw [heq]
  exact ⟨rfl, hrx⟩

theorem exec_ymgmtRxRead (hn : n < 16) (h : hostReach s = true) (hd : domOn s (laneDom n) = true) :
    exec (.ymgmtRxRead n 15) s = .next (ymgmtRead n s) := by
  have hr : laneReg (Reg.laneYmgmtRxLo n) n = true := by
    clear h hd
    interval_cases n <;> decide
  have hread : regRead (Reg.laneYmgmtRxLo n) s = ymgmtRead n s := by
    have hat : instAt (Reg.laneYmgmtRxLo n) (Reg.laneYmgmtRxLo 0) 16 16 = some n ∧ instAt (Reg.laneYmgmtRxLo n) (Reg.timeCapNs 0) 16 2 = none ∧
        Reg.laneYmgmtRxLo n ≠ Reg.timeNowNs ∧ Reg.laneYmgmtRxLo n ≠ Reg.skeinWinData := by
      clear hr h hd
      interval_cases n <;> decide
    obtain ⟨h1, h2, h3, h4⟩ := hat
    rw [regRead, if_neg h3, if_neg h4, h1, h2]
  exact congrArg Host.Outcome.next ((if_pos hn).trans ((hostLoad_whole (hostReaches_lane hr hn h hd)).trans hread))

/-! ## Control blocks (R301, R303, R304) -/

theorem yonovOn_running (h : yonovOn s n = true) : (laneAt s n).st ≠ .off := fun he => by
  rw [yonovOn, he] at h
  simp [laneCode] at h

theorem exec_yidle_counts (hon : yonovOn s n = true) (hl : (laneAt s n).lock = true) : exec (.yidle n true) s =
    .next (if 127 ≤ (laneAt s n).idles ∧ (laneAt s n).st = .down then
        laneGo (setLane s n { laneAt s n with peerRdy := true, idles := min 128 ((laneAt s n).idles + 1) }) n .up
      else setLane s n { laneAt s n with peerRdy := true, idles := min 128 ((laneAt s n).idles + 1) }) :=
  congrArg Host.Outcome.next (if_pos (by rw [hon, hl]; rfl))

theorem exec_yidle_stops (hon : yonovOn s n = true) (hl : (laneAt s n).lock = true) (hst : (laneAt s n).st = .up) :
    exec (.yidle n false) s = .next (laneGo (setLane s n { laneAt s n with peerRdy := false, idles := 0 }) n .down) := by
  refine congrArg Host.Outcome.next ((if_pos (by rw [hon, hl]; rfl)).trans ?_)
  exact if_pos hst

theorem exec_yidleTimeout (hon : yonovOn s n = true) (hst : (laneAt s n).st = .up) :
    exec (.yidleTimeout n) s = .next (laneGo (setLane s n { laneAt s n with idles := 0 }) n .down) :=
  congrArg Host.Outcome.next (if_pos (by rw [hon, hst]; rfl))

theorem exec_yidleSend (hon : yonovOn s n = true) (htx : (laneAt s n).tx = none) :
    exec (.yidleSend n) s = .next (sendBlock (sendYmgmt s n) n 2 (yidleBlock (laneAt s n).lock)) :=
  congrArg Host.Outcome.next (if_pos (by rw [hon, htx]; rfl))

end

/-- Settles O37: each block by its equation; `laneAt_setLane` and `laneAt_laneGo` say what the lane holds behind it, and
`sendYmgmt_spec` what leaves on it. -/
theorem yonovBlocksAct : Obligations.YonovBlocksAct := by
  unfold Obligations.YonovBlocksAct
  refine ⟨fun s n hon => ?_, fun s n hs hn h hd => ⟨fun v hv hl => ?_, fun v rest hx => ?_, fun hx => ?_⟩⟩
  · have hrun := yonovOn_running hon
    refine ⟨fun hl => ?_, fun hst => ?_, fun htx => ?_, fun hh => ?_, fun hh => congrArg Host.Outcome.next (if_pos (by rw [hon, hh]; rfl))⟩
    · have hand : (yonovOn s n && (laneAt s n).lock) = true := by rw [hon, hl]; rfl
      refine ⟨fun hi => ?_, fun hi hst => ?_, fun hst => ?_, fun b => congrArg Host.Outcome.next (if_pos hand),
        fun v hv => congrArg Host.Outcome.next ((if_pos hand).trans (if_pos hv)),
        fun v hv => congrArg Host.Outcome.next ((if_pos hand).trans (if_neg (Nat.not_lt.2 hv))), congrArg Host.Outcome.next (if_pos hand)⟩
      · rw [exec_yidle_counts hon hl, if_neg (by omega), Nat.min_eq_right (by omega)]
      · have hx : laneAt (setLane s n { laneAt s n with peerRdy := true, idles := min 128 ((laneAt s n).idles + 1) }) n = _ := laneAt_setLane hrun
        have hgo := laneAt_laneGo (s := setLane s n { laneAt s n with peerRdy := true, idles := min 128 ((laneAt s n).idles + 1) })
          (n := n) (w := .up) (by rw [hx]; simp [hst]) (by decide)
        rw [hx] at hgo
        refine ⟨_, (exec_yidle_counts hon hl).trans (congrArg Host.Outcome.next (if_pos ⟨hi, hst⟩)), by rw [hgo], ?_, by rw [hgo]⟩
        rw [hgo]
        exact Nat.min_eq_left (by omega)
      · have hx : laneAt (setLane s n { laneAt s n with peerRdy := false, idles := 0 }) n = _ := laneAt_setLane hrun
        have hgo := laneAt_laneGo (s := setLane s n { laneAt s n with peerRdy := false, idles := 0 }) (n := n) (w := .down)
          (by rw [hx]; simp [hst]) (by decide)
        rw [hx] at hgo
        exact ⟨_, exec_yidle_stops hon hl hst, by rw [hgo], by rw [hgo], by rw [hgo]⟩
    · have hx : laneAt (setLane s n { laneAt s n with idles := 0 }) n = _ := laneAt_setLane hrun
      have hgo := laneAt_laneGo (s := setLane s n { laneAt s n with idles := 0 }) (n := n) (w := .down) (by rw [hx]; simp [hst]) (by decide)
      rw [hx] at hgo
      exact ⟨_, exec_yidleTimeout hon hst, by rw [hgo], by rw [hgo]⟩
    · obtain ⟨ho, hx⟩ := sendYmgmt_spec hrun
      refine ⟨_, exec_yidleSend hon htx, ?_, ?_⟩
      · rw [laneAt_sendBlock (by rw [hx]; exact hrun), hx]
      · rw [sendBlock_out, ho, hx, ← ymgmtQueued, blocksSent_append, List.append_assoc, blocksSent_cons, blocksSent]
    · refine ⟨_, congrArg Host.Outcome.next (if_pos (by rw [hon, hh]; rfl)), ?_, laneAt_sendBlock hrun⟩
      rw [sendBlock_out, blocksSent_cons, blocksSent]
  · have hst : (ymgmtStored s n v.toNat).inv := stored_inv hs _
    have hlane : laneAt (ymgmtStored s n v.toNat) n = laneAt s n := rfl
    have hlo : rdS (ymgmtStored s n v.toNat) (Reg.laneYmgmtTxLo n) = rdS s (Reg.laneYmgmtTxLo n) :=
      rdS_stored_other hs (by simp only [Reg.laneYmgmtTxHi, Reg.laneYmgmtTxLo]; omega) _
    have hhi : fldS (ymgmtStored s n v.toNat) (Reg.laneYmgmtTxHi n) 23 0 = v.toNat % 2 ^ 24 := by
      rw [fldS, ymgmtStored, rdS_stored_same hs, bits_insBits (by decide) (by decide)]
      simp [bits]
    refine ⟨_, exec_ymgmtSend hn h hd hv, ?_⟩
    rw [ymgmtSend]
    dsimp only
    rw [hlane, if_pos hl, hlo, hhi, laneAt, setLane_lanes, sput, if_neg, sget_sins_same]
    intro he
    have hfifo := congrArg Lane.txFifo he
    simp at hfifo
  · obtain ⟨h1, h2, h3⟩ := ymgmtRead_pops hs hx
    exact ⟨_, exec_ymgmtRxRead hn h hd, h1, h2, h3⟩
  · obtain ⟨h1, h2⟩ := ymgmtRead_empty hs hx
    exact ⟨_, exec_ymgmtRxRead hn h hd, h1, h2⟩

end Sys2Proof.Machine
end

