-- ==== Sys2Proof/Proofs/ReceivedFrames.lean ====
section
/-! SUPPORT. Proofs/ReceivedFrames.lean: the tests of received frames, and pause on a MAC (R302, R307, R312 to R314). -/

namespace Sys2Proof.Machine

open Sys2Proof

section
variable {s t u : State} {n p l due : Nat} {y : YonovIn} {b d : List Byte} {rest : List (Nat × List Byte)} {body : YBody}
  {hold : Option Bool} {r : RxIn} {x : MacU}

/-! ## Yonov frames (R302, R304) -/

theorem exec_yonovFrameRx (hon : yonovOn s n = true) (hl : (laneAt s n).lock = true) (hd : descrambled y.prior y.blocks = (2, b) :: rest)
    (hb : byteAt b 0 = 0x55) (hw : yWalk rest [] none = (body, hold)) : exec (.yonovFrameRx n y) s =
      .next (pauseScan (yonovTests n b body (hold.elim s (fun h => setLane s n { laneAt s n with holdRx := h })))) := by
  refine congrArg Host.Outcome.next ((if_pos (by rw [hon, hl]; rfl)).trans ?_)
  rw [hd]
  dsimp only
  rw [if_neg (by rw [hb]; decide), hw]
  cases hold <;> rfl

/-- The length that YSTART states. -/
def ystartLen (b : List Byte) : Nat := beAt b 1 2 % 2 ^ 14

theorem yonovTests_start (h : crcOf 8 0x07 0xFF (slice b 1 6) ≠ byteAt b 7 ∨ ystartLen b < 14) : yonovTests n b body s = laneCount s n 6 :=
  if_pos h

section
variable (hc : crcOf 8 0x07 0xFF (slice b 1 6) = byteAt b 7) (hl : 14 ≤ ystartLen b)
include hc hl

theorem yonovTests_body : yonovTests n b body s = match body with
    | .unfinished => s
    | .broken => laneCount (laneCount s n 0) n 7
    | .ended d fin =>
      if d.length ≠ (ystartLen b + 7) / 8 * 8 then laneCount s n 7
      else if (byteAt fin 5).testBit 0 then laneCount s n 9
      else if crc32c (d.take (ystartLen b)) ≠ beAt fin 1 4 then laneCount s n 8
      else heddleInput (laneCount s n 5) { data := d.take (ystartLen b), srcType := 1, srcId := n } := by
  have hneg : ¬ (crcOf 8 0x07 0xFF (slice b 1 6) ≠ byteAt b 7 ∨ ystartLen b < 14) := fun h => h.elim (fun h => h hc) (Nat.not_lt.2 hl)
  refine (if_neg hneg).trans ?_
  cases body <;> rfl

end

/-! ## Frames on a MAC (R307) -/

/-- A counter's step leaves every other part alone. -/
theorem countBy_form (s : State) (g k n : Nat) : ∃ c w, countBy s g k n = { s with cnt := c, sat := w } := by
  unfold countBy countKey
  dsimp only
  split
  · exact ⟨_, _, rfl⟩
  · exact ⟨_, _, rfl⟩

theorem fecCounts_form (s : State) (p : Nat) (r : RxIn) : ∃ c w, fecCounts s p r = { s with cnt := c, sat := w } := by
  obtain ⟨c, w, h1⟩ := countBy_form s 12 (14 * macLane p + 3) r.fecCorr
  obtain ⟨c', w', h2⟩ := countBy_form { s with cnt := c, sat := w } 12 (14 * macLane p + 4) r.fecUncorr
  exact ⟨c', w', by rw [fecCounts, h1, h2]⟩

/-- The counters of a good frame. -/
def goodCounts (s : State) (p : Nat) (r : RxIn) : State := countBy (macCount (fecCounts s p r) p 0) 11 (16 * p + 1) r.data.length

theorem goodCounts_form (s : State) (p : Nat) (r : RxIn) : ∃ c w, goodCounts s p r = { s with cnt := c, sat := w } := by
  obtain ⟨c, w, h1⟩ := fecCounts_form s p r
  obtain ⟨c2, w2, h2⟩ := countBy_form { s with cnt := c, sat := w } 11 (16 * p + 0) 1
  obtain ⟨c3, w3, h3⟩ := countBy_form { s with cnt := c2, sat := w2 } 11 (16 * p + 1) r.data.length
  exact ⟨c3, w3, by rw [goodCounts, h1, macCount, count, h2, h3]⟩

theorem exec_macRxFrame (hp : p < 32) (hup : macUp s p = true) : exec (.macRxFrame p r) s = .next (match rxTest s p r with
    | some k => macCount (fecCounts s p r) p k
    | none =>
      if beAt r.data 12 2 = 0x8808 then controlFrame (fecCounts s p r) p r.data
      else if !addrPass s p (beAt r.data 0 6) then macCount (fecCounts s p r) p 6
      else pauseScan (heddleInput (stampIn (goodCounts s p r) p r.back r.data).2 (stampIn (goodCounts s p r) p r.back r.data).1)) := by
  have hread : rxTest (fecCounts s p r) p r = rxTest s p r ∧ addrPass (fecCounts s p r) p (beAt r.data 0 6) = addrPass s p (beAt r.data 0 6) := by
    obtain ⟨c, w, h⟩ := fecCounts_form s p r
    rw [h]
    exact ⟨rfl, rfl⟩
  obtain ⟨h1, h2⟩ := hread
  refine congrArg Host.Outcome.next ((if_pos ⟨hp, hup⟩).trans ?_)
  dsimp only
  rw [h1, h2]
  cases rxTest s p r <;> rfl

/-- A MAC without timestamps, with no asymmetry to add. -/
theorem stampIn_plain {back : Nat} (hs : portStamps s p = false) (ha : flag s (Reg.timePortCfg p) 2 = false) :
    stampIn s p back d = ({ data := d, srcType := 0, srcId := p }, s) := by
  rw [stampIn]
  dsimp only
  rw [ha, Bool.and_false, Bool.false_and, if_neg Bool.false_ne_true, hs]
  rfl

/-- A MAC with timestamps, for a frame that is no PTP event message. -/
theorem stampIn_stamped {back : Nat} (hs : portStamps s p = true) (hf : (ptpFlags (parse s d) d).2 = false) :
    stampIn s p back d = ({ data := d, srcType := 0, srcId := p, tsValid := true, tsNs := todNs (ingressStamp s p back).1,
                            tsSec := todSec (ingressStamp s p back).1, rawIn := (ingressStamp s p back).2 }, s) := by
  rw [stampIn]
  dsimp only
  rw [hf, Bool.and_false, Bool.false_and, Bool.false_and, if_neg Bool.false_ne_true, hs]
  rfl

/-! ## Pause (R312, R313) -/

/-- Every level paused for `quanta`, or released. -/
def pausedAll (x : MacU) (now rate quanta : Nat) : MacU := (List.range 8).foldl (fun x t => pauseLevel x now rate t quanta) x

theorem pausedAll_levels (now rate quanta : Nat) (hx : srising 0 x.paused = true) (hl : l < 8) :
    sget 0 (pausedAll x now rate quanta).paused l = if quanta = 0 then 0 else now + (quanta * 512000 + rate - 1) / rate := by
  have hall : ∀ k, srising 0 ((List.range k).foldl (fun x t => pauseLevel x now rate t quanta) x).paused = true ∧ ∀ l < k,
      sget 0 ((List.range k).foldl (fun x t => pauseLevel x now rate t quanta) x).paused l =
        if quanta = 0 then 0 else now + (quanta * 512000 + rate - 1) / rate := fun k => by
    induction k with
    | zero => exact ⟨hx, fun _ h => absurd h (Nat.not_lt_zero _)⟩
    | succ k ih =>
      rw [List.range_succ, List.foldl_append, List.foldl_cons, List.foldl_nil]
      generalize (List.range k).foldl (fun x t => pauseLevel x now rate t quanta) x = z at ih ⊢
      obtain ⟨hr, hg⟩ := ih
      rw [pauseLevel]
      by_cases hq : quanta = 0
      · rw [if_pos hq]
        simp only [if_pos hq] at hg ⊢
        refine ⟨srising_sdel hr k, fun l hl => ?_⟩
        have hput : sdel z.paused k = sput 0 z.paused k 0 := (if_pos rfl).symm
        rw [hput]
        obtain rfl | hlt : l = k ∨ l < k := by omega
        · exact sget_sput_same hr _ _
        · rw [sget_sput_other _ _ hr (by omega), hg l hlt]
      · rw [if_neg hq]
        simp only [if_neg hq] at hg ⊢
        refine ⟨srising_sins hr (Nat.zero_le k) _, fun l hl => ?_⟩
        obtain rfl | hlt : l = k ∨ l < k := by omega
        · exact sget_sins_same _ _ _ _
        · rw [sget_sins_other _ _ _ _ _ (by omega), hg l hlt]
  exact (hall 8).2 l hl

theorem setMac_macs : (setMac s p x).ports.macs = sput {} s.ports.macs p x := by
  rw [setMac, setReg_ports]
  rfl

theorem macAt_setMac (h : srising 0 s.ports.macs = true) : macAt (setMac s p x) p = x := by
  rw [macAt, setMac_macs, sget_sput_same h]

theorem controlFrame_pause (hm : fld s (Reg.macPauseCfg p) 25 24 = 1) (ho : beAt d 14 2 = 1) :
    controlFrame s p d = macCount (setMac s p (pausedAll (macAt s p) s.ns (macRate s p) (beAt d 16 2))) p 7 := by
  rw [controlFrame]
  dsimp only
  rw [hm, ho]
  rfl

theorem controlFrame_off (hm : fld s (Reg.macPauseCfg p) 25 24 = 0) : controlFrame s p d = macCount s p 8 := by
  rw [controlFrame]
  dsimp only
  rw [hm]
  rfl

theorem exec_pauseFrameRx (hp : p < 32) (hup : macUp s p = true) (ht : beAt d 12 2 = 0x8808) (hr : rxTest s p { data := d } = none) :
    exec (.pauseFrameRx p d) s = .next (controlFrame s p d) := by
  refine congrArg Host.Outcome.next ((if_pos ⟨hp, hup, ht⟩).trans ?_)
  rw [hr]

/-- The one count of mode 1 above XON. -/
theorem exec_pauseRepeat (hp : p < 32) (hup : macUp s p = true) (hm : fld s (Reg.macPauseCfg p) 25 24 = 1) (hx : (macAt s p).xoff = [0])
    (hh : 256 * fld s (Reg.macPauseThr p) 15 0 < heldBytes s p none) :
    exec (.pauseRepeat p) s = .next (sendPause s p [(0, fld s (Reg.macPauseCfg p) 15 0)]) := by
  have hcounts : pauseCounts s p = [(0, heldBytes s p none)] := by rw [pauseCounts, hm]; rfl
  refine congrArg Host.Outcome.next ((if_pos ⟨hp, hup⟩).trans ?_)
  dsimp only
  rw [hcounts, hx, List.filter_cons, if_pos (by simp [hh])]
  rfl

end

/-- Settles O38: the received frame's tests by `yonovTests_body` and `exec_macRxFrame`, pause by `pausedAll_levels` and
`exec_pauseRepeat`. -/
theorem framesTestedPauseStops : Obligations.FramesTestedPauseStops := by
  unfold Obligations.FramesTestedPauseStops
  refine ⟨⟨fun s n y b rest body hold hon hl hd hb hw => ?_, fun s p r hp hup => ?_⟩,
    fun s p d hs hp hup ht hr ho hm hmacs hpaused => ?_, fun s p d hp hup ht hr hm => ?_, fun s p l due hp hd hf => ?_,
    fun s p hp hup hm hx hh => ?_, fun s p hp hup hf => congrArg Host.Outcome.next (if_pos ⟨hp, hup, hf⟩)⟩
  · intro u len
    have hx := exec_yonovFrameRx hon hl hd hb hw
    rw [hx]
    refine ⟨fun h => by rw [yonovTests_start h], fun hc hlen => ?_⟩
    rw [yonovTests_body hc hlen]
    refine ⟨fun hbody => by rw [hbody], fun hbody => by rw [hbody], fun d fin hbody => ?_⟩
    rw [hbody]
    dsimp only
    have hnext : ∀ {v w : State}, v = w → (.next (pauseScan v) : Host.Outcome State Fault Refusal) = .next (pauseScan w) := fun h => by rw [h]
    refine ⟨fun h1 => hnext (if_pos h1), fun h1 h2 => hnext ((if_neg (fun h => h h1)).trans (if_pos h2)), fun h1 h2 => ?_⟩
    have hok : ¬ (byteAt fin 5).testBit 0 = true := by rw [h2]; decide
    exact ⟨fun h3 => hnext ((if_neg (fun h => h h1)).trans ((if_neg hok).trans (if_pos h3))),
      fun h3 => hnext ((if_neg (fun h => h h1)).trans ((if_neg hok).trans (if_neg (fun h => h h3))))⟩
  · have hx := exec_macRxFrame (r := r) hp hup
    refine ⟨fun k hk => ?_, fun hr ht => ?_, fun hr ht ha => ?_, fun hr ht ha => ?_⟩
    · rw [hx, hk]
    · rw [hx, hr]
      exact congrArg Host.Outcome.next (if_pos ht)
    · rw [hx, hr]
      exact congrArg Host.Outcome.next ((if_neg ht).trans (if_pos (by rw [ha]; rfl)))
    · intro u
      have hgood : exec (.macRxFrame p r) s = .next (pauseScan (heddleInput (stampIn u p r.back r.data).2 (stampIn u p r.back r.data).1)) := by
        rw [hx, hr]
        exact congrArg Host.Outcome.next ((if_neg ht).trans (if_neg (by rw [ha]; decide)))
      obtain ⟨c, w, hu⟩ : ∃ c w, u = { s with cnt := c, sat := w } := goodCounts_form s p r
      rw [hgood]
      clear_value u
      subst hu
      refine ⟨fun hst hf => ?_, fun hst hf => ?_⟩
      · rw [stampIn_plain (s := { s with cnt := c, sat := w }) hst hf]
      · rw [stampIn_stamped (s := { s with cnt := c, sat := w }) hst hf]
        rfl
  · have hi : (setMac s p (pausedAll (macAt s p) s.ns (macRate s p) (beAt d 16 2))).inv := (setMac_kept (.refl 67108872 s) (.refl _)).inv hs
    refine ⟨_, exec_pauseFrameRx hp hup ht hr, fun l hl => ?_, ?_⟩
    · rw [controlFrame_pause hm ho, macCount, macAt, count_ports, ← macAt, macAt_setMac hmacs]
      exact pausedAll_levels _ _ _ hpaused hl
    · rw [controlFrame_pause hm ho, macCount]
      refine (cntVal_countBy_same hi 11 (16 * p + 7) 1).trans ?_
      rw [cntVal, (setMac_kept (.refl 67108872 s) (.refl _)).cnt_eq rfl, ← cntVal]
  · rw [exec_pauseFrameRx hp hup ht hr, controlFrame_off hm]
  · have hx : exec (.pauseExpiry p l) s = .next (if due ≤ s.ns ∧ p < 32 ∧ domOn s (macDom p) = true then
        setMac s p { macAt s p with paused := sdel (macAt s p).paused l } else s) := by
      refine congrArg Host.Outcome.next ?_
      rw [hf]
    refine ⟨fun h => ?_, fun h => ?_⟩
    · rw [hx, if_pos ⟨h, hp, hd⟩]
    · rw [hx, if_neg (fun ⟨h', _⟩ => by omega)]
  · rw [exec_pauseRepeat hp hup hm hx hh]
    refine ⟨fun htx => ?_, fun x htx hpre hdue => ?_⟩
    · have hnow : pauseNow s p = true := by rw [pauseNow, htx]
      rw [sendPause, if_pos hnow, emitPause, if_neg (by simp), if_pos hm]
      rfl
    · have hnow : pauseNow s p = false := by rw [pauseNow, htx]; dsimp only; rw [hpre]; rfl
      rw [sendPause, hnow, if_neg Bool.false_ne_true]
      dsimp only
      rw [hdue]
      rfl

end Sys2Proof.Machine
end

