-- ==== Sys2Proof/Proofs/FramesLeaving.lean ====
section
/-! SUPPORT. Proofs/FramesLeaving.lean: a frame finishes transmission on a MAC or a Yonov lane (R155, R242, R300, R309, R314, R349). -/

namespace Sys2Proof.Machine

open Sys2Proof

section
variable {s t u : State} {n p back : Nat} {x : TxFrame} {f : Frame} {d : List Byte} {m : MacU}

/-! ## MACs -/

/-- A MAC's state and its status register are no part of a frame's timestamps, its buffer or the host's epoch. -/
theorem setMac_stamps (hs : s.inv) : portStamps (setMac s p m) p = portStamps s p ∧ egressStamp (setMac s p m) p back = egressStamp s p back := by
  obtain ⟨v, hv⟩ : ∃ v, setMac s p m = setReg (setPorts s { s.ports with macs := sput {} s.ports.macs p m }) (Reg.macStat p) v := ⟨_, rfl⟩
  have hregs : RegsIn [Reg.macStat p] s (setMac s p m) := by
    rw [hv]
    exact (RegsIn.of_kept (n := 67108864) (s := s) (t := setPorts s { s.ports with macs := sput {} s.ports.macs p m })
      (setPorts_kept (.refl _ s) (.refl _)) rfl).trans (regsIn_setReg (by simp) v)
  have hcfg : Reg.timePortCfg p ∉ [Reg.macStat p] ∧ Reg.timePortLat p ∉ [Reg.macStat p] := by
    simp only [Reg.timePortCfg, Reg.timePortLat, Reg.macStat, List.mem_singleton]
    omega
  have hk : Kept 67108872 s (setMac s p m) := setMac_kept (.refl _ s) (.refl _)
  have hflag := hregs.flag hs hcfg.1
  have hfld := hregs.fld hs hcfg.2
  have hon : timeOn (setMac s p m) = timeOn s := by rw [timeOn, timeOn, domOn, domOn, unitOk, unitOk, hk.power_eq rfl, hk.selvedge_eq rfl]
  have htod : todAt (setMac s p m) back = todAt s back := by
    have hnow : (setMac s p m).now = s.now := by rw [hv, setReg_now]; rfl
    have hinc : timeInc (setMac s p m) = timeInc s := timeInc_of_regs hregs hs (by simp only [Reg.timeIncLo, Reg.macStat, List.mem_singleton]; omega)
      (by simp only [Reg.timeIncHi, Reg.macStat, List.mem_singleton]; omega)
    rw [todAt, todAt, hk.time_eq rfl, hnow, hinc]
  refine ⟨by rw [portStamps, portStamps, hon, hflag], ?_⟩
  rw [egressStamp, egressStamp, htod, portEgr, portEgr, hfld]

/-- A frame that is no PTP event message leaves as it was read. -/
theorem ptpOut_plain {q tod raw : Nat} {b : Bool} (hf : f.ptpEvent = false) : ptpOut s f q tod raw b = (f.data, s) := by
  rw [ptpOut, hf]
  rfl

theorem macSend_poisoned (h : framePoisoned s x.frame = true) : macSend s p x d =
    poisonSeen (macCount (emit s (.frameOut p (d.drop x.sent) true)) p 13) (macSource p) x.frame := if_pos h

/-- The whole frame or its last fragment, as it leaves. -/
def frameLast (p : Nat) (x : TxFrame) (d : List Byte) : Output :=
  if x.sent = 0 then .frameOut p (macPad d) false else .fragment p ((macPad d).drop x.sent) true

theorem macSend_good (h : framePoisoned s x.frame = false) : macSend s p x d =
    emit (countBy (macCount s p 10) 11 (16 * p + 11) x.frame.data.length) (frameLast p x d) := by
  rw [macSend, h, if_neg Bool.false_ne_true, frameLast]
  split
  · rfl
  · rfl

/-- The frame as its reading unit finds it, and the MAC free for the next one. -/
def frameFound (s : State) (x : TxFrame) : Frame := { x.frame with data := frameRead s x.frame }
def macFreed (s : State) (p : Nat) : State := setMac s p { macAt s p with tx := none }

/-- The TX_TS of a frame that has left. -/
def stampSent (s : State) (f : Frame) (stamped : Bool) (tod p : Nat) : State :=
  match f.tsReq with
  | none => s
  | some (r, i) =>
    if f.epoch ≠ s.host.epoch then s
    else if stamped then txTs s r i Status.done (todNs tod + todSec tod * 2 ^ 32 + p * 2 ^ 80)
    else
      let (x, s) := draw s
      txTs s r i Status.done (x % 2 ^ 80 + p * 2 ^ 80)

theorem framePoisoned_congr (h : t.spool = s.spool) (f : Frame) : framePoisoned t f = framePoisoned s f := by
  rw [framePoisoned, framePoisoned, h]

theorem macTxEnd_eq (htx : (macAt s p).tx = some x) (he : x.frame.ptpEvent = false) : macTxEnd p back s =
    if framePoisoned (macSend (macFreed s p) p x (frameRead s x.frame)) x.frame then
      frameGone (pauseFlush (macSend (macFreed s p) p x (frameRead s x.frame)) p) (frameFound s x)
    else frameGone (pauseFlush (stampSent (macSend (macFreed s p) p x (frameRead s x.frame)) (frameFound s x) (portStamps (macFreed s p) p)
      (egressStamp (macFreed s p) p back).1 p) p) { frameFound s x with tsReq := none } := by
  have hf : (frameFound s x).ptpEvent = false := he
  rw [macTxEnd, htx]
  dsimp only
  rw [frameFound] at hf
  rw [← macFreed]
  generalize egressStamp (macFreed s p) p back = e
  obtain ⟨tod, raw⟩ := e
  dsimp only
  rw [ptpOut_plain hf, hf, Bool.and_false, if_neg Bool.false_ne_true]
  dsimp only [frameFound]
  generalize frameRead s x.frame = d
  generalize macSend (macFreed s p) p x d = w
  generalize portStamps (macFreed s p) p = b
  split
  · rfl
  · rw [stampSent]
    dsimp only
    cases x.frame.tsReq <;> rfl

theorem macFreed_spool : (macFreed s p).spool = s.spool := (setMac_kept (.refl 67108872 s) (.refl _)).spool_eq rfl

theorem macSend_spool : (macSend s p x d).spool = s.spool := (macSend_kept (.refl 2264 s) (.refl _)).spool_eq rfl

theorem exec_macTxEnd (hp : p < 32) : exec (.macTxEnd p back) s = .next (pauseScan (macTxEnd p back s)) :=
  congrArg Host.Outcome.next (if_pos hp)

theorem macTxEnd_poisoned (htx : (macAt s p).tx = some x) (he : x.frame.ptpEvent = false) (hb : framePoisoned s x.frame = true) :
    macTxEnd p back s = frameGone (pauseFlush (poisonSeen (macCount (emit (macFreed s p)
      (.frameOut p ((frameRead s x.frame).drop x.sent) true)) p 13) (macSource p) x.frame) p) (frameFound s x) := by
  have h1 : framePoisoned (macFreed s p) x.frame = true := (framePoisoned_congr macFreed_spool _).trans hb
  rw [macTxEnd_eq htx he, framePoisoned_congr macSend_spool, h1, if_pos rfl, macSend_poisoned h1]

/-- The state in which a frame that is not poisoned has left. -/
def frameLeft (s : State) (p : Nat) (x : TxFrame) : State :=
  emit (countBy (macCount (macFreed s p) p 10) 11 (16 * p + 11) x.frame.data.length) (frameLast p x (frameRead s x.frame))

theorem macTxEnd_good (hs : s.inv) (htx : (macAt s p).tx = some x) (he : x.frame.ptpEvent = false) (hb : framePoisoned s x.frame = false) :
    macTxEnd p back s = frameGone (pauseFlush (stampSent (frameLeft s p x) (frameFound s x) (portStamps s p) (egressStamp s p back).1 p) p)
      { frameFound s x with tsReq := none } := by
  have h1 : framePoisoned (macFreed s p) x.frame = false := (framePoisoned_congr macFreed_spool _).trans hb
  obtain ⟨hst, heg⟩ := setMac_stamps (p := p) (back := back) (m := { macAt s p with tx := none }) hs
  rw [macTxEnd_eq htx he, framePoisoned_congr macSend_spool, h1, if_neg Bool.false_ne_true, macSend_good h1, ← frameLeft, macFreed, hst, heg]

theorem frameLeft_epoch : (frameLeft s p x).host.epoch = s.host.epoch := by
  have h : (frameLeft s p x).host = s.host := by
    change (countBy _ _ _ _).host = _
    rw [countBy_host, macCount, count_host, macFreed, (setMac_kept (.refl 67108872 s) (.refl _)).host_eq rfl]
  rw [h]

theorem stampSent_none {b : Bool} {tod : Nat} (h : f.tsReq = none) : stampSent s f b tod p = s := by rw [stampSent, h]

theorem stampSent_stamped {r i tod : Nat} (h : f.tsReq = some (r, i)) (he : f.epoch = s.host.epoch) :
    stampSent s f true tod p = txTs s r i Status.done (todNs tod + todSec tod * 2 ^ 32 + p * 2 ^ 80) := by
  rw [stampSent, h]
  exact (if_neg (fun hne => hne he)).trans (if_pos rfl)

theorem stampSent_free {r i tod : Nat} (h : f.tsReq = some (r, i)) (he : f.epoch = s.host.epoch) :
    stampSent s f false tod p = txTs { s with draws := s.draws + 1 } r i Status.done ((draw s).1 % 2 ^ 80 + p * 2 ^ 80) := by
  rw [stampSent, h]
  exact (if_neg (fun hne => hne he)).trans (if_neg Bool.false_ne_true)

/-! ## Yonov lanes -/

/-- The rest of the data blocks. -/
def dataRest (d : List Byte) : List (Nat × List Byte) := ((dataBlocks 2048 d).drop 1).map (fun b => (1, b))

/-- The rest of the data blocks and YEND, behind the lane's frame. -/
def laneEnded (s : State) (n : Nat) (d : List Byte) : State :=
  sendBlock ((dataRest d).foldl (fun s b => sendBlock s n b.1 b.2) (setLane s n { laneAt s n with tx := none })) n 2 (yendBlock (crc32c d) false)

theorem laneEnded_spec (h : (laneAt s n).st ≠ .off) : (laneAt (laneEnded s n d) n).tx = none ∧ (laneEnded s n d).out =
    s.out ++ blocksSent n (laneAt s n).scr (dataRest d ++ [(2, yendBlock (crc32c d) false)]) := by
  have hx : laneAt (setLane s n { laneAt s n with tx := none }) n = { laneAt s n with tx := none } := laneAt_setLane h
  obtain ⟨ho, hl⟩ := sendBlocks_spec (s := setLane s n { laneAt s n with tx := none }) (dataRest d) (by rw [hx]; exact h)
  rw [hx] at ho hl
  refine ⟨?_, ?_⟩
  · rw [laneEnded, laneAt_sendBlock (by rw [hl]; exact h), hl]
  · rw [laneEnded, sendBlock_out, ho, hl, setLane_out, blocksSent_append, List.append_assoc, blocksSent_cons, blocksSent]

theorem sendBlocks_spool (l : List (Nat × List Byte)) : (l.foldl (fun s b => sendBlock s n b.1 b.2) s).spool = s.spool := by
  have hk : Kept 67109000 s (l.foldl (fun s b => sendBlock s n b.1 b.2) s) :=
    kept_foldl (.refl _ s) (fun _ b h => sendBlock_kept h (.of (.refl _) rfl))
  exact hk.spool_eq rfl

theorem laneTxEnd_good (htx : (laneAt s n).tx = some f) (hb : framePoisoned s f = false) :
    laneTxEnd n s = frameGone (laneCount (laneEnded s n (frameRead s f)) n 13) f := by
  have hsp : ((dataRest (frameRead s f)).foldl (fun s b => sendBlock s n b.1 b.2) (setLane s n { laneAt s n with tx := none })).spool =
      s.spool := by
    rw [sendBlocks_spool, (setLane_kept (.refl 67108872 s) (.refl _)).spool_eq rfl]
  have hp := (framePoisoned_congr hsp f).trans hb
  rw [dataRest, List.foldl_map] at hp
  rw [laneTxEnd, htx]
  dsimp only
  rw [hp, if_neg Bool.false_ne_true, laneEnded, dataRest, List.foldl_map]

theorem exec_laneTxEnd (hn : n < 16) : exec (.macTxEnd (32 + n) back) s = .next (pauseScan (laneTxEnd n s)) := by
  refine congrArg Host.Outcome.next ((if_neg (by omega)).trans ((if_pos (by omega)).trans ?_))
  rw [Nat.add_sub_cancel_left]

end

/-- Settles O39: the frame's end on a MAC by `macTxEnd_poisoned` and `macTxEnd_good`, on a lane by `laneTxEnd_good`. -/
theorem framesLeaveMac : Obligations.FramesLeaveMac := by
  unfold Obligations.FramesLeaveMac
  refine ⟨fun s p back x hs hp htx he => ?_, fun s n back f hn htx hst hb => ?_⟩
  · intro f a
    rw [exec_macTxEnd hp]
    refine ⟨fun hb => by rw [macTxEnd_poisoned htx he hb]; rfl, fun hb => ?_⟩
    intro u
    rw [macTxEnd_good hs htx he hb]
    refine ⟨fun hr => ?_, fun r i hr hepoch => ⟨fun hst => ?_, fun hst => ⟨(draw (frameLeft s p x)).1 % 2 ^ 80, Nat.mod_lt _ (by decide), ?_⟩⟩⟩
    · rw [stampSent_none (f := frameFound s x) hr]
      rfl
    · rw [hst, stampSent_stamped (f := frameFound s x) hr (hepoch.trans frameLeft_epoch.symm)]
      rfl
    · rw [hst, stampSent_free (f := frameFound s x) hr (hepoch.trans frameLeft_epoch.symm)]
      rfl
  · obtain ⟨ht, ho⟩ := laneEnded_spec (d := frameRead s f) hst
    exact ⟨laneEnded s n (frameRead s f), by rw [exec_laneTxEnd hn, laneTxEnd_good htx hb], ht, ho⟩

end Sys2Proof.Machine
end

