-- ==== Sys2Proof/Proofs/KeysAndEntropy.lean ====
section
/-! SUPPORT. Proofs/KeysAndEntropy.lean: the release of keys, the health tests' outcome and the reseeds of the DRBGs (R263, R267 to R269). -/

namespace Sys2Proof.Machine

open Sys2Proof

section
variable {s t u : State} {st ix due e f x : Nat} {w : Bool} {k : KeySlot} {p : KeySlot → Bool} {raw : BitVec 2048} {z : Sec}

/-! ## Keys (R263) -/

theorem setKeys_parts (l : List KeySlot) : (setKeys s l).sec = { s.sec with keys := l } ∧ (setKeys s l).act = s.act ∧ (setKeys s l).cnt = s.cnt ∧
    (s.inv → (setKeys s l).inv) := by
  rw [setKeys, setReg_sec, setReg_act, setReg_cnt]
  refine ⟨rfl, rfl, rfl, fun hs => ?_⟩
  have hset : (setSec s { s.sec with keys := l }).inv := hs
  exact setReg_inv hset _ _

theorem releaseKeys_some (h : k ∈ s.sec.keys.filter p) : releaseKeys s p =
    countBy (setKeys s (s.sec.keys.filter (fun k => !p k))) 10 12 (s.sec.keys.filter p).length := by
  rw [releaseKeys]
  rw [if_neg (by rw [List.isEmpty_iff]; exact List.ne_nil_of_mem h)]

theorem exec_keyRetire (hk : keyFind s st w ix = some k) (hr : k.retire = some due) (hd : due ≤ s.pick.commits) (hon : domOn s 21 = true) :
    exec (.keyRetire st w ix) s = .next (releaseKeys s (fun o => o == k)) := by
  refine congrArg Host.Outcome.next ?_
  rw [hk]
  dsimp only
  rw [hr]
  exact if_pos ⟨hd, hon⟩

/-! ## The health tests (R268, R269) -/

theorem updSec_sec : (updSec s z).sec = z := by
  rw [updSec, secStatus, setReg_sec]
  rfl

/-- SEC_STAT is all that follows the unit's state. -/
theorem updSec_apart : Kept 8 (setSec s z) (updSec s z) := setReg_kept (.refl 8 _) (.refl _)

/-- The repetition count test goes on with `y`. -/
def rctTaken (s : State) (y : Option (Bool × Nat)) : State := setSec s { s.sec with rct := y }

/-- What a block makes of the unit: it passes or fails, the test going on with `y`, its output being `o`. -/
def trngTested (s : State) (ok : Bool) (y : Option (Bool × Nat)) (o : List Byte) : State :=
  if ok then updSec (rctTaken s y) { s.sec with rct := y, trngFails := 0, trngOk := true, trngOut := o }
  else if 2 ≤ s.sec.trngFails then
    raiseFree (updSec (count (rctTaken s y) 10 13) { s.sec with rct := y, trngFails := 0, trngStopped := true, trngOk := false }) 0x17 0x060
  else updSec (count (rctTaken s y) 10 13) { s.sec with rct := y, trngFails := s.sec.trngFails + 1 }

theorem exec_trngBlock (hon : domOn s 21 = true) (hr : s.sec.trngStopped = false) : exec (.trngBlock raw) s =
    .next (trngTested s (blockOk s raw) (rctScan (rawBits raw) s.sec.rct).2 (Config.sha512 (leBytes 256 raw.toNat))) := by
  refine congrArg Host.Outcome.next ((if_pos (by rw [hon, hr]; rfl)).trans ?_)
  generalize blockOk s raw = ok
  generalize (rctScan (rawBits raw) s.sec.rct).2 = y
  generalize Config.sha512 (leBytes 256 raw.toNat) = o
  dsimp only
  rw [trngTested, count_sec, rctTaken]
  rfl

theorem raiseFree_cnts {src code : Nat} : CntsIn [17] s (raiseFree s src code) := by
  rw [raiseFree]
  exact draw_cnts.trans (raiseEv_cnts (by decide) _ _ _)

/-- A failed block is counted. -/
theorem rctTaken_counts {y : Option (Bool × Nat)} (hs : s.inv) (z : Sec) : (updSec (count (rctTaken s y) 10 13) z).inv ∧
    cntVal (updSec (count (rctTaken s y) 10 13) z) 10 13 = min cntMax (cntVal s 10 13 + 1) := by
  have hi : (rctTaken s y).inv := hs
  have hc : (setSec (count (rctTaken s y) 10 13) z).inv := count_inv hi 10 13
  refine ⟨updSec_apart.inv hc, ?_⟩
  rw [cntVal, updSec_apart.cnt_eq rfl]
  exact cntVal_countBy_same hi 10 13 1

theorem trngTested_passes {y : Option (Bool × Nat)} {o : List Byte} :
    (trngTested s true y o).sec = { s.sec with rct := y, trngFails := 0, trngOk := true, trngOut := o } ∧
      (trngTested s true y o).cnt = s.cnt ∧ (trngTested s true y o).selvedge = s.selvedge := by
  rw [trngTested, if_pos rfl]
  exact ⟨updSec_sec, updSec_apart.cnt_eq rfl, updSec_apart.selvedge_eq rfl⟩

theorem trngTested_fails {y : Option (Bool × Nat)} {o : List Byte} (hs : s.inv) (hf : s.sec.trngFails < 2) :
    (trngTested s false y o).sec = { s.sec with rct := y, trngFails := s.sec.trngFails + 1 } ∧
      cntVal (trngTested s false y o) 10 13 = min cntMax (cntVal s 10 13 + 1) := by
  rw [trngTested, if_neg Bool.false_ne_true, if_neg (by omega)]
  exact ⟨updSec_sec, (rctTaken_counts hs _).2⟩

theorem trngTested_stops {y : Option (Bool × Nat)} {o : List Byte} (hs : s.inv) (hf : 2 ≤ s.sec.trngFails) :
    (trngTested s false y o).sec = { s.sec with rct := y, trngFails := 0, trngStopped := true, trngOk := false } ∧
      s.raises (trngTested s false y o) 0x17 0x060 ∧ cntVal (trngTested s false y o) 10 13 = min cntMax (cntVal s 10 13 + 1) := by
  rw [trngTested, if_neg Bool.false_ne_true, if_pos hf]
  obtain ⟨hi, hc⟩ := rctTaken_counts (y := y) hs { s.sec with rct := y, trngFails := 0, trngStopped := true, trngOk := false }
  refine ⟨?_, ?_, ?_⟩
  · rw [(raiseFree_kept (.refl 2136 _) (.refl _)).sec_eq rfl, updSec_sec]
  · refine raises_of_selvedge ?_ (raises_raiseFree _ 0x17 0x060)
    exact (updSec_apart.selvedge_eq rfl).trans (count_selvedge ..)
  · exact (raiseFree_cnts.cntVal hi (by decide) (by decide)).trans hc

theorem exec_trngRestart (h : hostReach s = true) (hd : domOn s 21 = true) : exec (.trngRestart 15) s =
    .next (trngRestart (stored s Reg.secTrngCtrl (rdS s Reg.secTrngCtrl, rd s Reg.secTrngCtrl, false))) := by
  refine congrArg Host.Outcome.next
    ((hostStore_command (hostReaches_fixed (by decide) h hd) (by decide) (.inl (by decide))).trans ?_)
  rw [writeEffects_traffic (by decide) (by decide), trafficEffect, if_neg (by decide), if_neg (by decide), if_neg (by decide),
    if_neg (by decide), if_neg (by decide), if_pos rfl]
  rfl

/-! ## Reseeds (R267) -/

/-- A word without its bit `e`. -/
theorem clearBit_eq : x - b2n (x.testBit e) * 2 ^ e = insBits x e e 0 := by
  have hb : bits x e e = b2n (x.testBit e) := by
    apply Nat.eq_of_testBit_eq
    intro n
    rw [bits_testBit]
    cases n with
    | zero => cases h : x.testBit e <;> simp [b2n]
    | succ n => cases h : x.testBit e <;> simp [b2n, Nat.testBit_succ]
  rw [insBits, hb]
  simp

theorem setBit_eq : insBits x e e 0 + 2 ^ e = insBits x e e 1 := by
  simp [insBits]

theorem testBit_one_place (v n : Nat) : (insBits x e e v).testBit n = if n = e then v.testBit 0 else x.testBit n := by
  rw [insBits_testBit (Nat.le_refl e)]
  by_cases h : n = e
  · subst h
    rw [if_pos ⟨Nat.le_refl n, Nat.le_refl n⟩, if_pos rfl, Nat.sub_self]
  · rw [if_neg (by omega), if_neg h]

theorem exec_drbgReseed (hon : domOn s 21 = true) (he : e < 4) (hd : drbgDue s e = true) : exec (.drbgReseed e) s = .next
    (if s.sec.trngStopped then updSec s { s.sec with stale := insBits s.sec.stale e e 1 }
    else updSec { s with draws := s.draws + 1 } { s.sec with
      stale := insBits s.sec.stale e e 0, drbg := sput {} s.sec.drbg e ⟨(List.range 48).map (Config.freeByte s.draws), 0⟩ }) := by
  refine congrArg Host.Outcome.next ((if_pos (by rw [hon, hd, decide_eq_true he]; rfl)).trans ?_)
  dsimp only
  rw [clearBit_eq, setBit_eq]
  rfl

end

/-- Settles O40: keys by `releaseKeys_some`, a block by `exec_trngBlock`, a reseed by `exec_drbgReseed`. -/
theorem keysRetireEntropyFails : Obligations.KeysRetireEntropyFails := by
  unfold Obligations.KeysRetireEntropyFails
  refine ⟨fun s st ix due w k hk hr hd hon hs => ?_, fun s raw hs hon hstop => ?_, fun s h hd => ?_, fun s e hon he => ⟨fun hd hstop => ?_,
    fun hd hstop => ?_, fun hd => ?_⟩⟩
  · have hmem : k ∈ s.sec.keys.filter (fun o => o == k) := List.mem_filter.2 ⟨List.mem_of_find?_eq_some hk, beq_self_eq_true k⟩
    obtain ⟨h1, h2, h3, h4⟩ := setKeys_parts (s := s) (s.sec.keys.filter (fun o => !(o == k)))
    refine ⟨_, exec_keyRetire hk hr hd hon, ?_, ?_, ?_⟩
    · rw [releaseKeys_some hmem, countBy_sec, h1]
    · rw [releaseKeys_some hmem, countBy_act, h2]
    · rw [releaseKeys_some hmem, cntVal_countBy_same (h4 hs), cntVal, h3, ← cntVal]
  · intro rct
    have hx := exec_trngBlock (raw := raw) hon hstop
    refine ⟨fun hok => ?_, fun hok hf => ?_, fun hok hf => ?_⟩
    · rw [hok] at hx
      exact ⟨_, hx, trngTested_passes⟩
    · rw [hok] at hx
      exact ⟨_, hx, trngTested_fails hs hf⟩
    · rw [hok] at hx
      exact ⟨_, hx, trngTested_stops hs hf⟩
  · exact ⟨_, exec_trngRestart h hd, updSec_sec⟩
  · refine ⟨_, (exec_drbgReseed hon he hd).trans (congrArg _ (if_pos hstop)), by rw [updSec_sec], ?_, fun f hf => ?_⟩
    · rw [updSec_sec, testBit_one_place, if_pos rfl]
      rfl
    · rw [updSec_sec, testBit_one_place, if_neg hf]
  · have hno : ¬ s.sec.trngStopped = true := by rw [hstop]; decide
    refine ⟨_, (exec_drbgReseed hon he hd).trans (congrArg _ (if_neg hno)), ?_, by rw [updSec_sec], ?_, fun f hf => ?_⟩
    · exact updSec_apart.draws_eq rfl
    · rw [updSec_sec, testBit_one_place, if_pos rfl]
      rfl
    · rw [updSec_sec, testBit_one_place, if_neg hf]
  · exact congrArg Host.Outcome.next (if_neg (by rw [hd, Bool.and_false]; decide))

end Sys2Proof.Machine
end

