-- ==== Sys2Proof/Proofs/BootChoice.lean ====
section
/-! SUPPORT. Proofs/BootChoice.lean: the boot ROM tests the preferred slot, then the other one (R277). -/

namespace Sys2Proof.Machine

open Sys2Proof

section
variable {s t : State} {b ok : Bool} {arb : Nat}

theorem testSlot_eq : testSlot s b arb = (imgCheck (flashSlot s b) arb == 0, setSlotValid s b (imgCheck (flashSlot s b) arb == 0)) := rfl

theorem setSlotValid_flash : flashSlot (setSlotValid s b ok) = flashSlot s ∧ (setSlotValid s b ok).sec.otpArb = s.sec.otpArb ∧
    (setSlotValid s b ok).sec.slotA = s.sec.slotA ∧ (setSlotValid s b ok).sec.slotB = s.sec.slotB ∧
    (setSlotValid s b ok).sec.chosen = s.sec.chosen ∧ (setSlotValid s b ok).sec.preferred = s.sec.preferred := by
  cases b <;> exact ⟨rfl, rfl, rfl, rfl, rfl, rfl⟩

/-- The preferred slot is noted, and tested. -/
def bootNoted (s : State) : State := setSec s { s.sec with preferred := preferredSlot s, chosen := true }
def bootTested (s : State) : State :=
  setSlotValid (bootNoted s) (preferredSlot s) (imgCheck (flashSlot s (preferredSlot s)) s.sec.otpArb == 0)

/-- The other slot is tested as well. -/
def bootTwice (s : State) : State :=
  setSlotValid (bootTested s) (!preferredSlot s) (imgCheck (flashSlot s (!preferredSlot s)) s.sec.otpArb == 0)

/-- The image of slot `b` runs. -/
def bootRuns (s : State) (b fallback : Bool) : State :=
  bootTables (flashSlot s b) (setSec s { s.sec with running := b, fallback := fallback, noImage := false })

/-- No image runs. -/
def bootNone (s : State) : State :=
  setSec (draw s).2 { (draw s).2.sec with running := (draw s).1 % 2 == 1, fallback := false, noImage := true, image := [] }

theorem bootChoice_eq : bootChoice s =
    if imgCheck (flashSlot s (preferredSlot s)) s.sec.otpArb == 0 then bootRuns (bootTested s) (preferredSlot s) false
    else if imgCheck (flashSlot s (!preferredSlot s)) s.sec.otpArb == 0 then bootRuns (bootTwice s) (!preferredSlot s) true
    else bootNone (bootTwice s) := by
  obtain ⟨hf, ha, -⟩ := setSlotValid_flash (s := bootNoted s) (b := preferredSlot s) (ok := imgCheck (flashSlot s (preferredSlot s)) s.sec.otpArb == 0)
  rw [← bootTested] at hf ha
  have h1 : testSlot (bootNoted s) (preferredSlot s) (bootNoted s).sec.otpArb =
      (imgCheck (flashSlot s (preferredSlot s)) s.sec.otpArb == 0, bootTested s) := rfl
  have h2 : testSlot (bootTested s) (!preferredSlot s) (bootTested s).sec.otpArb =
      (imgCheck (flashSlot s (!preferredSlot s)) s.sec.otpArb == 0, bootTwice s) := by
    rw [testSlot_eq, hf, ha]
    rfl
  rw [bootChoice]
  dsimp only
  rw [← bootNoted, h1]
  dsimp only
  rw [h2]
  rfl

/-- What the choice keeps and notes. -/
theorem bootTwice_sec : (bootTwice s).sec.chosen = true ∧ (bootTwice s).sec.preferred = preferredSlot s ∧
    (bootTwice s).sec.slotA = s.sec.slotA ∧ (bootTwice s).sec.slotB = s.sec.slotB ∧ (bootTwice s).sec.otpArb = s.sec.otpArb ∧
    flashSlot (bootTwice s) = flashSlot s := by
  obtain ⟨h1, h2, h3, h4, h5, h6⟩ := setSlotValid_flash (s := bootNoted s) (b := preferredSlot s)
    (ok := imgCheck (flashSlot s (preferredSlot s)) s.sec.otpArb == 0)
  obtain ⟨k1, k2, k3, k4, k5, k6⟩ := setSlotValid_flash (s := bootTested s) (b := !preferredSlot s)
    (ok := imgCheck (flashSlot s (!preferredSlot s)) s.sec.otpArb == 0)
  exact ⟨k5.trans h5, k6.trans h6, k3.trans h3, k4.trans h4, k2.trans h2, k1.trans h1⟩

theorem bootTested_sec : (bootTested s).sec.chosen = true ∧ (bootTested s).sec.preferred = preferredSlot s ∧
    (bootTested s).sec.slotA = s.sec.slotA ∧ (bootTested s).sec.slotB = s.sec.slotB ∧ (bootTested s).sec.otpArb = s.sec.otpArb ∧
    flashSlot (bootTested s) = flashSlot s := by
  obtain ⟨h1, h2, h3, h4, h5, h6⟩ := setSlotValid_flash (s := bootNoted s) (b := preferredSlot s)
    (ok := imgCheck (flashSlot s (preferredSlot s)) s.sec.otpArb == 0)
  exact ⟨h5, h6, h3, h4, h2, h1⟩

end

/-- Settles O41: the two tests decide among `bootRuns` and `bootNone`; the loading of the cores leaves the unit alone. -/
theorem bootChoosesGoodImage : Obligations.BootChoosesGoodImage := by
  unfold Obligations.BootChoosesGoodImage
  intro s hr hc
  have hsec : (bootFirmware (bootChoice s)).sec = (bootChoice s).sec := (bootFirmware_kept (.refl 16777216 _) (.refl _)).sec_eq rfl
  refine ⟨_, congrArg Host.Outcome.next (if_neg (by rw [hr, hc]; decide)), ?_⟩
  rw [hsec, bootChoice_eq]
  obtain ⟨a1, a2, a3, a4, a5, a6⟩ := bootTested_sec (s := s)
  obtain ⟨b1, b2, b3, b4, b5, b6⟩ := bootTwice_sec (s := s)
  by_cases h1 : imgCheck (flashSlot s (preferredSlot s)) s.sec.otpArb = 0
  · rw [if_pos (beq_iff_eq.2 h1)]
    exact ⟨a1, a2, fun _ => ⟨rfl, rfl, rfl, congrFun a6 _⟩, fun h => absurd h1 h, fun h => absurd h1 h, a3, a4, a5⟩
  · rw [if_neg (fun h => h1 (beq_iff_eq.1 h))]
    by_cases h2 : imgCheck (flashSlot s (!preferredSlot s)) s.sec.otpArb = 0
    · rw [if_pos (beq_iff_eq.2 h2)]
      exact ⟨b1, b2, fun h => absurd h h1, fun _ _ => ⟨rfl, rfl, rfl, congrFun b6 _⟩, fun _ h => absurd h2 h, b3, b4, b5⟩
    · rw [if_neg (fun h => h2 (beq_iff_eq.1 h))]
      exact ⟨b1, b2, fun h => absurd h h1, fun _ h => absurd h h2, fun _ _ => ⟨rfl, rfl⟩, b3, b4, b5⟩

end Sys2Proof.Machine
end

