-- ==== Sys2Proof/Proofs/SecurityCommands.lean ====
section
/-! SUPPORT. Proofs/SecurityCommands.lean: what a command's work takes up, and the commands of the identity engine and the ciphers at their
commit point (R266, R271, R272, R278 to R282). -/

namespace Sys2Proof.Machine

open Sys2Proof

section
variable {s t u : State} {d : CmdDesc} {code : Nat}

/-! ## A command's work (R362) -/

theorem emitReads_form (addr n : Nat) : ∃ o, emitReads s addr n = { s with out := o } := by
  rw [emitReads]
  generalize List.range (readChunks s n) = l
  generalize 128 * 2 ^ s.host.pcie.mrrs = m
  induction l generalizing s with
  | nil => exact ⟨_, rfl⟩
  | cons i l ih =>
    obtain ⟨o, ho⟩ := ih (s := emit s (.hostRead (addr + i * m) (min m (n - i * m))))
    exact ⟨o, ho⟩

theorem emitsReads_form (l : List (Nat × Nat)) : ∃ o, l.foldl (fun s r => emitReads s r.1 r.2) s = { s with out := o } := by
  induction l generalizing s with
  | nil => exact ⟨_, rfl⟩
  | cons r l ih =>
    obtain ⟨o, ho⟩ := emitReads_form (s := s) r.1 r.2
    obtain ⟨o', ho'⟩ := ih (s := { s with out := o })
    exact ⟨o', by rw [List.foldl_cons, ho, ho']⟩

theorem idNext_form : ∃ j, idNext s = { s with sec := { s.sec with idJob := j } } := by
  rw [idNext]
  dsimp only
  split
  · exact ⟨s.sec.idJob, rfl⟩
  · exact ⟨_, rfl⟩

/-- Work taken up: its reads go out, it joins the list, and the identity engine may take its next job. -/
theorem cmdWorks_form (d : CmdDesc) : ∃ o w j, s.cmdWorks d =
    { s with out := o, host := { s.host with work := s.host.work ++ [w] }, sec := { s.sec with idJob := j } } := by
  rw [State.cmdWorks, workBegin]
  obtain ⟨o, ho⟩ := emitsReads_form (s := s) (cmdWorkReads d)
  dsimp only
  rw [ho]
  obtain ⟨j, hj⟩ := idNext_form (s := { s with
    out := o, host := { s.host with work := s.host.work ++ [{ ring := d.ring, index := d.index, code := cmdCode d, pick := s.pick.point, desc := d }] } })
  exact ⟨o, _, j, hj⟩

/-! ## What a command's start leaves -/

theorem cmdTaken_sec (d : CmdDesc) : (s.cmdTaken d).sec = s.sec := (cmdTaken_kept d).sec_eq rfl

theorem cmdTaken_trngGives (d : CmdDesc) : trngGives (s.cmdTaken d) = trngGives s := by
  obtain ⟨h, p, he, -⟩ := cmdTaken_form (s := s) d
  rw [he]
  rfl

theorem cmdTaken_work (d : CmdDesc) : (s.cmdTaken d).host.work = s.host.work := by
  rw [State.cmdTaken]
  split <;> rfl

/-- A command of domain 21 whose work goes on at once. -/
theorem cmdRow_works {body : CmdDesc → State → CmdRes} (h : s.cmdReady d code = true)
    (hb : body d (s.cmdTaken d) = .work (s.cmdTaken d)) :
    (.next (cmdRow code body d s) : Host.Outcome State Fault Refusal) = .next ((s.cmdTaken d).cmdWorks d) :=
  congrArg Host.Outcome.next (cmdRow_work h hb (cmdTaken_point d))

/-! ## Image commands (R278, R280, R281) -/

theorem imageBegin_form (x : ImgJob) (ph : Nat) (hp : ph < 16) (hs : s.inv) :
    ((setPhase (updSec (s.cmdTaken d) { (s.cmdTaken d).sec with job := x }) ph 0).cmdWorks d).sec =
      { s.sec with job := x, idJob := ((setPhase (updSec (s.cmdTaken d) { (s.cmdTaken d).sec with job := x }) ph 0).cmdWorks d).sec.idJob } ∧
    ((setPhase (updSec (s.cmdTaken d) { (s.cmdTaken d).sec with job := x }) ph 0).cmdWorks d).host.work.length = s.host.work.length + 1 ∧
    rd ((setPhase (updSec (s.cmdTaken d) { (s.cmdTaken d).sec with job := x }) ph 0).cmdWorks d) Reg.secImgProg = ph * 2 ^ 28 := by
  obtain ⟨v, hv⟩ : ∃ v, v = setPhase (updSec (s.cmdTaken d) { (s.cmdTaken d).sec with job := x }) ph 0 := ⟨_, rfl⟩
  have hset : (setSec (s.cmdTaken d) { (s.cmdTaken d).sec with job := x }).inv := (cmdTaken_kept d).inv hs
  have hupd : (updSec (s.cmdTaken d) { (s.cmdTaken d).sec with job := x }).inv := updSec_apart.inv hset
  have hsec : v.sec = { s.sec with job := x } := by rw [hv, setPhase, setReg_sec, updSec_sec, cmdTaken_sec]
  have hwork : v.host.work = s.host.work := by
    rw [hv, setPhase, setReg_host, updSec_apart.host_eq rfl]
    exact cmdTaken_work d
  have hrd : rd v Reg.secImgProg = ph * 2 ^ 28 := by
    rw [hv, setPhase, rd_setReg_same hupd]
    omega
  rw [← hv]
  obtain ⟨o, w, j, he⟩ := cmdWorks_form (s := v) d
  rw [he]
  refine ⟨?_, ?_, hrd⟩
  · change { v.sec with idJob := j } = _
    rw [hsec]
  · change (v.host.work ++ [w]).length = _
    rw [hwork, List.length_append, List.length_singleton]

theorem cmdImageInstall_begins (hd : domOn s 21 = true) (hj : s.sec.job = .none) :
    cmdImageInstall d s = .work (setPhase (updSec s { s.sec with job := .install 1 [] }) 1 0) := by
  rw [cmdImageInstall, needDomain_on hd, hj]
  rfl

theorem cmdImageActivate_begins (hd : domOn s 21 = true) (hj : s.sec.job = .none) :
    cmdImageActivate d s = .work (setPhase (updSec s { s.sec with job := .activate }) 6 0) := by
  rw [cmdImageActivate, needDomain_on hd, hj]
  rfl

theorem cmdArbRaise_idle (hd : domOn s 21 = true) (hj : s.sec.job = .none) :
    cmdArbRaise d s = if runArb s ≤ s.sec.otpArb then .fin Status.done 0 s else .work s := by
  rw [cmdArbRaise, needDomain_on hd, hj]
  rfl

theorem runArb_congr (h : t.sec = s.sec) : runArb t = runArb s := by rw [runArb, runArb, h]

/-! ## Keys (R264, R272, R282) -/

theorem hostKeySet_form (d : CmdDesc) : ∃ m, keyOf m = slice (cmdData d) 0 32 ∧ hostKeySet d s =
    setSec { s with draws := s.draws + 1 } { s.sec with hostKeys := sput {} s.sec.hostKeys (cmdP0 d % 64) m } :=
  ⟨_, keyOf_maskKey (slice (cmdData d) 0 32) s, rfl⟩

theorem cmdHostKey_eq (hd : domOn s 21 = true) : cmdHostKey d s =
    if (cmdFlags d).testBit 0 then .fin Status.done 0 (setSec s { s.sec with hostKeys := sput {} s.sec.hostKeys (cmdP0 d % 64) {} })
    else if trngGives s then .fin Status.done 0 (hostKeySet d s) else .work s := by
  rw [cmdHostKey, needDomain_on hd]

theorem cmdOtpCustKey_eq (hd : domOn s 21 = true) : cmdOtpCustKey d s =
    if s.sec.custWritten then .fin Status.errOtp 0 s
    else .fin Status.done 0 (setSec s { s.sec with custKey := slice (cmdData d) 0 32, custWritten := true }) := by
  rw [cmdOtpCustKey, needDomain_on hd]

/-! ## GCM (R266) -/

theorem gcmBad_congr (h : t.sec = s.sec) : gcmBad d t = gcmBad d s := by
  rw [gcmBad, gcmBad, gcmCtxAt, gcmCtxAt, h]

theorem cmdGcm_good (hc : domOn s 20 = true) (hd : domOn s 21 = true) (hb : gcmBad d s = false) : cmdGcm d s =
    if gcmOp d = 3 then .fin Status.done 0 (count (setGcmCtx s (gcmCtx d) none) 10 10)
    else .work (if gcmFirst d && !gcmLast d then setSec s { s.sec with
        lineJobs := 0, ctxs := sput none s.sec.ctxs (gcmCtx d) (some (gcmFresh d s)) } else setSec s { s.sec with lineJobs := 0 }) := by
  rw [cmdGcm, hb, if_neg Bool.false_ne_true, needDomain_on hc, needDomain_on hd]
  rfl

end

/-- Settles O42: each command's body on the state with the command taken, under `cmdRow_fin` or `cmdRow_work`. -/
theorem securityCommandsBegin : Obligations.SecurityCommandsBegin := by
  unfold Obligations.SecurityCommandsBegin
  refine ⟨fun s d hs hd => ?_, fun s d hc hd h => ?_⟩
  · have ht : domOn (s.cmdTaken d) 21 = true := (cmdTaken_domOn d 21).trans hd
    have hsec : (s.cmdTaken d).sec = s.sec := cmdTaken_sec d
    refine ⟨fun h => cmdRow_works h (needDomain_on ht), fun h hl => cmdRow_works h ((if_neg (by omega)).trans (needDomain_on ht)),
      fun h => cmdRow_works h (needDomain_on ht), fun h => cmdRow_works h (needDomain_on ht), fun h hj => ?_, fun h hj => ?_,
      fun h hj hr => cmdRow_works h ?_, fun h hj hr => congrArg Host.Outcome.next (cmdRow_fin h ?_), fun h hf hg => ?_,
      fun h hf hg => cmdRow_works h ?_, fun h hf => congrArg Host.Outcome.next (cmdRow_fin h ?_),
      fun h hw => congrArg Host.Outcome.next (cmdRow_fin h ?_), fun h hw => congrArg Host.Outcome.next (cmdRow_fin h ?_)⟩
    · exact ⟨_, congrArg Host.Outcome.next (cmdRow_work h (cmdImageInstall_begins ht (by rw [hsec, hj])) (by
        rw [setPhase, setReg_pick, updSec_apart.pick_eq rfl]; exact cmdTaken_point d)), imageBegin_form (.install 1 []) 1 (by decide) hs⟩
    · exact ⟨_, congrArg Host.Outcome.next (cmdRow_work h (cmdImageActivate_begins ht (by rw [hsec, hj])) (by
        rw [setPhase, setReg_pick, updSec_apart.pick_eq rfl]; exact cmdTaken_point d)), imageBegin_form .activate 6 (by decide) hs⟩
    · rw [cmdArbRaise_idle ht (by rw [hsec, hj]), runArb_congr hsec, hsec, if_neg (by omega)]
    · rw [cmdArbRaise_idle ht (by rw [hsec, hj]), runArb_congr hsec, hsec, if_pos hr]
    · obtain ⟨m, hm, he⟩ := hostKeySet_form (s := s.cmdTaken d) d
      refine ⟨m, hm, congrArg Host.Outcome.next (cmdRow_fin h ?_)⟩
      rw [cmdHostKey_eq ht, hf, if_neg Bool.false_ne_true, cmdTaken_trngGives, hg, if_pos rfl, he, hsec, (cmdTaken_kept d).draws_eq rfl]
      rfl
    · rw [cmdHostKey_eq ht, hf, if_neg Bool.false_ne_true, cmdTaken_trngGives, hg, if_neg Bool.false_ne_true]
    · rw [cmdHostKey_eq ht, hf, if_pos rfl, hsec]
    · rw [cmdOtpCustKey_eq ht, hsec, hw, if_neg Bool.false_ne_true]
    · rw [cmdOtpCustKey_eq ht, hsec, hw, if_pos rfl]
  · have htc : domOn (s.cmdTaken d) 20 = true := (cmdTaken_domOn d 20).trans hc
    have htd : domOn (s.cmdTaken d) 21 = true := (cmdTaken_domOn d 21).trans hd
    have hsec : (s.cmdTaken d).sec = s.sec := cmdTaken_sec d
    have hfresh : gcmFresh d (s.cmdTaken d) = gcmFresh d s := by rw [gcmFresh, gcmFresh, hsec]
    have hbad := gcmBad_congr (d := d) hsec
    refine ⟨fun hb => congrArg Host.Outcome.next (cmdRow_fin h (if_pos (hbad.trans hb))), fun hb => ?_⟩
    have hgood := cmdGcm_good htc htd (hbad.trans hb)
    refine ⟨fun ho => congrArg Host.Outcome.next (cmdRow_fin h (hgood.trans (if_pos ho))), fun ho hf hl => ?_, fun ho hfl => ?_⟩
    · rw [if_neg ho, hf, hl, if_pos (by rfl), hsec, hfresh] at hgood
      exact congrArg Host.Outcome.next (cmdRow_work h hgood (cmdTaken_point d))
    · rw [if_neg ho, if_neg (by obtain h | h := hfl <;> rw [h] <;> simp), hsec] at hgood
      exact congrArg Host.Outcome.next (cmdRow_work h hgood (cmdTaken_point d))

end Sys2Proof.Machine
end

