-- ==== Sys2Proof/Proofs/WorkEnds.lean ====
section
/-! SUPPORT. Proofs/WorkEnds.lean: a stretch of a command's work ends: the jobs of the identity engine, entropy, and the phases of the image
commands (R266, R269, R271, R278 to R282). -/

namespace Sys2Proof.Machine

open Sys2Proof

section
variable {s t u : State} {r i n k st det : Nat} {w : WorkIn} {c : CmdWork} {h : List Byte} {b : Bool}

/-! ## The course of a stretch -/

theorem work_named (hf : s.host.work.find? (fun c => c.ring == r && c.index == i) = some c) : c.ring = r ∧ c.index = i := by
  have := List.find?_some hf
  simpa [Bool.and_eq_true] using this

theorem exec_work (hf : s.host.work.find? (fun c => c.ring == r && c.index == i) = some c) :
    (workResult c w s = (some (st, det), u) → w.failed = false → exec (.commandWorkEnd r i w) s = .next (workEnd u r i st det)) ∧
    (workResult c w s = (some (st, det), u) → w.failed = true → exec (.commandWorkEnd r i w) s = .next (workEnd (dmaErr u) r i st det)) ∧
    (workResult c w s = (none, u) → exec (.commandWorkEnd r i w) s = .next u) := by
  have hx : exec (.commandWorkEnd r i w) s = .next (match workResult c w s with
      | (some (status, detail), t) => workEnd (if w.failed then dmaErr t else t) r i status detail
      | (none, t) => t) := by
    refine congrArg Host.Outcome.next ?_
    rw [hf] <;> rfl
  rw [hx]
  refine ⟨fun h hw => by rw [h, hw]; rfl, fun h hw => by rw [h, hw]; rfl, fun h => by rw [h]⟩

theorem workResult_shaper (hc : c.code = 0x50) (hw : shaperLoadWork w s = (st, det, u)) : workResult c w s = (some (st, det), u) := by
  rw [workResult, if_pos hc, hw]

theorem workResult_draft (hc : c.code = 0x70) (hw : draftLoadWork w s = (st, det, u)) : workResult c w s = (some (st, det), u) := by
  rw [workResult, if_neg (by rw [hc]; decide), if_pos hc, hw]

theorem workResult_loads (hc : c.code = 0x61) (hp : w.progress = none) (hj : s.sec.job = .activate)
    (ht : (testSlot s (targetSlot s) s.sec.arbTest).1 = true) : workResult c w s = (none, activateLoaded s) := by
  have hl : loadsNow c w s = true := by rw [loadsNow, hc, hj, hp, ht]; rfl
  rw [workResult, if_neg (by rw [hc]; decide), if_neg (by rw [hc]; decide), if_pos hl]

section
variable (h50 : c.code ≠ 0x50) (h70 : c.code ≠ 0x70) (hl : loadsNow c w s = false)
include h50 h70 hl

theorem workResult_fin (hw : secWork c w s = .fin st u) : workResult c w s = (some (st, 0), u) := by
  rw [workResult, if_neg h50, if_neg h70, hl, if_neg Bool.false_ne_true, hw]

theorem workResult_goes (hw : secWork c w s = .goes u) : workResult c w s = (none, u) := by
  rw [workResult, if_neg h50, if_neg h70, hl, if_neg Bool.false_ne_true, hw]

end

theorem loadsNow_other (hc : c.code ≠ 0x61) : loadsNow c w s = false := by
  rw [loadsNow, beq_eq_false_iff_ne.2 hc]
  rfl

theorem loadsNow_job (hj : s.sec.job ≠ .activate) : loadsNow c w s = false := by
  rw [loadsNow, beq_eq_false_iff_ne.2 hj, Bool.and_false]
  rfl

/-- A command of this unit's completes. -/
theorem exec_secFin (hf : s.host.work.find? (fun c => c.ring == r && c.index == i) = some c) (hc : c.code = k) (h50 : k ≠ 0x50) (h70 : k ≠ 0x70)
    (hl : loadsNow c w s = false) (hn : w.failed = false) (hw : secWork c w s = .fin st u) :
    exec (.commandWorkEnd r i w) s = .next (workEnd u r i st 0) :=
  (exec_work hf).1 (workResult_fin (by rwa [hc]) (by rwa [hc]) hl hw) hn

/-- Its work goes on. -/
theorem exec_secGoes (hf : s.host.work.find? (fun c => c.ring == r && c.index == i) = some c) (hc : c.code = k) (h50 : k ≠ 0x50) (h70 : k ≠ 0x70)
    (hl : loadsNow c w s = false) (hw : secWork c w s = .goes u) : exec (.commandWorkEnd r i w) s = .next u :=
  (exec_work (st := 0) (det := 0) hf).2.2 (workResult_goes (by rwa [hc]) (by rwa [hc]) hl hw)

/-! ## The identity engine (R271, R282) -/

theorem isIdJob_code (h : isIdJob c = true) : c.code = 0x63 ∨ c.code = 0x64 ∨ c.code = 0x65 := by
  simp only [isIdJob, Bool.or_eq_true, beq_iff_eq] at h
  omega

theorem idJob_codes (h : isIdJob c = true) : c.code ≠ 0x50 ∧ c.code ≠ 0x70 ∧ c.code ≠ 0x61 := by
  have := isIdJob_code h
  omega

section
variable (hp : w.progress = none)
include hp

/-- A job that the engine does not run waits. -/
theorem secWork_waits (hid : isIdJob c = true) (hj : s.sec.idJob ≠ some (c.ring, c.index)) : secWork c w s = .goes s := by
  rw [secWork, hp, if_neg (by decide), if_pos (by rw [hid, bne_iff_ne.2 hj]; rfl)]

/-- The command is no job of the engine, or the one that it runs. -/
def engineFree (c : CmdWork) (s : State) : Prop := isIdJob c = false ∨ s.sec.idJob = some (c.ring, c.index)

omit hp in
theorem engineFree_cond (he : engineFree c s) : ¬ (isIdJob c && s.sec.idJob != some (c.ring, c.index)) = true := by
  obtain h | h := he
  · rw [h]
    exact Bool.false_ne_true
  · rw [h]
    simp

theorem secWork_sign (hc : c.code = 0x63) (he : engineFree c s) : secWork c w s = if w.failed then .fin Status.errDma s
    else .fin Status.done (dmaWrite (drbgUse s 3 1) (resultAddr c.desc) (Config.ed25519Sign s.sec.idSeed (hostPrefix ++ w.reads.getD 0 []))) := by
  rw [secWork, hp, if_neg (by decide), if_neg (engineFree_cond he), hc]
  rfl

theorem secWork_verify (hc : c.code = 0x64) (he : engineFree c s) : secWork c w s = if w.failed then .fin Status.errDma s
    else .fin (if Config.ed25519Verify (w.reads.getD 0 []) (w.reads.getD 1 []) (w.reads.getD 2 []) then Status.done else Status.errSig)
      (drbgUse s 3 1) := by
  rw [secWork, hp, if_neg (by decide), if_neg (engineFree_cond he), hc]
  rfl

theorem secWork_hash (hc : c.code = 0x65) (he : engineFree c s) : secWork c w s = if w.failed then .fin Status.errDma s
    else .fin Status.done (dmaWrite s (resultAddr c.desc) (Config.sha512 (w.reads.getD 0 []))) := by
  rw [secWork, hp, if_neg (by decide), if_neg (engineFree_cond he), hc]
  rfl

theorem secWork_failed (hid : isIdJob c = true) (he : engineFree c s) (hw : w.failed = true) : secWork c w s = .fin Status.errDma s := by
  obtain hc | hc | hc := isIdJob_code hid
  · rw [secWork_sign hp hc he, if_pos hw]
  · rw [secWork_verify hp hc he, if_pos hw]
  · rw [secWork_hash hp hc he, if_pos hw]

/-! ## Fuses, entropy, keys and GCM (R266, R269, R281) -/

omit hp in
theorem engineFree_other (h : c.code < 0x63 ∨ 0x65 < c.code) : engineFree c s := .inl (by
  rw [isIdJob, beq_eq_false_iff_ne.2 (by omega), beq_eq_false_iff_ne.2 (by omega), beq_eq_false_iff_ne.2 (by omega)]
  rfl)

theorem secWork_raise (hc : c.code = 0x62) : secWork c w s = if s.power.pwrFail then .goes s
    else .fin Status.done (setSec s { s.sec with otpArb := max s.sec.otpArb (runArb s) }) := by
  rw [secWork, hp, if_neg (by decide), if_neg (engineFree_cond (engineFree_other (by omega))), hc]
  rfl

theorem secWork_random (hc : c.code = 0x66) : secWork c w s = if !trngGives s || trngAhead s then .goes s
    else .fin Status.done (dmaWrite { s with draws := s.draws + 1 } (cmdAddr c.desc) ((List.range (cmdLen c.desc)).map (Config.freeByte s.draws))) := by
  rw [secWork, hp, if_neg (by decide), if_neg (engineFree_cond (engineFree_other (by omega))), hc]
  rfl

theorem secWork_key (hc : c.code = 0x67) : secWork c w s = if trngGives s then .fin Status.done (hostKeySet c.desc s) else .goes s := by
  rw [secWork, hp, if_neg (by decide), if_neg (engineFree_cond (engineFree_other (by omega))), hc]
  rfl

theorem secWork_gcm (hc : c.code = 0x68) : secWork c w s = .fin (gcmWork c.desc w s).1 (count (gcmWork c.desc w s).2 10 10) := by
  rw [secWork, hp, if_neg (by decide), if_neg (engineFree_cond (engineFree_other (by omega))), hc]
  rfl

/-! ## Image commands (R278 to R280) -/

theorem secWork_install {p : Nat} (hc : c.code = 0x60) (hj : s.sec.job = .install p h) : secWork c w s = installWork p h w s := by
  rw [secWork, hp, if_neg (by decide), if_neg (engineFree_cond (engineFree_other (by omega))), hc]
  dsimp only
  rw [hj]
  rfl

theorem secWork_activate (hc : c.code = 0x61) : secWork c w s = activateWork w s := by
  rw [secWork, hp, if_neg (by decide), if_neg (engineFree_cond (engineFree_other (by omega))), hc]
  rfl

end

/-- The phase that a stretch goes on with. -/
def phaseGoes (s : State) (p : Nat) (h : List Byte) : State := setPhase (updSec s { s.sec with job := .install p h }) p 0

theorem phaseGoes_sec {p : Nat} : (phaseGoes s p h).sec = { s.sec with job := .install p h } := by
  rw [phaseGoes, setPhase, setReg_sec, updSec_sec]

theorem phaseGoes_slots {p : Nat} : flashSlot (phaseGoes s p h) = flashSlot s := by
  funext b
  rw [flashSlot, phaseGoes_sec, flashSlot]

theorem setFlashSlot_slots {l : List Byte} : flashSlot (setFlashSlot s b l) b = l ∧ flashSlot (setFlashSlot s b l) (!b) = flashSlot s (!b) ∧
    (setFlashSlot s b l).sec.job = s.sec.job := by
  cases b <;> exact ⟨rfl, rfl, rfl⟩

theorem setSlotValid_slots {ok : Bool} : flashSlot (setSlotValid s b ok) = flashSlot s ∧ (setSlotValid s b ok).sec.job = s.sec.job :=
  ⟨setSlotValid_flash.1, by cases b <;> rfl⟩

section
variable (hn : w.failed = false)
include hn

theorem reads_there (hr : w.reads ≠ []) : ¬ (w.reads.isEmpty || w.failed) = true := by
  rw [hn, Bool.or_false, List.isEmpty_iff]
  exact hr

theorem installWork_check_bad (hr : w.reads ≠ []) (hc : imgCheck (w.reads.getD 0 []) s.sec.arbTest ≠ 0) :
    installWork 1 h w s = .fin (imgCheck (w.reads.getD 0 []) s.sec.arbTest) (imgStop s) := by
  rw [installWork]
  exact (if_neg (reads_there hn hr)).trans (if_pos hc)

theorem installWork_check_good (hr : w.reads ≠ []) (hc : imgCheck (w.reads.getD 0 []) s.sec.arbTest = 0) : installWork 1 h w s =
    if s.power.pwrFail then .goes s else .goes (phaseGoes (setSlotValid (setFlashSlot s (targetSlot s) []) (targetSlot s) false) 2
      ((w.reads.getD 0 []).take 512)) := by
  rw [installWork]
  exact (if_neg (reads_there hn hr)).trans (if_neg (fun h => h hc))

theorem installWork_body (hr : w.reads ≠ []) (hp : s.power.pwrFail = false) (hff : w.flashFail = false) : installWork 3 h w s =
    .goes (phaseGoes (setFlashSlot s (targetSlot s) (List.replicate 512 0xFF ++ (w.reads.getD 0 []).take (leAt h 20 4))) 4 h) := by
  rw [installWork]
  exact (if_neg (reads_there hn hr)).trans ((if_neg (by rw [hp]; decide)).trans (if_neg (by rw [hff]; decide)))

end

theorem installWork_erase (hp : s.power.pwrFail = false) (hff : w.flashFail = false) : installWork 2 h w s = .goes (phaseGoes s 3 h) := by
  rw [installWork]
  exact (if_neg (by rw [hp]; decide)).trans (if_neg (by rw [hff]; decide))

/-- The body in the slot has the header's digest. -/
def bodyMatches (s : State) (h : List Byte) : Prop := Config.sha512 (((flashSlot s (targetSlot s)).drop 512).take (leAt h 20 4)) = slice h 32 64

theorem installWork_verify_good (hff : w.flashFail = false) (hm : bodyMatches s h) : installWork 4 h w s = .goes (phaseGoes s 5 h) := by
  rw [installWork]
  exact if_neg (by rw [hff]; exact fun h => h.elim (by decide) (fun h => h hm))

theorem installWork_verify_bad (hm : ¬ bodyMatches s h) : installWork 4 h w s = .fin Status.errFlash (imgStop s) := by
  rw [installWork]
  exact if_pos (.inr hm)

/-- The signed image in its slot. -/
def imageSlot (s : State) (h : List Byte) : State :=
  setSlotValid (setFlashSlot s (targetSlot s) (h ++ (flashSlot s (targetSlot s)).drop 512)) (targetSlot s) true

theorem installWork_header (hp : s.power.pwrFail = false) (hff : w.flashFail = false)
    (hs : imgSigned (h ++ (flashSlot s (targetSlot s)).drop 512) Config.imageKey = true) :
    installWork 5 h w s = .fin Status.done (imgStop (imageSlot s h)) := by
  rw [installWork]
  · exact (if_neg (by rw [hp]; decide)).trans (if_neg (by rw [hff, hs]; decide))
  all_goals exact fun h => nomatch h

/-- The end of a command's work changes no more of this unit than the engine's next job. -/
theorem workEnd_sec : ∃ j, (workEnd s r i st det).sec = { s.sec with idJob := j } := by
  rw [workEnd]
  split
  · exact ⟨s.sec.idJob, rfl⟩
  next c _ =>
    obtain ⟨j, hj⟩ := idNext_form (s := { s with host := { s.host with work := s.host.work.erase c } })
    dsimp only
    rw [(cmdPost_kept (.refl 8336 _) (.refl _)).sec_eq rfl, hj]
    exact ⟨j, rfl⟩

theorem imgStop_sec (hj : s.sec.job ≠ .none) : (imgStop s).sec = { s.sec with job := .none } := by
  rw [imgStop, if_neg hj, setPhase, setReg_sec, updSec_sec]

theorem imageSlot_ends (hj : s.sec.job ≠ .none) : ∃ j, (workEnd (imgStop (imageSlot s h)) r i st det).sec =
    { (imageSlot s h).sec with job := .none, idJob := j } := by
  have hjob : (imageSlot s h).sec.job = s.sec.job := by
    rw [imageSlot, setSlotValid_slots.2, setFlashSlot_slots.2.2]
  obtain ⟨j, hw⟩ := workEnd_sec (s := imgStop (imageSlot s h)) (r := r) (i := i) (st := st) (det := det)
  exact ⟨j, by rw [hw, imgStop_sec (by rw [hjob]; exact hj)]⟩

theorem activateWork_bad (hj : s.sec.job = .activate) (ht : (testSlot s (targetSlot s) s.sec.arbTest).1 = false) :
    activateWork w s = .fin Status.errSig (imgStop (testSlot s (targetSlot s) s.sec.arbTest).2) := by
  rw [activateWork, hj]
  exact if_neg (fun h => Bool.false_ne_true (ht.symm.trans h))

theorem activateWork_swapped {k : Nat} (hj : s.sec.job = .swapped k) (hp : s.power.pwrFail = false) (hff : w.flashFail = false) :
    activateWork w s = .fin Status.done (imgStop (writeRec s s.sec.running)) := by
  rw [activateWork, hj]
  exact (if_neg (by rw [hp]; decide)).trans (if_neg (by rw [hff]; decide))

theorem secWork_progress (hp : w.progress = some n) : secWork c w s = .goes (imgProgress c.code n s) := by
  rw [secWork, hp]
  rfl

end

/-- Settles O43: each code's stretch is one equation of `secWork`; `exec_secFin` and `exec_secGoes` make of it what the command does. -/
theorem commandWorkEnds : Obligations.CommandWorkEnds := by
  unfold Obligations.CommandWorkEnds
  refine ⟨fun s r i w c hf hp => ?_, fun s r i n w c hf hp h50 h70 => ?_, fun s r i c hf hc hg hk => ?_⟩
  · obtain ⟨hring, hindex⟩ := work_named hf
    have hfree : ∀ {x}, s.sec.idJob = some (r, i) → x = c → engineFree x s := fun h hx => .inr (by rw [h, hx, hring, hindex])
    refine ⟨fun hid hj hn => ?_, fun hid hj hn => ?_, fun hn => ⟨fun hc hj => ?_, fun hc hj => ?_, fun hc hj => ?_, fun hc hpf => ?_,
      fun hc hpf => ?_, fun hc hg => ?_, fun hc hg ha => ?_, fun hc hg => ?_, fun hc => ?_,
      fun st det u hc hw => (exec_work hf).1 (workResult_shaper hc hw) hn, fun st det u hc hw => (exec_work hf).1 (workResult_draft hc hw) hn,
      fun hc hj hr => ?_, fun h hc hpf hff => ?_, fun hc hj => ?_, fun k hc hj hpf hff => ?_⟩⟩
    · obtain ⟨h50, h70, h61⟩ := idJob_codes hid
      exact exec_secGoes hf rfl h50 h70 (loadsNow_other h61) (secWork_waits hp hid (by rw [hring, hindex]; exact hj))
    · obtain ⟨h50, h70, h61⟩ := idJob_codes hid
      exact (exec_work hf).2.1 (workResult_fin h50 h70 (loadsNow_other h61) (secWork_failed hp hid (hfree hj rfl) hn)) hn
    · exact exec_secFin hf hc (by decide) (by decide) (loadsNow_other (by omega)) hn ((secWork_hash hp hc (hfree hj rfl)).trans (if_neg (by rw [hn]; decide)))
    · exact exec_secFin hf hc (by decide) (by decide) (loadsNow_other (by omega)) hn ((secWork_sign hp hc (hfree hj rfl)).trans (if_neg (by rw [hn]; decide)))
    · exact exec_secFin hf hc (by decide) (by decide) (loadsNow_other (by omega)) hn ((secWork_verify hp hc (hfree hj rfl)).trans (if_neg (by rw [hn]; decide)))
    · exact exec_secFin hf hc (by decide) (by decide) (loadsNow_other (by omega)) hn ((secWork_raise hp hc).trans (if_neg (by rw [hpf]; decide)))
    · exact exec_secGoes hf hc (by decide) (by decide) (loadsNow_other (by omega)) ((secWork_raise hp hc).trans (if_pos hpf))
    · exact exec_secGoes hf hc (by decide) (by decide) (loadsNow_other (by omega)) ((secWork_random hp hc).trans (if_pos (by
        rw [Bool.or_eq_true, Bool.not_eq_true']; exact hg)))
    · exact exec_secFin hf hc (by decide) (by decide) (loadsNow_other (by omega)) hn ((secWork_random hp hc).trans (if_neg (by rw [hg, ha]; decide)))
    · exact exec_secFin hf hc (by decide) (by decide) (loadsNow_other (by omega)) hn ((secWork_key hp hc).trans (if_pos hg))
    · exact exec_secFin hf hc (by decide) (by decide) (loadsNow_other (by omega)) hn (secWork_gcm hp hc)
    · have hl : loadsNow c w s = false := loadsNow_other (by omega)
      have hwork := secWork_install hp hc hj
      refine ⟨fun hbad => ?_, fun hgood hpf => ?_, fun hgood hpf => ?_⟩
      · exact exec_secFin hf hc (by decide) (by decide) hl hn (hwork.trans (installWork_check_bad hn hr hbad))
      · exact exec_secGoes hf hc (by decide) (by decide) hl (hwork.trans ((installWork_check_good hn hr hgood).trans (if_pos hpf)))
      · refine ⟨_, exec_secGoes hf hc (by decide) (by decide) hl (hwork.trans ((installWork_check_good hn hr hgood).trans
          (if_neg (by rw [hpf]; decide)))), by rw [phaseGoes_sec], ?_, ?_⟩
        · rw [phaseGoes_slots, setSlotValid_slots.1, setFlashSlot_slots.1]
        · rw [phaseGoes_slots, setSlotValid_slots.1, setFlashSlot_slots.2.1]
    · have hl : loadsNow c w s = false := loadsNow_other (by omega)
      refine ⟨fun hj => ?_, fun hj hr => ?_, fun hj => ⟨fun hm => ?_, fun hm => ?_⟩, fun hj hsig => ?_⟩
      · exact ⟨_, exec_secGoes hf hc (by decide) (by decide) hl ((secWork_install hp hc hj).trans (installWork_erase hpf hff)), phaseGoes_sec⟩
      · refine ⟨_, exec_secGoes hf hc (by decide) (by decide) hl ((secWork_install hp hc hj).trans (installWork_body hn hr hpf hff)),
          by rw [phaseGoes_sec], ?_⟩
        rw [phaseGoes_slots, setFlashSlot_slots.1]
      · exact ⟨_, exec_secGoes hf hc (by decide) (by decide) hl ((secWork_install hp hc hj).trans (installWork_verify_good hff hm)), phaseGoes_sec⟩
      · exact exec_secFin hf hc (by decide) (by decide) hl hn ((secWork_install hp hc hj).trans (installWork_verify_bad hm))
      · obtain ⟨j, hsec⟩ := imageSlot_ends (s := s) (h := h) (r := r) (i := i) (st := Status.done) (det := 0) (by rw [hj]; exact fun h => nomatch h)
        have hslot : ∀ x, flashSlot (workEnd (imgStop (imageSlot s h)) r i Status.done 0) x = flashSlot (imageSlot s h) x := fun x => by
          rw [flashSlot, hsec, flashSlot]
        refine ⟨_, exec_secFin hf hc (by decide) (by decide) hl hn ((secWork_install hp hc hj).trans (installWork_header hpf hff hsig)),
          by rw [hsec], ?_, ?_⟩
        · rw [hslot, imageSlot, setSlotValid_slots.1, setFlashSlot_slots.1]
        · rw [hslot, imageSlot, setSlotValid_slots.1, setFlashSlot_slots.2.1]
    · refine ⟨fun ht => (exec_work (st := 0) (det := 0) hf).2.2 (workResult_loads hc hp hj ht), fun ht => ?_⟩
      have hl : loadsNow c w s = false := by rw [loadsNow, ht, Bool.and_false]
      exact exec_secFin hf hc (by decide) (by decide) hl hn ((secWork_activate hp hc).trans (activateWork_bad hj ht))
    · exact exec_secFin hf hc (by decide) (by decide) (loadsNow_job (by rw [hj]; exact fun h => nomatch h)) hn
        ((secWork_activate hp hc).trans (activateWork_swapped hj hpf hff))
  · have hl : loadsNow c w s = false := by rw [loadsNow, hp]; simp
    exact (exec_work (st := 0) (det := 0) hf).2.2 (workResult_goes h50 h70 hl (secWork_progress hp))
  · refine congrArg Host.Outcome.next ?_
    rw [hf]
    exact if_pos ⟨hc, hg, hk⟩

end Sys2Proof.Machine
end

