-- ==== Sys2Proof/Proofs/RingCommands.lean ====
section
/-! SUPPORT. Proofs/RingCommands.lean: the ring commands on the state with the command taken; what a stopping ring keeps while its unused
buffers, its unfinished chain and its commands complete (R363, R364). -/

namespace Sys2Proof.Machine

open Sys2Proof

section
variable {s t u : State} {r : Nat} {d : CmdDesc} {x : Ring}

/-! ## The rings of a taken command -/

theorem cmdTaken_rings (d : CmdDesc) : (s.cmdTaken d).host.rings = s.host.rings := by
  rw [State.cmdTaken]
  split <;> rfl

theorem ringAt_cmdTaken (d : CmdDesc) (r : Nat) : ringAt (s.cmdTaken d) r = ringAt s r := by
  rw [ringAt, cmdTaken_rings, ringAt]

theorem sweepOwns_cmdTaken (d : CmdDesc) (r : Nat) : sweepOwns (s.cmdTaken d) r = sweepOwns s r := by
  rw [sweepOwns, flag, fld, rd, (cmdTaken_kept d).cur_eq rfl, sweepOwns, flag, fld, rd]

theorem ringAt_cmdWorks (d : CmdDesc) (r : Nat) : ringAt (s.cmdWorks d) r = ringAt s r := by
  obtain ⟨o, w, j, h⟩ := cmdWorks_form (s := s) d
  rw [h]
  rfl

theorem ringAt_setRing_live (h : x.state ≠ .off) : ringAt (setRing s r x) r = x := by
  have hne : x ≠ {} := fun he => h (by rw [he])
  simp [ringAt, setRing, sput, hne, sget_sins_same]

/-! ## RING_SETUP, RING_RESIZE, CQ_MODERATE, RING_QUERY (R363, R364, R478) -/

section
variable {code : Nat} {body : CmdDesc → State → CmdRes} {st det : Nat}

theorem cmdRow_done (h : s.cmdReady d code = true) (hb : body d (s.cmdTaken d) = .fin st det t) :
    (.next (cmdRow code body d s) : Host.Outcome State Fault Refusal) = .next (cmdFinish d s.pick.point st det t) :=
  congrArg Host.Outcome.next (cmdRow_fin h hb)

end

/-! ## What a stopping ring keeps (R364) -/

/-- Of ring `r` only what completions move differs: its waiting completions, DONE and the mark of a counted wait. -/
def RunKept (r : Nat) (s t : State) : Prop :=
  ∃ waits done counted, ringAt t r = { ringAt s r with waits := waits, done := done, fullCounted := counted }

theorem RunKept.of_ring (h : ringAt t r = ringAt s r) : RunKept r s t := ⟨_, _, _, h⟩

theorem RunKept.refl (r : Nat) (s : State) : RunKept r s s := .of_ring rfl

theorem RunKept.trans (h : RunKept r s t) (h' : RunKept r t u) : RunKept r s u := by
  obtain ⟨w, d, f, h⟩ := h
  obtain ⟨w', d', f', h'⟩ := h'
  exact ⟨w', d', f', by rw [h', h]⟩

theorem RunKept.kind (h : RunKept r s t) : (ringAt t r).kind = (ringAt s r).kind := by
  obtain ⟨_, _, _, h⟩ := h
  rw [h]

theorem foldl_runKept {α : Type} {f : State → α → State} (hf : ∀ t e, RunKept r s t → RunKept r s (f t e)) (l : List α)
    (h : RunKept r s t) : RunKept r s (l.foldl f t) := by
  induction l generalizing t with
  | nil => exact h
  | cons e l ih => exact ih (hf t e h)

/-- A completion goes to a CQ, which is another ring. -/
theorem drainRing_runKept (n : Nat) (hoff : (ringAt s r).kind ≠ .off) (hcq : (ringAt s r).kind ≠ .cq) : RunKept r s (drainRing n s r) := by
  induction n generalizing s with
  | zero => exact .refl r s
  | succ n ih =>
    rw [drainRing]
    dsimp only
    split
    · exact .refl r s
    · rename_i w _
      split
      · rename_i hfree
        have hc : (ringAt s (ringAt s r).cq).kind = .cq := by
          rw [cqFree] at hfree
          split at hfree
          · rename_i h
            simp only [isCqRun, Bool.and_eq_true, beq_iff_eq] at h
            exact h.2.1
          · exact absurd hfree (Nat.lt_irrefl 0)
        have hne : r ≠ (ringAt s r).cq := fun h => by rw [← h] at hc; exact hcq hc
        have hset : ringAt (setRing s r (waitPosted (ringAt s r) w)) r = waitPosted (ringAt s r) w := ringAt_setRing_same hoff
        have hone : RunKept r s (countEntry (cqWrite (setRing s r (waitPosted (ringAt s r) w)) (ringAt s r).cq w.entry) w.entry) := by
          refine ⟨(waitPosted (ringAt s r) w).waits, (waitPosted (ringAt s r) w).done, false, ?_⟩
          rw [ringAt_of_host (countEntry_host _ _), ringAt_cqWrite_other (by rw [ringAt_setRing_other (by exact hoff) hne, hc]; decide) (Ne.symm hne), hset]
          rfl
        exact hone.trans (ih (by rw [hone.kind]; exact hoff) (by rw [hone.kind]; exact hcq))
      · split
        · exact ⟨_, _, true, ringAt_setRing_same (by exact hoff)⟩
        · exact .refl r s

theorem post_runKept (hcq : (ringAt s r).kind ≠ .cq) (w : RingWait) : RunKept r s (post s r w) := by
  rw [post]
  split
  · exact .refl r s
  · rename_i hoff
    have hset : RunKept r s (setRing s r { ringAt s r with waits := (ringAt s r).waits ++ [w] }) :=
      ⟨_, _, _, ringAt_setRing_same (by exact hoff)⟩
    exact hset.trans (drainRing_runKept _ (by rw [hset.kind]; exact hoff) (by rw [hset.kind]; exact hcq))

theorem endDesc_runKept (hcq : (ringAt s r).kind ≠ .cq) (i j st : Nat) : RunKept r s (endDesc s r i j st) := post_runKept hcq _

theorem stopRing_stopping (hcq : (ringAt s r).kind ≠ .cq) :
    (ringAt (stopRing s r) r).state = .stopping ∧ (ringAt (stopRing s r) r).posted = [] := by
  obtain ⟨t, ht⟩ : ∃ t, t = stopRing s r := ⟨_, rfl⟩
  rw [← ht]
  unfold stopRing at ht
  extract_lets x part keep got y s1 s2 s3 mine _ s4 s5 at ht
  have hy : y.kind = x.kind := by
    change (if got then advanceRing x else x).kind = x.kind
    split <;> rfl
  have h1 : ringAt s1 r = { y with state := .stopping, reading := false, mism := false, arrived := none, posted := [], chain := keep } :=
    ringAt_setRing_live (fun h => RingState.noConfusion h)
  have hk1 : (ringAt s1 r).kind ≠ .cq := by
    rw [h1]
    exact fun h => hcq (hy.symm.trans h)
  have step : ∀ t e i j, RunKept r s1 t → RunKept r s1 (endDesc t r i j e) := fun t e i j h =>
    h.trans (endDesc_runKept (by rw [h.kind]; exact hk1) i j e)
  have h2 : RunKept r s1 s2 := foldl_runKept (fun t e h => step t _ _ _ h) _ (.refl r s1)
  have h3 : RunKept r s1 s3 := by
    change RunKept r s1 (if y.kind = .tx then _ else s2)
    split
    · split
      · exact step _ _ _ _ h2
      · exact h2
    · exact h2
  have h4 : RunKept r s1 s4 := h3.trans (.of_ring rfl)
  have h5 : RunKept r s1 s5 := foldl_runKept (fun t e h => h.trans (post_runKept (by rw [h.kind]; exact hk1) _)) _ h4
  have h6 : RunKept r s1 t := by
    rw [ht]
    split
    · exact step _ _ _ _ h5
    · exact h5
  obtain ⟨_, _, _, h6⟩ := h6
  rw [h6, h1]
  exact ⟨rfl, rfl⟩

theorem cmdRingStop_begins (hst : (ringAt s (bits (cmdP0 d) 8 0)).state = .run ∨ (ringAt s (bits (cmdP0 d) 8 0)).state = .stalled)
    (hk : (ringAt s (bits (cmdP0 d) 8 0)).kind ≠ .cq) (hn : bits (cmdP0 d) 8 0 ≠ d.ring) :
    cmdRingStop d s = .work (setRing (stopRing s (bits (cmdP0 d) 8 0)) (bits (cmdP0 d) 8 0)
      { ringAt (stopRing s (bits (cmdP0 d) 8 0)) (bits (cmdP0 d) 8 0) with stops := [(d.ring, d.index)] }) := by
  unfold cmdRingStop
  obtain h | h := hst <;> simp only [h, if_neg hk, if_neg hn]

theorem cmdRingStop_cq (hst : (ringAt s (bits (cmdP0 d) 8 0)).state = .run ∨ (ringAt s (bits (cmdP0 d) 8 0)).state = .stalled)
    (hk : (ringAt s (bits (cmdP0 d) 8 0)).kind = .cq) :
    cmdRingStop d s = if ringNamed s (bits (cmdP0 d) 8 0) then .fin Status.busy 0 s
      else .fin Status.done 0 (setRing s (bits (cmdP0 d) 8 0) {}) := by
  unfold cmdRingStop
  obtain h | h := hst <;> simp only [h, if_pos hk]

theorem cmdRingStop_joins (hst : (ringAt s (bits (cmdP0 d) 8 0)).state = .stopping) :
    cmdRingStop d s = .work (setRing s (bits (cmdP0 d) 8 0)
      { ringAt s (bits (cmdP0 d) 8 0) with stops := (ringAt s (bits (cmdP0 d) 8 0)).stops ++ [(d.ring, d.index)] }) := by
  unfold cmdRingStop
  simp only [hst]

theorem stopRing_pick (r : Nat) : (stopRing s r).pick = s.pick := (stopRing_kept (.refl _ s) (.refl _)).pick_eq rfl

end

/-- Settles O45: each ring command's body on the state with the command taken, whose rings are those of the state; a ring that
begins to stop stays STOPPING while what it had completes, since its completions write its CQ, another ring. -/
theorem ringCommandsConfigure : Obligations.RingCommandsConfigure := by
  unfold Obligations.RingCommandsConfigure
  have hr : ∀ (s : State) (d : CmdDesc) r, ringAt (s.cmdTaken d) r = ringAt s r := fun s d r => ringAt_cmdTaken d r
  refine ⟨fun s d h => cmdRow_done h rfl, fun s d h => ?_, fun s d h => ?_, fun s d h => ?_, fun s d h => ?_, fun s d h => ?_,
    fun s r h1 h2 h3 h4 h5 h6 h7 => ?_⟩
  · refine ⟨fun hk hb => cmdRow_done h ?_, fun hk hb => cmdRow_done h ?_, fun hk hq hw ho => cmdRow_done h ?_, fun hk ho => cmdRow_done h ?_⟩
    · simp only [cmdRingSetup, hr, sweepOwns_cmdTaken]
      exact if_pos ⟨hk, hb⟩
    · simp only [cmdRingSetup, hr, sweepOwns_cmdTaken]
      rw [if_neg, if_pos]
      · simpa using hb
      · rintro ⟨h4, h5⟩
        obtain hk | ⟨hq, hw⟩ := hk
        · exact h4 hk
        · exact h5.elim (fun h => h hq) (fun h => by rw [hw] at h; exact Bool.false_ne_true h)
    · simp only [cmdRingSetup, hr, sweepOwns_cmdTaken]
      rw [if_neg (by rw [hq, hw]; simp), ho, if_neg (by decide), if_neg hk]
    · simp only [cmdRingSetup, hr, sweepOwns_cmdTaken]
      rw [if_neg (fun h => h.1 hk), ho, if_neg (by decide), if_pos hk]
  · refine ⟨fun ho => cmdRow_done h ?_, fun ho hb => cmdRow_done h ?_, fun hst hn hi => cmdRow_done h ?_⟩
    · simp only [cmdRingResize, hr]
      exact if_pos ho
    · simp only [cmdRingResize, hr]
      rw [if_neg ho, if_pos (by simpa using hb)]
    · simp only [cmdRingResize, hr]
      rw [if_neg (by obtain h | h := hst <;> rw [h] <;> decide), if_neg]
      rintro (h | h | h)
      · obtain h' | h' := hst <;> rw [h'] at h <;> exact nomatch h
      · exact hn h
      · rw [hi] at h
        exact nomatch h
  · have hx := hr s d (bits (cmdP0 d) 8 0)
    refine ⟨fun ho => cmdRow_done h ?_, fun ho => ?_, fun hst => ⟨fun hk hn => cmdRow_done h ?_, fun hk hn => cmdRow_done h ?_, fun hk hn => ?_⟩⟩
    · simp only [cmdRingStop, hr, ho]
    · refine ⟨_, congrArg Host.Outcome.next (cmdRow_work h (cmdRingStop_joins (by rw [hx, ho])) (cmdTaken_point d)), ?_⟩
      rw [ringAt_cmdWorks, ringAt_setRing_live (by rw [hx, ho]; decide), hx]
    · rw [cmdRingStop_cq (by rwa [hx]) (by rwa [hx]), hn, if_neg Bool.false_ne_true]
    · rw [cmdRingStop_cq (by rwa [hx]) (by rwa [hx]), hn, if_pos rfl]
    · obtain ⟨hs, hp⟩ := stopRing_stopping (s := s.cmdTaken d) (r := bits (cmdP0 d) 8 0) (by rwa [hx])
      refine ⟨_, congrArg Host.Outcome.next (cmdRow_work h (cmdRingStop_begins (by rwa [hx]) (by rwa [hx]) hn) ?_), ?_⟩
      · rw [setRing, stopRing_pick]
        exact cmdTaken_point d
      · rw [ringAt_cmdWorks, ringAt_setRing_live (by rw [hs]; decide)]
        exact ⟨hs, rfl, hp⟩
  · refine ⟨fun hk => cmdRow_done h ?_, fun hk => cmdRow_done h ?_⟩
    · simp only [cmdCqModerate, hr]
      exact if_pos hk
    · simp only [cmdCqModerate, hr]
      exact if_neg (fun h => h hk)
  · refine cmdRow_done h ?_
    rw [cmdRingQuery, hr]
  · exact congrArg Host.Outcome.next (if_pos ⟨h1, by rw [h2]; rfl, by rw [h3]; rfl, h4, h5, h6, h7⟩)

end Sys2Proof.Machine
end

