-- ==== Sys2Proof/Proofs/Doorbells.lean ====
section
/-! SUPPORT. Proofs/Doorbells.lean: kicks and the fetches of doorbell blocks, fetched indices, and the descriptor reads of a ring (R341 to
R345, R355, R368). -/

namespace Sys2Proof.Machine

open Sys2Proof

section
variable {s t u : State} {r c b p i j w : Nat} {x : Ring}

/-! ## Kicks (R342) -/

/-- One block's turn in `issueFetches`. -/
def fetchTurn (s : State) (b : Nat) : State :=
  if s.host.again.contains b && !s.host.inFlight.contains b && decide (0 < reqRoom s 0) then
    emit (count (setHost s { s.host with inFlight := s.host.inFlight ++ [b], again := s.host.again.filter (· != b) }) 14 2)
      (.doorbellFetch b (dbAddr (setHost s { s.host with inFlight := s.host.inFlight ++ [b], again := s.host.again.filter (· != b) }) b))
  else s

theorem issueFetches_turns (s : State) : issueFetches s = if hostRuns s then (List.range 8).foldl fetchTurn s else s := rfl

theorem fetchTurn_unwanted (h : s.host.again.contains b = false) : fetchTurn s b = s := by
  rw [fetchTurn, h]
  rfl

theorem fetchTurns_unwanted (l : List Nat) (h : ∀ b ∈ l, s.host.again.contains b = false) : l.foldl fetchTurn s = s := by
  induction l with
  | nil => rfl
  | cons b l ih =>
    rw [List.foldl_cons, fetchTurn_unwanted (h b (List.mem_cons_self ..))]
    exact ih fun c hc => h c (List.mem_cons_of_mem b hc)

/-- A turn forgets wishes and makes none. -/
theorem fetchTurn_again (s : State) (b c : Nat) (h : s.host.again.contains c = false) : (fetchTurn s b).host.again.contains c = false := by
  rw [fetchTurn]
  split
  · rw [emit_host, count_host, setHost_host]
    simp only [List.contains_eq_mem, List.mem_filter, decide_eq_false_iff_not] at h ⊢
    exact fun hc => h hc.1
  · exact h

/-- Where one block alone is wanted, its turn is the only one. -/
theorem fetchTurns_only (l : List Nat) (hn : l.Nodup) (hb : b ∈ l) (ha : s.host.again = [b]) : l.foldl fetchTurn s = fetchTurn s b := by
  have hother : ∀ c, c ≠ b → s.host.again.contains c = false := fun c hc => by
    rw [ha]
    simpa using hc
  induction l with
  | nil => exact nomatch hb
  | cons c l ih =>
    rw [List.foldl_cons]
    obtain ⟨hc, hl⟩ := List.nodup_cons.mp hn
    by_cases h : c = b
    · rw [h]
      exact fetchTurns_unwanted l fun k hk => fetchTurn_again s b k (hother k (fun e => hc (h ▸ e ▸ hk)))
    · rw [fetchTurn_unwanted (hother c h)]
      exact ih hl ((List.mem_cons.mp hb).resolve_left (Ne.symm h))

theorem filter_range_eight (hb : b < 8) (f : Nat → Bool) :
    (List.range 8).filter (fun i => decide (b = i) && f i) = if f b then [b] else [] := by
  cases hf : f b <;> interval_cases b <;> simp [List.range, List.range.loop, List.filter, hf]

theorem bitList_one (hb : b < 8) (m : Nat) : bitList 8 (2 ^ b &&& m) = if m.testBit b then [b] else [] := by
  rw [← filter_range_eight hb m.testBit, bitList]
  simp only [Nat.testBit_and, Nat.testBit_two_pow]

/-- The kick counted, and counted again where its page does not allow all of it. -/
def kickCounted (p v : Nat) (s : State) : State :=
  if (v % 256) &&& (255 - fld s (Reg.hostKickMap p) 7 0) = 0 then count s 14 0 else count (count s 14 0) 14 1

theorem kickCounted_kept (p v : Nat) : Kept 16 s (kickCounted p v s) := by
  rw [kickCounted]
  split
  · exact count_kept (.refl _ s) (.refl _)
  · exact count_kept (count_kept (.refl _ s) (.refl _)) (.refl _)

theorem exec_hostKick (hr : hostReach s = true) (hp : p < 4) (hb : b < 8) (ha : s.host.again = []) :
    exec (.hostKick p 15 (BitVec.ofNat 32 (2 ^ b))) s = .next (issueFetches (setHost (kickCounted p (2 ^ b) s)
      { s.host with again := if (fld s (Reg.hostKickMap p) 7 0).testBit b then [b] else [] })) := by
  have hv : (BitVec.ofNat 32 (2 ^ b)).toNat = 2 ^ b := by
    rw [BitVec.toNat_ofNat, Nat.mod_eq_of_lt (Nat.pow_lt_pow_right (by decide) (by omega))]
  have hm : 2 ^ b % 256 = 2 ^ b := Nat.mod_eq_of_lt (Nat.pow_lt_pow_right (m := b) (n := 8) (by decide) hb)
  have hk : hostKick p (2 ^ b) s = issueFetches (setHost (kickCounted p (2 ^ b) s) { (kickCounted p (2 ^ b) s).host with
      again := (kickCounted p (2 ^ b) s).host.again ++
        (bitList 8 ((2 ^ b % 256) &&& fld s (Reg.hostKickMap p) 7 0)).filter (fun c => !(kickCounted p (2 ^ b) s).host.again.contains c) }) := rfl
  refine congrArg Host.Outcome.next ?_
  rw [hr, hv, hk, (kickCounted_kept p (2 ^ b)).host_eq rfl, hm, bitList_one hb, ha, if_neg (by simp; omega), if_neg (by decide)]
  simp

theorem reqRoom_congr (hh : t.host = s.host) (hc : t.cur = s.cur) (k : Nat) : reqRoom t k = reqRoom s k := by
  unfold reqRoom reqUsed reqReserve reqMax tagScale tagLimit fld rd
  rw [hh, hc]

theorem reqRoom_again (l : List Nat) (k : Nat) : reqRoom (setHost s { s.host with again := l }) k = reqRoom s k := rfl

theorem hostRuns_congr (hh : t.host = s.host) (hc : t.cur = s.cur) (hs : t.selvedge = s.selvedge) : hostRuns t = hostRuns s := by
  unfold hostRuns flag rd unitOk
  rw [hh, hc, hs]

theorem dbAddr_congr (hc : t.cur = s.cur) (b : Nat) : dbAddr t b = dbAddr s b := by
  unfold dbAddr fld rd
  rw [hc]

/-- A kick of one block in a running function. -/
theorem exec_hostKick_one (hr : hostReach s = true) (hp : p < 4) (hb : b < 8) (ha : s.host.again = []) (hruns : hostRuns s = true)
    (hallow : (fld s (Reg.hostKickMap p) 7 0).testBit b = true) :
    exec (.hostKick p 15 (BitVec.ofNat 32 (2 ^ b))) s =
      .next (fetchTurn (setHost (kickCounted p (2 ^ b) s) { s.host with again := [b] }) b) := by
  have hk := kickCounted_kept (s := s) p (2 ^ b)
  have hu : hostRuns (setHost (kickCounted p (2 ^ b) s) { s.host with again := [b] }) = true := by
    rw [← hruns]
    unfold hostRuns flag rd unitOk
    rw [setHost_host, setHost_cur, setHost_selvedge, hk.cur_eq rfl, hk.selvedge_eq rfl]
  rw [exec_hostKick hr hp hb ha, hallow, if_pos rfl, issueFetches_turns, hu, if_pos rfl,
    fetchTurns_only (b := b) _ List.nodup_range (List.mem_range.mpr hb) (by rw [setHost_host])]

theorem reqRoom_kicked (p v : Nat) (l : List Nat) (k : Nat) :
    reqRoom (setHost (kickCounted p v s) { s.host with again := l }) k = reqRoom s k := by
  have hk := kickCounted_kept (s := s) p v
  rw [← hk.host_eq rfl, reqRoom_again, reqRoom_congr (hk.host_eq rfl) (hk.cur_eq rfl)]

theorem fetchTurn_waits (h : s.host.inFlight.contains b = true ∨ reqRoom s 0 = 0) : fetchTurn s b = s := by
  rw [fetchTurn]
  refine if_neg fun hc => ?_
  simp only [Bool.and_eq_true, Bool.not_eq_true', decide_eq_true_eq] at hc
  obtain h | h := h
  · rw [h] at hc
    exact Bool.false_ne_true hc.1.2.symm
  · omega

theorem fetchTurn_fetches (ha : s.host.again = [b]) (hf : s.host.inFlight.contains b = false) (hroom : 0 < reqRoom s 0) :
    (fetchTurn s b).host = { s.host with inFlight := s.host.inFlight ++ [b], again := [] } ∧
      (fetchTurn s b).out = s.out ++ [.doorbellFetch b (dbAddr s b)] := by
  rw [fetchTurn, if_pos (by rw [ha, hf]; simpa using hroom)]
  refine ⟨?_, ?_⟩
  · rw [emit_host, count_host, setHost_host, ha]
    simp
  · rw [emit_out, count_out, setHost_out]
    rfl

theorem cntVal_emit (o : Output) (g n : Nat) : cntVal (emit s o) g n = cntVal s g n := rfl

theorem cntVal_fetchTurn (hs : s.inv) (b : Nat) : cntVal (fetchTurn s b) 14 0 = cntVal s 14 0 := by
  rw [fetchTurn]
  split
  · rw [cntVal_emit, count, cntVal_countBy_other (by exact hs) (by decide)]
    rfl
  · rfl

theorem cntVal_kickCounted (hs : s.inv) (p v : Nat) :
    cntVal (kickCounted p v s) 14 0 = min cntMax (cntVal s 14 0 + 1) := by
  rw [kickCounted]
  split
  · exact cntVal_countBy_same hs 14 0 1
  · rw [count, cntVal_countBy_other (count_inv hs 14 0) (by decide)]
    exact cntVal_countBy_same hs 14 0 1

/-! ## Fetched indices (R343, R345) -/

/-- Ring `r` keeps its kind and its doorbell index. -/
def DbKept (r : Nat) (s t : State) : Prop := (ringAt t r).kind = (ringAt s r).kind ∧ (ringAt t r).db = (ringAt s r).db

theorem DbKept.of_ring (h : ringAt t r = ringAt s r) : DbKept r s t := by
  unfold DbKept
  rw [h]
  exact ⟨rfl, rfl⟩

theorem DbKept.of_host (h : t.host.rings = s.host.rings) : DbKept r s t := .of_ring (by rw [ringAt, h, ringAt])

theorem DbKept.trans (h : DbKept r s t) (h' : DbKept r t u) : DbKept r s u := ⟨h'.1.trans h.1, h'.2.trans h.2⟩

theorem DbKept.of_runKept (h : RunKept r s t) : DbKept r s t := by
  obtain ⟨_, _, _, h⟩ := h
  unfold DbKept
  rw [h]
  exact ⟨rfl, rfl⟩

theorem DbKept.of_setRing (hoff : x.kind ≠ .off) (hk : x.kind = (ringAt s r).kind) (hd : x.db = (ringAt s r).db) : DbKept r s (setRing s r x) := by
  unfold DbKept
  rw [ringAt_setRing_same hoff]
  exact ⟨hk, hd⟩

theorem isProduced_ne (h : isProduced (ringAt s r).kind = true) : (ringAt s r).kind ≠ .off ∧ (ringAt s r).kind ≠ .cq := by
  constructor <;> intro hk <;> rw [hk] at h <;> exact Bool.false_ne_true h

theorem startFetch_db (hoff : (ringAt s r).kind ≠ .off) : DbKept r s (startFetch s r) := by
  rw [startFetch]
  split
  · exact (DbKept.of_setRing (s := s) (r := r) (x := { ringAt s r with reading := true }) hoff rfl rfl).trans
      (.of_ring ((ringAt_emit _ _ r).trans (ringAt_count _ 14 4 r)))
  · exact .of_ring rfl

theorem dmaErr_host (s : State) : (dmaErr s).host = { s.host with aer := s.host.aer + 1 } := by
  rw [dmaErr, (raiseFree_kept (.refl _ _) (.refl _)).host_eq rfl, count_host]
  rfl

theorem dmaErr_rings (s : State) : (dmaErr s).host.rings = s.host.rings := by rw [dmaErr_host]

theorem endShuttle_db (hcq : (ringAt s r).kind ≠ .cq) (i w st : Nat) : DbKept r s (endShuttle s r i w st) := by
  rw [endShuttle]
  split
  · exact (DbKept.of_ring (ringAt_count s 15 8 r)).trans (.of_runKept (post_runKept (by rw [ringAt_count]; exact hcq) _))
  · exact .of_runKept (post_runKept hcq _)

/-- A notification goes to a CQ in RUN. -/
theorem ringAt_notify (h : isCqRun s r = false) (c sub pay : Nat) : ringAt (notify s c sub pay) r = ringAt s r := by
  have hne : isCqRun s c = true → c ≠ r := fun hc e => by rw [e, h] at hc; exact Bool.false_ne_true hc
  have hdrop : ∀ m, ringAt (notifyDrop s c m) r = ringAt s r := fun m => by
    have hs : ringAt (setBit (count s 14 14) Reg.hostStat 9) r = ringAt s r := by rw [ringAt, setBit_host, count_host, ringAt]
    have hq : ∀ k, isCqRun (setBit (count s 14 14) Reg.hostStat 9) k = isCqRun s k := fun k => by
      rw [isCqRun, ringAt, setBit_host, count_host, ← ringAt, ← isCqRun]
    rw [notifyDrop]
    dsimp only
    split
    · rename_i hm
      have hc : isCqRun s c = true := by rw [← hq]; exact (Bool.and_eq_true _ _ ▸ hm).2
      rw [ringAt_setRing_other (by exact isCqRun_kind ((hq c).trans hc)) (hne hc), hs]
    · exact hs
  rw [notify]
  split
  · exact hdrop false
  · split
    · rename_i hfree
      have hc : isCqRun s c = true := by
        rw [cqFree] at hfree
        split at hfree
        · rename_i hq
          exact (Bool.and_eq_true _ _ ▸ hq).2
        · exact absurd hfree (Nat.lt_irrefl 0)
      exact ringAt_cqWrite_other (isCqRun_kind hc) (hne hc) _
    · exact hdrop true

/-- A ring that stalls is no CQ in RUN, so the notification of its stall leaves it. -/
theorem stallRing_ring (r : Nat) : ringAt (stallRing s r) r = { ringAt s r with state := .stalled } := by
  obtain ⟨t, ht⟩ : ∃ t, t = stallRing s r := ⟨_, rfl⟩
  rw [← ht]
  unfold stallRing at ht
  extract_lets x s1 s2 s3 s4 at ht
  have h1 : ringAt s1 r = { ringAt s r with state := .stalled } := by
    change ringAt (count _ 14 6) r = _
    rw [ringAt_count, ringAt_setRing_live (fun h => RingState.noConfusion h)]
  have h2 : ringAt s2 r = ringAt s1 r := ringAt_of_host (setBit_host _ _ _) r
  have h3 : ringAt s3 r = ringAt s2 r := by
    change ringAt (if flag s2 Reg.hostStall 31 then s2 else setReg s2 Reg.hostStall _) r = _
    split
    · rfl
    · exact ringAt_of_host (setReg_host _ _ _) r
  have h4 : ringAt s4 r = ringAt s3 r := ringAt_of_host ((raiseEv_kept (.refl _ s3) (.refl _)).host_eq rfl) r
  have hrun : ringAt s4 r = { ringAt s r with state := .stalled } := by rw [h4, h3, h2, h1]
  rw [ht]
  split
  · rw [ringAt_notify (by rw [isCqRun, hrun]; simp), hrun]
  · exact hrun

theorem failDesc_db (hoff : (ringAt s r).kind ≠ .off) (hcq : (ringAt s r).kind ≠ .cq) (i : Nat) : DbKept r s (failDesc s r i) := by
  have h0 : DbKept r s (dmaErr s) := .of_host (dmaErr_rings s)
  obtain ⟨t, ht⟩ : ∃ t, t = dmaErr s := ⟨_, rfl⟩
  unfold failDesc
  rw [← ht] at h0 ⊢
  dsimp only
  have hoff' : (ringAt t r).kind ≠ .off := by rw [h0.1]; exact hoff
  have hcq' : (ringAt t r).kind ≠ .cq := by rw [h0.1]; exact hcq
  split
  · rename_i hk
    generalize ((ringAt t r).chain.take _) = keep
    have h1 : DbKept r t (setRing t r { ringAt t r with chain := keep }) := .of_setRing hoff' rfl rfl
    exact (h0.trans h1).trans (.of_runKept (endDesc_runKept (by rw [h1.1]; exact hcq') _ _ _))
  · split
    · exact h0.trans (endShuttle_db hcq' _ _ _)
    · exact h0.trans (.of_runKept (endDesc_runKept hcq' _ _ _))

theorem emitReads_host (a n : Nat) : (emitReads s a n).host = s.host := by
  obtain ⟨o, h⟩ := emitReads_form (s := s) a n
  rw [h]

/-- A command descriptor joins the validated commands; its ring is left. -/
theorem dispatch_cmd (hk : (ringAt s r).kind = .cmd) (i w : Nat) (d : DescIn) :
    (dispatch s r i w d).host.rings = s.host.rings ∧
      (dispatch s r i w d).host.cmds = s.host.cmds ++ [⟨⟨r, i, w, d.prep⟩, d.late⟩] := by
  obtain ⟨u, hu⟩ : ∃ u, u = if cmdOk ⟨r, i, w, d.prep⟩ && decide (0 < cmdPrepLen ⟨r, i, w, d.prep⟩) then
      emitReads s (cmdAddr ⟨r, i, w, d.prep⟩) (cmdPrepLen ⟨r, i, w, d.prep⟩) else s := ⟨_, rfl⟩
  have h : dispatch s r i w d = setHost (if prepFailed ⟨r, i, w, d.prep⟩ then dmaErr u else u)
      { (if prepFailed ⟨r, i, w, d.prep⟩ then dmaErr u else u).host with
        cmds := (if prepFailed ⟨r, i, w, d.prep⟩ then dmaErr u else u).host.cmds ++ [⟨⟨r, i, w, d.prep⟩, d.late⟩] } := by
    rw [hu, dispatch]
    simp only [hk]
  have hh : u.host = s.host := by
    rw [hu]
    split
    · exact emitReads_host _ _
    · rfl
  rw [h, setHost_host, ← hh]
  split
  · rw [dmaErr_host]
    exact ⟨rfl, rfl⟩
  · exact ⟨rfl, rfl⟩

theorem dispatch_db (hoff : (ringAt s r).kind ≠ .off) (hcq : (ringAt s r).kind ≠ .cq) (i w : Nat) (d : DescIn) : DbKept r s (dispatch s r i w d) := by
  cases hk : (ringAt s r).kind with
  | off => exact absurd hk hoff
  | cq => exact absurd hk hcq
  | cmd => exact .of_host (dispatch_cmd hk i w d).1
  | rx =>
    rw [dispatch]
    simp only [hk]
    split
    · exact .of_setRing (by simp) hk.symm rfl
    · exact .of_runKept (endDesc_runKept hcq _ _ _)
  | tx =>
    rw [dispatch]
    simp only [hk]
    exact .of_setRing (by simp) hk.symm rfl
  | shuttle =>
    rw [dispatch]
    simp only [hk]
    exact .of_setRing (by simp) hk.symm rfl

theorem processRing_db (hoff : (ringAt s r).kind ≠ .off) (hcq : (ringAt s r).kind ≠ .cq) : DbKept r s (processRing s r) := by
  unfold processRing
  dsimp only
  split
  · exact startFetch_db hoff
  · rename_i d hd
    have hadv : DbKept r s (setRing s r (advanceRing (ringAt s r))) := .of_setRing hoff rfl rfl
    have hkind := hadv.1
    split
    · exact .of_ring rfl
    · split
      · have hf := failDesc_db (s := setRing s r (advanceRing (ringAt s r))) (r := r) (by rwa [hkind]) (by rwa [hkind]) (ringAt s r).next
        exact (hadv.trans hf).trans (startFetch_db (by rw [hf.1, hkind]; exact hoff))
      · rename_i w hw
        split
        · split
          · have h1 : DbKept r s (setRing s r { ringAt s r with arrived := none }) := .of_setRing hoff rfl rfl
            refine h1.trans ?_
            unfold DbKept
            rw [stallRing_ring]
            exact ⟨rfl, rfl⟩
          · exact .of_setRing hoff rfl rfl
        · have hf := dispatch_db (s := setRing s r (advanceRing (ringAt s r))) (r := r) (by rwa [hkind]) (by rwa [hkind]) (ringAt s r).next w d
          exact (hadv.trans hf).trans (startFetch_db (by rw [hf.1, hkind]; exact hoff))

theorem acceptIndex_run (hp : isProduced (ringAt s r).kind = true) (hrun : (ringAt s r).state = .run) (idx : Nat) :
    acceptIndex s r idx = if 2 ^ (ringAt s r).log2 - 1 < idxSub idx (ringAt s r).done ∨
        idxSub idx (ringAt s r).done < idxSub (ringAt s r).db (ringAt s r).done then dbBad s
      else processRing (setRing s r { ringAt s r with db := idx }) r := by
  unfold acceptIndex
  simp only [hp, hrun, if_neg (isProduced_ne hp).2]
  rfl

/-! ## Bits of a register in any table: a write to another register hides no entry -/

theorem sget_sput_found {α : Type} [DecidableEq α] {d e : α} {m : Sparse α} {i j : Nat} (hne : i ≠ j) (h : sget d m j ≠ d) (v : α) :
    sget d (sput e m i v) j = sget d m j := by
  rw [sput]
  split
  · induction m with
    | nil => rfl
    | cons x m ih =>
      obtain ⟨k, y⟩ := x
      rw [sdel]
      split
      · rename_i hk
        rw [sget, if_neg (by omega)] at h ⊢
        split at h
        · exact absurd rfl h
        · rename_i hj
          rw [if_neg hj]
      · split
        · rfl
        · rw [sget] at h
          rw [sget, sget]
          by_cases hkj : k = j
          · rw [if_pos hkj, if_pos hkj]
          · rw [if_neg hkj] at h
            by_cases hlt : j < k
            · rw [if_pos hlt] at h
              exact absurd rfl h
            · rw [if_neg hkj, if_neg hkj, if_neg hlt, if_neg hlt]
              rw [if_neg hlt] at h
              exact ih h
  · exact sget_sins_other d m i j v hne

section
variable {a n : Nat}

theorem flag_found (hr : (regReset a).toNat.testBit n = false) (h : flag s a n = true) : sget (regReset a) s.cur a ≠ regReset a := by
  intro he
  rw [flag, rd, he, hr] at h
  exact Bool.false_ne_true h

theorem flag_setReg_found (hr : (regReset a).toNat.testBit n = false) (h : flag s a n = true) {b : Nat} (hb : b ≠ a) (v : Nat) :
    flag (setReg s b v) a n = true := by
  rw [← h, flag, rd, flag, rd]
  exact congrArg (fun x : Word => x.toNat.testBit n) (sget_sput_found hb (flag_found hr h) _)

theorem flag_setBit_of (hr : (regReset a).toNat.testBit n = false) (hn : n < 32) {k : Nat} (h : flag s a n = true ∨ k = n) :
    flag (setBit s a k) a n = true := by
  have hbit : (BitVec.ofNat 32 (insBits (rd s a) k k 1)).toNat.testBit n = true := by
    rw [BitVec.toNat_ofNat, Nat.testBit_mod_two_pow, decide_eq_true hn, Bool.true_and, insBits_testBit (Nat.le_refl k)]
    split
    · rename_i hk
      rw [show n - k = 0 by omega]
      rfl
    · rename_i hk
      exact h.resolve_right (by omega)
  have hne : BitVec.ofNat 32 (insBits (rd s a) k k 1) ≠ regReset a := fun he => by
    rw [he, hr] at hbit
    exact Bool.false_ne_true hbit
  have hget : sget (regReset a) (sput (regReset a) s.cur a (BitVec.ofNat 32 (insBits (rd s a) k k 1))) a =
      BitVec.ofNat 32 (insBits (rd s a) k k 1) := by
    rw [sput, if_neg hne, sget_sins_same]
  rw [← hbit, flag, rd]
  exact congrArg (fun x : Word => x.toNat.testBit n) hget

/-- A bit that is set stays set as another bit of its register, or of another one, is set. -/
theorem flag_setBit_found (hr : (regReset a).toNat.testBit n = false) (hn : n < 32) (h : flag s a n = true) (b k : Nat) :
    flag (setBit s b k) a n = true := by
  by_cases hb : b = a
  · subst hb
    exact flag_setBit_of hr hn (.inl h)
  · rw [← h, flag, rd, flag, rd]
    exact congrArg (fun x : Word => x.toNat.testBit n) (sget_sput_found hb (flag_found hr h) _)

end

/-! ## A ring stalls (R345) -/

section
variable {a n : Nat}

theorem flag_of_cur (hc : t.cur = s.cur) : flag t a n = flag s a n := by rw [flag, rd, hc, ← rd, ← flag]

theorem flag_raiseEv_found (hr : (regReset a).toNat.testBit n = false) (hn : n < 32) (h : flag s a n = true) (src code ctx : Nat) :
    flag (raiseEv s src code ctx) a n = true := by
  rw [raiseEv, raiseRoot, arrive]
  split
  · exact h
  · exact flag_setBit_found hr hn (by rwa [flag_of_cur (count_cur s 17 7)]) _ _

theorem flag_notify_found (hr : (regReset a).toNat.testBit n = false) (hn : n < 32) (h : flag s a n = true) (c sub pay : Nat) :
    flag (notify s c sub pay) a n = true := by
  have hdrop : ∀ m, flag (notifyDrop s c m) a n = true := fun m => by
    have hs : flag (setBit (count s 14 14) Reg.hostStat 9) a n = true :=
      flag_setBit_found hr hn (by rwa [flag_of_cur (count_cur s 14 14)]) _ _
    rw [notifyDrop]
    split
    · rwa [flag_of_cur ((setRing_kept (.refl _ _) (.refl _)).cur_eq rfl)]
    · exact hs
  rw [notify]
  split
  · exact hdrop false
  · split
    · rwa [flag_of_cur ((cqWrite_kept (.refl _ s) (.refl _)).cur_eq rfl)]
    · exact hdrop true

end

theorem stallRing_reports (r : Nat) : flag (stallRing s r) Reg.hostStat 11 = true ∧ s.raises (stallRing s r) 0x1E 0x050 := by
  have hr : (regReset Reg.hostStat).toNat.testBit 11 = false := by decide
  obtain ⟨t, ht⟩ : ∃ t, t = stallRing s r := ⟨_, rfl⟩
  rw [← ht]
  unfold stallRing at ht
  extract_lets x s1 s2 s3 s4 at ht
  have h2 : flag s2 Reg.hostStat 11 = true := flag_setBit_of hr (by decide) (.inr rfl)
  have hstat : Reg.hostStall ≠ Reg.hostStat := by decide
  have h3 : flag s3 Reg.hostStat 11 = true := by
    change flag (if flag s2 Reg.hostStall 31 then s2 else setReg s2 Reg.hostStall _) _ _ = true
    split
    · exact h2
    · exact flag_setReg_found hr h2 hstat _
  have h4 : flag s4 Reg.hostStat 11 = true := flag_raiseEv_found hr (by decide) h3 _ _ _
  have hs3 : s3.selvedge = s.selvedge := by
    have hs2 : s2.selvedge = s.selvedge := by
      change (setBit (count _ 14 6) _ _).selvedge = _
      rw [setBit_selvedge, count_selvedge]
      rfl
    change (if flag s2 Reg.hostStall 31 then s2 else setReg s2 Reg.hostStall _).selvedge = _
    split
    · exact hs2
    · rw [setReg_selvedge, hs2]
  have hraise : s.raises s4 0x1E 0x050 := raises_of_selvedge hs3 (raises_raiseEv s3 _ _ _)
  rw [ht]
  split
  · refine ⟨flag_notify_found hr (by decide) h4 _ _ _, ?_⟩
    rw [State.raises, (notify_kept (.refl 8344 s4) (.refl _)).selvedge_eq rfl]
    exact hraise
  · exact ⟨h4, hraise⟩

/-! ## A descriptor read returns (R345, R355) -/

theorem exec_descriptorReadDone (h : (ringAt s r).reading = true) (d : DescIn) :
    exec (.descriptorReadDone r d) s = .next (processRing (setRing s r { ringAt s r with reading := false, arrived := some d }) r) :=
  congrArg Host.Outcome.next (if_pos h)

theorem processRing_word {d : DescIn} (ha : (ringAt s r).arrived = some d) (hw : d.word = some w) (hrun : (ringAt s r).state = .run)
    (hfree : 0 < cqFree s (ringAt s r).cq) :
    processRing s r = if w.testBit 255 == (ringAt s r).parity then
        if 16 ≤ (ringAt s r).retry then stallRing (setRing s r { ringAt s r with arrived := none }) r
        else setRing s r { ringAt s r with arrived := none, mism := true }
      else startFetch (dispatch (setRing s r (advanceRing (ringAt s r))) r (ringAt s r).next w d) r := by
  have hc : ((ringAt s r).state != .run || cqFree s (ringAt s r).cq == 0) = false := by
    rw [hrun]
    simp
    omega
  unfold processRing
  dsimp only
  rw [ha]
  dsimp only
  rw [hc, if_neg Bool.false_ne_true, hw]

theorem startFetch_ring (hoff : (ringAt s r).kind ≠ .off) :
    (startFetch s r).host.cmds = s.host.cmds ∧ ∃ b, ringAt (startFetch s r) r = { ringAt s r with reading := b } := by
  rw [startFetch]
  split
  · refine ⟨?_, true, ?_⟩
    · rw [emit_host, count_host]
      rfl
    · rw [ringAt_emit, ringAt_count, ringAt_setRing_same (by exact hoff)]
  · exact ⟨rfl, _, rfl⟩

theorem ringAt_setRing_other_live (h : x.state ≠ .off) (hne : r ≠ c) : ringAt (setRing s r x) c = ringAt s c := by
  have he : x ≠ {} := fun he => h (by rw [he])
  simp [ringAt, setRing, sput, he, sget_sins_other _ _ _ _ _ hne]

/-- The descriptor has arrived, and the ring and its CQ are as before. -/
theorem arrived_ring (hrun : (ringAt s r).state = .run) (hne : (ringAt s r).cq ≠ r) (d : DescIn) :
    ringAt (setRing s r { ringAt s r with reading := false, arrived := some d }) r = { ringAt s r with reading := false, arrived := some d } ∧
      cqFree (setRing s r { ringAt s r with reading := false, arrived := some d }) (ringAt s r).cq = cqFree s (ringAt s r).cq := by
  have hlive : ({ ringAt s r with reading := false, arrived := some d } : Ring).state ≠ .off := by simp [hrun]
  refine ⟨ringAt_setRing_live hlive, ?_⟩
  rw [cqFree, isCqRun, ringAt_setRing_other_live hlive (Ne.symm hne)]
  rfl

end

/-- Settles O46: a kick of one block leaves one wish, whose turn fetches or waits; a fetched index and a returned descriptor are acted on by
`processRing`, which keeps the doorbell index; a stalled ring's notification goes to another ring. -/
theorem doorbellsFetchDescriptors : Obligations.DoorbellsFetchDescriptors := by
  unfold Obligations.DoorbellsFetchDescriptors
  refine ⟨fun s p b hs hr hp hb hrun ha => ⟨fun hm hf hroom => ?_, fun hm hw => ?_, fun hm => ?_⟩, fun s b hb => ⟨?_, fun d => ?_⟩,
    fun s r idx hs hp hrun => ⟨fun h => ?_, fun h1 h2 => ?_⟩, fun s r w prep late hrd hrun hfree hne => ?_, fun s r hm hrun => ⟨fun hh hroom => ?_, fun h => ?_⟩⟩
  · obtain ⟨hh, ho⟩ := fetchTurn_fetches (s := setHost (kickCounted p (2 ^ b) s) { s.host with again := [b] }) rfl hf (by rwa [reqRoom_kicked])
    have hk := kickCounted_kept (s := s) p (2 ^ b)
    refine ⟨_, exec_hostKick_one hr hp hb ha hrun hm, by rw [hh]; rfl, ?_, ?_, by rw [hh]⟩
    · rw [ho, setHost_out, hk.out_eq rfl, dbAddr_congr (s := s) (by rw [setHost_cur, hk.cur_eq rfl])]
    · rw [cntVal_fetchTurn (by exact hk.inv hs)]
      exact cntVal_kickCounted hs p _
  · have hk := kickCounted_kept (s := s) p (2 ^ b)
    refine ⟨_, exec_hostKick_one hr hp hb ha hrun hm, ?_⟩
    rw [fetchTurn_waits (by rw [reqRoom_kicked]; exact hw), setHost_host, setHost_out, hk.out_eq rfl]
    exact ⟨rfl, rfl, rfl⟩
  · have hk := kickCounted_kept (s := s) p (2 ^ b)
    have hh : (setHost (kickCounted p (2 ^ b) s) { s.host with again := [] }) = kickCounted p (2 ^ b) s := by
      rw [← ha, ← hk.host_eq rfl]
      rfl
    have hnone : issueFetches (kickCounted p (2 ^ b) s) = kickCounted p (2 ^ b) s := by
      rw [issueFetches_turns]
      split
      · exact fetchTurns_unwanted _ fun k _ => by rw [hk.host_eq rfl, ha]; rfl
      · rfl
    refine ⟨_, exec_hostKick hr hp hb ha, ?_⟩
    rw [hm, if_neg Bool.false_ne_true, hh, hnone]
    refine ⟨hk.host_eq rfl, hk.out_eq rfl, ?_⟩
    have hbit : (255 - fld s (Reg.hostKickMap p) 7 0).testBit b = true := by
      have hlt : fld s (Reg.hostKickMap p) 7 0 < 2 ^ 8 := bits_lt _ 7 0
      rw [show 255 - fld s (Reg.hostKickMap p) 7 0 = 2 ^ 8 - (fld s (Reg.hostKickMap p) 7 0 + 1) by omega, Nat.testBit_two_pow_sub_succ hlt, hm]
      simpa using hb
    have hmod : 2 ^ b % 256 = 2 ^ b := Nat.mod_eq_of_lt (Nat.pow_lt_pow_right (m := b) (n := 8) (by decide) hb)
    rw [kickCounted, hmod, if_neg fun h => ?_]
    · rw [count, cntVal_countBy_same (count_inv hs 14 0), count, cntVal_countBy_other hs (by decide)]
    · have := congrArg (Nat.testBit · b) h
      simp [hbit] at this
  · exact congrArg Host.Outcome.next (if_pos hb)
  · exact congrArg Host.Outcome.next (if_pos hb)
  · rw [acceptIndex_run hp hrun, if_pos h, dbBad]
    refine ⟨by rw [setBit_host, count_host], by rw [cntVal, setBit_cnt, ← cntVal]; exact cntVal_countBy_same hs 14 3 1, flag_setBit (count_inv hs 14 3) (by decide)⟩
  · rw [acceptIndex_run hp hrun, if_neg (by omega)]
    obtain ⟨hoff, hcq⟩ := isProduced_ne hp
    have hset : ringAt (setRing s r { ringAt s r with db := idx }) r = { ringAt s r with db := idx } := ringAt_setRing_same hoff
    rw [(processRing_db (by rw [hset]; exact hoff) (by rw [hset]; exact hcq)).2, hset]
  · obtain ⟨hring, hcq⟩ := arrived_ring hrun hne ⟨some w, prep, late⟩
    have hx := exec_descriptorReadDone hrd ⟨some w, prep, late⟩
    obtain ⟨v, hv⟩ : ∃ v, v = setRing s r { ringAt s r with reading := false, arrived := some ⟨some w, prep, late⟩ } := ⟨_, rfl⟩
    rw [← hv] at hring hcq hx
    rw [processRing_word (by rw [hring]) rfl (by rw [hring]; exact hrun) (by rw [hring, hcq]; exact hfree), hring] at hx
    refine ⟨fun hph hlt => ⟨_, hx, ?_⟩, fun hph hge => ⟨_, hx, ?_⟩, fun hph hk => ⟨_, hx, ?_⟩⟩
    · have hlive : (ringAt s r).state ≠ .off := by rw [hrun]; decide
      rw [hph, if_pos (by simp), if_neg (by dsimp only; omega), ringAt_setRing_live (by exact hlive), hv]
      exact ⟨rfl, rfl⟩
    · rw [hph, if_pos (by simp), if_pos hge, stallRing_ring]
      obtain ⟨hf, hr⟩ := stallRing_reports (s := setRing v r { ringAt s r with reading := false, arrived := none }) r
      refine ⟨rfl, hf, raises_of_selvedge ?_ hr⟩
      rw [hv]
      rfl
    · rw [if_neg (by simpa using hph)]
      obtain ⟨u, hu⟩ : ∃ u, u = setRing v r (advanceRing { ringAt s r with reading := false, arrived := some ⟨some w, prep, late⟩ }) := ⟨_, rfl⟩
      have hoff : (ringAt s r).kind ≠ .off := by rw [hk]; decide
      have hur : ringAt u r = advanceRing { ringAt s r with reading := false, arrived := some ⟨some w, prep, late⟩ } := by
        rw [hu, ringAt_setRing_same (by exact hoff)]
      rw [← hu]
      obtain ⟨hrings, hcmds⟩ := dispatch_cmd (s := u) (r := r) (by rw [hur]; exact hk) (ringAt s r).next w ⟨some w, prep, late⟩
      obtain ⟨t, ht⟩ : ∃ t, t = dispatch u r (ringAt s r).next w ⟨some w, prep, late⟩ := ⟨_, rfl⟩
      rw [← ht] at hrings hcmds ⊢
      have htr : ringAt t r = ringAt u r := by rw [ringAt, hrings, ringAt]
      obtain ⟨hsame, b, hsf⟩ := startFetch_ring (s := t) (r := r) (by rw [htr, hur]; exact hoff)
      refine ⟨?_, ?_, ?_⟩
      · rw [hsame, hcmds, hu, hv]
        rfl
      · rw [hsf, htr, hur]
        rfl
      · rw [hsf, htr, hur]
        rfl
  · refine congrArg Host.Outcome.next (if_pos ?_)
    rw [hm, hrun, hh]
    simpa using hroom
  · refine congrArg Host.Outcome.next (if_neg ?_)
    rw [hm, hrun]
    obtain h | h := h <;> rw [h] <;> simp

end Sys2Proof.Machine
end

