-- ==== Sys2Proof/Proofs/FunctionReset.lean ====
section
/-! SUPPORT. Proofs/FunctionReset.lean: the function reset and the jobs of Shuttle's channels; O47's clause about them asks for the
invariant, which does not speak of the channels' table, and fails where that table lists a channel twice (R370). -/

namespace Sys2Proof.Machine

open Sys2Proof

/-- Channel 0 stands twice in the table, each time with a job and nothing else. -/
def chanListedTwice : State :=
  { State.reset with shuttle := { chans := [(0, { job := some { ring := 2, index := 0, word := 0 } }),
                                            (0, { job := some { ring := 2, index := 1, word := 0 } })] } }

theorem chanListedTwice_inv : chanListedTwice.inv := ⟨by decide, by decide⟩

/-- Ending the first job leaves the channel as an unlisted one, so its entry goes and the second is found. -/
theorem chanListedTwice_goesOn : Option.map (fun t => ((chanAt t 0).job.map (·.index)))
    (match exec (.hostFunctionReset false) chanListedTwice with
      | .next t => some t
      | _ => none) = some (some 1) := by decide

/-- Refutes O47: a Function Level Reset in a state that meets the invariant of O1 and whose table lists channel 0 twice. The job of the
second entry stands after the reset. -/
theorem not_hostFunctionServes : ¬ Obligations.HostFunctionServes := by
  unfold Obligations.HostFunctionServes
  rintro ⟨-, -, -, hreset, -⟩
  obtain ⟨t, hexec, -, -, -, -, -, -, -, -, -, -, -, -, -, -, hjobs, -⟩ := hreset chanListedTwice false chanListedTwice_inv
  have hjob := chanListedTwice_goesOn
  rw [hexec] at hjob
  obtain hnone | hbeyond := hjobs 0
  · rw [Option.map_some, hnone] at hjob
    exact absurd hjob (by decide)
  · exact absurd hbeyond (by decide)

end Sys2Proof.Machine
end

