-- ==== Sys2Proof/Proofs/PoisonedBurst.lean ====
section
/-! SUPPORT. Proofs/PoisonedBurst.lean: a burst that meets poisoned DRAM reports it; O48 says that no counter moves, but a report beyond
the 8 that Selvedge holds for the source is counted in REPORT_LOST (R381, R439). -/

namespace Sys2Proof.Machine

open Sys2Proof

/-- Channel 0 copies 64 bytes of DRAM from 0 to 0x1000, and Selvedge already holds 8 reports of Shuttle. -/
def reportsFull : State :=
  { State.reset with power := { mode := .listen, ready := true, clkPll := true, corePllLock := true, isOn := 2 ^ 32 - 1 }
                     cur := [(Reg.shuttleCtrl, 1#32), (Reg.shuttleChCfg 0, 0x80000002#32), (Reg.dramStat, 0x80000000#32)]
                     selvedge := { State.reset.selvedge with waiting := List.replicate 8 ⟨2, 0x1F, 0x012, 0, 0x0E, 0x011⟩ }
                     shuttle := { chans := [(0, { live := true, job := some { ring := 2, index := 0
                                                                              word := 0x1000 * 2 ^ 64 + 64 * 2 ^ 128 + 2 ^ 164 + 2 ^ 166 } })] } }

/-- The arbiter picks channel 0, whose burst reads address 0. -/
theorem reportsFull_pick : shPick reportsFull = some 0 := by decide

theorem reportsFull_lost : Option.map (fun t => cntVal t 17 7)
    (match exec (.shuttleBurst { memErr := some 0 }) reportsFull with
      | .next t => some t
      | _ => none) = some 1 := by decide

/-- Refutes O48: the burst of `reportsFull` reads the poisoned address 0. Its report is lost, and REPORT_LOST goes from 0 to 1. -/
theorem not_shuttleMovesData : ¬ Obligations.ShuttleMovesData := by
  unfold Obligations.ShuttleMovesData
  rintro ⟨-, hburst, -⟩
  obtain ⟨-, -, hpoison, -⟩ := hburst reportsFull 0 { memErr := some 0 } _ reportsFull_pick rfl (by decide)
  obtain ⟨t, hexec, -, -, hcnt, -⟩ := hpoison (by decide)
  have hlost := reportsFull_lost
  rw [hexec, Option.map_some, cntVal, hcnt] at hlost
  exact absurd hlost (by decide)

end Sys2Proof.Machine
end

