-- ==== Sys2Proof/Proofs/SkeinServices.lean ====
section
/-! SUPPORT. Proofs/SkeinServices.lean: what stands around the cores: swaps and windows of the equaliser, core 3's code, bank switches,
RESET, the host window and the doorbell (R45, R387, R401, R403 to R407). -/

namespace Sys2Proof.Machine

open Sys2Proof

section
variable {s t u : State} {a c d n k v lo hi : Nat} {x : SkCore}

/-! ## Interrupts made pending (R398) -/

theorem coreAt_setCore_other (h : c ≠ n) (s : State) (x : SkCore) : coreAt (setCore s c x) n = coreAt s n := by
  simp only [coreAt, setCore, Vector.toArray_setIfInBounds, Array.getD_eq_getD_getElem?]
  rw [Array.getElem?_setIfInBounds_ne h]

theorem pendCore_other (h : c ≠ n) : coreAt (pendCore s c k) n = coreAt s n := by
  rw [pendCore]
  split
  · exact coreAt_setCore_other h _ _
  · rfl

/-- The core with one source more pending. -/
def pendOn (x : SkCore) (k : Nat) : SkCore :=
  if x.st = .wait ∧ (x.ipend ||| BitVec.ofNat 8 (2 ^ k)) &&& x.ien ≠ 0 then
    { x with ipend := x.ipend ||| BitVec.ofNat 8 (2 ^ k), st := .run } else { x with ipend := x.ipend ||| BitVec.ofNat 8 (2 ^ k) }

theorem pendCore_same (hc : c < 4) (hd : domOn s (28 + c) = true) : coreAt (pendCore s c k) c = pendOn (coreAt s c) k := by
  rw [pendCore, if_pos hd]
  dsimp only
  rw [coreAt_setCore hc]
  rfl

theorem ipend_or (hk : k < 8) (p : BitVec 8) : (p ||| BitVec.ofNat 8 (2 ^ k)).getLsbD k = true := by
  rw [BitVec.getLsbD_or, BitVec.getLsbD_ofNat, Nat.testBit_two_pow_self, decide_eq_true hk]
  simp

theorem pendOn_ipend (hk : k < 8) : (pendOn x k).ipend.getLsbD k = true := by
  rw [pendOn]
  split <;> exact ipend_or hk _

theorem pendOn_d : (pendOn x k).d = x.d := by
  rw [pendOn]
  split <;> rfl

theorem pendOn_wakes (hk : k < 8) (hw : x.st = .wait) (he : x.ien.getLsbD k = true) : (pendOn x k).st = .run := by
  have h : (x.ipend ||| BitVec.ofNat 8 (2 ^ k)) &&& x.ien ≠ 0 := fun hz => by
    have hbit : ((x.ipend ||| BitVec.ofNat 8 (2 ^ k)) &&& x.ien).getLsbD k = true := by
      rw [BitVec.getLsbD_and, ipend_or hk, he]
      rfl
    rw [hz] at hbit
    simp at hbit
  rw [pendOn, if_pos ⟨hw, h⟩]

/-- Core 0 is the first that `pendCores` reaches. -/
theorem pendCores_first (hd : domOn s 28 = true) (hi k : Nat) : coreAt (pendCores s 0 hi k) 0 = pendOn (coreAt s 0) k := by
  have h : ∀ n, coreAt (forUpTo (n + 1) s (fun c s => if 0 ≤ c ∧ c ≤ hi then pendCore s c k else s)) 0 = pendOn (coreAt s 0) k := fun n => by
    induction n with
    | zero =>
      rw [forUpTo_succ, if_pos ⟨Nat.le_refl 0, Nat.zero_le hi⟩]
      exact pendCore_same (by decide) hd
    | succ n ih =>
      rw [forUpTo_succ]
      split
      · rw [pendCore_other (Nat.succ_ne_zero n), ih]
      · exact ih
  exact h 3

/-! ## A permitted swap (R45, R46) -/

theorem swapBad_false (hen : flag s Reg.warpCtrl 1 = true) (hlos : s.warp.los = false)
    (hmain : 64 ≤ (BitVec.ofNat 10 (s.warp.shadow.getD (fld s Reg.warpEqCfg 4 0) 0)).toInt)
    (hout : s.warp.full = false → ∀ n < 31, n + 3 < fld s Reg.warpEqCfg 4 0 ∨ fld s Reg.warpEqCfg 4 0 + 11 < n → s.warp.shadow.getD n 0 = 0) :
    swapBad s = false := by
  have hsigned : decide (signed 10 (s.warp.shadow.getD (eqMain s) 0) < 64) = false := by
    rw [signed_eq_toInt]
    exact decide_eq_false (by rw [eqMain]; omega)
  have hany : (List.range 34).any (fun n => !tapInside s s.warp.full n && s.warp.shadow.getD n 0 != 0) = false := by
    refine List.any_eq_false.2 fun n _ h => ?_
    simp only [tapInside, eqMain, Bool.and_eq_true, Bool.not_eq_true', Bool.or_eq_false_iff, Bool.and_eq_false_iff, decide_eq_false_iff_not, bne_iff_ne] at h
    obtain ⟨⟨⟨hf, h31⟩, hn⟩, hne⟩ := h
    exact hne (hout hf n (by omega) (hn.imp (fun h => Nat.lt_of_not_le (of_decide_eq_false h)) (fun h => Nat.lt_of_not_le (of_decide_eq_false h))))
  rw [swapBad, hen, hlos, hsigned, hany]
  rfl

theorem warpEqTap_inj (i j : Nat) (h : Reg.warpEqTap i = Reg.warpEqTap j) : i = j := by
  unfold Reg.warpEqTap at h
  omega

theorem useTaps_kept' (l : List Nat) : Kept 8 s (useTaps s l) := useTaps_kept (.refl 8 s) (.refl _)

theorem rd_useTaps_other (hs : s.inv) (ha : ∀ i, Reg.warpEqTap i ≠ a) (l : List Nat) : rd (useTaps s l) a = rd s a := by
  have h : ∀ n, (forUpTo n s (fun n s => setReg s (Reg.warpEqTap n) (l.getD n 0 % 1024))).inv ∧
      rd (forUpTo n s (fun n s => setReg s (Reg.warpEqTap n) (l.getD n 0 % 1024))) a = rd s a := fun n => by
    induction n with
    | zero => exact ⟨hs, rfl⟩
    | succ n ih =>
      rw [forUpTo_succ]
      exact ⟨setReg_inv ih.1 _ _, (rd_setReg_other ih.1 (ha n) _).trans ih.2⟩
  exact (h 34).2

theorem eqSwap_swaps (hs : s.inv) (hb : swapBad s = false) :
    (eqSwap s).warp = { s.warp with swapPend := false, swapDone := true } ∧
      (∀ n < 34, rd (eqSwap s) (Reg.warpEqTap n) = s.warp.shadow.getD n 0 % 1024) ∧
      fld (eqSwap s) Reg.warpEqStat 31 16 = min 0xFFFF (fld s Reg.warpEqStat 31 16 + 1) ∧ (eqSwap s).selvedge = s.selvedge := by
  have hk := useTaps_kept' (s := s) s.warp.shadow
  have hi := hk.inv hs
  have hw := setWarp_inv hi { s.warp with swapPend := false, swapDone := true }
  have heq : eqSwap s = bumpFld (setWarp (useTaps s s.warp.shadow) { s.warp with swapPend := false, swapDone := true }) Reg.warpEqStat 31 16 := by
    rw [eqSwap, hb, if_neg Bool.false_ne_true]
    dsimp only
    rw [hk.warp_eq rfl]
  rw [heq]
  refine ⟨by rw [bumpFld_warp]; rfl, fun n hn => ?_, ?_, ?_⟩
  · have hset : rd (useTaps s s.warp.shadow) (Reg.warpEqTap n) = s.warp.shadow.getD n 0 % 1024 % 2 ^ 32 :=
      ((rd_forUpTo_setReg warpEqTap_inj (fun n => s.warp.shadow.getD n 0 % 1024) hs 34).2 n hn).1
    rw [rd_bumpFld_other hw (warpEqTap_apart hn).1, rd_setWarp, hset]
    omega
  · rw [fld_bumpFld_same hw (by decide) (by decide), fld_setWarp, fld, rd_useTaps_other hs (fun i => by unfold Reg.warpEqTap Reg.warpEqStat; omega), ← fld]
    rfl
  · rw [bumpFld_selvedge]
    exact hk.selvedge_eq rfl

/-! ## Core 3's code and bank switches (R403 to R405) -/

theorem cmdTaken_skein (d : CmdDesc) : (s.cmdTaken d).skein = s.skein := (cmdTaken_kept d).skein_eq rfl

theorem core3Check_congr (h : t.sec = s.sec) (img : List Byte) : core3Check t img = core3Check s img := by
  rw [core3Check, h, core3Check]

theorem haltCore_core (h : c < 4) : coreAt (haltCore s c) c = { coreAt s c with st := .halted, haltAsk := false } := by
  rw [haltCore, coreAt_of_skein (coreReturn_skein _ _), coreAt_setCore h]

theorem zeroCore3_core : coreAt (zeroCore3 s) 3 = { coreAt s 3 with imem := [], xmem := [], ymem := [] } :=
  coreAt_setCore (by decide) _ _

/-- Core 3 with the sections of an image that passed the check. -/
def core3Loaded (s : State) (img : List Byte) : State :=
  let t := setCore (zeroCore3 s) 3 (loadSections img (fun _ _ => true) 0 (coreAt (zeroCore3 s) 3))
  { t with sec := { t.sec with codeDigest := Config.sha512 ((List.range (byteAt img 15)).map (imgSectBytes img)).flatten } }

theorem core3Loaded_parts (img : List Byte) :
    coreAt (core3Loaded s img) 3 = loadSections img (fun _ _ => true) 0 { coreAt s 3 with imem := [], xmem := [], ymem := [] } ∧
      (core3Loaded s img).sec.codeDigest = Config.sha512 ((List.range (byteAt img 15)).map (imgSectBytes img)).flatten := by
  refine ⟨?_, rfl⟩
  rw [← zeroCore3_core]
  exact coreAt_setCore (by decide) (zeroCore3 s) _

theorem cmdSkeinLoad_stopped {d : CmdDesc} (hd : domOn s 31 = true) (h1 : (coreAt s 3).st ≠ .run) (h2 : (coreAt s 3).st ≠ .wait) :
    cmdSkeinLoad d s = if s.sec.custKey = List.replicate 32 0 then .fin 0x48 0 s
      else if core3Check s ((cmdData d).take (cmdLen d)) ≠ 0 then .fin (core3Check s ((cmdData d).take (cmdLen d))) 0 s
      else .fin Status.done 0 (core3Loaded s ((cmdData d).take (cmdLen d))) := by
  rw [cmdSkeinLoad]
  refine if_neg ?_
  rw [hd]
  simp [h1, h2]

theorem cmdSkeinLoad_taken {d : CmdDesc} (hd : domOn s 31 = true) (h1 : (coreAt s 3).st ≠ .run) (h2 : (coreAt s 3).st ≠ .wait) :
    cmdSkeinLoad d (s.cmdTaken d) = if s.sec.custKey = List.replicate 32 0 then .fin 0x48 0 (s.cmdTaken d)
      else if core3Check s ((cmdData d).take (cmdLen d)) ≠ 0 then .fin (core3Check s ((cmdData d).take (cmdLen d))) 0 (s.cmdTaken d)
      else .fin Status.done 0 (core3Loaded (s.cmdTaken d) ((cmdData d).take (cmdLen d))) := by
  have hcore : coreAt (s.cmdTaken d) 3 = coreAt s 3 := coreAt_of_skein (cmdTaken_skein d) 3
  have hsec : (s.cmdTaken d).sec = s.sec := cmdTaken_sec d
  rw [cmdSkeinLoad_stopped ((cmdTaken_domOn d 31).trans hd) (by rwa [hcore]) (by rwa [hcore]), core3Check_congr hsec, hsec]

/-- The registers of a cleared core. -/
theorem clearCore_zero (x : SkCore) (ip : BitVec 8) :
    (∀ n < 16, dAt (clearCore x ip) n = 0) ∧ (∀ n < 2, aAt (clearCore x ip) n = 0) ∧
      ∀ n < 8, xAt (clearCore x ip) n = 0 ∧ mAt (clearCore x ip) n = 0 := by
  refine ⟨fun n hn => ?_, fun n hn => ?_, fun n hn => ⟨?_, ?_⟩⟩
  · simp [dAt, clearCore, hn]
  · simp [aAt, clearCore, hn]
  · simp [xAt, clearCore, hn]
  · simp [mAt, clearCore, hn]

/-! ## RESET (R387) -/

theorem mboxOut_inj (i j : Nat) (h : Reg.skeinMboxOut i = Reg.skeinMboxOut j) : i = j := by
  unfold Reg.skeinMboxOut at h
  omega

theorem resetCore_core (h : c < 4) : coreAt (resetCore s c) c = { clearCore (coreAt s c) 0 with restart := flag s (Reg.skeinCoreCtrl c) 31 } := by
  have hset : coreAt (coreReturn (setCore s c { clearCore (coreAt s c) 0 with restart := flag s (Reg.skeinCoreCtrl c) 31 }) c) c =
      { clearCore (coreAt s c) 0 with restart := flag s (Reg.skeinCoreCtrl c) 31 } := by
    rw [coreAt_of_skein (coreReturn_skein _ _), coreAt_setCore h]
  rw [resetCore]
  dsimp only
  split
  · rw [coreAt_of_skein ((forUpTo_kept (.refl 8 _) (fun _ _ h => setReg_kept h (.refl _)) (.of (.refl _) rfl)).skein_eq rfl), hset]
  · exact hset

theorem resetCore_mbox (hs : s.inv) {n : Nat} (hn : n < 8) : rd (resetCore s 3) (Reg.skeinMboxOut n) = 0 := by
  have hk : Kept 16778248 s (coreReturn (setCore s 3 { clearCore (coreAt s 3) 0 with restart := flag s (Reg.skeinCoreCtrl 3) 31 }) 3) :=
    coreReturn_kept (setCore_kept (.refl _ s) (.of (.refl _) rfl)) (.of (.refl _) rfl)
  exact ((rd_forUpTo_setReg mboxOut_inj (fun _ => 0) (hk.inv hs) 8).2 n hn).1

/-! ## Registers whose fields take every value -/

/-- Every field takes every value, and no rule beyond the table keeps one. -/
def openReg (a : Nat) : Bool :=
  plainReg a && !inSafety a && match findRow a with
    | some r => r.fields.all (fun f => f.ok.isEmpty)
    | none => false

theorem fldWrite_open (v : Nat) (x : Nat × Nat × Bool) {f : Fld} (h : f.ok.isEmpty = true) : (fldWrite v x f).2.2 = x.2.2 := by
  have hl : ∀ w, legal f w = true := fun w => by rw [legal, h]; rfl
  cases hf : f.acc <;> simp [fldWrite, hf, hl]

theorem hostStore_open (h : s.hostReaches a = true) (hc : openReg a = true) :
    ∃ y z, hostStore a 15 v s = writeEffects a v (rdS s a) (stored s a (y, z, false)) := by
  rw [openReg, Bool.and_eq_true, Bool.and_eq_true, Bool.not_eq_true'] at hc
  obtain ⟨⟨hp, hs⟩, hf⟩ := hc
  cases hr : findRow a with
  | none => rw [hr] at hf; cases hf
  | some r =>
    rw [hr] at hf
    have hl : ∀ (l : List Fld) (x : Nat × Nat × Bool), (∀ f ∈ l, f.ok.isEmpty = true) → (l.foldl (fldWrite v) x).2.2 = x.2.2 := fun l => by
      induction l with
      | nil => exact fun _ _ => rfl
      | cons f l ih =>
        intro x hx
        exact (ih _ fun g hg => hx g (List.mem_cons_of_mem f hg)).trans (fldWrite_open v x (hx f (List.mem_cons_self ..)))
    have hgood : (fieldsWritten r s a v).2.2 = false := hl r.fields _ (List.all_eq_true.1 hf)
    refine ⟨(fieldsWritten r s a v).1, (fieldsWritten r s a v).2.1, ?_⟩
    rw [hostStore_reached h hr, regStore_plain hp (.inl hs), if_neg (by rw [hgood]; decide), ← hgood]

/-- A register outside the MSI-X table that stands in the domain of core `c`. -/
def coreReg (a c : Nat) : Bool :=
  !inMsix a && decide (a ≠ Reg.skeinWinData) && match findRow a with
    | some r => match r.dom with
      | .skein => decide (rowIndex r a = c)
      | _ => false
    | none => false

theorem hostReaches_core (hf : coreReg a c = true) (h : hostReach s = true) (hd : domOn s (28 + c) = true) : s.hostReaches a = true := by
  rw [coreReg, Bool.and_eq_true, Bool.and_eq_true, decide_eq_true_eq, Bool.not_eq_true'] at hf
  obtain ⟨⟨hm, hw⟩, hr⟩ := hf
  cases hrow : findRow a with
  | none => rw [hrow] at hr; cases hr
  | some r =>
    have hdom : regDomain s a = 28 + c := by
      rw [regDomain, if_neg hw, hrow]
      rw [hrow] at hr
      dsimp only at hr ⊢
      cases hd : r.dom with
      | skein =>
        rw [hd] at hr
        rw [← of_decide_eq_true hr]
      | _ => rw [hd] at hr; cases hr
    rw [State.hostReaches, h, hrow, hdom, hd]
    change (true && true && !inMsix a && true) = true
    rw [hm]
    rfl

/-- SKEIN_CORE_CTRL[c]: its kinds, and where it stands among the arrays that `hostEffect` looks up. -/
theorem coreCtrl_row (hc : c < 4) : coreReg (Reg.skeinCoreCtrl c) c = true ∧ openReg (Reg.skeinCoreCtrl c) = true ∧
    Reg.skeinCoreCtrl c ∉ lineRegs ∧ trafficQuiet (Reg.skeinCoreCtrl c) = true ∧ Reg.skeinCoreCtrl c ∉ hostSideRegs ∧
    instAt (Reg.skeinCoreCtrl c) (Reg.shuttleChCtrl 0) 4 16 = none ∧ instAt (Reg.skeinCoreCtrl c) (Reg.skeinCoreCtrl 0) 0x100 4 = some c := by
  interval_cases c <;> decide

theorem hostEffect_coreCtrl (hc : c < 4) (w : Nat) : hostEffect (Reg.skeinCoreCtrl c) w s = if w.testBit 0 then resetCore s c else s := by
  obtain ⟨-, -, -, -, hh, hs, hi⟩ := coreCtrl_row hc
  simp only [hostSideRegs, List.mem_cons, List.not_mem_nil, or_false, not_or] at hh
  obtain ⟨h1, h2, h3, h4, h5, h6, h7, h8⟩ := hh
  rw [hostEffect, hs, hi]
  simp only [h1, h2, h3, h4, h5, h6, h7, h8, if_false]

theorem exec_skeinCoreReset {v : Word} (hc : c < 4) (h : hostReach s = true) (hd : domOn s (28 + c) = true) :
    ∃ y z, exec (.skeinCoreReset c 15 v) s = .next (resetCore (stored s (Reg.skeinCoreCtrl c) (y, z, false)) c) := by
  obtain ⟨hf, ho, hl, ht, -⟩ := coreCtrl_row hc
  obtain ⟨y, z, hy⟩ := hostStore_open (v := insBits v.toNat 0 0 1) (hostReaches_core hf h hd) ho
  rw [writeEffects_host hl ht, hostEffect_coreCtrl hc, testBit_insBits_one, if_pos rfl] at hy
  exact ⟨y, z, congrArg Host.Outcome.next ((if_pos hc).trans hy)⟩

theorem hostEffect_mboxCtrl (w : Nat) : hostEffect Reg.skeinMboxCtrl w s = if w.testBit 31 then mboxDoorbell s else s := by
  rw [hostEffect, if_neg (by decide), if_pos rfl]

theorem hostEffect_winData (w : Nat) : hostEffect Reg.skeinWinData w s = (skeinWindow (some w) s).2 := by
  rw [hostEffect, if_pos rfl]

theorem exec_mboxDoorbell {v : Word} (h : s.hostReaches Reg.skeinMboxCtrl = true) :
    ∃ y z, exec (.mboxDoorbell 15 v) s = .next (pendCore (stored s Reg.skeinMboxCtrl (y, z, false)) 3 4) := by
  obtain ⟨y, z, hy⟩ := hostStore_open (v := insBits v.toNat 31 31 1) h (by decide)
  rw [writeEffects_host (by decide) (by decide), hostEffect_mboxCtrl, testBit_insBits_one, if_pos rfl, mboxDoorbell] at hy
  exact ⟨y, z, congrArg Host.Outcome.next hy⟩

/-! ## The host window (R406) -/

/-- The window's address has moved on. -/
def winStepped (s : State) : State := setFld s Reg.skeinWinSel 13 0 ((fldS s Reg.skeinWinSel 13 0 + 1) % 16384)

theorem winStepped_field (hs : s.inv) : fldS (winStepped s) Reg.skeinWinSel 13 0 = (fldS s Reg.skeinWinSel 13 0 + 1) % 16384 := by
  rw [fldS, winStepped, rdS_setFld_same hs, bits_insBits (by decide) (by decide)]
  exact Nat.mod_mod _ _

theorem skeinWindow_refused {v : Option Nat} (h : windowRefused s (fldS s Reg.skeinWinSel 31 30) (fldS s Reg.skeinWinSel 17 16) v.isSome = true) :
    skeinWindow v s = (0, setBit (winStepped s) Reg.skeinWinSel 29) := by
  unfold skeinWindow
  exact if_pos h

theorem skeinWindow_read (h : windowRefused s (fldS s Reg.skeinWinSel 31 30) (fldS s Reg.skeinWinSel 17 16) false = false)
    (hm : fldS s Reg.skeinWinSel 17 16 = 1) : skeinWindow none s =
      ((sget 0 (coreAt s (fldS s Reg.skeinWinSel 31 30)).xmem (fldS s Reg.skeinWinSel 13 0)).toNat, winStepped s) := by
  unfold skeinWindow
  refine (if_neg (by rw [Option.isSome_none, h]; decide)).trans ?_
  rw [hm]
  rfl

theorem skeinWindow_writeY (hc : fldS s Reg.skeinWinSel 31 30 = 3) (hm : fldS s Reg.skeinWinSel 17 16 = 2) (w : Nat) :
    (skeinWindow (some w) s).2 = setCore (winStepped s) 3
      { coreAt s 3 with ymem := sput 0 (coreAt s 3).ymem (fldS s Reg.skeinWinSel 13 0) (BitVec.ofNat 16 w) } := by
  unfold skeinWindow
  refine (congrArg Prod.snd (if_neg ?_)).trans ?_
  · rw [hc, hm]
    exact fun h => Bool.false_ne_true h
  · rw [hc, hm]
    rfl

theorem exec_winWrite {v : Word} (hs : s.inv) (h : s.hostReaches Reg.skeinWinData = true) :
    ∃ u, exec (.skeinWinDataAccess (some v) 15) s = .next (skeinWindow (some v.toNat) u).2 ∧ u.inv ∧
      (∀ a hi lo, fldS u a hi lo = fldS s a hi lo) ∧ u.skein = s.skein := by
  have hy := hostStore_command (v := v.toNat) h (by decide) (.inl (by decide))
  rw [writeEffects_host (by decide) (by decide), hostEffect_winData] at hy
  exact ⟨_, congrArg Host.Outcome.next hy, stored_inv hs _, fun a hi lo => by rw [fldS, rdS_stored_self hs, ← fldS], (stored_kept _).skein_eq rfl⟩

/-- The window's answer is the word read; nothing else of the state is the answer's. -/
theorem hostRead_apart (x : Word) : ({ s with hostRead := x } : State).hostRead = x ∧
    (∀ a hi lo, fldS { s with hostRead := x } a hi lo = fldS s a hi lo) ∧ ({ s with hostRead := x } : State).skein = s.skein :=
  ⟨rfl, fun _ _ _ => rfl, rfl⟩

theorem exec_winRead (h : s.hostReaches Reg.skeinWinData = true) :
    ∃ t, exec (.skeinWinDataAccess none 15) s = .next t ∧ t.hostRead = BitVec.ofNat 32 (skeinWindow none s).1 ∧
      (∀ a hi lo, fldS t a hi lo = fldS (skeinWindow none s).2 a hi lo) ∧ t.skein = (skeinWindow none s).2.skein := by
  have hread : regRead Reg.skeinWinData s = { (skeinWindow none s).2 with hostRead := BitVec.ofNat 32 (skeinWindow none s).1 } := by
    rw [regRead, if_neg (by decide), if_pos rfl]
  exact ⟨_, congrArg Host.Outcome.next ((hostLoad_whole h).trans hread), hostRead_apart _⟩

theorem winStepped_skein : (winStepped s).skein = s.skein := setFld_skein _ _ _ _ _

theorem winStepped_inv (hs : s.inv) : (winStepped s).inv := setFld_inv hs _ _ _ _

/-- A refused write steps the address and sets the refusal's bit. -/
theorem winRefused_regs (hs : s.inv) : (rdS (setBit (winStepped s) Reg.skeinWinSel 29) Reg.skeinWinSel).testBit 29 = true ∧
    fldS (setBit (winStepped s) Reg.skeinWinSel 29) Reg.skeinWinSel 13 0 = (fldS s Reg.skeinWinSel 13 0 + 1) % 16384 := by
  have hi := winStepped_inv hs
  refine ⟨?_, ?_⟩
  · rw [setBit, rdS_setFld_same hi, Nat.testBit_mod_two_pow, testBit_insBits_one]
    rfl
  · rw [← winStepped_field hs, fldS, setBit, rdS_setFld_same hi, fldS]
    refine Nat.eq_of_testBit_eq fun n => ?_
    rw [bits_testBit, bits_testBit, Nat.testBit_mod_two_pow, insBits_testBit (Nat.le_refl 29)]
    by_cases hn : n < 13 + 1 - 0
    · rw [if_neg (by omega), decide_eq_true (show 0 + n < 32 by omega), Bool.true_and]
    · simp [hn]

end

/-- Settles O52: a swap that `swapBad` does not refuse writes the taps; the commands of core 3 act on its memories in the state with the
command taken; RESET and a bank switch leave the core that `clearCore` gives; the window and the doorbell act on the stored state. -/
theorem skeinServicesAct : Obligations.SkeinServicesAct := by
  unfold Obligations.SkeinServicesAct
  refine ⟨fun s hs hd hp hc hen hlos hmain hout => ?_, fun s corr epow hd hw => ?_, fun s d h => ⟨fun hb => ?_, fun hd h1 h2 => ⟨fun hk => ?_, fun hk hx => ?_, fun hk hx => ?_⟩⟩,
    fun s d h hd => ?_, fun s c hc hd hst hb hsl hlv => ?_, fun s c v hs hc hr hd => ?_, fun s v hs hr => ⟨fun hw hm => ?_, fun hw => ?_, fun hc hm hy => ?_⟩,
    fun s v hs hr hd => ?_⟩
  · obtain ⟨hw, ht, hf, hsel⟩ := eqSwap_swaps hs (swapBad_false hen hlos hmain hout)
    refine ⟨pendCores (eqSwap s) 0 2 3, congrArg Host.Outcome.next (if_pos ?_), by rw [pendCores_warp, hw], fun n hn => by rw [rd_pendCores, ht n hn],
      by rw [fld, rd_pendCores, ← fld, hf], by rw [pendCores_selvedge, hsel]⟩
    rw [hp, hd, bne_iff_ne.2 hc]
    rfl
  · refine ⟨pendCores (latchWindow corr epow s) 0 2 2, congrArg Host.Outcome.next (if_pos ?_), ?_, ?_, ?_, fun n hn => ?_, fun h28 => ?_⟩
    · rw [hw, hd]
      rfl
    · rw [pendCores_warp]
      rfl
    · rw [pendCores_warp]
      rfl
    · rw [pendCores_warp]
      rfl
    · rw [pendCores_warp]
      simp [latchWindow, setWarp, List.getD_eq_getElem?_getD, hn]
    · rw [pendCores_first (s := latchWindow corr epow s) h28]
      exact pendOn_ipend (by decide)
  · refine congrArg Host.Outcome.next (cmdRow_fin h ?_)
    have hcore : coreAt (s.cmdTaken d) 3 = coreAt s 3 := coreAt_of_skein (cmdTaken_skein d) 3
    refine if_pos ?_
    rw [cmdTaken_domOn, hcore]
    obtain h | h | h := hb <;> rw [h] <;> simp
  · exact congrArg Host.Outcome.next (cmdRow_fin h ((cmdSkeinLoad_taken hd h1 h2).trans (if_pos hk)))
  · exact congrArg Host.Outcome.next (cmdRow_fin h ((cmdSkeinLoad_taken hd h1 h2).trans ((if_neg hk).trans (if_pos hx))))
  · obtain ⟨hc, hg⟩ := core3Loaded_parts (s := s.cmdTaken d) ((cmdData d).take (cmdLen d))
    have hcore : coreAt (s.cmdTaken d) 3 = coreAt s 3 := coreAt_of_skein (cmdTaken_skein d) 3
    refine ⟨_, congrArg Host.Outcome.next (cmdRow_fin h ((cmdSkeinLoad_taken hd h1 h2).trans ((if_neg hk).trans (if_neg (fun hn => hn hx))))), ?_, hg⟩
    rw [hc, hcore]
  · have hcore : coreAt (s.cmdTaken d) 3 = coreAt s 3 := coreAt_of_skein (cmdTaken_skein d) 3
    refine ⟨_, congrArg Host.Outcome.next (cmdRow_fin h (needDomain_on ((cmdTaken_domOn d 31).trans hd))), ?_, rfl⟩
    rw [← hcore]
    exact zeroCore3_core.trans (by rw [haltCore_core (by decide)])
  · have hset := coreAt_setCore (c := c) (by omega) s { clearCore (coreAt s c) (coreAt s c).ipend with st := .run, runBank := (coreAt s c).bank }
    refine ⟨_, congrArg Host.Outcome.next (if_pos ?_), ?_⟩
    · rw [decide_eq_true hc, hd, safePoint, hsl, hlv, bne_iff_ne.2 hb]
      obtain h | h := hst <;> rw [h] <;> rfl
    · rw [hset]
      exact ⟨rfl, rfl, rfl, rfl, rfl, rfl, (clearCore_zero (coreAt s c) (coreAt s c).ipend).1, rfl, rfl⟩
  · obtain ⟨y, z, he⟩ := exec_skeinCoreReset (v := v) hc hr hd
    obtain ⟨u, hu⟩ : ∃ u, u = stored s (Reg.skeinCoreCtrl c) (y, z, false) := ⟨_, rfl⟩
    rw [← hu] at he
    have hcore : coreAt u c = coreAt s c := by rw [hu]; exact coreAt_of_skein ((stored_kept _).skein_eq rfl) c
    have hi : u.inv := by rw [hu]; exact stored_inv hs _
    obtain ⟨hz1, hz2, hz3⟩ := clearCore_zero (coreAt u c) 0
    refine ⟨_, he, ?_⟩
    rw [resetCore_core hc]
    refine ⟨rfl, rfl, rfl, hz1, hz2, fun h3 n hn => ?_, hz3, ?_⟩
    · subst h3
      exact resetCore_mbox hi hn
    · rw [← hcore]
      exact ⟨rfl, rfl, rfl⟩
  · obtain ⟨t, he, ha, hf, hk⟩ := exec_winRead hr
    rw [skeinWindow_read hw hm] at ha hf hk
    exact ⟨t, he, ha, (hf _ _ _).trans (winStepped_field hs), hk.trans winStepped_skein⟩
  · obtain ⟨u, he, hi, hf, hk⟩ := exec_winWrite (v := v) hs hr
    have hcore : ∀ n, coreAt u n = coreAt s n := coreAt_of_skein hk
    have hw' : windowRefused u (fldS u Reg.skeinWinSel 31 30) (fldS u Reg.skeinWinSel 17 16) (some v.toNat).isSome = true := by
      rw [hf, hf, windowRefused, hcore, ← windowRefused]
      exact hw
    rw [skeinWindow_refused hw'] at he
    obtain ⟨h29, hadr⟩ := winRefused_regs hi
    refine ⟨_, he, h29, by rw [hadr, hf], ?_⟩
    rw [setBit_skein, winStepped_skein, hk]
  · obtain ⟨u, he, hi, hf, hk⟩ := exec_winWrite (v := v) hs hr
    have hcore : coreAt u 3 = coreAt s 3 := coreAt_of_skein hk 3
    rw [skeinWindow_writeY ((hf _ _ _).trans hc) ((hf _ _ _).trans hm), hf, hcore] at he
    refine ⟨_, he, ?_⟩
    rw [coreAt_setCore (by decide)]
    exact ⟨sget_sput_same hy _ _, fun a ha => sget_sput_other 0 0 hy (Ne.symm ha) _, rfl⟩
  · obtain ⟨y, z, he⟩ := exec_mboxDoorbell (v := v) hr
    refine ⟨_, he, ?_⟩
    obtain ⟨u, hu⟩ : ∃ u, u = stored s Reg.skeinMboxCtrl (y, z, false) := ⟨_, rfl⟩
    have hkept : Kept 8 s u := by rw [hu]; exact stored_kept _
    rw [← hu, pendCore_same (by decide) (by rw [domOn, hkept.power_eq rfl]; exact hd), coreAt_of_skein (hkept.skein_eq rfl) 3]
    exact ⟨pendOn_ipend (by decide), fun h1 h2 => pendOn_wakes (by decide) h1 h2, pendOn_d⟩

end Sys2Proof.Machine
end

