-- ==== Sys2Proof/Proofs/ResetAndReady.lean ====
section
/-! SUPPORT. Proofs/ResetAndReady.lean: what the loss of the supplies and RESET_N leave of the registers and the units, and what READY
brings (R409, R418, R422, R423, R466, R474). -/

namespace Sys2Proof.Machine

open Sys2Proof

section
variable {s t : State} {a low : Nat}

/-! ## RESET_ASSERT (R422, R467, R474) -/

/-- The registers of the domains AON and SAFETY. -/
def alwaysOnReg (t : State) (a : Nat) : Bool := decide (regDomain t a = 0) || decide (regDomain t a = 9)

/-- What RESET_N leaves of `t`, before the reset's cause is recorded. -/
def resetLeaves (t : State) : State :=
  { coldState t with
    dram := t.dram, stg := skeep (alwaysOnReg t) t.stg, cur := skeep (alwaysOnReg t) t.cur, now := t.now, ns := t.ns
    safety := { t.safety with enNow := false }, pick := { commits := t.pick.commits }, power := { inReset := true }
    act := { serial := t.act.serial, held := t.act.held, heldByStop := t.act.heldByStop } }

theorem exec_resetAssert (hm : s.power.mode ≠ .off) (hl : 200 ≤ low) :
    exec (.resetAssert low) s = .next (setBit (resetLeaves (dramLose s)) Reg.globalResetCause 1) :=
  congrArg Host.Outcome.next (if_neg (fun h => h.elim hm (fun h => by omega)))

theorem resetLeaves_inv (h : t.inv) : (resetLeaves t).inv := by
  obtain ⟨htab, -⟩ := h
  simp only [State.tablesWf, Bool.and_eq_true] at htab
  obtain ⟨⟨⟨⟨⟨hstg, hcur⟩, -⟩, -⟩, -⟩, hdram⟩ := htab
  refine ⟨?_, rfl⟩
  simp only [State.tablesWf, Bool.and_eq_true]
  exact ⟨⟨⟨⟨⟨swf_skeep hstg _, swf_skeep hcur _⟩, rfl⟩, rfl⟩, rfl⟩, hdram⟩

theorem rd_resetLeaves_kept (h : t.inv) (ha : alwaysOnReg t a = true) : rd (resetLeaves t) a = rd t a :=
  congrArg BitVec.toNat (sget_skeep_in (inv_cur h) ha)

theorem rd_resetLeaves_lost (ha : alwaysOnReg t a = false) : rd (resetLeaves t) a = (regReset a).toNat :=
  congrArg BitVec.toNat (sget_skeep_out ha t.cur)

/-- A register of AON is kept, one of any domain but AON and SAFETY is lost. -/
theorem alwaysOnReg_fixed {d : Nat} (hf : fixedReg a d = true) : alwaysOnReg t a = (decide (d = 0) || decide (d = 9)) := by
  rw [alwaysOnReg, (fixedReg_row hf).2.2]

theorem dramLose_kept' (s : State) : Kept 10 s (dramLose s) := dramLose_kept (.refl _ s) (.refl _)

theorem rd_dramLose_other (h : s.inv) (ha : Reg.dramKeep ≠ a) : rd (dramLose s) a = rd s a := by
  rw [dramLose]
  split
  · exact rd_setFld_other h ha _ _ _
  · exact rd_setFld_other (s := { s with dram := [] }) ((kept_dram (.refl 2 s) rfl (fun _ => rfl)).inv h) ha _ _ _

theorem dramLose_dram : (dramLose s).dram = if flag s Reg.dramKeep 0 && fld s Reg.dramStat 31 30 == 2 then s.dram else [] := by
  rw [dramLose]
  split
  · rw [setBit_dram]
  · rw [clrBit, setFld_dram]

/-- A register that RESET_N keeps, and one that it takes. -/
theorem rd_reset_kept (hs : s.inv) {d : Nat} (hf : fixedReg a d = true) (hd : d = 0 ∨ d = 9) (h1 : Reg.dramKeep ≠ a) (h2 : Reg.globalResetCause ≠ a) :
    rd (setBit (resetLeaves (dramLose s)) Reg.globalResetCause 1) a = rd s a := by
  have hi := (dramLose_kept' s).inv hs
  have hk : alwaysOnReg (dramLose s) a = true := by
    rw [alwaysOnReg_fixed hf]
    obtain h | h := hd <;> rw [h] <;> rfl
  rw [setBit, rd_setFld_other (resetLeaves_inv hi) h2, rd_resetLeaves_kept hi hk, rd_dramLose_other hs h1]

theorem rd_reset_lost (hs : s.inv) {d : Nat} (hf : fixedReg a d = true) (hd : d ≠ 0 ∧ d ≠ 9) (h2 : Reg.globalResetCause ≠ a) :
    rd (setBit (resetLeaves (dramLose s)) Reg.globalResetCause 1) a = (regReset a).toNat := by
  have hi := (dramLose_kept' s).inv hs
  have hk : alwaysOnReg (dramLose s) a = false := by
    rw [alwaysOnReg_fixed hf, decide_eq_false hd.1, decide_eq_false hd.2]
    rfl
  rw [setBit, rd_setFld_other (resetLeaves_inv hi) h2, rd_resetLeaves_lost hk]

/-! ## READY (R409, R423) -/

/-- READY asserts in `u`, without a report of memory that failed. -/
def readyOn (i : ReadyIn) (u : State) : State :=
  setCore (setPower u { u.power with
    ready := true, corePllLock := i.corePll && !i.fails.testBit 1, lanePllLock := i.lanePll, lineRef := i.lineRef
    temp := i.temp, tempMax := i.temp, tempMean := i.temp }) 0 { coreAt u 0 with st := .halted }

/-- The calibration's result has been stored. -/
def calStored (i : ReadyIn) (s : State) : State := setReg s Reg.globalCalStat (min 255 i.ms * 2 ^ 24 + i.fails % 64)

theorem readyOn_parts (i : ReadyIn) (u : State) : (readyOn i u).power = { u.power with
      ready := true, corePllLock := i.corePll && !i.fails.testBit 1, lanePllLock := i.lanePll, lineRef := i.lineRef
      temp := i.temp, tempMax := i.temp, tempMean := i.temp } ∧
    (coreAt (readyOn i u) 0).st = .halted ∧ (readyOn i u).cur = u.cur ∧ (readyOn i u).selvedge = u.selvedge ∧ (readyOn i u).safety = u.safety := by
  refine ⟨rfl, ?_, rfl, rfl, rfl⟩
  rw [readyOn, coreAt_setCore (by decide)]

theorem execReady_eq (i : ReadyIn) (s : State) : execReady i s =
    .next (if s.power.mode = .calibrate ∧ s.power.inReset = false ∧ s.power.ready = false ∧ s.sec.chosen = true then
      fatalAtReady (if i.fails.testBit 5 then raiseFree (draw (readyOn i (calStored i s))).2 ((draw (readyOn i (calStored i s))).1 % 0x29) 0x0A1
        else readyOn i (calStored i s))
    else s) := by
  unfold execReady calStored
  generalize min 255 i.ms * 2 ^ 24 + i.fails % 64 = v
  obtain ⟨u, hu⟩ : ∃ u, u = setReg s Reg.globalCalStat v := ⟨_, rfl⟩
  rw [← hu]
  rfl

theorem fatalAtReady_none (hf : flag s Reg.selvedgeFatal 31 = false) (hl : (s.safety.latch && s.safety.reason == 8) = false) :
    fatalAtReady s = s := by
  rw [fatalAtReady, hf, hl]
  rfl

theorem exec_ready {i : ReadyIn} (hs : s.inv) (hm : s.power.mode = .calibrate) (hr : s.power.inReset = false) (hn : s.power.ready = false)
    (hc : s.sec.chosen = true) (hf : i.fails.testBit 5 = false) (hfat : flag s Reg.selvedgeFatal 31 = false)
    (hl : (s.safety.latch && s.safety.reason == 8) = false) : exec (.ready i) s = .next (readyOn i (calStored i s)) := by
  have hflag : flag (readyOn i (calStored i s)) Reg.selvedgeFatal 31 = false := by
    have hcur : ∀ u : State, (readyOn i u).cur = u.cur := fun _ => rfl
    rw [flag_of_cur (hcur _), calStored, flag, rd_setReg_other hs (by decide), ← flag, hfat]
  have hsafe : (readyOn i (calStored i s)).safety = s.safety := (readyOn_parts i (calStored i s)).2.2.2.2.trans (setReg_safety s Reg.globalCalStat _)
  have hx : exec (.ready i) s = execReady i s := rfl
  rw [hx, execReady_eq, if_pos ⟨hm, hr, hn, hc⟩, hf, if_neg Bool.false_ne_true, fatalAtReady_none hflag (by rw [hsafe, hl])]


end

/-- Settles O56: RESET_N leaves `resetLeaves` of the state whose DRAM `dramLose` has kept or taken; a register stays by its domain. -/
theorem resetKeepsAlwaysOn : Obligations.ResetKeepsAlwaysOn := by
  unfold Obligations.ResetKeepsAlwaysOn
  refine ⟨fun s => ⟨_, rfl, rfl, rfl, rfl, rfl, rfl, rfl, rfl, rfl, rfl, rfl⟩, fun s => ⟨_, rfl, rfl, rfl, rfl, rfl, rfl, rfl, rfl, rfl, rfl, rfl⟩,
    fun s low h => congrArg Host.Outcome.next (if_pos (.inr h)), fun s low hs hm hl => ?_, fun s hr hm => ⟨?_, fun hs => ?_⟩,
    fun s i hs hm hr hn hc hf hfat hl => ?_⟩
  · have hi := resetLeaves_inv ((dramLose_kept' s).inv hs)
    have hk := dramLose_kept' s
    refine ⟨_, exec_resetAssert hm hl, setBit_power _ _ _, ?_, ?_, ?_, ?_, ?_, ?_, flag_setBit hi (by decide), ?_, ?_, ?_, ?_, fun h1 h2 => ?_, fun h => ?_⟩
    · rw [setBit_act]
      exact congrArg (·.held) (hk.act_eq rfl)
    · rw [setBit_act]
      rfl
    · rw [setBit_safety]
      exact congrArg (fun x => { x with enNow := false }) (hk.safety_eq rfl)
    · exact rd_reset_kept hs (d := 0) (by decide) (.inl rfl) (by decide) (by decide)
    · exact rd_reset_kept hs (d := 0) (by decide) (.inl rfl) (by decide) (by decide)
    · rw [rd_reset_lost (a := Reg.weftCtrl) hs (d := 8) (by decide) (by decide) (by decide)]
      exact BitVec.ofNat_toNat ..
    · rw [setBit_host]
      rfl
    · rw [setBit_skein]
      rfl
    · rw [setBit_selvedge]
      rfl
    · rw [setBit_sec]
      exact congrArg flashOtp (hk.sec_eq rfl)
    · rw [setBit_dram]
      refine dramLose_dram.trans (if_pos ?_)
      rw [h1, h2]
      rfl
    · rw [setBit_dram]
      refine dramLose_dram.trans (if_neg fun hc => ?_)
      simp only [Bool.and_eq_true, beq_iff_eq] at hc
      obtain h | h := h
      · exact Bool.false_ne_true (h.symm.trans hc.1)
      · exact h hc.2
  · exact congrArg Host.Outcome.next (if_pos ⟨hr, hm⟩)
  · have hset := rd_setReg_same (s := setPower s { s.power with inReset := false, mode := .calibrate }) hs Reg.dramStat
      (if flag s Reg.dramKeep 1 then 3 * 2 ^ 30 else 0)
    refine (congrArg (bits · 31 30) hset).trans ?_
    split <;> rfl
  · obtain ⟨hp, hcore, hcur, hsel, hsafe⟩ := readyOn_parts i (calStored i s)
    refine ⟨_, exec_ready hs hm hr hn hc hf hfat hl, by rw [hp], ?_, by rw [hp], hcore, ?_, by rw [hsel, calStored, setReg_selvedge],
      by rw [hsafe, calStored, setReg_safety]⟩
    · rw [hp, calStored, setReg_power]
      exact hm
    · rw [rd, hcur, ← rd, calStored, rd_setReg_same hs]
      omega

end Sys2Proof.Machine
end

