-- ==== Sys2Proof/Proofs/PowerEvents.lean ====
section
/-! SUPPORT. Proofs/PowerEvents.lean: power failure, the drain to DOZE, woken domains and DRAM training (R112, R409, R413, R414, R421,
R428, R472). -/

namespace Sys2Proof.Machine

open Sys2Proof

section
variable {s t u : State} {a d n : Nat}

/-! ## PWR_FAIL (R112, R428) -/

/-- The latch of the laser's driver closes while its domain is on. -/
def dgLatched (v : State) : State := if domOn v 8 then setBit v Reg.weftStat 7 else v

theorem dgLatched_kept (v : State) : Kept 8 v (dgLatched v) := by
  rw [dgLatched]
  split
  · exact setBit_kept (.refl 8 v) (.refl _)
  · exact .refl 8 v

/-- The state as PWR_FAIL asserts, before the notification. -/
def pwrFailed (s : State) : State :=
  setAct (dgLatched (setPower s { s.power with pwrFail := true })) { (dgLatched (setPower s { s.power with pwrFail := true })).act with
    queue := (dgLatched (setPower s { s.power with pwrFail := true })).act.queue ++
      [⟨0x85, 0, slice (beBytes 6 (dgLatched (setPower s { s.power with pwrFail := true })).pick.count) 0 48⟩] }

theorem exec_pwrFailAssert (hf : s.power.pwrFail = false) (hr : s.power.inReset = false) (hm : s.power.mode ≠ .off) :
    exec .pwrFailAssert s = .next (globalNotify (pwrFailed s) 0x44 0) := by
  refine congrArg Host.Outcome.next ((if_neg ?_).trans rfl)
  rw [hf, hr]
  simpa using hm

theorem globalNotify_kept' (s : State) (sub pay : Nat) : Kept 8344 s (globalNotify s sub pay) := globalNotify_kept (.refl _ s) (.refl _)

theorem regsIn_globalNotify (s : State) (sub pay : Nat) : RegsIn [Reg.hostStat] s (globalNotify s sub pay) :=
  regsIn_notifyReg (List.mem_cons_self ..) _ _ _ _

theorem pwrFailed_parts (hs : s.inv) : (pwrFailed s).power = { s.power with pwrFail := true } ∧
    (pwrFailed s).act.queue.map (·.typ) = s.act.queue.map (·.typ) ++ [0x85] ∧ (pwrFailed s).inv ∧
    (domOn s 8 = true → flag (pwrFailed s) Reg.weftStat 7 = true) := by
  have hk := dgLatched_kept (setPower s { s.power with pwrFail := true })
  refine ⟨hk.power_eq rfl, ?_, ?_, fun hd => ?_⟩
  · rw [pwrFailed, setAct_act, hk.act_eq rfl]
    simp
  · exact hk.inv (by exact hs)
  · have hl : dgLatched (setPower s { s.power with pwrFail := true }) = setBit (setPower s { s.power with pwrFail := true }) Reg.weftStat 7 := if_pos hd
    rw [pwrFailed, flag_of_cur (setAct_cur _ _), hl]
    exact flag_setBit (by exact hs) (by decide)

/-! ## DRAM training (R472, R474) -/

/-- The port's status as its training ends READY. -/
def dramTrained (s : State) : State :=
  setReg s Reg.dramStat (2 * 2 ^ 30 + dramSizeOf (fld s Reg.dramCfg 2 1) * 2 ^ 16 + 4 * b2n (flag s Reg.dramKeep 1))

theorem exec_dramTrainingDone (hd : domOn s 13 = true) (ht : fld s Reg.dramStat 31 30 = 1) (f0 f1 : Bool) :
    exec (.dramTrainingDone f0 f1) s = .next (if f0 || f1 then setReg s Reg.dramStat (b2n f0 + 2 * b2n f1)
      else if flag s Reg.dramKeep 1 then clrBit (dramTrained s) Reg.dramKeep 1 else { dramTrained s with dram := [] }) :=
  congrArg Host.Outcome.next (if_pos (by rw [hd, ht]; rfl))

theorem dramSizeOf_lt (c : Nat) : dramSizeOf c < 2048 := by
  unfold dramSizeOf
  split <;> decide

/-- The fields of a trained port's status. -/
theorem dramStat_fields {m : Nat} (hm : m < 2048) (k : Bool) :
    bits (2 * 2 ^ 30 + m * 2 ^ 16 + 4 * b2n k) 31 30 = 2 ∧ bits (2 * 2 ^ 30 + m * 2 ^ 16 + 4 * b2n k) 26 16 = m ∧
      (2 * 2 ^ 30 + m * 2 ^ 16 + 4 * b2n k).testBit 2 = k ∧ 2 * 2 ^ 30 + m * 2 ^ 16 + 4 * b2n k < 2 ^ 32 := by
  have hk : b2n k ≤ 1 := by cases k <;> decide
  refine ⟨?_, ?_, ?_, by omega⟩
  · rw [bits, Nat.shiftRight_eq_div_pow]
    omega
  · rw [bits, Nat.shiftRight_eq_div_pow]
    omega
  · rw [Nat.testBit_eq_decide_div_mod_eq]
    cases k <;> simp [b2n] <;> omega

theorem dramTrained_stat (hs : s.inv) : (dramTrained s).inv ∧ fld (dramTrained s) Reg.dramStat 31 30 = 2 ∧
    dramMib (dramTrained s) = dramSizeOf (fld s Reg.dramCfg 2 1) ∧ flag (dramTrained s) Reg.dramStat 2 = flag s Reg.dramKeep 1 := by
  obtain ⟨h31, h26, h2, hlt⟩ := dramStat_fields (dramSizeOf_lt (fld s Reg.dramCfg 2 1)) (flag s Reg.dramKeep 1)
  have hset : rd (dramTrained s) Reg.dramStat = _ := rd_setReg_same hs Reg.dramStat _
  rw [Nat.mod_eq_of_lt hlt] at hset
  exact ⟨setReg_inv hs _ _, by rw [fld, hset, h31], by rw [dramMib, fld, hset, h26], by rw [flag, hset, h2]⟩

/-! ## Registers below the units' blocks -/

/-- Register `a` is left as it reads. -/
def ReadsSame (a : Nat) (s t : State) : Prop := s.inv → t.inv ∧ rd t a = rd s a

theorem ReadsSame.refl (a : Nat) (s : State) : ReadsSame a s s := fun h => ⟨h, rfl⟩

theorem ReadsSame.trans (h : ReadsSame a s t) (h' : ReadsSame a t u) : ReadsSame a s u := fun hs => by
  obtain ⟨ht, hr⟩ := h hs
  obtain ⟨hu, hr'⟩ := h' ht
  exact ⟨hu, hr'.trans hr⟩

theorem ReadsSame.of_kept {k : Nat} (h : Kept k s t) (hk : k.testBit 3 = false) : ReadsSame a s t := fun hs =>
  ⟨h.inv hs, by rw [rd, h.cur_eq hk, ← rd]⟩

theorem ReadsSame.of_regsIn {as : List Nat} (h : RegsIn as s t) (ha : a ∉ as) : ReadsSame a s t := fun hs => by
  obtain ⟨hi, hr⟩ := h hs
  exact ⟨hi, (hr a ha).1⟩

theorem ReadsSame.foldl {α : Type} {f : State → α → State} (hf : ∀ u x, ReadsSame a u (f u x)) (l : List α) : ReadsSame a s (l.foldl f s) := by
  induction l generalizing s with
  | nil => exact .refl a s
  | cons x l ih => exact (hf s x).trans ih

theorem ReadsSame.forUpTo {f : Nat → State → State} (hf : ∀ n u, ReadsSame a u (f n u)) (n : Nat) : ReadsSame a s (forUpTo n s f) :=
  .foldl (fun u x => hf x u) _

theorem readsSame_setReg {b : Nat} (hb : b ≠ a) (v : Nat) : ReadsSame a s (setReg s b v) := fun hs =>
  ⟨setReg_inv hs b v, rd_setReg_other hs hb v⟩

theorem readsSame_setFld {b : Nat} (hb : b ≠ a) (hi lo v : Nat) : ReadsSame a s (setFld s b hi lo v) := fun hs =>
  ⟨setFld_inv hs b hi lo v, rd_setFld_other hs hb hi lo v⟩

/-- A register of a unit's block, one of its own or one of an array, is none of GLOBAL. -/
theorem unitReg_ne {b : Nat} (ha : a < 0x00100000) (hb : 0x00100000 ≤ b) : b ≠ a := by omega

theorem arrayReg_ne {b k : Nat} (ha : a < 0x00100000) (hb : 0x00100000 ≤ b) : b + k ≠ a := by omega

section
variable (ha : a < 0x00100000)
include ha

theorem readsSame_globalNotify (sub pay : Nat) : ReadsSame a s (globalNotify s sub pay) :=
  .of_regsIn (regsIn_globalNotify s sub pay) (fun h => unitReg_ne ha (show 0x00100000 ≤ Reg.hostStat by decide) (List.mem_singleton.1 h).symm)

theorem readsSame_dramClosed : ReadsSame a s (dramClosed s) := readsSame_setReg (unitReg_ne ha (by decide)) _

theorem readsSame_secStatus : ReadsSame a s (secStatus s) := readsSame_setReg (unitReg_ne ha (by decide)) _

theorem readsSame_weftWrite : ReadsSame a s (weftWrite s) := by
  have h0 : ReadsSame a s (setAct s { s.act with conts := sput 0 s.act.conts 0 (contZero s) }) := .of_kept (setAct_kept (.refl _ s) (.refl _)) rfl
  rw [weftWrite]
  dsimp only
  split
  · exact h0
  · exact (((h0.trans (readsSame_setReg (unitReg_ne ha (by decide)) _)).trans (readsSame_setReg (unitReg_ne ha (by decide)) _)).trans
      (readsSame_setReg (unitReg_ne ha (by decide)) _)).trans (.forUpTo (fun n u => readsSame_setReg (arrayReg_ne ha (by decide)) _) 64)

end

/-! ## A woken domain (R413, R421) -/

theorem add_place (h : n.testBit d = false) : n + 2 ^ d = insBits n d d 1 := by
  have hb : bits n d d = 0 := by
    refine Nat.eq_of_testBit_eq fun k => ?_
    rw [bits_testBit, Nat.zero_testBit]
    by_cases hk : k < d + 1 - d
    · rw [show d + k = d by omega, h, Bool.and_false]
    · rw [decide_eq_false hk, Bool.false_and]
  rw [insBits, hb, Nat.zero_mul, Nat.sub_zero, show d + 1 - d = 1 by omega]
  simp

/-- What the domain's own unit shows once it is on. -/
def wokenUnit (d : Nat) (s : State) : State :=
  if d = 8 then weftWrite s else if d = 13 then dramClosed s else if d = 21 then secStatus s else s

theorem wokenUnit_kept (d : Nat) (s : State) : Kept 2097160 s (wokenUnit d s) := by
  rw [wokenUnit]
  split
  · exact weftWrite_kept (.refl _ s) (.refl _)
  · split
    · exact dramClosed_kept (.refl _ s) (.of (.refl _) rfl)
    · split
      · exact secStatus_kept (.refl _ s) (.of (.refl _) rfl)
      · exact .refl _ s

theorem readsSame_wokenUnit (ha : a < 0x00100000) (d : Nat) : ReadsSame a s (wokenUnit d s) := by
  rw [wokenUnit]
  split
  · exact readsSame_weftWrite ha
  · split
    · exact readsSame_dramClosed ha
    · split
      · exact readsSame_secStatus ha
      · exact .refl a s

/-- The domain's supply is on. -/
def wokenPower (d : Nat) (s : State) : State :=
  setPower s { s.power with wakes := sput 0 s.power.wakes d 0, isOn := s.power.isOn + 2 ^ d }

theorem exec_domainWakeOn (hw : sget 0 s.power.wakes d = 1) (hd : d < 32) (ho : domOn s d = false) :
    exec (.domainWakeOn d) s = .next (wokenUnit d (globalNotify (count (setBit (wokenPower d s) Reg.globalPdWoke d) 16 6) 0x41 d)) :=
  congrArg Host.Outcome.next (if_pos ⟨hw, hd, ho⟩)

end

end Sys2Proof.Machine
end

