-- ==== Sys2Proof/Proofs/DomainLoss.lean ====
section
/-! SUPPORT. Proofs/DomainLoss.lean: what a domain that goes off loses is its units' state and registers; GLOBAL_PD_CTRL, in an
always-on domain, reads as before (R414, R418). -/

namespace Sys2Proof.Machine

open Sys2Proof

section
variable {s t u : State} {a : Nat} (ha : a < 0x00100000)
include ha

/-! ## Reports, buffers and frames -/

theorem readsSame_raiseEv (src code ctx : Nat) : ReadsSame a s (raiseEv s src code ctx) :=
  .of_regsIn (regsIn_raiseEv (List.mem_singleton.2 rfl) src code ctx)
    (fun h => unitReg_ne ha (show 0x00100000 ≤ Reg.selvedgeStat by decide) (List.mem_singleton.1 h).symm)

theorem readsSame_notifyReg (r lo sub pay : Nat) : ReadsSame a s (notifyReg s r lo sub pay) :=
  .of_regsIn (regsIn_notifyReg (List.mem_singleton.2 rfl) r lo sub pay)
    (fun h => unitReg_ne ha (show 0x00100000 ≤ Reg.hostStat by decide) (List.mem_singleton.1 h).symm)

theorem readsSame_spoolFree (h o : Nat) : ReadsSame a s (spoolFree s h o) := by
  rw [spoolFree]
  split
  · exact .refl a s
  · dsimp only
    generalize freeKind s h o = k
    split
    · have h1 : Kept 16464 s (count s 9 1) := count_kept (.refl _ s) (.of (.refl _) rfl)
      split
      · exact .of_kept (setBuf_kept (draw_kept (count_kept h1 (.of (.refl _) rfl)) (.of (.refl _) rfl)) (.of (.refl _) rfl)) rfl
      · exact .of_kept (setBuf_kept h1 (.of (.refl _) rfl)) rfl
    · have hbad : ReadsSame a s (raiseEv (count s 9 (if k = 1 then 8 else if k = 2 then 6 else 7)) 0x0F 0x040 (k * 2 ^ 20 + h % 2 ^ 20)) :=
        (ReadsSame.of_kept (count_kept (.refl _ s) (.refl _)) rfl).trans (readsSame_raiseEv ha _ _ _)
      generalize raiseEv (count s 9 _) 0x0F 0x040 (k * 2 ^ 20 + h % 2 ^ 20) = v at hbad ⊢
      split
      · exact hbad
      · exact hbad.trans ((readsSame_setReg (unitReg_ne ha (by decide)) _).trans (readsSame_setReg (unitReg_ne ha (by decide)) _))

theorem readsSame_frameGone (f : Frame) : ReadsSame a s (frameGone s f) := by
  have h0 : ReadsSame a s (if f.handle = 0xFFFFF then s else spoolFree s f.handle f.owner) := by
    split
    · exact .refl a s
    · exact readsSame_spoolFree ha _ _
  rw [frameGone]
  generalize (if f.handle = 0xFFFFF then s else spoolFree s f.handle f.owner) = v at h0 ⊢
  have h1 : ReadsSame a s (sendHanded v f) := h0.trans (.of_kept (sendHanded_kept (.refl _ v) (.refl _)) rfl)
  generalize sendHanded v f = w at h1 ⊢
  split
  · exact h1
  · split
    · exact h1.trans (.of_kept (txTs_kept (.refl _ w) (.refl _)) rfl)
    · exact h1

/-! ## Queues, flights and copies -/

theorem readsSame_queueDrop (q n : Nat) (f : Frame) : ReadsSame a s (queueDrop s q n f) :=
  (ReadsSame.of_kept (qCnt_kept (qCnt_kept (count_kept (.refl 16 s) (.refl _)) (.refl _)) (.refl _)) rfl).trans (readsSame_frameGone ha f)

theorem readsSame_flushQueue (q : Nat) : ReadsSame a s (flushQueue s q) := by
  rw [flushQueue]
  exact (ReadsSame.of_kept (setQueue_kept (setReed_kept (.refl 131072 s) (.refl _)) (.refl _)) rfl).trans (.foldl (fun u f => readsSame_queueDrop ha q 7 f) _)

theorem readsSame_flushAll : ReadsSame a s (flushAll s) := .foldl (fun _ q => readsSame_flushQueue ha q) _

theorem readsSame_heddleLose : ReadsSame a s (heddleLose s) :=
  (ReadsSame.of_kept (setHeddle_kept (.refl 32768 s) (.refl _)) rfl).trans (.foldl (fun _ f => readsSame_frameGone ha f) _)

theorem readsSame_copyOut (same : Bool) (ring n : Nat) (f : Frame) (k : RxKind) : ReadsSame a s (copyOut s same ring n f k) := by
  have hall : Kept 16464 s (spoolAlloc s same 2 (bufOf s 50 f) (frameLen f)).2 := spoolAlloc_kept (.refl _ s) (.refl _)
  rw [copyOut]
  generalize spoolAlloc s same 2 (bufOf s 50 f) (frameLen f) = x at hall ⊢
  obtain ⟨o, v⟩ := x
  have hv : ReadsSame a s v := .of_kept hall rfl
  cases o with
  | none => exact hv.trans (.of_kept (count_kept (.refl _ v) (.refl _)) rfl)
  | some h =>
    dsimp only
    split
    · rename_i w hw
      have hk : Kept 8336 v w := rxDeliver_kept_of (.refl _ v) hw (.refl _)
      exact (hv.trans (.of_kept (count_kept hk (.of (.refl _) rfl)) rfl)).trans (readsSame_spoolFree ha _ _)
    · exact (hv.trans (.of_kept (count_kept (.refl _ v) (.refl _)) rfl)).trans (readsSame_spoolFree ha _ _)

theorem readsSame_reedEnqueue (f : Frame) (q colour : Nat) (same : Bool) (port : Nat) (b : Buf) :
    ReadsSame a s (reedEnqueue s f q colour same port b) := by
  unfold reedEnqueue
  split
  · exact readsSame_queueDrop ha _ _ _
  split
  · exact readsSame_queueDrop ha _ _ _
  split
  · exact readsSame_queueDrop ha _ _ _
  extract_lets k others
  split
  · exact readsSame_queueDrop ha _ _ _
  have hall : Kept 16464 s (spoolAlloc s same port b (frameLen f)).2 := spoolAlloc_kept (.refl _ s) (.refl _)
  generalize spoolAlloc s same port b (frameLen f) = x at hall ⊢
  obtain ⟨o, v⟩ := x
  have hv : ReadsSame a s v := .of_kept hall rfl
  cases o with
  | none => exact hv.trans (readsSame_queueDrop ha _ _ _)
  | some h =>
    refine hv.trans ?_
    dsimp -zeta only
    extract_lets bar z it s1 s2 s3 s4
    have h1 : ReadsSame a v s1 := .of_kept (setQueue_kept (.refl 131072 v) (.refl _)) rfl
    clear_value s1
    have h2 : ReadsSame a v s2 := by
      dsimp only [s2]
      split
      · exact h1.trans (.of_kept (newHead_kept (.refl _ s1) (.refl _)) rfl)
      · exact h1
    clear_value s2
    have h3 : ReadsSame a v s3 := h2.trans (.of_kept (qCnt_kept (qCnt_kept (count_kept (.refl 16 s2) (.refl _)) (.refl _)) (.refl _)) rfl)
    clear_value s3
    have h4 : ReadsSame a v s4 := by
      dsimp only [s4]
      split
      · exact h3.trans (.of_kept (count_kept (.refl 16 s3) (.refl _)) rfl)
      · exact h3
    clear_value s4
    exact h4.trans (.of_kept (qHwm_kept (.refl 16 s4) (.refl _)) rfl)

theorem readsSame_leave (same : Bool) (x : Flight) : ReadsSame a s (leave s same x) := by
  rw [leave]
  dsimp only
  split
  · exact (ReadsSame.of_kept (sendHanded_kept (.refl _ s) (.refl _)) rfl).trans (readsSame_reedEnqueue ha _ _ _ _ _ _)
  · exact (readsSame_copyOut ha _ _ _ _ _).trans (readsSame_frameGone ha _)
  · exact (ReadsSame.of_kept (count_kept (.refl _ s) (.refl _)) rfl).trans (readsSame_frameGone ha _)

theorem readsSame_releaseOne (same : Bool) (k : Nat) : ReadsSame a s (releaseOne s same k) := by
  rw [releaseOne]
  split
  · split
    · exact (ReadsSame.of_kept (dropFlight_kept (.refl _ s) (.refl _)) rfl).trans (readsSame_leave ha _ _)
    · exact .refl a s
  · exact .refl a s

/-! ## Frames that wait for the flow store -/

theorem readsSame_mirrorOut (same : Bool) (x : Flight) : ReadsSame a s (mirrorOut s same x).2.2 := by
  rw [mirrorOut]
  split
  · exact (readsSame_copyOut ha _ _ _ _ _).trans (.of_kept (sharesClock_kept (.refl 64 _) (.refl _)) rfl)
  · exact .refl a s

theorem readsSame_resolveWaiting (key : Nat) (l : List Flight) : ReadsSame a s (resolveWaiting key none false l s) := by
  induction l generalizing s with
  | nil => exact .refl a s
  | cons x l ih =>
    rw [resolveWaiting]
    split
    · dsimp only
      have h1 : ReadsSame a s (applyMiss s (frameDeck s x.frame) x false).2 := .of_kept (applyMiss_kept (.refl _ s) (.refl _)) rfl
      generalize applyMiss s (frameDeck s x.frame) x false = y at h1 ⊢
      have h2 : ReadsSame a s (sharesClock y.2).2 := h1.trans (.of_kept (sharesClock_kept (.refl 64 _) (.refl _)) rfl)
      generalize sharesClock y.2 = z at h2 ⊢
      have h3 := h2.trans (readsSame_mirrorOut ha z.1 y.1)
      generalize mirrorOut z.2 z.1 y.1 = m at h3 ⊢
      have h4 : ReadsSame a s (putFlight m.2.2 x m.2.1) := h3.trans (.of_kept (putFlight_kept (.refl _ _) (.refl _)) rfl)
      generalize putFlight m.2.2 x m.2.1 = v at h4 ⊢
      refine ReadsSame.trans ?_ ih
      split
      · exact h4.trans (readsSame_releaseOne ha _ _)
      · exact h4
    · exact ih

theorem readsSame_missesResolve : ReadsSame a s (missesResolve s) :=
  (ReadsSame.of_kept (setFlow_kept (.refl _ s) (.refl _)) rfl).trans (.foldl (fun u k => readsSame_resolveWaiting ha k u.heddle.flights) _)

/-! ## DRAM, the arbiter's requests, the identity engine -/

theorem readsSame_dramLose : ReadsSame a s (dramLose s) := by
  rw [dramLose]
  split
  · exact readsSame_setFld (unitReg_ne ha (by decide)) _ _ _
  · exact (ReadsSame.of_kept (kept_dram (.refl 2 s) rfl (fun _ => rfl)) rfl).trans (readsSame_setFld (unitReg_ne ha (by decide)) _ _ _)

theorem readsSame_setReq (r : Nat) (q : Req) : ReadsSame a s (setReq s r q) :=
  (ReadsSame.of_kept (setTension_kept (.refl _ s) (.refl _)) rfl).trans (readsSame_setReg (arrayReg_ne ha (by decide)) _)

theorem readsSame_reqReturn (r : Nat) : ReadsSame a s (reqReturn s r) := readsSame_setReq ha r {}

omit ha in
theorem readsSame_setSec (x : Sec) : ReadsSame a s (setSec s x) := fun hs => ⟨hs, rfl⟩

theorem readsSame_imgStop : ReadsSame a s (imgStop s) := by
  rw [imgStop]
  split
  · exact .refl a s
  · rw [setPhase, updSec]
    exact ((readsSame_setSec _).trans (readsSame_secStatus ha)).trans (readsSame_setReg (unitReg_ne ha (by decide)) _)

/-! ## Lanes and MACs -/

theorem readsSame_setMac (p : Nat) (x : MacU) : ReadsSame a s (setMac s p x) :=
  (ReadsSame.of_kept (setPorts_kept (.refl _ s) (.refl _)) rfl).trans (readsSame_setReg (arrayReg_ne ha (by decide)) _)

theorem readsSame_setLane (n : Nat) (x : Lane) : ReadsSame a s (setLane s n x) :=
  ((ReadsSame.of_kept (setPorts_kept (.refl _ s) (.refl _)) rfl).trans (readsSame_setFld (arrayReg_ne ha (by decide)) _ _ _)).trans
    (readsSame_setReg (arrayReg_ne ha (by decide)) _)

theorem readsSame_macLink (p : Nat) (up : Bool) : ReadsSame a s (macLink s p up) := by
  rw [macLink]
  split
  · exact .refl a s
  · exact ((readsSame_setMac ha _ _).trans (readsSame_setFld (arrayReg_ne ha (by decide)) _ _ _)).trans (readsSame_notifyReg ha _ _ _ _)

theorem readsSame_macAbort (p : Nat) : ReadsSame a s (macAbort s p) := by
  rw [macAbort]
  split
  · exact .refl a s
  · refine (readsSame_setMac ha _ _).trans (.foldl (fun u t => ?_) _)
    exact (ReadsSame.of_kept (macCount_kept (emit_kept (.refl 144 u) (.of (.refl _) rfl)) (.of (.refl _) rfl)) rfl).trans (readsSame_frameGone ha _)

theorem readsSame_sendBlock (n sync : Nat) (l : List Byte) : ReadsSame a s (sendBlock s n sync l) :=
  (readsSame_setLane ha _ _).trans (.of_kept (emit_kept (.refl 128 _) (.refl _)) rfl)

theorem readsSame_yonovAbort (n : Nat) : ReadsSame a s (yonovAbort s n) := by
  rw [yonovAbort]
  split
  · exact .refl a s
  · refine (((((readsSame_setLane ha n _).trans (.of_kept (draw_kept (draw_kept (.refl 64 _) (.refl _)) (.refl _)) rfl)).trans
      (.foldl (fun u b => readsSame_sendBlock ha n 1 b) _)).trans (readsSame_sendBlock ha n 2 _)).trans
      (.of_kept (laneCount_kept (.refl 16 _) (.refl _)) rfl)).trans (readsSame_frameGone ha _)

theorem readsSame_laneGo (n : Nat) (st : LaneSt) : ReadsSame a s (laneGo s n st) := by
  rw [laneGo]
  dsimp only
  split
  · exact .refl a s
  · have h : ReadsSame a s (linkNotify (setBit (setLane s n { laneAt s n with st := st }) (Reg.laneStat n) 4) 0 n (laneCode st)) :=
      ((readsSame_setLane ha _ _).trans (readsSame_setFld (arrayReg_ne ha (by decide)) _ _ _)).trans (readsSame_notifyReg ha _ _ _ _)
    split
    · exact (h.trans (readsSame_macLink ha _ _)).trans (readsSame_macLink ha _ _)
    · exact h

theorem readsSame_laneOff (n : Nat) : ReadsSame a s (laneOff s n) := by
  rw [laneOff]
  have h1 : ReadsSame a s (yonovAbort (macAbort (macAbort s n) (16 + n)) n) :=
    ((readsSame_macAbort ha n).trans (readsSame_macAbort ha (16 + n))).trans (readsSame_yonovAbort ha n)
  generalize yonovAbort (macAbort (macAbort s n) (16 + n)) n = v at h1 ⊢
  have h2 := h1.trans (readsSame_laneGo ha n .off)
  generalize laneGo v n .off = w at h2 ⊢
  have h3 := h2.trans (readsSame_setLane ha n { st := .off, ctle := (laneAt w n).ctle, scr := (laneAt w n).scr, boundary := (laneAt w n).boundary })
  generalize setLane w n _ = y at h3 ⊢
  rw [laneAggReg]
  refine ReadsSame.trans ?_ (readsSame_setReg (unitReg_ne ha (by decide)) _)
  split
  · exact h3
  · exact h3.trans (readsSame_reqReturn ha _)

/-! ## A unit, its registers, the domain -/

omit ha in
theorem readsSame_setPower (p : Power) : ReadsSame a s (setPower s p) := fun hs => ⟨hs, rfl⟩

omit ha in
theorem readsSame_endWorks (status : Nat) (p : CmdWork → Bool) : ReadsSame a s (endWorks status p s) :=
  .of_kept (endWorks_kept (.refl 270480 s) (.refl _)) rfl

theorem readsSame_identLose : ReadsSame a s (identLose s) := by
  unfold identLose
  extract_lets s1 x1 s2 lost x2 s3 x3
  have h1 : ReadsSame a s s1 := (readsSame_endWorks _ _).trans (readsSame_imgStop ha)
  clear_value s1
  have h2 : ReadsSame a s s2 := h1.trans (readsSame_setSec _)
  clear_value s2
  have h3 : ReadsSame a s s3 := h2.trans (.of_kept (setAct_kept (.refl 2097152 s2) (.refl _)) rfl)
  clear_value s3
  exact h3.trans (.of_kept (setWeft_kept (.refl 1048576 s3) (.refl _)) rfl)

theorem readsSame_lanesLose (d : Nat) :
    ReadsSame a s (forUpTo 16 s (fun n s => if laneDom n = d && (laneAt s n).st != .off then laneOff s n else s)) :=
  .forUpTo (fun n u => by
    split
    · exact readsSame_laneOff ha n
    · exact .refl a u) 16

theorem readsSame_macsLose (d : Nat) : ReadsSame a s (forUpTo 32 s (fun p s => if macDom p = d then macLink (macAbort s p) p false else s)) :=
  .forUpTo (fun p u => by
    split
    · exact (readsSame_macAbort ha p).trans (readsSame_macLink ha p false)
    · exact .refl a u) 32

omit ha in
theorem ReadsSame.ite {c : Prop} [Decidable c] (h : ReadsSame a s t) (h' : ReadsSame a s u) : ReadsSame a s (if c then t else u) := by
  split <;> assumption

theorem readsSame_unitLose (d : Nat) : ReadsSame a s (unitLose d s) := by
  have hports (v : State) (p : Ports) : ReadsSame a v (setPorts v p) := .of_kept (setPorts_kept (.refl _ v) (.refl _)) rfl
  have hbursts : Kept 3149840 s (endBursts (cancelBursts s)) := endBursts_kept (cancelBursts_kept (.refl _ s) (.of (.refl _) rfl)) (.of (.refl _) rfl)
  unfold unitLose
  refine .ite ?_ ?_
  · exact .of_kept (setWarp_kept (dropContexts_kept (.refl 524304 s) (.refl _)) (.of (.refl _) rfl)) rfl
  refine .ite ?_ ?_
  · exact .of_kept hbursts rfl
  refine .ite ?_ ?_
  · exact (ReadsSame.of_kept hbursts rfl).trans (.of_kept (setWeft_kept (.refl 1048576 _) (.refl _)) rfl)
  refine .ite ?_ ?_
  · exact (readsSame_heddleLose ha).trans (readsSame_endWorks _ _)
  refine .ite ?_ ?_
  · exact .foldl (fun u (x : Flight) => (ReadsSame.of_kept (count_kept (dropFlight_kept (.refl 32784 u) (.of (.refl _) rfl)) (.of (.refl _) rfl)) rfl).trans
      (readsSame_frameGone ha x.frame)) _
  refine .ite ?_ ?_
  · exact ((readsSame_missesResolve ha).trans (readsSame_endWorks _ _)).trans (.of_kept (setFlow_kept (.refl 65536 _) (.refl _)) rfl)
  refine .ite ?_ ?_
  · exact readsSame_dramLose ha
  refine .ite ?_ ?_
  · exact .of_kept (managerLose_kept (.refl _ s) (.refl _)) rfl
  refine .ite ?_ ?_
  · exact .of_kept (bankLose_kept (.refl _ s) (.refl _)) rfl
  refine .ite ?_ ?_
  · exact ((readsSame_flushAll ha).trans (readsSame_endWorks _ _)).trans (.of_kept (setReed_kept (.refl 131072 _) (.refl _)) rfl)
  refine .ite ?_ ?_
  · exact (readsSame_endWorks _ _).trans (readsSame_setSec _)
  refine .ite ?_ ?_
  · exact readsSame_identLose ha
  refine .ite ?_ ?_
  · exact .of_kept (setTime_kept (.refl _ s) (.refl _)) rfl
  refine .ite ?_ ?_
  · exact (readsSame_lanesLose ha d).trans (hports _ _)
  refine .ite ?_ ?_
  · exact (readsSame_macsLose ha d).trans (hports _ _)
  refine .ite ?_ ?_
  · exact (readsSame_endWorks _ _).trans (.of_kept (setDraft_kept (.refl 4194304 _) (.refl _)) rfl)
  refine .ite ?_ ?_
  · exact .of_kept (skeinLose_kept (.refl _ s) (.refl _)) rfl
  · exact .refl a s

omit ha in
theorem readsSame_regsLost {d e : Nat} (hf : fixedReg a e = true) (hd : e ≠ d) : ReadsSame a s (regsLost d s) := fun hs => by
  obtain ⟨-, -, hdom⟩ := fixedReg_row hf
  exact ⟨(regsLost_kept (.refl _ s) (.refl _)).inv hs, congrArg BitVec.toNat (sget_skeep_in (p := fun b => regDomain s b != d) (inv_cur hs) (by rw [hdom]; exact bne_iff_ne.2 hd))⟩

theorem readsSame_domainOff {d e : Nat} (hf : fixedReg a e = true) (hd : e ≠ d) : ReadsSame a s (domainOff d s) := by
  unfold domainOff
  extract_lets s1 s2
  have h1 : ReadsSame a s s1 := .foldl (fun u r => by
    split
    · exact readsSame_reqReturn ha r
    · exact .refl a u) _
  clear_value s1
  have h2 : ReadsSame a s s2 :=
    ((h1.trans (.of_kept (recoveryOff_kept (.refl _ s1) (.refl _)) rfl)).trans (readsSame_unitLose ha d)).trans (readsSame_regsLost hf hd)
  clear_value s2
  exact (h2.trans (readsSame_setPower _)).trans (.of_kept (count_kept (.refl 16 _) (.refl _)) rfl)

theorem readsSame_offLoop {e : Nat} (hf : fixedReg a e = true) (l : List Nat) (hl : ∀ d ∈ l, e ≠ d) (stop : Bool) : ReadsSame a s (offLoop stop l s) := by
  induction l generalizing s stop with
  | nil => exact .refl a s
  | cons d l ih =>
    have hrest := fun x hx => hl x (List.mem_cons_of_mem d hx)
    unfold offLoop
    extract_lets u fits x s1 s2
    split
    · exact ((readsSame_setPower _).trans (readsSame_domainOff ha hf (hl d List.mem_cons_self))).trans (ih hrest false)
    · refine ReadsSame.trans ?_ (ih hrest true)
      dsimp only [s2]
      split
      · exact .refl a s
      · exact (readsSame_setPower _).trans (.of_kept (count_kept (.refl _ _) (.refl _)) rfl)

omit ha in
theorem offList_not_alwaysOn {d : Nat} (h : d ∈ offList s) : alwaysOn d = false := by
  obtain ⟨-, h⟩ := List.mem_filter.1 h
  rw [Bool.and_eq_true, pdWanted, Bool.not_or, Bool.and_eq_true, Bool.not_eq_true'] at h
  exact h.2.1

theorem readsSame_switchOffs (hf : fixedReg a 3 = true) : ReadsSame a s (switchOffs s) := by
  rw [switchOffs]
  refine (readsSame_setPower _).trans (readsSame_offLoop ha hf _ (fun d hd he => ?_) false)
  rw [← he] at hd
  exact absurd (offList_not_alwaysOn hd) (by decide)

theorem readsSame_setMode (m : Mode) : ReadsSame a s (setMode s m) := by
  unfold setMode
  extract_lets old x s1
  split
  · exact .refl a s
  · have h1 : ReadsSame a s s1 := by
      dsimp only [s1]
      split
      · exact .of_kept (setAct_kept (.refl _ s) (.refl _)) rfl
      · exact .refl a s
    clear_value s1
    exact (h1.trans (readsSame_setPower _)).trans (readsSame_globalNotify ha _ _)

end

/-! ## The entry to DOZE (R414) -/

section
variable {s : State} {d n : Nat}

theorem domainOff_dozePhase (d : Nat) (s : State) : (domainOff d s).power.dozePhase = s.power.dozePhase := by
  unfold domainOff
  extract_lets s1 s2
  have h1 : Kept 1032 s s1 := kept_foldl (.refl _ s) (fun _ _ h => kept_ite (reqReturn_kept h (.refl _)) h)
  have h2 : s2.power = s.power := by
    have hk : Kept 125828346 s1 s2 := regsLost_kept (unitLose_kept (recoveryOff_kept (.refl _ s1) (.of (.refl _) rfl)) (.of (.refl _) rfl)) (.of (.refl _) rfl)
    exact (hk.power_eq rfl).trans (h1.power_eq rfl)
  clear_value s2
  rw [count_power, ← h2]
  rfl

theorem offLoop_dozePhase (stop : Bool) (l : List Nat) (s : State) : (offLoop stop l s).power.dozePhase = s.power.dozePhase := by
  induction l generalizing s stop with
  | nil => rfl
  | cons d l ih =>
    unfold offLoop
    extract_lets u fits x s1 s2
    split
    · exact (ih _ _).trans (domainOff_dozePhase d s1)
    · refine (ih _ _).trans ?_
      dsimp only [s2]
      split
      · rfl
      · rw [count_power]
        rfl

theorem switchOffs_dozePhase (s : State) : (switchOffs s).power.dozePhase = s.power.dozePhase := offLoop_dozePhase _ _ _

theorem forbidden_not_alwaysOn (h : forbidden .doze d = true) : alwaysOn d = false := by
  simp only [forbidden, alwaysOn, decide_eq_true_eq, decide_eq_false_iff_not, List.mem_cons, List.not_mem_nil, or_false] at h ⊢
  omega

/-- The bits of the domains below `n` that DOZE forbids are clear. -/
def DozeClear (n : Nat) (s : State) : Prop := ∀ d < n, forbidden .doze d = true → flag s Reg.globalPdCtrl d = false

theorem DozeClear.of_readsSame {t : State} (h : DozeClear n s) (hs : s.inv) (hr : ReadsSame Reg.globalPdCtrl s t) : DozeClear n t := fun d hd hf => by
  rw [flag, (hr hs).2]
  exact h d hd hf

theorem setPdBits_dozeClear (hs : s.inv) (hn : n ≤ 32) :
    ∀ t, t = forUpTo n s (fun d s => if forbidden .doze d && !alwaysOn d then setFld s Reg.globalPdCtrl d d (b2n false) else s) → t.inv ∧ DozeClear n t := by
  induction n with
  | zero => exact fun t ht => ⟨by rw [ht]; exact hs, fun d hd => absurd hd (Nat.not_lt_zero d)⟩
  | succ n ih =>
    intro t ht
    obtain ⟨hi, hc⟩ := ih (by omega) _ rfl
    rw [forUpTo_succ] at ht
    generalize forUpTo n s _ = v at hi hc ht
    subst ht
    cases hf : forbidden .doze n with
    | false =>
      refine ⟨hi, fun d hd hd' => hc d ?_ hd'⟩
      rcases Nat.lt_succ_iff_lt_or_eq.1 hd with h | h
      · exact h
      · rw [h, hf] at hd'
        cases hd'
    | true =>
      rw [forbidden_not_alwaysOn hf]
      refine ⟨setFld_inv hi _ _ _ _, fun d hd hd' => ?_⟩
      rcases Nat.lt_succ_iff_lt_or_eq.1 hd with h | h
      · exact (flag_clrBit_apart hi (by omega) (by omega)).trans (hc d h hd')
      · rw [h]
        exact flag_clrBit hi

/-- The entry waits for the domains to go off, or DOZE is reached. -/
theorem modeArrive_entering (hp : s.power.dozePhase = .entering) :
    ((modeArrive s).power.dozePhase = .entering ∨ (modeArrive s).power.mode = .doze) ∧ ∀ a < 0x00100000, ReadsSame a s (modeArrive s) := by
  unfold modeArrive
  split
  · exact ⟨.inl hp, fun a _ => .refl a s⟩
  split
  · exact ⟨.inl hp, fun a _ => .refl a s⟩
  · exact ⟨.inr (setMode_mode _), fun a ha => (readsSame_setPower _).trans (readsSame_setMode ha _)⟩

theorem dozeDrain_enters (hs : s.inv) (hp : s.power.dozePhase = .draining) (ha : s.power.dozeAged = true) (hi : spoolIdle s = true) :
    ∃ t, exec .dozeDrainComplete s = .next t ∧ (t.power.dozePhase = .entering ∨ t.power.mode = .doze) ∧
      ∀ d < 32, forbidden .doze d = true → flag t Reg.globalPdCtrl d = false := by
  have hpd : Reg.globalPdCtrl < 0x00100000 := by decide
  obtain ⟨v, hv⟩ : ∃ v, v = setPdBits s false (forbidden .doze) := ⟨_, rfl⟩
  obtain ⟨hvi, hvc⟩ := setPdBits_dozeClear hs (Nat.le_refl 32) v hv
  obtain ⟨w, hw⟩ : ∃ w, w = (if (reqAt v 0).state = .idle then v else reqReturn v 0) := ⟨_, rfl⟩
  have hvw : ReadsSame Reg.globalPdCtrl v w := by
    rw [hw]
    split
    · exact .refl _ v
    · exact readsSame_reqReturn hpd 0
  obtain ⟨x, hx⟩ : ∃ x, x = switchOffs (setPower w { w.power with dozePhase := .entering }) := ⟨_, rfl⟩
  have hwx : ReadsSame Reg.globalPdCtrl w x := by
    rw [hx]
    exact (readsSame_setPower _).trans (readsSame_switchOffs hpd (by decide))
  have hxp : x.power.dozePhase = .entering := by
    rw [hx, switchOffs_dozePhase]
    rfl
  have hexec : exec .dozeDrainComplete s = .next (modeArrive x) := by
    rw [hx, hw, hv]
    exact congrArg Host.Outcome.next (if_pos ⟨hp, ha, hi⟩)
  obtain ⟨hmode, hread⟩ := modeArrive_entering hxp
  exact ⟨_, hexec, hmode, hvc.of_readsSame hvi ((hvw.trans hwx).trans (hread _ hpd))⟩

end

/-- Settles O57: each event's arm in its state; through the switch-offs of a drain GLOBAL_PD_CTRL reads as the drain's step left it. -/
theorem powerEventsAct : Obligations.PowerEventsAct := by
  unfold Obligations.PowerEventsAct
  refine ⟨fun s hl hc => ?_, fun s hs hf hr hm => ?_, fun s => rfl, fun s hs hp ha hi => ?_, fun s d hs hw hd ho => ?_,
    fun s f0 f1 hs hd ht => ⟨fun hf => ?_, fun hk => ?_, fun hk => ?_⟩⟩
  · refine congrArg Host.Outcome.next ((if_pos hl).trans (if_neg ?_))
    rw [hc]
    decide
  · have hk := globalNotify_kept' (pwrFailed s) 0x44 0
    obtain ⟨hp, hq, hi, hflag⟩ := pwrFailed_parts hs
    refine ⟨_, exec_pwrFailAssert hf hr hm, (hk.power_eq rfl).trans hp, fun hd => ?_, by rw [hk.act_eq rfl, hq]⟩
    rw [flag, (regsIn_globalNotify (pwrFailed s) 0x44 0 hi).2 _ (by decide) |>.1, ← flag, hflag hd]
  · exact dozeDrain_enters hs hp ha hi
  · obtain ⟨v, hv⟩ : ∃ v, v = count (setBit (wokenPower d s) Reg.globalPdWoke d) 16 6 := ⟨_, rfl⟩
    have hk := globalNotify_kept' v 0x41 d
    have hw' := wokenUnit_kept d (globalNotify v 0x41 d)
    have hset : (setBit (wokenPower d s) Reg.globalPdWoke d).inv := setFld_inv (s := wokenPower d s) hs _ _ _ _
    have hi : v.inv := by rw [hv]; exact count_inv hset 16 6
    have hpow : (wokenUnit d (globalNotify v 0x41 d)).power.isOn = insBits s.power.isOn d d 1 := by
      rw [hw'.power_eq rfl, hk.power_eq rfl, hv, count_power, setBit_power, ← add_place ho]
      rfl
    have hon : ∀ e, domOn (wokenUnit d (globalNotify v 0x41 d)) e = if e = d then true else domOn s e := fun e => by
      rw [domOn, hpow, testBit_one_place]
      rfl
    have hwoke : Reg.globalPdWoke < 0x00100000 := by decide
    have hexec := exec_domainWakeOn hw hd ho
    rw [← hv] at hexec
    refine ⟨_, hexec, by rw [hon, if_pos rfl], ?_, ?_, fun e he hne => by rw [hon, if_neg hne]⟩
    · rw [flag, (((readsSame_globalNotify hwoke 0x41 d).trans (readsSame_wokenUnit hwoke d)) hi).2, ← flag, hv, flag_of_cur (count_cur _ _ _)]
      exact flag_setBit (s := wokenPower d s) hs hd
    · rw [cntVal, hw'.cnt_eq rfl, ← cntVal, globalNotify, (notifyReg_cnts (gs := [14]) (by simp) _ _ _ _).cntVal hi (by decide) (by decide), hv,
        count, cntVal_countBy_same hset, cntVal, setBit_cnt]
      rfl
  all_goals have hx := exec_dramTrainingDone hd ht
  · refine ⟨_, (hx f0 f1).trans (congrArg Host.Outcome.next (if_pos ?_)), ?_, ?_, ?_, by rw [setReg_dram]⟩
    · obtain h | h := hf <;> rw [h] <;> simp
    · rw [fld, rd_setReg_same hs]
      cases f0 <;> cases f1 <;> rfl
    · rw [rd_setReg_same hs]
      cases f0 <;> cases f1 <;> rfl
    · rw [rd_setReg_same hs]
      cases f0 <;> cases f1 <;> rfl
  · obtain ⟨-, h31, hmib, -⟩ := dramTrained_stat hs
    refine ⟨_, (hx false false).trans (congrArg Host.Outcome.next ((if_neg (by decide)).trans (if_neg (by rw [hk]; decide)))), h31, hmib, rfl⟩
  · obtain ⟨hi, h31, -, h2⟩ := dramTrained_stat hs
    refine ⟨_, (hx false false).trans (congrArg Host.Outcome.next ((if_neg (by decide)).trans (if_pos hk))), ?_, ?_, flag_clrBit hi, ?_⟩
    · rw [fld, clrBit, rd_setFld_other hi (by decide), ← fld, h31]
    · rw [flag, clrBit, rd_setFld_other hi (by decide), ← flag, h2, hk]
    · rw [clrBit, setFld_dram, dramTrained, setReg_dram]

end Sys2Proof.Machine
end
